-- ==== Sys2Proof/Word.lean ====
section
/-!
DEFINITION. The word types of the Pyrnas and nothing else.

R4 and R5 of spec/00_scope.md fix the numbering of bits and the byte order: bit 0 is the least significant bit,
and every structure is little-endian.
-/

namespace Sys2Proof

/-- One byte (R5). -/
abbrev Byte := BitVec 8

/-- A 32-bit word: a binary32 element, a register of BAR0, a CRC-32. -/
abbrev W32 := BitVec 32

/-- A 64-bit word: a scalar register of the Plough, a counter of the Collator, the cadence counter. -/
abbrev W64 := BitVec 64

/-- The 64 lanes of one vector register (R190). -/
abbrev Lanes := Vector W32 64

end Sys2Proof
end

