-- ==== Sys2Proof/Messages.lean ====
section
/-!
DEFINITION. The operand types of the commands: who a command names (a logical core, a site, a lane) and what the outside
world hands over with it (bytes, flits, readings, answers). Log entry 3.
-/

namespace Sys2Proof

/-- A logical core, 0 to 191 (R8). -/
abbrev CoreId := Fin 192
/-- A physical core site, 0 to 199 (R9). -/
abbrev SiteId := Fin 200
/-- A memory stack, 0 to 19 (R14). -/
abbrev StackId := Fin 20
/-- A fabric lane, 0 to 63 (R15). -/
abbrev LaneId := Fin 64
/-- A handle as the host sees it (R316). -/
abbrev Handle := BitVec 32

/-- The two PCI Express ports (R307). -/
inductive PciePort
  | a | b
  deriving DecidableEq, Repr

/-- The three resets of R309. -/
inductive HostResetKind
  | functionLevel | hot | perst
  deriving DecidableEq, Repr

/-- What meets a register write in its cycle (R7, R315): the mailbox word that the Binder writes, by an offset in it, and the bits of
CAD_EVENTS that hardware sets. -/
structure SameCycle where
  binderWord : Option Nat
  cadEvents : BitVec 7
  deriving DecidableEq, Repr

/-- What host reads of one Binder DMA returned: the bytes in order, and whether a PCIe error ended them (R325). -/
structure HostRead where
  bytes : List Byte
  error : Bool
  deriving DecidableEq, Repr

/-- The checkpointed partner's answer to a unit restore (R188). -/
inductive MirrorReply
  | copy (range : List Byte)   -- the 4 KiB-aligned range of its last snapshot
  | noCopy
  | unreachable (node : BitVec 16)
  deriving DecidableEq, Repr

/-- The partner's answer to a binding request; the order of the refusals is that of R296. -/
inductive BindReply
  | accepted | noStore | capacity | level | limit | unreachable | image
  deriving DecidableEq, Repr

/-- The answer of the program root and the covering node to a seed request (R305, R323). -/
inductive SeedReply
  | accepted | unreachable (node : BitVec 16) | memberLost (rank : BitVec 10)
  deriving DecidableEq, Repr

/-- The peripheral gates of R370: the three pages of PERIPH_ENABLE and the three inside the MC. -/
inductive Gate
  | sensorPage | logPage | tracePage | mcFlash | mcSideband | mcTest
  deriving DecidableEq, Repr

/-- The three memories of a core site (R211), coded as MEMORY of R225. -/
inductive CoreMem
  | quire | acc | endpaper
  deriving DecidableEq, Repr

/-- What the ECC of a read word shows (R223); for a corrected word, the bit. -/
inductive EccFind
  | clean | corrected (bit : BitVec 8) | uncorrectable
  deriving DecidableEq, Repr

/-- Who sent a tipping-path transfer (R176). -/
inductive TipSource
  | binder | bar2 | kettle | plough
  deriving DecidableEq, Repr

/-- One transfer of the tipping path: the destination memory, its first byte, and the bytes written, or the count read
(R176, R177). -/
inductive TipOp
  | writeCore (core : CoreId) (mem : CoreMem) (addr : Nat) (bytes : List Byte)
  | readCore (core : CoreId) (mem : CoreMem) (addr : Nat) (len : Nat)
  | writeDram (addr : Nat) (bytes : List Byte)
  | readDram (addr : Nat) (len : Nat)
  deriving DecidableEq, Repr

/-- What a survey measured (R228); the rest of the record comes from the device's own state. -/
structure Measures where
  siteTransit : List (SiteId × BitVec 8)
  stackLat : List (StackId × BitVec 64)
  linkLatency : List (LaneId × BitVec 16)
  linkCable : List (LaneId × BitVec 16)
  linkFec : List (LaneId × W32 × W32)   -- FEC counters of the link controllers, corrected and uncorrectable
  refPpb : BitVec 32
  inputMv : BitVec 16
  hostErrorAt : Option Nat   -- offset at which the record's copy to the host met a PCIe error
  deriving DecidableEq, Repr

/-- Why a stack is declared lost (R242). -/
inductive StackLossCause
  | phyFailed | overTemperature | uncorrectableRows
  deriving DecidableEq, Repr

/-- Why a link goes down (R277). -/
inductive LinkDownCause
  | lockLost | fecErrors | partnerChanged | disabled
  deriving DecidableEq, Repr

/-- One FEC-marked flit as the PCS delivers it (R278, R281). -/
structure Flit where
  bits : BitVec 512
  fecBad : Bool
  deriving DecidableEq, Repr

/-- A transfer: a header flit and its data flits (R278). -/
structure Transfer where
  header : Flit
  data : List Flit
  deriving DecidableEq, Repr

/-- What a binding request asks of a partner (R296): the classes, the cover kind, the 2 MiB units of a checkpoint, and the rank that the
device runs. -/
structure BindAsk where
  continuous : Bool
  checkpointed : Bool
  cover : BitVec 2
  checkUnits : Nat
  programId : W64
  rank : BitVec 10
  deriving DecidableEq, Repr

/-- A dynamic transfer by its source and its number there (R280). -/
structure TransferId where
  source : BitVec 16
  sequence : W32
  deriving DecidableEq, Repr

/-- What a dynamic or CTRL transfer asks of the node it reaches, where the rules give it a meaning (R184, R279, R296, R299, R302,
R305, R353). -/
inductive Content
  | bind (ask : BindAsk)
  | unbind (continuous checkpointed : Bool)
  | rejoin (rank : BitVec 10) (module : BitVec 16)   -- the rank, and the node of the module that rejoins
  | hold
  | resume (frame : BitVec 40)
  | leave (rank : BitVec 10)
  | restore (step : W64) (units : List (Nat × Nat))  -- units of a step's generation, by set and place, asked of a partner
  | recoveryEnd (status : Nat) (items : List W32)    -- a recovery stops at every member
  | record (step : W64) (pages : List (Nat × List Byte))   -- pages of a continuous record that have changed
  | fwRequest (code : Byte)   -- an image of a component, asked of a neighbour
  | fwData (bytes : List Byte)   -- its manifest and digest table, or one chunk
  | recovery (step last : W64)   -- the checkpoint step of a recovery, and the step in which the rank was lost
  | unit (set : Nat) (step : W64) (index total : Nat) (bytes : List Byte)   -- one unit of a set in shipment
  | state (step : W64) (bytes : List Byte)                                  -- the continuous record that travels with the sets
  | pageRead (addr len : Nat)
  | pageWrite (addr : Nat) (bytes : List Byte)
  | other
  deriving DecidableEq, Repr, Inhabited

/-- One link that an advertisement states (R285). -/
structure AdvLink where
  lane : LaneId
  partner : BitVec 16
  latency : BitVec 16
  deriving DecidableEq, Repr

/-- An advertisement (R285). -/
structure Advert where
  node : BitVec 16
  idSource : BitVec 2
  serial : W64
  ifLevel : Byte
  aligned : Bool
  links : List AdvLink
  programs : List (W64 × BitVec 10)   -- (PROGRAM_ID, RANK) staged or active
  bindings : List (BitVec 16 × BitVec 2 × BitVec 2)   -- partner, classes (continuous 1, checkpointed 2), cover kind
  spareStore : Nat
  sequence : W32
  deriving DecidableEq, Repr

/-- One member's contribution to the boundary vote (R262, R294). -/
structure Vote where
  rank : BitVec 10
  step : W64
  frame : BitVec 40
  fault : Bool
  failed : List Nat                    -- program links set in FAILED
  deriving DecidableEq, Repr

/-- The sensor groups of R336: a rail has one sensor for its voltage and one for its current. -/
inductive SensorGroup
  | die | stack | board | coolantIn | coolantOut | rail | railCurrent | inputPower
  deriving DecidableEq, Repr

/-- One reading: a temperature in 0.1 °C, a rail's voltage in mV or its current in 0.1 A, or the input power in W, for which `mean` is the
mean over the last second (R336, R378). -/
structure Reading where
  value : Int
  mean : Nat
  deriving DecidableEq, Repr

/-- A control message or an event of the sideband's bus (R331): the bus owner gives the endpoint ID and the I3C address; any other MCTP
control message by its code. -/
inductive MctpAsk
  | setEndpoint (eid : Byte) | assignAddress (addr : BitVec 7) | control (code : Byte)
  deriving DecidableEq, Repr

/-- A PLDM request of Type 0 by its command code, or of Type 2 for a numeric sensor, one for each figure of SENSOR_PAGE (R331, R336): a
sensor of R336, or the phases of a rail in service or fitted. -/
inductive PldmAsk
  | base (command : Byte) | sensor (group : SensorGroup) | phasesOk | phasesFitted
  deriving DecidableEq, Repr

/-- The rail and power shutdown conditions of R378. -/
inductive RailTrip
  | voltage (rail : Fin 22) | current (rail : Fin 22) | powerMean1s | powerMean10ms
  deriving DecidableEq, Repr

/-- The PLLs of R362. -/
inductive Pll
  | sb | ap (tile : Fin 4) | sp (tile : Fin 6) | bp | mp (stack : StackId) | lp (group : Fin 8) | pp (port : PciePort)
  deriving DecidableEq, Repr

/-- A signed life-cycle or key request (R344): the figures it carries. -/
structure SignedRequest where
  target : BitVec 4        -- target state, or the key index to revoke
  serial : W64
  nonce : BitVec 256
  keyIndex : BitVec 2
  pubX : BitVec 384
  pubY : BitVec 384
  sigR : BitVec 384
  sigS : BitVec 384
  deriving DecidableEq, Repr

/-- A signed key request, and the fuse bits whose blow fails its retries (R342, R344). -/
structure RevokeRequest where
  signed : SignedRequest
  blowFails : List Nat
  deriving DecidableEq, Repr

/-- A commit of the rollback count, and the fuse bits whose blow fails its retries (R342, R354). -/
structure SvnRequest where
  count : Nat
  blowFails : List Nat
  deriving DecidableEq, Repr

/-- What the MC samples as it leaves reset: PROFSEL, and the triggers of R345 that are present, by cause bits 3 to 0 (R347, R391). -/
structure ResetPins where
  profsel : BitVec 2
  triggers : BitVec 4
  deriving DecidableEq, Repr

/-- The four firmware components (R348). -/
inductive Component
  | mc | binder | linkUcode | memUcode
  deriving DecidableEq, Repr

/-- Initiators that a forced gate ends (R370). -/
inductive GateInitiator
  | host | binder | mc
  deriving DecidableEq, Repr

/-- The requesters of core memories, coded as REQUESTER of R225. -/
inductive Requester
  | folder | awl | plough | headband | needle | tipping | scrubber | binderLoad
  deriving DecidableEq, Repr

end Sys2Proof
end

