-- ==== Sys2Proof/Syntax.lean ====
section
/-!
DEFINITION. The commands of the block: one constructor for each row of spec/opcode_table.json, in the table's order.

Operands that come from outside the device (host bytes, flits, readings, the cycle of an access) are operands of the command;
what a sequencer of the device reads for itself (the next command word, the next Plough instruction, the body of a handle) is
read from the state by the meaning. Log entry 3.
-/

namespace Sys2Proof

inductive Instr
  /-- DMA_WRITE (R325): Host command that copies bytes from host memory into device memory by Binder DMA. -/
  | dmaWrite (h : Handle) (src : HostRead)
  /-- DMA_READ (R325): Host command that copies bytes from device memory into host memory by Binder DMA. -/
  | dmaRead (h : Handle) (errorAt : Option Nat)
  /-- INPUT (R325): Host command that writes a step's input bytes with a reference, for use in recovery. -/
  | inputCmd (h : Handle) (src : HostRead)
  /-- LOAD (R161): Host command that checks a program image in order and stages it or refuses it. -/
  | load (h : Handle)
  /-- ACTIVATE (R160): Host command that makes the staged image active at the next boundary, or at once if no program runs; its handle becomes the program handle. -/
  | activate (h : Handle)
  /-- UNLOAD (R325): Host command that stops the running program at a boundary or discards the staged image. -/
  | unload (h : Handle)
  /-- CANCEL (R189): Host command that cancels a handle; for a program it stops every Needle and Awl and starts the drain. -/
  | cancel (h : Handle)
  /-- ELASTIC_START (R141): Host command that starts the elastic section at the first step boundary after the command. -/
  | elasticStart (h : Handle)
  /-- RECIPE_UPDATE (R136): Host command that checks replacement recipe entries or a new allowance; they take effect at the next boundary after the commit. -/
  | recipeUpdate (h : Handle)
  /-- STREAM_RESUME (R188): Host command that restarts a halted stream from the first byte of its failing unit. -/
  | streamResume (h : Handle)
  /-- KERNEL_RESUME (R202): STREAM_RESUME with KERNEL set, which restarts a halted Plough kernel at its halted instruction. -/
  | kernelResume (h : Handle)
  /-- FROM_MIRROR_RESUME (R188): STREAM_RESUME with FROM_MIRROR set, which first restores the failing unit from the checkpointed partner and then resumes the stream. -/
  | fromMirrorResume (h : Handle) (reply : MirrorReply)
  /-- PAGED_MAP (R325): Host command that records a paged region in the paged pool, with its backing range. -/
  | pagedMap (h : Handle)
  /-- WAIT_STEP (R325): Host command that completes when a named step commits or the program ends. -/
  | waitStep (h : Handle)
  /-- QUEUE_LIMITS (R174): Host command that sets the Binder DMA, mirror and tipping-path limits. -/
  | queueLimits (h : Handle)
  /-- SET_APERTURE (R178): Host command that sets APERTURE_BASE for BAR2. -/
  | setAperture (h : Handle)
  /-- SET_ROTATION (R240): SET_SERVICE with SET_ROTATION set, which applies ROTATION_STEPS for guard rotation. -/
  | setRotation (h : Handle)
  /-- SET_LAYOUT (R235): SET_SERVICE with SET_LAYOUT set, which selects the reserve or the plain memory layout. -/
  | setLayout (h : Handle)
  /-- SET_PROFILE_WRITE (R381): SET_PROFILE with WRITE set, which stores a frame declaration in a profile unless PROFILE_LOCK discards it. -/
  | setProfileWrite (h : Handle)
  /-- SET_PROFILE_SELECT (R381): SET_PROFILE with SELECT set, which chooses the profile for the next start of the main domain. -/
  | setProfileSelect (h : Handle)
  /-- LINK_DISABLE (R277): LINK_CONTROL with DISABLE set, which takes a lane down and disables it. -/
  | linkDisable (h : Handle)
  /-- LINK_BRING_UP (R274): LINK_CONTROL with DISABLE clear, which starts the bring-up of a lane. -/
  | linkBringUp (h : Handle)
  /-- SURVEY (R229): Host command that starts an on-demand survey, or joins the survey already running. -/
  | survey (h : Handle)
  /-- DIAG_READ (R226): Host command that writes a site's error counters to host memory. -/
  | diagRead (h : Handle) (errorAt : Option Nat)
  /-- DIAG_READ_KETTLE_TABLE (R326): DIAG_READ with SITE 0xFF, which writes the kettle pairs of the last cancelled program to host memory. -/
  | diagReadKettleTable (h : Handle) (errorAt : Option Nat)
  /-- MAINTAIN (R245): Host command that makes every recorded soft repair hard while no program is active. -/
  | maintain (h : Handle)
  /-- MIRROR_STORE (R296): Host command that sets aside or withdraws the local mirror store. -/
  | mirrorStore (h : Handle)
  /-- MIRROR_BIND (R296): Host command that binds a mirror partner for given classes and a cover kind, or is refused. -/
  | mirrorBind (h : Handle) (reply : BindReply)
  /-- MIRROR_UNBIND (R296): Host command that lets the binding of a mirror class lapse. -/
  | mirrorUnbind (h : Handle)
  /-- SEED (R305): Host command by which a replacement module asks to rejoin and adopts its rank from the covering node. -/
  | seed (h : Handle) (reply : SeedReply)
  /-- COMMAND_TAKE (R314): The Binder takes the next pending slot of a mailbox once a handle is free, copies it, writes HANDLE and advances MB_HEAD. -/
  | commandTake (mailbox : Fin 8)
  /-- MB_TAIL_WRITE (R314): Host write of a mailbox doorbell, which publishes the slots it has filled. -/
  | mbTailWrite (mailbox : Fin 8) (tail : BitVec 16)
  /-- RING_HEAD_WRITE (R318): Host write of a ring's consumed count, which frees the handles whose entries it passes. -/
  | ringHeadWrite (ring : Fin 8) (head : W32)
  /-- RING_ENABLE (R318): Host setting of ENABLE on a ring, which clears its counts and writes again every posted entry not yet consumed. -/
  | ringEnable (ring : Fin 8)
  /-- TAKEOVER (R308): Host write of TAKEOVER on the standby port, which makes that port active if the active link has been down for 1 ms. -/
  | takeover (port : PciePort) (value : W32)
  /-- PERIPH_ENABLE_WRITE (R370): Write of PERIPH_ENABLE or of an MC peripheral enable bit, which opens or starts closing a peripheral gate. -/
  | periphEnableWrite (target : Option Gate) (value : W32) (busy : List Gate)
  /-- GATE_FORCED (R370): After 256 PCLK a request still in progress at a closing gate ends with an error, and the gate closes. -/
  | gateForced (gate : Gate) (initiator : GateInitiator)
  /-- CADENCE_LO_READ (R251): Read of CADENCE_LO, which also latches the upper half of the cadence counter into CADENCE_HI. -/
  | cadenceLoRead
  /-- REGISTER_WRITE (R7): Write of any register that has no row of its own, including W1C clears, applied by its access code. -/
  | registerWrite (offset : Nat) (bytes : List Byte) (same : SameCycle)
  /-- BAR2_READ (R178): Host read through BAR2 of device memory at APERTURE_BASE plus the offset, carried on the tipping path. -/
  | bar2Read (offset : Nat) (len : Nat)
  /-- BAR2_WRITE (R178): Host write through BAR2 of device memory, carried in 32-byte pieces on the tipping path. -/
  | bar2Write (offset : Nat) (bytes : List Byte)
  /-- HOST_RESET (R309): Function Level Reset, Hot Reset or PERST_N on a port, which resets the host-interface state but not the programs. -/
  | hostReset (port : PciePort) (kind : HostResetKind)
  /-- COMPLETION_POST (R319): A held completion is written to its ring once the ring has room and is enabled, and its interrupt is sent when due. -/
  | completionPost (ring : Fin 8)
  /-- EVENT_POST (R321): A step or device event writes its record and posts an event entry to EVENT_RING when room allows. -/
  | eventPost
  /-- MSIX_DELAY_EXPIRY (R320): A ring's DELAY timer expires and the interrupt is sent whatever COUNT says. -/
  | msixDelayExpiry (ring : Fin 8)
  /-- NOP (R142): Needle word that does nothing for one cycle. -/
  | needleNop (core : CoreId)
  /-- STEP_END (R140): Needle word that ends the pinned words of a step, with an optional sleep request. -/
  | stepEnd (core : CoreId)
  /-- SECTION_END (R140): Needle word that ends the prologue, the elastic section or a direct program. -/
  | sectionEnd (core : CoreId)
  /-- RUN (R148): Needle word that issues an operation template at the layer's committed level and starts its shadow load. -/
  | run (core : CoreId)
  /-- STREAM (R165): Needle word that arms an Awl stream over a range of block-list entries. -/
  | stream (core : CoreId)
  /-- KETTLE_SIGNAL (R151): Needle word that queues an increment to a kettle counter, to take effect once the work in its scope completes. -/
  | kettleSignal (core : CoreId)
  /-- KETTLE_SIGNAL_APPLY (R151): A queued kettle increment, or a completion signal, reaches its counter and releases the waits it satisfies. -/
  | kettleSignalApply (core : CoreId) (completion : Bool)
  /-- KETTLE_WAIT (R152): Needle word that holds until a kettle counter reaches COUNT. -/
  | kettleWait (core : CoreId)
  /-- CADENCE (R154): Needle word that holds until a cadence instant. -/
  | cadence (core : CoreId)
  /-- STEP_RELEASE (R154): The cadence counter reaches a release instant, the step is released, and any elastic section is suspended. -/
  | stepRelease
  /-- FABRIC_SEND (R155): Needle word that sends a transfer in its compiled link slot. -/
  | fabricSend (core : CoreId)
  /-- FABRIC_RECV (R155): Needle word that receives a transfer in its compiled link slot. -/
  | fabricRecv (core : CoreId)
  /-- FABRIC_SLOT_OPEN (R155): A link slot opens at its tick offset and the word waiting for it is carried out. -/
  | fabricSlotOpen (slot : Fin 256)
  /-- SNAPSHOT (R156): Needle word that requests a copy of a region set at the step boundary. -/
  | snapshot (core : CoreId)
  /-- DT_LOAD (R157): Direct word that loads the Press shadow words. -/
  | dtLoad (core : CoreId)
  /-- DT_PASS (R157): Direct word that runs one pass into an accumulator tile. -/
  | dtPass (core : CoreId)
  /-- DT_PLOUGH (R157): Direct word that runs one Plough kernel invocation. -/
  | dtPlough (core : CoreId)
  /-- DT_MOVE (R157): Direct word that copies between device memory and the Quire store through the Awl. -/
  | dtMove (core : CoreId)
  /-- PASS_EXCHANGE (R22): A pass begins: once its shadow load is complete and a pass-state set is free, the cells exchange active and shadow words. -/
  | passExchange (core : CoreId)
  /-- SHADOW_LOAD_COMPLETE (R43): The shadow load of a whole pass finishes, so the next exchange may take place. -/
  | shadowLoadComplete (core : CoreId)
  /-- PASS_ROW_ISSUE (R62): The Folder reads, aligns and builds the leaves of a pass-row, and the Press issues it as a tagged beat. -/
  | passRowIssue (core : CoreId) (cycle : Nat)
  /-- BEAT_WRITE (R63): A beat reaches cycle 24, is rounded and written through the Headband port, and frees its pass-state set if it is the last beat of its pass. -/
  | beatWrite (core : CoreId) (residueFault : Option (Fin 128))
  /-- AWL_READ_ISSUE (R171): The Awl issues a stream read when a tag is free, after translating it. -/
  | awlReadIssue (core : CoreId) (stream : Fin 64)
  /-- READ_RETURN (R171): Read data returns to the Awl, frees its tag, and is checked and landed. -/
  | readReturn (core : CoreId) (tag : Fin 640) (uncorrectable : Bool)
  /-- ENTRY_DELIVERY (R170): A block-list entry is delivered in order once all of its bytes have landed and passed their checks, and DELIVER_ID is signalled. -/
  | entryDelivery (core : CoreId) (stream : Fin 64)
  /-- MULL_BLOCK_RELEASE (R105): The expander releases a Mull block after its last byte, or poisons it whole. -/
  | mullBlockRelease (core : CoreId) (stream : Fin 64)
  /-- WRITE_ACK (R170): The memory controllers acknowledge a write-stream write, which frees its credit and may signal the stream. -/
  | writeAck (core : CoreId) (stream : Fin 64)
  /-- MULTICAST_ARM (R179): A member's arm reaches the issuer, which issues the entry's reads once every member has armed it. -/
  | multicastArm (core : CoreId) (stream : Fin 64)
  /-- TRANSLATION_WALK_DONE (R183): A translation-cache walk for a paged stream ends, and the stream continues or halts with PAGE_NOT_PRESENT. -/
  | translationWalkDone (core : CoreId) (stream : Fin 64)
  /-- PAGE_NOT_PRESENT (R184): Once notified of a page fault, the Binder evicts a page if it must and starts fetching the missing page. -/
  | pageNotPresent (core : CoreId) (stream : Fin 64)
  /-- PAGE_IN_COMPLETE (R184): A page fetch ends: the paged map is updated and the stream resumes, or it fails. -/
  | pageInComplete (core : CoreId) (stream : Fin 64) (page : Option (List Byte))
  /-- TIPPING_TRANSFER (R177): A tipping-path piece arrives and is written to, or read from, its destination memory. -/
  | tippingTransfer (source : TipSource) (op : TipOp)
  /-- TAG_EXPIRY (R189): During a cancellation drain an outstanding tag expires, and its late data is discarded. -/
  | tagExpiry (core : CoreId) (tag : Fin 640)
  /-- CANCEL_DRAIN_DONE (R189): The cancellation drain ends, and the handle completes CANCELLED with its kettle pairs. -/
  | cancelDrainDone
  /-- PLOUGH_NOP (R196): Plough instruction that does nothing. -/
  | ploughNop (core : CoreId)
  /-- END (R193): Plough instruction that ends an invocation, so the next invocation may begin. -/
  | ploughEnd (core : CoreId)
  /-- LOOP (R194): Plough instruction that opens a counted loop. -/
  | ploughLoop (core : CoreId)
  /-- ENDLOOP (R194): Plough instruction that closes the innermost loop. -/
  | ploughEndLoop (core : CoreId)
  /-- BRF (R194): Plough instruction that skips forward when a scalar condition holds. -/
  | brf (core : CoreId)
  /-- SLI (R196): Plough instruction that loads a scalar immediate. -/
  | sli (core : CoreId)
  /-- SADD (R196): Plough instruction that adds two scalar registers. -/
  | sadd (core : CoreId)
  /-- SSHL (R196): Plough instruction that shifts a scalar register left. -/
  | sshl (core : CoreId)
  /-- PSET (R196): Plough instruction that sets a pointer register from a scalar register. -/
  | pset (core : CoreId)
  /-- PADD (R196): Plough instruction that adds an immediate to a pointer register. -/
  | padd (core : CoreId)
  /-- VLD (R196): Plough instruction that loads a vector from a core memory. -/
  | vld (core : CoreId)
  /-- VST (R196): Plough instruction that stores a vector; writes to claimed accumulator elements are dropped as collisions. -/
  | vst (core : CoreId) (cycle : Nat)
  /-- SLD (R196): Plough instruction that loads scalar bytes, holding until the data arrives. -/
  | sld (core : CoreId)
  /-- SST (R196): Plough instruction that stores scalar bytes. -/
  | sst (core : CoreId) (cycle : Nat)
  /-- VADD (R197): Plough instruction for vector addition. -/
  | vadd (core : CoreId)
  /-- VSUB (R197): Plough instruction for vector subtraction. -/
  | vsub (core : CoreId)
  /-- VMUL (R197): Plough instruction for vector multiplication. -/
  | vmul (core : CoreId)
  /-- VFMA (R197): Plough instruction for fused multiply-add with a single rounding. -/
  | vfma (core : CoreId)
  /-- VMIN (R197): Plough instruction for the lane minimum. -/
  | vmin (core : CoreId)
  /-- VMAX (R197): Plough instruction for the lane maximum. -/
  | vmax (core : CoreId)
  /-- VABS (R196): Plough instruction that clears the sign. -/
  | vabs (core : CoreId)
  /-- VNEG (R196): Plough instruction that inverts the sign. -/
  | vneg (core : CoreId)
  /-- VDIV (R197): Plough instruction for correctly rounded division. -/
  | vdiv (core : CoreId)
  /-- VSQRT (R197): Plough instruction for correctly rounded square root. -/
  | vsqrt (core : CoreId)
  /-- VCMP (R196): Plough instruction that compares lanes into a mask. -/
  | vcmp (core : CoreId)
  /-- VSEL (R196): Plough instruction that selects lanes by a mask. -/
  | vsel (core : CoreId)
  /-- VBCAST (R196): Plough instruction that broadcasts a scalar to every lane. -/
  | vbcast (core : CoreId)
  /-- VRSUM (R198): Plough instruction for a fixed-tree lane sum. -/
  | vrsum (core : CoreId)
  /-- VRMAX (R198): Plough instruction for a fixed-tree lane maximum. -/
  | vrmax (core : CoreId)
  /-- VRAMAX (R198): Plough instruction for the largest non-zero finite magnitude among the lanes. -/
  | vramax (core : CoreId)
  /-- VEXP2 (R204): Plough instruction for the table-based base-2 exponential. -/
  | vexp2 (core : CoreId)
  /-- VLOG2 (R204): Plough instruction for the table-based base-2 logarithm. -/
  | vlog2 (core : CoreId)
  /-- VEXP (R205): Plough instruction for the natural exponential. -/
  | vexp (core : CoreId)
  /-- VLOG (R205): Plough instruction for the natural logarithm. -/
  | vlog (core : CoreId)
  /-- VLSE (R206): Plough instruction for the lane-wise base-2 log-sum-exp. -/
  | vlse (core : CoreId)
  /-- VRLSE (R198): Plough instruction for a fixed-tree log-sum-exp over the lanes. -/
  | vrlse (core : CoreId)
  /-- QFOLIO (R199): Plough instruction that scales, rounds and writes one weight folio and reports its counts. -/
  | qfolio (core : CoreId) (cycle : Nat)
  /-- QWIRE (R199): Plough instruction that scales, rounds and writes one wire folio. -/
  | qwire (core : CoreId) (cycle : Nat)
  /-- QCVT (R201): Plough instruction that rounds a vector into a narrow format and writes it. -/
  | qcvt (core : CoreId) (cycle : Nat)
  /-- UNPACK (R202): Plough instruction that checks a wire folio and unpacks it to binary32, halting on a failed check. -/
  | unpack (core : CoreId)
  /-- TESTF (R202): Plough instruction that reads a folio header without any check. -/
  | testf (core : CoreId)
  /-- MREENC (R203): Plough instruction that re-encodes a Mull block against the table in its header. -/
  | mreenc (core : CoreId)
  /-- VRAND (R208): Plough instruction that fills the lanes with counter-based random draws. -/
  | vrand (core : CoreId)
  /-- SCRUB_ACCESS (R227): The patrol scrubber's paced access to a core-memory word, which corrects and writes back errors. -/
  | scrubAccess (site : SiteId) (mem : CoreMem) (addr : Nat) (found : EccFind)
  /-- STEP_BOUNDARY (R18): Once every core has retired and every scheduled transfer has been delivered, the step is committed or discarded and replayed. -/
  | stepBoundary
  /-- CORE_WAKE (R369): At the computed waking tick, sleeping sites start their clocks, at most 25 per tick, before the release. -/
  | coreWake
  /-- GUARD_TEST_START (R359): A guard site becomes due for test (vacated, CE-flagged or after 3,600 s), and its test begins. -/
  | guardTestStart (site : SiteId)
  /-- GUARD_TEST_DONE (R359): A guard test ends, and the site passes or is retired. -/
  | guardTestDone (site : SiteId) (failPhase : Option Nat)
  /-- SURVEY_COMPLETE (R229): A survey ends, its record is written, and its measurements are compared with the program's bounds. -/
  | surveyComplete (m : Measures)
  /-- STACK_LOST (R242): A stack is declared lost, the step is discarded, and the device relocates and restores or ends the program. -/
  | stackLost (stack : StackId) (cause : StackLossCause)
  /-- RECOVERY_REPLAY_DONE (R242): The replay from the checkpoint after a stack loss catches up, and the device rejoins and returns to READY. -/
  | recoveryReplayDone
  /-- SOFT_REPAIR (R244): A repair candidate row is replaced by a spare in place of a refresh, or its frame is withdrawn. -/
  | softRepair (stack : StackId)
  /-- FRAME_MARK (R249): A frame-mark cycle is received and accepted, or ignored as spurious; an accepted mark ends the frame. -/
  | frameMark
  /-- MARK_MISSING (R249): The tick field reaches 16,000,000 without a mark, and the device starts the next frame itself. -/
  | markMissing
  /-- EFFECTIVE_MARK (R256): The trimmed mark arrives TRIM SCLK after the received mark; the counter advances, frame numbers are adopted and routing tables flip. -/
  | effectiveMark
  /-- CADENCE_SYNC (R255): A SYNC flit of the per-frame timing exchange is received and the offset is updated. -/
  | cadenceSync (lane : LaneId) (flit : Flit) (t4 : W32)
  /-- BOUNDARY_VOTE (R262): A vote contribution arrives and is merged; the complete vote decides commit or replay for every member. -/
  | boundaryVote (vote : Vote)
  /-- HOLD_DEADLINE (R263): A step's hold deadline passes without a complete vote, and HOLD is sent to the program root. -/
  | holdDeadline
  /-- HOLD (R263): A HOLD message arrives, is flooded by the program root, and puts the member into hold mode. -/
  | holdMsg
  /-- RESUME (R264): A RESUME message arrives, and the member completes its boundary and releases in the named frame. -/
  | resumeMsg (frame : BitVec 40)
  /-- HOLD_TIMEOUT (R265): HOLD_TIMEOUT frames pass in hold mode, and the members that have not contributed are declared lost. -/
  | holdTimeout
  /-- AUTO_NEGOTIATION (R274): Phase 1 of link bring-up completes, or fails. -/
  | autoNegotiation (lane : LaneId) (ok : Bool)
  /-- LINK_TRAINING (R274): Phase 2 of link bring-up completes, or times out. -/
  | linkTraining (lane : LaneId) (ok : Bool)
  /-- PCS_BLOCK_LOCK (R274): Phase 3: block lock, FEC lock and flit alignment are gained. -/
  | pcsBlockLock (lane : LaneId) (ok : Bool)
  /-- LINK_RETRY (R274): One second after a failed phase, the link returns to phase 1. -/
  | linkRetry (lane : LaneId)
  /-- PARTNER (R282): A partner record flit is received and checked, and the link is accepted or refused. -/
  | partner (lane : LaneId) (flit : Flit)
  /-- TIMING_EXCHANGE_DONE (R275): The 256 timing exchanges complete, and cable delay and latency are set. -/
  | timingExchangeDone (lane : LaneId) (ok : Bool)
  /-- LINK_DOWN (R277): Loss of lock, FEC errors or a changed partner takes a link down and records faults. -/
  | linkDown (lane : LaneId) (cause : LinkDownCause)
  /-- SCHED_TRANSFER (R294): A scheduled transfer arrives and is copied, collated or voted as its slot's OP says. -/
  | schedTransfer (lane : LaneId) (transfer : Transfer)
  /-- FORWARD (R293): A scheduled flit arriving at an intermediate node is sent on its OUT_LANE, or dropped if late. -/
  | forward (lane : LaneId) (header : Flit) (data : List Flit)
  /-- DYN_TRANSFER (R281): A dynamic transfer arrives and is delivered and acknowledged, discarded if bad, or forwarded by route. -/
  | dynTransfer (lane : LaneId) (transfer : Transfer)
  /-- ACK (R281): An acknowledgement of a dynamic transfer arrives at its source. -/
  | ackMsg (sequence : W32)
  /-- REFUSE (R288): A refusal arrives at a source, which refuses the transfer to its initiator. -/
  | refuseMsg (sequence : W32) (reason : Byte)
  /-- RESEND_TIMEOUT (R281): 100 µs pass without an ACK, and the source resends, up to 8 sends in all. -/
  | resendTimeout (sequence : W32)
  /-- CREDIT_WAIT_TIMEOUT (R288): A transfer has waited 200 µs for credits and moves to ESCAPE. -/
  | creditWaitTimeout (transfer : TransferId)
  /-- ESCAPE_TIMEOUT (R288): A transfer has waited 2 ms in the escape queue and is refused with ROUTE_UNKNOWN. -/
  | escapeTimeout (transfer : TransferId)
  /-- ADVERTISEMENT (R285): An advertisement arrives and is taken in and forwarded if newer; it drives rebuilds, peer binding and ID clash checks. -/
  | advertisement (lane : LaneId) (adv : Advert)
  /-- ADVERTISEMENT_PERIOD (R285): Every 100,000,000 ticks the node floods its advertisement. -/
  | advertisementPeriod
  /-- ADVERTISEMENT_EXPIRY (R285): A source has not re-advertised within 300,000,000 ticks, and its statements are dropped. -/
  | advertisementExpiry (node : BitVec 16)
  /-- ROUTING_REBUILD_DONE (R289): A rebuild of the shadow routing table completes, ready to flip at the next effective mark. -/
  | routingRebuildDone
  /-- CONTINUOUS_RECORD (R297): The partner receives a continuous record and swaps copies when its CRC checks. -/
  | continuousRecord (protectedNode : BitVec 16) (step : W64) (sequence : W32) (pages : List (Nat × List Byte))
  /-- CHECKPOINT_COMPLETE (R299): Every unit of a shipped set is acknowledged, and the partner replaces its older generation. -/
  | checkpointComplete (set : Fin 64)
  /-- MEMBER_LEAVE (R301): A MEMBER_LEAVE message arrives, and the program root starts recovery for that member. -/
  | memberLeave (rank : BitVec 10)
  /-- MEMBER_ISOLATION (R301): A member's links have been down at its neighbours for 50 ms, and it is declared lost. -/
  | memberIsolation (rank : BitVec 10)
  /-- COVER_BEGIN (R302): Restores complete, the partner holds the lost rank, and cover mode and replay begin. -/
  | coverBegin
  /-- COVER_END (R305): The rejoin shipment completes, the new module adopts the rank, and timed running resumes. -/
  | coverEnd (rank : BitVec 10)
  /-- PEER_WAIT_EXPIRY (R236): The activation's peer wait ends before every peer rank is advertised, and activation is refused. -/
  | peerWaitExpiry
  /-- BINDER_WATCHDOG (R329): The Binder watchdog expires after 50 ms, and the Binder restarts from its image. -/
  | binderWatchdog
  /-- BINDER_RESTARTED (R329): The restarted Binder has replayed its journal and resumes taking commands. -/
  | binderRestarted
  /-- MC_WATCHDOG (R335): The MC watchdog expires after 100 ms, and the MC restarts from mask ROM. -/
  | mcWatchdog
  /-- MC_RESTART (R335): Mask ROM wipes the secure region, verifies the MC image and enters it. -/
  | mcRestart
  /-- SENSOR_READ (R336): A sensor is read at its period and compared with its warning limit. -/
  | sensorRead (group : SensorGroup) (index : Nat) (reading : Option Reading)
  /-- SENSOR_PAGE_REFRESH (R336): Every 10 ms SENSOR_PAGE is refreshed from the latest readings. -/
  | sensorPageRefresh
  /-- THRESHOLD_TRIP (R337): A hardware shutdown comparator trips, forcing the safe states and a main-domain shutdown or a stack loss. -/
  | thresholdTrip (group : SensorGroup) (index : Nat) (reading : Reading)
  /-- RAIL_SHUTDOWN (R378): A rail outside ±8 % or above 110 % current, or input power over its limit, shuts the main domain down. -/
  | railShutdown (trip : RailTrip)
  /-- TAMPER_TRIGGER (R346): A tamper trigger is latched, and the wipe engine clears and verifies the secure region. -/
  | tamperTrigger (cause : Fin 6) (verifyRetries : Nat)
  /-- LOG_FLUSH (R340): Buffered log entries are written to flash in order, erasing the next sector when needed. -/
  | logFlush
  /-- MARCH_BLOCK_TEST (R356): Once per 1 ms the test engine borrows one SRAM block and runs March C- on it. -/
  | marchBlockTest (block : Nat) (passed : Bool)
  /-- BORROWED_BLOCK_ACCESS (R358): An access to a borrowed block aborts the test, which restores the block before serving the access. -/
  | borrowedBlockAccess (addr : Nat)
  /-- SHELF_RECORD (R283): Sideband message giving domain and shelf, from which the node ID is formed. -/
  | shelfRecord (domain : Byte) (shelf : Byte) (slotId : BitVec 4)
  /-- SET_UTC (R341): Sideband message that sets UTC. -/
  | setUtc (utc : W64)
  /-- MAIN_ON (R337): Sideband message that restarts the main domain after a shutdown, once no shutdown condition remains. -/
  | mainOn
  /-- LC_NONCE (R344): Sideband message that returns a fresh nonce for a life-cycle request. -/
  | lcNonce (nonce : BitVec 256)
  /-- LC_REQUEST (R344): Signed sideband message that moves the life cycle forward, or is refused. -/
  | lcRequest (req : SignedRequest) (blowFails : List Nat)
  /-- KEY_REVOKE (R344): Signed sideband message that revokes a fused signer key. -/
  | keyRevoke (req : RevokeRequest)
  /-- SVN_COMMIT (R354): Sideband message that blows the rollback thermometer up to a count. -/
  | svnCommit (req : SvnRequest)
  /-- PROFILE_WRITE (R381): Sideband message that writes the clock and power part of a profile. -/
  | profileWrite (profile : Byte) (bits : BitVec 128)
  /-- MCTP_CONTROL (R331): An MCTP control message on the sideband is answered. -/
  | mctpControl (ask : MctpAsk)
  /-- PLDM_MONITORING (R331): A PLDM Type 0 or Type 2 request, such as a sensor reading, is answered. -/
  | pldmMonitoring (ask : PldmAsk) (index : Nat)
  /-- REQUEST_UPDATE (R351): PLDM request that opens firmware update mode. -/
  | requestUpdate (agent : Nat)
  /-- PASS_COMPONENT_TABLE (R351): PLDM request that passes the component table. -/
  | passComponentTable (components : List Component)
  /-- UPDATE_COMPONENT (R351): PLDM request that starts the update of one component. -/
  | updateComponent (component : Component)
  /-- FIRMWARE_DATA (R351): A requested manifest or chunk arrives; it is checked in the first sweep, and checked and written in the second. -/
  | firmwareData (bytes : List Byte)
  /-- TRANSFER_COMPLETE (R351): PLDM transfer-complete phase ends the download. -/
  | transferComplete
  /-- VERIFY_COMPLETE (R350): The stored image is verified whole. -/
  | verifyComplete
  /-- APPLY_COMPLETE (R351): The update is applied and FW_WRITTEN is logged. -/
  | applyComplete
  /-- ACTIVATE_FIRMWARE (R352): PLDM request that activates written images: Binder handover, MC restart or microcode marked pending. -/
  | activateFirmware
  /-- FW_ACTIVATE_FAILED (R352): The new Binder does not report up within 2 s, so the old copy resumes. -/
  | fwActivateFailed
  /-- FABRIC_RECOVERY_TIMEOUT (R353): 30 s of fabric recovery pass without an image, and the MC waits for a PLDM update agent. -/
  | fabricRecoveryTimeout
  /-- GET_VERSION (R355): SPDM request for the protocol version. -/
  | getVersion
  /-- GET_CAPABILITIES (R355): SPDM request for capabilities. -/
  | getCapabilities
  /-- NEGOTIATE_ALGORITHMS (R355): SPDM request to negotiate algorithms. -/
  | negotiateAlgorithms (ecdsaP384 : Bool) (sha384 : Bool)
  /-- GET_DIGESTS (R355): SPDM request for certificate digests. -/
  | getDigests
  /-- GET_CERTIFICATE (R355): SPDM request for the certificate chain. -/
  | getCertificate (offset : Nat) (len : Nat)
  /-- CHALLENGE (R355): SPDM challenge signed with the identity key. -/
  | challenge (nonce : BitVec 256)
  /-- GET_MEASUREMENTS (R355): SPDM request for the measurement digests. -/
  | getMeasurements (index : Byte) (signed : Bool) (nonce : BitVec 256)
  /-- REFCLK_PRESENCE (R361): 1,024 good edges arrive and the MC may leave reset on bypass. -/
  | refclkPresence
  /-- REFCLK_QUALIFIED (R361): A qualification window of 2^20 good cycles completes, and the monitor is armed. -/
  | refclkQualified
  /-- REFCLK_LOSS (R371): The missing-edge detector trips and the safe states are forced. -/
  | refclkLoss
  /-- PLL_LOCK (R362): A PLL locks, and its domain switches from bypass. -/
  | pllLock (pll : Pll)
  /-- ACLK_RAMP_STEP (R366): Each 10 µs hold of the ACLK ramp ends, and the divider steps down. -/
  | aclkRampStep
  /-- STANDBY_ON (R374): The input rises past 33 V and the standby converter starts. -/
  | standbyOn
  /-- STANDBY_OFF (R374): The input has been below 31 V for 1 ms, and the whole module turns off. -/
  | standbyOff
  /-- MAIN_UNDERVOLTAGE (R374): The input has been below 34 V for 100 µs, and the main domain shuts down. -/
  | mainUndervoltage
  /-- MAIN_OVERVOLTAGE (R374): The input has been above 52 V for 1 ms, and the main domain shuts down. -/
  | mainOvervoltage
  /-- INPUT_CLAMP (R374): The input rises above 56 V, the clamp engages and the main domain shuts down. -/
  | inputClamp
  /-- PHASE_SHED (R377): A failing phase or converter is shed, and the main domain shuts down if fewer than N phases remain. -/
  | phaseShed (rail : Fin 23) (phase : Nat)
  /-- MC_RESET_RELEASE (R382): PRESENT_N has been low for 10 ms, and the MC leaves reset for start-up steps 1 and 2. -/
  | mcResetRelease (pins : ResetPins)
  /-- STARTUP_RAILS_UP (R382): Start-up step 4 completes with every main rail in range, and the PLLs begin to lock. -/
  | startupRailsUp
  /-- STARTUP_TRAINING_DONE (R382): Start-up step 6 completes (microcode loaded, repairs made hard, memory trained), and the survey starts. -/
  | startupTrainingDone (absent : List StackId)
  /-- BINDER_BOOT_DONE (R382): Start-up step 8 completes: the Binder image is verified and booted, and BINDER_UP is set. -/
  | binderBootDone
  /-- STARTUP_BIST_DONE (R382): Core BIST of all sites completes, and STATE becomes READY or DEGRADED. -/
  | startupBistDone (failed : List SiteId)
  /-- HOT_SWAP_SWITCH_ON (R393): The hot-swap switch finishes charging the first-stage input, so step 4 may start. -/
  | hotSwapSwitchOn
  /-- MODULE_EXTRACT (R394): PRESENT_N goes high, and a main-domain shutdown begins within 1.2 ms. -/
  | moduleExtract
  /-- BREAKER_TRIP (R395): The input current exceeds the breaker limit, and the hot-swap switch turns off. -/
  | breakerTrip (current : Nat)
  /-- HOST_INTERFACE_USABLE (R309): After a Function Level Reset, Hot Reset or PERST_N, the host interface becomes usable again, so configuration requests stop getting Request Retry Status and BAR0 and BAR2 accesses are served. -/
  | hostInterfaceUsable
  /-- HASHED_NODE_ID (R283): No shelf record arrives within 5 s of standby power, so the device takes the hashed node ID in domain 63 with ID_SOURCE 1. -/
  | hashedNodeId
  /-- MAIN_START_ALLOWED (R374): The input voltage rises into 36 V to 48 V, which lets start-up step 4 proceed, or lets the hot-swap switch begin charging. -/
  | mainStartAllowed
  /-- STACK_RETRAIN_DONE (R372): After the reference returns, the stacks leave self-refresh and finish retraining their PHY timing, which advances the return sequence toward the replay release. -/
  | stackRetrainDone
  /-- DRAM_PATROL_SCRUB (R243): A stack controller's patrol scrub reads a DRAM row, corrects or counts errors, raises the stack's CE and UE counts, and makes the row a repair candidate after three corrected passes in a row. -/
  | dramPatrolScrub (stack : StackId) (bank : Nat) (row : Nat) (found : EccFind)
  /-- PCIE_LINK_DOWN (R308): The Data Link Layer of a PCI Express port goes down, which enables a later TAKEOVER on the other port and is shown in the survey record. -/
  | pcieLinkDown (port : PciePort)
  /-- PCIE_LINK_UP (R308): A PCI Express port trains its link and the link returns, with the port then serving requests as the active or standby port. -/
  | pcieLinkUp (port : PciePort) (width : BitVec 5) (generation : BitVec 3)
  deriving DecidableEq, Repr

end Sys2Proof
end

