-- ==== Sys2Proof/Config.lean ====
section
/-!
DEFINITION. What the manual leaves to the module or does not state as a value: free values. Every constant here is opaque, so a
claim that is proved holds whatever the value is. Each is named in the assumption log.
-/

namespace Sys2Proof.Config

/-- A byte of device memory whose content the manual calls undefined: after main power has been off (R16), a change of
layout (R325) or the loss of a stack (R242). The first argument counts these, the second is the address. Log entry 4. -/
opaque undefinedDram : Nat → Nat → Byte

/-- A fresh free value for a result or figure that the manual does not state; the first argument is the step's free-value
counter, the second tells several values of one step apart. Log entry 7. -/
opaque freeValue : Nat → Nat → W64

/-- Bank and row of the DRAM row that holds a 256-byte unit of a stack's frame: the manual names banks and rows (R243) and does
not say which address lies in which. Arguments: frame and unit in the frame. Log entry 7. -/
opaque dramRow : Nat → Nat → Nat × Nat

/-- SHA-384 of a byte string (R349, R350). The manual names the standard and does not restate it. Log entry 8. -/
opaque sha384 : List Byte → BitVec 384

/-- ECDSA P-384 verification of (key x, key y, digest, r, s) (R344, R350). Log entry 8. -/
opaque ecdsaVerify : BitVec 384 → BitVec 384 → BitVec 384 → BitVec 384 → BitVec 384 → Bool

/-- The identity key that HKDF-SHA-384 derives from DEVICE_SECRET (R355). Log entry 8. -/
opaque identityKey : BitVec 256 → BitVec 384

/-- An ECDSA P-384 signature made with a private key over a digest (R355). Log entry 8. -/
opaque ecdsaSign : BitVec 384 → BitVec 384 → BitVec 768

/-- The SHA-384 of the public key of manufacturing, held in mask ROM (R343); and the fixed digest of the mask ROM (R355).
Log entry 8. -/
opaque manufacturingKeyHash : BitVec 384
opaque maskRomDigest : BitVec 384

/-- The certificate chain of slot 0 that stands in flash as manufacture left it (R338, R355), and the digest of the fuse summary of measurement 6, whose layout
the manual does not give, as a function of the fields it names (R355). Log entry 8. -/
opaque certificateChain : List Byte
opaque fuseDigest : List Nat → BitVec 384

/-- SEVERITY of a colophon-log entry by its code: R339 gives the field and its four values, and no rule says which code has
which, but for the failed verify of R346. Log entry 7. -/
opaque logSeverity : Nat → BitVec 2

/-- The version number of the mask ROM that MC_START reports (R340). Log entry 7. -/
opaque maskRomVersion : W32

/-- The measured latency in ns of a program link that does not touch this rank: the link-slot table names its number only (R291, R293)
and no rule says where its ends are found; and whether the lanes of two consecutive links of a path lie on the same I/O tile of the node
between them (R276). Log entry 7. -/
opaque remoteLatency : Nat → Nat
opaque sameTile : Nat → Nat → Bool

/-- A figure by which an item or a result names a thing that the manual lists and does not number: kind 0 a sensor group (R336, R337),
1 a fuse field (R342), 2 a restart cause (R335), 3 a peripheral of a gate and 4 its initiator (R370), 5 a requester of the MC SRAM
(R334, R356), 6 a refusal reason (R340, R344), 7 a message without a code (R353), 8 the SUBTYPE of a CTRL message (R280), 9 where the AER
capability stands (R307). Log entry 7. -/
opaque figure : Nat → Nat → Nat

/-- Errors of stored words of the core memories to come: the reference edge, the site, the memory, a byte of the word, and what the ECC
will find (R223). No rule says which come. Log entry 60. -/
opaque upsets : List (Nat × SiteId × CoreMem × Nat × EccFind)

/-- Errors of words of the MC SRAM to come: the reference edge, the address, and the DMA requester that meets it, or none for the
processor's own access (R334). No rule says which come. Log entry 60. -/
opaque sramUpsets : List (Nat × Nat × Option Nat)

/-- The eight check bits of a word of the MC SRAM that is not zero (R333): the manual does not give the code. Log entry 7. -/
opaque sramCode : W64 → Byte

/-- Writes that each wipe to come needs over its first, where no command gives them (R346). Log entry 60. -/
opaque wipeRetries : List Nat

/-- The fuses of a shipped device that the manual leaves to the module: SERIAL, the key hashes, DEVICE_SECRET and CORE_REPAIR (R342,
R343, R399). Log entry 7. -/
opaque shippedFuses : BitVec 8448

/-- The SVN of the image of a component, by its code, that a neighbour advertises (R353): no field of an advertisement gives it (R285).
Log entry 7. -/
opaque offeredSvn : BitVec 16 → Nat → Nat

/-- What a transfer's flits ask of its destination: the rules name these requests and lay none of them out (R280). Log entry 7. -/
opaque readContent : Transfer → Content

/-- Data flits of a message whose layout no rule gives (R278, R280), by the kind of message. Log entry 7. -/
opaque msgFlits : Nat → Nat

/-- Credits of a channel that a lane begins with, and those that the partner returns before a flit time: no rule gives their number
(R279). Arguments: the channel; and the reference edge, the lane, the channel. Log entry 7. -/
opaque vcCredits : Nat → Nat
opaque creditReturn : Nat → Nat → Nat → Nat

/-- The TRIM that a member farther off than the own neighbours would take: no flit tells this node its offset (R257). Log entry 33. -/
opaque farTrim : Nat → Int

/-- A transfer between other members whose two paths the failed links of a vote hold, where there is one: every member finds the same one
(R295), and the image of one member lists its own transfers only. Log entry 53. -/
opaque othersLost : List Nat → Option Nat

/-- Whether the image of a program that carries one rank is a pair image for another (R296): no field of its header says so. Log
entry 37. -/
opaque pairImage : W64 → Nat → Nat → Bool

/-- What sets this module's TX_FIXED and RX_FIXED, each within 4 ns (R276). Log entry 7. -/
opaque txDelay : Nat
opaque rxDelay : Nat

end Sys2Proof.Config
end

