-- ==== Sys2Proof/Machine/State.lean ====
section
/-!
DEFINITION. The whole state of the module as plain data, and its value at reset.

Every field's docstring names the rule that gives it and its value at reset. `State.reset` is the module before standby power:
every register at the value of its Reset column; where a rule states none, the value the log names (log entry 6).
-/

namespace Sys2Proof.Machine

/-- Memory in one canonical form: addresses strictly rising, no cell equal to what an unlisted address reads as. -/
abbrev Memory := List Host.Cell

/-- The ten precision modes (R121). -/
inductive Mode
  | t1 | t2 | t3 | t4 | tz | x1 | l4 | f8 | fb | fh
  deriving DecidableEq, Repr

/-- Element formats: 0 to 4 as SFMT of R147, 5 packed bits, 6 binary32 (R192). -/
inductive Fmt
  | e4m3 | e5m2 | bf16 | fp16 | int8 | bits | b32
  deriving DecidableEq, Repr

/-- The sections of a core's command stream (R140). -/
inductive Sect
  | idle | prologue | cold | warm | elastic | done
  deriving DecidableEq, Repr

/-! ### The core: sequencers and engines -/

/-- A queued kettle increment (R151): the counter it names, and the work it awaits: SCOPE, and the numbers of the work in that scope
that was issued before it and was not complete then. -/
structure Signal where
  target : CoreId
  id : Byte
  incr : BitVec 16
  scope : BitVec 2
  awaits : List Nat
  /-- issued in the elastic section (R141, R151) -/
  elastic : Bool
  deriving DecidableEq, Repr

/-- The words of one section that the Awl has read and the Needle has not taken (R164, R166): the section, the index of the next word
to read, the words with their numbers, oldest first, at most 1,024, and whether the Awl has stopped after STEP_END or SECTION_END. -/
structure ReadAhead where
  sect : Sect
  pos : Nat
  words : List (Nat × BitVec 128)
  stopped : Bool
  deriving DecidableEq, Repr

/-- The Needle of a core (R140 to R143). -/
structure Needle where
  /-- section being executed (R140); reset idle -/
  sect : Sect
  /-- index of the next word of that section (R142); reset 0 -/
  pos : Nat
  /-- the Needle holds at a releasing CADENCE (R154); reset false -/
  waitRelease : Bool
  /-- STEP_END taken in the step in progress (R18, R140); reset false -/
  retired : Bool
  /-- SLEEP of that STEP_END (R143, R369); reset false -/
  sleepReq : Bool
  /-- saved position of the elastic section (R141); reset 0 -/
  elasticPos : Nat
  /-- an elastic section is under way on this core (R141); reset false -/
  elasticOn : Bool
  /-- the core stopped: DECODE_FAULT, PLOUGH_FAULT, core fault in direct mode (R157, R195, R224), or cancelled (R153); reset false -/
  stopped : Bool
  /-- number of the next command word that the Awl reads; the work of a word carries the number of the word (R151); reset 0 -/
  serial : Nat
  /-- the step in progress has been released on this core (R154); reset false -/
  released : Bool
  /-- reference edge of that release, from which ticks after it are counted (R154); reset 0 -/
  releaseNow : Nat
  /-- frame of the core's previous release, or of the activation (R154); reset 0 -/
  lastFrame : BitVec 40
  deriving DecidableEq, Repr

/-- One open loop of a kernel (R194): the instruction after LOOP and the iterations left. -/
structure LoopFrame where
  start : Nat
  left : Nat
  deriving DecidableEq, Repr

/-- A Plough job: the template run, the invocations of its loop nest still to come (R193). -/
structure PloughJob where
  template : Nat
  next : Nat
  total : Nat
  serial : Nat
  layer : Nat
  /-- issued in the elastic section (R141) -/
  elastic : Bool
  deriving DecidableEq, Repr

/-- The Plough (R190 to R196). -/
structure Plough where
  /-- V0 to V31, 64 lanes of 32 bits (R190); reset +0 in every lane (at invocation) -/
  v : Vector Lanes 32
  /-- S0 to S15, 64 bits (R190); reset 0 -/
  sr : Vector W64 16
  /-- P0 to P7, 64 bits (R190); reset 0 -/
  p : Vector W64 8
  /-- M0 to M7, 64 bits, M0 reads all ones (R190); reset all ones -/
  m : Vector W64 8
  /-- open loops, innermost first, at most four (R194); the loop counters of R190; reset none -/
  loops : List LoopFrame
  /-- index of the next instruction (R193); reset 0 -/
  ip : Nat
  /-- an invocation is under way (R193); reset false -/
  running : Bool
  /-- the kernel is halted at its instruction (R202, R203); reset false -/
  halted : Bool
  /-- the halt record of R202 as 256 bits; reset 0 -/
  haltRec : BitVec 256
  /-- direct mode: no template, accumulator accesses bound to a tile (R158, R195); reset false -/
  direct : Bool
  /-- ACC_SLOT of DT_PLOUGH (R157); reset 0 -/
  accSlot : Nat
  /-- Plough templates issued, the first one running (R142: four entries; R193); reset none -/
  queue : List PloughJob
  /-- the fetch buffer: the 256-byte line it holds and its 16 instructions (R219); reset none -/
  line : Option (Nat × BitVec 2048)
  deriving DecidableEq, Repr

/-- The resident words of one column: the scale of each segment (table, X1, L4) and, by K position, the weight field or the raw
resident element (R22, R28, R39, R41). -/
structure ColWords where
  scales : List (BitVec 16)
  vals : List (BitVec 16)
  deriving DecidableEq, Repr

/-- The resident words of the whole array for one pass, columns 0 upward; columns beyond the list are cleared and masked
(R22, R68, R72). -/
structure Resident where
  mode : Mode
  rfmt : Fmt
  kValid : Nat
  cols : List ColWords
  deriving DecidableEq, Repr

/-- The leaf of one row: its eight entries (R26). -/
abbrev Leaf := List Int

/-- What a leaf register of a row edge holds (R54, R57, R58): a leaf with the even-parity bit of each entry, or in X1 the 16 bits of
the row with the 16-bit valid mask. -/
inductive RowEdge
  | leaf (entries : Leaf) (parity : List Bool)
  | bits (x valid : BitVec 16)
  deriving DecidableEq, Repr

/-- The beat of a pass-row's final issue cycle in flight, with its tag (R67): VALID, PASS_SEL, MODE, PLANE, LAST_PLANE, QA, NONFINITE,
WRITE, ACC_ROW; and beside the tag what the held registers gave it in its plane cycles (R58), its cycle 0 (R63, log entry 11), and
whether it is the last of its pass and of its RUN. -/
structure Beat where
  valid : Bool
  passSel : Bool
  mode : Mode
  plane : BitVec 2
  lastPlane : Bool
  qa : Int
  nonfinite : Bool
  accumulate : Bool
  accRow : Nat
  edges : List RowEdge
  cycle : Nat
  layer : Nat
  lastOfPass : Bool
  lastOfRun : Bool
  serial : Nat
  deriving DecidableEq, Repr

/-- The pass now issuing pass-rows: where its streamed rows lie and what its beats carry (R149, R157). -/
structure ActivePass where
  sel : Bool
  mode : Mode
  sfmt : Fmt
  base : Nat
  pitch : Nat
  kValid : Nat
  rows : Nat
  next : Nat
  accumulate : Bool
  accRow : Nat
  layer : Nat
  roleS : BitVec 2
  roleR : BitVec 2
  lastOfRun : Bool
  serial : Nat
  deriving DecidableEq, Repr

/-- A Press RUN that the Awl has passed: the template at its level, the passes of its loop nest, the next one to load and to begin,
the passes whose load has been observed, and whether the Needle has taken the word (R145, R165). -/
structure PressJob where
  template : Nat
  total : Nat
  nextLoad : Nat
  nextPass : Nat
  seen : Nat
  taken : Bool
  serial : Nat
  layer : Nat
  /-- issued in the elastic section (R141) -/
  elastic : Bool
  deriving DecidableEq, Repr

/-- The Folder, Press and Headbands (R21, R22, R58, R67, R68). -/
structure Press where
  /-- active and shadow resident words of every cell (R22); reset DESIGN CHOICE words of mode T1 with no column (log entry 57) -/
  active : Resident
  shadow : Resident
  /-- the load of the whole array into the shadow words is complete (R22); reset false -/
  ready : Bool
  /-- the two pass-state sets of the Headbands (R68): the words and scales of a pass with beats in flight; reset free -/
  set0 : Option Resident
  set1 : Option Resident
  /-- the pass issuing pass-rows (R149); reset none -/
  pass : Option ActivePass
  /-- the incoming and held registers of the 120 row edges (R54, R57, R58); reset DESIGN CHOICE zeros (log entry 57) -/
  incoming : List RowEdge
  held : List RowEdge
  /-- beats in flight, oldest first (R64); reset none -/
  beats : List Beat
  /-- Press RUNs that the Awl has passed and that have not ended, at most four of them taken (R142, R165); reset none -/
  queue : List PressJob
  /-- column of the last residue or parity error (R48); reset none -/
  faultCol : Option (Fin 128)
  /-- direct mode: a DT_LOAD has run since activation (R157); reset false -/
  loaded : Bool
  /-- LAYER, ROLE_S and ROLE_R under which a direct resident load is observed (R158); the load's own observation waits for the
  DT_PASS that names them; reset none -/
  pendingObs : Option Resident
  deriving DecidableEq, Repr

/-- A halt record of R186 by its fields. -/
structure HaltRec where
  core : Nat
  stream : Nat
  reason : Byte
  block : Nat
  byteOffset : Nat
  addr : Nat
  step : W64
  deriving DecidableEq, Repr

/-- The entries that one STREAM word armed, how many of them were delivered, the number of the word, and whether the Needle has taken
it (R142, R165, R170). -/
structure Arm where
  first : Nat
  count : Nat
  delivered : Nat
  issued : Bool
  serial : Nat
  elastic : Bool
  deriving DecidableEq, Repr

/-- The run-time state of one stream (R165, R170, R183, R186). -/
structure Stream where
  /-- armed words not wholly delivered, oldest first; reset none -/
  arms : List Arm
  /-- bytes of the oldest armed word already requested or written, from its first byte; reset 0 -/
  nextByte : Nat
  /-- bytes of armed entries landed in their destination or acknowledged, as disjoint spans (entry · 2^40 + offset in the entry,
  length) (R170); reset none -/
  landed : List (Nat × Nat)
  /-- bytes of a Mull block received and not yet released: (stream offset, byte) (R104, R105); reset none -/
  buffer : Memory
  /-- the halt record while halted (R186); reset none -/
  halted : Option HaltRec
  /-- a translation walk is under way: the virtual page, and the block-list entry whose unit needs it (R183, R186); reset none -/
  walking : Option (Nat × Nat)
  /-- the page the Binder is fetching for this stream (R184); reset none -/
  fetching : Option Nat
  /-- multicast, at the issuer: the arms that reached it, with the core of the member (R179); reset none -/
  memberArms : List (CoreId × Arm)
  /-- multicast, at the issuer: its own armed words whose reads for the group are not all issued, and the bytes of the first of them
  already requested (R179, R180); reset none, 0 -/
  duty : List Arm
  dutyByte : Nat
  /-- multicast: entries armed by words with numbers below this are fetched by the member itself, after a halt, from the place at which
  it was resumed on: the number of that word, and the byte of its list (R180); reset 0 -/
  ownUntil : Nat
  ownFrom : Nat × Nat
  /-- writes issued and not acknowledged: (stream offset, length) (R171); reset none -/
  writes : List (Nat × Nat)
  deriving DecidableEq, Repr

/-- An outstanding read (R171): its tag, the tag's generation, the stream, for which of the words that armed its entry a multicast group
reads it, counted from 1, 0 for a read of the core's own (R179), whether for an elastic word (R166), whether its data is no longer wanted
when it comes (R188, R189), the stream offset, the address and the length. -/
structure AwlRead where
  tag : Nat
  gen : BitVec 2
  stream : Nat
  group : Nat
  elastic : Bool
  dropped : Bool
  offset : Nat
  addr : Nat
  len : Nat
  deriving DecidableEq, Repr

/-- The Awl of a core (R164 to R171, R181). -/
structure Awl where
  /-- the 64 streams of part 6 (R167); reset idle -/
  streams : Vector Stream 64
  /-- reads outstanding, at most 640 (R171); reset none -/
  reads : List AwlRead
  /-- generation of each tag that has been used (R171): (tag, generation); reset none -/
  gens : List (Nat × BitVec 2)
  /-- the pinned translation table of 1,280 entries, written at activation: the 1 GiB page of each virtual page from 0 (R181); reset
  empty -/
  xlate : List Nat
  /-- tags that expired with data still to come: (tag, generation), oldest first (R189); reset none -/
  late : List (Nat × BitVec 2)
  /-- translation cache: virtual 2 MiB pages, most recent first, at most 256 (R181); reset empty -/
  tlb : List Nat
  /-- the read positions and command queues of the pinned sections and of the elastic section (R164, R166); reset idle -/
  pinned : ReadAhead
  elastic : ReadAhead
  deriving DecidableEq, Repr

/-- One Collator record (R113) by its fields. -/
structure CollRec where
  layer : Nat
  role : BitVec 2
  bins : Vector W64 48
  count : W64
  zero : W64
  flush : W64
  sat : W64
  amax : W32
  countSat : Bool
  deriving DecidableEq, Repr

/-- A word of a core memory whose stored bits are in error (R223): the word's first byte, and the bit, or uncorrectable. -/
structure EccMark where
  mem : CoreMem
  word : Nat
  find : EccFind
  deriving DecidableEq, Repr

/-- Collisions of the step in progress on a core (R217): dropped elements, row and column of the first. -/
structure Collide where
  count : Nat
  row : Nat
  col : Nat
  deriving DecidableEq, Repr

/-- One logical core: its engines, memories, kettle counters and draw positions. -/
structure Core where
  needle : Needle
  plough : Plough
  press : Press
  awl : Awl
  /-- Collator records of the step in progress (R113); reset none -/
  coll : List CollRec
  /-- observations made after the close of the step's records, for the next step (R115); reset none -/
  collNext : List CollRec
  /-- the late observations with which the step in progress began, restored when it is discarded (R19, R115); reset none -/
  collKept : List CollRec
  /-- Quire store, 6 MiB (R211); cleared at activation (R220); reset zeros -/
  quire : Memory
  /-- accumulator store, 1.5 MiB (R211); reset zeros -/
  acc : Memory
  /-- endpaper memory, 256 KiB (R211, R218); reset zeros -/
  endp : Memory
  /-- words of the three memories with ECC errors not yet corrected or rewritten (R223, R224); reset none -/
  ecc : List EccMark
  /-- 256 kettle counters of 16 bits (R151); reset 0 -/
  kettle : Vector (BitVec 16) 256
  /-- highest satisfied kettle ID of the current section (R153); reset none -/
  satisfied : Option (BitVec 8)
  /-- kettle signals queued, at most 64 (R151); reset none -/
  signals : List Signal
  /-- completion signals on their way to this core's counters (R151); reset none -/
  doneSignals : List Signal
  /-- draw positions of the 16 random streams (R208, R209); reset 0 -/
  draws : Vector W64 16
  /-- the positions saved at the last release (R209); reset 0 -/
  drawsSaved : Vector W64 16
  /-- collisions of the step (R217); reset none -/
  collide : Option Collide
  /-- collisions of the elastic section, by the step during whose gap they occurred (R217); reset none -/
  gapCollide : List (W64 × Collide)
  /-- Mull clamp-limit blocks of the step (R107): number and first address; reset none -/
  clamp : Option (Nat × Nat)
  /-- physical site that carries the core (R10, R234); reset the home site 50·(c div 48) + (c mod 48) -/
  site : SiteId
  /-- the site sleeps (R369); reset false -/
  asleep : Bool
  /-- fabric words waiting for their slots: (slot, receive, address, kettle ID, carrier, issue number) (R142, R155); reset none -/
  fabricQ : List (Nat × Bool × Nat × Byte × Bool × Nat)
  deriving DecidableEq, Repr

/-! ### Sites and stacks -/

/-- ROLE of R231. -/
inductive SiteRole
  | service | guard | retired | underTest
  deriving DecidableEq, Repr

/-- One physical site (R226, R231, R238). -/
structure Site where
  /-- ROLE (R231); reset service, guard for sites 48 and 49 of each tile (R10) -/
  role : SiteRole
  /-- CE_FLAG (R231); reset 0 -/
  ceFlag : Bool
  /-- TEST_OK (R231); reset 0 -/
  testOk : Bool
  /-- CAUSE (R231); reset 0 -/
  cause : BitVec 4
  /-- TRANSIT (R231); reset DESIGN CHOICE 0 (log entry 6): measured by the survey -/
  transit : Byte
  /-- corrected-error counters of the three memories, 32 bits (R226); reset 0 -/
  ceQuire : W32
  ceAcc : W32
  ceEndp : W32
  /-- uncorrectable-error counter (R226); reset 0 -/
  ue : W32
  /-- ticks at which corrected errors of the last second were found, by memory (R226); reset none -/
  ceTimes : List (CoreMem × Nat)
  /-- corrected errors logged in the second in progress: the second and the number (R225); reset none -/
  ceLogged : Nat × Nat
  /-- committed steps served since the last test (R240); reset 0 -/
  served : Nat
  /-- ticks at which the last test ended (R239); reset 0 -/
  testedAt : Nat
  /-- deep sleep of a waiting guard (R222, R368); reset false -/
  deepSleep : Bool
  /-- the three memories of a site that carries no core, and their words in error (R211, R223); those of a site that carries a core
  stand in the core. Reset zeros, none -/
  quire : Memory
  acc : Memory
  endp : Memory
  ecc : List EccMark
  /-- CORE_REPAIR as the start-up survey applied it: spare column, Quire line and bank, valid (R10, R342); reset 0 -/
  repair : W32
  deriving DecidableEq, Repr

/-- One DRAM row known to a stack controller: bank, row, consecutive corrected scrub passes, candidate for repair (R243), frame
withdrawn for want of a spare (R246). -/
structure DramRow where
  bank : Nat
  row : Nat
  passes : Nat
  candidate : Bool
  withdrawn : Bool
  deriving DecidableEq, Repr

/-- STATE of a stack entry (R231). -/
inductive StackState
  | service | lost | absent
  deriving DecidableEq, Repr

/-- One memory stack (R231, R243 to R246). -/
structure Stack where
  /-- STATE (R231); reset service -/
  state : StackState
  /-- BAD_FRAMES (R231); reset 0 -/
  badFrames : BitVec 16
  /-- spare rows left per bank that has used one: (bank, left of 4) (R243); reset none used -/
  sparesUsed : List (Nat × Nat)
  /-- SPARES_LEFT (R231); reset DESIGN CHOICE 4096 (log entry 6): 4 in each of 1,024 banks, the number of banks is not stated -/
  sparesLeft : BitVec 16
  /-- SOFT_PENDING (R231); reset 0 -/
  softPending : BitVec 16
  /-- LAT of the four tiles (R231); reset DESIGN CHOICE 0 (log entry 6): measured by the survey -/
  lat : W64
  /-- CE and UE (R231); reset 0 -/
  ce : W32
  ue : W32
  /-- rows with scrub history or awaiting repair (R243); reset none -/
  rows : List DramRow
  /-- uncorrectable errors of the last 100,000,000 ticks: (row key, ticks) (R242); reset none -/
  ueRows : List (Nat × Nat)
  /-- PPR_SPARES_LOW has been raised (R246); reset false -/
  lowRaised : Bool
  /-- frames withdrawn (R246); reset none -/
  withdrawn : List Nat
  /-- the stack is in self-refresh (R368, R371); reset true: not started -/
  selfRefresh : Bool
  deriving DecidableEq, Repr

/-! ### Host interface -/

/-- Life cycle of a handle (R316). -/
inductive HandlePhase
  | free | running | held | posted
  deriving DecidableEq, Repr

/-- A handle-table entry: the command's copy and its outcome (R316). -/
structure HandleEntry where
  gen : BitVec 12
  phase : HandlePhase
  mailbox : Fin 8
  opcode : Byte
  fence : Bool
  quiet : Bool
  cookie : W32
  seq : W32
  /-- body of 240 bytes, as the Binder read it (R324) -/
  body : BitVec 1920
  /-- order in which the command was taken (R322) -/
  takenAt : Nat
  /-- the command has begun: an ACTIVATE whose program runs, a boundary command accepted, a LOAD under way (R322, R325) -/
  begun : Bool
  /-- the part of its exclusive phase is over (R322) -/
  exclusiveDone : Bool
  /-- order in which the outcome was fixed (R319) -/
  fixedAt : Nat
  status : BitVec 16
  detail : W32
  result : W64
  cadence : W64
  /-- entry count under which it was posted (R318) -/
  entry : W32
  deriving DecidableEq, Repr

/-- One mailbox (R313, R314). -/
structure Mailbox where
  /-- slot SRAM of 8 KiB (R310); reset 0 -/
  sram : Memory
  /-- MB_TAIL and MB_HEAD (R314); reset 0 -/
  tail : BitVec 16
  head : BitVec 16
  /-- SEQUENCE of the previous slot; none after power-up or a reset of R309; reset none -/
  prevSeq : Option W32
  /-- SEQUENCE and handle of the last 32 taken commands, newest first (R314); reset none -/
  recent : List (W32 × Handle)
  deriving DecidableEq, Repr

/-- One completion ring with its interrupt control (R318, R320). -/
structure RingRegs where
  /-- RING_BASE (R318); reset 0 -/
  base : W64
  /-- LOG2_SIZE (R318); reset 0 -/
  log2Size : BitVec 4
  /-- ENABLE (R318); reset 0 -/
  enable : Bool
  /-- RING_HEAD and RING_TAIL (R318); reset 0 -/
  head : W32
  tail : W32
  /-- VECTOR (R320); reset r -/
  vector : BitVec 6
  /-- COUNT (R320); reset 1 -/
  count : Byte
  /-- DELAY (R320); reset 0 -/
  delay : BitVec 16
  /-- entries written and not yet signalled (R320); reset 0 -/
  unsignalled : Nat
  /-- tick at which the first of them was written (R320: DELAY); reset 0 -/
  firstAt : Nat
  deriving DecidableEq, Repr

/-- One event record (R321). -/
structure EventRec where
  code : BitVec 16
  core : Byte
  repeats : Byte
  seq : W32
  step : W64
  /-- ITEM0 to ITEM11: ITEM0 to ITEM3 and, where there is no record, ITEM4 to ITEM11 -/
  items : List W32
  /-- the 32-byte record of R186, R202 or R225, if any -/
  record : Option (BitVec 256)
  handle : Handle
  /-- the program handle of the step in which it arose: the model's own, for R321's repeats -/
  run : Handle
  /-- cadence counter when it was raised, 0 while VALID is 0 (R317) -/
  cadence : W64
  deriving DecidableEq, Repr

/-- One entry of TRACE_PAGE (R312). -/
structure TraceEntry where
  handle : Handle
  opcode : Byte
  mailbox : Fin 8
  seq : W32
  takenCadence : W64
  doneCadence : W64
  status : BitVec 16
  deriving DecidableEq, Repr

/-- The two ports' state (R307, R308). -/
structure PortState where
  /-- Data Link Layer up (R308); reset down -/
  up : Bool
  /-- ticks at which the link went down (R308: 1 ms); reset 0 -/
  downAt : Nat
  /-- RESULT of TAKEOVER (R308); reset 0 -/
  result : BitVec 3
  /-- negotiated width and generation (R231); reset 0 -/
  width : BitVec 5
  generation : BitVec 3
  deriving DecidableEq, Repr

/-- One peripheral gate (R370): closed, open, or closing since a tick while requests in progress finish. -/
inductive GateState
  | closed | opened | closing (since : Nat)
  deriving DecidableEq, Repr

/-- The host interface: BAR0, ports, handles, events (R307 to R332). -/
structure HostIf where
  portA : PortState
  portB : PortState
  /-- PORT_B_ACTIVE (R311); reset 0 -/
  portBActive : Bool
  /-- the interface is usable; false from a reset of R309 until R332's time; reset false until main power -/
  usable : Bool
  mailboxes : Vector Mailbox 8
  rings : Vector RingRegs 8
  /-- EVENT_RING (R320); reset 7 -/
  eventRing : Fin 8
  /-- MSI-X table of 64 × 16 B and PBA (R320); reset: vectors masked, as PCI Express defines (PRESUMED, log entry 6) -/
  msixTable : Vector (BitVec 128) 64
  pba : W64
  /-- vectors of the messages sent, oldest first: the model's own record of an output; reset none -/
  msixSent : List (BitVec 6)
  /-- PERIPH_ENABLE [0], [1], [2] and the MC's three bits, as gates (R312, R370); reset closed -/
  gates : List (Gate × GateState)
  /-- LOG_BASE of LOG_PAGE (R312); reset DESIGN CHOICE 0 (log entry 6) -/
  logBase : W64
  /-- APERTURE_BASE (R178); reset 0 -/
  aperture : W64
  /-- handle-table entries issued so far, by INDEX (R316); entries never issued are Free with GENERATION 0; reset none -/
  handles : List HandleEntry
  /-- next take number, next outcome number (R319, R322); reset 0 -/
  takeNo : Nat
  fixNo : Nat
  /-- event area: the newest records, newest first, at most 512 (R321); reset none -/
  records : List EventRec
  /-- SEQUENCE of the next event (R321); reset 0 -/
  eventNext : W32
  /-- events waiting for a ring, oldest first, at most 512 (R319); reset none -/
  eventQ : List EventRec
  /-- events lost to a full queue (R319); reset 0 -/
  eventsLost : Nat
  /-- TRACE_PAGE: the last commands taken, newest first, at most 2,048 (R312); reset none -/
  trace : List TraceEntry
  /-- EVENT_SEQ (R311); reset 0 -/
  eventSeq : W32
  /-- STEP: the last committed step, kept when its program has ended (R311); reset 0 -/
  stepDone : W64
  /-- BINDER_UP (R311); reset 0 -/
  binderUp : Bool
  /-- IF_LEVEL of the running Binder image (R311); reset 0 -/
  ifLevel : Byte
  /-- BINDER_RESTARTS (R311); reset 0 -/
  binderRestarts : W32
  /-- the status header's Binder-maintained fields while the Binder is down (R311); reset the fields' reset values -/
  header : BitVec 256
  /-- uncorrectable error status of the AER capability (R307; its bits PRESUMED of PCI Express, log entry 6); reset 0 -/
  aer : W32
  /-- BINDER_DMA_LIMIT, MIRROR_LIMIT, TIPPING_LIMIT (R174); reset 64, 128, 8 -/
  dmaLimit : BitVec 11
  mirrorLimit : BitVec 11
  tippingLimit : BitVec 7
  /-- kettle pairs of the most recently cancelled program (R326); reset none -/
  kettleTable : List (BitVec 8 × BitVec 16)
  /-- a survey is running; handles of SURVEY commands that wait for it (R229); reset none -/
  surveyWaiting : List Handle
  surveyRunning : Bool
  /-- bytes returned by the last read through BAR0 or BAR2; none for a Completer Abort: the model's own record of an output -/
  readData : Option (List Byte)
  deriving DecidableEq, Repr

/-! ### Program, steps and steering -/

/-- The latency-bound table (R232), or the values of an image without it. -/
structure Bounds where
  portSplit : BitVec 12
  memReserve : Bool
  rank : BitVec 10
  devices : Nat
  spineBound : Nat
  dramBound : Nat
  programId : W64
  /-- PEER_RANK, BOUND, ALT_BOUND -/
  peers : List (BitVec 10 × BitVec 16 × BitVec 16)
  deriving DecidableEq, Repr

/-- An accepted image by its header (R138) with the bounds and the recipe it brought. -/
structure Image where
  addr : Nat
  len : Nat
  direct : Bool
  cores : Nat
  seed : W64
  coldTicks : Nat
  warmTicks : Nat
  coreTable : Nat
  recipeOff : Nat
  slotOff : Nat
  regionOff : Nat
  steerOff : Nat
  crc : W32
  bounds : Bounds
  /-- pinned 1 GiB pages, P of R181 -/
  pinnedPages : Nat
  /-- first byte of the collation buffer, directly above the highest address the image names (R137, R181) -/
  collBase : Nat
  /-- BINDER_DMA_LIMIT, MIRROR_LIMIT and TIPPING_LIMIT in force when the image was accepted: part of its budget (R175) -/
  limits : BitVec 11 × BitVec 11 × BitVec 7
  /-- U of R235 when the image was accepted: frames withdrawn later stay in its layout (R246) -/
  usable : Nat
  deriving DecidableEq, Repr

/-- A steering-state entry (R123). -/
structure Steer where
  level : Nat
  historyOk : Bool
  attention : Bool
  atLimit : Bool
  defer : Byte
  clean : BitVec 16
  observed : W32
  ringNext : BitVec 4
  ringFill : BitVec 5
  /-- AMAX_RING: role r, slot i at 16·r + i -/
  ring : Vector W32 64
  deriving DecidableEq, Repr

/-- What a running program is doing. -/
inductive Phase
  | none | prologue | steps | cancelling
  deriving DecidableEq, Repr

/-- A fault recorded against the step (R18, R327): its cause, and the core or link, and the ECC record when it has one. -/
structure StepFault where
  cause : Byte
  who : Nat
  record : Option (BitVec 256)
  deriving DecidableEq, Repr

/-- A paged region (R181, R325). -/
structure PagedRegion where
  vbase : Nat
  pages : Nat
  peer : Bool
  backAddr : Nat
  peerNode : BitVec 16
  deriving DecidableEq, Repr

/-- A SNAPSHOT request (R156): region set and SHIP. -/
structure SnapReq where
  set : Nat
  ship : Bool
  deriving DecidableEq, Repr

/-- Why a program's saved copy of steering state and counters is kept (R209, R302): the continuous state of a full checkpoint. -/
structure Continuous where
  step : W64
  recipe : List (BitVec 512)
  allowance : Nat
  steer : List Steer
  draws : List (Vector W64 16)
  /-- the group records, and the bytes of both halves of the collation buffer (R137, R297) -/
  groupRecs : List CollRec
  collation : List Byte
  /-- late observations of each core, with which the step after the boundary begins (R115) -/
  late : List (List CollRec)
  /-- cold boundaries left, and whether the boundary was a cold one (R126, R131) -/
  coldLeft : Nat
  lastCold : Bool
  deriving DecidableEq, Repr

/-- A command that acts at the next boundary (R322): UNLOAD, or an accepted RECIPE_UPDATE with its first entry, its entries and its
allowance (R136). -/
structure BoundaryCmd where
  handle : Handle
  first : Nat
  entries : List (BitVec 512)
  allowance : Option Nat
  deriving DecidableEq, Repr

/-- The program, the staged image, the step and steering (R18, R123, R138 to R163, R262). -/
structure Program where
  /-- the staged image (R160); reset none -/
  staged : Option Image
  /-- the active image (R160); reset none -/
  active : Option Image
  phase : Phase
  /-- program handle (R325); reset none -/
  handle : Option Handle
  /-- handle of an ACTIVATE waiting for its boundary or its peers, and the tick its peer wait ends (R236); reset none -/
  activating : Option Handle
  peerWaitEnd : Nat
  /-- elastic handle, run count, and elastic start pending (R141); reset none, 0 -/
  elasticHandle : Option Handle
  /-- cause of a core fault found in the elastic section under way (R224); reset none -/
  elasticFault : Option Nat
  elasticRuns : W32
  elasticPending : Option Handle
  /-- boundary commands taken and not yet done, in order: UNLOAD, RECIPE_UPDATE (R322); reset none -/
  boundaryCmds : List BoundaryCmd
  /-- STEP of the step in progress; steps count from 0 at the first release (R311); reset 0 -/
  step : W64
  /-- STEP of the status header: last committed step (R311); reset 0, none committed -/
  committed : Option W64
  /-- a step has been released and has not reached its boundary (R154); reset false -/
  released : Bool
  /-- cadence value of the step's release instant (R154); reset 0 -/
  releaseAt : W64
  /-- reference edge of the release, from which ticks after it are counted (R154); reset 0 -/
  releaseNow : Nat
  /-- frame of the previous release of a step, or of the activation (R154); reset 0 -/
  lastFrame : BitVec 40
  /-- a first release has been made since activation (R322, R325); reset false -/
  startedRel : Bool
  /-- step committed cold boundaries left before the warm schedule (R131); reset 0 -/
  coldLeft : Nat
  /-- every core of the program has a warm schedule (R131, R139); reset false -/
  hasWarm : Bool
  /-- the (layer, role) pairs that the program observes, in ascending order, fixed at load (R116); reset none -/
  observed : List (Nat × BitVec 2)
  /-- the last boundary was a cold one (R126); reset true -/
  lastCold : Bool
  /-- faults recorded against the step (R18); reset none -/
  faults : List StepFault
  /-- faults found in the elastic gap of a step whose boundary is still to come, which count against the following step (R224);
  reset none -/
  faultsNext : List StepFault
  /-- discards of the same step in a row (R266); reset 0 -/
  discards : Nat
  /-- committed steps since the last rotation (R240); reset 0 -/
  sinceRotation : Nat
  /-- ROTATION_STEPS (R240); reset 262,144 -/
  rotationSteps : W32
  /-- RESERVE_LAYOUT in force (R235, R325); reset 0 -/
  reserveLayout : Bool
  /-- recipe entries in force (R120) and WIDEN_ALLOWANCE (R119); reset none, 0 -/
  recipe : List (BitVec 512)
  allowance : Nat
  /-- steering state, one entry per layer (R123); reset none -/
  steer : List Steer
  /-- levels in force for the step in progress come from `steer`; the group records of the last committed step (R137) -/
  groupRecs : List CollRec
  /-- the step's records have been closed by the carrier (R115); reset false -/
  closed : Bool
  /-- records merged by the carrier from other members, with both digests (R116); reset none -/
  carrier : List CollRec
  digestMin : Option W32
  digestMax : Option W32
  /-- SNAPSHOT requests of the step (R156); reset none -/
  snaps : List SnapReq
  /-- step and set of the snapshot copies complete in device memory (R298, R299); reset none -/
  localCopies : List (Nat × W64)
  /-- sets in shipment: set and step (R299, R300); reset none -/
  shipping : List (Nat × W64)
  /-- sets whose shipment of a step is complete (R299, R300); reset none -/
  shipped : List (Nat × W64)
  /-- continuous state kept for the last full checkpoint (R299); reset none -/
  kept : Option Continuous
  /-- the continuous state that the checkpointed partner holds with its last complete full checkpoint (R299); reset none -/
  keptShipped : Option Continuous
  /-- input references since the last full checkpoint: step, reference (R297, R304); reset none -/
  inputs : List (W64 × W64)
  /-- step and reference of the first input that the full list did not take (R297); reset none -/
  inputFull : Option (W64 × W64)
  /-- inputs that a recovery has asked the host for and that have not come: step, reference (R304); reset none -/
  inputWant : List (W64 × W64)
  /-- paged regions (R325) and pages present in frames: virtual page, written (R183, R184); reset none -/
  paged : List PagedRegion
  present : List (Nat × Bool)
  /-- placement of relocated units after a stack loss: the lost stack (R242); reset none -/
  relocated : Option StackId
  /-- WAIT_STEP handles waiting (R325); reset none -/
  stepWaiters : List Handle
  /-- the last step that the program before this one committed (R325); reset none -/
  formerStep : Option W64
  /-- a core could not be replaced: DEGRADED (R241); reset false -/
  degraded : Bool
  /-- RECOVERING (R242); reset false -/
  recovering : Bool
  /-- recovery replay: last step to replay (R242, R302); reset none -/
  replayTo : Option W64
  /-- units of a checkpoint asked of the partner and not come yet: the set and the place in it (R242, R302); reset none -/
  awaiting : List (Nat × Nat)
  /-- the tick in which sleeping sites were last woken, and how many in it (R369); reset 0, 0 -/
  woken : Nat × Nat
  /-- the first placement after power-up has been made (R234); reset false -/
  placed : Bool
  /-- CHECKPOINT_WAIT raised for the boundary in progress (R300); reset false -/
  checkpointWait : Bool
  deriving DecidableEq, Repr

/-! ### Cadence time -/

/-- One entry of the frame ring (R252). -/
structure FrameEntry where
  length : BitVec 24
  synth : Bool
  short : Bool
  long : Bool
  spurious : Bool
  gap : Bool
  frame : BitVec 40
  deriving DecidableEq, Repr

/-- The cadence counter and its state (R249 to R267). -/
structure Cadence where
  /-- TICK and FRAME of the counter (R250); reset 0 -/
  tick : BitVec 24
  frame : BitVec 40
  /-- tick field of the received-mark count (R249), before trim; reset 0 -/
  rxTick : BitVec 24
  /-- a received mark waits for its effective mark (R250, R256); reset false -/
  markPending : Bool
  /-- CAD_STATUS: VALID, ALIGNED, TRIMMED, HOLD, TRIM (R251); reset 0 -/
  valid : Bool
  aligned : Bool
  trimmed : Bool
  hold : Bool
  trim : BitVec 12
  /-- CAD_EVENTS (R251); reset 0 -/
  events : BitVec 7
  /-- CADENCE_HI latch (R251); reset 0 -/
  hiLatch : W32
  /-- frame ring, newest first, at most 256 entries (R252); reset none (all zero) -/
  ring : List FrameEntry
  /-- FRAME_LAST, FRAME_MIN, FRAME_MAX since power-up (R231); reset 0, none -/
  lastLen : BitVec 24
  minLen : BitVec 24
  maxLen : BitVec 24
  /-- a mark was ignored in this frame (R252); reset false -/
  spurious : Bool
  /-- clock loss within the frame in progress: the frame that was running (R252, R267); reset none -/
  gapFrame : Option (BitVec 40)
  /-- root's frame number as the last SYNC flit carried it, and the hops (R258, R280); reset none -/
  rootFrame : Option (BitVec 40)
  /-- own offset from the root in 0.1 ns, and the value on which the trim was set (R255, R259, R280); reset 0 -/
  offset : Int
  trimBasis : Int
  /-- the root changed since the trims were set (R260); reset false -/
  rootChanged : Bool
  /-- frames spent in hold mode (R265); reset 0 -/
  holdFrames : Nat
  /-- a member that diverged adopts the root's number at its next effective mark (R258); reset false -/
  adopt : Bool
  /-- frame named by RESUME (R264); reset none -/
  resumeFrame : Option (BitVec 40)
  /-- votes merged for the step in progress (R262, R294); reset none -/
  votes : List Vote
  /-- this member's contribution was sent (R262); reset false -/
  voted : Bool
  deriving DecidableEq, Repr

/-! ### Fabric and mirrors -/

/-- Phases of link bring-up (R274). -/
inductive LinkPhase
  | disabled | negotiating | training | locking | records | timing | joining | up | failed | refused
  deriving DecidableEq, Repr

/-- What waits in a channel of a lane (R279): the channel, whether a slot holds it (R292), the source, the destination and the number of the
transfer, the flits left, and the transfer itself where this node only passes it on. -/
structure TxEntry where
  vc : BitVec 2
  timed : Bool
  src : BitVec 16
  dst : BitVec 16
  seq : W32
  flits : Nat
  transit : Option Transfer
  deriving DecidableEq, Repr

/-- What a lane sends in a flit time: nothing, an IDLE flit, or a flit of a channel (R278, R279). -/
inductive LineFlit
  | quiet | idle | channel (vc : BitVec 2)
  deriving DecidableEq, Repr

/-- One fabric lane (R231, R274 to R282). -/
structure Link where
  /-- phase of bring-up (R274); reset negotiating once the main domain is up; before, failed -/
  phase : LinkPhase
  /-- PARTNER (R231); reset 0xFFFF -/
  partner : BitVec 16
  /-- the partner's last record (R282); reset 0 -/
  record : BitVec 512
  /-- LATENCY in ns and CABLE in 0.1 ns (R231); reset 0 -/
  latency : BitVec 16
  cable : BitVec 16
  /-- FEC_CORR and FEC_UNCORR (R231); reset 0 -/
  fecCorr : W32
  fecUncorr : W32
  /-- serves scheduled traffic; false from a loss until the next activation (R277); reset true -/
  sched : Bool
  /-- over its bound, failed from the next boundary (R230); reset false -/
  overBound : Bool
  /-- the last exchanges with the partner, newest first, at most 256: twice δ, and the round trip, in 0.1 ns (R255, R275); reset none -/
  samples : List (Int × Int)
  /-- the partner's offset from the root as its SYNC flits state it, in 0.1 ns (R257, R280); reset 0 -/
  peerOffset : Int
  /-- transfers waiting in the four channels of the lane, oldest first (R279); reset none -/
  tx : List TxEntry
  /-- flits sent since the last alignment block (R278); reset 0 -/
  flitNo : Nat
  /-- what the lane sent in its last flit time, and the ordered-set control blocks it has inserted (R278); reset nothing, 0 -/
  lastSent : LineFlit
  orderedSets : Nat
  /-- credits of each channel that flits sent have taken and the partner has not returned (R279); reset 0 -/
  used : Vector Nat 4
  deriving DecidableEq, Repr

/-- A routing-table entry (R287). -/
structure Route where
  ports : W64
  escLane : BitVec 6
  isLocal : Bool
  valid : Bool
  hops : Byte
  deriving DecidableEq, Repr

/-- Who began a dynamic transfer and hears of its end (R306). -/
inductive Initiator
  | device | command (h : Handle) | pageFetch (core : CoreId) (stream : Fin 64) | mirror | record (step : W64) | restore
  deriving DecidableEq, Repr

/-- What a message carries after its header (R278 to R282, R296 to R299): raw bytes, or content whose bytes no rule lays out. -/
inductive Msg
  | bytes (b : List Byte) | pageData (b : List Byte) | hold | resume (frame : BitVec 40) | ack | refuse (reason : Byte) | sync | partner
  | advert (a : Advert) | rejoin (rank : BitVec 10) (module : BitVec 16) | state (step : W64) (b : List Byte) | leave (rank : BitVec 10) | pageFetch (page : Nat)
  | recovery (step last : W64) | fwRequest (code : Byte) | fwData (b : List Byte) | restore (step : W64) (units : List (Nat × Nat)) | recoveryEnd (status : Nat) (items : List W32)
  | pageWrite (page : Nat) (b : List Byte) | record (step : W64) (pages : List (Nat × List Byte))
  | unit (set : Nat) (step : W64) (index : Nat) (b : List Byte) | bind (ask : BindAsk)
  | unbind (continuous checkpointed : Bool) | bound (reason : Option Nat)
  | passed
  deriving DecidableEq, Repr

/-- A message handed to a channel of a lane, none where no lane leads on: the model's own record of an output. -/
structure OutMsg where
  lane : Option LaneId
  vc : BitVec 2
  header : BitVec 512
  body : Msg
  deriving DecidableEq, Repr

/-- A dynamic transfer this node has sent and that is not yet acknowledged (R281, R288). -/
structure DynOut where
  seq : W32
  dst : BitVec 16
  lane : Option LaneId
  sends : Nat
  escape : Bool
  initiator : Initiator
  body : Msg
  deriving DecidableEq, Repr

/-- A mirror binding of this device (R296). -/
structure Binding where
  partner : BitVec 16
  continuous : Bool
  checkpointed : Bool
  cover : BitVec 2
  deriving DecidableEq, Repr

/-- One generation of a region set (R299): its step, its number of units, and the units that have come, by their place in the set. -/
structure SetGen where
  set : Nat
  step : W64
  total : Nat
  units : List (Nat × List Byte)
  deriving DecidableEq, Repr

/-- What this node holds for a protected device (R296, R297, R299): its binding and the store units it reserves, the latest complete
record and the one arriving; of each set the last complete generation and the one arriving, and the records that belong to them. -/
structure Protected where
  node : BitVec 16
  continuous : Bool
  checkpointed : Bool
  cover : BitVec 2
  units : Nat
  recordStep : W64
  record : List Byte
  arriving : List Byte
  gens : List SetGen
  coming : List SetGen
  states : List (W64 × List Byte)
  deriving DecidableEq, Repr

/-- The fabric and mirror state (R273 to R306). -/
structure Fabric where
  links : Vector Link 64
  /-- own node ID and ID_SOURCE (R283); reset DESIGN CHOICE 0xFFFF, 2 (log entry 6): none formed yet -/
  nodeId : BitVec 16
  idSource : BitVec 2
  /-- a shelf record that waits for the device to be unloaded (R283); reset none -/
  shelfWaiting : Option (BitVec 16)
  /-- tries of the hashed ID so far (R284); reset 0 -/
  idTries : Nat
  /-- SEQUENCE of the own partner record and of the own advertisement (R282, R285); reset 0 -/
  partnerSeq : W32
  advSeq : W32
  /-- advertisements held, with the tick they arrived (R285); reset none -/
  adverts : List (Advert × Nat)
  /-- active and shadow routing table: domain entries by member, then inter-domain entries by 1,024 + domain; entries not listed
  are all zero (R287); reset all zero -/
  active : List (Nat × Route)
  shadow : List (Nat × Route)
  /-- a rebuild is under way; a finished one waits for its flip (R289); reset false -/
  rebuilding : Bool
  flipReady : Bool
  /-- domain root as this node knows it, and hops (R282, R286); reset 0xFFFF, 0xFF -/
  root : BitVec 16
  rootHops : Byte
  /-- dynamic transfers sent and not ended (R281); reset none -/
  outstanding : List DynOut
  /-- source sequence number of the next transfer (R280); reset 0 -/
  nextSeq : W32
  /-- messages handed to lanes, newest first: the model's own record of outputs; reset none -/
  sent : List OutMsg
  /-- slots opened in the step and slots whose transfer was carried out (R155); reset none -/
  openSlots : List Nat
  doneSlots : List Nat
  /-- receives whose slot is open and whose data has not arrived: slot, address, kettle ID, core (R294); reset none -/
  receiving : List (Nat × Nat × Byte × CoreId)
  /-- program links failed in the step and since activation (R294, R295); reset none -/
  failedNow : List Nat
  failedEver : List Nat
  /-- untimed running; cover mode (R295, R303); reset false -/
  untimed : Bool
  cover : Bool
  /-- ranks bound to nodes (R236); ranks declared lost (R265, R301); reset none -/
  rankNode : List (BitVec 10 × BitVec 16)
  lost : List (BitVec 10)
  /-- ranks carried by this node beside its own (R302); reset none -/
  covering : List (BitVec 10)
  /-- lanes transmitting unspread for the active program (R365); reset none -/
  unspread : List LaneId
  /-- bindings of this device (R296); reset none -/
  bindings : List Binding
  /-- mirror store: base and 2 MiB units (R296, R324); reset none -/
  store : Option (Nat × Nat)
  /-- devices this node protects (R296, R297); reset none -/
  protects : List Protected
  /-- step of the latest continuous record acknowledged complete by the partner; MIRROR_LAG raised (R297); reset none -/
  mirrored : Option W64
  lagRaised : Bool
  /-- the record last acknowledged complete, from which deltas are taken (R297); reset empty -/
  acked : List Byte
  /-- SEED handle waiting for its rejoin (R305); reset none -/
  seeding : Option Handle
  /-- a module that rejoins: what has come of the sets and of the continuous state (R305); reset none -/
  seedSets : List SetGen
  seedState : Option (W64 × List Byte)
  /-- a rejoin asked for: the rank and the new module's node (R305); reset none -/
  rejoining : Option (BitVec 10 × BitVec 16)
  /-- ranks in recovery or covered since (R302, R303); reset none -/
  recover : List (BitVec 10)
  /-- the checkpoint step of the recovery under way and the step in which the rank was lost, as a recovery message has named them (R279,
  R302); reset none -/
  coverFrom : Option (W64 × W64)
  /-- dynamic transfers in the escape queue of the node while no lane leads on (R288), own ones and ones passing through; reset none -/
  escapeWait : List TxEntry
  /-- what a node that runs a pair image has restored for a rank it covers, from its mirror store: the checkpoint's sets and the continuous
  state (R302); reset none -/
  pairState : List (BitVec 10 × List SetGen × List Byte)
  deriving DecidableEq, Repr

/-! ### Management controller -/

/-- LIFECYCLE of R342 as R343 reads it. -/
inductive LifeCycle
  | manufacture | provisioned | deployed | returned | decommissioned
  deriving DecidableEq, Repr

/-- A colophon-log entry (R339) by its fields. -/
structure LogEntry where
  seq : W64
  cadence : W64
  utc : W64
  source : Byte
  severity : BitVec 2
  utcValid : Bool
  cont : Bool
  code : BitVec 16
  payload : BitVec 256
  /-- CRC-32 of bytes 0 to 59, made as the entry is written to flash; 0 in the buffer -/
  crc : W32
  deriving DecidableEq, Repr

/-- A stored firmware image (R348, R349): the 4,096-bit manifest, the digest table and the body, as written. -/
structure FwImage where
  manifest : BitVec 4096
  digests : List (BitVec 384)
  body : List Byte
  deriving DecidableEq, Repr

/-- Where a firmware update stands (R351). -/
inductive UpdatePhase
  | idle | requested | table | sweep1 | sweep2 | transferred | verified | applied
  deriving DecidableEq, Repr

/-- One temperature, rail or power sensor (R336, R337, R378). -/
structure Sensor where
  /-- latest reading; 0x8000 after three failed reads; reset DESIGN CHOICE 0 (log entry 6) -/
  value : Int
  /-- of input power, the latest mean over 1 s (R378); reset DESIGN CHOICE 0 (log entry 6) -/
  mean : Nat
  /-- consecutive failed reads (R336); reset 0 -/
  fails : Nat
  /-- its warning has been raised and not yet rearmed (R337, R378); reset false -/
  warned : Bool
  deriving DecidableEq, Repr

/-- An answer of the sideband: the model's own record of an output (R331, R340, R355). -/
inductive Answer
  | result (code : Byte) (r : Byte)
  | nonce (n : BitVec 256)
  | mctp (code : Byte)
  | base (command : Byte) (types : List Nat)
  | reading (value : Int)
  | pldm (command : Byte) (completion : Byte)
  | verify (code : Byte)
  | version | capabilities | algorithms (ok : Bool)
  | digests (slots : List (BitVec 384)) | certificate (bytes : List Byte)
  | signature (sig : BitVec 768) | measurement (digests : List (BitVec 384)) (sig : Option (BitVec 768))
  | spdmError (code : Byte)
  deriving DecidableEq, Repr

/-- The management controller (R333 to R360). -/
structure Mc where
  /-- the MC runs; it sits in mask-ROM recovery (R335, R353); reset false -/
  up : Bool
  recovery : Bool
  /-- restart cause pending and restart count (R335); reset 0 -/
  restartCause : Byte
  restarts : W32
  /-- fuse shadow and fuse array, 8,448 bits each (R342); reset 0 -/
  fuses : BitVec 8448
  fuseArray : BitVec 8448
  /-- the bytes of the 512 KiB SRAM that have no home below: the image's code and data, and the secure region with the identity key
  (R2, R333, R345, R355); reset DESIGN CHOICE 0 (log entry 6) -/
  sram : Memory
  /-- the region's read port is closed after four failed verifies (R346); reset false -/
  portClosed : Bool
  /-- tamper cause register (R345); reset 0 -/
  tamperCause : BitVec 6
  /-- writes over the first that the next wipes need where no command gives them: the model's own stand for what no rule foresees
  (R346); reset a free value (log entry 60) -/
  wipeRetries : List Nat
  /-- DEVICE_SECRET's port closed by the mask ROM (R342); reset false -/
  secretClosed : Bool
  /-- UTC and UTC_VALID (R341); reset 0 -/
  utc : W64
  utcValid : Bool
  /-- nonce outstanding (R344); reset none -/
  nonce : Option (BitVec 256 × Nat)
  /-- log buffer, oldest first, at most 1,024 (R333, R340); reset empty -/
  logBuf : List LogEntry
  /-- entries made while the MC restarts, oldest first, to be logged when it is back (R335); reset none -/
  held : List LogEntry
  /-- information entries dropped (R340); reset 0 -/
  logDropped : Nat
  /-- next SEQUENCE of the log; never reused (R339); reset 0 -/
  logNext : W64
  /-- entries in flash, newest first (R338, R339); reset none -/
  flashLog : List LogEntry
  /-- stored images by component (R338, R348); reset none (erased) -/
  images : List (Component × FwImage)
  /-- images in service: running copy of the MC and Binder, microcode loaded (R351, R355); reset none -/
  running : List (Component × FwImage)
  /-- images written and not yet activated (R351, R352); reset none -/
  written : List Component
  /-- images activated that are not yet in service (R352); reset none -/
  pending : List Component
  /-- update: phase, agent, component, bytes received in the sweep, manifest staged (R351); reset idle -/
  phase : UpdatePhase
  agent : Nat
  component : Option Component
  staging : List Byte
  /-- chunks received in the sweep in progress (R351); reset 0 -/
  chunk : Nat
  /-- activation of a Binder image under way: the old copy (R352); reset none -/
  oldBinder : Option FwImage
  /-- four stored profiles of 2,048 bits (R380); reset the factory values -/
  profiles : Vector (BitVec 2048) 4
  /-- profile chosen by command, by pins, and the active one's content (R381); reset none, 0, factory -/
  profSelected : Option (Fin 4)
  profPins : Fin 4
  activeProfile : BitVec 2048
  activeIndex : Fin 4
  /-- soft-repair records in flash: stack, bank, row (R244, R338); reset none -/
  softRepairs : List (StackId × Nat × Nat)
  /-- sensors: 80 die, 20 stack, 16 board, coolant inlet and outlet, voltage and current of 22 rails, input power (R336) -/
  die : Vector Sensor 80
  stackT : Vector Sensor 20
  board : Vector Sensor 16
  coolIn : Sensor
  coolOut : Sensor
  rails : Vector Sensor 22
  railsCurrent : Vector Sensor 22
  power : Sensor
  /-- SENSOR_PAGE: temperatures, rails and power as last refreshed (R312, R336); reset 0 -/
  page : List Int
  /-- block borrowed by the background test and its save buffer of 32 words, the reference edge of the last borrow, blocks excluded
  (R356, R358); reset none -/
  borrowed : Option (Nat × List Byte)
  borrowedAt : Option Nat
  excluded : List Nat
  /-- payloads of trips latched while the MC restarts (R335); reset none -/
  latched : List (BitVec 256)
  /-- recovery over the fabric has ended for this component; the MC waits for PLDM (R353); reset none -/
  recovering : Option Component
  fabricTried : Bool
  /-- serial of the neighbour asked for the component (R353); reset none -/
  askedSerial : Option W64
  /-- certificate chain stored in flash (R338, R355); reset a free value (log entry 8) -/
  certChain : List Byte
  /-- MCTP endpoint ID and I3C dynamic address from the bus owner (R331); reset DESIGN CHOICE 0 (log entry 6) -/
  eid : Byte
  i3cAddress : BitVec 7
  /-- SPDM exchange: version, capabilities and algorithms agreed (R355); reset 0 -/
  spdm : Nat
  /-- the last answer of the sideband; reset none -/
  answer : Option Answer
  deriving DecidableEq, Repr

/-! ### Clocks, power, start-up -/

/-- How far start-up has come (R382): the step last completed, 0 to 10. -/
structure Power where
  /-- input supervision: standby on, main start allowed, clamp engaged (R374); reset off -/
  standby : Bool
  inputOk : Bool
  clamp : Bool
  /-- start-up step completed (R382); reset 0 -/
  step : Nat
  /-- main domain powered (R16, R379); reset false -/
  main : Bool
  /-- the main domain was shut down and waits for MAIN_ON (R337, R374); reset false -/
  needMainOn : Bool
  /-- hot-swap switch fully on; breaker open (R393, R395); reset false -/
  switchOn : Bool
  breaker : Bool
  /-- PRESENT_N low (R393, R394); reset false -/
  present : Bool
  /-- phases shed by rail, 22 for the first stage (R377); reset none -/
  shed : List (Fin 23 × Nat)
  /-- ALERT_N low, CLK_OK high (R371, R379, R388); reset false, false -/
  alert : Bool
  clkOk : Bool
  /-- start-up survey done, stacks absent (R382); reset none -/
  surveyed : Bool
  deriving DecidableEq, Repr

/-- Clocks (R361 to R373). -/
structure Clocks where
  /-- REFCLK presence and qualification (R361); reset false -/
  refPresent : Bool
  qualified : Bool
  /-- windows in a row that qualify: 1, or 2 after a trip while locking (R373); and those still to come; reset 1, 1 -/
  windowsNeed : Nat
  windowsLeft : Nat
  /-- after a trip while a PLL was locking PCLK and the Binder clock stay on REFCLK (R373); reset false -/
  bypass : Bool
  /-- monitor armed (R361); reset false -/
  armed : Bool
  /-- the reference is lost and the safe states are forced (R371); reset false -/
  lost : Bool
  /-- tick of the loss and frame then (R372, R384); reset 0 -/
  lostAt : Nat
  lostFrame : BitVec 40
  /-- the return sequence is under way, and its stage: 0 none, 1 qualified, 2 SBPLL, 3 main PLLs, 4 ramp, 5 stacks (R372); reset 0 -/
  returning : Bool
  stage : Nat
  /-- ports whose link was up at the loss and has not trained again (R372); reset none -/
  portsBack : List PciePort
  /-- PLLs locked (R362); reset none -/
  locked : List Pll
  /-- ACLK ramp step, 0 before the ramp, 8 when complete (R366); reset 0 -/
  ramp : Nat
  deriving DecidableEq, Repr

/-- The whole machine. -/
structure State where
  /-- commands that wait, first in, first out; reset empty -/
  pending : List Instr
  /-- the model's own counter of free values drawn (log entry 7); reset 0 -/
  freeIx : Nat
  /-- reference edges counted since standby power (R3); the model's clock for durations (log entry 1); reset 0 -/
  now : Nat
  /-- device memory of the twenty stacks by device virtual address (R14, R235); reset nothing written -/
  dram : Memory
  /-- by home stack, how often its content has been lost: main power, a change of layout, the loss of the stack; unwritten bytes read as
  undefined after one (R16, R242, R325, log entry 4); reset 0 -/
  dramEpoch : Vector Nat 20
  /-- poisoned 256-byte units (R244); reset none -/
  poison : List Nat
  /-- the bytes the device has written to host memory: the model's own record of an output (log entry 5); reset none -/
  hostMem : Memory
  cores : Vector Core 192
  sites : Vector Site 200
  /-- errors of core-memory words to come (R223): the reference edge, the site, the memory, a byte of the word, and what the ECC will
  find; the model's own stand for what no rule foresees; reset a free value (log entry 60) -/
  upsets : List (Nat × SiteId × CoreMem × Nat × EccFind)
  /-- errors of words of the MC SRAM to come (R334): the reference edge, the address, the DMA requester or none for the processor; the
  model's own stand for what no rule foresees; reset a free value (log entry 60) -/
  sramUpsets : List (Nat × Nat × Option Nat)
  hbm : Vector Stack 20
  host : HostIf
  prog : Program
  cad : Cadence
  fab : Fabric
  mc : Mc
  pwr : Power
  clk : Clocks
  /-- the last survey record's SEQUENCE and STATE (R231); reset 0 -/
  surveySeq : W32
  /-- the 8,192-byte survey record as last written (R231); reset none -/
  surveyRec : List Byte
  deriving DecidableEq, Repr

/-- Why a step stops with a fault. -/
inductive Fault
  /-- An access of the fabric or of a snapshot to an address beyond the 1,280 GiB of the twenty stacks (R14). Raised by
  FABRIC_SLOT_OPEN and SCHED_TRANSFER; the loader keeps accepted programs from it (R161, check 11). Safe: the model stops. -/
  | absentMemory (addr : Nat)
  deriving DecidableEq, Repr

/-- Why a command has no meaning. -/
inductive Refusal
  /-- The command has no meaning in the model yet. Safe: nothing is claimed of it. -/
  | notModelled (mnemonic : String)
  deriving DecidableEq, Repr

/-! ### Reset -/

def Plough.reset : Plough :=
  { v := Vector.replicate 32 (Vector.replicate 64 0), sr := Vector.replicate 16 0, p := Vector.replicate 8 0,
    m := Vector.replicate 8 0xFFFF_FFFF_FFFF_FFFF, loops := [], ip := 0, running := false, halted := false, haltRec := 0,
    direct := false, accSlot := 0, queue := [], line := none }

def Needle.reset : Needle :=
  { sect := .idle, pos := 0, waitRelease := false, retired := false, sleepReq := false, elasticPos := 0, elasticOn := false,
    stopped := false, serial := 0, released := false, releaseNow := 0, lastFrame := 0 }

/-- Resident words before any load (log entry 57). -/
def Resident.reset : Resident := { mode := .t1, rfmt := .e4m3, kValid := 0, cols := [] }

def Press.reset : Press :=
  { active := Resident.reset, shadow := Resident.reset, ready := false, set0 := none, set1 := none, pass := none,
    incoming := List.replicate 120 (.bits 0 0), held := List.replicate 120 (.bits 0 0), beats := [], queue := [], faultCol := none,
    loaded := false, pendingObs := none }

def Stream.reset : Stream :=
  { arms := [], nextByte := 0, landed := [], buffer := [], halted := none, walking := none, fetching := none, memberArms := [],
    duty := [], dutyByte := 0, ownUntil := 0, ownFrom := (0, 0), writes := [] }

/-- A section before its first word has been read. -/
def ReadAhead.start (sect : Sect) : ReadAhead := { sect := sect, pos := 0, words := [], stopped := false }

def Awl.reset : Awl :=
  { streams := Vector.replicate 64 Stream.reset, reads := [], gens := [], xlate := [], late := [], tlb := [], pinned := ReadAhead.start .idle,
    elastic := ReadAhead.start .idle }

/-- The home site of a logical core (R234). -/
def homeSite (c : CoreId) : SiteId :=
  ⟨50 * (c.val / 48) + c.val % 48, by have := c.isLt; omega⟩

def Core.reset (c : CoreId) : Core :=
  { needle := Needle.reset, plough := Plough.reset, press := Press.reset, awl := Awl.reset, coll := [], collNext := [], collKept := [],
    quire := [], acc := [], endp := [], ecc := [], kettle := Vector.replicate 256 0, satisfied := none, signals := [],
    doneSignals := [], draws := Vector.replicate 16 0, drawsSaved := Vector.replicate 16 0, collide := none, gapCollide := [], clamp := none,
    site := homeSite c, asleep := false, fabricQ := [] }

def Site.reset (s : SiteId) : Site :=
  { role := if s.val % 50 < 48 then .service else .guard, ceFlag := false, testOk := false, cause := 0, transit := 0,
    ceQuire := 0, ceAcc := 0, ceEndp := 0, ue := 0, ceTimes := [], ceLogged := (0, 0), served := 0, testedAt := 0,
    deepSleep := false, quire := [], acc := [], endp := [], ecc := [], repair := 0 }

def Stack.reset : Stack :=
  { state := .service, badFrames := 0, sparesUsed := [], sparesLeft := 4096, softPending := 0, lat := 0, ce := 0, ue := 0,
    rows := [], ueRows := [], lowRaised := false, withdrawn := [], selfRefresh := true }

def Mailbox.reset : Mailbox := { sram := [], tail := 0, head := 0, prevSeq := none, recent := [] }

def RingRegs.reset (r : Fin 8) : RingRegs :=
  { base := 0, log2Size := 0, enable := false, head := 0, tail := 0, vector := r.val, count := 1, delay := 0,
    unsignalled := 0, firstAt := 0 }

def PortState.reset : PortState := { up := false, downAt := 0, result := 0, width := 0, generation := 0 }

/-- MSI-X entries come out of reset with the mask bit of dword 3 set, as PCI Express defines (PRESUMED, log entry 6). -/
def msixReset : BitVec 128 := 0x1_0000_0000_0000_0000_0000_0000

/-- The gates of R370; PERIPH_ENABLE is 0 at reset and the MC's own gates are PRESUMED open (log entry 6). -/
def gatesReset : List (Gate × GateState) :=
  [(.sensorPage, .closed), (.logPage, .closed), (.tracePage, .closed), (.mcFlash, .opened), (.mcSideband, .opened),
   (.mcTest, .opened)]

/-- The status header before the Binder has come up (R311): STATE 3, HANDLES_FREE 4,096, the other Binder-maintained fields 0. -/
def headerReset : BitVec 256 := BitVec.ofNat 256 (3 * 2 ^ 16 + 4096 * 2 ^ 32)

def HostIf.reset : HostIf :=
  { portA := PortState.reset, portB := PortState.reset, portBActive := false, usable := false,
    mailboxes := Vector.replicate 8 Mailbox.reset, rings := Vector.ofFn RingRegs.reset, eventRing := 7,
    msixTable := Vector.replicate 64 msixReset, pba := 0, msixSent := [], gates := gatesReset, logBase := 0, aperture := 0,
    handles := [], takeNo := 0, fixNo := 0, records := [], eventNext := 0, eventQ := [], eventsLost := 0, trace := [],
    eventSeq := 0, stepDone := 0, binderUp := false, ifLevel := 0, binderRestarts := 0, header := headerReset, aer := 0, dmaLimit := 64, mirrorLimit := 128,
    tippingLimit := 8, kettleTable := [], surveyWaiting := [], surveyRunning := false,
    readData := none }

def Program.reset : Program :=
  { staged := none, active := none, phase := .none, handle := none, activating := none, peerWaitEnd := 0,
    elasticHandle := none, elasticFault := none, elasticRuns := 0, elasticPending := none, boundaryCmds := [], step := 0, committed := none,
    released := false, releaseAt := 0, releaseNow := 0, lastFrame := 0, startedRel := false, coldLeft := 0, hasWarm := false,
    observed := [], lastCold := true, faults := [],
    faultsNext := [], discards := 0, sinceRotation := 0, rotationSteps := 262144, reserveLayout := false, recipe := [], allowance := 0,
    steer := [], groupRecs := [], closed := false, carrier := [], digestMin := none, digestMax := none, snaps := [],
    localCopies := [], shipping := [], shipped := [], kept := none, keptShipped := none, inputs := [], inputFull := none, inputWant := [], paged := [],
    present := [], relocated := none, stepWaiters := [], formerStep := none, degraded := false, recovering := false, replayTo := none, awaiting := [], woken := (0, 0),
    placed := false, checkpointWait := false }

def Cadence.reset : Cadence :=
  { tick := 0, frame := 0, rxTick := 0, markPending := false, valid := false, aligned := false, trimmed := false,
    hold := false, trim := 0, events := 0, hiLatch := 0, ring := [], lastLen := 0, minLen := 0, maxLen := 0,
    spurious := false, gapFrame := none, rootFrame := none, offset := 0, trimBasis := 0, rootChanged := false,
    holdFrames := 0, adopt := false, resumeFrame := none, votes := [], voted := false }

def Link.reset : Link :=
  { phase := .failed, partner := 0xFFFF, record := 0, latency := 0, cable := 0, fecCorr := 0, fecUncorr := 0, sched := true,
    overBound := false, samples := [], peerOffset := 0, tx := [], flitNo := 0,
    lastSent := .quiet, orderedSets := 0, used := Vector.replicate 4 0 }

def Fabric.reset : Fabric :=
  { links := Vector.replicate 64 Link.reset, nodeId := 0xFFFF, idSource := 2, shelfWaiting := none, idTries := 0,
    partnerSeq := 0, advSeq := 0, adverts := [], active := [], shadow := [], rebuilding := false, flipReady := false,
    root := 0xFFFF, rootHops := 0xFF, outstanding := [], nextSeq := 0, sent := [], openSlots := [], doneSlots := [],
    receiving := [], failedNow := [], failedEver := [], untimed := false, cover := false, rankNode := [], lost := [],
    covering := [], unspread := [], bindings := [], store := none, protects := [], mirrored := none, lagRaised := false,
    acked := [], seeding := none, seedSets := [], seedState := none, rejoining := none, recover := [], coverFrom := none,
    escapeWait := [], pairState := [] }

def Sensor.reset : Sensor := { value := 0, mean := 0, fails := 0, warned := false }

/-- CRC-32 of bytes 0 to 251 of the factory profiles (R101, R380); the tests check the three figures against `crc32`. -/
def factoryCrc (slots : Nat) : Nat := if slots = 6 then 0xB39D_50C7 else if slots = 4 then 0xE145_6EF4 else 0xD4E4_EC1F

/-- The factory content of a profile (R253, R380): FRAME_MIN 1,960,000, FRAME_MAX 2,041,000, SKEW_BUDGET 256, HOLD_TIMEOUT 500; the
given ACLK_SLOTS; the multipliers 8, 16, 12, 4; SSC 0, 0, 5; POWER_WARN_W 1,450; CRC. -/
def factoryProfile (slots : Nat) : BitVec 2048 :=
  BitVec.ofNat 2048 (1960000 + 2041000 * 2 ^ 24 + 256 * 2 ^ 48 + 500 * 2 ^ 64 + slots * 2 ^ 128 + 8 * 2 ^ 136
    + 16 * 2 ^ 144 + 12 * 2 ^ 152 + 4 * 2 ^ 160 + 5 * 2 ^ 176 + 1450 * 2 ^ 184 + factoryCrc slots * 2 ^ 2016)

def Mc.reset : Mc :=
  { up := false, recovery := false, restartCause := 0, restarts := 0, fuses := 0, fuseArray := 0, sram := [],
    portClosed := false, tamperCause := 0, wipeRetries := Config.wipeRetries, secretClosed := false, utc := 0, utcValid := false, nonce := none, logBuf := [],
    held := [], logDropped := 0, logNext := 0, flashLog := [], images := [], running := [], written := [], pending := [], phase := .idle, agent := 0,
    component := none, staging := [], chunk := 0, oldBinder := none,
    profiles := Vector.ofFn fun i : Fin 4 => factoryProfile (if i.val = 1 then 6 else if i.val = 2 then 4 else 8),
    profSelected := none, profPins := 0, activeProfile := factoryProfile 8, activeIndex := 0, softRepairs := [],
    die := Vector.replicate 80 Sensor.reset, stackT := Vector.replicate 20 Sensor.reset,
    board := Vector.replicate 16 Sensor.reset, coolIn := Sensor.reset, coolOut := Sensor.reset,
    rails := Vector.replicate 22 Sensor.reset, railsCurrent := Vector.replicate 22 Sensor.reset, power := Sensor.reset, page := [],
    borrowed := none, borrowedAt := none, excluded := [], certChain := Config.certificateChain, eid := 0, i3cAddress := 0,
    latched := [], recovering := none, fabricTried := false, askedSerial := none, spdm := 0, answer := none }

def Power.reset : Power :=
  { standby := false, inputOk := false, clamp := false, step := 0, main := false, needMainOn := false, switchOn := false,
    breaker := false, present := false, shed := [], alert := false, clkOk := false, surveyed := false }

def Clocks.reset : Clocks :=
  { refPresent := false, qualified := false, windowsNeed := 1, windowsLeft := 1, bypass := false, armed := false, lost := false, lostAt := 0, lostFrame := 0,
    returning := false, stage := 0, portsBack := [], locked := [], ramp := 0 }

/-- The module before standby power rises (log entry 10). -/
def State.reset : State :=
  { pending := [], freeIx := 0, now := 0, dram := [], dramEpoch := Vector.replicate 20 0, poison := [], hostMem := [],
    cores := Vector.ofFn Core.reset, sites := Vector.ofFn Site.reset, upsets := Config.upsets,
    sramUpsets := Config.sramUpsets, hbm := Vector.replicate 20 Stack.reset,
    host := HostIf.reset, prog := Program.reset, cad := Cadence.reset, fab := Fabric.reset, mc := Mc.reset,
    pwr := Power.reset, clk := Clocks.reset, surveySeq := 0, surveyRec := [] }

end Sys2Proof.Machine
end

