-- ==== Sys2Proof/Machine/Ops.lean ====
section
/-!
DEFINITION. The named operations over the state that every meaning uses: numbers and bytes, memory, the cadence value, log
entries, events, handles and their completion, faults recorded against the step.
-/

namespace Sys2Proof.Machine

/-! ### Numbers and bytes (R4, R5) -/

/-- Field of `w` bits from bit `lo` of `x` (R4). -/
def fld (x lo w : Nat) : Nat := x / 2 ^ lo % 2 ^ w

/-- Bit `i` of `x`. -/
def bitOf (x i : Nat) : Bool := decide (x / 2 ^ i % 2 = 1)

/-- The number a little-endian byte list spells (R5). -/
def leNat : List Byte → Nat
  | [] => 0
  | b :: r => b.toNat + 256 * leNat r

/-- The `n` low bytes of `x`, lowest first (R5). -/
def leBytes : Nat → Nat → List Byte
  | 0, _ => []
  | n + 1, x => BitVec.ofNat 8 x :: leBytes n (x / 256)

/-- Two's complement reading of the low `w` bits. -/
def sext (x w : Nat) : Int := if x % 2 ^ w < 2 ^ (w - 1) then (x % 2 ^ w : Nat) else ((x % 2 ^ w : Nat) : Int) - 2 ^ w

def divCeil (a b : Nat) : Nat := (a + b - 1) / b

/-- A 32-bit item, and the two items of a 64-bit figure, low half first (R321). -/
def item (x : Nat) : W32 := BitVec.ofNat 32 x
def item2 (x : Nat) : List W32 := [BitVec.ofNat 32 x, BitVec.ofNat 32 (x / 2 ^ 32)]
def itemI (x : Int) : W32 := BitVec.ofInt 32 x
def item2I (x : Int) : List W32 := item2 (BitVec.ofInt 64 x).toNat

/-- Saturating addition of 1 in a counter of 32 bits (R226). -/
def satInc32 (x : W32) : W32 := if x = 0xFFFF_FFFF then x else x + 1

/-! ### Memory in canonical form -/

/-- The byte listed at an address, if any. -/
def Mem.lookup : Memory → Nat → Option Byte
  | [], _ => none
  | (k, v) :: r, a => if k = a then some v else Mem.lookup r a

/-- Reading one byte: what is listed, or what an unlisted address reads as. -/
def Mem.get (d : Nat → Byte) (m : Memory) (a : Nat) : Byte := (Mem.lookup m a).getD (d a)

/-- Listing a byte in its place. -/
def Mem.insert : Memory → Nat → Byte → Memory
  | [], a, v => [(a, v)]
  | (k, w) :: r, a, v =>
    if a < k then (a, v) :: (k, w) :: r else if a = k then (a, v) :: r else (k, w) :: Mem.insert r a v

def Mem.erase (m : Memory) (a : Nat) : Memory := m.filter fun c => c.1 ≠ a

/-- Writing one byte: the value an unlisted address reads as removes the entry. -/
def Mem.set (d : Nat → Byte) (m : Memory) (a : Nat) (v : Byte) : Memory :=
  if v = d a then Mem.erase m a else Mem.insert m a v

/-- Writing bytes at rising addresses. -/
def Mem.write (d : Nat → Byte) : Memory → Nat → List Byte → Memory
  | m, _, [] => m
  | m, a, b :: r => Mem.write d (Mem.set d m a b) (a + 1) r

/-- Reading `n` bytes at rising addresses. -/
def Mem.read (d : Nat → Byte) (m : Memory) (a n : Nat) : List Byte := (List.range n).map fun i => Mem.get d m (a + i)

/-- Listing bytes at rising addresses, for the record of host memory, where no unlisted address reads as anything. -/
def Mem.put : Memory → Nat → List Byte → Memory
  | m, _, [] => m
  | m, a, b :: r => Mem.put (Mem.insert m a b) (a + 1) r

def Mem.sortedFrom : Nat → Memory → Bool
  | _, [] => true
  | lo, (k, _) :: r => decide (lo ≤ k) && Mem.sortedFrom (k + 1) r

/-- The canonical form: addresses strictly rising, and no cell equal to what an unlisted address reads as. -/
def Memory.wf (d : Nat → Byte) (m : Memory) : Bool := Mem.sortedFrom 0 m && m.all fun c => decide (c.2 ≠ d c.1)

/-- The memories of a core and of the mailboxes read as zero where nothing is listed (R220, R313). -/
def zeroByte (_ : Nat) : Byte := 0

/-- What device memory reads as where nothing is listed: zero before any change of layout (DESIGN CHOICE, log entry 4), a free
value after one (R325). -/
def dramByte (epoch : Vector Nat 20) (a : Nat) : Byte :=
  let e := epoch[a / 2 ^ 21 % 20]'(Nat.mod_lt _ (by decide))
  if e = 0 then 0 else Config.undefinedDram e a

def State.dramRead (s : State) (a n : Nat) : List Byte := Mem.read (dramByte s.dramEpoch) s.dram a n
def State.dramNat (s : State) (a n : Nat) : Nat := leNat (s.dramRead a n)

/-- Writing device memory. A 256-byte unit rewritten whole loses its poison mark (R244). -/
def State.dramWrite (s : State) (a : Nat) (bytes : List Byte) : State :=
  { s with dram := Mem.write (dramByte s.dramEpoch) s.dram a bytes,
           poison := s.poison.filter fun u => !(decide (a ≤ 256 * u) && decide (256 * u + 256 ≤ a + bytes.length)) }
/-- The pages of the paged pool that a write reaches are written back when they are evicted (R184). -/
def State.markPages (s : State) (a n : Nat) : State :=
  { s with prog := { s.prog with present := s.prog.present.map fun g =>
      if g.1 * 2 ^ 21 < a + n ∧ a < (g.1 + 1) * 2 ^ 21 then (g.1, true) else g } }

/-- A write of device memory by a unit of the device, a program or the host: pages in frames become written (R184). -/
def State.dramStore (s : State) (a : Nat) (bytes : List Byte) : State := (s.dramWrite a bytes).markPages a bytes.length

/-- The content of every stack is undefined from here on (R16, R325). -/
def State.loseDram (s : State) : State := { s with dram := [], dramEpoch := s.dramEpoch.map (· + 1), poison := [] }

def State.hostWrite (s : State) (a : Nat) (bytes : List Byte) : State := { s with hostMem := Mem.put s.hostMem a bytes }

/-- Bytes of a placement unit, of the whole of device memory and of one stack (R14). -/
def unitBytes : Nat := 2 ^ 21
def dramBytes : Nat := 1280 * 2 ^ 30

/-- Sizes of the core memories in bytes and the width of their words (R211). -/
def coreMemSize : CoreMem → Nat
  | .quire => 6 * 2 ^ 20
  | .acc => 3 * 2 ^ 19
  | .endpaper => 2 ^ 18

def Core.mem (k : Core) : CoreMem → Memory
  | .quire => k.quire
  | .acc => k.acc
  | .endpaper => k.endp

def Core.withMem (k : Core) (m : CoreMem) (x : Memory) : Core :=
  match m with
  | .quire => { k with quire := x }
  | .acc => { k with acc := x }
  | .endpaper => { k with endp := x }

def Core.read (k : Core) (m : CoreMem) (a n : Nat) : List Byte := Mem.read zeroByte (k.mem m) a n
def Core.readNat (k : Core) (m : CoreMem) (a n : Nat) : Nat := leNat (k.read m a n)
def Core.write (k : Core) (m : CoreMem) (a : Nat) (bytes : List Byte) : Core :=
  k.withMem m (Mem.write zeroByte (k.mem m) a bytes)

/-! ### Parts of the state -/

def State.core (s : State) (c : CoreId) : Core := s.cores[c]
def State.setCore (s : State) (c : CoreId) (k : Core) : State := { s with cores := s.cores.set c.val k c.isLt }
def State.modCore (s : State) (c : CoreId) (f : Core → Core) : State := s.setCore c (f (s.core c))

def State.site (s : State) (i : SiteId) : Site := s.sites[i]
def State.modSite (s : State) (i : SiteId) (f : Site → Site) : State :=
  { s with sites := s.sites.set i.val (f (s.site i)) i.isLt }

def State.stack (s : State) (i : StackId) : Stack := s.hbm[i]
def State.modStack (s : State) (i : StackId) (f : Stack → Stack) : State :=
  { s with hbm := s.hbm.set i.val (f (s.stack i)) i.isLt }

def State.link (s : State) (l : LaneId) : Link := s.fab.links[l]
def State.modLink (s : State) (l : LaneId) (f : Link → Link) : State :=
  { s with fab := { s.fab with links := s.fab.links.set l.val (f (s.link l)) l.isLt } }

def State.modHost (s : State) (f : HostIf → HostIf) : State := { s with host := f s.host }
def State.modProg (s : State) (f : Program → Program) : State := { s with prog := f s.prog }
def State.modCad (s : State) (f : Cadence → Cadence) : State := { s with cad := f s.cad }
def State.modFab (s : State) (f : Fabric → Fabric) : State := { s with fab := f s.fab }
def State.modMc (s : State) (f : Mc → Mc) : State := { s with mc := f s.mc }
def State.modPwr (s : State) (f : Power → Power) : State := { s with pwr := f s.pwr }
def State.modClk (s : State) (f : Clocks → Clocks) : State := { s with clk := f s.clk }

def State.mapCores (s : State) (f : Core → Core) : State := { s with cores := Vector.ofFn fun c : Fin 192 => f s.cores[c] }

/-- All logical cores, sites, stacks and lanes in rising order. -/
def allCores : List CoreId := List.finRange 192
def allSites : List SiteId := List.finRange 200
def allStacks : List StackId := List.finRange 20
def allLanes : List LaneId := List.finRange 64

/-- A fresh free value: the counter of the state names it (log entry 7). -/
def State.bump (s : State) : State := { s with freeIx := s.freeIx + 1 }
def State.free (s : State) (k : Nat) : W64 := Config.freeValue s.freeIx k

/-- The arithmetic clock runs: the reference is not lost and no return is under way (R366, R371, R372). -/
def State.aclkRuns (s : State) : Bool := !s.clk.lost && !s.clk.returning

/-- The clocks of the Binder, the lanes and the ports run: the reference is not lost, and on a return the main PLLs have locked again (R371,
R372). -/
def State.mainClocks (s : State) : Bool := !s.clk.lost && !(s.clk.returning && decide (s.clk.stage < 3))

/-- The standby clocks run: the reference is not lost and the SBPLL has locked again, or they stay on bypass (R371 to R373). -/
def State.standbyClocks (s : State) : Bool :=
  s.pwr.standby && (s.clk.bypass || (!s.clk.lost && !(s.clk.returning && decide (s.clk.stage < 2))))

/-- The MC firmware runs. -/
def State.mcRuns (s : State) : Bool := s.standbyClocks && s.mc.up

/-- The MC begins a restart: it answers nothing until MC_RESTART (R335). -/
def State.mcDown (s : State) (cause : Nat) : State :=
  s.modMc fun m => { m with up := false, secretClosed := false, restartCause := BitVec.ofNat 8 cause }

/-! ### Cadence value -/

/-- The cadence counter as its 64 bits: FRAME [63:24], TICK [23:0] (R250). -/
def Cadence.counter (c : Cadence) : W64 := c.frame ++ c.tick

/-- The counter as a stamp: 0 while VALID is 0 (R250, R317, R339). -/
def State.stamp (s : State) : W64 := if s.cad.valid then s.cad.counter else 0

/-! ### Colophon log (R339, R340) -/

/-- SOURCE of an entry by its code (R339; DEDUCED from who raises it, log entry 19). -/
def logSource (code : Nat) : Byte :=
  if code = 0x0502 then 2
  else if 0x0402 ≤ code ∧ code ≤ 0x0405 then 3
  else if (0x040F ≤ code ∧ code ≤ 0x0411) then 4
  else if code = 0x041A then 5
  else if code = 0x041C ∨ code = 0x041D ∨ code = 0x0505 ∨ code = 0x0506 then 6
  else if code = 0x0420 then 7
  else if 0x0301 ≤ code ∧ code ≤ 0x0418 then 1
  else 0

/-- One entry put in the buffer, which holds 1,024; when it is full an information entry is dropped and counted, and the others wait
for room behind it (R333, R340). -/
def Mc.enter (m : Mc) (e : LogEntry) : Mc :=
  let e := { e with seq := m.logNext }
  if m.logBuf.length < 1024 then { m with logBuf := m.logBuf ++ [e], logNext := m.logNext + 1 }
  else if e.severity = 0 then { m with logDropped := m.logDropped + 1 }
  else { m with logBuf := m.logBuf ++ [e], logNext := m.logNext + 1 }

/-- One entry made; while neither the firmware nor the loader in recovery runs it is held until the MC is back (R335, R353). -/
def Mc.append (m : Mc) (e : LogEntry) : Mc :=
  if m.up ∨ m.recovery then m.enter e else { m with held := m.held ++ [e] }

/-- What was held while the MC restarted is logged in order (R335). -/
def Mc.enterHeld (m : Mc) : Mc := m.held.foldl Mc.enter { m with held := [] }

def State.logAs (s : State) (sev : BitVec 2) (code : Nat) (cont : Bool) (payload : Nat) : State :=
  s.modMc fun m => m.append
    { seq := 0, cadence := s.stamp, utc := m.utc, source := logSource code, severity := sev, utcValid := m.utcValid,
      cont := cont, code := BitVec.ofNat 16 code, payload := BitVec.ofNat 256 payload, crc := 0 }

/-- An entry of a log-only code (R340): its figures as 32-bit items from the lowest bit, in the table's order. -/
def packItems : List W32 → Nat
  | [] => 0
  | x :: r => x.toNat + 2 ^ 32 * packItems r

def State.log (s : State) (code : Nat) (items : List W32) : State :=
  s.logAs (Config.logSeverity code) code false (packItems items)

/-! ### Events (R321, R328, R360) -/

/-- The entries of an event (R339): CORE, STEP [55:0], ITEM0 to ITEM3; then its RECORD field under CONT when it holds a record
or items beyond ITEM3. -/
def State.logEvent (s : State) (e : EventRec) : State :=
  let code := e.code.toNat
  let p := e.core.toNat + 2 ^ 8 * (e.step.toNat % 2 ^ 56) + 2 ^ 64 * packItems (e.items.take 4)
  let s := s.logAs (Config.logSeverity code) code false p
  match e.record with
  | some r => s.logAs (Config.logSeverity code) code true r.toNat
  | none =>
    if 4 < e.items.length then s.logAs (Config.logSeverity code) code true (packItems (e.items.drop 4)) else s

/-- Whether an event repeats one already recorded (R321): same program, step, core and code. -/
def EventRec.sameAs (e : EventRec) (code core : Nat) (step : W64) (program : Handle) : Bool :=
  e.code.toNat == code && e.core.toNat == core && e.step == step && e.run == program

def EventRec.again (e : EventRec) : EventRec := if e.repeats = 255 then e else { e with repeats := e.repeats + 1 }

/-- An event raised: while the main domain is off it is only logged (R360); a repeat in one step for one core adds 1 to REPEATS of its
record (R321), for a device event while a program is in its steps (log entry 13); otherwise a new record takes the next SEQUENCE, its
entry joins the queue of 512 or is counted as lost (R319), and the MC logs it. The step is the one in progress where none is given. -/
def State.raise (s : State) (code core : Nat) (items : List W32) (record : Option (BitVec 256) := none)
    (stepNo : Option W64 := none) : State :=
  let step := stepNo.getD s.prog.step
  let program := s.prog.handle.getD 0
  let e : EventRec :=
    { code := BitVec.ofNat 16 code, core := BitVec.ofNat 8 core, repeats := 0, seq := s.host.eventNext, step := step,
      items := items, record := record, handle := if code < 0x0400 then program else 0, run := program, cadence := s.stamp }
  if !s.pwr.main then s.logEvent e
  else if (decide (code < 0x0400) || s.prog.phase == .steps) && s.host.records.any (·.sameAs code core step program) then
    let f := fun r : EventRec => if r.sameAs code core step program then r.again else r
    s.modHost fun h => { h with records := h.records.map f, eventQ := h.eventQ.map f }
  else
    let s := s.modHost fun h =>
      { h with records := (e :: h.records).take 512, eventNext := h.eventNext + 1, eventSeq := e.seq,
               eventQ := if h.eventQ.length < 512 then h.eventQ ++ [e] else h.eventQ,
               eventsLost := if h.eventQ.length < 512 then h.eventsLost else h.eventsLost + 1 }
    s.logEvent e

/-- No core is concerned (R321). -/
def noCore : Nat := 0xFF

/-- A device event (R328). -/
def State.raiseDev (s : State) (code : Nat) (items : List W32) : State := s.raise code noCore items

/-- Whether the step in progress is being replayed in a recovery: then no step event is raised a second time (R302, R328). -/
def State.replaying (s : State) : Bool :=
  match s.prog.replayTo with
  | some n => decide (s.prog.step.toNat ≤ n.toNat)
  | none => false

/-- A step event (R328), silent on a recovery replay. -/
def State.raiseStep (s : State) (code core : Nat) (items : List W32) (record : Option (BitVec 256) := none)
    (stepNo : Option W64 := none) : State :=
  if s.replaying then s else s.raise code core items record stepNo

/-! ### Handles (R316, R319, R326) -/

def handleIndex (h : Handle) : Nat := h.toNat % 4096
def handleGen (h : Handle) : Nat := h.toNat / 2 ^ 20
def mkHandle (gen index : Nat) : Handle := BitVec.ofNat 32 (2 ^ 20 * (gen % 4096) + index % 4096)

/-- The entry a handle names, if its GENERATION matches and its reserved bits are zero (R316). -/
def HostIf.entry? (h : HostIf) (x : Handle) : Option HandleEntry :=
  match h.handles[handleIndex x]? with
  | some e => if e.gen.toNat = handleGen x ∧ x.toNat / 2 ^ 12 % 256 = 0 ∧ e.gen ≠ 0 then some e else none
  | none => none

def HostIf.modEntry (h : HostIf) (x : Handle) (f : HandleEntry → HandleEntry) : HostIf :=
  match h.handles[handleIndex x]? with
  | some e => { h with handles := h.handles.set (handleIndex x) (f e) }
  | none => h

def State.modEntry (s : State) (x : Handle) (f : HandleEntry → HandleEntry) : State := s.modHost (·.modEntry x f)

/-- A handle that is Running (R316). -/
def State.running? (s : State) (x : Handle) : Option HandleEntry :=
  match s.host.entry? x with
  | some e => if e.phase = .running then some e else none
  | none => none

/-- A command's outcome is fixed (R316, R319): its handle is Held with STATUS, DETAIL, RESULT and the CADENCE of this moment,
behind every outcome fixed before. -/
def State.complete (s : State) (x : Handle) (status detail : Nat) (result : Nat) : State :=
  match s.running? x with
  | none => s
  | some _ =>
    let n := s.host.fixNo
    let c := s.stamp
    let s := s.modEntry x fun e =>
      { e with phase := .held, exclusiveDone := true, fixedAt := n, status := BitVec.ofNat 16 status,
               detail := BitVec.ofNat 32 detail, result := BitVec.ofNat 64 result, cadence := c }
    s.modHost fun h =>
      { h with fixNo := n + 1,
               trace := h.trace.map fun t =>
                 if t.handle = x then { t with doneCadence := c, status := BitVec.ofNat 16 status } else t }

def State.completeAll (s : State) (xs : List Handle) (status detail result : Nat) : State :=
  xs.foldl (fun s x => s.complete x status detail result) s

/-! ### Faults recorded against the step (R18, R221, R327) -/

/-- A fault is recorded against the step: for a core, the core; otherwise the link or 0xFF. The first fault of one cause and
one place is kept. -/
def State.fault (s : State) (cause who : Nat) (record : Option (BitVec 256) := none) : State :=
  let f : StepFault := { cause := BitVec.ofNat 8 cause, who := who, record := record }
  if s.prog.faults.any fun g => g.cause == f.cause && g.who == f.who then s
  else s.modProg fun p => { p with faults := p.faults ++ [f] }

/-- The same for the step that follows (R224). -/
def State.faultNext (s : State) (cause who : Nat) (record : Option (BitVec 256) := none) : State :=
  let f : StepFault := { cause := BitVec.ofNat 8 cause, who := who, record := record }
  if s.prog.faultsNext.any fun g => g.cause == f.cause && g.who == f.who then s
  else s.modProg fun p => { p with faultsNext := p.faultsNext ++ [f] }

/-! ### Outcomes -/

/-- A command that takes place where its condition holds and changes nothing where it does not (log entry 2). -/
def act (ready : Bool) (s t : State) : Host.Outcome State Fault Refusal := .next (if ready then t else s)

end Sys2Proof.Machine
end

