-- ==== Sys2Proof/Machine/Number.lean ====
section
/-!
DEFINITION. Number formats and rounding (R37, R85, R88 to R91, R94, R197), by exact integer arithmetic.

A finite value is m · 2^e with a sign. A format is read and written through the integer its exponent and mantissa fields make
together: the code of a magnitude. Codes rise with the value and go on past the largest finite one, which is the grid "continued
without bound" of R89.
-/

namespace Sys2Proof.Machine

/-! ### Values and formats -/

/-- A decoded element: NaN, an infinity, or ±m·2^e. -/
inductive Num
  | nan
  | inf (neg : Bool)
  | fin (neg : Bool) (m : Nat) (e : Int)
  deriving DecidableEq, Repr

/-- A binary floating-point format: precision p, exponent of the least subnormal, sign bit, code of infinity (one past the
largest finite code where there is none), whether infinities and NaNs are encoded as IEEE does, canonical NaN. -/
structure FFmt where
  p : Nat
  emin : Int
  signBit : Nat
  infCode : Nat
  ieee : Bool
  nan : Nat
  deriving DecidableEq, Repr

def fE4M3 : FFmt := { p := 4, emin := -9, signBit := 7, infCode := 0x7F, ieee := false, nan := 0x7F }
def fE5M2 : FFmt := { p := 3, emin := -16, signBit := 7, infCode := 0x7C, ieee := true, nan := 0x7E }
def fBF16 : FFmt := { p := 8, emin := -133, signBit := 15, infCode := 0x7F80, ieee := true, nan := 0x7FC0 }
def fFP16 : FFmt := { p := 11, emin := -24, signBit := 15, infCode := 0x7C00, ieee := true, nan := 0x7E00 }
def fB32 : FFmt := { p := 24, emin := -149, signBit := 31, infCode := 0x7F80_0000, ieee := true, nan := 0x7FC0_0000 }

/-- The canonical NaN (R94). -/
def nan32 : Nat := 0x7FC0_0000

/-- Number of bits of `n`. -/
def bitLen (n : Nat) : Nat := if n = 0 then 0 else n.log2 + 1

/-- 2^i times a Nat for an integer i that is not negative. -/
def shl (n : Nat) (i : Int) : Nat := n * 2 ^ i.toNat

/-- Mantissa and exponent of a code (R37, R85). -/
def FFmt.mant (f : FFmt) (k : Nat) : Nat := if k < 2 ^ (f.p - 1) then k else 2 ^ (f.p - 1) + k % 2 ^ (f.p - 1)
def FFmt.expo (f : FFmt) (k : Nat) : Int :=
  if k < 2 ^ (f.p - 1) then f.emin else f.emin + (k / 2 ^ (f.p - 1) : Nat) - 1

/-- The value a bit pattern stands for (R37, R85). -/
def FFmt.decode (f : FFmt) (x : Nat) : Num :=
  let neg := decide (x / 2 ^ f.signBit % 2 = 1)
  let k := x % 2 ^ f.signBit
  if f.ieee then if k = f.infCode then .inf neg else if f.infCode < k then .nan else .fin neg (f.mant k) (f.expo k)
  else if k = f.infCode then .nan else .fin neg (f.mant k) (f.expo k)

/-- Largest code whose value is not above num/den, on the grid continued without bound. -/
def FFmt.floorCode (f : FFmt) (num den : Nat) : Nat :=
  let x := if 0 ≤ f.emin then num / (den * 2 ^ f.emin.toNat) else num * 2 ^ (-f.emin).toNat / den
  let s := bitLen x - f.p
  s * 2 ^ (f.p - 1) + x / 2 ^ s

/-- The value of a code in units of 2^emin. -/
def FFmt.units (f : FFmt) (k : Nat) : Nat := f.mant k * 2 ^ (f.expo k - f.emin).toNat

/-- Code of num/den rounded to nearest, ties to the even code (R89, R94), the grid going on without bound. -/
def FFmt.nearCode (f : FFmt) (num den : Nat) : Nat :=
  let k := f.floorCode num den
  let n := if 0 ≤ f.emin then num else num * 2 ^ (-f.emin).toNat
  let d := if 0 ≤ f.emin then den * 2 ^ f.emin.toNat else den
  let lo := f.units k
  let hi := f.units (k + 1)
  -- twice y against lo + hi
  if 2 * n < (lo + hi) * d then k else if (lo + hi) * d < 2 * n then k + 1 else if k % 2 = 0 then k else k + 1

/-- The pattern of a sign and a code; beyond the largest finite code it is infinity (R91, R94). -/
def FFmt.pack (f : FFmt) (neg : Bool) (k : Nat) : Nat := (if neg then 2 ^ f.signBit else 0) + min k f.infCode

/-- A value num/den · 2^e rounded once to nearest even. -/
def FFmt.roundRat (f : FFmt) (neg : Bool) (num den : Nat) (e : Int) : Nat :=
  f.pack neg (if 0 ≤ e then f.nearCode (num * 2 ^ e.toNat) den else f.nearCode num (den * 2 ^ (-e).toNat))

/-- An exact integer multiple of 2^e rounded once; an exact zero is +0 (R94). -/
def FFmt.roundInt (f : FFmt) (x e : Int) : Nat := f.roundRat (decide (x < 0)) x.natAbs 1 e

def signed (neg : Bool) (m : Nat) : Int := if neg then -(m : Int) else m

/-! ### Arithmetic (R94, R197) -/

/-- a + b of finite values, with their common exponent. -/
def addExact (na : Bool) (ma : Nat) (ea : Int) (nb : Bool) (mb : Nat) (eb : Int) : Int × Int :=
  let e := min ea eb
  (signed na (shl ma (ea - e)) + signed nb (shl mb (eb - e)), e)

/-- Sum: a zero sum of operands of one sign keeps the sign; otherwise an exact zero is +0 (R94). -/
def FFmt.addNum (f : FFmt) (a b : Num) : Nat :=
  match a, b with
  | .nan, _ => f.nan
  | _, .nan => f.nan
  | .inf x, .inf y => if x = y then f.pack x f.infCode else f.nan
  | .inf x, .fin _ _ _ => f.pack x f.infCode
  | .fin _ _ _, .inf y => f.pack y f.infCode
  | .fin na ma ea, .fin nb mb eb =>
    if ma = 0 ∧ mb = 0 ∧ na = nb then f.pack na 0
    else let r := addExact na ma ea nb mb eb; f.roundInt r.1 r.2

def Num.neg : Num → Num
  | .nan => .nan
  | .inf x => .inf (!x)
  | .fin n m e => .fin (!n) m e

/-- Exact product. -/
def Num.mul : Num → Num → Num
  | .nan, _ => .nan
  | _, .nan => .nan
  | .inf x, .inf y => .inf (x != y)
  | .inf x, .fin y m _ => if m = 0 then .nan else .inf (x != y)
  | .fin x m _, .inf y => if m = 0 then .nan else .inf (x != y)
  | .fin x a e, .fin y b g => .fin (x != y) (a * b) (e + g)

def FFmt.ofNum (f : FFmt) : Num → Nat
  | .nan => f.nan
  | .inf n => f.pack n f.infCode
  | .fin n m e => f.roundRat n m 1 e

def FFmt.add (f : FFmt) (a b : Nat) : Nat := f.addNum (f.decode a) (f.decode b)
def FFmt.sub (f : FFmt) (a b : Nat) : Nat := f.addNum (f.decode a) (f.decode b).neg
def FFmt.mul (f : FFmt) (a b : Nat) : Nat := f.ofNum ((f.decode a).mul (f.decode b))
/-- One rounding after the exact product and sum (R197). -/
def FFmt.fma (f : FFmt) (a b c : Nat) : Nat := f.addNum ((f.decode a).mul (f.decode b)) (f.decode c)

/-- Correctly rounded quotient (R197). -/
def FFmt.div (f : FFmt) (a b : Nat) : Nat :=
  match f.decode a, f.decode b with
  | .nan, _ => f.nan
  | _, .nan => f.nan
  | .inf _, .inf _ => f.nan
  | .inf x, .fin y _ _ => f.pack (x != y) f.infCode
  | .fin x _ _, .inf y => f.pack (x != y) 0
  | .fin x m e, .fin y n g =>
    if n = 0 then if m = 0 then f.nan else f.pack (x != y) f.infCode
    else f.roundRat (x != y) m n (e - g)

/-- Integer square root by bits, from bit `n - 1` down. -/
def isqrtBits (x : Nat) : Nat → Nat → Nat
  | 0, r => r
  | n + 1, r => if (r + 2 ^ n) * (r + 2 ^ n) ≤ x then isqrtBits x n (r + 2 ^ n) else isqrtBits x n r

def isqrt (x : Nat) : Nat := isqrtBits x (bitLen x / 2 + 1) 0

/-- Correctly rounded square root (R197): the root of a magnitude with enough bits, its remainder as one more bit below. -/
def FFmt.sqrt (f : FFmt) (a : Nat) : Nat :=
  match f.decode a with
  | .nan => f.nan
  | .inf n => if n then f.nan else f.pack false f.infCode
  | .fin n m e =>
    if m = 0 then f.pack n 0
    else if n then f.nan
    else
      let k : Nat := if e % 2 = 0 then 64 else 65
      let x := m * 2 ^ k
      let r := isqrt x
      f.roundRat false (2 * r + if r * r = x then 0 else 1) 1 ((e - k) / 2 - 1)

/-- Order on codes with −0 below +0 (R197). -/
def FFmt.key (f : FFmt) (x : Nat) : Int :=
  let k := x % 2 ^ f.signBit
  if x / 2 ^ f.signBit % 2 = 1 then -(k : Int) - 1 else k

def FFmt.isNan (f : FFmt) (x : Nat) : Bool := f.decode x == .nan

def FFmt.minOf (f : FFmt) (a b : Nat) : Nat :=
  if f.isNan a || f.isNan b then f.nan else if f.key a ≤ f.key b then a else b
def FFmt.maxOf (f : FFmt) (a b : Nat) : Nat :=
  if f.isNan a || f.isNan b then f.nan else if f.key a ≤ f.key b then b else a

/-- The sign bit cleared or inverted, of a NaN too, whose payload stays (R196 against R94: DESIGN CHOICE, log entry 58). -/
def FFmt.absOf (f : FFmt) (a : Nat) : Nat := a % 2 ^ f.signBit
def FFmt.negOf (f : FFmt) (a : Nat) : Nat :=
  if a / 2 ^ f.signBit % 2 = 1 then a - 2 ^ f.signBit else a + 2 ^ f.signBit

/-- Signed value order of binary32 numbers that are not NaN: both zeros equal. -/
def ltNum : Num → Num → Bool
  | .nan, _ => false
  | _, .nan => false
  | .inf x, .inf y => x && !y
  | .inf x, .fin _ _ _ => x
  | .fin _ _ _, .inf y => !y
  | .fin na ma ea, .fin nb mb eb => decide ((addExact na ma ea (!nb) mb eb).1 < 0)

def eqNum : Num → Num → Bool
  | .nan, _ => false
  | _, .nan => false
  | .inf x, .inf y => x == y
  | .inf _, .fin _ _ _ => false
  | .fin _ _ _, .inf _ => false
  | .fin na ma ea, .fin nb mb eb => decide ((addExact na ma ea (!nb) mb eb).1 = 0)

/-! ### Plain element formats (R85) -/

/-- Decoding an element of a plain format; INT8 is an integer, packed bits are ±1 (R35, R86). -/
def Fmt.value (f : Fmt) (x : Nat) : Num :=
  match f with
  | .e4m3 => fE4M3.decode (x % 256)
  | .e5m2 => fE5M2.decode (x % 256)
  | .bf16 => fBF16.decode (x % 65536)
  | .fp16 => fFP16.decode (x % 65536)
  | .int8 => let i := sext x 8; .fin (decide (i < 0)) i.natAbs 0
  | .bits => .fin (decide (x % 2 = 0)) 1 0
  | .b32 => fB32.decode (x % 2 ^ 32)

/-- Bytes of an element (R85); packed bits are counted apart. -/
def Fmt.bytes : Fmt → Nat
  | .e4m3 => 1 | .e5m2 => 1 | .bf16 => 2 | .fp16 => 2 | .int8 => 1 | .bits => 1 | .b32 => 4

/-- The coding of SFMT and FMT (R147, R192). -/
def fmtOf : Nat → Option Fmt
  | 0 => some .e4m3 | 1 => some .e5m2 | 2 => some .bf16 | 3 => some .fp16 | 4 => some .int8 | 6 => some .b32 | _ => none

/-- An element widened exactly to binary32 (R196, VLD). -/
def Fmt.widen (f : Fmt) (x : Nat) : Nat :=
  match f with
  | .b32 => x % 2 ^ 32
  | _ => fB32.ofNum (f.value x)

/-! ### Rounding targets (R88 to R90) -/

/-- The targets of R88: a floating format, INT8, the folio grids. -/
inductive Target
  | fp (f : FFmt)
  | int8
  | odd (n : Nat)
  | tz
  | l4
  | x1
  deriving DecidableEq, Repr

/-- The level of an index, in units of `unit`: indices count the levels of the grid continued without bound, and rise with them.
Floating formats: index k ≥ 0 is code k, −k its negative. Odd grid: 2k + 1. TZ: 2k. L4: 2^k for k ≥ 0, −2^(−k−1) below. -/
def Target.level : Target → Int → Int
  | .fp f, k => if 0 ≤ k then f.units k.toNat else -(f.units (-k).toNat : Int)
  | .int8, k => k
  | .odd _, k => 2 * k + 1
  | .tz, k => 2 * k
  | .l4, k => if 0 ≤ k then 2 ^ k.toNat else -(2 ^ (-k - 1).toNat : Int)
  | .x1, k => if 0 ≤ k then 1 else -1

/-- One level unit is 2^−unit. -/
def Target.unit : Target → Nat
  | .fp f => (-f.emin).toNat
  | _ => 0

/-- The extreme indices (R88): the largest finite code, −128 to 127, the grid's ends. -/
def Target.top : Target → Int
  | .fp f => (f.infCode : Int) - 1
  | .int8 => 127
  | .odd n => 2 ^ (n - 1) - 1
  | .tz => 1
  | .l4 => 7
  | .x1 => 0
def Target.bottom : Target → Int
  | .fp f => 1 - (f.infCode : Int)
  | .int8 => -128
  | .odd n => -2 ^ (n - 1)
  | .tz => -1
  | .l4 => -8
  | .x1 => -1

/-- The largest index whose level is not above y = n/d. -/
def Target.floorIdx (t : Target) (n : Int) (d : Nat) : Int :=
  match t with
  | .fp f =>
    if 0 ≤ n then f.floorCode n.toNat d
    else
      let k := f.floorCode (-n).toNat d
      if (f.units k : Int) * d = (-n) * 2 ^ (-f.emin).toNat then -(k : Int) else -(k : Int) - 1
  | .int8 => n / d
  | .odd _ => (n - d) / (2 * d)
  | .tz => n / (2 * d)
  | .l4 =>
    if (d : Int) ≤ n then (((n.toNat / d).log2 : Nat) : Int)
    else if -(d : Int) < n then -1
    else
      let q := divCeil (-n).toNat d
      -- the least power of two that is not below |y|
      let b := if 2 ^ q.log2 = q then q.log2 else q.log2 + 1
      Int.negSucc b
  | .x1 => if 0 ≤ n then 0 else -1

/-- Index of the nearest level, the grid continued without bound (R89): ties to the even encoding in the floating and INT8
targets, to the greater magnitude in the folio grids, +1 for zero where there is no zero level. -/
def Target.nearestIdx (t : Target) (n : Int) (d : Nat) : Int :=
  let k := t.floorIdx n d
  let y2 := 2 * n * 2 ^ t.unit
  let mid := (t.level k + t.level (k + 1)) * d
  match t with
  | .x1 => k
  | .fp _ => if y2 < mid then k else if mid < y2 then k + 1 else if k % 2 = 0 then k else k + 1
  | .int8 => if y2 < mid then k else if mid < y2 then k + 1 else if k % 2 = 0 then k else k + 1
  | _ => if y2 < mid then k else if mid < y2 then k + 1 else if 0 ≤ n then k + 1 else k

/-- Clipped (R89): rounding to nearest on the unbounded grid would leave the target's range. X1 never clips. -/
def Target.clipped (t : Target) (n : Int) (d : Nat) : Bool :=
  match t with
  | .x1 => false
  | _ => let k := t.nearestIdx n d; decide (t.top < k) || decide (k < t.bottom)

/-- Underflowed (R89), for a value that is not zero. -/
def Target.underflowed (t : Target) (n : Int) (d : Nat) : Bool :=
  match t with
  | .fp _ => decide (t.nearestIdx n d = 0)
  | .int8 => decide (t.nearestIdx n d = 0)
  | .tz => decide (t.nearestIdx n d = 0)
  | _ => decide (2 * n.natAbs < d)

def Target.clamp (t : Target) (k : Int) : Int := max t.bottom (min t.top k)

/-- The index written: nearest, or by the draw (R89, R90). A floating target whose nearest rounding leaves its range and that
has infinities in use (BF16, FP16) is the caller's case (R91). -/
def Target.pick (t : Target) (n : Int) (d : Nat) (draw : Option Nat) : Int :=
  match draw with
  | none => t.clamp (t.nearestIdx n d)
  | some u =>
    let k := t.floorIdx n d
    if t = .x1 then k
    else
    let lo := t.level k
    let hi := t.level (k + 1)
    let y := n * 2 ^ t.unit
    if lo * d = y ∨ k < t.bottom ∨ t.top ≤ k then t.clamp k
    else
      let tt := (y - lo * d) * 65536 / ((hi - lo) * d)
      t.clamp (if (u : Int) < tt then k + 1 else k)

/-- What one value came to (R91, R93). -/
inductive Mark
  | none | zero | flushed | saturated
  deriving DecidableEq, Repr

/-- A binary32 value written in a narrow element format (R88 to R91): the bit pattern and its count. A value that rounds to zero by
nearest gives the zero of its sign with a draw too: R91 has its row apply in both modes, where R90 lets the draw select the level
(DEDUCED, log entry 58). -/
def narrow (f : Fmt) (x : Nat) (draw : Option Nat) : Nat × Mark :=
  let pattern := fun (g : FFmt) (neg : Bool) (k : Nat) => (if neg then 2 ^ g.signBit else 0) + k
  match fB32.decode x with
  | .nan => (match f with
      | .e4m3 => 0x7F | .e5m2 => 0x7E | .bf16 => 0x7FC0 | .fp16 => 0x7E00 | _ => 0, .saturated)
  | .inf neg => (match f with
      | .e4m3 => pattern fE4M3 neg 0x7E | .e5m2 => pattern fE5M2 neg 0x7B | .bf16 => pattern fBF16 neg 0x7F80
      | .fp16 => pattern fFP16 neg 0x7C00 | _ => if neg then 0x80 else 0x7F, .saturated)
  | .fin neg m e =>
    let n := signed neg (if 0 ≤ e then m * 2 ^ e.toNat else m)
    let d := if 0 ≤ e then 1 else 2 ^ (-e).toNat
    let t : Target := match f with
      | .e4m3 => .fp fE4M3 | .e5m2 => .fp fE5M2 | .bf16 => .fp fBF16 | .fp16 => .fp fFP16 | _ => .int8
    let clip := t.clipped n d
    let mark := if m = 0 then Mark.zero else if clip then .saturated else if t.underflowed n d then .flushed else .none
    let k := if mark = .flushed then 0 else t.pick n d draw
    (match t with
     | .fp g => if clip ∧ (f = .bf16 ∨ f = .fp16) then pattern g neg g.infCode else pattern g neg k.natAbs
     | _ => (k % 256).toNat, mark)

/-! ### Weight and wire folios (R74 to R92) -/

/-- The grid and the factor of y = x·factor/σ of a folio code (R88): wire folios by their encoding. -/
def folioTarget (code : Nat) (e5m2 : Bool) : Target :=
  if code = 0x5 then .tz else if code = 0x6 then .x1 else if code = 0x8 then .l4
  else if code = 0x7 then .fp (if e5m2 then fE5M2 else fE4M3) else .odd code

/-- Field width and weights of a folio code (R76). -/
def folioWidth (code : Nat) : Nat :=
  if code = 0x5 then 2 else if code = 0x6 then 1 else if code = 0x8 then 4 else if code = 0x7 then 8 else code
def folioCount (code : Nat) : Nat := 480 / folioWidth code

/-- A scale read as R30 and R77 define: M·2^s of a BF16 pattern of positive sign. -/
def scaleMant (sc : Nat) : Nat := fBF16.mant (sc % 2 ^ 15)
def scaleExp (sc : Nat) : Int := fBF16.expo (sc % 2 ^ 15)

/-- y of R88 for a finite value ±m·2^e against σ (σ not zero): numerator and denominator. -/
def ratioOf (t : Target) (neg : Bool) (m : Nat) (e : Int) (sc : Nat) : Int × Nat :=
  let g := e - scaleExp sc
  let k := if t = .tz then 2 else 1
  (signed neg (if 0 ≤ g then k * m * 2 ^ g.toNat else k * m), scaleMant sc * if 0 ≤ g then 1 else 2 ^ (-g).toNat)

/-- The field of a level (R24, R25, R35, R41, R83): the inverse of its decoding. -/
def fieldOf (t : Target) (k : Int) (neg : Bool) : Nat :=
  match t with
  | .odd n => (k + 2 ^ (n - 1)).toNat
  | .tz => if k < 0 then 0b00 else if k = 0 then 0b01 else 0b11
  | .x1 => if 0 ≤ k then 1 else 0
  | .l4 => if 0 ≤ k then k.toNat else 8 + (-k - 1).toNat
  | .fp f => (if neg then 2 ^ f.signBit else 0) + k.natAbs
  | .int8 => (k % 256).toNat

/-- The largest magnitude among finite non-zero values, as a binary32 pattern; +0 if none (R196, R199). -/
def amaxOf : List Nat → Nat
  | [] => 0
  | x :: r =>
    let a := x % 2 ^ 31
    let b := amaxOf r
    if a < 0x7F80_0000 ∧ b < a then a else b

/-- The smallest BF16 code not below num/den·2^e; a power of two not below 2^−126 for a wire folio (R199). -/
def scaleFor (wire : Bool) (num den : Nat) (e : Int) : Nat :=
  let n := if 0 ≤ e then num * 2 ^ e.toNat else num
  let d := if 0 ≤ e then den else den * 2 ^ (-e).toNat
  let k := fBF16.floorCode n d
  let c := if fBF16.units k * d = n * 2 ^ 133 then k else k + 1
  if wire then (if c ≤ 0x80 then 0x80 else if c % 128 = 0 then c else (c / 128 + 1) * 128) else c

/-- G of R199. -/
def gridG (code : Nat) (e5m2 : Bool) : Nat :=
  if code = 0x1 ∨ code = 0x6 ∨ code = 0x5 then 1 else if code = 0x2 then 3 else if code = 0x3 then 7
  else if code = 0x4 then 15 else if code = 0x8 then 128 else if e5m2 then 57344 else 448

/-- What the writer of a folio is given: an explicit scale, or an amax with its margin (R199). -/
inductive ScaleSource
  | explicit (sc : Nat)
  | amax (a margin : Nat)
  deriving DecidableEq, Repr

/-- A folio written: its header bits [23:0], its payload as a number, and the counts of R93. -/
structure FolioOut where
  header : Nat
  payload : Nat
  zero : Nat
  flush : Nat
  sat : Nat
  deriving DecidableEq, Repr

/-- Whether the grid has a zero level, to which an underflowed value goes in both rounding modes (R89, R91). -/
def Target.hasZero : Target → Bool
  | .tz => true | .fp _ => true | .int8 => true | _ => false

/-- One value of a block against a scale: field, clipped, underflowed (R89 to R91). -/
def foldValue (t : Target) (sc x : Nat) (draw : Option Nat) : Nat × Bool × Bool :=
  match fB32.decode x with
  | .nan => (fieldOf t t.top false, true, false)
  | .inf neg => (fieldOf t (if neg then t.bottom else t.top) neg, true, false)
  | .fin neg m e =>
    let y := ratioOf t neg m e sc
    let under := decide (m ≠ 0) && t.underflowed y.1 y.2
    (fieldOf t (if under && t.hasZero then 0 else t.pick y.1 y.2 draw) neg, decide (m ≠ 0) && t.clipped y.1 y.2, under)

def packFields (w : Nat) : List Nat → Nat
  | [] => 0
  | v :: r => v + 2 ^ w * packFields w r

/-- The block of a folio rounded and its header completed (R88 to R93): `xs` are the VALID values, `draws` one draw for each or
none. The remaining fields are zero, in a TZ block of cases 1 to 3 too, whose written fields are 0b01 (R92 against R78 and R200); a
block whose only values beside zeros are not finite has amax +0 and is taken in case 2, its values counted as flushed (R92 and R199
against R91): DESIGN CHOICE, log entry 58. -/
def writeFolio (code : Nat) (e5m2 : Bool) (src : ScaleSource) (xs : List Nat) (draws : List (Option Nat)) : FolioOut :=
  let t := folioTarget code e5m2
  let w := folioWidth code
  let nonzero := (xs.filter fun x => x % 2 ^ 31 ≠ 0).length
  let zeros := xs.length - nonzero
  let zeroField := if code = 0x5 then 0b01 else 0
  let zeroPay := packFields w (xs.map fun _ => zeroField)
  let req := match src with
    | .explicit sc => sc
    | .amax a margin =>
      if a = 0 then 0 else scaleFor (code = 0x7) (fB32.mant a) (gridG code e5m2) (fB32.expo a + margin)
  if nonzero = 0 then { header := code * 2 ^ 16, payload := zeroPay, zero := zeros, flush := 0, sat := 0 }
  else if req = 0 then
    { header := code * 2 ^ 16 + 2 ^ 21, payload := zeroPay, zero := zeros, flush := nonzero, sat := 0 }
  else
    let sc := min req 0x7F7F
    let vs := (xs.zip draws).map fun p => foldValue t sc p.1 p.2
    let clips := (vs.filter (·.2.1)).length
    let unders := (vs.filter (·.2.2)).length
    if unders = nonzero then
      { header := code * 2 ^ 16 + 2 ^ 21, payload := zeroPay, zero := zeros, flush := nonzero, sat := 0 }
    else
      { header := sc + code * 2 ^ 16 + (if clips ≠ 0 then 2 ^ 20 else 0) + (if clips = nonzero then 2 ^ 22 else 0),
        payload := packFields w (vs.map (·.1)), zero := zeros, flush := unders, sat := clips }

/-! ### Checks (R80, R81, R101) -/

def crc8Bits : Nat → Nat → Nat
  | 0, c => c
  | n + 1, c => crc8Bits n (if c / 128 % 2 = 1 then Nat.xor (c * 2 % 256) 0x2F else c * 2 % 256)

def crc8Bytes : List Nat → Nat → Nat
  | [], c => c
  | x :: r, c => crc8Bytes r (crc8Bits 8 (Nat.xor c x))

/-- CRC-8 of a folio (R80), given as its 512 bits. -/
def crc8 (folio : Nat) : Nat :=
  crc8Bytes ((List.range 60).map (fun i => fld folio (32 + 8 * i) 8) ++ [fld folio 0 8, fld folio 8 8, fld folio 16 8]) 0

/-- The 64 bytes of a folio with its CRC. -/
def folioBytes (o : FolioOut) : List Byte :=
  let x := o.header + 2 ^ 32 * o.payload
  leBytes 64 (x + 2 ^ 24 * crc8 x)

/-- The first check of R81 that a folio fails, as REASON of R186: 1 CRC, 2 format, 3 scale, 4 reserved. `okFormat` says which
format codes pass here. -/
def folioCheck (folio : Nat) (okFormat : Nat → Bool) : Option Nat :=
  if fld folio 24 8 ≠ crc8 folio then some 1
  else if !okFormat (fld folio 16 4) then some 2
  else if bitOf folio 15 ∨ fld folio 7 8 = 255 then some 3
  else if bitOf folio 23 then some 4
  else none

/-- Weight codes (R76). -/
def isWeightCode (c : Nat) : Bool := (1 ≤ c && c ≤ 6) || c == 8

def crc32Bits : Nat → Nat → Nat
  | 0, c => c
  | n + 1, c => crc32Bits n (if c % 2 = 1 then Nat.xor (c / 2) 0xEDB8_8320 else c / 2)

def crc32Bytes : List Byte → Nat → Nat
  | [], c => c
  | x :: r, c => crc32Bytes r (crc32Bits 8 (Nat.xor c x.toNat))

/-- CRC-32 of IEEE 802.3 (R101). -/
def crc32 (bytes : List Byte) : Nat := Nat.xor (crc32Bytes bytes 0xFFFF_FFFF) 0xFFFF_FFFF

/-- Value `i` of a wire folio unpacked to binary32, exactly (R83, R84). -/
def unpackWire (folio : Nat) (e5m2 : Bool) (i : Nat) : Nat :=
  let x := (if e5m2 then fE5M2 else fE4M3).decode (fld folio (32 + 8 * i) 8)
  let sc := fld folio 0 16
  fB32.ofNum (x.mul (.fin false (scaleMant sc) (scaleExp sc)))

end Sys2Proof.Machine
end

