-- ==== Sys2Proof/Machine/Mull.lean ====
section
/-!
DEFINITION. Mull blocks (R95 to R107): checking, expansion and re-encoding. A block is the number its bytes spell (R5).
-/

namespace Sys2Proof.Machine

/-- Mull-B compresses BF16, Mull-H compresses FP16 (R95). -/
inductive MullKind
  | b | h
  deriving DecidableEq, Repr

def MullKind.size : MullKind → Nat
  | .b => 5760
  | .h => 7168
def MullKind.format : MullKind → Nat
  | .b => 1
  | .h => 2
/-- Entries of the exponent table; the next index means escape (R96, R98, R99). -/
def MullKind.entries : MullKind → Nat
  | .b => 7
  | .h => 5
/-- The canonical NaN that a poisoned block is filled with (R104). -/
def MullKind.nan : MullKind → Nat
  | .b => 0x7FC0
  | .h => 0x7E00

def mullTable (k : MullKind) (x : Nat) : List Nat := (List.range k.entries).map fun t => fld x (32 + 8 * t) 8

/-- Escape entry e: position and exponent (R97). -/
def mullEscape (x e : Nat) : Nat × Nat := (fld x (96 + 20 * e) 12, fld x (108 + 20 * e) 8)

/-- Exponent index of value i (R98, R99). -/
def mullIndex (k : MullKind) (x i : Nat) : Nat :=
  match k with
  | .b => fld x (1024 + 11 * i + 7) 3
  | .h => fld x (1024 + 11 * (i / 4)) 11 / 6 ^ (i % 4) % 6

/-- Sign and mantissa of value i (R98, R99). -/
def mullSign (k : MullKind) (x i : Nat) : Nat :=
  match k with
  | .b => fld x (1024 + 11 * i + 10) 1
  | .h => fld x (1024 + 11264 + 11 * i + 10) 1
def mullMant (k : MullKind) (x i : Nat) : Nat :=
  match k with
  | .b => fld x (1024 + 11 * i) 7
  | .h => fld x (1024 + 11264 + 11 * i) 10

/-- Value i expanded (R102). -/
def mullValue (k : MullKind) (x i : Nat) : Nat :=
  let n := mullIndex k x i
  let e := if n < k.entries then (mullTable k x).getD n 0
    else (((List.range (fld x 8 8)).map (mullEscape x)).find? (fun p => p.1 == i)).elim 0 (·.2)
  match k with
  | .b => mullSign k x i * 2 ^ 15 + e * 2 ^ 7 + mullMant k x i
  | .h => mullSign k x i * 2 ^ 15 + e * 2 ^ 10 + mullMant k x i

/-- The reserved bits of the header (R96) and the unused escape entries (R97) are zero. Bits [19:17] of an entry in use count to its
exponent, which MULL_RANGE bounds (R103). -/
def mullReservedOk (k : MullKind) (x : Nat) : Bool :=
  let n := fld x 8 8
  fld x 88 8 == 0 && fld x 736 256 == 0
    && (match k with
        | .b => true
        | .h => fld x 72 16 == 0)
    && (List.range 32).all fun e => decide (e < n) || fld x (96 + 20 * e) 20 == 0

/-- MULL_RANGE of the header (R103). -/
def mullHeaderRangeOk (k : MullKind) (x : Nat) : Bool :=
  decide (fld x 16 16 ≤ 4096)
    && (match k with
        | .b => true
        | .h => (mullTable k x).all (fun t => decide (t ≤ 31))
            && (List.range 32).all fun e => decide ((mullEscape x e).2 ≤ 31))

def strictlyAscending : List Nat → Bool
  | a :: b :: r => decide (a < b) && strictlyAscending (b :: r)
  | _ => true

/-- The first condition of R103 that a block fails, as REASON of R186: 0x11 CRC, 0x12 format, 0x13 reserved, 0x14 range,
0x15 escapes. -/
def mullCheck (k : MullKind) (x : Nat) : Option Nat :=
  let escPos := (List.range (fld x 8 8)).map fun e => (mullEscape x e).1
  let pay := leBytes (k.size - 128) (x / 2 ^ 1024)
  if fld x 992 32 ≠ crc32 (pay ++ leBytes 124 x) then some 0x11
  else if fld x 0 8 ≠ k.format then some 0x12
  else if !mullReservedOk k x then some 0x13
  else if !mullHeaderRangeOk k x ∨ (k = .h ∧ (List.range 1024).any fun q => decide (1295 < fld x (1024 + 11 * q) 11)) then
    some 0x14
  else if 32 < fld x 8 8 ∨ !strictlyAscending escPos
      ∨ (List.range 4096).any (fun i => (mullIndex k x i == k.entries) != escPos.contains i) then some 0x15
  else none

/-- The header checks of MREENC (R203), in the order of R103: format, reserved, range. -/
def mullHeaderCheck (k : MullKind) (x : Nat) : Option Nat :=
  if fld x 0 8 ≠ k.format then some 0x12
  else if !mullReservedOk k x then some 0x13
  else if !mullHeaderRangeOk k x then some 0x14
  else none

/-! ### Encoding (R106) -/

def absDiff (a b : Nat) : Nat := if a ≤ b then b - a else a - b

/-- Least distance of an exponent to the table. -/
def tableDist (table : List Nat) (e : Nat) : Nat := table.foldl (fun d t => min d (absDiff e t)) 256

/-- The nearest entry, the lower on a tie, and its lowest index. -/
def nearestEntry (table : List Nat) (e : Nat) : Nat × Nat :=
  let d := tableDist table e
  let near := table.filter fun t => absDiff e t == d
  let v := near.foldl min 256
  (v, table.idxOf v)

/-- The exponent field of an element. -/
def mullExp (k : MullKind) (v : Nat) : Nat :=
  match k with
  | .b => fld v 7 8
  | .h => fld v 10 5

/-- Out-of-table positions ranked: by distance descending, ties by ascending position (insertion keeps equal ones in order). -/
def rankInsert (p : Nat × Nat) : List (Nat × Nat) → List (Nat × Nat)
  | [] => [p]
  | q :: r => if q.2 < p.2 then p :: q :: r else q :: rankInsert p r

/-- The positions that become escapes, in ascending order (R106). -/
def mullEscapes (k : MullKind) (table : List Nat) (vs : List Nat) : List Nat × Nat :=
  let out := ((vs.map (mullExp k)).zipIdx.filter fun p => !table.contains p.1).map fun p => (p.2, tableDist table p.1)
  let ranked := out.foldl (fun r p => rankInsert p r) []
  let esc := (ranked.take 32).map (·.1)
  ((List.range vs.length).filter fun i => esc.contains i, ranked.length - min 32 ranked.length)

/-- Index of a value of the block. -/
def mullSymbol (k : MullKind) (table escs : List Nat) (i v : Nat) : Nat :=
  let e := mullExp k v
  if table.contains e then table.idxOf e else if escs.contains i then k.entries else (nearestEntry table e).2

def packStride (w : Nat) : List Nat → Nat
  | [] => 0
  | x :: r => x + 2 ^ w * packStride w r

/-- The quad codes of a list of indices (R99). -/
def quads : List Nat → List Nat
  | a :: b :: c :: d :: r => (a + 6 * b + 36 * c + 216 * d) :: quads r
  | _ => []

/-- The block encoded against the table of the old header (R106): `vs` are the real values; positions beyond take code 0.
Returns the block with its CRC, and CLAMP_COUNT. -/
def mullEncode (k : MullKind) (old : Nat) (vs : List Nat) : Nat × Nat :=
  let table := mullTable k old
  let (escs, clamps) := mullEscapes k table vs
  let syms := (vs.zipIdx.map fun p => mullSymbol k table escs p.2 p.1) ++ List.replicate (4096 - vs.length) 0
  let sm := match k with
    | .b => vs.map fun v => (fld v 0 7, fld v 15 1)
    | .h => vs.map fun v => (fld v 0 10, fld v 15 1)
  let sm := sm ++ List.replicate (4096 - vs.length) (0, 0)
  let payload := match k with
    | .b => packStride 11 ((syms.zip sm).map fun p => p.2.1 + 2 ^ 7 * p.1 + 2 ^ 10 * p.2.2)
    | .h => packStride 11 (quads syms) + 2 ^ 11264 * packStride 11 (sm.map fun p => p.1 + 2 ^ 10 * p.2)
  let list := packStride 20 (escs.map fun i => i + 2 ^ 12 * mullExp k (vs.getD i 0))
  let head := k.format + 2 ^ 8 * escs.length + 2 ^ 16 * clamps + 2 ^ 32 * fld old 32 (8 * k.entries) + 2 ^ 96 * list
  let crc := crc32 (leBytes (k.size - 128) payload ++ leBytes 124 head)
  (head + 2 ^ 992 * crc + 2 ^ 1024 * payload, clamps)

end Sys2Proof.Machine
end

