-- ==== Sys2Proof/Machine/Image.lean ====
section
/-!
DEFINITION. How a program image is read: core table, command words, loop descriptors, templates, stream table, recipe entries
(R120, R139 to R150, R167, R168, R218).
-/

namespace Sys2Proof.Machine

/-- The part descriptor i of core c (R139): offset and count. -/
def State.part (s : State) (img : Image) (c i : Nat) : Nat × Nat :=
  let x := s.dramNat (img.addr + img.coreTable + 128 * c + 8 * i) 8
  (fld x 0 40, fld x 40 24)

/-- Command word n of part i of core c (R142). -/
def State.word (s : State) (img : Image) (c i n : Nat) : Nat := s.dramNat (img.addr + (s.part img c i).1 + 16 * n) 16

/-! ### Needle tables in endpaper memory (R218) -/

/-- Bytes of the Needle tables: 64-byte templates, 128-byte descriptors, 64-byte stream entries, 8-byte regions, 4-byte random
streams. -/
def tableSizes (s : State) (img : Image) (c : Nat) : List Nat :=
  [64 * (s.part img c 5).2, 128 * (s.part img c 4).2, 64 * (s.part img c 6).2, 8 * (s.part img c 8).2, 4 * (s.part img c 9).2]

/-- Table base: 262,144 minus the total size rounded up to a multiple of 256 (R218). -/
def tableBase (s : State) (img : Image) (c : Nat) : Nat := 2 ^ 18 - divCeil (tableSizes s img c).sum 256 * 256

/-- Where table k begins, packed downward from 0x4_0000 in the order templates, descriptors, streams, regions, random streams. -/
def tableStart (s : State) (img : Image) (c k : Nat) : Nat := 2 ^ 18 - ((tableSizes s img c).take (k + 1)).sum

def State.tableEntry (s : State) (img : Image) (c : CoreId) (k size i : Nat) : Nat :=
  (s.core c).readNat .endpaper (tableStart s img c.val k + size * i) size

def State.template (s : State) (img : Image) (c : CoreId) (t : Nat) : Nat := s.tableEntry img c 0 64 t
def State.descriptor (s : State) (img : Image) (c : CoreId) (d : Nat) : Nat := s.tableEntry img c 1 128 d
def State.streamEntry (s : State) (img : Image) (c : CoreId) (i : Nat) : Nat := s.tableEntry img c 2 64 i

/-! ### Template fields (R147) -/

def tKind (t : Nat) : Nat := fld t 0 2
def tDesc (t : Nat) : Nat := fld t 2 6
def tMode (t : Nat) : Nat := fld t 8 4
def tSfmt (t : Nat) : Nat := fld t 12 3
def tTransposed (t : Nat) : Bool := bitOf t 15
def tResAct (t : Nat) : Bool := bitOf t 16
def tWrite (t : Nat) : Nat := fld t 17 2
def tRfmt (t : Nat) : Nat := fld t 19 3
def tLayer (t : Nat) : Nat := fld t 24 16
def tRoleS (t : Nat) : Nat := fld t 40 2
def tRoleR (t : Nat) : Nat := fld t 42 2
def tVar1 (t : Nat) : Nat := fld t 48 8
def tVar2 (t : Nat) : Nat := fld t 56 8
def tKExt (t : Nat) : Nat := fld t 64 24
def tNExt (t : Nat) : Nat := fld t 88 24
def tMExt (t : Nat) : Nat := fld t 112 24
def tMBlock (t : Nat) : Nat := fld t 136 8
def tResStream (t : Nat) : Nat := fld t 144 6
def tActAddr (t : Nat) : Nat := fld t 152 23
def tActRow (t : Nat) : Nat := fld t 176 16
def tAccRow (t : Nat) : Nat := fld t 192 12
def tKernel (t : Nat) : Nat := fld t 204 12
def tPeel (t : Nat) : Nat := fld t 216 8
def tDoneId (t : Nat) : Nat := fld t 224 8
def tDoneEn (t : Nat) : Bool := bitOf t 232
def tColStride (t : Nat) : Nat := fld t 256 32
def tAux (t : Nat) : Nat := fld t 288 64

/-- Mode codes (R121). -/
def modeOf : Nat → Option Mode
  | 1 => some .t1 | 2 => some .t2 | 3 => some .t3 | 4 => some .t4 | 5 => some .tz | 6 => some .x1 | 8 => some .l4
  | 9 => some .f8 | 10 => some .fb | 11 => some .fh | _ => none

/-- Streamed formats (R147): 5 is packed bits. -/
def sfmtOf (x : Nat) : Option Fmt := if x = 5 then some .bits else if x = 6 then none else fmtOf x

/-- K positions of a pass (R46). -/
def Mode.kPerPass : Mode → Nat
  | .t1 => 480 | .t2 => 480 | .t3 => 480 | .t4 => 480 | .tz => 480 | .x1 => 1920 | .l4 => 120 | .f8 => 120 | .fb => 60
  | .fh => 40

/-! ### Loop nests (R144 to R146) -/

def dLevels (d : Nat) : Nat := fld d 0 3
def dUnit (d x : Nat) : Nat := fld d (8 + 2 * x) 2
def unitBytesOf (u : Nat) : Nat := if u = 0 then 1 else if u = 1 then 64 else 512
def dLevel (d l : Nat) : Nat := fld d (256 + 128 * l) 128
def lBound (v : Nat) : Nat := fld v 0 24
def lOrder (v : Nat) : Nat := fld v 24 3
def lTail (v : Nat) : Nat := fld v 27 2
def lDim (v : Nat) : Nat := fld v 29 3
/-- Stride of operand x (0 act, 1 w, 2 out, 3 aux), signed. -/
def lStride (v x : Nat) : Int := sext (fld v (32 + 24 * x) 24) 24

/-- Iterations of the whole nest. -/
def nestSize (d : Nat) : Nat := ((List.range (dLevels d)).map fun l => lBound (dLevel d l)).foldl (· * ·) 1

/-- The level with nesting position o. -/
def levelAt (d o : Nat) : Nat := ((List.range (dLevels d)).find? fun l => lOrder (dLevel d l) == o).getD 0

/-- Indices of the nest at its n-th iteration, innermost first: pairs (level, index) (R145). -/
def nestIndex (d : Nat) : Nat → Nat → List (Nat × Nat)
  | 0, _ => []
  | o + 1, n =>
    let l := levelAt d o
    let b := max 1 (lBound (dLevel d l))
    (l, n % b) :: nestIndex d o (n / b)

/-- Offset in bytes of operand x at iteration n: sum over levels of i·STRIDE·unit (R145). -/
def nestOffset (d x n : Nat) : Int :=
  ((nestIndex d (dLevels d) n).map fun p =>
    (p.2 : Int) * lStride (dLevel d p.1) x * unitBytesOf (dUnit d x)).sum

/-- Index and bound of the level that walks dimension `dim` (1 K, 2 N, 3 M), and its tail policy; none walks it: 0, 1, FULL. -/
def dimIndex (d dim n : Nat) : Nat × Nat × Nat :=
  match (nestIndex d (dLevels d) n).find? fun p => lDim (dLevel d p.1) == dim with
  | some p => (p.2, lBound (dLevel d p.1), lTail (dLevel d p.1))
  | none => (0, 1, 0)

/-- What is left of an extent at index i of steps of `step`. -/
def remaining (extent step i : Nat) : Nat := min step (extent - i * step)

/-! ### Recipe entries (R119, R120) -/

def rNvar (e : Nat) : Nat := fld e 12 2
def rMode (e level : Nat) : Nat := fld e (4 * level) 4
def rRoleMask (e : Nat) : Nat := fld e 16 4
def rPolicyJit (e : Nat) : Bool := bitOf e 20
def rSr (e : Nat) : Bool := bitOf e 21
def rDepth (e : Nat) : Nat := fld e 22 4 + 1
def rWiden (e : Nat) : Nat := fld e 32 16
def rNarrow (e : Nat) : Nat := fld e 48 16
def rRange (e : Nat) : Nat := fld e 64 8
def rW (e : Nat) : Nat := fld e 72 8
def rH (e : Nat) : Nat := fld e 80 16
def rExtra (e level : Nat) : Nat := if level = 0 then 0 else if level = 1 then fld e 96 24 else fld e 120 24

def Program.entry (p : Program) (layer : Nat) : Nat := (p.recipe[layer]?).elim 0 (·.toNat)

/-- The committed level of a layer (R123, R148). -/
def Program.levelOf (p : Program) (layer : Nat) : Nat := (p.steer[layer]?).elim 0 (·.level)

/-- The largest of the last `n` entries of the amax ring of a role (R135). -/
def Steer.amaxOf (e : Steer) (role n : Nat) : Nat :=
  ((List.range n).map fun i =>
    ((e.ring[16 * role + (e.ringNext.toNat + 16 - 1 - i) % 16]?).elim 0 (fun x : W32 => x.toNat))).foldl max 0

/-- The schedule of the step in progress, or to come, is the warm one (R131, R140): as many steps as the largest W have committed, and
every core of the program has a warm schedule; a program without one stays in its cold schedule (DEDUCED, log entry 61). -/
def Program.warm (p : Program) : Bool := p.phase == .steps && p.coldLeft == 0 && p.hasWarm

/-- The section of that schedule. -/
def Program.schedule (p : Program) : Sect := if p.warm then .warm else .cold

end Sys2Proof.Machine
end

