-- ==== Sys2Proof/Machine/Slots.lean ====
section
/-!
DEFINITION. The link-slot table of an image (R291 to R295): its fields, paths, and the slot that a transfer uses.
-/

namespace Sys2Proof.Machine

/-! ### The link-slot table (R291) -/

def State.slotHeader (s : State) (img : Image) : Nat := s.dramNat (img.addr + img.slotOff) 64
def slotLinks (h : Nat) : Nat := fld h 0 12
def slotPaths (h : Nat) : Nat := fld h 16 12
def slotForwards (h : Nat) : Nat := fld h 32 16

def State.linkEntry (s : State) (img : Image) (i : Nat) : Nat := s.dramNat (img.addr + img.slotOff + 64 + 8 * i) 8
def State.pathEntry (s : State) (img : Image) (i : Nat) : Nat :=
  s.dramNat (img.addr + img.slotOff + 64 + 8 * slotLinks (s.slotHeader img) + 16 * i) 16
def State.slotEntry (s : State) (img : Image) (i : Nat) : Nat :=
  let h := s.slotHeader img
  s.dramNat (img.addr + img.slotOff + 64 + 8 * slotLinks h + 16 * slotPaths h + 32 * i) 32
def State.forwardEntry (s : State) (img : Image) (i : Nat) : Nat :=
  let h := s.slotHeader img
  s.dramNat (img.addr + img.slotOff + 64 + 8 * slotLinks h + 16 * slotPaths h + 32 * 256 + 32 * i) 32

def lLink (x : Nat) : Nat := fld x 0 12
def lLane (x : Nat) : Nat := fld x 12 6
def lPeer (x : Nat) : Nat := fld x 18 10
def lPeerLane (x : Nat) : Nat := fld x 28 6

/-- The program links of a path, in order. -/
def pathLinks (p : Nat) : List Nat := (List.range (min 8 (fld p 0 4))).map fun j => fld p (8 + 12 * j) 12

def xKind (e : Nat) : Nat := fld e 0 2
def xOp (e : Nat) : Nat := fld e 2 2
def xCore (e : Nat) : Nat := fld e 8 8
def xTransfer (e : Nat) : Nat := fld e 16 16
def xOffset (e : Nat) : Nat := fld e 32 24
def xAltOffset (e : Nat) : Nat := fld e 56 24
def xFlits (e : Nat) : Nat := fld e 80 24
def xLane (e : Nat) : Nat := fld e 104 6
def xAltLane (e : Nat) : Nat := fld e 110 6
def xPath (e : Nat) : Nat := fld e 116 12
def xAltPath (e : Nat) : Nat := fld e 128 12
def xPeer (e : Nat) : Nat := fld e 144 10

def fAlt (f : Nat) : Bool := bitOf f 0
def fTransfer (f : Nat) : Nat := fld f 16 16
def fOffset (f : Nat) : Nat := fld f 32 24
def fFlits (f : Nat) : Nat := fld f 56 24
def fIn (f : Nat) : Nat := fld f 80 6
def fOut (f : Nat) : Nat := fld f 86 6
def fPath (f : Nat) : Nat := fld f 92 12

/-- The forward entries of an image. -/
def State.forwardEntries (s : State) (img : Image) : List Nat :=
  if img.slotOff = 0 then [] else (List.range (slotForwards (s.slotHeader img))).map (s.forwardEntry img)

/-- Link entries of an image. -/
def State.linkEntries (s : State) (img : Image) : List Nat :=
  if img.slotOff = 0 then [] else (List.range (slotLinks (s.slotHeader img))).map (s.linkEntry img)

/-- A path that holds a failed program link. -/
def State.pathFailed (s : State) (img : Image) (p : Nat) : Bool :=
  (pathLinks (s.pathEntry img p)).any fun l => s.fab.failedEver.contains l

/-- A transfer runs on its alternate path once its primary path holds a failed link (R295). -/
def State.onAlternate (s : State) (img : Image) (e : Nat) : Bool := s.pathFailed img (xPath e)
def State.openOffset (s : State) (img : Image) (e : Nat) : Nat := if s.onAlternate img e then xAltOffset e else xOffset e
def State.slotLane (s : State) (img : Image) (e : Nat) : LaneId :=
  ⟨(if s.onAlternate img e then xAltLane e else xLane e) % 64, Nat.mod_lt _ (by decide)⟩

/-- Slot entries in use, with their indices. -/
def State.slotsUsed (s : State) (img : Image) : List (Nat × Nat) :=
  if img.slotOff = 0 then []
  else ((List.range 256).map fun i => (i, s.slotEntry img i)).filter fun p => xKind p.2 == 1 || xKind p.2 == 2

/-- Ticks that a slot of F data flits occupies (R292). -/
def slotTicks (f : Nat) : Nat := divCeil (1024 * divCeil (16 * (f + 1)) 15) 1000

end Sys2Proof.Machine
end

