-- ==== Sys2Proof/Machine/Placement.lean ====
section
/-!
DEFINITION. The placement of device memory (R235) and the figures of placement that other chapters use.
-/

namespace Sys2Proof.Machine

/-- Usable frames of a stack: 32,768 minus BAD_FRAMES (R235). -/
def Stack.usable (k : Stack) : Nat := 32768 - k.badFrames.toNat

/-- U of R235 now: the least usable count over the stacks in service. -/
def State.usableNow (s : State) : Nat :=
  allStacks.foldl (fun u i => if (s.stack i).state = .service then min u (s.stack i).usable else u) 32768

/-- U of the layout in force: that of the last placement, since a running program keeps the units in frames withdrawn later (R235,
R246). -/
def State.leastUsable (s : State) : Nat :=
  match s.prog.active, s.prog.staged with
  | some img, _ => img.usable
  | none, some img => img.usable
  | none, none => s.usableNow

/-- Stacks lost or absent. -/
def State.stacksOut (s : State) : Nat := (allStacks.filter fun i => (s.stack i).state ≠ .service).length

/-- F of R235: ⌊19·U / 20⌋. -/
def State.reserveFrames (s : State) : Nat := 19 * s.leastUsable / 20

/-- Units a layout holds of U usable frames: 20·U without the reserve, 20·F with it (R235). -/
def layoutUnits (u : Nat) (reserve : Bool) : Nat := if reserve then 20 * (19 * u / 20) else 20 * u

/-- Units of the layout in force. -/
def State.unitsOf (s : State) (reserve : Bool) : Nat := layoutUnits s.leastUsable reserve

/-- The first device virtual address beyond the placement layout in force (R235, R325). -/
def State.layoutEnd (s : State) : Nat := s.unitsOf s.prog.reserveLayout * unitBytes

/-- Stack and frame of a unit: striped over twenty stacks, or moved to the reserve of the surviving stacks after a loss (R235,
R242). -/
def State.placeOf (s : State) (u : Nat) : Nat × Nat :=
  match s.prog.relocated with
  | some x =>
    if u % 20 = x.val then
      let i := u / 20
      let j := i % 19
      (if j < x.val then j else j + 1, s.reserveFrames + i / 19)
    else (u % 20, u / 20)
  | none => (u % 20, u / 20)

end Sys2Proof.Machine
end

