-- ==== Sys2Proof/Machine/HostIf.lean ====
section
/-!
DEFINITION. The host interface: mailboxes and the take of a command, rings and completions, events, interrupts, the registers
of BAR0, BAR2, the two ports and their resets (R178, R251, R307 to R330, R370).
-/

namespace Sys2Proof.Machine

/-! ### Ports (R307 to R309) -/

def HostIf.port (h : HostIf) : PciePort → PortState
  | .a => h.portA
  | .b => h.portB

def HostIf.setPort (h : HostIf) (p : PciePort) (x : PortState) : HostIf :=
  match p with
  | .a => { h with portA := x }
  | .b => { h with portB := x }

/-- The active port: A unless PORT_B_ACTIVE (R308, R311). -/
def HostIf.activePort (h : HostIf) : PciePort := if h.portBActive then .b else .a

/-- Whether requests to BAR0 and BAR2 reach the device: the main domain is on, the active port's link is up and the interface is
usable (R16, R308, R309). -/
def State.served (s : State) : Bool := s.pwr.main && s.host.usable && (s.host.port s.host.activePort).up

/-- PCIE_LINK_DOWN (R308): the Data Link Layer of a port goes down. -/
def execPcieLinkDown (port : PciePort) (s : State) : Host.Outcome State Fault Refusal :=
  act (s.host.port port).up s
    (s.modHost fun h => h.setPort port { h.port port with up := false, downAt := s.now, width := 0, generation := 0 })

/-- PCIE_LINK_UP (R16, R307, R308, R371, R372, R382): a port trains its link while the main domain is on, from start-up step 5 on, and on a
return of the reference from the lock of its PLL on. -/
def execPcieLinkUp (port : PciePort) (width : BitVec 5) (generation : BitVec 3) (s : State) :
    Host.Outcome State Fault Refusal :=
  act (s.pwr.main && decide (5 ≤ s.pwr.step) && s.mainClocks && !(s.host.port port).up) s
    ((s.modHost fun h => h.setPort port { h.port port with up := true, width := width, generation := generation }).modClk fun c =>
      { c with portsBack := c.portsBack.erase port })

/-- Entry count `t` of a ring: where it lies (R318). -/
def RingRegs.size (r : RingRegs) : Nat := 2 ^ (r.log2Size.toNat + 6)
def RingRegs.slotAddr (r : RingRegs) (t : W32) : Nat := r.base.toNat + 32 * (t.toNat % r.size)
def RingRegs.phase (r : RingRegs) (t : W32) : Nat := 1 - t.toNat / r.size % 2
def RingRegs.room (r : RingRegs) : Bool := r.enable && decide ((r.tail - r.head).toNat < r.size)

/-- The counts from `head` up to `tail` (R318). -/
def RingRegs.unconsumed (r : RingRegs) : List W32 :=
  (List.range (r.tail - r.head).toNat).map fun i => r.head + BitVec.ofNat 32 i

/-- At a takeover each ring's posting position goes back to RING_HEAD, and every entry after it is written again with its
original content and phase (R308): the same 32 bytes at the same place, through the new port. -/
def repost (m : Memory) (r : RingRegs) : Memory :=
  r.unconsumed.foldl (fun m t => Mem.put m (r.slotAddr t) (Mem.read zeroByte m (r.slotAddr t) 32)) m

/-- TAKEOVER (R308). Writing 1 on the standby port makes it active when the active port's Data Link Layer has been down for at
least 1 ms; RESULT tells the outcome. Until the interface is usable the active port's configuration space answers Request Retry Status,
and nothing is written (R309). -/
def execTakeover (port : PciePort) (value : W32) (s : State) : Host.Outcome State Fault Refusal :=
  let h := s.host
  let act? := h.port h.activePort
  let mine := h.port port
  if value.toNat % 2 = 0 ∨ !s.pwr.main ∨ !mine.up ∨ (port = h.activePort ∧ !h.usable) then .next s
  else if port = h.activePort then .next (s.modHost (·.setPort port { mine with result := 3 }))
  else if act?.up ∨ s.now < act?.downAt + 100000 then .next (s.modHost (·.setPort port { mine with result := 2 }))
  else
    let s := s.modHost fun h => { h.setPort port { mine with result := 1 } with portBActive := decide (port = .b) }
    let s := { s with hostMem := s.host.rings.toList.foldl (fun m (r : RingRegs) => if r.enable then repost m r else m) s.hostMem }
    .next (s.raiseDev 0x0416 [])

/-- HOST_RESET (R309, R383). On the active port it resets mailboxes, doorbell counts, ring registers, the interrupt block,
PERIPH_ENABLE and APERTURE_BASE; programs, handles and the last SEQUENCE numbers taken stay. On the standby port it resets only
that port's link. Either way the return of the reference no longer waits for that port (R372; DEDUCED, log entry 55). -/
def execHostReset (port : PciePort) (kind : HostResetKind) (s : State) : Host.Outcome State Fault Refusal :=
  let _ := kind
  let s := s.modClk fun c => { c with portsBack := c.portsBack.erase port }
  if !s.pwr.main then .next s
  else if port = s.host.activePort then
    .next <| s.modHost fun h =>
      { h with usable := false, mailboxes := h.mailboxes.map fun m => { Mailbox.reset with recent := m.recent },
               rings := Vector.ofFn RingRegs.reset, eventRing := 7, msixTable := Vector.replicate 64 msixReset, pba := 0,
               gates := h.gates.map fun g =>
                 if g.1 = .sensorPage ∨ g.1 = .logPage ∨ g.1 = .tracePage then (g.1, .closed) else g,
               aperture := 0, readData := none }
  else
    .next (s.modHost fun h => h.setPort port { h.port port with up := false, downAt := s.now, width := 0, generation := 0 })

/-- HOST_INTERFACE_USABLE (R309, R332): the interface serves requests again. -/
def execHostInterfaceUsable (s : State) : Host.Outcome State Fault Refusal :=
  act s.pwr.main s (s.modHost fun h => { h with usable := true })

/-- The Binder runs: it has booted, and its clock runs (R371, R372, R382). -/
def State.binderRuns (s : State) : Bool := s.host.binderUp && s.mainClocks

/-! ### Mailboxes (R313 to R315) -/

def HostIf.mailbox (h : HostIf) (m : Fin 8) : Mailbox := h.mailboxes[m]
def HostIf.setMailbox (h : HostIf) (m : Fin 8) (x : Mailbox) : HostIf :=
  { h with mailboxes := h.mailboxes.set m.val x m.isLt }

/-- MB_TAIL_WRITE (R314): a tail that would make MB_TAIL − MB_HEAD exceed 32 is discarded and DOORBELL_OVERRUN raised. -/
def execMbTailWrite (mailbox : Fin 8) (tail : BitVec 16) (s : State) : Host.Outcome State Fault Refusal :=
  if !s.served then .next s
  else
    let m := s.host.mailbox mailbox
    if (tail - m.head).toNat ≤ 32 then .next (s.modHost (·.setMailbox mailbox { m with tail := tail }))
    else .next (s.raiseDev 0x0418 [])

/-- The body bits that R324 names, by opcode: pairs of lowest bit and width. A bit that is not named is reserved. -/
def bodyFields : Nat → Option (List (Nat × Nat))
  | 0x01 => some [(0, 64), (64, 52), (128, 40)]
  | 0x02 => some [(0, 64), (64, 52), (128, 40)]
  | 0x03 => some [(0, 64), (64, 52), (128, 40), (192, 64), (256, 64)]
  | 0x10 => some [(0, 52), (64, 40)]
  | 0x11 => some [(0, 32)]
  | 0x12 => some [(0, 1)]
  | 0x13 => some [(0, 32)]
  | 0x14 => some []
  | 0x15 => some [(0, 52), (64, 16), (80, 16), (96, 1), (128, 24)]
  | 0x16 => some [(0, 32), (32, 8), (40, 6), (46, 1), (47, 1)]
  | 0x17 => some [(0, 52), (52, 1), (64, 24), (128, 64), (192, 16)]
  | 0x18 => some [(0, 64)]
  | 0x20 => some [(0, 11), (16, 11), (32, 7)]
  | 0x21 => some [(0, 52)]
  | 0x22 => some [(0, 32), (32, 1), (33, 1), (34, 1)]
  | 0x23 => some [(0, 2), (2, 1), (3, 1), (128, 128)]
  | 0x24 => some [(0, 6), (6, 1)]
  | 0x30 => some [(0, 64)]
  | 0x31 => some [(0, 8), (64, 64)]
  | 0x32 => some [(0, 1)]
  | 0x40 => some [(0, 52), (64, 24)]
  | 0x41 => some [(0, 16), (16, 1), (17, 1), (18, 2)]
  | 0x42 => some [(16, 1), (17, 1)]
  | 0x43 => some []
  | _ => none

/-- The bits a list of fields covers. -/
def fieldMask : List (Nat × Nat) → Nat
  | [] => 0
  | (lo, w) :: r => 2 ^ lo * (2 ^ w - 1) + fieldMask r

/-- Byte offset within the slot of the lowest body bit that is set and not named, searched byte by byte (R323). -/
def reservedByte (body mask : Nat) : Nat → Nat → Option Nat
  | 0, _ => none
  | n + 1, k =>
    if fld body (8 * k) 8 &&& (255 - fld mask (8 * k) 8) ≠ 0 then some (16 + k) else reservedByte body mask n (k + 1)

/-- The checks of R323 and R6 on a slot as the Binder takes it: the byte offset of the first field in error. -/
def slotError (slot : Nat) : Option Nat :=
  match bodyFields (fld slot 0 8) with
  | none => some 0
  | some fs =>
    if fld slot 10 6 ≠ 0 then some 1
    else if 240 < fld slot 16 16 then some 2
    else reservedByte (fld slot 128 (8 * fld slot 16 16)) (fieldMask fs) 240 0

/-- The first Free entry of the handle table by INDEX (R316): one already used, or the next never used. -/
def freeIndexFrom : List HandleEntry → Nat → Nat
  | [], n => n
  | e :: r, n => if e.phase = .free then n else freeIndexFrom r (n + 1)

def HostIf.freeIndex (h : HostIf) : Option Nat :=
  let i := freeIndexFrom h.handles 0
  if i < 4096 then some i else none

def nextGen (g : BitVec 12) : BitVec 12 := if g = 4095 then 1 else g + 1

/-- The entry issued for a slot (R316): the Free entry's GENERATION advanced, the copy of the slot, Running. -/
def HostIf.issue (h : HostIf) (i : Nat) (mailbox : Fin 8) (slot : Nat) : HostIf × Handle :=
  let g := nextGen ((h.handles[i]?).elim 0 (·.gen))
  let e : HandleEntry :=
    { gen := g, phase := .running, mailbox := mailbox, opcode := BitVec.ofNat 8 (fld slot 0 8), fence := bitOf slot 8,
      quiet := bitOf slot 9, cookie := BitVec.ofNat 32 (fld slot 32 32), seq := BitVec.ofNat 32 (fld slot 64 32),
      body := BitVec.ofNat 1920 (fld slot 128 (8 * min 240 (fld slot 16 16))), takenAt := h.takeNo, begun := false,
      exclusiveDone := false, fixedAt := 0, status := 0, detail := 0, result := 0, cadence := 0, entry := 0 }
  ({ h with handles := if i < h.handles.length then h.handles.set i e else h.handles ++ [e], takeNo := h.takeNo + 1 },
   mkHandle g.toNat i)

/-- COMMAND_TAKE (R6, R313, R314, R316, R323): the next pending slot, once the Binder is up and a handle is free. A duplicate
SEQUENCE gets the handle first given and nothing runs; another mismatch completes BAD_SEQUENCE with the SEQUENCE expected; a
slot in error completes BAD_FIELD; otherwise the command is Running. -/
def execCommandTake (mailbox : Fin 8) (s : State) : Host.Outcome State Fault Refusal :=
  let m := s.host.mailbox mailbox
  match s.host.freeIndex with
  | none => .next s
  | some i =>
    if !s.pwr.main ∨ !s.binderRuns ∨ m.head = m.tail then .next s
    else
      let base := 256 * (m.head.toNat % 32)
      let slot := leNat (Mem.read zeroByte m.sram base 256)
      let seq : W32 := BitVec.ofNat 32 (fld slot 64 32)
      let taken := fun (m : Mailbox) (x : Handle) =>
        { m with sram := Mem.write zeroByte m.sram (base + 12) (leBytes 4 x.toNat), head := m.head + 1, prevSeq := some seq }
      match m.recent.find? fun p => p.1 = seq with
      | some (_, x) => .next (s.modHost (·.setMailbox mailbox (taken m x)))
      | none =>
        let (h, x) := s.host.issue i mailbox slot
        let h := h.setMailbox mailbox { taken m x with recent := ((seq, x) :: m.recent).take 32 }
        let h := { h with trace := ({ handle := x, opcode := BitVec.ofNat 8 (fld slot 0 8), mailbox := mailbox, seq := seq,
                                      takenCadence := s.stamp, doneCadence := 0, status := 0 } :: h.trace).take 2048 }
        let s := { s with host := h }
        match m.prevSeq with
        | some p => if seq ≠ p + 1 then .next (s.complete x 0x0006 (p + 1).toNat 0)
                    else match slotError slot with
                      | some o => .next (s.complete x 0x0001 o 0)
                      | none => .next s
        | none => match slotError slot with
          | some o => .next (s.complete x 0x0001 o 0)
          | none => .next s

/-! ### When a command begins (R322) -/

/-- The commands with an exclusive phase (R322): LOAD, ACTIVATE, UNLOAD, SET_SERVICE with SET_LAYOUT, MAINTAIN. -/
def HandleEntry.exclusive (e : HandleEntry) : Bool :=
  e.opcode.toNat == 0x10 || e.opcode.toNat == 0x11 || e.opcode.toNat == 0x12 || e.opcode.toNat == 0x32
    || (e.opcode.toNat == 0x22 && bitOf e.body.toNat 34)

/-- A program handle after its program's first release, or a refusal (R322): it holds up no other command. -/
def HandleEntry.released (e : HandleEntry) : Bool := e.opcode.toNat == 0x11 && e.exclusiveDone

/-- Whether a Running command may begin (R322): every earlier command of its mailbox has begun, or with FENCE has completed, a program
handle apart; and if it has an exclusive phase, no other command is in one. -/
def HostIf.mayBegin (h : HostIf) (e : HandleEntry) : Bool :=
  h.binderUp && !e.begun
    && h.handles.all (fun o => !(o.phase == .running && o.mailbox == e.mailbox && decide (o.takenAt < e.takenAt))
         || (o.begun && (!e.fence || o.released)))
    && (!e.exclusive || h.handles.all fun o => !(o.phase == .running && o.exclusive && o.begun && !o.exclusiveDone))

/-- The body of a command that begins now, when its handle is Running with the opcode named. -/
def State.begins (s : State) (x : Handle) (opcode : Nat) : Option Nat :=
  match s.running? x with
  | some e => if e.opcode.toNat = opcode ∧ s.pwr.main ∧ s.binderRuns ∧ s.host.mayBegin e then some e.body.toNat else none
  | none => none

/-- Byte offset within the slot of the body field whose lowest bit is `lo` (R323). -/
def bodyOffset (lo : Nat) : Nat := 16 + lo / 8

def State.badField (s : State) (x : Handle) (lo : Nat) : State := s.complete x 0x0001 (bodyOffset lo) 0

def State.markBegun (s : State) (x : Handle) : State := s.modEntry x fun e => { e with begun := true }

/-! ### Rings, completions, interrupts (R317 to R320) -/

def HostIf.ring (h : HostIf) (r : Fin 8) : RingRegs := h.rings[r]
def HostIf.setRing (h : HostIf) (r : Fin 8) (x : RingRegs) : HostIf := { h with rings := h.rings.set r.val x r.isLt }

/-- The 32 bytes of a completion entry (R317). -/
def entryBytes (handle cookie : W32) (status : BitVec 16) (phase : Nat) (event : Bool) (detail : W32) (result cadence : W64) :
    List Byte :=
  leBytes 4 handle.toNat ++ leBytes 4 cookie.toNat ++ leBytes 2 status.toNat
    ++ leBytes 2 (phase + if event then 2 else 0) ++ leBytes 4 detail.toNat ++ leBytes 8 result.toNat
    ++ leBytes 8 cadence.toNat

/-- The MSI-X message of ring `r` is sent, or shown pending in the PBA while its vector is masked (R320; PRESUMED of PCI Express,
log entry 6). -/
def HostIf.signal (h : HostIf) (r : Fin 8) : HostIf :=
  let v := (h.ring r).vector
  let h := h.setRing r { h.ring r with unsignalled := 0 }
  let e : BitVec 128 := h.msixTable.getD v.toNat msixReset
  if e.getLsbD 96 then { h with pba := h.pba ||| (1 <<< v.toNat) } else { h with msixSent := h.msixSent ++ [v] }

/-- An entry has been written to ring `r`: it counts toward COUNT unless its command set QUIET, and the interrupt is sent when
COUNT entries are unsignalled; COUNT 0 is treated as 1 (R320). -/
def HostIf.written (h : HostIf) (r : Fin 8) (quiet : Bool) (now : Nat) : HostIf :=
  let h := h.setRing r { h.ring r with tail := (h.ring r).tail + 1 }
  if quiet then h
  else
    let n := (h.ring r).unsignalled + 1
    let h := h.setRing r { h.ring r with unsignalled := n, firstAt := if n = 1 then now else (h.ring r).firstAt }
    if max 1 (h.ring r).count.toNat ≤ n then h.signal r else h

/-- Held handles of a ring, and the one whose outcome was fixed first (R319). -/
def HostIf.heldOf (h : HostIf) (r : Fin 8) : List (Nat × HandleEntry) :=
  (h.handles.zipIdx.map fun p => (p.2, p.1)).filter fun p => p.2.phase == .held && p.2.mailbox == r

def firstFixed : List (Nat × HandleEntry) → Option (Nat × HandleEntry)
  | [] => none
  | p :: r => match firstFixed r with
    | none => some p
    | some q => if q.2.fixedAt < p.2.fixedAt then some q else some p

/-- COMPLETION_POST (R317, R318, R319): the oldest held completion of a ring with room is written and its handle is Posted. -/
def execCompletionPost (ring : Fin 8) (s : State) : Host.Outcome State Fault Refusal :=
  let r := s.host.ring ring
  match firstFixed (s.host.heldOf ring) with
  | none => .next s
  | some (i, e) =>
    if !s.served ∨ !r.room ∨ !s.binderRuns then .next s
    else
      let x := mkHandle e.gen.toNat i
      let s := s.hostWrite (r.slotAddr r.tail)
        (entryBytes x e.cookie e.status (r.phase r.tail) false e.detail e.result e.cadence)
      .next <| s.modHost fun h =>
        { h with handles := h.handles.set i { e with phase := .posted, entry := r.tail } }.written ring e.quiet s.now

/-- EVENT_POST (R317, R319, R321): the oldest waiting event is written to EVENT_RING when there is room; once the queue has room
again after a loss, EVENTS_LOST is raised with the count. -/
def execEventPost (s : State) : Host.Outcome State Fault Refusal :=
  let q := s.host.eventRing
  let r := s.host.ring q
  match s.host.eventQ with
  | [] => .next s
  | e :: rest =>
    if !s.served ∨ !r.room ∨ !s.binderRuns then .next s
    else
      let it := fun k => (e.items[k]?).getD 0
      let s := s.hostWrite (r.slotAddr r.tail)
        (entryBytes e.handle 0 e.code (r.phase r.tail) true (it 0) (it 1 ++ e.seq) e.cadence)
      let lost := s.host.eventsLost
      let s := s.modHost fun h => { h with eventQ := rest, eventsLost := 0 }.written q false s.now
      .next (if lost = 0 then s else s.raiseDev 0x0417 [item lost])

/-- MSIX_DELAY_EXPIRY (R320): DELAY µs after the first unsignalled entry the interrupt is sent whatever COUNT says. -/
def execMsixDelayExpiry (ring : Fin 8) (s : State) : Host.Outcome State Fault Refusal :=
  let r := s.host.ring ring
  act (s.pwr.main && decide (0 < r.unsignalled) && decide (r.firstAt + 100 * r.delay.toNat ≤ s.now)) s (s.modHost (·.signal ring))

/-- RING_HEAD_WRITE (R316, R318): a count that passes RING_TAIL is discarded and raises DOORBELL_OVERRUN; otherwise the handles
whose entries it passes become Free. -/
def execRingHeadWrite (ring : Fin 8) (head : W32) (s : State) : Host.Outcome State Fault Refusal :=
  let r := s.host.ring ring
  if !s.served then .next s
  else if (r.tail - r.head).toNat < (head - r.head).toNat then .next (s.raiseDev 0x0418 [])
  else
    .next <| s.modHost fun h =>
      { h.setRing ring { r with head := head } with
        handles := h.handles.map fun e =>
          if e.phase = .posted ∧ e.mailbox = ring ∧ (e.entry - r.head).toNat < (head - r.head).toNat
          then { e with phase := .free } else e }

/-- RING_ENABLE (R318): counts cleared, and every handle posted to the ring and not consumed is Held again. -/
def execRingEnable (ring : Fin 8) (s : State) : Host.Outcome State Fault Refusal :=
  let r := s.host.ring ring
  act (s.served && !r.enable) s <| s.modHost fun h =>
    { h.setRing ring { r with enable := true, head := 0, tail := 0, unsignalled := 0 } with
      handles := h.handles.map fun e =>
        if e.phase = .posted ∧ e.mailbox = ring then { e with phase := .held } else e }

/-! ### Peripheral gates (R312, R370) -/

def HostIf.gate (h : HostIf) (g : Gate) : GateState := ((h.gates.find? fun p => p.1 = g).map (·.2)).getD .closed
def HostIf.setGate (h : HostIf) (g : Gate) (x : GateState) : HostIf :=
  { h with gates := h.gates.map fun p => if p.1 = g then (g, x) else p }

/-- A bit written to a gate: 1 opens it; 0 closes it, at once or when the requests in progress have ended (R370). -/
def HostIf.writeGate (h : HostIf) (g : Gate) (on busy : Bool) (now : Nat) : HostIf :=
  if on then h.setGate g .opened
  else if h.gate g = .opened then h.setGate g (if busy then .closing now else .closed) else h

/-- PERIPH_ENABLE_WRITE (R312, R370): the host's register with its three pages, or an enable bit inside the MC. -/
def execPeriphEnableWrite (target : Option Gate) (value : W32) (busy : List Gate) (s : State) :
    Host.Outcome State Fault Refusal :=
  match target with
  | none =>
    act s.served s <| s.modHost fun h =>
      ((h.writeGate .sensorPage (value.getLsbD 0) (busy.contains .sensorPage) s.now).writeGate .logPage (value.getLsbD 1)
        (busy.contains .logPage) s.now).writeGate .tracePage (value.getLsbD 2) (busy.contains .tracePage) s.now
  | some g => act s.mc.up s (s.modHost (·.writeGate g (value.getLsbD 0) (busy.contains g) s.now))

/-- Figures by which GATE_FORCED names the peripheral and the initiator: the manual does not number them (log entry 7). -/
def gateCode (g : Gate) : Nat :=
  Config.figure 3 (match g with
    | .sensorPage => 0 | .logPage => 1 | .tracePage => 2 | .mcFlash => 3 | .mcSideband => 4 | .mcTest => 5)

def initiatorCode (g : GateInitiator) : Nat :=
  Config.figure 4 (match g with
    | .host => 0 | .binder => 1 | .mc => 2)

/-- 256 PCLK in ticks: PCLK runs at its multiple of the reference, or on bypass at REFCLK (R362, R367, R380). -/
def State.gateTicks (s : State) : Nat :=
  if s.clk.locked.contains .sb then divCeil 256 (fld s.mc.activeProfile.toNat 160 8) else 256

/-- Whether a gate has been closing for so many ticks. -/
def GateState.overdue (g : GateState) (ticks now : Nat) : Bool :=
  match g with
  | .closing since => decide (since + ticks ≤ now)
  | .closed => false
  | .opened => false

/-- Past the 256 PCLK a gate whose requests were not ended by GATE_FORCED is closed: they have finished (R370, log entry 70). -/
def HostIf.closeGates (h : HostIf) (ticks now : Nat) : HostIf :=
  { h with gates := h.gates.map fun p => if p.2.overdue ticks (now - 1) then (p.1, .closed) else p }

/-- GATE_FORCED (R370): a request still in progress after 256 PCLK ends with an error and the gate closes; the MC logs the peripheral
and the initiator. -/
def execGateForced (gate : Gate) (initiator : GateInitiator) (s : State) : Host.Outcome State Fault Refusal :=
  act ((s.host.gate gate).overdue s.gateTicks s.now) s
    ((s.modHost fun h => { h.setGate gate .closed with readData := none }).log 0x050A [item (gateCode gate), item (initiatorCode initiator)])

/-! ### Registers (R7, R310) -/

/-- Byte `k` of a number replaced. -/
def setByte (x k : Nat) (b : Byte) : Nat := x - 2 ^ (8 * k) * fld x (8 * k) 8 + 2 ^ (8 * k) * b.toNat

/-- One byte of a ring's registers written (R318): RING_BASE and LOG2_SIZE only while ENABLE is 0, a reserved LOG2_SIZE
discarded (R6); ENABLE cleared (setting it is RING_ENABLE, RING_HEAD is RING_HEAD_WRITE). -/
def RingRegs.writeByte (r : RingRegs) (k : Nat) (b : Byte) : RingRegs :=
  if k < 8 then if r.enable then r else { r with base := BitVec.ofNat 64 (setByte r.base.toNat k b) }
  else if k = 8 then if r.enable ∨ 10 < b.toNat % 16 then r else { r with log2Size := BitVec.ofNat 4 (b.toNat % 16) }
  else if k = 9 then if b.toNat % 2 = 0 then { r with enable := false } else r
  else r

/-- One byte of a ring's interrupt control written (R320). -/
def RingRegs.writeControl (r : RingRegs) (k : Nat) (b : Byte) : RingRegs :=
  if k = 0 then { r with vector := BitVec.ofNat 6 (b.toNat % 64) }
  else if k = 1 then { r with count := b }
  else if k = 2 then { r with delay := BitVec.ofNat 16 (setByte r.delay.toNat 0 b) }
  else if k = 3 then { r with delay := BitVec.ofNat 16 (setByte r.delay.toNat 1 b) }
  else r

/-- Byte `j` of MSI-X entry `k` written: the reserved bits [31:1] of Vector Control are discarded (R6). A vector unmasked while its PBA
bit is set sends its message and the bit clears (R320; PRESUMED of PCI Express, log entry 6). -/
def HostIf.writeMsix (h : HostIf) (k j : Nat) (b : Byte) : HostIf :=
  let e : BitVec 128 := BitVec.ofNat 128 (setByte (h.msixTable.getD k 0).toNat j b % 2 ^ 97)
  let h := { h with msixTable := h.msixTable.setIfInBounds k e }
  if !e.getLsbD 96 ∧ h.pba.getLsbD k then
    { h with pba := h.pba &&& ~~~((1 : W64) <<< k), msixSent := h.msixSent ++ [BitVec.ofNat 6 k] }
  else h

/-- One byte of BAR0 written (R7, R310 to R320, R251): RW bytes stored, W1C bits cleared, everything else discarded without
error. HANDLE of a mailbox slot is the Binder's (R313). -/
def State.writeBar0Byte (s : State) (a : Nat) (b : Byte) : State :=
  if a < 0x1_0000 then
    if a % 256 ∈ [12, 13, 14, 15] then s
    else
      let i : Fin 8 := ⟨a / 8192 % 8, Nat.mod_lt _ (by decide)⟩
      s.modHost fun h =>
        h.setMailbox i { h.mailbox i with sram := Mem.set zeroByte (h.mailbox i).sram (a % 8192) b }
  else if 0x1_0100 ≤ a ∧ a < 0x1_0200 then
    let i : Fin 8 := ⟨(a - 0x1_0100) / 32 % 8, Nat.mod_lt _ (by decide)⟩
    s.modHost fun h => h.setRing i ((h.ring i).writeByte (a % 32) b)
  else if a = 0x2_010C then
    s.modCad fun c => { c with events := c.events &&& ~~~(BitVec.ofNat 7 b.toNat) }
  else if 0x3_0000 ≤ a ∧ a < 0x3_0400 then
    s.modHost (·.writeMsix ((a - 0x3_0000) / 16) (a % 16) b)
  else if 0x3_1000 ≤ a ∧ a < 0x3_1040 then
    let i : Fin 8 := ⟨(a - 0x3_1000) / 8 % 8, Nat.mod_lt _ (by decide)⟩
    s.modHost fun h => h.setRing i ((h.ring i).writeControl (a % 8) b)
  else if a = 0x3_1040 then
    s.modHost fun h => { h with eventRing := ⟨b.toNat % 8, Nat.mod_lt _ (by decide)⟩ }
  else if 0x5_0008 ≤ a ∧ a < 0x5_0010 ∧ s.host.gate .logPage = .opened then
    s.modHost fun h => { h with logBase := BitVec.ofNat 64 (setByte h.logBase.toNat (a - 0x5_0008) b) }
  else s

def State.writeBar0 (s : State) : Nat → List Byte → State
  | _, [] => s
  | a, b :: r => (s.writeBar0Byte a b).writeBar0 (a + 1) r

/-- The mailbox word of the host's write that the Binder writes in the same cycle. -/
def wordMet (c : SameCycle) (offset len : Nat) : Option Nat :=
  (c.binderWord.map (· / 4)).filter fun w => decide (w < 0x4000 ∧ offset < 4 * w + 4 ∧ 4 * w < offset + len)

/-- CAD_EVENTS bits that hardware sets in the cycle stay 1 (R7): the write clears the others. -/
def spareMet (c : SameCycle) (a : Nat) (b : Byte) : Byte := if a = 0x2_010C then b &&& ~~~(c.cadEvents.setWidth 8) else b

/-- The bytes of a write one by one, but those of a word that is dropped. -/
def State.writeMet (s : State) (c : SameCycle) (drop : Option Nat) : Nat → List Byte → State
  | _, [] => s
  | a, b :: r => (if drop = some (a / 4) then s else s.writeBar0Byte a (spareMet c a b)).writeMet c drop (a + 1) r

/-- REGISTER_WRITE (R6, R7, R251, R310, R315): where the Binder writes a 32-bit word of mailbox SRAM in the same cycle, the host's write
of that word is dropped and the MC logs MAILBOX_COLLIDE with its offset. -/
def execRegisterWrite (offset : Nat) (bytes : List Byte) (same : SameCycle) (s : State) : Host.Outcome State Fault Refusal :=
  if !s.served then .next s
  else
    let w := wordMet same offset bytes.length
    let s := s.writeMet same w offset bytes
    .next (w.elim s fun w => s.log 0x0507 [item (4 * w)])

/-! ### BAR2 (R178) -/

/-- A request that the device completes with a Completer Abort (R307, R312): no data, and bit 15 of AER's uncorrectable error status
(PRESUMED of PCI Express, log entry 6). -/
def HostIf.abort (h : HostIf) : HostIf := { h with readData := none, aer := h.aer ||| 0x8000 }

/-- BAR2 is 64 GiB; a request beyond it does not reach the function (R307). -/
def bar2Size : Nat := 2 ^ 36

/-- BAR2_READ (R178): device memory at APERTURE_BASE + offset; an unmapped address completes with a Completer Abort and is
logged. -/
def execBar2Read (offset len : Nat) (s : State) : Host.Outcome State Fault Refusal :=
  let a := s.host.aperture.toNat + offset
  if !s.served ∨ bar2Size < offset + len then .next (s.modHost fun h => { h with readData := none })
  else if s.layoutEnd < a + len then
    .next ((s.modHost HostIf.abort).log 0x0508 (item2 (max a s.layoutEnd)))
  else .next (s.modHost fun h => { h with readData := some (s.dramRead a len) })

/-- BAR2_WRITE (R178): the mapped bytes are written; bytes at unmapped addresses are dropped and the access is logged. -/
def execBar2Write (offset : Nat) (bytes : List Byte) (s : State) : Host.Outcome State Fault Refusal :=
  let a := s.host.aperture.toNat + offset
  if !s.served ∨ bar2Size < offset + bytes.length then .next s
  else
    let t := s.dramStore a (bytes.take (s.layoutEnd - a))
    .next (if s.layoutEnd < a + bytes.length then t.log 0x0508 (item2 (max a s.layoutEnd)) else t)

end Sys2Proof.Machine
end

