-- ==== Sys2Proof/Machine/Tables.lean ====
section
/-!
DEFINITION. The tables of the exponential, the logarithm and the log-sum-exp (R204, R206): the binary32 values nearest to the
real numbers that the rules name.
-/

namespace Sys2Proof.Machine

def tableE0 : List Nat :=
  [0x3F800000, 0x3F8058D8, 0x3F80B1ED, 0x3F810B41, 0x3F8164D2, 0x3F81BEA1, 0x3F8218AF, 0x3F8272FC,
   0x3F82CD87, 0x3F832850, 0x3F838359, 0x3F83DEA1, 0x3F843A29, 0x3F8495F0, 0x3F84F1F6, 0x3F854E3D,
   0x3F85AAC3, 0x3F86078A, 0x3F866491, 0x3F86C1D9, 0x3F871F62, 0x3F877D2B, 0x3F87DB35, 0x3F883981,
   0x3F88980F, 0x3F88F6DD, 0x3F8955EE, 0x3F89B541, 0x3F8A14D5, 0x3F8A74AD, 0x3F8AD4C6, 0x3F8B3523,
   0x3F8B95C2, 0x3F8BF6A4, 0x3F8C57CA, 0x3F8CB933, 0x3F8D1ADF, 0x3F8D7CD0, 0x3F8DDF04, 0x3F8E417D,
   0x3F8EA43A, 0x3F8F073B, 0x3F8F6A81, 0x3F8FCE0C, 0x3F9031DC, 0x3F9095F2, 0x3F90FA4D, 0x3F915EED,
   0x3F91C3D3, 0x3F922900, 0x3F928E72, 0x3F92F42C, 0x3F935A2B, 0x3F93C072, 0x3F9426FF, 0x3F948DD4,
   0x3F94F4F0, 0x3F955C53, 0x3F95C3FF, 0x3F962BF2, 0x3F96942D, 0x3F96FCB1, 0x3F97657D, 0x3F97CE92]
def tableE1 : List Nat :=
  [0x3F9837F0, 0x3F98A197, 0x3F990B88, 0x3F9975C2, 0x3F99E046, 0x3F9A4B13, 0x3F9AB62B, 0x3F9B218D,
   0x3F9B8D3A, 0x3F9BF931, 0x3F9C6573, 0x3F9CD201, 0x3F9D3EDA, 0x3F9DABFE, 0x3F9E196E, 0x3F9E872A,
   0x3F9EF532, 0x3F9F6387, 0x3F9FD228, 0x3FA04116, 0x3FA0B051, 0x3FA11FD9, 0x3FA18FAF, 0x3FA1FFD2,
   0x3FA27043, 0x3FA2E102, 0x3FA3520F, 0x3FA3C36B, 0x3FA43516, 0x3FA4A70F, 0x3FA51958, 0x3FA58BEF,
   0x3FA5FED7, 0x3FA6720E, 0x3FA6E595, 0x3FA7596C, 0x3FA7CD94, 0x3FA8420C, 0x3FA8B6D5, 0x3FA92BEF,
   0x3FA9A15B, 0x3FAA1718, 0x3FAA8D26, 0x3FAB0387, 0x3FAB7A3A, 0x3FABF13F, 0x3FAC6897, 0x3FACE041,
   0x3FAD583F, 0x3FADD090, 0x3FAE4934, 0x3FAEC22D, 0x3FAF3B79, 0x3FAFB519, 0x3FB02F0E, 0x3FB0A957,
   0x3FB123F6, 0x3FB19EE9, 0x3FB21A32, 0x3FB295D0, 0x3FB311C4, 0x3FB38E0E, 0x3FB40AAF, 0x3FB487A6]
def tableE2 : List Nat :=
  [0x3FB504F3, 0x3FB58298, 0x3FB60094, 0x3FB67EE7, 0x3FB6FD92, 0x3FB77C95, 0x3FB7FBF0, 0x3FB87BA3,
   0x3FB8FBAF, 0x3FB97C14, 0x3FB9FCD2, 0x3FBA7DEA, 0x3FBAFF5B, 0x3FBB8126, 0x3FBC034A, 0x3FBC85CA,
   0x3FBD08A4, 0x3FBD8BD8, 0x3FBE0F68, 0x3FBE9353, 0x3FBF179A, 0x3FBF9C3C, 0x3FC0213B, 0x3FC0A695,
   0x3FC12C4D, 0x3FC1B261, 0x3FC238D2, 0x3FC2BFA1, 0x3FC346CD, 0x3FC3CE57, 0x3FC4563F, 0x3FC4DE85,
   0x3FC5672A, 0x3FC5F02E, 0x3FC67991, 0x3FC70353, 0x3FC78D75, 0x3FC817F7, 0x3FC8A2D8, 0x3FC92E1B,
   0x3FC9B9BE, 0x3FCA45C1, 0x3FCAD226, 0x3FCB5EED, 0x3FCBEC15, 0x3FCC799F, 0x3FCD078C, 0x3FCD95DA,
   0x3FCE248C, 0x3FCEB3A1, 0x3FCF4319, 0x3FCFD2F4, 0x3FD06334, 0x3FD0F3D7, 0x3FD184DF, 0x3FD2164C,
   0x3FD2A81E, 0x3FD33A54, 0x3FD3CCF1, 0x3FD45FF3, 0x3FD4F35B, 0x3FD58729, 0x3FD61B5E, 0x3FD6AFFA]
def tableE3 : List Nat :=
  [0x3FD744FD, 0x3FD7DA67, 0x3FD87039, 0x3FD90673, 0x3FD99D16, 0x3FDA3421, 0x3FDACB94, 0x3FDB6371,
   0x3FDBFBB8, 0x3FDC9468, 0x3FDD2D82, 0x3FDDC706, 0x3FDE60F5, 0x3FDEFB4E, 0x3FDF9613, 0x3FE03143,
   0x3FE0CCDF, 0x3FE168E7, 0x3FE2055B, 0x3FE2A23C, 0x3FE33F89, 0x3FE3DD44, 0x3FE47B6D, 0x3FE51A03,
   0x3FE5B907, 0x3FE65879, 0x3FE6F85B, 0x3FE798AB, 0x3FE8396A, 0x3FE8DA99, 0x3FE97C38, 0x3FEA1E47,
   0x3FEAC0C7, 0x3FEB63B7, 0x3FEC0719, 0x3FECAAEC, 0x3FED4F30, 0x3FEDF3E7, 0x3FEE9910, 0x3FEF3EAB,
   0x3FEFE4BA, 0x3FF08B3B, 0x3FF13231, 0x3FF1D99A, 0x3FF28177, 0x3FF329C9, 0x3FF3D290, 0x3FF47BCC,
   0x3FF5257D, 0x3FF5CFA4, 0x3FF67A41, 0x3FF72555, 0x3FF7D0DF, 0x3FF87CE1, 0x3FF9295A, 0x3FF9D64A,
   0x3FFA83B3, 0x3FFB3194, 0x3FFBDFED, 0x3FFC8EC0, 0x3FFD3E0C, 0x3FFDEDD2, 0x3FFE9E11, 0x3FFF4ECB]
def tableE4 : List Nat :=
  [0x40000000]

/-- E[i] is the binary32 value nearest to 2^(i/256); E[256] = 2 (R204). -/
def tableE : List Nat := tableE0 ++ tableE1 ++ tableE2 ++ tableE3 ++ tableE4

def tableG0 : List Nat :=
  [0x00000000, 0x3BB84E23, 0x3C37F286, 0x3C89B189, 0x3CB73CB4, 0x3CE49B1E, 0x3D08E68F, 0x3D1F6985,
   0x3D35D69C, 0x3D4C2DFE, 0x3D626FD6, 0x3D789C4C, 0x3D8759C5, 0x3D925ADC, 0x3D9D517F, 0x3DA83DC2,
   0x3DB31FB8, 0x3DBDF775, 0x3DC8C50B, 0x3DD3888F, 0x3DDE4212, 0x3DE8F1A7, 0x3DF39761, 0x3DFE3350,
   0x3E0462C4, 0x3E09A70E, 0x3E0EE68D, 0x3E14214A, 0x3E19574F, 0x3E1E88A3, 0x3E23B550, 0x3E28DD5D,
   0x3E2E00D2, 0x3E331FB8, 0x3E383A17, 0x3E3D4FF6, 0x3E42615F, 0x3E476E57, 0x3E4C76E8, 0x3E517B19,
   0x3E567AF1, 0x3E5B7679, 0x3E606DB6, 0x3E6560B2, 0x3E6A4F72, 0x3E6F39FF, 0x3E74205F, 0x3E79029A,
   0x3E7DE0B6, 0x3E815D5D, 0x3E83C857, 0x3E86314C, 0x3E88983F, 0x3E8AFD34, 0x3E8D602E, 0x3E8FC130,
   0x3E92203D, 0x3E947D5A, 0x3E96D888, 0x3E9931CB, 0x3E9B8926, 0x3E9DDE9D, 0x3EA03232, 0x3EA283E8]
def tableG1 : List Nat :=
  [0x3EA4D3C2, 0x3EA721C4, 0x3EA96DF0, 0x3EABB849, 0x3EAE00D2, 0x3EB0478E, 0x3EB28C7F, 0x3EB4CFA9,
   0x3EB7110E, 0x3EB950B2, 0x3EBB8E96, 0x3EBDCABD, 0x3EC0052B, 0x3EC23DE2, 0x3EC474E4, 0x3EC6AA34,
   0x3EC8DDD4, 0x3ECB0FC8, 0x3ECD4012, 0x3ECF6EB4, 0x3ED19BB0, 0x3ED3C70A, 0x3ED5F0C4, 0x3ED818DF,
   0x3EDA3F60, 0x3EDC6447, 0x3EDE8797, 0x3EE0A953, 0x3EE2C97D, 0x3EE4E818, 0x3EE70525, 0x3EE920A6,
   0x3EEB3A9F, 0x3EED5311, 0x3EEF69FF, 0x3EF17F6A, 0x3EF39355, 0x3EF5A5C2, 0x3EF7B6B4, 0x3EF9C62B,
   0x3EFBD42B, 0x3EFDE0B6, 0x3EFFEBCD, 0x3F00FAB9, 0x3F01FED4, 0x3F030239, 0x3F0404E8, 0x3F0506E2,
   0x3F060828, 0x3F0708BC, 0x3F08089E, 0x3F0907CF, 0x3F0A0650, 0x3F0B0422, 0x3F0C0146, 0x3F0CFDBE,
   0x3F0DF989, 0x3F0EF4A9, 0x3F0FEF1F, 0x3F10E8EB, 0x3F11E20F, 0x3F12DA8B, 0x3F13D260, 0x3F14C990]
def tableG2 : List Nat :=
  [0x3F15C01A, 0x3F16B601, 0x3F17AB44, 0x3F189FE4, 0x3F1993E3, 0x3F1A8742, 0x3F1B7A00, 0x3F1C6C1F,
   0x3F1D5DA0, 0x3F1E4E83, 0x3F1F3ECA, 0x3F202E74, 0x3F211D84, 0x3F220BF9, 0x3F22F9D5, 0x3F23E718,
   0x3F24D3C2, 0x3F25BFD6, 0x3F26AB53, 0x3F27963A, 0x3F28808C, 0x3F296A4A, 0x3F2A5374, 0x3F2B3C0C,
   0x3F2C2411, 0x3F2D0B85, 0x3F2DF268, 0x3F2ED8BC, 0x3F2FBE80, 0x3F30A3B5, 0x3F31885C, 0x3F326C77,
   0x3F335004, 0x3F343306, 0x3F35157D, 0x3F35F769, 0x3F36D8CB, 0x3F37B9A4, 0x3F3899F5, 0x3F3979BD,
   0x3F3A58FF, 0x3F3B37B9, 0x3F3C15EE, 0x3F3CF39D, 0x3F3DD0C8, 0x3F3EAD6E, 0x3F3F8991, 0x3F406531,
   0x3F41404F, 0x3F421AEB, 0x3F42F506, 0x3F43CEA0, 0x3F44A7BA, 0x3F458055, 0x3F465872, 0x3F473010,
   0x3F480731, 0x3F48DDD4, 0x3F49B3FB, 0x3F4A89A7, 0x3F4B5ED7, 0x3F4C338C, 0x3F4D07C7, 0x3F4DDB88]
def tableG3 : List Nat :=
  [0x3F4EAED0, 0x3F4F819F, 0x3F5053F7, 0x3F5125D7, 0x3F51F740, 0x3F52C832, 0x3F5398AF, 0x3F5468B6,
   0x3F553848, 0x3F560765, 0x3F56D60F, 0x3F57A446, 0x3F587209, 0x3F593F5A, 0x3F5A0C3A, 0x3F5AD8A8,
   0x3F5BA4A4, 0x3F5C7031, 0x3F5D3B4E, 0x3F5E05FB, 0x3F5ED039, 0x3F5F9A09, 0x3F60636A, 0x3F612C5E,
   0x3F61F4E5, 0x3F62BCFF, 0x3F6384AD, 0x3F644BF0, 0x3F6512C7, 0x3F65D933, 0x3F669F35, 0x3F6764CD,
   0x3F6829FB, 0x3F68EEC1, 0x3F69B31E, 0x3F6A7712, 0x3F6B3A9F, 0x3F6BFDC5, 0x3F6CC083, 0x3F6D82DB,
   0x3F6E44CD, 0x3F6F065A, 0x3F6FC781, 0x3F708843, 0x3F7148A1, 0x3F72089B, 0x3F72C832, 0x3F738765,
   0x3F744636, 0x3F7504A4, 0x3F75C2B0, 0x3F76805A, 0x3F773DA4, 0x3F77FA8C, 0x3F78B714, 0x3F79733C,
   0x3F7A2F04, 0x3F7AEA6D, 0x3F7BA578, 0x3F7C6023, 0x3F7D1A71, 0x3F7DD460, 0x3F7E8DF2, 0x3F7F4728]
def tableG4 : List Nat :=
  [0x3F800000]

/-- G[i] is the binary32 value nearest to log2(1 + i/256); G[256] = 1 (R204). -/
def tableG : List Nat := tableG0 ++ tableG1 ++ tableG2 ++ tableG3 ++ tableG4

def tableF0 : List Nat :=
  [0x3F800000, 0x3F78162E, 0x3F7058B2, 0x3F68C77C, 0x3F616273, 0x3F5A2970, 0x3F531C45, 0x3F4C3AB7,
   0x3F458484, 0x3F3EF95F, 0x3F3898F1, 0x3F3262D9, 0x3F2C56B1, 0x3F267406, 0x3F20BA60, 0x3F1B293F,
   0x3F15C01A, 0x3F107E64, 0x3F0B6386, 0x3F066EE8, 0x3F019FE8, 0x3EF9EBC4, 0x3EF0E057, 0x3EE81C31,
   0x3EDF9DEE, 0x3ED76428, 0x3ECF6D70, 0x3EC7B855, 0x3EC04363, 0x3EB90D22, 0x3EB21418, 0x3EAB56CC,
   0x3EA4D3C2, 0x3E9E8981, 0x3E98768F, 0x3E929975, 0x3E8CF0BE, 0x3E877AF8, 0x3E8236B3, 0x3E7A4509,
   0x3E707A0D, 0x3E6709AD, 0x3E5DF12F, 0x3E552DE5, 0x3E4CBD2C, 0x3E449C6C, 0x3E3CC919, 0x3E3540B6,
   0x3E2E00D2, 0x3E270709, 0x3E205105, 0x3E19DC80, 0x3E13A73D, 0x3E0DAF13, 0x3E07F1E4, 0x3E026DA0,
   0x3DFA408B, 0x3DF00FC4, 0x3DE64522, 0x3DDCDCF6, 0x3DD3D3AE, 0x3DCB25D3, 0x3DC2D008, 0x3DBACF0C]
def tableF1 : List Nat :=
  [0x3DB31FB8, 0x3DABBEFD, 0x3DA4A9E7, 0x3D9DDD9A, 0x3D975753, 0x3D911466, 0x3D8B123D, 0x3D854E5A,
   0x3D7F8CAC, 0x3D74EFBB, 0x3D6AC165, 0x3D60FD58, 0x3D579F69, 0x3D4EA392, 0x3D4605F5, 0x3D3DC2D5,
   0x3D35D69C, 0x3D2E3DD2, 0x3D26F524, 0x3D1FF95C, 0x3D194765, 0x3D12DC45, 0x3D0CB523, 0x3D06CF3E,
   0x3D0127F4, 0x3CF77971, 0x3CED1639, 0x3CE3218D, 0x3CD996EC, 0x3CD07201, 0x3CC7AEA2, 0x3CBF48D0,
   0x3CB73CB4, 0x3CAF869F, 0x3CA82307, 0x3CA10E85, 0x3C9A45D7, 0x3C93C5DB, 0x3C8D8B8F, 0x3C879411,
   0x3C81DC9D, 0x3C78C515, 0x3C6E469B, 0x3C6438E9, 0x3C5A974D, 0x3C515D4A, 0x3C48868D, 0x3C400EF3,
   0x3C37F286, 0x3C302D76, 0x3C28BC1D, 0x3C219AFD, 0x3C1AC6B9, 0x3C143C1B, 0x3C0DF80D, 0x3C07F79B,
   0x3C0237F0, 0x3BF96CA5, 0x3BEEE055, 0x3BE4C5F0, 0x3BDB18AD, 0x3BD1D3F8, 0x3BC8F36C, 0x3BC072D3]
def tableF2 : List Nat :=
  [0x3BB84E23, 0x3BB08180, 0x3BA90934, 0x3BA1E1B3, 0x3B9B0796, 0x3B94779A, 0x3B8E2EA0, 0x3B8829AA,
   0x3B8265D9, 0x3B79C0DF, 0x3B6F2D95, 0x3B650CCA, 0x3B5B59AA, 0x3B520F93, 0x3B492A17, 0x3B40A4F7,
   0x3B387C20, 0x3B30ABAD, 0x3B292FE3, 0x3B22052D, 0x3B1B281F, 0x3B149571, 0x3B0E49FE, 0x3B0842C3,
   0x3B027CDE, 0x3AF9EB18, 0x3AEF544E, 0x3AE5304E, 0x3ADB7A3C, 0x3AD22D72, 0x3AC9457C, 0x3AC0BE16,
   0x3AB8932A, 0x3AB0C0CE, 0x3AA94343, 0x3AA216F2, 0x3A9B386B, 0x3A94A463, 0x3A8E57B2, 0x3A884F55,
   0x3A828865, 0x3A7A003B, 0x3A6F67B1, 0x3A654215, 0x3A5B8A89, 0x3A523C65, 0x3A495332, 0x3A40CAA9,
   0x3A389EB1, 0x3A30CB61, 0x3A294CF5, 0x3A221FD7, 0x3A1B4093, 0x3A14ABDD, 0x3A0E5E8E, 0x3A08559E,
   0x3A028E29, 0x39FA0ACF, 0x39EF7164, 0x39E54AFA, 0x39DB92B1, 0x39D243E0, 0x39C95A0E, 0x39C0D0F3]
def tableF3 : List Nat :=
  [0x39B8A476, 0x39B0D0AB, 0x39A951CF, 0x39A22449, 0x399B44A7, 0x3994AF9B, 0x398E61FC, 0x398858C4,
   0x3982910B, 0x397A1019, 0x396F763E, 0x39654F6C, 0x395B96C6, 0x3952479E, 0x39495D7C, 0x3940D418,
   0x3938A759, 0x3930D350, 0x3929543C, 0x39222683, 0x391B46B1, 0x3914B17A, 0x390E63B3, 0x39085A56,
   0x3902927D, 0x38FA12BE, 0x38EF78AB, 0x38E551A6, 0x38DB98D0, 0x38D2497C, 0x38C95F33, 0x38C0D5AB,
   0x38B8A8CA, 0x38B0D4A3, 0x38A95573, 0x38A2279F, 0x389B47B6, 0x3894B269, 0x388E648F, 0x38885B20,
   0x38829335, 0x387A1411, 0x386F79E1, 0x386552C3, 0x385B99D5, 0x38524A6C, 0x3849600F, 0x3840D674,
   0x3838A983, 0x3830D54C, 0x3829560E, 0x3822282E, 0x381B4839, 0x3814B2E1, 0x380E64FD, 0x38085B84,
   0x38029392, 0x37FA14BA, 0x37EF7A7C, 0x37E55351, 0x37DB9A58, 0x37D24AE4, 0x37C9607C, 0x37C0D6D9]
def tableF4 : List Nat :=
  [0x00000000]

/-- F[i] is the binary32 value nearest to log2(1 + 2^(−i/16)); F[256] = 0 (R206). -/
def tableF : List Nat := tableF0 ++ tableF1 ++ tableF2 ++ tableF3 ++ tableF4

end Sys2Proof.Machine
end

