-- ==== Sys2Proof/Machine/Operands.lean ====
section
/-!
DEFINITION. The operand forms of the Plough: the fields of an instruction (R192, R200), which instructions are allowed (R194,
R196, R200 to R203, R208), pointer addresses, and the spaces an access may reach (R195).
-/

namespace Sys2Proof.Machine

/-! ### Fields (R192, R200) -/

def iOp (r : Nat) : Nat := fld r 0 8
def iVD (r : Nat) : Nat := fld r 8 5
def iVA (r : Nat) : Nat := fld r 13 5
def iVB (r : Nat) : Nat := fld r 18 5
def iVC (r : Nat) : Nat := fld r 23 5
def iMask (r : Nat) : Nat := fld r 28 3
def iPair (r : Nat) : Bool := bitOf r 31
def iSreg (r : Nat) : Nat := fld r 32 4
def iPtr (r : Nat) : Nat := fld r 36 3
def iSpace (r : Nat) : Nat := fld r 39 2
def iFmt (r : Nat) : Nat := fld r 41 3
def iImm (r : Nat) : Nat := fld r 64 32
def iImmS (r : Nat) : Int := sext (fld r 64 32) 32
def qCode (r : Nat) : Nat := fld r 96 4
def qE5m2 (r : Nat) : Bool := bitOf r 96
def qRole (r : Nat) : Nat := fld r 100 2
def qPol (r : Nat) : Nat := fld r 102 2
def qRnd (r : Nat) : Nat := fld r 104 2
def qMargin (r : Nat) : Nat := fld r 106 3
def qStream (r : Nat) : Nat := fld r 109 4
def qValid (r : Nat) : Nat := fld r 113 9

/-! ### Which instructions are allowed (R192, R194, R196, R200 to R203, R208) -/

/-- The bits an opcode uses, as (lowest bit, width); every other bit is reserved (R192, R196). -/
def opBits : Nat → Option (List (Nat × Nat))
  | 0x00 => some []
  | 0x01 => some []
  | 0x02 => some [(64, 32)]
  | 0x03 => some []
  | 0x04 => some [(32, 4), (41, 3), (64, 32)]
  | 0x08 => some [(8, 4), (64, 32)]
  | 0x09 => some [(8, 4), (13, 4), (18, 4)]
  | 0x0A => some [(8, 4), (13, 4), (64, 6)]
  | 0x0B => some [(32, 4), (36, 3)]
  | 0x0C => some [(36, 3), (64, 32)]
  | 0x10 => some [(8, 5), (28, 3), (31, 1), (36, 3), (39, 2), (41, 3), (64, 32)]
  | 0x11 => some [(13, 5), (28, 3), (31, 1), (36, 3), (39, 2), (41, 3), (64, 32)]
  | 0x14 => some [(32, 4), (36, 3), (39, 2), (64, 4)]
  | 0x15 => some [(32, 4), (36, 3), (39, 2), (64, 4)]
  | 0x20 => some [(8, 5), (13, 5), (18, 5), (28, 3), (31, 1)]
  | 0x21 => some [(8, 5), (13, 5), (18, 5), (28, 3), (31, 1)]
  | 0x22 => some [(8, 5), (13, 5), (18, 5), (28, 3), (31, 1)]
  | 0x23 => some [(8, 5), (13, 5), (18, 5), (23, 5), (28, 3), (31, 1)]
  | 0x24 => some [(8, 5), (13, 5), (18, 5), (28, 3), (31, 1)]
  | 0x25 => some [(8, 5), (13, 5), (18, 5), (28, 3), (31, 1)]
  | 0x26 => some [(8, 5), (13, 5), (28, 3), (31, 1)]
  | 0x27 => some [(8, 5), (13, 5), (28, 3), (31, 1)]
  | 0x28 => some [(8, 5), (13, 5), (18, 5), (28, 3)]
  | 0x29 => some [(8, 5), (13, 5), (28, 3)]
  | 0x2C => some [(8, 3), (13, 5), (18, 5), (28, 3), (41, 3)]
  | 0x2D => some [(8, 5), (13, 5), (18, 5), (28, 3), (31, 1), (32, 3)]
  | 0x2E => some [(8, 5), (28, 3), (32, 4)]
  | 0x30 => some [(8, 5), (13, 5), (28, 3), (32, 4)]
  | 0x31 => some [(8, 5), (13, 5), (28, 3), (32, 4)]
  | 0x32 => some [(8, 5), (13, 5), (28, 3), (32, 4)]
  | 0x38 => some [(8, 5), (13, 5), (28, 3)]
  | 0x39 => some [(8, 5), (13, 5), (28, 3)]
  | 0x3A => some [(8, 5), (13, 5), (28, 3)]
  | 0x3B => some [(8, 5), (13, 5), (28, 3)]
  | 0x3C => some [(8, 5), (13, 5), (18, 5), (28, 3)]
  | 0x3D => some [(8, 5), (13, 5), (28, 3), (32, 4)]
  | 0x40 => some [(13, 5), (32, 4), (36, 3), (39, 2), (64, 32), (96, 26)]
  | 0x41 => some [(13, 5), (32, 4), (36, 3), (39, 2), (64, 32), (96, 1), (100, 22)]
  | 0x42 => some [(13, 5), (28, 3), (31, 1), (36, 3), (39, 2), (41, 3), (64, 32), (100, 2), (104, 2), (109, 4)]
  | 0x43 => some [(8, 5), (36, 3), (39, 2), (64, 32), (96, 1)]
  | 0x44 => some [(32, 4), (36, 3), (39, 2), (64, 32)]
  | 0x45 => some [(32, 4), (36, 3), (39, 2), (41, 3), (64, 32), (96, 26)]
  | 0x48 => some [(8, 5), (28, 3), (41, 3), (109, 4)]
  | _ => none

/-- Values an opcode's own fields may take (R194, R196, R200 to R203, R208). `unobserved`: the template's LAYER is 0xFFFF, or
the kernel runs in direct mode, so the recipe settings may not be used (R195, R200). A tail field of MREENC beyond 4,096 is not refused
(DESIGN CHOICE, log entry 72). -/
def opValuesOk (r : Nat) (unobserved : Bool) : Bool :=
  let recipe := unobserved && (qRnd r == 0)
  match iOp r with
  | 0x02 => decide (1 ≤ iImm r) && decide (iImm r ≤ 65535)
  | 0x04 => decide (1 ≤ iImm r) && decide (iImm r ≤ 4095) && decide (iFmt r ≤ 3)
  | 0x10 => (fmtOf (iFmt r)).isSome && (!iPair r || iFmt r == 2) && decide (iSpace r ≤ 2)
  | 0x11 => (if iPair r then iFmt r == 2 else iFmt r == 6) && decide (iSpace r ≤ 2)
  | 0x2C => decide (iFmt r ≤ 3)
  | 0x40 =>
    isWeightCode (qCode r) && decide (qValid r ≤ folioCount (qCode r))
      && decide (iVA r + divCeil (folioCount (qCode r)) 64 ≤ 32) && !(qCode r == 6 && qRnd r == 2)
      && qPol r != 3 && qRnd r != 3 && decide (iSpace r ≤ 1) && !recipe && !(unobserved && qPol r == 0)
  | 0x41 =>
    decide (qValid r ≤ 60) && qPol r != 3 && qRnd r != 3 && decide (iSpace r ≤ 1) && !recipe
      && !(unobserved && qPol r == 0)
  | 0x42 => decide (iFmt r ≤ 4) && qRnd r != 3 && decide (iSpace r ≤ 2) && !recipe
  | 0x43 => decide (iSpace r ≤ 1)
  | 0x44 => decide (iSpace r ≤ 2)
  | 0x45 => (iFmt r == 2 || iFmt r == 3) && iSpace r == 0 && decide (fld r 109 13 ≤ 4096)
  | 0x48 => iFmt r == 0 || iFmt r == 6
  | _ => true

/-- An instruction that R194 does not refuse, branches and loops apart. -/
def instrOk (r : Nat) (unobserved : Bool) : Bool :=
  match opBits (iOp r) with
  | none => false
  | some fs => Nat.land r (fieldMask ((0, 8) :: fs)) == r && opValuesOk r unobserved

/-! ### Loops and branches of a kernel (R194) -/

/-- Following the instructions from `k` to before `k + n`: the depth of loops opened on the way returns to 0 without going
below it, so a branch over them neither leaves its loop nor enters one past its LOOP word. -/
def branchOk (op : Nat → Nat) : Nat → Nat → Nat → Bool
  | 0, _, d => d == 0
  | n + 1, k, d =>
    if op k = 2 then branchOk op n (k + 1) (d + 1)
    else if op k = 3 then match d with
      | 0 => false
      | d + 1 => branchOk op n (k + 1) d
    else branchOk op n (k + 1) d

/-- The static check of a kernel, instruction by instruction from its entry (R194). `fall` is the loops open when the previous
instruction falls through to `k`, none when it does not; `loops` the loops open in the text; `targets` the branch targets still
ahead with the loops open at their branches. True when every instruction reached is allowed and loops and branches are in order.
-/
def kernelOkFrom (word : Nat → Nat) (unobserved : Bool) : Nat → Nat → Bool → List Nat → List (Nat × List Nat) → Bool
  | 0, _, _, _, _ => false
  | n + 1, k, fall, loops, targets =>
    let here := targets.filter fun t => t.1 == k
    let rest := targets.filter fun t => t.1 != k
    if !fall && here.isEmpty then
      if rest.isEmpty then loops.isEmpty else kernelOkFrom word unobserved n (k + 1) false loops rest
    else if here.any fun t => t.2 != loops then false
    else if 4096 ≤ k then false
    else
      let r := word k
      if !instrOk r unobserved then false
      else if iOp r = 1 then kernelOkFrom word unobserved n (k + 1) false loops rest
      else if iOp r = 2 then
        decide (loops.length < 4) && kernelOkFrom word unobserved n (k + 1) true (k :: loops) rest
      else if iOp r = 3 then match loops with
        | [] => false
        | _ :: ls => kernelOkFrom word unobserved n (k + 1) true ls rest
      else if iOp r = 4 then
        decide (k + 1 + iImm r ≤ 4095)
          && kernelOkFrom word unobserved n (k + 1) true loops ((k + 1 + iImm r, loops) :: rest)
      else kernelOkFrom word unobserved n (k + 1) true loops rest

def kernelOk (word : Nat → Nat) (unobserved : Bool) (entry : Nat) : Bool :=
  kernelOkFrom word unobserved 4099 entry true [] []

/-- The random streams that the instructions a kernel may reach draw from (R162): every QFOLIO, QWIRE or QCVT with RND 0 or 2, and
every VRAND. -/
def drawsFrom (r : Nat) : Option Nat :=
  match iOp r with
  | 0x40 => if qRnd r = 1 then none else some (qStream r)
  | 0x41 => if qRnd r = 1 then none else some (qStream r)
  | 0x42 => if qRnd r = 1 then none else some (qStream r)
  | 0x48 => some (qStream r)
  | _ => none

def kernelDrawsFrom (word : Nat → Nat) : Nat → Nat → Bool → List Nat → List Nat
  | 0, _, _, _ => []
  | n + 1, k, fall, targets =>
    let rest := targets.filter fun t => t != k
    if !fall && !targets.contains k then if rest.isEmpty then [] else kernelDrawsFrom word n (k + 1) false rest
    else if 4096 ≤ k then []
    else
      let r := word k
      (drawsFrom r).toList ++
        (if iOp r = 1 then kernelDrawsFrom word n (k + 1) false rest
         else if iOp r = 4 then kernelDrawsFrom word n (k + 1) true ((k + 1 + iImm r) :: rest)
         else kernelDrawsFrom word n (k + 1) true rest)

def kernelDraws (word : Nat → Nat) (entry : Nat) : List Nat := kernelDrawsFrom word 4099 entry true []

/-! ### Registers (R190, R191) -/

def Plough.vr (p : Plough) (i : Nat) : Lanes := p.v.getD i (Vector.replicate 64 0)
def Plough.sreg (p : Plough) (i : Nat) : Nat := (p.sr.getD i 0).toNat
def Plough.preg (p : Plough) (i : Nat) : Nat := (p.p.getD i 0).toNat
/-- M0 reads all ones (R190). -/
def Plough.mreg (p : Plough) (i : Nat) : Nat := if i = 0 then 2 ^ 64 - 1 else (p.m.getD i 0).toNat

def Plough.setS (p : Plough) (i x : Nat) : Plough := { p with sr := p.sr.setIfInBounds i (BitVec.ofNat 64 x) }
def Plough.setP (p : Plough) (i x : Nat) : Plough := { p with p := p.p.setIfInBounds i (BitVec.ofNat 64 x) }
/-- A write to M0 is discarded (R190). -/
def Plough.setM (p : Plough) (i x : Nat) : Plough :=
  if i = 0 then p else { p with m := p.m.setIfInBounds i (BitVec.ofNat 64 x) }

/-- Lanes that the instruction acts on take the new value, the others keep the old one (R191). -/
def mergeLanes (mask : Nat) (old : Lanes) (new : Nat → Nat) : Lanes :=
  Vector.ofFn fun l : Fin 64 => if bitOf mask l.val then BitVec.ofNat 32 (new l.val) else old[l]

def Plough.setV (p : Plough) (r : Nat) (new : Nat → Nat) : Plough :=
  { p with v := p.v.setIfInBounds (iVD r) (mergeLanes (p.mreg (iMask r)) (p.vr (iVD r)) new) }

/-- Lane 0 of VD and S[SREG] take a scalar result whatever the mask holds (R196, R198). -/
def Plough.setScalar (p : Plough) (r x : Nat) : Plough :=
  { p with v := p.v.setIfInBounds (iVD r) ((p.vr (iVD r)).set 0 (BitVec.ofNat 32 x)) }.setS (iSreg r) (x % 2 ^ 32)

def laneOf (v : Lanes) (l : Nat) : Nat := (v.getD l 0).toNat

/-! ### Addresses and spaces (R181, R195, R218) -/

/-- P[PTR] + IMM, and P[PTR] for SLD and SST (R196), modulo 2^64. -/
def Plough.addr (p : Plough) (r : Nat) : Nat := (((p.preg (iPtr r) : Int) + iImmS r) % 2 ^ 64).toNat

def spaceMem (x : Nat) : CoreMem := if x = 0 then .quire else if x = 1 then .acc else .endpaper

/-- Device memory mapped for the active program: its pinned pages and its paged regions (R181); for a direct program the
placement layout in force, as R157 bounds its words. -/
def State.mappedByte (s : State) (a : Nat) : Bool :=
  match s.prog.active with
  | none => false
  | some img =>
    if img.direct then decide (a < s.layoutEnd)
    else decide (a < img.pinnedPages * 2 ^ 30)
      || s.prog.paged.any fun g => decide (g.vbase ≤ a) && decide (a < g.vbase + g.pages * unitBytes)

/-- Whether a Plough access of n bytes at a is allowed (R195). -/
def State.ploughAccess (s : State) (c : CoreId) (space a n : Nat) (isWrite vector : Bool) : Bool :=
  let p := (s.core c).plough
  (!vector || a % 64 == 0) &&
  (if space = 3 then (List.range n).all fun i => s.mappedByte (a + i)
   else
    decide (a + n ≤ coreMemSize (spaceMem space))
      && (space != 1 || !p.direct || (decide (65536 * p.accSlot ≤ a) && decide (a + n ≤ 65536 * p.accSlot + 65536)))
      && (space != 2 || !isWrite || (decide (2 ^ 16 ≤ a)
            && decide (a + n ≤ (s.prog.active.elim (2 ^ 18) fun img => tableBase s img c.val)))))

end Sys2Proof.Machine
end

