-- ==== Sys2Proof/Machine/Collator.lean ====
section
/-!
DEFINITION. The Collator's records: observation, merging, and the record as bytes (R109 to R116).
-/

namespace Sys2Proof.Machine

def maxW64 : Nat := 2 ^ 64 - 1

/-- Saturating addition to a counter, and whether it saturated (R114). -/
def satAdd64 (x : W64) (n : Nat) : W64 := BitVec.ofNat 64 (min maxW64 (x.toNat + n))
def reaches64 (x : W64) (n : Nat) : Bool := decide (maxW64 ≤ x.toNat + n)

def CollRec.fresh (layer : Nat) (role : BitVec 2) : CollRec :=
  { layer := layer, role := role, bins := Vector.replicate 48 0, count := 0, zero := 0, flush := 0, sat := 0, amax := 0,
    countSat := false }

/-- Binade of a non-zero magnitude m·2^e (R111). -/
def binade (m : Nat) (e : Int) : Int := (bitLen m : Int) - 1 + e

/-- Histogram bin: binade + 40 clamped to 0 to 47 (R111). -/
def histBin (b : Int) : Fin 48 := ⟨(max 0 (min 47 (b + 40))).toNat % 48, Nat.mod_lt _ (by decide)⟩

/-- One value observed (R110, R111): COUNT; ZERO for a zero; bin and AMAX for a non-zero finite value; nothing more otherwise.
X1 elements raise COUNT only. -/
def CollRec.see (r : CollRec) (x1 : Bool) (x : Num) : CollRec :=
  let r := { r with countSat := r.countSat || reaches64 r.count 1, count := satAdd64 r.count 1 }
  if x1 then r
  else match x with
    | .fin _ m e =>
      if m = 0 then { r with countSat := r.countSat || reaches64 r.zero 1, zero := satAdd64 r.zero 1 }
      else
        let j := histBin (binade m e)
        let a := fB32.roundRat false m 1 e
        { r with countSat := r.countSat || reaches64 r.bins[j] 1, bins := r.bins.set j.val (satAdd64 r.bins[j] 1) j.isLt,
                 amax := if r.amax.toNat < a then BitVec.ofNat 32 a else r.amax }
    | _ => r

def CollRec.lose (r : CollRec) (flush sat : Nat) : CollRec :=
  { r with countSat := r.countSat || reaches64 r.flush flush && flush != 0 || reaches64 r.sat sat && sat != 0,
           flush := satAdd64 r.flush flush, sat := satAdd64 r.sat sat }

/-- Merge of two records of one (layer, role): sums with saturation, maximum, OR (R115). -/
def CollRec.merge (a b : CollRec) : CollRec :=
  { a with
    bins := Vector.ofFn fun j : Fin 48 => satAdd64 a.bins[j] b.bins[j].toNat,
    count := satAdd64 a.count b.count.toNat, zero := satAdd64 a.zero b.zero.toNat,
    flush := satAdd64 a.flush b.flush.toNat, sat := satAdd64 a.sat b.sat.toNat,
    amax := if a.amax.toNat < b.amax.toNat then b.amax else a.amax,
    countSat := a.countSat || b.countSat || reaches64 a.count b.count.toNat || reaches64 a.zero b.zero.toNat
      || reaches64 a.flush b.flush.toNat || reaches64 a.sat b.sat.toNat
      || (List.finRange 48).any fun j => reaches64 a.bins[j] b.bins[j].toNat }

/-- The place of (layer, role) among records kept in ascending layer and role order; `f` makes the new record. -/
def collInsert (layer : Nat) (role : BitVec 2) (f : CollRec → CollRec) : List CollRec → List CollRec
  | [] => [f (CollRec.fresh layer role)]
  | r :: rs =>
    if r.layer = layer ∧ r.role = role then f r :: rs
    else if layer < r.layer ∨ (layer = r.layer ∧ role.toNat < r.role.toNat) then f (CollRec.fresh layer role) :: r :: rs
    else r :: collInsert layer role f rs

def collMergeInto (rs : List CollRec) (r : CollRec) : List CollRec := collInsert r.layer r.role (fun x => x.merge r) rs

/-- One record for each (layer, role) of a set: a pair that saw no value has an empty one (R116, R137). -/
def collFill (pairs : List (Nat × BitVec 2)) (rs : List CollRec) : List CollRec :=
  pairs.foldl (fun rs p => collInsert p.1 p.2 id rs) rs

/-- Records of many cores merged (R115). -/
def collMergeAll (xs : List (List CollRec)) : List CollRec := xs.foldl (fun acc rs => rs.foldl collMergeInto acc) []

/-- A core observes values under (layer, role); layer 0xFFFF is not observed (R109, R112). After the close of the step's records
they belong to the next step (R115). -/
def Core.observe (k : Core) (closed : Bool) (layer : Nat) (role : Nat) (x1 : Bool) (xs : List Num) (flush sat : Nat) : Core :=
  if layer = 0xFFFF ∨ xs = [] then k
  else
    let f := fun r : CollRec => (xs.foldl (fun r x => r.see x1 x) r).lose flush sat
    let q : BitVec 2 := BitVec.ofNat 2 role
    if closed then { k with collNext := collInsert layer q f k.collNext } else { k with coll := collInsert layer q f k.coll }

/-- The 512 bytes of a record (R113). -/
def CollRec.bytes (r : CollRec) (level : Nat) (step : W64) : List Byte :=
  let body := (r.bins.toList.map fun b => leBytes 8 b.toNat).flatten ++ leBytes 8 r.count.toNat ++ leBytes 8 r.zero.toNat
    ++ leBytes 8 r.flush.toNat ++ leBytes 8 r.sat.toNat ++ leBytes 4 r.amax.toNat ++ leBytes 2 r.layer
    ++ leBytes 1 r.role.toNat ++ leBytes 1 (level % 4 + if r.countSat then 4 else 0) ++ leBytes 8 step.toNat
    ++ List.replicate 76 0
  body ++ leBytes 4 (crc32 body)

end Sys2Proof.Machine
end

