-- ==== Sys2Proof/Machine/Steering.lean ====
section
/-!
DEFINITION. Precision steering (R116 to R137): the steering-state entry as bits, the digest, the standard rule, the commit at a
boundary, recipe updates, and the collation buffer.
-/

namespace Sys2Proof.Machine

/-! ### The steering-state entry (R123) -/

/-- An entry after a program load without a saved image. -/
def Steer.reset : Steer :=
  { level := 0, historyOk := false, attention := false, atLimit := false, defer := 0, clean := 0, observed := 0, ringNext := 0,
    ringFill := 0, ring := Vector.replicate 64 0 }

/-- The 2,560 bits of an entry. -/
def Steer.bits (e : Steer) : Nat :=
  e.level % 4 + (if e.historyOk then 2 ^ 4 else 0) + (if e.attention then 2 ^ 5 else 0) + (if e.atLimit then 2 ^ 6 else 0)
    + 2 ^ 8 * e.defer.toNat + 2 ^ 16 * e.clean.toNat + 2 ^ 32 * e.observed.toNat + 2 ^ 64 * e.ringNext.toNat
    + 2 ^ 68 * e.ringFill.toNat + 2 ^ 256 * packItems e.ring.toList

def Steer.ofBits (x : Nat) : Steer :=
  { level := fld x 0 2, historyOk := bitOf x 4, attention := bitOf x 5, atLimit := bitOf x 6, defer := BitVec.ofNat 8 (fld x 8 8),
    clean := BitVec.ofNat 16 (fld x 16 16), observed := BitVec.ofNat 32 (fld x 32 32),
    ringNext := BitVec.ofNat 4 (fld x 64 4), ringFill := BitVec.ofNat 5 (fld x 68 5),
    ring := Vector.ofFn fun i : Fin 64 => BitVec.ofNat 32 (fld x (256 + 32 * i.val) 32) }

/-- The bits of an entry that R123 reserves. -/
def steerReserved (x : Nat) : Nat := fld x 2 2 + fld x 7 1 + fld x 73 183 + fld x 2304 256

/-! ### The digest (R116) -/

/-- The 64 bytes of the recipe header in force (R119). -/
def recipeHeader (count allowance : Nat) : List Byte := leBytes 64 (count + 2 ^ 16 + 2 ^ 32 * allowance)

def Program.recipeBytes (p : Program) : List Byte :=
  recipeHeader p.recipe.length p.allowance ++ (p.recipe.map fun e => leBytes 64 e.toNat).flatten

/-- CRC-32 of the recipe table followed by the steering-state table. -/
def Program.digest (p : Program) : W32 :=
  BitVec.ofNat 32 (crc32 (p.recipeBytes ++ (p.steer.map fun e => leBytes 320 e.bits).flatten))

/-! ### The standard rule (R124) -/

inductive Advice
  | hold | widen | narrowOk
  deriving DecidableEq, Repr

/-- N, B and U of a layer. -/
structure Figures where
  n : Nat
  b : Nat
  u : Nat
  deriving DecidableEq, Repr

def recOf (rs : List CollRec) (layer role : Nat) : Option CollRec :=
  rs.find? fun r => r.layer == layer && r.role.toNat == role

/-- The highest non-empty bin of a record. -/
def CollRec.top (r : CollRec) : Option Nat := ((List.range 48).reverse).find? fun j => r.bins.getD j 0 != 0

/-- U(r): the sum of the bins below top(r) − RANGE_BINADES; 0 with no non-empty bin. -/
def CollRec.tail (r : CollRec) (range : Nat) : Nat :=
  match r.top with
  | none => 0
  | some t => (((List.range 48).filter fun j => decide (j + range < t)).map fun j => (r.bins.getD j 0).toNat).sum

/-- The sums over the roles in ROLE_MASK. -/
def figures (rs : List CollRec) (layer entry : Nat) : Figures :=
  let xs := ((List.range 4).filter (bitOf (rRoleMask entry))).filterMap (recOf rs layer)
  { n := (xs.map (·.count.toNat)).sum, b := (xs.map fun r => r.sat.toNat + r.flush.toNat).sum,
    u := (xs.map (·.tail (rRange entry))).sum }

def satInc16 (x : BitVec 16) : BitVec 16 := if x = 0xFFFF then x else x + 1
def satInc8 (x : Byte) : Byte := if x = 0xFF then x else x + 1

/-- evaluate(L) of R124: the counters after it, and the advice. -/
def Steer.evaluate (x : Steer) (entry : Nat) (f : Figures) : Steer × Advice :=
  if rRoleMask entry = 0 ∨ f.n = 0 then ({ x with atLimit := false }, .hold)
  else
    let clean := decide (f.b * 65536 ≤ rNarrow entry * f.n) && decide (f.u * 65536 ≤ rNarrow entry * f.n)
    let hot := decide (rWiden entry * f.n < f.b * 65536)
    let x := { x with clean := if clean then satInc16 x.clean else 0 }
    let advice :=
      if hot then if x.level < rNvar entry then .widen else .hold
      else if 0 < x.level ∧ rH entry ≤ x.clean.toNat then .narrowOk
      else .hold
    let x := { x with atLimit := if hot then x.atLimit || decide (rNvar entry ≤ x.level) else false }
    (x, if x.historyOk then advice else .hold)

/-! ### The commit (R125 to R132) -/

/-- One layer at a boundary: its index, recipe entry, state, advice, figures, and AT_LIMIT before the evaluation. -/
structure LayerAt where
  layer : Nat
  entry : Nat
  st : Steer
  advice : Advice
  fig : Figures
  wasLimit : Bool
  deriving DecidableEq, Repr

/-- OBSERVED and HISTORY_OK advance (R132). -/
def Steer.observe (x : Steer) (rs : List CollRec) (layer entry : Nat) : Steer :=
  let seen := (List.range 4).any fun r => (recOf rs layer r).elim false fun c => c.count != 0
  let o := if seen then satInc32 x.observed else x.observed
  { x with observed := o, historyOk := x.historyOk || decide (rW entry ≤ o.toNat) }

def evaluateAll (recipe : List (BitVec 512)) (steer : List Steer) (rs : List CollRec) : List LayerAt :=
  (steer.zipIdx).map fun p =>
    let entry := (recipe.getD p.2 0).toNat
    let x := p.1.observe rs p.2 entry
    let f := figures rs p.2 entry
    let e := x.evaluate entry f
    { layer := p.2, entry := entry, st := e.1, advice := e.2, fig := f, wasLimit := p.1.atLimit }

def LayerAt.extra (a : LayerAt) : Nat := rExtra a.entry a.st.level

/-- A narrowing taken. -/
def LayerAt.narrow (a : LayerAt) : LayerAt :=
  if a.advice = .narrowOk then
    { a with st := { a.st with level := a.st.level - 1, clean := 0, defer := 0, attention := false } }
  else a

/-- Cost of widening: EXTRA of the new level minus EXTRA of the old. -/
def LayerAt.cost (a : LayerAt) : Int := (rExtra a.entry (a.st.level + 1) : Int) - a.extra

/-- Layer a precedes layer b (R125). -/
def LayerAt.before (a b : LayerAt) : Bool :=
  decide (b.fig.b * a.fig.n < a.fig.b * b.fig.n)
    || (a.fig.b * b.fig.n == b.fig.b * a.fig.n && decide (a.layer < b.layer))

/-- The place of a candidate in the order of R125. -/
def insertCandidate (a : LayerAt) : List LayerAt → List LayerAt
  | [] => [a]
  | b :: r => if a.before b then a :: b :: r else b :: insertCandidate a r

/-- An event of the scan: a widening that does not fit, or DEFER reaching 9 (R127, R129). -/
inductive SteerEvent
  | deferred (layer : Nat) (cost remaining : Int)
  | attention (layer defer : Nat)
  deriving DecidableEq, Repr

/-- The scan over the candidates: their states after it, and the events in its order. -/
def widenScan : Int → List LayerAt → List LayerAt × List SteerEvent
  | _, [] => ([], [])
  | remaining, a :: r =>
    if a.cost ≤ remaining then
      let p := widenScan (remaining - a.cost) r
      ({ a with st := { a.st with level := a.st.level + 1, clean := 0, defer := 0, attention := false } } :: p.1, p.2)
    else
      let d := satInc8 a.st.defer
      let due := d == 9 && !a.st.attention
      let p := widenScan remaining r
      ({ a with st := { a.st with defer := d, attention := a.st.attention || due } } :: p.1,
       .deferred a.layer a.cost remaining :: (if due then .attention a.layer d.toNat :: p.2 else p.2))

/-- Levels committed at a warm boundary (R127). -/
def commitLevels (allowance : Nat) (xs : List LayerAt) : List Steer × List SteerEvent :=
  let narrowed := xs.map LayerAt.narrow
  let used := (narrowed.map LayerAt.extra).sum
  let order := (narrowed.filter fun a => a.advice == .widen).foldl (fun l a => insertCandidate a l) []
  let p := widenScan ((allowance : Int) - used) order
  (narrowed.map fun a =>
    match p.1.find? fun b => b.layer == a.layer with
    | some b => b.st
    | none => { a.st with defer := 0, attention := false }, p.2)

/-- The group AMAX of each role appended to the ring (R123, R127). -/
def Steer.append (x : Steer) (rs : List CollRec) (layer : Nat) : Steer :=
  let i := x.ringNext.toNat
  let put := fun (v : Vector W32 64) (r : Nat) => v.setIfInBounds (16 * r + i) ((recOf rs layer r).elim 0 (·.amax))
  { x with ring := (List.range 4).foldl put x.ring, ringNext := x.ringNext + 1,
           ringFill := if x.ringFill.toNat < 16 then x.ringFill + 1 else x.ringFill }

def State.raiseSteer (s : State) (e : SteerEvent) : State :=
  match e with
  | .deferred layer cost remaining => s.raiseStep 0x0304 noCore ([item layer, itemI cost] ++ item2I remaining)
  | .attention layer defer => s.raiseStep 0x0305 noCore [item layer, item defer]

/-- PRECISION_LIMIT at a warm boundary (R126). -/
def LayerAt.limit (a : LayerAt) (lastCold : Bool) : Bool := a.st.atLimit && (!a.wasLimit || lastCold)

/-- INSUFFICIENT_HISTORY, once for all layers without history (R132). -/
def State.raiseHistory (s : State) : State :=
  let xs := (s.prog.steer.zipIdx).filter fun p => !p.1.historyOk
  match xs with
  | [] => s
  | p :: _ => s.raiseStep 0x0303 noCore [item xs.length, item p.2]

/-- The device's records of the step: one for each (layer, role) that the program observes (R115, R116). -/
def State.deviceRecs (s : State) : List CollRec :=
  collFill s.prog.observed (collMergeAll (allCores.map fun c => (s.core c).coll))

/-- The group records of the step: what the carrier brought, or the device's own where the program has none (R115, R116). -/
def State.groupOf (s : State) : List CollRec := if s.prog.closed then s.prog.carrier else s.deviceRecs

def State.diverged (s : State) : Bool := s.prog.closed && s.prog.digestMin != s.prog.digestMax

/-- COLLATOR_COUNT_SAT for each record that carries the flag (R114, R137). -/
def State.raiseCountSat (s : State) (rs : List CollRec) : State :=
  (rs.filter (·.countSat)).foldl (fun s r => s.raiseStep 0x0308 noCore [item r.layer, item r.role.toNat]) s

/-- The collation buffer: the half of the step's parity, one record for each observed (layer, role) (R137). Half 1 begins after the
room of four records for each entry of the recipe (DESIGN CHOICE, log entry 23). -/
def State.writeCollationHalf (s : State) (img : Image) (rs : List CollRec) : State :=
  let level := fun (r : CollRec) => if s.prog.warm then s.prog.levelOf r.layer else 0
  s.dramWrite (img.collBase + (s.prog.step.toNat % 2) * (2048 * s.prog.recipe.length))
    (rs.map fun r => r.bytes (level r) s.prog.step).flatten

/-- commit(n) (R117, R126, R127, R131, R132, R137). -/
def State.commitSteering (s : State) (img : Image) : State :=
  let rs := s.groupOf
  let s := s.writeCollationHalf img rs
  let s := (s.modProg fun p => { p with groupRecs := rs }).raiseCountSat rs
  if s.diverged then
    (s.raiseStep 0x0307 noCore [s.prog.digestMin.getD 0, s.prog.digestMax.getD 0]).raiseHistory
  else
    let xs := evaluateAll s.prog.recipe s.prog.steer rs
    let grow := fun (ys : List Steer) => (ys.zipIdx).map fun p => p.1.append rs p.2
    if !s.prog.warm then (s.modProg fun p => { p with steer := grow (xs.map (·.st)) }).raiseHistory
    else
      let q := commitLevels s.prog.allowance xs
      let s := (xs.filter (·.limit s.prog.lastCold)).foldl
        (fun s a => s.raiseStep 0x0306 noCore (item a.layer :: (item2 a.fig.b ++ item2 a.fig.n))) s
      (q.2.foldl State.raiseSteer (s.modProg fun p => { p with steer := grow q.1 })).raiseHistory

/-! ### Recipe updates (R136) -/

/-- The state of an entry that an update changes. -/
def Steer.updated (x : Steer) (entry : Nat) : Steer :=
  { x with level := min x.level (rNvar entry), clean := 0, defer := 0, attention := false, atLimit := false }

/-- Entries from `first` replaced, and the allowance where one is given; an entry of the same 64 bytes keeps its state. -/
def Program.update (p : Program) (first : Nat) (new : List (BitVec 512)) (allowance : Option Nat) : Program :=
  let pick := fun (i : Nat) (old : BitVec 512) => if first ≤ i then new.getD (i - first) old else old
  { p with
    recipe := (p.recipe.zipIdx).map fun q => pick q.2 q.1,
    steer := (p.steer.zipIdx).map fun q =>
      let old := p.recipe.getD q.2 0
      if pick q.2 old = old then q.1 else q.1.updated (pick q.2 old).toNat,
    allowance := allowance.getD p.allowance }

end Sys2Proof.Machine
end

