-- ==== Sys2Proof/Machine/Topology.lean ====
section
/-!
DEFINITION. What a node knows of its fabric (R283 to R290): own and advertised links, distances, the domain root and the escape tree,
and which of its lanes leads where.
-/

namespace Sys2Proof.Machine

/-- Domain and member of a node ID (R231). -/
def nodeDomain (n : Nat) : Nat := n / 1024
def nodeMember (n : Nat) : Nat := n % 1024

/-- A link as this node knows it: the node at one end, its lane, the node at the other end, the measured latency in ns. -/
structure Edge where
  node : Nat
  lane : Nat
  partner : Nat
  latency : Nat
  deriving DecidableEq, Repr

/-- A link that carries flits: up, or in phase 6, in which its advertisement is flooded (R274). -/
def Link.open (k : Link) : Bool := k.phase == .up || k.phase == .joining

/-- Own links of the lanes that satisfy a test. -/
def State.ownLinks (s : State) (ok : Link → Bool) : List Edge :=
  (allLanes.filter fun l => ok (s.link l)).map fun l =>
    { node := s.fab.nodeId.toNat, lane := l.val, partner := (s.link l).partner.toNat, latency := (s.link l).latency.toNat }

/-- Own links that are up; and with them those in phase 6, which the tables take in at their next flip (R274). -/
def State.ownEdges (s : State) : List Edge := s.ownLinks fun k => k.phase == .up
def State.joinedEdges (s : State) : List Edge := s.ownLinks Link.open

/-- Links of the advertisements held (R285). -/
def State.advertEdges (s : State) : List Edge :=
  (s.fab.adverts.map fun p => p.1.links.map fun l =>
    ({ node := p.1.node.toNat, lane := l.lane.val, partner := l.partner.toNat, latency := l.latency.toNat } : Edge)).flatten

/-- Every link known: own ones, and those of the advertisements held. -/
def State.edges (s : State) : List Edge := s.ownEdges ++ s.advertEdges

/-- Edges inside the own domain. -/
def State.inDomain (s : State) (es : List Edge) : List Edge :=
  let d := nodeDomain s.fab.nodeId.toNat
  es.filter fun e => nodeDomain e.node == d && nodeDomain e.partner == d

/-- Edges inside one domain: those of the escape tree and of scheduled traffic (R286, R290). -/
def State.domainEdges (s : State) : List Edge := s.inDomain s.edges

/-- One round outward: nodes one hop beyond those reached. -/
def frontier (edges : List Edge) (reached : List (Nat × Nat)) : List (Nat × Nat) :=
  edges.foldl (fun new e =>
    match reached.find? fun x => x.1 = e.node with
    | some x => if reached.any (·.1 = e.partner) || new.any (·.1 = e.partner) then new else new ++ [(e.partner, x.2 + 1)]
    | none => new) []

/-- Hops to every node reached within the rounds given. -/
def hopsFrom (edges : List Edge) : Nat → List (Nat × Nat) → List (Nat × Nat)
  | 0, r => r
  | n + 1, r => match frontier edges r with
    | [] => r
    | new => hopsFrom edges n (r ++ new)

def distance (edges : List Edge) (a b : Nat) : Option Nat :=
  ((hopsFrom edges 65536 [(a, 0)]).find? fun x => x.1 = b).map (·.2)

/-- Nodes of the own domain that this node can reach, itself among them (R286). -/
def State.reachable (s : State) : List Nat := (hopsFrom s.domainEdges 65536 [(s.fab.nodeId.toNat, 0)]).map (·.1)

def State.isAligned (s : State) (n : Nat) : Bool :=
  if n = s.fab.nodeId.toNat then s.cad.aligned else s.fab.adverts.any fun p => p.1.node.toNat == n && p.1.aligned

def leastOf : List Nat → Option Nat
  | [] => none
  | x :: r => some (r.foldl min x)

/-- The domain root: the reachable node with the lowest ID among the aligned ones, else the lowest of all (R286). -/
def State.domainRoot (s : State) : Nat :=
  let xs := s.reachable
  (leastOf (xs.filter s.isAligned)).getD ((leastOf xs).getD s.fab.nodeId.toNat)

/-- This node is the domain root (R286). -/
def State.isRoot (s : State) : Bool := s.domainRoot == s.fab.nodeId.toNat

/-- A link to a node of the own domain is in phase 6, not yet in the tables (R274). -/
def State.joiningDomain (s : State) : Bool :=
  allLanes.any fun l => (s.link l).phase == .joining && nodeDomain (s.link l).partner.toNat == nodeDomain s.fab.nodeId.toNat

/-- No other reachable node of the domain is aligned, and none is about to join (R251, R260). -/
def State.aloneAligned (s : State) : Bool :=
  !s.joiningDomain && (s.reachable.filter fun n => n != s.fab.nodeId.toNat).all fun n => !s.isAligned n

/-- Hops of a node to the root on the escape tree (R286). -/
def State.toRoot (s : State) (n : Nat) : Option Nat := distance s.domainEdges (s.domainRoot) n

/-- The better of two parent links: fewest hops to the root, then the lower node ID, then the lower local lane (R286). -/
def betterParent (a b : Nat × Edge) : Nat × Edge :=
  if b.1 < a.1 ∨ (b.1 = a.1 ∧ (b.2.partner < a.2.partner ∨ (b.2.partner = a.2.partner ∧ b.2.lane < a.2.lane))) then b else a

/-- The parent link of a node on the escape tree; the root has none. -/
def State.parentOf (s : State) (n : Nat) : Option Edge :=
  if n = s.domainRoot then none
  else
    let hops := hopsFrom s.domainEdges 65536 [(s.domainRoot, 0)]
    match (s.domainEdges.filter (·.node = n)).filterMap fun e => (hops.find? fun x => x.1 = e.partner).map fun x => (x.2, e) with
    | [] => none
    | x :: r => some (r.foldl betterParent x).2

/-- Whether a lane leads to a node, and arrives on a lane of it: the partner's last record names its own lane in bits [13:8]
(R282, R291). -/
def State.leadsTo (s : State) (l : LaneId) (node : Nat) (peerLane : Nat) : Bool :=
  (s.link l).phase == .up && (s.link l).partner.toNat == node && fld (s.link l).record.toNat 8 6 == peerLane

/-- Nodes that advertise a rank of a program (R236). -/
def State.advertisers (s : State) (program : W64) (rank : Nat) : List Nat :=
  (s.fab.adverts.filter fun p => p.1.programs.any fun q => q.1 == program && q.2.toNat == rank).map (·.1.node.toNat)

/-! ### What this node tells its neighbours (R282, R285) -/

/-- Module serial number: fuse bits [207:144] (R342). -/
def State.serial (s : State) : W64 := BitVec.ofNat 64 (fld s.mc.fuses.toNat 144 64)

/-- SKEW_BUDGET of the active profile (R253). -/
def State.skewBudget (s : State) : Nat := fld s.mc.activeProfile.toNat 48 12

/-- The multi-device programs staged or active here, the pair of a covered rank among them (R236, R302). -/
def State.ownPrograms (s : State) : List (W64 × BitVec 10) :=
  let of := fun (img : Image) => (img.bounds.programId, img.bounds.rank)
  let multi := fun (x : Option Image) => x.toList.filter fun img => decide (1 < img.bounds.devices)
  ((multi s.prog.active).map fun img =>
      of img :: s.fab.covering.map fun r => (img.bounds.programId, r)).flatten ++ (multi s.prog.staged).map of

/-- Mirror-store units that no binding reserves (R285, R296). -/
def State.spareStore (s : State) : Nat := (s.fab.store.elim 0 (·.2)) - (s.fab.protects.map (·.units)).sum

def State.ownAdvert (s : State) : Advert :=
  { node := s.fab.nodeId, idSource := s.fab.idSource, serial := s.serial, ifLevel := s.host.ifLevel, aligned := s.cad.aligned,
    links := s.joinedEdges.map fun e =>
      { lane := ⟨e.lane % 64, Nat.mod_lt _ (by decide)⟩, partner := BitVec.ofNat 16 e.partner, latency := BitVec.ofNat 16 e.latency },
    programs := s.ownPrograms,
    bindings := s.fab.bindings.map fun b =>
      (b.partner, BitVec.ofNat 2 ((if b.continuous then 1 else 0) + if b.checkpointed then 2 else 0), b.cover),
    spareStore := s.spareStore, sequence := s.fab.advSeq }

/-! ### The escape tree from here (R286) -/

/-- Nodes from a node up to the root, itself first. -/
def State.chain (s : State) : Nat → Nat → List Nat
  | 0, n => [n]
  | k + 1, n => match s.parentOf n with
    | some e => n :: s.chain k e.partner
    | none => [n]

/-- The own end of the tree link of a child: the child's parent link leaves on a lane of it and arrives on one of ours (R282, R286). -/
def State.childLane (s : State) (child : Nat) : Option LaneId :=
  (s.parentOf child).bind fun e => allLanes.find? fun l => s.leadsTo l child e.lane

/-- The node before this one on the way of a destination to the root: a child whose subtree holds the destination. -/
def before (own : Nat) : List Nat → Option Nat
  | a :: b :: r => if b = own then some a else before own (b :: r)
  | _ => none

/-- The lane down to a destination that the own subtree holds. -/
def State.downLane (s : State) (dst : Nat) : Option LaneId := (before s.fab.nodeId.toNat (s.chain 1024 dst)).bind s.childLane

/-- The lane up to the parent. -/
def State.upLane (s : State) : Option LaneId := (s.parentOf s.fab.nodeId.toNat).map fun e => ⟨e.lane % 64, Nat.mod_lt _ (by decide)⟩

/-- The lane of the escape route: down where the own subtree holds the destination, else up (R286). -/
def State.escapeLane (s : State) (dst : Nat) : Option LaneId :=
  if (before s.fab.nodeId.toNat (s.chain 1024 dst)).isSome then s.downLane dst else s.upLane

/-! ### Routes (R287, R288) -/

/-- Index of a destination in the routing table: the member in the own domain, or 1,024 + the domain (R287). -/
def routeIndex (own dst : Nat) : Nat := if nodeDomain own = nodeDomain dst then nodeMember dst else 1024 + nodeDomain dst

/-- The active entry of a destination, where it is VALID. -/
def State.routeTo (s : State) (dst : Nat) : Option Route :=
  ((s.fab.active.find? fun p => p.1 = routeIndex s.fab.nodeId.toNat dst).map (·.2)).filter (·.valid)

/-- Lanes of an entry, in ascending order. -/
def Route.lanes (r : Route) : List LaneId := allLanes.filter fun l => r.ports.getLsbD l.val

/-- The lane of a transfer: the j-th, j = (SRC xor DST xor TRANSFER) mod k (R288). -/
def Route.pick (r : Route) (src dst seq : Nat) : Option LaneId :=
  r.lanes[Nat.xor (Nat.xor src dst) seq % max 1 r.lanes.length]?

/-- The lane of a transfer of this node by the routing table; none where the destination is not VALID. -/
def State.tableLane (s : State) (dst seq : Nat) : Option LaneId :=
  (s.routeTo dst).bind fun r => r.pick s.fab.nodeId.toNat dst seq

/-! ### Header flits and channels (R278 to R282) -/

/-- A header flit by its fields, with its CRC (R280). -/
def mkHeader (kind vc src dst hops subtype transfer length param body : Nat) : BitVec 512 :=
  let x := kind + 2 ^ 4 * vc + 2 ^ 8 * src + 2 ^ 24 * dst + 2 ^ 40 * hops + 2 ^ 48 * subtype + 2 ^ 64 * transfer + 2 ^ 96 * length
    + 2 ^ 128 * param + 2 ^ 256 * body
  BitVec.ofNat 512 (x + 2 ^ 480 * crc32 (leBytes 60 x))

/-- KIND of a message (R280). -/
def Msg.kind : Msg → Nat
  | .bytes _ => 1
  | .hold => 3 | .resume _ => 3 | .advert _ => 3 | .rejoin _ _ => 3 | .leave _ => 3 | .recovery _ _ => 3 | .recoveryEnd _ _ => 3
  | .bind _ => 3 | .unbind _ _ => 3 | .bound _ => 3
  | .pageFetch _ => 2 | .pageData _ => 2 | .pageWrite _ _ => 2 | .record _ _ => 2 | .unit _ _ _ _ => 2 | .state _ _ => 2
  | .restore _ _ => 2 | .fwData _ => 2 | .fwRequest _ => 3 | .passed => 2
  | .ack => 4 | .refuse _ => 5 | .sync => 6 | .partner => 7

/-- The channel of a message (R279, R281): HOLD and RESUME go on the escape channel (R263, R264). The rules name none for SYNC and PARTNER flits, which take CONTROL (DESIGN CHOICE,
log entry 69). -/
def Msg.vc : Msg → BitVec 2
  | .bytes _ => 0
  | .hold => 3 | .resume _ => 3
  | .pageFetch _ => 2 | .pageData _ => 2 | .pageWrite _ _ => 2 | .record _ _ => 2 | .unit _ _ _ _ => 2 | .state _ _ => 2
  | .restore _ _ => 2 | .fwRequest _ => 1 | .fwData _ => 1 | .recoveryEnd _ _ => 1 | .advert _ => 1 | .rejoin _ _ => 1 | .leave _ => 1 | .recovery _ _ => 1 | .bind _ => 1 | .unbind _ _ => 1 | .bound _ => 1 | .ack => 1
  | .refuse _ => 1 | .sync => 1 | .partner => 1 | .passed => 1

/-- SUBTYPE: the CTRL message type, whose codes no rule numbers (log entry 7), or the reason of a refusal (R280). -/
def Msg.subtype : Msg → Nat
  | .hold => Config.figure 8 0 % 256 | .resume _ => Config.figure 8 1 % 256 | .advert _ => Config.figure 8 2 % 256
  | .rejoin _ _ => Config.figure 8 3 % 256 | .leave _ => Config.figure 8 4 % 256 | .bind _ => Config.figure 8 5 % 256
  | .unbind _ _ => Config.figure 8 7 % 256
  | .bound _ => Config.figure 8 6 % 256 | .recovery _ _ => Config.figure 8 8 % 256 | .recoveryEnd _ _ => Config.figure 8 9 % 256
  | .fwRequest _ => Config.figure 8 10 % 256
  | .refuse r => r.toNat
  | .bytes _ => 0 | .ack => 0 | .sync => 0 | .partner => 0 | .pageFetch _ => 0 | .pageData _ => 0 | .pageWrite _ _ => 0
  | .record _ _ => 0 | .unit _ _ _ _ => 0 | .state _ _ => 0 | .restore _ _ => 0 | .fwData _ => 0 | .passed => 0

/-- LENGTH: data flits of 64 bytes (R278); a free value where no rule lays the message out (log entry 7). -/
def Msg.flits : Msg → Nat
  | .bytes b => divCeil b.length 64
  | .pageData b => divCeil b.length 64
  | .fwData b => divCeil b.length 64
  | .pageWrite _ b => divCeil b.length 64
  | .unit _ _ _ b => divCeil b.length 64
  | .state _ b => divCeil b.length 64
  | .record _ ps => divCeil (4096 * ps.length) 64
  | .ack => 0 | .refuse _ => 0 | .sync => 0 | .partner => 0 | .passed => 0
  | .hold => Config.msgFlits 0 | .resume _ => Config.msgFlits 1 | .advert _ => Config.msgFlits 2 | .rejoin _ _ => Config.msgFlits 3
  | .leave _ => Config.msgFlits 4 | .bind _ => Config.msgFlits 5 | .unbind _ _ => Config.msgFlits 8 | .bound _ => Config.msgFlits 6
  | .pageFetch _ => Config.msgFlits 7
  | .recovery _ _ => Config.msgFlits 9 | .restore _ _ => Config.msgFlits 10 | .recoveryEnd _ _ => Config.msgFlits 11 | .fwRequest _ => Config.msgFlits 12

/-- The header of an own message. -/
def State.headerOf (s : State) (dst : Nat) (seq : Nat) (escape : Bool) (m : Msg) : BitVec 512 :=
  mkHeader m.kind (if escape then 3 else m.vc.toNat) s.fab.nodeId.toNat dst 0 m.subtype seq m.flits 0 0

/-- A message handed to its channel of a lane: recorded, and waiting there for its flit times. One on ESCAPE with no lane to take waits in
the escape queue of the node (R288). -/
def State.emit (s : State) (lane : Option LaneId) (vc : BitVec 2) (timed : Bool) (src : BitVec 16) (seq : W32) (flits : Nat)
    (transit : Option Transfer) (header : BitVec 512) (m : Msg) : State :=
  let s := s.modFab fun f => { f with sent := { lane := lane, vc := vc, header := header, body := m } :: f.sent }
  let e : TxEntry := { vc := vc, timed := timed, src := src, dst := BitVec.ofNat 16 (fld header.toNat 24 16), seq := seq, flits := flits + 1,
                       transit := transit }
  match lane with
  | none => if vc = 3 then s.modFab fun f => { f with escapeWait := f.escapeWait ++ [e] } else s
  | some l => s.modLink l fun k => { k with tx := k.tx ++ [e] }

/-- A node that could not keep an ID of its own serves discovery only (R284). -/
def Msg.discovery : Msg → Bool
  | .advert _ => true | .sync => true | .partner => true | .ack => true | .refuse _ => true
  | .bytes _ => false | .fwRequest _ => false | .fwData _ => false | .pageData _ => false | .restore _ _ => false | .recoveryEnd _ _ => false
  | .hold => false | .resume _ => false | .rejoin _ _ => false | .leave _ => false | .recovery _ _ => false | .pageFetch _ => false
  | .pageWrite _ _ => false | .record _ _ => false | .unit _ _ _ _ => false | .bind _ => false | .unbind _ _ => false
  | .state _ _ => false | .bound _ => false | .passed => true

def State.mayOriginate (s : State) (m : Msg) : Bool := s.fab.idSource != 2 || m.discovery

/-- An own message to a node, under a number: by the routing table, or on ESCAPE (R263, R264, R288). -/
def State.sendAs (s : State) (dst : BitVec 16) (seq : W32) (escape : Bool) (m : Msg) : State :=
  if !s.mayOriginate m then s
  else
    let table := s.tableLane dst.toNat seq.toNat
    let esc := escape || m.vc == 3 || table.isNone
    let lane := if esc then s.escapeLane dst.toNat else table
    s.emit lane (if esc then 3 else m.vc) false s.fab.nodeId seq m.flits none (s.headerOf dst.toNat seq.toNat esc m) m

/-- A dynamic transfer begun by this node (R280, R281, R284, R288), by the route of its destination, or on ESCAPE where it has none. -/
def State.sendDyn (s : State) (dst : BitVec 16) (i : Initiator) (m : Msg) : State :=
  if !s.mayOriginate m then s
  else
    let q := s.fab.nextSeq
    let esc := m.vc == 3 || (s.tableLane dst.toNat q.toNat).isNone
    let lane := if esc then s.escapeLane dst.toNat else s.tableLane dst.toNat q.toNat
    let o : DynOut := { seq := q, dst := dst, lane := lane, sends := 1, escape := esc, initiator := i, body := m }
    (s.sendAs dst q false m).modFab fun f => { f with outstanding := f.outstanding ++ [o], nextSeq := q + 1 }

/-- A CTRL message to a node (R280, R281). -/
def State.send (s : State) (dst : BitVec 16) (m : Msg) : State := s.sendDyn dst .device m

/-- A message to the neighbours on every lane that carries flits, but the one it came from. Flooding repeats itself (R285): its messages
are not resent without ACK (DEDUCED, log entry 69). -/
def State.flood (s : State) (but : Option LaneId) (m : Msg) : State :=
  if !s.mayOriginate m then s
  else (allLanes.filter fun l => (s.link l).open && some l != but).foldl (fun s l =>
    let q := s.fab.nextSeq
    (s.emit (some l) m.vc false s.fab.nodeId q m.flits none (s.headerOf (s.link l).partner.toNat q.toNat false m) m).modFab fun f =>
      { f with nextSeq := q + 1 }) s

/-- A flit for the link partner only, whose header is given. -/
def State.sendLink (s : State) (l : LaneId) (header : BitVec 512) (m : Msg) : State :=
  s.emit (some l) m.vc false s.fab.nodeId 0 0 none header m

/-- A transfer of another node goes on by a lane. -/
def State.passOn (s : State) (l : LaneId) (vc : BitVec 2) (timed : Bool) (t : Transfer) : State :=
  let x := t.header.bits.toNat
  s.emit (some l) vc timed (BitVec.ofNat 16 (fld x 8 16)) (BitVec.ofNat 32 (fld x 64 32)) t.data.length (some t) t.header.bits .passed

/-- The partner returns credits (R279). -/
def Link.credited (k : Link) (now lane : Nat) : Link :=
  { k with used := Vector.ofFn fun v : Fin 4 => if k.used[v] = 0 then 0 else k.used[v] - Config.creditReturn now lane v.val }

/-- A channel has a credit for one more flit (R279). -/
def Link.hasCredit (k : Link) (v : BitVec 2) : Bool := decide (k.used.getD v.toNat 0 ≤ Config.vcCredits v.toNat)

/-- The transfer served next in one flit time of a lane (R279): inside a slot its transfer, except one flit time in sixteen; else the first
of ESCAPE, CONTROL, MIRROR and untimed SCHED that has something to send and a credit. -/
def Link.next (k : Link) : Option Nat :=
  let free := ([3, 1, 2, 0] : List (BitVec 2)).findSome? fun v =>
    (k.tx.findIdx? fun e => e.vc == v && !e.timed).filter fun _ => k.hasCredit v
  match k.tx.findIdx? (·.timed) with
  | some i => if k.flitNo % 16 = 15 then free else some i
  | none => free

/-- One flit time of a lane: a flit of the channel served, or an IDLE flit; an ordered-set control block comes after 4,096 flits
(R278). -/
def Link.flitTime (k : Link) (now lane : Nat) : Link :=
  let k := k.credited now lane
  let sent : Link :=
    { k with flitNo := if k.flitNo = 4095 then 0 else k.flitNo + 1, orderedSets := if k.flitNo = 4095 then k.orderedSets + 1 else k.orderedSets,
             lastSent := .idle }
  match k.next.bind fun i => (k.tx[i]?).map fun e => (i, e) with
  | none => sent
  | some (i, e) =>
    { sent with lastSent := .channel e.vc, tx := if e.flits ≤ 1 then k.tx.eraseIdx i else k.tx.set i { e with flits := e.flits - 1 },
                used := if e.timed then k.used else k.used.setIfInBounds e.vc.toNat (k.used.getD e.vc.toNat 0 + 1) }

/-- A flit takes 1.024 ticks (R278): whether one ends with a reference edge. -/
def flitEnds (now : Nat) : Bool := now * 1000 / 1024 != (now - 1) * 1000 / 1024

/-- A link that sends flits: from phase 4 of its bring-up on (R274). -/
def Link.sends (k : Link) : Bool := k.open || k.phase == .records || k.phase == .timing

/-- The lanes serve their channels. -/
def State.serveLanes (s : State) : State :=
  if !flitEnds s.now ∨ s.clk.lost then s
  else s.modFab fun f => { f with links := Vector.ofFn fun i : Fin 64 =>
    if f.links[i].sends then f.links[i].flitTime s.now i.val else f.links[i] }

/-! ### Records and advertisements (R282, R285) -/

/-- TX_FIXED and RX_FIXED of this device in 0.1 ns: free values within the limits of R276 (log entry 7). -/
def txFixed : Nat := 380 + Config.txDelay % 41
def rxFixed : Nat := 1480 + Config.rxDelay % 41

/-- The silicon's STEPPING (R282, R311). -/
def stepping : Nat := 0xB1

/-- The time from the own received mark, before trim, in 0.1 ns (R255, R275): 100 to a tick. Where in its tick a flit leaves the PCS is a
free value (log entry 44). -/
def State.syncTime (s : State) : Nat := 100 * s.cad.rxTick.toNat + (s.free 0).toNat % 100

/-- A SYNC flit with the three times of an exchange, and the own trim, frame number, offset and hops to the root (R255, R258, R260,
R280). -/
def State.syncHeader (s : State) (t1 t2 t3 : Nat) : BitVec 512 :=
  mkHeader 6 1 s.fab.nodeId.toNat 0xFFFF 0 0 0 0 (t1 + 2 ^ 32 * t2 + 2 ^ 64 * t3 + 2 ^ 96 * s.cad.trim.toNat)
    (s.cad.frame.toNat + 2 ^ 40 * (itemI s.cad.offset).toNat + 2 ^ 72 * s.fab.rootHops.toNat)

/-- An exchange begun on a lane (R255, R275): t2 and t3 are 0. -/
def State.sendSync (s : State) (l : LaneId) : State := (s.sendLink l (s.syncHeader s.syncTime 0 0) .sync).bump

/-- The own partner record on a lane (R282). -/
def State.partnerRecord (s : State) (l : LaneId) : BitVec 512 :=
  let f := s.fab
  let x := 7 + 2 ^ 8 * l.val + 2 ^ 16 * f.nodeId.toNat + 2 ^ 32 * f.idSource.toNat + 2 ^ 40 * s.host.ifLevel.toNat + 2 ^ 48 * stepping
    + 2 ^ 64 * s.serial.toNat + 2 ^ 128 * txFixed + 2 ^ 144 * rxFixed + 2 ^ 160 * s.skewBudget + 2 ^ 176 * f.root.toNat
    + 2 ^ 192 * f.rootHops.toNat + 2 ^ 448 * f.partnerSeq.toNat
  BitVec.ofNat 512 (x + 2 ^ 480 * crc32 (leBytes 60 x))

def State.sendPartner (s : State) (l : LaneId) : State := s.sendLink l (s.partnerRecord l) .partner

/-- The advertisement flooded anew: at link-up, at each change, at each period (R285). -/
def State.advertise (s : State) : State :=
  if s.pwr.main then
    let s := s.modFab fun f => { f with advSeq := f.advSeq + 1 }
    s.flood none (.advert s.ownAdvert)
  else s

/-- The partner record resent on every lane that has sent it: at each change of its fields (R282). -/
def State.resendPartner (s : State) : State :=
  let s := s.modFab fun f => { f with partnerSeq := f.partnerSeq + 1 }
  (allLanes.filter fun l => (s.link l).sends).foldl State.sendPartner s

/-- IF_LEVEL of the Binder image in service: the partner record is sent again and the node advertised anew where it changes (R282, R285,
R311). -/
def State.setIfLevel (s : State) (level : Byte) : State :=
  let t := s.modHost fun h => { h with ifLevel := level }
  if s.host.ifLevel = level then t else t.resendPartner.advertise

/-- The root and the hops to it as this node's partner record states them: resent when they change (R260, R282, R286). -/
def State.noteRoot (s : State) : State :=
  let r := s.domainRoot
  let h := (s.toRoot s.fab.nodeId.toNat).getD 0xFF
  if s.fab.root.toNat = r ∧ s.fab.rootHops.toNat = h then s
  else
    let changed := decide (s.fab.root.toNat ≠ r)
    let s := s.modFab fun f => { f with root := BitVec.ofNat 16 r, rootHops := BitVec.ofNat 8 h }
    (s.modCad fun c => { c with rootChanged := c.rootChanged || changed }).resendPartner

/-- Transfers of the escape queue that have a lane now go on (R288). -/
def State.retryEscape (s : State) : State :=
  s.fab.escapeWait.foldl (fun s e =>
    match s.escapeLane e.dst.toNat with
    | some l => (s.modFab fun f => { f with escapeWait := f.escapeWait.erase e }).modLink l fun k => { k with tx := k.tx ++ [e] }
    | none => s) s

/-- A change in the topology that this node knows: the routing tables are rebuilt, afresh if a rebuild was under way (R289), and the
root is chosen again (R286). -/
def State.topologyChanged (s : State) : State :=
  (s.modFab fun f => { f with rebuilding := true, flipReady := false }).noteRoot.retryEscape

/-- A node ID taken (R283): the partner records and the advertisement are sent again. -/
def State.takeId (s : State) (id : BitVec 16) (source : BitVec 2) : State :=
  ((s.modFab fun f => { f with nodeId := id, idSource := source }).topologyChanged).resendPartner.advertise

/-- A shelf record that waited is taken once no program is staged or active (R283). -/
def State.takeShelf (s : State) : State :=
  match s.fab.shelfWaiting with
  | some id =>
    if s.prog.active.isNone ∧ s.prog.staged.isNone then (s.modFab fun f => { f with shelfWaiting := none }).takeId id 0 else s
  | none => s

/-! ### Table flips (R274, R289) -/

/-- A table flip (R274, R289): the copies swap, and links in phase 6 are up. -/
def State.flipTables (s : State) : State :=
  let new := allLanes.filter fun l => (s.link l).phase == .joining
  let s := s.modFab fun f => { f with active := f.shadow, shadow := f.active, flipReady := false }
  let s := new.foldl (fun s l => s.modLink l fun k => { k with phase := .up }) s
  let s := new.foldl (fun s l => s.raiseDev 0x0410 [item l.val, item (s.link l).partner.toNat]) s
  if new = [] then s else s.noteRoot.retryEscape

/-- The lanes on one I/O tile (R15). -/
def sameIoTile (a b : Nat) : Bool := a / 32 == b / 32

end Sys2Proof.Machine
end

