-- ==== Sys2Proof/Machine/Activate.lean ====
section
/-!
DEFINITION. Activation: the clear and fill of core memories (R218, R220), the placement of cores on sites (R234, R238, R239) and of
peers on nodes (R236, R257, R290, R291), and the start of a program (R160).
-/

namespace Sys2Proof.Machine

/-- A Press with nothing issued: its cells and registers keep what they hold, and nothing in them is usable (R70, R189). -/
def Press.stand (p : Press) : Press :=
  { p with ready := false, set0 := none, set1 := none, pass := none, beats := [], queue := [], loaded := false, pendingObs := none }

/-- An Awl with nothing armed: reads that are out keep their tags until their data has come, and it is discarded (R171, R189). -/
def Awl.stand (a : Awl) : Awl :=
  { Awl.reset with reads := a.reads.map fun r => { r with dropped := true }, gens := a.gens, late := a.late }

/-- A core with nothing issued: Needle, Plough, Press, Awl, signals and records empty; memories, counters and draws kept. -/
def Core.stand (k : Core) : Core :=
  { k with needle := Needle.reset, plough := Plough.reset, press := k.press.stand, awl := k.awl.stand, coll := [], collNext := [],
           collKept := [], signals := [], doneSignals := [], collide := none, gapCollide := [], clamp := none, fabricQ := [],
           asleep := false }

/-! ### Core memories (R220, R218) -/

/-- Bytes of part i of a core, of `unit` bytes each. -/
def State.partBytes (s : State) (img : Image) (c i unit : Nat) : List Byte :=
  let p := s.part img c i
  s.dramRead (img.addr + p.1) (unit * p.2)

/-- The endpaper memory of a core as the Binder fills it: the kernel image from 0, the Needle tables packed downward (R218). -/
def State.endpaperOf (s : State) (img : Image) (c : Nat) : Memory :=
  let put := fun (m : Memory) (p : Nat × List Byte) => Mem.write zeroByte m p.1 p.2
  let kernel := s.partBytes img c 7 1
  if img.direct then put [] (0, kernel)
  else
    [(tableStart s img c 0, s.partBytes img c 5 64), (tableStart s img c 1, s.partBytes img c 4 128),
     (tableStart s img c 2, s.partBytes img c 6 64), (tableStart s img c 3, s.partBytes img c 8 8),
     (tableStart s img c 4, s.partBytes img c 9 4)].foldl put (put [] (0, kernel))

/-- The three memories cleared to zero with valid ECC, and the endpaper memory filled (R220). -/
def State.clearCore (s : State) (img : Image) (c : CoreId) : State :=
  s.modCore c fun k => { k with quire := [], acc := [], endp := s.endpaperOf img c, ecc := [] }

/-! ### Guards and sites (R234, R237 to R239) -/

/-- A guard that could take a core's place: tested, or under test (R238). -/
def Site.usableGuard (x : Site) : Bool := (x.role == .guard && x.testOk) || x.role == .underTest

/-- GUARDS of R231. -/
def State.guards (s : State) : Nat := (allSites.filter fun i => (s.site i).usableGuard).length

/-- Eligible for a program with a transit bound (R234). -/
def Site.eligible (x : Site) (bound : Nat) : Bool :=
  (x.role == .service || x.usableGuard) && decide (x.transit.toNat ≤ bound)

/-- OFFERED of R231 by R237: the eligible sites, at most the 192 logical cores (its "or 192 if that is larger" reads as a cap, since
the field is 0 to 192; DEDUCED, log entry 22). -/
def State.offered (s : State) : Nat := min 192 (allSites.filter fun i => (s.site i).eligible 255).length

/-- The earliest tested guard, ties to the lower number; else the guard under test with the lowest number (R239). -/
def State.chooseGuard (s : State) (bound : Nat) : Option SiteId :=
  let ok := fun (i : SiteId) => decide ((s.site i).transit.toNat ≤ bound)
  let tested := allSites.filter fun i => (s.site i).role == .guard && (s.site i).testOk && ok i
  match tested with
  | i :: r => some (r.foldl (fun b i => if (s.site i).testedAt < (s.site b).testedAt then i else b) i)
  | [] => allSites.find? fun i => (s.site i).role == .underTest && ok i

/-- The memories of a site that a core leaves stay as the core left them (R211). -/
def Site.keep (x : Site) (k : Core) : Site := { x with quire := k.quire, acc := k.acc, endp := k.endp, ecc := k.ecc }

/-- The clear of a site that carries no core: zeros with valid ECC (R220). -/
def Site.cleared (x : Site) : Site := { x with quire := [], acc := [], endp := [], ecc := [] }

/-! ### The survey record's roles (R10, R231) -/

/-- The logical core that a site carries, if any. -/
def State.coreAt (s : State) (i : SiteId) : Option CoreId := allCores.find? fun (c : CoreId) => (s.core c).site == i

def roleCode : SiteRole → Nat
  | .service => 0 | .guard => 1 | .retired => 2 | .underTest => 3

/-- ROLE and LOGICAL of a site as they are now. -/
def State.carried (s : State) (i : SiteId) : Nat := if (s.site i).role = .service then (s.coreAt i).elim 0xFF (·.val) else 0xFF

/-- The record's entry of a site with its current ROLE and LOGICAL. -/
def State.showSite (s : State) (r : List Byte) (i : SiteId) : List Byte :=
  let e := leNat ((r.drop (256 + 4 * i.val)).take 4)
  leBytes 4 (roleCode (s.site i).role + 4 * fld e 2 6 + 2 ^ 8 * s.carried i + 2 ^ 16 * fld e 16 16)

/-- The survey record always shows the current assignment of roles and cores (R10). -/
def State.showRoles (s : State) : State :=
  if s.surveyRec.length ≠ 8192 then s
  else
    let r := s.surveyRec
    let b := r.take 256 ++ (allSites.map (s.showSite r)).flatten ++ ((r.drop 1056).take 7132)
    { s with surveyRec := b ++ leBytes 4 (crc32 b) }

/-- A logical core moves to a guard: its identity, counters and draw positions go with it, the memories there are cleared and filled
(R220, R239), those it leaves stay on its old site. -/
def State.moveCore (s : State) (img : Image) (c : CoreId) (g : SiteId) : State :=
  let s := s.modSite (s.core c).site (·.keep (s.core c))
  let s := s.modSite g fun x => { x.cleared with role := .service, served := 0, deepSleep := false }
  ((s.modCore c fun k => { k with site := g }).clearCore img c).showRoles

/-- An idle core at or above CORES whose site is eligible: no guard is left, and the load may fail only for want of eligible sites (R234;
DEDUCED, log entry 22). -/
def State.idleCore (s : State) (img : Image) : Option CoreId :=
  allCores.find? fun (d : CoreId) => decide (img.cores ≤ d.val) && (s.site (s.core d).site).eligible img.bounds.spineBound

/-- Two cores change places, each site keeping its role; the memories stay with the sites. -/
def State.swapCores (s : State) (c d : CoreId) : State :=
  let x := s.core c
  let y := s.core d
  let s := s.modCore c fun k => { k with site := y.site, quire := y.quire, acc := y.acc, endp := y.endp, ecc := y.ecc }
  (s.modCore d fun k => { k with site := x.site, quire := x.quire, acc := x.acc, endp := x.endp, ecc := x.ecc }).showRoles

/-- A site in service that carries no core: one that a core has left for its transit and that is eligible again. -/
def State.freeSite (s : State) (bound : Nat) : Option SiteId :=
  allSites.find? fun i => (s.site i).role == .service && (s.site i).eligible bound && (s.coreAt i).isNone

/-- The place of a core at a load (R234): at the first placement after power-up its home site, or the lowest eligible guard not yet
taken; later the site it has, or the guard of R239; with no guard left, a site in service that carries no core, or the site of an idle
core. -/
def State.placeCore (s : State) (img : Image) (c : CoreId) : State :=
  let b := img.bounds.spineBound
  let guard := fun (i : SiteId) => (s.site i).usableGuard && (s.site i).eligible b
  if (s.site (s.core c).site).eligible b then s
  else match (if s.prog.placed then s.chooseGuard b else allSites.find? guard).or (s.freeSite b) with
    | some g => s.moveCore img c g
    | none => match s.idleCore img with
      | some d => s.swapCores c d
      | none => s

/-- The cores of an image placed, in ascending order (R233, R234). -/
def State.placeCores (s : State) (img : Image) : State :=
  ((allCores.filter fun (c : CoreId) => decide (c.val < img.cores)).foldl (fun s c => s.placeCore img c) s).modProg fun p =>
    { p with placed := true }

/-! ### Whether a program can start here (R234 to R237, R257) -/

/-- Peers missing and time left; a refusal with status, detail and result; or the nodes that carry the peers' ranks. -/
inductive Admission
  | wait
  | refused (status detail result : Nat)
  | ready (ranks : List (BitVec 10 × BitVec 16))
  deriving DecidableEq, Repr

/-- LATENCY_UNPLACEABLE naming a bound, with the measured figure and the bound (R237); program-wide, so the core is 0xFF (R163). -/
def unplaceable (index measured bound : Nat) : Nat × Nat × Nat := (0x0112, 0xFF + 2 ^ 8 * index, measured + 2 ^ 32 * bound)

/-- Latency of a link: its own links as measured, the others as the fabric reports them (log entry 7). -/
def State.linkLatency (s : State) (own : List Nat) (l : Nat) : Nat :=
  match own.find? fun e => lLink e == l with
  | some e => (s.fab.links.getD (lLane e) Link.reset).latency.toNat
  | none => Config.remoteLatency l

/-- The forwarding maximum of each node between two consecutive links (R276, R293). -/
def forwarding : List Nat → Nat
  | a :: b :: r => (if Config.sameTile a b then 40 else 80) + forwarding (b :: r)
  | _ => 0

/-- Latency of a path: its links, and the forwarding maximum for each intermediate node (R293). -/
def State.pathLatency (s : State) (img : Image) (path : Nat) : Nat :=
  let own := (List.range (slotLinks (s.slotHeader img))).map (s.linkEntry img)
  let links := pathLinks (s.pathEntry img path)
  (links.map (s.linkLatency own)).sum + forwarding links

/-- The first slot entry to or from a peer whose primary or alternate path exceeds its bound: measured figure and bound (R236). -/
def State.overBound (s : State) (img : Image) (peer : BitVec 10 × BitVec 16 × BitVec 16) : Option (Nat × Nat) :=
  ((s.slotsUsed img).filter fun p => xPeer p.2 == peer.1.toNat).findSome? fun p =>
    let a := s.pathLatency img (xPath p.2)
    let b := s.pathLatency img (xAltPath p.2)
    if peer.2.1.toNat < a then some (a, peer.2.1.toNat) else if peer.2.2.toNat < b then some (b, peer.2.2.toNat) else none

/-- The index of a peer's entry in the latency-bound table. -/
def Image.peerIndex (img : Image) (rank : Nat) : Nat := img.bounds.peers.findIdx fun p => p.1.toNat == rank

/-- The first link entry whose lane does not lead to the node of its peer, in the own domain (R290, R291). -/
def State.badLink (s : State) (img : Image) (ranks : List (BitVec 10 × BitVec 16)) : Option Nat :=
  if img.slotOff = 0 then none
  else ((List.range (slotLinks (s.slotHeader img))).map (s.linkEntry img)).find? fun e =>
    match ranks.find? fun r => r.1.toNat == lPeer e with
    | some r => !s.leadsTo ⟨lLane e % 64, Nat.mod_lt _ (by decide)⟩ r.2.toNat (lPeerLane e)
        || nodeDomain r.2.toNat != nodeDomain s.fab.nodeId.toNat
    | none => true

/-- TRIM = SKEW_BUDGET − o, rounded to whole SCLK of 0.625 ns (R256), for an offset o. -/
def State.trimOf (s : State) (o : Int) : Int := (2 * (25 * (s.skewBudget : Int) - 4 * o) + 25) / 50
def State.trimFor (s : State) : Int := s.trimOf s.cad.offset

/-- The residual bound between two members exceeds 10 ns: 1 SCLK and 0.3 ns for each hop of both to the root (R257). -/
def State.skewTooWide (s : State) (nodes : List Nat) : Bool :=
  let hops := nodes.map fun n => (s.toRoot n).getD 0
  (hops.zipIdx).any fun a => (hops.zipIdx).any fun b => a.2 != b.2 && decide (10000 < 625 + 300 * (a.1 + b.1))

/-- The sites that could take a core but for the transit bound, and the largest transit among them. -/
def State.worstTransit (s : State) : Nat :=
  ((allSites.filter fun i => (s.site i).eligible 255).map fun i => (s.site i).transit.toNat).foldl max 0

/-- A device without a node ID of its own, or whose rank another node advertises, cannot carry the rank (R236, R237, R284). -/
def State.ownRank (s : State) (img : Image) : Option (Nat × Nat × Nat) :=
  let b := img.bounds
  if b.devices ≤ 1 then none
  else if s.fab.idSource = 2 then some (unplaceable 3 0 0)
  else if s.advertisers b.programId b.rank.toNat ≠ [] then some (unplaceable 3 0xFFFF_FFFE 0)
  else none

/-- The TRIM of some member would fall outside 0 to 4,095 (R257): the own one, those of neighbours, whose SYNC flits state their
offsets, and those of members farther off, whose figures no flit states: free values (log entry 33). -/
def State.trimOutside (s : State) (nodes : List Nat) : Bool :=
  let bad := fun (t : Int) => decide (t < 0) || decide (4095 < t)
  let near := fun (n : Nat) (l : LaneId) => (s.link l).open && (s.link l).partner.toNat == n
  bad s.trimFor || nodes.any fun n =>
    if allLanes.any (near n) then allLanes.any fun l => near n l && bad (s.trimOf (s.link l).peerOffset) else bad (Config.farTrim n)

/-- The checks of an activation. `waiting`: the peer wait has not ended. -/
def State.admission (s : State) (img : Image) (waiting : Bool) : Admission :=
  let fail := fun (x : Nat × Nat × Nat) => Admission.refused x.1 x.2.1 x.2.2
  let b := img.bounds
  let sites := (allSites.filter fun i => (s.site i).eligible b.spineBound).length
  if sites < img.cores then fail (unplaceable 0 s.worstTransit b.spineBound)
  else if b.devices ≤ 1 then .ready []
  else if (s.ownRank img).isSome then fail ((s.ownRank img).getD (0, 0, 0))
  else
    let claims := b.peers.map fun p => (p, s.advertisers b.programId p.1.toNat)
    if waiting ∧ claims.any fun x => x.2 == [] then .wait
    else
      let bad := (claims.zipIdx).findSome? fun x =>
        if x.1.2 = [] then some (unplaceable (16 + x.2) 0xFFFF_FFFF x.1.1.2.1.toNat)
        else if 2 ≤ x.1.2.length then some (unplaceable (16 + x.2) 0xFFFF_FFFE x.1.1.2.1.toNat)
        else none
      let ranks := claims.filterMap fun x => (x.2.head?).map fun n => (x.1.1, BitVec.ofNat 16 n)
      match bad with
      | some x => fail x
      | none =>
        match s.badLink img ranks with
        | some e => fail (unplaceable (16 + img.peerIndex (lPeer e)) 0 0)
        | none =>
          match (b.peers.zipIdx).findSome? fun p => (s.overBound img p.1).map fun m => unplaceable (16 + p.2) m.1 m.2 with
          | some x => fail x
          | none =>
            if s.trimOutside (ranks.map (·.2.toNat)) ∨ s.skewTooWide (s.fab.nodeId.toNat :: ranks.map (·.2.toNat)) then
              .refused 0x0113 0xFF 0
            else .ready ranks

/-! ### The start of a program (R131, R133, R160, R220) -/

/-- The recipe entries of an image, and its allowance (R119, R120). -/
def State.recipeOf (s : State) (img : Image) : List (BitVec 512) × Nat :=
  if img.direct then ([], 0)
  else
    let h := s.dramNat (img.addr + img.recipeOff) 64
    ((List.range (fld h 0 16)).map fun l => BitVec.ofNat 512 (s.dramNat (img.addr + img.recipeOff + 64 + 64 * l) 64), fld h 32 24)

/-- The steering state with which a program starts: the saved image, or the reset values (R133, R134). -/
def State.steerOf (s : State) (img : Image) (n : Nat) : List Steer :=
  if img.direct ∨ img.steerOff = 0 then List.replicate n Steer.reset
  else (List.range n).map fun l => Steer.ofBits (s.dramNat (img.addr + img.steerOff + 64 + 320 * l) 320)

/-- A core as a program starts on it: nothing issued, counters and draw positions 0, its prologue to run (R140, R151, R209). -/
def Core.begin (k : Core) (prologue : Bool) : Core :=
  let k := k.stand
  { k with kettle := Vector.replicate 256 0, satisfied := none, draws := Vector.replicate 16 0,
           drawsSaved := Vector.replicate 16 0,
           awl := { k.awl with pinned := ReadAhead.start (if prologue then .prologue else .done) },
           needle := { k.needle with sect := if prologue then .prologue else .done } }

def State.beginCore (s : State) (img : Image) (c : CoreId) : State :=
  if c.val < img.cores then
    (s.clearCore img c).modCore c fun k =>
      let k := k.begin (img.direct || decide ((s.part img c 0).2 ≠ 0))
      { k with awl := { k.awl with xlate := List.range img.pinnedPages }, needle := { k.needle with lastFrame := s.cad.frame } }
  else s.modCore c Core.stand

/-- The roles under which a kernel observes: those its quantising instructions name, up to its END (R93, R110). -/
def kernelRoles (word : Nat → Nat) : Nat → Nat → List Nat
  | 0, _ => []
  | fuel + 1, ip =>
    let r := word ip
    if iOp r = 1 then []
    else if iOp r = 0x40 ∨ iOp r = 0x41 ∨ iOp r = 0x42 then qRole r :: kernelRoles word fuel (ip + 1)
    else kernelRoles word fuel (ip + 1)

/-- The roles that a template observes (R109, R110). -/
def State.templateRoles (s : State) (c : CoreId) (t : Nat) : List Nat :=
  if tLayer t = 0xFFFF then []
  else if tKind t = 0 then
    let fused := match modeOf (tMode t) with
      | some .f8 => true | some .fb => true | some .fh => true | _ => false
    [tRoleS t, if fused then tRoleR t else 1, 2]
  else kernelRoles (fun i => (s.core c).readNat .endpaper (16 * i) 16) 4096 (tKernel t)

/-- A pair in its place of the ascending order. -/
def insertPair (p : Nat × BitVec 2) : List (Nat × BitVec 2) → List (Nat × BitVec 2)
  | [] => [p]
  | q :: r =>
    if p = q then q :: r
    else if p.1 < q.1 ∨ (p.1 = q.1 ∧ p.2.toNat < q.2.toNat) then p :: q :: r else q :: insertPair p r

/-- The (layer, role) pairs that a program observes, over all its templates (R116). -/
def State.observedPairs (s : State) (img : Image) : List (Nat × BitVec 2) :=
  if img.direct then []
  else
    (((allCores.filter fun (c : CoreId) => decide (c.val < img.cores)).map fun (c : CoreId) =>
      ((List.range (s.part img c 5).2).map fun i =>
        let t := s.template img c i
        (s.templateRoles c t).map fun r => (tLayer t, BitVec.ofNat 2 r)).flatten).flatten).foldl (fun l p => insertPair p l) []

/-- Every core of the image has a warm schedule (R139). -/
def State.hasWarm (s : State) (img : Image) : Bool :=
  !img.direct && (allCores.filter fun (c : CoreId) => decide (c.val < img.cores)).all fun (c : CoreId) => decide ((s.part img c 2).2 ≠ 0)

/-- The program becomes active (R160): its prologue runs from here. The number of cold steps is the largest W of the recipe that the
image brought; an update of the recipe does not change it (R131, R136: DESIGN CHOICE, log entry 61). -/
def State.startProgram (s : State) (img : Image) (h : Handle) (ranks : List (BitVec 10 × BitVec 16)) : State :=
  let r := s.recipeOf img
  let multi := decide (1 < img.bounds.devices)
  let s := allCores.foldl (fun s (c : CoreId) => s.beginCore img c) (s.placeCores img)
  let s := s.modProg fun p =>
    { Program.reset with
      active := some img, phase := .prologue, handle := some h, lastFrame := s.cad.frame,
      coldLeft := (r.1.map fun e => rW e.toNat).foldl max 0, hasWarm := s.hasWarm img, observed := s.observedPairs img,
      recipe := r.1, allowance := r.2, steer := s.steerOf img r.1.length, sinceRotation := p.sinceRotation, rotationSteps := p.rotationSteps,
      reserveLayout := p.reserveLayout, relocated := p.relocated, degraded := p.degraded, placed := true,
      paged := p.paged, stepWaiters := p.stepWaiters, formerStep := p.formerStep }
  let s := s.modCad fun c =>
    { c with trimmed := multi, trim := if multi then BitVec.ofInt 12 s.trimFor else 0,
             trimBasis := if multi then c.offset else 0, rootChanged := false, hold := false, resumeFrame := none,
             holdFrames := 0, votes := [], voted := false }
  let lanes := if img.slotOff = 0 then [] else (List.range (slotLinks (s.slotHeader img))).map fun i =>
    (⟨lLane (s.linkEntry img i) % 64, Nat.mod_lt _ (by decide)⟩ : LaneId)
  let s := s.modFab fun f =>
    { f with links := f.links.map fun l => { l with sched := true, overBound := false }, rankNode := ranks, openSlots := [],
             doneSlots := [], receiving := [], failedNow := [], failedEver := [], untimed := false, cover := false, lost := [],
             covering := [], unspread := lanes.dedup, mirrored := none, lagRaised := false }
  let s := s.modHost fun x => { x with kettleTable := [] }
  if multi then s.advertise else s

/-- An ACTIVATE that waits goes as far as it can while no program runs: it starts its program, is refused, or waits on for its peers
(R160, R236). A refusal leaves the image staged. -/
def State.tryActivate (s : State) : State :=
  match s.prog.activating, s.prog.staged with
  | some h, some img =>
    if s.prog.active.isSome then s
    else match s.admission img (decide (s.now < s.prog.peerWaitEnd)) with
      | .wait => s
      | .refused st d r => (s.complete h st d r).modProg fun p => { p with activating := none }
      | .ready ranks => s.startProgram img h ranks
  | _, _ => s

end Sys2Proof.Machine
end

