-- ==== Sys2Proof/Machine/Session.lean ====
section
/-!
DEFINITION. How a program ends (R153, R158, R326), and errors of the core memories (R223 to R226): the operations that many
meanings share.
-/

namespace Sys2Proof.Machine

/-- The last committed step as a RESULT (R323). -/
def State.lastStep (s : State) : Nat := (s.prog.committed.getD 0).toNat

/-- The highest satisfied kettle ID of the section with the count of its counter now, so that the pair is exact at the end of a drain
(R153, R189); 0 and 0 where no wait has passed. The highest is taken since the last release of a schedule, and after a boundary its
counter reads as cleared (DESIGN CHOICE, log entry 72). -/
def Core.kettlePair (k : Core) : BitVec 8 × BitVec 16 :=
  match k.satisfied with
  | some id => (id, k.kettle.get ⟨id.toNat, id.isLt⟩)
  | none => (0, 0)

/-- Kettle pairs of every core; cores at or above CORES report 0 and 0 (R326). -/
def State.kettlePairs (s : State) : List (BitVec 8 × BitVec 16) :=
  let n := (s.prog.active.elim 0 (·.cores))
  allCores.map fun c => if c.val < n then (s.core c).kettlePair else (0, 0)

/-- The RECORD of PROGRAM_ENDED for CANCELLED: the pairs of cores 0 to 7, each a 16-bit ID and a 16-bit count (R326). -/
def kettleRecord : List (BitVec 8 × BitVec 16) → Nat
  | [] => 0
  | p :: r => p.1.toNat + 2 ^ 16 * p.2.toNat + 2 ^ 32 * kettleRecord r

/-- Collation area of a direct program (R158): a 64-byte header with the number of records, then the records that fit in the
image. -/
def State.writeCollation (s : State) : State :=
  match s.prog.active with
  | none => s
  | some img =>
    if !img.direct ∨ img.recipeOff = 0 then s
    else
      let rs := collMergeAll (allCores.map fun c => (s.core c).coll)
      let room := (img.len - (img.recipeOff + 64)) / 512
      let rs := rs.take room
      s.dramWrite (img.addr + img.recipeOff)
        (leBytes 64 rs.length ++ (rs.map fun r => r.bytes 0 0).flatten)

/-- Running CANCEL commands whose target is a handle (R323). -/
def HostIf.cancelsOf (h : HostIf) (x : Handle) : List Handle :=
  (h.handles.zipIdx.filter fun p => p.1.phase == .running && p.1.begun && p.1.opcode.toNat == 0x13
    && fld p.1.body.toNat 0 32 == x.toNat).map fun p => mkHandle p.1.gen.toNat p.2

/-- Collisions of the elastic section, each against the step during whose gap they occurred (R217). -/
def State.raiseGaps (s : State) (c : CoreId) : State :=
  (s.core c).gapCollide.foldl (fun s x =>
    s.raiseStep 0x030A c.val [item c.val, item x.2.count, item x.2.row, item x.2.col] none (some x.1)) s

/-- Collisions and clamp limits of the step, once for each core (R107, R217). -/
def State.raiseCore (s : State) (c : CoreId) : State :=
  let k := s.core c
  let s := s.raiseGaps c
  let s := match k.collide with
    | some x => s.raiseStep 0x030A c.val [item c.val, item x.count, item x.row, item x.col]
    | none => s
  match k.clamp with
  | some (n, a) => s.raiseStep 0x0309 c.val [item c.val, item a, item n]
  | none => s

/-- The program ends with a status (R153, R325, R326): the collation area of a direct program is written, and what its one step has
to report is raised (R107, R158, R217), while the unfinished step of a streamed program reports no clamped blocks (R107 names no instant
for them: DESIGN CHOICE, log entry 62); PROGRAM_ENDED is raised for a status from 0x0201 with the kettle pairs when it is CANCELLED;
the program handle, waiting WAIT_STEP handles and an elastic handle complete; boundary commands that can no longer act complete; the
cores stand; the end of a multi-device program is advertised (R285); an ACTIVATE that waited for this end goes on. RESULT is the
last committed step where R326 states none. `more` are items of PROGRAM_ENDED after the status. -/
def State.endProgramWith (s : State) (status detail : Nat) (result : Option Nat) (more : List W32) : State :=
  match s.prog.active with
  | none => s
  | some img =>
    let h := s.prog.handle.getD 0
    let r := result.getD s.lastStep
    let s := if img.direct then allCores.foldl State.raiseCore s else s
    let s := s.writeCollation
    let pairs := s.kettlePairs
    let s := if 0x0201 ≤ status then
        s.raise 0x0311 noCore (item status :: more)
          (if status = 0x0201 then some (BitVec.ofNat 256 (kettleRecord (pairs.take 8))) else none)
      else s
    let s := if status = 0x0201 then s.modHost fun x => { x with kettleTable := pairs } else s
    let s := s.complete h status detail r
    let s := s.completeAll (s.host.cancelsOf h) 0 0 0
    let s := s.completeAll s.prog.stepWaiters status detail r
    let s := s.completeAll (s.prog.elasticHandle.toList ++ s.prog.elasticPending.toList) 0x0201 0 0
    let s := s.prog.boundaryCmds.foldl (fun s x =>
      match s.running? x.handle with
      | some e =>
        if e.opcode.toNat = 0x12 then (s.complete x.handle 0 0 0).modProg fun p => { p with staged := none }
        else s.complete x.handle 0x0004 0 0
      | none => s) s
    let s := s.mapCores Core.stand
    let s := s.modProg fun p =>
      { Program.reset with
        staged := p.staged, activating := p.activating, peerWaitEnd := p.peerWaitEnd, sinceRotation := p.sinceRotation,
        rotationSteps := p.rotationSteps, reserveLayout := p.reserveLayout, relocated := p.relocated, degraded := p.degraded,
        recovering := p.recovering, placed := p.placed, formerStep := p.committed.or p.formerStep }
    let s := s.modCad fun c => { c with hold := false, resumeFrame := none, holdFrames := 0, votes := [], voted := false }
    let s := s.modFab fun f =>
      { f with openSlots := [], doneSlots := [], receiving := [], failedNow := [], untimed := false, cover := false, covering := [], pairState := [],
               unspread := [], recover := [], rejoining := none, coverFrom := none }
    (if 1 < img.bounds.devices then s.advertise else s).takeShelf.tryActivate

def State.endProgram (s : State) (status detail : Nat) (result : Option Nat) : State := s.endProgramWith status detail result []

/-- A core stops; the other cores stop at their next word and the handle completes (R157, R195, R224). -/
def State.coreStopsWith (s : State) (c : CoreId) (status detail : Nat) (more : List W32) : State :=
  (s.modCore c fun k => { k with needle := { k.needle with stopped := true } }).endProgramWith status detail none more

def State.coreStops (s : State) (c : CoreId) (status detail : Nat) : State := s.coreStopsWith c status detail []

/-- Whether the active program is a direct one. -/
def State.direct (s : State) : Bool := s.prog.active.elim false (·.direct)

/-- A core fault (R18, R48, R224): recorded against the step, from the elastic section against the step that follows, whose handle it
ends; in direct mode the core stops with CORE_FAULT and the cause. -/
def State.coreFault (s : State) (c : CoreId) (cause : Nat) (record : Option (BitVec 256)) : State :=
  if s.direct then s.coreStops c 0x0206 cause
  else if (s.core c).needle.sect = .elastic then
    let s := s.modProg fun p => { p with elasticFault := p.elasticFault.or (some cause) }
    if s.prog.released then s.faultNext cause c.val record else s.fault cause c.val record
  else s.fault cause c.val record

/-! ### Errors of the core memories -/

/-- ECC word of each memory in bytes (R211). -/
def eccWord : CoreMem → Nat
  | .quire => 8
  | .acc => 4
  | .endpaper => 8
def memCode : CoreMem → Nat
  | .quire => 0
  | .acc => 1
  | .endpaper => 2

/-- The STEP of a record: the step in progress, or for the elastic section its run count (R186, R202, R225). -/
def State.stepFor (s : State) (elastic : Bool) : W64 :=
  if elastic then (0 : BitVec 32) ++ s.prog.elasticRuns else s.prog.step

/-- The STEP of a core's error record (R225). -/
def State.stepOf (s : State) (c : CoreId) : W64 := s.stepFor ((s.core c).needle.sect == .elastic)

/-- The record of R225. -/
def eccRecord (core site : Nat) (mem : CoreMem) (ue : Bool) (requester bit addr : Nat) (step cadence : W64) : BitVec 256 :=
  BitVec.ofNat 256 (core + 2 ^ 8 * site + 2 ^ 16 * memCode mem + (if ue then 2 ^ 18 else 0) + 2 ^ 20 * requester
    + 2 ^ 24 * (if ue then 0xFF else bit) + 2 ^ 32 * addr + 2 ^ 64 * step.toNat + 2 ^ 128 * cadence.toNat)

def Site.bumpCe (x : Site) : CoreMem → Site
  | .quire => { x with ceQuire := satInc32 x.ceQuire }
  | .acc => { x with ceAcc := satInc32 x.ceAcc }
  | .endpaper => { x with ceEndp := satInc32 x.ceEndp }

/-- A corrected error counted (R225, R226): logged at most 16 times per site and second; when 64 of one memory fall within
100,000,000 ticks CORE_MEM_CE_LIMIT is raised with the site and the memory, and the site is flagged. -/
def State.countCe (s : State) (i : SiteId) (mem : CoreMem) (rec : BitVec 256) : State :=
  let x := s.site i
  let times := (x.ceTimes.filter fun t => decide (s.now < t.2 + 100000000)) ++ [(mem, s.now)]
  let hit := decide (64 ≤ (times.filter (·.1 = mem)).length)
  let sec := s.now / 100000000
  let n := if x.ceLogged.1 = sec then x.ceLogged.2 else 0
  let s := s.modSite i fun x =>
    { x.bumpCe mem with
      ceTimes := if hit then times.filter (·.1 ≠ mem) else times, ceFlag := x.ceFlag || hit, ceLogged := (sec, n + 1) }
  let s := if n < 16 then s.logAs (Config.logSeverity 0x0509) 0x0509 false rec.toNat else s
  if hit then s.raiseDev 0x0401 [item i.val, item (memCode mem)] else s

/-- An uncorrectable error counted and logged (R225, R226). -/
def State.countUe (s : State) (i : SiteId) (rec : BitVec 256) : State :=
  (s.modSite i fun x => { x with ue := satInc32 x.ue }).logAs (Config.logSeverity 0x0509) 0x0509 false rec.toNat

/-- Detail of a core fault by memory (R224, R231): QUIRE_UE 2, ACC_UE 3, ENDPAPER_UE 4. -/
def ueCause : CoreMem → Nat
  | .quire => 2
  | .acc => 3
  | .endpaper => 4

/-- A read by an engine meets a word in error (R223, R224): a corrected word is counted and written back; an uncorrectable one is
counted and records a core fault, or in direct mode stops the core with CORE_FAULT. -/
def State.meetMark (s : State) (c : CoreId) (requester : Nat) (m : EccMark) : State :=
  let k := s.core c
  let rec' := fun (ue : Bool) (bit : Nat) =>
    eccRecord c.val k.site.val m.mem ue requester bit m.word (s.stepOf c) s.stamp
  match m.find with
  | .clean => s
  | .corrected b =>
    (s.modCore c fun k => { k with ecc := k.ecc.filter (· ≠ m) }).countCe k.site m.mem (rec' false b.toNat)
  | .uncorrectable =>
    let r := rec' true 0
    (s.countUe k.site r).coreFault c (ueCause m.mem) (some r)

/-- The marks that an access of `n` bytes at `a` meets. -/
def Core.marksIn (k : Core) (mem : CoreMem) (a n : Nat) : List EccMark :=
  k.ecc.filter fun m => m.mem == mem && decide (m.word < a + n) && decide (a < m.word + eccWord mem)

/-- The errors that an engine's read of a core memory meets. -/
def State.touch (s : State) (c : CoreId) (mem : CoreMem) (a n requester : Nat) : State :=
  ((s.core c).marksIn mem a n).foldl (fun s m => s.meetMark c requester m) s

/-- Writing a core memory: a word written whole loses its error (R224). -/
def Core.store (k : Core) (mem : CoreMem) (a : Nat) (bytes : List Byte) : Core :=
  let k := { k with ecc := k.ecc.filter fun m =>
    !(m.mem == mem && decide (a ≤ m.word) && decide (m.word + eccWord mem ≤ a + bytes.length)) }
  k.write mem a bytes

/-- The Needle's read of a table entry of the endpaper memory: the 256-byte accesses that hold it (R219, R223). -/
def State.touchTable (s : State) (img : Image) (c : CoreId) (k size i : Nat) : State :=
  let a := tableStart s img c.val k + size * i
  s.touch c .endpaper (a / 256 * 256) (256 * divCeil (a % 256 + size) 256) 4

/-! ### Claimed accumulator elements (R216, R217) -/

/-- Whether beat b claims its elements in cycle t: an accumulate beat from its cycle 19 to 24, an overwrite beat in cycle 24. -/
def Beat.claims (b : Beat) (t : Nat) : Bool :=
  decide ((if b.accumulate then b.cycle + 19 else b.cycle + 24) ≤ t) && decide (t ≤ b.cycle + 24)

/-- Columns that a pass-state set writes (R68, R72). -/
def Press.setCols (p : Press) (sel : Bool) : Nat := ((if sel then p.set1 else p.set0).elim 0 (·.cols.length))

def Core.claimed (k : Core) (t row col : Nat) : Bool :=
  k.press.beats.any fun b => b.accRow == row && decide (col < k.press.setCols b.passSel) && b.claims t

/-- One more dropped element; the first keeps its row and column (R217). -/
def Collide.add (x : Option Collide) (row col : Nat) : Option Collide :=
  match x with
  | none => some { count := 1, row := row, col := col }
  | some y => some { y with count := y.count + 1 }

/-- Bytes at rising addresses cut at the boundaries of words of `w` bytes. -/
def cutWords {α : Type} (w : Nat) : Nat → Nat → List α → List (Nat × List α)
  | 0, _, _ => []
  | _, _, [] => []
  | n + 1, a, bytes => let k := w - a % w; (a, bytes.take k) :: cutWords w n (a + k) (bytes.drop k)

/-- A dropped element is counted against the step, or for the elastic section against the step `gap` during whose gap it occurred
(R217). -/
def Core.dropElement (k : Core) (gap : Option W64) (row col : Nat) : Core :=
  match gap with
  | none => { k with collide := Collide.add k.collide row col }
  | some n =>
    if k.gapCollide.any (·.1 = n) then
      { k with gapCollide := k.gapCollide.map fun x => if x.1 = n then (n, { x.2 with count := x.2.count + 1 }) else x }
    else { k with gapCollide := k.gapCollide ++ [(n, { count := 1, row := row, col := col })] }

/-- The runs of bytes to be written, from bytes with gaps. -/
def byteRuns : Nat → List (Option Byte) → List (Nat × List Byte)
  | _, [] => []
  | a, none :: r => byteRuns (a + 1) r
  | a, some b :: r =>
    match byteRuns (a + 1) r with
    | (x, bs) :: rest => if x = a + 1 then (a, b :: bs) :: rest else (a, [b]) :: (x, bs) :: rest
    | [] => [(a, [b])]

/-- Bytes with gaps written, the gaps left as they are (R191). -/
def Core.storeRuns (k : Core) (mem : CoreMem) (a : Nat) (bytes : List (Option Byte)) : Core :=
  (byteRuns a bytes).foldl (fun k p => k.store mem p.1 p.2) k

/-- A Plough-port write of the accumulator in cycle t, element by element: a claimed element is dropped, and counted once whichever of
its bytes are written (R216). -/
def Core.storeAcc (k : Core) (gap : Option W64) (t a : Nat) (bytes : List (Option Byte)) : Core :=
  (cutWords 4 (bytes.length + 1) a bytes).foldl (fun k p =>
    if p.2.all (·.isNone) then k
    else if k.claimed t (p.1 / 512) (p.1 % 512 / 4) then k.dropElement gap (p.1 / 512) (p.1 % 512 / 4)
    else k.storeRuns .acc p.1 p.2) k

/-- A Plough write in any core memory. -/
def Core.ploughStore (k : Core) (gap : Option W64) (t : Nat) (mem : CoreMem) (a : Nat) (bytes : List (Option Byte)) : Core :=
  match mem with
  | .acc => k.storeAcc gap t a bytes
  | m => k.storeRuns m a bytes

/-- The step during whose gap an elastic kernel of the core runs: before the boundary of step n that step, after it n too (R217). -/
def State.gapOf (s : State) (c : CoreId) : Option W64 :=
  if ((s.core c).plough.queue.head?).elim false (·.elastic) then
    some (if s.prog.released ∨ s.prog.step = 0 then s.prog.step else s.prog.step - 1)
  else none

/-- First bytes of the ECC words that a write covers only in part: such a word is read first (R214). -/
def partialEnds (w a n : Nat) : List Nat :=
  (if a % w = 0 then [] else [a])
    ++ (if (a + n) % w = 0 ∨ ((a + n) / w = a / w ∧ a % w ≠ 0) then [] else [a + n])

/-- The reads of a write in part meet errors of their words. -/
def State.touchPartial (s : State) (c : CoreId) (mem : CoreMem) (a n requester : Nat) : State :=
  (partialEnds (eccWord mem) a n).foldl (fun s x => s.touch c mem x 1 requester) s

/-- A write by the Plough of bytes in a core memory (R213 to R216). -/
def State.storeCore (s : State) (c : CoreId) (t : Nat) (mem : CoreMem) (a : Nat) (bytes : List (Option Byte)) (requester : Nat) :
    State :=
  ((byteRuns a bytes).foldl (fun s p => s.touchPartial c mem p.1 p.2.length requester) s).modCore c fun k => k.ploughStore (s.gapOf c) t mem a bytes

end Sys2Proof.Machine
end

