-- ==== Sys2Proof/Machine/Flags.lean ====
section
/-!
DEFINITION. The conditions the Plough computes: a branch on a scalar (R194, R196), comparisons of lanes into a mask (R196).
-/

namespace Sys2Proof.Machine

/-- Condition of BRF: S[SREG], as a signed 64-bit integer, compared with 0 (R196). -/
def branchTaken (fmt : Nat) (x : Nat) : Bool :=
  let i := sext x 64
  if fmt = 0 then decide (i = 0) else if fmt = 1 then decide (i ≠ 0) else if fmt = 2 then decide (i < 0) else decide (0 ≤ i)

/-- Condition of VCMP on two binary32 lanes: 0 equal, 1 less, 2 less or equal, 3 unordered (R196). -/
def laneTest (fmt : Nat) (a b : Nat) : Bool :=
  let x := fB32.decode a
  let y := fB32.decode b
  let unordered := x == .nan || y == .nan
  if fmt = 0 then eqNum x y else if fmt = 1 then ltNum x y else if fmt = 2 then ltNum x y || eqNum x y else unordered

/-- Bits of a lane predicate. -/
def maskBits (f : Nat → Bool) : Nat → Nat
  | 0 => 0
  | n + 1 => maskBits f n + if f n then 2 ^ n else 0

/-- M[VD] after VCMP: lanes the instruction acts on take the test, the others keep their bit (R191, R196). -/
def compareMask (mask old : Nat) (test : Nat → Bool) : Nat :=
  maskBits (fun l => if bitOf mask l then test l else bitOf old l) 64

end Sys2Proof.Machine
end

