-- ==== Sys2Proof/Machine/Vector.lean ====
section
/-!
DEFINITION. Lane arithmetic of the Plough: pair form (R190, R197), reductions (R198), exponential and logarithm (R204, R205),
log-sum-exp (R206), random draws (R207, R208).
-/

namespace Sys2Proof.Machine

/-! ### Lanes (R190, R197) -/

/-- A function of one, two or three elements in every lane, or in both halves of every lane in pair form. -/
def lane1 (pair : Bool) (f32 f16 : Nat → Nat) (a : Nat) : Nat :=
  if pair then f16 (a % 65536) + 65536 * f16 (a / 65536 % 65536) else f32 a
def lane2 (pair : Bool) (f32 f16 : Nat → Nat → Nat) (a b : Nat) : Nat :=
  if pair then f16 (a % 65536) (b % 65536) + 65536 * f16 (a / 65536 % 65536) (b / 65536 % 65536) else f32 a b
def lane3 (pair : Bool) (f32 f16 : Nat → Nat → Nat → Nat) (a b c : Nat) : Nat :=
  if pair then
    f16 (a % 65536) (b % 65536) (c % 65536)
      + 65536 * f16 (a / 65536 % 65536) (b / 65536 % 65536) (c / 65536 % 65536)
  else f32 a b c

/-! ### Reductions (R198) -/

/-- One level of the tree. -/
def pairUp (op : Nat → Nat → Nat) : List Nat → List Nat
  | a :: b :: r => op a b :: pairUp op r
  | xs => xs

/-- Six levels over 64 lanes, always in the same order. -/
def treeOf (op : Nat → Nat → Nat) (xs : List Nat) : Nat :=
  (pairUp op (pairUp op (pairUp op (pairUp op (pairUp op (pairUp op xs)))))).headD 0

/-- The lanes with masked-off ones replaced. -/
def maskedLanes (mask : Nat) (v : Lanes) (neutral : Nat) : List Nat :=
  (List.range 64).map fun l => if bitOf mask l then laneOf v l else neutral

/-- +∞ and −∞ of binary32. -/
def posInf : Nat := 0x7F80_0000
def negInf : Nat := 0xFF80_0000

/-! ### Exponential and logarithm (R204, R205) -/

/-- Table entry with its difference to the next, rounded (R204, R206). -/
def tableAt (t : List Nat) (i : Nat) : Nat × Nat := (t.getD i 0, fB32.sub (t.getD (i + 1) 0) (t.getD i 0))

/-- round(fma(f, D[i], T[i])) for f = num / 2^sh. -/
def interpolate (t : List Nat) (i num sh : Nat) : Nat :=
  let e := tableAt t i
  fB32.addNum ((Num.fin false num (-(sh : Int))).mul (fB32.decode e.2)) (fB32.decode e.1)

def vexp2 (x : Nat) : Nat :=
  match fB32.decode x with
  | .nan => nan32
  | .inf neg => if neg then 0 else posInf
  | .fin neg m e =>
    if !neg && decide (0x4300_0000 ≤ x % 2 ^ 31) then posInf
    else if neg && decide (0x4316_0000 < x % 2 ^ 31) then 0
    else
      let k := (-e).toNat
      let sm := signed neg (m * 2 ^ e.toNat)
      let n := sm / 2 ^ k
      let g := (sm % 2 ^ k).toNat
      let y := interpolate tableE (256 * g / 2 ^ k) (256 * g % 2 ^ k) k
      fB32.ofNum ((fB32.decode y).mul (.fin false 1 n))

def vlog2 (x : Nat) : Nat :=
  match fB32.decode x with
  | .nan => nan32
  | .inf neg => if neg then nan32 else posInf
  | .fin neg m e =>
    if m = 0 then negInf
    else if neg then nan32
    else
      let k := bitLen m - 1
      let g := m - 2 ^ k
      let y := interpolate tableG (256 * g / 2 ^ k) (256 * g % 2 ^ k) k
      let n : Int := k + e
      fB32.addNum (.fin (decide (n < 0)) n.natAbs 0) (fB32.decode y)

/-- log2 e and ln 2 as binary32 (R205). -/
def vexp (x : Nat) : Nat := vexp2 (fB32.mul x 0x3FB8_AA3B)
def vlog (x : Nat) : Nat := fB32.mul (vlog2 x) 0x3F31_7218

/-! ### Log-sum-exp (R206) -/

def lse (a b : Nat) : Nat :=
  if fB32.isNan a || fB32.isNan b then nan32
  else if a = posInf ∨ b = posInf then posInf
  else if a = negInf then b
  else if b = negInf then a
  else
    let hi := fB32.maxOf a b
    let d := fB32.absOf (fB32.sub a b)
    if 0x4180_0000 ≤ d then hi
    else
      match fB32.decode d with
      | .fin _ m e =>
        let k := (-e).toNat
        let g := 16 * m * 2 ^ e.toNat
        fB32.addNum (fB32.decode hi) (fB32.decode (interpolate tableF (g / 2 ^ k) (g % 2 ^ k) k))
      | _ => hi

/-! ### Random bits (R207, R208) -/

def mix (x : Nat) : Nat :=
  let x := Nat.xor x (x / 2 ^ 32)
  let x := x * 0xD6E8_FEB8_6659_FD93 % 2 ^ 64
  let x := Nat.xor x (x / 2 ^ 29)
  let x := x * 0xA3B1_95E9_2C5F_0D47 % 2 ^ 64
  Nat.xor x (x / 2 ^ 32)

/-- Key of a stream from SEED, the logical device rank, the logical core and the stream (R207). -/
def streamKey (seed rank core stream : Nat) : Nat :=
  mix ((seed + mix (rank * 2 ^ 16 + core * 2 ^ 8 + stream)) % 2 ^ 64)

/-- Draw d of a stream (R208). -/
def drawAt (key d : Nat) : Nat := mix (Nat.xor key (mix (d / 4))) / 2 ^ (16 * (d % 4)) % 65536

/-- `n` consecutive draws of stream `st` of core `c` from its position (R208). -/
def State.drawList (s : State) (c : CoreId) (st n : Nat) : List Nat :=
  match s.prog.active with
  | none => []
  | some img =>
    let key := streamKey img.seed.toNat img.bounds.rank.toNat c.val st
    let pos := ((s.core c).draws.getD st 0).toNat
    (List.range n).map fun i => drawAt key ((pos + i) % 2 ^ 64)

def Core.advance (k : Core) (st n : Nat) : Core :=
  { k with draws := k.draws.setIfInBounds st (k.draws.getD st 0 + BitVec.ofNat 64 n) }

end Sys2Proof.Machine
end

