-- ==== Sys2Proof/Machine/Plough.lean ====
section
/-!
DEFINITION. The Plough (R190 to R210): kernels, their instructions, and how an invocation begins and ends.

Each command carries out the Plough's next instruction on one core when that instruction has the command's opcode (log entry 2).
-/

namespace Sys2Proof.Machine

def State.modPl (s : State) (c : CoreId) (f : Plough → Plough) : State :=
  s.modCore c fun k => { k with plough := f k.plough }

/-- The instruction is done and the next one stands after it. -/
def Plough.go (p : Plough) : Plough := { p with ip := p.ip + 1 }

/-- PLOUGH_FAULT (R195, R326): the core stops and the handle completes with the core and the instruction index. R326 gives the address
of R195's detail no place: PROGRAM_ENDED carries it in ITEM1 and ITEM2, 0 where the condition has none (DESIGN CHOICE, log
entry 59). -/
def State.ploughFault (s : State) (c : CoreId) (addr : Nat := 0) : State :=
  s.coreStopsWith c 0x0205 (c.val + 2 ^ 8 * ((s.core c).plough.ip % 4096)) (item2 addr)

/-- The layer of the kernel that runs (R158, R193). -/
def Plough.layer (p : Plough) : Nat := (p.queue.head?).elim 0xFFFF (·.layer)

/-! ### Invocations (R193) -/

/-- The template of iteration n of a template's nest: its PEEL template where a level of policy PEEL has a remainder there (R146).
A Plough template's K step is not stated, so only N and M levels count for it. -/
def tailTemplate (tpl : Nat → Nat) (t d n : Nat) : Nat :=
  let short := fun (dim ext step : Nat) =>
    let x := dimIndex d dim n
    x.2.2 == 2 && decide (ext - x.1 * step < step)
  let kStep := (modeOf (tMode t)).elim 0 Mode.kPerPass
  if short 1 (tKExt t) kStep || short 2 (tNExt t) 128 || short 3 (tMExt t) (tMBlock t) then tpl (tPeel t) else t

def State.tailTemplate (s : State) (img : Image) (c : CoreId) (t d n : Nat) : Nat :=
  Machine.tailTemplate (s.template img c) t d n

/-- An invocation begins: registers as R190, P0 to P3 the four operand addresses in bytes, the first instruction KERNEL (R193). -/
def Plough.start (p : Plough) (kernel : Nat) (p0 p1 p2 p3 : Int) : Plough :=
  { Plough.reset with
    p := Vector.ofFn fun i : Fin 8 =>
      BitVec.ofInt 64 (if i.val = 0 then p0 else if i.val = 1 then p1 else if i.val = 2 then p2 else if i.val = 3 then p3 else 0),
    ip := kernel, running := true, direct := p.direct, accSlot := p.accSlot, queue := p.queue }

/-- The first queued job's next invocation begins when none runs (R193). -/
def State.ploughNext (s : State) (c : CoreId) : State :=
  let p := (s.core c).plough
  match p.queue, s.prog.active with
  | j :: _, some img =>
    if p.running then s
    else
      let t := s.template img c j.template
      let d := s.descriptor img c (tDesc t)
      let u := s.tailTemplate img c t d j.next
      s.modPl c fun p => p.start (tKernel u) (tActAddr t + nestOffset d 0 j.next) (nestOffset d 1 j.next)
        (512 * tAccRow t + nestOffset d 2 j.next) (tAux t + nestOffset d 3 j.next)
  | _, _ => s

/-- Between invocations, jobs of the step come before those of the elastic section (R141; DESIGN CHOICE of log entry 14). -/
def pinnedFirst (q : List PloughJob) : List PloughJob := q.filter (!·.elastic) ++ q.filter (·.elastic)

/-- An invocation ends at END (R193): the job's next one begins, or the job is done; then its DONE_ID is on its way (R147) and the
next job begins. In direct mode DT_PLOUGH made one invocation. -/
def State.ploughEndInvocation (s : State) (c : CoreId) : State :=
  let p := (s.core c).plough
  match p.queue with
  | [] => s.modPl c fun p => { p with running := false }
  | j :: rest =>
    if j.next + 1 < j.total then
      (s.modPl c fun p => { p with running := false, queue := pinnedFirst ({ j with next := j.next + 1 } :: rest) }).ploughNext c
    else
      let t := match s.prog.active with
        | some img => if p.direct then 0 else s.template img c j.template
        | none => 0
      let s := s.modCore c fun k =>
        { k with plough := { k.plough with running := false, queue := pinnedFirst rest },
                 doneSignals := if tDoneEn t then
                   k.doneSignals ++ [{ target := c, id := BitVec.ofNat 8 (tDoneId t), incr := 1, scope := 0, awaits := [], elastic := j.elastic }]
                   else k.doneSignals }
      s.ploughNext c

/-! ### The driver -/

/-- The fetch buffer holds the line of the next instruction, read from the endpaper memory where it held another (R193, R219). It is
empty as an invocation begins (DESIGN CHOICE, log entry 72). -/
def State.fetchLine (s : State) (c : CoreId) : State :=
  let n := (s.core c).plough.ip / 16
  if (s.core c).plough.line.any (·.1 == n) then s
  else (s.touch c .endpaper (256 * n) 256 2).modPl c fun p =>
    { p with line := some (n, BitVec.ofNat 2048 ((s.core c).readNat .endpaper (256 * n) 256)) }

/-- The next instruction, from the fetch buffer. -/
def Plough.instr (p : Plough) : Nat := p.line.elim 0 fun x => fld x.2.toNat (128 * (p.ip % 16)) 128

/-- The word of the next instruction has an uncorrectable error. -/
def Core.brokenInstr (k : Core) : Bool := (k.marksIn .endpaper (16 * k.plough.ip) 16).any (·.find == .uncorrectable)

/-- One instruction of a running kernel while ACLK runs: fetched from endpaper memory, refused as R195 states where R194 would refuse
it, and carried out by `f` when its opcode is the command's. A halted kernel waits for its resume (R202). The step that an
uncorrectable error of the kernel has failed is discarded (R224): an instruction that such an error has made illegal ends the invocation
there (DESIGN CHOICE, log entry 50). -/
def ploughDo (c : CoreId) (op : Nat) (f : Nat → State → State) (s : State) : Host.Outcome State Fault Refusal :=
  let p := (s.core c).plough
  if !p.running ∨ p.halted ∨ s.prog.active = none ∨ !s.aclkRuns then .next s
  else if 4096 ≤ p.ip then .next (s.ploughFault c)
  else
    let t := s.fetchLine c
    let r := (t.core c).plough.instr
    let legal := instrOk r (p.layer == 0xFFFF)
    if legal ∧ iOp r ≠ op then .next s
    else if t.prog.active = none then .next t
    else if legal then .next (f r t)
    else if !p.direct ∧ (t.core c).brokenInstr then .next (t.ploughEndInvocation c)
    else .next (t.ploughFault c)

/-- An instruction on registers alone. -/
def ploughRegs (c : CoreId) (op : Nat) (f : Nat → Plough → Plough) (s : State) : Host.Outcome State Fault Refusal :=
  ploughDo c op (fun r s => s.modPl c fun p => (f r p).go) s

/-! ### Control (R194, R196) -/

def execPloughNop (c : CoreId) (s : State) : Host.Outcome State Fault Refusal := ploughRegs c 0x00 (fun _ p => p) s

/-- END (R193). -/
def execPloughEnd (c : CoreId) (s : State) : Host.Outcome State Fault Refusal :=
  ploughDo c 0x01 (fun _ s => s.ploughEndInvocation c) s

/-- LOOP (R194): a fifth nested loop is a PLOUGH_FAULT (R195). -/
def execPloughLoop (c : CoreId) (s : State) : Host.Outcome State Fault Refusal :=
  ploughDo c 0x02 (fun r s =>
    if 4 ≤ (s.core c).plough.loops.length then s.ploughFault c
    else s.modPl c fun p => { p with loops := { start := p.ip + 1, left := iImm r - 1 } :: p.loops }.go) s

/-- ENDLOOP (R194): with no loop open it is a PLOUGH_FAULT (R195). -/
def execPloughEndLoop (c : CoreId) (s : State) : Host.Outcome State Fault Refusal :=
  ploughDo c 0x03 (fun _ s =>
    match (s.core c).plough.loops with
    | [] => s.ploughFault c
    | l :: rest =>
      s.modPl c fun p =>
        if l.left = 0 then { p with loops := rest }.go
        else { p with loops := { l with left := l.left - 1 } :: rest, ip := l.start }) s

/-- BRF (R194, R195): in direct mode a branch that leaves its loop, enters one or passes instruction 4,095 is a PLOUGH_FAULT. -/
def execBrf (c : CoreId) (s : State) : Host.Outcome State Fault Refusal :=
  ploughDo c 0x04 (fun r s =>
    let p := (s.core c).plough
    let op := fun k => (s.core c).readNat .endpaper (16 * k) 1
    if p.direct ∧ (4095 < p.ip + 1 + iImm r ∨ !branchOk op (iImm r) (p.ip + 1) 0) then s.ploughFault c
    else s.modPl c fun p =>
      if branchTaken (iFmt r) (p.sreg (iSreg r)) then { p with ip := p.ip + 1 + iImm r } else p.go) s

/-! ### Scalars and pointers (R196) -/

def execSli (c : CoreId) (s : State) : Host.Outcome State Fault Refusal :=
  ploughRegs c 0x08 (fun r p => p.setS (fld r 8 4) (BitVec.ofInt 64 (iImmS r)).toNat) s

def execSadd (c : CoreId) (s : State) : Host.Outcome State Fault Refusal :=
  ploughRegs c 0x09 (fun r p => p.setS (fld r 8 4) (p.sreg (fld r 13 4) + p.sreg (fld r 18 4))) s

def execSshl (c : CoreId) (s : State) : Host.Outcome State Fault Refusal :=
  ploughRegs c 0x0A (fun r p => p.setS (fld r 8 4) (p.sreg (fld r 13 4) * 2 ^ fld r 64 6)) s

def execPset (c : CoreId) (s : State) : Host.Outcome State Fault Refusal :=
  ploughRegs c 0x0B (fun r p => p.setP (iPtr r) (p.sreg (iSreg r))) s

def execPadd (c : CoreId) (s : State) : Host.Outcome State Fault Refusal :=
  ploughRegs c 0x0C (fun r p => p.setP (iPtr r) (p.addr r)) s

/-! ### Loads and stores (R195, R196, R213 to R219) -/

/-- A read of a core memory by the kernel: a PLOUGH_FAULT where R195 refuses it; errors of the words read are met (R223); the
kernel goes on with `f` unless the core has stopped. -/
def State.ploughLoad (s : State) (c : CoreId) (space a n : Nat) (vector : Bool) (f : List Byte → State → State) : State :=
  if !s.ploughAccess c space a n false vector then s.ploughFault c a
  else
    let t := s.touch c (spaceMem space) a n 2
    if t.prog.active = none then t else f ((s.core c).read (spaceMem space) a n) t

/-- Bytes of `n` elements of `w` bytes each as numbers. -/
def elems (w : Nat) : Nat → List Byte → List Nat
  | 0, _ => []
  | n + 1, bs => leNat (bs.take w) :: elems w n (bs.drop w)

/-- VLD (R196): elements widened exactly to binary32, or raw pairs. -/
def execVld (c : CoreId) (s : State) : Host.Outcome State Fault Refusal :=
  ploughDo c 0x10 (fun r s =>
    let fmt := (fmtOf (iFmt r)).getD .b32
    let w := if iPair r then 4 else fmt.bytes
    s.ploughLoad c (iSpace r) ((s.core c).plough.addr r) (64 * w) true fun bs s =>
      let xs := elems w 64 bs
      s.modPl c fun p => (p.setV r fun l => if iPair r then xs.getD l 0 else fmt.widen (xs.getD l 0)).go) s

/-- A write of a core memory by the kernel at cycle t of the accesses, gaps left as they are (R191, R195). -/
def State.ploughPut (s : State) (c : CoreId) (t space a : Nat) (vector : Bool) (bytes : List (Option Byte))
    (f : State → State) : State :=
  if !s.ploughAccess c space a bytes.length true vector then s.ploughFault c a
  else
    let u := s.storeCore c t (spaceMem space) a bytes 2
    if u.prog.active = none then u else f u

/-- Bytes of a lane array, masked lanes as gaps (R191). -/
def laneBytes (mask w : Nat) (x : Nat → Nat) : List (Option Byte) :=
  ((List.range 64).map fun l =>
    if bitOf mask l then (leBytes w (x l)).map some else List.replicate w none).flatten

/-- VST (R196). -/
def execVst (c : CoreId) (cycle : Nat) (s : State) : Host.Outcome State Fault Refusal :=
  ploughDo c 0x11 (fun r s =>
    let p := (s.core c).plough
    s.ploughPut c cycle (iSpace r) (p.addr r) true (laneBytes (p.mreg (iMask r)) 4 (laneOf (p.vr (iVA r))))
      fun s => s.modPl c Plough.go) s

/-- Whether a device-memory range touches a poisoned unit (R244). -/
def State.poisoned (s : State) (a n : Nat) : Bool := s.poison.any fun u => decide (256 * u < a + n) && decide (a < 256 * u + 256)

/-- SLD (R196): of 9 to 16 bytes the low 8 are kept. What a scalar read of poisoned device memory returns is not stated: a free
value (log entry 7). -/
def execSld (c : CoreId) (s : State) : Host.Outcome State Fault Refusal :=
  ploughDo c 0x14 (fun r s =>
    let n := fld r 64 4 + 1
    let a := (s.core c).plough.preg (iPtr r)
    if iSpace r = 3 then
      if !s.ploughAccess c 3 a n false false then s.ploughFault c a
      else if s.poisoned a n then (s.modPl c fun p => (p.setS (iSreg r) (s.free 0).toNat).go).bump
      else s.modPl c fun p => (p.setS (iSreg r) (s.dramNat a n)).go
    else s.ploughLoad c (iSpace r) a n false fun bs s => s.modPl c fun p => (p.setS (iSreg r) (leNat bs)).go) s

/-- SST (R196): beyond 8 bytes the register is zero-extended. -/
def execSst (c : CoreId) (cycle : Nat) (s : State) : Host.Outcome State Fault Refusal :=
  ploughDo c 0x15 (fun r s =>
    let n := fld r 64 4 + 1
    let p := (s.core c).plough
    let a := p.preg (iPtr r)
    let bs := leBytes n (p.sreg (iSreg r))
    if iSpace r = 3 then
      if !s.ploughAccess c 3 a n true false then s.ploughFault c a else (s.dramStore a bs).modPl c Plough.go
    else s.ploughPut c cycle (iSpace r) a false (bs.map some) fun s => s.modPl c Plough.go) s

/-! ### Lane arithmetic (R197) -/

def lanes1 (f32 f16 : Nat → Nat) (r : Nat) (p : Plough) : Plough :=
  p.setV r fun l => lane1 (iPair r) f32 f16 (laneOf (p.vr (iVA r)) l)
def lanes2 (f32 f16 : Nat → Nat → Nat) (r : Nat) (p : Plough) : Plough :=
  p.setV r fun l => lane2 (iPair r) f32 f16 (laneOf (p.vr (iVA r)) l) (laneOf (p.vr (iVB r)) l)

def execVadd (c : CoreId) (s : State) : Host.Outcome State Fault Refusal := ploughRegs c 0x20 (lanes2 fB32.add fBF16.add) s
def execVsub (c : CoreId) (s : State) : Host.Outcome State Fault Refusal := ploughRegs c 0x21 (lanes2 fB32.sub fBF16.sub) s
def execVmul (c : CoreId) (s : State) : Host.Outcome State Fault Refusal := ploughRegs c 0x22 (lanes2 fB32.mul fBF16.mul) s

/-- VFMA (R197): one rounding after the exact product and sum. -/
def execVfma (c : CoreId) (s : State) : Host.Outcome State Fault Refusal :=
  ploughRegs c 0x23 (fun r p => p.setV r fun l =>
    lane3 (iPair r) fB32.fma fBF16.fma (laneOf (p.vr (iVA r)) l) (laneOf (p.vr (iVB r)) l) (laneOf (p.vr (iVC r)) l)) s

def execVmin (c : CoreId) (s : State) : Host.Outcome State Fault Refusal :=
  ploughRegs c 0x24 (lanes2 fB32.minOf fBF16.minOf) s
def execVmax (c : CoreId) (s : State) : Host.Outcome State Fault Refusal :=
  ploughRegs c 0x25 (lanes2 fB32.maxOf fBF16.maxOf) s
/-- VABS and VNEG change the sign bit of a NaN alone (R196: exact), where R94 has every NaN that is produced canonical (DESIGN CHOICE,
log entry 58). -/
def execVabs (c : CoreId) (s : State) : Host.Outcome State Fault Refusal :=
  ploughRegs c 0x26 (lanes1 fB32.absOf fBF16.absOf) s
def execVneg (c : CoreId) (s : State) : Host.Outcome State Fault Refusal :=
  ploughRegs c 0x27 (lanes1 fB32.negOf fBF16.negOf) s
def execVdiv (c : CoreId) (s : State) : Host.Outcome State Fault Refusal := ploughRegs c 0x28 (lanes2 fB32.div fB32.div) s
def execVsqrt (c : CoreId) (s : State) : Host.Outcome State Fault Refusal := ploughRegs c 0x29 (lanes1 fB32.sqrt fB32.sqrt) s

/-- VCMP (R196). -/
def execVcmp (c : CoreId) (s : State) : Host.Outcome State Fault Refusal :=
  ploughRegs c 0x2C (fun r p =>
    let i := fld r 8 3
    p.setM i (compareMask (p.mreg (iMask r)) (p.mreg i) fun l =>
      laneTest (iFmt r) (laneOf (p.vr (iVA r)) l) (laneOf (p.vr (iVB r)) l))) s

/-- VSEL (R196): VA where M[SREG] is 1, else VB. -/
def execVsel (c : CoreId) (s : State) : Host.Outcome State Fault Refusal :=
  ploughRegs c 0x2D (fun r p => p.setV r fun l =>
    if bitOf (p.mreg (iSreg r)) l then laneOf (p.vr (iVA r)) l else laneOf (p.vr (iVB r)) l) s

def execVbcast (c : CoreId) (s : State) : Host.Outcome State Fault Refusal :=
  ploughRegs c 0x2E (fun r p => p.setV r fun _ => p.sreg (iSreg r)) s

/-! ### Reductions (R198) -/

/-- A tree reduction with the value that masked-off lanes enter with. -/
def reduceWith (op : Nat → Nat → Nat) (neutral : Nat) (r : Nat) (p : Plough) : Plough :=
  p.setScalar r (treeOf op (maskedLanes (p.mreg (iMask r)) (p.vr (iVA r)) neutral))

def execVrsum (c : CoreId) (s : State) : Host.Outcome State Fault Refusal := ploughRegs c 0x30 (reduceWith fB32.add 0) s
def execVrmax (c : CoreId) (s : State) : Host.Outcome State Fault Refusal :=
  ploughRegs c 0x31 (reduceWith fB32.maxOf negInf) s

/-- VRAMAX (R196, R198): the largest magnitude among the non-zero finite lanes; masked-off lanes do not contribute. -/
def execVramax (c : CoreId) (s : State) : Host.Outcome State Fault Refusal :=
  ploughRegs c 0x32 (fun r p => p.setScalar r (amaxOf (maskedLanes (p.mreg (iMask r)) (p.vr (iVA r)) 0))) s

/-! ### Exponential, logarithm, log-sum-exp (R204 to R206) -/

def execVexp2 (c : CoreId) (s : State) : Host.Outcome State Fault Refusal := ploughRegs c 0x38 (lanes1 vexp2 vexp2) s
def execVlog2 (c : CoreId) (s : State) : Host.Outcome State Fault Refusal := ploughRegs c 0x39 (lanes1 vlog2 vlog2) s
def execVexp (c : CoreId) (s : State) : Host.Outcome State Fault Refusal := ploughRegs c 0x3A (lanes1 vexp vexp) s
def execVlog (c : CoreId) (s : State) : Host.Outcome State Fault Refusal := ploughRegs c 0x3B (lanes1 vlog vlog) s
def execVlse (c : CoreId) (s : State) : Host.Outcome State Fault Refusal := ploughRegs c 0x3C (lanes2 lse lse) s
def execVrlse (c : CoreId) (s : State) : Host.Outcome State Fault Refusal := ploughRegs c 0x3D (reduceWith lse negInf) s

/-! ### Quantisation (R199 to R201) -/

/-- Whether an instruction rounds stochastically: RND 2, or RND 0 with the SR bit of the layer's recipe entry (R120, R200). -/
def State.stochastic (s : State) (c : CoreId) (r : Nat) : Bool :=
  qRnd r == 2 || (qRnd r == 0 && rSr (s.prog.entry (s.core c).plough.layer))

/-- One draw for each of n elements, or none (R90, R208). -/
def State.roundDraws (s : State) (c : CoreId) (r n : Nat) : List (Option Nat) :=
  if s.stochastic c r then (s.drawList c (qStream r) n).map some else List.replicate n none

/-- Positions move on only where an instruction rounds stochastically; an X1 block of RND 0 under an SR bit of 1 takes its draws too, though
no element of it is rounded (R89, R90; DESIGN CHOICE, log entry 72). -/
def State.takeDraws (s : State) (c : CoreId) (r n : Nat) : State :=
  if s.stochastic c r then s.modCore c (·.advance (qStream r) n) else s

/-- The amax that a quantisation uses (R135, R199): of the ring of ROLE under delayed scaling, else of the block. -/
def State.scaleAmax (s : State) (c : CoreId) (r : Nat) (xs : List Nat) : Nat :=
  let layer := (s.core c).plough.layer
  let e := s.prog.entry layer
  match s.prog.steer[layer]? with
  | some st =>
    if qPol r = 0 ∧ !rPolicyJit e ∧ s.prog.warm ∧ rDepth e ≤ st.ringFill.toNat then st.amaxOf (qRole r) (rDepth e) else amaxOf xs
  | none => amaxOf xs

/-- QFOLIO and QWIRE (R199, R200, R92, R93, R110): the block from V[VA] onward is scaled, rounded, counted and written whole with
its CRC. An explicit scale with bit 15 or an exponent field of 255 is a PLOUGH_FAULT (R195). Where the explicit scale of a wire folio has a
mantissa field that is not 0, R199 takes SCALE directly and R83 has every scale that is written a power of two: the exponent of the
scale used is a free value (log entry 58). -/
def State.quantise (s : State) (c : CoreId) (cycle r code : Nat) (e5m2 : Bool) : State :=
  let p := (s.core c).plough
  let n := if qValid r = 0 then folioCount code else qValid r
  let xs := (List.range n).map fun i => laneOf (p.vr (iVA r + i / 64)) (i % 64)
  let sc := p.sreg (iSreg r) % 65536
  if qPol r = 2 ∧ (bitOf sc 15 ∨ fld sc 7 8 = 255) then s.ploughFault c (p.addr r)
  else
    let odd := code = 7 ∧ qPol r = 2 ∧ fld sc 0 7 ≠ 0
    let sc := if odd then 128 * ((s.free 0).toNat % 254 + 1) else sc
    let src := if qPol r = 2 then ScaleSource.explicit sc else .amax (s.scaleAmax c r xs) (qMargin r)
    let o := writeFolio code e5m2 src xs (s.roundDraws c r n)
    s.ploughPut c cycle (iSpace r) (p.addr r) true ((folioBytes o).map some) fun s =>
      ((s.takeDraws c r n).modCore c fun k =>
        k.observe s.prog.closed p.layer (qRole r) false (xs.map fB32.decode) o.flush o.sat).modPl c Plough.go
      |> fun s => if odd then s.bump else s

def execQfolio (c : CoreId) (cycle : Nat) (s : State) : Host.Outcome State Fault Refusal :=
  ploughDo c 0x40 (fun r s => s.quantise c cycle r (qCode r) false) s

def execQwire (c : CoreId) (cycle : Nat) (s : State) : Host.Outcome State Fault Refusal :=
  ploughDo c 0x41 (fun r s => s.quantise c cycle r 0x7 (qE5m2 r)) s

/-- QCVT (R201, R91): 64 lanes or 128 pair elements in a plain format; masked-off lanes are neither written nor observed, and
consume their draws (R191). -/
def execQcvt (c : CoreId) (cycle : Nat) (s : State) : Host.Outcome State Fault Refusal :=
  ploughDo c 0x42 (fun r s =>
    let p := (s.core c).plough
    let fmt := (fmtOf (iFmt r)).getD .int8
    let m := if iPair r then 2 else 1
    let v := p.vr (iVA r)
    let x := fun i => if iPair r then 65536 * (laneOf v (i / 2) / 65536 ^ (i % 2) % 65536) else laneOf v i
    let us := s.roundDraws c r (64 * m)
    let out := us.zipIdx.map fun u => (x u.2, narrow fmt (x u.2) u.1, bitOf (p.mreg (iMask r)) (u.2 / m))
    let kept := out.filter (·.2.2)
    let bytes := (out.map fun o =>
      if o.2.2 then (leBytes fmt.bytes o.2.1.1).map some else List.replicate fmt.bytes none).flatten
    let count := fun (k : Mark) => (kept.filter fun o => o.2.1.2 == k).length
    s.ploughPut c cycle (iSpace r) (p.addr r) true bytes fun s =>
      ((s.takeDraws c r (64 * m)).modCore c fun k =>
        k.observe s.prog.closed p.layer (qRole r) false (kept.map fun o => fB32.decode o.1) (count .flushed)
          (count .saturated)).modPl c Plough.go) s

/-! ### Wire folios, flags, Mull blocks (R202, R203) -/

/-- The halt record of R202. -/
def haltRecord (c template reason ip space a : Nat) (step : W64) : BitVec 256 :=
  BitVec.ofNat 256 (c + 2 ^ 8 * (template % 256) + 2 ^ 16 * reason + 2 ^ 32 * (ip % 4096) + 2 ^ 44 * space + 2 ^ 64 * a
    + 2 ^ 160 * step.toNat)

/-- A kernel halts at its instruction and DATA_CHECK is raised with the record; ITEM0 is 1 for a Plough record (R186, R202). -/
def State.ploughHalt (s : State) (c : CoreId) (reason space a : Nat) : State :=
  let p := (s.core c).plough
  let t := if p.direct then 0xFF else (p.queue.head?).elim 0xFF (·.template)
  let rec' := haltRecord c.val t reason p.ip space a (s.stepFor ((p.queue.head?).elim false (·.elastic)))
  (s.modPl c fun p => { p with halted := true, haltRec := rec' }).raiseStep 0x0301 c.val [1] (some rec')

/-- UNPACK (R202): a wire folio checked and unpacked; lanes 60 to 63 receive +0. -/
def execUnpack (c : CoreId) (s : State) : Host.Outcome State Fault Refusal :=
  ploughDo c 0x43 (fun r s =>
    let a := (s.core c).plough.addr r
    s.ploughLoad c (iSpace r) a 64 true fun bs s =>
      let x := leNat bs
      match folioCheck x (· == 7) with
      | some reason => s.ploughHalt c reason (iSpace r) a
      | none => s.modPl c fun p => (p.setV r fun l => if l < 60 then unpackWire x (qE5m2 r) l else 0).go) s

/-- TESTF (R202): the header word, zero-extended, unchecked. -/
def execTestf (c : CoreId) (s : State) : Host.Outcome State Fault Refusal :=
  ploughDo c 0x44 (fun r s =>
    s.ploughLoad c (iSpace r) ((s.core c).plough.addr r) 4 false fun bs s =>
      s.modPl c fun p => (p.setS (iSreg r) (leNat bs)).go) s

/-- A block that clamped more values than its limit (R107): the first one's address and the number in the step. A block of the prologue
counts to the first step, one of the elastic section to the next boundary of its core (DESIGN CHOICE, log entry 62). -/
def Core.countClamp (k : Core) (a : Nat) : Core :=
  { k with clamp := match k.clamp with
      | none => some (1, a)
      | some (n, b) => some (n + 1, b) }

/-- MREENC (R106, R107, R203): the old header is checked, the new values at S[SREG] are encoded against its table, and the block
is written in place. Of a block with a short tail only the bytes of its real positions are read. A tail field beyond 4,096, which R203 does
not exclude, stands for 4,096 (DESIGN CHOICES, log entry 72). -/
def execMreenc (c : CoreId) (s : State) : Host.Outcome State Fault Refusal :=
  ploughDo c 0x45 (fun r s =>
    let p := (s.core c).plough
    let kind := if iFmt r = 2 then MullKind.b else .h
    let a := p.addr r
    let n := if fld r 96 13 = 0 then 4096 else min (fld r 96 13) 4096
    s.ploughLoad c 0 a 128 true fun hd s =>
      match mullHeaderCheck kind (leNat hd) with
      | some reason => s.ploughHalt c reason 0 a
      | none => s.ploughLoad c 0 (p.sreg (iSreg r)) (2 * n) true fun bs s =>
        let (block, clamps) := mullEncode kind (leNat hd) (elems 2 n bs)
        s.ploughPut c 0 0 a true ((leBytes kind.size block).map some) fun s =>
          (if fld r 109 13 < clamps then s.modCore c (·.countClamp a) else s).modPl c Plough.go) s

/-! ### Random lanes (R208) -/

/-- VRAND: 128 draws; lane l takes draws 2l and 2l + 1, as raw bits or as a value in [0, 1). -/
def execVrand (c : CoreId) (s : State) : Host.Outcome State Fault Refusal :=
  ploughDo c 0x48 (fun r s =>
    let ds := s.drawList c (qStream r) 128
    let u := fun l => ds.getD (2 * l + 1) 0 * 65536 + ds.getD (2 * l) 0
    (s.modPl c fun p =>
      (p.setV r fun l => if iFmt r = 6 then fB32.roundRat false (u l / 256) 1 (-24) else u l).go).modCore c
        (·.advance (qStream r) 128)) s

end Sys2Proof.Machine
end

