-- ==== Sys2Proof/Machine/Streams.lean ====
section
/-!
DEFINITION. Streams (R167 to R170, R181, R186): stream-table entries, block lists, the byte space of a stream, translation, and
halting.

The byte space of a plain or folio stream is the bytes of its blocks. A Mull stream is fetched in that space, block by block, and
landed in the space of its expanded values, 8,192 bytes for each Mull block (R95, R102, R149; log entry 20).
-/

namespace Sys2Proof.Machine

/-! ### Fields (R167, R168) -/

def sKind (e : Nat) : Nat := fld e 0 3
def sWrite (e : Nat) : Bool := bitOf e 3
def sPaged (e : Nat) : Bool := bitOf e 4
def sMulticast (e : Nat) : Bool := bitOf e 5
def sDest (e : Nat) : Nat := fld e 6 2
def sGroup (e : Nat) : Nat := fld e 8 6
def sSignalEach (e : Nat) : Bool := bitOf e 14
def sDeliverEn (e : Nat) : Bool := bitOf e 15
def sDeliverId (e : Nat) : Nat := fld e 16 8
def sListCount (e : Nat) : Nat := fld e 32 24
def sListAddr (e : Nat) : Nat := fld e 64 52
def sWindowBase (e : Nat) : Nat := fld e 128 23
def sWindowLen (e : Nat) : Nat := fld e 152 23
def sAccBase (e : Nat) : Nat := fld e 176 12

def bAddr (b : Nat) : Nat := fld b 0 52
def bLen (b : Nat) : Nat := 64 * fld b 64 24

/-- The Mull kind of a stream (R167). -/
def sMull (e : Nat) : Option MullKind := if sKind e = 2 then some .b else if sKind e = 3 then some .h else none

/-- A shadow stream: read by the shadow loads of RUN words (R170). -/
def sShadow (e : Nat) : Bool := sDest e == 1 && !sWrite e

/-- Length of a block in the space where the stream lands (R95, R102). -/
def landLen (e len : Nat) : Nat :=
  match sMull e with
  | some k => len / k.size * 8192
  | none => len

/-! ### Mapped memory (R181) -/

/-- The 2 MiB pages that a range touches. -/
def pagesOf (a n : Nat) : List Nat := (List.range (divCeil (a % unitBytes + n) unitBytes)).map fun i => a / unitBytes + i

def State.pageDeclared (s : State) (p : Nat) : Bool :=
  s.prog.paged.any fun g => decide (g.vbase ≤ p * unitBytes) && decide ((p + 1) * unitBytes ≤ g.vbase + g.pages * unitBytes)

/-- A range wholly in the pinned memory of an image, and one wholly in paged regions (R169). -/
def Image.pinned (img : Image) (a n : Nat) : Bool := decide (a + n ≤ img.pinnedPages * 2 ^ 30)
def State.inPaged (s : State) (a n : Nat) : Bool := (pagesOf a n).all s.pageDeclared

/-- The 16 bytes of block-list entry k of a stream-table entry (R168). -/
def State.listEntry (s : State) (e k : Nat) : Nat := s.dramNat (sListAddr e + 16 * k) 16

/-- Whether a block-list entry keeps R168 and R169. -/
def State.listEntryOk (s : State) (img : Image) (e b : Nat) : Bool :=
  fld b 52 12 == 0 && fld b 88 40 == 0 && bAddr b % 64 == 0 && decide (0 < bLen b)
    && (match sMull e with
        | some k => bLen b % k.size == 0
        | none => true)
    && (img.pinned (bAddr b) (bLen b) || (sPaged e && s.inPaged (bAddr b) (bLen b)))

/-! ### Reading the byte space -/

/-- Where a unit fails: REASON, block-list entry, offset in it, device address (R186). -/
structure HaltAt where
  reason : Nat
  block : Nat
  offset : Nat
  addr : Nat
  deriving DecidableEq, Repr

/-- A run of stream bytes inside one block: entry, offset in it, device address, length. -/
structure Span where
  block : Nat
  offset : Nat
  addr : Nat
  len : Nat
  deriving DecidableEq, Repr

/-- The spans of `n` stream bytes from offset `off`, reading entries from `k` on; `last` is the entry read before with its address.
An invalid entry, or the end of the list, is LIST_INVALID with the last entry read (R169). -/
def State.spansFrom (s : State) (img : Image) (e : Nat) :
    Nat → Nat → Nat × Nat → Nat → Nat → Except HaltAt (List Span)
  | 0, _, last, _, _ => .error { reason := 0x40, block := last.1, offset := 0, addr := last.2 }
  | fuel + 1, k, _, off, n =>
    let b := s.listEntry e k
    if !s.listEntryOk img e b then .error { reason := 0x40, block := k, offset := 0, addr := bAddr b }
    else if bLen b ≤ off then s.spansFrom img e fuel (k + 1) (k, bAddr b) (off - bLen b) n
    else
      let sp : Span := { block := k, offset := off, addr := bAddr b + off, len := min n (bLen b - off) }
      if n ≤ bLen b - off then .ok [sp]
      else match s.spansFrom img e fuel (k + 1) (k, bAddr b) 0 (n - (bLen b - off)) with
        | .ok r => .ok (sp :: r)
        | .error h => .error h

def State.spans (s : State) (img : Image) (e off n : Nat) : Except HaltAt (List Span) :=
  s.spansFrom img e (sListCount e) 0 (0, 0) off n

/-- The first poisoned 256-byte unit of a span (R186: the failing unit is the aligned read). -/
def State.poisonIn (s : State) (sp : Span) : Option HaltAt :=
  match s.poison.filter fun u => decide (256 * u < sp.addr + sp.len) && decide (sp.addr < 256 * u + 256) with
  | [] => none
  | u :: us =>
    let u := us.foldl min u
    let skip := 256 * u - sp.addr
    let back := min sp.offset (sp.addr - 256 * u)
    some { reason := 0x20, block := sp.block, offset := sp.offset + skip - back, addr := sp.addr + skip - back }

/-- The place of the first byte of some spans. -/
def placeOfSpans : List Span → HaltAt
  | [] => { reason := 0, block := 0, offset := 0, addr := 0 }
  | sp :: _ => { reason := 0, block := sp.block, offset := sp.offset, addr := sp.addr }

/-- Stream bytes with the place of the first one. -/
def State.readSpans (s : State) (sps : List Span) : Except HaltAt (HaltAt × List Byte) :=
  match sps.findSome? s.poisonIn with
  | some h => .error h
  | none => .ok (placeOfSpans sps, (sps.map fun sp => s.dramRead sp.addr sp.len).flatten)

/-- Bytes read for a destination: where the first one stands, the bytes, and the keys of what they cover. -/
structure Landing where
  place : HaltAt
  bytes : List Byte
  keys : List (Nat × Nat)
  deriving DecidableEq, Repr

/-- Key of a byte of block-list entry `k` at offset `o` of the space where the stream lands. -/
def landKey (k o : Nat) : Nat := k * 2 ^ 40 + o

/-- The bytes of some spans as a stream has received them (R171). -/
def Stream.received (x : Stream) (sps : List Span) : List Byte :=
  (sps.map fun sp => Mem.read zeroByte x.buffer (landKey sp.block sp.offset) sp.len).flatten

/-- Bytes of the space where a stream lands, from what it has received (R149, R170): plain bytes as stored, Mull blocks checked and
expanded (R102, R103). -/
def State.readLanding (s : State) (img : Image) (x : Stream) (e off n : Nat) : Except HaltAt Landing :=
  match sMull e with
  | none =>
    match s.spans img e off n with
    | .error h => .error h
    | .ok sps =>
      .ok { place := placeOfSpans sps, bytes := x.received sps, keys := sps.map fun sp => (landKey sp.block sp.offset, sp.len) }
  | some k =>
    match s.spans img e (off / 8192 * k.size) k.size with
    | .error h => .error h
    | .ok sps =>
      let w := placeOfSpans sps
      let b := leNat (x.received sps)
      match mullCheck k b with
      | some reason => .error { w with reason := reason }
      | none =>
        .ok { place := w,
              bytes := (List.range n).map fun i =>
                let o := off % 8192 + i
                BitVec.ofNat 8 (mullValue k b (o / 2) / 256 ^ (o % 2)),
              keys := [(landKey w.block (w.offset / k.size * 8192 + off % 8192), n)] }

/-! ### Streams of a core -/

def Core.strm (k : Core) (i : Nat) : Stream := k.awl.streams.getD i Stream.reset
def Core.modStrm (k : Core) (i : Nat) (f : Stream → Stream) : Core :=
  { k with awl := { k.awl with streams := k.awl.streams.setIfInBounds i (f (k.strm i)) } }
def State.modStrm (s : State) (c : CoreId) (i : Nat) (f : Stream → Stream) : State := s.modCore c (·.modStrm i f)

/-- The 32 bytes of a halt record (R186). -/
def HaltRec.bits (h : HaltRec) : BitVec 256 :=
  BitVec.ofNat 256 (h.core + 2 ^ 8 * h.stream + 2 ^ 16 * h.reason.toNat + 2 ^ 32 * h.block + 2 ^ 64 * h.byteOffset
    + 2 ^ 96 * h.addr + 2 ^ 160 * h.step.toNat)

def Arm.covers (a : Arm) (k : Nat) : Bool := decide (a.first ≤ k) && decide (k < a.first + a.count)

/-- An armed word still waits for entry k (R170). -/
def Arm.awaits (a : Arm) (k : Nat) : Bool := decide (a.first + a.delivered ≤ k) && decide (k < a.first + a.count)

/-- The oldest armed word that waits for entry k. -/
def Stream.armFor (x : Stream) (k : Nat) : Option Arm := x.arms.find? (·.awaits k)

/-- The order of the bytes of a stream as its words arm them (R170): by the word that waits for the entry, then by the place in it. -/
def Stream.order (x : Stream) (key : Nat) : Nat := 2 ^ 80 * x.arms.findIdx (·.awaits (key / 2 ^ 40)) + key

/-- The halt reasons of a page that is not there: the reads issued before go on, and the stream resumes where it stood (R183, R184). -/
def HaltRec.paging (r : HaltRec) : Bool := r.reason == 0x30

/-- A halt at or before a place of the stream stands already: data that comes back later is read again, and fails no second time (R186;
DESIGN CHOICE, log entry 63). -/
def Stream.haltedBefore (x : Stream) (block offset : Nat) : Bool :=
  x.halted.elim false fun r => !r.paging && decide (x.order (landKey r.block r.byteOffset) ≤ x.order (landKey block offset))

/-- A stream halts (R186); `elastic` says whose word failed. Every reason but PAGE_NOT_PRESENT raises DATA_CHECK with the record; ITEM0
is 0 for a stream record. -/
def State.haltStream (s : State) (c : CoreId) (i : Nat) (elastic : Bool) (h : HaltAt) : State :=
  if ((s.core c).strm i).haltedBefore h.block h.offset then s
  else
    let r : HaltRec := { core := c.val, stream := i, reason := BitVec.ofNat 8 h.reason, block := h.block, byteOffset := h.offset,
                         addr := h.addr, step := s.stepFor elastic }
    let s := s.modStrm c i fun x => { x with halted := some r }
    if h.reason = 0x30 then s else s.raiseStep 0x0301 c.val [0] (some r.bits)

/-- Disjoint spans of bytes with one more added. -/
def addSpan (xs : List (Nat × Nat)) (a n : Nat) : List (Nat × Nat) :=
  if n = 0 then xs
  else match xs with
    | [] => [(a, n)]
    | (b, m) :: r =>
      if a + n < b then (a, n) :: (b, m) :: r
      else if b + m < a then (b, m) :: addSpan r a n
      else addSpan r (min a b) (max (a + n) (b + m) - min a b)

/-- Whether every byte of [a, a + n) is covered. -/
def covered (xs : List (Nat × Nat)) (a n : Nat) : Bool := n == 0 || xs.any fun p => decide (p.1 ≤ a) && decide (a + n ≤ p.1 + p.2)

/-! ### Translation of paged streams (R181, R183) -/

/-- The first page of a list that the translation cache does not hold. -/
def Core.missing (k : Core) (pages : List Nat) : Option Nat := pages.find? fun p => !k.awl.tlb.contains p

/-- The pages of a range that go through the translation cache: a page of the pinned translation table never misses (R181). -/
def Awl.cachedPages (a : Awl) (pages : List Nat) : List Nat := pages.filter fun p => decide (512 * a.xlate.length ≤ p)

/-- A page used: it becomes the most recent of the 256 entries (R181). -/
def Core.usePage (k : Core) (p : Nat) : Core :=
  { k with awl := { k.awl with tlb := (p :: k.awl.tlb.filter (· ≠ p)).take 256 } }

/-- The pages of some spans. -/
def spanPages (sps : List Span) : List Nat := (sps.map fun sp => pagesOf sp.addr sp.len).flatten

end Sys2Proof.Machine
end

