-- ==== Sys2Proof/Machine/Fetch.lean ====
section
/-!
DEFINITION. The Awl's reading of command words (R164 to R166): the command queues of the pinned sections and of the elastic section,
how far each read position runs ahead, and what the Awl does with the words it passes.

No command of the block reads a word: before each command of a core's Needle or Awl, the Awl has read as far as R164 lets it (DESIGN
CHOICE, log entry 64).
-/

namespace Sys2Proof.Machine

def wOp (w : Nat) : Nat := w % 256

/-- The part of the core table that holds a section (R139, R140). -/
def Sect.part : Sect → Nat
  | .prologue => 0 | .cold => 1 | .warm => 2 | .elastic => 3 | .idle => 10 | .done => 10

def Sect.runs : Sect → Bool
  | .idle => false | .done => false | _ => true

/-- A core may still issue work: a program runs and is not being cancelled, and the arithmetic clock runs (R70, R153, R189). -/
def State.issuing (s : State) : Bool := (s.prog.phase == .prologue || s.prog.phase == .steps) && s.aclkRuns

/-! ### Multicast groups (R179) -/

/-- Members of a multicast group: each core with the index of its stream, in rising order. -/
def State.members (s : State) (img : Image) (group : Nat) : List (CoreId × Nat) :=
  (allCores.filter fun c => decide (c.val < img.cores)).filterMap fun (c : CoreId) =>
    ((List.range (s.part img c 6).2).find? fun i =>
      sMulticast (s.streamEntry img c i) && sGroup (s.streamEntry img c i) == group).map fun i => (c, i)

/-- The issuer is the member with the lowest core. -/
def State.issuer (s : State) (img : Image) (group : Nat) : Option (CoreId × Nat) := (s.members img group).head?

/-! ### Reading ahead (R164 to R166) -/

def Awl.ahead (a : Awl) (elastic : Bool) : ReadAhead := if elastic then a.elastic else a.pinned
def Awl.setAhead (a : Awl) (elastic : Bool) (r : ReadAhead) : Awl := if elastic then { a with elastic := r } else { a with pinned := r }

/-- The template that RUN t of a section runs: at the committed level of its layer in the warm schedule, else t (R148). -/
def State.runTemplate (s : State) (img : Image) (c : CoreId) (sect : Sect) (t : Nat) : Nat :=
  let x := s.template img c t
  let level := if sect = .warm then s.prog.levelOf (tLayer x) else 0
  if level = 0 then t else if level = 1 then tVar1 x else tVar2 x

/-- The Awl acts on a word that it passes (R165): STREAM arms its stream, RUN of a Press template lets the load of its first pass start,
every other word passes unchanged. -/
def State.passWord (s : State) (img : Image) (c : CoreId) (elastic : Bool) (no w : Nat) (k : Core) : Core :=
  if img.direct then k
  else if wOp w = 0x10 then
    let t := s.runTemplate img c (k.awl.ahead elastic).sect (fld w 16 8)
    let x := s.template img c t
    if tKind x ≠ 0 then k
    else
      let j : PressJob := { template := t, total := nestSize (s.descriptor img c (tDesc x)), nextLoad := 0, nextPass := 0, seen := 0,
                            taken := false, serial := no, layer := tLayer x, elastic := elastic }
      { k with press := { k.press with queue := k.press.queue ++ [j] } }
  else if wOp w = 0x11 then
    let e := s.streamEntry img c (fld w 16 6)
    let a : Arm := { first := fld w 32 32, count := fld w 64 32, delivered := 0, issued := false, serial := no, elastic := elastic }
    let issues := sMulticast e && !sShadow e && (s.issuer img (sGroup e)).map (·.1) == some c
    k.modStrm (fld w 16 6) fun x => { x with arms := x.arms ++ [a], duty := if issues then x.duty ++ [a] else x.duty }
  else k

/-- One word more read, or none where the read position stops (R164). -/
def State.readWord (s : State) (img : Image) (c : CoreId) (elastic : Bool) (k : Core) : Option Core :=
  let r := k.awl.ahead elastic
  let w := s.word img c r.sect.part r.pos
  let id : BitVec 8 := BitVec.ofNat 8 (fld w 16 8)
  if r.stopped ∨ !r.sect.runs ∨ 1024 ≤ r.words.length ∨ (s.part img c r.sect.part).2 ≤ r.pos
      ∨ (wOp w = 0x21 ∧ (k.kettle.get ⟨id.toNat, id.isLt⟩).toNat < fld w 32 16) then none
  else
    let no := k.needle.serial
    let r : ReadAhead := { r with pos := r.pos + 1, words := r.words ++ [(no, BitVec.ofNat 128 w)],
                                  stopped := wOp w == 1 || wOp w == 2 }
    some (s.passWord img c elastic no w
      { k with awl := k.awl.setAhead elastic r, needle := { k.needle with serial := no + 1 } })

/-- Words read one by one, as far as the read position goes. -/
def State.readOn (s : State) (img : Image) (c : CoreId) (elastic : Bool) : Nat → Core → Core
  | 0, k => k
  | n + 1, k =>
    match s.readWord img c elastic k with
    | some k => s.readOn img c elastic n k
    | none => k

/-- The Awl of a core reads on: its pinned section always, its elastic section while the Needle executes it. -/
def State.awlReads (s : State) (c : CoreId) : State :=
  let k := s.core c
  match s.prog.active with
  | none => s
  | some img =>
    if !s.issuing ∨ img.cores ≤ c.val ∨ k.needle.stopped ∨ k.asleep then s
    else s.modCore c fun k =>
      let k := s.readOn img c false 1024 k
      if k.needle.sect = .elastic then s.readOn img c true 1024 k else k

/-- The word that the Needle takes next, with its number. -/
def Core.headWord (k : Core) : Option (Nat × Nat) :=
  ((k.awl.ahead (k.needle.sect == .elastic)).words.head?).map fun x => (x.1, x.2.toNat)

/-- The Needle takes the word at the head of the queue of its section. -/
def Core.takeWord (k : Core) : Core :=
  let e := k.needle.sect == .elastic
  let r := k.awl.ahead e
  { k with awl := k.awl.setAhead e { r with words := r.words.tail }, needle := { k.needle with pos := k.needle.pos + 1 } }

end Sys2Proof.Machine
end

