-- ==== Sys2Proof/Machine/Press.lean ====
section
/-!
DEFINITION. The Folder and the Press (R21 to R73): alignment, leaves, cell look-ups, the pass value and its single rounding, the
resident load, passes, pass-rows and beats.
-/

namespace Sys2Proof.Machine

/-! ### Modes (R28, R39, R46) -/

/-- Width of a weight field, segments and weights per folio (R28, R76). -/
def Mode.width : Mode → Nat
  | .t1 => 1 | .t2 => 2 | .t3 => 3 | .t4 => 4 | .tz => 2 | .x1 => 1 | .l4 => 4 | .f8 => 0 | .fb => 0 | .fh => 0
def Mode.segments : Mode → Nat
  | .t1 => 1 | .t2 => 2 | .t3 => 3 | .t4 => 4 | .tz => 2 | .x1 => 4 | .l4 => 1 | .f8 => 1 | .fb => 1 | .fh => 1
def Mode.perFolio (m : Mode) : Nat := m.kPerPass / m.segments
def Mode.code : Mode → Nat
  | .t1 => 1 | .t2 => 2 | .t3 => 3 | .t4 => 4 | .tz => 5 | .x1 => 6 | .l4 => 8 | .f8 => 9 | .fb => 10 | .fh => 11
def Mode.fused : Mode → Bool
  | .f8 => true | .fb => true | .fh => true | _ => false
/-- Rows of one product (R39). -/
def Mode.rowsPerProduct : Mode → Nat
  | .fb => 2 | .fh => 3 | _ => 1
/-- Bytes that the Folder reads for a pass-row (R50). -/
def Mode.rowBytes (m : Mode) (f : Fmt) : Nat := if m = .x1 then 240 else m.kPerPass * f.bytes

/-! ### The Folder (R49 to R57) -/

/-- Trailing zero bits of a positive number below 2^fuel. -/
def trailingZeros : Nat → Nat → Nat
  | 0, _ => 0
  | n + 1, x => if x % 2 = 1 then 0 else 1 + trailingZeros n (x / 2)

/-- D · 2^k rounded to an integer, ties to even (R51). -/
def roundShift (d : Nat) (k : Int) : Nat :=
  if 0 ≤ k then d * 2 ^ k.toNat
  else
    let p := 2 ^ (-k).toNat
    let q := d / p
    let r := 2 * (d % p)
    if r < p then q else if p < r then q + 1 else q + q % 2

/-- A pass-row after alignment: Qa, the integers A, whether it holds a non-finite element, and the counts of R52 and R53. -/
structure Folded where
  qa : Int
  a : List Int
  nonfinite : Bool
  flush : Nat
  sat : Nat
  deriving DecidableEq, Repr

/-- Binade of the leading bit and exponent of the lowest set bit of the elements that take part (R51). -/
def binades (xs : List Num) : List (Int × Int) :=
  xs.filterMap fun
    | .fin _ m e => if m = 0 then none else some (e + (bitLen m : Int) - 1, e + (trailingZeros 16 m : Int))
    | _ => none

def maxInt (x : Int) (xs : List Int) : Int := xs.foldl max x
def minInt (x : Int) (xs : List Int) : Int := xs.foldl min x

/-- Alignment to the 16-bit window (R51 to R53). -/
def fold (xs : List Num) : Folded :=
  let bs := binades xs
  let qa := match bs with
    | [] => 0
    | b :: r => max (maxInt b.1 (r.map (·.1)) - 14) (minInt b.2 (r.map (·.2)))
  let a := xs.map fun
    | .fin neg m e => signed neg (roundShift m (e - qa))
    | _ => 0
  { qa := qa, a := a,
    nonfinite := xs.any fun | .fin _ _ _ => false | _ => true,
    flush := ((xs.zip a).filter fun p => match p.1 with | .fin _ m _ => m ≠ 0 && p.2 == 0 | _ => false).length,
    sat := (xs.filter fun | .fin _ _ _ => false | _ => true).length }

/-- A leaf of four-element sums (R26, R55). -/
def leafOfSums (a0 a1 a2 a3 : Int) : Leaf :=
  (List.range 8).map fun e =>
    a3 + (if bitOf e 2 then a2 else -a2) + (if bitOf e 1 then a1 else -a1) + (if bitOf e 0 then a0 else -a0)

/-- A leaf of odd multiples (R26, R56). -/
def leafOfOdds (a : Int) : Leaf := (List.range 8).map fun e => (2 * (e : Int) + 1) * a

def at0 (xs : List Int) (i : Nat) : Int := xs.getD i 0

/-- The leaf of row r for one pass-row (R26, R39, R57): in FB and FH the same leaf stands in every row of a product. -/
def leafOf (m : Mode) (a : List Int) (r : Nat) : Leaf :=
  if m.fused ∨ m = .l4 then leafOfOdds (at0 a (r / m.rowsPerProduct))
  else leafOfSums (at0 a (4 * r)) (at0 a (4 * r + 1)) (at0 a (4 * r + 2)) (at0 a (4 * r + 3))

/-- The parity of the lowest n bits of a number. -/
def parityOf : Nat → Nat → Bool
  | 0, _ => false
  | n + 1, x => (x % 2 == 1) != parityOf n (x / 2)

/-- The even-parity bit of a leaf entry of 20 bits (R57): entry and bit together hold an even number of ones. -/
def entryParity (x : Int) : Bool := parityOf 20 (x % 2 ^ 20).toNat

/-- A leaf with the parity bit of each entry. -/
def withParity (l : Leaf) : RowEdge := .leaf l (l.map entryParity)

/-- What a cell finds when it checks the parity of each entry of its leaf (R48). -/
def RowEdge.parityOk : RowEdge → Bool
  | .leaf l ps => ps == l.map entryParity
  | .bits _ _ => true

/-- The 16 bits of row r in X1, and the valid mask: bit j is 1 where element 16r + j lies below K (R54). -/
def rowOfBits (x : List Bool) (kValid r : Nat) : RowEdge :=
  let word := fun (f : Nat → Bool) => BitVec.ofNat 16 ((List.range 16).map fun j => if f j then 2 ^ j else 0).sum
  .bits (word fun j => x.getD (16 * r + j) false) (word fun j => decide (16 * r + j < kValid))

/-- What the Folder writes to the incoming registers of the 120 rows for one pass-row (R54, R57, R62). -/
def edgesOf (m : Mode) (a : List Int) (x : List Bool) (kValid : Nat) : List RowEdge :=
  (List.range 120).map fun r => if m = .x1 then rowOfBits x kValid r else withParity (leafOf m a r)

/-- The leaves that held registers serve, and their X1 bits and valid masks as flat lists. -/
def leavesAt (es : List RowEdge) : List Leaf := es.map fun | .leaf l _ => l | .bits _ _ => []
def bitsAt (es : List RowEdge) : List Bool :=
  (es.map fun | .leaf _ _ => List.replicate 16 false | .bits x _ => (List.range 16).map x.getLsbD).flatten
def validAt (es : List RowEdge) : List Bool :=
  (es.map fun | .leaf _ _ => List.replicate 16 false | .bits _ v => (List.range 16).map v.getLsbD).flatten

/-! ### Cells (R27, R35, R36, R40) -/

/-- Table look-up of a 4-bit index with the symmetry of negation (R27). -/
def lookUp (leaf : Leaf) (idx : Nat) : Int := if 8 ≤ idx then at0 leaf (idx - 8) else -at0 leaf (7 - idx)

/-- d · A from a leaf of odd multiples (R36). -/
def nibbleTimes (leaf : Leaf) (d : Nat) : Int :=
  if d = 0 then 0
  else
    let s := trailingZeros 4 d
    at0 leaf ((d / 2 ^ s - 1) / 2) * 2 ^ s

def field0 (xs : List (BitVec 16)) (i : Nat) : Nat := (xs.getD i 0).toNat

/-- The index of the cell in row r in plane p: bit j is bit p of weight j (R22, R27). -/
def cellIndex (w : List (BitVec 16)) (r p : Nat) : Nat :=
  ((List.range 4).map fun j => 2 ^ j * (field0 w (4 * r + j) / 2 ^ p % 2)).sum

/-- T(g) of R29 for a table mode. -/
def segmentSum (m : Mode) (w : List (BitVec 16)) (leaves : List Leaf) (g : Nat) : Int :=
  let rows := 120 / m.segments
  ((List.range m.width).map fun p =>
    (if m = .tz then 1 else 2 ^ p) *
      ((List.range rows).map fun i => lookUp (leaves.getD (g * rows + i) []) (cellIndex w (g * rows + i) p)).sum).sum

/-- D(g) of R35: 2·pop − v over the valid positions of the segment. -/
def segmentPop (w : List (BitVec 16)) (x valid : List Bool) (g : Nat) : Int :=
  let ks := ((List.range 480).map fun i => 480 * g + i).filter (valid.getD · false)
  let pop := (ks.filter fun k => x.getD k false == (field0 w k % 2 == 1)).length
  2 * (pop : Int) - ks.length

/-! ### The Headband (R30 to R34) -/

/-- Segments that contribute: non-zero scales not more than 32 below the largest exponent (R30), with their g, M and exponent. -/
def liveSegments (scales : List (BitVec 16)) : List (Nat × Nat × Int) :=
  let xs := (scales.zipIdx.map fun p => (p.2, scaleMant p.1.toNat, scaleExp p.1.toNat)).filter fun p => p.2.1 ≠ 0
  match xs with
  | [] => []
  | x :: r => xs.filter fun p => decide (maxInt x.2.2 (r.map (·.2.2)) - 32 ≤ p.2.2)

/-- The exact sum of terms t · 2^e, as an integer and an exponent. -/
def exactSum (ts : List (Int × Int)) : Int × Int :=
  match ts with
  | [] => (0, 0)
  | t :: r =>
    let e := minInt t.2 (r.map (·.2))
    ((ts.map fun p => p.1 * 2 ^ (p.2 - e).toNat).sum, e)

/-- Largest exponent of the non-zero finite resident values of a column (R38). -/
def columnQmax (xs : List Num) : Option Int :=
  match xs.filterMap fun | .fin _ m e => if m = 0 then none else some e | _ => none with
  | [] => none
  | e :: r => some (maxInt e r)

/-- S of a fused column: each row's nibble of the significand, its sign and shift (R39, R40). -/
def fusedSum (m : Mode) (xs : List Num) (qmax : Int) (leaves : List Leaf) : Int :=
  let n := m.rowsPerProduct
  ((List.range 120).map fun r =>
    match xs.getD (r / n) (.fin false 0 0) with
    | .fin neg d e =>
      let sh := qmax - e
      let q := 4 * (n - 1 - r % n)
      if 15 < sh then 0
      else (if neg then -1 else 1) * nibbleTimes (leaves.getD r []) (d / 2 ^ q % 16) * 2 ^ (q + (15 - sh).toNat)
    | _ => 0).sum

/-- The resident values of a fused column. -/
def fusedValues (res : Resident) (w : ColWords) : List Num := w.vals.map fun x => res.rfmt.value x.toNat

def isFinite : Num → Bool
  | .fin _ _ _ => true
  | _ => false

/-- The exact pass value V of R31 of one column, from what the held registers serve, or none where it is the canonical NaN (R34). -/
def passValue (res : Resident) (w : ColWords) (qa : Int) (nonfinite : Bool) (edges : List RowEdge) : Option (Int × Int) :=
  let leaves := leavesAt edges
  if nonfinite then none
  else match res.mode with
    | .x1 =>
      some (exactSum ((liveSegments w.scales).map fun g => (g.2.1 * segmentPop w.vals (bitsAt edges) (validAt edges) g.1, g.2.2)))
    | .l4 =>
      let sum := ((List.range 120).map fun r =>
        let f := field0 w.vals r
        (if 8 ≤ f then -1 else 1) * nibbleTimes (leaves.getD r []) 1 * 2 ^ (8 + f % 8)).sum
      some (exactSum ((liveSegments w.scales).map fun g => (g.2.1 * sum, g.2.2 + qa - 8)))
    | m =>
      if m.fused then
        let xs := fusedValues res w
        if xs.all isFinite then
          match columnQmax xs with
          | none => some (0, 0)
          | some q => some (fusedSum m xs q leaves, qa + q - 15)
        else none
      else
        let k : Int := if m = .tz then 1 else 0
        some (exactSum ((liveSegments w.scales).map fun g => (g.2.1 * segmentSum m w.vals leaves g.1, g.2.2 + qa - k)))

/-- The single rounding (R32, R34). -/
def roundPass : Option (Int × Int) → Nat
  | none => nan32
  | some v => fB32.roundInt v.1 v.2

/-- The rounded pass values of a beat, column by column. -/
def Beat.values (b : Beat) (res : Resident) : List Nat :=
  res.cols.map fun w => roundPass (passValue res w b.qa b.nonfinite b.edges)

/-! ### The resident load (R22, R38, R43, R44, R71, R72) -/

/-- What a load reads: the bytes at an offset, or why it halts. -/
abbrev Reader := Nat → Nat → Except HaltAt Landing

/-- The segments of a column-pass that are fetched (R71). -/
def fetchedSegments (m : Mode) (kValid : Nat) : List Nat := (List.range m.segments).filter fun g => decide (g * m.perFolio < kValid)

/-- A folio checked against the mode of the template (R81): its scale and fields, or the reason it fails. -/
def takeFolio (m : Mode) (l : Landing) : Except HaltAt (BitVec 16 × List (BitVec 16)) :=
  let x := leNat l.bytes
  match folioCheck x (· == m.code) with
  | some reason => .error { l.place with reason := reason }
  | none => .ok (BitVec.ofNat 16 (fld x 0 16),
      (List.range m.perFolio).map fun i => BitVec.ofNat 16 (fld x (32 + m.width * i) m.width))

/-- One column's words with the keys of the bytes they came from. -/
def loadFolios (m : Mode) (rd : Reader) (kValid base : Nat) : List Nat → Except HaltAt (ColWords × List (Nat × Nat))
  | [] => .ok ({ scales := [], vals := [] }, [])
  | g :: r =>
    match rd (base + 64 * g) 64 with
    | .error h => .error h
    | .ok l =>
      match takeFolio m l with
      | .error h => .error h
      | .ok (sc, fs) =>
        match loadFolios m rd kValid base r with
        | .error h => .error h
        | .ok (w, ks) => .ok ({ scales := sc :: w.scales, vals := fs ++ w.vals }, l.keys ++ ks)

/-- Elements k of a column in a fused mode: `addr k` is where element k stands (R44). -/
def loadElements (rd : Reader) (size : Nat) (addr : Nat → Nat) : List Nat → Except HaltAt (ColWords × List (Nat × Nat))
  | [] => .ok ({ scales := [], vals := [] }, [])
  | k :: r =>
    match rd (addr k) size with
    | .error h => .error h
    | .ok l =>
      match loadElements rd size addr r with
      | .error h => .error h
      | .ok (w, ks) => .ok ({ w with vals := BitVec.ofNat 16 (leNat l.bytes) :: w.vals }, l.keys ++ ks)

def loadColumn (m : Mode) (rfmt : Fmt) (transposed : Bool) (rd : Reader) (base stride kValid j : Nat) :
    Except HaltAt (ColWords × List (Nat × Nat)) :=
  if m.fused then
    loadElements rd rfmt.bytes
      (fun k => if transposed then base + k * stride + j * rfmt.bytes else base + j * stride + k * rfmt.bytes)
      (List.range (min kValid m.kPerPass))
  else loadFolios m rd kValid (base + j * stride) (fetchedSegments m kValid)

def loadColumns (m : Mode) (rfmt : Fmt) (transposed : Bool) (rd : Reader) (base stride kValid : Nat) :
    List Nat → Except HaltAt (List ColWords × List (Nat × Nat))
  | [] => .ok ([], [])
  | j :: r =>
    match loadColumn m rfmt transposed rd base stride kValid j with
    | .error h => .error h
    | .ok (w, ks) =>
      match loadColumns m rfmt transposed rd base stride kValid r with
      | .error h => .error h
      | .ok (ws, ks') => .ok (w :: ws, ks ++ ks')

/-- The value a weight field stands for, without its scale (R24, R25, R35, R41). -/
def weightNum (m : Mode) (v : Nat) : Num :=
  match m with
  | .tz => let w : Int := (v % 2 : Nat) + (v / 2 : Nat) - 1; .fin (decide (w < 0)) w.natAbs 0
  | .x1 => .fin (v % 2 == 0) 1 0
  | .l4 => .fin (decide (8 ≤ v)) 1 (v % 8)
  | _ => let w : Int := 2 * v - (2 ^ m.width - 1); .fin (decide (w < 0)) w.natAbs 0

/-- The observations of one column of a resident load: values, FLUSH and SAT (R110, R112). -/
def observedColumn (res : Resident) (w : ColWords) : List Num × Nat × Nat :=
  if res.mode.fused then
    let xs := fusedValues res w
    let flush := match columnQmax xs with
      | none => 0
      | some q => (xs.filter fun | .fin _ m e => m ≠ 0 && decide (15 < q - e) | _ => false).length
    (xs, flush, (xs.filter fun x => !isFinite x).length)
  else
    let n := res.mode.perFolio
    let live := (liveSegments w.scales).map (·.1)
    let xs := (List.range (min res.kValid w.vals.length)).map fun k =>
      let sc := field0 w.scales (k / n)
      (Num.fin false (scaleMant sc) (scaleExp sc)).mul (weightNum res.mode (field0 w.vals k))
    let flush := (w.scales.zipIdx.map fun p =>
      if scaleMant p.1.toNat ≠ 0 ∧ !live.contains p.2 then min n (res.kValid - p.2 * n) else 0).sum
    (xs, flush, 0)

/-- A resident load observed (R110): folio weights in the weight role, fused values in the role the template names. -/
def Core.observeLoad (k : Core) (closed : Bool) (layer roleR : Nat) (res : Resident) : Core :=
  res.cols.foldl (fun k w =>
    let o := observedColumn res w
    k.observe closed layer (if res.mode.fused then roleR else 1) false o.1 o.2.1 o.2.2) k

/-! ### The passes of a template (R145, R146, R149, R150) -/

/-- What one pass of a template is: its mode, formats, addresses and extents. -/
structure PassPlan where
  mode : Mode
  sfmt : Fmt
  rfmt : Fmt
  transposed : Bool
  resStream : Nat
  wAddr : Nat
  stride : Nat
  cols : Nat
  kValid : Nat
  act : Nat
  pitch : Nat
  rows : Nat
  accRow : Nat
  accumulate : Bool
  layer : Nat
  roleS : Nat
  roleR : Nat
  deriving DecidableEq, Repr

/-- Pass n of template t: in a PEEL tail the mode, formats, stream, row pitch and column stride are those of the PEEL template,
the addresses and extents those of t (R146). Where the PEEL template's mode has a smaller K per pass than the remainder, its pass takes
as many positions as that mode has (R146 is silent: DESIGN CHOICE, log entry 68). -/
def passPlanOf (tpl : Nat → Nat) (t d n : Nat) : PassPlan :=
  let u := tailTemplate tpl t d n
  let mt := (modeOf (tMode t)).getD .t1
  let mu := (modeOf (tMode u)).getD .t1
  let k := dimIndex d 1 n
  let nn := dimIndex d 2 n
  let m := dimIndex d 3 n
  { mode := mu, sfmt := (sfmtOf (tSfmt u)).getD .e4m3, rfmt := (fmtOf (tRfmt u)).getD .e4m3, transposed := tTransposed u,
    resStream := tResStream u, wAddr := (nestOffset d 1 n).toNat, stride := tColStride u,
    cols := remaining (tNExt t) 128 nn.1, kValid := min (remaining (tKExt t) mt.kPerPass k.1) mu.kPerPass,
    act := (tActAddr t + nestOffset d 0 n).toNat, pitch := 64 * tActRow u, rows := remaining (tMExt t) (tMBlock t) m.1,
    accRow := (512 * tAccRow t + nestOffset d 2 n).toNat / 512,
    accumulate := tWrite t == 1 || (tWrite t == 2 && k.1 != 0),
    layer := tLayer t, roleS := tRoleS t, roleR := tRoleR t }

def State.passPlan (s : State) (img : Image) (c : CoreId) (tIdx n : Nat) : PassPlan :=
  let t := s.template img c tIdx
  passPlanOf (s.template img c) t (s.descriptor img c (tDesc t)) n

/-- The RUN whose next pass is loaded next (R165): of those that the Needle has taken the first with one left, then of those that the Awl
has passed the first whose first pass is not loaded; words of the step before words of the elastic section (R141; DESIGN CHOICE,
log entry 14). -/
def toLoad (q : List PressJob) : Option PressJob :=
  let run := fun (e : Bool) => q.find? fun j => j.taken && j.elastic == e && decide (j.nextLoad < j.total)
  let first := fun (e : Bool) => q.find? fun j => !j.taken && j.elastic == e && j.nextLoad == 0 && decide (0 < j.total)
  ((run false).or (run true)).or ((first false).or (first true))

/-- The RUN whose loaded pass begins next. -/
def toBegin (q : List PressJob) : Option PressJob := q.find? fun j => j.taken && decide (j.nextPass < j.nextLoad)

/-- The job with one number changed. -/
def modJob (serial : Nat) (f : PressJob → PressJob) (q : List PressJob) : List PressJob :=
  q.map fun j => if j.serial = serial then f j else j

/-! ### Deliveries of a multicast group (R179, R180) -/

/-- An entry is armed and not yet delivered (R170). -/
def Stream.armed (x : Stream) (k : Nat) : Bool := x.arms.any (·.awaits k)

/-- The words over entry k that the issuer has heard of from a member, with numbers from `since` to below `upto` (R179). -/
def State.told (s : State) (iss m : CoreId × Nat) (since upto k : Nat) : Nat :=
  (((s.core iss.1).strm iss.2).memberArms.filter fun r =>
    r.1 == m.1 && r.2.covers k && decide (since ≤ r.2.serial) && decide (r.2.serial < upto)).length

/-- Beyond every number of a word. -/
def anySerial : Nat := 2 ^ 80

/-- The place of a member's word among its words over entry k: 1 for the first. -/
def State.nthArm (s : State) (iss m : CoreId × Nat) (a : Arm) (k : Nat) : Nat := s.told iss m 0 a.serial k + 1

/-- A member fetches entry k with reads of its own: it has been resumed since it armed the word that waits for the entry, or for a shadow
stream since it last armed the entry (R180). -/
def State.fetchesOwn (s : State) (iss m : CoreId × Nat) (shadow : Bool) (k : Nat) : Bool :=
  let x := (s.core m.1).strm m.2
  if shadow then decide (0 < x.ownUntil) && s.told iss m x.ownUntil anySerial k == 0
  else (x.armFor k).elim false fun a => decide (a.serial < x.ownUntil)

/-- The reads of entry k for the issuer's n-th word over it may go out (R179): every member has armed its n-th word over the entry, and
none that takes the group's data still waits for the entry under an earlier one. -/
def State.groupReady (s : State) (img : Image) (iss : CoreId × Nat) (n k : Nat) : Bool :=
  (s.members img (sGroup (s.streamEntry img iss.1 iss.2))).all fun m =>
    let x := (s.core m.1).strm m.2
    decide (n ≤ s.told iss m 0 anySerial k)
      && (x.halted.isSome || s.fetchesOwn iss m false k || (x.armFor k).elim true fun a => decide (n ≤ s.nthArm iss m a k))

/-- A byte that the group had to deliver before the member was resumed: the group's data still counts for it (R180). -/
def Stream.beforeResume (x : Stream) (a : Arm) (key : Nat) : Bool :=
  decide (a.serial < x.ownFrom.1) || (a.serial == x.ownFrom.1 && decide (key < x.ownFrom.2))

/-- The group's data, read for its n-th word over an entry, is meant for a member: it waits for the entry under its own n-th word, and has
not been resumed since, or the byte lies before the place where it was (R180). A shadow stream takes what its load lacks. -/
def State.takes (s : State) (iss m : CoreId × Nat) (shadow : Bool) (n key : Nat) : Bool :=
  let x := (s.core m.1).strm m.2
  let k := key / 2 ^ 40
  if shadow then !s.fetchesOwn iss m true k || decide (key < x.ownFrom.2)
  else (x.armFor k).elim false fun a =>
    s.nthArm iss m a k == n && (decide (x.ownUntil ≤ a.serial) || x.beforeResume a key)

/-- The members that take a delivery of the group (R179, R180); what a halted one may still land, its own stream decides. -/
def State.takers (s : State) (img : Image) (c : CoreId) (i n key : Nat) : List (CoreId × Nat) :=
  let e := s.streamEntry img c i
  (s.members img (sGroup e)).filter fun m => s.takes (c, i) m (sShadow e) n key

/-- A member that fetches entry k of its shadow stream itself (R180). -/
def State.ownEntry (s : State) (img : Image) (c : CoreId) (i e k : Nat) : Bool :=
  (s.issuer img (sGroup e)).elim true fun iss => s.fetchesOwn iss (c, i) true k

/-! ### What a shadow load reads (R44, R71, R165, R171) -/

/-- Bytes of armed entries marked landed (R170). -/
def Core.land (k : Core) (i : Nat) (keys : List (Nat × Nat)) : Core :=
  k.modStrm i fun x =>
    { x with landed := (keys.filter fun p => x.armed (p.1 / 2 ^ 40)).foldl (fun l p => addSpan l p.1 p.2) x.landed }

/-- The ranges a pass's load reads, in the space of its stream (R44, R71). -/
def PassPlan.reads (p : PassPlan) : List (Nat × Nat) :=
  ((List.range p.cols).map fun j =>
    if p.mode.fused then
      (List.range p.kValid).map fun k =>
        (if p.transposed then p.wAddr + k * p.stride + j * p.rfmt.bytes else p.wAddr + j * p.stride + k * p.rfmt.bytes, p.rfmt.bytes)
    else (fetchedSegments p.mode p.kValid).map fun g => (p.wAddr + j * p.stride + 64 * g, 64)).flatten

/-- The same ranges in the space in which a Mull stream is fetched. -/
def fetchRanges (e : Nat) (rs : List (Nat × Nat)) : List (Nat × Nat) :=
  match sMull e with
  | none => rs
  | some k => rs.map fun r => (r.1 / 8192 * k.size, k.size)

/-- The 64-byte lines of a span: block-list entry, offset and address of each. -/
def linesOf (sp : Span) : List Span :=
  (List.range (divCeil (sp.addr % 64 + sp.len) 64)).map fun i =>
    { block := sp.block, offset := sp.offset - sp.addr % 64 + 64 * i, addr := sp.addr - sp.addr % 64 + 64 * i, len := 64 }

/-- A line in its place among lines in stream order, once. -/
def insertLine (x : Span) : List Span → List Span
  | [] => [x]
  | y :: r =>
    let a := landKey x.block x.offset
    let b := landKey y.block y.offset
    if a = b then y :: r else if a < b then x :: y :: r else y :: insertLine x r

/-- Lines that follow each other within one block and one 256-byte unit are one read (R171). -/
def mergeLines : List Span → List Span
  | [] => []
  | x :: r =>
    match mergeLines r with
    | [] => [x]
    | y :: ys =>
      if x.block = y.block ∧ x.offset + x.len = y.offset ∧ x.addr / 256 = (y.addr + y.len - 1) / 256 then
        { x with len := x.len + y.len } :: ys
      else x :: y :: ys

/-- The reads of some ranges of a stream, in stream order. -/
def State.piecesOf (s : State) (img : Image) (e : Nat) : List (Nat × Nat) → List Span → Except HaltAt (List Span)
  | [], acc => .ok (mergeLines acc)
  | r :: rs, acc =>
    match s.spans img e r.1 r.2 with
    | .error h => .error h
    | .ok sps => s.piecesOf img e rs ((sps.map linesOf).flatten.foldl (fun l x => insertLine x l) acc)

/-- The load that the Press of a core waits for: the RUN and its pass. An elastic word's load goes on only while the Needle executes the
elastic section (R141, R166). -/
def State.openLoad (s : State) (img : Image) (c : CoreId) : Option (PressJob × PassPlan) :=
  let k := s.core c
  if k.press.ready ∨ img.direct then none
  else match toLoad k.press.queue with
    | none => none
    | some j => if j.elastic ∧ k.needle.sect ≠ .elastic then none else some (j, s.passPlan img c j.template j.nextLoad)

/-- The reads of the open load of a core, where it reads this stream. -/
def State.loadPieces (s : State) (img : Image) (c : CoreId) (i : Nat) : Except HaltAt (List Span) :=
  match s.openLoad img c with
  | none => .ok []
  | some (_, p) =>
    if p.resStream ≠ i then .ok []
    else
      let e := s.streamEntry img c i
      s.piecesOf img e (fetchRanges e p.reads) []

/-- Bytes of a read that a stream has received. -/
def Stream.has (x : Stream) (sp : Span) : Bool :=
  (List.range sp.len).all fun o => (Mem.lookup x.buffer (landKey sp.block sp.offset + o)).isSome

/-- The reads of its open load that a core still lacks. -/
def State.lacks (s : State) (img : Image) (c : CoreId) (i : Nat) : List Span :=
  match s.loadPieces img c i with
  | .error _ => []
  | .ok ps => ps.filter fun sp => !((s.core c).strm i).has sp

/-! ### Shadow load and exchange (R22, R45, R65, R68) -/

/-- SHADOW_LOAD_COMPLETE (R22, R38, R43, R44, R71, R72, R81, R103, R110): every read of the open load has come; its folios and Mull
blocks are checked, the shadow words are written whole and the load is observed. A folio or block that fails its check halts the
stream and the load stays incomplete; so does a block list that no longer holds the load. -/
def execShadowLoadComplete (c : CoreId) (s : State) : Host.Outcome State Fault Refusal :=
  let s := s.awlReads c
  match s.prog.active with
  | none => .next s
  | some img =>
    match s.openLoad img c with
    | none => .next s
    | some (j, p) =>
      let e := s.streamEntry img c p.resStream
      let x := (s.core c).strm p.resStream
      if !s.issuing ∨ x.halted.isSome ∨ x.walking.isSome then .next s
      else match s.loadPieces img c p.resStream with
        | .error h => .next (s.haltStream c p.resStream j.elastic h)
        | .ok ps =>
          if !ps.all x.has then .next s
          else match loadColumns p.mode p.rfmt p.transposed (s.readLanding img x e) p.wAddr p.stride p.kValid (List.range p.cols) with
            | .error h => .next (s.haltStream c p.resStream j.elastic h)
            | .ok (cols, keys) =>
              let res : Resident := { mode := p.mode, rfmt := p.rfmt, kValid := p.kValid, cols := cols }
              .next <| s.modCore c fun k =>
                let k := k.land p.resStream keys
                let k := if j.nextLoad < j.seen then k else k.observeLoad s.prog.closed p.layer p.roleR res
                let k := k.modStrm p.resStream fun x => { x with buffer := [] }
                { k with press := { k.press with
                    shadow := res, ready := true,
                    queue := modJob j.serial (fun j => { j with nextLoad := j.nextLoad + 1, seen := max j.seen (j.nextLoad + 1) })
                      k.press.queue } }

/-- A load made for an elastic word that the Needle has not taken is done again after the step (R141; DESIGN CHOICE, log entry 14). -/
def Press.dropElasticLoad (p : Press) : Press :=
  if p.ready ∧ p.queue.any fun j => j.elastic && !j.taken && decide (j.nextPass < j.nextLoad) then
    { p with ready := false, queue := p.queue.map fun j => if j.elastic && !j.taken then { j with nextLoad := 0 } else j }
  else p

/-- A free pass-state set (R68): false names set 0, which is taken when both are free (R68 does not say: DESIGN CHOICE, log entry 71). -/
def Press.freeSet (p : Press) : Option Bool := if p.set0.isNone then some false else if p.set1.isNone then some true else none

def Press.putSet (p : Press) (sel : Bool) (r : Option Resident) : Press :=
  if sel then { p with set1 := r } else { p with set0 := r }
def Press.getSet (p : Press) (sel : Bool) : Option Resident := if sel then p.set1 else p.set0

/-- Every cell exchanges its active and shadow words (R22). -/
def Press.exchange (p : Press) : Press := { p with active := p.shadow, shadow := p.active, ready := false }

/-- The RUN whose last write is done leaves the queue and its DONE_ID is on its way (R147). -/
def State.finishRun (s : State) (c : CoreId) (serial : Nat) : State :=
  match (s.core c).press.queue.find? fun j => j.serial = serial, s.prog.active with
  | some j, some img =>
    let t := if img.direct then 0 else s.template img c j.template
    s.modCore c fun k =>
      { k with press := { k.press with queue := k.press.queue.filter fun x => x.serial ≠ serial },
               doneSignals := if tDoneEn t then
                 k.doneSignals ++ [{ target := c, id := BitVec.ofNat 8 (tDoneId t), incr := 1, scope := 0, awaits := [],
                                     elastic := j.elastic }]
                 else k.doneSignals }
  | _, _ => s

/-- PASS_EXCHANGE (R22, R45, R65, R68, R69, R73): active and shadow words are exchanged once every pass-row of the pass before has
issued, the shadow load is complete and a pass-state set is free; the pass begins. -/
def execPassExchange (c : CoreId) (s : State) : Host.Outcome State Fault Refusal :=
  let k := s.core c
  match toBegin k.press.queue, s.prog.active, k.press.freeSet with
  | some j, some img, some sel =>
    if !s.issuing ∨ k.press.pass.isSome ∨ img.direct ∨ !k.press.ready then .next s
    else
      let p := s.passPlan img c j.template j.nextPass
      let last := decide (j.nextPass + 1 = j.total)
      let next := modJob j.serial fun j => { j with nextPass := j.nextPass + 1 }
      let ap : ActivePass :=
        { sel := sel, mode := p.mode, sfmt := p.sfmt, base := p.act, pitch := p.pitch, kValid := p.kValid, rows := p.rows,
          next := 0, accumulate := p.accumulate, accRow := p.accRow, layer := p.layer, roleS := BitVec.ofNat 2 p.roleS,
          roleR := BitVec.ofNat 2 p.roleR, lastOfRun := last, serial := j.serial }
      if p.rows = 0 then
        -- an empty M extent issues no pass-row (R73)
        if last ∧ k.press.beats ≠ [] then .next s
        else
          let s := s.modCore c fun k => { k with press := { k.press.exchange with queue := next k.press.queue } }
          .next (if last then s.finishRun c j.serial else s)
      else
        .next <| s.modCore c fun k =>
          { k with press := { (k.press.exchange.putSet sel (some k.press.shadow)) with pass := some ap, queue := next k.press.queue } }
  | _, _, _ => .next s

/-! ### Pass-rows and beats (R50 to R67) -/

/-- The elements of a pass-row below K (R50, R71, R86). -/
def rowElements (m : Mode) (f : Fmt) (kValid : Nat) (bytes : List Byte) : List Num :=
  if m = .x1 then []
  else (List.range kValid).map fun k => f.value (leNat ((bytes.drop (k * f.bytes)).take f.bytes))

/-- The X1 bits of a pass-row (R54, R86). -/
def rowBits (m : Mode) (bytes : List Byte) : List Bool :=
  if m = .x1 then (List.range 1920).map fun k => bitOf (bytes.getD (k / 8) 0).toNat (k % 8) else []

/-- Plane index of the final issue cycle of a pass-row (R58, R67): n − 1 in T1 to T4, 1 in TZ, 0 in the other modes. -/
def Mode.lastPlane : Mode → BitVec 2
  | .t1 => 0 | .t2 => 1 | .t3 => 2 | .t4 => 3 | .tz => 1 | .x1 => 0 | .l4 => 0 | .f8 => 0 | .fb => 0 | .fh => 0

/-- PASS_ROW_ISSUE (R50 to R62, R67, R110): the Folder reads the pass-row, aligns it, builds its leaves, writes them to the incoming
registers and reports to the Collator; at the first issue cycle incoming becomes held, and the Press issues the row as a beat whose
cycle 0 is `cycle`. -/
def execPassRowIssue (c : CoreId) (cycle : Nat) (s : State) : Host.Outcome State Fault Refusal :=
  let k := s.core c
  match k.press.pass with
  | none => .next s
  | some ap =>
    if !s.issuing ∨ s.prog.active = none then .next s
    else
      let a := ap.base + ap.pitch * ap.next
      let n := ap.mode.rowBytes ap.sfmt
      let bytes := k.read .quire a n
      let xs := rowElements ap.mode ap.sfmt ap.kValid bytes
      let f := fold xs
      let edges := edgesOf ap.mode f.a (rowBits ap.mode bytes) ap.kValid
      let last := decide (ap.next + 1 = ap.rows)
      let b : Beat :=
        { valid := true, passSel := ap.sel, mode := ap.mode, plane := ap.mode.lastPlane, lastPlane := true, qa := f.qa,
          nonfinite := f.nonfinite, accumulate := ap.accumulate, accRow := ap.accRow + ap.next, edges := edges, cycle := cycle,
          layer := ap.layer, lastOfPass := last, lastOfRun := last && ap.lastOfRun, serial := ap.serial }
      let s := s.touch c .quire a n 0
      if s.prog.active = none then .next s
      else .next <| s.modCore c fun k =>
        let k := if ap.mode = .x1
          then k.observe s.prog.closed ap.layer ap.roleS.toNat true (List.replicate ap.kValid (.fin false 1 0)) 0 0
          else k.observe s.prog.closed ap.layer ap.roleS.toNat false xs f.flush f.sat
        { k with press := { k.press with
            incoming := edges, held := edges, beats := k.press.beats ++ [b],
            pass := if last then none else some { ap with next := ap.next + 1 } } }

/-- The words that a beat writes in its row: overwritten, or added to what stands there (R33). -/
def Core.beatWords (k : Core) (b : Beat) (vs : List Nat) : List Nat :=
  if b.accumulate then vs.zipIdx.map fun p => fB32.add (k.readNat .acc (512 * b.accRow + 4 * p.2) 4) p.1 else vs

/-- The write of a beat in the columns of its pass, its observation in the output role, and the release of its set after the last beat
of the pass (R33, R64, R68, R110). An idle beat, or one that is not on its row's final issue cycle, writes nothing (R67). -/
def Core.writeBeat (k : Core) (closed : Bool) (b : Beat) (res : Resident) : Core :=
  if !b.valid ∨ !b.lastPlane then k
  else
    let vs := b.values res
    let k := k.store .acc (512 * b.accRow) ((k.beatWords b vs).map (leBytes 4)).flatten
    let k := k.observe closed b.layer 2 false (vs.map fB32.decode) 0
      (vs.filter fun v => decide (0x7F80_0000 ≤ v % 2 ^ 31)).length
    { k with press := if b.lastOfPass then k.press.putSet b.passSel none else k.press }

/-- Whether a pass or a beat belongs to a RUN of the elastic section. -/
def Press.elasticRun (p : Press) (serial : Nat) : Bool := p.queue.any fun j => j.serial == serial && j.elastic

/-- A pass-state set that no pass and no beat needs any more is free (R68, R70). -/
def Press.freeSets (p : Press) : Press :=
  let used := fun (sel : Bool) => p.pass.any (·.sel == sel) || p.beats.any (·.passSel == sel)
  { p with set0 := if used false then p.set0 else none, set1 := if used true then p.set1 else none }

/-- The Press stops the work of a section (R70): the beats that have been read complete and write, oldest first; no further pass-row of
it issues, its RUNs and a load made for one of them go, and its pass-state sets are free. -/
def Core.stopPress (k : Core) (closed elastic : Bool) : Core :=
  let mine := fun (serial : Nat) => k.press.elasticRun serial == elastic
  let x := (k.press.beats.filter fun b => mine b.serial).foldl (fun x b =>
    match x.press.getSet b.passSel with
    | some res => x.writeBeat closed b res
    | none => x) k
  { x with press := { x.press with
      beats := x.press.beats.filter fun b => !mine b.serial, pass := x.press.pass.filter fun a => !mine a.serial,
      queue := x.press.queue.filter (·.elastic != elastic),
      ready := x.press.ready && !x.press.queue.any fun j => j.elastic == elastic && decide (j.nextPass < j.nextLoad) }.freeSets }

/-- The column of a residue mismatch, or of a parity error that the cells found. A leaf serves every column, and R48 does not say which of
them is named: column 0 (DESIGN CHOICE, log entry 71). -/
def Beat.faultColumn (b : Beat) (residueFault : Option (Fin 128)) : Option (Fin 128) :=
  if b.edges.all RowEdge.parityOk then residueFault else some (residueFault.getD 0)

/-- BEAT_WRITE (R24 to R42, R47, R48, R63 to R68, R70, R110): the oldest beat is rounded and written, or added; a residue mismatch or a
parity error keeps its column and records PRESS_RESIDUE once the word is written; the last beat of a RUN ends it. -/
def execBeatWrite (c : CoreId) (residueFault : Option (Fin 128)) (s : State) : Host.Outcome State Fault Refusal :=
  let k := s.core c
  match k.press.beats with
  | [] => .next s
  | b :: rest =>
    match k.press.getSet b.passSel with
    | none => .next s
    | some res =>
      if !s.aclkRuns then .next s else
      let s := if b.accumulate then s.touch c .acc (512 * b.accRow) (4 * res.cols.length) 3 else s
      if s.prog.active = none then .next s
      else
        let s := s.modCore c fun k => { k with press := { k.press with beats := rest } }
        let s := s.modCore c fun k => k.writeBeat s.prog.closed b res
        let s := match b.faultColumn residueFault with
          | none => s
          | some col =>
            (s.modCore c fun k => { k with press := { k.press with faultCol := some col } }).coreFault c 1
              (some (BitVec.ofNat 256 col.val))
        .next (if b.lastOfRun then s.finishRun c b.serial else s)

end Sys2Proof.Machine
end

