-- ==== Sys2Proof/Machine/Words.lean ====
section
/-!
DEFINITION. Command words (R142, R143, R157): fields, and which words decode.
-/

namespace Sys2Proof.Machine

/-! ### Command words -/

/-- Fields of a word above its opcode, by opcode: lowest bit and width (R143, R157). Every other bit is reserved. -/
def wordFields : Nat → Option (List (Nat × Nat))
  | 0x00 => some []
  | 0x01 => some [(8, 1)]
  | 0x02 => some []
  | 0x10 => some [(16, 8)]
  | 0x11 => some [(16, 6), (32, 32), (64, 32)]
  | 0x20 => some [(8, 2), (16, 8), (24, 8), (32, 16)]
  | 0x21 => some [(16, 8), (32, 16)]
  | 0x30 => some [(8, 1), (16, 24), (40, 8)]
  | 0x40 => some [(8, 1), (16, 8), (32, 8), (64, 52)]
  | 0x41 => some [(8, 1), (16, 8), (32, 8), (64, 52)]
  | 0x50 => some [(8, 1), (16, 6)]
  | 0x60 => some [(8, 1), (16, 4), (24, 3), (32, 8), (40, 12), (64, 52), (116, 12)]
  | 0x61 => some [(8, 1), (16, 8), (24, 5), (29, 3), (32, 23), (56, 16), (72, 16), (88, 2), (90, 2)]
  | 0x62 => some [(16, 12), (32, 5), (64, 64)]
  | 0x63 => some [(8, 1), (16, 16), (32, 23), (64, 52)]
  | _ => none

/-- Resident formats of a fused mode, and streamed formats of any mode, that R44, R49 and R87 allow. -/
def residentOk (m : Mode) (rfmt : Nat) (transposed : Bool) : Bool :=
  match m with
  | .f8 => rfmt == 0 || rfmt == 1
  | .fb => rfmt == 2 || rfmt == 4
  | .fh => rfmt == 3
  | _ => rfmt == 0 && !transposed
def streamedOk (m : Mode) (sfmt : Nat) : Bool := if m = .x1 then sfmt == 5 else decide (sfmt ≤ 4)

/-- Values that a word's own table bounds (R143, R157, R158); what depends on the core's tables is checked apart. -/
def wordValuesOk (w : Nat) : Bool :=
  match wOp w with
  | 0x10 => decide (fld w 16 8 ≤ 254)
  | 0x11 => decide (1 ≤ fld w 64 32)
  | 0x20 => decide (1 ≤ fld w 32 16) && (decide (fld w 24 8 ≤ 191) || fld w 24 8 == 0xFF)
  | 0x30 => bitOf w 8 || fld w 40 8 == 0
  | 0x60 =>
    match modeOf (fld w 16 4) with
    | some m => residentOk m (fld w 24 3) (bitOf w 8) && decide (1 ≤ fld w 32 8) && decide (fld w 32 8 ≤ 128)
        && decide (1 ≤ fld w 40 12) && decide (fld w 40 12 ≤ m.kPerPass) && decide (1 ≤ fld w 116 12)
    | none => false
  | 0x61 => decide (1 ≤ fld w 16 8) && decide (fld w 16 8 ≤ 128) && decide (fld w 24 5 ≤ 23) && decide (fld w 29 3 ≤ 5)
      && (decide (fld w 72 16 < 4096) || fld w 72 16 == 0xFFFF)
  | 0x62 => decide (fld w 32 5 ≤ 23)
  | 0x63 => decide (1 ≤ fld w 16 16)
  | _ => true

/-- A word decodes: its opcode is listed, no reserved bit is set, its values lie in range (R142, R143). -/
def wordOk (w : Nat) : Bool :=
  match wordFields (wOp w) with
  | some fs => (w / 256 * 256 &&& (2 ^ 128 - 1 - fieldMask fs)) == 0 && wordValuesOk w
  | none => false

/-- Words of a direct program (R157). -/
def directWord (op : Nat) : Bool := op == 0 || op == 2 || op == 0x20 || op == 0x21 || (decide (0x60 ≤ op) && decide (op ≤ 0x63))

/-- Bytes from ADDR that a DT_LOAD reads (R22, R43, R44). -/
def dtExtent (w : Nat) : Nat :=
  let m := (modeOf (fld w 16 4)).getD .t1
  let cols := fld w 32 8
  let k := fld w 40 12
  let stride := 64 * fld w 116 12
  let size := ((fmtOf (fld w 24 3)).getD .e4m3).bytes
  if !m.fused then (cols - 1) * stride + 64 * (fetchedSegments m k).length
  else if bitOf w 8 then (k - 1) * stride + cols * size
  else (cols - 1) * stride + k * size

/-- Mode and K of the words that a DT_PASS runs on: those loaded since the last exchange, else the active ones (R157). -/
def Press.words (p : Press) : Resident := if p.ready then p.shadow else p.active

/-- A direct word as the Needle of a core reaches it (R157). -/
def State.directOk (s : State) (c : CoreId) (w : Nat) : Bool :=
  let inside := fun (a n : Nat) => decide (a + n ≤ s.layoutEnd)
  wordOk w && directWord (wOp w) &&
    match wOp w with
    | 0x60 => inside (fld w 64 52) (dtExtent w)
    | 0x61 =>
      let p := (s.core c).press
      p.loaded && streamedOk p.words.mode (fld w 29 3)
        && decide (fld w 32 23 + (fld w 16 8 - 1) * (64 * fld w 56 16)
             + p.words.mode.rowBytes ((sfmtOf (fld w 29 3)).getD .e4m3) ≤ coreMemSize .quire)
    | 0x63 => inside (fld w 64 52) (64 * fld w 16 16) && decide (fld w 32 23 + 64 * fld w 16 16 ≤ coreMemSize .quire)
    | _ => true

end Sys2Proof.Machine
end

