-- ==== Sys2Proof/Machine/Needle.lean ====
section
/-!
DEFINITION. The Needle (R140 to R158): each command word's meaning, kettle signals, and the release of a step.

A Needle command takes the next word of one core when that word has the command's opcode (log entry 2).
-/

namespace Sys2Proof.Machine

/-! ### The driver -/

def State.modNeedle (s : State) (c : CoreId) (f : Needle → Needle) : State :=
  s.modCore c fun k => { k with needle := f k.needle }

def State.takeWord (s : State) (c : CoreId) : State := s.modCore c Core.takeWord

/-- DECODE_FAULT (R157): the core and the word index. -/
def State.decodeFault (s : State) (c : CoreId) : State := s.coreStops c 0x0204 (c.val + 2 ^ 8 * (s.core c).needle.pos)

/-- The next word of a core, taken from the queue of its section by its meaning `f` when its opcode is the command's; `f` receives the
word's number. A direct word that fails decoding, and the end of a direct section without its SECTION_END, stop the core (R157). -/
def needleDo (c : CoreId) (op : Nat) (f : Image → Nat → Nat → State → State) (s : State) : Host.Outcome State Fault Refusal :=
  let n := (s.core c).needle
  match s.prog.active with
  | none => .next s
  | some img =>
    if n.stopped ∨ !s.issuing ∨ !n.sect.runs ∨ (s.core c).asleep then .next s
    else
      let t := s.awlReads c
      match (t.core c).headWord with
      | none => .next (if img.direct ∧ (s.part img c n.sect.part).2 ≤ n.pos then t.decodeFault c else s)
      | some (no, w) =>
        if img.direct && !t.directOk c w then .next (t.decodeFault c)
        else if wOp w ≠ op then .next s
        else .next (f img no w t)

/-! ### Work outstanding (R142, R151, R187) -/

/-- Numbers of the Press work that the Needle has issued and that has not ended. -/
def Core.pressWork (k : Core) : List Nat :=
  (k.press.queue.filter (·.taken)).map (·.serial) ++ k.press.pass.toList.map (·.serial) ++ k.press.beats.map (·.serial)
def Core.ploughWork (k : Core) : List Nat := k.plough.queue.map (·.serial)

/-- The words that the queue of the Awl holds for a section: stream words that the Needle has taken and that are not wholly delivered.
A shadow stream has no read of its own (R170): its entry frees as it is taken (DEDUCED, log entry 14). -/
def State.awlQueue (s : State) (img : Image) (c : CoreId) (elastic : Bool) : Nat :=
  (((s.core c).awl.streams.toList.zipIdx.filter fun p => img.direct || !sShadow (s.streamEntry img c p.2)).map fun p =>
    (p.1.arms.filter fun a => a.issued && a.elastic == elastic).length).sum

/-- Numbers of stream words issued and not wholly delivered. A signal of the step does not wait for words of the elastic section, which
move only between steps (R141, R182; DEDUCED, log entry 65). -/
def Core.awlWork (k : Core) (elastic : Bool) : List Nat :=
  (k.awl.streams.toList.map fun x => (x.arms.filter fun a => a.issued && (elastic || !a.elastic)).map (·.serial)).flatten

/-- The work in a SCOPE that is outstanding now (R143). -/
def Core.workIn (k : Core) (scope : Nat) (elastic : Bool) : List Nat :=
  if scope = 1 then k.pressWork
  else if scope = 2 then k.ploughWork
  else if scope = 3 then k.awlWork elastic
  else k.pressWork ++ k.ploughWork ++ k.awlWork elastic

/-- Whether the work that a signal awaits is complete (R151). -/
def Core.scopeDone (k : Core) (g : Signal) : Bool :=
  g.awaits.all fun n => !(k.workIn g.scope.toNat true).contains n

/-- Streams of a core with armed entries of their own reads or writes, or with reads to issue for a group (R179, R180). -/
def State.streamsBusy (s : State) (img : Image) (c : CoreId) (e : Bool) : Bool :=
  ((s.core c).awl.streams.toList.zipIdx.any fun p =>
    p.1.duty.any (·.elastic == e) || (p.1.arms.any (·.elastic == e) && !(!img.direct && sShadow (s.streamEntry img c p.2))))

/-- Whether the Press or the Plough has work of a section: words in their queues, and in direct mode a pass or beats. -/
def Core.enginesBusy (k : Core) (e : Bool) : Bool :=
  k.press.queue.any (·.elastic == e) || k.plough.queue.any (·.elastic == e)
    || (!e && k.press.queue.isEmpty && (k.press.pass.isSome || !k.press.beats.isEmpty))

/-- Nothing that a section issued is outstanding (R18, R187; DEDUCED, log entry 14): engines, streams, signals. Fabric words are waited
for by the boundary itself (R18). -/
def State.drained (s : State) (img : Image) (c : CoreId) (e : Bool) : Bool :=
  let k := s.core c
  !k.enginesBusy e && !s.streamsBusy img c e && !k.signals.any (·.elastic == e) && !k.doneSignals.any (·.elastic == e)

/-- Once a section has ended, entries of shadow streams that no load has read are armed no longer (R170; DESIGN CHOICE, log entry 14),
and an issuer forgets the arms of the section (R179). -/
def Core.dropArms (k : Core) (e : Bool) : Core :=
  { k with awl := { k.awl with streams := k.awl.streams.map fun x =>
      { x with arms := x.arms.filter (·.elastic != e), duty := x.duty.filter (·.elastic != e), dutyByte := 0,
               memberArms := x.memberArms.filter (·.2.elastic != e) } } }

/-! ### Words (R142, R143) -/

/-- NOP. -/
def execNeedleNop (c : CoreId) (s : State) : Host.Outcome State Fault Refusal :=
  needleDo c 0x00 (fun _ _ _ s => s.takeWord c) s

/-- STEP_END (R18, R140, R141, R143): holds until the core's work of the step is complete; the core has then retired its last
word, and an elastic section under way resumes. -/
def execStepEnd (c : CoreId) (s : State) : Host.Outcome State Fault Refusal :=
  needleDo c 0x01 (fun img _ w s =>
    if !s.drained img c false then s
    else ((s.takeWord c).modCore c (·.dropArms false)).modNeedle c fun n =>
      { n with retired := true, sleepReq := bitOf w 8, sect := if n.elasticOn then .elastic else .done,
               pos := if n.elasticOn then n.elasticPos else 0 }) s

/-- The elastic handle completes when the section has ended on every core (R141), with CORE_FAULT when a core fault was found in it
(R224). -/
def State.endElastic (s : State) : State :=
  if allCores.any fun (c : CoreId) => (s.core c).needle.elasticOn then s
  else match s.prog.elasticHandle with
    | none => s
    | some h =>
      (match s.prog.elasticFault with
        | some cause => s.complete h 0x0206 cause s.prog.elasticRuns.toNat
        | none => s.complete h 0 0 s.prog.elasticRuns.toNat).modProg fun p => { p with elasticHandle := none, elasticFault := none }

/-- SECTION_END (R140, R141, R158): ends the prologue, the elastic section or, on the last core, a direct program. -/
def execSectionEnd (c : CoreId) (s : State) : Host.Outcome State Fault Refusal :=
  needleDo c 0x02 (fun img _ _ s =>
    if (s.core c).needle.sect = .elastic then
      if !s.drained img c true then s
      else
        let s := ((s.takeWord c).modCore c (·.dropArms true)).modNeedle c fun n =>
          { n with elasticOn := false, elasticPos := 0, sect := if n.retired then .done else s.prog.schedule, pos := 0 }
        s.endElastic
    else if !s.drained img c false then s
    else
      let s := ((s.takeWord c).modCore c (·.dropArms false)).modNeedle c fun n => { n with sect := .done, pos := 0 }
      if img.direct ∧ allCores.all fun (c : CoreId) => decide (img.cores ≤ c.val) || (s.core c).needle.sect == .done
      then s.endProgram 0 0 none else s) s

/-- RUN (R142, R145, R147, R148, R165, R193, R219): the Needle reads the template and its descriptor, and the template joins its engine's
queue of four. The Press has the RUN from the Awl, which passed it before; an idle Plough begins the first invocation of its template. -/
def execRun (c : CoreId) (s : State) : Host.Outcome State Fault Refusal :=
  needleDo c 0x10 (fun img no w s =>
    let k := s.core c
    let t := s.runTemplate img c k.needle.sect (fld w 16 8)
    let x := s.template img c t
    let s := (s.touchTable img c 0 64 t).touchTable img c 1 128 (tDesc x)
    if tKind x = 0 then
      if 4 ≤ (k.press.queue.filter (·.taken)).length then s
      else (s.takeWord c).modCore c fun k =>
        { k with press := { k.press with queue := modJob no (fun j => { j with taken := true }) k.press.queue } }
    else if 4 ≤ k.plough.queue.length then s
    else
      let j : PloughJob := { template := t, next := 0, total := nestSize (s.descriptor img c (tDesc x)), serial := no, layer := tLayer x,
                             elastic := decide (k.needle.sect = .elastic) }
      ((s.takeWord c).modCore c fun k => { k with plough := { k.plough with queue := k.plough.queue ++ [j] } }).ploughNext c) s

/-- STREAM (R142, R165, R170, R180): the Awl armed the entries when it passed the word; the word joins the queue of the Awl, which holds
four words of a section (R184: the elastic section does not hold the pinned schedule), and holds the Needle while it is full. -/
def execStream (c : CoreId) (s : State) : Host.Outcome State Fault Refusal :=
  needleDo c 0x11 (fun img no w s =>
    let i := fld w 16 6
    if 4 ≤ s.awlQueue img c (decide ((s.core c).needle.sect = .elastic)) then s
    else (s.takeWord c).modCore c fun k => k.modStrm i fun x =>
      { x with arms := x.arms.map fun a => if a.serial = no then { a with issued := true } else a }) s

/-- KETTLE_SIGNAL (R151): queued with the work that it awaits; the Needle holds only when 64 wait. -/
def execKettleSignal (c : CoreId) (s : State) : Host.Outcome State Fault Refusal :=
  needleDo c 0x20 (fun _ _ w s =>
    if 64 ≤ (s.core c).signals.length then s
    else
      let t : CoreId := if h : fld w 24 8 < 192 then ⟨fld w 24 8, h⟩ else c
      (s.takeWord c).modCore c fun k =>
        let e := decide (k.needle.sect = .elastic)
        { k with signals := k.signals ++
            [{ target := t, id := BitVec.ofNat 8 (fld w 16 8), incr := BitVec.ofNat 16 (fld w 32 16),
               scope := BitVec.ofNat 2 (fld w 8 2), awaits := k.workIn (fld w 8 2) e, elastic := e }] }) s

/-- An increment reaches its counter (R151). -/
def Core.addKettle (k : Core) (g : Signal) : Core :=
  { k with kettle := k.kettle.set g.id.toNat (k.kettle.get ⟨g.id.toNat, g.id.isLt⟩ + g.incr) g.id.isLt }

/-- The oldest waiting signal whose work is complete: each is applied once its own work has completed (R151). -/
def Core.nextSignal (k : Core) : Option Signal := k.signals.find? k.scopeDone

/-- KETTLE_SIGNAL_APPLY (R151, R164, R189): the next signal whose work is complete, or the next completion signal, reaches its
counter. -/
def execKettleSignalApply (c : CoreId) (completion : Bool) (s : State) : Host.Outcome State Fault Refusal :=
  let k := s.core c
  if s.prog.active = none ∨ !s.aclkRuns then .next s
  else if completion then
    match k.doneSignals with
    | [] => .next s
    | g :: rest => .next ((s.modCore c fun k => { k with doneSignals := rest }).modCore g.target (·.addKettle g))
  else
    match k.nextSignal with
    | none => .next s
    | some g => .next ((s.modCore c fun k => { k with signals := k.signals.erase g }).modCore g.target (·.addKettle g))

/-- KETTLE_WAIT (R152, R153, R326): passes once the counter is at least COUNT; the highest identifier satisfied in the section is
kept. -/
def execKettleWait (c : CoreId) (s : State) : Host.Outcome State Fault Refusal :=
  needleDo c 0x21 (fun _ _ w s =>
    let id := BitVec.ofNat 8 (fld w 16 8)
    let v := (s.core c).kettle.get ⟨id.toNat, id.isLt⟩
    if v.toNat < fld w 32 16 then s
    else (s.takeWord c).modCore c fun k =>
      { k with satisfied := if k.satisfied.elim true (fun x => decide (x.toNat ≤ id.toNat)) then some id else k.satisfied }) s

/-- CADENCE (R154): the releasing word passes once the core's step is released; another holds until TICK ticks after the release. -/
def execCadence (c : CoreId) (s : State) : Host.Outcome State Fault Refusal :=
  needleDo c 0x30 (fun _ _ w s =>
    let n := (s.core c).needle
    if bitOf w 8 then
      if n.released then (s.takeWord c).modNeedle c fun n => { n with waitRelease := false }
      else s.modNeedle c fun n => { n with waitRelease := true }
    else if n.releaseNow + fld w 16 24 ≤ s.now then s.takeWord c
    else s) s

/-- A fabric word: it waits for its slot, or, when the slot has opened already, the step records FABRIC_SLOT_MISSED and the word
carries nothing (R155) and signals nothing (DESIGN CHOICE, log entry 72); in hold mode and in untimed running no slot is missed (R263, R295, R303). -/
def fabricWord (c : CoreId) (recv : Bool) (img : Image) (no w : Nat) (s : State) : State :=
  let slot := fld w 16 8
  let k := s.core c
  let opened := s.fab.openSlots.contains slot
    || decide (s.prog.releaseNow + s.openOffset img (s.slotEntry img slot) < s.now)
  if 4 ≤ k.fabricQ.length then s
  else
    let s := s.takeWord c
    if opened ∧ !s.cad.hold ∧ !s.fab.untimed ∧ !s.fab.cover then
      (s.fault 0x10 c.val).modFab fun f => { f with doneSlots := slot :: f.doneSlots }
    else s.modCore c fun x =>
      { x with fabricQ := x.fabricQ ++ [(slot, recv, fld w 64 52, BitVec.ofNat 8 (fld w 32 8), bitOf w 8, no)] }

/-- FABRIC_SEND. -/
def execFabricSend (c : CoreId) (s : State) : Host.Outcome State Fault Refusal := needleDo c 0x40 (fabricWord c false) s
/-- FABRIC_RECV. -/
def execFabricRecv (c : CoreId) (s : State) : Host.Outcome State Fault Refusal := needleDo c 0x41 (fabricWord c true) s

/-- A request for a set joins the step's requests; two for one set are one, with SHIP the OR of theirs (R156). -/
def addSnap (set : Nat) (ship : Bool) : List SnapReq → List SnapReq
  | [] => [{ set := set, ship := ship }]
  | r :: rs => if r.set = set then { r with ship := r.ship || ship } :: rs else r :: addSnap set ship rs

/-- SNAPSHOT (R142, R156): its work, recording the request, is done as the word is taken, so its queue entry frees at once and never
holds the Needle (DEDUCED, log entry 14). -/
def execSnapshot (c : CoreId) (s : State) : Host.Outcome State Fault Refusal :=
  needleDo c 0x50 (fun _ _ w s =>
    (s.modProg fun p => { p with snaps := addSnap (fld w 16 6) (bitOf w 8) p.snaps }).takeWord c) s

/-! ### The release of a step (R141, R154, R209, R261, R264) -/

/-- The templates that the elastic section of a core runs, with their PEEL templates. -/
def State.elasticTemplates (s : State) (img : Image) (c : CoreId) : List Nat :=
  let ws := (List.range (s.part img c 3).2).map fun i => s.word img c 3 i
  ((ws.filter fun w => wOp w == 0x10).map fun w =>
    [fld w 16 8, tPeel (s.template img c (fld w 16 8))]).flatten

/-- A random stream owned by a template of the elastic section (R209). -/
def State.elasticStream (s : State) (img : Image) (c : CoreId) (i : Nat) : Bool :=
  let own := s.elasticTemplates img c
  (List.range (s.part img c 9).2).any fun j =>
    let e := s.tableEntry img c 4 4 j
    fld e 0 4 == i && own.contains (fld e 8 8)

/-- TICK and FRAMES of the word that releases the next step on a core: word 0 of its schedule (R140, R154). -/
def State.releaseWord (s : State) (img : Image) (c : CoreId) : Nat × Nat :=
  let w := s.word img c s.prog.schedule.part 0
  (fld w 16 24, fld w 40 8)

/-- Whether the counter stands at the release instant of a core, and whether the release is late: on time in frame F + FRAMES, late in a
later frame, after a replay and in the frame that RESUME names (R154, R264); in untimed running only in that frame (R295, R303). -/
def State.releaseNow? (s : State) (img : Image) (c : CoreId) : Option Bool :=
  let (tick, frames) := s.releaseWord img c
  let f := s.cad.frame.toNat
  let last := (s.core c).needle.lastFrame.toNat
  if s.replaying ∧ (s.cad.resumeFrame.isSome ∨ img.bounds.devices ≤ 1) then some true
  else if !s.cad.valid ∨ s.cad.tick.toNat ≠ tick then none
  else match s.cad.resumeFrame with
    | some g => if g.toNat ≤ f then some true else none
    | none =>
      if s.fab.untimed || s.fab.cover then none
      else if 0 < s.prog.discards then (if last < f then some true else none)
      else if f = last + frames then some false
      else if last + frames < f then some true
      else none

/-- A core at its release: positions of its random streams saved, its elastic position saved, its step begun (R141, R154, R209). -/
def Core.atRelease (k : Core) (sect : Sect) (now : Nat) (frame : BitVec 40) : Core :=
  { k with drawsSaved := k.draws, satisfied := none, press := k.press.dropElasticLoad,
           needle := { k.needle with
             elasticPos := if k.needle.sect = .elastic then k.needle.pos else k.needle.elasticPos,
             sect := sect, pos := 0, retired := false, sleepReq := false, waitRelease := false, released := true, releaseNow := now,
             lastFrame := frame } }

/-- A step that is replayed waits for the inputs that its recovery asked for (R302, R304). -/
def State.inputMissing (s : State) : Bool := s.replaying && s.prog.inputWant.any fun i => i.1 == s.prog.step

/-- The cores whose step is released now: those not released yet whose instant has come. -/
def State.releasable (s : State) (img : Image) : List CoreId :=
  (allCores.filter fun (c : CoreId) => decide (c.val < img.cores)).filter fun c =>
    !(s.core c).needle.released && (s.releaseNow? img c).isSome

/-- The first release of a step: its reference for slots and votes (R154, R261), and the frames and slots of the step begin anew. -/
def State.beginStep (s : State) : State :=
  let first := !s.prog.startedRel
  let s := s.modProg fun p =>
    { p with released := true, releaseAt := s.cad.counter, releaseNow := s.now, lastFrame := s.cad.frame, startedRel := true,
             checkpointWait := false }
  let s := (s.modCad fun c => { c with votes := [], voted := false }).modFab fun f =>
    { f with openSlots := [], doneSlots := [], receiving := [] }
  if first then
    match s.prog.handle with
    | some h => (s.modEntry h fun e => { e with exclusiveDone := true }).raise 0x0310 noCore (item2 s.cad.frame.toNat)
    | none => s
  else s

/-- STEP_RELEASE (R141, R154, R209, R261, R264, R325): the step is released on every core whose instant the counter has reached; the
first of them begins the step, and a late one raises CADENCE_LATE. -/
def execStepRelease (s : State) : Host.Outcome State Fault Refusal :=
  match s.prog.active with
  | none => .next s
  | some img =>
    let cs := s.releasable img
    if s.prog.phase ≠ .steps ∨ cs = [] ∨ s.cad.hold ∨ s.clk.lost ∨ s.clk.returning
        ∨ (s.prog.recovering ∧ !s.replaying) ∨ s.inputMissing ∨ s.prog.awaiting ≠ [] ∨ allCores.any fun (c : CoreId) => (s.core c).asleep then .next s
    else
      let late := cs.any fun c => s.releaseNow? img c == some true
      let t := cs.foldl (fun t c => t.modCore c (·.atRelease s.prog.schedule s.now s.cad.frame)) s
      let t := if s.prog.released then t else t.beginStep
      let all := (allCores.filter fun (c : CoreId) => decide (c.val < img.cores)).all fun c => (t.core c).needle.released
      let t := if all then t.modCad fun c => { c with resumeFrame := none } else t
      .next (if late ∧ !t.fab.untimed ∧ !t.fab.cover then
          t.raiseStep 0x0302 noCore (item2 t.prog.step.toNat ++ item2 t.cad.counter.toNat)
        else t)

/-! ### Direct words (R157, R158) -/

/-- Bytes at an address for a direct word: the failing unit of a poisoned read is named by its offset from ADDR. -/
def State.readDirect (s : State) (base off n : Nat) : Except HaltAt Landing :=
  match s.readSpans [{ block := 0, offset := off, addr := base + off, len := n }] with
  | .error h => .error h
  | .ok (w, bytes) => .ok { place := w, bytes := bytes, keys := [] }

/-- A direct word that meets bad data halts as stream 0 and holds the Needle until it is resumed (R81, R186). -/
def State.directHalt (s : State) (c : CoreId) (h : HaltAt) : State := s.haltStream c 0 false h

/-- DT_LOAD (R22, R38, R44, R81, R157): the shadow words are loaded whole; their observation waits for the DT_PASS that names the
layer (R158). -/
def execDtLoad (c : CoreId) (s : State) : Host.Outcome State Fault Refusal :=
  needleDo c 0x60 (fun _ _ w s =>
    if ((s.core c).strm 0).halted.isSome then s
    else
      let m := (modeOf (fld w 16 4)).getD .t1
      let f := (fmtOf (fld w 24 3)).getD .e4m3
      let k := fld w 40 12
      match loadColumns m f (bitOf w 8) (s.readDirect (fld w 64 52)) 0 (64 * fld w 116 12) k (List.range (fld w 32 8)) with
      | .error h => s.directHalt c h
      | .ok (cols, _) =>
        let r : Resident := { mode := m, rfmt := f, kValid := k, cols := cols }
        (s.takeWord c).modCore c fun x =>
          { x with press := { x.press with shadow := r, ready := true, pendingObs := some r, loaded := true } }) s

/-- DT_PASS (R22, R68, R157, R158): exchanges when a DT_LOAD has come since the last one, and begins a pass of ROWS pass-rows into
tile ACC_SLOT. -/
def execDtPass (c : CoreId) (s : State) : Host.Outcome State Fault Refusal :=
  needleDo c 0x61 (fun _ no w s =>
    let p := (s.core c).press
    let r := p.words
    match p.freeSet with
    | some sel =>
      if p.pass.isSome then s
      else
        let ap : ActivePass :=
          { sel := sel, mode := r.mode, sfmt := (sfmtOf (fld w 29 3)).getD .e4m3, base := fld w 32 23, pitch := 64 * fld w 56 16,
            kValid := r.kValid, rows := fld w 16 8, next := 0, accumulate := bitOf w 8, accRow := 128 * fld w 24 5,
            layer := fld w 72 16, roleS := BitVec.ofNat 2 (fld w 88 2), roleR := BitVec.ofNat 2 (fld w 90 2), lastOfRun := true,
            serial := no }
        (s.takeWord c).modCore c fun k =>
          let k := match k.press.pendingObs with
            | some o => k.observeLoad s.prog.closed (fld w 72 16) (fld w 90 2) o
            | none => k
          let q := if k.press.ready then k.press.exchange else k.press
          { k with press := { (q.putSet sel (some r)) with pendingObs := none, pass := some ap } }
    | none => s) s

/-- DT_PLOUGH (R157, R158, R193): one invocation at KERNEL with P2 the tile's first byte and P3 the argument, once the kernel before
it has ended. -/
def execDtPlough (c : CoreId) (s : State) : Host.Outcome State Fault Refusal :=
  needleDo c 0x62 (fun _ no w s =>
    if (s.core c).plough.queue ≠ [] then s
    else (s.takeWord c).modPl c fun p =>
      { p with queue := [{ template := 0xFF, next := 0, total := 1, serial := no, layer := 0xFFFF, elastic := false }],
               direct := true, accSlot := fld w 32 5 }.start (fld w 16 12) 0 0 (65536 * fld w 32 5) (fld w 64 64)) s

/-- DT_MOVE (R157, R170, R186): LENGTH units of 64 bytes copied between device memory and the Quire store. -/
def execDtMove (c : CoreId) (s : State) : Host.Outcome State Fault Refusal :=
  needleDo c 0x63 (fun _ _ w s =>
    let n := 64 * fld w 16 16
    let q := fld w 32 23
    let a := fld w 64 52
    if ((s.core c).strm 0).halted.isSome then s
    else if bitOf w 8 then
      let t := s.touch c .quire q n 1
      if t.prog.active = none then t else (t.dramWrite a ((s.core c).read .quire q n)).takeWord c
    else match s.readDirect a 0 n with
      | .error h => s.directHalt c h
      | .ok l => (s.modCore c fun k => k.store .quire q l.bytes).takeWord c) s

end Sys2Proof.Machine
end

