-- ==== Sys2Proof/Machine/Repair.lean ====
section
/-!
DEFINITION. Sites and stacks: scrubbing of core memories (R227), patrol scrub and repair of DRAM rows (R243 to R246), and the tests
of guard sites (R238, R240, R359).
-/

namespace Sys2Proof.Machine

/-! ### The words of a site (R211, R223) -/

/-- The words in error of a site: of the core that it carries, or its own. -/
def State.marksAt (s : State) (i : SiteId) : List EccMark :=
  match s.coreAt i with
  | some c => (s.core c).ecc
  | none => (s.site i).ecc

def State.setMarks (s : State) (i : SiteId) (ms : List EccMark) : State :=
  match s.coreAt i with
  | some c => s.modCore c fun k => { k with ecc := ms }
  | none => s.modSite i fun x => { x with ecc := ms }

def Site.mem (x : Site) : CoreMem → Memory
  | .quire => x.quire
  | .acc => x.acc
  | .endpaper => x.endp

def Site.withMem (x : Site) (mem : CoreMem) (m : Memory) : Site :=
  match mem with
  | .quire => { x with quire := m }
  | .acc => { x with acc := m }
  | .endpaper => { x with endp := m }

/-- Bytes stored in a memory of a site, as an error leaves them. -/
def State.spoil (s : State) (i : SiteId) (mem : CoreMem) (a : Nat) (bytes : List Byte) : State :=
  match s.coreAt i with
  | some c => s.modCore c fun k => k.write mem a bytes
  | none => s.modSite i fun x => x.withMem mem (Mem.write zeroByte (x.mem mem) a bytes)

def sameWord (mem : CoreMem) (word : Nat) (m : EccMark) : Bool := m.mem == mem && m.word == word

/-- A word goes bad: what is read of an uncorrectable word is a free value (R224; log entry 18). -/
def State.breakWord (s : State) (i : SiteId) (m : EccMark) : State :=
  let s := s.setMarks i (m :: (s.marksAt i).filter fun x => !sameWord m.mem m.word x)
  match m.find with
  | .uncorrectable => (s.spoil i m.mem m.word (leBytes (eccWord m.mem) (s.free 0).toNat)).bump
  | _ => s

/-- An error of a stored word (R223): a second one in a word is uncorrectable. A memory without power keeps nothing (R222). -/
def State.upset (s : State) (i : SiteId) (mem : CoreMem) (a : Nat) (found : EccFind) : State :=
  let word := a / eccWord mem * eccWord mem
  if found = .clean ∨ coreMemSize mem ≤ a ∨ (s.site i).deepSleep then s
  else if (s.marksAt i).any fun m => sameWord mem word m && m.find == .uncorrectable then s
  else s.breakWord i { mem := mem, word := word,
                       find := if (s.marksAt i).any (sameWord mem word) then .uncorrectable else found }

/-- The errors of this reference edge (log entry 60). -/
def State.takeUpsets (s : State) : State :=
  (s.upsets.filter fun u => u.1 == s.now).foldl (fun s u => s.upset u.2.1 u.2.2.1 u.2.2.2.1 u.2.2.2.2) s

/-! ### The scrubber (R223 to R227) -/

/-- What the scrubber finds in a word: the error that the word already has, else what is found now. -/
def scrubFind (ms : List EccMark) (mem : CoreMem) (word : Nat) (found : EccFind) : EccFind :=
  match ms.find? (sameWord mem word) with
  | some m => m.find
  | none => found

/-- A site whose scrubber runs: in service, or a guard, waiting out of deep sleep or under test; the arithmetic clock runs (R227,
R366, R371). -/
def State.scrubs (s : State) (i : SiteId) : Bool :=
  s.pwr.main && !(s.site i).deepSleep && (s.site i).role != .retired && !s.clk.lost && !s.clk.returning

/-- SCRUB_ACCESS (R223 to R227): a corrected word is counted and written back; an uncorrectable one is counted and left, with no
fault; its content is a free value from then on (log entry 18). The command names the word; the order of the patrol is not its
concern. -/
def execScrubAccess (site : SiteId) (mem : CoreMem) (addr : Nat) (found : EccFind) (s : State) :
    Host.Outcome State Fault Refusal :=
  let word := addr / eccWord mem * eccWord mem
  if !s.scrubs site ∨ coreMemSize mem ≤ addr then .next s
  else
    let core := (s.coreAt site).elim 0xFF (·.val)
    let step := (s.coreAt site).elim s.prog.step s.stepOf
    let ms := s.marksAt site
    let rec' := fun (ue : Bool) (bit : Nat) => eccRecord core site.val mem ue 6 bit word step s.stamp
    match scrubFind ms mem word found with
    | .clean => .next s
    | .corrected b => .next ((s.setMarks site (ms.filter fun m => !sameWord mem word m)).countCe site mem (rec' false b.toNat))
    | .uncorrectable =>
      let s := if ms.any (sameWord mem word) then s else s.breakWord site { mem := mem, word := word, find := .uncorrectable }
      .next (s.countUe site (rec' true 0))

/-! ### DRAM rows (R242 to R246) -/

def sameRow (bank row : Nat) (r : DramRow) : Bool := r.bank == bank && r.row == row

/-- The history of a row changed, or begun. -/
def modRow (bank row : Nat) (f : DramRow → DramRow) : List DramRow → List DramRow
  | [] => [f { bank := bank, row := row, passes := 0, candidate := false, withdrawn := false }]
  | r :: rs => if sameRow bank row r then f r :: rs else r :: modRow bank row f rs

/-- A row's uncorrectable error in the record of the last 100,000,000 ticks (R242). -/
def Stack.noteUe (k : Stack) (now bank row : Nat) : Stack :=
  { k with ue := satInc32 k.ue, rows := modRow bank row (fun r => { r with candidate := !r.withdrawn }) k.rows,
           ueRows := (k.ueRows.filter fun p => decide (now < p.2 + 100000000)) ++ [(bank * 2 ^ 32 + row, now)] }

/-- Distinct rows with uncorrectable errors within the last 100,000,000 ticks (R242). -/
def Stack.ueCount (k : Stack) (now : Nat) : Nat :=
  ((k.ueRows.filter fun p => decide (now < p.2 + 100000000)).map (·.1)).dedup.length

/-- A 256-byte unit poisoned (R244). -/
def State.poisonUnit (s : State) (u : Nat) : State := if s.poison.contains u then s else { s with poison := s.poison ++ [u] }

/-- A read of device memory found uncorrectable: its unit is poisoned and its row becomes a repair candidate (R243, R244). -/
def State.dramUncorrectable (s : State) (a : Nat) : State :=
  let p := s.placeOf (a / unitBytes)
  let r := Config.dramRow p.2 (a % unitBytes / 256)
  (s.poisonUnit (a / 256)).modStack ⟨p.1 % 20, Nat.mod_lt _ (by decide)⟩ fun k => k.noteUe s.now r.1 r.2

/-- DRAM_PATROL_SCRUB (R231, R243): errors corrected and counted; the third corrected pass in a row, or an uncorrectable read, makes
the row a candidate. Which unit of the row is then poisoned is a free value (log entry 7). -/
def execDramPatrolScrub (stack : StackId) (bank row : Nat) (found : EccFind) (s : State) : Host.Outcome State Fault Refusal :=
  let k := s.stack stack
  if !s.pwr.main ∨ k.state ≠ .service ∨ k.selfRefresh then .next s
  else match found with
    | .clean => .next (s.modStack stack fun k => { k with rows := k.rows.map fun r => if sameRow bank row r then { r with passes := 0 } else r })
    | .corrected _ =>
      .next <| s.modStack stack fun k =>
        { k with ce := satInc32 k.ce,
                 rows := modRow bank row (fun r =>
                   { r with passes := r.passes + 1, candidate := !r.withdrawn && (r.candidate || decide (2 ≤ r.passes)) }) k.rows }
    | .uncorrectable =>
      .next ((s.poisonUnit ((s.free 0).toNat % (dramBytes / 256))).modStack stack fun k => k.noteUe s.now bank row).bump

/-- Spare rows of a bank already used (R243). -/
def Stack.used (k : Stack) (bank : Nat) : Nat := ((k.sparesUsed.find? fun p => p.1 = bank).map (·.2)).getD 0

/-- The frame of a row: the first that has units in it (R243, R246; log entry 7). -/
def frameOfRow (bank row : Nat) : Option Nat :=
  (List.range 32768).find? fun f => (List.range 8192).any fun u => Config.dramRow f u == (bank, row)

/-- SOFT_REPAIR (R243, R244, R246): the oldest candidate row is replaced by a spare of its bank, recorded in flash; with no spare
left its frame is withdrawn, once. -/
def execSoftRepair (stack : StackId) (s : State) : Host.Outcome State Fault Refusal :=
  let k := s.stack stack
  match k.rows.find? (·.candidate) with
  | none => .next s
  | some r =>
    if !s.pwr.main ∨ k.state ≠ .service ∨ k.selfRefresh then .next s
    else if k.used r.bank < 4 then
      let low := decide (k.sparesLeft.toNat ≤ 64) && !k.lowRaised
      let s := s.modStack stack fun k =>
        { k with sparesUsed := (r.bank, k.used r.bank + 1) :: k.sparesUsed.filter (·.1 ≠ r.bank), sparesLeft := k.sparesLeft - 1,
                 softPending := k.softPending + 1, rows := k.rows.filter fun x => !sameRow r.bank r.row x,
                 lowRaised := k.lowRaised || low }
      let s := (s.modMc fun m => { m with softRepairs := m.softRepairs ++ [(stack, r.bank, r.row)] }).raiseDev 0x0402 []
      .next (if low then s.raiseDev 0x0404 [] else s)
    else
      let f := frameOfRow r.bank r.row
      let known := f.any k.withdrawn.contains
      let s := s.modStack stack fun k =>
        { k with badFrames := if known then k.badFrames else k.badFrames + 1, withdrawn := if known then k.withdrawn else f.toList ++ k.withdrawn,
                 rows := modRow r.bank r.row (fun r => { r with candidate := false, withdrawn := true }) k.rows }
      .next (if known then s else s.raiseDev 0x0403 [])

/-! ### Guard sites (R238, R240, R359) -/

/-- GUARD_TEST_START (R220, R240, R359): a waiting guard that is untested, flagged, or last tested 3,600 s ago goes under test, cleared
where it wakes from deep sleep; a vacated site is under test already. -/
def execGuardTestStart (site : SiteId) (s : State) : Host.Outcome State Fault Refusal :=
  let x := s.site site
  act (s.pwr.main && x.role == .guard && (!x.testOk || x.ceFlag || decide (x.testedAt + 360000000000 ≤ s.now))) s
    (s.modSite site fun x => { (if x.deepSleep then x.cleared else x) with role := .underTest, deepSleep := false }).showRoles

/-- GUARD_TEST_DONE (R220, R222, R238, R359): the site passes, is cleared and sleeps, or is retired with cause 7. -/
def execGuardTestDone (site : SiteId) (failPhase : Option Nat) (s : State) : Host.Outcome State Fault Refusal :=
  if !s.pwr.main ∨ (s.site site).role ≠ .underTest then .next s
  else match failPhase with
    | none => .next (s.modSite site fun x =>
        { x.cleared with role := .guard, testOk := true, ceFlag := false, testedAt := s.now, served := 0, deepSleep := true }).showRoles
    | some p =>
      .next ((s.modSite site fun x => { x with role := .retired, testOk := false, cause := 7, testedAt := s.now }).showRoles.raiseDev 0x041B
        [item site.val, item p])

end Sys2Proof.Machine
end

