-- ==== Sys2Proof/Machine/Awl.lean ====
section
/-!
DEFINITION. The Awl (R164 to R189): stream reads and writes, landing, delivery, Mull release, multicast, paging, the tipping path and
the cancellation drain.

An armed word is served before the words armed after it on the same stream; its bytes are requested in order (log entry 14). An issuer
serves its own reads before those of its group (log entry 14).
-/

namespace Sys2Proof.Machine

/-! ### Where a stream's bytes land (R149, R170) -/

/-- Offset, in the space where the stream lands, of the first byte of block-list entry k. -/
def State.landStart (s : State) (e k : Nat) : Nat :=
  ((List.range k).map fun j => landLen e (bLen (s.listEntry e j))).sum

/-- Bytes written to the Quire window of a stream from offset `o` of its landing space. -/
def Core.landWindow (k : Core) (e o : Nat) (bytes : List Byte) : Core :=
  (cutWords (max 1 (sWindowLen e)) (bytes.length + 1) o bytes).foldl
    (fun k p => k.store .quire (sWindowBase e + p.1 % max 1 (sWindowLen e)) p.2) k

/-- Bytes of the stream's source: its Quire window, or accumulator rows (R170). -/
def Core.sourceRead (k : Core) (e o n : Nat) : List Byte :=
  if sDest e = 2 then k.read .acc (512 * sAccBase e + o) n
  else (List.range n).map fun i => Mem.get zeroByte k.quire (sWindowBase e + (o + i) % max 1 (sWindowLen e))

/-- Bytes checked and landed: where they stand in the stream, and what was marked landed. -/
def State.landPlain (s : State) (img : Image) (c : CoreId) (i k off : Nat) (bytes : List Byte) : State :=
  let e := s.streamEntry img c i
  let o := s.landStart e k + off
  s.modCore c fun x => (x.landWindow e o bytes).land i [(landKey k off, bytes.length)]

/-- The folios of a read landed one by one, each checked first; the first that fails halts the stream (R81). -/
def State.landFolios (s : State) (img : Image) (c : CoreId) (i : Nat) (el : Bool) (k addr : Nat) : Nat → Nat → List Byte → State
  | 0, _, _ => s
  | n + 1, off, bytes =>
    if bytes = [] then s
    else
      let x := leNat (bytes.take 64)
      match folioCheck x isWeightCode with
      | some reason => s.haltStream c i el { reason := reason, block := k, offset := off, addr := addr }
      | none => (s.landPlain img c i k off (bytes.take 64)).landFolios img c i el k (addr + 64) n (off + 64) (bytes.drop 64)

/-- Returned data at one member (R81, R104, R170, R183, R186, R188): data at or beyond the failing unit of a halted stream is read again
later and is dropped, but for a page that is not there; MEMORY_POISON halts the stream at the aligned 256 bytes; a shadow stream keeps it
for its load and a Mull stream for its block; a folio stream checks it; the rest lands. -/
def State.landRead (s : State) (img : Image) (c : CoreId) (i : Nat) (el : Bool) (k off addr : Nat) (bad : Bool) (bytes : List Byte) :
    State :=
  let e := s.streamEntry img c i
  if ((s.core c).strm i).haltedBefore k off then s
  else if bad then
    let back := min off (addr % 256)
    s.haltStream c i el { reason := 0x20, block := k, offset := off - back, addr := addr - back }
  else if sShadow e || (sMull e).isSome then s.modStrm c i fun x => { x with buffer := Mem.put x.buffer (landKey k off) bytes }
  else if sKind e = 1 then s.landFolios img c i el k addr (bytes.length / 64 + 1) off bytes
  else s.landPlain img c i k off bytes

/-! ### Reads and writes issued (R166, R168 to R172, R179 to R183) -/

/-- The next piece of some armed entries, from entry k and `off` bytes on: within one block and one 256-byte unit (R171). None when all
of them have been requested; an entry that breaks R168 or R169, or that the list no longer holds, is LIST_INVALID. -/
def State.pieceFrom (s : State) (img : Image) (e : Nat) : Nat → Nat → Nat → Except HaltAt (Option Span)
  | 0, _, _ => .ok none
  | n + 1, k, off =>
    let b := s.listEntry e k
    if sListCount e ≤ k then .error { reason := 0x40, block := k - 1, offset := 0, addr := bAddr (s.listEntry e (k - 1)) }
    else if !s.listEntryOk img e b then .error { reason := 0x40, block := k, offset := 0, addr := bAddr b }
    else if bLen b ≤ off then s.pieceFrom img e n (k + 1) (off - bLen b)
    else
      let a := bAddr b + off
      .ok (some { block := k, offset := off, addr := a, len := min (256 - a % 256) (bLen b - off) })

/-- The next piece of an armed word of which `done` bytes have been requested. -/
def State.nextPiece (s : State) (img : Image) (e : Nat) (a : Arm) (done : Nat) : Except HaltAt (Option Span) :=
  s.pieceFrom img e a.count a.first done

/-- The lowest free tag, at most 640 (R171). -/
def freeTagFrom (rs : List AwlRead) : Nat → Nat → Option Nat
  | 0, _ => none
  | n + 1, t => if rs.any (·.tag = t) then freeTagFrom rs n (t + 1) else some t

/-- Tags that reads of the elastic section hold (R166). -/
def Core.elasticTags (k : Core) : Nat := (k.awl.reads.filter (·.elastic)).length

/-- A tag taken for a read: its generation advances (R171, R189). -/
def Awl.take (a : Awl) (t stream group : Nat) (elastic : Bool) (sp : Span) : Awl :=
  let g : BitVec 2 := ((a.gens.find? fun p => p.1 = t).map (·.2)).getD 3 + 1
  { a with reads := a.reads ++ [{ tag := t, gen := g, stream := stream, group := group, elastic := elastic, dropped := false,
                                  offset := landKey sp.block sp.offset, addr := sp.addr, len := sp.len }],
           gens := (t, g) :: a.gens.filter (·.1 ≠ t) }

/-- What the Awl of a core would read next on a stream, for which word of a group or 0 for itself, and for which section. -/
structure Wanted where
  piece : Span
  group : Nat
  elastic : Bool
  deriving DecidableEq, Repr

/-- A read is under way. -/
def Core.reading (k : Core) (i : Nat) (sp : Span) : Bool :=
  k.awl.reads.any fun r => r.stream == i && !r.dropped && r.offset == landKey sp.block sp.offset

/-- The next read of a shadow stream for the core's own open load: outside a multicast group, or what a member fetches itself (R165, R170,
R180). -/
def State.wantShadow (s : State) (img : Image) (c : CoreId) (i e : Nat) : Except HaltAt (Option Wanted) :=
  match s.loadPieces img c i with
  | .error h => .error h
  | .ok _ =>
    let el := (s.openLoad img c).elim false (·.1.elastic)
    .ok (((s.lacks img c i).find? fun sp =>
      !(s.core c).reading i sp && (!sMulticast e || s.ownEntry img c i e sp.block)).map fun sp => ⟨sp, 0, el⟩)

/-- The next read that an issuer makes for the open loads of its group: an entry that every member has armed, where every member that
takes the group's data lacks it (R179, R180). -/
def State.wantGroupShadow (s : State) (img : Image) (c : CoreId) (i e : Nat) : Option Wanted :=
  let ms := s.members img (sGroup e)
  let takers := fun (k : Nat) => ms.filter fun m => ((s.core m.1).strm m.2).halted.isNone && !s.fetchesOwn (c, i) m true k
  ms.findSome? fun m =>
    ((s.lacks img m.1 m.2).find? fun sp =>
      (ms.all fun t => decide (0 < s.told (c, i) t 0 anySerial sp.block)) && (takers sp.block).contains m && !(s.core c).reading i sp
        && (takers sp.block).all fun t => (s.lacks img t.1 t.2).contains sp).map fun sp =>
          ⟨sp, 1, (s.openLoad img m.1).elim false (·.1.elastic)⟩

/-- The next read of an issuer for its group on a stream bound for the Quire store: its own armed words, in order, whatever a failed check
has made of its own stream (R179, R180). -/
def State.wantGroup (s : State) (img : Image) (c : CoreId) (i e : Nat) : Except HaltAt (Option Wanted) :=
  let x := (s.core c).strm i
  match x.duty with
  | [] => .ok none
  | a :: _ =>
    match s.nextPiece img e a x.dutyByte with
    | .error h => if x.halted.isSome then .ok none else .error h
    | .ok none => .ok none
    | .ok (some sp) =>
      let n := s.nthArm (c, i) (c, i) a sp.block
      .ok (if s.groupReady img (c, i) n sp.block then some ⟨sp, n, a.elastic⟩ else none)

/-- The next read or write of the words that a core armed for itself. -/
def State.wantOwn (s : State) (img : Image) (c : CoreId) (i e : Nat) : Except HaltAt (Option Wanted) :=
  let x := (s.core c).strm i
  match x.arms with
  | [] => .ok none
  | a :: _ =>
    if sMulticast e ∧ x.ownUntil ≤ a.serial then .ok none
    else match s.nextPiece img e a x.nextByte with
      | .error h => .error h
      | .ok r => .ok (r.map fun sp => ⟨sp, 0, a.elastic⟩)

/-- A stream that walks, or waits for a page, requests nothing, for its group neither (R183). -/
def Stream.pageHeld (x : Stream) : Bool :=
  x.walking.isSome || x.halted.elim false fun r => r.reason == 0x30 || r.reason == 0x31

/-- What a stream's next AWL_READ_ISSUE requests. A halted stream requests nothing of its own; an issuer goes on for its group. -/
def State.wanted (s : State) (img : Image) (c : CoreId) (i : Nat) : Except HaltAt (Option Wanted) :=
  let e := s.streamEntry img c i
  let x := (s.core c).strm i
  let issuer := sMulticast e && (s.issuer img (sGroup e)).map (·.1) == some c
  let own := if x.halted.isSome then .ok none else if sShadow e then s.wantShadow img c i e else s.wantOwn img c i e
  if x.pageHeld then .ok none
  else match own with
    | .error h => .error h
    | .ok (some w) => .ok (some w)
    | .ok none => if !issuer then .ok none else if sShadow e then .ok (s.wantGroupShadow img c i e) else s.wantGroup img c i e

/-- Whose word a stream is serving, for the record of a halt (R186): the first armed word's, or the open load's. -/
def State.servesElastic (s : State) (img : Image) (c : CoreId) (i : Nat) : Bool :=
  if sShadow (s.streamEntry img c i) then (s.openLoad img c).elim false (·.1.elastic)
  else ((((s.core c).strm i).arms ++ ((s.core c).strm i).duty).head?).elim false (·.elastic)

/-- Bytes of a stream's source read by its write (R170, R223). -/
def State.touchSource (s : State) (c : CoreId) (e o n : Nat) : State :=
  if sDest e = 2 then s.touch c .acc (512 * sAccBase e + o) n 1
  else (cutWords (max 1 (sWindowLen e)) (n + 1) o (List.replicate n 0)).foldl
    (fun s p => s.touch c .quire (sWindowBase e + p.1 % max 1 (sWindowLen e)) p.2.length 1) s

/-- A write of a write stream (R169 to R171): at most 128 credits of 256 bytes. An entry whose accumulator source would pass row 3,071
is LIST_INVALID, and nothing of it is written. -/
def State.issueWrite (s : State) (c : CoreId) (i e : Nat) (elastic : Bool) (sp : Span) : State :=
  let k := s.core c
  let start := s.landStart e sp.block
  let o := start + sp.offset
  if 128 ≤ (k.awl.streams.toList.map (·.writes.length)).sum then s
  else if sDest e = 2 ∧ coreMemSize .acc < 512 * sAccBase e + start + bLen (s.listEntry e sp.block) then
    s.haltStream c i elastic { reason := 0x40, block := sp.block, offset := 0, addr := bAddr (s.listEntry e sp.block) }
  else
    let t := s.touchSource c e o sp.len
    if t.prog.active = none then t
    else
      (t.dramStore sp.addr (k.sourceRead e o sp.len)).modStrm c i fun x =>
        { x with nextByte := x.nextByte + sp.len, writes := x.writes ++ [(landKey sp.block sp.offset, sp.len)] }

/-- The position of a stream, or of an issuer's group, after a request: the next byte, and with all bytes of an issuer's word requested
its next word. -/
def State.advanceStream (s : State) (img : Image) (c : CoreId) (i e : Nat) (w : Wanted) : State :=
  if sShadow e then s
  else if w.group = 0 then s.modStrm c i fun x => { x with nextByte := x.nextByte + w.piece.len }
  else
    let x := (s.core c).strm i
    let done := match x.duty with
      | a :: _ => match s.nextPiece img e a (x.dutyByte + w.piece.len) with
        | .ok none => true
        | _ => false
      | [] => true
    s.modStrm c i fun x =>
      { x with duty := if done then x.duty.tail else x.duty, dutyByte := if done then 0 else x.dutyByte + w.piece.len }

/-- AWL_READ_ISSUE (R164 to R172, R179 to R183): the next piece of a stream is requested: a read under a free tag, or for a write
stream a write under a credit. A miss of the translation cache begins a walk, and holds this stream alone. While words of the next
step wait, the elastic section holds at most 128 tags. -/
def execAwlReadIssue (c : CoreId) (stream : Fin 64) (s : State) : Host.Outcome State Fault Refusal :=
  let s := s.awlReads c
  match s.prog.active with
  | none => .next s
  | some img =>
    let e := s.streamEntry img c stream
    if !s.issuing ∨ img.direct then .next s
    else match s.wanted img c stream with
      | .error h => .next (s.haltStream c stream (s.servesElastic img c stream) h)
      | .ok none => .next s
      | .ok (some w) =>
        let k := s.core c
        if w.elastic ∧ k.needle.sect ≠ .elastic then .next s
        else
          let pages := k.awl.cachedPages (pagesOf w.piece.addr w.piece.len)
          match (if sPaged e then k.missing pages else none) with
          | some p => .next (s.modStrm c stream fun x => { x with walking := some (p, w.piece.block) })
          | none =>
            let s := if sPaged e then s.modCore c fun k => pages.foldl Core.usePage k else s
            if sWrite e then .next (s.issueWrite c stream e w.elastic w.piece)
            else match freeTagFrom k.awl.reads 640 0 with
              | none => .next s
              | some t =>
                if w.elastic ∧ k.awl.pinned.words ≠ [] ∧ 128 ≤ k.elasticTags then .next s
                else .next ((s.modCore c fun k => { k with awl := k.awl.take t stream w.group w.elastic w.piece }).advanceStream
                  img c stream e w)

/-! ### Data returned (R171, R186, R243) -/

/-- READ_RETURN (R81, R171, R179, R186, R188, R189, R243): data of an expired tag is recognised by its generation, which is not the one of
a read under that tag now, and is discarded; otherwise the tag is freed; data no longer wanted, and during a cancellation drain all data,
is discarded; else it is checked and landed, at every taker for a read of a multicast group. Of two answers under one tag the older comes first (DESIGN CHOICE,
log entry 66). -/
def execReadReturn (c : CoreId) (tag : Fin 640) (uncorrectable : Bool) (s : State) : Host.Outcome State Fault Refusal :=
  let a := (s.core c).awl
  match a.late.find? fun p => p.1 = tag.val with
  | some p => .next (s.modCore c fun k => { k with awl := { k.awl with late := k.awl.late.erase p } })
  | none =>
    match a.reads.find? fun r => r.tag = tag.val with
    | none => .next s
    | some r =>
      let s := s.modCore c fun k => { k with awl := { k.awl with reads := k.awl.reads.erase r } }
      let s := if uncorrectable then s.dramUncorrectable r.addr else s
      match s.prog.active with
      | none => .next s
      | some img =>
        if !s.issuing ∨ r.dropped then .next s
        else
          let k := r.offset / 2 ^ 40
          let off := r.offset % 2 ^ 40
          let bad := uncorrectable || s.poisoned r.addr r.len
          let bytes := s.dramRead r.addr r.len
          let members := if r.group = 0 then [(c, r.stream)] else s.takers img c r.stream r.group r.offset
          .next (members.foldl (fun s m => s.landRead img m.1 m.2 r.elastic k off r.addr bad bytes) s)

/-- TAG_EXPIRY (R189): an outstanding tag of a cancelled program expires; what comes back for it later bears its generation. -/
def execTagExpiry (c : CoreId) (tag : Fin 640) (s : State) : Host.Outcome State Fault Refusal :=
  match (s.core c).awl.reads.find? fun r => r.tag = tag.val with
  | none => .next s
  | some r =>
    act (s.prog.phase == .cancelling) s
      (s.modCore c fun k => { k with awl := { k.awl with reads := k.awl.reads.erase r, late := k.awl.late ++ [(r.tag, r.gen)] } })

/-- The first Mull block of an entry that has not been released (R105). -/
def nextBlock (landed : List (Nat × Nat)) (k n : Nat) : Option Nat :=
  (List.range n).find? fun j => !covered landed (landKey k (8192 * j)) 8192

/-- The values of block j of an entry that are written: all 4,096, but for the last block of the entry, whose positions at or beyond the
end of the tensor are discarded. No field of the stream or of its list tells where a tensor ends, so the number is a free value (R100;
log entry 20). -/
def State.realValues (s : State) (blocks j : Nat) : Nat := if j + 1 = blocks then (s.free 0).toNat % 4096 + 1 else 4096

/-- MULL_BLOCK_RELEASE (R95 to R105): once all bytes of the next block have come, its values land, or it is poisoned whole with
canonical NaNs and the stream halts at its first byte. -/
def execMullBlockRelease (c : CoreId) (stream : Fin 64) (s : State) : Host.Outcome State Fault Refusal :=
  let x := (s.core c).strm stream
  match s.prog.active, x.arms with
  | some img, a :: _ =>
    let e := s.streamEntry img c stream
    match sMull e with
    | none => .next s
    | some kd =>
      let k := a.first + a.delivered
      if !s.issuing ∨ sShadow e then .next s
      else match nextBlock x.landed k (bLen (s.listEntry e k) / kd.size) with
        | none => .next s
        | some j =>
          let at0 := landKey k (kd.size * j)
          let got := (List.range kd.size).all fun i => (Mem.lookup x.buffer (at0 + i)).isSome
          if !got ∨ x.haltedBefore k (kd.size * j) then .next s
          else
            let w := leNat (Mem.read zeroByte x.buffer at0 kd.size)
            let s := s.modStrm c stream fun x =>
              { x with buffer := x.buffer.filter fun p => !(decide (at0 ≤ p.1) && decide (p.1 < at0 + kd.size)) }
            match mullCheck kd w with
            | some reason =>
              let nans := (List.replicate 4096 (leBytes 2 kd.nan)).flatten
              let o := s.landStart e k + 8192 * j
              .next ((s.modCore c (·.landWindow e o nans)).haltStream c stream a.elastic
                { reason := reason, block := k, offset := kd.size * j, addr := bAddr (s.listEntry e k) + kd.size * j })
            | none =>
              let blocks := bLen (s.listEntry e k) / kd.size
              let values := ((List.range (s.realValues blocks j)).map fun i => leBytes 2 (mullValue kd w i)).flatten
              let t := s.modCore c fun x =>
                (x.landWindow e (s.landStart e k + 8192 * j) values).land stream [(landKey k (8192 * j), 8192)]
              .next (if j + 1 = blocks then t.bump else t)
  | _, _ => .next s

/-! ### Delivery (R170) -/

/-- Spans of one entry removed once it is delivered. -/
def dropEntry (xs : List (Nat × Nat)) (k : Nat) : List (Nat × Nat) :=
  (xs.map fun p =>
    [(p.1, min (p.1 + p.2) (max p.1 (landKey k 0)) - p.1),
     (max p.1 (landKey (k + 1) 0), p.1 + p.2 - max p.1 (landKey (k + 1) 0))]).flatten.filter fun p => p.2 ≠ 0

/-- An entry that a halt concerns is not delivered, nor any after it; those before it are (R186). -/
def Stream.stopsAt (x : Stream) (k : Nat) : Bool := x.halted.elim false fun r => r.block == k

/-- The next entry of a stream may be delivered now (R170, R186): no halt concerns it, and an elastic word is served while the Needle
executes the elastic section. During a cancellation drain what landed before is still delivered, for the kettle signals (R189). -/
def State.mayDeliver (s : State) (c : CoreId) (x : Stream) (a : Arm) : Bool :=
  (s.issuing || s.prog.phase == .cancelling) && !x.stopsAt (a.first + a.delivered)
    && (!a.elastic || (s.core c).needle.sect == .elastic)

/-- All bytes of the next entry of a stream have landed, or for a write stream have been acknowledged (R170). -/
def State.entryLanded (s : State) (img : Image) (c : CoreId) (i : Nat) (a : Arm) : Bool :=
  let e := s.streamEntry img c i
  let k := a.first + a.delivered
  let b := s.listEntry e k
  s.listEntryOk img e b && covered ((s.core c).strm i).landed (landKey k 0) (landLen e (bLen b))

/-- A member's word is made known to the issuer, if it is not yet (R179). -/
def State.tellArm (s : State) (iss : CoreId × Nat) (c : CoreId) (a : Arm) : State :=
  s.modStrm iss.1 iss.2 fun x =>
    if x.memberArms.any fun r => r.1 == c && r.2.serial == a.serial then x else { x with memberArms := x.memberArms ++ [(c, a)] }

/-- ENTRY_DELIVERY (R170, R179, R186): the next entry is delivered when all its bytes have landed, or for a write stream have been
acknowledged; DELIVER_ID is on its way after each entry, or after the last that the word armed. An entry that breaks R168 or R169 now is
never delivered: the stream halts with LIST_INVALID (R169). -/
def execEntryDelivery (c : CoreId) (stream : Fin 64) (s : State) : Host.Outcome State Fault Refusal :=
  let x := (s.core c).strm stream
  match s.prog.active, x.arms with
  | some img, a :: rest =>
    let e := s.streamEntry img c stream
    let k := a.first + a.delivered
    let b := s.listEntry e k
    if !s.mayDeliver c x a then .next s
    else if !s.listEntryOk img e b then .next (s.haltStream c stream a.elastic { reason := 0x40, block := k, offset := 0, addr := bAddr b })
    else if !s.entryLanded img c stream a then .next s
    else
      let last := decide (a.delivered + 1 = a.count)
      let g : Signal := { target := c, id := BitVec.ofNat 8 (sDeliverId e), incr := 1, scope := 0, awaits := [], elastic := a.elastic }
      let s := s.modCore c fun k' =>
        let k' := k'.modStrm stream fun x =>
          { x with arms := if last then rest else { a with delivered := a.delivered + 1 } :: rest,
                   nextByte := if last then 0 else x.nextByte, landed := dropEntry x.landed k }
        if sDeliverEn e && (sSignalEach e || last) then { k' with doneSignals := k'.doneSignals ++ [g] } else k'
      .next (match if last && sMulticast e then s.issuer img (sGroup e) else none with
        | some m => s.tellArm m c a
        | none => s)
  | _, _ => .next s

/-- WRITE_ACK (R170, R171, R189): the oldest write of a stream is acknowledged; its credit is free. -/
def execWriteAck (c : CoreId) (stream : Fin 64) (s : State) : Host.Outcome State Fault Refusal :=
  match ((s.core c).strm stream).writes with
  | [] => .next s
  | w :: rest => .next (s.modStrm c stream fun x =>
      { x with writes := rest, landed := if x.armed (w.1 / 2 ^ 40) then addSpan x.landed w.1 w.2 else x.landed })

/-- MULTICAST_ARM (R179, R189): the oldest arm of a member that the issuer has not heard of reaches it. -/
def execMulticastArm (c : CoreId) (stream : Fin 64) (s : State) : Host.Outcome State Fault Refusal :=
  let s := s.awlReads c
  match s.prog.active with
  | none => .next s
  | some img =>
    let e := s.streamEntry img c stream
    if !s.issuing ∨ img.direct ∨ !sMulticast e then .next s
    else match s.issuer img (sGroup e) with
      | none => .next s
      | some m =>
        let told := fun (a : Arm) => ((s.core m.1).strm m.2).memberArms.any fun r => r.1 == c && r.2.serial == a.serial
        match ((s.core c).strm stream).arms.find? fun a => !told a with
        | none => .next s
        | some a => .next (s.tellArm m c a)

/-! ### Paging (R183 to R185) -/

/-- The failing unit of a page: block-list entry k, that was reached, and the first byte of the page in it (R186). -/
def State.pageUnit (s : State) (e p k : Nat) : HaltAt :=
  let a := bAddr (s.listEntry e k)
  let first := max a (p * unitBytes)
  { reason := 0x30, block := k, offset := first - a, addr := first }

/-- TRANSLATION_WALK_DONE (R183): a present page enters the translation cache; an absent one halts the stream. A stream that a failed
check has halted already, and that walked for its group, keeps that record and waits for the page as well. -/
def execTranslationWalkDone (c : CoreId) (stream : Fin 64) (s : State) : Host.Outcome State Fault Refusal :=
  match s.prog.active, ((s.core c).strm stream).walking with
  | some img, some (p, k) =>
    let el := s.servesElastic img c stream
    let t := s.modStrm c stream fun x => { x with walking := none }
    if s.prog.present.any (·.1 = p) then .next (t.modCore c (·.usePage p))
    else if ((s.core c).strm stream).halted.isSome then .next s
    else .next (t.haltStream c stream el (t.pageUnit (t.streamEntry img c stream) p k))
  | _, _ => .next s

/-- The paged region that holds a page. -/
def Program.regionOf (p : Program) (page : Nat) : Option PagedRegion :=
  p.paged.find? fun g => decide (g.vbase ≤ page * unitBytes) && decide ((page + 1) * unitBytes ≤ g.vbase + g.pages * unitBytes)

/-- The page that a stream waits for (R183, R184): of its halt, or of the walk that its group's read needs while it is halted. -/
def Stream.waitsPage (x : Stream) : Option Nat :=
  match x.halted with
  | some h => if h.paging then some (h.addr / unitBytes) else x.walking.map (·.1)
  | none => none

/-- A stream that waits for a page goes on at its saved position (R184). -/
def Stream.pageCame (x : Stream) (p : Nat) : Stream :=
  let x := if x.waitsPage = some p then { x with halted := x.halted.filter (!·.paging), walking := none } else x
  if x.fetching = some p then { x with fetching := none } else x

/-- Every stream that waits for a page goes on. -/
def State.resumePage (s : State) (p : Nat) : State :=
  s.mapCores fun k => { k with awl := { k.awl with streams := k.awl.streams.map (·.pageCame p) } }

/-- Frames of the paged pool: the memory of the layout above the pinned pages (R181, R235). -/
def State.poolFrames (s : State) (img : Image) : Nat := (s.layoutEnd - img.pinnedPages * 2 ^ 30) / unitBytes

/-- A page leaves its frame (R184, R185): it is invalidated in every Awl and in the paged map, and written back to its backing if it was
written. -/
def State.evictPage (s : State) (page : Nat × Bool) : State :=
  let s := (s.mapCores fun k => { k with awl := { k.awl with tlb := k.awl.tlb.filter (· ≠ page.1) } }).modProg fun p =>
    { p with present := p.present.filter (·.1 ≠ page.1) }
  match if page.2 then s.prog.regionOf page.1 else none with
  | none => s
  | some g =>
    let bytes := s.dramRead (page.1 * unitBytes) unitBytes
    if g.peer then s.sendDyn g.peerNode .device (.pageWrite page.1 bytes)
    else s.hostWrite (g.backAddr + (page.1 * unitBytes - g.vbase)) bytes

/-- The pages that the Binder is fetching: each has a frame already (R184). -/
def State.fetches (s : State) : List Nat :=
  ((allCores.map fun (d : CoreId) => (s.core d).awl.streams.toList.filterMap (·.fetching)).flatten).dedup

/-- A frame for one more page (R184): a free one of the pool, or that of a page that is evicted; which page the Binder evicts is not
specified: a free value (log entry 21). -/
def State.frameFor (s : State) (img : Image) : State :=
  if s.prog.present.length + s.fetches.length < s.poolFrames img then s
  else match s.prog.present[(s.free 0).toNat % s.prog.present.length]? with
    | some g => (s.evictPage g).bump
    | none => s

/-- PAGE_NOT_PRESENT (R184, R329): the Binder, once up, begins to fetch the page; a page that is there by now resumes the stream, and one
that is being fetched for another stream is not fetched twice. -/
def execPageNotPresent (c : CoreId) (stream : Fin 64) (s : State) : Host.Outcome State Fault Refusal :=
  let x := (s.core c).strm stream
  match x.waitsPage, s.prog.active with
  | some p, some img =>
    if x.fetching.isSome ∨ !s.binderRuns then .next s
    else if s.prog.present.any (·.1 = p) then .next (s.resumePage p)
    else
      let t := if s.fetches.contains p then s else s.frameFor img
      let t := t.modStrm c stream fun x => { x with fetching := some p }
      .next (if s.fetches.contains p then t
        else match (s.prog.regionOf p).filter (·.peer) with
          | some g => t.sendDyn g.peerNode (.pageFetch c stream) (.pageFetch p)
          | none => t)
  | _, _ => .next s

/-- The elastic section ends on every core without its SECTION_END. -/
def State.stopElastic (s : State) : State :=
  allCores.foldl (fun s (c : CoreId) =>
    if !(s.core c).needle.elasticOn then s
    else
      let next := s.prog.schedule
      s.modCore c fun k =>
        let k := (k.stopPress s.prog.closed true).dropArms true
        { k with signals := k.signals.filter (!·.elastic), doneSignals := k.doneSignals.filter (!·.elastic),
                 awl := { k.awl with elastic := ReadAhead.start .idle, reads := k.awl.reads.map fun r => { r with dropped := r.dropped || r.elastic } },
                 plough := if (k.plough.queue.head?).elim false (·.elastic)
                   then { k.plough with running := false, halted := false, queue := k.plough.queue.filter (!·.elastic) }
                   else { k.plough with queue := k.plough.queue.filter (!·.elastic) },
                 needle := { k.needle with
                   elasticOn := false, elasticPos := 0,
                   sect := if k.needle.sect = .elastic then (if k.needle.retired then .done else next) else k.needle.sect,
                   pos := if k.needle.sect = .elastic then 0 else k.needle.pos } }) s

/-- The elastic handle ends with a status, and the section with it (R184, R221, R224). -/
def State.failElastic (s : State) (status detail : Nat) : State :=
  match s.prog.elasticHandle with
  | none => s
  | some h =>
    ((s.complete h status detail s.prog.elasticRuns.toNat).modProg fun p => { p with elasticHandle := none, elasticFault := none }).stopElastic

/-- A page fetch fails (R184): the halt record of every stream that waits for the page carries it, DATA_CHECK is raised for each, and
the elastic section ends with the core and stream of the one given. -/
def State.pageFailed (s : State) (c : CoreId) (stream : Fin 64) : State :=
  match ((s.core c).strm stream).fetching with
  | none => s
  | some p =>
    let waits := (allCores.map fun (d : CoreId) => (List.range 64).map fun i => (d, i)).flatten.filter fun m =>
      ((s.core m.1).strm m.2).fetching == some p
    let s := waits.foldl (fun s m =>
      let paging := ((s.core m.1).strm m.2).halted.elim false (·.paging)
      let s := s.modStrm m.1 m.2 fun x =>
        { x with fetching := none, walking := none, halted := x.halted.map fun h => if h.paging then { h with reason := 0x31 } else h }
      if paging then s.raiseStep 0x0301 m.1.val [0] (((s.core m.1).strm m.2).halted.map (·.bits)) else s) s
    s.failElastic 0x020D (c.val + 2 ^ 8 * stream.val)

/-- PAGE_IN_COMPLETE (R184): the page is written to its frame, the map updated and every stream that waits for it resumed; a failed
fetch is recorded and ends the elastic section. A page that is present already is not overwritten. -/
def execPageInComplete (c : CoreId) (stream : Fin 64) (page : Option (List Byte)) (s : State) :
    Host.Outcome State Fault Refusal :=
  match s.prog.active, ((s.core c).strm stream).fetching with
  | some _, some p =>
    match page with
    | some bytes =>
      let s := if s.prog.present.any (·.1 = p) then s
        else (s.dramWrite (p * unitBytes) (bytes.take unitBytes)).modProg fun g => { g with present := g.present ++ [(p, false)] }
      .next (s.resumePage p)
    | none => .next (s.pageFailed c stream)
  | _, _ => .next s

/-! ### The tipping path (R176, R177, R224) -/

/-- A read over the tipping path meets errors of the words it reads: they are counted and recorded, and no fault follows (R224). -/
def State.tipTouch (s : State) (c : CoreId) (mem : CoreMem) (a n : Nat) : State :=
  ((s.core c).marksIn mem a n).foldl (fun s m =>
    let k := s.core c
    match m.find with
    | .uncorrectable => s.countUe k.site (eccRecord c.val k.site.val mem true 5 0 m.word (s.stepOf c) s.stamp)
    | _ => s.meetMark c 5 m) s

/-- The pieces of a write over the tipping path, one after another, each in a cycle of its own that the command does not name: free values
(R177, R216; log entry 7). The first of them is the n-th free value. -/
def State.tipPieces (s : State) (c : CoreId) (mem : CoreMem) : Nat → List (Nat × List Byte) → State
  | _, [] => s
  | n, p :: r =>
    let t := (partialEnds (eccWord mem) p.1 p.2.length).foldl (fun s x => s.tipTouch c mem x 1) s
    (t.modCore c fun k => k.ploughStore none (t.free n).toNat mem p.1 (p.2.map some)).tipPieces c mem (n + 1) r

/-- TIPPING_TRANSFER (R176, R177, R214 to R216, R224): a transfer is split into 32-byte aligned pieces, each written indivisibly, in issue
order. BAR2 reaches device memory only (R178). -/
def execTippingTransfer (source : TipSource) (op : TipOp) (s : State) : Host.Outcome State Fault Refusal :=
  if !s.pwr.main then .next s
  else match op with
    | .writeCore c mem a bytes =>
      act (source != .bar2 && decide (a + bytes.length ≤ coreMemSize mem)) s
        (s.tipPieces c mem 0 (cutWords 32 (bytes.length + 1) a bytes)).bump
    | .readCore c mem a n =>
      act (source != .bar2 && decide (a + n ≤ coreMemSize mem)) s
        ((s.tipTouch c mem a n).modHost fun h => { h with readData := some ((s.core c).read mem a n) })
    | .writeDram a bytes => act (decide (a + bytes.length ≤ s.layoutEnd)) s (s.dramStore a bytes)
    | .readDram a n =>
      act (decide (a + n ≤ s.layoutEnd)) s (s.modHost fun h => { h with readData := some (s.dramRead a n) })

/-! ### The end of a cancellation (R153, R189, R326) -/

/-- What a core's drain still has to bring in: reads, beats, writes, entries that may be delivered, and kettle signals whose work is
complete (R189). -/
def State.draining (s : State) (img : Image) (c : CoreId) : Bool :=
  let k := s.core c
  !k.awl.reads.isEmpty || !k.press.beats.isEmpty || !k.doneSignals.isEmpty || k.nextSignal.isSome
    || (k.awl.streams.toList.zipIdx).any fun p => !p.1.writes.isEmpty ||
        match p.1.arms with
        | a :: _ => s.mayDeliver c p.1 a && s.entryLanded img c p.2 a
        | [] => false

/-- CANCEL_DRAIN_DONE: every tag has returned or expired, every write is acknowledged, every beat written, and every kettle signal whose
work is complete applied; the handle completes CANCELLED with the pair of core 0. -/
def execCancelDrainDone (s : State) : Host.Outcome State Fault Refusal :=
  let quiet := s.prog.active.elim false fun img => allCores.all fun (c : CoreId) => !s.draining img c
  let p := (s.core 0).kettlePair
  act (s.prog.phase == .cancelling && quiet) s
    (s.endProgram 0x0201 0 (some (p.1.toNat + 2 ^ 16 * p.2.toNat)))

end Sys2Proof.Machine
end

