-- ==== Sys2Proof/Machine/Links.lean ====
section
/-!
DEFINITION. Links (R273 to R277, R281, R282): bring-up in its six phases, the partner record and its checks, the timing measurement, and
how a link goes down.

The phase of a lane is the phase of R274 that it is in, `joining` being phase 6.
-/

namespace Sys2Proof.Machine

/-! ### Program links of a lane (R277, R291) -/

/-- Program links that the active program's slot table puts on a lane. -/
def State.linksOn (s : State) (l : LaneId) : List Nat :=
  match s.prog.active with
  | some img => ((s.linkEntries img).filter fun e => lLane e == l.val).map lLink
  | none => []

/-- A program link on the lane has failed in the step: a fault is recorded with the lane (R18, R277). A program whose table does not
name the lane takes no fault (DEDUCED, log entry 28). -/
def State.failLane (s : State) (l : LaneId) : State :=
  match s.linksOn l with
  | [] => s
  | ls => (s.modFab fun f => { f with failedNow := (f.failedNow ++ ls).dedup }).fault 0x11 l.val

/-! ### Receives that cannot be served (R18, R118, R271) -/

/-- The union of FAILED over the contributions (R294). -/
def votesFailed (vs : List Vote) : List Nat := ((vs.map (·.failed)).flatten).dedup

/-- The word leaves the queue; the completion signal of its ID is on its way (R143, R151). -/
def State.wordDone (s : State) (c : CoreId) (id : Byte) : State :=
  s.modCore c fun k =>
    { k with doneSignals := k.doneSignals ++ [{ target := c, id := id, incr := 1, scope := 0, awaits := [], elastic := false }] }

/-- Whether a transfer with a peer starts or ends at a node that carries a lost rank (R303): this one, or the peer's. -/
def State.byTable (s : State) (e : Nat) : Bool :=
  s.fab.cover && (s.fab.covering != [] || s.fab.recover.any fun r => r.toNat == xPeer e)

/-- The transfer of a slot cannot come: its lane is down, or its path holds a link that has failed in the step, as this member or a
contribution shows. The vote finds another way (log entry 32). -/
def State.slotLost (s : State) (img : Image) (e : Nat) : Bool :=
  let k := s.link (s.slotLane img e)
  let path := if s.onAlternate img e then xAltPath e else xPath e
  !s.byTable e && !s.fab.untimed && xOp e != 2
    && (k.phase != .up || !k.sched || (pathLinks (s.pathEntry img path)).any fun l =>
        s.fab.failedNow.contains l || (votesFailed s.cad.votes).contains l)

/-- Receives that cannot be served are given up: the step is discarded (R18, R118), and every core reaches its end (R271), for which the
word's signal is given all the same (DEDUCED, log entry 35). -/
def State.dropLost (s : State) : State :=
  match s.prog.active with
  | none => s
  | some img =>
    (s.fab.receiving.filter fun r => s.slotLost img (s.slotEntry img r.1)).foldl (fun s r =>
      (s.modFab fun f => { f with receiving := f.receiving.erase r }).wordDone r.2.2.2 r.2.2.1) s

/-! ### Down (R277) -/

/-- A lane that comes up again, in one of the phases of R274. -/
def Link.bringUp (k : Link) : Bool :=
  k.phase == .negotiating || k.phase == .training || k.phase == .locking || k.phase == .records || k.phase == .timing

/-- A lane out of service: what waited on it is lost, and what was measured on it. -/
def Link.cut (k : Link) (next : LinkPhase) : Link :=
  { k with phase := next, partner := 0xFFFF, samples := [], tx := [], flitNo := 0, lastSent := .quiet, used := Vector.replicate 4 0 }

/-- A lane that was up goes down: its program links fail, it serves scheduled traffic again only from the next activation, LINK_DOWN
names the lane and the partner, the change is advertised (R277, R285, R306), and receives of the step that wait for it are given
up. -/
def State.linkLost (s : State) (l : LaneId) (next : LinkPhase) : State :=
  let partner := (s.link l).partner
  let s := (s.failLane l).modLink l fun k => { k.cut next with sched := false }
  (s.raiseDev 0x040F [item l.val, item partner.toNat]).topologyChanged.advertise.dropLost

/-- A lane taken down, whatever phase it is in: only one that was up goes down as R277 says; one in phase 6 has been advertised. -/
def State.takeDown (s : State) (l : LaneId) (next : LinkPhase) : State :=
  match (s.link l).phase with
  | .up => s.linkLost l next
  | .joining => (s.modLink l (·.cut next)).topologyChanged.advertise
  | .disabled => s.modLink l (·.cut next) | .negotiating => s.modLink l (·.cut next) | .training => s.modLink l (·.cut next)
  | .locking => s.modLink l (·.cut next) | .records => s.modLink l (·.cut next) | .timing => s.modLink l (·.cut next)
  | .failed => s.modLink l (·.cut next) | .refused => s.modLink l (·.cut next)

/-- LINK_DOWN (R277): a link that is up retrains, or stays disabled where software disabled it; one in phase 6 has failed that phase. -/
def execLinkDown (lane : LaneId) (cause : LinkDownCause) (s : State) : Host.Outcome State Fault Refusal :=
  act (s.pwr.main && (s.link lane).open) s
    (s.takeDown lane (if cause = .disabled then .disabled else if (s.link lane).phase = .up then .negotiating else .failed))

/-! ### Bring-up (R274) -/

/-- A phase ends: the next begins, or after a failure the link waits for its retry. Without the clocks of the lanes nothing ends (R371,
R372). -/
def phaseDone (lane : LaneId) (now next : LinkPhase) (ok : Bool) (s : State) : State :=
  if s.pwr.main && s.mainClocks && decide ((s.link lane).phase = now) then
    s.modLink lane fun k => { k with phase := if ok then next else .failed }
  else s

/-- AUTO_NEGOTIATION (R273, R274): phase 1. -/
def execAutoNegotiation (lane : LaneId) (ok : Bool) (s : State) : Host.Outcome State Fault Refusal :=
  .next (phaseDone lane .negotiating .training ok s)

/-- LINK_TRAINING (R274): phase 2. -/
def execLinkTraining (lane : LaneId) (ok : Bool) (s : State) : Host.Outcome State Fault Refusal :=
  .next (phaseDone lane .training .locking ok s)

/-- PCS_BLOCK_LOCK (R274, R282): phase 3; at its end the own partner record is sent. -/
def execPcsBlockLock (lane : LaneId) (ok : Bool) (s : State) : Host.Outcome State Fault Refusal :=
  let t := phaseDone lane .locking .records ok s
  .next (if ok ∧ s.pwr.main ∧ s.mainClocks ∧ (s.link lane).phase = .locking then t.sendPartner lane else t)

/-- LINK_RETRY (R274): one second after a failed phase, or after a refusal, phase 1 begins again. -/
def execLinkRetry (lane : LaneId) (s : State) : Host.Outcome State Fault Refusal :=
  act (s.pwr.main && s.mainClocks && ((s.link lane).phase == .failed || (s.link lane).phase == .refused)) s
    (s.modLink lane fun k => { k with phase := .negotiating })

/-! ### The partner record (R282) -/

def prNode (r : Nat) : Nat := fld r 16 16
def prIdSource (r : Nat) : Nat := fld r 32 2
def prLevel (r : Nat) : Nat := fld r 40 8
def prSerial (r : Nat) : Nat := fld r 64 64
def prTxFixed (r : Nat) : Nat := fld r 128 16
def prRxFixed (r : Nat) : Nat := fld r 144 16
def prBudget (r : Nat) : Nat := fld r 160 12
def prRoot (r : Nat) : Nat := fld r 176 16
def prRootHops (r : Nat) : Nat := fld r 192 8

/-- CRC of a flit: bytes 0 to 59, in bits [511:480] (R280, R282). -/
def flitCrcOk (x : Nat) : Bool := fld x 480 32 == crc32 (leBytes 60 x)

/-- Reserved fields of the record. -/
def partnerReserved (r : Nat) : Bool :=
  fld r 4 4 == 0 && fld r 14 2 == 0 && prIdSource r != 3 && fld r 34 6 == 0 && fld r 172 4 == 0 && fld r 200 248 == 0

/-- The first reason to refuse a link, in the order of R282. -/
def State.refusePartner (s : State) (f : Flit) : Option Nat :=
  let r := f.bits.toNat
  if f.fecBad ∨ !flitCrcOk r ∨ !partnerReserved r then some 1
  else if prLevel r < 3 then some 2
  else if prNode r = s.fab.nodeId.toNat ∧ !(prIdSource r = 2 ∧ s.fab.idSource = 2) then some 3
  else if nodeDomain (prNode r) = nodeDomain s.fab.nodeId.toNat ∧ prBudget r ≠ s.skewBudget then some 4
  else none

/-- The link is refused: it stays down but for the retries of its bring-up. LINK_REFUSED names the lane and the reason (R274, R276, R282,
R306). -/
def State.linkRefused (s : State) (l : LaneId) (reason : Nat) : State :=
  (s.takeDown l .refused).raiseDev 0x0411 [item l.val, item reason]

/-- PARTNER (R275, R277, R282, R286): a record that R282 refuses ends the link, in phase 4 and when it comes again later. Otherwise phase 5
begins with its first exchange; on a link that carries flits a record with another SERIAL or NODE_ID takes it down, and another change
is taken in. -/
def execPartner (lane : LaneId) (flit : Flit) (s : State) : Host.Outcome State Fault Refusal :=
  let k := s.link lane
  let r := flit.bits.toNat
  if !s.pwr.main ∨ !s.mainClocks ∨ fld r 0 4 ≠ 7 ∨ !(k.open || k.phase == .records || k.phase == .timing) then .next s
  else match s.refusePartner flit with
    | some reason => .next (s.linkRefused lane reason)
    | none =>
      if k.phase = .records then
        .next ((s.modLink lane fun k =>
          { k with phase := .timing, partner := BitVec.ofNat 16 (prNode r), record := flit.bits, samples := [] }).sendSync lane)
      else if prSerial r ≠ prSerial k.record.toNat ∨ prNode r ≠ prNode k.record.toNat then
        .next (s.takeDown lane (if k.phase = .up then .negotiating else .failed))
      else .next (s.modLink lane fun k => { k with record := flit.bits })

/-! ### The timing exchange (R275, R276) -/

/-- Mean round trip of the exchanges held, in 0.1 ns. -/
def Link.roundTrip (k : Link) : Int := (2 * (k.samples.map (·.2)).sum + k.samples.length) / (2 * max 1 k.samples.length)

/-- δ of the partner from this node, the mean of the exchanges held, in 0.1 ns (R255). -/
def Link.delta (k : Link) : Int := ((k.samples.map (·.1)).sum + k.samples.length) / (2 * max 1 k.samples.length)

/-- A node without a program that is the only aligned node of its domain gives ALIGNED up as another node of the domain joins it: it adopts
the number that the root carries down before it can be root (R260; DEDUCED, log entry 33). -/
def State.joinDomain (s : State) (l : LaneId) : State :=
  let same := nodeDomain (s.link l).partner.toNat == nodeDomain s.fab.nodeId.toNat
  if same && s.prog.active.isNone && s.prog.staged.isNone && s.isRoot && s.aloneAligned then s.modCad fun c => { c with aligned := false }
  else s

/-- TIMING_EXCHANGE_DONE (R274 to R276, R285): phase 5 ends. Exchanges that do not come back in its time fail it (DEDUCED of R274, log entry
29). 256 exchanges give a mean round trip: the latency is half of it, rounded to 1 ns (DEDUCED of R228, log entry 29), and the cable
delay is half of it less half the four fixed figures. Above 214 ns the link is refused; below 186 ns, or with a cable delay outside 0 to
20 ns, phase 5 fails. Otherwise phase 6 begins: the link is advertised, and it is up from the next flip of the tables on. -/
def execTimingExchangeDone (lane : LaneId) (ok : Bool) (s : State) : Host.Outcome State Fault Refusal :=
  let k := s.link lane
  let r := k.record.toNat
  let fixed := txFixed + rxFixed + prTxFixed r + prRxFixed r
  let rt := k.roundTrip
  let cable : Int := (rt - fixed) / 2
  if !s.pwr.main ∨ !s.mainClocks ∨ k.phase ≠ .timing then .next s
  else if !ok then .next (s.modLink lane (·.cut .failed))
  else if k.samples.length ≠ 256 then .next s
  else if 4280 < rt then .next (s.linkRefused lane 5)
  else if rt < 3720 ∨ cable < 0 ∨ 200 < cable then .next (s.modLink lane (·.cut .failed))
  else
    let s := (s.joinDomain lane).modLink lane fun k =>
      { k with phase := .joining, latency := BitVec.ofInt 16 ((rt + 10) / 20), cable := BitVec.ofInt 16 cable }
    .next s.topologyChanged.advertise

end Sys2Proof.Machine
end

