-- ==== Sys2Proof/Machine/Records.lean ====
section
/-!
DEFINITION. The continuous record that goes to a mirror partner (R297, R299) as bytes, and read back.

R297 gives the record's parts and their sizes and not their places (DESIGN CHOICE, log entry 26): a header page, the handle table, then
the recipe table, the steering state, the collation buffer, the draw positions, the input references and the late observations, each
from a page boundary on.
-/

namespace Sys2Proof.Machine

/-! ### Collator records read back -/

/-- A record by its bytes (R113); none where its CRC fails, as in room that holds no record. -/
def CollRec.ofBytes (b : List Byte) : Option CollRec :=
  let x := leNat b
  if b.length ≠ 512 ∨ fld x 4064 32 ≠ crc32 (b.take 508) then none
  else
    some { layer := fld x 3360 16, role := BitVec.ofNat 2 (fld x 3376 2), bins := Vector.ofFn fun j : Fin 48 => BitVec.ofNat 64 (fld x (64 * j.val) 64),
           count := BitVec.ofNat 64 (fld x 3072 64), zero := BitVec.ofNat 64 (fld x 3136 64), flush := BitVec.ofNat 64 (fld x 3200 64),
           sat := BitVec.ofNat 64 (fld x 3264 64), amax := BitVec.ofNat 32 (fld x 3328 32), countSat := bitOf x 3386 }

/-- The records in room of n of them, up to the first that is none. -/
def collRecsOf : Nat → List Byte → List CollRec
  | 0, _ => []
  | n + 1, b => match CollRec.ofBytes (b.take 512) with
    | some r => r :: collRecsOf n (b.drop 512)
    | none => []

/-! ### Pages -/

def pageUp (n : Nat) : Nat := 4096 * divCeil n 4096

/-- Bytes filled with zeros up to a page boundary. -/
def padPage (b : List Byte) : List Byte := b ++ List.replicate (pageUp b.length - b.length) 0

def pageAt (b : List Byte) (i : Nat) : List Byte := (b.drop (4096 * i)).take 4096

/-- The 4 KiB pages of a record that differ from those of an older one (R297). -/
def changedPages (old new : List Byte) : List (Nat × List Byte) :=
  ((List.range (divCeil new.length 4096)).map fun i => (i, pageAt new i)).filter fun p => p.2 != pageAt old p.1

/-- A record with pages replaced. -/
def applyPages (old : List Byte) (pages : List (Nat × List Byte)) : List Byte :=
  let n := pages.foldl (fun n p => max n (p.1 + 1)) (divCeil old.length 4096)
  ((List.range n).map fun i => ((pages.find? fun p => p.1 = i).map (·.2)).getD (padPage (pageAt old i))).flatten

/-! ### The record -/

/-- The 64 bytes of a handle-table entry in the record. -/
def HandleEntry.bytes (e : HandleEntry) : List Byte :=
  let phase := match e.phase with
    | .free => 0 | .running => 1 | .held => 2 | .posted => 3
  leBytes 64 (e.gen.toNat + 2 ^ 12 * phase + 2 ^ 16 * e.opcode.toNat + 2 ^ 24 * e.mailbox.val + (if e.fence then 2 ^ 27 else 0)
    + (if e.quiet then 2 ^ 28 else 0) + 2 ^ 32 * e.cookie.toNat + 2 ^ 64 * e.seq.toNat + 2 ^ 96 * e.status.toNat + 2 ^ 128 * e.detail.toNat
    + 2 ^ 192 * e.result.toNat + 2 ^ 256 * e.cadence.toNat)

/-- The late observations with which the next step begins: the number of each core's records, then the records. -/
def lateBytes (late : List (List CollRec)) : List Byte :=
  (late.map fun rs => leBytes 4 rs.length).flatten ++ ((late.map fun rs => (rs.map fun r => r.bytes 0 0).flatten).flatten)

/-- Sizes, digest and figures of the header, its CRC-32 field left 0. -/
def recordHeader (k : Continuous) (inputs total : Nat) (digest : W32) : List Byte :=
  leBytes 8 k.step.toNat ++ leBytes 4 k.recipe.length ++ leBytes 4 0 ++ leBytes 4 inputs ++ leBytes 4 0 ++ leBytes 8 total
    ++ leBytes 4 digest.toNat ++ leBytes 4 0 ++ leBytes 4 k.allowance ++ leBytes 4 k.coldLeft ++ leBytes 4 (if k.lastCold then 1 else 0)
    ++ List.replicate 4044 0

/-- The record of a boundary (R297). -/
def recordBytes (k : Continuous) (handles : List HandleEntry) (inputs : List (W64 × W64)) (recipe : List Byte) (digest : W32) : List Byte :=
  let handleTable := (handles.take 4096).map HandleEntry.bytes
  let body := handleTable.flatten ++ List.replicate (262144 - 64 * handleTable.length) 0 ++ padPage recipe
    ++ padPage (k.steer.map fun e => leBytes 320 e.bits).flatten ++ padPage k.collation
    ++ ((k.draws.map fun d => (d.toList.map fun x => leBytes 8 x.toNat).flatten).flatten)
    ++ padPage (inputs.map fun i => leBytes 8 i.1.toNat ++ leBytes 8 i.2.toNat).flatten ++ padPage (lateBytes k.late)
  let h := recordHeader k inputs.length (4096 + body.length) digest
  h.take 36 ++ leBytes 4 (crc32 (h ++ body)) ++ h.drop 40 ++ body

/-- The digest in a record. -/
def recordDigest (r : List Byte) : W32 := BitVec.ofNat 32 (leNat ((r.drop 32).take 4))

/-! ### The record read back -/

def rdAt (r : List Byte) (a n : Nat) : Nat := leNat ((r.drop a).take n)

def recLayers (r : List Byte) : Nat := rdAt r 8 4
def recInputs (r : List Byte) : Nat := rdAt r 16 4
def recRecipeAt : Nat := 4096 + 262144
def recSteerAt (r : List Byte) : Nat := recRecipeAt + pageUp (64 + 64 * recLayers r)
def recCollAt (r : List Byte) : Nat := recSteerAt r + pageUp (320 * recLayers r)
def recDrawsAt (r : List Byte) : Nat := recCollAt r + 4096 * recLayers r
def recInputsAt (r : List Byte) : Nat := recDrawsAt r + 24576
def recLateAt (r : List Byte) : Nat := recInputsAt r + pageUp (16 * recInputs r)

/-- The late observations of the cores: their numbers, and the bytes of the records. -/
def lateOf : List Nat → List Byte → List (List CollRec)
  | [], _ => []
  | n :: r, b => collRecsOf n b :: lateOf r (b.drop (512 * n))

/-- The continuous state that a record carries. -/
def Continuous.ofRecord (r : List Byte) : Continuous :=
  let n := recLayers r
  let step := rdAt r 0 8
  let coll := (r.drop (recCollAt r)).take (4096 * n)
  { step := BitVec.ofNat 64 step,
    recipe := (List.range n).map fun l => BitVec.ofNat 512 (rdAt r (recRecipeAt + 64 + 64 * l) 64),
    allowance := rdAt r 40 4,
    steer := (List.range n).map fun l => Steer.ofBits (rdAt r (recSteerAt r + 320 * l) 320),
    draws := allCores.map fun c => Vector.ofFn fun i : Fin 16 => BitVec.ofNat 64 (rdAt r (recDrawsAt r + 128 * c.val + 8 * i.val) 8),
    groupRecs := collRecsOf (4 * n) (coll.drop (step % 2 * (2048 * n))),
    collation := coll,
    late := lateOf (allCores.map fun c => rdAt r (recLateAt r + 4 * c.val) 4) (r.drop (recLateAt r + 768)),
    coldLeft := rdAt r 44 4, lastCold := decide (rdAt r 48 4 = 1) }

/-- The input references that a record lists (R297, R304). -/
def inputsOf (r : List Byte) : List (W64 × W64) :=
  (List.range (recInputs r)).map fun i =>
    (BitVec.ofNat 64 (rdAt r (recInputsAt r + 16 * i) 8), BitVec.ofNat 64 (rdAt r (recInputsAt r + 16 * i + 8) 8))

/-! ### The record of this device -/

/-- The continuous state at a boundary (R297, R299, R300), and what the step after it begins with (R115, R131). -/
def State.continuous (s : State) (img : Image) : Continuous :=
  { step := s.prog.step, recipe := s.prog.recipe, allowance := s.prog.allowance, steer := s.prog.steer,
    draws := allCores.map fun c => (s.core c).draws, groupRecs := s.prog.groupRecs,
    collation := s.dramRead img.collBase (4096 * s.prog.recipe.length), late := allCores.map fun c => (s.core c).collNext,
    coldLeft := s.prog.coldLeft - 1, lastCold := !s.prog.warm }

/-- The continuous state of the last committed boundary, while a step runs. -/
def State.committedState (s : State) (img : Image) : Continuous :=
  { s.continuous img with
    step := s.prog.committed.getD 0,
    draws := allCores.map fun c => if (s.core c).needle.released then (s.core c).drawsSaved else (s.core c).draws,
    late := allCores.map fun c => (s.core c).collKept, coldLeft := s.prog.coldLeft, lastCold := s.prog.lastCold }

def State.committedRecord (s : State) (img : Image) : List Byte :=
  recordBytes (s.committedState img) s.host.handles s.prog.inputs s.prog.recipeBytes s.prog.digest

def State.ownRecord (s : State) (img : Image) : List Byte :=
  recordBytes (s.continuous img) s.host.handles s.prog.inputs s.prog.recipeBytes s.prog.digest

end Sys2Proof.Machine
end

