-- ==== Sys2Proof/Machine/Boundary.lean ====
section
/-!
DEFINITION. The step boundary (R18, R19): discard and replay (R209, R239, R241, R266, R295), commit (R127), SNAPSHOT copies (R156, R298
to R300), rotation (R240), sleep (R369), and the commands that act at a boundary (R136, R141, R160, R322, R325).
-/

namespace Sys2Proof.Machine

/-! ### When a boundary is reached (R18, R262, R300) -/

/-- Cores that run the program. -/
def Image.coreList (img : Image) : List CoreId := allCores.filter fun (c : CoreId) => decide (c.val < img.cores)

/-- No pinned signal is on its way (R151). -/
def Core.quietSignals (k : Core) : Bool := k.signals.all (·.elastic) && k.doneSignals.all (·.elastic)

/-- Ranks whose contribution the vote needs: all but those declared lost and not carried by another node (R262, R265, R301). -/
def State.voters (s : State) (img : Image) : List Nat :=
  (List.range img.bounds.devices).filter fun r => !(s.fab.lost.map (·.toNat)).contains r

/-- Slots of the step's schedules that bring votes to this node. -/
def State.voteReceives (s : State) (img : Image) : List (Nat × Nat) :=
  let part := s.prog.schedule.part
  (img.coreList.map fun c => ((List.range (s.part img c part).2).map (s.word img c part)).filterMap fun w =>
    let slot := fld w 16 8
    let e := s.slotEntry img slot
    if wOp w = 0x41 ∧ xOp e = 2 then some (slot, xPeer e) else none).flatten

/-- Every receive of the vote has been carried out, or its peer is lost: the contributions that a peer merged are in its own (R294). -/
def State.votesIn (s : State) (img : Image) : Bool :=
  let rs := s.voteReceives img
  rs != [] && s.cad.voted && rs.all fun r =>
    (s.fab.doneSlots.contains r.1 && !s.fab.receiving.any (·.1 = r.1)) || (s.fab.lost.map (·.toNat)).contains r.2

/-- The vote has come (R262, R294): the contribution of every rank, or of every peer that sends its own with those it merged. -/
def State.voteComplete (s : State) (img : Image) : Bool :=
  ((s.voters img).all fun r => s.cad.votes.any fun v => v.rank.toNat == r) || s.votesIn img

/-- The vote decides a replay: a FAULT bit, or step or frame numbers that differ (R262, R294). -/
def votesFault (vs : List Vote) : Bool :=
  vs.any (·.fault) || vs.any fun v => vs.any fun w => v.step != w.step || v.frame != w.frame

/-- Every core has retired its last word and every scheduled transfer has been delivered (R18). -/
def State.allRetired (s : State) (img : Image) : Bool :=
  img.coreList.all fun c =>
    let k := s.core c
    k.needle.retired && k.quietSignals

def State.stepComplete (s : State) (img : Image) : Bool :=
  s.allRetired img && s.fab.receiving.isEmpty && img.coreList.all fun c => (s.core c).fabricQ.isEmpty

/-! ### The SNAPSHOT region table (R298) -/

def State.setEntry (s : State) (img : Image) (k : Nat) : Nat := s.dramNat (img.addr + img.regionOff + 64 + 16 * k) 16
def State.snapSets (s : State) (img : Image) : Nat :=
  if img.regionOff = 0 then 0 else fld (s.dramNat (img.addr + img.regionOff) 64) 0 7
def State.regionEntry (s : State) (img : Image) (i : Nat) : Nat :=
  s.dramNat (img.addr + img.regionOff + 64 + 16 * s.snapSets img + 32 * i) 32

/-- A request takes effect only at boundaries of steps whose number is PHASE modulo PERIOD. -/
def State.snapDue (s : State) (img : Image) (r : SnapReq) : Bool :=
  let e := s.setEntry img r.set
  s.prog.step.toNat % max 1 (fld e 56 24) == fld e 80 24

def State.dueSnaps (s : State) (img : Image) : List SnapReq := s.prog.snaps.filter (s.snapDue img)

/-- A set that this boundary will copy and whose previous shipment is not complete (R300). -/
def State.waitingSet (s : State) (img : Image) : Option Nat :=
  ((s.dueSnaps img).find? fun r => s.prog.shipping.any (·.1 = r.set)).map (·.set)

/-- CHECKPOINT_WAIT, once for the boundary (R300). -/
def State.raiseWait (s : State) (set : Nat) : State :=
  if s.prog.checkpointWait then s
  else (s.raiseStep 0x030E noCore (item set :: item2 s.prog.step.toNat)).modProg fun p => { p with checkpointWait := true }

/-! ### Common to both branches -/

/-- Counters 0 to 223 cleared (R151). -/
def Core.clearPinned (k : Core) : Core :=
  { k with kettle := Vector.ofFn fun i : Fin 256 => if i.val < 224 then 0 else k.kettle[i] }

/-- A core past the boundary: its next schedule to begin, or its elastic section under way (R140, R141). -/
def Core.afterBoundary (k : Core) (sect : Sect) : Core :=
  let k := k.clearPinned.dropArms false
  { k with collide := none, gapCollide := [], clamp := none, fabricQ := [], awl := { k.awl with pinned := ReadAhead.start sect },
           needle := { k.needle with
             retired := false, released := false, sect := if k.needle.elasticOn then .elastic else sect,
             pos := if k.needle.elasticOn then k.needle.pos else 0 } }

def State.finishCores (s : State) (img : Image) : State :=
  img.coreList.foldl (fun s c => s.modCore c (·.afterBoundary s.prog.schedule)) s

/-- A transfer with a failed link on its primary path and one on its alternate (R295): one that starts or ends here, one that is forwarded
here, or one between other members, which no field of this image lists (a free value, log entry 53). -/
def State.lostRoute (s : State) (img : Image) : Option Nat :=
  let own := ((s.slotsUsed img).find? fun p => s.pathFailed img (xPath p.2) && s.pathFailed img (xAltPath p.2)).map fun p => xTransfer p.2
  let fs := (s.forwardEntries img).filter fun f => s.pathFailed img (fPath f)
  let passing := ((fs.filter fun f => !fAlt f).find? fun f => fs.any fun g => fAlt g && fTransfer g == fTransfer f).map fTransfer
  if s.fab.failedEver = [] then none else (own.or passing).or (Config.othersLost s.fab.failedEver)

/-- Failed program links leave their primary paths for good; without an alternate the domain runs untimed from the next release, and
ROUTE_DEGRADED is raised once (R295). -/
def State.switchRoutes (s : State) (img : Image) (failed : List Nat) : State :=
  let s := s.modFab fun f => { f with failedEver := (f.failedEver ++ failed).dedup, failedNow := f.failedNow.filter (!failed.contains ·),
                                      links := f.links.map fun l => { l with sched := l.sched && !l.overBound } }
  match s.lostRoute img with
  | none => s
  | some t =>
    if s.fab.untimed ∨ s.fab.cover then s
    else (s.raiseStep 0x0315 noCore (item t :: (s.fab.failedEver.take 11).map item)).modFab fun f => { f with untimed := true }

/-! ### Discard and replay -/

/-- The records, advice and late observations of the step are dropped, and the saved draw positions restored (R19, R115, R209). -/
def State.discardCore (s : State) (img : Image) (c : CoreId) : State :=
  s.modCore c fun k =>
    { k with coll := k.collKept, collNext := [],
             draws := Vector.ofFn fun i : Fin 16 => if s.elasticStream img c i.val then k.draws[i] else k.drawsSaved[i] }

/-- STEP_REPLAYED for a fault: cause, then core or link, with the ECC record of causes 2 to 4 (R18, R327, R328). -/
def State.raiseReplayed (s : State) (f : StepFault) : State :=
  let core := if f.cause.toNat ≤ 0x10 then f.who else noCore
  s.raiseStep 0x030C core [item f.cause.toNat, item f.who] (if 2 ≤ f.cause.toNat ∧ f.cause.toNat ≤ 4 then f.record else none)

/-- The first core fault of each core: the ones that retire its site (R231). The cores are retired, and take guards, in the order in
which their faults were recorded (R18 names no order: DESIGN CHOICE, log entry 67). -/
def retiring : List StepFault → List Nat → List (CoreId × Nat)
  | [], _ => []
  | f :: r, done =>
    if h : f.who < 192 ∧ 1 ≤ f.cause.toNat ∧ f.cause.toNat ≤ 7 ∧ !done.contains f.who then
      (⟨f.who, h.1⟩, f.cause.toNat) :: retiring r (f.who :: done)
    else retiring r done

/-- A failed core's site is retired and a guard takes its place; false when none is left (R239, R241). An elastic section under way on
it ends with CORE_FAULT (R221, R224). -/
def State.retireCore (s : State) (img : Image) (c : CoreId) (cause : Nat) : State × Bool :=
  let k := s.core c
  let s := (s.modSite k.site fun x => { x with role := .retired, cause := BitVec.ofNat 4 cause }).showRoles
  match s.chooseGuard img.bounds.spineBound with
  | none => (s, false)
  | some g =>
    let s := s.moveCore img c g
    let s := s.raiseStep 0x030B c.val [item cause, item s.guards]
    (if k.needle.elasticOn then s.failElastic 0x0206 cause else s, true)

def State.retireAll (s : State) (img : Image) : List (CoreId × Nat) → State × Bool
  | [] => (s, true)
  | (c, cause) :: r =>
    let x := s.retireCore img c cause
    let y := x.1.retireAll img r
    (y.1, x.2 && y.2)

/-- The nodes that carry the other ranks of the program. -/
def State.otherMembers (s : State) : List (BitVec 16) :=
  (((s.fab.rankNode.filter fun r => !s.fab.lost.contains r.1).map (·.2)).filter (· ≠ s.fab.nodeId)).dedup

/-- Nodes that carry the program's ranks: this one, and its peers not lost. -/
def State.memberNodes (s : State) : List Nat :=
  s.fab.nodeId.toNat :: (s.fab.rankNode.filter fun r => !s.fab.lost.contains r.1).map (·.2.toNat)

/-- The member with the lowest node ID (R263). -/
def State.isProgramRoot (s : State) : Bool := s.memberNodes.all fun n => decide (s.fab.nodeId.toNat ≤ n)

/-- The program root's node ID. -/
def State.programRoot (s : State) : BitVec 16 := BitVec.ofNat 16 (s.memberNodes.foldl min s.fab.nodeId.toNat)

/-- A CTRL message to every other member (R263, R264, R301). -/
def State.sendMembers (s : State) (m : Msg) : State := s.otherMembers.foldl (fun s n => s.send n m) s

/-- A recovery ends with a status, and the program with it: MEMBER_LOST with the rank, RECOVERY_INPUT_MISSING with the step, or
RECOVERY_DIVERGED with both digests (R302, R304, R306). -/
def State.stopRecovery (s : State) (status : Nat) (items : List W32) : State :=
  let figureAt := fun (i : Nat) => (items.getD i 0).toNat
  if status = 0x020A then s.endProgram status (figureAt 0) none
  else s.endProgramWith status 0 (if status = 0x020B then some (figureAt 0 + 2 ^ 32 * figureAt 1) else none) items

/-- Every program handle of the domain completes with the status: a member in recovery tells the others (R302, R304). -/
def State.endRecovery (s : State) (status : Nat) (items : List W32) : State :=
  (if s.fab.recover = [] then s else s.sendMembers (.recoveryEnd status items)).stopRecovery status items

/-- No guard is left (R241, R301): the device is DEGRADED, the program ends, and a member leaves the domain. -/
def State.degrade (s : State) (img : Image) : State :=
  let s := (s.modProg fun p => { p with degraded := true }).raiseDev 0x0406 []
  let s := s.endProgram 0x0207 0 none
  if 1 < img.bounds.devices then s.sendMembers (.leave img.bounds.rank) else s

/-- Faults of links that no member's vote has shown yet: they count against the step that follows (R18, R262, R295). -/
def State.lateFaults (s : State) (img : Image) (failed : List Nat) : List StepFault :=
  let late := s.fab.failedNow.filter (!failed.contains ·)
  let lanes := ((s.linkEntries img).filter fun e => late.contains (lLink e)).map lLane
  if img.bounds.devices ≤ 1 then [] else s.prog.faults.filter fun f => f.cause == 0x11 && lanes.contains f.who

/-- The elastic section starts: counters 224 to 255 cleared, every core that has one begins it (R141, R151). -/
def State.startElastic (s : State) (img : Image) (h : Handle) : State :=
  let s := s.modProg fun p =>
    { p with elasticPending := none, elasticHandle := some h, elasticFault := none, elasticRuns := p.elasticRuns + 1 }
  let s := s.mapCores fun k => { k with kettle := Vector.ofFn fun i : Fin 256 => if i.val < 224 then k.kettle[i] else 0 }
  let s := img.coreList.foldl (fun s c =>
    if (s.part img c 3).2 = 0 then s
    else (s.modCore c fun k => { k with awl := { k.awl with elastic := ReadAhead.start .elastic } }).modNeedle c fun n =>
      { n with elasticOn := true, elasticPos := 0, sect := .elastic, pos := 0 }) s
  s.endElastic

/-- An ELASTIC_START that waits begins its section at the first boundary after it, be the step committed or replayed (R141; DEDUCED, log
entry 45). -/
def State.startWaitingElastic (s : State) (img : Image) : State :=
  match s.prog.elasticPending with
  | some h => if (s.running? h).isSome then s.startElastic img h else s
  | none => s

/-- The step is discarded (R18, R19, R266); an elastic section that waits for a boundary begins (R141). -/
def State.discardStep (s : State) (img : Image) (failed : List Nat) : State :=
  let faults := s.prog.faults
  let s := img.coreList.foldl State.raiseCore s
  let s := faults.foldl State.raiseReplayed s
  let s := if faults = [] then failed.foldl (fun s l => s.raiseReplayed { cause := 0x11, who := l, record := none }) s else s
  let s := img.coreList.foldl (fun s c => s.discardCore img c) s
  let n := s.prog.discards + 1
  let later := s.lateFaults img failed
  let s := s.modProg fun p =>
    { p with discards := n, faults := later ++ p.faultsNext, faultsNext := [], snaps := [], closed := false, carrier := [], digestMin := none,
             digestMax := none, released := false, checkpointWait := false }
  let r := s.retireAll img (retiring faults [])
  if !r.2 then r.1.degrade img
  else
    let s := r.1.switchRoutes img failed
    if 4 ≤ n then s.endProgram 0x0209 0 (some s.prog.step.toNat) else (s.finishCores img).startWaitingElastic img

/-! ### Work of a step broken off (R242, R302, R371) -/

/-- The words of a core that carry the vote and were not carried out (R262): a member whose step is broken off contributes all the
same (R267). -/
def State.voteWords (s : State) (img : Image) (c : CoreId) : List (Nat × Bool × Nat × Byte × Bool × Nat) :=
  if img.bounds.devices ≤ 1 ∨ img.slotOff = 0 then []
  else
    let part := s.prog.schedule.part
    ((List.range (s.part img c part).2).map (s.word img c part)).filterMap fun w =>
      let slot := fld w 16 8
      if (wOp w = 0x40 ∨ wOp w = 0x41) ∧ xOp (s.slotEntry img slot) = 2 ∧ !s.fab.doneSlots.contains slot then
        some (slot, wOp w == 0x41, fld w 64 52, BitVec.ofNat 8 (fld w 32 8), bitOf w 8, 0)
      else none

/-- The pinned work of the step in progress is dropped, but for the beats that have been read, which are still written (R70), and the
words of the vote; an elastic section keeps its own. -/
def Core.abortStep (k : Core) (votes : List (Nat × Bool × Nat × Byte × Bool × Nat)) : Core :=
  let pl := (k.plough.queue.head?).elim false (·.elastic)
  let k := (k.stopPress false false).dropArms false
  let idle := fun (x : Stream) => x.arms.isEmpty && x.duty.isEmpty && x.memberArms.isEmpty
  { k with
    signals := k.signals.filter (·.elastic), doneSignals := k.doneSignals.filter (·.elastic), fabricQ := votes,
    awl := { k.awl with pinned := ReadAhead.start .done, reads := k.awl.reads.map fun r => { r with dropped := r.dropped || idle (k.strm r.stream) },
                        streams := k.awl.streams.map fun x => if idle x then { Stream.reset with ownUntil := x.ownUntil } else x },
    plough := if pl then { k.plough with queue := k.plough.queue.filter (·.elastic) }
              else { Plough.reset with queue := k.plough.queue.filter (·.elastic) },
    needle := { k.needle with retired := true, waitRelease := false, sleepReq := false,
                              sect := if k.needle.sect = .elastic then .elastic else .done } }

def State.abortStep (s : State) (img : Image) : State :=
  (img.coreList.foldl (fun s c => s.modCore c (·.abortStep (s.voteWords img c))) s).modFab fun f =>
    { f with receiving := f.receiving.filter fun r => xOp (s.slotEntry img r.1) == 2 }

/-! ### Commit -/

/-- Device memory copied, poison marks with it (R244; log entry 25). -/
def State.copyRange (s : State) (src dst n : Nat) : State :=
  let bad := s.poison.filter fun u => decide (src ≤ 256 * u) && decide (256 * u < src + n)
  let s := s.dramWrite dst (s.dramRead src n)
  bad.foldl (fun s u => s.poisonUnit (u - src / 256 + dst / 256)) s

/-- SRC, DST and the bytes of a region entry (R298). -/
def regSrc (e : Nat) : Nat := fld e 0 52
def regDst (e : Nat) : Nat := fld e 64 52
def regBytes (e : Nat) : Nat := unitBytes * fld e 128 24

/-- The copy of a region (R156, R298). -/
def State.copyRegion (s : State) (e : Nat) : State := s.copyRange (regSrc e) (regDst e) (regBytes e)

/-- The region entries of a set. -/
def State.setRegions (s : State) (img : Image) (set : Nat) : List Nat :=
  let e := s.setEntry img set
  (List.range (fld e 16 16)).map fun i => s.regionEntry img (fld e 0 16 + i)

/-- The device addresses of a set's units, in order of its regions. -/
def State.setUnits (s : State) (img : Image) (set : Nat) : List Nat :=
  ((s.setRegions img set).map fun e => (List.range (fld e 128 24)).map fun i => regSrc e + unitBytes * i).flatten

/-- The units of a set, as they stand in the regions at the boundary, sent over MIRROR (R299, R305). -/
def State.shipSet (s : State) (img : Image) (dst : BitVec 16) (set : Nat) (step : W64) : State :=
  ((s.setUnits img set).zipIdx).foldl (fun s u => s.sendDyn dst .mirror (.unit set step u.2 (s.dramRead u.1 unitBytes))) s

/-- The checkpointed partner (R296). -/
def State.checkPartner (s : State) : Option (BitVec 16) := (s.fab.bindings.find? (·.checkpointed)).map (·.partner)

/-- A set copied locally, and shipped where SHIP asks for it and a partner is bound (R156, R298, R299). -/
def State.copySet (s : State) (img : Image) (r : SnapReq) : State :=
  let s := (s.setRegions img r.set).foldl State.copyRegion s
  let n := s.prog.step
  let ship := r.ship && s.checkPartner.isSome
  let s := s.modProg fun p =>
    { p with localCopies := (r.set, n) :: p.localCopies.filter (·.1 ≠ r.set),
             shipping := if ship then p.shipping ++ [(r.set, n)] else p.shipping }
  match s.checkPartner with
  | some d => if ship then s.shipSet img d r.set n else s
  | none => s

/-- The SNAPSHOT copies of the step (R18, R156, R298 to R300). A checkpoint is full when every set was copied with SHIP: the continuous
record of the boundary is kept, and travels with the sets; without a checkpointed partner the checkpoint is complete with its local
copies. -/
def State.takeSnapshots (s : State) (img : Image) : State :=
  let due := s.dueSnaps img
  let s := due.foldl (fun s r => s.copySet img r) s
  let full := decide (0 < s.snapSets img)
    && (List.range (s.snapSets img)).all fun k => due.any fun r => r.set == k && r.ship
  if !full then s
  else
    let x := s.continuous img
    let there := s.checkPartner.isSome
    let s := match s.checkPartner with
      | some d => s.sendDyn d .mirror (.state x.step (s.ownRecord img))
      | none => s
    s.modProg fun p =>
      { p with kept := some x, inputs := if there then p.inputs else p.inputs.filter fun i => decide (x.step.toNat < i.1.toNat),
               inputFull := if there then p.inputFull else none }

/-- The core that a rotation moves (R240): one whose site has CE_FLAG, else the one whose site has served longest since its test, ties
to the lower site number; a core with an elastic section under way is passed over. -/
def State.rotationCore (s : State) : Option CoreId :=
  let xs := (allCores.filter fun (c : CoreId) => !(s.core c).needle.elasticOn && (s.site (s.core c).site).role == .service)
  let low := fun (b c : CoreId) => if (s.core c).site < (s.core b).site then c else b
  let long := fun (b c : CoreId) =>
    let x := (s.site (s.core b).site).served
    let y := (s.site (s.core c).site).served
    if x < y then c else if x = y then low b c else b
  match xs.filter fun c => (s.site (s.core c).site).ceFlag with
  | c :: r => some (r.foldl low c)
  | [] => match xs with
    | [] => none
    | c :: r => some (r.foldl long c)

/-- A rotation that is due (R240): the core moves to the tested guard of R239 and its old site goes under test. -/
def State.rotate (s : State) (img : Image) : State :=
  let n := s.prog.sinceRotation + 1
  let s := s.modProg fun p => { p with sinceRotation := n }
  let tested := allSites.any fun i =>
    (s.site i).role == .guard && (s.site i).testOk && decide ((s.site i).transit.toNat ≤ img.bounds.spineBound)
  if s.prog.rotationSteps = 0 ∨ n < s.prog.rotationSteps.toNat ∨ !tested then s
  else match s.rotationCore, s.chooseGuard img.bounds.spineBound with
    | some c, some g =>
      let old := (s.core c).site
      ((s.moveCore img c g).modSite old fun x => { x with role := .underTest }).showRoles.modProg fun p => { p with sinceRotation := 0 }
    | _, _ => s

/-- The counter is beyond the tick, `early` ticks less, at which the waking of some sites begins, for the core among them that is
released first (R369). -/
def State.wakePassed (s : State) (img : Image) (xs : List CoreId) (early : Nat) : Bool :=
  xs.any fun c =>
    let (tick, frames) := s.releaseWord img c
    let f := (s.core c).needle.lastFrame.toNat + frames
    decide (f < s.cad.frame.toNat)
      || (s.cad.frame.toNat == f && decide (tick < s.cad.tick.toNat + 2 + divCeil xs.length 25 + early))

/-- Cores whose STEP_END asked for it sleep, unless their waking tick has passed (R143, R369). -/
def State.sleepCores (s : State) (img : Image) : State :=
  let xs := img.coreList.filter fun c => (s.core c).needle.sleepReq
  if s.wakePassed img xs 0 then s else xs.foldl (fun s c => s.modCore c fun k => { k with asleep := true }) s

/-- Sites that carry a core have served one more committed step (R240). -/
def State.countService (s : State) : State :=
  allCores.foldl (fun s (c : CoreId) => s.modSite (s.core c).site fun x => { x with served := x.served + 1 }) s

/-- WAIT_STEP handles whose step has committed (R325). -/
def State.wakeWaiters (s : State) : State :=
  let n := s.lastStep
  s.prog.stepWaiters.foldl (fun s h =>
    match s.running? h with
    | some e =>
      let x := fld e.body.toNat 0 64
      if x ≤ n then (s.complete h 0 0 x).modProg fun p => { p with stepWaiters := p.stepWaiters.erase h } else s
    | none => s.modProg fun p => { p with stepWaiters := p.stepWaiters.erase h }) s

/-- The continuous record of a committed boundary goes to the partner, or waits for the one in flight (R297). MIRROR_LAG is raised when
the partner's latest complete record falls more than 4 steps behind. -/
def State.mirrorStep (s : State) (img : Image) : State :=
  match s.fab.bindings.find? (·.continuous) with
  | none => s
  | some b =>
    let n := s.prog.step
    let flying := s.fab.outstanding.any fun o => match o.initiator with
      | .record _ => true
      | _ => false
    let s := if flying then s else s.sendDyn b.partner (.record n) (.record n (changedPages s.fab.acked (s.ownRecord img)))
    match s.fab.mirrored with
    | none => s
    | some m =>
      if m.toNat + 4 < n.toNat then
        if s.fab.lagRaised then s
        else (s.raiseStep 0x0316 noCore (item2 m.toNat)).modFab fun f => { f with lagRaised := true }
      else s.modFab fun f => { f with lagRaised := false }

/-- The comparison of a member recovery's replay (R302): the covering node holds its steering digest against the record of the lost
node, which carries no rank any more, at the step of that record (DEDUCED, log entry 36). The other digest when they differ. -/
def State.replayDiffers (s : State) : Option W32 :=
  if s.prog.replayTo.isNone ∨ s.prog.recovering ∨ s.fab.covering = [] then none
  else
    (s.fab.protects.find? fun p =>
      !(s.fab.rankNode.any fun x => x.2 == p.node) && p.recordStep == s.prog.step && recordDigest p.record != s.prog.digest).map
      fun p => recordDigest p.record

/-- The step is committed (R18): decisions, SNAPSHOT copies, rotation, sleep. -/
def State.commitStep (s : State) (img : Image) (failed : List Nat) : State :=
  let s := img.coreList.foldl State.raiseCore s
  let s := s.commitSteering img
  let s := s.takeSnapshots img
  let s := (s.rotate img).countService
  let wasWarm := s.prog.warm
  let n := s.prog.step
  let s := (s.modProg fun p =>
    { p with committed := if p.committed.elim true (fun m => decide (m.toNat ≤ n.toNat)) then some n else p.committed })
  let s := (s.modHost fun h => { h with stepDone := BitVec.ofNat 64 s.lastStep }).wakeWaiters.mirrorStep img
  match s.replayDiffers with
  | some d => s.endRecovery 0x020C [s.prog.digest, d]
  | none =>
    let s := s.switchRoutes img failed
    let s := s.modProg fun p =>
      { p with discards := 0, faults := (if 1 < img.bounds.devices then p.faults else []) ++ p.faultsNext, faultsNext := [],
               snaps := [], closed := false, carrier := [], digestMin := none, digestMax := none, released := false,
               checkpointWait := false, coldLeft := p.coldLeft - 1, lastCold := !wasWarm, step := n + 1,
               replayTo := if p.replayTo = some n ∧ !p.recovering then none else p.replayTo }
    let s := img.coreList.foldl (fun s c => s.modCore c fun k =>
      { k with coll := k.collNext, collKept := k.collNext, collNext := [] }) s
    (s.finishCores img).sleepCores img

/-! ### Commands that act at the boundary (R136, R141, R160, R322, R325) -/

/-- A waiting ACTIVATE at the boundary (R160): the old program gives way, unless the activation is refused or waits for peers. -/
def State.replaceProgram (s : State) (h : Handle) : State :=
  match s.prog.staged with
  | none => s
  | some img =>
    match s.admission img (decide (s.now < s.prog.peerWaitEnd)) with
    | .wait => s
    | .refused st d r => (s.complete h st d r).modProg fun p => { p with activating := none }
    | .ready _ => s.endProgram 0x0203 0 none

/-- One command that acts at the boundary of step n. -/
def State.actAtBoundary (s : State) (n : Nat) (h : Handle) : State :=
  match s.running? h, s.prog.active with
  | some e, some img =>
    if e.opcode.toNat = 0x15 then
      match s.prog.boundaryCmds.find? fun b => b.handle = h with
      | some b =>
        (s.modProg fun p =>
          { p.update b.first b.entries b.allowance with boundaryCmds := p.boundaryCmds.filter (·.handle ≠ h) }).complete h 0 0 n
      | none => s
    else if e.opcode.toNat = 0x12 then (s.modProg fun p => { p with staged := none }).endProgram 0x0202 0 none
    else if e.opcode.toNat = 0x14 then s.startElastic img h
    else s.replaceProgram h
  | _, _ => s

/-- A handle in its place in the order of taking (R322). -/
def insertTaken (taken : Handle → Nat) (h : Handle) : List Handle → List Handle
  | [] => [h]
  | x :: r => if taken h < taken x then h :: x :: r else x :: insertTaken taken h r

/-- The commands that wait for a boundary, in the order they were taken. -/
def State.boundaryOrder (s : State) : List Handle :=
  let taken := fun (h : Handle) => (s.host.entry? h).elim 0 (·.takenAt)
  (s.prog.boundaryCmds.map (·.handle) ++ s.prog.elasticPending.toList ++ s.prog.activating.toList).foldl
    (fun l h => insertTaken taken h l) []

def State.boundaryActs (s : State) (n : Nat) : State := s.boundaryOrder.foldl (fun s h => s.actAtBoundary n h) s

/-! ### A rejoin begins (R305) -/

/-- The covering node copies the rank's region sets locally and ships them with its continuous state to the new module. -/
def State.shipRank (s : State) (img : Image) (node : BitVec 16) : State :=
  let n := s.prog.committed.getD 0
  let s := (List.range (s.snapSets img)).foldl (fun s k =>
    ((s.setRegions img k).foldl State.copyRegion s).shipSet img node k n) s
  s.sendDyn node .mirror (.state n (s.committedRecord img))

/-- At the boundary after the request the domain holds, which the program root floods, and the covering node ships. -/
def State.beginRejoin (s : State) (img : Image) : State :=
  match s.fab.rejoining with
  | none => s
  | some (r, node) =>
    if !s.fab.cover ∨ s.prog.active.isNone ∨ s.cad.hold then s
    else
      let s := s.modCad fun c => { c with hold := true, holdFrames := 0 }
      let s := if s.isProgramRoot then s.sendMembers .hold else s
      if s.fab.covering.contains r then s.shipRank img node else s

/-! ### The command -/

/-- The end of the prologue on every core (R140, R151). Blocks re-encoded at a clamp limit in the prologue stay counted and are reported
with the first step (R107: DESIGN CHOICE, log entry 62). -/
def State.endPrologue (s : State) (img : Image) : State :=
  (img.coreList.foldl (fun s c => s.modCore c fun k =>
    let k := k.clearPinned
    { k with awl := { k.awl with pinned := ReadAhead.start s.prog.schedule },
             needle := { k.needle with sect := s.prog.schedule, pos := 0 } }) s).modProg fun p => { p with phase := .steps }

/-- The faults or the vote call for a replay (R18, R262). -/
def State.faulted (s : State) (img : Image) : Bool :=
  if img.bounds.devices ≤ 1 then s.prog.faults != [] else votesFault s.cad.votes

/-- Program links failed, as the vote shows them (R295). -/
def State.failedLinks (s : State) (img : Image) : List Nat :=
  if img.bounds.devices ≤ 1 then s.fab.failedNow else votesFailed s.cad.votes

/-- STEP_BOUNDARY (R18): the end of the prologue, or the boundary of the step. Commands that act at a boundary act once the step has
committed (R19, R136, R160, R322), and a rejoin begins (R305). -/
def execStepBoundary (s : State) : Host.Outcome State Fault Refusal :=
  match s.prog.active with
  | none => .next s
  | some img =>
    if img.direct then .next s
    else if s.prog.phase = .prologue then
      if img.coreList.all (fun c => (s.core c).needle.sect == .done && (s.core c).quietSignals) then .next (s.endPrologue img)
      else .next s
    else if s.prog.phase ≠ .steps ∨ !s.prog.released ∨ s.cad.hold ∨ s.clk.lost ∨ s.clk.returning ∨ !s.stepComplete img
        ∨ (1 < img.bounds.devices ∧ !s.voteComplete img) then .next s
    else
      let n := s.prog.step.toNat
      if s.faulted img then .next (s.discardStep img (s.failedLinks img))
      else match s.waitingSet img with
        | some k => .next (s.raiseWait k)
        | none => .next (((s.commitStep img (s.failedLinks img)).boundaryActs n).beginRejoin img)

end Sys2Proof.Machine
end

