-- ==== Sys2Proof/Machine/HostCmds.lean ====
section
/-!
DEFINITION. The host commands of R323 to R327 but for LOAD and RECIPE_UPDATE: data movement, program control, resumption, settings,
service and mirror commands. A command acts when it begins (R322).
-/

namespace Sys2Proof.Machine

/-! ### Data movement (R325) -/

/-- The fields that DMA_WRITE, DMA_READ and INPUT share, and the lowest bit of the first field in error. -/
def dmaHost (b : Nat) : Nat := fld b 0 64
def dmaDev (b : Nat) : Nat := fld b 64 52
def dmaLen (b : Nat) : Nat := fld b 128 40

def State.dmaError (s : State) (b : Nat) : Option Nat :=
  if dmaHost b % 64 ≠ 0 then some 0
  else if dmaDev b % 64 ≠ 0 ∨ s.layoutEnd < dmaDev b + max 64 (dmaLen b) then some 64
  else if dmaLen b < 64 ∨ dmaLen b % 64 ≠ 0 then some 128
  else none

/-- What the host reads of a transfer brought: the bytes that reach device memory, and whether the transfer ended in an error. None
when they are neither the whole transfer nor cut short by an error: such a read cannot be. -/
def readIn (src : HostRead) (n : Nat) : Option (List Byte × Bool) :=
  if src.error then (if src.bytes.length < n then some (src.bytes, true) else none)
  else if src.bytes.length = n then some (src.bytes, false) else none

/-- DMA_WRITE (R323 to R325): host bytes into device memory. -/
def execDmaWrite (h : Handle) (src : HostRead) (s : State) : Host.Outcome State Fault Refusal :=
  match s.begins h 0x01 with
  | none => .next s
  | some b =>
    match s.dmaError b, readIn src (dmaLen b) with
    | some lo, _ => .next (s.badField h lo)
    | none, none => .next s
    | none, some (bytes, true) => .next ((s.dramStore (dmaDev b) bytes).complete h 0x0007 bytes.length 0)
    | none, some (bytes, false) => .next ((s.dramStore (dmaDev b) bytes).complete h 0 0 bytes.length)

/-- A write of `n` bytes to the host that meets a PCIe error after `k` bytes, or none: the bytes written, and how many. -/
def written (errorAt : Option Nat) (bytes : List Byte) : List Byte × Option Nat :=
  match errorAt with
  | some k => if k < bytes.length then (bytes.take k, some k) else (bytes, none)
  | none => (bytes, none)

/-- A command that writes bytes to the host and completes with the RESULT given, or with HOST_ACCESS_FAULT (R325). -/
def State.toHost (s : State) (h : Handle) (addr : Nat) (bytes : List Byte) (errorAt : Option Nat) (result : Nat) : State :=
  let w := written errorAt bytes
  let s := s.hostWrite addr w.1
  match w.2 with
  | some k => s.complete h 0x0007 k 0
  | none => s.complete h 0 0 result

/-- DMA_READ (R323 to R325): device bytes into host memory. -/
def execDmaRead (h : Handle) (errorAt : Option Nat) (s : State) : Host.Outcome State Fault Refusal :=
  match s.begins h 0x02 with
  | none => .next s
  | some b =>
    match s.dmaError b with
    | some lo => .next (s.badField h lo)
    | none => .next (s.toHost h (dmaHost b) (s.dramRead (dmaDev b) (dmaLen b)) errorAt (dmaLen b))

/-- References that the continuous record can list (R297). -/
def inputLimit : Nat := 3014656

/-- An input of a running program is listed for recovery; beyond the limit it is not, and INPUT_LOG_FULL is raised once (R297, R304).
An input supplied again is listed already. -/
def State.listInput (s : State) (step ref : W64) : State :=
  if s.prog.inputs.contains (step, ref) then s
  else if s.prog.inputs.length < inputLimit then s.modProg fun p => { p with inputs := p.inputs ++ [(step, ref)] }
  else if s.prog.inputFull.isSome then s
  else (s.raiseStep 0x0317 noCore (item2 step.toNat ++ [item s.prog.inputs.length])).modProg fun p => { p with inputFull := some (step, ref) }

/-- A recovery's input does not come: RECOVERY_INPUT_MISSING with the step and the reference, at every member (R304, R306). -/
def State.endMissing (s : State) (i : W64 × W64) : State := s.endRecovery 0x020B (item2 i.1.toNat ++ item2 i.2.toNat)

/-- The release instant of a step has passed (R154, R325). -/
def State.stepReleased (s : State) (step : Nat) : Bool :=
  s.prog.active.isSome && s.prog.phase == .steps
    && (decide (step < s.prog.step.toNat) || (decide (step = s.prog.step.toNat) && s.prog.released))

/-- INPUT (R269, R297, R304, R323 to R325): the bytes are written and the reference listed; after the release of the step that reads
them the command completes INPUT_LATE and the data stays. An input that a recovery asked for and that does not come whole ends it with
RECOVERY_INPUT_MISSING. -/
def execInputCmd (h : Handle) (src : HostRead) (s : State) : Host.Outcome State Fault Refusal :=
  match s.begins h 0x03 with
  | none => .next s
  | some b =>
    let ref : W64 := BitVec.ofNat 64 (fld b 192 64)
    let step : W64 := BitVec.ofNat 64 (fld b 256 64)
    match s.dmaError b, readIn src (dmaLen b) with
    | some lo, _ => .next (s.badField h lo)
    | none, none => .next s
    | none, some (bytes, true) =>
      let t := (s.dramStore (dmaDev b) bytes).complete h 0x0007 bytes.length 0
      .next (if s.prog.inputWant.contains (step, ref) then t.endMissing (step, ref) else t)
    | none, some (bytes, false) =>
      let s := ((s.dramStore (dmaDev b) bytes).listInput step ref).modProg fun p => { p with inputWant := p.inputWant.erase (step, ref) }
      .next (if s.stepReleased step.toNat then s.complete h 0x0005 step.toNat bytes.length else s.complete h 0 0 bytes.length)

/-! ### Programs (R160, R236, R322, R325) -/

/-- ACTIVATE (R160, R236, R237, R322, R325): NO_IMAGE or a refusal at once, otherwise its handle is the program handle, at once or from
the next boundary on; it waits for its peers for PEER_WAIT ms, 0 meaning 10,000. -/
def execActivate (h : Handle) (s : State) : Host.Outcome State Fault Refusal :=
  match s.begins h 0x11 with
  | none => .next s
  | some b =>
    if s.prog.recovering then .next (s.complete h 0x0003 0 0)
    else match s.prog.staged with
      | none => .next (s.complete h 0x0004 0 0)
      | some img =>
        match s.admission img true with
        | .refused st d r => .next (s.complete h st d r)
        | _ =>
          let ms := if fld b 0 32 = 0 then 10000 else fld b 0 32
          .next ((s.markBegun h).modProg fun p =>
            { p with activating := some h, peerWaitEnd := s.now + 100000 * ms }).tryActivate

/-- PEER_WAIT_EXPIRY (R236, R237): the peer wait of an ACTIVATE has passed; it is refused when a peer is missing. -/
def execPeerWaitExpiry (s : State) : Host.Outcome State Fault Refusal :=
  match s.prog.activating, s.prog.staged with
  | some h, some img =>
    if s.now < s.prog.peerWaitEnd then .next s
    else match s.admission img false with
      | .refused st d r => .next ((s.complete h st d r).modProg fun p => { p with activating := none })
      | _ => .next s.tryActivate
  | _, _ => .next s

/-- The staged image discarded (R160, R236, R283). -/
def State.dropStaged (s : State) : State := (s.modProg fun p => { p with staged := none }).advertise.takeShelf

/-- UNLOAD (R322, R323, R325): the staged image alone, or the program at the next boundary; a direct program, which has no boundary,
at once. -/
def execUnload (h : Handle) (s : State) : Host.Outcome State Fault Refusal :=
  match s.begins h 0x12 with
  | none => .next s
  | some b =>
    match s.prog.active with
    | some img =>
      if bitOf b 0 then .next (s.dropStaged.complete h 0 0 0)
      else if img.direct then .next (((s.modProg fun p => { p with staged := none }).endProgram 0x0202 0 none).complete h 0 0 0)
      else
        .next ((s.markBegun h).modProg fun p =>
          { p with boundaryCmds := p.boundaryCmds ++ [{ handle := h, first := 0, entries := [], allowance := none }] })
    | none => .next (s.dropStaged.complete h 0 0 0)

/-- CANCEL (R153, R189, R323, R325): a program starts its drain; an elastic section ends; a DMA, an INPUT, a LOAD or an ACTIVATE that has
not begun, or waits, and a WAIT_STEP complete CANCELLED. Any other handle is BAD_HANDLE. -/
def execCancel (h : Handle) (s : State) : Host.Outcome State Fault Refusal :=
  match s.begins h 0x13 with
  | none => .next s
  | some b =>
    let t : Handle := BitVec.ofNat 32 (fld b 0 32)
    let done := fun (s : State) => (s.complete t 0x0201 0 0).complete h 0 0 0
    match s.running? t with
    | none => .next (s.complete h 0x0002 0 0)
    | some e =>
      let op := e.opcode.toNat
      if s.prog.handle = some t then .next ((s.modProg fun p => { p with phase := .cancelling }).markBegun h)
      else if s.prog.activating = some t then .next (done (s.modProg fun p => { p with activating := none }))
      else if s.prog.elasticPending = some t then .next (done (s.modProg fun p => { p with elasticPending := none }))
      else if s.prog.elasticHandle = some t then
        match s.prog.active with
        | some _ => .next ((s.failElastic 0x0201 0).complete h 0 0 0)
        | none => .next (done (s.modProg fun p => { p with elasticHandle := none }))
      else if op = 0x01 ∨ op = 0x02 ∨ op = 0x03 ∨ op = 0x10 ∨ op = 0x11 ∨ op = 0x14 then .next (done s)
      else if op = 0x18 then .next (done (s.modProg fun p => { p with stepWaiters := p.stepWaiters.erase t }))
      else .next (s.complete h 0x0002 0 0)

/-- ELASTIC_START (R141, R322): the elastic section starts at the next boundary. -/
def execElasticStart (h : Handle) (s : State) : Host.Outcome State Fault Refusal :=
  match s.begins h 0x14 with
  | none => .next s
  | some _ =>
    if s.prog.active.isNone then .next (s.complete h 0x0004 0 0)
    else if s.prog.elasticHandle.isSome ∨ s.prog.elasticPending.isSome then .next (s.complete h 0x0003 0 0)
    else .next ((s.markBegun h).modProg fun p => { p with elasticPending := some h })

/-- WAIT_STEP (R325): completes at once when the step has committed, in the program that is active or, with none active, in the one before;
otherwise waits for it, or for the end of the program. With no program active it waits for the next (DEDUCED, log entry 30). -/
def execWaitStep (h : Handle) (s : State) : Host.Outcome State Fault Refusal :=
  match s.begins h 0x18 with
  | none => .next s
  | some b =>
    let n := fld b 0 64
    let last := if s.prog.active.isSome then s.prog.committed else s.prog.formerStep
    if last.elim false (fun c => decide (n ≤ c.toNat)) then .next (s.complete h 0 0 n)
    else .next ((s.markBegun h).modProg fun p => { p with stepWaiters := p.stepWaiters ++ [h] })

/-- PAGED_MAP (R181, R325): a region in the paged pool of the active program, else of the staged image. -/
def execPagedMap (h : Handle) (s : State) : Host.Outcome State Fault Refusal :=
  match s.begins h 0x17 with
  | none => .next s
  | some b =>
    let base := fld b 0 52
    let pages := fld b 64 24
    let peer := bitOf b 52
    let img := if s.prog.active.isSome then s.prog.active else s.prog.staged
    let inPool := img.elim false fun i =>
      decide (i.pinnedPages * 2 ^ 30 ≤ base) && decide (base + pages * unitBytes ≤ s.layoutEnd)
    if s.prog.elasticHandle.isSome then .next (s.complete h 0x0003 0 0)
    else if base % unitBytes ≠ 0 ∨ !inPool then .next (s.badField h 0)
    else if pages = 0 then .next (s.badField h 64)
    else if !peer ∧ fld b 128 64 % 4096 ≠ 0 then .next (s.badField h 128)
    else
      let g : PagedRegion := { vbase := base, pages := pages, peer := peer, backAddr := fld b 128 64,
                               peerNode := BitVec.ofNat 16 (fld b 192 16) }
      .next ((s.modProg fun p => { p with paged := p.paged ++ [g] }).complete h 0 0 0)

/-! ### Resumption (R188, R202) -/

/-- Fields of a STREAM_RESUME body. -/
def rsTarget (b : Nat) : Handle := BitVec.ofNat 32 (fld b 0 32)
def rsStream (b : Nat) : Nat := fld b 40 6
def rsKernel (b : Nat) : Bool := bitOf b 46
def rsMirror (b : Nat) : Bool := bitOf b 47

/-- The program and the core that a resume names: the handle must be a running program's or elastic section's (R188); the first field
in error otherwise. -/
inductive ResumeAt
  | badHandle
  | badField (lo : Nat)
  | here (img : Image) (c : CoreId)
  deriving DecidableEq, Repr

def State.resumeAt (s : State) (b : Nat) : ResumeAt :=
  let t := rsTarget b
  match s.running? t, s.prog.active with
  | some _, some img =>
    if s.prog.handle ≠ some t ∧ s.prog.elasticHandle ≠ some t then .badHandle
    else if h : fld b 32 8 < 192 then
      if fld b 32 8 < img.cores then .here img ⟨fld b 32 8, h⟩ else .badField 32
    else .badField 32
  | _, _ => .badHandle

/-- Spans of landed bytes from a place of the stream on removed. -/
def Stream.cutFrom (x : Stream) (key : Nat) : List (Nat × Nat) :=
  (x.landed.map fun p =>
    if p.1 / 2 ^ 40 = key / 2 ^ 40 then (p.1, min p.2 (key - p.1)) else (p.1, if x.order p.1 < x.order key then p.2 else 0)).filter
      fun p => p.2 ≠ 0

/-- Bytes of the oldest armed word of a stream that lie before a place of the list: all of them where the place is not in it. -/
def State.armBefore (s : State) (e : Nat) (a : Arm) (block offset : Nat) : Nat :=
  let upto := fun (n : Nat) => ((List.range n).map fun j => bLen (s.listEntry e (a.first + j))).sum
  if a.awaits block then upto (block - a.first) + offset else upto a.count

/-- A halted stream restarts with the first byte of its failing unit, and everything from there on is read again (R188): what is out is
no longer wanted, what has landed is not counted. A shadow stream is read again by its open load alone. A member of a multicast group
fetches what its words have armed with reads of its own from there on (R180). -/
def State.restart (s : State) (img : Image) (c : CoreId) (i : Nat) (r : HaltRec) : State :=
  let e := s.streamEntry img c i
  let fetched := landKey r.block r.byteOffset
  let landed := match sMull e with
    | some k => landKey r.block (r.byteOffset / k.size * 8192)
    | none => fetched
  s.modCore c fun k =>
    let x := k.strm i
    let after := fun (key : Nat) => decide (x.order fetched ≤ x.order key)
    let reads := k.awl.reads.map fun y => { y with dropped := y.dropped || (y.stream == i && y.group == 0 && after y.offset) }
    { k with awl := { k.awl with reads := reads } }.modStrm i fun x =>
      { x with halted := none, walking := none, fetching := none,
               ownUntil := if sMulticast e then k.needle.serial else x.ownUntil,
               ownFrom := if sMulticast e then (((x.armFor r.block).elim 0 (·.serial)), fetched) else x.ownFrom,
               nextByte := (x.arms.head?).elim 0 fun a => s.armBefore e a r.block r.byteOffset,
               landed := if sShadow e then x.landed else x.cutFrom landed,
               buffer := x.buffer.filter fun p => !after p.1 }

/-- STREAM_RESUME (R188): without FROM_MIRROR and KERNEL. -/
def execStreamResume (h : Handle) (s : State) : Host.Outcome State Fault Refusal :=
  match s.begins h 0x16 with
  | none => .next s
  | some b =>
    if rsKernel b ∨ rsMirror b then .next s
    else match s.resumeAt b with
      | .badHandle => .next (s.complete h 0x0002 0 0)
      | .badField lo => .next (s.badField h lo)
      | .here img c =>
        match ((s.core c).strm (rsStream b)).halted with
        | none => .next (s.badField h 40)
        | some r => .next ((s.restart img c (rsStream b) r).complete h 0 0 0)

/-- KERNEL_RESUME (R202, R203): the halted kernel restarts at its halted instruction. STREAM and FROM_MIRROR are then 0. -/
def execKernelResume (h : Handle) (s : State) : Host.Outcome State Fault Refusal :=
  match s.begins h 0x16 with
  | none => .next s
  | some b =>
    if !rsKernel b then .next s
    else if rsStream b ≠ 0 then .next (s.badField h 40)
    else if rsMirror b then .next (s.badField h 47)
    else match s.resumeAt b with
      | .badHandle => .next (s.complete h 0x0002 0 0)
      | .badField lo => .next (s.badField h lo)
      | .here _ c =>
        if (s.core c).plough.halted then
          .next ((s.modCore c fun k => { k with plough := { k.plough with halted := false } }).complete h 0 0 0)
        else .next (s.badField h 46)

/-- Bytes of a stream's failing unit (R186): the folio, the read, the page, the block-list entry, the Mull block. -/
def State.unitLen (s : State) (e : Nat) (r : HaltRec) : Nat :=
  let reason := r.reason.toNat
  if reason ≤ 4 then 64
  else if reason = 0x20 then 256 - r.addr % 256
  else if reason = 0x30 ∨ reason = 0x31 then unitBytes
  else if reason = 0x40 then bLen (s.listEntry e r.block)
  else match sMull e with
    | some k => k.size
    | none => 64

/-- FROM_MIRROR_RESUME (R188): the 4 KiB-aligned range that holds the unit is restored from the partner's last snapshot, and the stream
resumes; without a copy the stream stays halted. -/
def execFromMirrorResume (h : Handle) (reply : MirrorReply) (s : State) : Host.Outcome State Fault Refusal :=
  match s.begins h 0x16 with
  | none => .next s
  | some b =>
    if rsKernel b ∨ !rsMirror b then .next s
    else match s.resumeAt b with
      | .badHandle => .next (s.complete h 0x0002 0 0)
      | .badField lo => .next (s.badField h lo)
      | .here img c =>
        match ((s.core c).strm (rsStream b)).halted with
        | none => .next (s.badField h 40)
        | some r =>
          let a := r.addr / 4096 * 4096
          let n := 4096 * divCeil (r.addr % 4096 + s.unitLen (s.streamEntry img c (rsStream b)) r) 4096
          if !s.fab.bindings.any (·.checkpointed) then .next (s.complete h 0x0008 0 0)
          else match reply with
            | .noCopy => .next (s.complete h 0x0008 0 0)
            | .unreachable d => .next (s.complete h 0x000A d.toNat 0)
            | .copy range =>
              if range.length ≠ n then .next s
              else .next (((s.dramStore a range).restart img c (rsStream b) r).complete h 0 0 0)

/-! ### Settings -/

/-- QUEUE_LIMITS (R174, R175): limits above their range are refused; 0 leaves one unchanged; RESULT is the previous body. -/
def execQueueLimits (h : Handle) (s : State) : Host.Outcome State Fault Refusal :=
  match s.begins h 0x20 with
  | none => .next s
  | some b =>
    let d := fld b 0 11
    let m := fld b 16 11
    let t := fld b 32 7
    let x := s.host
    let old := x.dmaLimit.toNat + 2 ^ 16 * x.mirrorLimit.toNat + 2 ^ 32 * x.tippingLimit.toNat
    if 1024 < d then .next (s.badField h 0)
    else if 1024 < m then .next (s.badField h 16)
    else if 64 < t then .next (s.badField h 32)
    else
      .next ((s.modHost fun x =>
        { x with dmaLimit := if d = 0 then x.dmaLimit else BitVec.ofNat 11 d,
                 mirrorLimit := if m = 0 then x.mirrorLimit else BitVec.ofNat 11 m,
                 tippingLimit := if t = 0 then x.tippingLimit else BitVec.ofNat 7 t }).complete h 0 0 old)

/-- SET_APERTURE (R178). -/
def execSetAperture (h : Handle) (s : State) : Host.Outcome State Fault Refusal :=
  match s.begins h 0x21 with
  | none => .next s
  | some b =>
    let a := fld b 0 52
    if a % 2 ^ 36 ≠ 0 then .next (s.badField h 0)
    else .next ((s.modHost fun x => { x with aperture := BitVec.ofNat 64 a }).complete h 0 0 s.host.aperture.toNat)

/-- ROTATION_STEPS: 0, or from 1,024 (R240). -/
def rotationBad (b : Nat) : Bool := bitOf b 32 && decide (0 < fld b 0 32) && decide (fld b 0 32 < 1024)

def State.applyRotation (s : State) (b : Nat) : State :=
  if bitOf b 32 then s.modProg fun p => { p with rotationSteps := BitVec.ofNat 32 (fld b 0 32) } else s

/-- SET_ROTATION (R240, R324): SET_SERVICE without SET_LAYOUT. -/
def execSetRotation (h : Handle) (s : State) : Host.Outcome State Fault Refusal :=
  match s.begins h 0x22 with
  | none => .next s
  | some b =>
    if bitOf b 34 then .next s
    else if rotationBad b then .next (s.badField h 0)
    else .next ((s.applyRotation b).complete h 0 0 0)

/-- SET_LAYOUT (R235, R324, R325): BUSY with a program active or staged; after a change the content of device memory is undefined. -/
def execSetLayout (h : Handle) (s : State) : Host.Outcome State Fault Refusal :=
  match s.begins h 0x22 with
  | none => .next s
  | some b =>
    if !bitOf b 34 then .next s
    else if rotationBad b then .next (s.badField h 0)
    else if s.prog.active.isSome ∨ s.prog.staged.isSome then .next (s.complete h 0x0003 0 0)
    else
      let s := s.applyRotation b
      let s := if bitOf b 33 = s.prog.reserveLayout then s
        else (s.modProg fun p => { p with reserveLayout := bitOf b 33 }).loseDram
      .next (s.complete h 0 0 0)

/-! ### Profiles (R253, R380, R381) -/

/-- PROFILE_LOCK (R342). -/
def State.profileLock (s : State) : Bool := s.mc.fuses.getLsbD 5

/-- A profile with bits [lo + w − 1 : lo] replaced, and its CRC over bytes 0 to 251 (R380). -/
def profilePut (x : BitVec 2048) (lo w v : Nat) : BitVec 2048 :=
  let n := fld x.toNat 0 2016
  let n := n - 2 ^ lo * fld n lo w + 2 ^ lo * (v % 2 ^ w)
  BitVec.ofNat 2048 (n + 2 ^ 2016 * crc32 (leBytes 252 n))

def State.writeProfile (s : State) (p : Fin 4) (lo w v : Nat) : State :=
  s.modMc fun m => { m with profiles := m.profiles.set p.val (profilePut m.profiles[p] lo w v) p.isLt }

/-- The lowest bit, in the body of SET_PROFILE, of the first field of a declaration that R253 refuses. -/
def declarationError (d : Nat) : Option Nat :=
  let lo := fld d 0 24
  let hi := fld d 24 24
  if lo < 100000 ∨ hi < lo then some 128
  else if 16000000 < hi then some (128 + 24)
  else if fld d 60 4 ≠ 0 then some (128 + 56)
  else if fld d 80 48 ≠ 0 then some (128 + 80)
  else none

def State.selectProfile (s : State) (b : Nat) : State :=
  if bitOf b 3 then s.modMc fun m => { m with profSelected := some ⟨fld b 0 2 % 4, Nat.mod_lt _ (by decide)⟩ } else s

/-- SET_PROFILE_WRITE (R253, R370, R381): the declaration is stored, or discarded under PROFILE_LOCK with RESULT bit 0 set; SELECT acts
beside it. With the gate of the flash interface closed nothing is written, and the command is BUSY (DESIGN CHOICE, log entry 54). -/
def execSetProfileWrite (h : Handle) (s : State) : Host.Outcome State Fault Refusal :=
  match s.begins h 0x23 with
  | none => .next s
  | some b =>
    if !bitOf b 2 then .next s
    else match declarationError (fld b 128 128) with
      | some lo => .next (s.badField h lo)
      | none =>
        let p : Fin 4 := ⟨fld b 0 2 % 4, Nat.mod_lt _ (by decide)⟩
        let s := s.selectProfile b
        .next (if s.profileLock then s.complete h 0 0 1
          else if s.host.gate .mcFlash ≠ .opened then s.complete h 3 0 0
          else (s.writeProfile p 0 128 (fld b 128 128)).complete h 0 0 0)

/-- SET_PROFILE_SELECT (R381): SET_PROFILE without WRITE. -/
def execSetProfileSelect (h : Handle) (s : State) : Host.Outcome State Fault Refusal :=
  match s.begins h 0x23 with
  | none => .next s
  | some b => if bitOf b 2 then .next s else .next ((s.selectProfile b).complete h 0 0 0)

/-! ### Links, surveys, service -/

def bodyLane (b : Nat) : LaneId := ⟨fld b 0 6 % 64, Nat.mod_lt _ (by decide)⟩

/-- LINK_DISABLE (R277). -/
def execLinkDisable (h : Handle) (s : State) : Host.Outcome State Fault Refusal :=
  match s.begins h 0x24 with
  | none => .next s
  | some b => if bitOf b 6 then .next ((s.takeDown (bodyLane b) .disabled).complete h 0 0 0) else .next s

/-- LINK_BRING_UP (R274): phase 1 starts on a lane that is down; a lane that is up, or on its way up, goes on. -/
def execLinkBringUp (h : Handle) (s : State) : Host.Outcome State Fault Refusal :=
  match s.begins h 0x24 with
  | none => .next s
  | some b =>
    if bitOf b 6 then .next s
    else
      .next ((s.modLink (bodyLane b) fun k =>
        if k.phase = .disabled ∨ k.phase = .failed ∨ k.phase = .refused then { k with phase := .negotiating } else k).complete h 0 0 0)

/-- SURVEY (R229): starts a survey, or joins the one that runs. -/
def execSurvey (h : Handle) (s : State) : Host.Outcome State Fault Refusal :=
  match s.begins h 0x30 with
  | none => .next s
  | some _ => .next ((s.markBegun h).modHost fun x => { x with surveyWaiting := x.surveyWaiting ++ [h], surveyRunning := true })

/-- The 16-byte block of a site (R226, R324). -/
def Site.diag (x : Site) : List Byte :=
  leBytes 4 x.ceQuire.toNat ++ leBytes 4 x.ceAcc.toNat ++ leBytes 4 x.ceEndp.toNat ++ leBytes 4 x.ue.toNat

/-- DIAG_READ (R226, R324): one site's counters. -/
def execDiagRead (h : Handle) (errorAt : Option Nat) (s : State) : Host.Outcome State Fault Refusal :=
  match s.begins h 0x31 with
  | none => .next s
  | some b =>
    if fld b 0 8 = 0xFF then .next s
    else if hs : fld b 0 8 < 200 then .next (s.toHost h (fld b 64 64) (s.site ⟨fld b 0 8, hs⟩).diag errorAt 0)
    else .next (s.badField h 0)

/-- The 768 bytes of the kettle table: pair c at byte 4·c; zeros before any cancellation (R326). -/
def HostIf.kettleBytes (x : HostIf) : List Byte :=
  ((List.range 192).map fun c =>
    let p := x.kettleTable.getD c (0, 0)
    leBytes 2 p.1.toNat ++ leBytes 2 p.2.toNat).flatten

/-- DIAG_READ_KETTLE_TABLE (R326). -/
def execDiagReadKettleTable (h : Handle) (errorAt : Option Nat) (s : State) : Host.Outcome State Fault Refusal :=
  match s.begins h 0x31 with
  | none => .next s
  | some b =>
    if fld b 0 8 ≠ 0xFF then .next s else .next (s.toHost h (fld b 64 64) s.host.kettleBytes errorAt 0)

/-- Every recorded soft repair made hard (R245). -/
def State.makeHard (s : State) : State :=
  { s.modMc (fun m => { m with softRepairs := [] }) with hbm := s.hbm.map fun k => { k with softPending := 0 } }

/-- MAINTAIN (R245, R324, R325). -/
def execMaintain (h : Handle) (s : State) : Host.Outcome State Fault Refusal :=
  match s.begins h 0x32 with
  | none => .next s
  | some b =>
    if !bitOf b 0 then .next (s.badField h 0)
    else if s.prog.active.isSome ∨ s.prog.staged.isSome then .next (s.complete h 0x0003 0 0)
    else .next (s.makeHard.complete h 0 0 s.mc.softRepairs.length)

/-! ### Mirror commands (R296, R305) -/

/-- MIRROR_STORE (R296, R325): the store is set aside or withdrawn; with bindings in force a withdrawal, or a move that would withdraw the
store they use (DEDUCED, log entry 31), is BUSY. The spare capacity is advertised. -/
def execMirrorStore (h : Handle) (s : State) : Host.Outcome State Fault Refusal :=
  match s.begins h 0x40 with
  | none => .next s
  | some b =>
    let base := fld b 0 52
    let units := fld b 64 24
    let new := if units = 0 then none else some (base, units)
    if base % unitBytes ≠ 0 ∨ s.layoutEnd < base + units * unitBytes then .next (s.badField h 0)
    else if s.fab.protects ≠ [] ∧ new ≠ s.fab.store then .next (s.complete h 0x0003 0 0)
    else .next ((s.modFab fun f => { f with store := new }).advertise.complete h 0 0 0)

/-- MIRROR_REFUSED reason of R327. -/
def bindReason : BindReply → Option Nat
  | .accepted => none
  | .noStore => some 1
  | .capacity => some 2
  | .level => some 3
  | .limit => some 4
  | .unreachable => some 5
  | .image => some 6

/-- A class withdrawn from a binding; a binding left with no class lapses. -/
def Binding.without (cont chk : Bool) (x : Binding) : Option Binding :=
  let x := { x with continuous := x.continuous && !cont, checkpointed := x.checkpointed && !chk }
  if x.continuous || x.checkpointed then some x else none

/-- The 2 MiB units of a full checkpoint (R296, R298). -/
def State.checkpointUnits (s : State) (img : Image) : Nat := ((List.range (s.snapSets img)).map fun k => (s.setUnits img k).length).sum

/-- The binding request (R279, R296) of a body, for the active program, else the staged one. -/
def State.bindAsk (s : State) (b : Nat) : BindAsk :=
  let img := s.prog.active.or s.prog.staged
  { continuous := bitOf b 16, checkpointed := bitOf b 17, cover := BitVec.ofNat 2 (fld b 18 2), checkUnits := img.elim 0 s.checkpointUnits,
    programId := img.elim 0 (·.bounds.programId), rank := img.elim 0 (·.bounds.rank) }

/-- Partners that lose a class of their binding are told (R279, R296; DEDUCED, log entry 37). -/
def State.tellUnbound (s : State) (cont chk : Bool) (but : Option (BitVec 16)) : State :=
  (s.fab.bindings.filter fun x => some x.partner != but && ((x.continuous && cont) || (x.checkpointed && chk))).foldl
    (fun s x => s.sendDyn x.partner .device (.unbind (x.continuous && cont) (x.checkpointed && chk))) s

/-- MIRROR_BIND (R296): the partner named is asked; a refusal leaves any earlier binding in force; a binding takes its classes from
earlier ones, at most one partner a class. -/
def execMirrorBind (h : Handle) (reply : BindReply) (s : State) : Host.Outcome State Fault Refusal :=
  match s.begins h 0x41 with
  | none => .next s
  | some b =>
    let cont := bitOf b 16
    let chk := bitOf b 17
    if fld b 18 2 = 3 then .next (s.badField h 18)
    else
      let s := s.sendDyn (BitVec.ofNat 16 (fld b 0 16)) .device (.bind (s.bindAsk b))
      match bindReason reply with
      | some r => .next (s.complete h 0x0009 r 0)
      | none =>
        let s := s.tellUnbound cont chk (some (BitVec.ofNat 16 (fld b 0 16)))
        let x : Binding := { partner := BitVec.ofNat 16 (fld b 0 16), continuous := cont, checkpointed := chk,
                             cover := BitVec.ofNat 2 (fld b 18 2) }
        let s := s.modFab fun f =>
          { f with bindings := f.bindings.filterMap (Binding.without cont chk) ++ (if cont || chk then [x] else []),
                   mirrored := if cont then none else f.mirrored, acked := if cont then [] else f.acked, lagRaised := f.lagRaised && !cont }
        .next (s.advertise.complete h 0 0 0)

/-- MIRROR_UNBIND (R296). A shipment to a partner no longer bound ends. -/
def execMirrorUnbind (h : Handle) (s : State) : Host.Outcome State Fault Refusal :=
  match s.begins h 0x42 with
  | none => .next s
  | some b =>
    let s := (s.tellUnbound (bitOf b 16) (bitOf b 17) none).modFab fun f =>
      { f with bindings := f.bindings.filterMap (Binding.without (bitOf b 16) (bitOf b 17)) }
    let s := if bitOf b 17 then s.modProg fun p => { p with shipping := [] } else s
    .next (s.advertise.complete h 0 0 0)

/-- The program root as a module sees it that carries no rank (R263, R305): the lowest node that advertises one of the program. -/
def State.advertisedRoot (s : State) (img : Image) : Option Nat :=
  leastOf ((s.fab.adverts.filter fun p => p.1.programs.any fun q => q.1 == img.bounds.programId).map (·.1.node.toNat))

/-- SEED (R305, R323): with an image staged the program root is asked for a rejoin; the handle completes when the rank is adopted. -/
def execSeed (h : Handle) (reply : SeedReply) (s : State) : Host.Outcome State Fault Refusal :=
  match s.begins h 0x43 with
  | none => .next s
  | some _ =>
    match s.prog.staged with
    | none => .next (s.complete h 0x0004 0 0)
    | some img =>
      match reply with
      | .unreachable d => .next (s.complete h 0x000A d.toNat 0)
      | .memberLost r => .next (s.complete h 0x020A r.toNat 0)
      | .accepted =>
        let s := (s.markBegun h).modFab fun f => { f with seeding := some h, seedSets := [], seedState := none }
        .next (match s.advertisedRoot img with
          | some n => s.sendDyn (BitVec.ofNat 16 n) .device (.rejoin img.bounds.rank s.fab.nodeId)
          | none => s)

end Sys2Proof.Machine
end

