-- ==== Sys2Proof/Machine/Flash.lean ====
section
/-!
DEFINITION. What the MC keeps: fuses and life cycle (R342, R343, R399), firmware images (R348 to R350), the flash (R338, R339) and the SRAM
(R333, R356).
-/

namespace Sys2Proof.Machine

/-! ### Fuses and life cycle (R342, R343) -/

def Mc.fuse (m : Mc) (lo w : Nat) : Nat := fld m.fuses.toNat lo w

/-- LIFECYCLE of a pattern: any other than the five is read as DECOMMISSIONED. -/
def lifeOf (x : Nat) : LifeCycle :=
  if x = 0x0 then .manufacture
  else if x = 0x1 then .provisioned
  else if x = 0x3 then .deployed
  else if x = 0x7 then .returned
  else .decommissioned

def Mc.lifeCycle (m : Mc) : LifeCycle := lifeOf (m.fuse 0 4)
def Mc.serial (m : Mc) : Nat := m.fuse 144 64
/-- KEY_HASHk as a number: the fuse field's lowest bit is the lowest bit of the last byte of the hash (DESIGN CHOICE, log entry 73). -/
def Mc.keyHash (m : Mc) (k : Nat) : Nat := m.fuse (256 + 384 * k) 384
def Mc.revoked (m : Mc) (k : Nat) : Bool := m.fuse (8 + k) 1 == 1
def Mc.secret (m : Mc) : Nat := m.fuse 1536 256

/-- DEVICE_SECRET as its port gives it: 0 once the mask ROM has closed the port, until the next processor reset (R342). -/
def Mc.secretRead (m : Mc) : Nat := if m.secretClosed then 0 else m.secret

/-- The debug access port: open in MANUFACTURE and RETURNED unless DEBUG_LOCK is blown (R342, R343). -/
def Mc.debugOpen (m : Mc) : Bool :=
  m.fuse 4 1 == 0 && (m.lifeCycle == .manufacture || m.lifeCycle == .returned)

/-- Index of the highest set bit among the n lowest, plus 1; 0 for none. -/
def highest (x n : Nat) : Nat := (List.range n).foldl (fun m i => if bitOf x i then i + 1 else m) 0

/-- ROLLBACK count. -/
def Mc.rollback (m : Mc) : Nat := highest (m.fuse 16 128) 128

/-- Fuses blown (R342): the array, and with it the shadow from which the field is then read. -/
def Mc.blow (m : Mc) (bits : List Nat) : Mc :=
  let put := fun (x : BitVec 8448) => bits.foldl (fun f i => f ||| BitVec.ofNat 8448 (2 ^ i)) x
  { m with fuses := put m.fuses, fuseArray := put m.fuseArray }

/-! ### Manifests (R348, R349) -/

def compCode : Component → Nat
  | .mc => 1 | .binder => 2 | .linkUcode => 3 | .memUcode => 4

def largestBody : Component → Nat
  | .mc => 196608 | .binder => 16760832 | .linkUcode => 1032192 | .memUcode => 1032192

def mfKey (x : Nat) : Nat := fld x 40 2
def mfSvn (x : Nat) : Nat := fld x 48 8
def mfLevel (x : Nat) : Nat := fld x 56 8
def mfVersion (x : Nat) : Nat := fld x 64 32
def mfLength (x : Nat) : Nat := fld x 96 32
def mfChunks (x : Nat) : Nat := fld x 128 16
def mfPubX (x : Nat) : Nat := fld x 256 384
def mfPubY (x : Nat) : Nat := fld x 640 384
def mfSigR (x : Nat) : Nat := fld x 3072 384
def mfSigS (x : Nat) : Nat := fld x 3456 384
def mfReserved (x : Nat) : Nat := fld x 42 6 + fld x 144 112 + fld x 1024 2048 + fld x 3840 256

/-- Bytes of a number, highest first. R342 fixes this order for the coordinates of a key; the manual does not say in which order a digest
stands in a manifest's table, and the model takes it, as SHA-384 gives it, highest byte first (log entry 73). -/
def beBytes (n x : Nat) : List Byte := (leBytes n x).reverse
def beNat (b : List Byte) : Nat := leNat b.reverse

/-- A key hash: SHA-384 of X ‖ Y, big-endian (R342). -/
def hashOfKey (x y : Nat) : BitVec 384 := Config.sha384 (beBytes 48 x ++ beBytes 48 y)

/-- Key index and key accepted in the life-cycle state (R343): the manufacturing key only in MANUFACTURE; a fused key unless revoked. -/
def Mc.keyAllowed (m : Mc) (index x y : Nat) : Bool :=
  let h := hashOfKey x y
  if m.lifeCycle = .decommissioned then false
  else if index = 3 then m.lifeCycle == .manufacture && h == Config.manufacturingKeyHash
  else !m.revoked index && h == BitVec.ofNat 384 (m.keyHash index)

def signedBy (x y : Nat) (digest : BitVec 384) (r s : Nat) : Bool :=
  Config.ecdsaVerify (BitVec.ofNat 384 x) (BitVec.ofNat 384 y) digest (BitVec.ofNat 384 r) (BitVec.ofNat 384 s)

/-- The signed content of a manifest and its digest table (R349, R355). -/
def signedDigest (manifest : Nat) (digests : List (BitVec 384)) : BitVec 384 :=
  Config.sha384 (leBytes 384 manifest ++ (digests.map fun d => beBytes 48 d.toNat).flatten)

/-- Conditions 1 to 5 of R350: the result code of the first that fails. -/
def Mc.checkManifest (m : Mc) (c : Component) (x : Nat) (digests : List (BitVec 384)) : Option Nat :=
  if fld x 0 32 ≠ 0x4D41_4E46 ∨ fld x 32 8 ≠ compCode c ∨ mfReserved x ≠ 0 ∨ mfLength x % 64 ≠ 0 ∨ largestBody c < mfLength x
      ∨ mfChunks x ≠ divCeil (mfLength x) 65536 ∨ digests.length ≠ mfChunks x then some 0x90
  else if !m.keyAllowed (mfKey x) (mfPubX x) (mfPubY x) then some 0x91
  else if !signedBy (mfPubX x) (mfPubY x) (signedDigest x digests) (mfSigR x) (mfSigS x) then some 0x92
  else if mfSvn x < m.rollback then some 0x93
  else if c = .binder ∧ mfLevel x < 3 then some 0x94
  else none

/-- Bytes of chunk k of a body of n bytes (R349). -/
def chunkLen (n k : Nat) : Nat := min 65536 (n - 65536 * k)

def FwImage.chunkOk (f : FwImage) (k : Nat) : Bool :=
  f.digests[k]? == some (Config.sha384 ((f.body.drop (65536 * k)).take 65536))

/-- Verification of a stored image (R350): none when it is valid. -/
def Mc.verify (m : Mc) (c : Component) (f : FwImage) : Option Nat :=
  match m.checkManifest c f.manifest.toNat f.digests with
  | some x => some x
  | none =>
    if f.body.length = mfLength f.manifest.toNat ∧ (List.range f.digests.length).all f.chunkOk then none else some 0x95

def imageOf (xs : List (Component × FwImage)) (c : Component) : Option FwImage := (xs.find? fun p => p.1 = c).map (·.2)
def putImage (xs : List (Component × FwImage)) (c : Component) (f : FwImage) : List (Component × FwImage) :=
  (c, f) :: xs.filter (·.1 ≠ c)

/-- The stored image of a component, where it is valid. -/
def Mc.validImage (m : Mc) (c : Component) : Option FwImage :=
  (imageOf m.images c).filter fun f => m.verify c f == none

/-- Component, VERSION and SVN as items (R340, R360). -/
def fwItems (c : Component) (f : FwImage) : List W32 :=
  [item (compCode c), item (mfVersion f.manifest.toNat), item (mfSvn f.manifest.toNat)]

/-! ### The flash (R338, R339, R348, R349) -/

/-- Bytes 0 to 59 of a colophon-log entry (R339). -/
def LogEntry.body (e : LogEntry) : List Byte :=
  leBytes 60 (e.seq.toNat + 2 ^ 64 * e.cadence.toNat + 2 ^ 128 * e.utc.toNat + 2 ^ 192 * e.source.toNat + 2 ^ 200 * e.severity.toNat
    + 2 ^ 202 * e.utcValid.toNat + 2 ^ 203 * e.cont.toNat + 2 ^ 208 * e.code.toNat + 2 ^ 224 * e.payload.toNat)

def LogEntry.bytes (e : LogEntry) : List Byte := e.body ++ leBytes 4 e.crc.toNat

/-- The entry as it is stored: with its CRC. -/
def LogEntry.sealed (e : LogEntry) : LogEntry := { e with crc := BitVec.ofNat 32 (crc32 e.body) }

/-- A stored entry that reads as itself and not as zero (R339). -/
def LogEntry.crcOk (e : LogEntry) : Bool := e.crc.toNat == crc32 e.body

/-- An erased byte of the flash (PRESUMED of NOR flash, log entry 6). -/
def erased : Byte := 0xFF

/-- Manifest and digest table at the head of a slot (R349). -/
def FwImage.head (f : FwImage) : List Byte := leBytes 512 f.manifest.toNat ++ (f.digests.map fun d => beBytes 48 d.toNat).flatten

/-- Byte `k` of a component's slot: the body begins at 16 KiB (R348). -/
def Mc.slotByte (m : Mc) (c : Component) (k : Nat) : Byte :=
  match imageOf m.images c with
  | none => erased
  | some f => (if k < 0x4000 then f.head[k]? else f.body[k - 0x4000]?).getD erased

/-- Byte `k` of the log: entry q stands in place q modulo 524,288 (R339). -/
def Mc.logByte (m : Mc) (k : Nat) : Byte :=
  match m.flashLog.find? fun e => e.seq.toNat % 524288 = k / 64 with
  | some e => (e.bytes[k % 64]?).getD erased
  | none => erased

/-- The byte at an offset of the 128 MiB flash (R338). How a soft-repair record is laid out the manual does not say: a free value where
there are records (log entry 7). -/
def State.flashByte (s : State) (a : Nat) : Byte :=
  let m := s.mc
  if a < 0x4_0000 then m.slotByte .mc a
  else if a < 0x104_0000 then m.slotByte .binder (a - 0x4_0000)
  else if a < 0x114_0000 then m.slotByte .linkUcode (a - 0x104_0000)
  else if a < 0x124_0000 then m.slotByte .memUcode (a - 0x114_0000)
  else if a < 0x125_0000 then
    (((m.profiles.toList.map fun x => leBytes 256 x.toNat).flatten)[a - 0x124_0000]?).getD erased
  else if a < 0x126_0000 then if m.softRepairs = [] then erased else (s.free a).setWidth 8
  else if a < 0x128_0000 then (m.certChain[a - 0x126_0000]?).getD erased
  else if a < 0x600_0000 then erased
  else m.logByte (a - 0x600_0000)

/-! ### The SRAM (R333, R356, R358) -/

/-- First byte of the secure region: the top (SECURE_SIZE + 1) × 16 KiB of 512 KiB (R333, R342). -/
def Mc.secureBase (m : Mc) : Nat := 0x8_0000 - (m.fuse 6 2 + 1) * 0x4000

/-- The byte at an address of the SRAM (R333). The code and the secure region are `sram`; the log buffer holds its entries from the
oldest, and the staging area what an update has staged, each from its first byte on (DESIGN CHOICE, log entry 70); how sensor records,
limit tables and stacks lie the manual does not say, and what a March element has written is not stated: free values (log entry 7). -/
def State.sramByte (s : State) (a : Nat) : Byte :=
  let m := s.mc
  if m.borrowed.any fun b => b.1 == a / 256 then (s.free a).setWidth 8
  else if a < 0x3_0000 ∨ m.secureBase ≤ a then Mem.get zeroByte m.sram a
  else if a < 0x4_0000 then
    match m.logBuf[(a - 0x3_0000) / 64]? with
    | some e => (e.bytes[a % 64]?).getD 0
    | none => 0
  else if a < 0x5_0000 then (s.free a).setWidth 8
  else (m.staging[a - 0x5_0000]?).getD 0

/-- The check bits of a 64-bit word: zero data has zero check bits (R333). -/
def sramCheck (w : W64) : Byte := if w = 0 then 0 else Config.sramCode w

/-- A 64-bit word of the SRAM with its check bits. -/
def State.sramWord (s : State) (a : Nat) : BitVec 72 :=
  let w : W64 := BitVec.ofNat 64 (leNat ((List.range 8).map fun i => s.sramByte (a / 8 * 8 + i)))
  sramCheck w ++ w

/-- A block is borrowed: its 32 words stand in the save buffer, and the test works on the block (R356). -/
def State.borrow (s : State) (b : Nat) : State :=
  let save := (List.range 256).map fun i => s.sramByte (256 * b + i)
  s.modMc fun m => { m with borrowed := some (b, save), borrowedAt := some s.now }

/-- The block is restored from the save buffer and released (R356, R358): `sram` holds the code's blocks only. -/
def Mc.giveBack (m : Mc) : Mc :=
  match m.borrowed with
  | none => m
  | some (b, save) =>
    { m with borrowed := none, sram := if 256 * b < 0x3_0000 then Mem.write zeroByte m.sram (256 * b) save else m.sram }

/-! ### As shipped (R343, R399) -/

/-- The fuses of a shipped device: PROVISIONED, the debug port by its state, the secure region of 64 KiB (R342), no key revoked; what the
manual leaves to the module is a free value. -/
def shippedFuseBits : BitVec 8448 :=
  let keep : Nat := 2 ^ 8448 - 2 ^ 256 + (2 ^ 208 - 2 ^ 144) - (2 ^ 1536 - 2 ^ 1408) - (2 ^ 2048 - 2 ^ 1792)
  (Config.shippedFuses &&& BitVec.ofNat 8448 keep) ||| 0xC1

/-- The module as it is shipped, before its first power-up: the factory profiles stand in `State.reset` (R399). -/
def State.shipped : State := State.reset.modMc fun m => { m with fuseArray := shippedFuseBits }

end Sys2Proof.Machine
end

