-- ==== Sys2Proof/Machine/CadenceTime.lean ====
section
/-!
DEFINITION. Cadence time (R248 to R267): frame marks, the cadence counter, alignment and skew, the boundary vote, hold and resume; and the
reference tick.
-/

namespace Sys2Proof.Machine

/-! ### The frame declaration in force (R253) -/

def State.profileMin (s : State) : Nat := fld s.mc.activeProfile.toNat 0 24
def State.profileMax (s : State) : Nat := fld s.mc.activeProfile.toNat 24 24
def State.holdTimeout (s : State) : Nat := fld s.mc.activeProfile.toNat 64 16

/-! ### Frames and marks (R248, R249, R252, R254) -/

def setEvent (i : Nat) (c : Cadence) : Cadence := { c with events := c.events ||| BitVec.ofNat 7 (2 ^ i) }

/-- Two frames with one place in the frame ring: frame f stands at index f mod 256 (R252). -/
def sameSlot (e : FrameEntry) (f : BitVec 40) : Bool := e.frame.toNat % 256 == f.toNat % 256

/-- The frame ends with a length: its entry in the ring, the figures of the survey, FRAME_SHORT or FRAME_LONG (R252, R254). -/
def State.endFrame (s : State) (length : Nat) (synth : Bool) : State :=
  let short := decide (length < s.profileMin)
  let long := decide (s.profileMax < length)
  let n : BitVec 24 := BitVec.ofNat 24 length
  let frame := item2 s.cad.frame.toNat
  let s := s.modCad fun c =>
    { c with
      ring := ({ length := n, synth := synth, short := short, long := long, spurious := c.spurious, gap := false,
                 frame := c.frame } :: c.ring.filter fun e => !sameSlot e c.frame),
      lastLen := n, minLen := if c.minLen = 0 ∨ n.toNat < c.minLen.toNat then n else c.minLen,
      maxLen := if c.maxLen.toNat < n.toNat then n else c.maxLen, spurious := false }
  let s := if short then (s.modCad (setEvent 0)).raiseDev 0x0408 (frame ++ [item length]) else s
  if long then (s.modCad (setEvent 1)).raiseDev 0x0409 (frame ++ [item length]) else s

/-- A mark that the device takes, received or supplied by itself: the received-mark count starts again, and the effective mark is due
(R249, R250). -/
def State.takeMark (s : State) : State := s.modCad fun c => { c with rxTick := 0, markPending := true }

/-- The reference serves the counter: qualified, not lost, and on its return the main PLLs have locked again (R250, R267). -/
def State.marksCount (s : State) : Bool :=
  s.pwr.main && s.clk.qualified && !s.clk.lost && (!s.clk.returning || decide (3 ≤ s.clk.stage))

/-- FRAME_MARK (R248 to R250, R252, R254). -/
def execFrameMark (s : State) : Host.Outcome State Fault Refusal :=
  let t := s.cad.rxTick.toNat
  if !s.marksCount then .next s
  else if !s.cad.valid then .next s.takeMark
  else if t < 100000 then
    .next ((s.modCad fun c => setEvent 3 { c with spurious := true }).raiseDev 0x040B (item2 s.cad.frame.toNat ++ [item t]))
  else .next (s.endFrame t false).takeMark

/-- The device starts the next frame itself (R249, R252, R268). -/
def State.missingMark (s : State) : State :=
  let frame := item2 s.cad.frame.toNat
  (((s.endFrame 16000000 true).modCad (setEvent 2)).raiseDev 0x040A (frame ++ [item 16000000])).takeMark

/-- MARK_MISSING (R249): no mark has come in the cycle in which the tick field reaches 16,000,000. -/
def execMarkMissing (s : State) : Host.Outcome State Fault Refusal :=
  act (s.marksCount && s.cad.valid && decide (16000000 ≤ s.cad.rxTick.toNat)) s s.missingMark

/-! ### The domain and its program (R263, R286) -/

/-- The image of a program that runs on several devices and has begun its steps. -/
def State.domainProgram (s : State) : Option Image :=
  match s.prog.active with
  | some img => if 1 < img.bounds.devices ∧ s.prog.phase = .steps then some img else none
  | none => none

/-- A recovery that has not yet entered cover mode (R302). -/
def State.restoring (s : State) : Bool := s.fab.recover != [] && !s.fab.cover

/-! ### Hold and resume (R262 to R265) -/

/-- RESUME reaches a member: it leaves hold mode, completes its boundary and releases in the named frame (R264). -/
def State.takeResume (s : State) (g : BitVec 40) : State :=
  s.modCad fun c => { c with hold := false, holdFrames := 0, resumeFrame := some g }

/-- The program root sends RESUME once every contribution has come: in hold mode, in untimed running and in cover mode (R264, R295,
R303), naming the frame after the one in progress; a root that has passed its boundary already had them all. A hold for a rejoin lasts
until the shipment is complete (R305). -/
def State.rootResume (s : State) : State :=
  match s.domainProgram with
  | none => s
  | some img =>
    if s.isProgramRoot && (if s.prog.released then s.voteComplete img else s.cad.hold) && s.cad.resumeFrame.isNone && !s.restoring
        && s.fab.rejoining.isNone && !s.prog.recovering && (s.cad.hold || s.fab.untimed || s.fab.cover) then
      (s.sendMembers (.resume (s.cad.frame + 1))).takeResume (s.cad.frame + 1)
    else s

/-- Contributions merge by rank: FAULT and FAILED are ORed; step or frame numbers that differ set FAULT (R294). -/
def mergeVote (v : Vote) : List Vote → List Vote
  | [] => [v]
  | w :: r =>
    if w.rank = v.rank then
      { w with fault := w.fault || v.fault || w.step != v.step || w.frame != v.frame, failed := (w.failed ++ v.failed).dedup } :: r
    else w :: mergeVote v r

/-- CADENCE_DIVERGED (R258): the step fails, and the root's number is adopted at the next effective mark. -/
def State.raiseDiverged (s : State) (own root : BitVec 40) : State :=
  ((s.modCad fun c => setEvent 5 { c with adopt := true }).raiseDev 0x040D (item2 own.toNat ++ item2 root.toNat)).fault 0x13 noCore

/-- Frame numbers that differ in a vote: R258 applies to a member whose own number is not the root's (R294). -/
def State.checkFrame (s : State) (v : Vote) : State :=
  if v.frame = s.prog.lastFrame ∨ s.cad.adopt then s
  else match s.cad.rootFrame with
    | some r => if r = s.cad.frame then s else s.raiseDiverged s.cad.frame r
    | none => s

/-- A contribution taken in: receives whose path it shows as failed are given up (R18, R295); on a recovery replay the root resumes without waiting for a frame mark (R262, R302). -/
def State.takeVote (s : State) (v : Vote) : State :=
  let s := (s.modCad fun c => { c with votes := mergeVote v c.votes }).checkFrame v |>.dropLost
  if s.replaying then s.rootResume else s

/-- BOUNDARY_VOTE (R262, R294): a contribution of another rank to the vote on the step in progress. -/
def execBoundaryVote (vote : Vote) (s : State) : Host.Outcome State Fault Refusal :=
  match s.domainProgram with
  | none => .next s
  | some img =>
    act (s.prog.released && decide (vote.rank.toNat < img.bounds.devices) && vote.rank != img.bounds.rank) s (s.takeVote vote)

/-- This member's contribution (R262, R294). The frame number is that of the step's release: a member that contributes in a later frame
of a hold sets no FAULT by it (DEDUCED of the worked example after R267, log entry 32). -/
def State.ownVote (s : State) (img : Image) : Vote :=
  { rank := img.bounds.rank, step := s.prog.step, frame := s.prog.lastFrame, fault := s.prog.faults != [],
    failed := s.fab.failedNow }

/-- Compiled worst-case length of the step: the warm length with the whole allowance, or the cold length (R128, R263). -/
def State.worstLength (s : State) (img : Image) : Nat := if s.prog.warm then img.warmTicks + s.prog.allowance else img.coldTicks

/-- The member enters hold mode. -/
def State.enterHold (s : State) : State := s.modCad fun c => { c with hold := true, holdFrames := 0 }

/-- HOLD reaches a member; the program root floods it (R263). -/
def State.takeHold (s : State) : State :=
  if s.cad.hold then s else if s.isProgramRoot then (s.sendMembers .hold).enterHold else s.enterHold

/-- HOLD_DEADLINE (R263): the release instant plus the compiled worst-case length has passed without a complete vote; HOLD goes to the
program root. Untimed running has no deadline (R295). -/
def execHoldDeadline (s : State) : Host.Outcome State Fault Refusal :=
  match s.domainProgram with
  | none => .next s
  | some img =>
    act (s.prog.released && !s.cad.hold && !s.fab.untimed && !s.fab.cover && !s.voteComplete img
        && decide (s.prog.releaseNow + s.worstLength img ≤ s.now)) s
      (if s.isProgramRoot then s.takeHold else s.send s.programRoot .hold)

/-- HOLD (R263). -/
def execHoldMsg (s : State) : Host.Outcome State Fault Refusal := act s.domainProgram.isSome s s.takeHold

/-- RESUME (R264): a member that HOLD did not reach, its links being down, takes it like the others (R267). -/
def execResumeMsg (frame : BitVec 40) (s : State) : Host.Outcome State Fault Refusal :=
  act (s.domainProgram.isSome && !s.restoring) s (s.takeResume frame)

/-! ### Members lost (R265, R301, R302) -/

/-- A rank whose state can be recovered: its node bound a checkpointed partner with a cover kind other than HOLD_ONLY, as its last
advertisement says, and this member has a full checkpoint of its own (R296, R302). -/
def State.recoverable (s : State) (node : BitVec 16) : Bool :=
  s.prog.kept.isSome
    && s.fab.adverts.any fun p => p.1.node == node && p.1.bindings.any fun b => b.2.1.getLsbD 1 && b.2.2 != 0

/-- MEMBER_LOST at the program root (R301, R306), which tells the other members (DEDUCED, log entry 32). The cause is a figure the manual
does not number (log entry 7). -/
def State.raiseLost (s : State) (r : BitVec 10) (node : BitVec 16) : State :=
  if s.isProgramRoot then
    ((s.raiseStep 0x0312 noCore [item r.toNat, item node.toNat, item (s.free 0).toNat]).bump).sendMembers (.leave r)
  else s

/-- The step of which a partner holds every set of a protected device whole, with its continuous state (R299, R302). -/
def Protected.latest (p : Protected) : Option W64 := (p.states.find? fun x => p.gens.all fun g => g.step == x.1).map (·.1)

/-- A recovery message names the checkpoint step and the step in which the rank was lost; the program root passes them on, so that every
member takes the same (R279, R302; log entry 37). -/
def State.takeSteps (s : State) (step last : W64) : State :=
  let s := s.modFab fun f => { f with coverFrom := some (step, last) }
  if s.prog.active.isSome && s.isProgramRoot then s.sendMembers (.recovery step last) else s

/-- A member that protects the lost node tells the program root the step from which the recovery can go on (R302). -/
def State.tellSteps (s : State) (node : BitVec 16) : State :=
  match (s.fab.protects.find? fun p => p.node = node).bind Protected.latest with
  | some step => if s.isProgramRoot then s.takeSteps step s.prog.step else s.send s.programRoot (.recovery step s.prog.step)
  | none => s

/-- A member is lost (R265, R301, R302): the program root raises MEMBER_LOST, FAULT is set on its behalf, and the domain holds for its
recovery, or every program handle completes MEMBER_LOST. -/
def State.loseMember (s : State) (r : BitVec 10) : State :=
  match s.fab.rankNode.find? fun x => x.1 = r with
  | none => s
  | some (_, node) =>
    if s.fab.lost.contains r then s
    else
      let s := s.raiseLost r node
      let v : Vote := { rank := r, step := s.prog.step, frame := s.prog.lastFrame, fault := true, failed := [] }
      let s := s.modCad fun c => { c with votes := mergeVote v c.votes }
      let s := (s.modFab fun f => { f with lost := f.lost ++ [r] }).fault 0x14 noCore
      if s.recoverable node then
        ((s.takeHold).modFab fun f =>
          { f with recover := (f.recover.erase r) ++ [r], cover := false, coverFrom := none }).tellSteps node
      else s.endProgram 0x020A r.toNat none

/-- Ranks that have not contributed (R265). -/
def State.missingRanks (s : State) (img : Image) : List (BitVec 10) :=
  ((s.voters img).filter fun r => !(s.cad.votes.any fun v => v.rank.toNat == r) && r != img.bounds.rank.toNat).map (BitVec.ofNat 10)

/-- The program root itself has not contributed: it leaves the domain as every other member declared lost does (R265; DEDUCED, log
entry 32). -/
def State.loseSelf (s : State) (img : Image) : State :=
  if s.cad.votes.any fun v => v.rank = img.bounds.rank then s
  else (s.raiseLost img.bounds.rank s.fab.nodeId).endProgram 0x020A img.bounds.rank.toNat none

/-- HOLD_TIMEOUT (R265): after HOLD_TIMEOUT frames in hold mode, never for 0, the program root declares lost every member that has not
contributed. A hold for a rejoin does not count: it is the only hold of cover mode (R305). -/
def execHoldTimeout (s : State) : Host.Outcome State Fault Refusal :=
  match s.domainProgram with
  | none => .next s
  | some img =>
    act (s.cad.hold && !s.fab.cover && !s.restoring && s.isProgramRoot && decide (0 < s.holdTimeout)
        && decide (s.holdTimeout ≤ s.cad.holdFrames)) s
      ((((s.missingRanks img).foldl (fun s r => s.loseMember r) s).loseSelf img).rootResume)

/-! ### The effective mark (R250, R256 to R260, R267, R289) -/

/-- A device whose frame number is free: no program runs or is staged, or it rejoins a domain (R258). -/
def State.mayAdopt (s : State) : Bool := (s.prog.active.isNone && s.prog.staged.isNone) || s.fab.seeding.isSome

/-- Another node of the own domain is known (R267). -/
def State.hasDomain (s : State) : Bool :=
  s.fab.adverts.any fun p => nodeDomain p.1.node.toNat == nodeDomain s.fab.nodeId.toNat && p.1.node != s.fab.nodeId

/-- The frame interrupted by a clock loss enters the ring when the counter resumes (R252, R267). -/
def Cadence.recordGap (c : Cadence) : Cadence :=
  match c.gapFrame with
  | none => c
  | some g =>
    { c with gapFrame := none, spurious := false,
             ring := ({ length := 0, synth := false, short := false, long := false, spurious := c.spurious, gap := true,
                        frame := g } :: c.ring.filter fun e => !sameSlot e g) }

/-- The counter at an effective mark takes a frame number, and counts ticks from that mark (R249, R250, R256). -/
def Cadence.setFrame (c : Cadence) (f : BitVec 40) : Cadence :=
  { c with frame := f, tick := c.rxTick - BitVec.ofNat 24 (c.trim.toNat / 16), valid := true, markPending := false }

/-- The frame from which the next release of a program and of its cores counts (R154). -/
def State.setLastFrame (s : State) (f : BitVec 40) : State :=
  (s.modProg fun p => { p with lastFrame := f }).mapCores fun k => { k with needle := { k.needle with lastFrame := f } }

/-- The number adopted from the root; a program's next release counts from it (R258; log entry 33). -/
def State.adoptFrame (s : State) (f : BitVec 40) : State :=
  let s := s.modCad fun c => { c.setFrame f with aligned := true, adopt := false }
  if s.prog.active.isSome then s.setLastFrame (f - 1) else s

/-- A device that is alone after a clock loss cannot know how many frames passed: CADENCE_GAP gives the number it goes on with, and the
replay comes in a frame that begins later (R267). -/
def State.raiseGap (s : State) (f : BitVec 40) : State :=
  let s := if s.prog.released then s.setLastFrame f else s
  (s.modCad (setEvent 6)).raiseDev 0x040E (item2 f.toNat)

/-- The first mark since the reference served the counter (R250, R267): frame 0, or the root's number. After a loss the number goes on
from the last one; in a domain the root's is adopted as soon as it is known, at this mark or, with the links still down, at the first
after they are back. -/
def State.firstMark (s : State) : State :=
  let gap := s.cad.gapFrame.isSome
  let s := s.modCad Cadence.recordGap
  match (if s.isRoot then none else s.cad.rootFrame) with
  | some r => if gap ∨ s.mayAdopt then s.adoptFrame (r + 1) else s.modCad fun c => c.setFrame 0
  | none =>
    let f : BitVec 40 := if gap then s.cad.frame + 1 else 0
    if gap ∧ s.hasDomain then s.modCad fun c => { c.setFrame f with adopt := true }
    else
      let s := s.modCad fun c => { c.setFrame f with aligned := s.isRoot && s.aloneAligned }
      if gap then s.raiseGap f else s

/-- A later mark (R249, R258, R260): the number goes up by 1; a member adopts the root's number while no program runs, or one mark after
it was found to differ. -/
def State.nextMark (s : State) : State :=
  let f := s.cad.frame + 1
  match (if s.isRoot then none else s.cad.rootFrame) with
  | none =>
    let alone := s.isRoot && s.aloneAligned
    if s.cad.adopt ∧ !s.clk.returning ∧ alone then
      (s.modCad fun c => { c.setFrame f with aligned := true, adopt := false }).raiseGap f
    else s.modCad fun c => { c.setFrame f with aligned := c.aligned || (alone && !c.adopt) }
  | some r =>
    let g := r + 1
    if s.cad.adopt ∨ s.mayAdopt then s.adoptFrame g
    else
      let s := s.modCad fun c => c.setFrame f
      if s.prog.active.isSome ∧ f ≠ g then s.raiseDiverged f g else s

/-- An exchange begun on every link that carries flits (R255, R258). -/
def State.syncAll (s : State) : State := (allLanes.filter fun l => (s.link l).open).foldl State.sendSync s

/-- EFFECTIVE_MARK (R250, R255, R256, R258, R260, R264, R265, R267, R289): TRIM SCLK after the received mark. Routing tables flip, each
link begins its exchange of the frame, and the program root resumes a domain whose vote is complete. -/
def execEffectiveMark (s : State) : Host.Outcome State Fault Refusal :=
  if !s.cad.markPending ∨ !s.marksCount ∨ s.cad.rxTick.toNat < s.cad.trim.toNat / 16 then .next s
  else
    let was := s.cad.aligned
    let s := if s.cad.valid then s.nextMark else s.firstMark
    let s := s.modCad fun c =>
      { c with rootFrame := c.rootFrame.map (· + 1), holdFrames := if c.hold && !s.fab.cover then c.holdFrames + 1 else c.holdFrames }
    let s := (if s.fab.flipReady then s.flipTables else s).syncAll
    let s := if was ≠ s.cad.aligned then s.topologyChanged.advertise else s
    .next (if s.replaying then s else s.rootResume)

/-! ### The timing exchange of each frame (R255, R258 to R260, R280) -/

/-- A SYNC flit that is good (R280, R281). -/
def syncGood (f : Flit) : Bool :=
  let x := f.bits.toNat
  !f.fecBad && flitCrcOk x && fld x 0 4 == 6 && fld x 6 2 == 0 && fld x 46 2 == 0 && fld x 56 8 == 0 && fld x 120 8 == 0
    && fld x 448 32 == 0

def syncFrame (x : Nat) : BitVec 40 := BitVec.ofNat 40 (fld x 256 40)
def syncOffset (x : Nat) : Int := sext (fld x 296 32) 32
def syncTrim (x : Nat) : Nat := fld x 224 12

/-- Another member of the running program at the end of a lane. -/
def State.memberLane (s : State) (l : LaneId) : Bool := s.fab.rankNode.any fun r => r.2 == (s.link l).partner

/-- R259, R260: SKEW_DRIFT when the own offset has moved by more than 4 SCLK (2.5 ns) from the value of the trim; once the root has
changed, when δ + TRIM_partner − TRIM_own exceeds 4 SCLK on a link to another member. Offsets are in 0.1 ns; the figures are reported
in 0.1 ns. -/
def State.checkSkew (s : State) (l : LaneId) (parent : Bool) (d : Int) (partnerTrim : Nat) : State :=
  let drift := fun (s : State) (items : List W32) => (s.modCad (setEvent 4)).raiseDev 0x040C items
  if !s.cad.trimmed then s
  else if s.cad.rootChanged then
    let e : Int := 4 * d + 25 * ((partnerTrim : Int) - s.cad.trim.toNat)
    if s.prog.active.isSome ∧ s.memberLane l ∧ (100 < e ∨ e < -100) then drift s [item l.val, itemI (e / 4)] else s
  else if parent ∧ (25 < s.cad.offset - s.cad.trimBasis ∨ s.cad.offset - s.cad.trimBasis < -25) then
    drift s [item l.val, itemI s.cad.trimBasis, itemI s.cad.offset]
  else s

def syncT (x i : Nat) : Int := fld x (128 + 32 * i) 32

/-- An exchange that has come back to the end that began it: twice δ and the round trip, in 0.1 ns (R255, R275). -/
def exchange (x : Nat) (t4 : W32) : Int × Int :=
  let out := syncT x 1 - syncT x 0
  let back := (t4.toNat : Int) - syncT x 2
  (back - out, back + out)

/-- The answer to an exchange that the partner began: it carries t1 and t2 and its own time of sending (R255). -/
def State.answerSync (s : State) (l : LaneId) (x : Nat) (t2 : W32) : State :=
  (s.sendLink l (s.syncHeader (syncT x 0).toNat t2.toNat (max t2.toNat s.syncTime)) .sync).bump

/-- The samples of a link with one more, of which the last 256 are kept (R255). During bring-up the next exchange follows at once. -/
def State.takeSample (s : State) (l : LaneId) (x : Int × Int) : State :=
  let s := s.modLink l fun k => { k with samples := (x :: k.samples).take 256 }
  if (s.link l).phase = .timing ∧ (s.link l).samples.length < 256 then s.sendSync l else s

/-- What a SYNC flit tells of its sender (R258 to R260): the frame number and offset that came down from the root, and its trim. The own
offset from the root is the parent's less δ. -/
def State.takeSync (s : State) (l : LaneId) (x : Nat) : State :=
  let s := s.modLink l fun k => { k with peerOffset := syncOffset x }
  let d := (s.link l).delta
  let parent := (s.parentOf s.fab.nodeId.toNat).elim false fun e => e.lane == l.val
  let s := if parent then s.modCad fun c => { c with rootFrame := some (syncFrame x), offset := syncOffset x - d }
    else if s.isRoot then s.modCad fun c => { c with rootFrame := none, offset := 0 } else s
  s.checkSkew l parent d (syncTrim x)

/-- CADENCE_SYNC (R255, R258 to R260, R274, R275, R280, R281): a SYNC flit of the partner of a lane, which came `t4`, in 0.1 ns, after the own
received mark. One with t2 and t3 of 0 begins an exchange and is answered; another ends one. A bad flit is discarded. -/
def execCadenceSync (lane : LaneId) (flit : Flit) (t4 : W32) (s : State) : Host.Outcome State Fault Refusal :=
  let x := flit.bits.toNat
  let k := s.link lane
  if !s.pwr.main ∨ !s.mainClocks ∨ !(k.open || k.phase == .timing) ∨ !syncGood flit then .next s
  else
    let s := if syncT x 1 = 0 ∧ syncT x 2 = 0 then s.answerSync lane x t4 else s.takeSample lane (exchange x t4)
    .next (if k.open then s.takeSync lane x else s)

/-! ### The reference tick (R3, R248 to R250; log entry 1) -/

/-- Every lane of the running program's table has ended its bring-up (R274, R372). -/
def State.lanesSettled (s : State) : Bool :=
  match s.prog.active with
  | some img => (s.linkEntries img).all fun e =>
    match (s.fab.links.getD (lLane e) Link.reset).phase with
    | .up => true | .failed => true | .refused => true | .disabled => true
    | .negotiating => false | .training => false | .locking => false | .records => false | .timing => false | .joining => false
  | none => true

/-- The return sequence is complete once the stacks are back, the program's links are up again, and the ports that had a link have trained
it (R271, R372): an interrupted step is replayed in a frame that begins after this (R267). The bring-up of the other lanes belongs to the
sequence for R373. -/
def State.endReturn (s : State) : State :=
  if s.clk.stage ≠ 5 then s
  else
    let t := if s.clk.returning ∧ s.lanesSettled ∧ s.clk.portsBack = [] then
        let s := s.modClk fun c => { c with returning := false }
        if s.prog.released ∧ s.cad.valid then s.setLastFrame s.cad.frame else s
      else s
    if t.clk.returning ∨ allLanes.any (fun l => (t.link l).bringUp) then t else t.modClk fun c => { c with stage := 0 }

/-- The cadence counter at a reference edge: one tick while it runs; when no mark has come in the cycle in which the tick field reaches
16,000,000 the device starts the next frame itself, counted from that cycle (R249). -/
def State.countTick (s : State) : State :=
  if !s.marksCount ∨ !(s.cad.valid ∨ s.cad.markPending) then s
  else
    let s := if s.cad.valid ∧ 16000000 ≤ s.cad.rxTick.toNat then s.missingMark else s
    s.modCad fun c => { c with rxTick := c.rxTick + 1, tick := if c.valid then c.tick + 1 else c.tick }

/-- The errors of the MC SRAM that are met at this edge (R334, R335, R360; log entry 60): one of the processor's own access restarts the MC,
one that DMA finds is recorded. -/
def State.takeSramErrors (s : State) : State :=
  (s.sramUpsets.filter fun u => u.1 == s.now).foldl (fun s u =>
    if !s.mcRuns then s
    else match u.2.2 with
      | none => s.mcDown 2
      | some k => s.raiseDev 0x0420 [item u.2.1, item (Config.figure 5 (k + 1))]) s

/-- One rising edge of the reference: the model's clock goes on, UTC by 10 ns once it has been set (R341), the counter by one tick;
gates past their 256 PCLK close (R370), lanes serve their channels (R279), and the errors of memory words that come now are there (R223, R334). -/
def State.referenceTick (s : State) : State :=
  let s := { s with now := s.now + 1 }
  let s := s.modMc fun m => if m.utcValid then { m with utc := m.utc + 10 } else m
  let s := s.modHost fun h => h.closeGates s.gateTicks s.now
  s.countTick.takeUpsets.takeSramErrors.serveLanes.endReturn

end Sys2Proof.Machine
end

