-- ==== Sys2Proof/Machine/Checks.lean ====
section
/-!
DEFINITION. The loader's checks 1 to 4 (R138 to R143, R157, R161, R163, R194): the header, the core table, the command words and the
kernels of an image, and how a refusal is told.
-/

namespace Sys2Proof.Machine

/-! ### Refusals (R163) -/

/-- A refused load: its status, the logical core, the index concerned, and the result. -/
structure Verdict where
  status : Nat
  core : Nat
  index : Nat
  result : Nat
  deriving DecidableEq, Repr

/-- Logical core in bits [7:0], index in bits [31:8]. -/
def Verdict.detail (v : Verdict) : Nat := v.core % 2 ^ 8 + 2 ^ 8 * (v.index % 2 ^ 24)

/-- The core of a program-wide check, and the index that names a header. -/
def wide : Nat := 0xFF
def headIndex : Nat := 0xFF_FFFF

/-- BAD_FIELD unless the condition holds. -/
def need (ok : Bool) (core index : Nat) : Option Verdict := if ok then none else some { status := 1, core := core, index := index, result := 0 }

/-- Another refusal without figures. -/
def deny (ok : Bool) (status core index : Nat) : Option Verdict :=
  if ok then none else some { status := status, core := core, index := index, result := 0 }

/-- A refusal with figures (R163): the one needed in [31:0], the one available in [63:32]. -/
def short (status core index needed available : Nat) : Verdict :=
  { status := status, core := core, index := index, result := needed % 2 ^ 32 + 2 ^ 32 * (available % 2 ^ 32) }

/-- A footprint, capacity or time check. -/
def within (status core index needed available : Nat) : Option Verdict :=
  if needed ≤ available then none else some (short status core index needed available)

/-- The first check of a list that fails. -/
def firstOf (xs : List (Option Verdict)) : Option Verdict := xs.findSome? id

/-- A check made for n things in rising order. -/
def eachOf (n : Nat) (f : Nat → Option Verdict) : Option Verdict := (List.range n).findSome? f

/-- No reserved bit is set: every bit of `x` lies in one of the fields. -/
def onlyFields (x : Nat) (fs : List (Nat × Nat)) : Bool := Nat.land x (fieldMask fs) == x

/-! ### The image (R138, R139, R232) -/

/-- The values of an image without a latency-bound table (R232). -/
def Bounds.default : Bounds :=
  { portSplit := 0, memReserve := false, rank := 0, devices := 1, spineBound := 96, dramBound := 760, programId := 0, peers := [] }

/-- The latency-bound table that stands at an address (R232). -/
def State.boundsAt (s : State) (a : Nat) : Bounds :=
  let b := s.dramNat a 64
  { portSplit := BitVec.ofNat 12 (fld b 0 12), memReserve := bitOf b 12, rank := BitVec.ofNat 10 (fld b 16 10),
    devices := fld b 32 11, spineBound := fld b 48 8, dramBound := fld b 56 16, programId := BitVec.ofNat 64 (fld b 88 64),
    peers := (List.range (fld b 72 10)).map fun p =>
      let e := s.dramNat (a + 64 + 8 * p) 8
      (BitVec.ofNat 10 (fld e 0 10), BitVec.ofNat 16 (fld e 16 16), BitVec.ofNat 16 (fld e 32 16)) }

/-- An image as its header describes it; its pinned pages are found at check 11. -/
def State.imageAt (s : State) (addr len : Nat) : Image :=
  let h := s.dramNat addr 256
  { addr := addr, len := len, direct := fld h 0 16 == 2, cores := fld h 32 8, seed := BitVec.ofNat 64 (fld h 64 64),
    coldTicks := fld h 128 24, warmTicks := fld h 152 24, coreTable := fld h 192 64, recipeOff := fld h 256 64,
    slotOff := fld h 320 64, regionOff := fld h 384 64, steerOff := fld h 512 64, crc := BitVec.ofNat 32 (fld h 2016 32),
    bounds := if fld h 448 64 = 0 then Bounds.default else s.boundsAt (addr + fld h 448 64), pinnedPages := 0, collBase := 0,
    limits := (s.host.dmaLimit, s.host.mirrorLimit, s.host.tippingLimit), usable := s.usableNow }

/-- Unit of each part in bytes, and its limit where check 1 holds it (R139). -/
def partUnit (i : Nat) : Nat := [16, 16, 16, 16, 128, 64, 64, 1, 8, 4].getD i 1
def partLimit (i : Nat) : Nat := if i = 7 then 262144 else if i = 8 then 256 else if i = 9 then 16 else 2 ^ 24 - 1

/-- Part i of core c in order: aligned, within the image, within its limit; in a direct image parts 1 to 6, 8 and 9 are absent
(R139, R157). -/
def State.partOk (s : State) (img : Image) (c i : Nat) : Bool :=
  let p := s.part img c i
  p.1 % 64 == 0 && (p.2 == 0 || decide (p.1 + partUnit i * p.2 ≤ img.len)) && decide (p.2 ≤ partLimit i)
    && (!img.direct || i == 0 || i == 7 || p.2 == 0)

/-- Check 1 (R138, R139, R161): the CRC; FORMAT, IF_LEVEL, CORES and reserved fields; then the core table. -/
def State.check1 (s : State) (img : Image) : Option Verdict :=
  let h := s.dramNat img.addr 256
  firstOf
    [ deny (crc32 (s.dramRead (img.addr + 256) (img.len - 256) ++ s.dramRead img.addr 252) == img.crc.toNat) 0x0101 wide 0,
      need ((fld h 0 16 == 1 || fld h 0 16 == 2) && decide (fld h 16 8 ≤ 3) && decide (1 ≤ img.cores) && decide (img.cores ≤ 192)
        && fld h 24 8 == 0 && fld h 40 24 == 0 && fld h 176 16 == 0 && fld h 576 1440 == 0
        && decide (img.coreTable + 128 * img.cores ≤ img.len)) wide 0,
      eachOf img.cores fun c => firstOf
        [ eachOf 10 fun i => need (s.partOk img c i) c i,
          need (fld (s.dramNat (img.addr + img.coreTable + 128 * c) 128) 640 384 == 0) c 10 ] ]

/-- Check 2 (R157, R161): CORES against the logical cores offered. -/
def State.check2 (s : State) (img : Image) : Option Verdict := within 0x0102 wide 0 img.cores s.offered

/-! ### Entries as the image holds them -/

/-- Entry n of part i of core c. -/
def State.partEntry (s : State) (img : Image) (c i n : Nat) : Nat :=
  s.dramNat (img.addr + (s.part img c i).1 + partUnit i * n) (partUnit i)

def State.rawTemplate (s : State) (img : Image) (c t : Nat) : Nat := s.partEntry img c 5 t
def State.rawDesc (s : State) (img : Image) (c d : Nat) : Nat := s.partEntry img c 4 d
def State.rawStream (s : State) (img : Image) (c i : Nat) : Nat := s.partEntry img c 6 i

/-- Words of a section: part 0 prologue, 1 cold, 2 warm, 3 elastic (R139). -/
def State.sectionWords (s : State) (img : Image) (c part : Nat) : List Nat :=
  (List.range (s.part img c part).2).map (s.word img c part)

/-- Instruction i of a core's kernel image; past its end the endpaper memory is clear (R193, R220). -/
def State.kernelWord (s : State) (img : Image) (c i : Nat) : Nat :=
  let p := s.part img c 7
  s.dramNat (img.addr + p.1 + 16 * i) (min 16 (p.2 - 16 * i))

/-- Recipe entries in number, as far as the recipe table lies in the image (R119, R122). -/
def State.recipeCount (s : State) (img : Image) : Nat :=
  let n := fld (s.dramNat (img.addr + img.recipeOff) 64) 0 16
  if img.recipeOff = 0 ∨ img.len < img.recipeOff + 64 + 64 * n then 0 else n
def State.rawEntry (s : State) (img : Image) (l : Nat) : Nat := s.dramNat (img.addr + img.recipeOff + 64 + 64 * l) 64

/-- The schedule that makes the first release: the warm one when every W of the recipe is 0 (R131, R140). -/
def State.firstSchedule (s : State) (img : Image) : Nat :=
  let n := s.recipeCount img
  if n ≠ 0 ∧ (List.range n).all fun l => rW (s.rawEntry img l) == 0 then 2 else 1

/-! ### Check 3: words and kernels (R140, R142, R143, R154, R194) -/

/-- Opcodes that a section may hold: prologue and elastic section (parts 0 and 3), step schedules (1 and 2) (R140). -/
def sectionAllows (part op : Nat) : Bool :=
  if part = 0 ∨ part = 3 then op == 0 || op == 2 || op == 0x10 || op == 0x11 || op == 0x20 || op == 0x21
  else op == 0 || op == 1 || op == 0x10 || op == 0x11 || op == 0x20 || op == 0x21 || op == 0x30 || op == 0x40 || op == 0x41
    || op == 0x50

/-- A word that marks the summary carrier (R143). -/
def isCarrier (w : Nat) : Bool := (wOp w == 0x40 || wOp w == 0x41) && bitOf w 8

/-- Word k of a section of `n` words: decodes, allowed, names a template and a stream that exist; the end word last and only
there; a releasing CADENCE first and only there, with FRAMES of at least 1 in the schedule that makes the first release; at most
one carrier (`carriers` stand before it). -/
def State.wordAccepted (s : State) (img : Image) (c part n k carriers w : Nat) : Bool :=
  let step := part == 1 || part == 2
  let release := wOp w == 0x30 && bitOf w 8
  wordOk w && sectionAllows part (wOp w) && (wOp w != 0x10 || decide (fld w 16 8 < (s.part img c 5).2))
    && (wOp w != 0x11 || decide (fld w 16 6 < (s.part img c 6).2))
    && (wOp w == (if step then 1 else 2)) == (k + 1 == n)
    && (!step || release == (k == 0)) && (!release || part != s.firstSchedule img || decide (1 ≤ fld w 40 8))
    && (!isCarrier w || carriers == 0)

def State.checkWords (s : State) (img : Image) (c part n : Nat) : List Nat → Nat → Nat → Option Verdict
  | [], _, _ => none
  | w :: r, k, carriers =>
    if s.wordAccepted img c part n k carriers w then
      s.checkWords img c part n r (k + 1) (carriers + if isCarrier w then 1 else 0)
    else need false c k

def State.checkSection (s : State) (img : Image) (c part : Nat) : Option Verdict :=
  let ws := s.sectionWords img c part
  s.checkWords img c part ws.length ws 0 0

/-- The kernel of a Plough template (R194). -/
def State.checkKernel (s : State) (img : Image) (c t : Nat) : Option Verdict :=
  let x := s.rawTemplate img c t
  need (tKind x != 1 || kernelOk (s.kernelWord img c) (tLayer x == 0xFFFF) (tKernel x)) c t

def State.check3 (s : State) (img : Image) : Option Verdict :=
  eachOf img.cores fun c => firstOf
    [eachOf 4 (s.checkSection img c), eachOf (s.part img c 5).2 (s.checkKernel img c)]

/-! ### Check 4 (R161) -/

def State.check4 (s : State) (img : Image) : Option Verdict :=
  eachOf img.cores fun c => firstOf
    [within 0x0103 c 0 (s.part img c 4).2 64, within 1 c 0 (s.part img c 5).2 255, within 0x0104 c 0 (s.part img c 6).2 64]

end Sys2Proof.Machine
end

