-- ==== Sys2Proof/Machine/CheckTables.lean ====
section
/-!
DEFINITION. The loader's check 5 (R144 to R150, R161, R167 to R169, R173, R179, R232, R262, R291, R298): descriptors, templates, Quire map,
streams and block lists, multicast groups, latency bounds, link slots and snapshot regions.
-/

namespace Sys2Proof.Machine

/-! ### Pinned memory and the paged pool (R137, R181, R235) -/

/-- Bytes from the first byte of a FABRIC word's buffer: those of its slot's data flits (R143, R291). -/
def State.bufferEnd (s : State) (img : Image) (w : Nat) : Nat := fld w 64 52 + 64 * xFlits (s.slotEntry img (fld w 16 8))

def isFabric (w : Nat) : Bool := wOp w == 0x40 || wOp w == 0x41

/-- Ends of the addresses that a core's streams and FABRIC words name. -/
def State.coreEnds (s : State) (img : Image) (c : Nat) : List Nat :=
  ((List.range (s.part img c 6).2).map fun i =>
    let e := s.rawStream img c i
    (sListAddr e + 16 * sListCount e) ::
      (if sPaged e then [] else (List.range (sListCount e)).map fun k => bAddr (s.listEntry e k) + bLen (s.listEntry e k))).flatten
  ++ (((List.range 4).map fun p => (s.sectionWords img c p).filter isFabric).flatten).map (s.bufferEnd img)

def rSrc (e : Nat) : Nat := fld e 0 52
def rDst (e : Nat) : Nat := fld e 64 52
def rLen (e : Nat) : Nat := unitBytes * fld e 128 24

/-- Region entries that the sets of the region table reach (R298). -/
def State.regionCount (s : State) (img : Image) : Nat :=
  if img.regionOff = 0 then 0
  else ((List.range (s.snapSets img)).map fun k => fld (s.setEntry img k) 0 16 + fld (s.setEntry img k) 16 16).foldl max 0

/-- The first byte beyond every address the image names: the place of the collation buffer (R137, R181). -/
def State.namedEnd (s : State) (img : Image) : Nat :=
  (((List.range img.cores).map (s.coreEnds img)).flatten
    ++ ((List.range (s.regionCount img)).map fun i =>
      let e := s.regionEntry img i
      [rSrc e + rLen e, rDst e + rLen e]).flatten).foldl max (img.addr + img.len)

/-- P of R181: the pages that hold the image, what it names and the collation buffer, two halves with room for four records per
recipe entry (log entry 23). -/
def State.pagesNeeded (s : State) (img : Image) : Nat := divCeil (s.namedEnd img + 4096 * s.recipeCount img) (2 ^ 30)

/-- A range of the paged pool: above the pinned pages, within the layout (R235). -/
def State.inPool (s : State) (img : Image) (a n : Nat) : Bool :=
  decide (s.pagesNeeded img * 2 ^ 30 ≤ a) && decide (a + n ≤ s.unitsOf img.bounds.memReserve * unitBytes)

/-! ### Quire map, random streams, descriptors (R139, R144 to R146) -/

def qBase (q : Nat) : Nat := fld q 0 23
def qLen (q : Nat) : Nat := fld q 24 23
def quireRegionOk (q : Nat) : Bool := !bitOf q 23 && fld q 47 17 == 0 && decide (qBase q + qLen q ≤ coreMemSize .quire)

/-- A range wholly in one region of a core's Quire map. -/
def State.inQuireMap (s : State) (img : Image) (c : Nat) (lo hi : Int) : Bool :=
  (List.range (s.part img c 8).2).any fun i =>
    let q := s.partEntry img c 8 i
    decide ((qBase q : Int) ≤ lo) && decide (hi ≤ qBase q + qLen q)

/-- A random-stream entry: reserved bits 0; an owner that is no template of the core is refused too (R139 names the reserved bits alone:
DESIGN CHOICE, log entry 68). -/
def State.randomOk (s : State) (img : Image) (c i : Nat) : Bool :=
  let x := s.partEntry img c 9 i
  fld x 4 4 == 0 && fld x 16 16 == 0 && decide (fld x 8 8 < (s.part img c 5).2)

/-- One level in use: BOUND, TAIL and DIM as R144 to R146 allow. -/
def levelOk (v : Nat) : Bool :=
  decide (1 ≤ lBound v) && decide (lDim v ≤ 3) && decide (lTail v ≤ 2) && (lDim v != 0 || lTail v == 0)

/-- A descriptor that breaks neither R144 nor the parts of R145 and R146 that name no template. -/
def descOk (d : Nat) : Bool :=
  let n := dLevels d
  let ls := List.range n
  fld d 3 5 == 0 && fld d 16 240 == 0 && decide (1 ≤ n) && decide (n ≤ 6) && ((List.range 4).all fun x => dUnit d x != 3)
    && d / 2 ^ (256 + 128 * n) == 0 && (ls.all fun l => levelOk (dLevel d l))
    && (ls.all fun o => ls.any fun l => lOrder (dLevel d l) == o)
    && [1, 2, 3].all fun dim => decide ((ls.filter fun l => lDim (dLevel d l) == dim).length ≤ 1)

/-! ### The reach of an operand (R145) -/

/-- The level that walks a dimension. -/
def walks (d dim : Nat) : Option Nat := ((List.range (dLevels d)).map (dLevel d)).find? fun v => lDim v == dim

/-- Lowest and highest offset of operand x over the levels that walk none of the dimensions given. -/
def spanOf (d x : Nat) (skip : List Nat) : Int × Int :=
  ((List.range (dLevels d)).map (dLevel d)).foldl (fun r v =>
    if skip.contains (lDim v) then r
    else
      let e := lStride v x * unitBytesOf (dUnit d x) * (lBound v - 1 : Nat)
      (r.1 + min 0 e, r.2 + max 0 e)) (0, 0)

/-- Lowest and highest reach over the walk of one dimension, `reach i` beyond the address at index i; `reach` differs in the last
iteration only, so the extremes lie at the first and the last two. -/
def walkOf (d x dim : Nat) (reach : Nat → Nat) : Int × Int :=
  match walks d dim with
  | none => (0, reach 0)
  | some v =>
    let at' := fun (i : Nat) => (i : Int) * lStride v x * unitBytesOf (dUnit d x)
    let is := [0, lBound v - 2, lBound v - 1]
    (is.foldl (fun m i => min m (at' i)) 0, is.foldl (fun m i => max m (at' i + reach i)) (reach 0))

/-- Range of accumulator bytes of an operand counted in rows, from its base. -/
def rowSpan (d x base : Nat) : Int × Int := let r := spanOf d x []; (base + r.1, base + r.2)

/-- A Plough template's operands counted in accumulator rows: bases ACT_ADDR, 0, ACC_ROW and AUX (R145, R159, R193). -/
def rowOperands (t d : Nat) : List (Int × Int) :=
  ((List.range 4).filter fun x => dUnit d x == 2).map fun x =>
    rowSpan d x ([tActAddr t, 0, 512 * tAccRow t, tAux t].getD x 0)

/-- Range of bytes that the Folder reads for a Press template (R50, R145, R149). -/
def foldedRange (t d : Nat) (m : Mode) : Int × Int :=
  let r := spanOf d 0 [3]
  let w := walkOf d 0 3 fun i => (remaining (tMExt t) (tMBlock t) i - 1) * (64 * tActRow t)
  (tActAddr t + r.1 + w.1, tActAddr t + r.2 + w.2 + m.rowBytes ((sfmtOf (tSfmt t)).getD .e4m3))

/-- Range of the resident operand in the byte space of its stream (R71, R72, R149). -/
def residentRange (t d : Nat) (m : Mode) : Int × Int :=
  let size := ((fmtOf (tRfmt t)).getD .e4m3).bytes
  let r := spanOf d 1 [1, 2]
  let n := walkOf d 1 2 fun i => (remaining (tNExt t) 128 i - 1) * (if tTransposed t then size else tColStride t)
  let k := walkOf d 1 1 fun i =>
    let k := remaining (tKExt t) m.kPerPass i
    if tTransposed t then (k - 1) * tColStride t + size
    else if m.fused then k * size else 64 * (fetchedSegments m k).length
  (r.1 + n.1 + k.1, r.2 + n.2 + k.2)

/-- Highest accumulator row of a template, none for a Plough template without an operand in rows (R159). -/
def highestRow (t d : Nat) : Option Nat :=
  if tKind t = 0 then some ((512 * tAccRow t + (spanOf d 2 []).2).toNat / 512 + tMBlock t - 1)
  else match rowOperands t d with
    | [] => none
    | xs => some ((xs.foldl (fun (m : Int) x => max m x.2) 0).toNat / 512)

/-! ### Streams (R87, R167 to R169) -/

/-- Bytes of a stream in the space where it lands (R95, R167). -/
def State.streamBytes (s : State) (e : Nat) : Nat :=
  ((List.range (sListCount e)).map fun k => landLen e (bLen (s.listEntry e k))).sum

/-- One block-list entry of a stream (R168, R169): aligned, of whole Mull blocks, in pinned memory, or in the paged pool. -/
def State.blockOk (s : State) (img : Image) (e b : Nat) : Bool :=
  fld b 52 12 == 0 && fld b 88 40 == 0 && bAddr b % 64 == 0 && decide (0 < bLen b)
    && (match sMull e with
        | some k => bLen b % k.size == 0
        | none => true)
    && (!sPaged e || s.inPool img (bAddr b) (bLen b) || decide (bAddr b + bLen b ≤ s.pagesNeeded img * 2 ^ 30))

/-- A stream-table entry with its block list (R167, R169). -/
def State.streamOk (s : State) (img : Image) (c e : Nat) : Bool :=
  onlyFields e [(0, 24), (32, 24), (64, 52), (128, 23), (152, 23), (176, 12)] && decide (sKind e ≤ 3)
    && (if sWrite e then sKind e == 0 && !sMulticast e && (sDest e == 0 || sDest e == 2) else decide (sDest e ≤ 1))
    && (sMulticast e || sGroup e == 0) && decide (1 ≤ sListCount e) && sListAddr e % 16 == 0
    && (sDest e != 0 || (sWindowBase e % 64 == 0 && sWindowLen e % 64 == 0 && decide (64 ≤ sWindowLen e)
          && decide (sWindowLen e ≤ coreMemSize .quire) && s.inQuireMap img c (sWindowBase e) (sWindowBase e + sWindowLen e)))
    && ((List.range (sListCount e)).all fun k => s.blockOk img e (s.listEntry e k))
    && (sDest e != 2 || decide (512 * sAccBase e + s.streamBytes e ≤ 512 * 3072))

/-! ### Templates (R145 to R150) -/

/-- Formats of a Press template (R44, R49, R87, R147). -/
def formatsOk (t : Nat) (m : Mode) : Bool :=
  streamedOk m (tSfmt t) && residentOk m (tRfmt t) (tTransposed t) && (m.fused || !tResAct t)

/-- The kind of resident stream a template may name (R44, R87, R95): folios, plain elements, or a Mull stream of its format. -/
def residentKindOk (t e : Nat) (m : Mode) : Bool :=
  if m.fused then sKind e == 0 || (sKind e == 2 && tRfmt t == 2) || (sKind e == 3 && tRfmt t == 3) else sKind e == 1

/-- The walk of a dimension against the template's extent and step (R145, R146): BOUND, FULL. -/
def walkOk (d dim extent step : Nat) : Bool :=
  match walks d dim with
  | none => true
  | some v => decide (1 ≤ step) && lBound v == divCeil extent step && (lTail v != 0 || extent % step == 0)

/-- A dimension that no level walks fits one step (R145). -/
def unwalkedOk (d dim extent step : Nat) : Bool := (walks d dim).isSome || decide (extent ≤ step)

/-- A level of policy PEEL has a remainder (R146). -/
def peels (d dim extent step : Nat) : Bool :=
  match walks d dim with
  | none => false
  | some v => lTail v == 2 && extent % step != 0

/-- What every template keeps: reserved bits, indices, WRITE, the PEEL template (R146, R147, R150). -/
def State.templateOk (s : State) (img : Image) (c t : Nat) : Bool :=
  let n := (s.part img c 5).2
  let p := s.rawTemplate img c (tPeel t)
  onlyFields t [(0, 22), (24, 20), (48, 102), (152, 23), (176, 57), (256, 96)] && decide (tKind t ≤ 1)
    && decide (tDesc t < (s.part img c 4).2) && tWrite t != 3 && decide (tSfmt t ≤ 5) && decide (tRfmt t ≤ 5)
    && ([tVar1 t, tVar2 t, tPeel t].all fun v => v == 0xFF || decide (v < n))
    && (tWrite t != 2 || (walks (s.rawDesc img c (tDesc t)) 1).isSome)
    && (tPeel t == 0xFF || (tDesc p == tDesc t && tLayer p == tLayer t && tRoleS p == tRoleS t && tRoleR p == tRoleR t
          && tWrite p == tWrite t && tPeel p == 0xFF))

/-- A Plough template (R145, R147): MODE 0, the N and M walks, operands in rows from row 0 up. The step of a K walk is the K per pass of
a mode, which a Plough template has not: its BOUND and TAIL are not checked. A PEEL level with a remainder needs a PEEL template
(DESIGN CHOICES, log entry 68). -/
def State.ploughTemplate (c ti t d : Nat) : Option Verdict := firstOf
  [ need (tMode t == 0 && tRfmt t == 0 && !tResAct t) c ti,
    need (walkOk d 2 (tNExt t) 128 && walkOk d 3 (tMExt t) (tMBlock t)) c (tDesc t),
    need (tPeel t != 0xFF || !(peels d 2 (tNExt t) 128 || peels d 3 (tMExt t) (tMBlock t))) c ti,
    need ((rowOperands t d).all fun r => decide (0 ≤ r.1)) c ti ]

/-- A pass that runs as a PEEL tail stays in range with what the PEEL template gives it: its row bytes and pitch in the Quire map, its
column stride and its stream (R145, R146). -/
def State.peelInRange (s : State) (img : Image) (c t d n : Nat) : Bool :=
  let tpl := s.rawTemplate img c
  let p := passPlanOf tpl t d n
  let act : Int := tActAddr t + nestOffset d 0 n
  Machine.tailTemplate tpl t d n == t
    || (s.inQuireMap img c act (act + (p.rows - 1 : Nat) * p.pitch + p.mode.rowBytes p.sfmt) && decide (0 ≤ nestOffset d 1 n)
        && p.reads.all fun r => decide (r.1 + r.2 ≤ s.streamBytes (s.rawStream img c p.resStream)))

/-- A Press template (R44, R87, R145 to R147, R149, R169). -/
def State.pressTemplate (s : State) (img : Image) (c ti t d : Nat) : Option Verdict :=
  match modeOf (tMode t) with
  | none => need false c ti
  | some m =>
    let e := s.rawStream img c (tResStream t)
    let dims := [(1, tKExt t, m.kPerPass), (2, tNExt t, 128), (3, tMExt t, tMBlock t)]
    let fold := foldedRange t d m
    let res := residentRange t d m
    firstOf
      [ need (formatsOk t m && decide (1 ≤ tMBlock t) && decide (tMBlock t ≤ 128) && dUnit d 2 == 2
          && decide (tResStream t < (s.part img c 6).2) && !sWrite e && sDest e == 1) c ti,
        need (!m.fused || residentKindOk t e m) c ti, need (m.fused || residentKindOk t e m) c (tResStream t),
        need (dims.all fun x => walkOk d x.1 x.2.1 x.2.2) c (tDesc t),
        need ((dims.all fun x => unwalkedOk d x.1 x.2.1 x.2.2)
          && (tPeel t != 0xFF || dims.all fun x => !peels d x.1 x.2.1 x.2.2)) c ti,
        need (s.inQuireMap img c fold.1 fold.2) c ti,
        need (decide (0 ≤ res.1) && decide (res.2 ≤ s.streamBytes e)) c ti,
        need (tPeel t == 0xFF || (List.range (nestSize d)).all (s.peelInRange img c t d)) c ti,
        need (decide (0 ≤ 512 * (tAccRow t : Int) + (spanOf d 2 []).1)) c ti ]

def State.checkTemplate (s : State) (img : Image) (c ti : Nat) : Option Verdict :=
  let t := s.rawTemplate img c ti
  let d := s.rawDesc img c (tDesc t)
  firstOf
    [need (s.templateOk img c t) c ti,
     if tKind t = 0 then s.pressTemplate img c ti t d else State.ploughTemplate c ti t d]

/-! ### Words that name a table (R143, R169, R291, R298) -/

/-- A STREAM word within its list; a FABRIC word with an entry of its kind and core; a SNAPSHOT word with a set. -/
def State.checkWord (s : State) (img : Image) (c k w : Nat) : Option Verdict :=
  if wOp w = 0x11 then
    need (decide (fld w 32 32 + fld w 64 32 ≤ sListCount (s.rawStream img c (fld w 16 6)))) c (fld w 16 6)
  else if isFabric w then
    let e := s.slotEntry img (fld w 16 8)
    need (img.slotOff != 0 && xKind e == (if wOp w = 0x40 then 1 else 2) && xCore e == c) c (fld w 16 8)
  else if wOp w = 0x50 then need (img.regionOff != 0 && decide (fld w 16 6 < s.snapSets img)) c k
  else none

def State.checkCore5 (s : State) (img : Image) (c : Nat) : Option Verdict := firstOf
  [ eachOf (s.part img c 8).2 fun i => need (quireRegionOk (s.partEntry img c 8 i)) c i,
    eachOf (s.part img c 4).2 fun i => need (descOk (s.rawDesc img c i)) c i,
    eachOf (s.part img c 9).2 fun i => need (s.randomOk img c i) c i,
    eachOf (s.part img c 6).2 fun i => need (s.streamOk img c (s.rawStream img c i)) c i,
    eachOf 4 fun p => ((s.sectionWords img c p).zipIdx).findSome? fun x => s.checkWord img c x.2 x.1,
    eachOf (s.part img c 5).2 (s.checkTemplate img c) ]

/-! ### Multicast groups (R179) -/

/-- Members of a group as the image declares them: core, stream, entry. -/
def State.rawMembers (s : State) (img : Image) (group : Nat) : List (Nat × Nat × Nat) :=
  ((List.range img.cores).map fun c =>
    ((List.range (s.part img c 6).2).map fun i => (c, i, s.rawStream img c i)).filter fun m =>
      sMulticast m.2.2 && sGroup m.2.2 == group).flatten

/-- At most 64 members, agreeing in KIND, DEST, LIST_ADDR and LIST_COUNT; the member that differs from the first is named. -/
def State.checkGroup (s : State) (img : Image) (group : Nat) : Option Verdict :=
  match s.rawMembers img group with
  | [] => none
  | m :: r =>
    let key := fun (e : Nat) => (sKind e, sDest e, sListAddr e, sListCount e)
    firstOf [need (decide ((((m :: r).map (·.1)).dedup).length ≤ 64)) m.1 m.2.1,
      r.findSome? fun x => need (key x.2.2 == key m.2.2) x.1 x.2.1]

/-! ### Latency bounds (R173, R232) -/

def portSplitOk (p : Nat) : Bool :=
  let r := fld p 0 4; let w := fld p 4 4; let m := fld p 8 4
  p == 0 || (decide (1 ≤ r) && decide (1 ≤ w) && decide (1 ≤ m) && r + w + m == 16)

/-- The latency-bound table at an offset of the image; index 16 + p names peer entry p, as R237 does. -/
def State.checkBounds (s : State) (img : Image) (off : Nat) : Option Verdict :=
  if off = 0 then none
  else
    let b := s.dramNat (img.addr + off) 64
    let x := img.bounds
    firstOf
      [ need (decide (off + 64 + 8 * fld b 72 10 ≤ img.len)
          && onlyFields b [(0, 13), (16, 10), (32, 11), (48, 34), (88, 64)] && portSplitOk x.portSplit.toNat
          && decide (1 ≤ x.devices) && decide (x.devices ≤ 1024) && decide (x.rank.toNat < x.devices)
          && decide (1 ≤ x.spineBound)) wide headIndex,
        eachOf (fld b 72 10) fun p =>
          let e := s.dramNat (img.addr + off + 64 + 8 * p) 8
          need (onlyFields e [(0, 10), (16, 32)] && fld e 0 10 != x.rank.toNat && decide (fld e 0 10 < x.devices)) wide (16 + p) ]

/-! ### Link slots (R262, R291) -/

def State.slotHeadOk (s : State) (img : Image) : Bool :=
  let h := s.slotHeader img
  onlyFields h [(0, 12), (16, 12), (32, 16)] && decide (1 ≤ slotLinks h) && decide (1 ≤ slotPaths h)
    && decide (img.slotOff + 64 + 8 * slotLinks h + 16 * slotPaths h + 32 * 256 + 32 * slotForwards h ≤ img.len)

/-- A path: 1 to 8 hops and unused hops 0. Every listed link touches this rank, so two listed links of a path meet there; of the
other links the image holds no ends. -/
def pathOk (p : Nat) : Bool :=
  onlyFields p [(0, 4), (8, 96)] && decide (1 ≤ fld p 0 4) && decide (fld p 0 4 ≤ 8) && fld p (8 + 12 * fld p 0 4) (96 - 12 * fld p 0 4) == 0

def slotOk (img : Image) (h e : Nat) : Bool :=
  onlyFields e [(0, 4), (8, 132), (144, 10)] && decide (xKind e ≤ 2) && decide (xOp e ≤ 2)
    && (xKind e == 0 || (decide (xCore e < img.cores) && decide (1 ≤ xFlits e) && decide (xPath e < slotPaths h)
          && decide (xAltPath e < slotPaths h) && decide (xPeer e < img.bounds.devices) && xPeer e != img.bounds.rank.toNat))

def State.checkSlots (s : State) (img : Image) : Option Verdict :=
  if img.slotOff = 0 then none
  else
    let h := s.slotHeader img
    firstOf
      [ need (s.slotHeadOk img) wide headIndex,
        eachOf (slotLinks h) fun i =>
          let l := s.linkEntry img i
          need (fld l 34 30 == 0 && decide (lPeer l < img.bounds.devices) && lPeer l != img.bounds.rank.toNat) wide i,
        eachOf (slotPaths h) fun i => need (pathOk (s.pathEntry img i)) wide i,
        eachOf 256 fun i => need (slotOk img h (s.slotEntry img i)) wide i,
        eachOf (slotForwards h) fun i =>
          let f := s.forwardEntry img i
          need (onlyFields f [(0, 1), (16, 88)] && decide (fPath f < slotPaths h)) wide i ]

/-- Slots that a schedule's words of all cores name. -/
def State.slotsNamed (s : State) (img : Image) (part : Nat) : List Nat :=
  ((List.range img.cores).map fun c => ((s.sectionWords img c part).filter isFabric).map fun w => s.slotEntry img (fld w 16 8)).flatten

/-- A schedule of a multi-device image ends with the boundary vote in its last link slot (R262). -/
def State.voteLast (s : State) (img : Image) (part : Nat) : Bool :=
  let xs := s.slotsNamed img part
  let votes := (xs.filter fun e => xOp e == 2).map xOffset
  !votes.isEmpty && xs.all fun e => xOp e == 2 || decide (xOffset e < votes.foldl max 0)

def State.checkVote (s : State) (img : Image) : Option Verdict :=
  let used := fun (part : Nat) => (List.range img.cores).any fun c => (s.part img c part).2 != 0
  need (decide (img.bounds.devices ≤ 1) || [1, 2].all fun part => !used part || s.voteLast img part) wide 0

/-! ### Snapshot regions (R298) -/

def overlap (a n b m : Nat) : Bool := decide (a < b + m) && decide (b < a + n) && n != 0 && m != 0

/-- Device ranges that the streams of the image touch: their blocks and their lists. -/
def State.streamRanges (s : State) (img : Image) : List (Nat × Nat) :=
  ((List.range img.cores).map fun c =>
    ((List.range (s.part img c 6).2).map fun i =>
      let e := s.rawStream img c i
      (sListAddr e, 16 * sListCount e) ::
        (List.range (sListCount e)).map fun k => (bAddr (s.listEntry e k), bLen (s.listEntry e k))).flatten).flatten

def State.regionOk (s : State) (img : Image) (i : Nat) : Bool :=
  let e := s.regionEntry img i
  onlyFields e [(0, 52), (64, 52), (128, 24)] && rSrc e % unitBytes == 0 && rDst e % unitBytes == 0
    && rSrc e / unitBytes % 20 == rDst e / unitBytes % 20
    && ((s.streamRanges img).all fun r => !overlap (rDst e) (rLen e) r.1 r.2)
    && (List.range (s.regionCount img)).all fun j =>
      let o := s.regionEntry img j
      i == j || (!overlap (rDst e) (rLen e) (rSrc o) (rLen o) && !overlap (rDst e) (rLen e) (rDst o) (rLen o))

def State.checkRegions (s : State) (img : Image) : Option Verdict :=
  if img.regionOff = 0 then none
  else
    let h := s.dramNat (img.addr + img.regionOff) 64
    let n := fld h 0 7
    firstOf
      [ need (onlyFields h [(0, 7)] && decide (1 ≤ n) && decide (n ≤ 64)
          && decide (img.regionOff + 64 + 16 * n + 32 * s.regionCount img ≤ img.len)) wide headIndex,
        eachOf n fun k =>
          let x := s.setEntry img k
          need (fld x 104 24 == 0 && decide (1 ≤ fld x 56 24) && decide (fld x 80 24 < fld x 56 24)) wide k,
        eachOf (s.regionCount img) fun i => need (s.regionOk img i) wide i ]

/-! ### Check 5 -/

def State.check5 (s : State) (img : Image) : Option Verdict := firstOf
  [ eachOf img.cores (s.checkCore5 img), eachOf 64 (s.checkGroup img),
    s.checkBounds img (fld (s.dramNat img.addr 256) 448 64), s.checkSlots img, s.checkVote img, s.checkRegions img ]

end Sys2Proof.Machine
end

