-- ==== Sys2Proof/Machine/Scheduled.lean ====
section
/-!
DEFINITION. Scheduled fabric traffic (R155, R278 to R281, R291 to R295): link slots, sends and receives, collation and votes carried by
them, and forwarding.

A collation transfer carries one record of R113 in each eight flits and the two digests at the start of its last flit (DESIGN CHOICE, log
entry 34: R116 gives what the carrier carries and not its places).
-/

namespace Sys2Proof.Machine

/-! ### Header flits (R280, R281) -/

def hKind (x : Nat) : Nat := fld x 0 4
def hVc (x : Nat) : Nat := fld x 4 2
def hSrc (x : Nat) : Nat := fld x 8 16
def hDst (x : Nat) : Nat := fld x 24 16
def hHops (x : Nat) : Nat := fld x 40 6
def hSubtype (x : Nat) : Nat := fld x 48 8
def hTransfer (x : Nat) : Nat := fld x 64 32
def hLength (x : Nat) : Nat := fld x 96 24

/-- A header flit is good: CRC, reserved fields, KIND, no FEC mark (R281). -/
def headerGood (f : Flit) : Bool :=
  let x := f.bits.toNat
  !f.fecBad && flitCrcOk x && decide (hKind x ≤ 7) && fld x 6 2 == 0 && fld x 46 2 == 0 && fld x 56 8 == 0 && fld x 120 8 == 0
    && fld x 448 32 == 0

/-- A transfer is good: its header, and as many data flits as it says, none of them bad (R278, R281). -/
def transferGood (t : Transfer) : Bool :=
  headerGood t.header && decide (t.data.length = hLength t.header.bits.toNat) && t.data.all fun f => !f.fecBad

/-- Data of a transfer: 64 raw bytes a flit (R278); a flit that is bad has no stated content and lands as free values (log entry 7). -/
def State.dataBytes (s : State) (t : Transfer) : List Byte :=
  ((t.data.zipIdx).map fun p =>
    if p.1.fecBad then ((List.range 8).map fun j => leBytes 8 (s.free (8 * p.2 + j)).toNat).flatten
    else leBytes 64 p.1.bits.toNat).flatten

/-! ### The summary carrier (R115, R116, R294) -/

def digestLow (a b : Option W32) : Option W32 :=
  match a, b with
  | some x, some y => some (if y.toNat < x.toNat then y else x)
  | none, y => y
  | x, none => x

def digestHigh (a b : Option W32) : Option W32 :=
  match a, b with
  | some x, some y => some (if x.toNat < y.toNat then y else x)
  | none, y => y
  | x, none => x

/-- The close of the step's records at the carrier word: the device's own records, one for each (layer, role) that the
program observes, and its digest join the carrier buffer (R115, R116). -/
def State.closeRecords (s : State) : State :=
  if s.prog.closed then s
  else
    let own := s.deviceRecs
    let d := s.prog.digest
    s.modProg fun p =>
      { p with closed := true, carrier := own.foldl collMergeInto p.carrier, digestMin := digestLow p.digestMin (some d),
               digestMax := digestHigh p.digestMax (some d) }

/-- The bytes of a collation send of `flits` data flits. -/
def State.carrierBytes (s : State) (flits : Nat) : List Byte :=
  let n := (flits - 1) / 8
  let level := fun (r : CollRec) => if s.prog.warm then s.prog.levelOf r.layer else 0
  let recs := ((s.prog.carrier.take n).map fun r => r.bytes (level r) s.prog.step).flatten
  recs ++ List.replicate (512 * n - recs.length) 0 ++ leBytes 4 (s.prog.digestMin.getD 0).toNat
    ++ leBytes 4 (s.prog.digestMax.getD 0).toNat ++ List.replicate 56 0

/-- Collation data taken in (R115, R116, R294): merged before the own records are closed into the carrier; after that, what comes back is
the result of the reduction and takes its place (DEDUCED, log entry 34). -/
def State.takeCarrier (s : State) (bytes : List Byte) : State :=
  let n := (bytes.length / 64 - 1) / 8
  let recs := (List.range n).filterMap fun i => CollRec.ofBytes ((bytes.drop (512 * i)).take 512)
  let lo : W32 := BitVec.ofNat 32 (leNat ((bytes.drop (512 * n)).take 4))
  let hi : W32 := BitVec.ofNat 32 (leNat ((bytes.drop (512 * n + 4)).take 4))
  if s.prog.closed then s.modProg fun p => { p with carrier := recs, digestMin := some lo, digestMax := some hi }
  else
    s.modProg fun p =>
      { p with carrier := recs.foldl collMergeInto p.carrier, digestMin := digestLow p.digestMin (some lo),
               digestMax := digestHigh p.digestMax (some hi) }

/-! ### Votes on the wire (R294) -/

/-- The 576 bytes of a contribution. -/
def voteBytes (v : Vote) : List Byte :=
  let failed := v.failed.foldl (fun x k => if bitOf x k then x else x + 2 ^ k) 0
  leBytes 8 v.step.toNat ++ leBytes 5 v.frame.toNat ++ leBytes 3 (if v.fault then 1 else 0) ++ leBytes 512 failed
    ++ List.replicate 48 0

def voteOf (rank : BitVec 10) (b : List Byte) : Vote :=
  let failed := leNat ((b.drop 16).take 512)
  { rank := rank, step := BitVec.ofNat 64 (leNat (b.take 8)), frame := BitVec.ofNat 40 (leNat ((b.drop 8).take 5)),
    fault := bitOf (leNat ((b.drop 13).take 1)) 0, failed := (List.range 4096).filter fun k => bitOf failed k }

/-! ### Slots (R155, R263, R291, R295) -/

/-- A fabric word that waits for a slot: its core and what it holds. -/
def State.slotWord (s : State) (img : Image) (slot : Nat) : Option (CoreId × Nat × Bool × Nat × Byte × Bool × Nat) :=
  img.coreList.findSome? fun (c : CoreId) => ((s.core c).fabricQ.find? fun w => w.1 == slot).map fun w => (c, w)

/-- No slot timing: hold mode, untimed running, cover mode (R263, R295, R303). -/
def State.slotFree (s : State) : Bool := s.cad.hold || s.fab.untimed || s.fab.cover

/-- May a vote be sent: every core has retired its last word, and no shipment holds the boundary (R262, R300). -/
def State.mayVote (s : State) (img : Image) : Bool := s.allRetired img && (s.waitingSet img).isNone

/-- The node of a rank. -/
def State.rankAt (s : State) (r : Nat) : Option (BitVec 16) := (s.fab.rankNode.find? fun x => x.1.toNat = r).map (·.2)

/-- The lane of a scheduled transfer and whether a slot times it: its compiled path, outside hold mode in its slot (R155, R263, R291); in
untimed running the escape tree (R295); in cover mode the routing table for what starts or ends at the covering node (R303). A link that
came back since the last activation carries no scheduled traffic (R277): the vote of a step, which must come all the same for the replay
of R267, takes the escape tree instead (DEDUCED, log entry 32). -/
def State.slotRoute (s : State) (img : Image) (e : Nat) : Option LaneId :=
  let seq := xTransfer e + 2 ^ 16 * (s.prog.step.toNat % 2 ^ 16)
  if s.byTable e then (s.rankAt (xPeer e)).bind fun n => (s.tableLane n.toNat seq).or (s.escapeLane n.toNat)
  else if s.fab.untimed then (s.rankAt (xPeer e)).bind fun n => s.escapeLane n.toNat
  else if (s.link (s.slotLane img e)).phase = .up ∧ (s.link (s.slotLane img e)).sched then some (s.slotLane img e)
  else if xOp e = 2 then (s.rankAt (xPeer e)).bind fun n => s.escapeLane n.toNat
  else none

/-- The data of a scheduled transfer sent: its header names the transfer and the step (R280). With no lane to carry it the transfer is
lost, and its link's failure is a fault of the step already (R277). -/
def State.sendSched (s : State) (img : Image) (e : Nat) (bytes : List Byte) : State :=
  let dst := (s.rankAt (xPeer e)).getD 0xFFFF
  let seq : W32 := BitVec.ofNat 32 (xTransfer e + 2 ^ 16 * (s.prog.step.toNat % 2 ^ 16))
  let m := Msg.bytes bytes
  s.emit (s.slotRoute img e) 0 (!s.slotFree) s.fab.nodeId seq m.flits none (s.headerOf dst.toNat seq.toNat false m) m

/-- A send: device memory, the carrier buffer, or the vote, of the ranks that this node carries (R294, R302). -/
def State.sendSlot (s : State) (img : Image) (e addr : Nat) : State :=
  if xOp e = 1 then s.sendSched img e (s.carrierBytes (xFlits e))
  else if xOp e = 2 then
    let v := s.ownVote img
    let s := ((s.fab.covering.map fun r => { v with rank := r }).foldl State.takeVote (s.takeVote v)).modCad fun c => { c with voted := true }
    match s.cad.votes.find? fun w => w.rank = v.rank with
    | some w => s.sendSched img e (voteBytes { w with fault := votesFault s.cad.votes, failed := votesFailed s.cad.votes })
    | none => s
  else s.sendSched img e (s.dramRead addr (64 * xFlits e))

/-- A slot opens with its word waiting. A receive whose transfer cannot come any more is not waited for (R18, R271; DEDUCED, log entry
35). -/
def State.carryWord (s : State) (img : Image) (slot e : Nat) (c : CoreId) (w : Nat × Bool × Nat × Byte × Bool × Nat) : State :=
  let s := s.modCore c fun k => { k with fabricQ := k.fabricQ.erase w }
  let s := if w.2.2.2.2.1 then s.closeRecords else s
  let s := s.modFab fun f => { f with openSlots := slot :: f.openSlots, doneSlots := slot :: f.doneSlots }
  if w.2.1 ∧ s.slotLost img e then s.wordDone c w.2.2.2.1
  else if w.2.1 then s.modFab fun f => { f with receiving := f.receiving ++ [(slot, w.2.2.1, w.2.2.2.1, c)] }
  else (s.sendSlot img e w.2.2.1).wordDone c w.2.2.2.1

/-- FABRIC_SLOT_OPEN (R155, R262, R263, R291, R294, R295, R300): the slot opens at its offset from the release, and the word that waits
for it is carried out; in hold mode and in untimed running a word is carried when it is reached. A slot that opens with no word waiting
is missed by a word that comes later. A vote waits until it may be sent; CHECKPOINT_WAIT tells of a shipment. -/
def execFabricSlotOpen (slot : Fin 256) (s : State) : Host.Outcome State Fault Refusal :=
  match s.prog.active with
  | none => .next s
  | some img =>
    let e := s.slotEntry img slot.val
    let due := decide (s.prog.releaseNow + s.openOffset img e ≤ s.now)
    if img.direct ∨ img.slotOff = 0 ∨ s.prog.phase ≠ .steps ∨ !s.prog.released ∨ s.clk.lost ∨ s.clk.returning ∨ xKind e = 0 then .next s
    else match s.slotWord img slot.val with
      | none =>
        act (due && !s.slotFree && !s.fab.openSlots.contains slot.val) s
          (s.modFab fun f => { f with openSlots := slot.val :: f.openSlots })
      | some (c, w) =>
        if !due ∧ !s.slotFree then .next s
        else if xOp e = 2 ∧ !w.2.1 ∧ !s.mayVote img then
          match (if s.allRetired img then s.waitingSet img else none) with
          | some k => .next (s.raiseWait k)
          | none => .next s
        else if xOp e = 0 ∧ dramBytes < w.2.2.1 + 64 * xFlits e then .fault (.absentMemory (w.2.2.1 + 64 * xFlits e))
        else .next (s.carryWord img slot.val e c w)

/-! ### Arrival (R281, R294) -/

/-- The receive that a transfer on a lane belongs to: by its number where the header is good, else the one that waits on the lane. -/
def State.receiveFor (s : State) (img : Image) (lane : LaneId) (t : Transfer) : Option (Nat × Nat × Byte × CoreId) :=
  let good := headerGood t.header
  s.fab.receiving.find? fun r =>
    let e := s.slotEntry img r.1
    if good then xTransfer e == hTransfer t.header.bits.toNat % 65536 else s.slotLane img e == lane

/-- A slot's receive takes the bytes of its transfer. -/
def State.deliver (s : State) (img : Image) (lane : LaneId) (t : Transfer) (r : Nat × Nat × Byte × CoreId) :
    Host.Outcome State Fault Refusal :=
  let e := s.slotEntry img r.1
  let good := transferGood t && decide (hLength t.header.bits.toNat = xFlits e)
  let bytes := (s.dataBytes t).take (64 * xFlits e)
  let s := s.modFab fun f => { f with receiving := f.receiving.erase r }
  let s := if good then s else (s.fault 0x11 lane.val).bump
  let s := s.wordDone r.2.2.2 r.2.2.1
  if xOp e = 1 then .next (if good then s.takeCarrier bytes else s)
  else if xOp e = 2 then .next (if good then s.takeVote (voteOf (BitVec.ofNat 10 (xPeer e)) bytes) else s)
  else if dramBytes < r.2.1 + bytes.length then .fault (.absentMemory (r.2.1 + bytes.length))
  else .next (s.dramWrite r.2.1 bytes)

/-- REFUSE with HOP_LIMIT to the source of a flit that has taken 63 hops (R280). -/
def State.refuseHops (s : State) (h : Nat) : State :=
  s.sendAs (BitVec.ofNat 16 (hSrc h)) (BitVec.ofNat 32 (hTransfer h)) false (.refuse 2)

/-- SCHED_TRANSFER (R277, R280, R281, R294): a transfer of the step arrives and is copied, collated or merged into the vote, as its slot
says. A bad flit, or a length that is not the slot's, records a fault against the step; nothing is collated or merged from such a
transfer, and the step is replayed. One that has taken 63 hops is refused to its source, and the step, which lacks it, is replayed. A
transfer of another step belongs to nothing and is dropped (DEDUCED, log entry 35); one whose receive has not been reached stays on its
way; a link that has come back since the last activation carries none but the vote of a step (log entry 32). -/
def execSchedTransfer (lane : LaneId) (transfer : Transfer) (s : State) : Host.Outcome State Fault Refusal :=
  let h := transfer.header.bits.toNat
  let good := headerGood transfer.header
  match s.prog.active with
  | none => .next s
  | some img =>
    if (s.link lane).phase ≠ .up ∨ !s.prog.released ∨ s.clk.lost ∨ (good ∧ hKind h ≠ 1) then .next s
    else if good ∧ hTransfer h / 65536 ≠ s.prog.step.toNat % 65536 then .next s
    else match s.receiveFor img lane transfer with
      | none => .next s
      | some r =>
        if !((s.link lane).sched || s.fab.cover || s.fab.untimed || xOp (s.slotEntry img r.1) == 2) then .next s
        else if good ∧ hHops h = 63 then .next ((s.refuseHops h).fault 0x11 lane.val)
        else s.deliver img lane transfer r

/-! ### Forwarding (R280, R293, R295) -/

/-- The entry by which a transfer that arrives on a lane goes on (R291): a primary one while its path holds no failed link, and once it
does an alternate one. -/
def State.forwardFor (s : State) (img : Image) (lane : LaneId) (n : Nat) : Option Nat :=
  let fs := (s.forwardEntries img).filter fun f => fTransfer f == n
  let failed := fs.any fun f => !fAlt f && s.pathFailed img (fPath f)
  let away := fs.all fAlt && (s.fab.failedEver != [])
  fs.find? fun f => fIn f == lane.val && (if fAlt f then failed || away else !s.pathFailed img (fPath f))

/-- The lane on which a transfer goes on and whether a slot times it: by its forward entry, or over the escape tree and the routing table
in untimed running and for a covering node (R293, R295, R303), and over the escape tree in hold mode, where a compiled lane has come back
since the activation (log entry 32). -/
def State.forwardLane (s : State) (img : Image) (lane : LaneId) (h : Nat) : Option (LaneId × Option Nat) :=
  match s.forwardFor img lane (hTransfer h % 65536) with
  | some f =>
    if (s.fab.untimed ∧ !s.fab.cover) ∨ (s.cad.hold ∧ !(s.link ⟨fOut f % 64, Nat.mod_lt _ (by decide)⟩).sched) then (s.escapeLane (hDst h)).map fun l => (l, none)
    else some (⟨fOut f % 64, Nat.mod_lt _ (by decide)⟩, some f)
  | none =>
    if (s.fab.untimed ∨ s.fab.cover ∨ s.cad.hold) ∧ hDst h ≠ s.fab.nodeId.toNat then
      ((if s.fab.cover then s.tableLane (hDst h) (hTransfer h) else none).or (s.escapeLane (hDst h))).map fun l => (l, none)
    else none

/-- A header with one more hop and its CRC (R280). -/
def addHop (f : Flit) : Flit :=
  let x := fld f.bits.toNat 0 480 + 2 ^ 40
  { f with bits := BitVec.ofNat 512 (x + 2 ^ 480 * crc32 (leBytes 60 x)) }

/-- The forward slot of an entry has closed: its flits take their slot's ticks from its offset on (R292, R293). -/
def State.forwardLate (s : State) (f : Nat) : Bool :=
  decide (s.prog.releaseNow + fOffset f + slotTicks (fFlits f) + 1 < s.now)

/-- FORWARD (R280, R281, R293, R295, R303): the transfer is sent on as it arrives. One that comes after its forward slot has closed is
dropped; one that has taken 63 hops is refused to its source; these, a bad flit, and a lane that is not up record a fault against the
step. -/
def execForward (lane : LaneId) (header : Flit) (data : List Flit) (s : State) : Host.Outcome State Fault Refusal :=
  let transfer : Transfer := { header := header, data := data }
  let h := transfer.header.bits.toNat
  match s.prog.active with
  | none => .next s
  | some img =>
    match s.forwardLane img lane h with
    | none => .next s
    | some (out, entry) =>
      let free := s.slotFree || entry.isNone
      if (s.link lane).phase ≠ .up ∨ hKind h ≠ 1 ∨ s.clk.lost then .next s
      else if headerGood transfer.header ∧ hHops h = 63 then .next ((s.refuseHops h).fault 0x11 lane.val)
      else if (!free ∧ entry.elim false s.forwardLate) ∨ (s.link out).phase ≠ .up ∨ (!(s.link out).sched && entry.isSome) then
        .next (s.fault 0x11 lane.val)
      else
        let s := if transferGood transfer then s else s.fault 0x11 lane.val
        .next (s.passOn out 0 (!free)
          { transfer with header := if headerGood transfer.header then addHop transfer.header else transfer.header })

end Sys2Proof.Machine
end

