-- ==== Sys2Proof/Machine/Routing.lean ====
section
/-!
DEFINITION. Dynamic fabric traffic and discovery (R279 to R290, R296, R306): routing tables, dynamic transfers and their ends,
advertisements and the formation of node IDs.
-/

namespace Sys2Proof.Machine

/-! ### Routing tables (R286, R287, R289) -/

/-- Lanes of the shortest paths to a destination, the four lowest (R287). -/
def State.portsTo (s : State) (edges : List Edge) (goal : Nat → Bool) : Option (List Nat × Nat) :=
  let near := fun (n : Nat) => leastOf ((hopsFrom edges 65536 [(n, 0)]).filterMap fun x => if goal x.1 then some x.2 else none)
  match near s.fab.nodeId.toNat with
  | none => none
  | some 0 => some ([], 0)
  | some (d + 1) =>
    some (((s.joinedEdges.filter fun e => edges.contains e && near e.partner == some d).map (·.lane)).take 4, d + 1)

def portMask (ls : List Nat) : W64 := BitVec.ofNat 64 ((ls.map fun l => 2 ^ l).sum)

/-- One entry of a rebuilt table. -/
def routeEntry (ports : Option (List Nat × Nat)) (esc : BitVec 6) : Option Route :=
  ports.map fun p =>
    { ports := portMask p.1, escLane := esc, isLocal := decide (p.2 = 0), valid := true, hops := BitVec.ofNat 8 (min 255 p.2) }

/-- The table that a rebuild yields: an entry for each reachable node of the domain, and for each domain known; links in phase 6 join
with it (R274). The manual gives the escape route within a domain only: ESC_LANE of an inter-domain entry is a free value (log
entry 7). -/
def State.buildTable (s : State) : List (Nat × Route) :=
  let own := nodeDomain s.fab.nodeId.toNat
  let es := s.joinedEdges ++ s.advertEdges
  let inner := s.inDomain es
  let inside := ((hopsFrom inner 65536 [(s.fab.nodeId.toNat, 0)]).map (·.1)).filterMap fun n =>
    (routeEntry (s.portsTo inner (· == n)) (BitVec.ofNat 6 ((s.escapeLane n).elim 0 (·.val)))).map fun r => (nodeMember n, r)
  let outside := (List.range 64).filterMap fun d =>
    if d = own then none
    else (routeEntry (s.portsTo es fun n => nodeDomain n == d) (BitVec.ofNat 6 (s.free d).toNat)).map fun r => (1024 + d, r)
  inside ++ outside

/-- ROUTING_REBUILD_DONE (R289): the shadow copy is complete; it flips at the next effective mark, or at once while the counter is not
VALID. -/
def execRoutingRebuildDone (s : State) : Host.Outcome State Fault Refusal :=
  if !s.pwr.main ∨ !s.fab.rebuilding then .next s
  else
    let t := s.buildTable
    let s := s.modFab fun f => { f with shadow := t, rebuilding := false, flipReady := true }
    .next (if s.cad.valid then s else s.flipTables).bump

/-! ### Dynamic transfers (R278 to R281, R288) -/

/-- A header that goes on: one more hop, on ESCAPE where the route leads there, its CRC formed again (R280). -/
def onward (f : Flit) (escape : Bool) : Flit :=
  let x := f.bits.toNat
  let x := fld x 0 480 + 2 ^ 40
  let x := if escape then x - 2 ^ 4 * fld x 4 2 + 2 ^ 4 * 3 else x
  { f with bits := BitVec.ofNat 512 (x + 2 ^ 480 * crc32 (leBytes 60 x)) }

/-- A header moved to ESCAPE by the node that it waits at. -/
def onEscape (f : Flit) : Flit :=
  let x := fld f.bits.toNat 0 480
  let x := x - 2 ^ 4 * fld x 4 2 + 2 ^ 4 * 3
  { f with bits := BitVec.ofNat 512 (x + 2 ^ 480 * crc32 (leBytes 60 x)) }

/-- The lane on ESCAPE of a transfer that came by a lane: down where the own subtree holds its destination; up only if it did not come
down from the parent (R286). -/
def State.escapeFrom (s : State) (came : LaneId) (dst : Nat) : Option LaneId :=
  if (before s.fab.nodeId.toNat (s.chain 1024 dst)).isSome then s.downLane dst
  else if s.upLane = some came then none else s.upLane

/-- The next lane of a transfer that passes through, and whether it goes on ESCAPE (R286, R288). -/
def State.nextLane (s : State) (came : LaneId) (x : Nat) : Option (LaneId × Bool) :=
  let dst := hDst x
  if hVc x = 3 then (s.escapeFrom came dst).map fun l => (l, true)
  else match (s.routeTo dst).bind fun r => r.pick (hSrc x) dst (hTransfer x) with
    | some l => some (l, false)
    | none => (s.escapeLane dst).map fun l => (l, true)

/-- A message to the source of a transfer that came. -/
def State.reply (s : State) (x : Nat) (m : Msg) : State :=
  s.sendAs (BitVec.ofNat 16 (hSrc x)) (BitVec.ofNat 32 (hTransfer x)) false m

/-! ### What a transfer asks of its destination (R184, R296, R299, R305) -/

/-- The store units of the two areas that a device's binding has once a request is accepted (R296): 128 MiB for continuous records; twice the
checkpoint and 128 MiB for its generations. A class that the request does not name keeps the area it has. -/
def recordUnits (old : Option Protected) (a : BindAsk) : Nat := if a.continuous || old.any (·.continuous) then 64 else 0
def checkUnits (old : Option Protected) (a : BindAsk) : Nat :=
  if a.checkpointed then 2 * a.checkUnits + 64 else old.elim 0 fun p => p.units - if p.continuous then 64 else 0
def bindUnits (old : Option Protected) (a : BindAsk) : Nat := recordUnits old a + checkUnits old a

/-- The image that a cover kind asks for (R296): for STANDBY the rank's image staged, on a node that runs no rank of the program; for
ACTIVE the node runs a rank of it by a pair image, which no field of the header shows: a free value (log entry 37). -/
def State.coverImage (s : State) (a : BindAsk) : Bool :=
  let runs := s.prog.active.any fun img => img.bounds.programId == a.programId && decide (1 < img.bounds.devices)
  if a.cover = 1 then !runs && s.prog.staged.any fun img => img.bounds.programId == a.programId && img.bounds.rank == a.rank
  else if a.cover = 2 then runs && s.prog.active.any fun img => Config.pairImage a.programId img.bounds.rank.toNat a.rank.toNat
  else true

/-- Why this node refuses a binding, in the order of R296; what only the sender can know, that the partner is unreachable, is not among
them. -/
def State.bindRefusal (s : State) (node : BitVec 16) (a : BindAsk) : Option Nat :=
  let others := s.fab.protects.filter (·.node ≠ node)
  match s.fab.store with
  | none => some 1
  | some (_, units) =>
    if units - (others.map (·.units)).sum < bindUnits (s.fab.protects.find? (·.node = node)) a then some 2
    else if s.host.ifLevel.toNat < 3 ∨ s.fab.adverts.any (fun p => p.1.node == node && decide (p.1.ifLevel.toNat < 3)) then some 3
    else if 4 ≤ others.length then some 4
    else if !s.coverImage a then some 6
    else none

/-- A binding request reaches this node (R279, R296): it is refused, or its areas are reserved; the classes of an earlier binding of the
same device stay where the new one does not name them. -/
def State.takeBind (s : State) (node : BitVec 16) (a : BindAsk) : State :=
  match s.bindRefusal node a with
  | some r => s.sendDyn node .device (.bound (some r))
  | none =>
    let old := s.fab.protects.find? (·.node = node)
    let keep := old.getD { node := node, continuous := false, checkpointed := false, cover := 0, units := 0, recordStep := 0, record := [],
                           arriving := [], gens := [], coming := [], states := [] }
    let p := { keep with continuous := keep.continuous || a.continuous, checkpointed := keep.checkpointed || a.checkpointed,
                         cover := a.cover, units := bindUnits old a }
    ((s.modFab fun f => { f with protects := f.protects.filter (·.node ≠ node) ++ [p] }).advertise).sendDyn node .device (.bound none)

/-- Classes withdrawn by the protected device; a binding left with none gives its areas back (R296). -/
def State.takeUnbind (s : State) (node : BitVec 16) (cont chk : Bool) : State :=
  (s.modFab fun f =>
    { f with protects := f.protects.filterMap fun p =>
        if p.node ≠ node then some p
        else
          let q := { p with continuous := p.continuous && !cont, checkpointed := p.checkpointed && !chk }
          let records := if p.continuous then 64 else 0
          let q := { q with units := (if q.continuous then 64 else 0) + if q.checkpointed then p.units - records else 0 }
          if q.continuous || q.checkpointed then some q else none }).advertise

/-- One unit taken into the arriving generation of its set (R299). -/
def SetGen.takeUnit (gs : List SetGen) (set : Nat) (step : W64) (index total : Nat) (b : List Byte) : List SetGen :=
  let g := ((gs.find? fun g => g.set = set).filter fun g => g.step = step).getD { set := set, step := step, total := total, units := [] }
  (gs.filter (·.set ≠ set)) ++ [{ g with units := (g.units.filter (·.1 ≠ index)) ++ [(index, b)] }]

def SetGen.whole (g : SetGen) : Bool := decide (g.total ≤ g.units.length)

/-- A unit at the partner: a generation that is whole replaces the older one (R299). -/
def Protected.takeUnit (p : Protected) (set : Nat) (step : W64) (index total : Nat) (b : List Byte) : Protected :=
  let coming := SetGen.takeUnit p.coming set step index total b
  let done := coming.filter SetGen.whole
  let older := p.gens.filter fun (g : SetGen) => !(done.any fun c => c.set == g.set)
  let p := { p with gens := older ++ done, coming := coming.filter fun g => !g.whole }
  { p with states := p.states.filter fun x => (p.gens ++ p.coming).any fun g => g.step == x.1 }

/-- A continuous record at the partner, part of the generation of its step. -/
def Protected.takeState (p : Protected) (step : W64) (b : List Byte) : Protected :=
  { p with states := (p.states.filter fun x => x.1 ≠ step) ++ [(step, b)] }

def State.modProtected (s : State) (node : BitVec 16) (g : Protected → Protected) : State :=
  s.modFab fun f => { f with protects := f.protects.map fun p => if p.node = node then g p else p }

/-! ### Continuous records at the partner (R297) -/

/-- A record is whole: its CRC-32 checks over the length that it states (log entry 26). -/
def recordWhole (r : List Byte) : Bool := rdAt r 36 4 == crc32 (r.take 36 ++ List.replicate 4 0 ++ r.drop 40)

/-- The pages that have changed are written to the copy that does not hold the latest complete record, over what that record says
elsewhere; when the CRC checks the copies swap. -/
def Protected.take (p : Protected) (step : W64) (pages : List (Nat × List Byte)) : Protected :=
  let x := applyPages p.record pages
  let r := x.take (rdAt x 24 8)
  if recordWhole r then { p with recordStep := step, record := r, arriving := [] } else { p with arriving := r }

/-- The pages complete a record of a device whose continuous class this node has bound. -/
def State.recordComes (s : State) (node : BitVec 16) (pages : List (Nat × List Byte)) : Bool :=
  s.fab.protects.any fun p => p.node == node && p.continuous && (p.take 0 pages).arriving == []

/-- A record taken in. -/
def State.takeRecord (s : State) (node : BitVec 16) (step : W64) (pages : List (Nat × List Byte)) : State :=
  s.modProtected node fun p => if p.continuous then p.take step pages else p

/-! ### Units restored from a partner (R242, R302) -/

/-- The units asked for, as this node holds them for a protected device. -/
def State.answerRestore (s : State) (node : BitVec 16) (step : W64) (units : List (Nat × Nat)) : State :=
  match s.fab.protects.find? fun p => p.node = node with
  | none => s
  | some p =>
    units.foldl (fun s u =>
      match (p.gens.find? fun g => g.set = u.1 ∧ g.step = step).bind fun g => g.units.find? fun x => x.1 = u.2 with
      | some x => s.sendDyn node .device (.unit u.1 step u.2 x.2)
      | none => s) s

/-- A unit that a restore waits for. -/
def State.awaited (s : State) (node : BitVec 16) (set : Nat) (step : W64) (i : Nat) : Bool :=
  s.prog.awaiting.contains (set, i) && s.checkPartner == some node && s.prog.kept.any fun k => k.step == step

/-- The unit written to its region. -/
def State.takeAwaited (s : State) (set i : Nat) (b : List Byte) : State :=
  match s.prog.active.bind fun img => (s.setUnits img set)[i]? with
  | some a => (s.dramStore a b).modProg fun p => { p with awaiting := p.awaiting.erase (set, i) }
  | none => s

/-- A rejoin asked for (R305): the program root keeps it for the next boundary and tells the covering node, with the node of the new
module; of a rank that no node covers there is nothing to rejoin. -/
def State.takeRejoin (s : State) (node : BitVec 16) (r : BitVec 10) : State :=
  if s.prog.active.isNone ∨ !s.fab.cover ∨ !s.fab.recover.contains r then s
  else
    let s := s.modFab fun f => { f with rejoining := some (r, node) }
    match (s.fab.rankNode.find? fun x => x.1 = r).map (·.2) with
    | some n => if n = s.fab.nodeId ∨ s.fab.covering.contains r then s else s.sendDyn n .device (.rejoin r node)
    | none => s

/-- A unit of a shipment: one that a restore waits for, of a rejoin, or of a device that this node protects (R299, R302, R305). -/
def State.takeUnit (s : State) (src : BitVec 16) (set : Nat) (step : W64) (i total : Nat) (b : List Byte) : State :=
  if s.awaited src set step i then s.takeAwaited set i b
  else if s.fab.seeding.isSome ∨ s.prog.recovering then s.modFab fun f => { f with seedSets := SetGen.takeUnit f.seedSets set step i total b }
  else s.modProtected src (·.takeUnit set step i total b)

/-- The stored image of a component goes to a neighbour that recovers it: the manifest with its table, then every chunk (R351, R353). Its
arrival there is FIRMWARE_DATA (log entry 7). -/
def State.answerImage (s : State) (dst : BitVec 16) (code : Byte) : State :=
  match s.mc.images.find? fun p => compCode p.1 = code.toNat with
  | some (_, f) =>
    if !s.mcRuns then s
    else (List.range f.digests.length).foldl (fun s k => s.send dst (.fwData ((f.body.drop (65536 * k)).take 65536))) (s.send dst (.fwData f.head))
  | none => s

/-- A delivered transfer does what it asks (R184, R263, R264, R296, R297, R299, R301, R302, R305); requests travel as CTRL, data as DYN
(R280). -/
def State.carryOut (s : State) (x : Nat) (t : Transfer) : State :=
  let src : BitVec 16 := BitVec.ofNat 16 (hSrc x)
  match Config.readContent t, decide (hKind x = 3) with
  | .bind a, true => s.takeBind src a
  | .unbind c k, true => s.takeUnbind src c k
  | .rejoin r module, true => s.takeRejoin module r
  | .hold, true => if s.domainProgram.isSome then s.takeHold else s
  | .resume g, true => if s.domainProgram.isSome ∧ !s.restoring then s.takeResume g else s
  | .leave r, true => if s.domainProgram.isSome then s.loseMember r else s
  | .recoveryEnd status items, true => if s.domainProgram.isSome then s.stopRecovery status items else s
  | .restore step units, false => s.answerRestore src step units
  | .record step pages, false => s.takeRecord src step pages
  | .recovery step last, true => s.takeSteps step last
  | .fwRequest code, true => s.answerImage src code
  | .unit set step i total b, false => s.takeUnit src set step i total b
  | .state step b, false =>
    if s.fab.seeding.isSome ∨ s.prog.recovering then s.modFab fun f => { f with seedState := some (step, b) }
    else s.modProtected src (·.takeState step b)
  | .pageRead a n, false => if a + n ≤ dramBytes then s.sendDyn src .device (.pageData (s.dramRead a n)) else s
  | .pageWrite a b, false => if a + b.length ≤ dramBytes then s.dramStore a b else s
  | _, _ => s

/-- Pages that leave a record broken are not acknowledged: they are sent again (R281, R297; DEDUCED, log entry 36). -/
def State.acknowledges (s : State) (x : Nat) (t : Transfer) : Bool :=
  match Config.readContent t, decide (hKind x = 3) with
  | .record _ pages, false => s.recordComes (BitVec.ofNat 16 (hSrc x)) pages
  | _, _ => true

/-- Own transfers that await their end. -/
def Fabric.transfer (f : Fabric) (seq : W32) : Option DynOut := f.outstanding.find? fun o => o.seq = seq
def State.dropTransfer (s : State) (seq : W32) : State :=
  s.modFab fun f => { f with outstanding := f.outstanding.filter fun o => o.seq ≠ seq }

/-- The set and the step of a shipped unit. -/
def Msg.shipment : Msg → Option (Nat × W64)
  | .unit set step _ _ => some (set, step)
  | .bytes _ => none | .hold => none | .resume _ => none | .ack => none | .refuse _ => none | .sync => none | .partner => none
  | .advert _ => none | .rejoin _ _ => none | .state _ _ => none | .leave _ => none | .recovery _ _ => none
  | .fwRequest _ => none | .fwData _ => none | .pageData _ => none | .restore _ _ => none | .recoveryEnd _ _ => none
  | .pageFetch _ => none | .pageWrite _ _ => none
  | .record _ _ => none | .bind _ => none | .unbind _ _ => none | .bound _ => none | .passed => none

/-- A transfer is refused to its initiator (R281, R288, R306): a command completes FABRIC_UNREACHABLE, a page fetch fails; for what the
device began, mirror operations among them, FABRIC_UNREACHABLE is raised with the destination and the number. The shipment of a refused
unit ends (DEDUCED, log entry 36); units that a restore waits for do not come, and the program ends with MEMBER_LOST, or with STACK_LOST
where a stack was lost (R242, R302; DEDUCED, log entry 39). -/
def State.refused (s : State) (o : DynOut) : State :=
  let s := s.dropTransfer o.seq
  let event := fun (s : State) => s.raiseDev 0x0414 [item o.dst.toNat, o.seq]
  match o.initiator with
  | .command h => s.complete h 0x000A o.dst.toNat 0
  | .pageFetch c i =>
    match s.prog.active with
    | some _ => if (((s.core c).strm i).fetching).isSome then s.pageFailed c i else s
    | none => s
  | .mirror =>
    match o.body.shipment with
    | some k =>
      ((event s).modProg fun p => { p with shipping := p.shipping.filter (· ≠ k) }).modFab fun f =>
        { f with outstanding := f.outstanding.filter fun q => q.body.shipment ≠ some k }
    | none => event s
  | .record _ => event s
  | .device => event s
  | .restore =>
    match s.prog.active, (if s.fab.recover = [] then s.prog.relocated else none) with
    | some _, some x => (event s).endProgram 0x0208 x.val none
    | some img, none => (event s).endRecovery 0x020A [item img.bounds.rank.toNat]
    | none, _ => event s

/-- An acknowledged transfer is delivered (R281, R297). A continuous record acknowledged is complete at the partner: the next deltas are
taken from it, and a newer state follows it. -/
def State.takeAck (s : State) (sequence : W32) : State :=
  match s.fab.transfer sequence with
  | none => s
  | some o =>
    let s := s.dropTransfer sequence
    match o.initiator, o.body with
    | .record n, .record _ pages =>
      let s := s.modFab fun f => { f with mirrored := some n, acked := applyPages f.acked pages }
      match s.fab.bindings.find? (·.continuous), s.prog.committed, s.prog.active with
      | some b, some c, some img =>
        if n.toNat < c.toNat then s.sendDyn b.partner (.record c) (.record c (changedPages s.fab.acked (s.committedRecord img))) else s
      | _, _, _ => s
    | _, _ => s

/-- A transfer of this node is refused by a node on its way (R280, R288, R306). -/
def State.takeRefuse (s : State) (sequence : W32) (reason : Byte) : State :=
  match s.fab.transfer sequence with
  | some o => if reason = 1 ∨ reason = 2 then s.refused o else s
  | none => s

/-- ACK (R281, R297). -/
def execAckMsg (sequence : W32) (s : State) : Host.Outcome State Fault Refusal := .next (s.takeAck sequence)

/-- REFUSE (R288, R306). -/
def execRefuseMsg (sequence : W32) (reason : Byte) (s : State) : Host.Outcome State Fault Refusal := .next (s.takeRefuse sequence reason)

/-- What a transfer for this node does, by its KIND: an acknowledgement, a refusal with its reason in SUBTYPE, or a transfer that is
acknowledged and does what it asks (R280, R281). -/
def State.arrive (s : State) (x : Nat) (t : Transfer) : State :=
  if hKind x = 4 then s.takeAck (BitVec.ofNat 32 (hTransfer x))
  else if hKind x = 5 then s.takeRefuse (BitVec.ofNat 32 (hTransfer x)) (BitVec.ofNat 8 (hSubtype x))
  else if s.acknowledges x t then (s.reply x .ack).carryOut x t
  else s.carryOut x t

/-- A transfer that passes through and has no lane to go on waits in the escape queue (R288). -/
def State.passWaiting (s : State) (header : Flit) (t : Transfer) : State :=
  let x := header.bits.toNat
  s.emit none 3 false (BitVec.ofNat 16 (hSrc x)) (BitVec.ofNat 32 (hTransfer x)) t.data.length (some { t with header := header })
    header.bits .passed

/-- DYN_TRANSFER (R280, R281, R288): a bad transfer is discarded and not acknowledged; one that has taken 63 hops is refused to its
source; one for this node is delivered; another goes on by its route, or waits in the escape queue where no lane leads on. -/
def execDynTransfer (lane : LaneId) (transfer : Transfer) (s : State) : Host.Outcome State Fault Refusal :=
  let x := transfer.header.bits.toNat
  if !s.pwr.main ∨ (s.link lane).phase ≠ .up ∨ s.clk.lost ∨ !transferGood transfer ∨ hKind x < 2 ∨ 5 < hKind x then .next s
  else if hHops x = 63 then .next (if hKind x < 4 then s.reply x (.refuse 2) else s)
  else if hDst x = s.fab.nodeId.toNat ∨ hDst x = 0xFFFF then .next (s.arrive x transfer)
  else match s.nextLane lane x with
    | some (l, esc) =>
      let onto : BitVec 2 := if esc then 3 else BitVec.ofNat 2 (hVc x)
      .next (s.passOn l onto false { transfer with header := onward transfer.header esc })
    | none => .next (s.passWaiting (onward transfer.header true) transfer)

/-- RESEND_TIMEOUT (R281): the transfer is sent again, up to eight times in all; then it is refused to its initiator. -/
def execResendTimeout (sequence : W32) (s : State) : Host.Outcome State Fault Refusal :=
  match s.fab.transfer sequence with
  | none => .next s
  | some o =>
    if 8 ≤ o.sends then .next (s.refused o)
    else
      .next ((s.modFab fun f =>
        { f with outstanding := f.outstanding.map fun x => if x.seq = sequence then { x with sends := x.sends + 1 } else x }).sendAs
        o.dst o.seq o.escape o.body)

/-- The lane on which a transfer waits in a channel other than ESCAPE, or in ESCAPE; none for the escape queue while no lane leads on. -/
def State.waitingOn (s : State) (source : BitVec 16) (sequence : W32) (escape : Bool) : Option (Option LaneId × TxEntry) :=
  let it := fun (e : TxEntry) => e.src == source && e.seq == sequence && !e.timed && (e.vc == 3) == escape
  (allLanes.findSome? fun l => ((s.link l).tx.find? it).map fun e => (some l, e)).or ((s.fab.escapeWait.find? it).map fun e => (none, e))

/-- A transfer leaves the queue of a lane, or the escape queue. -/
def State.unqueue (s : State) (l : Option LaneId) (e : TxEntry) : State :=
  match l with
  | some l => s.modLink l fun k => { k with tx := k.tx.erase e }
  | none => s.modFab fun f => { f with escapeWait := f.escapeWait.erase e }

/-- CREDIT_WAIT_TIMEOUT (R288): after 200 µs without credits a transfer, of this node or passing through, moves to ESCAPE. -/
def execCreditWaitTimeout (transfer : TransferId) (s : State) : Host.Outcome State Fault Refusal :=
  match s.waitingOn transfer.source transfer.sequence false with
  | none => .next s
  | some (l, e) =>
    if !(e.vc == 1 || e.vc == 2) then .next s
    else
      let s := s.unqueue l e
      match e.transit with
      | some t =>
        match s.escapeLane (hDst t.header.bits.toNat) with
        | some out => .next (s.passOn out 3 false { t with header := onEscape t.header })
        | none => .next (s.passWaiting (onEscape t.header) t)
      | none =>
        match s.fab.transfer transfer.sequence with
        | some o =>
          .next ((s.modFab fun f =>
            { f with outstanding := f.outstanding.map fun x =>
                if x.seq = transfer.sequence then { x with escape := true, lane := s.escapeLane o.dst.toNat } else x }).sendAs
                  o.dst o.seq true o.body)
        | none => .next s

/-- ESCAPE_TIMEOUT (R288): a transfer that has waited 2 ms in the escape queue is refused to its source with ROUTE_UNKNOWN. -/
def execEscapeTimeout (transfer : TransferId) (s : State) : Host.Outcome State Fault Refusal :=
  match s.waitingOn transfer.source transfer.sequence true with
  | none => .next s
  | some (l, e) =>
    let s := s.unqueue l e
    match e.transit with
    | some t => .next (s.reply t.header.bits.toNat (.refuse 1))
    | none =>
      match s.fab.transfer transfer.sequence with
      | some o => .next (s.refused o)
      | none => .next s

/-! ### Node identity (R283, R284) -/

/-- The hashed member ID of the k-th try (R207, R283, R284). -/
def State.hashedId (s : State) (k : Nat) : Nat := 63 * 1024 + mix ((s.serial.toNat + k) % 2 ^ 64) % 1024

/-- HASHED_NODE_ID (R283): no shelf record within 5 s of standby power. -/
def execHashedNodeId (s : State) : Host.Outcome State Fault Refusal :=
  act (s.pwr.standby && s.fab.nodeId == 0xFFFF) s (s.takeId (BitVec.ofNat 16 (s.hashedId 0)) 1)

def State.idInUse (s : State) (n : Nat) : Bool := n == s.fab.nodeId.toNat || s.fab.adverts.any fun p => p.1.node.toNat == n

/-- The first try from k on whose ID is not in use. -/
def State.tryIds (s : State) : Nat → Nat → Option Nat
  | 0, _ => none
  | n + 1, k => if s.idInUse (s.hashedId k) then s.tryIds n (k + 1) else some k

/-- Two nodes with one ID (R284): the one with the higher SERIAL gives way: a configured node takes ID_SOURCE 2, a hashed one the next
free hash, or ID_SOURCE 2 after 1,024 tries. NODE_ID_CLASH carries both serial numbers and the ID that this node then has. -/
def State.resolveClash (s : State) (a : Advert) : State :=
  let own := s.serial
  let s :=
    if own.toNat < a.serial.toNat then s
    else if s.fab.idSource ≠ 1 then s.takeId s.fab.nodeId 2
    else
      let k0 := s.fab.idTries + 1
      match s.tryIds (1025 - k0) k0 with
      | some k => (s.modFab fun f => { f with idTries := k }).takeId (BitVec.ofNat 16 (s.hashedId k)) 1
      | none => (s.modFab fun f => { f with idTries := 1024 }).takeId s.fab.nodeId 2
  s.raiseDev 0x0412 (item2 own.toNat ++ item2 a.serial.toNat ++ [item s.fab.nodeId.toNat])

/-! ### Advertisements (R236, R285, R296) -/

def newer (a b : W32) : Bool := a != b && decide ((a - b).toNat < 2 ^ 31)

/-- ADVERTISEMENT (R236, R284 to R286, R289): one that is newer than what is held from its source is taken in and forwarded; it changes
the topology, lets an activation that waits for its peers go on, and shows a clash of node IDs. -/
def execAdvertisement (lane : LaneId) (adv : Advert) (s : State) : Host.Outcome State Fault Refusal :=
  if !s.pwr.main ∨ !(s.link lane).open ∨ s.clk.lost ∨ adv.serial = s.serial then .next s
  else if adv.node = s.fab.nodeId ∧ s.fab.idSource ≠ 2 ∧ adv.idSource ≠ 2 then .next (s.resolveClash adv)
  else
    let old := s.fab.adverts.find? fun p => p.1.node = adv.node
    if !(old.elim true fun p => newer adv.sequence p.1.sequence) then .next s
    else
      let s := (s.modFab fun f =>
        { f with adverts := f.adverts.filter (fun p => p.1.node ≠ adv.node) ++ [(adv, s.now)] }).flood (some lane) (.advert adv)
      let same := old.elim false fun p => p.1.links == adv.links
      let s := if same then s.noteRoot else s.topologyChanged
      .next s.tryActivate

/-- ADVERTISEMENT_PERIOD (R285). -/
def execAdvertisementPeriod (s : State) : Host.Outcome State Fault Refusal := act s.pwr.main s s.advertise

/-- The bindings of a partner lapse (R296): MIRROR_PARTNER_LOST with the partner and the classes; nothing stalls. -/
def State.partnerLost (s : State) (node : BitVec 16) : State :=
  match s.fab.bindings.filter (·.partner = node) with
  | [] => s
  | bs =>
    let cont := bs.any (·.continuous)
    let chk := bs.any (·.checkpointed)
    let s := s.modFab fun f => { f with bindings := f.bindings.filter (·.partner ≠ node) }
    let s := if chk then s.modProg fun p => { p with shipping := [] } else s
    (s.raiseDev 0x0413 [item node.toNat, item ((if cont then 1 else 0) + if chk then 2 else 0)]).advertise

/-- ADVERTISEMENT_EXPIRY (R285, R289, R296): a source silent for 300,000,000 ticks is forgotten. -/
def execAdvertisementExpiry (node : BitVec 16) (s : State) : Host.Outcome State Fault Refusal :=
  act (s.pwr.main && s.fab.adverts.any fun p => p.1.node == node && decide (p.2 + 300000000 ≤ s.now)) s
    (((s.modFab fun f => { f with adverts := f.adverts.filter fun p => p.1.node ≠ node }).topologyChanged).partnerLost node)

end Sys2Proof.Machine
end

