-- ==== Sys2Proof/Machine/Mirrors.lean ====
section
/-!
DEFINITION. Mirror partners, and the loss and the return of a member (R296 to R305).
-/

namespace Sys2Proof.Machine

/-! ### What a partner holds (R297) -/

/-- CONTINUOUS_RECORD (R281, R296, R297): the changed pages of a record come, under the number of their transfer, from a device whose
continuous class this node has bound. They are written over the latest complete record in the other copy; when the CRC checks, the copies
swap and the transfer is acknowledged. -/
def execContinuousRecord (node : BitVec 16) (step : W64) (sequence : W32) (pages : List (Nat × List Byte)) (s : State) :
    Host.Outcome State Fault Refusal :=
  let t := s.takeRecord node step pages
  act (s.pwr.main && s.fab.store.isSome && s.fab.protects.any fun p => p.node == node && p.continuous) s
    (if s.recordComes node pages then t.sendAs node sequence false .ack else t)

/-! ### Shipments (R299, R300) -/

/-- Every set of a full checkpoint is complete at the partner. -/
def State.atPartner (s : State) (img : Image) (step : W64) : Bool :=
  (List.range (s.snapSets img)).all fun i => s.prog.shipped.contains (i, step)

/-- Every set of the last full checkpoint is complete at the partner: the partner holds its continuous state with it (R299), and the list
of input references restarts (R297, R300). -/
def State.checkpointAtPartner (s : State) (img : Image) : State :=
  match s.prog.kept with
  | none => s
  | some k =>
    if s.atPartner img k.step then
      s.modProg fun p =>
        { p with keptShipped := some k, inputs := p.inputs.filter fun i => decide (k.step.toNat < i.1.toNat), inputFull := none }
    else s

/-- CHECKPOINT_COMPLETE (R297, R299, R300): every unit of a set in shipment is acknowledged. -/
def execCheckpointComplete (set : Fin 64) (s : State) : Host.Outcome State Fault Refusal :=
  match s.prog.active, s.prog.shipping.find? fun x => x.1 = set.val with
  | some img, some k =>
    if s.fab.outstanding.any fun o => o.body.shipment == some k then .next s
    else
      let s := s.modProg fun p =>
        { p with shipping := p.shipping.filter (·.1 ≠ k.1), shipped := k :: p.shipped.filter (·.1 ≠ k.1) }
      .next ((s.raiseStep 0x030D noCore (item k.1 :: item2 k.2.toNat)).checkpointAtPartner img)
  | _, _ => .next s

/-! ### Members lost (R301) -/

/-- MEMBER_LEAVE (R241, R301). -/
def execMemberLeave (rank : BitVec 10) (s : State) : Host.Outcome State Fault Refusal :=
  act s.domainProgram.isSome s (s.loseMember rank)

/-- MEMBER_ISOLATION (R301): the member's links have been down at its neighbours for 5,000,000 ticks. -/
def execMemberIsolation (rank : BitVec 10) (s : State) : Host.Outcome State Fault Refusal :=
  act s.domainProgram.isSome s (s.loseMember rank)

/-! ### Restoring a checkpoint (R242, R299, R302) -/

/-- The device addresses of the local copies of a set's units, in the order of `setUnits`. -/
def State.setCopies (s : State) (img : Image) (set : Nat) : List Nat :=
  ((s.setRegions img set).map fun e => (List.range (fld e 128 24)).map fun i => regDst e + unitBytes * i).flatten

/-- An address on a lost stack. -/
def onLost (lost : Option StackId) (a : Nat) : Bool := lost.elim false fun x => a / unitBytes % 20 == x.val

/-- One set restored to its regions: its units from the local copies where they are of the step and on no lost stack; the others are
awaited from the partner's generation, none where there is neither (R242, R302). -/
def State.restoreSet (s : State) (img : Image) (step : W64) (lost : Option StackId) (set : Nat) : Option State :=
  let units := ((s.setUnits img set).zip (s.setCopies img set)).zipIdx
  let here := fun (u : (Nat × Nat) × Nat) => s.prog.localCopies.contains (set, step) && !onLost lost u.1.2
  let away := units.filter fun u => !here u
  if away ≠ [] ∧ !(s.prog.shipped.contains (set, step) && s.checkPartner.isSome) then none
  else
    let s := (units.filter here).foldl (fun s u => s.copyRange u.1.2 u.1.1 unitBytes) s
    some (s.modProg fun p => { p with awaiting := p.awaiting ++ away.map fun u => (set, u.2) })

/-- The units awaited are asked of the checkpointed partner. -/
def State.askUnits (s : State) (step : W64) : State :=
  match s.checkPartner, s.prog.awaiting with
  | some d, u :: r => s.sendDyn d .restore (.restore step (u :: r))
  | _, _ => s

/-- Every set restored; no release comes while units are awaited. -/
def State.restoreSets (s : State) (img : Image) (step : W64) (lost : Option StackId) : Option State :=
  ((List.range (s.snapSets img)).foldl (fun o k => o.bind fun s => s.restoreSet img step lost k)
    (some (s.modProg fun p => { p with awaiting := [] }))).map (·.askUnits step)

/-- A core with the positions and late observations of the checkpoint; positions of elastic streams stay (R209). -/
def State.restoreCore (s : State) (img : Image) (k : Continuous) (c : CoreId) : State :=
  let late := k.late.getD c.val []
  s.modCore c fun x =>
    { x with coll := late, collKept := late, collNext := [],
             draws := Vector.ofFn fun i : Fin 16 =>
               if s.elasticStream img c i.val then x.draws[i] else ((k.draws.getD c.val (Vector.replicate 16 0)))[i] }

/-- An input that a recovery needs is asked for again; the event belongs to its step, so requests of one step fold (R304, R321;
log entry 38). -/
def State.requestInput (s : State) (i : W64 × W64) : State :=
  let now := s.prog.step
  ((s.modProg fun p => { p with step := i.1 }).raise 0x030F noCore (item2 i.1.toNat ++ item2 i.2.toNat)).modProg
    fun p => { p with step := now, inputWant := p.inputWant ++ [i] }

/-- The continuous state of a checkpoint in force: what the step after its boundary begins with (R133, R209, R302). -/
def State.applyState (s : State) (img : Image) (k : Continuous) : State :=
  let s := s.dramWrite img.collBase k.collation
  let s := s.modProg fun p =>
    { p with recipe := k.recipe, allowance := k.allowance, steer := k.steer, groupRecs := k.groupRecs, coldLeft := k.coldLeft,
             lastCold := k.lastCold, released := false, discards := 0, faults := [], faultsNext := [], snaps := [], closed := false,
             carrier := [], digestMin := none, digestMax := none, checkpointWait := false, step := k.step + 1 }
  let s := img.coreList.foldl (fun s c => s.restoreCore img k c) s
  let s := (s.modFab fun f => { f with receiving := [] }).modCad fun c => { c with votes := [], voted := false }
  s.finishCores img

/-- The steps from a checkpoint to `last` are to be replayed with the inputs listed (R302, R304). -/
def State.replayFrom (s : State) (k : Continuous) (last : W64) (inputs : List (W64 × W64)) : State :=
  let s := s.modProg fun p => { p with inputWant := [] }
  let wanted := inputs.filter fun i => decide (k.step.toNat < i.1.toNat) && decide (i.1.toNat ≤ last.toNat)
  let s := wanted.foldl State.requestInput s
  s.modProg fun p => { p with replayTo := if k.step.toNat < last.toNat then some last else none }

/-- The work of the step in progress dropped, the state of a checkpoint in force, and the steps since to be replayed with the own inputs
and those of ranks that this node takes (R242, R302, R304). -/
def State.rewind (s : State) (img : Image) (k : Continuous) (last : W64) (taken : List (W64 × W64)) : State :=
  (((s.abortStep img).applyState img k).replayFrom k last (s.prog.inputs ++ taken)).modProg fun p => { p with kept := some k }

/-! ### Cover mode begins (R302, R303) -/

/-- The node that takes a lost rank: the checkpointed partner that the lost node's last advertisement names. -/
def State.coverNode (s : State) (node : BitVec 16) : BitVec 16 :=
  ((s.fab.adverts.find? fun p => p.1.node = node).bind fun p => (p.1.bindings.find? fun b => b.2.1.getLsbD 1).map (·.1)).getD s.fab.nodeId

/-- The node of a rank, 0xFFFF for none. -/
def State.nodeOf (s : State) (r : BitVec 10) : BitVec 16 := ((s.fab.rankNode.find? fun x => x.1 = r).map (·.2)).getD 0xFFFF

/-- What this node holds for the node of a lost rank, which it takes with a pair image (R296, R302). -/
def State.pairOf (s : State) (r : BitVec 10) : Option Protected := s.fab.protects.find? fun p => p.node = s.nodeOf r ∧ p.cover = 2

/-- A node that runs a pair image restores the lost rank's checkpoint of step `st` and its continuous state from its mirror store (R302). -/
def State.restorePair (s : State) (st : W64) (r : BitVec 10) : State :=
  match (s.pairOf r).bind fun p => (p.states.find? fun x => x.1 = st).map fun x => (p, x.2) with
  | some (p, record) => s.modFab fun f => { f with pairState := f.pairState ++ [(r, p.gens.filter fun g => g.step = st, record)] }
  | none => s

/-- A rank is carried by another node from now on: by this one where it protects the lost node (R302). -/
def State.passRank (s : State) (r : BitVec 10) : State :=
  let old := s.nodeOf r
  let node := s.coverNode old
  let mine := s.fab.protects.any (·.node = old)
  let s := s.modFab fun f =>
    { f with rankNode := f.rankNode.map fun x => if x.1 = r then (r, node) else x, lost := f.lost.erase r,
             covering := if mine then f.covering ++ [r] else f.covering, cover := true }
  s.raise 0x0313 noCore [item r.toNat, item node.toNat]

/-- The continuous state that a member has of a checkpoint: its local copy, or the generation at its partner (R299, R302). -/
def State.stateOf (s : State) (st : W64) : Option Continuous :=
  (s.prog.kept.filter fun k => k.step = st).or (s.prog.keptShipped.filter fun k => k.step = st)

/-- RESUME goes out when the program root has begun cover mode: the first step is replayed on its receipt (R302). -/
def State.resumeNow (s : State) : State :=
  if s.isProgramRoot then (s.sendMembers (.resume (s.cad.frame + 1))).takeResume (s.cad.frame + 1) else s.enterHold

/-- A surviving member (R302, R304): its checkpoint of step `st` restored, the lost ranks passed on, the replay begun. -/
def State.beginCover (s : State) (img : Image) (st : W64) : State :=
  let n := s.prog.step
  let r := s.fab.recover.getD 0 0
  let gone := s.fab.recover.filter fun r => s.fab.lost.contains r
  let taken := (gone.filterMap s.pairOf).map fun p => inputsOf p.record
  match s.stateOf st, s.restoreSets img st none, s.prog.inputFull with
  | some k, some t, none =>
    let t := gone.foldl (fun t r => (t.restorePair st r).passRank r) (t.rewind img k n taken.flatten)
    let t := t.resumeNow
    if t.fab.covering = [] then t else t.advertise
  | some _, some _, some i => s.endMissing i
  | _, _, _ => s.endRecovery 0x020A [item r.toNat]

/-- The nodes of the peers of an image, as they advertise their ranks (R236). -/
def State.peerNodes (s : State) (img : Image) : List (BitVec 10 × BitVec 16) :=
  img.bounds.peers.filterMap fun p =>
    (s.advertisers img.bounds.programId p.1.toNat).head?.map fun n => (p.1, BitVec.ofNat 16 n)

/-- The units of a set written to their regions. -/
def State.writeSet (s : State) (img : Image) (g : SetGen) : State :=
  let us := s.setUnits img g.set
  g.units.foldl (fun s u => match us[u.1]? with
    | some a => s.dramWrite a u.2
    | none => s) s

/-- The generation of step `st` of every set of an image, where all are whole. -/
def State.wholeSets (s : State) (img : Image) (gens : List SetGen) (st : W64) : Option (List SetGen) :=
  let gs := (List.range (s.snapSets img)).map fun k => gens.find? fun g => g.set = k ∧ g.step = st ∧ g.whole
  if gs.all (·.isSome) then some (gs.filterMap id) else none

/-- A staged image begins to run as its rank (R302, R305): the regions and the continuous state of a boundary that came from another node
are in force, and the next step follows it (R133). No command of this host began it, so it has no program handle. -/
def State.adoptRank (s : State) (img : Image) (gens : List SetGen) (record : List Byte) : State :=
  let k := Continuous.ofRecord record
  let s := s.startProgram img 0 (s.peerNodes img)
  let s := gens.foldl (fun s g => s.writeSet img g) s
  let s := s.modProg fun p =>
    { p with phase := .steps, handle := none, staged := none, startedRel := true, committed := some k.step, inputs := inputsOf record,
             kept := some k }
  (s.applyState img k).advertise

/-- A STANDBY partner takes the lost rank from its own store: the checkpoint of step `st` and its continuous state, with the inputs that
the rank's latest record lists (R302, R304). -/
def State.standIn (s : State) (img : Image) (p : Protected) (st last : W64) : State :=
  match s.wholeSets img p.gens st, p.states.find? fun x => x.1 = st with
  | some gens, some (_, record) =>
    let r := img.bounds.rank
    let s := s.adoptRank img gens record
    let s := s.modFab fun f => { f with cover := true, covering := [r], recover := [r] }
    let s := (s.replayFrom (Continuous.ofRecord record) last (inputsOf p.record)).raise 0x0313 noCore [item r.toNat, item s.fab.nodeId.toNat]
    s.resumeNow
  | _, _ => s

/-- COVER_BEGIN (R302 to R304): the restores of the step that the recovery message named are complete. A member restores its checkpoint
and replays the steps since; a STANDBY partner takes the lost rank with its staged image. -/
def execCoverBegin (s : State) : Host.Outcome State Fault Refusal :=
  match s.fab.coverFrom with
  | none => .next s
  | some (step, last) =>
    let t := s.modFab fun f => { f with coverFrom := none }
    match s.domainProgram with
    | some img => act (s.cad.hold && s.restoring) s (t.beginCover img step)
    | none =>
      match s.prog.active, s.prog.staged, s.fab.protects.find? fun p => p.cover = 1 with
      | none, some img, some p => act (decide (1 < img.bounds.devices)) s (t.standIn img p step last)
      | _, _, _ => .next s

/-! ### Rejoin (R305) -/

/-- The covering node drops the rank: back to standby where it ran the rank's image alone, else to its own image. -/
def State.dropRank (s : State) (img : Image) (rank : BitVec 10) : State :=
  if img.bounds.rank = rank then
    let s := s.mapCores Core.stand
    let s := s.modProg fun p =>
      { Program.reset with staged := some img, rotationSteps := p.rotationSteps, sinceRotation := p.sinceRotation,
                           reserveLayout := p.reserveLayout, relocated := p.relocated, degraded := p.degraded, placed := p.placed }
    (s.modFab fun f =>
      { f with covering := [], cover := false, recover := [], rejoining := none, untimed := false, unspread := [], coverFrom := none }).advertise
  else (s.modFab fun f => { f with
                             covering := f.covering.erase rank, rejoining := none, pairState := f.pairState.filter fun x => x.1 ≠ rank }).advertise

/-- Program links whose lanes lead where the table says are in use again, on timed running (R291, R305). -/
def State.linksBack (s : State) (img : Image) : State :=
  let back := (s.linkEntries img).filter fun e =>
    match s.fab.rankNode.find? fun r => r.1.toNat == lPeer e with
    | some r => s.leadsTo ⟨lLane e % 64, Nat.mod_lt _ (by decide)⟩ r.2.toNat (lPeerLane e)
    | none => false
  let lanes := back.map lLane
  s.modFab fun f =>
    { f with failedEver := f.failedEver.filter fun l => !(back.map lLink).contains l,
             links := Vector.ofFn fun i : Fin 64 => if lanes.contains i.val then { f.links[i] with sched := true } else f.links[i] }

/-- A member sees the rank pass to the new module: the node that advertises it beside the one that covered it. -/
def State.rankBack (s : State) (img : Image) (rank : BitVec 10) : State :=
  let old := s.nodeOf rank
  let node := ((s.advertisers img.bounds.programId rank.toNat).find? (· ≠ old.toNat)).elim old (BitVec.ofNat 16)
  let s := s.modFab fun f =>
    { f with rankNode := f.rankNode.map (fun x => if x.1 = rank then (rank, node) else x), cover := f.recover.erase rank != [],
             untimed := false, recover := f.recover.erase rank, rejoining := none }
  (s.linksBack img).raise 0x0314 noCore [item rank.toNat, item old.toNat]

/-- The trim of a module that rejoins can be made (R256, R257). -/
def State.canTrim (s : State) (img : Image) : Bool :=
  let nodes := (s.peerNodes img).map (·.2.toNat)
  !s.trimOutside nodes && !s.skewTooWide (s.fab.nodeId.toNat :: nodes)

/-- What has come of a rejoin's shipment, where it is whole. -/
def State.shipped? (s : State) (img : Image) : Option (List SetGen × List Byte) :=
  s.fab.seedState.bind fun x => (s.wholeSets img s.fab.seedSets x.1).map fun gs => (gs, x.2)

/-- A device that lost a stack takes its rank again with the shipped state (R242, R305): the replay of the domain has done the steps since
the checkpoint, which one STEP_REPLAYED reports. -/
def State.takeBack (s : State) (img : Image) (gens : List SetGen) (record : List Byte) : State :=
  let k := Continuous.ofRecord record
  let first := (s.prog.kept.elim k.step (·.step)).toNat
  let s := gens.foldl (fun s g => s.writeSet img g) s
  let s := (s.applyState img k).modProg fun p =>
    { p with recovering := false, replayTo := none, awaiting := [], committed := some k.step, inputWant := [] }
  let s := s.modFab fun f => { f with seedSets := [], seedState := none }
  (s.raiseStep 0x030C noCore (item 0x16 :: item 0xFF :: (item2 first ++ item2 k.step.toNat))).enterHold

/-- COVER_END (R291, R305): the shipment is complete. The new module adopts the rank, its frame number aligned with the root's (R258), and
its SEED completes, with COVER_END naming the rank and the node that covered it; the covering node drops the rank; every member returns to timed running at the RESUME that the program root sends
after its next effective mark. A module whose links do not match the table cannot adopt. -/
def execCoverEnd (rank : BitVec 10) (s : State) : Host.Outcome State Fault Refusal :=
  match s.fab.seeding, s.prog.staged, s.prog.active with
  | some h, some img, none =>
    match s.shipped? img with
    | none => .next s
    | some (gens, record) =>
      if img.bounds.rank ≠ rank ∨ !s.cad.aligned ∨ s.badLink img (s.peerNodes img) ≠ none ∨ !s.canTrim img then .next s
      else
        let old := ((s.advertisers img.bounds.programId rank.toNat).find? (· ≠ s.fab.nodeId.toNat)).getD 0xFFFF
        let s := ((s.adoptRank img gens record).enterHold).raise 0x0314 noCore [item rank.toNat, item old]
        .next ((s.modFab fun f => { f with seeding := none, seedSets := [], seedState := none }).complete h 0 0 s.prog.step.toNat)
  | _, _, _ =>
    match s.domainProgram with
    | none => .next s
    | some img =>
      if s.prog.recovering ∧ img.bounds.rank = rank then
        match s.shipped? img with
        | some (gens, record) => .next (s.takeBack img gens record)
        | none => .next s
      else if !s.fab.cover ∨ !s.fab.recover.contains rank then .next s
      else if s.fab.covering.contains rank then
        .next (if img.bounds.rank = rank then (s.raise 0x0314 noCore [item rank.toNat, item s.fab.nodeId.toNat]).dropRank img rank
               else (s.dropRank img rank).rankBack img rank)
      else .next (s.rankBack img rank)

end Sys2Proof.Machine
end

