-- ==== Sys2Proof/Machine/Recovery.lean ====
section
/-!
DEFINITION. Recovery of the device itself: the loss of a memory stack (R242), the survey and its record (R228 to R231), the waking of
sites that sleep (R369), and the table of rails (R376).
-/

namespace Sys2Proof.Machine

/-! ### Rails (R375, R376) -/

/-- A rail: nominal voltage in mV, greatest current in 0.1 A, phases fitted, phases that carry the greatest current. Index 22 is the
first stage, with its converters. -/
structure Rail where
  nominal : Nat
  maxCurrent : Nat
  fitted : Nat
  needed : Nat
  deriving DecidableEq, Repr

def railOf (r : Nat) : Rail :=
  if r = 0 then { nominal := 650, maxCurrent := 7800, fitted := 18, needed := 16 }
  else if r ≤ 2 then { nominal := 750, maxCurrent := 240, fitted := 3, needed := 1 }
  else if r ≤ 6 then { nominal := 1050, maxCurrent := 640, fitted := 4, needed := 2 }
  else if r ≤ 10 then { nominal := 750, maxCurrent := 1400, fitted := 5, needed := 3 }
  else if r ≤ 14 then { nominal := 1800, maxCurrent := 100, fitted := 3, needed := 1 }
  else if r ≤ 16 then { nominal := 900, maxCurrent := 440, fitted := 4, needed := 2 }
  else if r ≤ 18 then { nominal := 1200, maxCurrent := 140, fitted := 3, needed := 1 }
  else if r = 19 then { nominal := 900, maxCurrent := 120, fitted := 3, needed := 1 }
  else if r = 20 then { nominal := 750, maxCurrent := 80, fitted := 3, needed := 1 }
  else if r = 21 then { nominal := 3300, maxCurrent := 40, fitted := 3, needed := 1 }
  else { nominal := 6000, maxCurrent := 0, fitted := 6, needed := 4 }

/-- Phases in service (R377). -/
def Power.phasesOk (p : Power) (r : Nat) : Nat := (railOf r).fitted - (p.shed.filter fun x => x.1.val == r).length

/-! ### The survey record (R231) -/

/-- STATE: not yet ready before start-up step 10, RECOVERING, DEGRADED, or READY (R231, R382). -/
def State.deviceState (s : State) : Nat :=
  if s.pwr.step < 10 then 3
  else if s.prog.recovering then 2
  else if s.prog.degraded ∨ s.offered < 192 then 1
  else 0

def stackCode : StackState → Nat
  | .service => 0 | .lost => 1 | .absent => 2

/-- PCIE_A and PCIE_B. -/
def portBits (p : PortState) : Nat := p.width.toNat + 2 ^ 5 * p.generation.toNat + if p.up then 2 ^ 8 else 0

/-- A figure in two's complement of 16 bits. -/
def int16 (x : Int) : Nat := (BitVec.ofInt 16 x).toNat

/-- The 256-byte header. -/
def State.surveyHeader (s : State) (m : Measures) : List Byte :=
  leBytes 256 (s.surveySeq.toNat + 2 ^ 32 * s.stamp.toNat + 2 ^ 96 * s.deviceState + 2 ^ 104 * s.guards + 2 ^ 112 * s.offered
    + 2 ^ 128 * m.inputMv.toNat + 2 ^ 144 * int16 s.mc.power.value + 2 ^ 160 * int16 s.mc.coolIn.value + 2 ^ 176 * int16 s.mc.coolOut.value
    + 2 ^ 192 * portBits s.host.portA + 2 ^ 201 * portBits s.host.portB + 2 ^ 224 * m.refPpb.toNat + 2 ^ 256 * s.cad.lastLen.toNat
    + 2 ^ 280 * s.cad.minLen.toNat + 2 ^ 304 * s.cad.maxLen.toNat + 2 ^ 328 * s.fab.nodeId.toNat)

def State.siteBytes (s : State) (i : SiteId) : List Byte :=
  let x := s.site i
  leBytes 4 (roleCode x.role + (if x.ceFlag then 2 ^ 2 else 0) + (if x.testOk then 2 ^ 3 else 0) + 2 ^ 4 * x.cause.toNat + 2 ^ 8 * s.carried i
    + 2 ^ 16 * x.transit.toNat)

def State.stackBytes (s : State) (k : StackId) : List Byte :=
  let x := s.stack k
  leBytes 32 (stackCode x.state + 2 ^ 8 * (BitVec.ofInt 8 (s.mc.stackT[k].value / 10)).toNat + 2 ^ 16 * x.badFrames.toNat
    + 2 ^ 32 * x.sparesLeft.toNat + 2 ^ 48 * x.softPending.toNat + 2 ^ 64 * x.lat.toNat + 2 ^ 128 * x.ce.toNat + 2 ^ 160 * x.ue.toNat)

def linkCode : LinkPhase → Nat
  | .up => 1 | .disabled => 2
  | .negotiating => 0 | .training => 0 | .locking => 0 | .records => 0 | .timing => 0 | .joining => 0 | .failed => 0 | .refused => 0

def State.linkBytes (s : State) (l : LaneId) : List Byte :=
  let x := s.link l
  let partner := if x.phase = .up then x.partner.toNat else 0xFFFF
  leBytes 32 (linkCode x.phase + 2 ^ 16 * partner + 2 ^ 32 * x.cable.toNat + 2 ^ 48 * x.latency.toNat + 2 ^ 64 * prSerial x.record.toNat
    + 2 ^ 128 * x.fecCorr.toNat + 2 ^ 160 * x.fecUncorr.toNat)

def State.railBytes (s : State) (r : Fin 22) : List Byte :=
  leBytes 8 (int16 s.mc.rails[r].value + 2 ^ 16 * int16 s.mc.railsCurrent[r].value + 2 ^ 32 * s.pwr.phasesOk r.val + 2 ^ 40 * (railOf r.val).fitted)

def padTo (n : Nat) (b : List Byte) : List Byte := b ++ List.replicate (n - b.length) 0

/-- The 8,192 bytes. -/
def State.surveyBytes (s : State) (m : Measures) : List Byte :=
  let b := padTo 1280 (s.surveyHeader m ++ (allSites.map s.siteBytes).flatten)
  let b := padTo 2048 (b ++ (allStacks.map s.stackBytes).flatten)
  let b := padTo 8188 (b ++ (allLanes.map s.linkBytes).flatten ++ ((List.finRange 22).map s.railBytes).flatten)
  b ++ leBytes 4 (crc32 b)

/-! ### The survey (R228 to R230) -/

/-- The measured figures taken into the state; a new latency of an up link is advertised (R285). -/
def State.takeMeasures (s : State) (m : Measures) : State :=
  let stated := m.linkLatency.any fun x => (s.link x.1).phase == .up && (s.link x.1).latency != x.2
  let s := m.siteTransit.foldl (fun s x => s.modSite x.1 fun y => { y with transit := x.2 }) s
  let s := m.stackLat.foldl (fun s x => s.modStack x.1 fun y => { y with lat := x.2 }) s
  let s := m.linkLatency.foldl (fun s x => s.modLink x.1 fun y => { y with latency := x.2 }) s
  let s := m.linkCable.foldl (fun s x => s.modLink x.1 fun y => { y with cable := x.2 }) s
  let s := m.linkFec.foldl (fun s x => s.modLink x.1 fun y => { y with fecCorr := x.2.1, fecUncorr := x.2.2 }) s
  if stated then s.advertise else s

/-- A path of the running program over an own link that exceeds the bound of its peer: the figure and the bound (R230, R236). -/
def State.linkOverBound (s : State) (img : Image) (link : Nat) : Option (Nat × Nat) :=
  (s.slotsUsed img).findSome? fun x =>
    let e := x.2
    (img.bounds.peers.find? fun p => p.1.toNat = xPeer e).bind fun p =>
      let on := fun (path bound : Nat) =>
        if (pathLinks (s.pathEntry img path)).contains link ∧ bound < s.pathLatency img path then some (s.pathLatency img path, bound)
        else none
      (on (xPath e) p.2.1.toNat).orElse fun _ => on (xAltPath e) p.2.2.toNat

/-- R230, R241: a link over its bound is treated as failed from the next boundary on: LATENCY_BOUND_EXCEEDED names it with both figures,
and a fault is recorded against the step, whose replay takes the alternates; a site whose worst transit exceeds
SPINE_BOUND records a core fault with detail SPINE_TRANSIT. -/
def State.compareBounds (s : State) (img : Image) : State :=
  let s := (s.linkEntries img).foldl (fun s e =>
    let l : LaneId := ⟨lLane e % 64, Nat.mod_lt _ (by decide)⟩
    match s.linkOverBound img (lLink e) with
    | some (a, b) =>
      if (s.link l).overBound then s
      else ((s.modLink l fun k => { k with overBound := true }).raiseDev 0x0407 [item l.val, item a, item b]).failLane l
    | none => s) s
  img.coreList.foldl (fun s c =>
    if img.bounds.spineBound < (s.site (s.core c).site).transit.toNat then s.coreFault c 6 none else s) s

/-- A waiting SURVEY command: the record goes to HOST_ADDR unless that is 0 (R229, R323, R324). -/
def State.answerSurvey (s : State) (errorAt : Option Nat) (h : Handle) : State :=
  match s.running? h with
  | none => s
  | some e =>
    let a := fld e.body.toNat 0 64
    if a = 0 then s.complete h 0 0 s.surveySeq.toNat else s.toHost h a s.surveyRec errorAt s.surveySeq.toNat

/-- The start-up survey applies CORE_REPAIR to every site (R10, R342). -/
def State.applyRepairs (s : State) : State :=
  { s with sites := Vector.ofFn fun (i : SiteId) => { s.sites[i] with repair := BitVec.ofNat 32 (fld s.mc.fuses.toNat (2048 + 32 * i.val) 32) } }

/-- SURVEY_COMPLETE (R228 to R231, R241, R382): the figures are taken, the record is written, the commands that wait complete; during
start-up it ends step 7, later the running program's bounds are checked. -/
def execSurveyComplete (m : Measures) (s : State) : Host.Outcome State Fault Refusal :=
  if !s.pwr.main ∨ !s.host.surveyRunning ∨ s.clk.lost then .next s
  else
    let s := s.takeMeasures m
    let s := { s with surveySeq := s.surveySeq + 1 }
    let s := { s with surveyRec := s.surveyBytes m }
    let waiting := s.host.surveyWaiting
    let s := s.modHost fun h => { h with surveyRunning := false, surveyWaiting := [] }
    let s : State := waiting.foldl (fun (s : State) h => s.answerSurvey m.hostErrorAt h) s
    if s.pwr.step = 6 then .next (s.applyRepairs.modPwr fun p => { p with step := 7, surveyed := true })
    else match s.prog.active with
      | some img => .next (s.compareBounds img)
      | none => .next s

/-! ### The loss of a memory stack (R241, R242) -/

/-- The content of a stack's units is lost; reads of them are undefined until they are written. -/
def State.loseUnits (s : State) (x : StackId) : State :=
  { s with dram := s.dram.filter fun c => c.1 / unitBytes % 20 ≠ x.val,
           dramEpoch := s.dramEpoch.set x.val (s.dramEpoch[x] + 1),
           poison := s.poison.filter fun u => u / 8192 % 20 ≠ x.val }

/-- The checkpoint to which a program with a lost stack goes back: the last full one that is complete at the partner, whose copies stand
in for those on the lost stack; none where there is none (DEDUCED, log entry 39). -/
def State.lastAtPartner (s : State) (img : Image) : Option Continuous :=
  if !(s.fab.bindings.any (·.checkpointed)) then none
  else (s.prog.kept.filter fun k => s.atPartner img k.step).or (s.prog.keptShipped.filter fun k => s.atPartner img k.step)

/-- The program goes back to that checkpoint on the relocated layout: units whose local copy lay on the lost stack come from the partner. -/
def State.restoreStack (s : State) (img : Image) (x : StackId) : Option State :=
  (s.lastAtPartner img).bind fun k =>
    (s.restoreSets img k.step (some x)).map fun t => t.rewind img k (if s.prog.released then s.prog.step else s.prog.step - 1) []

/-- The placement after a loss for which no program stays active: a staged image that has the reserve is placed in the relocated layout
(R233, R235). -/
def State.relocateStaged (s : State) (x : StackId) : State :=
  match s.prog.staged with
  | some img => if img.bounds.memReserve ∧ s.prog.relocated.isNone then s.modProg fun p => { p with relocated := some x } else s
  | none => s

/-- What a program does at the loss (R241, R242): the step in progress is discarded, which STEP_REPLAYED reports, and in a domain the
partner covers the rank (R301). Without the reserve, or with nothing to restore, the program ends with STACK_LOST; otherwise the units
of the stack move to the reserve and the checkpoint is restored. A device alone replays the steps since; in a domain the members do, and
the device takes its rank back afterwards (R305). -/
def State.programStackLost (s : State) (img : Image) (x : StackId) : State :=
  let s := if s.prog.phase = .steps ∧ !img.direct then s.raiseStep 0x030C noCore [item 0x15, item x.val] else s
  let multi := decide (1 < img.bounds.devices)
  let s := if multi then s.sendMembers (.leave img.bounds.rank) else s
  let ended := fun (s : State) => (s.relocateStaged x).endProgram 0x0208 x.val none
  if img.direct ∨ !img.bounds.memReserve ∨ s.prog.relocated.isSome ∨ s.prog.phase ≠ .steps then ended s
  else
    let s := s.modProg fun p => { p with relocated := some x, recovering := true }
    match s.prog.inputFull, s.restoreStack img x with
    | some i, some s => if multi then s else (s.modProg fun p => { p with recovering := false }).endMissing i
    | none, some s => if multi then s.modProg fun p => { p with replayTo := none, inputWant := [] } else s
    | _, none => ended (s.modProg fun p => { p with recovering := false })

/-- A stack leaves service (R231, R233, R242). -/
def State.loseStack (s : State) (x : StackId) : State :=
  let s := s.loseUnits x
  let s := match s.prog.relocated with
    | some y => s.loseUnits y
    | none => s
  let s := (s.modStack x fun k => { k with state := .lost, selfRefresh := true }).raiseDev 0x0405 [item x.val]
  match s.prog.active with
  | some img => s.programStackLost img x
  | none => s.relocateStaged x

/-- STACK_LOST (R241, R242): the PHY fails its retrainings, the temperature passes its limit, or sixteen rows have shown uncorrectable
errors within 100,000,000 ticks. -/
def execStackLost (stack : StackId) (cause : StackLossCause) (s : State) : Host.Outcome State Fault Refusal :=
  let k := s.stack stack
  let found := match cause with
    | .uncorrectableRows => decide (16 ≤ k.ueCount s.now)
    | .phyFailed => true
    | .overTemperature => true
  act (s.pwr.main && k.state == .service && found) s (s.loseStack stack)

/-- RECOVERY_REPLAY_DONE (R242, R305): the replay has caught up; one STEP_REPLAYED with cause STACK_LOST_RESTORE names the checkpoint
step and the last step replayed, and the device is READY again. In a domain the device, restored, asks the program root for its rejoin. -/
def execRecoveryReplayDone (s : State) : Host.Outcome State Fault Refusal :=
  match s.prog.active, s.prog.kept with
  | some img, some k =>
    if !s.prog.recovering ∨ s.replaying ∨ s.prog.awaiting ≠ [] then .next s
    else if 1 < img.bounds.devices then
      .next (match leastOf (s.otherMembers.map (·.toNat)) with
        | some n => s.sendDyn (BitVec.ofNat 16 n) .device (.rejoin img.bounds.rank s.fab.nodeId)
        | none => s)
    else
      let last := (s.prog.replayTo.getD k.step).toNat
      let s := s.modProg fun p => { p with recovering := false, replayTo := none }
      .next (s.raiseStep 0x030C noCore (item 0x16 :: item 0xFF :: (item2 k.step.toNat ++ item2 last)))
  | _, _ => .next s

/-! ### Waking (R369) -/

/-- CORE_WAKE: from tick R − 2 − ⌈S / 25⌉ on, sleeping sites start their clocks, at most 25 in one tick. -/
def execCoreWake (s : State) : Host.Outcome State Fault Refusal :=
  match s.prog.active with
  | none => .next s
  | some img =>
    let xs := img.coreList.filter fun c => (s.core c).asleep
    let n := if s.prog.woken.1 = s.now then s.prog.woken.2 else 0
    let now := xs.take (25 - n)
    act (s.pwr.main && !s.clk.lost && !s.clk.returning && xs != []
        && (s.wakePassed img xs 1 || s.replaying || s.fab.untimed || s.fab.cover || s.cad.resumeFrame.isSome)) s
      ((now.foldl (fun s c => s.modCore c fun k => { k with asleep := false }) s).modProg fun p =>
        { p with woken := (s.now, n + now.length) })

end Sys2Proof.Machine
end

