-- ==== Sys2Proof/Machine/Firmware.lean ====
section
/-!
DEFINITION. The status header that host and MC share (R311), when the MC serves (R331, R335, R343, R353, R370 to R372), and the answers of
the sideband (R340).
-/

namespace Sys2Proof.Machine

/-! ### The status header (R311) -/

def flag (b : Bool) (bit : Nat) : Nat := if b then 2 ^ bit else 0

/-- HANDLES_FREE. -/
def HostIf.handlesFree (h : HostIf) : Nat := 4096 - h.handles.countP fun e => e.phase ≠ .free

/-- The fields that the Binder maintains as they are while it runs: those of its image, its handles, events and programs (R311 does not
list them: DEDUCED, log entry 70). -/
def State.binderFields (s : State) : Nat :=
  2 ^ 8 * s.host.ifLevel.toNat + 2 ^ 16 * s.deviceState + flag s.prog.active.isSome 19 + flag s.prog.staged.isSome 20
    + flag (allCores.any fun c => (s.core c).needle.elasticOn) 22 + 2 ^ 32 * s.host.handlesFree + 2 ^ 64 * s.host.eventSeq.toNat
    + 2 ^ 96 * s.host.binderRestarts.toNat + 2 ^ 192 * s.host.stepDone.toNat

/-- The Binder goes down: the fields that it maintains hold their last values. -/
def State.binderDown (s : State) : State := s.modHost fun h => { h with binderUp := false, header := BitVec.ofNat 256 s.binderFields }

/-! ### When the MC serves (R331, R335, R343, R353, R370 to R372) -/

/-- The sideband is served, by the firmware or by the mask-ROM loader in recovery (R353). -/
def State.sidebandUp (s : State) : Bool :=
  s.standbyClocks && (s.mc.up || s.mc.recovery) && s.host.gate .mcSideband == .opened

/-- Monitoring goes on in every life-cycle state, in DECOMMISSIONED by the loader that no image follows (R343), and not in recovery
otherwise (R353). -/
def State.monitors (s : State) : Bool := s.standbyClocks && (s.mc.up || (s.mc.recovery && s.mc.lifeCycle == .decommissioned))

/-- Messages that only the firmware serves, and not in DECOMMISSIONED (R343, R353). -/
def State.sideband (s : State) : Bool := s.sidebandUp && s.mc.up && s.mc.lifeCycle != .decommissioned

def State.answer (s : State) (a : Answer) : State := s.modMc fun m => { m with answer := some a }

/-- A message done or accepted. -/
def State.accept (s : State) (code : Nat) : State := s.answer (.result (BitVec.ofNat 8 code) 0)

/-- A message refused (R340, R344): REQUEST_REFUSED is logged and the answer gives the reason, a figure that the manual does not number
(log entry 7), other than 0 and 1. -/
def State.refuse (s : State) (code reason : Nat) : State :=
  let r := 2 + Config.figure 6 reason % 254
  (s.log 0x050D [item code, item r]).answer (.result (BitVec.ofNat 8 code) (BitVec.ofNat 8 r))

end Sys2Proof.Machine
end

