-- ==== Sys2Proof/Machine/Bar0.lean ====
section
/-!
DEFINITION. What a host reads: the configuration space's constants (R307), TAKEOVER (R308) and every byte of BAR0 (R5 to R7, R251, R252,
R310 to R321, R339). Layouts that the manual does not give are log entry 70's.
-/

namespace Sys2Proof.Machine

/-! ### Configuration space (R307, R308) -/

/-- The function that both ports present. -/
def classCode : Nat := 0x12_0000
def deviceIdCode : Nat := 0x5020

/-- Vendor and subsystem IDs (R399). -/
def vendorIdCode : Nat := 0x1F3D
def subsystemVendorCode : Nat := 0x1F3D
def subsystemIdCode : Nat := 0x0001
def bar0Size : Nat := 2 ^ 20
def maxPayload : Nat := 512
def maxReadRequest : Nat := 4096
def msixVectors : Nat := 64

/-- Where the AER capability stands in the extended configuration space: a free value (log entry 7). -/
def aerOffset : Nat := 0x500 + 4 * (Config.figure 9 0 % 0x2B0)

/-- TAKEOVER at configuration offset 0x0408 of a port: the WO bit reads 0 (R7, R308). -/
def State.takeoverRead (s : State) (port : PciePort) : W32 := BitVec.ofNat 32 (2 * (s.host.port port).result.toNat)

/-- A port answers configuration requests: hardware serves them from main-domain power-up (R307), on the active port with Request Retry
Status until the interface is usable (R309). -/
def State.configServed (s : State) (port : PciePort) : Bool :=
  s.pwr.main && (s.host.port port).up && (port != s.host.activePort || s.host.usable)

/-- A 32-bit word of a port's configuration space; none for Request Retry Status. The places of the standard header and of the
capabilities are PCI Express's (PRESUMED, log entry 6), and what the manual does not give of them is a free value. BAR0 and BAR2 are
64-bit memory BARs, the second prefetchable. -/
def State.configRead (s : State) (port : PciePort) (offset : Nat) : Option W32 :=
  if !s.configServed port then none
  else some (BitVec.ofNat 32 (
    if offset = 0x00 then vendorIdCode + 2 ^ 16 * deviceIdCode
    else if offset = 0x08 then (s.free 0).toNat % 256 + 2 ^ 8 * classCode
    else if offset = 0x10 then 4 else if offset = 0x18 then 12
    else if offset = 0x14 ∨ offset = 0x1C then (s.free 1).toNat
    else if offset = 0x20 ∨ offset = 0x24 ∨ offset = 0x30 then 0
    else if offset = 0x2C then subsystemVendorCode + 2 ^ 16 * subsystemIdCode
    else if offset = 0x400 then 0x000B + 2 ^ 16 * ((s.free 2).toNat % 2 ^ 16)
    else if offset = 0x404 then 1 + 2 ^ 16 * ((s.free 3).toNat % 2 ^ 16)
    else if offset = 0x408 then (s.takeoverRead port).toNat
    else if offset = aerOffset + 4 then s.host.aer.toNat
    else (s.free (offset + 4)).toNat))

/-! ### Status block (R251, R252, R311, R321) -/

/-- The status header (R311): hardware's own fields, and those that the Binder maintains, at their last values while it is down. -/
def State.headerBytes (s : State) : List Byte :=
  leBytes 32 (stepping + flag s.host.binderUp 18 + flag s.host.portBActive 21 + 2 ^ 128 * s.mc.serial
    + if s.host.binderUp then s.binderFields else s.host.header.toNat)

/-- CADENCE_LO, CADENCE_HI as latched, CAD_STATUS, CAD_EVENTS (R251). -/
def Cadence.statusBytes (c : Cadence) : List Byte :=
  leBytes 4 c.counter.toNat ++ leBytes 4 c.hiLatch.toNat
    ++ leBytes 4 (flag c.valid 0 + flag c.aligned 1 + flag c.trimmed 2 + flag c.hold 3 + 2 ^ 4 * c.trim.toNat) ++ leBytes 4 c.events.toNat

/-- An entry of the frame ring (R252). -/
def FrameEntry.bytes (e : FrameEntry) : List Byte :=
  leBytes 8 (e.length.toNat + flag e.synth 24 + flag e.short 25 + flag e.long 26 + flag e.spurious 27 + flag e.gap 28
    + 2 ^ 32 * (e.frame.toNat % 2 ^ 32))

/-- Entry `k` of the frame ring; an entry never written is 0 (R252). -/
def Cadence.ringBytes (c : Cadence) (k : Nat) : List Byte :=
  match c.ring.find? fun e => e.frame.toNat % 256 = k with
  | some e => e.bytes
  | none => List.replicate 8 0

/-- The 64 bytes of an event record (R321). -/
def EventRec.bytes (e : EventRec) : List Byte :=
  let it := fun k => leBytes 4 ((e.items[k]?).getD 0).toNat
  leBytes 2 e.code.toNat ++ [e.core, e.repeats] ++ leBytes 4 e.seq.toNat ++ leBytes 8 e.step.toNat
    ++ ((List.range 4).map it).flatten
    ++ match e.record with
      | some r => leBytes 32 r.toNat
      | none => ((List.range 8).map fun k => it (4 + k)).flatten

/-- Record `k` of the event area: the newest event whose SEQUENCE has that place (R321). -/
def HostIf.recordBytes (h : HostIf) (k : Nat) : List Byte :=
  match h.records.find? fun e => e.seq.toNat % 512 = k with
  | some e => e.bytes
  | none => List.replicate 64 0

/-! ### Interrupts and rings (R314, R318, R320) -/

def Mailbox.doorbell (m : Mailbox) : List Byte := leBytes 8 (m.tail.toNat + 2 ^ 32 * m.head.toNat)

def RingRegs.bytes (r : RingRegs) : List Byte :=
  leBytes 32 (r.base.toNat + 2 ^ 64 * r.log2Size.toNat + flag r.enable 72 + 2 ^ 128 * r.head.toNat + 2 ^ 160 * r.tail.toNat)

def RingRegs.controlBytes (r : RingRegs) : List Byte :=
  leBytes 8 (r.vector.toNat + 2 ^ 8 * r.count.toNat + 2 ^ 16 * r.delay.toNat)

/-! ### The gated pages (R312, R339) -/

/-- The gate of the page that holds an offset. -/
def pageGate (a : Nat) : Option Gate :=
  if a / 0x1_0000 = 4 then some .sensorPage else if a / 0x1_0000 = 5 then some .logPage
  else if a / 0x1_0000 = 6 then some .tracePage else none

/-- Byte `k` of a list; 0 beyond it (reserved, R6). -/
def byteAt (b : List Byte) (k : Nat) : Byte := (b[k]?).getD 0

/-- SENSOR_PAGE as last refreshed: 116 temperatures, 22 rail entries from 0x100, power and coolant from 0x200 (R231, R312, R336). -/
def sensorBytes (page : List Int) (k : Nat) : Byte :=
  let fig := fun i => int16 ((page[i]?).getD 0)
  if k < 232 then byteAt (leBytes 2 (fig (k / 2))) (k % 2)
  else if 0x100 ≤ k ∧ k < 0x1B0 then
    let r := (k - 0x100) / 8
    byteAt (leBytes 8 (fig (116 + 4 * r) + 2 ^ 16 * fig (117 + 4 * r) + 2 ^ 32 * (fig (118 + 4 * r) % 2 ^ 8)
      + 2 ^ 40 * (fig (119 + 4 * r) % 2 ^ 8))) (k % 8)
  else if 0x200 ≤ k ∧ k < 0x206 then byteAt (leBytes 2 (fig (204 + (k - 0x200) / 2))) (k % 2)
  else 0

/-- LOG_NEWEST: the SEQUENCE of the newest entry in flash. -/
def Mc.logNewest (m : Mc) : Nat := (m.flashLog.head?).elim 0 (·.seq.toNat)

/-- LOG_PAGE: LOG_NEWEST, LOG_BASE and 960 entries from entry LOG_BASE; one not yet written or overwritten, or whose CRC fails, reads as
zero (R312, R339). -/
def State.logBytes (s : State) (k : Nat) : Byte :=
  if k < 8 then byteAt (leBytes 8 s.mc.logNewest) k
  else if k < 16 then byteAt (leBytes 8 s.host.logBase.toNat) (k - 8)
  else if k < 0x1000 then 0
  else
    match s.mc.flashLog.find? fun e => e.seq.toNat = s.host.logBase.toNat + (k - 0x1000) / 64 with
    | some e => if e.crcOk then byteAt e.bytes (k % 64) else 0
    | none => 0

def TraceEntry.bytes (e : TraceEntry) : List Byte :=
  leBytes 4 e.handle.toNat ++ [e.opcode, BitVec.ofNat 8 e.mailbox.val] ++ leBytes 2 e.status.toNat ++ leBytes 4 e.seq.toNat
    ++ leBytes 4 0 ++ leBytes 8 e.takenCadence.toNat ++ leBytes 8 e.doneCadence.toNat

/-- Place `i` of TRACE_PAGE: of the last 2,048 commands taken, the one whose number is `i` modulo 2,048 (R312). -/
def HostIf.traceBytes (h : HostIf) (i : Nat) : List Byte :=
  let back := (h.takeNo + 2047 - i) % 2048
  match h.trace[back]? with
  | some e => e.bytes
  | none => List.replicate 32 0

/-! ### A read of BAR0 (R6, R7, R310) -/

/-- Status block, offset from 0x0002_0000. -/
def State.statusByte (s : State) (k : Nat) : Byte :=
  if k < 0x20 then byteAt s.headerBytes k
  else if 0x100 ≤ k ∧ k < 0x110 then byteAt s.cad.statusBytes (k - 0x100)
  else if 0x800 ≤ k ∧ k < 0x1000 then byteAt (s.cad.ringBytes ((k - 0x800) / 8)) (k % 8)
  else if 0x8000 ≤ k then byteAt (s.host.recordBytes ((k - 0x8000) / 64)) (k % 64)
  else 0

/-- Interrupt block, offset from 0x0003_0000. -/
def HostIf.interruptByte (h : HostIf) (k : Nat) : Byte :=
  if k < 0x400 then byteAt (leBytes 16 (h.msixTable.getD (k / 16) msixReset).toNat) (k % 16)
  else if 0x800 ≤ k ∧ k < 0x808 then byteAt (leBytes 8 h.pba.toNat) (k - 0x800)
  else if 0x1000 ≤ k ∧ k < 0x1040 then byteAt (h.rings.getD ((k - 0x1000) / 8) (RingRegs.reset 0)).controlBytes (k % 8)
  else if k = 0x1040 then BitVec.ofNat 8 h.eventRing.val
  else 0

/-- The byte at an offset of BAR0, whatever its gate; reserved offsets read 0. -/
def State.bar0Byte (s : State) (a : Nat) : Byte :=
  let h := s.host
  let k := a % 0x1_0000
  match a / 0x1_0000 with
  | 0 => Mem.get zeroByte (h.mailboxes.getD (k / 8192) Mailbox.reset).sram (k % 8192)
  | 1 =>
    if k < 0x40 then byteAt (h.mailboxes.getD (k / 8) Mailbox.reset).doorbell (k % 8)
    else if 0x100 ≤ k ∧ k < 0x200 then byteAt (h.rings.getD ((k - 0x100) / 32) (RingRegs.reset 0)).bytes (k % 32)
    else 0
  | 2 => s.statusByte k
  | 3 => h.interruptByte k
  | 4 => sensorBytes s.mc.page k
  | 5 => s.logBytes k
  | 6 => byteAt (h.traceBytes (k / 32)) (k % 32)
  | 7 => if k = 0 then BitVec.ofNat 8 (flag (h.gate .sensorPage = .opened) 0 + flag (h.gate .logPage = .opened) 1
      + flag (h.gate .tracePage = .opened) 2) else 0
  | _ => 0

/-- Whether a request to an offset is served: its page is open (R312). -/
def State.pageServed (s : State) (a : Nat) : Bool :=
  match pageGate a with
  | some g => s.host.gate g == .opened
  | none => true

/-- What a host's read of `n` bytes at `a` returns: none for a Completer Abort (R309, R312). -/
def State.bar0Read (s : State) (a n : Nat) : Option (List Byte) :=
  if s.served ∧ s.pageServed a ∧ s.pageServed (a + n - 1) then some ((List.range n).map fun i => s.bar0Byte (a + i)) else none

/-- CADENCE_LO_READ (R251): the lower half is returned and the upper half latched. -/
def execCadenceLoRead (s : State) : Host.Outcome State Fault Refusal :=
  act s.served s <|
    (s.modHost fun h => { h with readData := s.bar0Read 0x2_0100 4 }).modCad fun c =>
      { c with hiLatch := BitVec.ofNat 32 (c.counter.toNat / 2 ^ 32) }

end Sys2Proof.Machine
end

