-- ==== Sys2Proof/Machine/CheckPlan.lean ====
section
/-!
DEFINITION. The loader's checks 6 to 11 and 14 to 16 (R122, R131, R134, R148, R151, R159, R161, R162, R182, R218, R234, R235, R237, R292,
R298): recipe and variants, sections, kettle totals, random streams, footprints, link slots, frames and placement.
-/

namespace Sys2Proof.Machine

/-! ### Check 6: the recipe (R119 to R122), the saved steering state (R134), variants (R148) -/

/-- A mode field holds a code that R121 does not reserve. -/
def modeFieldOk (x : Nat) : Bool := x == 0 || (modeOf x).isSome

/-- A recipe entry that R122 does not refuse. -/
def entryOk (e : Nat) : Bool :=
  let n := rNvar e
  let levels := (List.range (n + 1)).map (rMode e)
  onlyFields e [(0, 14), (16, 10), (32, 112)] && decide (n ≤ 2) && ([0, 1, 2].all fun l => modeFieldOk (rMode e l))
    && levels.all (· != 0) && decide (levels.dedup.length = n + 1)
    && ([1, 2].all fun l => decide (l ≤ n) || rMode e l == 0)
    && decide (1 ≤ rRange e) && decide (rRange e ≤ 47) && decide (1 ≤ rH e) && (n != 2 || decide (rExtra e 1 ≤ rExtra e 2))

/-- The recipe header and every entry. -/
def State.checkRecipe (s : State) (img : Image) : Option Verdict :=
  let h := s.dramNat (img.addr + img.recipeOff) 64
  let n := fld h 0 16
  firstOf
    [ need (img.recipeOff != 0 && decide (img.recipeOff + 64 ≤ img.len) && onlyFields h [(0, 24), (32, 24)] && fld h 16 8 == 1
        && decide (1 ≤ n) && decide (n ≤ 4096) && decide (img.recipeOff + 64 + 64 * n ≤ img.len)) wide headIndex,
      eachOf n fun l => need (entryOk (s.rawEntry img l)) wide l ]

/-- The saved steering-state image (R134). -/
def State.checkSteer (s : State) (img : Image) : Option Verdict :=
  if img.steerOff = 0 then none
  else
    let a := img.addr + img.steerOff
    let h := s.dramNat a 64
    let n := s.recipeCount img
    firstOf
      [ need (decide (img.steerOff + 64 + 320 * fld h 0 16 ≤ img.len) && fld h 16 16 == 0 && fld h 96 384 == 0
          && fld h 0 16 == n && crc32 (s.dramRead (a + 64) (320 * fld h 0 16) ++ s.dramRead a 60) == fld h 480 32) wide headIndex,
        eachOf n fun l =>
          let e := s.dramNat (a + 64 + 320 * l) 320
          need (steerReserved e == 0 && decide (fld e 0 2 ≤ rNvar (s.rawEntry img l)) && decide (fld e 68 5 ≤ 16)) wide l ]

/-- Templates that RUN words of the step schedules of a core name (R148). -/
def State.runNamed (s : State) (img : Image) (c : Nat) : List Nat :=
  ((([1, 2].map fun p => (s.sectionWords img c p).filter fun w => wOp w == 0x10).flatten).map fun w => fld w 16 8).dedup

/-- The template of a variant level. -/
def tVar (t level : Nat) : Nat := if level = 1 then tVar1 t else tVar2 t

/-- One variant of template ti for a level that its layer allows: a missing one is refused with the recipe entry, the layer (R122,
R148). -/
def State.checkVariant (s : State) (img : Image) (e c t level : Nat) : Option Verdict :=
  if rNvar e < level then none
  else
    let v := s.rawTemplate img c (tVar t level)
    firstOf
      [ deny (tVar t level != 0xFF) 0x0105 wide (tLayer t),
        need (tLayer v == tLayer t && tKind v == tKind t && (tKind v != 0 || tMode v == rMode e level)) c (tVar t level) ]

/-- LAYER and variants of every template of a core under the entries given (R122, R148). -/
def State.checkLayers (s : State) (img : Image) (entry : Nat → Option Nat) (c : Nat) : Option Verdict :=
  let named := s.runNamed img c
  eachOf (s.part img c 5).2 fun ti =>
    let t := s.rawTemplate img c ti
    if tLayer t = 0xFFFF then need (tVar1 t == 0xFF && tVar2 t == 0xFF) c ti
    else match entry (tLayer t) with
      | none => need false c ti
      | some e =>
        if named.contains ti then firstOf [s.checkVariant img e c t 1, s.checkVariant img e c t 2] else none

def State.entryAt (s : State) (img : Image) (l : Nat) : Option Nat :=
  if l < s.recipeCount img then some (s.rawEntry img l) else none

def State.check6 (s : State) (img : Image) : Option Verdict := firstOf
  [s.checkRecipe img, s.checkSteer img, eachOf img.cores (s.checkLayers img (s.entryAt img))]

/-! ### Check 7 (R131) and check 8 (R182) -/

def State.check7 (s : State) (img : Image) : Option Verdict :=
  eachOf img.cores fun c => deny ((s.part img c 1).2 != 0) 0x0106 c 0

/-- The templates that a RUN may run: by level in the warm schedule (part 2), the template itself elsewhere (R148). -/
def State.runLevels (s : State) (img : Image) (c part ti : Nat) : List Nat :=
  let t := s.rawTemplate img c ti
  match (if part = 2 then s.entryAt img (tLayer t) else none) with
  | some e => ti :: ((List.range (rNvar e)).map fun l => tVar t (l + 1)).filter (· != 0xFF)
  | none => [ti]

/-- The resident streams that a RUN uses, those of PEEL tails among them (R146, R147). -/
def State.runStreams (s : State) (img : Image) (c part ti : Nat) : List Nat :=
  let ts := (s.runLevels img c part ti).map (s.rawTemplate img c)
  let ps := (ts.filter fun t => tPeel t != 0xFF).map fun t => s.rawTemplate img c (tPeel t)
  ((ts ++ ps).filter fun t => tKind t == 0).map tResStream

/-- A pinned word that arms a paged stream or runs a template whose stream is paged (R182). -/
def State.armsPaged (s : State) (img : Image) (c part w : Nat) : Bool :=
  let used := if wOp w = 0x11 then [fld w 16 6] else if wOp w = 0x10 then s.runStreams img c part (fld w 16 8) else []
  used.any fun i => sPaged (s.rawStream img c i)

def State.check8 (s : State) (img : Image) : Option Verdict :=
  eachOf img.cores fun c => eachOf 3 fun p =>
    ((s.sectionWords img c p).zipIdx).findSome? fun x => deny (!s.armsPaged img c p x.1) 0x0107 c x.2

/-! ### Check 9: kettle IDs (R151) -/

/-- The kettle IDs that a word names, for itself or through its stream or templates, with the counter's core and the most that one
execution can add (R143, R147, R151, R170): a RUN signals for one template of those that it may run in its section (R148). -/
def State.kettleUses (s : State) (img : Image) (c part w : Nat) : List (Nat × Nat × Nat) :=
  if wOp w = 0x20 then [(if fld w 24 8 = 0xFF then c else fld w 24 8, fld w 16 8, fld w 32 16)]
  else if wOp w = 0x21 then [(c, fld w 16 8, 0)]
  else if isFabric w then [(c, fld w 32 8, 1)]
  else if wOp w = 0x11 then
    let e := s.rawStream img c (fld w 16 6)
    if sDeliverEn e then [(c, sDeliverId e, if sSignalEach e then fld w 64 32 else 1)] else []
  else if wOp w = 0x10 then
    ((((s.runLevels img c part (fld w 16 8)).map (s.rawTemplate img c)).filter tDoneEn).map tDoneId).dedup.map fun i => (c, i, 1)
  else []

def State.checkIds (s : State) (img : Image) (c p : Nat) : Option Verdict :=
  ((s.sectionWords img c p).zipIdx).findSome? fun x =>
    deny ((s.kettleUses img c p x.1).all fun u => decide (224 ≤ u.2.1) == (p == 3)) 0x0108 c x.2

/-- What the words of a section of all cores can add in one run of it: counter's core, ID, increment. -/
def State.sectionUses (s : State) (img : Image) (p : Nat) : List (Nat × Nat × Nat) :=
  ((List.range img.cores).map fun c => ((s.sectionWords img c p).map (s.kettleUses img c p)).flatten).flatten

/-- The increments that counter `id` of core `target` can receive of them. -/
def kettleTotal (us : List (Nat × Nat × Nat)) (target id : Nat) : Nat :=
  (us.map fun u => if u.1 = target ∧ u.2.1 = id then u.2.2 else 0).sum

/-- IDs in their section, and totals within the limit: of a step schedule, of the elastic section, and of the prologue too (R151 speaks
of a step and of a run of the elastic section: DESIGN CHOICE, log entry 68). -/
def State.check9 (s : State) (img : Image) : Option Verdict :=
  let uses := (List.range 4).map (s.sectionUses img)
  firstOf
    [ eachOf img.cores fun c => eachOf 4 (s.checkIds img c),
      eachOf 192 fun c => eachOf 256 fun i => uses.findSome? fun us => need (decide (kettleTotal us c i ≤ 65535)) c i ]

/-! ### Check 10: random streams (R162) -/

def randStream (x : Nat) : Nat := fld x 0 4
def randOwner (x : Nat) : Nat := fld x 8 8

/-- The template that owns a stream: the first entry that names it. -/
def State.ownerOf (s : State) (img : Image) (c i : Nat) : Option Nat :=
  (((List.range (s.part img c 9).2).map (s.partEntry img c 9)).find? fun x => randStream x == i).map randOwner

def State.check10 (s : State) (img : Image) : Option Verdict :=
  eachOf img.cores fun c =>
    let xs := (List.range (s.part img c 9).2).map (s.partEntry img c 9)
    firstOf
      [ (xs.zipIdx).findSome? fun x =>
          deny ((xs.take x.2).all fun y => randStream y != randStream x.1) 0x0109 c (randStream x.1),
        eachOf (s.part img c 5).2 fun ti =>
          let t := s.rawTemplate img c ti
          if tKind t = 1 then
            (kernelDraws (s.kernelWord img c) (tKernel t)).findSome? fun i => deny (s.ownerOf img c i == some ti) 0x0109 c i
          else none ]

/-! ### Check 11: footprints (R159, R181, R211, R218, R235) -/

/-- The Quire footprint: the highest byte that a window or a Press template's Folder reaches, plus 1. -/
def State.quireFootprint (s : State) (img : Image) (c : Nat) : Nat :=
  let windows := ((List.range (s.part img c 6).2).map (s.rawStream img c)).map fun e =>
    if sDest e = 0 then sWindowBase e + sWindowLen e else 0
  let folds := ((List.range (s.part img c 5).2).map (s.rawTemplate img c)).map fun t =>
    if tKind t = 0 then (foldedRange t (s.rawDesc img c (tDesc t)) ((modeOf (tMode t)).getD .t1)).2.toNat else 0
  (windows ++ folds).foldl max 0

def State.endpaperFootprint (s : State) (img : Image) (c : Nat) : Nat :=
  (s.part img c 7).2 + divCeil (tableSizes s img c).sum 256 * 256

/-- The template with the highest accumulator row, and that row. -/
def State.highestOf (s : State) (img : Image) (c : Nat) : Option (Nat × Nat) :=
  ((List.range (s.part img c 5).2).filterMap fun ti =>
    let t := s.rawTemplate img c ti
    (highestRow t (s.rawDesc img c (tDesc t))).map fun r => (ti, r)).foldl (fun b x =>
      match b with
      | none => some x
      | some y => if y.2 < x.2 then some x else some y) none

def State.check11 (s : State) (img : Image) : Option Verdict := firstOf
  [ eachOf img.cores fun c => firstOf
      [ within 0x010A c 0 (s.quireFootprint img c) (coreMemSize .quire),
        within 0x010B c 0 (s.endpaperFootprint img c) (coreMemSize .endpaper),
        (s.highestOf img c).bind fun x => within 0x010C c x.1 (divCeil (x.2 + 1) 128) 24 ],
    within 0x010D wide 0 (512 * s.pagesNeeded img) (layoutUnits s.usableNow img.bounds.memReserve) ]

/-! ### Check 14: link slots (R292) -/

/-- A reserved interval of a lane: lane, whether it leaves, first tick (the guard tick before the opening, counted one up), ticks. -/
structure LaneUse where
  lane : Nat
  out : Bool
  start : Nat
  ticks : Nat
  deriving DecidableEq, Repr

def LaneUse.hits (a b : LaneUse) : Bool :=
  a.lane == b.lane && a.out == b.out && overlap a.start a.ticks b.start b.ticks

def laneUse (lane : Nat) (out : Bool) (offset flits : Nat) : LaneUse :=
  { lane := lane, out := out, start := offset, ticks := slotTicks flits + 2 }

/-- Links of a path of the image. -/
def State.linksOf (s : State) (img : Image) (p : Nat) : List Nat := pathLinks (s.pathEntry img p)

def State.forwards (s : State) (img : Image) : List Nat :=
  (List.range (slotForwards (s.slotHeader img))).map (s.forwardEntry img)

/-- Transfers whose primary path, as a slot entry or a forward entry gives it, uses a link. -/
def State.movedTransfers (s : State) (img : Image) (link : Nat) : List Nat :=
  ((s.slotsUsed img).filter fun p => (s.linksOf img (xPath p.2)).contains link).map (fun p => xTransfer p.2)
    ++ ((s.forwards img).filter fun f => !fAlt f && (s.linksOf img (fPath f)).contains link).map fTransfer

/-- The reserved intervals when the transfers given run on their alternate paths. -/
def State.laneUses (s : State) (img : Image) (moved : List Nat) : List LaneUse :=
  (s.slotsUsed img).map (fun p =>
    let e := p.2
    if moved.contains (xTransfer e) then laneUse (xAltLane e) (xKind e == 1) (xAltOffset e) (xFlits e)
    else laneUse (xLane e) (xKind e == 1) (xOffset e) (xFlits e))
  ++ (((s.forwards img).filter fun f => fAlt f == moved.contains (fTransfer f)).map fun f =>
    [laneUse (fIn f) false (fOffset f) (fFlits f), laneUse (fOut f) true (fOffset f) (fFlits f)]).flatten

/-- The first overlap of a lane: the lane, the tick at which the later interval could begin and the one at which it begins, the figures
of the refusal (R163; log entry 47). -/
def firstOverlap : List LaneUse → Option (Nat × Nat × Nat)
  | [] => none
  | u :: r =>
    match r.find? u.hits with
    | some v => some (if u.start ≤ v.start then (u.lane, u.start + u.ticks, v.start) else (u.lane, v.start + v.ticks, u.start))
    | none => firstOverlap r

/-- The program link of a lane. -/
def State.linkOfLane (s : State) (img : Image) (lane : Nat) : Nat :=
  ((((List.range (slotLinks (s.slotHeader img))).map (s.linkEntry img)).find? fun l => lLane l == lane).map lLink).getD 0

def State.check14 (s : State) (img : Image) : Option Verdict :=
  if img.slotOff = 0 then none
  else
    let links := (((List.range (slotPaths (s.slotHeader img))).map (s.linksOf img)).flatten).dedup
    firstOf
      [ (firstOverlap (s.laneUses img [])).map fun x => short 0x0110 wide (s.linkOfLane img x.1) x.2.1 x.2.2,
        links.findSome? fun k => (firstOverlap (s.laneUses img (s.movedTransfers img k))).map fun x => short 0x0110 wide k x.2.1 x.2.2 ]

/-! ### Check 15: frames (R161, R253, R298) -/

/-- FRAME_MIN of the active profile (R253). -/
def State.frameMin (s : State) : Nat := fld s.mc.activeProfile.toNat 0 24

/-- The steps of a core against the shortest frame, under an allowance. -/
def State.checkFrames (s : State) (img : Image) (allowance c : Nat) : Option Verdict :=
  let tick := fun (p : Nat) => fld (s.word img c p 0) 16 24
  firstOf
    [ if (s.part img c 1).2 = 0 then none else within 0x0111 c 0 (tick 1 + img.coldTicks) s.frameMin,
      if (s.part img c 2).2 = 0 then none else within 0x0111 c 0 (tick 2 + img.warmTicks + allowance) s.frameMin ]

/-- The most units of a region set on one stack. -/
def State.unitsOnStack (s : State) (img : Image) (x : Nat) : Nat :=
  let es := (List.range (fld x 16 16)).map fun i => s.regionEntry img (fld x 0 16 + i)
  ((List.range 20).map fun k =>
    (es.map fun e => ((List.range (rLen e / unitBytes)).filter fun u => (rSrc e / unitBytes + u) % 20 == k).length).sum).foldl max 0

/-- Copy time of a region set in ticks (R298). -/
def State.copyTicks (s : State) (img : Image) (x : Nat) : Nat := 105 * s.unitsOnStack img x + 50

def State.check15 (s : State) (img : Image) : Option Verdict := firstOf
  [ eachOf img.cores (s.checkFrames img (fld (s.dramNat (img.addr + img.recipeOff) 64) 32 24)),
    eachOf (s.snapSets img) fun k =>
      let x := s.setEntry img k
      within 0x0111 wide k (s.copyTicks img x) (fld x 32 24) ]

/-! ### Check 16: placement (R233 to R237) -/

/-- The sites on which the cores of an image would stand (R234). -/
def State.placedSites (s : State) (img : Image) : List SiteId :=
  let t := img.coreList.foldl (fun t c => t.placeCore img c) s
  img.coreList.map fun c => (t.core c).site

/-- The largest LAT over the stacks in service and the tiles that hold a placed site (R231, R235). -/
def State.worstLat (s : State) (img : Image) : Nat :=
  let tiles := ((s.placedSites img).map fun i => i.val / 50).dedup
  ((allStacks.filter fun k => (s.stack k).state == .service).map fun k =>
    (tiles.map fun t => fld (s.stack k).lat.toNat (16 * t) 16).foldl max 0).foldl max 0

def State.check16 (s : State) (img : Image) : Option Verdict :=
  let b := img.bounds
  let out := fun (x : Nat × Nat × Nat) => some ({ status := x.1, core := wide, index := x.2.1 / 2 ^ 8, result := x.2.2 } : Verdict)
  let lost := if b.memReserve then 1 else 0
  if (allSites.filter fun i => (s.site i).eligible b.spineBound).length < img.cores then
    out (unplaceable 0 s.worstTransit b.spineBound)
  else if lost < s.stacksOut then out (unplaceable 2 (20 - s.stacksOut) (20 - lost))
  else if b.dramBound < s.worstLat img then out (unplaceable 1 (s.worstLat img) b.dramBound)
  else (s.ownRank img).bind out

end Sys2Proof.Machine
end

