-- ==== Sys2Proof/Machine/CheckGraph.lean ====
section
/-!
DEFINITION. The loader's check 12 (R400): the dependence graph of kettle marks, section by section over all cores, with a held set for
each wait.

A held set is closed under "later word of the same core", so it is kept as one cut for each core: the index of its first held word.
-/

namespace Sys2Proof.Machine

/-- The entries that a multicast STREAM word arms (R179). -/
structure McArm where
  group : Nat
  first : Nat
  count : Nat
  deriving DecidableEq, Repr

/-- A source of a counter (R400): the word, the counter, the amount, and for a multicast stream what it arms and whether it signals
each entry. -/
structure Source where
  core : Nat
  pos : Nat
  target : Nat
  id : Nat
  amount : Nat
  multicast : Option (McArm × Bool)
  deriving DecidableEq, Repr

/-- A KETTLE_WAIT. -/
structure Wait where
  core : Nat
  pos : Nat
  id : Nat
  count : Nat
  deriving DecidableEq, Repr

/-- A section of all cores: its words' sources, waits and multicast arms (core, index, arm). -/
structure Section where
  sources : List Source
  waits : List Wait
  arms : List (Nat × Nat × McArm)
  members : List (Nat × Nat)
  deriving DecidableEq, Repr

def mcArm (e w : Nat) : McArm := { group := sGroup e, first := fld w 32 32, count := fld w 64 32 }

/-- The sources of one word (R400). -/
def State.sourcesOf (s : State) (img : Image) (c part k w : Nat) : List Source :=
  if wOp w = 0x20 then
    [{ core := c, pos := k, target := if fld w 24 8 = 0xFF then c else fld w 24 8, id := fld w 16 8, amount := fld w 32 16, multicast := none }]
  else if isFabric w then [{ core := c, pos := k, target := c, id := fld w 32 8, amount := 1, multicast := none }]
  else if wOp w = 0x11 then
    let e := s.rawStream img c (fld w 16 6)
    if sDeliverEn e then
      [{ core := c, pos := k, target := c, id := sDeliverId e, amount := if sSignalEach e then fld w 64 32 else 1,
         multicast := if sMulticast e then some (mcArm e w, sSignalEach e) else none }]
    else []
  else if wOp w = 0x10 then
    let ts := (s.runLevels img c part (fld w 16 8)).map (s.rawTemplate img c)
    match ts with
    | [] => []
    | t :: _ =>
      if ts.all fun x => tDoneEn x && tDoneId x == tDoneId t then
        [{ core := c, pos := k, target := c, id := tDoneId t, amount := 1, multicast := none }]
      else []
  else []

def State.sectionOf (s : State) (img : Image) (part : Nat) : Section :=
  let words := ((List.range img.cores).map fun c => ((s.sectionWords img c part).zipIdx).map fun x => (c, x.2, x.1)).flatten
  { sources := (words.map fun x => s.sourcesOf img x.1 part x.2.1 x.2.2).flatten,
    waits := (words.filter fun x => wOp x.2.2 == 0x21).map fun x =>
      { core := x.1, pos := x.2.1, id := fld x.2.2 16 8, count := fld x.2.2 32 16 },
    arms := (words.filter fun x => wOp x.2.2 == 0x11 && sMulticast (s.rawStream img x.1 (fld x.2.2 16 6))).map fun x =>
      (x.1, x.2.1, mcArm (s.rawStream img x.1 (fld x.2.2 16 6)) x.2.2),
    members := (((List.range 64).map fun g => ((s.rawMembers img g).map fun m => (g, m.1)).dedup).flatten) }

/-- The held set: the first held index of each core that has held words. -/
abbrev Held := List (Nat × Nat)

def Held.holds (h : Held) (core pos : Nat) : Bool := h.any fun x => x.1 == core && decide (x.2 ≤ pos)

/-- Every member arms an entry by some word outside the held set (R179, R400). -/
def Section.armed (x : Section) (h : Held) (group entry : Nat) : Bool :=
  (x.members.filter fun m => m.1 == group).all fun m =>
    x.arms.any fun a => a.1 == m.2 && a.2.2.group == group && !h.holds a.1 a.2.1
      && decide (a.2.2.first ≤ entry) && decide (entry < a.2.2.first + a.2.2.count)

/-- What a source outside the held set adds: a multicast STREAM word counts for the entries that are read, and where it signals once
for the whole word, only when every entry is (R400). -/
def Section.adds (x : Section) (h : Held) (o : Source) : Nat :=
  match o.multicast with
  | none => o.amount
  | some (a, each) =>
    let read := ((List.range a.count).filter fun i => x.armed h a.group (a.first + i)).length
    if each then read else if read = a.count then o.amount else 0

/-- A wait is satisfiable outside the held set (R400). -/
def Section.satisfiable (x : Section) (h : Held) (v : Wait) : Bool :=
  decide (v.count ≤ ((x.sources.filter fun o => o.target == v.core && o.id == v.id && !h.holds o.core o.pos).map (x.adds h)).sum)

/-- The held set grown by the later words of every wait that is not satisfiable outside it. -/
def Section.grow (x : Section) : Nat → Held → Held
  | 0, h => h
  | n + 1, h =>
    match x.waits.filter fun v => !x.satisfiable h v && !h.holds v.core (v.pos + 1) with
    | [] => h
    | new => x.grow n (h ++ new.map fun v => (v.core, v.pos + 1))

/-- H(W) (R400). Each round adds at least one wait's later words. -/
def Section.heldSet (x : Section) (w : Wait) : Held := x.grow (x.waits.length + 1) [(w.core, w.pos + 1)]

/-- The first wait that is not satisfiable outside its held set, by core and then by index. -/
def Section.cycle (x : Section) : Option Wait := x.waits.find? fun w => !x.satisfiable (x.heldSet w) w

def State.check12 (s : State) (img : Image) : Option Verdict :=
  eachOf 4 fun p => ((s.sectionOf img p).cycle).bind fun w => deny false 0x010E w.core w.pos

end Sys2Proof.Machine
end

