-- ==== Sys2Proof/Machine/CheckTime.lean ====
section
/-!
DEFINITION. The loader's check 13 (R59, R401): earliest and latest takes of the words of the pinned sections, earliest and latest
completions of their work, and the lead of every pass-row.

Take times are found round by round: a time is none until every word and source it rests on is known, and after as many rounds as the
section has words no time changes any more, since check 12 has shown that no wait rests on itself.
-/

namespace Sys2Proof.Machine

/-! ### Cycles (R364, R401) -/

/-- Issued ACLK cycles in a tick: ACLK_SLOTS of the active profile (R364, R380). -/
def State.slotsPerTick (s : State) : Nat := fld s.mc.activeProfile.toNat 128 4

/-- A figure in ns as cycles, up and down. -/
def State.nsUp (s : State) (ns : Nat) : Nat := divCeil (ns * s.slotsPerTick) 10
def State.nsDown (s : State) (ns : Nat) : Nat := ns * s.slotsPerTick / 10

/-- Cycles per pass-row (R46). -/
def Mode.cycles : Mode → Nat
  | .t1 => 1 | .t2 => 2 | .t3 => 3 | .t4 => 4 | .tz => 2 | .x1 => 1 | .l4 => 1 | .f8 => 1 | .fb => 1 | .fh => 1

/-- Sixteenths of the memory port that READ and WRITE are guaranteed; 0 selects 10/4/2 (R173). -/
def Image.readShare (img : Image) : Nat := if img.bounds.portSplit = 0 then 10 else fld img.bounds.portSplit.toNat 0 4
def Image.writeShare (img : Image) : Nat := if img.bounds.portSplit = 0 then 4 else fld img.bounds.portSplit.toNat 4 4

/-- Cycles to move bytes at a share of the port's 213.3 GB/s, which is 40/3 bytes per ns for each sixteenth (R172). -/
def State.moveCycles (s : State) (bytes share : Nat) : Nat := divCeil (3 * bytes * s.slotsPerTick) (400 * share)

/-! ### The Plough's longest path (R194, R196) -/

/-- Cycles an instruction counts: the larger of its issue interval and its latency. SLD holds until its data: the read round trip of
R171 for device memory, the latency of a load for a core memory (log entry 14). -/
def State.instrCycles (s : State) (r : Nat) : Nat :=
  match iOp r with
  | 0x10 => 4 | 0x14 => if iSpace r = 3 then s.nsUp 760 else 4
  | 0x20 => 4 | 0x21 => 4 | 0x22 => 4 | 0x23 => 5 | 0x24 => 2 | 0x25 => 2 | 0x28 => 16 | 0x29 => 16 | 0x2C => 2
  | 0x30 => 10 | 0x31 => 8 | 0x32 => 8 | 0x38 => 6 | 0x39 => 6 | 0x3A => 10 | 0x3B => 10 | 0x3C => 8 | 0x3D => 48
  | 0x40 => 24 | 0x41 => 20 | 0x42 => 8 | 0x43 => 12 | 0x44 => 4 | 0x45 => 120 | 0x48 => 8
  | _ => 1

/-- Where the ENDLOOP of an open loop stands, from instruction k on. -/
def endOfLoop (word : Nat → Nat) : Nat → Nat → Nat → Nat
  | 0, k, _ => k
  | n + 1, k, d =>
    if iOp (word k) = 2 then endOfLoop word n (k + 1) (d + 1)
    else if iOp (word k) = 3 then (if d = 0 then k else endOfLoop word n (k + 1) (d - 1))
    else endOfLoop word n (k + 1) d

/-- Longest paths from instruction k, k + 1, … to the END or the ENDLOOP that ends them. -/
def longestList (word : Nat → Nat) (cost : Nat → Nat) : Nat → Nat → List Nat
  | 0, _ => []
  | n + 1, k =>
    let rest := longestList word cost n (k + 1)
    let at' := fun (i : Nat) => rest.getD (i - (k + 1)) 0
    let r := word k
    let here :=
      if iOp r = 1 ∨ iOp r = 3 then cost r
      else if iOp r = 2 then cost r + iImm r * at' (k + 1) + at' (endOfLoop word 4096 (k + 1) 0 + 1)
      else if iOp r = 4 then cost r + max (at' (k + 1)) (at' (k + 1 + iImm r))
      else cost r + at' (k + 1)
    here :: rest

/-- Cycles of one invocation of a core's kernel at its longest. -/
def State.kernelCycles (s : State) (img : Image) (c entry : Nat) : Nat :=
  (longestList (s.kernelWord img c) s.instrCycles (4096 - entry) entry).headD 0

/-! ### Passes (R43, R45, R165) -/

def State.rawPlan (s : State) (img : Image) (c ti n : Nat) : PassPlan :=
  let t := s.rawTemplate img c ti
  passPlanOf (s.rawTemplate img c) t (s.rawDesc img c (tDesc t)) n

def State.passes (s : State) (img : Image) (c ti : Nat) : Nat :=
  nestSize (s.rawDesc img c (tDesc (s.rawTemplate img c ti)))

/-- Bytes that a pass's load moves (R43, R71, R72). -/
def PassPlan.loadBytes (p : PassPlan) : Nat := (p.reads.map (·.2)).sum

/-- Cycles of the normal load, and of the load in the pass's own orientation (R43). -/
def PassPlan.normalLoad (p : PassPlan) : Nat := divCeil p.loadBytes 128
def PassPlan.load (p : PassPlan) : Nat := if p.transposed then divCeil p.loadBytes 64 else p.normalLoad

/-- Issue cycles of a pass: P · c. -/
def PassPlan.issue (p : PassPlan) : Nat := p.rows * p.mode.cycles

/-- The work of a RUN after its take at the latest, for the template run (R401). -/
def State.runCycles (s : State) (img : Image) (c ti : Nat) : Nat :=
  let t := s.rawTemplate img c ti
  let n := s.passes img c ti
  if tKind t = 0 then
    let plan := s.rawPlan img c ti
    s.nsUp 760 + (plan 0).normalLoad
      + ((List.range n).map fun i => max (max (plan i).issue (if i + 1 < n then (plan (i + 1)).load else 0)) 31).sum + 30
  else
    let d := s.rawDesc img c (tDesc t)
    ((List.range n).map fun i => s.kernelCycles img c (tKernel (Machine.tailTemplate (s.rawTemplate img c) t d i))).sum

/-! ### Takes and completions (R401) -/

/-- Times of the words of a section, by core and index. -/
abbrev Times := List (List (Option Nat))

def Times.of (x : Times) (c k : Nat) : Option Nat := (x.getD c []).getD k none

/-- The larger of two times, when both are known. -/
def maxTime (a b : Option Nat) : Option Nat :=
  match a, b with
  | some x, some y => some (max x y)
  | _, _ => none

def addTime (a : Option Nat) (n : Nat) : Option Nat := a.map (· + n)

/-- Opening of a FABRIC word's slot, and its latest completion: opening, slot length and the path bound of its peer. -/
def State.fabricOpen (s : State) (img : Image) (w : Nat) : Nat := xOffset (s.slotEntry img (fld w 16 8)) * s.slotsPerTick
def State.fabricLate (s : State) (img : Image) (w : Nat) : Nat :=
  let e := s.slotEntry img (fld w 16 8)
  let bound := ((img.bounds.peers.find? fun p => p.1.toNat == xPeer e).map fun p => p.2.1.toNat).getD 0
  s.fabricOpen img w + slotTicks (xFlits e) * s.slotsPerTick + s.nsUp bound

/-- The latest take of the words that arm an entry of a stream. For a multicast stream, where this word is the n-th over the entry on its
core, it is the latest take of the n-th words over it of all members (R179, R401); it is not known where a member has fewer. -/
def State.armLate (s : State) (img : Image) (part : Nat) (late : Times) (c k w entry : Nat) : Option Nat :=
  let e := s.rawStream img c (fld w 16 6)
  if !sMulticast e then late.of c k
  else
    let x := s.sectionOf img part
    let arming := fun (m : Nat) => (x.arms.filter fun a => a.1 == m && a.2.2.group == sGroup e && decide (a.2.2.first ≤ entry)
      && decide (entry < a.2.2.first + a.2.2.count)).map (·.2.1)
    let n := (arming c).findIdx (· == k)
    (x.members.filter fun m => m.1 == sGroup e).foldl
      (fun t m => maxTime t (((arming m.2)[n]?).bind (late.of m.2))) (late.of c k)

/-- Latest completion of entry `entry` of the stream that a STREAM word arms. -/
def State.entryLate (s : State) (img : Image) (part : Nat) (late : Times) (c k w entry : Nat) : Option Nat :=
  let e := s.rawStream img c (fld w 16 6)
  let bytes := ((List.range (entry + 1 - fld w 32 32)).map fun i => bLen (s.listEntry e (fld w 32 32 + i))).sum
  addTime (s.armLate img part late c k w entry)
    (s.nsUp 760 + s.moveCycles bytes (if sWrite e then img.writeShare else img.readShare)
      + if (sMull e).isSome then divCeil s.slotsPerTick 2 else 0)

/-- Latest completion of the whole work of a RUN or STREAM word. -/
def State.workLate (s : State) (img : Image) (part : Nat) (late : Times) (c k w : Nat) : Option Nat :=
  if wOp w = 0x10 then
    addTime (late.of c k) (((s.runLevels img c part (fld w 16 8)).map (s.runCycles img c)).foldl max 0)
  else if wOp w = 0x11 then s.entryLate img part late c k w (fld w 32 32 + fld w 64 32 - 1)
  else some 0

/-- Whether SCOPE of a signal waits for a word (R143). -/
def State.inScope (s : State) (img : Image) (c scope w : Nat) : Bool :=
  let kind := tKind (s.rawTemplate img c (fld w 16 8))
  (wOp w == 0x10 && (scope == 0 || (scope == 1 && kind == 0) || (scope == 2 && kind == 1)))
    || (wOp w == 0x11 && (scope == 0 || scope == 3))

/-- Earliest completions of a word's increments: counter's core, ID, amount, time. -/
def State.earlyAdds (s : State) (img : Image) (part : Nat) (early : Times) (c k w : Nat) : List (Nat × Nat × Nat × Option Nat) :=
  (s.sourcesOf img c part k w).map fun o =>
    (o.target, o.id, o.amount,
      if wOp w = 0x11 then addTime (early.of c k) (s.nsDown 180)
      else if isFabric w then some (s.fabricOpen img w)
      else addTime (early.of c k) 1)

/-- Latest completions of a word's increments. -/
def State.lateAdds (s : State) (img : Image) (part : Nat) (late : Times) (words : List Nat) (c k w : Nat) :
    List (Nat × Nat × Nat × Option Nat) :=
  ((s.sourcesOf img c part k w).map fun o =>
    if wOp w = 0x11 then
      if sSignalEach (s.rawStream img c (fld w 16 6)) then
        (List.range (fld w 64 32)).map fun j => (o.target, o.id, 1, s.entryLate img part late c k w (fld w 32 32 + j))
      else [(o.target, o.id, o.amount, s.workLate img part late c k w)]
    else if isFabric w then [(o.target, o.id, o.amount, some (s.fabricLate img w))]
    else if wOp w = 0x20 then
      let work := (((words.take k).zipIdx).filter fun x => s.inScope img c (fld w 8 2) x.1).foldl
        (fun t x => maxTime t (s.workLate img part late c x.2 x.1)) (late.of c k)
      [(o.target, o.id, o.amount, addTime work (1 + if o.target = c then 0 else 6 * s.slotsPerTick))]
    else [(o.target, o.id, o.amount, s.workLate img part late c k w)]).flatten

/-- The least time by which the increments of a counter that are known add up to a count. -/
def reachTime (adds : List (Nat × Nat × Nat × Option Nat)) (c id count : Nat) : Option Nat :=
  let xs := adds.filterMap fun a => if a.1 = c ∧ a.2.1 = id then a.2.2.2.map fun t => (t, a.2.2.1) else none
  if count = 0 then some 0
  else leastOf ((xs.map (·.1)).filter fun t => decide (count ≤ ((xs.filter fun x => decide (x.1 ≤ t)).map (·.2)).sum))

/-- The queue that a non-holding word enters: Press 0, Plough 1, FABRIC 2, Awl 3; none for a signal or a SNAPSHOT (R142; log
entry 14). -/
def State.queueOf (s : State) (img : Image) (c w : Nat) : Option Nat :=
  if wOp w = 0x10 then some (tKind (s.rawTemplate img c (fld w 16 8)))
  else if isFabric w then some 2
  else if wOp w = 0x11 then some 3
  else none

/-- A word keeps its entry after it is taken: the entry of a shadow stream's word frees at once (R170; log entry 14). -/
def State.keepsEntry (s : State) (img : Image) (c w : Nat) : Bool :=
  wOp w != 0x11 || !sShadow (s.rawStream img c (fld w 16 6))

/-- The fourth entry before a word in its queue: index and word. -/
def State.fourthBefore (s : State) (img : Image) (c : Nat) (words : List Nat) (k w : Nat) : Option (Nat × Nat) :=
  match s.queueOf img c w with
  | none => none
  | some q => (((((words.take k).zipIdx).filter fun x =>
      s.queueOf img c x.1 == some q && s.keepsEntry img c x.1).reverse)[3]?).map fun x => (x.2, x.1)

/-- Take times of a core's words from the times before it: `wait` gives what a KETTLE_WAIT rests on, `hold` what a full queue does. -/
def takeTimes (slots : Nat) (wait : Nat → Option Nat) (hold : Nat → Nat → Option Nat) :
    List Nat → Nat → Option Nat → List (Option Nat)
  | [], _, _ => []
  | w :: r, k, prev =>
    let base := if k = 0 then some 0 else addTime prev 1
    let t :=
      if wOp w = 0x30 then (if bitOf w 8 then base else maxTime base (some (fld w 16 24 * slots)))
      else if wOp w = 0x21 then maxTime base (addTime (wait w) 1)
      else maxTime base (hold k w)
    t :: takeTimes slots wait hold r (k + 1) t

/-- Earliest and latest takes after n rounds. -/
def State.rounds (s : State) (img : Image) (part : Nat) (ws : List (List Nat)) : Nat → Times × Times
  | 0 => (ws.map fun x => x.map fun _ => none, ws.map fun x => x.map fun _ => none)
  | n + 1 =>
    let (e, l) := s.rounds img part ws n
    let flat := ((ws.zipIdx).map fun x => (x.1.zipIdx).map fun y => (x.2, y.2, y.1)).flatten
    let ea := (flat.map fun x => s.earlyAdds img part e x.1 x.2.1 x.2.2).flatten
    let la := (flat.map fun x => s.lateAdds img part l (ws.getD x.1 []) x.1 x.2.1 x.2.2).flatten
    let slots := s.slotsPerTick
    ((ws.zipIdx).map fun x => takeTimes slots (fun w => reachTime ea x.2 (fld w 16 8) (fld w 32 16)) (fun _ _ => some 0) x.1 0 none,
     (ws.zipIdx).map fun x => takeTimes slots (fun w => reachTime la x.2 (fld w 16 8) (fld w 32 16))
       (fun k w => match s.fourthBefore img x.2 x.1 k w with
         | some y => if isFabric w then some (s.fabricLate img y.2) else s.workLate img part l x.2 y.1 y.2
         | none => some 0) x.1 0 none)

/-! ### What makes a Quire byte resident (R59, R401) -/

/-- Bytes that a store instruction writes (R196, R199, R201, R203). -/
def storeBytes (r : Nat) : Nat :=
  match iOp r with
  | 0x11 => 256
  | 0x15 => fld r 64 4 + 1
  | 0x40 => 64
  | 0x41 => 64
  | 0x42 => 64 * ((fmtOf (iFmt r)).getD .e4m3).bytes * (if iPair r then 2 else 1)
  | 0x45 => if iFmt r = 2 then 5760 else 7168
  | _ => 0

/-- Offset of a store from its pointer: IMM, and none for SST (R196). -/
def storeOffset (r : Nat) : Int := if iOp r = 0x15 then 0 else iImmS r

/-- What the loader knows of a kernel's registers: pointers and scalars by value, where they do not rest on data, and the open loops. -/
structure Known where
  p : List (Option Nat)
  s : List (Option Nat)
  loops : List LoopFrame
  deriving DecidableEq, Repr

def Known.ptr (k : Known) (i : Nat) : Option Nat := k.p.getD i none
def Known.sreg (k : Known) (i : Nat) : Option Nat := k.s.getD i none
def Known.setS (k : Known) (i : Nat) (x : Option Nat) : Known := { k with s := k.s.set i (x.map (· % 2 ^ 64)) }
def Known.setP (k : Known) (i : Nat) (x : Option Nat) : Known := { k with p := k.p.set i (x.map (· % 2 ^ 64)) }

/-- An instruction's effect on what is known: immediates, sums, shifts and pointer moves are followed; what comes from data is not
known (R196). -/
def Known.after (k : Known) (r : Nat) : Known :=
  match iOp r with
  | 0x08 => k.setS (fld r 8 4) (some (BitVec.ofInt 64 (iImmS r)).toNat)
  | 0x09 => k.setS (fld r 8 4) ((k.sreg (fld r 13 4)).bind fun x => (k.sreg (fld r 18 4)).map (x + ·))
  | 0x0A => k.setS (fld r 8 4) ((k.sreg (fld r 13 4)).map (· * 2 ^ fld r 64 6))
  | 0x0B => k.setP (iPtr r) (k.sreg (iSreg r))
  | 0x0C => k.setP (iPtr r) ((k.ptr (iPtr r)).map fun x => (BitVec.ofInt 64 (x + iImmS r)).toNat)
  | 0x14 => k.setS (iSreg r) none
  | 0x30 => k.setS (iSreg r) none
  | 0x31 => k.setS (iSreg r) none
  | 0x32 => k.setS (iSreg r) none
  | 0x3D => k.setS (iSreg r) none
  | 0x44 => k.setS (iSreg r) none
  | _ => k

/-- The Quire stores of an invocation from instruction `ip` on, by first byte, none where it is not known, and length: the kernel is
followed instruction by instruction, both ways at a branch on data (R194, R196). -/
def kernelStores (word : Nat → Nat) : Nat → Nat → Known → List (Option Nat × Nat)
  | 0, _, _ => []
  | n + 1, ip, k =>
    let r := word ip
    let here := if storeBytes r ≠ 0 ∧ iSpace r = 0
      then [((k.ptr (iPtr r)).map fun x => (BitVec.ofInt 64 (x + storeOffset r)).toNat, storeBytes r)] else []
    if 4096 ≤ ip ∨ iOp r = 1 then []
    else if iOp r = 2 then kernelStores word n (ip + 1) { k with loops := { start := ip + 1, left := iImm r - 1 } :: k.loops }
    else if iOp r = 3 then
      match k.loops with
      | [] => []
      | l :: rest =>
        if l.left = 0 then kernelStores word n (ip + 1) { k with loops := rest }
        else kernelStores word n l.start { k with loops := { l with left := l.left - 1 } :: rest }
    else if iOp r = 4 then
      match k.sreg (iSreg r) with
      | some x => kernelStores word n (if branchTaken (iFmt r) x then ip + 1 + iImm r else ip + 1) k
      | none => kernelStores word n (ip + 1) k ++ kernelStores word n (ip + 1 + iImm r) k
    else here ++ kernelStores word n (ip + 1) (k.after r)

/-- Whether invocation n of a Plough template writes a Quire byte, by the kernel that it runs (R146, R193). A store whose address rests on data may write any byte (DESIGN
CHOICE, log entry 27). No kernel runs longer than 4,096 instructions in four loops of 65,535 iterations (R194). -/
def State.ploughWrites (s : State) (img : Image) (c t n b : Nat) : Bool :=
  let d := s.rawDesc img c (tDesc t)
  let at' := fun (x : Nat) (base : Nat) => some (BitVec.ofInt 64 (base + nestOffset d x n)).toNat
  let k : Known :=
    { p := [at' 0 (tActAddr t), at' 1 0, at' 2 (512 * tAccRow t), at' 3 (tAux t), some 0, some 0, some 0, some 0],
      s := List.replicate 16 (some 0), loops := [] }
  (kernelStores (s.kernelWord img c) (2 ^ 80) (tKernel (Machine.tailTemplate (s.rawTemplate img c) t d n)) k).any fun x =>
    x.1.elim true fun a => decide (a ≤ b) && decide (b < a + x.2)

/-- The last entry of a STREAM word that lands a Quire byte (R170). -/
def State.landsByte (s : State) (img : Image) (c w b : Nat) : Option Nat :=
  let e := s.rawStream img c (fld w 16 6)
  if sWrite e ∨ sDest e ≠ 0 ∨ b < sWindowBase e ∨ sWindowBase e + sWindowLen e ≤ b then none
  else
    let r := b - sWindowBase e
    let start := fun (j : Nat) => ((List.range j).map fun i => landLen e (bLen (s.listEntry e i))).sum
    (((List.range (fld w 64 32)).map fun j => fld w 32 32 + j).filter fun j =>
      let o := start j
      decide (o + (r + sWindowLen e - o % sWindowLen e) % sWindowLen e < o + landLen e (bLen (s.listEntry e j)))).getLast?

/-- Latest completion of what makes a byte resident, by one word; none when the word does not write it. -/
def State.residentBy (s : State) (img : Image) (part : Nat) (late : Times) (c k w b : Nat) : Option (Option Nat) :=
  if wOp w = 0x11 then (s.landsByte img c w b).map fun j => s.entryLate img part late c k w j
  else if wOp w = 0x10 then
    let ts := (s.runLevels img c part (fld w 16 8)).filter fun ti =>
      let t := s.rawTemplate img c ti
      tKind t == 1 && (List.range (s.passes img c ti)).any fun n => s.ploughWrites img c t n b
    if ts.isEmpty then none else some (s.workLate img part late c k w)
  else none

/-- The sources of a byte are the words before the RUN that write it; a byte without one needs no check. The latest of their
completions with the lead of 8 cycles after it, when that is too late; a completion that is not known is later than every cycle. -/
def State.byteLate (s : State) (img : Image) (part : Nat) (late : Times) (c : Nat) (words : List Nat) (k b first : Nat) : Option Nat :=
  let ts := ((words.take k).zipIdx).filterMap fun x => s.residentBy img part late c x.2 x.1 b
  let t := (ts.map fun t => t.elim (2 ^ 32) (· + 8)).foldl max 0
  if first < t then some t else none

/-- Quire bytes that a pass-row uses: its positions below the K edge. -/
def PassPlan.usedBytes (p : PassPlan) : Nat := if p.mode = .x1 then divCeil p.kValid 8 else p.kValid * p.sfmt.bytes

/-- The first lead of one template of a RUN that is not met: the cycle needed and the cycle of the earliest first issue. -/
def State.leadShort (s : State) (img : Image) (part : Nat) (early late : Times) (c : Nat) (words : List Nat) (k ti : Nat) :
    Option (Nat × Nat) :=
  let plan := s.rawPlan img c ti
  if tKind (s.rawTemplate img c ti) ≠ 0 then none
  else match early.of c k with
    | none => some (2 ^ 32, 0)
    | some e =>
      let start := e + s.nsDown 180 + (plan 0).normalLoad
      (List.range (s.passes img c ti)).findSome? fun p =>
        let before := ((List.range p).map fun q => (plan q).issue).sum
        (List.range (plan p).rows).findSome? fun r =>
          let first := start + before + r * (plan p).mode.cycles
          (List.range (plan p).usedBytes).findSome? fun i =>
            (s.byteLate img part late c words k ((plan p).act + r * (plan p).pitch + i) first).map fun t => (t, first)

/-- Check 13: LEAF_LEAD_SHORT names the RUN, and tells the cycle at which the data is resident with the lead, and the earliest first issue
(R59, R163). -/
def State.check13 (s : State) (img : Image) : Option Verdict :=
  let ws := fun (p : Nat) => (List.range img.cores).map fun c => s.sectionWords img c p
  let times := (List.range 3).map fun p => s.rounds img p (ws p) (((ws p).map List.length).sum + 1)
  eachOf img.cores fun c => eachOf 3 fun p =>
    let words := (ws p).getD c []
    let t := times.getD p ([], [])
    (words.zipIdx).findSome? fun x =>
      if wOp x.1 = 0x10 then
        (s.runLevels img c p (fld x.1 16 8)).findSome? fun ti =>
          (s.leadShort img p t.1 t.2 c words x.2 ti).map fun y => short 0x010F c x.2 y.1 y.2
      else none

end Sys2Proof.Machine
end

