-- ==== Sys2Proof/Machine/Loader.lean ====
section
/-!
DEFINITION. Loading (R160 to R163, R175, R181, R235, R325): the checks in order, acceptance, and the checks of a recipe update (R136).
-/

namespace Sys2Proof.Machine

/-- The checks of R161 in order; a direct image stops after check 2 (R157). -/
def State.loadVerdict (s : State) (img : Image) : Option Verdict :=
  match firstOf [s.check1 img, s.check2 img] with
  | some v => some v
  | none =>
    if img.direct then none
    else firstOf
      [ s.check3 img, s.check4 img, s.check5 img, s.check6 img, s.check7 img, s.check8 img, s.check9 img, s.check10 img,
        s.check11 img, s.check12 img, s.check13 img, s.check14 img, s.check15 img, s.check16 img ]

/-- An accepted image with the pinned pages and the place of its collation buffer (R137, R181). -/
def State.accepted (s : State) (img : Image) : Image :=
  if img.direct then img else { img with pinnedPages := s.pagesNeeded img, collBase := s.namedEnd img }

/-- The stack that is lost or absent. -/
def State.stackOut (s : State) : Option StackId := allStacks.find? fun k => (s.stack k).state != .service

/-- Acceptance (R160, R175, R233 to R235): the image is staged, in place of one staged before, and its cores are placed, or at the
activation where another program runs on them (log entry 22); with one stack out, a program with the memory reserve is placed in the
relocated layout. Its peers hear of it (R236, R285). -/
def State.stage (s : State) (img : Image) : State :=
  let s := if s.prog.active.isSome then s else s.placeCores img
  let s := s.modProg fun p =>
    { p with staged := some (s.accepted img),
             relocated := if img.bounds.memReserve && s.stackOut.isSome then s.stackOut else p.relocated }
  s.advertise

/-- LOAD (R160, R161, R163, R325). Check 1 of R325 comes first: IMAGE_ADDR a multiple of 64, IMAGE_LEN at least 256, the range within
the layout in force; then the checks of R161, in one command. -/
def execLoad (h : Handle) (s : State) : Host.Outcome State Fault Refusal :=
  match s.begins h 0x10 with
  | none => .next s
  | some b =>
    let addr := fld b 0 52
    let len := fld b 64 40
    if s.prog.recovering then .next (s.complete h 0x0003 0 0)
    else if addr % 64 ≠ 0 ∨ s.layoutEnd ≤ addr then .next (s.badField h 0)
    else if len < 256 ∨ s.layoutEnd < addr + len then .next (s.badField h 64)
    else
      let img := s.imageAt addr len
      match s.loadVerdict img with
      | some v => .next (s.complete h v.status v.detail v.result)
      | none => .next ((s.stage img).complete h 0 0 0)

/-! ### Recipe updates (R136) -/

/-- The new entries of a RECIPE_UPDATE body. -/
def State.updateEntries (s : State) (b : Nat) : List Nat :=
  (List.range (fld b 80 16)).map fun i => s.dramNat (fld b 0 52 + 64 * i) 64

/-- The checks of R122 on an update of the active program, and its allowance against the shortest frame (R136). -/
def State.updateVerdict (s : State) (img : Image) (first : Nat) (new : List Nat) (allowance : Nat) : Option Verdict :=
  let entry := fun (l : Nat) =>
    if first ≤ l ∧ l < first + new.length then new[l - first]? else (s.prog.recipe[l]?).map (·.toNat)
  firstOf
    [ (new.zipIdx).findSome? fun x => need (entryOk x.1) wide (first + x.2),
      eachOf img.cores (s.checkLayers img entry),
      eachOf img.cores (s.checkFrames img allowance) ]

/-- RECIPE_UPDATE (R136, R322, R323): checked at once, refused whole, or accepted and in force from the next boundary. -/
def execRecipeUpdate (h : Handle) (s : State) : Host.Outcome State Fault Refusal :=
  match s.begins h 0x15 with
  | none => .next s
  | some b =>
    match s.prog.active with
    | none => .next (s.complete h 0x0004 0 0)
    | some img =>
      let first := fld b 64 16
      let n := fld b 80 16
      let allowance := if bitOf b 96 then some (fld b 128 24) else none
      if s.layoutEnd < fld b 0 52 + 64 * n then .next (s.badField h 0)
      else if img.direct ∨ s.prog.recipe.length < first then .next (s.badField h 64)
      else if s.prog.recipe.length < first + n then .next (s.badField h 80)
      else
        let new := s.updateEntries b
        match s.updateVerdict img first new (allowance.getD s.prog.allowance) with
        | some v => .next (s.complete h v.status v.detail v.result)
        | none =>
          let cmd : BoundaryCmd := { handle := h, first := first, entries := new.map (BitVec.ofNat 512), allowance := allowance }
          .next ((s.markBegun h).modProg fun p => { p with boundaryCmds := p.boundaryCmds ++ [cmd] })

end Sys2Proof.Machine
end

