-- ==== Sys2Proof/Machine/SafeStates.lean ====
section
/-!
DEFINITION. How parts of the module stop and start: the main domain off (R337, R374, R379), the whole module off (R374), the tamper wipe
(R345 to R347), the start of the MC (R335, R350, R353), the active profile (R381).
-/

namespace Sys2Proof.Machine

/-! ### Limit trips (R335, R337, R340) -/

/-- THRESHOLD_TRIP: logged, or latched in hardware until the MC is back (R335). -/
def State.logTrip (s : State) (group index : Nat) (reading : Int) : State :=
  let items := [item group, item index, itemI reading]
  if s.mcRuns then s.log 0x0502 items
  else s.modMc fun m => { m with latched := m.latched ++ [BitVec.ofNat 256 (packItems items)] }

def groupIndex : SensorGroup → Nat
  | .die => 0 | .stack => 1 | .board => 2 | .coolantIn => 3 | .coolantOut => 4 | .rail => 5 | .inputPower => 6 | .railCurrent => 8

/-- Figure of a sensor group: the manual lists the groups and does not number them (log entry 7). -/
def groupFigure (g : SensorGroup) : Nat := Config.figure 0 (groupIndex g)

/-! ### The main domain off (R16, R337, R374, R379) -/

/-- A component is being fetched from a fabric partner (R353). -/
def Mc.viaFabric (m : Mc) : Bool := m.recovering.isSome && !m.fabricTried

/-- A stack without power: what is repaired by fuses or withdrawn for good stays as it is, and a lost stack stays lost (R242, R243). -/
def Stack.unpowered (k : Stack) : Stack :=
  { Stack.reset with state := if k.state = .lost then .lost else .service, sparesUsed := k.sparesUsed, sparesLeft := k.sparesLeft }

/-- The main domain is down: everything in it is as at reset, the links and PCIe ports are down, and what the stacks held is undefined.
It stays off until MAIN_ON, or until standby power is cycled. -/
def State.mainOff (s : State) : State :=
  { s.loseDram with
    cores := Vector.ofFn Core.reset, sites := Vector.ofFn Site.reset, hbm := s.hbm.map Stack.unpowered,
    host := { HostIf.reset with gates := s.host.gates.map fun g =>
      if g.1 = .sensorPage ∨ g.1 = .logPage ∨ g.1 = .tracePage then (g.1, .closed) else g },
    prog := Program.reset, cad := Cadence.reset,
    fab := { Fabric.reset with nodeId := s.fab.shelfWaiting.getD s.fab.nodeId, idSource := if s.fab.shelfWaiting.isSome then 0 else s.fab.idSource,
                               idTries := s.fab.idTries },
    pwr := { s.pwr with main := false, step := min s.pwr.step 2, needMainOn := true, alert := true, clkOk := false, surveyed := false },
    clk := { s.clk with locked := s.clk.locked.filter (· = .sb), ramp := 0, returning := false, stage := 0, portsBack := [] },
    mc := { s.mc with running := s.mc.running.filter (·.1 = .mc), oldBinder := none, recovering := none, fabricTried := false, askedSerial := none,
                      phase := if s.mc.viaFabric then .idle else s.mc.phase },
    surveySeq := 0, surveyRec := [] }

/-- A main-domain shutdown with its THRESHOLD_TRIP; nothing to do while the domain is off. -/
def State.shutdown (s : State) (group index : Nat) (reading : Int) : State :=
  if s.pwr.main then (s.logTrip group index reading).mainOff else s

/-! ### The whole module off (R374) -/

/-- Standby power lost: what lies in flash, fuses, DRAM repairs and the model's own counters stays; entries in the log buffer are lost. -/
def State.allOff (s : State) : State :=
  let m := s.mc
  let t := s.mainOff
  { t with
    host := HostIf.reset, fab := Fabric.reset, pwr := Power.reset, clk := Clocks.reset,
    mc := { Mc.reset with fuseArray := m.fuseArray, logNext := m.logNext, flashLog := m.flashLog, images := m.images, pending := m.pending,
                          profiles := m.profiles, softRepairs := m.softRepairs, certChain := m.certChain, wipeRetries := m.wipeRetries } }

/-! ### The secure region (R333, R355) -/

/-- The wipe: every row of the secure region is zero; the rest of the SRAM is not touched (R333, R346). -/
def Mc.clearRegion (m : Mc) : Mc := { m with sram := m.sram.filter fun c => c.1 < m.secureBase }

/-- The identity key stands in the first 48 bytes of the region (its place: log entry 8). -/
def Mc.putKey (m : Mc) (k : BitVec 384) : Mc := { m with sram := Mem.write zeroByte m.sram m.secureBase (leBytes 48 k.toNat) }

/-- The identity key, where the region holds one: no P-384 key is 0 (R355). -/
def Mc.key (m : Mc) : Option (BitVec 384) :=
  let n := leNat (Mem.read zeroByte m.sram m.secureBase 48)
  if n = 0 then none else some (BitVec.ofNat 384 n)

/-- Code and data of the running image lie at 0x0_0000 to 0x2_FFFF (R333). -/
def Mc.putCode (m : Mc) (f : FwImage) : Mc := { m with sram := Mem.write zeroByte m.sram 0 (f.body.take 0x3_0000) }

/-! ### The tamper wipe (R345 to R347) -/

/-- A trigger: its bit is latched, the secure region is cleared and verified, TAMPER_WIPE names the cause; after four writes whose verify
still fails the read port closes and an entry of SEVERITY 3 is made. -/
def State.wipe (s : State) (cause : Fin 6) (retries : Nat) : State :=
  let items := [item (2 ^ cause.val), item retries]
  let s := s.modMc fun m =>
    { m.clearRegion with
      tamperCause := m.tamperCause ||| BitVec.ofNat 6 (2 ^ cause.val), spdm := 0,
      portClosed := m.portClosed || decide (4 ≤ retries) }
  let s := s.raiseDev 0x041A items
  if 4 ≤ retries then s.logAs 3 0x041A false (packItems items) else s

/-- A wipe for which no command gives the writes that it needs (R346; log entry 60). -/
def State.wipeSelf (s : State) (cause : Fin 6) : State :=
  (s.modMc fun m => { m with wipeRetries := m.wipeRetries.tail }).wipe cause (s.mc.wipeRetries.headD 0)

/-- The wipes of the triggers 0 to 3 that are present (R345). -/
def State.wipePresent (s : State) (triggers : BitVec 4) : State :=
  ((List.finRange 4).filter fun i => triggers.getLsbD i.val).foldl (fun s i => s.wipeSelf (i.castLE (by decide))) s

/-! ### Profiles (R380, R381) -/

def profileCrcOk (x : Nat) : Bool := fld x 2016 32 == crc32 (leBytes 252 x)

/-- The profile chosen by command, else by the pins, becomes the active one at a start of the main domain; one that fails its CRC gives
way to the values in mask ROM. -/
def State.chooseProfile (s : State) : State :=
  let i := s.mc.profSelected.getD s.mc.profPins
  let x := s.mc.profiles[i]
  if profileCrcOk x.toNat then s.modMc fun m => { m with activeProfile := x, activeIndex := i }
  else (s.modMc fun m => { m with activeProfile := factoryProfile 8, activeIndex := i }).raiseDev 0x0426 [item i.val]

/-- An image that has been activated enters service (R352). -/
def State.nowServes (s : State) (c : Component) (f : FwImage) : State :=
  if s.mc.pending.contains c then
    (s.modMc fun m => { m with pending := m.pending.filter (· ≠ c) }).raiseDev 0x041C (fwItems c f)
  else s

/-! ### Start-up step 3 (R361, R374, R382) -/

/-- Step 3 is complete when the reference is qualified and the input lies within 36 V to 48 V. -/
def State.tryStep3 (s : State) : State :=
  if s.pwr.step = 2 ∧ s.clk.qualified ∧ s.pwr.inputOk then s.modPwr fun p => { p with step := 3 } else s

/-! ### The start of the MC (R335, R342, R345, R350, R353, R355) -/

/-- Mask ROM: a block that the test has borrowed comes back (R358), the secure region is wiped, the identity key derived where no trigger is
present (R347; with the cover open every start ends in a wipe, R391), the image verified and entered; with an invalid image the loader
stays in recovery. `cause` is the restart cause: 0 power-up, 1 watchdog, 2 SRAM, 3 activation, 4 life cycle. -/
def State.mcStart (s : State) (cause : Nat) (triggers : BitVec 4) : State :=
  let s := (s.modMc fun m => { m.giveBack with portClosed := false, secretClosed := false }).wipeSelf 5
  let s := s.wipePresent triggers
  let s := s.modMc fun m =>
    let m := if triggers = 0 then m.putKey (Config.identityKey (BitVec.ofNat 256 m.secretRead)) else m
    { m with secretClosed := true }
  match s.mc.validImage .mc with
  | none => s.modMc fun m => { m with up := false, recovery := true, restartCause := 0 }.enterHeld
  | some f =>
    let again := decide (cause ≠ 0)
    let s := s.modMc fun m =>
      { m.putCode f with
        up := true, recovery := false, restartCause := 0, running := putImage m.running .mc f,
        restarts := if again then m.restarts + 1 else m.restarts }
    let s := s.log 0x0501 [item (Config.figure 2 cause), Config.maskRomVersion, item s.mc.rollback]
    let s := s.mc.latched.foldl (fun s x => s.logAs (Config.logSeverity 0x0502) 0x0502 false x.toNat) s
    let s := s.modMc fun m => { m with latched := [] }.enterHeld
    let s := if again then s.raiseDev 0x041E [item (Config.figure 2 cause), s.mc.restarts] else s
    let s := s.nowServes .mc f
    if s.pwr.step = 0 then
      (s.modPwr fun p => { p with step := 1 }).chooseProfile
    else s

end Sys2Proof.Machine
end

