-- ==== Sys2Proof/Machine/Mgmt.lean ====
section
/-!
DEFINITION. The management controller (R283, R329, R331, R333 to R347, R354, R356 to R358, R377 to R381, R394): restarts, sensors and
limits, the colophon log, the background test of its memory, and the messages of the sideband.
-/

namespace Sys2Proof.Machine

/-! ### Restarts (R329, R335) -/

/-- BINDER_WATCHDOG (R329): the Binder stops; cores, mailboxes and doorbells go on. -/
def execBinderWatchdog (s : State) : Host.Outcome State Fault Refusal :=
  act (s.pwr.main && s.binderRuns) s s.binderDown

/-- The Binder image that has just come up is in service (R352). -/
def State.binderInService (s : State) : State :=
  match s.mc.oldBinder, imageOf s.mc.running .binder with
  | some _, some f =>
    let s := s.modMc fun m => { m with oldBinder := none }
    (s.setIfLevel (BitVec.ofNat 8 (mfLevel f.manifest.toNat))).nowServes .binder f
  | _, _ => s

/-- BINDER_RESTARTED (R329, R352): the Binder is back with its journal: completions that were fixed are held, every Running command goes
on; the restart count is raised. A new image handed over to is then in service. -/
def execBinderRestarted (s : State) : Host.Outcome State Fault Refusal :=
  if !s.pwr.main ∨ s.host.binderUp ∨ s.pwr.step < 8 ∨ s.clk.lost then .next s
  else
    let s := s.modHost fun h => { h with binderUp := true, binderRestarts := h.binderRestarts + 1 }
    .next (s.raiseDev 0x0415 [s.host.binderRestarts]).binderInService

/-- MC_WATCHDOG (R335). -/
def execMcWatchdog (s : State) : Host.Outcome State Fault Refusal := act s.mcRuns s (s.mcDown 1)

/-- The triggers of R345 that are present as the MC starts: no command gives their levels, a free value (log entry 54). -/
def State.triggersNow (s : State) : BitVec 4 := (s.free 0).setWidth 4

/-- MC_RESTART (R335, R340, R345, R347, R350, R353). -/
def execMcRestart (s : State) : Host.Outcome State Fault Refusal :=
  act (s.standbyClocks && !s.mc.up && s.mc.restartCause != 0) s (s.bump.mcStart s.mc.restartCause.toNat s.triggersNow)

/-! ### Sensors (R336, R337, R378) -/

def Mc.sensor? (m : Mc) (g : SensorGroup) (i : Nat) : Option Sensor :=
  match g with
  | .die => m.die[i]?
  | .stack => m.stackT[i]?
  | .board => m.board[i]?
  | .rail => m.rails[i]?
  | .railCurrent => m.railsCurrent[i]?
  | .coolantIn => if i = 0 then some m.coolIn else none
  | .coolantOut => if i = 0 then some m.coolOut else none
  | .inputPower => if i = 0 then some m.power else none

def Mc.setSensor (m : Mc) (g : SensorGroup) (i : Nat) (x : Sensor) : Mc :=
  match g with
  | .die => { m with die := m.die.setIfInBounds i x }
  | .stack => { m with stackT := m.stackT.setIfInBounds i x }
  | .board => { m with board := m.board.setIfInBounds i x }
  | .rail => { m with rails := m.rails.setIfInBounds i x }
  | .railCurrent => { m with railsCurrent := m.railsCurrent.setIfInBounds i x }
  | .coolantIn => { m with coolIn := x }
  | .coolantOut => { m with coolOut := x }
  | .inputPower => { m with power := x }

/-- Warning and shutdown limits of the temperatures in 0.1 °C (R336). -/
def warnLimit : SensorGroup → Option Int
  | .die => some 950 | .stack => some 850 | .board => some 900 | .coolantIn => some 400 | .coolantOut => some 600
  | .rail => none | .railCurrent => none | .inputPower => none
def tripLimit : SensorGroup → Option Int
  | .die => some 1100 | .stack => some 950 | .board => some 1050 | .coolantIn => some 500 | .coolantOut => some 700
  | .rail => none | .railCurrent => none | .inputPower => none

/-- Reading of a failed sensor: 0x8000 (R336). -/
def failedReading : Int := -32768

/-- Die sensors of compute tile t: 16t to 16t + 15 (R336). -/
def Mc.failedOnTile (m : Mc) (t : Nat) : Nat :=
  ((List.range 16).filter fun j => (m.die[16 * t + j]?).elim false fun x => decide (3 ≤ x.fails)).length

def Mc.tileBlind (m : Mc) : Bool := (List.range 4).any fun t => decide (5 ≤ m.failedOnTile t)

/-- A read that failed (R336). -/
def State.failRead (s : State) (g : SensorGroup) (i : Nat) (x : Sensor) : State :=
  if 3 ≤ x.fails then s
  else
    let dead := decide (x.fails = 2)
    let y := { x with fails := x.fails + 1, value := if dead then failedReading else x.value }
    let s := s.modMc fun m => m.setSensor g i y
    if !dead then s
    else
      let s := s.raiseDev 0x041F [item (groupFigure g), item i]
      if g = .die ∧ i < 64 ∧ 5 ≤ s.mc.failedOnTile (i / 16) then s.shutdown (groupFigure g) i failedReading else s

/-- POWER_WARN_W of the active profile (R380). -/
def State.powerWarn (s : State) : Nat := fld s.mc.activeProfile.toNat 184 16

/-- Whether a reading lies beyond its warning limit (R336, R378). The rails of a main domain that is off are not in their windows. -/
def State.beyond (s : State) (g : SensorGroup) (i : Nat) (r : Reading) : Bool :=
  let rail := railOf i
  match g, warnLimit g with
  | .rail, _ => decide (100 * (r.value - rail.nominal).natAbs > 3 * rail.nominal) && (s.pwr.main || decide (20 ≤ i))
  | .railCurrent, _ => decide (100 * r.value > 95 * rail.maxCurrent)
  | .inputPower, _ => decide (s.powerWarn < r.mean)
  | _, some lim => decide (lim < r.value)
  | _, none => false

/-- Whether a warning that was raised is still not re-armed: a temperature has not fallen 5 °C below its limit, a rail is not back in its
window, or input power has not fallen 50 W below its limit (R337, R378). -/
def State.staysWarned (s : State) (g : SensorGroup) (i : Nat) (r : Reading) : Bool :=
  match g, warnLimit g with
  | .inputPower, _ => decide (s.powerWarn < r.mean + 50)
  | _, some lim => decide (lim - 50 < r.value)
  | _, none => s.beyond g i r

/-- A warning with its items (R337, R360, R378). -/
def State.warn (s : State) (g : SensorGroup) (i : Nat) (r : Reading) : State :=
  match g with
  | .rail => s.raiseDev 0x0422 [item i, itemI r.value, itemI ((s.mc.railsCurrent[i]?).getD Sensor.reset).value]
  | .railCurrent => s.raiseDev 0x0422 [item i, itemI ((s.mc.rails[i]?).getD Sensor.reset).value, itemI r.value]
  | .inputPower => s.raiseDev 0x0421 [item r.mean]
  | .die | .stack | .board | .coolantIn | .coolantOut => s.raiseDev 0x0419 [item (groupFigure g), item i, itemI r.value]

/-- A good reading is kept and compared with its warning limit: a warning is raised once, and again after it has been re-armed (R337,
R378). -/
def State.takeReading (s : State) (g : SensorGroup) (i : Nat) (x : Sensor) (r : Reading) : State :=
  let keep := fun (warned : Bool) => s.modMc fun m => m.setSensor g i { value := r.value, mean := r.mean, fails := 0, warned := warned }
  if s.beyond g i r ∧ !x.warned then (keep true).warn g i r else keep (x.warned && s.staysWarned g i r)

/-- SENSOR_READ (R336, R337, R378). -/
def execSensorRead (group : SensorGroup) (index : Nat) (reading : Option Reading) (s : State) : Host.Outcome State Fault Refusal :=
  match s.mc.sensor? group index with
  | none => .next s
  | some x =>
    act s.monitors s (match reading with
      | none => s.failRead group index x
      | some r => s.takeReading group index x r)

/-- The readings in the order of SENSOR_PAGE (R312): die, board and stack temperatures; each rail's voltage, current and phases; input
power, coolant inlet and outlet. -/
def State.sensorPage (s : State) : List Int :=
  let m := s.mc
  m.die.toList.map (·.value) ++ m.board.toList.map (·.value) ++ m.stackT.toList.map (·.value)
    ++ ((List.finRange 22).map fun (r : Fin 22) =>
        [m.rails[r].value, m.railsCurrent[r].value, (s.pwr.phasesOk r.val : Int), ((railOf r.val).fitted : Int)]).flatten
    ++ [m.power.value, m.coolIn.value, m.coolOut.value]

/-- SENSOR_PAGE_REFRESH (R336). -/
def execSensorPageRefresh (s : State) : Host.Outcome State Fault Refusal :=
  act s.mcRuns s (s.modMc fun m => { m with page := s.sensorPage })

/-! ### Shutdown limits (R337, R374, R377, R378) -/

/-- The rails that only the main domain feeds. -/
def mainRail (r : Nat) : Bool := r != 20 && r != 21

/-- THRESHOLD_TRIP (R336, R337): the third reading in a row above a shutdown limit; the comparators of a failed sensor are disabled.
A stack is lost, anything else shuts the main domain down. The comparators work with the MC or the reference stopped. -/
def execThresholdTrip (group : SensorGroup) (index : Nat) (reading : Reading) (s : State) : Host.Outcome State Fault Refusal :=
  match tripLimit group, s.mc.sensor? group index with
  | some lim, some x =>
    if !s.pwr.main ∨ 3 ≤ x.fails ∨ reading.value ≤ lim then .next s
    else if group = .stack then
      let k : StackId := ⟨index % 20, Nat.mod_lt _ (by decide)⟩
      if (s.stack k).state ≠ .service then .next s
      else .next ((s.logTrip (groupFigure group) index reading.value).loseStack k)
    else .next (s.shutdown (groupFigure group) index reading.value)
  | _, _ => .next s

/-- A main rail that is not in its window during start-up step 4: the entry, and the main domain stays off (R382). -/
def State.railsFailed (s : State) (r : Nat) (reading : Int) : State :=
  if s.pwr.main ∨ s.pwr.step ≠ 3 ∨ !mainRail r then s
  else (s.logTrip (groupFigure .rail) r reading).modPwr fun p => { p with needMainOn := true }

/-- RAIL_SHUTDOWN (R378, R379, R382): outside ±8 %, above 110 % of the current, or above the limits of input power; the entry gives the
latest reading. -/
def execRailShutdown (trip : RailTrip) (s : State) : Host.Outcome State Fault Refusal :=
  match trip with
  | .voltage r => .next ((s.railsFailed r.val s.mc.rails[r].value).shutdown (groupFigure .rail) r.val s.mc.rails[r].value)
  | .current r => .next (s.shutdown (groupFigure .railCurrent) r.val s.mc.railsCurrent[r].value)
  | .powerMean1s => .next (s.shutdown (groupFigure .inputPower) 0 s.mc.power.value)
  | .powerMean10ms => .next (s.shutdown (groupFigure .inputPower) 0 s.mc.power.value)

/-- PHASE_SHED (R375 to R377, R379): the phase is out until the next start of the main domain; at N phases the margin is spent; below N
the main domain, or for the standby rails the whole module, shuts down. -/
def execPhaseShed (rail : Fin 23) (phase : Nat) (s : State) : Host.Outcome State Fault Refusal :=
  if !s.pwr.standby ∨ (mainRail rail.val ∧ !s.pwr.main) ∨ (railOf rail.val).fitted ≤ phase ∨ s.pwr.shed.contains (rail, phase) then .next s
  else
    let s := s.modPwr fun p => { p with shed := (rail, phase) :: p.shed }
    let left := s.pwr.phasesOk rail.val
    let s := s.raiseDev 0x0423 [item rail.val, item phase, item left]
    if left = (railOf rail.val).needed then .next (s.raiseDev 0x0424 [item rail.val, item left])
    else if left < (railOf rail.val).needed then
      .next (if mainRail rail.val then s.shutdown (groupFigure .rail) rail.val left else s.allOff)
    else .next s

/-! ### Tamper (R345 to R347) -/

/-- The wipe engine has a clock: the standby clocks run, or the reference was lost no more than 100 µs ago (R346, R371, R394). -/
def State.wipeClock (s : State) : Bool := s.standbyClocks || (s.pwr.standby && s.clk.lost && decide (s.now ≤ s.clk.lostAt + 10000))

/-- TAMPER_TRIGGER (R345, R346): one of the four detectors; they work while the MC restarts. A life-cycle change and the start of the MC
trigger their own wipes, and so does the loss of the reference. -/
def execTamperTrigger (cause : Fin 6) (verifyRetries : Nat) (s : State) : Host.Outcome State Fault Refusal :=
  act (s.wipeClock && decide (cause.val < 4)) s (s.wipe cause verifyRetries)

/-! ### The log (R338 to R340) -/

/-- An entry written to flash with its CRC: the first of a sector erases the sector that follows, 1,024 entries of the ring of 524,288 (R339). -/
def Mc.writeLog (m : Mc) (e : LogEntry) : Mc :=
  let q := e.seq.toNat
  let old := if q % 1024 = 0 then m.flashLog.filter fun x => !(decide (x.seq.toNat + 524288 < q + 2048)) else m.flashLog
  { m with flashLog := e.sealed :: old }

/-- LOG_FLUSH (R339, R340): the buffered entries go to flash in order; with room back, the count of dropped ones is logged. -/
def execLogFlush (s : State) : Host.Outcome State Fault Refusal :=
  if !s.mcRuns ∨ s.host.gate .mcFlash ≠ .opened ∨ s.mc.logBuf = [] then .next s
  else
    let n := s.mc.logDropped
    let s := s.modMc fun m => { m.logBuf.foldl Mc.writeLog m with logBuf := [], logDropped := 0 }
    .next (if n = 0 then s else s.log 0x050B [item n])

/-! ### The background test of the SRAM (R333, R356 to R358) -/

/-- Blocks of 256 bytes that are tested: from 0x0_4000 to the secure region (R356, R357). -/
def Mc.tested (m : Mc) (b : Nat) : Bool := decide (0x4000 ≤ 256 * b) && decide (256 * b + 256 ≤ m.secureBase)

/-- A block may be borrowed: at most one in each 1 ms, and none that failed before (R356). -/
def State.mayBorrow (s : State) (b : Nat) : Bool :=
  s.mc.tested b && !s.mc.excluded.contains b && s.mc.borrowedAt.all fun t => decide (t + 100000 ≤ s.now)

/-- MARCH_BLOCK_TEST (R356, R370): the engine borrows a block; the next MARCH_BLOCK_TEST of that block is the end of its test (log
entry 40): the block is restored and released, and one that failed is excluded from later passes, with MC_SRAM_FAULT. -/
def execMarchBlockTest (block : Nat) (passed : Bool) (s : State) : Host.Outcome State Fault Refusal :=
  if !s.mcRuns ∨ s.host.gate .mcTest ≠ .opened then .next s
  else match s.mc.borrowed with
    | none => act (s.mayBorrow block) s (s.borrow block)
    | some (b, _) =>
      if b ≠ block then .next s
      else
        let s := s.modMc fun m => { m.giveBack with excluded := if passed then m.excluded else block :: m.excluded }
        .next (if passed then s else s.raiseDev 0x0420 [item (256 * block), item (Config.figure 5 0)])

/-- BORROWED_BLOCK_ACCESS (R358): the test of the block is aborted, its words are restored, and the requester is served. -/
def execBorrowedBlockAccess (addr : Nat) (s : State) : Host.Outcome State Fault Refusal :=
  act (s.mcRuns && s.mc.borrowed.any fun b => b.1 == addr / 256) s (s.modMc Mc.giveBack)

/-! ### Messages of the sideband (R283, R331, R337, R340, R341) -/

/-- SHELF_RECORD (R283, R340, R391): the node ID of domain, shelf and SLOT_ID; it waits while a program is staged or active, and the latest
record counts. A record that names domain 63, or figures no node has, is accepted and ignored. -/
def execShelfRecord (domain shelf : Byte) (slotId : BitVec 4) (s : State) : Host.Outcome State Fault Refusal :=
  if !s.sideband then .next s
  else
    let s := s.accept 1
    if 63 ≤ domain.toNat ∨ 64 ≤ shelf.toNat then .next s
    else
      let id : BitVec 16 := BitVec.ofNat 16 (1024 * domain.toNat + 16 * shelf.toNat + slotId.toNat)
      .next (if s.fab.nodeId = id ∧ s.fab.idSource = 0 then s.modFab fun f => { f with shelfWaiting := none }
        else (s.modFab fun f => { f with shelfWaiting := some id }).takeShelf)

/-- SET_UTC (R340, R341). -/
def execSetUtc (utc : W64) (s : State) : Host.Outcome State Fault Refusal :=
  if !s.sideband then .next s
  else
    let old := s.mc.utc
    let again := s.mc.utcValid
    let s := s.modMc fun m => { m with utc := utc, utcValid := true }
    .next ((if again then s.log 0x050C (item2 old.toNat ++ item2 utc.toNat) else s).accept 2)

/-- Every temperature lies below its warning limit (R337). -/
def Mc.cool (m : Mc) : Bool :=
  let ok := fun (lim : Int) (xs : List Sensor) => xs.all fun x => decide (x.value < lim)
  ok 950 m.die.toList && ok 850 m.stackT.toList && ok 900 m.board.toList && ok 400 [m.coolIn] && ok 600 [m.coolOut]

/-- A condition that keeps the main domain off (R336, R337, R374, R394). -/
def State.shutdownRemains (s : State) : Bool := !s.mc.cool || s.mc.tileBlind || !s.pwr.inputOk || !s.pwr.present

/-- MAIN_ON (R337, R340, R374, R381, R394, R395): the main domain may start again, and the breaker's switch may close. -/
def execMainOn (s : State) : Host.Outcome State Fault Refusal :=
  if !s.sideband then .next s
  else if s.pwr.main ∨ !s.pwr.needMainOn then .next (s.accept 3)
  else if s.shutdownRemains then .next (s.refuse 3 0)
  else
    let s := s.modPwr fun p => { p with needMainOn := false, breaker := false }
    .next (s.chooseProfile.tryStep3.accept 3)

/-- LC_NONCE (R340, R344): a fresh nonce, for one request or 60 s. -/
def execLcNonce (nonce : BitVec 256) (s : State) : Host.Outcome State Fault Refusal :=
  act s.sideband s ((s.modMc fun m => { m with nonce := some (nonce, s.now) }).answer (.nonce nonce))

/-- The first reason to refuse a signed request (R344). `tag` is the target state or the key to revoke, as signed. -/
def State.signedBad (s : State) (req : SignedRequest) : Option Nat :=
  let m := s.mc
  let digest := Config.sha384 (leBytes 1 req.target.toNat ++ leBytes 8 req.serial.toNat ++ leBytes 32 req.nonce.toNat)
  if !m.keyAllowed req.keyIndex.toNat req.pubX.toNat req.pubY.toNat
      ∨ !Config.ecdsaVerify req.pubX req.pubY digest req.sigR req.sigS then some 1
  else if !(m.nonce.any fun n => n.1 == req.nonce && decide (s.now < n.2 + 6000000000)) then some 2
  else if req.serial.toNat ≠ m.serial then some 3
  else if s.pwr.main then some 4
  else if m.phase ≠ .idle then some 5
  else none

/-- Later states in the order of the life cycle: the fuse patterns grow (R342, R343). -/
def Mc.laterState (m : Mc) (target : Nat) : Bool :=
  [0x1, 0x3, 0x7, 0xF].contains target && decide (m.fuse 0 4 < target) && m.lifeCycle != .decommissioned

/-- Fields that must not be blank when a device leaves MANUFACTURE for PROVISIONED (R343). -/
def Mc.blank (m : Mc) : Bool :=
  m.serial == 0 || m.secret == 0 || (List.range 3).any fun k => m.keyHash k == 0

/-- Bits blown, each verified; one that fails its retries is logged with them (R342). -/
def State.blow (s : State) (field : Nat) (bits fails : List Nat) : State :=
  let s := s.modMc fun m => m.blow (bits.filter fun b => !fails.contains b)
  (bits.filter fun b => fails.contains b).foldl (fun s b => s.log 0x0503 [item (Config.figure 1 field), item b, item 3]) s

/-- LC_REQUEST (R340, R342 to R345): the secure region is wiped, the LIFECYCLE bits are blown from the lowest up, the change is logged,
and the MC restarts; or the request is refused and nothing changes. The nonce serves one request. -/
def execLcRequest (req : SignedRequest) (blowFails : List Nat) (s : State) : Host.Outcome State Fault Refusal :=
  if !s.sideband then .next s
  else
    let bad := s.signedBad req
    let t := s.modMc fun m => { m with nonce := none }
    match bad with
    | some r => .next (t.refuse 5 r)
    | none =>
      if !s.mc.laterState req.target.toNat ∨ (s.mc.lifeCycle = .manufacture ∧ req.target = 1 ∧ s.mc.blank) then .next (t.refuse 5 6)
      else
        let old := s.mc.fuse 0 4
        let bits := (List.range 4).filter fun i => bitOf req.target.toNat i && !bitOf old i
        let t := (t.wipeSelf 4).blow 0 bits blowFails
        let t := t.log 0x0504 [item old, item (t.mc.fuse 0 4), item req.keyIndex.toNat]
        .next ((t.accept 5).mcDown 4)

/-- KEY_REVOKE (R340, R344): signed by another key than the one it revokes; refused when no unrevoked key would be left, or when a stored
image carries the key. -/
def execKeyRevoke (req : RevokeRequest) (s : State) : Host.Outcome State Fault Refusal :=
  if !s.sideband then .next s
  else
    let k := req.signed.target.toNat
    let bad := s.signedBad req.signed
    let t := s.modMc fun m => { m with nonce := none }
    match bad with
    | some r => .next (t.refuse 6 r)
    | none =>
      if 3 ≤ k ∨ s.mc.revoked k ∨ req.signed.keyIndex.toNat = k ∨ ((List.range 3).all fun j => j == k || s.mc.revoked j)
          ∨ (s.mc.images.any fun p => mfKey p.2.manifest.toNat == k) then .next (t.refuse 6 7)
      else
        let old := s.mc.fuse 0 4
        let t := (t.wipeSelf 4).blow 3 [8 + k] req.blowFails
        let t := t.log 0x0504 [item old, item old, item req.signed.keyIndex.toNat]
        .next ((t.accept 6).mcDown 4)

/-- SVN_COMMIT (R340, R342, R354). -/
def execSvnCommit (req : SvnRequest) (s : State) : Host.Outcome State Fault Refusal :=
  let count := req.count
  if !s.sideband then .next s
  else if count = 0 ∨ 128 < count ∨ count ≤ s.mc.rollback ∨ s.mc.images.any fun p => decide (mfSvn p.2.manifest.toNat < count) then
    .next (s.refuse 7 8)
  else .next ((s.blow 4 ((List.range count).map (16 + ·)) req.blowFails).accept 7)

/-- The clock and power part of a profile, bits [255:128], in range with its reserved bits zero (R380). -/
def clockPartOk (x : Nat) : Bool :=
  let within := fun (lo w a b : Nat) => decide (a ≤ fld x lo w) && decide (fld x lo w ≤ b)
  (fld x 0 4 == 8 || fld x 0 4 == 6 || fld x 0 4 == 4) && fld x 4 4 == 0 && within 8 8 4 12 && within 16 8 8 24 && within 24 8 4 16
    && within 32 8 2 8 && within 40 4 0 10 && within 44 4 0 10 && within 48 4 0 10 && fld x 52 4 == 0 && within 56 16 500 1500
    && fld x 72 56 == 0

/-- PROFILE_WRITE (R340, R370, R380, R381): with the flash interface's gate closed the write ends with a bus error, and the message is
refused (log entry 54). -/
def execProfileWrite (profile : Byte) (bits : BitVec 128) (s : State) : Host.Outcome State Fault Refusal :=
  if !s.sideband then .next s
  else if h : profile.toNat < 4 then
    if !clockPartOk bits.toNat then .next (s.refuse 8 9)
    else if s.profileLock then .next (s.answer (.result 8 1))
    else if s.host.gate .mcFlash ≠ .opened then .next (s.refuse 8 10)
    else .next ((s.writeProfile ⟨profile.toNat, h⟩ 128 128 bits.toNat).accept 8)
  else .next (s.refuse 8 9)

/-- MCTP_CONTROL (R331, R343, R353): answered by the firmware in every life-cycle state, and by the loader in recovery. The code of Set
Endpoint ID is DSP0236's, and an address is given on the I3C bus without an answer (PRESUMED, log entry 8). -/
def execMctpControl (ask : MctpAsk) (s : State) : Host.Outcome State Fault Refusal :=
  act s.sidebandUp s (match ask with
    | .setEndpoint eid => (s.modMc fun m => { m with eid := eid }).answer (.mctp 1)
    | .assignAddress a => s.modMc fun m => { m with i3cAddress := a }
    | .control code => s.answer (.mctp code))

/-- The PLDM types that are served: updates not in DECOMMISSIONED (R331, R343, R351), monitoring not in recovery (R353). -/
def State.pldmTypes (s : State) : List Nat :=
  0 :: ((if s.monitors then [2] else []) ++ if s.mc.lifeCycle = .decommissioned then [] else [5])

/-- The figure of a numeric sensor: one for each figure of SENSOR_PAGE (R331, R336). -/
def State.pldmFigure (s : State) (ask : PldmAsk) (index : Nat) : Option Int :=
  match ask with
  | .base _ => none
  | .sensor g => (s.mc.sensor? g index).map (·.value)
  | .phasesOk => some (s.pwr.phasesOk index)
  | .phasesFitted => some ((railOf index).fitted)

/-- PLDM_MONITORING (R331, R336, R343, R353): Type 0 requests are served wherever the sideband is, and name the types; the latest reading
of a sensor not in recovery. -/
def execPldmMonitoring (ask : PldmAsk) (index : Nat) (s : State) : Host.Outcome State Fault Refusal :=
  match ask, s.pldmFigure ask index with
  | .base c, _ => act s.sidebandUp s (s.answer (.base c s.pldmTypes))
  | _, some x => act (s.sidebandUp && s.monitors) s (s.answer (.reading x))
  | _, none => .next s

end Sys2Proof.Machine
end

