-- ==== Sys2Proof/Machine/Update.lean ====
section
/-!
DEFINITION. Firmware updates and recovery (R348 to R353) and attestation (R355).

The first FIRMWARE_DATA of an update is the manifest with its digest table, each later one a chunk (R351).
-/

namespace Sys2Proof.Machine

/-! ### PLDM (R331, R351) -/

/-- PLDM command codes and completion codes of DSP0267 (PRESUMED, log entry 8). -/
def pldmCode : UpdatePhase → Nat
  | .idle => 0x1A | .requested => 0x10 | .table => 0x13 | .sweep1 => 0x15 | .sweep2 => 0x15
  | .transferred => 0x16 | .verified => 0x17 | .applied => 0x18

def State.pldm (s : State) (command completion : Nat) : State :=
  s.answer (.pldm (BitVec.ofNat 8 command) (BitVec.ofNat 8 completion))

/-- A phase reached, and answered as done. -/
def State.toPhase (s : State) (p : UpdatePhase) : State := (s.modMc fun m => { m with phase := p }).pldm (pldmCode p) 0

/-- Updates are served in every life-cycle state but DECOMMISSIONED, by the firmware or by the loader in recovery (R351, R353). -/
def State.updates (s : State) : Bool := s.sidebandUp && s.mc.lifeCycle != .decommissioned

/-- REQUEST_UPDATE (R351): a second request while an update is open gets ALREADY_IN_UPDATE_MODE. -/
def execRequestUpdate (agent : Nat) (s : State) : Host.Outcome State Fault Refusal :=
  if !s.updates then .next s
  else if s.mc.phase ≠ .idle then .next (s.pldm 0x10 0x81)
  else .next ((s.modMc fun m => { m with agent := agent, component := none, staging := [], chunk := 0 }).toPhase .requested)

/-- PASS_COMPONENT_TABLE (R351). -/
def execPassComponentTable (components : List Component) (s : State) : Host.Outcome State Fault Refusal :=
  act (s.updates && s.mc.phase == .requested && components != []) s (s.toPhase .table)

/-- UPDATE_COMPONENT (R351, R353): one component at a time; the loader in recovery takes an MC image only. -/
def execUpdateComponent (component : Component) (s : State) : Host.Outcome State Fault Refusal :=
  act (s.updates && (s.mc.phase == .table || s.mc.phase == .applied) && (!s.mc.recovery || component == .mc)) s
    (((s.modMc fun m => { m with component := some component, staging := [], chunk := 0 }).toPhase .sweep1).pldm 0x14 0)

/-- The manifest and the table as staged; a digest is read with its highest byte first, a key hash with its lowest bits in the lowest fuses
(DESIGN CHOICE, log entry 73). -/
def Mc.stagedManifest (m : Mc) : Nat := leNat (m.staging.take 512)
def Mc.stagedDigests (m : Mc) : List (BitVec 384) :=
  (List.range (mfChunks m.stagedManifest)).map fun k => BitVec.ofNat 384 (beNat ((m.staging.drop (512 + 48 * k)).take 48))

/-- The lowest-ID neighbour that advertises an image of a component whose SVN is at least the ROLLBACK count (R353): its node and the lane
to it. -/
def State.imageSource (s : State) (c : Component) : Option LaneId :=
  let offers := allLanes.filter fun l =>
    (s.link l).open && decide (s.mc.rollback ≤ Config.offeredSvn (s.link l).partner (compCode c))
  (leastOf (offers.map fun l => (s.link l).partner.toNat)).bind fun n => offers.find? fun l => (s.link l).partner.toNat == n

/-- The component is asked for over CONTROL (R353). -/
def State.askImage (s : State) (c : Component) : State :=
  match s.imageSource c with
  | none => s
  | some l =>
    (s.modMc fun m => { m with askedSerial := some (BitVec.ofNat 64 (prSerial (s.link l).record.toNat)) }).send (s.link l).partner
      (.fwRequest (BitVec.ofNat 8 (compCode c)))

/-- The download stops with a result code (R350, R351). Over the fabric the component is asked for again until the time is up (R353). -/
def State.stopDownload (s : State) (code : Nat) : State :=
  let again := s.mc.viaFabric
  let c := s.mc.component
  let s := (s.modMc fun m =>
    { m with phase := if again then .sweep1 else .table, component := if again then m.component else none, staging := [], chunk := 0 }).answer
    (.verify (BitVec.ofNat 8 code))
  match again, c with
  | true, some c => s.askImage c
  | _, _ => s

/-- A chunk is whole and matches its digest. -/
def Mc.goodChunk (m : Mc) (bytes : List Byte) : Bool :=
  bytes.length == chunkLen (mfLength m.stagedManifest) m.chunk && m.stagedDigests[m.chunk]? == some (Config.sha384 bytes)

/-- A chunk written in the slot: the first one replaces the manifest, the table and whatever was there (R351). -/
def Mc.writeChunk (m : Mc) (c : Component) (bytes : List Byte) : Mc :=
  let f : FwImage :=
    match m.chunk, imageOf m.images c with
    | 0, _ => { manifest := BitVec.ofNat 4096 m.stagedManifest, digests := m.stagedDigests, body := bytes }
    | _, some f => { f with body := f.body ++ bytes }
    | _, none => { manifest := BitVec.ofNat 4096 m.stagedManifest, digests := m.stagedDigests, body := bytes }
  { m with images := putImage m.images c f, chunk := m.chunk + 1 }

/-- FW_WRITTEN, and FW_RECOVERY where the image was written during recovery: component, source, partner serial (R340, R351, R353). -/
def State.logWritten (s : State) (c : Component) (fabric : Bool) : State :=
  match imageOf s.mc.images c with
  | none => s
  | some f =>
    let rec? := s.mc.recovering == some c || (s.mc.recovery && c == .mc)
    let s := s.log 0x0505 (fwItems c f)
    let serial := if fabric then (s.mc.askedSerial.getD 0).toNat else 0
    let s := if rec? then s.log 0x0506 (item (compCode c) :: item (if fabric then 1 else 0) :: item2 serial) else s
    s.modMc fun m => if m.recovering = some c then { m with recovering := none, fabricTried := false, askedSerial := none } else m

/-- The last chunk of an image that came over the fabric: it is verified whole and recovery of the component ends (R353). -/
def State.fabricImage (s : State) (c : Component) : State :=
  match s.mc.validImage c with
  | some _ => ((s.logWritten c true).modMc fun m => { m with phase := .idle, component := none, staging := [], chunk := 0 })
  | none => s.stopDownload 0x95

/-- FIRMWARE_DATA (R348 to R351, R353): in the first sweep conditions 1 to 6 are checked and nothing is kept; in the second each chunk is
checked again and written in place. -/
def execFirmwareData (bytes : List Byte) (s : State) : Host.Outcome State Fault Refusal :=
  match s.mc.component with
  | none => .next s
  | some c =>
    let m := s.mc
    let path := s.updates || (m.viaFabric && s.mcRuns && s.pwr.main)
    if !path then .next s
    else if m.phase = .sweep1 ∧ m.staging = [] then
      let t := s.modMc fun m => { m with staging := bytes }
      let ds := t.mc.stagedDigests
      if bytes.length ≠ 512 + 48 * ds.length then .next (s.stopDownload 0x90)
      else match m.checkManifest c t.mc.stagedManifest ds with
        | some x => .next (s.stopDownload x)
        | none => .next (if ds = [] then t.modMc fun m => { m.writeChunk c [] with phase := .sweep2, chunk := 0 } else t)
    else if m.phase = .sweep1 then
      if !m.goodChunk bytes then .next (s.stopDownload 0x95)
      else if m.chunk + 1 = m.stagedDigests.length then .next (s.modMc fun m => { m with phase := .sweep2, chunk := 0 })
      else .next (s.modMc fun m => { m with chunk := m.chunk + 1 })
    else if m.phase = .sweep2 ∧ m.chunk < m.stagedDigests.length ∧ s.host.gate .mcFlash = .opened then
      if !m.goodChunk bytes then .next (s.stopDownload 0x95)
      else
        let s := s.modMc fun m => m.writeChunk c bytes
        .next (if s.mc.viaFabric ∧ s.mc.chunk = s.mc.stagedDigests.length then s.fabricImage c else s)
    else .next s

/-- TRANSFER_COMPLETE (R351): the second sweep is over. -/
def execTransferComplete (s : State) : Host.Outcome State Fault Refusal :=
  act (s.updates && s.mc.phase == .sweep2 && s.mc.chunk == s.mc.stagedDigests.length && !s.mc.viaFabric) s (s.toPhase .transferred)

/-- VERIFY_COMPLETE (R350, R351): the stored image is checked whole. -/
def execVerifyComplete (s : State) : Host.Outcome State Fault Refusal :=
  match s.mc.component with
  | none => .next s
  | some c =>
    if !s.updates ∨ s.mc.phase ≠ .transferred then .next s
    else match imageOf s.mc.images c with
      | none => .next s
      | some f =>
        match s.mc.verify c f with
        | none => .next ((s.toPhase .verified).answer (.verify 0))
        | some x => .next (s.stopDownload x)

/-- APPLY_COMPLETE (R340, R351, R353): FW_WRITTEN; the image runs only after activation. -/
def execApplyComplete (s : State) : Host.Outcome State Fault Refusal :=
  match s.mc.component with
  | none => .next s
  | some c =>
    act (s.updates && s.mc.phase == .verified) s
      (((s.logWritten c false).modMc fun m =>
        { m with written := c :: m.written.filter (· ≠ c), component := none, staging := [], chunk := 0 }).toPhase .applied)

/-- A written image is activated (R352): it is pending until it enters service. The Binder hands over as in a restart; one that does not run,
as in recovery, boots from the stored image at start-up step 8, where microcode is loaded at step 6; the MC restarts. -/
def State.activateOne (s : State) (c : Component) : State :=
  match imageOf s.mc.images c with
  | none => s
  | some f =>
    let s := s.modMc fun m => { m with pending := m.pending.filter (· ≠ c) ++ [c] }
    if c = .binder ∧ s.binderRuns then
      (s.modMc fun m => { m with oldBinder := imageOf m.running .binder, running := putImage m.running .binder f }).binderDown
    else s

/-- ACTIVATE_FIRMWARE (R335, R352): every written image; an MC image last. -/
def execActivateFirmware (s : State) : Host.Outcome State Fault Refusal :=
  if !s.updates ∨ s.mc.phase ≠ .applied then .next s
  else
    let xs := s.mc.written
    let s := xs.foldl State.activateOne s
    let s := (s.modMc fun m => { m with written := [] }).toPhase .idle
    .next (if xs.contains .mc then
        (if s.mc.recovery then s.modMc fun m => { m with recovery := false } else s).mcDown 3
      else s)

/-- FW_ACTIVATE_FAILED (R352): the new Binder has not reported up within 2 s; the old copy resumes. -/
def execFwActivateFailed (s : State) : Host.Outcome State Fault Refusal :=
  match s.mc.oldBinder, imageOf s.mc.running .binder with
  | some old, some new =>
    if s.host.binderUp ∨ !s.pwr.main then .next s
    else
      let s := s.modMc fun m => { m with running := putImage m.running .binder old, oldBinder := none }
      .next ((s.modHost fun h => { h with binderUp := true }).raiseDev 0x041D
        [item (compCode .binder), item (mfVersion new.manifest.toNat)])
  | _, _ => .next s

/-! ### Recovery of a component (R353) -/

/-- A Binder or microcode image has failed: it is asked for over the fabric, unless the link-controller microcode itself has failed, and
then over PLDM. Until a manifest has come it is asked for again. -/
def State.recoverComponent (s : State) (c : Component) : State :=
  if s.mc.recovering = some c ∧ s.mc.viaFabric ∧ s.mc.staging = [] then s.askImage c
  else if s.mc.recovering = some c ∨ s.mc.phase ≠ .idle then s
  else
    let fabric := c != .linkUcode && (s.mc.validImage .linkUcode).isSome
    let s := s.modMc fun m =>
      { m with recovering := some c, fabricTried := !fabric, phase := if fabric then .sweep1 else .idle,
               component := if fabric then some c else none, staging := [], chunk := 0 }
    if fabric then s.askImage c else s

/-- FABRIC_RECOVERY_TIMEOUT (R353): after 30 s the MC waits, without limit, for an update agent. -/
def execFabricRecoveryTimeout (s : State) : Host.Outcome State Fault Refusal :=
  act (s.mcRuns && s.mc.viaFabric) s
    (s.modMc fun m => { m with fabricTried := true, phase := .idle, component := none, staging := [], chunk := 0 })

/-! ### SPDM (R331, R347, R355) -/

/-- The identity key, where the region holds it and its port is open. -/
def Mc.signer (m : Mc) : Option (BitVec 384) := if m.portClosed then none else m.key

/-- A free value of n words. -/
def State.freeBits (s : State) (k n : Nat) : Nat := ((List.range n).map fun j => (s.free (k + j)).toNat * 2 ^ (64 * j)).sum

/-- A signature over a transcript: the manual names SPDM 1.2 and does not restate its transcript, whose digest is a free value (log
entry 8). -/
def State.sign (s : State) (key : BitVec 384) : BitVec 768 := Config.ecdsaSign key (BitVec.ofNat 384 (s.freeBits 0 6))

/-- Codes of an SPDM ERROR: InvalidRequest, UnexpectedRequest, Unspecified (R347; the numbers PRESUMED of DSP0274, log entry 8). -/
def invalidRequest : Byte := 0x01
def unexpectedRequest : Byte := 0x04
def unspecified : Byte := 0x05

/-- An exchange goes on when the one before it has been made: version, capabilities, algorithms (PRESUMED of DSP0274, log entry 8). -/
def State.spdmStep (s : State) (need : Nat) (t : State) : Host.Outcome State Fault Refusal :=
  if !s.sideband then .next s else .next (if need ≤ s.mc.spdm then t else s.answer (.spdmError unexpectedRequest))

/-- GET_VERSION (R355): begins the exchange anew. -/
def execGetVersion (s : State) : Host.Outcome State Fault Refusal :=
  s.spdmStep 0 ((s.modMc fun m => { m with spdm := 1 }).answer .version)

/-- GET_CAPABILITIES (R355). -/
def execGetCapabilities (s : State) : Host.Outcome State Fault Refusal :=
  s.spdmStep 1 ((s.modMc fun m => { m with spdm := 2 }).answer .capabilities)

/-- NEGOTIATE_ALGORITHMS (R331, R355): ECDSA P-384 and SHA-384, nothing else. -/
def execNegotiateAlgorithms (ecdsaP384 sha384 : Bool) (s : State) : Host.Outcome State Fault Refusal :=
  let ok := ecdsaP384 && sha384
  s.spdmStep 2 ((s.modMc fun m => { m with spdm := if ok then 3 else 2 }).answer (.algorithms ok))

/-- GET_DIGESTS (R355): slot 0; in MANUFACTURE no slot. -/
def execGetDigests (s : State) : Host.Outcome State Fault Refusal :=
  s.spdmStep 3 (s.answer (.digests (if s.mc.lifeCycle = .manufacture then [] else [Config.sha384 s.mc.certChain])))

/-- GET_CERTIFICATE (R355): bytes of the chain of slot 0. -/
def execGetCertificate (offset len : Nat) (s : State) : Host.Outcome State Fault Refusal :=
  s.spdmStep 3 (s.answer (if s.mc.lifeCycle = .manufacture then .spdmError invalidRequest
    else .certificate ((s.mc.certChain.drop offset).take len)))

/-- CHALLENGE (R347, R355): without the identity key, an SPDM ERROR of code Unspecified. -/
def execChallenge (nonce : BitVec 256) (s : State) : Host.Outcome State Fault Refusal :=
  let _ := nonce
  match s.mc.signer with
  | some k => s.spdmStep 3 (s.answer (.signature (s.sign k))).bump
  | none => s.spdmStep 3 (s.answer (.spdmError unspecified))

/-- The digest of a running image; a component that does not run has none that the manual states (log entry 7). -/
def State.runningDigest (s : State) (c : Component) : BitVec 384 :=
  match imageOf s.mc.running c with
  | some f => signedDigest f.manifest.toNat f.digests
  | none => BitVec.ofNat 384 (s.freeBits (100 + 6 * compCode c) 6)

/-- Measurements 1 to 8 (R355). -/
def State.measurement (s : State) (i : Nat) : BitVec 384 :=
  if i = 1 then Config.maskRomDigest
  else if i = 2 then s.runningDigest .mc
  else if i = 3 then s.runningDigest .binder
  else if i = 4 then s.runningDigest .linkUcode
  else if i = 5 then s.runningDigest .memUcode
  else if i = 6 then
    Config.fuseDigest [s.mc.fuse 0 4, s.mc.fuse 4 1, s.mc.fuse 5 1, s.mc.fuse 8 3, s.mc.rollback, s.mc.fuse 6 2, s.mc.serial]
  else if i = 7 then Config.sha384 (leBytes 256 s.mc.profiles[s.mc.activeIndex].toNat)
  else
    match s.prog.active with
    | some img => Config.sha384 (leBytes 8 img.bounds.programId.toNat ++ leBytes 4 img.crc.toNat)
    | none => Config.sha384 (List.replicate 12 0)

/-- GET_MEASUREMENTS (R347, R355): one index, or all for 0xFF (PRESUMED of DSP0274, log entry 8); signed only with the identity key. -/
def execGetMeasurements (index : Byte) (signed : Bool) (nonce : BitVec 256) (s : State) : Host.Outcome State Fault Refusal :=
  let _ := nonce
  let i := index.toNat
  let which := if i = 0xFF then some ((List.range 8).map (· + 1)) else if 1 ≤ i ∧ i ≤ 8 then some [i] else none
  match which with
  | none => s.spdmStep 3 (s.answer (.spdmError invalidRequest))
  | some is =>
    let ds := is.map s.measurement
    if signed then
      match s.mc.signer with
      | some k => s.spdmStep 3 (s.answer (.measurement ds (some (s.sign k)))).bump
      | none => s.spdmStep 3 (s.answer (.spdmError unspecified))
    else s.spdmStep 3 (s.answer (.measurement ds none)).bump

end Sys2Proof.Machine
end

