-- ==== Sys2Proof/Machine/Startup.lean ====
section
/-!
DEFINITION. Clocks, the input, start-up and hot swap (R267, R361 to R384, R393 to R395).

`Power.step` is the step of R382 last completed. `Clocks.stage` is how far the return of R372 has come: 1 qualified, 2 the SBPLL locked,
3 the main PLLs locked, 4 ACLK ramped, 5 the stacks retrained.
-/

namespace Sys2Proof.Machine

/-! ### The input (R374, R393 to R395) -/

/-- STANDBY_ON (R342, R374, R382): the fuse reader copies the array to the shadow. -/
def execStandbyOn (s : State) : Host.Outcome State Fault Refusal :=
  act (!s.pwr.standby) s ((s.modPwr fun p => { p with standby := true }).modMc fun m => { m with fuses := m.fuseArray })

/-- STANDBY_OFF (R340, R374). -/
def execStandbyOff (s : State) : Host.Outcome State Fault Refusal := act s.pwr.standby s s.allOff

/-- The input leaves its range: the main domain shuts down; the entry gives the latest reading of the input sensor (R374, R379). -/
def State.inputBad (s : State) (index : Nat) : State :=
  (s.modPwr fun p => { p with inputOk := false }).shutdown (groupFigure .inputPower) index s.mc.power.value

/-- MAIN_UNDERVOLTAGE (R374). -/
def execMainUndervoltage (s : State) : Host.Outcome State Fault Refusal := act s.pwr.standby s (s.inputBad 0)

/-- MAIN_OVERVOLTAGE (R374). -/
def execMainOvervoltage (s : State) : Host.Outcome State Fault Refusal := act s.pwr.standby s (s.inputBad 0)

/-- INPUT_CLAMP (R374). -/
def execInputClamp (s : State) : Host.Outcome State Fault Refusal :=
  act s.pwr.standby s ((s.modPwr fun p => { p with clamp := true }).inputBad 0)

/-- MAIN_START_ALLOWED (R374, R382): the input lies within 36 V to 48 V. -/
def execMainStartAllowed (s : State) : Host.Outcome State Fault Refusal :=
  act s.pwr.standby s (s.modPwr fun p => { p with inputOk := true, clamp := false }).tryStep3

/-- HOT_SWAP_SWITCH_ON (R393, R395): the first-stage input is charged. -/
def execHotSwapSwitchOn (s : State) : Host.Outcome State Fault Refusal :=
  act (s.pwr.standby && s.pwr.present && s.pwr.inputOk && !s.pwr.breaker) s (s.modPwr fun p => { p with switchOn := true })

/-- MODULE_EXTRACT (R374, R379, R394): PRESENT_N goes high; the group that THRESHOLD_TRIP then names the manual does not state. -/
def execModuleExtract (s : State) : Host.Outcome State Fault Refusal :=
  if !s.pwr.present then .next s
  else
    let s := s.log 0x050E [item (if s.pwr.main then 1 else 0)]
    let s := s.shutdown (Config.figure 0 7) 0 0
    .next (s.modPwr fun p => { p with present := false, needMainOn := true })

/-- BREAKER_TRIP (R395): above 56 A, in 0.1 A; the switch turns off and stays off until MAIN_ON. -/
def execBreakerTrip (current : Nat) (s : State) : Host.Outcome State Fault Refusal :=
  if !s.pwr.switchOn ∨ current ≤ 560 then .next s
  else
    let t := s.logTrip 22 0 current
    let t := if t.pwr.main then t.mainOff else t
    .next (t.modPwr fun p => { p with switchOn := false, breaker := true, needMainOn := true })

/-! ### The reference (R267, R361, R371 to R373) -/

/-- The MC has left reset. -/
def Mc.started (m : Mc) : Bool := m.up || m.recovery || m.restartCause != 0

/-- REFCLK_PRESENCE (R361, R382): an MC whose reset only the reference still held leaves it. -/
def execRefclkPresence (s : State) : Host.Outcome State Fault Refusal :=
  if !s.pwr.standby ∨ s.clk.refPresent then .next s
  else
    let t := s.modClk fun c => { c with refPresent := true }
    .next (if s.pwr.present ∧ !s.mc.started then t.bump.mcStart 0 s.triggersNow else t)

/-- REFCLK_QUALIFIED (R361, R372, R373, R382): one window more; with the last one needed the reference is qualified and the monitor
armed, and after a loss the return begins. -/
def execRefclkQualified (s : State) : Host.Outcome State Fault Refusal :=
  if !s.pwr.standby ∨ !s.clk.refPresent ∨ s.clk.qualified then .next s
  else if 1 < s.clk.windowsLeft then .next (s.modClk fun c => { c with windowsLeft := c.windowsLeft - 1 })
  else
    let s := s.modClk fun c =>
      { c with qualified := true, armed := true, windowsNeed := 1, windowsLeft := 1, lost := false, returning := c.lost,
               stage := if c.lost then 1 else c.stage }
    .next s.tryStep3

/-- A PLL is locking, at start-up step 5 or on a return (R373). -/
def State.pllLocking (s : State) : Bool :=
  (s.clk.returning && decide (s.clk.stage < 3)) || (s.pwr.main && s.pwr.step == 4 && s.clk.ramp == 0)

/-- A PLL is locking, or the return sequence is not over, its links included: two windows are then needed (R373). -/
def State.twoWindows (s : State) : Bool := s.pllLocking || s.clk.returning || s.clk.stage == 5

/-- The counter loses its validity; the interrupted frame will enter the ring with GAP (R252, R267). -/
def Cadence.stop (c : Cadence) : Cadence :=
  { c with valid := false, aligned := false, markPending := false, rootFrame := none,
           gapFrame := if c.valid then some c.frame else c.gapFrame }

/-- The step in progress fails with CLOCK_LOSS; it is discarded and replayed once the clocks are back (R267, R371). -/
def State.clockLoss (s : State) : State :=
  match s.prog.active with
  | some img =>
    if s.prog.phase = .steps ∧ s.prog.released ∧ !img.direct then (s.abortStep img).fault 0x12 noCore else s
  | none => s

/-- REFCLK_LOSS (R252, R267, R277, R308, R345, R361, R371, R373): the safe states. Links and PCIe ports go down, the stacks enter
self-refresh, ALERT_N and CLK_OK go low, the secure region is wiped, and everything waits with its state kept. Start-up that was
locking its PLLs goes back to qualification, and the standby domain goes on from REFCLK itself. While the reference qualifies, a window
that fails begins the windows anew. -/
def execRefclkLoss (s : State) : Host.Outcome State Fault Refusal :=
  if !s.clk.armed then .next (s.modClk fun c => { c with windowsLeft := c.windowsNeed })
  else
    let two := s.twoWindows
    let bypass := s.pllLocking
    let ports := [PciePort.a, PciePort.b].filter fun p => (s.host.port p).up || s.clk.portsBack.contains p
    let s := s.wipeSelf 2
    let s := if s.pwr.main then s.clockLoss else s
    let s := allLanes.foldl (fun s l => if (s.link l).open ∨ (s.link l).bringUp then s.takeDown l .negotiating else s) s
    let s := s.modHost fun h =>
      { h with portA := { h.portA with up := false, downAt := if h.portA.up then s.now else h.portA.downAt },
               portB := { h.portB with up := false, downAt := if h.portB.up then s.now else h.portB.downAt } }
    let s : State := { s with hbm := s.hbm.map fun (k : Stack) => { k with selfRefresh := true } }
    let s := s.modCad Cadence.stop
    let s := s.modPwr fun p => { p with alert := true, clkOk := false }
    .next (s.modClk fun c =>
      { c with qualified := false, armed := false, lost := true, returning := false, stage := 0, locked := [], ramp := 0,
               windowsNeed := if two then 2 else 1, windowsLeft := if two then 2 else 1, bypass := bypass, portsBack := ports, lostAt := s.now, lostFrame := s.cad.frame })

/-! ### PLLs and the ramp (R362, R366, R367, R372, R382) -/

/-- The PLLs of the main domain; the one of a stack that is lost or absent stays off (R362, R368). -/
def State.mainPlls (s : State) : List Pll :=
  (List.finRange 4).map .ap ++ (List.finRange 6).map .sp ++ [.bp]
    ++ ((allStacks.filter fun k => (s.stack k).state = .service).map .mp) ++ (List.finRange 8).map .lp ++ [.pp .a, .pp .b]

def State.mainLocked (s : State) : Bool := s.mainPlls.all fun p => s.clk.locked.contains p

/-- The SBPLL locks: PCLK switches, and start-up step 2 is complete; after a loss the MC resumes and REFCLK_LOST gives the outage in µs
and the frame at the loss (R372, R373, R382). -/
def State.sbLock (s : State) : State :=
  let s := s.modClk fun c => { c with locked := .sb :: c.locked, bypass := false }
  let s := if s.clk.returning ∧ s.clk.stage = 1 then
      (s.modClk fun c => { c with stage := if s.pwr.main then 2 else 0, returning := s.pwr.main }).raiseDev 0x0425
        (item ((s.now - s.clk.lostAt) / 100) :: item2 s.clk.lostFrame.toNat)
    else s
  if s.pwr.step = 1 ∧ s.mc.lifeCycle ≠ .decommissioned then (s.modPwr fun p => { p with step := 2 }).tryStep3 else s

/-- PLL_LOCK (R362, R367, R372, R382): with the main PLLs locked on a return, CLK_OK goes high and the Binder resumes. Start-up step 2
locks the SBPLL before the reference is qualified (R382). -/
def execPllLock (pll : Pll) (s : State) : Host.Outcome State Fault Refusal :=
  if s.clk.locked.contains pll ∨ s.clk.lost then .next s
  else if pll = .sb then
    act (s.pwr.standby && s.clk.refPresent && decide (1 ≤ s.pwr.step)) s s.sbLock
  else if !s.mainPlls.contains pll ∨ !s.pwr.main ∨ !s.clk.qualified ∨ (s.clk.returning ∧ s.clk.stage < 2) ∨ s.pwr.step < 4 then .next s
  else
    let s := s.modClk fun c => { c with locked := pll :: c.locked }
    if s.mainLocked ∧ s.clk.returning ∧ s.clk.stage = 2 then
      .next ((s.modClk fun c => { c with stage := 3 }).modPwr fun p => { p with clkOk := true })
    else .next s

/-- Lanes begin their bring-up when the lane clocks run (R274, R382). -/
def State.startLanes (s : State) : State :=
  s.modFab fun f => { f with links := f.links.map fun k => if k.phase = .failed then { k with phase := .negotiating } else k }

/-- ACLK_RAMP_STEP (R366, R372, R382): eight steps; the last completes start-up step 5, with CLK_OK high and the lanes in bring-up, or
the ramp of a return. -/
def execAclkRampStep (s : State) : Host.Outcome State Fault Refusal :=
  if !s.pwr.main ∨ s.clk.lost ∨ !s.mainLocked ∨ 8 ≤ s.clk.ramp then .next s
  else
    let s := s.modClk fun c => { c with ramp := c.ramp + 1 }
    if s.clk.ramp < 8 then .next s
    else if s.clk.returning ∧ s.clk.stage = 3 then .next (s.modClk fun c => { c with stage := 4 })
    else if s.pwr.step = 4 then .next ((s.modPwr fun p => { p with step := 5, clkOk := true }).startLanes)
    else .next s

/-- STACK_RETRAIN_DONE (R368, R371, R372): the stacks are back; the return sequence is complete once the program's links are up again.
A start-up that was broken off goes on where it was. -/
def execStackRetrainDone (s : State) : Host.Outcome State Fault Refusal :=
  if !s.pwr.main ∨ s.clk.lost ∨ !s.clk.returning ∨ s.clk.stage ≠ 4 then .next s
  else
    let s : State := { s with hbm := s.hbm.map fun (k : Stack) => if k.state = .service ∧ 6 ≤ s.pwr.step then { k with selfRefresh := false } else k }
    let s := s.modClk fun c => { c with stage := 5 }
    let s := if s.pwr.step = 4 then (s.modPwr fun p => { p with step := 5 }).startLanes else s
    let s := if s.pwr.step = 10 ∧ s.deviceState = 0 then s.modPwr fun p => { p with alert := false } else s
    .next s.endReturn

/-! ### Start-up (R353, R361, R382, R391) -/

/-- MC_RESET_RELEASE (R340, R342, R345, R350, R381, R382, R391, R393): PRESENT_N has been low for 10 ms; with the reference
present, step 1 and the reads of step 2, else the reset is held. A lever that closes again only sets PRESENT_N (R394). -/
def execMcResetRelease (pins : ResetPins) (s : State) : Host.Outcome State Fault Refusal :=
  if !s.pwr.standby ∨ s.pwr.present then .next s
  else
    let s := s.modPwr fun p => { p with present := true }
    if s.mc.started then .next s
    else
      let s := s.modMc fun m => { m with profPins := pins.profsel.toFin }
      .next (if s.clk.refPresent then s.mcStart 0 pins.triggers else s)

/-- The profile is chosen anew where what would be chosen is no longer what was: another profile, or other content (R381). -/
def State.chooseAgain (s : State) : State :=
  let i := s.mc.profSelected.getD s.mc.profPins
  let x := s.mc.profiles[i]
  let same := if profileCrcOk x.toNat then s.mc.activeProfile == x else s.mc.activeProfile == factoryProfile 8
  if s.mc.activeIndex = i ∧ same then s else s.chooseProfile

/-- The first compute tile with five failed sensors shuts the main domain down; the entry names its first sensor (R336; log entry 54). -/
def State.blindOff (s : State) : State :=
  match (List.range 4).find? fun t => decide (5 ≤ s.mc.failedOnTile t) with
  | some t => s.shutdown (groupFigure .die) (16 * t) failedReading
  | none => s

/-- STARTUP_RAILS_UP (R16, R343, R353, R374, R377, R382, R393, R395): step 4. Shed phases return to service. In DECOMMISSIONED the main
domain is never powered; while the loader is in recovery a main domain that is off is not started. A profile written or selected
since the last choice is in force from now on (R381). A compute tile with five sensors that failed while the domain was off shuts it down
again (R336). -/
def execStartupRailsUp (s : State) : Host.Outcome State Fault Refusal :=
  act (s.mcRuns && s.pwr.step == 3 && !s.pwr.main && s.clk.qualified && s.pwr.inputOk && s.pwr.present && s.pwr.switchOn && !s.pwr.breaker
      && !s.pwr.needMainOn && s.mc.lifeCycle != .decommissioned) s
    (((s.chooseAgain.modPwr fun p => { p with main := true, step := 4, shed := [] }).modHost fun h => { h with usable := true }).blindOff)

/-- An image loaded into its controllers, or booted; what was activated is now in service (R350, R352). -/
def State.loadImage (s : State) (c : Component) (f : FwImage) : State :=
  (s.modMc fun m => { m with running := putImage m.running c f }).nowServes c f

/-- A device that starts in RETURNED has zero written to every stack before the survey (R343). -/
def State.clearReturned (s : State) : State :=
  if s.mc.lifeCycle = .returned then { s with dram := [], dramEpoch := Vector.replicate 20 0, poison := [] } else s

/-- STARTUP_TRAINING_DONE (R245, R343, R350, R353, R382): step 6: microcode verified and loaded, soft repairs made hard, stacks trained,
those that fail shown absent; the start-up survey begins. Invalid microcode leads to its recovery, that of the memory controllers with
the links' own loaded. -/
def execStartupTrainingDone (absent : List StackId) (s : State) : Host.Outcome State Fault Refusal :=
  if !s.pwr.main ∨ s.pwr.step ≠ 5 ∨ s.clk.lost ∨ s.clk.returning ∨ !s.mcRuns then .next s
  else match s.mc.validImage .linkUcode, s.mc.validImage .memUcode with
    | none, _ => .next (s.recoverComponent .linkUcode)
    | some l, none => .next ((s.loadImage .linkUcode l).recoverComponent .memUcode)
    | some l, some m =>
      let s := (s.loadImage .linkUcode l).loadImage .memUcode m
      let s := s.makeHard
      let trained := fun (i : Fin 20) =>
        if s.hbm[i].state ≠ .service then s.hbm[i]
        else if absent.contains i then { s.hbm[i] with state := .absent }
        else { s.hbm[i] with selfRefresh := false }
      let s : State := { s with hbm := Vector.ofFn trained }
      .next ((s.clearReturned.modPwr fun p => { p with step := 6 }).modHost fun h => { h with surveyRunning := true })

/-- BINDER_BOOT_DONE (R311, R350, R353, R382): step 8. An invalid image leads to its recovery. -/
def execBinderBootDone (s : State) : Host.Outcome State Fault Refusal :=
  if !s.pwr.main ∨ s.pwr.step ≠ 7 ∨ s.clk.lost ∨ s.clk.returning ∨ !s.mcRuns then .next s
  else match s.mc.validImage .binder with
    | none => .next (s.recoverComponent .binder)
    | some f =>
      let s := (s.modPwr fun p => { p with step := 8 }).modHost fun h => { h with binderUp := true }
      .next ((s.loadImage .binder f).setIfLevel (BitVec.ofNat 8 (mfLevel f.manifest.toNat)))

/-- STARTUP_BIST_DONE (R234, R359, R379, R382): steps 9 and 10: failing sites are retired with CAUSE 7, the others have passed their test
(DEDUCED, log entry 42); STATE becomes READY or DEGRADED, and ALERT_N returns high on READY. -/
def execStartupBistDone (failed : List SiteId) (s : State) : Host.Outcome State Fault Refusal :=
  if !s.pwr.main ∨ s.pwr.step ≠ 8 ∨ s.clk.lost ∨ s.clk.returning then .next s
  else
    let tested := fun (i : Fin 200) =>
      if failed.contains i then { s.sites[i] with role := .retired, cause := 7, testOk := false, testedAt := s.now }
      else { s.sites[i] with testOk := true, testedAt := s.now, deepSleep := s.sites[i].role == .guard }
    let s := ({ s with sites := Vector.ofFn tested } : State).showRoles
    let s := s.modPwr fun p => { p with step := 10 }
    .next (if s.deviceState = 0 then s.modPwr fun p => { p with alert := false } else s)

end Sys2Proof.Machine
end

