-- ==== Sys2Proof/Machine/Dispatch.lean ====
section
/-!
DEFINITION. The dispatch: for each command of the table, in the table's order, one direct call of its meaning.
-/

namespace Sys2Proof.Machine

def exec (i : Instr) (s : State) : Host.Outcome State Fault Refusal :=
  match i with
  | .dmaWrite h src => Sys2Proof.Machine.execDmaWrite h src s
  | .dmaRead h errorAt => Sys2Proof.Machine.execDmaRead h errorAt s
  | .inputCmd h src => Sys2Proof.Machine.execInputCmd h src s
  | .load h => Sys2Proof.Machine.execLoad h s
  | .activate h => Sys2Proof.Machine.execActivate h s
  | .unload h => Sys2Proof.Machine.execUnload h s
  | .cancel h => Sys2Proof.Machine.execCancel h s
  | .elasticStart h => Sys2Proof.Machine.execElasticStart h s
  | .recipeUpdate h => Sys2Proof.Machine.execRecipeUpdate h s
  | .streamResume h => Sys2Proof.Machine.execStreamResume h s
  | .kernelResume h => Sys2Proof.Machine.execKernelResume h s
  | .fromMirrorResume h reply => Sys2Proof.Machine.execFromMirrorResume h reply s
  | .pagedMap h => Sys2Proof.Machine.execPagedMap h s
  | .waitStep h => Sys2Proof.Machine.execWaitStep h s
  | .queueLimits h => Sys2Proof.Machine.execQueueLimits h s
  | .setAperture h => Sys2Proof.Machine.execSetAperture h s
  | .setRotation h => Sys2Proof.Machine.execSetRotation h s
  | .setLayout h => Sys2Proof.Machine.execSetLayout h s
  | .setProfileWrite h => Sys2Proof.Machine.execSetProfileWrite h s
  | .setProfileSelect h => Sys2Proof.Machine.execSetProfileSelect h s
  | .linkDisable h => Sys2Proof.Machine.execLinkDisable h s
  | .linkBringUp h => Sys2Proof.Machine.execLinkBringUp h s
  | .survey h => Sys2Proof.Machine.execSurvey h s
  | .diagRead h errorAt => Sys2Proof.Machine.execDiagRead h errorAt s
  | .diagReadKettleTable h errorAt => Sys2Proof.Machine.execDiagReadKettleTable h errorAt s
  | .maintain h => Sys2Proof.Machine.execMaintain h s
  | .mirrorStore h => Sys2Proof.Machine.execMirrorStore h s
  | .mirrorBind h reply => Sys2Proof.Machine.execMirrorBind h reply s
  | .mirrorUnbind h => Sys2Proof.Machine.execMirrorUnbind h s
  | .seed h reply => Sys2Proof.Machine.execSeed h reply s
  | .commandTake mailbox => Sys2Proof.Machine.execCommandTake mailbox s
  | .mbTailWrite mailbox tail => Sys2Proof.Machine.execMbTailWrite mailbox tail s
  | .ringHeadWrite ring head => Sys2Proof.Machine.execRingHeadWrite ring head s
  | .ringEnable ring => Sys2Proof.Machine.execRingEnable ring s
  | .takeover port value => Sys2Proof.Machine.execTakeover port value s
  | .periphEnableWrite target value busy => Sys2Proof.Machine.execPeriphEnableWrite target value busy s
  | .gateForced gate initiator => Sys2Proof.Machine.execGateForced gate initiator s
  | .cadenceLoRead => Sys2Proof.Machine.execCadenceLoRead s
  | .registerWrite offset bytes same => Sys2Proof.Machine.execRegisterWrite offset bytes same s
  | .bar2Read offset len => Sys2Proof.Machine.execBar2Read offset len s
  | .bar2Write offset bytes => Sys2Proof.Machine.execBar2Write offset bytes s
  | .hostReset port kind => Sys2Proof.Machine.execHostReset port kind s
  | .completionPost ring => Sys2Proof.Machine.execCompletionPost ring s
  | .eventPost => Sys2Proof.Machine.execEventPost s
  | .msixDelayExpiry ring => Sys2Proof.Machine.execMsixDelayExpiry ring s
  | .needleNop core => Sys2Proof.Machine.execNeedleNop core s
  | .stepEnd core => Sys2Proof.Machine.execStepEnd core s
  | .sectionEnd core => Sys2Proof.Machine.execSectionEnd core s
  | .run core => Sys2Proof.Machine.execRun core s
  | .stream core => Sys2Proof.Machine.execStream core s
  | .kettleSignal core => Sys2Proof.Machine.execKettleSignal core s
  | .kettleSignalApply core completion => Sys2Proof.Machine.execKettleSignalApply core completion s
  | .kettleWait core => Sys2Proof.Machine.execKettleWait core s
  | .cadence core => Sys2Proof.Machine.execCadence core s
  | .stepRelease => Sys2Proof.Machine.execStepRelease s
  | .fabricSend core => Sys2Proof.Machine.execFabricSend core s
  | .fabricRecv core => Sys2Proof.Machine.execFabricRecv core s
  | .fabricSlotOpen slot => Sys2Proof.Machine.execFabricSlotOpen slot s
  | .snapshot core => Sys2Proof.Machine.execSnapshot core s
  | .dtLoad core => Sys2Proof.Machine.execDtLoad core s
  | .dtPass core => Sys2Proof.Machine.execDtPass core s
  | .dtPlough core => Sys2Proof.Machine.execDtPlough core s
  | .dtMove core => Sys2Proof.Machine.execDtMove core s
  | .passExchange core => Sys2Proof.Machine.execPassExchange core s
  | .shadowLoadComplete core => Sys2Proof.Machine.execShadowLoadComplete core s
  | .passRowIssue core cycle => Sys2Proof.Machine.execPassRowIssue core cycle s
  | .beatWrite core residueFault => Sys2Proof.Machine.execBeatWrite core residueFault s
  | .awlReadIssue core stream => Sys2Proof.Machine.execAwlReadIssue core stream s
  | .readReturn core tag uncorrectable => Sys2Proof.Machine.execReadReturn core tag uncorrectable s
  | .entryDelivery core stream => Sys2Proof.Machine.execEntryDelivery core stream s
  | .mullBlockRelease core stream => Sys2Proof.Machine.execMullBlockRelease core stream s
  | .writeAck core stream => Sys2Proof.Machine.execWriteAck core stream s
  | .multicastArm core stream => Sys2Proof.Machine.execMulticastArm core stream s
  | .translationWalkDone core stream => Sys2Proof.Machine.execTranslationWalkDone core stream s
  | .pageNotPresent core stream => Sys2Proof.Machine.execPageNotPresent core stream s
  | .pageInComplete core stream page => Sys2Proof.Machine.execPageInComplete core stream page s
  | .tippingTransfer source op => Sys2Proof.Machine.execTippingTransfer source op s
  | .tagExpiry core tag => Sys2Proof.Machine.execTagExpiry core tag s
  | .cancelDrainDone => Sys2Proof.Machine.execCancelDrainDone s
  | .ploughNop core => Sys2Proof.Machine.execPloughNop core s
  | .ploughEnd core => Sys2Proof.Machine.execPloughEnd core s
  | .ploughLoop core => Sys2Proof.Machine.execPloughLoop core s
  | .ploughEndLoop core => Sys2Proof.Machine.execPloughEndLoop core s
  | .brf core => Sys2Proof.Machine.execBrf core s
  | .sli core => Sys2Proof.Machine.execSli core s
  | .sadd core => Sys2Proof.Machine.execSadd core s
  | .sshl core => Sys2Proof.Machine.execSshl core s
  | .pset core => Sys2Proof.Machine.execPset core s
  | .padd core => Sys2Proof.Machine.execPadd core s
  | .vld core => Sys2Proof.Machine.execVld core s
  | .vst core cycle => Sys2Proof.Machine.execVst core cycle s
  | .sld core => Sys2Proof.Machine.execSld core s
  | .sst core cycle => Sys2Proof.Machine.execSst core cycle s
  | .vadd core => Sys2Proof.Machine.execVadd core s
  | .vsub core => Sys2Proof.Machine.execVsub core s
  | .vmul core => Sys2Proof.Machine.execVmul core s
  | .vfma core => Sys2Proof.Machine.execVfma core s
  | .vmin core => Sys2Proof.Machine.execVmin core s
  | .vmax core => Sys2Proof.Machine.execVmax core s
  | .vabs core => Sys2Proof.Machine.execVabs core s
  | .vneg core => Sys2Proof.Machine.execVneg core s
  | .vdiv core => Sys2Proof.Machine.execVdiv core s
  | .vsqrt core => Sys2Proof.Machine.execVsqrt core s
  | .vcmp core => Sys2Proof.Machine.execVcmp core s
  | .vsel core => Sys2Proof.Machine.execVsel core s
  | .vbcast core => Sys2Proof.Machine.execVbcast core s
  | .vrsum core => Sys2Proof.Machine.execVrsum core s
  | .vrmax core => Sys2Proof.Machine.execVrmax core s
  | .vramax core => Sys2Proof.Machine.execVramax core s
  | .vexp2 core => Sys2Proof.Machine.execVexp2 core s
  | .vlog2 core => Sys2Proof.Machine.execVlog2 core s
  | .vexp core => Sys2Proof.Machine.execVexp core s
  | .vlog core => Sys2Proof.Machine.execVlog core s
  | .vlse core => Sys2Proof.Machine.execVlse core s
  | .vrlse core => Sys2Proof.Machine.execVrlse core s
  | .qfolio core cycle => Sys2Proof.Machine.execQfolio core cycle s
  | .qwire core cycle => Sys2Proof.Machine.execQwire core cycle s
  | .qcvt core cycle => Sys2Proof.Machine.execQcvt core cycle s
  | .unpack core => Sys2Proof.Machine.execUnpack core s
  | .testf core => Sys2Proof.Machine.execTestf core s
  | .mreenc core => Sys2Proof.Machine.execMreenc core s
  | .vrand core => Sys2Proof.Machine.execVrand core s
  | .scrubAccess site mem addr found => Sys2Proof.Machine.execScrubAccess site mem addr found s
  | .stepBoundary => Sys2Proof.Machine.execStepBoundary s
  | .coreWake => Sys2Proof.Machine.execCoreWake s
  | .guardTestStart site => Sys2Proof.Machine.execGuardTestStart site s
  | .guardTestDone site failPhase => Sys2Proof.Machine.execGuardTestDone site failPhase s
  | .surveyComplete m => Sys2Proof.Machine.execSurveyComplete m s
  | .stackLost stack cause => Sys2Proof.Machine.execStackLost stack cause s
  | .recoveryReplayDone => Sys2Proof.Machine.execRecoveryReplayDone s
  | .softRepair stack => Sys2Proof.Machine.execSoftRepair stack s
  | .frameMark => Sys2Proof.Machine.execFrameMark s
  | .markMissing => Sys2Proof.Machine.execMarkMissing s
  | .effectiveMark => Sys2Proof.Machine.execEffectiveMark s
  | .cadenceSync lane flit t4 => Sys2Proof.Machine.execCadenceSync lane flit t4 s
  | .boundaryVote vote => Sys2Proof.Machine.execBoundaryVote vote s
  | .holdDeadline => Sys2Proof.Machine.execHoldDeadline s
  | .holdMsg => Sys2Proof.Machine.execHoldMsg s
  | .resumeMsg frame => Sys2Proof.Machine.execResumeMsg frame s
  | .holdTimeout => Sys2Proof.Machine.execHoldTimeout s
  | .autoNegotiation lane ok => Sys2Proof.Machine.execAutoNegotiation lane ok s
  | .linkTraining lane ok => Sys2Proof.Machine.execLinkTraining lane ok s
  | .pcsBlockLock lane ok => Sys2Proof.Machine.execPcsBlockLock lane ok s
  | .linkRetry lane => Sys2Proof.Machine.execLinkRetry lane s
  | .partner lane flit => Sys2Proof.Machine.execPartner lane flit s
  | .timingExchangeDone lane ok => Sys2Proof.Machine.execTimingExchangeDone lane ok s
  | .linkDown lane cause => Sys2Proof.Machine.execLinkDown lane cause s
  | .schedTransfer lane transfer => Sys2Proof.Machine.execSchedTransfer lane transfer s
  | .forward lane header data => Sys2Proof.Machine.execForward lane header data s
  | .dynTransfer lane transfer => Sys2Proof.Machine.execDynTransfer lane transfer s
  | .ackMsg sequence => Sys2Proof.Machine.execAckMsg sequence s
  | .refuseMsg sequence reason => Sys2Proof.Machine.execRefuseMsg sequence reason s
  | .resendTimeout sequence => Sys2Proof.Machine.execResendTimeout sequence s
  | .creditWaitTimeout transfer => Sys2Proof.Machine.execCreditWaitTimeout transfer s
  | .escapeTimeout transfer => Sys2Proof.Machine.execEscapeTimeout transfer s
  | .advertisement lane adv => Sys2Proof.Machine.execAdvertisement lane adv s
  | .advertisementPeriod => Sys2Proof.Machine.execAdvertisementPeriod s
  | .advertisementExpiry node => Sys2Proof.Machine.execAdvertisementExpiry node s
  | .routingRebuildDone => Sys2Proof.Machine.execRoutingRebuildDone s
  | .continuousRecord protectedNode step sequence pages => Sys2Proof.Machine.execContinuousRecord protectedNode step sequence pages s
  | .checkpointComplete set => Sys2Proof.Machine.execCheckpointComplete set s
  | .memberLeave rank => Sys2Proof.Machine.execMemberLeave rank s
  | .memberIsolation rank => Sys2Proof.Machine.execMemberIsolation rank s
  | .coverBegin => Sys2Proof.Machine.execCoverBegin s
  | .coverEnd rank => Sys2Proof.Machine.execCoverEnd rank s
  | .peerWaitExpiry => Sys2Proof.Machine.execPeerWaitExpiry s
  | .binderWatchdog => Sys2Proof.Machine.execBinderWatchdog s
  | .binderRestarted => Sys2Proof.Machine.execBinderRestarted s
  | .mcWatchdog => Sys2Proof.Machine.execMcWatchdog s
  | .mcRestart => Sys2Proof.Machine.execMcRestart s
  | .sensorRead group index reading => Sys2Proof.Machine.execSensorRead group index reading s
  | .sensorPageRefresh => Sys2Proof.Machine.execSensorPageRefresh s
  | .thresholdTrip group index reading => Sys2Proof.Machine.execThresholdTrip group index reading s
  | .railShutdown trip => Sys2Proof.Machine.execRailShutdown trip s
  | .tamperTrigger cause verifyRetries => Sys2Proof.Machine.execTamperTrigger cause verifyRetries s
  | .logFlush => Sys2Proof.Machine.execLogFlush s
  | .marchBlockTest block passed => Sys2Proof.Machine.execMarchBlockTest block passed s
  | .borrowedBlockAccess addr => Sys2Proof.Machine.execBorrowedBlockAccess addr s
  | .shelfRecord domain shelf slotId => Sys2Proof.Machine.execShelfRecord domain shelf slotId s
  | .setUtc utc => Sys2Proof.Machine.execSetUtc utc s
  | .mainOn => Sys2Proof.Machine.execMainOn s
  | .lcNonce nonce => Sys2Proof.Machine.execLcNonce nonce s
  | .lcRequest req blowFails => Sys2Proof.Machine.execLcRequest req blowFails s
  | .keyRevoke req => Sys2Proof.Machine.execKeyRevoke req s
  | .svnCommit req => Sys2Proof.Machine.execSvnCommit req s
  | .profileWrite profile bits => Sys2Proof.Machine.execProfileWrite profile bits s
  | .mctpControl ask => Sys2Proof.Machine.execMctpControl ask s
  | .pldmMonitoring ask index => Sys2Proof.Machine.execPldmMonitoring ask index s
  | .requestUpdate agent => Sys2Proof.Machine.execRequestUpdate agent s
  | .passComponentTable components => Sys2Proof.Machine.execPassComponentTable components s
  | .updateComponent component => Sys2Proof.Machine.execUpdateComponent component s
  | .firmwareData bytes => Sys2Proof.Machine.execFirmwareData bytes s
  | .transferComplete => Sys2Proof.Machine.execTransferComplete s
  | .verifyComplete => Sys2Proof.Machine.execVerifyComplete s
  | .applyComplete => Sys2Proof.Machine.execApplyComplete s
  | .activateFirmware => Sys2Proof.Machine.execActivateFirmware s
  | .fwActivateFailed => Sys2Proof.Machine.execFwActivateFailed s
  | .fabricRecoveryTimeout => Sys2Proof.Machine.execFabricRecoveryTimeout s
  | .getVersion => Sys2Proof.Machine.execGetVersion s
  | .getCapabilities => Sys2Proof.Machine.execGetCapabilities s
  | .negotiateAlgorithms ecdsaP384 sha384 => Sys2Proof.Machine.execNegotiateAlgorithms ecdsaP384 sha384 s
  | .getDigests => Sys2Proof.Machine.execGetDigests s
  | .getCertificate offset len => Sys2Proof.Machine.execGetCertificate offset len s
  | .challenge nonce => Sys2Proof.Machine.execChallenge nonce s
  | .getMeasurements index signed nonce => Sys2Proof.Machine.execGetMeasurements index signed nonce s
  | .refclkPresence => Sys2Proof.Machine.execRefclkPresence s
  | .refclkQualified => Sys2Proof.Machine.execRefclkQualified s
  | .refclkLoss => Sys2Proof.Machine.execRefclkLoss s
  | .pllLock pll => Sys2Proof.Machine.execPllLock pll s
  | .aclkRampStep => Sys2Proof.Machine.execAclkRampStep s
  | .standbyOn => Sys2Proof.Machine.execStandbyOn s
  | .standbyOff => Sys2Proof.Machine.execStandbyOff s
  | .mainUndervoltage => Sys2Proof.Machine.execMainUndervoltage s
  | .mainOvervoltage => Sys2Proof.Machine.execMainOvervoltage s
  | .inputClamp => Sys2Proof.Machine.execInputClamp s
  | .phaseShed rail phase => Sys2Proof.Machine.execPhaseShed rail phase s
  | .mcResetRelease pins => Sys2Proof.Machine.execMcResetRelease pins s
  | .startupRailsUp => Sys2Proof.Machine.execStartupRailsUp s
  | .startupTrainingDone absent => Sys2Proof.Machine.execStartupTrainingDone absent s
  | .binderBootDone => Sys2Proof.Machine.execBinderBootDone s
  | .startupBistDone failed => Sys2Proof.Machine.execStartupBistDone failed s
  | .hotSwapSwitchOn => Sys2Proof.Machine.execHotSwapSwitchOn s
  | .moduleExtract => Sys2Proof.Machine.execModuleExtract s
  | .breakerTrip current => Sys2Proof.Machine.execBreakerTrip current s
  | .hostInterfaceUsable => Sys2Proof.Machine.execHostInterfaceUsable s
  | .hashedNodeId => Sys2Proof.Machine.execHashedNodeId s
  | .mainStartAllowed => Sys2Proof.Machine.execMainStartAllowed s
  | .stackRetrainDone => Sys2Proof.Machine.execStackRetrainDone s
  | .dramPatrolScrub stack bank row found => Sys2Proof.Machine.execDramPatrolScrub stack bank row found s
  | .pcieLinkDown port => Sys2Proof.Machine.execPcieLinkDown port s
  | .pcieLinkUp port width generation => Sys2Proof.Machine.execPcieLinkUp port width generation s

end Sys2Proof.Machine
end

