-- ==== Sys2Proof/WellFormed.lean ====
section
/-!
DEFINITION. Which commands are well formed: operands within the widths, counts and sizes that the manual gives what they name. The type of an
operand already holds its width or its count where it is a bit vector or a `Fin`; the rest is here. A command that is not well formed
comes from nobody; the meanings are total and change nothing, or what the rule says, where one is given all the same.
-/

namespace Sys2Proof

/-- Bytes of BAR0 (R310). -/
def bar0Bytes : Nat := 2 ^ 20

/-- Bytes of BAR2 (R307). -/
def bar2Bytes : Nat := 64 * 2 ^ 30

/-- Bytes of device memory (R14). -/
def deviceBytes : Nat := 1280 * 2 ^ 30

/-- Bytes of a core memory (R211). -/
def CoreMem.bytes : CoreMem → Nat
  | .quire => 6 * 2 ^ 20
  | .acc => 3 * 2 ^ 19
  | .endpaper => 2 ^ 18

/-- Sensors of a group (R336, R378). -/
def SensorGroup.count : SensorGroup → Nat
  | .die => 80
  | .stack => 20
  | .board => 16
  | .coolantIn => 1
  | .coolantOut => 1
  | .rail => 22
  | .railCurrent => 22
  | .inputPower => 1

/-- A transfer of the tipping path lies inside its memory (R176, R211). -/
def TipOp.inside : TipOp → Bool
  | .writeCore _ m a bytes => decide (a + bytes.length ≤ m.bytes)
  | .readCore _ m a n => decide (a + n ≤ m.bytes)
  | .writeDram a bytes => decide (a + bytes.length ≤ deviceBytes)
  | .readDram a n => decide (a + n ≤ deviceBytes)

/-- Bytes of a transfer of the tipping path. -/
def TipOp.size : TipOp → Nat
  | .writeCore _ _ _ bytes => bytes.length
  | .readCore _ _ _ n => n
  | .writeDram _ bytes => bytes.length
  | .readDram _ n => n

/-- 1 to 255 bytes, but for an access of BAR2, which may be longer (R176). -/
def TipOp.wf (op : TipOp) (source : TipSource) : Bool :=
  op.inside && decide (1 ≤ op.size) && (source == .bar2 || decide (op.size ≤ 255))

/-- A transfer's header counts its data flits in 24 bits (R280). -/
def Transfer.wf (t : Transfer) : Bool := decide (t.data.length < 2 ^ 24)

/-- An advertisement names each lane once (R285). -/
def Advert.wf (a : Advert) : Bool := decide ((a.links.map (·.lane)).Nodup) && decide (a.idSource.toNat < 3)

/-- A survey measures each site, stack and lane at most once (R228). -/
def Measures.wf (m : Measures) : Bool :=
  decide ((m.siteTransit.map Prod.fst).Nodup) && decide ((m.stackLat.map Prod.fst).Nodup)
    && decide ((m.linkLatency.map Prod.fst).Nodup) && decide ((m.linkCable.map Prod.fst).Nodup)
    && decide ((m.linkFec.map Prod.fst).Nodup)

/-- The partner's copy is a 4 KiB-aligned range (R188). -/
def MirrorReply.wf : MirrorReply → Bool
  | .copy range => decide (range.length % 4096 = 0)
  | .noCopy => true
  | .unreachable _ => true

/-- The numeric sensors that a PLDM request can name. -/
def PldmAsk.count : PldmAsk → Nat
  | .base _ => 1
  | .sensor group => group.count
  | .phasesOk => 22
  | .phasesFitted => 22

/-- The commands with their operands in range. -/
def Instr.wf : Instr → Bool
  | .dmaWrite _ _ => true
  | .dmaRead _ _ => true
  | .inputCmd _ _ => true
  | .load _ => true
  | .activate _ => true
  | .unload _ => true
  | .cancel _ => true
  | .elasticStart _ => true
  | .recipeUpdate _ => true
  | .streamResume _ => true
  | .kernelResume _ => true
  | .fromMirrorResume _ reply => reply.wf
  | .pagedMap _ => true
  | .waitStep _ => true
  | .queueLimits _ => true
  | .setAperture _ => true
  | .setRotation _ => true
  | .setLayout _ => true
  | .setProfileWrite _ => true
  | .setProfileSelect _ => true
  | .linkDisable _ => true
  | .linkBringUp _ => true
  | .survey _ => true
  | .diagRead _ _ => true
  | .diagReadKettleTable _ _ => true
  | .maintain _ => true
  | .mirrorStore _ => true
  | .mirrorBind _ _ => true
  | .mirrorUnbind _ => true
  | .seed _ _ => true
  | .commandTake _ => true
  | .mbTailWrite _ _ => true
  | .ringHeadWrite _ _ => true
  | .ringEnable _ => true
  | .takeover _ _ => true
  | .periphEnableWrite _ _ busy => decide busy.Nodup
  | .gateForced _ _ => true
  | .cadenceLoRead => true
  | .registerWrite offset bytes _ => decide (bytes ≠ []) && decide (offset + bytes.length ≤ bar0Bytes)
  | .bar2Read offset len => decide (1 ≤ len) && decide (offset + len ≤ bar2Bytes)
  | .bar2Write offset bytes => decide (bytes ≠ []) && decide (offset + bytes.length ≤ bar2Bytes)
  | .hostReset _ _ => true
  | .completionPost _ => true
  | .eventPost => true
  | .msixDelayExpiry _ => true
  | .needleNop _ => true
  | .stepEnd _ => true
  | .sectionEnd _ => true
  | .run _ => true
  | .stream _ => true
  | .kettleSignal _ => true
  | .kettleSignalApply _ _ => true
  | .kettleWait _ => true
  | .cadence _ => true
  | .stepRelease => true
  | .fabricSend _ => true
  | .fabricRecv _ => true
  | .fabricSlotOpen _ => true
  | .snapshot _ => true
  | .dtLoad _ => true
  | .dtPass _ => true
  | .dtPlough _ => true
  | .dtMove _ => true
  | .passExchange _ => true
  | .shadowLoadComplete _ => true
  | .passRowIssue _ _ => true
  | .beatWrite _ _ => true
  | .awlReadIssue _ _ => true
  | .readReturn _ _ _ => true
  | .entryDelivery _ _ => true
  | .mullBlockRelease _ _ => true
  | .writeAck _ _ => true
  | .multicastArm _ _ => true
  | .translationWalkDone _ _ => true
  | .pageNotPresent _ _ => true
  | .pageInComplete _ _ page => page.all fun bytes => decide (bytes.length = 2 ^ 21)
  | .tippingTransfer source op => op.wf source
  | .tagExpiry _ _ => true
  | .cancelDrainDone => true
  | .ploughNop _ => true
  | .ploughEnd _ => true
  | .ploughLoop _ => true
  | .ploughEndLoop _ => true
  | .brf _ => true
  | .sli _ => true
  | .sadd _ => true
  | .sshl _ => true
  | .pset _ => true
  | .padd _ => true
  | .vld _ => true
  | .vst _ _ => true
  | .sld _ => true
  | .sst _ _ => true
  | .vadd _ => true
  | .vsub _ => true
  | .vmul _ => true
  | .vfma _ => true
  | .vmin _ => true
  | .vmax _ => true
  | .vabs _ => true
  | .vneg _ => true
  | .vdiv _ => true
  | .vsqrt _ => true
  | .vcmp _ => true
  | .vsel _ => true
  | .vbcast _ => true
  | .vrsum _ => true
  | .vrmax _ => true
  | .vramax _ => true
  | .vexp2 _ => true
  | .vlog2 _ => true
  | .vexp _ => true
  | .vlog _ => true
  | .vlse _ => true
  | .vrlse _ => true
  | .qfolio _ _ => true
  | .qwire _ _ => true
  | .qcvt _ _ => true
  | .unpack _ => true
  | .testf _ => true
  | .mreenc _ => true
  | .vrand _ => true
  | .scrubAccess _ mem addr _ => decide (addr < mem.bytes)
  | .stepBoundary => true
  | .coreWake => true
  | .guardTestStart _ => true
  | .guardTestDone _ failPhase => failPhase.all fun p => decide (1 ≤ p) && decide (p ≤ 5)
  | .surveyComplete m => m.wf
  | .stackLost _ _ => true
  | .recoveryReplayDone => true
  | .softRepair _ => true
  | .frameMark => true
  | .markMissing => true
  | .effectiveMark => true
  | .cadenceSync _ _ _ => true
  | .boundaryVote _ => true
  | .holdDeadline => true
  | .holdMsg => true
  | .resumeMsg _ => true
  | .holdTimeout => true
  | .autoNegotiation _ _ => true
  | .linkTraining _ _ => true
  | .pcsBlockLock _ _ => true
  | .linkRetry _ => true
  | .partner _ _ => true
  | .timingExchangeDone _ _ => true
  | .linkDown _ _ => true
  | .schedTransfer _ transfer => transfer.wf
  | .forward _ header data => Transfer.wf { header := header, data := data }
  | .dynTransfer _ transfer => transfer.wf
  | .ackMsg _ => true
  | .refuseMsg _ _ => true
  | .resendTimeout _ => true
  | .creditWaitTimeout _ => true
  | .escapeTimeout _ => true
  | .advertisement _ adv => adv.wf
  | .advertisementPeriod => true
  | .advertisementExpiry _ => true
  | .routingRebuildDone => true
  | .continuousRecord _ _ _ pages =>
    decide (pages.length ≤ 2 ^ 14) && pages.all fun p => decide (p.1 < 2 ^ 14) && decide (p.2.length ≤ 4096)
  | .checkpointComplete _ => true
  | .memberLeave _ => true
  | .memberIsolation _ => true
  | .coverBegin => true
  | .coverEnd _ => true
  | .peerWaitExpiry => true
  | .binderWatchdog => true
  | .binderRestarted => true
  | .mcWatchdog => true
  | .mcRestart => true
  | .sensorRead group index _ => decide (index < group.count)
  | .sensorPageRefresh => true
  | .thresholdTrip group index _ => decide (index < group.count)
  | .railShutdown _ => true
  | .tamperTrigger _ _ => true
  | .logFlush => true
  | .marchBlockTest block _ => decide (block < 2048)
  | .borrowedBlockAccess addr => decide (addr < 2 ^ 19)
  | .shelfRecord _ _ _ => true
  | .setUtc _ => true
  | .mainOn => true
  | .lcNonce _ => true
  | .lcRequest _ blowFails => blowFails.all fun b => decide (b < 4)
  | .keyRevoke r => r.blowFails.all fun b => decide (8 ≤ b) && decide (b < 11)
  | .svnCommit r => r.blowFails.all fun b => decide (16 ≤ b) && decide (b < 144)
  | .profileWrite _ _ => true
  | .mctpControl _ => true
  | .pldmMonitoring ask index => decide (index < ask.count)
  | .requestUpdate _ => true
  | .passComponentTable components => decide components.Nodup
  | .updateComponent _ => true
  | .firmwareData _ => true
  | .transferComplete => true
  | .verifyComplete => true
  | .applyComplete => true
  | .activateFirmware => true
  | .fwActivateFailed => true
  | .fabricRecoveryTimeout => true
  | .getVersion => true
  | .getCapabilities => true
  | .negotiateAlgorithms _ _ => true
  | .getDigests => true
  | .getCertificate _ _ => true
  | .challenge _ => true
  | .getMeasurements _ _ _ => true
  | .refclkPresence => true
  | .refclkQualified => true
  | .refclkLoss => true
  | .pllLock _ => true
  | .aclkRampStep => true
  | .standbyOn => true
  | .standbyOff => true
  | .mainUndervoltage => true
  | .mainOvervoltage => true
  | .inputClamp => true
  | .phaseShed _ phase => decide (phase < 18)
  | .mcResetRelease _ => true
  | .startupRailsUp => true
  | .startupTrainingDone absent => decide absent.Nodup
  | .binderBootDone => true
  | .startupBistDone failed => decide failed.Nodup
  | .hotSwapSwitchOn => true
  | .moduleExtract => true
  | .breakerTrip _ => true
  | .hostInterfaceUsable => true
  | .hashedNodeId => true
  | .mainStartAllowed => true
  | .stackRetrainDone => true
  | .dramPatrolScrub _ bank _ _ => decide (bank < 1024)
  | .pcieLinkDown _ => true
  | .pcieLinkUp _ width generation => [1, 4, 8, 16].contains width.toNat && decide (1 ≤ generation.toNat) && decide (generation.toNat ≤ 6)

end Sys2Proof
end

