-- ==== Sys2Proof/Safety.lean ====
section
/-!
DEFINITION. The words in which the statements are written: a state whose memories are in canonical form, where a core's Needle and
Plough stand, and what an instruction on lanes does to the registers.
-/

namespace Sys2Proof

/-! ### The commands of the Plough, of the Needle and of the host -/

/-- The core and the opcode of a command that carries out a Plough instruction (R192, R196). -/
def Instr.ploughOp : Instr → Option (CoreId × Nat)
  | .ploughNop c => some (c, 0x00)
  | .ploughEnd c => some (c, 0x01)
  | .ploughLoop c => some (c, 0x02)
  | .ploughEndLoop c => some (c, 0x03)
  | .brf c => some (c, 0x04)
  | .sli c => some (c, 0x08)
  | .sadd c => some (c, 0x09)
  | .sshl c => some (c, 0x0A)
  | .pset c => some (c, 0x0B)
  | .padd c => some (c, 0x0C)
  | .vld c => some (c, 0x10)
  | .vst c _ => some (c, 0x11)
  | .sld c => some (c, 0x14)
  | .sst c _ => some (c, 0x15)
  | .vadd c => some (c, 0x20)
  | .vsub c => some (c, 0x21)
  | .vmul c => some (c, 0x22)
  | .vfma c => some (c, 0x23)
  | .vmin c => some (c, 0x24)
  | .vmax c => some (c, 0x25)
  | .vabs c => some (c, 0x26)
  | .vneg c => some (c, 0x27)
  | .vdiv c => some (c, 0x28)
  | .vsqrt c => some (c, 0x29)
  | .vcmp c => some (c, 0x2C)
  | .vsel c => some (c, 0x2D)
  | .vbcast c => some (c, 0x2E)
  | .vrsum c => some (c, 0x30)
  | .vrmax c => some (c, 0x31)
  | .vramax c => some (c, 0x32)
  | .vexp2 c => some (c, 0x38)
  | .vlog2 c => some (c, 0x39)
  | .vexp c => some (c, 0x3A)
  | .vlog c => some (c, 0x3B)
  | .vlse c => some (c, 0x3C)
  | .vrlse c => some (c, 0x3D)
  | .qfolio c _ => some (c, 0x40)
  | .qwire c _ => some (c, 0x41)
  | .qcvt c _ => some (c, 0x42)
  | .unpack c => some (c, 0x43)
  | .testf c => some (c, 0x44)
  | .mreenc c => some (c, 0x45)
  | .vrand c => some (c, 0x48)
  | _ => none

/-- The core and the opcode of a command that takes a word of the command stream (R142, R143, R157). -/
def Instr.needleOp : Instr → Option (CoreId × Nat)
  | .needleNop c => some (c, 0x00)
  | .stepEnd c => some (c, 0x01)
  | .sectionEnd c => some (c, 0x02)
  | .run c => some (c, 0x10)
  | .stream c => some (c, 0x11)
  | .kettleSignal c => some (c, 0x20)
  | .kettleWait c => some (c, 0x21)
  | .cadence c => some (c, 0x30)
  | .fabricSend c => some (c, 0x40)
  | .fabricRecv c => some (c, 0x41)
  | .snapshot c => some (c, 0x50)
  | .dtLoad c => some (c, 0x60)
  | .dtPass c => some (c, 0x61)
  | .dtPlough c => some (c, 0x62)
  | .dtMove c => some (c, 0x63)
  | _ => none

/-- The handle and the opcode of a command that a mailbox brought (R323, R324). -/
def Instr.hostOp : Instr → Option (Handle × Nat)
  | .dmaWrite h _ => some (h, 0x01)
  | .dmaRead h _ => some (h, 0x02)
  | .inputCmd h _ => some (h, 0x03)
  | .load h => some (h, 0x10)
  | .activate h => some (h, 0x11)
  | .unload h => some (h, 0x12)
  | .cancel h => some (h, 0x13)
  | .elasticStart h => some (h, 0x14)
  | .recipeUpdate h => some (h, 0x15)
  | .streamResume h => some (h, 0x16)
  | .kernelResume h => some (h, 0x16)
  | .fromMirrorResume h _ => some (h, 0x16)
  | .pagedMap h => some (h, 0x17)
  | .waitStep h => some (h, 0x18)
  | .queueLimits h => some (h, 0x20)
  | .setAperture h => some (h, 0x21)
  | .setRotation h => some (h, 0x22)
  | .setLayout h => some (h, 0x22)
  | .setProfileWrite h => some (h, 0x23)
  | .setProfileSelect h => some (h, 0x23)
  | .linkDisable h => some (h, 0x24)
  | .linkBringUp h => some (h, 0x24)
  | .survey h => some (h, 0x30)
  | .diagRead h _ => some (h, 0x31)
  | .diagReadKettleTable h _ => some (h, 0x31)
  | .maintain h => some (h, 0x32)
  | .mirrorStore h => some (h, 0x40)
  | .mirrorBind h _ => some (h, 0x41)
  | .mirrorUnbind h => some (h, 0x42)
  | .seed h _ => some (h, 0x43)
  | _ => none

namespace Machine

/-- The memories of a core and the received bytes of its Mull blocks are canonical. -/
def Core.memOk (k : Core) : Bool :=
  Memory.wf zeroByte k.quire && Memory.wf zeroByte k.acc && Memory.wf zeroByte k.endp
    && (List.finRange 64).all fun (i : Fin 64) => Mem.sortedFrom 0 k.awl.streams[i].buffer

/-- The slots of every mailbox are canonical. -/
def HostIf.memOk (h : HostIf) : Bool := (List.finRange 8).all fun (i : Fin 8) => Memory.wf zeroByte h.mailboxes[i].sram

/-- The memories that a site holds while it carries no core are canonical. -/
def Site.memOk (x : Site) : Bool := Memory.wf zeroByte x.quire && Memory.wf zeroByte x.acc && Memory.wf zeroByte x.endp

/-- Every memory of the machine is canonical: device memory, the core memories, those of sites without a core, the SRAM of the MC, the
mailboxes, and the record of host memory. -/
def State.memOk (s : State) : Bool :=
  Memory.wf (dramByte s.dramEpoch) s.dram && Mem.sortedFrom 0 s.hostMem && s.host.memOk && Memory.wf zeroByte s.mc.sram
    && (allCores.all fun c => (s.core c).memOk) && allSites.all fun i => (s.site i).memOk

/-- A fuse that is blown in `f` is blown in the state (R342: fuses are written once). -/
def State.fusesKept (f : BitVec 8448) (s : State) : Bool := s.mc.fuseArray &&& f == f

/-- The fuse shadow shows nothing that is not blown in the array. -/
def State.shadowOk (s : State) : Bool := s.mc.fuses &&& s.mc.fuseArray == s.mc.fuses

/-! ### Where a core stands -/

/-- The Needle of core `c` runs the program `img`, and once the Awl has read on the word at the head of its queue is `w`, number `no`: the
core is awake and may issue, and in a direct program the word decodes (R140 to R142, R157, R164). -/
def State.atWord (s : State) (img : Image) (c : CoreId) (no w : Nat) : Prop :=
  s.prog.active = some img ∧ s.issuing = true ∧ (s.core c).asleep = false ∧ (s.core c).needle.stopped = false
    ∧ (s.core c).needle.sect.runs = true
    ∧ ((s.awlReads c).core c).headWord = some (no, w)
    ∧ (img.direct = true → (s.awlReads c).directOk c w = true)

/-- ACLK runs, a kernel runs on core `c`, and its next instruction, in the fetch buffer, is `r`, one that R194 allows. -/
def State.atInstr (s : State) (c : CoreId) (r : Nat) : Prop :=
  s.prog.active.isSome = true ∧ s.aclkRuns = true ∧ (s.core c).plough.running = true ∧ (s.core c).plough.halted = false
    ∧ (s.core c).plough.ip < 4096
    ∧ (s.core c).plough.line.any (·.1 == (s.core c).plough.ip / 16) = true ∧ (s.core c).plough.instr = r
    ∧ instrOk r ((s.core c).plough.layer == 0xFFFF) = true

/-! ### Results of Plough instructions -/

/-- `q` is `p` past its instruction, with lane `l` of V[VD] holding `f l` where M[MASK] has bit `l` set, and unchanged elsewhere; no other
register changes (R190, R191). -/
def Plough.lanesSet (r : Nat) (f : Nat → Nat) (p q : Plough) : Prop :=
  q = { p with v := q.v, ip := p.ip + 1 } ∧ (∀ i, i ≠ iVD r → q.vr i = p.vr i)
    ∧ ∀ l, l < 64 → laneOf (q.vr (iVD r)) l
        = if bitOf (p.mreg (iMask r)) l then f l % 2 ^ 32 else laneOf (p.vr (iVD r)) l

/-- `q` is `p` past its instruction, with the 32-bit result `x` in lane 0 of V[VD] and zero-extended in S[SREG], whatever the mask holds;
nothing else changes (R196, R198). -/
def Plough.scalarSet (r x : Nat) (p q : Plough) : Prop :=
  q = { p with v := q.v, sr := q.sr, ip := p.ip + 1 } ∧ (∀ i, i ≠ iVD r → q.vr i = p.vr i)
    ∧ (∀ l, l < 64 → laneOf (q.vr (iVD r)) l = if l = 0 then x % 2 ^ 32 else laneOf (p.vr (iVD r)) l)
    ∧ (∀ i, i ≠ iSreg r → q.sreg i = p.sreg i) ∧ q.sreg (iSreg r) = x % 2 ^ 32

/-- Reading any byte of the core memories of `k'` gives what `f` says was stored there in memory `m`, and otherwise what reading it in `k`
gave. -/
def Core.stored (k k' : Core) (m : CoreMem) (f : Nat → Option Byte) : Prop :=
  ∀ m' a, Mem.get zeroByte (k'.mem m') a
    = if m' = m then (f a).getD (Mem.get zeroByte (k.mem m) a) else Mem.get zeroByte (k.mem m') a

end Machine

end Sys2Proof
end

