-- ==== Sys2Proof/Certificates/Slice0/Obligations.lean ====
section
/-!
DEFINITION. The statements for the provers: what the commands do, and what every step keeps.
-/

open Sys2Proof Sys2Proof.Machine

/-- A step, and the tick on an empty queue (R3, R249, R250, R341; log entry 1). -/
def Obligations.StepRunsFront : Prop :=
  (∀ (c : Instr) (rest : List Instr) (s : State), step { s with pending := c :: rest } = exec c { s with pending := rest })
  ∧ (∀ (s : State) (nbits w : Nat), s.withFetchWord nbits w = s)
  ∧ (∀ (s : State), s.pending = [] →
    let t := { s with now := s.now + 1, mc := { s.mc with utc := if s.mc.utcValid then s.mc.utc + 10 else s.mc.utc },
                      host := s.host.closeGates s.gateTicks (s.now + 1) }
    let rest := fun (u : State) => Host.Outcome.next u.takeUpsets.takeSramErrors.serveLanes.endReturn
    (s.marksCount = false ∨ (s.cad.valid = false ∧ s.cad.markPending = false) → step s = rest t)
    ∧ (s.marksCount = true → s.cad.valid = false → s.cad.markPending = true →
        step s = rest { t with cad := { s.cad with rxTick := s.cad.rxTick + 1 } })
    ∧ (s.marksCount = true → s.cad.valid = true → s.cad.rxTick.toNat < 16000000 →
        step s = rest { t with cad := { s.cad with rxTick := s.cad.rxTick + 1, tick := s.cad.tick + 1 } })
    ∧ (∀ u, s.marksCount = true → s.cad.valid = true → 16000000 ≤ s.cad.rxTick.toNat → exec .markMissing t = .next u →
        step s = rest { u with cad := { u.cad with rxTick := u.cad.rxTick + 1, tick := if u.cad.valid then u.cad.tick + 1 else u.cad.tick } })
    ∧ (∀ g, t.host.gate g = match s.host.gate g with
        | .closing since => if since + s.gateTicks ≤ s.now then .closed else .closing since
        | x => x))

/-- The state after reset. -/
def Obligations.ResetState : Prop :=
  let s := State.reset
  let slots := fun (i : Fin 4) => if i.val = 1 then 6 else if i.val = 2 then 4 else 8
  s.pending = [] ∧ s.pwr.main = false ∧ s.pwr.standby = false
  ∧ s.cad.counter = 0 ∧ s.cad.valid = false ∧ s.stamp = 0 ∧ s.cad.events = 0
  ∧ s.host.handles = [] ∧ s.host.binderUp = false ∧ s.host.portBActive = false ∧ s.host.eventRing = 7
  ∧ (∀ i, (s.host.mailbox i).head = 0 ∧ (s.host.mailbox i).tail = 0)
  ∧ (∀ i, s.host.ring i = { base := 0, log2Size := 0, enable := false, head := 0, tail := 0, vector := i.val, count := 1, delay := 0,
                            unsignalled := 0, firstAt := 0 })
  ∧ s.host.dmaLimit = 64 ∧ s.host.mirrorLimit = 128 ∧ s.host.tippingLimit = 8
  ∧ (∀ c, (s.core c).kettle = Vector.replicate 256 0 ∧ (s.core c).draws = Vector.replicate 16 0
      ∧ (s.core c).site.val = 50 * (c.val / 48) + c.val % 48)
  ∧ (∀ i, (s.site i).role = if i.val % 50 < 48 then .service else .guard)
  ∧ s.prog.active = none ∧ s.prog.staged = none ∧ s.prog.step = 0 ∧ s.prog.committed = none
  ∧ (∀ l, (s.link l).phase ≠ .up) ∧ s.fab.nodeId = 0xFFFF
  ∧ (∀ i : Fin 4, let p := (s.mc.profiles[i]).toNat
      fld p 0 24 = 1960000 ∧ fld p 24 24 = 2041000 ∧ fld p 48 12 = 256 ∧ fld p 64 16 = 500 ∧ fld p 128 8 = slots i)
  ∧ s.memOk = true ∧ (∀ c m a n, (s.core c).read m a n = List.replicate n 0)
  ∧ (∀ i a n, Mem.read zeroByte (s.host.mailbox i).sram a n = List.replicate n 0)

/-- Canonical memories are kept by every step, whatever command waits. -/
def Obligations.StepKeepsMemories : Prop := ∀ s t : State, s.memOk = true → step s = .next t → t.memOk = true

/-- Fuses are written once (R342). -/
def Obligations.StepKeepsFuses : Prop :=
  ∀ (s t : State), step s = .next t →
    (∀ f, s.fusesKept f = true → t.fusesKept f = true) ∧ (s.shadowOk = true → t.shadowOk = true)

/-- The queue belongs to the step alone. -/
def Obligations.ExecKeepsQueue : Prop := ∀ (c : Instr) (s t : State), exec c s = .next t → t.pending = s.pending

/-- What a Plough instruction cannot change (R190 to R196, R223, R224). -/
def Obligations.PloughIsolation : Prop :=
  ∀ (i : Instr) (c : CoreId) (op : Nat) (s t : State), i.ploughOp = some (c, op) → exec i s = .next t →
    s.direct = false ∨ (s.core c).ecc = [] →
    let same := fun (u : State) =>
      (∀ d, d ≠ c → u.core d = s.core d) ∧ (∀ x, x ≠ (s.core c).site → u.site x = s.site x)
        ∧ (op ≠ 0x15 → u.dram = s.dram ∧ u.poison = s.poison) ∧ u.dramEpoch = s.dramEpoch ∧ u.hostMem = s.hostMem ∧ u.hbm = s.hbm
        ∧ u.fab = s.fab ∧ u.clk = s.clk ∧ u.pwr = s.pwr ∧ u.cad = s.cad ∧ u.now = s.now ∧ u.prog.active = s.prog.active
        ∧ u.prog.staged = s.prog.staged ∧ u.prog.step = s.prog.step ∧ u.mc.fuses = s.mc.fuses ∧ u.mc.fuseArray = s.mc.fuseArray
        ∧ u.pending = s.pending ∧ ((s.core c).ecc = [] → u.sites = s.sites)
    (∃ u a, t = u.ploughFault c a ∧ same u) ∨ same t

/-- The order of candidates (R125). -/
def Obligations.LayerOrder : Prop :=
  (∀ a b : LayerAt, a.before b = true ↔
    a.fig.b * b.fig.n > b.fig.b * a.fig.n ∨ (a.fig.b * b.fig.n = b.fig.b * a.fig.n ∧ a.layer < b.layer))
  ∧ (∀ a : LayerAt, a.before a = false)
  ∧ (∀ a b : LayerAt, a.layer ≠ b.layer → a.before b = !b.before a)
  ∧ (∀ a b c : LayerAt, 0 < a.fig.n → 0 < b.fig.n → 0 < c.fig.n → a.before b = true → b.before c = true → a.before c = true)

/-- R56: the table of odd multiples, each formed as its third column says, and the example. -/
def Obligations.OddMultipleLeaf : Prop :=
  (∀ a : Int, leafOfOdds a = [a, 3 * a, 5 * a, 7 * a, 9 * a, 11 * a, 13 * a, 15 * a]
    ∧ leafOfOdds a = [a, a + 2 * a, a + 4 * a, 8 * a - a, 8 * a + a, 8 * a + 3 * a, 16 * a - 3 * a, 16 * a - a])
  ∧ leafOfOdds (-184) = [-184, -552, -920, -1288, -1656, -2024, -2392, -2760]

/-- R36: the product of a nibble, by the entry it reads and the shift. -/
def Obligations.NibbleProduct : Prop :=
  ∀ (a : Int), nibbleTimes (leafOfOdds a) 0 = 0
    ∧ ∀ d, 1 ≤ d → d ≤ 15 → ∀ o s, d = o * 2 ^ s → o % 2 = 1 →
      nibbleTimes (leafOfOdds a) d = (leafOfOdds a).getD ((o - 1) / 2) 0 * 2 ^ s ∧ nibbleTimes (leafOfOdds a) d = d * a

/-- The look-up of R27 over the leaf of R26. -/
def Obligations.TableLookUp : Prop :=
  ∀ (a0 a1 a2 a3 : Int) (idx : Nat), idx < 16 →
    let sgn := fun (j : Nat) => if idx.testBit j then (1 : Int) else -1
    let leaf := leafOfSums a0 a1 a2 a3
    lookUp leaf idx = sgn 0 * a0 + sgn 1 * a1 + sgn 2 * a2 + sgn 3 * a3
    ∧ lookUp leaf idx = (if idx.testBit 3 then leaf.getD (idx % 8) 0 else -(leaf.getD (7 - idx % 8) 0))

/-- Direct words (R157). The observation of a DT_LOAD waits for the DT_PASS that names the layer (R158). -/
def Obligations.DirectWords : Prop :=
  ∀ (img : Image) (c : CoreId) (no w : Nat) (s : State), s.atWord img c no w →
    let t := s.awlReads c
    let k := t.core c
    let past := k.takeWord
    let load := loadColumns ((modeOf (fld w 16 4)).getD .t1) ((fmtOf (fld w 24 3)).getD .e4m3) (bitOf w 8) (t.readDirect (fld w 64 52)) 0
      (64 * fld w 116 12) (fld w 40 12) (List.range (fld w 32 8))
    let q := fld w 32 23
    let a := fld w 64 52
    let len := 64 * fld w 16 16
    (∀ cols keys, wOp w = 0x60 → (k.strm 0).halted = none → load = .ok (cols, keys) →
      let r : Resident := { mode := (modeOf (fld w 16 4)).getD .t1, rfmt := (fmtOf (fld w 24 3)).getD .e4m3, kValid := fld w 40 12,
                            cols := cols }
      exec (.dtLoad c) s = .next (t.setCore c
        { past with press := { k.press with shadow := r, ready := true, pendingObs := some r, loaded := true } }))
    ∧ (∀ e, wOp w = 0x60 → (k.strm 0).halted = none → load = .error e → exec (.dtLoad c) s = .next (t.haltStream c 0 false e))
    ∧ (∀ sel, wOp w = 0x61 → k.press.freeSet = some sel → k.press.pass = none →
      let r := k.press.words
      let k' := match k.press.pendingObs with
        | some o => past.observeLoad t.prog.closed (fld w 72 16) (fld w 90 2) o
        | none => past
      let q := if k.press.ready then { k.press with active := k.press.shadow, shadow := k.press.active, ready := false } else k.press
      exec (.dtPass c) s = .next (t.setCore c
        { k' with
          press := { (q.putSet sel (some r)) with
            pendingObs := none,
            pass := some { sel := sel, mode := r.mode, sfmt := (sfmtOf (fld w 29 3)).getD .e4m3, base := fld w 32 23,
                           pitch := 64 * fld w 56 16, kValid := r.kValid, rows := fld w 16 8, next := 0, accumulate := bitOf w 8,
                           accRow := 128 * fld w 24 5, layer := fld w 72 16, roleS := BitVec.ofNat 2 (fld w 88 2),
                           roleR := BitVec.ofNat 2 (fld w 90 2), lastOfRun := true, serial := no } } }))
    ∧ (wOp w = 0x61 → k.press.pass.isSome = true ∨ k.press.freeSet = none → exec (.dtPass c) s = .next t)
    ∧ (wOp w = 0x62 → k.plough.queue = [] → exec (.dtPlough c) s = .next (t.setCore c
        { past with
          plough := { k.plough with
            queue := [{ template := 0xFF, next := 0, total := 1, serial := no, layer := 0xFFFF, elastic := false }],
            direct := true, accSlot := fld w 32 5 }.start (fld w 16 12) 0 0 (65536 * fld w 32 5) (fld w 64 64) }))
    ∧ (wOp w = 0x62 → k.plough.queue ≠ [] → exec (.dtPlough c) s = .next t)
    ∧ (wOp w = 0x63 → (k.strm 0).halted = none → bitOf w 8 = true → k.marksIn .quire q len = [] →
      exec (.dtMove c) s = .next ((t.dramWrite a (k.read .quire q len)).setCore c past))
    ∧ (∀ l, wOp w = 0x63 → (k.strm 0).halted = none → bitOf w 8 = false → t.readDirect a 0 len = .ok l →
      exec (.dtMove c) s = .next (t.setCore c (k.store .quire q l.bytes).takeWord))
    ∧ (∀ e, wOp w = 0x63 → (k.strm 0).halted = none → bitOf w 8 = false → t.readDirect a 0 len = .error e →
      exec (.dtMove c) s = .next (t.haltStream c 0 false e))
    ∧ ((k.strm 0).halted ≠ none → (wOp w = 0x60 → exec (.dtLoad c) s = .next t) ∧ (wOp w = 0x63 → exec (.dtMove c) s = .next t))

/-- Loads and exchanges (R22, R68, R73, R81). -/
def Obligations.PressPasses : Prop :=
  ∀ (img : Image) (c : CoreId) (s : State), s.prog.active = some img → s.issuing = true →
    (let t := s.awlReads c
     let k := t.core c
     (∀ j p ps, t.openLoad img c = some (j, p) → (k.strm p.resStream).halted = none → (k.strm p.resStream).walking = none →
      t.loadPieces img c p.resStream = .ok ps →
      let x := k.strm p.resStream
      let load := loadColumns p.mode p.rfmt p.transposed (t.readLanding img x (t.streamEntry img c p.resStream)) p.wAddr p.stride p.kValid
        (List.range p.cols)
      (∀ cols keys, ps.all x.has = true → load = .ok (cols, keys) →
        let res : Resident := { mode := p.mode, rfmt := p.rfmt, kValid := p.kValid, cols := cols }
        let k' := if j.nextLoad < j.seen then k.land p.resStream keys
          else (k.land p.resStream keys).observeLoad t.prog.closed p.layer p.roleR res
        let k' := k'.modStrm p.resStream fun x => { x with buffer := [] }
        exec (.shadowLoadComplete c) s = .next (t.setCore c
          { k' with press := { k'.press with
              shadow := res, ready := true,
              queue := modJob j.serial (fun j => { j with nextLoad := j.nextLoad + 1, seen := max j.seen (j.nextLoad + 1) })
                k'.press.queue } }))
      ∧ (∀ h, ps.all x.has = true → load = .error h →
        exec (.shadowLoadComplete c) s = .next (t.haltStream c p.resStream j.elastic h))
      ∧ (ps.all x.has = false → exec (.shadowLoadComplete c) s = .next t))
     ∧ (∀ j p h, t.openLoad img c = some (j, p) → (k.strm p.resStream).halted = none → (k.strm p.resStream).walking = none →
      t.loadPieces img c p.resStream = .error h →
      exec (.shadowLoadComplete c) s = .next (t.haltStream c p.resStream j.elastic h))
     ∧ (t.openLoad img c = none → exec (.shadowLoadComplete c) s = .next t))
    ∧ (let k := s.core c
       (∀ j sel, toBegin k.press.queue = some j → k.press.ready = true → k.press.freeSet = some sel → k.press.pass = none →
        img.direct = false →
        let b := s.passPlan img c j.template j.nextPass
        let last := decide (j.nextPass + 1 = j.total)
        let queue := modJob j.serial (fun j => { j with nextPass := j.nextPass + 1 }) k.press.queue
        let exchanged := { k.press with active := k.press.shadow, shadow := k.press.active, ready := false }
        (b.rows ≠ 0 → exec (.passExchange c) s = .next (s.setCore c
          { k with press := { (exchanged.putSet sel (some k.press.shadow)) with
              queue := queue,
              pass := some { sel := sel, mode := b.mode, sfmt := b.sfmt, base := b.act, pitch := b.pitch, kValid := b.kValid,
                             rows := b.rows, next := 0, accumulate := b.accumulate, accRow := b.accRow, layer := b.layer,
                             roleS := BitVec.ofNat 2 b.roleS, roleR := BitVec.ofNat 2 b.roleR, lastOfRun := last,
                             serial := j.serial } } }))
        ∧ (b.rows = 0 → last = false ∨ k.press.beats = [] →
          let t := s.setCore c { k with press := { exchanged with queue := queue } }
          exec (.passExchange c) s = .next (if last then t.finishRun c j.serial else t)))
       ∧ ((k.press.ready = false ∨ k.press.freeSet = none ∨ k.press.pass.isSome = true) → exec (.passExchange c) s = .next s))

/-- Pass-rows and beats (R47 to R67); the last beat of a RUN also ends it (`State.finishRun`). -/
def Obligations.PressWrites : Prop :=
  ∀ (img : Image) (c : CoreId) (s : State), s.prog.active = some img →
    let k := s.core c
    (∀ cycle ap, k.press.pass = some ap → s.issuing = true →
      let a := ap.base + ap.pitch * ap.next
      let n := ap.mode.rowBytes ap.sfmt
      let bytes := k.read .quire a n
      let xs := rowElements ap.mode ap.sfmt ap.kValid bytes
      let f := fold xs
      let edges := (List.range 120).map fun r =>
        if ap.mode = .x1 then rowOfBits (rowBits ap.mode bytes) ap.kValid r
        else RowEdge.leaf (leafOf ap.mode f.a r) ((leafOf ap.mode f.a r).map entryParity)
      let last := decide (ap.next + 1 = ap.rows)
      let k' := if ap.mode = .x1
        then k.observe s.prog.closed ap.layer ap.roleS.toNat true (List.replicate ap.kValid (.fin false 1 0)) 0 0
        else k.observe s.prog.closed ap.layer ap.roleS.toNat false xs f.flush f.sat
      k.marksIn .quire a n = [] → exec (.passRowIssue c cycle) s = .next (s.setCore c
        { k' with press := { k'.press with
            incoming := edges, held := edges,
            beats := k'.press.beats ++
              [{ valid := true, passSel := ap.sel, mode := ap.mode, plane := ap.mode.lastPlane, lastPlane := true, qa := f.qa,
                 nonfinite := f.nonfinite, accumulate := ap.accumulate, accRow := ap.accRow + ap.next, edges := edges, cycle := cycle,
                 layer := ap.layer, lastOfPass := last, lastOfRun := last && ap.lastOfRun, serial := ap.serial }],
            pass := if last then none else some { ap with next := ap.next + 1 } } }))
    ∧ (k.press.pass = none → ∀ cycle, exec (.passRowIssue c cycle) s = .next s)
    ∧ (∀ b rest res residue, k.press.beats = b :: rest → k.press.getSet b.passSel = some res → k.ecc = [] →
      b.valid = true → b.lastPlane = true →
      let vs := b.values res
      let a := 512 * b.accRow
      let ws := if b.accumulate then vs.zipIdx.map fun p => fB32.add (k.readNat .acc (a + 4 * p.2) 4) p.1 else vs
      let k' := (({ k with press := { k.press with beats := rest } }).store .acc a (ws.map (leBytes 4)).flatten).observe s.prog.closed
        b.layer 2 false (vs.map fB32.decode) 0 (vs.filter fun v => decide (0x7F80_0000 ≤ v % 2 ^ 31)).length
      let t := s.setCore c { k' with press := if b.lastOfPass then k'.press.putSet b.passSel none else k'.press }
      let t := match b.faultColumn residue with
        | some col =>
          (t.modCore c fun k => { k with press := { k.press with faultCol := some col } }).coreFault c 1 (some (BitVec.ofNat 256 col.val))
        | none => t
      exec (.beatWrite c residue) s = .next (if b.lastOfRun then t.finishRun c b.serial else t))
    ∧ (k.press.beats = [] → ∀ residue, exec (.beatWrite c residue) s = .next s)
    ∧ (∀ b : Beat, (∀ e ∈ b.edges, e.parityOk = true) → ∀ residue, b.faultColumn residue = residue)

/-- Words that need no engine (R143, R151 to R154, R156). -/
def Obligations.NeedleWords : Prop :=
  ∀ (img : Image) (c : CoreId) (no w : Nat) (s : State), s.atWord img c no w →
    let t := s.awlReads c
    let k := t.core c
    let n := k.needle
    let past := k.takeWord
    let id := fld w 16 8
    let v := k.kettle.getD id 0
    let e := decide (n.sect = .elastic)
    (wOp w = 0x00 → exec (.needleNop c) s = .next (t.setCore c past))
    ∧ (wOp w = 0x20 → k.signals.length < 64 → ∀ d : CoreId, d.val = (if fld w 24 8 < 192 then fld w 24 8 else c.val) →
        exec (.kettleSignal c) s = .next (t.setCore c
          { past with signals := k.signals ++ [{ target := d, id := BitVec.ofNat 8 id, incr := BitVec.ofNat 16 (fld w 32 16),
                                                 scope := BitVec.ofNat 2 (fld w 8 2), awaits := k.workIn (fld w 8 2) e, elastic := e }] }))
    ∧ (wOp w = 0x20 → 64 ≤ k.signals.length → exec (.kettleSignal c) s = .next t)
    ∧ (wOp w = 0x21 → fld w 32 16 ≤ v.toNat → exec (.kettleWait c) s = .next (t.setCore c
        { past with satisfied := if (∀ x, k.satisfied = some x → x.toNat ≤ id) then some (BitVec.ofNat 8 id) else k.satisfied }))
    ∧ (wOp w = 0x21 → v.toNat < fld w 32 16 → exec (.kettleWait c) s = .next t)
    ∧ (wOp w = 0x30 → bitOf w 8 = true → n.released = true → exec (.cadence c) s
        = .next (t.setCore c { past with needle := { past.needle with waitRelease := false } }))
    ∧ (wOp w = 0x30 → bitOf w 8 = true → n.released = false → exec (.cadence c) s
        = .next (t.setCore c { k with needle := { n with waitRelease := true } }))
    ∧ (wOp w = 0x30 → bitOf w 8 = false → n.releaseNow + fld w 16 24 ≤ t.now → exec (.cadence c) s = .next (t.setCore c past))
    ∧ (wOp w = 0x30 → bitOf w 8 = false → t.now < n.releaseNow + fld w 16 24 → exec (.cadence c) s = .next t)
    ∧ (wOp w = 0x50 → (∀ q ∈ t.prog.snaps, q.set ≠ fld w 16 6) → exec (.snapshot c) s
        = .next ((t.modProg fun p => { p with snaps := p.snaps ++ [⟨fld w 16 6, bitOf w 8⟩] }).setCore c past))
    ∧ (∀ a b ship, wOp w = 0x50 → t.prog.snaps = a ++ [⟨fld w 16 6, ship⟩] ++ b → (∀ q ∈ a, q.set ≠ fld w 16 6) →
        exec (.snapshot c) s
          = .next ((t.modProg fun p => { p with snaps := a ++ [⟨fld w 16 6, ship || bitOf w 8⟩] ++ b }).setCore c past))

/-- Ends of sections. Entries that no load has read are dropped (log entry 14). -/
def Obligations.NeedleSections : Prop :=
  ∀ (img : Image) (c : CoreId) (no w : Nat) (s : State), s.atWord img c no w →
    let t := s.awlReads c
    let n := (t.core c).needle
    let ends := fun (e : Bool) (m : Needle) => t.modCore c fun k => { k.takeWord.dropArms e with needle := m }
    (wOp w = 0x01 → t.drained img c false = true → exec (.stepEnd c) s
      = .next (ends false { n with retired := true, sleepReq := bitOf w 8, sect := if n.elasticOn then .elastic else .done,
                                   pos := if n.elasticOn then n.elasticPos else 0 }))
    ∧ (wOp w = 0x01 → t.drained img c false = false → exec (.stepEnd c) s = .next t)
    ∧ (wOp w = 0x02 → n.sect = .elastic → t.drained img c true = false → exec (.sectionEnd c) s = .next t)
    ∧ (wOp w = 0x02 → n.sect = .elastic → t.drained img c true = true →
        let u := ends true { n with elasticOn := false, elasticPos := 0, sect := if n.retired then .done else t.prog.schedule, pos := 0 }
        exec (.sectionEnd c) s = .next (
          if ∀ d : CoreId, d ≠ c → (t.core d).needle.elasticOn = false then
            match t.prog.elasticHandle, t.prog.elasticFault with
            | some h, none => (u.complete h 0 0 t.prog.elasticRuns.toNat).modProg fun p => { p with elasticHandle := none, elasticFault := none }
            | some h, some cause =>
              (u.complete h 0x0206 cause t.prog.elasticRuns.toNat).modProg fun p => { p with elasticHandle := none, elasticFault := none }
            | none, _ => u
          else u))
    ∧ (wOp w = 0x02 → n.sect ≠ .elastic → t.drained img c false = false → exec (.sectionEnd c) s = .next t)
    ∧ (wOp w = 0x02 → n.sect ≠ .elastic → t.drained img c false = true →
        let u := ends false { n with sect := .done, pos := 0 }
        (img.direct = false ∨ (∃ d : CoreId, d ≠ c ∧ d.val < img.cores ∧ (t.core d).needle.sect ≠ .done) →
            exec (.sectionEnd c) s = .next u)
        ∧ (img.direct = true → (∀ d : CoreId, d ≠ c → d.val < img.cores → (t.core d).needle.sect = .done) →
            exec (.sectionEnd c) s = .next (u.endProgram 0 0 none)))

/-- Words that issue work (R142, R148, R155, R165, R170). -/
def Obligations.NeedleIssue : Prop :=
  ∀ (img : Image) (c : CoreId) (no w : Nat) (s : State), s.atWord img c no w →
    let t := s.awlReads c
    let n := (t.core c).needle
    let tmpl := t.runTemplate img c n.sect (fld w 16 8)
    let x := t.template img c tmpl
    let d := t.descriptor img c (tDesc x)
    let r := (t.touchTable img c 0 64 tmpl).touchTable img c 1 128 (tDesc x)
    let queued := ((r.core c).press.queue.filter (·.taken)).length
    let i := fld w 16 6
    let slot := fld w 16 8
    let late := (t.fab.openSlots.contains slot = true ∨ t.prog.releaseNow + t.openOffset img (t.slotEntry img slot) < t.now)
      ∧ t.cad.hold = false ∧ t.fab.untimed = false ∧ t.fab.cover = false
    let fabric := fun (i : Instr) (recv : Bool) =>
      let k := t.core c
      (4 ≤ k.fabricQ.length → exec i s = .next t)
      ∧ (k.fabricQ.length < 4 → ¬ late → exec i s = .next (t.setCore c
          { k.takeWord with fabricQ := k.fabricQ ++ [(slot, recv, fld w 64 52, BitVec.ofNat 8 (fld w 32 8), bitOf w 8, no)] }))
      ∧ (k.fabricQ.length < 4 → late → exec i s = .next (((t.setCore c k.takeWord).fault 0x10 c.val).modFab fun f =>
          { f with doneSlots := slot :: f.doneSlots }))
    (wOp w = 0x10 → tKind x = 0 → queued < 4 → exec (.run c) s = .next (r.modCore c fun k =>
        { k.takeWord with press := { k.press with
            queue := modJob no (fun j => { j with taken := true }) k.press.queue } }))
    ∧ (wOp w = 0x10 → tKind x = 0 → 4 ≤ queued → exec (.run c) s = .next r)
    ∧ (wOp w = 0x10 → tKind x ≠ 0 → 4 ≤ (r.core c).plough.queue.length → exec (.run c) s = .next r)
    ∧ (wOp w = 0x10 → tKind x ≠ 0 → (r.core c).plough.queue.length < 4 →
        let k := r.core c
        let job : PloughJob := { template := tmpl, next := 0, total := nestSize (r.descriptor img c (tDesc x)), serial := no,
                                 layer := tLayer x, elastic := decide (n.sect = .elastic) }
        let q := { k.plough with queue := k.plough.queue ++ [job] }
        (k.plough.running = true → exec (.run c) s = .next (r.setCore c { k.takeWord with plough := q }))
        ∧ (k.plough.running = false → k.plough.queue = [] → r.prog.active = some img →
            r.template img c tmpl = x → r.descriptor img c (tDesc x) = d → exec (.run c) s = .next (r.setCore c
          { k.takeWord with
            plough := q.start (tKernel (r.tailTemplate img c x d 0)) (tActAddr x + nestOffset d 0 0) (nestOffset d 1 0)
              (512 * tAccRow x + nestOffset d 2 0) (tAux x + nestOffset d 3 0) })))
    ∧ (wOp w = 0x11 → t.awlQueue img c (decide (n.sect = .elastic)) < 4 → exec (.stream c) s
        = .next (t.modCore c fun k => k.takeWord.modStrm i fun z =>
            { z with arms := z.arms.map fun a => if a.serial = no then { a with issued := true } else a }))
    ∧ (wOp w = 0x11 → 4 ≤ t.awlQueue img c (decide (n.sect = .elastic)) → exec (.stream c) s = .next t)
    ∧ (wOp w = 0x40 → fabric (.fabricSend c) false) ∧ (wOp w = 0x41 → fabric (.fabricRecv c) true)

/-- The turn of a Needle command (R142, R157), whichever command it is. -/
def Obligations.NeedleTurn : Prop :=
  ∀ (i : Instr) (c : CoreId) (op : Nat) (s : State), i.needleOp = some (c, op) →
    let n := (s.core c).needle
    let idle := n.stopped = true ∨ s.issuing = false ∨ n.sect.runs = false ∨ (s.core c).asleep = true
    (s.prog.active = none → exec i s = .next s)
    ∧ ∀ img, s.prog.active = some img →
      let t := s.awlReads c
      let left := n.pos < (s.part img c n.sect.part).2
      let head := (t.core c).headWord
      let fault := Host.Outcome.next (t.coreStops c 0x0204 (c.val + 2 ^ 8 * (t.core c).needle.pos))
      (idle → exec i s = .next s)
      ∧ (head = none → img.direct = false ∨ left → exec i s = .next s)
      ∧ (∀ no w, head = some (no, w) → wOp w ≠ op → img.direct = false ∨ t.directOk c w = true → exec i s = .next s)
      ∧ (img.direct = true → ¬ idle → head = none → ¬ left → exec i s = fault)
      ∧ (∀ no w, img.direct = true → ¬ idle → head = some (no, w) → t.directOk c w = false → exec i s = fault)

/-- Kettle signals reach their counters (R151, R371). The wrap modulo 2^16 is the model's choice (log entry 51). -/
def Obligations.KettleSignals : Prop :=
  ∀ (c : CoreId) (s : State),
    let k := s.core c
    let add := fun (g : Signal) (s : State) => s.modCore g.target fun k =>
      { k with kettle := k.kettle.set g.id.toNat (k.kettle.getD g.id.toNat 0 + g.incr) g.id.isLt }
    let runs := s.prog.active.isSome = true ∧ s.aclkRuns = true
    let complete := fun (g : Signal) => ∀ n ∈ g.awaits, n ∉ k.workIn g.scope.toNat true
    (∀ g rest, runs → k.doneSignals = g :: rest →
      exec (.kettleSignalApply c true) s = .next (add g (s.setCore c { k with doneSignals := rest })))
    ∧ (∀ a g b, runs → k.signals = a ++ g :: b → complete g → (∀ h ∈ a, ¬ complete h) →
      exec (.kettleSignalApply c false) s = .next (add g (s.setCore c { k with signals := a ++ b })))
    ∧ (¬ runs ∨ k.doneSignals = [] → exec (.kettleSignalApply c true) s = .next s)
    ∧ (¬ runs ∨ (∀ h ∈ k.signals, ¬ complete h) → exec (.kettleSignalApply c false) s = .next s)

/-- Requests of the Awl (R164 to R172, R183). Which free tag a read takes, and that a stream serves its words in the order in which they
were armed, are the model's choices (log entry 14). -/
def Obligations.AwlReads : Prop :=
  ∀ (img : Image) (c : CoreId) (i : Fin 64) (s : State),
    let t := s.awlReads c
    let k := t.core c
    let x := k.strm i
    let e := t.streamEntry img c i
    let writes := (k.awl.streams.toList.map (·.writes.length)).sum
    s.prog.active = some img → s.issuing = true → img.direct = false →
    (∀ w, t.wanted img c i = .ok (some w) → (w.elastic = true → k.needle.sect = .elastic) →
      let pages := k.awl.cachedPages (pagesOf w.piece.addr w.piece.len)
      let miss := if sPaged e then k.missing pages else none
      let u := if sPaged e then t.modCore c fun k => pages.foldl Core.usePage k else t
      (∀ p, miss = some p → exec (.awlReadIssue c i) s = .next (t.modStrm c i fun x => { x with walking := some (p, w.piece.block) }))
      ∧ (miss = none → sWrite e = true → exec (.awlReadIssue c i) s = .next (u.issueWrite c i e w.elastic w.piece))
      ∧ (miss = none → sWrite e = true → 128 ≤ writes → exec (.awlReadIssue c i) s = .next u)
      ∧ (miss = none → sWrite e = true → writes < 128 → k.ecc = [] →
        let start := t.landStart e w.piece.block
        (sDest e ≠ 2 ∨ 512 * sAccBase e + start + bLen (t.listEntry e w.piece.block) ≤ coreMemSize .acc →
          exec (.awlReadIssue c i) s = .next
            ((u.dramStore w.piece.addr (k.sourceRead e (start + w.piece.offset) w.piece.len)).modStrm c i fun x =>
              { x with nextByte := x.nextByte + w.piece.len,
                       writes := x.writes ++ [(landKey w.piece.block w.piece.offset, w.piece.len)] }))
        ∧ (sDest e = 2 → coreMemSize .acc < 512 * sAccBase e + start + bLen (t.listEntry e w.piece.block) →
          exec (.awlReadIssue c i) s = .next (u.haltStream c i w.elastic
            { reason := 0x40, block := w.piece.block, offset := 0, addr := bAddr (t.listEntry e w.piece.block) })))
      ∧ (miss = none → sWrite e = false →
        freeTagFrom k.awl.reads 640 0 = none ∨ (w.elastic = true ∧ k.awl.pinned.words ≠ [] ∧ 128 ≤ k.elasticTags) →
        exec (.awlReadIssue c i) s = .next u)
      ∧ (∀ tag, miss = none → sWrite e = false → freeTagFrom k.awl.reads 640 0 = some tag →
        (w.elastic = true → k.awl.pinned.words = [] ∨ k.elasticTags < 128) →
        exec (.awlReadIssue c i) s = .next ((u.modCore c fun k =>
          { k with awl := k.awl.take tag i w.group w.elastic w.piece }).advanceStream img c i e w)))
    ∧ (∀ w, t.wanted img c i = .ok (some w) → w.elastic = true → k.needle.sect ≠ .elastic → exec (.awlReadIssue c i) s = .next t)
    ∧ (∀ h, t.wanted img c i = .error h → exec (.awlReadIssue c i) s = .next (t.haltStream c i (t.servesElastic img c i) h))
    ∧ (t.wanted img c i = .ok none → exec (.awlReadIssue c i) s = .next t)
    ∧ (∀ a rest, x.arms = a :: rest → sMulticast e = false → sShadow e = false → x.halted = none → x.walking = none →
      let b := t.listEntry e a.first
      x.nextByte < bLen b → 0 < a.count → a.first < sListCount e → t.listEntryOk img e b = true →
      let at0 := bAddr b + x.nextByte
      t.wanted img c i = .ok (some { piece := { block := a.first, offset := x.nextByte, addr := at0,
                                                len := min (256 - at0 % 256) (bLen b - x.nextByte) },
                                     group := 0, elastic := a.elastic }))

/-- What comes back to the Awl (R104, R105, R170, R171, R179, R189). How long an error stays and what a halt stops is log entry 15, how
many values the last block of an entry lands log entry 20, which of two answers under one tag comes first log entry 66: the model's. -/
def Obligations.AwlReturns : Prop :=
  ∀ (img : Image) (c : CoreId) (i : Fin 64) (s : State), s.prog.active = some img →
    let k := s.core c
    let x := k.strm i
    let e := s.streamEntry img c i
    (∀ (tag : Fin 640) bad p, k.awl.late.find? (fun p => p.1 = tag.val) = some p →
      exec (.readReturn c tag bad) s = .next (s.modCore c fun k => { k with awl := { k.awl with late := k.awl.late.erase p } }))
    ∧ (∀ (tag : Fin 640) r bad, (∀ p ∈ k.awl.late, p.1 ≠ tag.val) → k.awl.reads.find? (fun r => r.tag = tag.val) = some r →
      let t := s.modCore c fun k => { k with awl := { k.awl with reads := k.awl.reads.erase r } }
      let t := if bad then t.dramUncorrectable r.addr else t
      let b := r.offset / 2 ^ 40
      let takers := if r.group = 0 then [(c, r.stream)] else t.takers img c r.stream r.group r.offset
      t.prog.active = some img →
      (t.issuing = false ∨ r.dropped = true → exec (.readReturn c tag bad) s = .next t)
      ∧ (t.issuing = true → r.dropped = false → exec (.readReturn c tag bad) s = .next (takers.foldl (fun s m =>
          s.landRead img m.1 m.2 r.elastic b (r.offset % 2 ^ 40) r.addr (bad || t.poisoned r.addr r.len) (t.dramRead r.addr r.len)) t)))
    ∧ (∀ w rest, x.writes = w :: rest → exec (.writeAck c i) s = .next (s.modStrm c i fun x =>
        { x with writes := rest, landed := if x.armed (w.1 / 2 ^ 40) then addSpan x.landed w.1 w.2 else x.landed }))
    ∧ (∀ (tag : Fin 640) r, k.awl.reads.find? (fun r => r.tag = tag.val) = some r →
        exec (.tagExpiry c tag) s = .next (if s.prog.phase = .cancelling then
          s.modCore c fun k => { k with awl := { k.awl with reads := k.awl.reads.erase r, late := k.awl.late ++ [(r.tag, r.gen)] } } else s))
    ∧ (∀ a rest kd j, x.arms = a :: rest → sMull e = some kd → s.issuing = true → sShadow e = false →
        let b := a.first + a.delivered
        let o := landKey b (kd.size * j)
        x.haltedBefore b (kd.size * j) = false →
        nextBlock x.landed b (bLen (s.listEntry e b) / kd.size) = some j →
        (∀ n, n < kd.size → (Mem.lookup x.buffer (o + n)).isSome = true) →
        let w := leNat (Mem.read zeroByte x.buffer o kd.size)
        let t := s.modStrm c i fun x => { x with buffer := x.buffer.filter fun p => !(decide (o ≤ p.1) && decide (p.1 < o + kd.size)) }
        let last := decide (j + 1 = bLen (s.listEntry e b) / kd.size)
        let real := if last then (s.free 0).toNat % 4096 + 1 else 4096
        let landed := t.modCore c fun k =>
          (k.landWindow e (s.landStart e b + 8192 * j) ((List.range real).map fun n => leBytes 2 (mullValue kd w n)).flatten).land i
            [(landKey b (8192 * j), 8192)]
        exec (.mullBlockRelease c i) s = .next (match mullCheck kd w with
          | none => if last then landed.bump else landed
          | some reason =>
            (t.modCore c fun k => k.landWindow e (s.landStart e b + 8192 * j) (List.replicate 4096 (leBytes 2 kd.nan)).flatten).haltStream c i
              a.elastic { reason := reason, block := b, offset := kd.size * j, addr := bAddr (s.listEntry e b) + kd.size * j }))
    ∧ (∀ a rest, x.arms = a :: rest → s.issuing = true ∨ s.prog.phase = .cancelling →
        (∀ h, x.halted = some h → h.block ≠ a.first + a.delivered) → (a.elastic = true → k.needle.sect = .elastic) →
        let b := a.first + a.delivered
        let last := decide (a.delivered + 1 = a.count)
        let t := s.modCore c fun k =>
          let k' := k.modStrm i fun x =>
            { x with arms := if last then rest else { a with delivered := a.delivered + 1 } :: rest,
                     nextByte := if last then 0 else x.nextByte, landed := dropEntry x.landed b }
          { k' with doneSignals := k.doneSignals ++ (if sDeliverEn e && (sSignalEach e || last) then
              [{ target := c, id := BitVec.ofNat 8 (sDeliverId e), incr := 1, scope := 0, awaits := [], elastic := a.elastic }]
            else []) }
        (s.listEntryOk img e (s.listEntry e b) = false → exec (.entryDelivery c i) s = .next (s.haltStream c i a.elastic
          { reason := 0x40, block := b, offset := 0, addr := bAddr (s.listEntry e b) }))
        ∧ (s.listEntryOk img e (s.listEntry e b) = true → covered x.landed (landKey b 0) (landLen e (bLen (s.listEntry e b))) = true →
          exec (.entryDelivery c i) s = .next (match (if last && sMulticast e then t.issuer img (sGroup e) else none) with
            | some m => if ∃ r ∈ ((t.core m.1).strm m.2).memberArms, r.1 = c ∧ r.2.serial = a.serial then t
              else t.modStrm m.1 m.2 fun x => { x with memberArms := x.memberArms ++ [(c, a)] }
            | none => t))
        ∧ (covered x.landed (landKey b 0) (landLen e (bLen (s.listEntry e b))) = false → s.listEntryOk img e (s.listEntry e b) = true →
          exec (.entryDelivery c i) s = .next s))
    ∧ (∀ h, x.halted = some h → (∀ a, x.arms.head? = some a → h.block = a.first + a.delivered) →
        exec (.entryDelivery c i) s = .next s)
    ∧ (let t := s.awlReads c
       ∀ m a, s.issuing = true → img.direct = false → sMulticast (t.streamEntry img c i) = true →
        t.issuer img (sGroup (t.streamEntry img c i)) = some m →
        ((t.core c).strm i).arms.find? (fun a => !((t.core m.1).strm m.2).memberArms.any fun r => r.1 == c && r.2.serial == a.serial)
          = some a →
        exec (.multicastArm c i) s
          = .next (t.modStrm m.1 m.2 fun x => { x with memberArms := x.memberArms ++ [(c, a)] }))

/-- Pages of the paged pool (R183 to R185). Which page is evicted is a free value (log entry 21). -/
def Obligations.Paging : Prop :=
  ∀ (img : Image) (c : CoreId) (i : Fin 64) (p : Nat) (s : State), s.prog.active = some img →
    let x := (s.core c).strm i
    (∀ b, x.walking = some (p, b) →
      let t := s.modStrm c i fun x => { x with walking := none }
      ((∃ g ∈ s.prog.present, g.1 = p) → exec (.translationWalkDone c i) s = .next (t.modCore c fun k =>
        { k with awl := { k.awl with tlb := (p :: k.awl.tlb.filter (· ≠ p)).take 256 } }))
      ∧ ((∀ g ∈ s.prog.present, g.1 ≠ p) → x.halted = none → exec (.translationWalkDone c i) s
        = .next (t.haltStream c i (s.servesElastic img c i) (t.pageUnit (t.streamEntry img c i) p b)))
      ∧ ((∀ g ∈ s.prog.present, g.1 ≠ p) → x.halted.isSome = true → exec (.translationWalkDone c i) s = .next s))
    ∧ ((∃ h, x.halted = some h ∧ ((h.reason = 0x30 ∧ p = h.addr / unitBytes) ∨ (h.reason ≠ 0x30 ∧ ∃ b, x.walking = some (p, b)))) →
      x.fetching = none → s.binderRuns = true →
      let t := s.modStrm c i fun x => { x with fetching := some p }
      ((∃ g ∈ s.prog.present, g.1 = p) → exec (.pageNotPresent c i) s = .next (s.resumePage p))
      ∧ ((∀ g ∈ s.prog.present, g.1 ≠ p) → (∃ d, ∃ j : Fin 64, ((s.core d).strm j).fetching = some p) →
        exec (.pageNotPresent c i) s = .next t)
      ∧ ((∀ g ∈ s.prog.present, g.1 ≠ p) → (∀ d, ∀ j : Fin 64, ((s.core d).strm j).fetching ≠ some p) →
        let u := (s.frameFor img).modStrm c i fun x => { x with fetching := some p }
        exec (.pageNotPresent c i) s = .next (match (u.prog.regionOf p).filter (·.peer) with
          | some g => u.sendDyn g.peerNode (.pageFetch c i) (.pageFetch p)
          | none => u)))
    ∧ (∀ w, let t := s.evictPage (p, w)
      (∀ d, p ∉ (t.core d).awl.tlb) ∧ (∀ g ∈ t.prog.present, g.1 ≠ p)
      ∧ (w = true → ∀ g, s.prog.regionOf p = some g → g.peer = false → ∀ n, n < unitBytes →
          Mem.lookup t.hostMem (g.backAddr + (p * unitBytes - g.vbase) + n) = some ((s.dramRead (p * unitBytes) unitBytes).getD n 0)))
    ∧ (s.prog.present.length + s.fetches.length < s.poolFrames img → s.frameFor img = s)
    ∧ (∀ g, s.poolFrames img ≤ s.prog.present.length + s.fetches.length →
      s.prog.present[(s.free 0).toNat % s.prog.present.length]? = some g → s.frameFor img = (s.evictPage g).bump)
    ∧ (x.fetching = some p → ∀ bytes, bytes.length = unitBytes → (∀ g ∈ s.prog.present, g.1 ≠ p) →
      exec (.pageInComplete c i (some bytes)) s = .next (((s.dramWrite (p * unitBytes) bytes).modProg fun g =>
        { g with present := g.present ++ [(p, false)] }).resumePage p))
    ∧ (∀ d (j : Fin 64), let y := (s.core d).strm j
        ((s.resumePage p).core d).strm j = match y.halted with
          | some h =>
            let z := if h.reason = 0x30 ∧ h.addr / unitBytes = p then { y with halted := none, walking := none }
              else if h.reason ≠ 0x30 ∧ y.walking.map (·.1) = some p then { y with walking := none } else y
            if y.fetching = some p then { z with fetching := none } else z
          | none => if y.fetching = some p then { y with fetching := none } else y)
    ∧ (x.fetching = some p → exec (.pageInComplete c i none) s = .next (s.pageFailed c i))

/-- The tipping path (R176, R177) and the end of a cancellation (R189). Each piece of an accumulator write falls in a cycle that the
command does not name (log entry 7). -/
def Obligations.TippingPath : Prop :=
  ∀ (src : TipSource) (s : State),
    let read := fun (bytes : List Byte) => s.modHost fun h => { h with readData := some bytes }
    (∀ c m a bytes, s.pwr.main = true → src ≠ .bar2 → a + bytes.length ≤ coreMemSize m → (s.core c).ecc = [] →
      exec (.tippingTransfer src (.writeCore c m a bytes)) s
        = .next ((s.modCore c fun k => ((cutWords 32 (bytes.length + 1) a bytes).zipIdx.foldl
            (fun k p => k.ploughStore none (s.free p.2).toNat m p.1.1 (p.1.2.map some)) k)).bump))
    ∧ (∀ c m a n, s.pwr.main = true → src ≠ .bar2 → a + n ≤ coreMemSize m → (s.core c).ecc = [] →
      exec (.tippingTransfer src (.readCore c m a n)) s = .next (read ((s.core c).read m a n)))
    ∧ (∀ a bytes, s.pwr.main = true → exec (.tippingTransfer src (.writeDram a bytes)) s
      = .next (if a + bytes.length ≤ s.layoutEnd then s.dramStore a bytes else s))
    ∧ (∀ a n, s.pwr.main = true → exec (.tippingTransfer src (.readDram a n)) s
      = .next (if a + n ≤ s.layoutEnd then read (s.dramRead a n) else s))
    ∧ (∀ c m a bytes, s.pwr.main = false ∨ src = .bar2 ∨ coreMemSize m < a + bytes.length →
      exec (.tippingTransfer src (.writeCore c m a bytes)) s = .next s)
    ∧ (∀ img, s.prog.phase = .cancelling → s.prog.active = some img →
        (∀ c : CoreId, let k := s.core c
          k.awl.reads = [] ∧ k.press.beats = [] ∧ k.doneSignals = [] ∧ (∀ g ∈ k.signals, k.scopeDone g = false)
            ∧ ∀ i : Fin 64, (k.strm i).writes = []
              ∧ ∀ a, (k.strm i).arms.head? = some a → s.mayDeliver c (k.strm i) a = false ∨ s.entryLanded img c i a = false) →
        exec .cancelDrainDone s = .next (s.endProgram 0x0201 0
          (some ((s.core 0).kettlePair.1.toNat + 2 ^ 16 * (s.core 0).kettlePair.2.toNat))))
    ∧ (s.prog.phase ≠ .cancelling ∨ (∃ c : CoreId, (s.core c).awl.reads ≠ [] ∨ (s.core c).press.beats ≠ [] ∨ (s.core c).doneSignals ≠ []
          ∨ ∃ i : Fin 64, ((s.core c).strm i).writes ≠ []) →
        exec .cancelDrainDone s = .next s)

/-- Scalars and pointers (R190, R192, R196): the sums and shifts are those of 64-bit registers; no other part of the state changes. -/
def Obligations.PloughScalars : Prop :=
  ∀ (c : CoreId) (s : State) (r : Nat), s.atInstr c r →
    let p := (s.core c).plough
    let imm : W64 := BitVec.ofInt 64 (sext (fld r 64 32) 32)
    let S := fun i => p.sr.getD i 0
    let done := fun (q : Plough) => Host.Outcome.next (s.modCore c fun k => { k with plough := { q with ip := p.ip + 1 } })
    (iOp r = 0x08 → exec (.sli c) s = done { p with sr := p.sr.setIfInBounds (fld r 8 4) imm })
    ∧ (iOp r = 0x09 → exec (.sadd c) s = done { p with sr := p.sr.setIfInBounds (fld r 8 4) (S (fld r 13 4) + S (fld r 18 4)) })
    ∧ (iOp r = 0x0A → exec (.sshl c) s = done { p with sr := p.sr.setIfInBounds (fld r 8 4) (S (fld r 13 4) <<< fld r 64 6) })
    ∧ (iOp r = 0x0B → exec (.pset c) s = done { p with p := p.p.setIfInBounds (fld r 36 3) (S (fld r 32 4)) })
    ∧ (iOp r = 0x0C → exec (.padd c) s
        = done { p with p := p.p.setIfInBounds (fld r 36 3) (p.p.getD (fld r 36 3) 0 + imm) })

/-- Control flow of a kernel (R193 to R196). For END: the last invocation of the only job queued, and an earlier invocation of it. -/
def Obligations.PloughControl : Prop :=
  ∀ (c : CoreId) (s : State) (r : Nat), s.atInstr c r →
    let p := (s.core c).plough
    let done := fun (q : Plough) => Host.Outcome.next (s.modCore c fun k => { k with plough := q })
    let fault := Host.Outcome.next (s.coreStopsWith c 0x0205 (c.val + 2 ^ 8 * p.ip) [0, 0])
    let x := sext (p.sreg (iSreg r)) 64
    let taken := fun (f : Nat) => (f = 0 ∧ x = 0) ∨ (f = 1 ∧ x ≠ 0) ∨ (f = 2 ∧ x < 0) ∨ (f = 3 ∧ 0 ≤ x)
    let inside := p.ip + 1 + iImm r ≤ 4095
      ∧ branchOk (fun k => (s.core c).readNat .endpaper (16 * k) 1) (iImm r) (p.ip + 1) 0 = true
    (iOp r = 0x00 → exec (.ploughNop c) s = done { p with ip := p.ip + 1 })
    ∧ (iOp r = 0x02 → p.loops.length < 4 →
        exec (.ploughLoop c) s = done { p with loops := ⟨p.ip + 1, iImm r - 1⟩ :: p.loops, ip := p.ip + 1 })
    ∧ (iOp r = 0x02 → 4 ≤ p.loops.length → exec (.ploughLoop c) s = fault)
    ∧ (iOp r = 0x03 → p.loops = [] → exec (.ploughEndLoop c) s = fault)
    ∧ (∀ a n rest, iOp r = 0x03 → p.loops = ⟨a, n + 1⟩ :: rest →
        exec (.ploughEndLoop c) s = done { p with loops := ⟨a, n⟩ :: rest, ip := a })
    ∧ (∀ a rest, iOp r = 0x03 → p.loops = ⟨a, 0⟩ :: rest →
        exec (.ploughEndLoop c) s = done { p with loops := rest, ip := p.ip + 1 })
    ∧ (iOp r = 0x04 → p.direct = false ∨ inside → taken (iFmt r) →
        exec (.brf c) s = done { p with ip := p.ip + 1 + iImm r })
    ∧ (iOp r = 0x04 → p.direct = false ∨ inside → ¬ taken (iFmt r) → exec (.brf c) s = done { p with ip := p.ip + 1 })
    ∧ (iOp r = 0x04 → p.direct = true → ¬ inside → exec (.brf c) s = fault)
    ∧ (∀ j, iOp r = 0x01 → p.queue = [j] → j.total ≤ j.next + 1 →
        let t := (s.prog.active.elim 0 fun img => if p.direct then 0 else s.template img c j.template)
        exec (.ploughEnd c) s = .next (s.modCore c fun k =>
          { k with plough := { p with running := false, queue := [] },
                   doneSignals := k.doneSignals ++ (if tDoneEn t then
                     [{ target := c, id := BitVec.ofNat 8 (tDoneId t), incr := 1, scope := 0, awaits := [],
                        elastic := j.elastic }] else []) }))
    ∧ (∀ j img, iOp r = 0x01 → s.prog.active = some img → p.queue = [j] → j.next + 1 < j.total →
        let d := s.descriptor img c (tDesc (s.template img c j.template))
        let n := j.next + 1
        let t := s.template img c j.template
        exec (.ploughEnd c) s = done
          { Plough.reset with
            p := Vector.ofFn fun i : Fin 8 => BitVec.ofInt 64 (match i.val with
              | 0 => tActAddr t + nestOffset d 0 n
              | 1 => nestOffset d 1 n
              | 2 => 512 * tAccRow t + nestOffset d 2 n
              | 3 => tAux t + nestOffset d 3 n
              | _ => 0),
            ip := tKernel (s.tailTemplate img c t d n), running := true, direct := p.direct, accSlot := p.accSlot,
            queue := [{ j with next := n }] })

/-- The fetch of a line (R219), and PLOUGH_FAULT for a refused instruction or an index beyond 4,095 (R194, R195), whichever of the Plough's
commands reaches it. That it holds outside direct mode, and what an error of the word changes, are the model's choice (log entry 50). -/
def Obligations.PloughRefusedInstruction : Prop :=
  ∀ (i : Instr) (c : CoreId) (op : Nat) (s : State), i.ploughOp = some (c, op) →
    let k := s.core c
    let p := k.plough
    let line := p.ip / 16
    let held := ∃ b, p.line = some (line, b)
    let r := p.instr
    let ok := instrOk r (p.layer == 0xFFFF)
    let runs := p.running = true ∧ p.halted = false ∧ s.prog.active.isSome = true ∧ s.aclkRuns = true
    let broken := ∃ m ∈ k.marksIn .endpaper (16 * p.ip) 16, m.find = .uncorrectable
    let fault := Host.Outcome.next (s.coreStopsWith c 0x0205 (c.val + 2 ^ 8 * (p.ip % 4096)) [0, 0])
    (runs → 4096 ≤ p.ip → exec i s = fault)
    ∧ (runs → p.ip < 4096 → ¬ held → k.marksIn .endpaper (256 * line) 256 = [] →
        let u := s.modCore c fun k => { k with plough := { k.plough with
          line := some (line, BitVec.ofNat 2048 (k.readNat .endpaper (256 * line) 256)) } }
        let x := (u.core c).plough.instr
        exec i s = if instrOk x (p.layer == 0xFFFF) = true ∧ iOp x ≠ op then .next s else exec i u)
    ∧ (runs → p.ip < 4096 → held → ok = false → p.direct = true ∨ ¬ broken → exec i s = fault)
    ∧ (runs → p.ip < 4096 → held → ok = false → p.direct = false → broken → exec i s = .next (s.ploughEndInvocation c))
    ∧ (¬ runs ∨ (p.ip < 4096 ∧ held ∧ ok = true ∧ iOp r ≠ op) → exec i s = .next s)

/-- Lane arithmetic (R191, R196, R197, R204 to R206). -/
def Obligations.PloughLanes : Prop :=
  ∀ (c : CoreId) (s : State) (r : Nat), s.atInstr c r →
    let p := (s.core c).plough
    let a := laneOf (p.vr (iVA r))
    let b := laneOf (p.vr (iVB r))
    let d := laneOf (p.vr (iVC r))
    let writes := fun (i : Instr) (f : Nat → Nat) =>
      ∃ q, exec i s = .next (s.modCore c fun k => { k with plough := q }) ∧ p.lanesSet r f q
    (iOp r = 0x20 → writes (.vadd c) fun l => lane2 (iPair r) fB32.add fBF16.add (a l) (b l))
    ∧ (iOp r = 0x21 → writes (.vsub c) fun l => lane2 (iPair r) fB32.sub fBF16.sub (a l) (b l))
    ∧ (iOp r = 0x22 → writes (.vmul c) fun l => lane2 (iPair r) fB32.mul fBF16.mul (a l) (b l))
    ∧ (iOp r = 0x23 → writes (.vfma c) fun l => lane3 (iPair r) fB32.fma fBF16.fma (a l) (b l) (d l))
    ∧ (iOp r = 0x24 → writes (.vmin c) fun l => lane2 (iPair r) fB32.minOf fBF16.minOf (a l) (b l))
    ∧ (iOp r = 0x25 → writes (.vmax c) fun l => lane2 (iPair r) fB32.maxOf fBF16.maxOf (a l) (b l))
    ∧ (iOp r = 0x26 → writes (.vabs c) fun l => lane1 (iPair r) fB32.absOf fBF16.absOf (a l))
    ∧ (iOp r = 0x27 → writes (.vneg c) fun l => lane1 (iPair r) fB32.negOf fBF16.negOf (a l))
    ∧ (iOp r = 0x28 → writes (.vdiv c) fun l => fB32.div (a l) (b l))
    ∧ (iOp r = 0x29 → writes (.vsqrt c) fun l => fB32.sqrt (a l))
    ∧ (iOp r = 0x2D → writes (.vsel c) fun l => if bitOf (p.mreg (iSreg r)) l then a l else b l)
    ∧ (iOp r = 0x2E → writes (.vbcast c) fun _ => p.sreg (iSreg r))
    ∧ (iOp r = 0x38 → writes (.vexp2 c) fun l => vexp2 (a l))
    ∧ (iOp r = 0x39 → writes (.vlog2 c) fun l => vlog2 (a l))
    ∧ (iOp r = 0x3A → writes (.vexp c) fun l => vexp (a l))
    ∧ (iOp r = 0x3B → writes (.vlog c) fun l => vlog (a l))
    ∧ (iOp r = 0x3C → writes (.vlse c) fun l => lse (a l) (b l))

/-- Reductions (R198): the tree's order is that of `treeOf`; VRAMAX takes the largest magnitude among non-zero finite lanes. -/
def Obligations.PloughReductions : Prop :=
  ∀ (c : CoreId) (s : State) (r : Nat), s.atInstr c r →
    let p := (s.core c).plough
    let lanes := maskedLanes (p.mreg (iMask r)) (p.vr (iVA r))
    let gives := fun (i : Instr) (x : Nat) =>
      ∃ q, exec i s = .next (s.modCore c fun k => { k with plough := q }) ∧ p.scalarSet r x q
    (iOp r = 0x30 → gives (.vrsum c) (treeOf fB32.add (lanes 0)))
    ∧ (iOp r = 0x31 → gives (.vrmax c) (treeOf fB32.maxOf (lanes 0xFF80_0000)))
    ∧ (iOp r = 0x32 → gives (.vramax c) (amaxOf (lanes 0)))
    ∧ (iOp r = 0x3D → gives (.vrlse c) (treeOf lse (lanes 0xFF80_0000)))

/-- Masks (R190, R191, R196). -/
def Obligations.PloughMasks : Prop :=
  ∀ (c : CoreId) (s : State) (r : Nat), s.atInstr c r → iOp r = 0x2C →
    let p := (s.core c).plough
    let a := laneOf (p.vr (iVA r))
    let b := laneOf (p.vr (iVB r))
    ∃ q, exec (.vcmp c) s = .next (s.modCore c fun k => { k with plough := q })
      ∧ q = { p with m := q.m, ip := p.ip + 1 } ∧ (fld r 8 3 = 0 → q.m = p.m) ∧ (∀ l, l < 64 → bitOf (q.mreg 0) l = true)
      ∧ (∀ i, i ≠ fld r 8 3 → q.mreg i = p.mreg i)
      ∧ (fld r 8 3 ≠ 0 → ∀ l, l < 64 → bitOf (q.mreg (fld r 8 3)) l
          = if bitOf (p.mreg (iMask r)) l then laneTest (iFmt r) (a l) (b l) else bitOf (p.mreg (fld r 8 3)) l)

/-- Loads of the Plough. The value that SLD takes from a poisoned unit is the model's free value (log entry 7). -/
def Obligations.PloughLoads : Prop :=
  ∀ (c : CoreId) (s : State) (r : Nat), s.atInstr c r →
    let p := (s.core c).plough
    let m := spaceMem (iSpace r)
    let a := p.addr r
    let b := p.preg (iPtr r)
    let n := fld r 64 4 + 1
    let fmt := (fmtOf (iFmt r)).getD .b32
    let w := if iPair r then 4 else fmt.bytes
    let clean := fun (a n : Nat) => (s.core c).marksIn m a n = []
    let fault := fun (x : Nat) => Host.Outcome.next (s.coreStopsWith c 0x0205 (c.val + 2 ^ 8 * p.ip) (item2 x))
    let lanes := fun (i : Instr) (f : Nat → Nat) =>
      ∃ q, exec i s = .next (s.modCore c fun k => { k with plough := q }) ∧ p.lanesSet r f q
    let scalar := fun (x : Nat) (t : State) =>
      t.modCore c fun k => { k with plough := { p with sr := p.sr.setIfInBounds (iSreg r) (BitVec.ofNat 64 x), ip := p.ip + 1 } }
    (iOp r = 0x10 → s.ploughAccess c (iSpace r) a (64 * w) false true = true → clean a (64 * w) →
      lanes (.vld c) fun l =>
        let x := (s.core c).readNat m (a + w * l) w
        if iPair r then x else fmt.widen x)
    ∧ (iOp r = 0x10 → s.ploughAccess c (iSpace r) a (64 * w) false true = false → exec (.vld c) s = fault a)
    ∧ (iOp r = 0x14 → iSpace r ≠ 3 → s.ploughAccess c (iSpace r) b n false false = true → clean b n →
        exec (.sld c) s = .next (scalar ((s.core c).readNat m b n) s))
    ∧ (iOp r = 0x14 → iSpace r = 3 → s.ploughAccess c 3 b n false false = true → s.poisoned b n = false →
        exec (.sld c) s = .next (scalar (s.dramNat b n) s))
    ∧ (iOp r = 0x14 → iSpace r = 3 → s.ploughAccess c 3 b n false false = true → s.poisoned b n = true →
        exec (.sld c) s = .next (scalar (Config.freeValue s.freeIx 0).toNat s).bump)
    ∧ (iOp r = 0x14 → s.ploughAccess c (iSpace r) b n false false = false → exec (.sld c) s = fault b)
    ∧ (iOp r = 0x44 → s.ploughAccess c (iSpace r) a 4 false false = true → clean a 4 →
        exec (.testf c) s = .next (scalar ((s.core c).readNat m a 4) s))
    ∧ (iOp r = 0x44 → s.ploughAccess c (iSpace r) a 4 false false = false → exec (.testf c) s = fault a)
    ∧ (iOp r = 0x43 → s.ploughAccess c (iSpace r) a 64 false true = true → clean a 64 →
        let x := (s.core c).readNat m a 64
        match folioCheck x (· == 7) with
        | none => lanes (.unpack c) fun l => if l < 60 then unpackWire x (qE5m2 r) l else 0
        | some reason => exec (.unpack c) s = .next (s.ploughHalt c reason (iSpace r) a))
    ∧ (iOp r = 0x43 → s.ploughAccess c (iSpace r) a 64 false true = false → exec (.unpack c) s = fault a)

/-- Stores of the Plough into memories that no beat claims (R216 drops claimed elements: see `PressWrites`). -/
def Obligations.PloughStores : Prop :=
  ∀ (c : CoreId) (cycle : Nat) (s : State) (r : Nat), s.atInstr c r →
    let k := s.core c
    let p := k.plough
    let m := spaceMem (iSpace r)
    let a := p.addr r
    let b := p.preg (iPtr r)
    let n := fld r 64 4 + 1
    let fault := fun (x : Nat) => Host.Outcome.next (s.coreStopsWith c 0x0205 (c.val + 2 ^ 8 * p.ip) (item2 x))
    let byte := fun (x i : Nat) => BitVec.ofNat 8 (x / 256 ^ i)
    let stores := fun (i : Instr) (f : Nat → Option Byte) =>
      ∃ k', exec i s = .next (s.setCore c k') ∧ k.stored k' m f
        ∧ k' = { k with quire := k'.quire, acc := k'.acc, endp := k'.endp, plough := { p with ip := p.ip + 1 } }
    (iOp r = 0x11 → s.ploughAccess c (iSpace r) a 256 true true = true → k.ecc = [] → k.press.beats = [] →
      stores (.vst c cycle) fun x =>
        if a ≤ x ∧ x < a + 256 ∧ bitOf (p.mreg (iMask r)) ((x - a) / 4) then
          some (byte (laneOf (p.vr (iVA r)) ((x - a) / 4)) ((x - a) % 4))
        else none)
    ∧ (iOp r = 0x11 → s.ploughAccess c (iSpace r) a 256 true true = false → exec (.vst c cycle) s = fault a)
    ∧ (iOp r = 0x15 → iSpace r ≠ 3 → s.ploughAccess c (iSpace r) b n true false = true → k.ecc = [] → k.press.beats = [] →
      stores (.sst c cycle) fun x => if b ≤ x ∧ x < b + n then some (byte (p.sreg (iSreg r)) (x - b)) else none)
    ∧ (iOp r = 0x15 → iSpace r = 3 → s.ploughAccess c 3 b n true false = true →
      exec (.sst c cycle) s = .next ((s.dramStore b ((List.range n).map fun i => byte (p.sreg (iSreg r)) i)).modCore c fun k =>
        { k with plough := { p with ip := p.ip + 1 } }))
    ∧ (iOp r = 0x15 → s.ploughAccess c (iSpace r) b n true false = false → exec (.sst c cycle) s = fault b)

/-- Quantisation, re-encoding and random lanes (R199 to R203, R208). -/
def Obligations.PloughQuantise : Prop :=
  ∀ (c : CoreId) (cycle : Nat) (s : State) (r : Nat), s.atInstr c r → (s.core c).ecc = [] →
    let k := s.core c
    let p := k.plough
    let m := spaceMem (iSpace r)
    let a := p.addr r
    let past := { p with ip := p.ip + 1 }
    let draw := fun (n : Nat) (k : Core) => if s.stochastic c r then k.advance (qStream r) n else k
    let lane := fun (i : Nat) => laneOf (p.vr (iVA r + i / 64)) (i % 64)
    let folio := fun (i : Instr) (code n : Nat) (e5m2 : Bool) =>
      let xs := (List.range n).map lane
      let sc := p.sreg (iSreg r) % 65536
      let odd : Prop := code = 7 ∧ qPol r = 2 ∧ fld sc 0 7 ≠ 0
      let used := if odd then 128 * ((s.free 0).toNat % 254 + 1) else sc
      let o := writeFolio code e5m2 (if qPol r = 2 then .explicit used else .amax (s.scaleAmax c r xs) (qMargin r)) xs (s.roundDraws c r n)
      ((¬ (qPol r = 2 ∧ (bitOf sc 15 = true ∨ fld sc 7 8 = 255))) → s.ploughAccess c (iSpace r) a (folioBytes o).length true true = true →
        let t := s.modCore c fun k =>
          { (draw n (k.ploughStore (s.gapOf c) cycle m a ((folioBytes o).map some))).observe s.prog.closed p.layer (qRole r) false
              (xs.map fB32.decode) o.flush o.sat with plough := past }
        exec i s = .next (if odd then t.bump else t))
      ∧ (qPol r = 2 ∧ (bitOf sc 15 = true ∨ fld sc 7 8 = 255) → exec i s = .next (s.coreStopsWith c 0x0205 (c.val + 2 ^ 8 * p.ip) (item2 a)))
    (iOp r = 0x40 → folio (.qfolio c cycle) (qCode r) (if qValid r = 0 then folioCount (qCode r) else qValid r) false)
    ∧ (iOp r = 0x41 → folio (.qwire c cycle) 7 (if qValid r = 0 then folioCount 7 else qValid r) (qE5m2 r))
    ∧ (iOp r = 0x42 →
        let fmt := (fmtOf (iFmt r)).getD .int8
        let e := if iPair r then 2 else 1
        let x := fun i => if iPair r then 65536 * (laneOf (p.vr (iVA r)) (i / 2) / 65536 ^ (i % 2) % 65536) else laneOf (p.vr (iVA r)) i
        let out := (s.roundDraws c r (64 * e)).zipIdx.map fun u => (x u.2, narrow fmt (x u.2) u.1, bitOf (p.mreg (iMask r)) (u.2 / e))
        let kept := out.filter (·.2.2)
        let bytes := (out.map fun o =>
          if o.2.2 then (leBytes fmt.bytes o.2.1.1).map some else List.replicate fmt.bytes none).flatten
        s.ploughAccess c (iSpace r) a bytes.length true true = true →
        exec (.qcvt c cycle) s = .next (s.modCore c fun k =>
          { (draw (64 * e) (k.ploughStore (s.gapOf c) cycle m a bytes)).observe s.prog.closed p.layer
              (qRole r) false (kept.map fun o => fB32.decode o.1) (kept.filter fun o => o.2.1.2 == .flushed).length
              (kept.filter fun o => o.2.1.2 == .saturated).length with plough := past }))
    ∧ (iOp r = 0x45 → s.ploughAccess c 0 a 128 false true = true →
        let kind := if iFmt r = 2 then MullKind.b else .h
        let hd := k.readNat .quire a 128
        let n := if fld r 96 13 = 0 then 4096 else min (fld r 96 13) 4096
        match mullHeaderCheck kind hd with
        | some reason => exec (.mreenc c) s = .next (s.ploughHalt c reason 0 a)
        | none =>
          let v := p.sreg (iSreg r)
          let e := mullEncode kind hd ((List.range n).map fun i => k.readNat .quire (v + 2 * i) 2)
          s.ploughAccess c 0 v (2 * n) false true = true → s.ploughAccess c 0 a kind.size true true = true →
          exec (.mreenc c) s = .next (s.modCore c fun k =>
            let k := k.store .quire a (leBytes kind.size e.1)
            { (if fld r 109 13 < e.2 then k.countClamp a else k) with plough := past }))
    ∧ (iOp r = 0x48 →
        let ds := s.drawList c (qStream r) 128
        let u := fun l => ds.getD (2 * l + 1) 0 * 65536 + ds.getD (2 * l) 0
        ∃ q, exec (.vrand c) s = .next (s.modCore c fun k => { k.advance (qStream r) 128 with plough := q })
          ∧ p.lanesSet r (fun l => if iFmt r = 6 then fB32.roundRat false (u l / 256) 1 (-24) else u l) q)

/-- The turn of a host command (R322), whichever command it is. -/
def Obligations.HostCommandTurn : Prop :=
  ∀ (i : Instr) (h : Handle) (op : Nat) (s : State), i.hostOp = some (h, op) →
    (∀ e, s.running? h = some e → e.opcode.toNat ≠ op ∨ s.pwr.main = false ∨ s.binderRuns = false ∨ e.begun = true
      ∨ (∃ o ∈ s.host.handles, o.phase = .running ∧ o.mailbox = e.mailbox ∧ o.takenAt < e.takenAt
          ∧ (o.begun = false ∨ (e.fence = true ∧ ¬ (o.opcode.toNat = 0x11 ∧ o.exclusiveDone = true))))
      ∨ (e.exclusive = true ∧ ∃ o ∈ s.host.handles, o.phase = .running ∧ o.exclusive = true ∧ o.begun = true ∧ o.exclusiveDone = false)) →
    exec i s = .next s

/-- What `State.complete` does (R316, R319): to the entry named, to every other entry, to the rest. -/
def Obligations.CompletionHolds : Prop :=
  ∀ (s : State) (x : Handle) (status detail result : Nat),
    let t := s.complete x status detail result
    (s.running? x = none → t = s)
    ∧ (∀ e, s.running? x = some e →
        t.host.handles[handleIndex x]? = some { e with
          phase := .held, exclusiveDone := true, fixedAt := s.host.fixNo, status := BitVec.ofNat 16 status, detail := BitVec.ofNat 32 detail,
          result := BitVec.ofNat 64 result, cadence := if s.cad.valid then s.cad.frame ++ s.cad.tick else 0 }
        ∧ t.host.fixNo = s.host.fixNo + 1 ∧ t.running? x = none
        ∧ (∀ n, n ≠ handleIndex x → t.host.handles[n]? = s.host.handles[n]?)
        ∧ t = { s with host := { s.host with handles := t.host.handles, fixNo := t.host.fixNo, trace := t.host.trace } })

/-- Data movement (R325): the checks are those of HOST_ADDR, DEV_ADDR and LENGTH. -/
def Obligations.HostTransfers : Prop :=
  ∀ (h : Handle) (src : HostRead) (b : Nat) (s : State),
    let host := fld b 0 64
    let dev := fld b 64 52
    let n := fld b 128 40
    let inside := dev % 64 = 0 ∧ dev + max 64 n ≤ s.layoutEnd
    let good := host % 64 = 0 ∧ inside ∧ 64 ≤ n ∧ n % 64 = 0
    let lo := if host % 64 ≠ 0 then 16 else if ¬ inside then 24 else 32
    let whole := src.error = false ∧ src.bytes.length = n
    let cut := src.error = true ∧ src.bytes.length < n
    let stored := s.dramStore dev src.bytes
    let ref : W64 := BitVec.ofNat 64 (fld b 192 64)
    let step : W64 := BitVec.ofNat 64 (fld b 256 64)
    let late := s.prog.active.isSome = true ∧ s.prog.phase = .steps
      ∧ (step.toNat < s.prog.step.toNat ∨ (step = s.prog.step ∧ s.prog.released = true))
    (s.begins h 0x01 = some b →
      (¬ good → exec (.dmaWrite h src) s = .next (s.complete h 0x0001 lo 0))
      ∧ (good → whole → exec (.dmaWrite h src) s = .next (stored.complete h 0 0 n))
      ∧ (good → cut → exec (.dmaWrite h src) s = .next (stored.complete h 0x0007 src.bytes.length 0)))
    ∧ (s.begins h 0x02 = some b →
      (¬ good → ∀ err, exec (.dmaRead h err) s = .next (s.complete h 0x0001 lo 0))
      ∧ (good → exec (.dmaRead h none) s = .next ((s.hostWrite host (s.dramRead dev n)).complete h 0 0 n))
      ∧ (good → ∀ k, k < n →
          exec (.dmaRead h (some k)) s = .next ((s.hostWrite host ((s.dramRead dev n).take k)).complete h 0x0007 k 0)))
    ∧ (s.begins h 0x03 = some b →
      (¬ good → exec (.inputCmd h src) s = .next (s.complete h 0x0001 lo 0))
      ∧ (good → cut → exec (.inputCmd h src) s = .next (
          let t := stored.complete h 0x0007 src.bytes.length 0
          if (step, ref) ∈ s.prog.inputWant then
            let items := item2 step.toNat ++ item2 ref.toNat
            (if s.fab.recover = [] then t else t.sendMembers (.recoveryEnd 0x020B items)).stopRecovery 0x020B items
          else t))
      ∧ (good → whole →
          let t := (stored.listInput step ref).modProg fun p => { p with inputWant := p.inputWant.erase (step, ref) }
          (¬ late → exec (.inputCmd h src) s = .next (t.complete h 0 0 n))
          ∧ (late → exec (.inputCmd h src) s = .next (t.complete h 0x0005 step.toNat n))))

/-- Program control (R325). BUSY answers to LOAD and ACTIVATE while a recovery runs are those of R327; that RECIPE_UPDATE needs an active
program is log entry 48, the order of the checks log entry 49, WAIT_STEP with no program active log entry 30: the model's readings. -/
def Obligations.HostPrograms : Prop :=
  ∀ (h : Handle) (b : Nat) (s : State),
    let bad := fun (byte : Nat) => Host.Outcome.next (s.complete h 0x0001 byte 0)
    let begun := s.modEntry h fun e => { e with begun := true }
    let idle := s.prog.active = none
    (s.begins h 0x10 = some b →
      let addr := fld b 0 52
      let len := fld b 64 40
      let img := s.imageAt addr len
      (s.prog.recovering = true → exec (.load h) s = .next (s.complete h 0x0003 0 0))
      ∧ (s.prog.recovering = false → addr % 64 ≠ 0 ∨ s.layoutEnd ≤ addr → exec (.load h) s = bad 16)
      ∧ (s.prog.recovering = false → addr % 64 = 0 → addr < s.layoutEnd → len < 256 ∨ s.layoutEnd < addr + len → exec (.load h) s = bad 24)
      ∧ (s.prog.recovering = false → addr % 64 = 0 → addr + len ≤ s.layoutEnd → 256 ≤ len → exec (.load h) s
          = .next (match s.loadVerdict img with
            | some v => s.complete h v.status v.detail v.result
            | none => (s.stage img).complete h 0 0 0)))
    ∧ (s.begins h 0x11 = some b → s.prog.recovering = false →
      (s.prog.staged = none → exec (.activate h) s = .next (s.complete h 0x0004 0 0))
      ∧ (∀ img, s.prog.staged = some img →
          let ms := if fld b 0 32 = 0 then 10000 else fld b 0 32
          (∀ st d r, s.admission img true = .refused st d r → exec (.activate h) s = .next (s.complete h st d r))
          ∧ ((s.admission img true = .wait ∨ ∃ ranks, s.admission img true = .ready ranks) → exec (.activate h) s
            = .next (begun.modProg fun p => { p with activating := some h, peerWaitEnd := s.now + 100000 * ms }).tryActivate)))
    ∧ (s.begins h 0x12 = some b →
      (idle ∨ bitOf b 0 = true → exec (.unload h) s
        = .next (((s.modProg fun p => { p with staged := none }).advertise.takeShelf).complete h 0 0 0))
      ∧ (∀ img, s.prog.active = some img → bitOf b 0 = false → img.direct = false → exec (.unload h) s
        = .next (begun.modProg fun p => { p with boundaryCmds := p.boundaryCmds ++ [⟨h, 0, [], none⟩] }))
      ∧ (∀ img, s.prog.active = some img → bitOf b 0 = false → img.direct = true → exec (.unload h) s
        = .next (((s.modProg fun p => { p with staged := none }).endProgram 0x0202 0 none).complete h 0 0 0)))
    ∧ (s.begins h 0x14 = some b →
      (idle → exec (.elasticStart h) s = .next (s.complete h 0x0004 0 0))
      ∧ (¬ idle → s.prog.elasticHandle = none → s.prog.elasticPending = none →
          exec (.elasticStart h) s = .next (begun.modProg fun p => { p with elasticPending := some h }))
      ∧ (¬ idle → s.prog.elasticHandle ≠ none ∨ s.prog.elasticPending ≠ none →
          exec (.elasticStart h) s = .next (s.complete h 0x0003 0 0)))
    ∧ (s.begins h 0x15 = some b →
      let first := fld b 64 16
      let n := fld b 80 16
      let allowance := if bitOf b 96 then some (fld b 128 24) else none
      (idle → exec (.recipeUpdate h) s = .next (s.complete h 0x0004 0 0))
      ∧ (∀ img, s.prog.active = some img → s.layoutEnd < fld b 0 52 + 64 * n → exec (.recipeUpdate h) s = bad 16)
      ∧ (∀ img, s.prog.active = some img → fld b 0 52 + 64 * n ≤ s.layoutEnd → img.direct = false → first + n ≤ s.prog.recipe.length →
          let new := (List.range n).map fun i => s.dramNat (fld b 0 52 + 64 * i) 64
          exec (.recipeUpdate h) s = .next (match s.updateVerdict img first new (allowance.getD s.prog.allowance) with
            | some v => s.complete h v.status v.detail v.result
            | none => begun.modProg fun p =>
                { p with boundaryCmds := p.boundaryCmds ++ [⟨h, first, new.map (BitVec.ofNat 512), allowance⟩] })))
    ∧ (s.begins h 0x18 = some b →
      let n := fld b 0 64
      let last := if s.prog.active = none then s.prog.formerStep else s.prog.committed
      (∀ m, last = some m → n ≤ m.toNat → exec (.waitStep h) s = .next (s.complete h 0 0 n))
      ∧ ((∀ m, last = some m → m.toNat < n) → exec (.waitStep h) s
          = .next (begun.modProg fun p => { p with stepWaiters := p.stepWaiters ++ [h] })))
    ∧ (s.begins h 0x17 = some b →
      let base := fld b 0 52
      let pages := fld b 64 24
      let img := if s.prog.active.isSome then s.prog.active else s.prog.staged
      let inPool := ∃ i, img = some i ∧ i.pinnedPages * 2 ^ 30 ≤ base ∧ base + pages * 2 ^ 21 ≤ s.layoutEnd
      (s.prog.elasticHandle ≠ none → exec (.pagedMap h) s = .next (s.complete h 0x0003 0 0))
      ∧ (s.prog.elasticHandle = none → base % 2 ^ 21 ≠ 0 ∨ ¬ inPool → exec (.pagedMap h) s = bad 16)
      ∧ (s.prog.elasticHandle = none → base % 2 ^ 21 = 0 → inPool → pages ≠ 0 → bitOf b 52 = true ∨ fld b 128 64 % 4096 = 0 →
          exec (.pagedMap h) s = .next ((s.modProg fun p => { p with paged := p.paged ++
            [{ vbase := base, pages := pages, peer := bitOf b 52, backAddr := fld b 128 64,
               peerNode := BitVec.ofNat 16 (fld b 192 16) }] }).complete h 0 0 0)))

/-- CANCEL (R325), by what its target is. -/
def Obligations.HostCancel : Prop :=
  ∀ (h t : Handle) (b : Nat) (s : State), s.begins h 0x13 = some b → t = BitVec.ofNat 32 (fld b 0 32) →
    let p := s.prog
    let done := fun (s : State) => Host.Outcome.next ((s.complete t 0x0201 0 0).complete h 0 0 0)
    let none' := Host.Outcome.next (s.complete h 0x0002 0 0)
    (s.running? t = none → exec (.cancel h) s = none')
    ∧ ∀ e, s.running? t = some e →
      let op := e.opcode.toNat
      let other := p.handle ≠ some t ∧ p.activating ≠ some t ∧ p.elasticPending ≠ some t ∧ p.elasticHandle ≠ some t
      (p.handle = some t → exec (.cancel h) s
        = .next ((s.modProg fun p => { p with phase := .cancelling }).modEntry h fun e => { e with begun := true }))
      ∧ (p.handle ≠ some t → p.activating = some t → exec (.cancel h) s = done (s.modProg fun p => { p with activating := none }))
      ∧ (p.handle ≠ some t → p.activating ≠ some t → p.elasticPending = some t →
          exec (.cancel h) s = done (s.modProg fun p => { p with elasticPending := none }))
      ∧ (∀ img, p.handle ≠ some t → p.activating ≠ some t → p.elasticPending ≠ some t → p.elasticHandle = some t → p.active = some img →
          exec (.cancel h) s = .next ((s.failElastic 0x0201 0).complete h 0 0 0))
      ∧ (other → op ∈ [0x01, 0x02, 0x03, 0x10, 0x11, 0x14] → exec (.cancel h) s = done s)
      ∧ (other → op = 0x18 → exec (.cancel h) s = done (s.modProg fun p => { p with stepWaiters := p.stepWaiters.erase t }))
      ∧ (other → op ∉ [0x01, 0x02, 0x03, 0x10, 0x11, 0x14, 0x18] → exec (.cancel h) s = none')

/-- Resumption (R188, R202): `resumeAt` finds the program and the core. -/
def Obligations.HostResume : Prop :=
  ∀ (h : Handle) (b : Nat) (s : State), s.begins h 0x16 = some b →
    let i := fld b 40 6
    let kernel := bitOf b 46
    let mirror := bitOf b 47
    let bad := fun (byte : Nat) => Host.Outcome.next (s.complete h 0x0001 byte 0)
    let at? := s.resumeAt b
    (at? = .badHandle →
      (kernel = false → mirror = false → exec (.streamResume h) s = .next (s.complete h 0x0002 0 0))
      ∧ (kernel = true → i = 0 → mirror = false → exec (.kernelResume h) s = .next (s.complete h 0x0002 0 0))
      ∧ (kernel = false → mirror = true → ∀ reply, exec (.fromMirrorResume h reply) s = .next (s.complete h 0x0002 0 0)))
    ∧ (kernel = true → i ≠ 0 → exec (.kernelResume h) s = bad 21)
    ∧ (kernel = true → i = 0 → mirror = true → exec (.kernelResume h) s = bad 21)
    ∧ ∀ img c, at? = .here img c →
      let k := s.core c
      (kernel = false → mirror = false → (k.strm i).halted = none → exec (.streamResume h) s = bad 21)
      ∧ (∀ r, kernel = false → mirror = false → (k.strm i).halted = some r →
          exec (.streamResume h) s = .next ((s.restart img c i r).complete h 0 0 0))
      ∧ (kernel = true → i = 0 → mirror = false → k.plough.halted = true → exec (.kernelResume h) s
          = .next ((s.setCore c { k with plough := { k.plough with halted := false } }).complete h 0 0 0))
      ∧ (kernel = true → i = 0 → mirror = false → k.plough.halted = false → exec (.kernelResume h) s = bad 21)
      ∧ (∀ r reply, kernel = false → mirror = true → (k.strm i).halted = some r →
          let a := r.addr / 4096 * 4096
          let n := 4096 * divCeil (r.addr % 4096 + s.unitLen (s.streamEntry img c i) r) 4096
          ((∀ x ∈ s.fab.bindings, x.checkpointed = false) ∨ reply = .noCopy →
            exec (.fromMirrorResume h reply) s = .next (s.complete h 0x0008 0 0))
          ∧ (∀ range, (∃ x ∈ s.fab.bindings, x.checkpointed = true) → reply = .copy range → range.length = n →
            exec (.fromMirrorResume h reply) s = .next (((s.dramStore a range).restart img c i r).complete h 0 0 0))
          ∧ (∀ d, (∃ x ∈ s.fab.bindings, x.checkpointed = true) → reply = .unreachable d →
            exec (.fromMirrorResume h reply) s = .next (s.complete h 0x000A d.toNat 0)))

/-- Settings (R174, R178, R240, R253, R370, R381). The new free content of device memory is log entry 4; that a change of layout clears
poison, and the BUSY of a closed gate, are log entry 54: the model's. -/
def Obligations.HostSettings : Prop :=
  ∀ (h : Handle) (b : Nat) (s : State),
    let bad := fun (byte : Nat) => Host.Outcome.next (s.complete h 0x0001 byte 0)
    let rotBad := bitOf b 32 = true ∧ 0 < fld b 0 32 ∧ fld b 0 32 < 1024
    let rot := if bitOf b 32 then s.modProg fun p => { p with rotationSteps := BitVec.ofNat 32 (fld b 0 32) } else s
    let idle := s.prog.active = none ∧ s.prog.staged = none
    (s.begins h 0x20 = some b →
      let d := fld b 0 11
      let m := fld b 16 11
      let t := fld b 32 7
      (1024 < d → exec (.queueLimits h) s = bad 16)
      ∧ (d ≤ 1024 → 1024 < m → exec (.queueLimits h) s = bad 18)
      ∧ (d ≤ 1024 → m ≤ 1024 → 64 < t → exec (.queueLimits h) s = bad 20)
      ∧ (d ≤ 1024 → m ≤ 1024 → t ≤ 64 → exec (.queueLimits h) s = .next ((s.modHost fun x =>
          { x with dmaLimit := if d = 0 then x.dmaLimit else BitVec.ofNat 11 d,
                   mirrorLimit := if m = 0 then x.mirrorLimit else BitVec.ofNat 11 m,
                   tippingLimit := if t = 0 then x.tippingLimit else BitVec.ofNat 7 t }).complete h 0 0
            (s.host.dmaLimit.toNat + 2 ^ 16 * s.host.mirrorLimit.toNat + 2 ^ 32 * s.host.tippingLimit.toNat))))
    ∧ (s.begins h 0x21 = some b →
      (fld b 0 52 % 2 ^ 36 ≠ 0 → exec (.setAperture h) s = bad 16)
      ∧ (fld b 0 52 % 2 ^ 36 = 0 → exec (.setAperture h) s
          = .next ((s.modHost fun x => { x with aperture := BitVec.ofNat 64 (fld b 0 52) }).complete h 0 0 s.host.aperture.toNat)))
    ∧ (s.begins h 0x22 = some b →
      (bitOf b 34 = false → rotBad → exec (.setRotation h) s = bad 16)
      ∧ (bitOf b 34 = false → ¬ rotBad → exec (.setRotation h) s = .next (rot.complete h 0 0 0))
      ∧ (bitOf b 34 = true → rotBad → exec (.setLayout h) s = bad 16)
      ∧ (bitOf b 34 = true → ¬ rotBad → ¬ idle → exec (.setLayout h) s = .next (s.complete h 0x0003 0 0))
      ∧ (bitOf b 34 = true → ¬ rotBad → idle → bitOf b 33 = s.prog.reserveLayout → exec (.setLayout h) s = .next (rot.complete h 0 0 0))
      ∧ (bitOf b 34 = true → ¬ rotBad → idle → bitOf b 33 ≠ s.prog.reserveLayout → exec (.setLayout h) s
          = .next (({ rot.modProg (fun p => { p with reserveLayout := bitOf b 33 }) with
                        dram := [], dramEpoch := s.dramEpoch.map (· + 1), poison := [] } : State).complete h 0 0 0)))
    ∧ (s.begins h 0x23 = some b →
      let p : Fin 4 := ⟨fld b 0 2, by unfold fld; omega⟩
      let d := fld b 128 128
      let s' := if bitOf b 3 then s.modMc fun m => { m with profSelected := some p } else s
      let put := fun (m : Mc) => { m with profiles := m.profiles.set p.val (profilePut m.profiles[p] 0 128 d) p.isLt }
      (bitOf b 2 = false → exec (.setProfileSelect h) s = .next (s'.complete h 0 0 0))
      ∧ (∀ lo, bitOf b 2 = true → declarationError d = some lo → exec (.setProfileWrite h) s = bad (16 + lo / 8))
      ∧ (bitOf b 2 = true → declarationError d = none → s.mc.fuses.getLsbD 5 = true →
          exec (.setProfileWrite h) s = .next (s'.complete h 0 0 1))
      ∧ (bitOf b 2 = true → declarationError d = none → s.mc.fuses.getLsbD 5 = false → s.host.gate .mcFlash ≠ .opened →
          exec (.setProfileWrite h) s = .next (s'.complete h 3 0 0))
      ∧ (bitOf b 2 = true → declarationError d = none → s.mc.fuses.getLsbD 5 = false → s.host.gate .mcFlash = .opened →
          exec (.setProfileWrite h) s = .next ((s'.modMc put).complete h 0 0 0)))

/-- Links, surveys and service (R226, R229, R245, R274, R326). -/
def Obligations.HostService : Prop :=
  ∀ (h : Handle) (b : Nat) (s : State),
    let lane : LaneId := ⟨fld b 0 6, by unfold fld; omega⟩
    let addr := fld b 64 64
    let le := fun (n x : Nat) => leBytes n x
    (s.begins h 0x24 = some b →
      (bitOf b 6 = true → exec (.linkDisable h) s = .next ((s.takeDown lane .disabled).complete h 0 0 0))
      ∧ (bitOf b 6 = false → exec (.linkBringUp h) s = .next ((s.modLink lane fun k =>
          if k.phase = .disabled ∨ k.phase = .failed ∨ k.phase = .refused then { k with phase := .negotiating } else k).complete h 0 0 0)))
    ∧ (s.begins h 0x30 = some b → exec (.survey h) s = .next ((s.modEntry h fun e => { e with begun := true }).modHost fun x =>
        { x with surveyWaiting := x.surveyWaiting ++ [h], surveyRunning := true }))
    ∧ (s.begins h 0x31 = some b →
      (∀ site : SiteId, site.val = fld b 0 8 →
        let x := s.site site
        let bytes := le 4 x.ceQuire.toNat ++ le 4 x.ceAcc.toNat ++ le 4 x.ceEndp.toNat ++ le 4 x.ue.toNat
        exec (.diagRead h none) s = .next ((s.hostWrite addr bytes).complete h 0 0 0)
        ∧ ∀ k, k < 16 → exec (.diagRead h (some k)) s = .next ((s.hostWrite addr (bytes.take k)).complete h 0x0007 k 0))
      ∧ (200 ≤ fld b 0 8 → fld b 0 8 ≠ 0xFF → ∀ err, exec (.diagRead h err) s = .next (s.complete h 0x0001 16 0))
      ∧ (fld b 0 8 = 0xFF →
        let pair := fun (c : Nat) => s.host.kettleTable.getD c (0, 0)
        let bytes := ((List.range 192).map fun c => le 2 (pair c).1.toNat ++ le 2 (pair c).2.toNat).flatten
        exec (.diagReadKettleTable h none) s = .next ((s.hostWrite addr bytes).complete h 0 0 0)
        ∧ ∀ k, k < 768 →
            exec (.diagReadKettleTable h (some k)) s = .next ((s.hostWrite addr (bytes.take k)).complete h 0x0007 k 0)))
    ∧ (s.begins h 0x32 = some b →
      (bitOf b 0 = false → exec (.maintain h) s = .next (s.complete h 0x0001 16 0))
      ∧ (bitOf b 0 = true → s.prog.active ≠ none ∨ s.prog.staged ≠ none → exec (.maintain h) s = .next (s.complete h 0x0003 0 0))
      ∧ (bitOf b 0 = true → s.prog.active = none → s.prog.staged = none → exec (.maintain h) s
          = .next (({ s.modMc (fun m => { m with softRepairs := [] }) with
                        hbm := s.hbm.map fun k => { k with softPending := 0 } } : State).complete h 0 0 s.mc.softRepairs.length)))

/-- Mirror commands (R296, R305). A move of the store in use is BUSY by log entry 31, the messages are those of log entry 37, the advert of
the spare capacity that of log entry 24: the model's. -/
def Obligations.HostMirrors : Prop :=
  ∀ (h : Handle) (b : Nat) (s : State),
    let drop := fun (f : Fabric) => f.bindings.filterMap (Binding.without (bitOf b 16) (bitOf b 17))
    let partner := BitVec.ofNat 16 (fld b 0 16)
    let asked := s.sendDyn partner .device (.bind (s.bindAsk b))
    (s.begins h 0x40 = some b →
      let base := fld b 0 52
      let units := fld b 64 24
      let new := if units = 0 then none else some (base, units)
      let fits := base % 2 ^ 21 = 0 ∧ base + units * 2 ^ 21 ≤ s.layoutEnd
      (¬ fits → exec (.mirrorStore h) s = .next (s.complete h 0x0001 16 0))
      ∧ (fits → s.fab.protects ≠ [] → new ≠ s.fab.store → exec (.mirrorStore h) s = .next (s.complete h 0x0003 0 0))
      ∧ (fits → s.fab.protects = [] ∨ new = s.fab.store → exec (.mirrorStore h) s
          = .next ((s.modFab fun f => { f with store := new }).advertise.complete h 0 0 0)))
    ∧ (s.begins h 0x41 = some b →
      (∀ reply, fld b 18 2 = 3 → exec (.mirrorBind h reply) s = .next (s.complete h 0x0001 18 0))
      ∧ (∀ reply r, fld b 18 2 ≠ 3 → bindReason reply = some r → exec (.mirrorBind h reply) s = .next (asked.complete h 0x0009 r 0))
      ∧ (fld b 18 2 ≠ 3 → bitOf b 16 = true ∨ bitOf b 17 = true → exec (.mirrorBind h .accepted) s
          = .next (((asked.tellUnbound (bitOf b 16) (bitOf b 17) (some partner)).modFab fun f =>
              { f with bindings := drop f ++ [{ partner := partner, continuous := bitOf b 16,
                                                checkpointed := bitOf b 17, cover := BitVec.ofNat 2 (fld b 18 2) }],
                       mirrored := if bitOf b 16 then none else f.mirrored,
                       acked := if bitOf b 16 then [] else f.acked,
                       lagRaised := if bitOf b 16 then false else f.lagRaised }).advertise.complete h 0 0 0)))
    ∧ (s.begins h 0x42 = some b → exec (.mirrorUnbind h) s = .next (
        let t := (s.tellUnbound (bitOf b 16) (bitOf b 17) none).modFab fun f => { f with bindings := drop f }
        (if bitOf b 17 then t.modProg fun p => { p with shipping := [] } else t).advertise.complete h 0 0 0))
    ∧ (s.begins h 0x43 = some b →
      (∀ reply, s.prog.staged = none → exec (.seed h reply) s = .next (s.complete h 0x0004 0 0))
      ∧ (∀ img d, s.prog.staged = some img → exec (.seed h (.unreachable d)) s = .next (s.complete h 0x000A d.toNat 0))
      ∧ (∀ img r, s.prog.staged = some img → exec (.seed h (.memberLost r)) s = .next (s.complete h 0x020A r.toNat 0))
      ∧ (∀ img, s.prog.staged = some img →
          let t := (s.modEntry h fun e => { e with begun := true }).modFab fun f =>
            { f with seeding := some h, seedSets := [], seedState := none }
          exec (.seed h .accepted) s = .next (match t.advertisedRoot img with
            | some n => t.sendDyn (BitVec.ofNat 16 n) .device (.rejoin img.bounds.rank s.fab.nodeId)
            | none => t)))

/-- COMMAND_TAKE (R313, R314, R316, R323). -/
def Obligations.MailboxTake : Prop :=
  ∀ (mb : Fin 8) (i : Nat) (s : State), s.pwr.main = true → s.binderRuns = true →
    let m := s.host.mailbox mb
    (s.host.freeIndex = none ∨ m.head = m.tail → exec (.commandTake mb) s = .next s)
    ∧ (s.host.freeIndex = some i → m.head ≠ m.tail →
      let base := 256 * (m.head.toNat % 32)
      let slot := leNat (Mem.read zeroByte m.sram base 256)
      let seq : W32 := BitVec.ofNat 32 (fld slot 64 32)
      let taken := fun (x : Handle) =>
        { m with sram := Mem.write zeroByte m.sram (base + 12) (leBytes 4 x.toNat), head := m.head + 1, prevSeq := some seq }
      (∀ p, m.recent.find? (fun p => p.1 = seq) = some p →
        exec (.commandTake mb) s = .next (s.modHost fun h => h.setMailbox mb (taken p.2)))
      ∧ ((∀ p ∈ m.recent, p.1 ≠ seq) →
        let x := mkHandle (nextGen ((s.host.handles[i]?).elim 0 (·.gen))).toNat i
        let h := (s.host.issue i mb slot).1.setMailbox mb { taken x with recent := ((seq, x) :: m.recent).take 32 }
        let t := { s with host := { h with trace := ({ handle := x, opcode := BitVec.ofNat 8 (fld slot 0 8), mailbox := mb, seq := seq,
                                                       takenCadence := s.stamp, doneCadence := 0, status := 0 } :: h.trace).take 2048 } }
        exec (.commandTake mb) s = .next (
          if m.prevSeq.elim false (fun p => seq ≠ p + 1) then t.complete x 0x0006 ((m.prevSeq.getD 0) + 1).toNat 0
          else match slotError slot with
            | some o => t.complete x 0x0001 o 0
            | none => t)))

/-- Doorbells and ring registers (R314, R316, R318). -/
def Obligations.Doorbells : Prop :=
  ∀ (i : Fin 8) (tail : BitVec 16) (head : W32) (s : State),
    let m := s.host.mailbox i
    let r := s.host.ring i
    let overrun := Host.Outcome.next (s.raiseDev 0x0418 [])
    (s.served = true → (tail - m.head).toNat ≤ 32 →
      exec (.mbTailWrite i tail) s = .next (s.modHost fun h => h.setMailbox i { m with tail := tail }))
    ∧ (s.served = true → 32 < (tail - m.head).toNat → exec (.mbTailWrite i tail) s = overrun)
    ∧ (s.served = true → (head - r.head).toNat ≤ (r.tail - r.head).toNat → exec (.ringHeadWrite i head) s = .next (s.modHost fun h =>
        { h.setRing i { r with head := head } with
          handles := h.handles.map fun e =>
            if e.phase = .posted ∧ e.mailbox = i ∧ (e.entry - r.head).toNat < (head - r.head).toNat then { e with phase := .free } else e }))
    ∧ (s.served = true → (r.tail - r.head).toNat < (head - r.head).toNat → exec (.ringHeadWrite i head) s = overrun)
    ∧ (s.served = true → r.enable = false → exec (.ringEnable i) s = .next (s.modHost fun h =>
        { h.setRing i { r with enable := true, head := 0, tail := 0, unsignalled := 0 } with
          handles := h.handles.map fun e => if e.phase = .posted ∧ e.mailbox = i then { e with phase := .held } else e }))
    ∧ (s.served = false → exec (.mbTailWrite i tail) s = .next s ∧ exec (.ringHeadWrite i head) s = .next s
        ∧ exec (.ringEnable i) s = .next s)

/-- Entries of completion rings and their interrupts (R317 to R320). What unmasking a pending vector does is log entry 6, when DELAY has
expired log entry 49: the model's. -/
def Obligations.RingEntries : Prop :=
  ∀ (i : Fin 8) (s : State), s.served = true → s.binderRuns = true →
    let room := fun (r : RingRegs) => r.enable = true ∧ (r.tail - r.head).toNat < 2 ^ (r.log2Size.toNat + 6)
    let place := fun (r : RingRegs) => r.base.toNat + 32 * (r.tail.toNat % 2 ^ (r.log2Size.toNat + 6))
    let phase := fun (r : RingRegs) => 1 - r.tail.toNat / 2 ^ (r.log2Size.toNat + 6) % 2
    let r := s.host.ring i
    (∀ n e, firstFixed (s.host.heldOf i) = some (n, e) → room r →
      let bytes := entryBytes (mkHandle e.gen.toNat n) e.cookie e.status (phase r) false e.detail e.result e.cadence
      bytes.length = 32
      ∧ ∃ t, exec (.completionPost i) s = .next t
        ∧ t = { s with hostMem := Mem.put s.hostMem (place r) bytes,
                       host := { s.host with handles := s.host.handles.set n { e with phase := .posted, entry := r.tail } }.written i e.quiet s.now }
        ∧ (∀ a, Mem.lookup t.hostMem a = if place r ≤ a ∧ a < place r + 32 then some (bytes.getD (a - place r) 0) else Mem.lookup s.hostMem a)
        ∧ (t.host.ring i).tail = r.tail + 1)
    ∧ (∀ e rest, s.host.eventQ = e :: rest → s.host.eventRing = i → room r →
      let bytes := entryBytes e.handle 0 e.code (phase r) true ((e.items[0]?).getD 0) (((e.items[1]?).getD 0) ++ e.seq) e.cadence
      let t := { s with hostMem := Mem.put s.hostMem (place r) bytes,
                        host := { s.host with eventQ := rest, eventsLost := 0 }.written i false s.now }
      exec .eventPost s = .next (if s.host.eventsLost = 0 then t else t.raiseDev 0x0417 [item s.host.eventsLost]))
    ∧ (¬ room r → exec (.completionPost i) s = .next s ∧ (s.host.eventRing = i → exec .eventPost s = .next s))
    ∧ (s.pwr.main = true → 0 < r.unsignalled → r.firstAt + 100 * r.delay.toNat ≤ s.now →
        exec (.msixDelayExpiry i) s = .next { s with host := s.host.signal i })
    ∧ (r.unsignalled = 0 ∨ s.now < r.firstAt + 100 * r.delay.toNat → exec (.msixDelayExpiry i) s = .next s)
    ∧ (∀ (k : Fin 64) (b : Byte) (h : HostIf), let e : BitVec 128 := h.msixTable[k.val]'k.isLt
        e.toNat < 2 ^ 97 → h.pba.getLsbD k = true → b.toNat % 2 = 0 →
        (h.writeMsix k 12 b).pba.getLsbD k = false ∧ (h.writeMsix k 12 b).msixSent = h.msixSent ++ [BitVec.ofNat 6 k.val]
        ∧ ((h.writeMsix k 12 b).msixTable[k.val]'k.isLt).toNat = e.toNat % 2 ^ 96)

/-- Ports, takeover and resets (R307 to R309, R332, R372). The conditions of TAKEOVER are log entry 52, the record of host memory log
entry 5, the wait for a port log entry 55: the model's. -/
def Obligations.HostPorts : Prop :=
  ∀ (p : PciePort) (s : State),
    let h := s.host
    let mine := h.port p
    let active := h.port h.activePort
    let back := fun (t : State) => { t with clk := { s.clk with portsBack := s.clk.portsBack.erase p } }
    let down := s.modHost fun h => h.setPort p { mine with up := false, downAt := s.now, width := 0, generation := 0 }
    (exec (.pcieLinkDown p) s = .next (if mine.up then down else s))
    ∧ (∀ w g, exec (.pcieLinkUp p w g) s = .next (if s.pwr.main = true ∧ 5 ≤ s.pwr.step ∧ s.mainClocks = true ∧ mine.up = false then
        back (s.modHost fun h => h.setPort p { mine with up := true, width := w, generation := g }) else s))
    ∧ (∀ v : W32, v.toNat % 2 = 0 ∨ s.pwr.main = false ∨ mine.up = false ∨ (p = h.activePort ∧ h.usable = false) → exec (.takeover p v) s = .next s)
    ∧ (∀ v : W32, v.toNat % 2 = 1 → s.pwr.main = true → mine.up = true →
        (p = h.activePort → h.usable = true → exec (.takeover p v) s = .next (s.modHost fun h => h.setPort p { mine with result := 3 }))
        ∧ (p ≠ h.activePort → active.up = true ∨ s.now < active.downAt + 100000 →
            exec (.takeover p v) s = .next (s.modHost fun h => h.setPort p { mine with result := 2 }))
        ∧ (p ≠ h.activePort → active.up = false → active.downAt + 100000 ≤ s.now →
            exec (.takeover p v) s = .next (({ s.modHost (fun h =>
                { h.setPort p { mine with result := 1 } with portBActive := decide (p = .b) }) with
              hostMem := h.rings.toList.foldl (fun m (r : RingRegs) => if r.enable then repost m r else m) s.hostMem } : State).raiseDev
                0x0416 [])))
    ∧ (∀ kind, exec (.hostReset p kind) s = .next (back (
        if s.pwr.main = false then s
        else if p = h.activePort then s.modHost fun h =>
          { h with usable := false, mailboxes := h.mailboxes.map fun m => { Mailbox.reset with recent := m.recent },
                   rings := Vector.ofFn RingRegs.reset, eventRing := 7, msixTable := Vector.replicate 64 msixReset, pba := 0,
                   gates := h.gates.map fun g => if g.1 ∈ [.sensorPage, .logPage, .tracePage] then (g.1, .closed) else g,
                   aperture := 0, readData := none }
        else down)))
    ∧ (s.pwr.main = true → exec .hostInterfaceUsable s = .next (s.modHost fun h => { h with usable := true }))

/-- Registers, BAR2 and gates (R7, R178, R251, R310, R311, R315, R370). Bit 15 of the AER status is that of a Completer Abort (log entry
6). -/
def Obligations.Registers : Prop :=
  ∀ (offset : Nat) (bytes : List Byte) (s : State),
    let a := s.host.aperture.toNat + offset
    let v := s.cad.frame ++ s.cad.tick
    let ticks := if Pll.sb ∈ s.clk.locked then divCeil 256 (fld s.mc.activeProfile.toNat 160 8) else 256
    let gate := fun (value : W32) (busy : List Gate) (h : HostIf) (g : Gate) (n : Nat) =>
      if value.getLsbD n then h.setGate g .opened
      else if h.gate g = .opened then h.setGate g (if g ∈ busy then .closing s.now else .closed) else h
    let low := leNat ((List.range 32).map fun i => s.bar0Byte (0x2_0000 + i))
    (s.host.binderUp = true → fld low 0 8 = 0xB1 ∧ fld low 8 8 = s.host.ifLevel.toNat
        ∧ fld low 19 1 = (if s.prog.active.isSome then 1 else 0) ∧ fld low 64 32 = s.host.eventSeq.toNat
        ∧ fld low 192 64 = s.host.stepDone.toNat)
    ∧ (s.host.binderUp = false → low
        = (0xB1 + (if s.host.portBActive then 2 ^ 21 else 0) + 2 ^ 128 * s.mc.serial + s.host.header.toNat) % 2 ^ 256)
    ∧ (∀ i, i < 8 → s.bar0Byte (0x2_0100 + i) = BitVec.ofNat 8 ((if i < 4 then v.toNat else 2 ^ 32 * s.cad.hiLatch.toNat) / 256 ^ i))
    ∧ (∀ x, (0x2_0110 ≤ x ∧ x < 0x2_0800) ∨ 0x8_0000 ≤ x → s.bar0Byte x = 0)
    ∧ (∀ n, s.served = true → s.host.gate .logPage ≠ .opened → s.bar0Read 0x5_0000 n = none)
    ∧ (s.served = true → exec .cadenceLoRead s = .next ((s.modHost fun h =>
        { h with readData := some (leBytes 4 v.toNat) }).modCad fun c => { c with hiLatch := v.extractLsb' 32 32 }))
    ∧ (s.served = true → exec (.registerWrite offset bytes ⟨none, 0⟩) s = .next (s.writeBar0 offset bytes))
    ∧ (∀ b ev, s.served = true → exec (.registerWrite 0x2_010C [b] ⟨none, ev⟩) s
        = .next (s.modCad fun c => { c with events := c.events &&& ~~~(b.setWidth 7 &&& ~~~ev) }))
    ∧ (∀ b, s.writeBar0 0x2_010C [b] = s.modCad fun c => { c with events := c.events &&& ~~~(b.setWidth 7) })
    ∧ (∀ (i : Fin 8) n b, (s.host.ring i).enable = true → n < 9 → s.writeBar0 (0x1_0100 + 32 * i.val + n) [b] = s)
    ∧ (∀ n b, n < 0x100 → s.writeBar0 (0x2_0000 + n) [b] = s)
    ∧ (∀ w, s.served = true →
        let meets := w < 0x1_0000 ∧ offset < w / 4 * 4 + 4 ∧ w / 4 * 4 < offset + bytes.length
        (meets → exec (.registerWrite offset bytes ⟨some w, 0⟩) s
          = .next (((bytes.zipIdx.filter fun p => (offset + p.2) / 4 ≠ w / 4).foldl (fun s p => s.writeBar0 (offset + p.2) [p.1]) s).log
              0x0507 [item (w / 4 * 4)]))
        ∧ (¬ meets → exec (.registerWrite offset bytes ⟨some w, 0⟩) s = .next (s.writeBar0 offset bytes)))
    ∧ (∀ n, s.served = true → offset + n ≤ 2 ^ 36 → a + n ≤ s.layoutEnd →
        exec (.bar2Read offset n) s = .next (s.modHost fun h => { h with readData := some (s.dramRead a n) }))
    ∧ (∀ n, s.served = true → offset + n ≤ 2 ^ 36 → s.layoutEnd < a + n →
        exec (.bar2Read offset n) s = .next ((s.modHost fun h =>
          { h with readData := none, aer := h.aer ||| 0x8000 }).log 0x0508 (item2 (max a s.layoutEnd))))
    ∧ (∀ n, s.served = false ∨ 2 ^ 36 < offset + n →
        exec (.bar2Read offset n) s = .next (s.modHost fun h => { h with readData := none }))
    ∧ (s.served = true → offset + bytes.length ≤ 2 ^ 36 → a + bytes.length ≤ s.layoutEnd → exec (.bar2Write offset bytes) s = .next (s.dramStore a bytes))
    ∧ (s.served = true → offset + bytes.length ≤ 2 ^ 36 → s.layoutEnd < a + bytes.length → exec (.bar2Write offset bytes) s
        = .next ((s.dramStore a (bytes.take (s.layoutEnd - a))).log 0x0508 (item2 (max a s.layoutEnd))))
    ∧ (2 ^ 36 < offset + bytes.length → exec (.bar2Write offset bytes) s = .next s)
    ∧ (s.served = false → exec .cadenceLoRead s = .next s ∧ (∀ b, exec (.registerWrite offset bytes b) s = .next s)
        ∧ exec (.bar2Write offset bytes) s = .next s)
    ∧ (∀ g value busy, s.mc.up = true → exec (.periphEnableWrite (some g) value busy) s = .next (s.modHost fun h => gate value busy h g 0))
    ∧ (∀ value busy, s.served = true → exec (.periphEnableWrite none value busy) s = .next (s.modHost fun h =>
        gate value busy (gate value busy (gate value busy h .sensorPage 0) .logPage 1) .tracePage 2))
    ∧ (∀ g who since, s.host.gate g = .closing since → since + ticks ≤ s.now → exec (.gateForced g who) s
        = .next ((s.modHost fun h => { h.setGate g .closed with readData := none }).log 0x050A [item (gateCode g), item (initiatorCode who)]))
    ∧ (∀ g who, (∀ since, s.host.gate g = .closing since → s.now < since + ticks) → exec (.gateForced g who) s = .next s)

/-- The release of a step and the waking before it (R154, R209, R369). -/
def Obligations.StepReleases : Prop :=
  ∀ (img : Image) (s : State), s.prog.active = some img →
    let idle := s.prog.phase = .steps ∧ s.cad.hold = false ∧ s.clk.lost = false ∧ s.clk.returning = false
      ∧ (s.prog.recovering = true → s.replaying = true) ∧ s.inputMissing = false ∧ s.prog.awaiting = []
      ∧ ∀ c, (s.core c).asleep = false
    let due := fun (c : CoreId) => decide (c.val < img.cores) && !(s.core c).needle.released && (s.releaseNow? img c).isSome
    let cores := Vector.ofFn fun (c : CoreId) =>
      if due c then (s.core c).atRelease s.prog.schedule s.now s.cad.frame else s.core c
    let begun := fun (u : State) =>
      let u := { u with
        prog := { u.prog with released := true, releaseAt := s.cad.counter, releaseNow := s.now, lastFrame := s.cad.frame,
                              startedRel := true, checkpointWait := false },
        cad := { u.cad with votes := [], voted := false },
        fab := { u.fab with openSlots := [], doneSlots := [], receiving := [] } }
      if s.prog.startedRel then u else match s.prog.handle with
        | some h => (u.modEntry h fun e => { e with exclusiveDone := true }).raise 0x0310 noCore (item2 s.cad.frame.toNat)
        | none => u
    let u : State := { s with cores := cores }
    let v := if s.prog.released then u else begun u
    let w := if ∀ c : CoreId, c.val < img.cores → (u.core c).needle.released = true then
      v.modCad fun c => { c with resumeFrame := none } else v
    (idle → (∃ c, due c = true) →
      ((∃ c, due c = true ∧ s.releaseNow? img c = some true) → s.fab.untimed = false → s.fab.cover = false → exec .stepRelease s
        = .next (w.raiseStep 0x0302 noCore (item2 s.prog.step.toNat ++ item2 s.cad.counter.toNat)))
      ∧ ((∀ c, due c = true → s.releaseNow? img c = some false) ∨ s.fab.untimed = true ∨ s.fab.cover = true →
        exec .stepRelease s = .next w))
    ∧ (¬ idle ∨ (∀ c, due c = false) → exec .stepRelease s = .next s)
    ∧ (∀ c, s.replaying = false → s.cad.valid = true → s.cad.tick.toNat = (s.releaseWord img c).1 → s.cad.resumeFrame = none →
        s.fab.untimed = false → s.fab.cover = false → s.prog.discards = 0 →
        let at0 := (s.core c).needle.lastFrame.toNat + (s.releaseWord img c).2
        s.releaseNow? img c = if s.cad.frame.toNat < at0 then none else some (decide (at0 < s.cad.frame.toNat)))
    ∧ (∀ c, due c = true → (u.core c).drawsSaved = (s.core c).draws ∧ (u.core c).needle.sect = s.prog.schedule
        ∧ (u.core c).needle.pos = 0 ∧ (u.core c).needle.retired = false ∧ (u.core c).needle.released = true
        ∧ (u.core c).kettle = (s.core c).kettle)
    ∧ (let xs := img.coreList.filter fun c => (s.core c).asleep
       let n := if s.prog.woken.1 = s.now then s.prog.woken.2 else 0
       let now := xs.take (25 - n)
       let early := s.wakePassed img xs 1 = true ∨ s.replaying = true ∨ s.fab.untimed = true ∨ s.fab.cover = true
         ∨ s.cad.resumeFrame.isSome = true
       (s.pwr.main = true → s.clk.lost = false → s.clk.returning = false → xs ≠ [] → early →
        exec .coreWake s = .next { s with
          cores := Vector.ofFn fun (c : CoreId) => if c ∈ now then { s.core c with asleep := false } else s.core c,
          prog := { s.prog with woken := (s.now, n + now.length) } })
       ∧ (xs = [] ∨ ¬ early → exec .coreWake s = .next s))

/-- The step boundary (R18, R19, R141). That an elastic section begins at a replayed boundary too is log entry 45. -/
def Obligations.StepBoundaries : Prop :=
  ∀ (img : Image) (s : State), s.prog.active = some img → img.direct = false →
    let ready := s.prog.released = true ∧ s.cad.hold = false ∧ s.clk.lost = false ∧ s.clk.returning = false
      ∧ s.stepComplete img = true ∧ (1 < img.bounds.devices → s.voteComplete img = true)
    let n := s.prog.step.toNat
    let links := s.failedLinks img
    (s.prog.phase = .prologue → (∀ c, c.val < img.cores → (s.core c).needle.sect = .done ∧ (s.core c).quietSignals = true) →
      exec .stepBoundary s = .next { s with
        cores := Vector.ofFn fun (c : CoreId) =>
          if c.val < img.cores then
            { s.core c with kettle := Vector.ofFn fun (i : Fin 256) => if i.val < 224 then 0 else (s.core c).kettle[i],
                            awl := { (s.core c).awl with pinned := ReadAhead.start s.prog.schedule },
                            needle := { (s.core c).needle with sect := s.prog.schedule, pos := 0 } }
          else s.core c,
        prog := { s.prog with phase := .steps } })
    ∧ (s.prog.phase = .steps → ready → s.faulted img = true →
        exec .stepBoundary s = .next (s.discardStep img links))
    ∧ (s.prog.phase = .steps → ready → s.faulted img = false →
        (∀ k, s.waitingSet img = some k → exec .stepBoundary s = .next (s.raiseWait k))
        ∧ (s.waitingSet img = none → exec .stepBoundary s = .next (((s.commitStep img links).boundaryActs n).beginRejoin img)))
    ∧ (s.prog.phase = .steps → ¬ ready → exec .stepBoundary s = .next s)
    ∧ (s.prog.replayTo = none → let t := s.commitStep img links
        t.prog.step = s.prog.step + 1 ∧ t.prog.discards = 0 ∧ t.prog.released = false ∧ t.prog.snaps = [])
    ∧ (retiring s.prog.faults [] = [] → s.prog.discards < 3 → let t := s.discardStep img links
        t.prog.step = s.prog.step ∧ t.prog.discards = s.prog.discards + 1 ∧ t.prog.released = false ∧ t.prog.snaps = []
        ∧ ∀ c, c.val < img.cores → (t.core c).draws
            = Vector.ofFn fun (i : Fin 16) => if s.elasticStream img c i.val then (s.core c).draws[i] else (s.core c).drawsSaved[i])
    ∧ (∀ h, retiring s.prog.faults [] = [] → s.prog.discards < 3 → s.prog.elasticPending = some h → (s.running? h).isSome = true →
        let t := s.discardStep img links
        t.prog.elasticPending = none ∧ t.prog.elasticRuns = s.prog.elasticRuns + 1)

/-- Scheduled traffic (R155, R281, R291 to R294). The stop absentMemory is the model's own; what a link that came back carries is log entry
32, the places in a carrier log entry 34, a transfer of another step log entry 35, forwarding in untimed running log entry 53. -/
def Obligations.FabricSlots : Prop :=
  ∀ (img : Image) (s : State), s.prog.active = some img →
    (∀ slot : Fin 256, let e := s.slotEntry img slot.val
      let due := s.prog.releaseNow + s.openOffset img e ≤ s.now
      img.direct = false → img.slotOff ≠ 0 → s.prog.phase = .steps → s.prog.released = true → s.clk.lost = false →
      s.clk.returning = false → xKind e ≠ 0 →
      (s.slotWord img slot.val = none → exec (.fabricSlotOpen slot) s = .next (
        if due ∧ s.slotFree = false ∧ slot.val ∉ s.fab.openSlots then
          { s with fab := { s.fab with openSlots := slot.val :: s.fab.openSlots } } else s))
      ∧ (∀ c w, s.slotWord img slot.val = some (c, w) →
        (¬ due → s.slotFree = false → exec (.fabricSlotOpen slot) s = .next s)
        ∧ (due ∨ s.slotFree = true → (xOp e ≠ 2 ∨ w.2.1 = true ∨ s.mayVote img = true) →
            (xOp e = 0 → w.2.2.1 + 64 * xFlits e ≤ dramBytes) →
            exec (.fabricSlotOpen slot) s = .next (s.carryWord img slot.val e c w))
        ∧ (due ∨ s.slotFree = true → xOp e = 2 → w.2.1 = false → s.mayVote img = false → exec (.fabricSlotOpen slot) s = .next (
            match (if s.allRetired img then s.waitingSet img else none) with
            | some k => s.raiseWait k
            | none => s))
        ∧ (due ∨ s.slotFree = true → xOp e = 0 → dramBytes < w.2.2.1 + 64 * xFlits e →
            exec (.fabricSlotOpen slot) s = .fault (.absentMemory (w.2.2.1 + 64 * xFlits e)))))
    ∧ (∀ lane x r, let h := x.header.bits.toNat
      let e := s.slotEntry img r.1
      let bytes := (s.dataBytes x).take (64 * xFlits e)
      let u := s.modFab fun f => { f with receiving := f.receiving.erase r }
      let good := u.wordDone r.2.2.2 r.2.2.1
      let bad := ((u.fault 0x11 lane.val).bump).wordDone r.2.2.2 r.2.2.1
      let ok := transferGood x = true ∧ hLength h = xFlits e
      (s.link lane).phase = .up → (s.link lane).sched = true ∨ s.fab.cover = true ∨ s.fab.untimed = true ∨ xOp e = 2 →
      s.prog.released = true → s.clk.lost = false → (headerGood x.header = true → hKind h = 1 ∧ hTransfer h / 65536 = s.prog.step.toNat % 65536) →
      s.receiveFor img lane x = some r →
        (headerGood x.header = true → hHops h = 63 → exec (.schedTransfer lane x) s
          = .next ((s.sendAs (BitVec.ofNat 16 (hSrc h)) (BitVec.ofNat 32 (hTransfer h)) false (.refuse 2)).fault 0x11 lane.val))
        ∧ ((headerGood x.header = true → hHops h ≠ 63) →
        (ok → xOp e = 1 → exec (.schedTransfer lane x) s = .next (good.takeCarrier bytes))
        ∧ (ok → xOp e = 2 → exec (.schedTransfer lane x) s = .next (good.takeVote (voteOf (BitVec.ofNat 10 (xPeer e)) bytes)))
        ∧ (ok → xOp e ≠ 1 → xOp e ≠ 2 → r.2.1 + bytes.length ≤ dramBytes →
            exec (.schedTransfer lane x) s = .next (good.dramWrite r.2.1 bytes))
        ∧ (¬ ok → xOp e = 1 ∨ xOp e = 2 → exec (.schedTransfer lane x) s = .next bad)
        ∧ (¬ ok → xOp e ≠ 1 → xOp e ≠ 2 → r.2.1 + bytes.length ≤ dramBytes →
            exec (.schedTransfer lane x) s = .next (bad.dramWrite r.2.1 bytes))
        ∧ (xOp e ≠ 1 → xOp e ≠ 2 → dramBytes < r.2.1 + bytes.length →
            exec (.schedTransfer lane x) s = .fault (.absentMemory (r.2.1 + bytes.length)))))
    ∧ (∀ lane x, s.receiveFor img lane x = none → exec (.schedTransfer lane x) s = .next s)
    ∧ (∀ lane (x : Transfer) out entry, let h := x.header.bits.toNat
      s.forwardLane img lane h = some (out, entry) → (s.link lane).phase = .up → hKind h = 1 → s.clk.lost = false →
      let timed := s.slotFree = false ∧ entry.isSome = true
      let late := timed ∧ ∃ f, entry = some f ∧ s.prog.releaseNow + fOffset f + slotTicks (fFlits f) + 1 < s.now
      let stop := late ∨ (s.link out).phase ≠ .up ∨ ((s.link out).sched = false ∧ entry.isSome = true)
      let spent := headerGood x.header = true ∧ hHops h = 63
      (spent → exec (.forward lane x.header x.data) s
        = .next ((s.sendAs (BitVec.ofNat 16 (hSrc h)) (BitVec.ofNat 32 (hTransfer h)) false (.refuse 2)).fault 0x11 lane.val))
      ∧ (¬ spent → stop → exec (.forward lane x.header x.data) s = .next (s.fault 0x11 lane.val))
      ∧ (¬ spent → ¬ stop → transferGood x = true → exec (.forward lane x.header x.data) s
          = .next (s.passOn out 0 (!s.slotFree && entry.isSome) { x with header := addHop x.header }))
      ∧ (¬ spent → ¬ stop → transferGood x = false → exec (.forward lane x.header x.data) s = .next ((s.fault 0x11 lane.val).passOn out 0
          (!s.slotFree && entry.isSome) { x with header := if headerGood x.header then addHop x.header else x.header })))
    ∧ (∀ lane (x : Transfer) f, s.forwardFor img lane (hTransfer x.header.bits.toNat % 65536) = some f → s.fab.untimed = false ∨ s.fab.cover = true →
      s.cad.hold = false ∨ (s.link ⟨fOut f % 64, Nat.mod_lt _ (by decide)⟩).sched = true →
      s.forwardLane img lane x.header.bits.toNat = some (⟨fOut f % 64, Nat.mod_lt _ (by decide)⟩, some f))
    ∧ (∀ lane (x : Transfer), s.forwardLane img lane x.header.bits.toNat = none → exec (.forward lane x.header x.data) s = .next s)

/-- Dynamic transfers and their ends (R280, R281, R288, R297). What a transfer asks is read by log entry 37; that a broken record is not
acknowledged and what a refused unit ends is log entry 36: the model's. -/
def Obligations.DynamicTransfers : Prop :=
  (∀ (lane : LaneId) (t : Transfer) (s : State), s.pwr.main = true → (s.link lane).phase = .up → s.clk.lost = false →
    let x := t.header.bits.toNat
    let back := fun (m : Msg) => s.sendAs (BitVec.ofNat 16 (hSrc x)) (BitVec.ofNat 32 (hTransfer x)) false m
    let mine := hDst x = s.fab.nodeId.toNat ∨ hDst x = 0xFFFF
    let broken := ∃ step pages, Config.readContent t = .record step pages ∧ hKind x = 2
      ∧ ∀ p ∈ s.fab.protects, p.node = BitVec.ofNat 16 (hSrc x) → p.continuous = true → (p.take 0 pages).arriving ≠ []
    (transferGood t = false ∨ hKind x < 2 ∨ 5 < hKind x → exec (.dynTransfer lane t) s = .next s)
    ∧ (transferGood t = true → hKind x = 4 ∨ hKind x = 5 → hHops x = 63 → exec (.dynTransfer lane t) s = .next s)
    ∧ (transferGood t = true → hHops x ≠ 63 → mine →
      (hKind x = 4 → exec (.dynTransfer lane t) s = exec (.ackMsg (BitVec.ofNat 32 (hTransfer x))) s)
      ∧ (hKind x = 5 → exec (.dynTransfer lane t) s
          = exec (.refuseMsg (BitVec.ofNat 32 (hTransfer x)) (BitVec.ofNat 8 (hSubtype x))) s))
    ∧ (transferGood t = true → hKind x = 2 ∨ hKind x = 3 →
      (hHops x = 63 → exec (.dynTransfer lane t) s = .next (back (.refuse 2)))
      ∧ (hHops x ≠ 63 → mine → ¬ broken → exec (.dynTransfer lane t) s = .next ((back .ack).carryOut x t))
      ∧ (hHops x ≠ 63 → mine → broken → exec (.dynTransfer lane t) s = .next (s.carryOut x t)))
    ∧ (transferGood t = true → 2 ≤ hKind x → hKind x ≤ 5 →
      (∀ l esc, ¬ mine → hHops x ≠ 63 → s.nextLane lane x = some (l, esc) → exec (.dynTransfer lane t) s
          = .next (s.passOn l (if esc then 3 else BitVec.ofNat 2 (hVc x)) false { t with header := onward t.header esc }))
      ∧ (¬ mine → hHops x ≠ 63 → s.nextLane lane x = none →
        ∃ u e, exec (.dynTransfer lane t) s = .next u ∧ u.fab.escapeWait = s.fab.escapeWait ++ [e]
          ∧ e.vc = 3 ∧ e.src = BitVec.ofNat 16 (hSrc x) ∧ e.seq = BitVec.ofNat 32 (hTransfer x)
          ∧ e.transit = some { t with header := onward t.header true } ∧ u.fab.links = s.fab.links)))
  ∧ (∀ (x : Nat) (t : Transfer) (s : State), let src := BitVec.ofNat 16 (hSrc x)
    (∀ a n, Config.readContent t = .pageRead a n → hKind x = 2 → a + n ≤ dramBytes →
      s.carryOut x t = s.sendDyn src .device (.pageData (s.dramRead a n)))
    ∧ (∀ a b, Config.readContent t = .pageWrite a b → hKind x = 2 → a + b.length ≤ dramBytes → s.carryOut x t = s.dramStore a b)
    ∧ (∀ step pages, Config.readContent t = .record step pages → hKind x = 2 → s.carryOut x t = s.modFab fun f => { f with
        protects := f.protects.map fun p => if p.node = src ∧ p.continuous = true then p.take step pages else p })
    ∧ (∀ a r, Config.readContent t = .bind a → hKind x = 3 → s.bindRefusal src a = some r →
      s.carryOut x t = s.sendDyn src .device (.bound (some r)))
    ∧ (∀ step last, Config.readContent t = .recovery step last → hKind x = 3 → s.carryOut x t = s.takeSteps step last)
    ∧ (∀ set step i total b, Config.readContent t = .unit set step i total b → hKind x = 2 → s.fab.seeding = none →
      s.prog.recovering = false → s.prog.awaiting = [] → s.carryOut x t = s.modFab fun f => { f with
        protects := f.protects.map fun p => if p.node = src then p.takeUnit set step i total b else p })
    ∧ (∀ set step i total b img a, Config.readContent t = .unit set step i total b → hKind x = 2 → (set, i) ∈ s.prog.awaiting →
      s.checkPartner = some src → (∃ k, s.prog.kept = some k ∧ k.step = step) → s.prog.active = some img →
      (s.setUnits img set)[i]? = some a → s.carryOut x t = (s.dramStore a b).modProg fun p => { p with awaiting := p.awaiting.erase (set, i) }))
  ∧ (∀ (q : W32) (src : BitVec 16) (s : State),
    let gone := { s with fab := { s.fab with outstanding := s.fab.outstanding.filter fun o => o.seq ≠ q } }
    (s.fab.transfer q = none → exec (.ackMsg q) s = .next s ∧ (∀ r, exec (.refuseMsg q r) s = .next s)
        ∧ exec (.resendTimeout q) s = .next s)
    ∧ (s.waitingOn src q false = none → exec (.creditWaitTimeout ⟨src, q⟩) s = .next s)
    ∧ (s.waitingOn src q true = none → exec (.escapeTimeout ⟨src, q⟩) s = .next s)
    ∧ (∀ o, s.fab.transfer q = some o →
      ((∀ n, o.initiator ≠ .record n) → exec (.ackMsg q) s = .next gone)
      ∧ (∀ n m pages, o.initiator = .record n → o.body = .record m pages →
          let u := { gone with fab := { gone.fab with mirrored := some n, acked := applyPages gone.fab.acked pages } }
          exec (.ackMsg q) s = .next (match s.fab.bindings.find? (·.continuous), s.prog.committed, s.prog.active with
            | some b, some c, some img => if n.toNat < c.toNat then
                u.sendDyn b.partner (.record c) (.record c (changedPages u.fab.acked (u.committedRecord img))) else u
            | _, _, _ => u))
      ∧ (∀ r, exec (.refuseMsg q r) s = .next (if r = 1 ∨ r = 2 then s.refused o else s))
      ∧ (8 ≤ o.sends → exec (.resendTimeout q) s = .next (s.refused o))
      ∧ (o.sends < 8 → exec (.resendTimeout q) s = .next (({ s with fab := { s.fab with
          outstanding := s.fab.outstanding.map fun x => if x.seq = q then { x with sends := x.sends + 1 } else x } } : State).sendAs
            o.dst o.seq o.escape o.body))
      ∧ (∀ l e, s.waitingOn src q true = some (l, e) → e.transit = none → exec (.escapeTimeout ⟨src, q⟩) s
          = .next ((s.unqueue l e).refused o))
      ∧ (∀ l e, s.waitingOn src q false = some (l, e) → e.transit = none → e.vc = 1 ∨ e.vc = 2 →
          let u := s.unqueue l e
          exec (.creditWaitTimeout ⟨src, q⟩) s = .next ((u.modFab fun f => { f with outstanding := f.outstanding.map fun x =>
            if x.seq = q then { x with escape := true, lane := u.escapeLane o.dst.toNat } else x }).sendAs o.dst o.seq true o.body))
      ∧ (∀ h, o.initiator = .command h → o.seq = q → s.refused o = gone.complete h 0x000A o.dst.toNat 0)
      ∧ (∀ set step i b, o.initiator = .mirror → o.body = .unit set step i b → o.seq = q →
          s.refused o = ((gone.raiseDev 0x0414 [item o.dst.toNat, q]).modProg fun p =>
            { p with shipping := p.shipping.filter (· ≠ (set, step)) }).modFab fun f =>
              { f with outstanding := f.outstanding.filter fun p => p.body.shipment ≠ some (set, step) })
      ∧ (o.initiator = .device → o.seq = q → s.refused o = gone.raiseDev 0x0414 [item o.dst.toNat, q]))
    ∧ (∀ l e t, s.waitingOn src q true = some (l, e) → e.transit = some t →
        exec (.escapeTimeout ⟨src, q⟩) s = .next ((s.unqueue l e).reply t.header.bits.toNat (.refuse 1)))
    ∧ (∀ l e t out, s.waitingOn src q false = some (l, e) → e.transit = some t → e.vc = 1 ∨ e.vc = 2 →
        (s.unqueue l e).escapeLane (hDst t.header.bits.toNat) = some out → exec (.creditWaitTimeout ⟨src, q⟩) s
          = .next ((s.unqueue l e).passOn out 3 false { t with header := onEscape t.header }))
    ∧ (∀ l e t, s.waitingOn src q false = some (l, e) → e.transit = some t → e.vc = 1 ∨ e.vc = 2 →
        (s.unqueue l e).escapeLane (hDst t.header.bits.toNat) = none → exec (.creditWaitTimeout ⟨src, q⟩) s
          = .next ((s.unqueue l e).passWaiting (onEscape t.header) t)))

/-- Bring-up, the partner record, the timing exchange, and LINK_DOWN (R274 to R277, R282, R371, R372). The rounding of the latency is log
entry 29, what an aligned node gives up log entry 33, the receives given up log entry 35: the model's. -/
def Obligations.LinkBringUp : Prop :=
  (∀ (l : LaneId) (s : State), s.pwr.main = false ∨ s.mainClocks = false →
    exec (.linkRetry l) s = .next s ∧ (∀ f, exec (.partner l f) s = .next s)
      ∧ ∀ ok, exec (.autoNegotiation l ok) s = .next s ∧ exec (.linkTraining l ok) s = .next s ∧ exec (.pcsBlockLock l ok) s = .next s
        ∧ exec (.timingExchangeDone l ok) s = .next s)
  ∧ ∀ (l : LaneId) (s : State), s.pwr.main = true → s.mainClocks = true →
    let k := s.link l
    let go := fun (p : LinkPhase) => s.modLink l fun k => { k with phase := p }
    let lost := fun (p : LinkPhase) => (((s.failLane l).modLink l fun k =>
      { k with phase := p, partner := 0xFFFF, samples := [], tx := [], flitNo := 0, lastSent := .quiet, used := Vector.replicate 4 0,
               sched := false }).raiseDev 0x040F [item l.val, item k.partner.toNat]).topologyChanged.advertise.dropLost
    (∀ ok, (k.phase = .negotiating → exec (.autoNegotiation l ok) s = .next (go (if ok then .training else .failed)))
      ∧ (k.phase ≠ .negotiating → exec (.autoNegotiation l ok) s = .next s)
      ∧ (k.phase = .training → exec (.linkTraining l ok) s = .next (go (if ok then .locking else .failed)))
      ∧ (k.phase ≠ .training → exec (.linkTraining l ok) s = .next s)
      ∧ (k.phase = .locking → exec (.pcsBlockLock l ok) s = .next (if ok then (go .records).sendPartner l else go .failed))
      ∧ (k.phase ≠ .locking → exec (.pcsBlockLock l ok) s = .next s))
    ∧ exec (.linkRetry l) s = .next (if k.phase = .failed ∨ k.phase = .refused then go .negotiating else s)
    ∧ (∀ f : Flit, let r := f.bits.toNat
      let bad := f.fecBad = true ∨ flitCrcOk r = false ∨ partnerReserved r = false
      let refuse := fun (n : Nat) => exec (.partner l f) s = .next ((s.takeDown l .refused).raiseDev 0x0411 [item l.val, item n])
      let same := prNode r = s.fab.nodeId.toNat ∧ ¬ (prIdSource r = 2 ∧ s.fab.idSource = 2)
      let wide := nodeDomain (prNode r) = nodeDomain s.fab.nodeId.toNat ∧ prBudget r ≠ s.skewBudget
      let good := ¬ bad ∧ 3 ≤ prLevel r ∧ ¬ same ∧ ¬ wide
      let taken := k.phase = .up ∨ k.phase = .joining ∨ k.phase = .timing
      let other := prSerial r ≠ prSerial k.record.toNat ∨ prNode r ≠ prNode k.record.toNat
      (fld r 0 4 ≠ 7 ∨ (k.phase ≠ .records ∧ ¬ taken) → exec (.partner l f) s = .next s)
      ∧ (fld r 0 4 = 7 → k.phase = .records ∨ taken →
        (bad → refuse 1) ∧ (¬ bad → prLevel r < 3 → refuse 2) ∧ (¬ bad → 3 ≤ prLevel r → same → refuse 3)
        ∧ (¬ bad → 3 ≤ prLevel r → ¬ same → wide → refuse 4))
      ∧ (fld r 0 4 = 7 → k.phase = .records → good → exec (.partner l f) s = .next ((s.modLink l fun k =>
            { k with phase := .timing, partner := BitVec.ofNat 16 (prNode r), record := f.bits, samples := [] }).sendSync l))
      ∧ (fld r 0 4 = 7 → taken → good →
        (other → exec (.partner l f) s = .next (s.takeDown l (if k.phase = .up then .negotiating else .failed)))
        ∧ (¬ other → exec (.partner l f) s = .next (s.modLink l fun k => { k with record := f.bits }))))
    ∧ (k.phase = .up → ∀ p, s.takeDown l p = lost p)
    ∧ (let n := k.roundTrip
      let cable : Int := (n - (txFixed + rxFixed + prTxFixed k.record.toNat + prRxFixed k.record.toNat : Nat)) / 2
      let alone := if nodeDomain k.partner.toNat = nodeDomain s.fab.nodeId.toNat ∧ s.prog.active = none ∧ s.prog.staged = none
          ∧ s.isRoot = true ∧ s.aloneAligned = true then s.modCad fun c => { c with aligned := false } else s
      let short := n < 3720 ∨ cable < 0 ∨ 200 < cable
      (k.phase ≠ .timing ∨ k.samples.length ≠ 256 → exec (.timingExchangeDone l true) s = .next s)
      ∧ exec (.timingExchangeDone l false) s = .next (if k.phase = .timing then s.takeDown l .failed else s)
      ∧ (k.phase = .timing → k.samples.length = 256 →
        (4280 < n → exec (.timingExchangeDone l true) s = .next ((s.takeDown l .refused).raiseDev 0x0411 [item l.val, item 5]))
        ∧ (n ≤ 4280 → short → exec (.timingExchangeDone l true) s = .next (s.takeDown l .failed))
        ∧ (n ≤ 4280 → ¬ short → exec (.timingExchangeDone l true) s = .next ((alone.modLink l fun k =>
          { k with phase := .joining, latency := BitVec.ofInt 16 ((n + 10) / 20), cable := BitVec.ofInt 16 cable }).topologyChanged.advertise))))
    ∧ (∀ m : LaneId, (s.flipTables.link m).phase = if (s.link m).phase = .joining then .up else (s.link m).phase)
    ∧ (∀ cause, (k.phase ≠ .up → k.phase ≠ .joining → exec (.linkDown l cause) s = .next s)
      ∧ (k.phase = .up → exec (.linkDown l cause) s = .next (lost (if cause = .disabled then .disabled else .negotiating)))
      ∧ (k.phase = .joining → exec (.linkDown l cause) s = .next (s.takeDown l (if cause = .disabled then .disabled else .failed))))

/-- Discovery, routing tables and node IDs (R283 to R289). -/
def Obligations.RoutingAndIdentity : Prop :=
  ∀ (s : State),
    (∀ (l : LaneId) (a : Advert), s.pwr.main = true → (s.link l).phase = .up ∨ (s.link l).phase = .joining → s.clk.lost = false →
      a.serial ≠ s.serial →
      let clash := a.node = s.fab.nodeId ∧ s.fab.idSource ≠ 2 ∧ a.idSource ≠ 2
      let old := s.fab.adverts.find? fun p => p.1.node = a.node
      let kept := ({ s with fab := { s.fab with adverts := s.fab.adverts.filter (fun p => p.1.node ≠ a.node) ++ [(a, s.now)] } } :
        State).flood (some l) (.advert a)
      (clash → exec (.advertisement l a) s = .next (s.resolveClash a))
      ∧ (¬ clash → old = none → exec (.advertisement l a) s = .next kept.topologyChanged.tryActivate)
      ∧ (∀ p, ¬ clash → old = some p → exec (.advertisement l a) s = .next (
          if newer a.sequence p.1.sequence = false then s
          else if p.1.links = a.links then kept.noteRoot.tryActivate else kept.topologyChanged.tryActivate)))
    ∧ (∀ (l : LaneId) (a : Advert), ((s.link l).phase ≠ .up ∧ (s.link l).phase ≠ .joining) ∨ a.serial = s.serial →
        exec (.advertisement l a) s = .next s)
    ∧ (s.pwr.main = true → exec .advertisementPeriod s = .next (
        let t : State := { s with fab := { s.fab with advSeq := s.fab.advSeq + 1 } }
        t.flood none (.advert t.ownAdvert)))
    ∧ (s.ownAdvert.sequence = s.fab.advSeq ∧ s.ownAdvert.node = s.fab.nodeId ∧ s.ownAdvert.serial = s.serial)
    ∧ (∀ n, s.pwr.main = true → (∃ p ∈ s.fab.adverts, p.1.node = n ∧ p.2 + 300000000 ≤ s.now) →
        exec (.advertisementExpiry n) s = .next (({ s with fab := { s.fab with
          adverts := s.fab.adverts.filter fun p => p.1.node ≠ n } } : State).topologyChanged.partnerLost n))
    ∧ (∀ n, (∀ p ∈ s.fab.adverts, p.1.node = n → s.now < p.2 + 300000000) → exec (.advertisementExpiry n) s = .next s)
    ∧ (s.pwr.main = true → s.fab.rebuilding = true →
        let t : State := { s with fab := { s.fab with shadow := s.buildTable, rebuilding := false, flipReady := true } }
        exec .routingRebuildDone s = .next (if s.cad.valid then t else t.flipTables).bump
        ∧ t.flipTables.fab.active = s.buildTable ∧ t.flipTables.fab.shadow = s.fab.active ∧ t.flipTables.fab.flipReady = false)
    ∧ (s.fab.rebuilding = false → exec .routingRebuildDone s = .next s)
    ∧ (s.pwr.standby = true → s.fab.nodeId = 0xFFFF →
        exec .hashedNodeId s = .next (s.takeId (BitVec.ofNat 16 (63 * 1024 + mix s.serial.toNat % 1024)) 1))
    ∧ (s.pwr.standby = false ∨ s.fab.nodeId ≠ 0xFFFF → exec .hashedNodeId s = .next s)

/-- Marks and the counter (R248 to R259). The mark of a SYNC flit that begins an exchange (t2 = t3 = 0), the sign of the own offset and the
0.1 ns unit of the own times are the model's choice (log entry 44). -/
def Obligations.FrameMarks : Prop :=
  ∀ (s : State),
    let n := s.cad.rxTick
    let frame := item2 s.cad.frame.toNat
    let due := fun (t : State) => { t with cad := { t.cad with rxTick := 0, markPending := true } }
    let short := fun (t : State) => (t.modCad (setEvent 0)).raiseDev 0x0408 (frame ++ [item n.toNat])
    let long := fun (t : State) => (t.modCad (setEvent 1)).raiseDev 0x0409 (frame ++ [item n.toNat])
    let ring := fun (c : Cadence) (len : BitVec 24) (synth : Bool) => { c with
      ring := { length := len, synth := synth, short := decide (len.toNat < s.profileMin), long := decide (s.profileMax < len.toNat),
                spurious := c.spurious, gap := false, frame := c.frame }
        :: c.ring.filter (fun e => decide (e.frame.toNat % 256 ≠ c.frame.toNat % 256)),
      lastLen := len, minLen := if c.minLen = 0 ∨ len < c.minLen then len else c.minLen,
      maxLen := if c.maxLen < len then len else c.maxLen, spurious := false }
    (s.marksCount = false → exec .frameMark s = .next s ∧ exec .markMissing s = .next s ∧ exec .effectiveMark s = .next s)
    ∧ (s.marksCount = true →
      (s.cad.valid = false → exec .frameMark s = .next (due s) ∧ exec .markMissing s = .next s)
      ∧ (s.cad.valid = true → n.toNat < 100000 →
          exec .frameMark s = .next ((s.modCad fun c => setEvent 3 { c with spurious := true }).raiseDev 0x040B (frame ++ [item n.toNat])))
      ∧ (s.cad.valid = true → 100000 ≤ n.toNat → let t := { s with cad := ring s.cad n false }
          (s.profileMin ≤ n.toNat → n.toNat ≤ s.profileMax → exec .frameMark s = .next (due t))
          ∧ (n.toNat < s.profileMin → n.toNat ≤ s.profileMax → exec .frameMark s = .next (due (short t)))
          ∧ (s.profileMin ≤ n.toNat → s.profileMax < n.toNat → exec .frameMark s = .next (due (long t)))
          ∧ (n.toNat < s.profileMin → s.profileMax < n.toNat → exec .frameMark s = .next (due (long (short t)))))
      ∧ (s.cad.valid = true → n.toNat < 16000000 → exec .markMissing s = .next s)
      ∧ (s.cad.valid = true → 16000000 ≤ n.toNat → exec .markMissing s
          = .next (due (((s.endFrame 16000000 true).modCad (setEvent 2)).raiseDev 0x040A (frame ++ [item 16000000]))))
      ∧ (s.cad.markPending = false ∨ n.toNat < s.cad.trim.toNat / 16 → exec .effectiveMark s = .next s)
      ∧ (s.cad.markPending = true → s.cad.trim.toNat / 16 ≤ n.toNat → s.cad.valid = true → s.cad.aligned = true → s.cad.rootFrame = none →
          s.cad.adopt = false → s.prog.active = none →
          let t : State := { s with
            cad := { s.cad with frame := s.cad.frame + 1, tick := n - BitVec.ofNat 24 (s.cad.trim.toNat / 16), markPending := false,
                                holdFrames := if s.cad.hold && !s.fab.cover then s.cad.holdFrames + 1 else s.cad.holdFrames } }
          exec .effectiveMark s = .next (if s.fab.flipReady then t.flipTables else t).syncAll)
      ∧ ∃ t, exec .effectiveMark s = .next t)
    ∧ (∀ (l : LaneId) (f : Flit) (t4 : W32), let x := f.bits.toNat
      let k := s.link l
      let carries := k.phase = .up ∨ k.phase = .joining
      let t1 := fld x 128 32
      let t2 := fld x 160 32
      let t3 := fld x 192 32
      (s.pwr.main = false ∨ s.mainClocks = false ∨ (¬ carries ∧ k.phase ≠ .timing) ∨ syncGood f = false →
        exec (.cadenceSync l f t4) s = .next s)
      ∧ (s.pwr.main = true → s.mainClocks = true → carries ∨ k.phase = .timing → syncGood f = true →
        let u := if t2 = 0 ∧ t3 = 0 then s.answerSync l x t4
          else s.takeSample l ((t4.toNat - t3 : Int) - (t2 - t1), (t4.toNat - t3 : Int) + (t2 - t1))
        let v := u.modLink l fun k => { k with peerOffset := syncOffset x }
        let d := (v.link l).delta
        let parent := (v.parentOf v.fab.nodeId.toNat).elim false fun e => e.lane == l.val
        (¬ carries → exec (.cadenceSync l f t4) s = .next u)
        ∧ (carries → parent = true → exec (.cadenceSync l f t4) s = .next ({ v with
            cad := { v.cad with rootFrame := some (syncFrame x), offset := syncOffset x - d } }.checkSkew l true d (syncTrim x)))
        ∧ (carries → parent = false → v.isRoot = true → exec (.cadenceSync l f t4) s = .next ({ v with
            cad := { v.cad with rootFrame := none, offset := 0 } }.checkSkew l false d (syncTrim x)))
        ∧ (carries → parent = false → v.isRoot = false → exec (.cadenceSync l f t4) s = .next (v.checkSkew l false d (syncTrim x)))))

/-- The vote, hold and resume, members lost (R262 to R265, R301). The frame a vote carries and how a loss is told (log entry 32), and the
receives given up on a vote that shows their path as failed (log entry 35), are the model's readings. -/
def Obligations.VotesAndHold : Prop :=
  (∀ s : State, s.domainProgram = none → (∀ v, exec (.boundaryVote v) s = .next s) ∧ exec .holdDeadline s = .next s
    ∧ exec .holdMsg s = .next s ∧ (∀ g, exec (.resumeMsg g) s = .next s) ∧ exec .holdTimeout s = .next s
    ∧ (∀ r, exec (.memberLeave r) s = .next s ∧ exec (.memberIsolation r) s = .next s))
  ∧ (∀ (s : State) (img : Image), s.domainProgram = some img →
    let told := if s.isProgramRoot then s.sendMembers .hold else s
    let held := told.modCad fun c => { c with hold := true, holdFrames := 0 }
    (∀ v, s.prog.released = true → v.rank.toNat < img.bounds.devices → v.rank ≠ img.bounds.rank →
        let t := (({ s with cad := { s.cad with votes := mergeVote v s.cad.votes } } : State).checkFrame v).dropLost
        (s.replaying = false → exec (.boundaryVote v) s = .next t)
        ∧ (s.replaying = true → exec (.boundaryVote v) s = .next t.rootResume)
        ∧ (v.frame = s.prog.lastFrame → t = ({ s with cad := { s.cad with votes := mergeVote v s.cad.votes } } : State).dropLost)
        ∧ (v.frame = s.prog.lastFrame → (∀ r ∈ s.fab.receiving, ({ s with cad := { s.cad with votes := mergeVote v s.cad.votes } } : State).slotLost img
            (s.slotEntry img r.1) = false) → t = { s with cad := { s.cad with votes := mergeVote v s.cad.votes } }))
    ∧ (∀ v, s.prog.released = false ∨ img.bounds.devices ≤ v.rank.toNat ∨ v.rank = img.bounds.rank → exec (.boundaryVote v) s = .next s)
    ∧ (s.cad.hold = true → exec .holdMsg s = .next s) ∧ (s.cad.hold = false → exec .holdMsg s = .next held)
    ∧ (let late := s.prog.released = true ∧ s.cad.hold = false ∧ s.fab.untimed = false ∧ s.fab.cover = false
          ∧ s.voteComplete img = false ∧ s.prog.releaseNow + s.worstLength img ≤ s.now
       (late → exec .holdDeadline s = .next (if s.isProgramRoot then held else s.send s.programRoot .hold))
       ∧ (¬ late → exec .holdDeadline s = .next s))
    ∧ (∀ g, (s.restoring = false → exec (.resumeMsg g) s = .next { s with
            cad := { s.cad with hold := false, holdFrames := 0, resumeFrame := some g } })
        ∧ (s.restoring = true → exec (.resumeMsg g) s = .next s))
    ∧ (let long := s.cad.hold = true ∧ s.fab.cover = false ∧ s.restoring = false ∧ s.isProgramRoot = true ∧ 0 < s.holdTimeout
          ∧ s.holdTimeout ≤ s.cad.holdFrames
       (long → exec .holdTimeout s
          = .next ((((s.missingRanks img).foldl (fun s r => s.loseMember r) s).loseSelf img).rootResume))
       ∧ (¬ long → exec .holdTimeout s = .next s))
    ∧ (∀ r, exec (.memberLeave r) s = .next (s.loseMember r) ∧ exec (.memberIsolation r) s = .next (s.loseMember r))
    ∧ (∀ r node, s.fab.rankNode.find? (fun x => x.1 = r) = some (r, node) → r ∉ s.fab.lost → s.isProgramRoot = false →
        let v : Vote := { rank := r, step := s.prog.step, frame := s.prog.lastFrame, fault := true, failed := [] }
        let t := ({ s with cad := { s.cad with votes := mergeVote v s.cad.votes },
                           fab := { s.fab with lost := s.fab.lost ++ [r] } } : State).fault 0x14 noCore
        (t.recoverable node = false → s.loseMember r = t.endProgram 0x020A r.toNat none)
        ∧ (t.recoverable node = true → (s.loseMember r).prog = t.prog ∧ (s.loseMember r).cad.hold = true
            ∧ (s.loseMember r).fab.recover = s.fab.recover.erase r ++ [r] ∧ (s.loseMember r).fab.cover = false)))

/-- Scrub, patrol scrub, repair and guard tests (R223 to R246, R359). -/
def Obligations.ScrubAndRepair : Prop :=
  (∀ (i : SiteId) (m : CoreMem) (a : Nat) (found : EccFind) (s : State),
    let w := a / eccWord m * eccWord m
    let ms := s.marksAt i
    let other := ms.filter fun x => !(x.mem == m && x.word == w)
    let f := ((ms.find? fun x => x.mem == m && x.word == w).map (·.find)).getD found
    let core := (s.coreAt i).elim 0xFF (·.val)
    let step := (s.coreAt i).elim s.prog.step s.stepOf
    let runs := s.pwr.main = true ∧ (s.site i).deepSleep = false ∧ (s.site i).role ≠ .retired ∧ s.clk.lost = false
      ∧ s.clk.returning = false ∧ a < coreMemSize m
    (¬ runs → exec (.scrubAccess i m a found) s = .next s)
    ∧ (runs → f = .clean → exec (.scrubAccess i m a found) s = .next s)
    ∧ (∀ b, runs → f = .corrected b → exec (.scrubAccess i m a found) s
        = .next ((s.setMarks i other).countCe i m (eccRecord core i.val m false 6 b.toNat w step s.stamp)))
    ∧ (runs → f = .uncorrectable → ∃ t, exec (.scrubAccess i m a found) s = .next t
        ∧ (t.site i).ue = satInc32 (s.site i).ue ∧ t.prog = s.prog
        ∧ (∀ d, s.coreAt i ≠ some d → t.core d = s.core d) ∧ (∀ j, j ≠ i → t.site j = s.site j)
        ∧ (∃ x ∈ t.marksAt i, x.mem = m ∧ x.word = w)
        ∧ ∀ m' x, ¬ (m' = m ∧ w ≤ x ∧ x < w + eccWord m) →
            (∀ c, s.coreAt i = some c → Mem.get zeroByte ((t.core c).mem m') x = Mem.get zeroByte ((s.core c).mem m') x)
            ∧ (s.coreAt i = none → Mem.get zeroByte ((t.site i).mem m') x = Mem.get zeroByte ((s.site i).mem m') x)))
  ∧ (∀ (k : StackId) (bank row : Nat) (s : State), s.pwr.main = true → (s.stack k).state = .service → (s.stack k).selfRefresh = false →
    let h := ((s.stack k).rows.find? (sameRow bank row)).getD { bank := bank, row := row, passes := 0, candidate := false, withdrawn := false }
    (exec (.dramPatrolScrub k bank row .clean) s = .next (s.modStack k fun x =>
        { x with rows := x.rows.map fun r => if sameRow bank row r then { r with passes := 0 } else r }))
    ∧ (∀ b, ∃ t, exec (.dramPatrolScrub k bank row (.corrected b)) s = .next t ∧ (t.stack k).ce = satInc32 (s.stack k).ce
        ∧ (t.stack k).rows.find? (sameRow bank row) = some { h with
            passes := h.passes + 1, candidate := !h.withdrawn && (h.candidate || decide (2 ≤ h.passes)) })
    ∧ ∃ t u, exec (.dramPatrolScrub k bank row .uncorrectable) s = .next t ∧ u ∈ t.poison ∧ (t.stack k).ue = satInc32 (s.stack k).ue
        ∧ (∀ j, j ≠ k → t.stack j = s.stack j) ∧ t.dram = s.dram)
  ∧ (∀ (k : StackId) (s : State),
    let x := s.stack k
    let low := x.sparesLeft.toNat ≤ 64 ∧ x.lowRaised = false
    (x.rows.find? (·.candidate) = none ∨ s.pwr.main = false ∨ x.state ≠ .service ∨ x.selfRefresh = true →
      exec (.softRepair k) s = .next s)
    ∧ (∀ r, x.rows.find? (·.candidate) = some r → s.pwr.main = true → x.state = .service → x.selfRefresh = false →
      (x.used r.bank < 4 →
        let t := (((s.modStack k fun x => { x with
            sparesUsed := (r.bank, x.used r.bank + 1) :: x.sparesUsed.filter (·.1 ≠ r.bank), sparesLeft := x.sparesLeft - 1,
            softPending := x.softPending + 1, rows := x.rows.filter fun y => !sameRow r.bank r.row y,
            lowRaised := x.lowRaised || decide low }).modMc fun m =>
              { m with softRepairs := m.softRepairs ++ [(k, r.bank, r.row)] }).raiseDev 0x0402 [])
        exec (.softRepair k) s = .next (if low then t.raiseDev 0x0404 [] else t))
      ∧ (4 ≤ x.used r.bank → ∀ f, frameOfRow r.bank r.row = some f →
        let rows := modRow r.bank r.row (fun y => { y with candidate := false, withdrawn := true }) x.rows
        (f ∉ x.withdrawn → exec (.softRepair k) s = .next ((s.modStack k fun x =>
            { x with badFrames := x.badFrames + 1, withdrawn := f :: x.withdrawn, rows := rows }).raiseDev 0x0403 []))
        ∧ (f ∈ x.withdrawn → exec (.softRepair k) s = .next (s.modStack k fun x => { x with rows := rows })))))
  ∧ (∀ (i : SiteId) (s : State), s.pwr.main = true →
    let x := s.site i
    let due := x.role = .guard ∧ (x.testOk = false ∨ x.ceFlag = true ∨ x.testedAt + 360000000000 ≤ s.now)
    (due → exec (.guardTestStart i) s = .next (s.modSite i fun x =>
        { (if x.deepSleep then x.cleared else x) with role := .underTest, deepSleep := false }).showRoles)
    ∧ (¬ due → exec (.guardTestStart i) s = .next s)
    ∧ (x.role = .underTest →
      exec (.guardTestDone i none) s = .next (s.modSite i fun x =>
        { x.cleared with role := .guard, testOk := true, ceFlag := false, testedAt := s.now, served := 0, deepSleep := true }).showRoles
      ∧ ∀ p, exec (.guardTestDone i (some p)) s = .next ((s.modSite i fun x =>
        { x with role := .retired, testOk := false, cause := 7, testedAt := s.now }).showRoles.raiseDev 0x041B [item i.val, item p]))
    ∧ (x.role ≠ .underTest → ∀ p, exec (.guardTestDone i p) s = .next s))

/-- Mirrors, cover mode, survey, stack loss (R229 to R242, R296 to R305). The transfers of records, recovery messages and restores are the
model's readings where log entries 36 to 39 say so. -/
def Obligations.MirrorsAndRecovery : Prop :=
  ∀ (s : State),
    (∀ (n : BitVec 16) (st : W64) (q : W32) (pages : List (Nat × List Byte)), s.pwr.main = true → s.fab.store.isSome = true →
      let record := fun (p : Protected) => let x := applyPages p.record pages
        x.take (rdAt x 24 8)
      let take := fun (p : Protected) => if recordWhole (record p) then { p with recordStep := st, record := record p, arriving := [] }
        else { p with arriving := record p }
      let t := { s with fab := { s.fab with
        protects := s.fab.protects.map fun p => if p.node = n then (if p.continuous then take p else p) else p } }
      ((∃ p ∈ s.fab.protects, p.node = n ∧ p.continuous = true ∧ recordWhole (record p) = true) →
          exec (.continuousRecord n st q pages) s = .next (t.sendAs n q false .ack))
      ∧ ((∃ p ∈ s.fab.protects, p.node = n ∧ p.continuous = true) →
          (∀ p ∈ s.fab.protects, p.node = n → p.continuous = true → recordWhole (record p) = false ∧ record p ≠ []) →
          exec (.continuousRecord n st q pages) s = .next t)
      ∧ ((∀ p ∈ s.fab.protects, p.node = n → p.continuous = false) → exec (.continuousRecord n st q pages) s = .next s))
    ∧ (s.fab.store = none → ∀ n st q pages, exec (.continuousRecord n st q pages) s = .next s)
    ∧ (∀ (i : Fin 64) img k n, s.prog.active = some img → s.prog.shipping.find? (fun x => x.1 = i.val) = some (k, n) →
      ((∃ o ∈ s.fab.outstanding, o.body.shipment = some (k, n)) → exec (.checkpointComplete i) s = .next s)
      ∧ ((∀ o ∈ s.fab.outstanding, o.body.shipment ≠ some (k, n)) → exec (.checkpointComplete i) s = .next (((
        { s with prog := { s.prog with shipping := s.prog.shipping.filter (·.1 ≠ k),
                                       shipped := (k, n) :: s.prog.shipped.filter (·.1 ≠ k) } } :
          State).raiseStep 0x030D noCore (item k :: item2 n.toNat)).checkpointAtPartner img)))
    ∧ (∀ (i : Fin 64), s.prog.shipping.find? (fun x => x.1 = i.val) = none → exec (.checkpointComplete i) s = .next s)
    ∧ (s.fab.coverFrom = none → exec .coverBegin s = .next s)
    ∧ (∀ img st last, s.domainProgram = some img → s.fab.coverFrom = some (st, last) → exec .coverBegin s
        = .next (if s.cad.hold = true ∧ s.restoring = true
            then ({ s with fab := { s.fab with coverFrom := none } } : State).beginCover img st else s))
    ∧ (∀ img p gens x st last, s.fab.coverFrom = some (st, last) → s.prog.active = none → s.prog.staged = some img → 1 < img.bounds.devices →
      s.fab.protects.find? (fun p => p.cover = 1) = some p → s.wholeSets img p.gens st = some gens → p.states.find? (fun x => x.1 = st) = some x →
      let k := Continuous.ofRecord x.2
      ∃ t, exec .coverBegin s = .next t ∧ t.fab.cover = true ∧ t.fab.covering = [img.bounds.rank] ∧ t.prog.active = some img
        ∧ t.prog.step = k.step + 1 ∧ t.prog.replayTo = if k.step.toNat < last.toNat then some last else none)
    ∧ (∀ img r, s.domainProgram = some img → s.fab.cover = true → r ∈ s.fab.recover → s.prog.recovering = false →
      exec (.coverEnd r) s = .next (
        if r ∈ s.fab.covering then
          if img.bounds.rank = r then (s.raise 0x0314 noCore [item r.toNat, item s.fab.nodeId.toNat]).dropRank img r
          else (s.dropRank img r).rankBack img r
        else s.rankBack img r))
    ∧ (∀ img r gens record, s.domainProgram = some img → s.prog.recovering = true → img.bounds.rank = r →
      s.shipped? img = some (gens, record) → exec (.coverEnd r) s = .next (s.takeBack img gens record))
    ∧ (∀ h img r gens record, s.fab.seeding = some h → s.prog.staged = some img → s.prog.active = none → img.bounds.rank = r →
      s.shipped? img = some (gens, record) → s.cad.aligned = true → s.badLink img (s.peerNodes img) = none → s.canTrim img = true →
      let old := ((s.advertisers img.bounds.programId r.toNat).find? (· ≠ s.fab.nodeId.toNat)).getD 0xFFFF
      let t := ((s.adoptRank img gens record).enterHold).raise 0x0314 noCore [item r.toNat, item old]
      exec (.coverEnd r) s = .next ((t.modFab fun f => { f with seeding := none, seedSets := [], seedState := none }).complete h 0 0
        t.prog.step.toNat))
    ∧ (∀ m : Measures, s.pwr.main = true → s.host.surveyRunning = true → s.clk.lost = false →
      let a := s.takeMeasures m
      let b := { a with surveySeq := a.surveySeq + 1 }
      let c := { b with surveyRec := b.surveyBytes m, host := { b.host with surveyRunning := false, surveyWaiting := [] } }
      let d : State := s.host.surveyWaiting.foldl (fun (s : State) h => s.answerSurvey m.hostErrorAt h) c
      (s.pwr.step = 6 → exec (.surveyComplete m) s = .next (let e := d.applyRepairs; { e with pwr := { e.pwr with step := 7, surveyed := true } }))
      ∧ (s.pwr.step ≠ 6 → exec (.surveyComplete m) s = .next (match d.prog.active with
          | some img => d.compareBounds img
          | none => d)))
    ∧ (s.host.surveyRunning = false → ∀ m, exec (.surveyComplete m) s = .next s)
    ∧ (∀ k cause, exec (.stackLost k cause) s = .next (
        if s.pwr.main = true ∧ (s.stack k).state = .service ∧ (cause = .uncorrectableRows → 16 ≤ (s.stack k).ueCount s.now)
        then s.loseStack k else s))
    ∧ (∀ k img, s.prog.active = none → s.prog.staged = some img → img.bounds.memReserve = true → s.prog.relocated = none →
      (s.loseStack k).prog.relocated = some k)
    ∧ (∀ k, s.prog.active = none → s.prog.relocated = none →
      (s.loseStack k).dramEpoch = s.dramEpoch.set k.val (s.dramEpoch[k] + 1) ∧ ((s.loseStack k).stack k).state = .lost
      ∧ ∀ a, a / unitBytes % 20 ≠ k.val →
        Mem.get (dramByte (s.loseStack k).dramEpoch) (s.loseStack k).dram a = Mem.get (dramByte s.dramEpoch) s.dram a)
    ∧ (∀ img k, s.prog.active = some img → s.prog.kept = some k → s.prog.recovering = true → s.replaying = false → s.prog.awaiting = [] →
      (img.bounds.devices ≤ 1 → exec .recoveryReplayDone s = .next ({ s with
        prog := { s.prog with recovering := false, replayTo := none } }.raiseStep 0x030C noCore
          (item 0x16 :: item 0xFF :: (item2 k.step.toNat ++ item2 (s.prog.replayTo.getD k.step).toNat))))
      ∧ (∀ n, 1 < img.bounds.devices → leastOf (s.otherMembers.map (·.toNat)) = some n → exec .recoveryReplayDone s
        = .next (s.sendDyn (BitVec.ofNat 16 n) .device (.rejoin img.bounds.rank s.fab.nodeId))))
    ∧ (s.prog.recovering = false ∨ s.replaying = true ∨ s.prog.awaiting ≠ [] → exec .recoveryReplayDone s = .next s)
    ∧ (∀ h img, s.prog.activating = some h → s.prog.staged = some img → s.prog.peerWaitEnd ≤ s.now →
      (∀ st d r, s.admission img false = .refused st d r → exec .peerWaitExpiry s
        = .next ((s.complete h st d r).modProg fun p => { p with activating := none }))
      ∧ ((∀ st d r, s.admission img false ≠ .refused st d r) → exec .peerWaitExpiry s = .next s.tryActivate))
    ∧ (s.prog.activating = none ∨ s.now < s.prog.peerWaitEnd → exec .peerWaitExpiry s = .next s)

/-- The management controller (R329 to R358, R377, R378). That the second MARCH_BLOCK_TEST of a block is the end of its test is the model's
choice (log entry 40); the triggers present at an MC restart are a free value (log entry 54). -/
def Obligations.ControllersAndLimits : Prop :=
  ∀ (s : State),
    exec .binderWatchdog s = .next (if s.pwr.main = true ∧ s.binderRuns = true then
      { s with host := { s.host with binderUp := false, header := BitVec.ofNat 256 s.binderFields } } else s)
    ∧ (let down := s.pwr.main = true ∧ s.host.binderUp = false ∧ 8 ≤ s.pwr.step ∧ s.clk.lost = false
       let t := { s with host := { s.host with binderUp := true, binderRestarts := s.host.binderRestarts + 1 } }
       (down → exec .binderRestarted s = .next (t.raiseDev 0x0415 [s.host.binderRestarts + 1]).binderInService)
       ∧ (¬ down → exec .binderRestarted s = .next s))
    ∧ exec .mcWatchdog s = .next (if s.mcRuns then { s with mc := { s.mc with up := false, secretClosed := false, restartCause := 1 } } else s)
    ∧ exec .mcRestart s = .next (if s.standbyClocks = true ∧ s.mc.up = false ∧ s.mc.restartCause ≠ 0 then
        s.bump.mcStart s.mc.restartCause.toNat s.triggersNow else s)
    ∧ (∀ g i x lim (r : Reading), s.mc.sensor? g i = some x → s.monitors = true → warnLimit g = some lim →
      let y := { x with value := r.value, mean := r.mean, fails := 0 }
      (lim < r.value → x.warned = false → exec (.sensorRead g i (some r)) s = .next (
        (s.modMc fun m => m.setSensor g i { y with warned := true }).raiseDev 0x0419 [item (groupFigure g), item i, itemI r.value]))
      ∧ (r.value ≤ lim ∨ x.warned = true → exec (.sensorRead g i (some r)) s = .next (
        s.modMc fun m => m.setSensor g i { y with warned := x.warned && decide (lim - 50 < r.value) })))
    ∧ (∀ (i : Fin 22) (r : Reading), s.monitors = true →
      let rail := railOf i.val
      let kept : Sensor := { value := r.value, mean := r.mean, fails := 0, warned := true }
      (3 * (rail.nominal : Int) < 100 * |r.value - rail.nominal| → s.pwr.main = true ∨ 20 ≤ i.val → s.mc.rails[i].warned = false →
          exec (.sensorRead .rail i.val (some r)) s = .next ((s.modMc fun m => { m with rails := m.rails.set i kept }).raiseDev 0x0422
            [item i.val, itemI r.value, itemI s.mc.railsCurrent[i].value]))
      ∧ (95 * (rail.maxCurrent : Int) < 100 * r.value → s.mc.railsCurrent[i].warned = false →
          exec (.sensorRead .railCurrent i.val (some r)) s = .next ((s.modMc fun m =>
            { m with railsCurrent := m.railsCurrent.set i kept }).raiseDev 0x0422
            [item i.val, itemI s.mc.rails[i].value, itemI r.value])))
    ∧ (∀ g i x, s.mc.sensor? g i = some x → s.monitors = true →
      (x.fails < 2 → exec (.sensorRead g i none) s = .next (s.modMc fun m => m.setSensor g i { x with fails := x.fails + 1 }))
      ∧ (3 ≤ x.fails → exec (.sensorRead g i none) s = .next s)
      ∧ (let t := (s.modMc fun m => m.setSensor g i { x with fails := 3, value := -32768 }).raiseDev 0x041F [item (groupFigure g), item i]
         x.fails = 2 → exec (.sensorRead g i none) s = .next (
          if g = .die ∧ i < 64 ∧ 5 ≤ t.mc.failedOnTile (i / 16) then t.shutdown (groupFigure g) i (-32768) else t))
      ∧ ∀ r : Reading, ∃ t y, exec (.sensorRead g i (some r)) s = .next t ∧ t.mc.sensor? g i = some y
          ∧ y.value = r.value ∧ y.mean = r.mean ∧ y.fails = 0)
    ∧ (s.mcRuns = true → exec .sensorPageRefresh s = .next { s with mc := { s.mc with page := s.sensorPage } })
    ∧ (∀ g i x lim (r : Reading), tripLimit g = some lim → s.mc.sensor? g i = some x → s.pwr.main = true → x.fails < 3 →
      (r.value ≤ lim → exec (.thresholdTrip g i r) s = .next s)
      ∧ (lim < r.value → g ≠ .stack → exec (.thresholdTrip g i r) s = .next (s.logTrip (groupFigure g) i r.value).mainOff)
      ∧ (∀ k : StackId, lim < r.value → g = .stack → i = k.val → (s.stack k).state = .service →
          exec (.thresholdTrip g i r) s = .next ((s.logTrip (groupFigure g) i r.value).loseStack k)))
    ∧ (s.pwr.main = true → ∀ trip, ∃ g i v, exec (.railShutdown trip) s = .next (s.logTrip (groupFigure g) i v).mainOff ∧ (g = .rail ∨ g = .railCurrent ∨ g = .inputPower))
    ∧ (s.pwr.main = false → (∀ trip, (∀ r, trip ≠ .voltage r) → exec (.railShutdown trip) s = .next s)
      ∧ ∀ r : Fin 22, let t := s.logTrip (groupFigure .rail) r.val s.mc.rails[r].value
          exec (.railShutdown (.voltage r)) s = .next (
            if s.pwr.step = 3 ∧ r.val ≠ 20 ∧ r.val ≠ 21 then { t with pwr := { t.pwr with needMainOn := true } } else s))
    ∧ (∀ (r : Fin 23) p, s.pwr.standby = true → s.pwr.main = true → p < (railOf r.val).fitted → (r, p) ∉ s.pwr.shed →
      let t := { s with pwr := { s.pwr with shed := (r, p) :: s.pwr.shed } }
      let n := t.pwr.phasesOk r.val
      let u := t.raiseDev 0x0423 [item r.val, item p, item n]
      ((railOf r.val).needed < n → exec (.phaseShed r p) s = .next u)
      ∧ (n = (railOf r.val).needed → exec (.phaseShed r p) s = .next (u.raiseDev 0x0424 [item r.val, item n]))
      ∧ (n < (railOf r.val).needed → exec (.phaseShed r p) s = .next (
          if r.val = 20 ∨ r.val = 21 then u.allOff else (u.logTrip (groupFigure .rail) r.val n).mainOff)))
    ∧ (∀ (c : Fin 6) n, exec (.tamperTrigger c n) s = .next (if (s.standbyClocks = true ∨ (s.pwr.standby = true ∧ s.clk.lost = true ∧ s.now ≤ s.clk.lostAt + 10000)) ∧ c.val < 4
        then s.wipe c n else s))
    ∧ (∀ c n, (s.wipe c n).mc.key = none ∧ (s.wipe c n).mc.tamperCause = s.mc.tamperCause ||| BitVec.ofNat 6 (2 ^ c.val)
        ∧ (4 ≤ n → (s.wipe c n).mc.portClosed = true))
    ∧ (s.mcRuns = true → s.host.gate .mcFlash = .opened → s.mc.logBuf ≠ [] →
      let t := { s with mc := { s.mc.logBuf.foldl Mc.writeLog s.mc with logBuf := [], logDropped := 0 } }
      exec .logFlush s = .next (if s.mc.logDropped = 0 then t else t.log 0x050B [item s.mc.logDropped]))
    ∧ (s.mcRuns = false ∨ s.host.gate .mcFlash ≠ .opened ∨ s.mc.logBuf = [] → exec .logFlush s = .next s)
    ∧ (∀ b ok, s.mcRuns = true → s.host.gate .mcTest = .opened →
      let may := s.mc.tested b = true ∧ b ∉ s.mc.excluded ∧ (∀ t, s.mc.borrowedAt = some t → t + 100000 ≤ s.now)
      (s.mc.borrowed = none →
        (may → exec (.marchBlockTest b ok) s = .next { s with mc := { s.mc with
          borrowed := some (b, (List.range 256).map fun i => s.sramByte (256 * b + i)), borrowedAt := some s.now } })
        ∧ (¬ may → exec (.marchBlockTest b ok) s = .next s))
      ∧ (∀ save, s.mc.borrowed = some (b, save) → exec (.marchBlockTest b ok) s = .next (
          if ok then { s with mc := s.mc.giveBack }
          else ({ s with mc := { s.mc.giveBack with excluded := b :: s.mc.excluded } } : State).raiseDev 0x0420
            [item (256 * b), item (Config.figure 5 0)]))
      ∧ (∀ d save, s.mc.borrowed = some (d, save) → d ≠ b → exec (.marchBlockTest b ok) s = .next s))
    ∧ (∀ a, (∀ save, s.mcRuns = true → s.mc.borrowed = some (a / 256, save) →
          exec (.borrowedBlockAccess a) s = .next { s with mc := s.mc.giveBack })
      ∧ (s.mcRuns = false ∨ (∀ save, s.mc.borrowed ≠ some (a / 256, save)) → exec (.borrowedBlockAccess a) s = .next s))
    ∧ (∀ b a, s.mc.borrowed = none → ({ s with mc := (s.borrow b).mc.giveBack } : State).sramByte a = s.sramByte a)
    ∧ (∀ (m : Mc) e, (m.writeLog e).flashLog.head? = some { e with crc := BitVec.ofNat 32 (crc32 e.body) })

/-- The sideband (R283, R331, R340 to R347, R354, R355, R380). The codes of SPDM, PLDM and MCTP are PRESUMED of the documents that the spec
names (log entry 8); the refusal of PROFILE_WRITE under a closed gate of the flash is the model's (log entry 54). -/
def Obligations.SidebandMessages : Prop :=
  ∀ (s : State),
    (s.sideband = false → (∀ d h i, exec (.shelfRecord d h i) s = .next s) ∧ (∀ u, exec (.setUtc u) s = .next s)
      ∧ exec .mainOn s = .next s ∧ (∀ n, exec (.lcNonce n) s = .next s) ∧ (∀ r f, exec (.lcRequest r f) s = .next s)
      ∧ (∀ r, exec (.keyRevoke r) s = .next s) ∧ (∀ n, exec (.svnCommit n) s = .next s) ∧ (∀ p b, exec (.profileWrite p b) s = .next s)
      ∧ exec .getVersion s = .next s ∧ exec .getCapabilities s = .next s ∧ (∀ a b, exec (.negotiateAlgorithms a b) s = .next s)
      ∧ exec .getDigests s = .next s ∧ (∀ o n, exec (.getCertificate o n) s = .next s) ∧ (∀ n, exec (.challenge n) s = .next s)
      ∧ (∀ i b n, exec (.getMeasurements i b n) s = .next s))
    ∧ (s.sidebandUp = false → (∀ c, exec (.mctpControl c) s = .next s) ∧ ∀ a i, exec (.pldmMonitoring a i) s = .next s)
    ∧ (s.sidebandUp = true →
      (∀ c, exec (.mctpControl (.control c)) s = .next (s.answer (.mctp c)))
      ∧ (∀ e, exec (.mctpControl (.setEndpoint e)) s = .next { s with mc := { s.mc with eid := e, answer := some (.mctp 1) } })
      ∧ (∀ a, exec (.mctpControl (.assignAddress a)) s = .next { s with mc := { s.mc with i3cAddress := a } })
      ∧ (∀ c i, exec (.pldmMonitoring (.base c) i) s = .next (s.answer (.base c s.pldmTypes)))
      ∧ (s.monitors = true →
        (∀ g i x, s.mc.sensor? g i = some x → exec (.pldmMonitoring (.sensor g) i) s = .next (s.answer (.reading x.value)))
        ∧ (∀ i, exec (.pldmMonitoring .phasesOk i) s = .next (s.answer (.reading (s.pwr.phasesOk i)))
          ∧ exec (.pldmMonitoring .phasesFitted i) s = .next (s.answer (.reading (railOf i).fitted))))
      ∧ (s.monitors = false → ∀ a i, (∀ c, a ≠ .base c) → exec (.pldmMonitoring a i) s = .next s))
    ∧ (s.pldmTypes = 0 :: ((if s.monitors then [2] else []) ++ if s.mc.lifeCycle = .decommissioned then [] else [5]))
    ∧ (s.sideband = true →
      (∀ (d h : Byte) (i : BitVec 4), let t := s.accept 1
        let id : BitVec 16 := BitVec.ofNat 16 (1024 * d.toNat + 16 * h.toNat + i.toNat)
        (63 ≤ d.toNat ∨ 64 ≤ h.toNat → exec (.shelfRecord d h i) s = .next t)
        ∧ (d.toNat < 63 → h.toNat < 64 → s.fab.nodeId = id → s.fab.idSource = 0 →
            exec (.shelfRecord d h i) s = .next { t with fab := { t.fab with shelfWaiting := none } })
        ∧ (d.toNat < 63 → h.toNat < 64 → ¬ (s.fab.nodeId = id ∧ s.fab.idSource = 0) →
          let w := { t with fab := { t.fab with shelfWaiting := some id } }
          exec (.shelfRecord d h i) s = .next (if s.prog.active = none ∧ s.prog.staged = none
            then ({ w with fab := { w.fab with shelfWaiting := none } } : State).takeId id 0 else w)))
      ∧ (∀ u, let t := { s with mc := { s.mc with utc := u, utcValid := true } }
          exec (.setUtc u) s = .next ((if s.mc.utcValid then t.log 0x050C (item2 s.mc.utc.toNat ++ item2 u.toNat) else t).accept 2))
      ∧ exec .mainOn s = .next (
          if s.pwr.main = true ∨ s.pwr.needMainOn = false then s.accept 3
          else if s.shutdownRemains then s.refuse 3 0
          else { s with pwr := { s.pwr with needMainOn := false, breaker := false } }.chooseProfile.tryStep3.accept 3)
      ∧ (∀ n, exec (.lcNonce n) s = .next ({ s with mc := { s.mc with nonce := some (n, s.now) } }.answer (.nonce n)))
      ∧ (∀ r f, let t := { s with mc := { s.mc with nonce := none } }
        let no := s.mc.laterState r.target.toNat = false ∨ (s.mc.lifeCycle = .manufacture ∧ r.target = 1 ∧ s.mc.blank = true)
        let bits := (List.range 4).filter fun i => bitOf r.target.toNat i && !bitOf (s.mc.fuse 0 4) i
        let u := (t.wipeSelf 4).blow 0 bits f
        (∀ b, s.signedBad r = some b → exec (.lcRequest r f) s = .next (t.refuse 5 b))
        ∧ (s.signedBad r = none → no → exec (.lcRequest r f) s = .next (t.refuse 5 6))
        ∧ (s.signedBad r = none → ¬ no → exec (.lcRequest r f) s = .next (((u.log 0x0504
            [item (s.mc.fuse 0 4), item (u.mc.fuse 0 4), item r.keyIndex.toNat]).accept 5).mcDown 4)))
      ∧ (∀ r, let t := { s with mc := { s.mc with nonce := none } }
        let k := r.signed.target.toNat
        let no := 3 ≤ k ∨ s.mc.revoked k = true ∨ r.signed.keyIndex.toNat = k ∨ (∀ j < 3, j = k ∨ s.mc.revoked j = true)
          ∨ ∃ p ∈ s.mc.images, mfKey p.2.manifest.toNat = k
        (∀ b, s.signedBad r.signed = some b → exec (.keyRevoke r) s = .next (t.refuse 6 b))
        ∧ (s.signedBad r.signed = none → no → exec (.keyRevoke r) s = .next (t.refuse 6 7))
        ∧ (s.signedBad r.signed = none → ¬ no → exec (.keyRevoke r) s = .next (((((t.wipeSelf 4).blow 3 [8 + k] r.blowFails).log 0x0504
            [item (s.mc.fuse 0 4), item (s.mc.fuse 0 4), item r.signed.keyIndex.toNat]).accept 6).mcDown 4)))
      ∧ (∀ (r : SvnRequest), let n := r.count
          let no := n = 0 ∨ 128 < n ∨ n ≤ s.mc.rollback ∨ ∃ p ∈ s.mc.images, mfSvn p.2.manifest.toNat < n
          (no → exec (.svnCommit r) s = .next (s.refuse 7 8))
          ∧ (¬ no → exec (.svnCommit r) s = .next ((s.blow 4 ((List.range n).map (16 + ·)) r.blowFails).accept 7)))
      ∧ (∀ (p : Byte) (b : BitVec 128), (4 ≤ p.toNat ∨ clockPartOk b.toNat = false → exec (.profileWrite p b) s = .next (s.refuse 8 9))
        ∧ (∀ h : p.toNat < 4, clockPartOk b.toNat = true →
            exec (.profileWrite p b) s = .next (if s.profileLock then s.answer (.result 8 1)
              else if s.host.gate .mcFlash ≠ .opened then s.refuse 8 10
              else (s.writeProfile ⟨p.toNat, h⟩ 128 128 b.toNat).accept 8)))
      ∧ exec .getVersion s = .next ({ s with mc := { s.mc with spdm := 1 } }.answer .version)
      ∧ exec .getCapabilities s = .next (if 1 ≤ s.mc.spdm then { s with mc := { s.mc with spdm := 2 } }.answer .capabilities
          else s.answer (.spdmError 0x04))
      ∧ (∀ a b, exec (.negotiateAlgorithms a b) s = .next (if 2 ≤ s.mc.spdm then
          { s with mc := { s.mc with spdm := if a && b then 3 else 2 } }.answer (.algorithms (a && b)) else s.answer (.spdmError 0x04)))
      ∧ (3 ≤ s.mc.spdm →
        exec .getDigests s = .next (s.answer (.digests (if s.mc.lifeCycle = .manufacture then [] else [Config.sha384 s.mc.certChain])))
        ∧ (∀ o n, exec (.getCertificate o n) s = .next (s.answer (if s.mc.lifeCycle = .manufacture then .spdmError 0x01
            else .certificate ((s.mc.certChain.drop o).take n))))
        ∧ (∀ n, exec (.challenge n) s = .next (match s.mc.signer with
            | some k => (s.answer (.signature (s.sign k))).bump
            | none => s.answer (.spdmError 0x05)))
        ∧ (∀ (i : Byte) n, 1 ≤ i.toNat → i.toNat ≤ 8 →
          exec (.getMeasurements i false n) s = .next (s.answer (.measurement [s.measurement i.toNat] none)).bump
          ∧ exec (.getMeasurements i true n) s = .next (match s.mc.signer with
            | some k => (s.answer (.measurement [s.measurement i.toNat] (some (s.sign k)))).bump
            | none => s.answer (.spdmError 0x05)))
        ∧ (let all := (List.range 8).map fun j => s.measurement (j + 1)
           ∀ n, exec (.getMeasurements 0xFF false n) s = .next (s.answer (.measurement all none)).bump
            ∧ ∀ k, s.mc.signer = some k →
              exec (.getMeasurements 0xFF true n) s = .next (s.answer (.measurement all (some (s.sign k)))).bump)
        ∧ (∀ i b n, i = 0 ∨ (8 < i.toNat ∧ i ≠ 0xFF) → exec (.getMeasurements i b n) s = .next (s.answer (.spdmError 0x01))))
      ∧ (s.mc.spdm < 3 → exec .getDigests s = .next (s.answer (.spdmError 0x04)) ∧ (∀ o n, exec (.getCertificate o n) s = .next (s.answer (.spdmError 0x04)))
        ∧ (∀ n, exec (.challenge n) s = .next (s.answer (.spdmError 0x04)))
        ∧ ∀ i b n, exec (.getMeasurements i b n) s = .next (s.answer (.spdmError 0x04))))

/-- Updates and recovery (R348 to R353). The PLDM codes are PRESUMED of DSP0267 (log entry 8); which data a FIRMWARE_DATA carries and when a
pending image enters service are the model's readings (log entry 55). -/
def Obligations.FirmwareUpdates : Prop :=
  ∀ (s : State), s.updates = true →
    let m := s.mc
    let to' := fun (p : UpdatePhase) (m : Mc) =>
      { s with mc := { m with phase := p, answer := some (.pldm (BitVec.ofNat 8 (pldmCode p)) 0) } }
    (∀ a, (m.phase = .idle → exec (.requestUpdate a) s = .next (to' .requested { m with agent := a, component := none, staging := [], chunk := 0 }))
      ∧ (m.phase ≠ .idle → exec (.requestUpdate a) s = .next (s.answer (.pldm 0x10 0x81))))
    ∧ (∀ cs, (m.phase = .requested → cs ≠ [] → exec (.passComponentTable cs) s = .next (to' .table m))
      ∧ (m.phase ≠ .requested ∨ cs = [] → exec (.passComponentTable cs) s = .next s))
    ∧ (∀ c, let ok := (m.phase = .table ∨ m.phase = .applied) ∧ (m.recovery = true → c = .mc)
        (ok → exec (.updateComponent c) s = .next { s with mc := { m with
          component := some c, staging := [], chunk := 0, phase := .sweep1, answer := some (.pldm 0x14 0) } })
        ∧ (¬ ok → exec (.updateComponent c) s = .next s))
    ∧ (∀ c bytes, m.component = some c → m.phase = .sweep1 → m.staging = [] →
      let t := { m with staging := bytes }
      let ds := t.stagedDigests
      (bytes.length ≠ 512 + 48 * ds.length → exec (.firmwareData bytes) s = .next (s.stopDownload 0x90))
      ∧ (bytes.length = 512 + 48 * ds.length →
        (∀ x, m.checkManifest c t.stagedManifest ds = some x → exec (.firmwareData bytes) s = .next (s.stopDownload x))
        ∧ (m.checkManifest c t.stagedManifest ds = none → exec (.firmwareData bytes) s = .next { s with mc :=
            if ds = [] then { t.writeChunk c [] with phase := .sweep2, chunk := 0 } else t })))
    ∧ (∀ c bytes, m.component = some c → m.phase = .sweep1 → m.staging ≠ [] →
      (m.goodChunk bytes = false → exec (.firmwareData bytes) s = .next (s.stopDownload 0x95))
      ∧ (m.goodChunk bytes = true → exec (.firmwareData bytes) s = .next { s with mc :=
          if m.chunk + 1 = m.stagedDigests.length then { m with phase := .sweep2, chunk := 0 } else { m with chunk := m.chunk + 1 } }))
    ∧ (∀ c bytes, m.component = some c → m.phase = .sweep2 → m.chunk < m.stagedDigests.length → s.host.gate .mcFlash = .opened →
      (m.goodChunk bytes = false → exec (.firmwareData bytes) s = .next (s.stopDownload 0x95))
      ∧ (m.goodChunk bytes = true → let u := { s with mc := m.writeChunk c bytes }
          exec (.firmwareData bytes) s = .next (
            if m.viaFabric = true ∧ m.chunk + 1 = m.stagedDigests.length then u.fabricImage c else u)))
    ∧ (∀ x, (s.stopDownload x).mc.images = m.images ∧ (s.stopDownload x).mc.staging = []
        ∧ (m.viaFabric = false → (s.stopDownload x).mc.phase = .table ∧ (s.stopDownload x).mc.component = none))
    ∧ (m.phase = .sweep2 → m.chunk = m.stagedDigests.length → m.viaFabric = false →
        exec .transferComplete s = .next (to' .transferred m))
    ∧ (m.phase ≠ .sweep2 → exec .transferComplete s = .next s)
    ∧ (∀ c f, m.component = some c → m.phase = .transferred → imageOf m.images c = some f →
      (m.verify c f = none → exec .verifyComplete s = .next { s with mc := { m with phase := .verified, answer := some (.verify 0) } })
      ∧ (∀ x, m.verify c f = some x → exec .verifyComplete s = .next (s.stopDownload x)))
    ∧ (m.phase ≠ .transferred → exec .verifyComplete s = .next s)
    ∧ (∀ c, m.component = some c → m.phase = .verified → exec .applyComplete s = .next (((s.logWritten c false).modMc fun m =>
        { m with written := c :: m.written.filter (· ≠ c), component := none, staging := [], chunk := 0 }).toPhase .applied))
    ∧ (m.phase ≠ .verified → exec .applyComplete s = .next s)
    ∧ (m.phase = .applied →
      let t := ((m.written.foldl State.activateOne s).modMc fun m => { m with written := [] }).toPhase .idle
      exec .activateFirmware s = .next (if Component.mc ∈ m.written then
        { t with mc := { t.mc with up := false, recovery := false, secretClosed := false, restartCause := 3 } } else t))
    ∧ (m.phase ≠ .applied → exec .activateFirmware s = .next s)
    ∧ (∀ old new, m.oldBinder = some old → imageOf m.running .binder = some new → s.host.binderUp = false → s.pwr.main = true →
      exec .fwActivateFailed s = .next (({ s with
        mc := { m with running := putImage m.running .binder old, oldBinder := none },
        host := { s.host with binderUp := true } } : State).raiseDev 0x041D [item 2, item (mfVersion new.manifest.toNat)]))
    ∧ (m.oldBinder = none ∨ s.host.binderUp = true ∨ s.pwr.main = false → exec .fwActivateFailed s = .next s)
    ∧ (∀ c f, imageOf m.images c = some f → (s.activateOne c).mc.pending = m.pending.filter (· ≠ c) ++ [c]
        ∧ (s.activateOne c).mc.images = m.images)
    ∧ (∀ c l, s.imageSource c = some l →
        let offers := fun (j : LaneId) => (s.link j).open = true ∧ m.rollback ≤ Config.offeredSvn (s.link j).partner (compCode c)
        offers l ∧ ∀ j, offers j → (s.link l).partner.toNat ≤ (s.link j).partner.toNat)
    ∧ (∀ c, s.imageSource c = none → ∀ j, ¬ ((s.link j).open = true ∧ m.rollback ≤ Config.offeredSvn (s.link j).partner (compCode c)))
    ∧ exec .fabricRecoveryTimeout s = .next (if s.mcRuns = true ∧ m.viaFabric = true then
        { s with mc := { m with fabricTried := true, phase := .idle, component := none, staging := [], chunk := 0 } } else s)

/-- Power and clocks (R361 to R374, R393 to R395). That the return waits for the PCIe links (log entry 55) and that the triggers present as
the MC leaves reset late are a free value (log entry 54) is the model's reading. -/
def Obligations.PowerAndClocks : Prop :=
  ∀ (s : State),
    let off := fun (t : State) (g i : Nat) (r : Int) => if t.pwr.main then (t.logTrip g i r).mainOff else t
    let bad := off { s with pwr := { s.pwr with inputOk := false } } (groupFigure .inputPower) 0 s.mc.power.value
    exec .standbyOn s = .next (if s.pwr.standby then s else
        { s with pwr := { s.pwr with standby := true }, mc := { s.mc with fuses := s.mc.fuseArray } })
    ∧ exec .standbyOff s = .next (if s.pwr.standby then s.allOff else s)
    ∧ (s.allOff.pwr = Power.reset ∧ s.allOff.mc.up = false ∧ s.allOff.mc.fuseArray = s.mc.fuseArray ∧ s.allOff.mc.images = s.mc.images
        ∧ s.allOff.mc.flashLog = s.mc.flashLog ∧ s.allOff.mc.logNext = s.mc.logNext ∧ s.allOff.mc.logBuf = [])
    ∧ (s.mainOff.pwr.main = false ∧ s.mainOff.pwr.needMainOn = true ∧ s.mainOff.prog.active = none ∧ s.mainOff.host.handles = []
        ∧ s.mainOff.cad.valid = false ∧ s.mainOff.mc.fuses = s.mc.fuses ∧ s.mainOff.mc.fuseArray = s.mc.fuseArray ∧ s.mainOff.mc.logBuf = s.mc.logBuf)
    ∧ exec .mainUndervoltage s = .next (if s.pwr.standby then bad else s)
    ∧ exec .mainOvervoltage s = .next (if s.pwr.standby then bad else s)
    ∧ exec .inputClamp s = .next (if s.pwr.standby then off { s with pwr := { s.pwr with inputOk := false, clamp := true } }
        (groupFigure .inputPower) 0 s.mc.power.value else s)
    ∧ (let t := { s with pwr := { s.pwr with inputOk := true, clamp := false } }
       s.pwr.standby = true → exec .mainStartAllowed s = .next (
        if s.pwr.step = 2 ∧ s.clk.qualified = true then { t with pwr := { t.pwr with step := 3 } } else t))
    ∧ exec .hotSwapSwitchOn s = .next (if s.pwr.standby = true ∧ s.pwr.present = true ∧ s.pwr.inputOk = true ∧ s.pwr.breaker = false then
        { s with pwr := { s.pwr with switchOn := true } } else s)
    ∧ (s.pwr.present = false → exec .moduleExtract s = .next s)
    ∧ (s.pwr.present = true → let t := off (s.log 0x050E [item (if s.pwr.main then 1 else 0)]) (Config.figure 0 7) 0 0
        exec .moduleExtract s = .next { t with pwr := { t.pwr with present := false, needMainOn := true } })
    ∧ (∀ n : Nat, let u := s.logTrip 22 0 n
        let t := if s.pwr.main then u.mainOff else u
        exec (.breakerTrip n) s = .next (if s.pwr.switchOn = true ∧ 560 < n then
          { t with pwr := { t.pwr with switchOn := false, breaker := true, needMainOn := true } } else s))
    ∧ (let t := { s with clk := { s.clk with refPresent := true } }
       let held := s.pwr.present = true ∧ s.mc.up = false ∧ s.mc.recovery = false ∧ s.mc.restartCause = 0
       (s.pwr.standby = false ∨ s.clk.refPresent = true → exec .refclkPresence s = .next s)
       ∧ (s.pwr.standby = true → s.clk.refPresent = false → held → exec .refclkPresence s = .next (t.bump.mcStart 0 s.triggersNow))
       ∧ (s.pwr.standby = true → s.clk.refPresent = false → ¬ held → exec .refclkPresence s = .next t))
    ∧ (s.pwr.standby = true → s.clk.refPresent = true → s.clk.qualified = false →
      (1 < s.clk.windowsLeft → exec .refclkQualified s = .next { s with clk := { s.clk with windowsLeft := s.clk.windowsLeft - 1 } })
      ∧ (s.clk.windowsLeft ≤ 1 → exec .refclkQualified s = .next ({ s with clk := { s.clk with
          qualified := true, armed := true, windowsNeed := 1, windowsLeft := 1, lost := false, returning := s.clk.lost,
          stage := if s.clk.lost then 1 else s.clk.stage } } : State).tryStep3))
    ∧ (s.pwr.standby = false ∨ s.clk.refPresent = false ∨ s.clk.qualified = true → exec .refclkQualified s = .next s)
    ∧ (s.clk.armed = false → exec .refclkLoss s = .next { s with clk := { s.clk with windowsLeft := s.clk.windowsNeed } })
    ∧ (s.clk.armed = true → ∃ t, exec .refclkLoss s = .next t
        ∧ t.clk = { s.clk with qualified := false, armed := false, lost := true, returning := false, stage := 0, locked := [], ramp := 0,
                               windowsNeed := if s.twoWindows then 2 else 1,
                               windowsLeft := if s.twoWindows then 2 else 1, bypass := s.pllLocking,
                               portsBack := [PciePort.a, PciePort.b].filter fun p => (s.host.port p).up || s.clk.portsBack.contains p, lostAt := s.now, lostFrame := s.cad.frame }
        ∧ t.cad.valid = false ∧ t.cad.frame = s.cad.frame ∧ (s.cad.valid = true → t.cad.gapFrame = some s.cad.frame)
        ∧ (∀ l, (t.link l).phase ≠ .up) ∧ t.host.portA.up = false ∧ t.host.portB.up = false
        ∧ (∀ k, (t.stack k).selfRefresh = true) ∧ t.mc.key = none ∧ t.pwr.alert = true ∧ t.pwr.clkOk = false
        ∧ t.dram = s.dram ∧ t.prog.step = s.prog.step)
    ∧ (∀ p, p ∈ s.clk.locked ∨ s.clk.lost = true → exec (.pllLock p) s = .next s)
    ∧ (Pll.sb ∉ s.clk.locked → s.clk.lost = false → exec (.pllLock .sb) s = .next (
        if s.pwr.standby = true ∧ s.clk.refPresent = true ∧ 1 ≤ s.pwr.step then s.sbLock else s))
    ∧ (∀ p, p ≠ .sb → p ∈ s.mainPlls → p ∉ s.clk.locked → s.clk.lost = false → s.pwr.main = true → s.clk.qualified = true →
      (s.clk.returning = true → 2 ≤ s.clk.stage) → 4 ≤ s.pwr.step →
      let t := { s with clk := { s.clk with locked := p :: s.clk.locked } }
      exec (.pllLock p) s = .next (if t.mainLocked = true ∧ s.clk.returning = true ∧ s.clk.stage = 2 then
        { t with clk := { t.clk with stage := 3 }, pwr := { s.pwr with clkOk := true } } else t))
    ∧ (s.pwr.main = true → s.clk.lost = false → s.mainLocked = true →
      let t := { s with clk := { s.clk with ramp := s.clk.ramp + 1 } }
      (s.clk.ramp < 7 → exec .aclkRampStep s = .next t)
      ∧ (s.clk.ramp = 7 → s.clk.returning = true → s.clk.stage = 3 →
          exec .aclkRampStep s = .next { t with clk := { t.clk with stage := 4 } })
      ∧ (s.clk.ramp = 7 → ¬ (s.clk.returning = true ∧ s.clk.stage = 3) → exec .aclkRampStep s = .next (
          if s.pwr.step = 4 then ({ t with pwr := { s.pwr with step := 5, clkOk := true } } : State).startLanes else t))
      ∧ (8 ≤ s.clk.ramp → exec .aclkRampStep s = .next s))
    ∧ (s.pwr.main = true → s.clk.lost = false → s.clk.returning = true → s.clk.stage = 4 → ∃ t, exec .stackRetrainDone s = .next t
        ∧ t.clk = { s.clk with
            returning := !t.lanesSettled || s.clk.portsBack != [],
            stage := if t.lanesSettled = true ∧ s.clk.portsBack = [] ∧ (∀ l, (t.link l).bringUp = false) then 0 else 5 }
        ∧ (∀ k, (t.stack k).selfRefresh
            = if (s.stack k).state = .service ∧ 6 ≤ s.pwr.step then false else (s.stack k).selfRefresh)
        ∧ t.pwr.step = if s.pwr.step = 4 then 5 else s.pwr.step)

/-- Start-up (R382). That the sites which do not fail have passed their test (log entry 42) and when the profile is chosen anew (log entry
54) are the model's readings. -/
def Obligations.StartUp : Prop :=
  ∀ (s : State),
    (∀ p : ResetPins, s.pwr.standby = true → s.pwr.present = false →
      let t := { s with pwr := { s.pwr with present := true } }
      let u : State := { t with mc := { s.mc with profPins := p.profsel.toFin } }
      (s.mc.up = true ∨ s.mc.recovery = true ∨ s.mc.restartCause ≠ 0 → exec (.mcResetRelease p) s = .next t)
      ∧ (s.mc.up = false → s.mc.recovery = false → s.mc.restartCause = 0 →
          exec (.mcResetRelease p) s = .next (if s.clk.refPresent then u.mcStart 0 p.triggers else u)))
    ∧ (∀ p, s.pwr.standby = false ∨ s.pwr.present = true → exec (.mcResetRelease p) s = .next s)
    ∧ (∀ n (x : BitVec 4), let t := s.mcStart n x
        (s.mc.validImage .mc = none → t.mc.up = false ∧ t.mc.recovery = true)
        ∧ (∀ f, s.mc.validImage .mc = some f → t.mc.up = true ∧ t.mc.recovery = false ∧ imageOf t.mc.running .mc = some f
            ∧ t.mc.latched = [] ∧ (s.pwr.step = 0 → t.pwr.step = 1)
            ∧ (let k := Config.identityKey (BitVec.ofNat 256 s.mc.secret)
               t.mc.key = if x ≠ 0 ∨ k = 0 then none else some k)))
    ∧ (let ok := s.mcRuns = true ∧ s.pwr.step = 3 ∧ s.pwr.main = false ∧ s.clk.qualified = true ∧ s.pwr.inputOk = true
          ∧ s.pwr.present = true ∧ s.pwr.switchOn = true ∧ s.pwr.breaker = false ∧ s.pwr.needMainOn = false
          ∧ s.mc.lifeCycle ≠ .decommissioned
       let t := s.chooseAgain
       let u := { t with pwr := { t.pwr with main := true, step := 4, shed := [] }, host := { t.host with usable := true } }
       let i := s.mc.profSelected.getD s.mc.profPins
       (ok → (∀ j < 4, s.mc.failedOnTile j ≤ 4) → exec .startupRailsUp s = .next u)
       ∧ (ok → (∃ j < 4, 5 ≤ s.mc.failedOnTile j) → ∃ v, exec .startupRailsUp s = .next v ∧ v.pwr.main = false ∧ v.pwr.needMainOn = true)
       ∧ (s.mc.activeIndex = i → profileCrcOk s.mc.profiles[i].toNat = true → s.mc.activeProfile = s.mc.profiles[i] → t = s)
       ∧ t.mc.activeIndex = i ∧ (profileCrcOk s.mc.profiles[i].toNat = true → t.mc.activeProfile = s.mc.profiles[i])
       ∧ (¬ ok → exec .startupRailsUp s = .next s))
    ∧ (∀ xs, s.pwr.main = true → s.pwr.step = 5 → s.clk.lost = false → s.clk.returning = false → s.mcRuns = true →
      (s.mc.validImage .linkUcode = none → exec (.startupTrainingDone xs) s = .next (s.recoverComponent .linkUcode))
      ∧ (∀ l, s.mc.validImage .linkUcode = some l → s.mc.validImage .memUcode = none →
          exec (.startupTrainingDone xs) s = .next ((s.loadImage .linkUcode l).recoverComponent .memUcode))
      ∧ (∀ l m, s.mc.validImage .linkUcode = some l → s.mc.validImage .memUcode = some m → ∃ t, exec (.startupTrainingDone xs) s = .next t
          ∧ t.pwr.step = 6 ∧ t.host.surveyRunning = true
          ∧ imageOf t.mc.running .linkUcode = some l ∧ imageOf t.mc.running .memUcode = some m
          ∧ (∀ k, (s.stack k).state = .service → (t.stack k).state = if k ∈ xs then .absent else .service)
          ∧ (∀ k, (s.stack k).state = .service → k ∉ xs → (t.stack k).selfRefresh = false)
          ∧ (s.mc.lifeCycle = .returned → t.dram = [] ∧ ∀ a n, t.dramRead a n = List.replicate n 0)
          ∧ (s.mc.lifeCycle ≠ .returned → t.dram = s.dram ∧ t.dramEpoch = s.dramEpoch)))
    ∧ (s.pwr.main = true → s.pwr.step = 7 → s.clk.lost = false → s.clk.returning = false → s.mcRuns = true →
      (s.mc.validImage .binder = none → exec .binderBootDone s = .next (s.recoverComponent .binder))
      ∧ (∀ f, s.mc.validImage .binder = some f → exec .binderBootDone s = .next
          ((({ s with pwr := { s.pwr with step := 8 }, host := { s.host with binderUp := true } } : State).loadImage .binder f).setIfLevel
            (BitVec.ofNat 8 (mfLevel f.manifest.toNat)))))
    ∧ (∀ c f, let t := s.loadImage c f
        imageOf t.mc.running c = some f ∧ c ∉ t.mc.pending
        ∧ (c ∉ s.mc.pending → t = { s with mc := { s.mc with running := putImage s.mc.running c f } }))
    ∧ (∀ x : Byte, (s.setIfLevel x).host.ifLevel = x
        ∧ (s.host.ifLevel ≠ x → s.setIfLevel x = (({ s with host := { s.host with ifLevel := x } } : State).resendPartner.advertise))
        ∧ (s.host.ifLevel = x → s.setIfLevel x = s))
    ∧ (∀ xs, s.pwr.main = true → s.pwr.step = 8 → s.clk.lost = false → s.clk.returning = false →
      let tested : Vector Site 200 := Vector.ofFn fun (i : SiteId) =>
        if i ∈ xs then { s.site i with role := .retired, cause := 7, testOk := false, testedAt := s.now }
        else { s.site i with testOk := true, testedAt := s.now, deepSleep := decide ((s.site i).role = .guard) }
      let r := ({ s with sites := tested } : State).showRoles
      let t := { r with pwr := { s.pwr with step := 10 } }
      exec (.startupBistDone xs) s = .next (if t.deviceState = 0 then { t with pwr := { t.pwr with alert := false } } else t))
    ∧ (s.pwr.step ≠ 3 → exec .startupRailsUp s = .next s) ∧ (s.pwr.step ≠ 5 → ∀ xs, exec (.startupTrainingDone xs) s = .next s)
    ∧ (s.pwr.step ≠ 7 → exec .binderBootDone s = .next s) ∧ (s.pwr.step ≠ 8 → ∀ xs, exec (.startupBistDone xs) s = .next s)
end

