-- ==== Sys2Proof/Laws/Memory.lean ====
section
/-!
SUPPORT. Memory: a read after a write, and the canonical form, which every memory operation keeps.
-/

namespace Sys2Proof.Machine

/-! ### Reading after writing -/

@[simp] theorem Mem.lookup_insert (m : Memory) (a : Nat) (v : Byte) (b : Nat) :
    Mem.lookup (Mem.insert m a v) b = if b = a then some v else Mem.lookup m b := by
  induction m with
  | nil => simp [Mem.insert, Mem.lookup, eq_comm]
  | cons x r ih => obtain ⟨k, w⟩ := x; grind [Mem.insert, Mem.lookup]

@[simp] theorem Mem.lookup_erase (m : Memory) (a b : Nat) :
    Mem.lookup (Mem.erase m a) b = if b = a then none else Mem.lookup m b := by
  induction m with
  | nil => simp [Mem.erase, Mem.lookup]
  | cons x r ih =>
    obtain ⟨k, w⟩ := x
    simp only [Mem.erase] at ih
    by_cases h : k = a <;> grind [Mem.erase, Mem.lookup]

@[simp] theorem Mem.get_set (d : Nat → Byte) (m : Memory) (a : Nat) (v : Byte) (b : Nat) :
    Mem.get d (Mem.set d m a v) b = if b = a then v else Mem.get d m b := by
  grind [Mem.get, Mem.set, Mem.lookup_erase, Mem.lookup_insert]

theorem Mem.get_write (d : Nat → Byte) (bs : List Byte) :
    ∀ (m : Memory) (a b : Nat),
      Mem.get d (Mem.write d m a bs) b = if a ≤ b ∧ b < a + bs.length then bs.getD (b - a) 0 else Mem.get d m b := by
  induction bs with
  | nil => intro m a b; simp [Mem.write]
  | cons x r ih =>
    intro m a b
    simp only [Mem.write, ih, Mem.get_set, List.length_cons]
    by_cases h : b = a
    · subst h; simp
    · by_cases h2 : a ≤ b
      · have : b - a = (b - (a + 1)) + 1 := by omega
        rw [this, List.getD_cons_succ]
        grind
      · grind

theorem Mem.get_write_out (d : Nat → Byte) (m : Memory) (a : Nat) (bs : List Byte) (b : Nat)
    (h : b < a ∨ a + bs.length ≤ b) : Mem.get d (Mem.write d m a bs) b = Mem.get d m b := by
  rw [Mem.get_write]; grind

@[simp] theorem Mem.length_read (d : Nat → Byte) (m : Memory) (a n : Nat) : (Mem.read d m a n).length = n := by
  simp [Mem.read]

theorem Mem.getD_read (d : Nat → Byte) (m : Memory) (a n i : Nat) (h : i < n) :
    (Mem.read d m a n).getD i 0 = Mem.get d m (a + i) := by
  simp [Mem.read, List.getD, h]

/-- Reading back a range just written gives the bytes written. -/
theorem Mem.read_write (d : Nat → Byte) (m : Memory) (a : Nat) (bs : List Byte) :
    Mem.read d (Mem.write d m a bs) a bs.length = bs := by
  apply List.ext_getElem
  · simp
  · intro i h1 h2
    simp [Mem.read, Mem.get_write, h2]

/-! ### The canonical form -/

theorem Mem.sortedFrom_mono {lo hi : Nat} (m : Memory) (h : hi ≤ lo) (w : Mem.sortedFrom lo m = true) :
    Mem.sortedFrom hi m = true := by
  cases m with
  | nil => rfl
  | cons x r => obtain ⟨k, v⟩ := x; simp only [Mem.sortedFrom, Bool.and_eq_true, decide_eq_true_eq] at *; exact ⟨by omega, w.2⟩

theorem Mem.sortedFrom_insert (a : Nat) (v : Byte) :
    ∀ (m : Memory) (lo : Nat), lo ≤ a → Mem.sortedFrom lo m = true → Mem.sortedFrom lo (Mem.insert m a v) = true := by
  intro m
  induction m with
  | nil => intro lo h _; simp [Mem.insert, Mem.sortedFrom, h]
  | cons x r ih =>
    obtain ⟨k, w⟩ := x
    intro lo h hw
    simp only [Mem.sortedFrom, Bool.and_eq_true, decide_eq_true_eq] at hw
    simp only [Mem.insert]
    split
    · simp only [Mem.sortedFrom, Bool.and_eq_true, decide_eq_true_eq]; exact ⟨h, by omega, hw.2⟩
    · split
      · subst a; simp only [Mem.sortedFrom, Bool.and_eq_true, decide_eq_true_eq]; exact ⟨h, hw.2⟩
      · simp only [Mem.sortedFrom, Bool.and_eq_true, decide_eq_true_eq]
        exact ⟨hw.1, ih (k + 1) (by omega) hw.2⟩

theorem Mem.sortedFrom_filter (p : Host.Cell → Bool) :
    ∀ (m : Memory) (lo : Nat), Mem.sortedFrom lo m = true → Mem.sortedFrom lo (m.filter p) = true := by
  intro m
  induction m with
  | nil => intro lo _; rfl
  | cons x r ih =>
    obtain ⟨k, w⟩ := x
    intro lo hw
    simp only [Mem.sortedFrom, Bool.and_eq_true, decide_eq_true_eq] at hw
    rw [List.filter_cons]
    split
    · simp only [Mem.sortedFrom, Bool.and_eq_true, decide_eq_true_eq]; exact ⟨hw.1, ih _ hw.2⟩
    · exact ih _ (Mem.sortedFrom_mono r (by omega) hw.2)

theorem Mem.mem_insert {m : Memory} {a : Nat} {v : Byte} {x : Host.Cell} (h : x ∈ Mem.insert m a v) : x = (a, v) ∨ x ∈ m := by
  induction m with
  | nil => simpa [Mem.insert] using h
  | cons y r ih =>
    obtain ⟨k, w⟩ := y
    simp only [Mem.insert] at h
    split at h
    · simpa using h
    · split at h
      · simp only [List.mem_cons] at h ⊢; tauto
      · simp only [List.mem_cons] at h ⊢
        rcases h with h | h
        · tauto
        · rcases ih h with h | h <;> tauto

@[simp] theorem Memory.wf_nil (d : Nat → Byte) : Memory.wf d [] = true := rfl

theorem Memory.wf_filter {d : Nat → Byte} {m : Memory} (p : Host.Cell → Bool) (h : Memory.wf d m = true) :
    Memory.wf d (m.filter p) = true := by
  simp only [Memory.wf, Bool.and_eq_true, List.all_eq_true] at *
  exact ⟨Mem.sortedFrom_filter p m 0 h.1, fun x hx => h.2 x (List.mem_filter.1 hx).1⟩

/-- Writing one byte keeps the canonical form. -/
theorem Memory.wf_set {d : Nat → Byte} {m : Memory} (a : Nat) (v : Byte) (h : Memory.wf d m = true) :
    Memory.wf d (Mem.set d m a v) = true := by
  unfold Mem.set
  split
  · exact Memory.wf_filter _ h
  · next hv =>
    simp only [Memory.wf, Bool.and_eq_true, List.all_eq_true, decide_eq_true_eq] at *
    refine ⟨Mem.sortedFrom_insert a v m 0 (Nat.zero_le _) h.1, fun x hx => ?_⟩
    rcases Mem.mem_insert hx with rfl | hx
    · exact hv
    · exact h.2 x hx

/-- Writing bytes keeps the canonical form. -/
theorem Memory.wf_write {d : Nat → Byte} (bs : List Byte) :
    ∀ {m : Memory} (a : Nat), Memory.wf d m = true → Memory.wf d (Mem.write d m a bs) = true := by
  induction bs with
  | nil => intro m a h; exact h
  | cons b r ih => intro m a h; exact ih (a + 1) (Memory.wf_set a b h)

/-- Listing bytes keeps the order of addresses. -/
theorem Mem.sortedFrom_put (bs : List Byte) :
    ∀ {m : Memory} (a : Nat), Mem.sortedFrom 0 m = true → Mem.sortedFrom 0 (Mem.put m a bs) = true := by
  induction bs with
  | nil => intro m a h; exact h
  | cons b r ih => intro m a h; exact ih (a + 1) (Mem.sortedFrom_insert a b m 0 (Nat.zero_le _) h)

theorem Mem.lookup_put (bs : List Byte) :
    ∀ (m : Memory) (a b : Nat),
      Mem.lookup (Mem.put m a bs) b = if a ≤ b ∧ b < a + bs.length then some (bs.getD (b - a) 0) else Mem.lookup m b := by
  induction bs with
  | nil => intro m a b; simp [Mem.put]
  | cons x r ih =>
    intro m a b
    simp only [Mem.put, ih, Mem.lookup_insert, List.length_cons]
    by_cases h : b = a
    · subst h; simp
    · by_cases h2 : a ≤ b
      · have : b - a = (b - (a + 1)) + 1 := by omega
        rw [this, List.getD_cons_succ]
        grind
      · grind

/-- Two canonical memories that read alike are equal: below every listed address nothing is listed. -/
theorem Mem.lookup_lt {m : Memory} {lo a : Nat} (h : Mem.sortedFrom lo m = true) (ha : a < lo) : Mem.lookup m a = none := by
  induction m generalizing lo with
  | nil => rfl
  | cons x r ih =>
    obtain ⟨k, w⟩ := x
    simp only [Mem.sortedFrom, Bool.and_eq_true, decide_eq_true_eq] at h
    simp only [Mem.lookup]
    rw [if_neg (by omega), ih h.2 (by omega)]

end Sys2Proof.Machine
end

