-- ==== Sys2Proof/Laws/State.lean ====
section
/-!
SUPPORT. What each update of the state leaves and what it writes: one lemma for each field and each update.
-/

namespace Sys2Proof.Machine

variable (s : State) (c : CoreId) (i : SiteId) (j : StackId) (l : LaneId) (x : Handle) (a : Nat) (bytes : List Byte)

@[simp] theorem State.setCore_pending (k : Core) : (s.setCore c k).pending = s.pending := rfl
@[simp] theorem State.setCore_freeIx (k : Core) : (s.setCore c k).freeIx = s.freeIx := rfl
@[simp] theorem State.setCore_now (k : Core) : (s.setCore c k).now = s.now := rfl
@[simp] theorem State.setCore_dram (k : Core) : (s.setCore c k).dram = s.dram := rfl
@[simp] theorem State.setCore_dramEpoch (k : Core) : (s.setCore c k).dramEpoch = s.dramEpoch := rfl
@[simp] theorem State.setCore_poison (k : Core) : (s.setCore c k).poison = s.poison := rfl
@[simp] theorem State.setCore_hostMem (k : Core) : (s.setCore c k).hostMem = s.hostMem := rfl
@[simp] theorem State.setCore_cores (k : Core) : (s.setCore c k).cores = s.cores.set c.val k c.isLt := rfl
@[simp] theorem State.setCore_sites (k : Core) : (s.setCore c k).sites = s.sites := rfl
@[simp] theorem State.setCore_upsets (k : Core) : (s.setCore c k).upsets = s.upsets := rfl
@[simp] theorem State.setCore_sramUpsets (k : Core) : (s.setCore c k).sramUpsets = s.sramUpsets := rfl
@[simp] theorem State.setCore_hbm (k : Core) : (s.setCore c k).hbm = s.hbm := rfl
@[simp] theorem State.setCore_host (k : Core) : (s.setCore c k).host = s.host := rfl
@[simp] theorem State.setCore_prog (k : Core) : (s.setCore c k).prog = s.prog := rfl
@[simp] theorem State.setCore_cad (k : Core) : (s.setCore c k).cad = s.cad := rfl
@[simp] theorem State.setCore_fab (k : Core) : (s.setCore c k).fab = s.fab := rfl
@[simp] theorem State.setCore_mc (k : Core) : (s.setCore c k).mc = s.mc := rfl
@[simp] theorem State.setCore_pwr (k : Core) : (s.setCore c k).pwr = s.pwr := rfl
@[simp] theorem State.setCore_clk (k : Core) : (s.setCore c k).clk = s.clk := rfl
@[simp] theorem State.setCore_surveySeq (k : Core) : (s.setCore c k).surveySeq = s.surveySeq := rfl
@[simp] theorem State.setCore_surveyRec (k : Core) : (s.setCore c k).surveyRec = s.surveyRec := rfl

@[simp] theorem State.modCore_pending (f : Core → Core) : (s.modCore c f).pending = s.pending := rfl
@[simp] theorem State.modCore_freeIx (f : Core → Core) : (s.modCore c f).freeIx = s.freeIx := rfl
@[simp] theorem State.modCore_now (f : Core → Core) : (s.modCore c f).now = s.now := rfl
@[simp] theorem State.modCore_dram (f : Core → Core) : (s.modCore c f).dram = s.dram := rfl
@[simp] theorem State.modCore_dramEpoch (f : Core → Core) : (s.modCore c f).dramEpoch = s.dramEpoch := rfl
@[simp] theorem State.modCore_poison (f : Core → Core) : (s.modCore c f).poison = s.poison := rfl
@[simp] theorem State.modCore_hostMem (f : Core → Core) : (s.modCore c f).hostMem = s.hostMem := rfl
@[simp] theorem State.modCore_cores (f : Core → Core) : (s.modCore c f).cores = s.cores.set c.val (f (s.core c)) c.isLt := rfl
@[simp] theorem State.modCore_sites (f : Core → Core) : (s.modCore c f).sites = s.sites := rfl
@[simp] theorem State.modCore_upsets (f : Core → Core) : (s.modCore c f).upsets = s.upsets := rfl
@[simp] theorem State.modCore_sramUpsets (f : Core → Core) : (s.modCore c f).sramUpsets = s.sramUpsets := rfl
@[simp] theorem State.modCore_hbm (f : Core → Core) : (s.modCore c f).hbm = s.hbm := rfl
@[simp] theorem State.modCore_host (f : Core → Core) : (s.modCore c f).host = s.host := rfl
@[simp] theorem State.modCore_prog (f : Core → Core) : (s.modCore c f).prog = s.prog := rfl
@[simp] theorem State.modCore_cad (f : Core → Core) : (s.modCore c f).cad = s.cad := rfl
@[simp] theorem State.modCore_fab (f : Core → Core) : (s.modCore c f).fab = s.fab := rfl
@[simp] theorem State.modCore_mc (f : Core → Core) : (s.modCore c f).mc = s.mc := rfl
@[simp] theorem State.modCore_pwr (f : Core → Core) : (s.modCore c f).pwr = s.pwr := rfl
@[simp] theorem State.modCore_clk (f : Core → Core) : (s.modCore c f).clk = s.clk := rfl
@[simp] theorem State.modCore_surveySeq (f : Core → Core) : (s.modCore c f).surveySeq = s.surveySeq := rfl
@[simp] theorem State.modCore_surveyRec (f : Core → Core) : (s.modCore c f).surveyRec = s.surveyRec := rfl

@[simp] theorem State.modSite_pending (f : Site → Site) : (s.modSite i f).pending = s.pending := rfl
@[simp] theorem State.modSite_freeIx (f : Site → Site) : (s.modSite i f).freeIx = s.freeIx := rfl
@[simp] theorem State.modSite_now (f : Site → Site) : (s.modSite i f).now = s.now := rfl
@[simp] theorem State.modSite_dram (f : Site → Site) : (s.modSite i f).dram = s.dram := rfl
@[simp] theorem State.modSite_dramEpoch (f : Site → Site) : (s.modSite i f).dramEpoch = s.dramEpoch := rfl
@[simp] theorem State.modSite_poison (f : Site → Site) : (s.modSite i f).poison = s.poison := rfl
@[simp] theorem State.modSite_hostMem (f : Site → Site) : (s.modSite i f).hostMem = s.hostMem := rfl
@[simp] theorem State.modSite_cores (f : Site → Site) : (s.modSite i f).cores = s.cores := rfl
@[simp] theorem State.modSite_sites (f : Site → Site) : (s.modSite i f).sites = s.sites.set i.val (f (s.site i)) i.isLt := rfl
@[simp] theorem State.modSite_upsets (f : Site → Site) : (s.modSite i f).upsets = s.upsets := rfl
@[simp] theorem State.modSite_sramUpsets (f : Site → Site) : (s.modSite i f).sramUpsets = s.sramUpsets := rfl
@[simp] theorem State.modSite_hbm (f : Site → Site) : (s.modSite i f).hbm = s.hbm := rfl
@[simp] theorem State.modSite_host (f : Site → Site) : (s.modSite i f).host = s.host := rfl
@[simp] theorem State.modSite_prog (f : Site → Site) : (s.modSite i f).prog = s.prog := rfl
@[simp] theorem State.modSite_cad (f : Site → Site) : (s.modSite i f).cad = s.cad := rfl
@[simp] theorem State.modSite_fab (f : Site → Site) : (s.modSite i f).fab = s.fab := rfl
@[simp] theorem State.modSite_mc (f : Site → Site) : (s.modSite i f).mc = s.mc := rfl
@[simp] theorem State.modSite_pwr (f : Site → Site) : (s.modSite i f).pwr = s.pwr := rfl
@[simp] theorem State.modSite_clk (f : Site → Site) : (s.modSite i f).clk = s.clk := rfl
@[simp] theorem State.modSite_surveySeq (f : Site → Site) : (s.modSite i f).surveySeq = s.surveySeq := rfl
@[simp] theorem State.modSite_surveyRec (f : Site → Site) : (s.modSite i f).surveyRec = s.surveyRec := rfl

@[simp] theorem State.modStack_pending (f : Stack → Stack) : (s.modStack j f).pending = s.pending := rfl
@[simp] theorem State.modStack_freeIx (f : Stack → Stack) : (s.modStack j f).freeIx = s.freeIx := rfl
@[simp] theorem State.modStack_now (f : Stack → Stack) : (s.modStack j f).now = s.now := rfl
@[simp] theorem State.modStack_dram (f : Stack → Stack) : (s.modStack j f).dram = s.dram := rfl
@[simp] theorem State.modStack_dramEpoch (f : Stack → Stack) : (s.modStack j f).dramEpoch = s.dramEpoch := rfl
@[simp] theorem State.modStack_poison (f : Stack → Stack) : (s.modStack j f).poison = s.poison := rfl
@[simp] theorem State.modStack_hostMem (f : Stack → Stack) : (s.modStack j f).hostMem = s.hostMem := rfl
@[simp] theorem State.modStack_cores (f : Stack → Stack) : (s.modStack j f).cores = s.cores := rfl
@[simp] theorem State.modStack_sites (f : Stack → Stack) : (s.modStack j f).sites = s.sites := rfl
@[simp] theorem State.modStack_upsets (f : Stack → Stack) : (s.modStack j f).upsets = s.upsets := rfl
@[simp] theorem State.modStack_sramUpsets (f : Stack → Stack) : (s.modStack j f).sramUpsets = s.sramUpsets := rfl
@[simp] theorem State.modStack_hbm (f : Stack → Stack) : (s.modStack j f).hbm = s.hbm.set j.val (f (s.stack j)) j.isLt := rfl
@[simp] theorem State.modStack_host (f : Stack → Stack) : (s.modStack j f).host = s.host := rfl
@[simp] theorem State.modStack_prog (f : Stack → Stack) : (s.modStack j f).prog = s.prog := rfl
@[simp] theorem State.modStack_cad (f : Stack → Stack) : (s.modStack j f).cad = s.cad := rfl
@[simp] theorem State.modStack_fab (f : Stack → Stack) : (s.modStack j f).fab = s.fab := rfl
@[simp] theorem State.modStack_mc (f : Stack → Stack) : (s.modStack j f).mc = s.mc := rfl
@[simp] theorem State.modStack_pwr (f : Stack → Stack) : (s.modStack j f).pwr = s.pwr := rfl
@[simp] theorem State.modStack_clk (f : Stack → Stack) : (s.modStack j f).clk = s.clk := rfl
@[simp] theorem State.modStack_surveySeq (f : Stack → Stack) : (s.modStack j f).surveySeq = s.surveySeq := rfl
@[simp] theorem State.modStack_surveyRec (f : Stack → Stack) : (s.modStack j f).surveyRec = s.surveyRec := rfl

@[simp] theorem State.modLink_pending (f : Link → Link) : (s.modLink l f).pending = s.pending := rfl
@[simp] theorem State.modLink_freeIx (f : Link → Link) : (s.modLink l f).freeIx = s.freeIx := rfl
@[simp] theorem State.modLink_now (f : Link → Link) : (s.modLink l f).now = s.now := rfl
@[simp] theorem State.modLink_dram (f : Link → Link) : (s.modLink l f).dram = s.dram := rfl
@[simp] theorem State.modLink_dramEpoch (f : Link → Link) : (s.modLink l f).dramEpoch = s.dramEpoch := rfl
@[simp] theorem State.modLink_poison (f : Link → Link) : (s.modLink l f).poison = s.poison := rfl
@[simp] theorem State.modLink_hostMem (f : Link → Link) : (s.modLink l f).hostMem = s.hostMem := rfl
@[simp] theorem State.modLink_cores (f : Link → Link) : (s.modLink l f).cores = s.cores := rfl
@[simp] theorem State.modLink_sites (f : Link → Link) : (s.modLink l f).sites = s.sites := rfl
@[simp] theorem State.modLink_upsets (f : Link → Link) : (s.modLink l f).upsets = s.upsets := rfl
@[simp] theorem State.modLink_sramUpsets (f : Link → Link) : (s.modLink l f).sramUpsets = s.sramUpsets := rfl
@[simp] theorem State.modLink_hbm (f : Link → Link) : (s.modLink l f).hbm = s.hbm := rfl
@[simp] theorem State.modLink_host (f : Link → Link) : (s.modLink l f).host = s.host := rfl
@[simp] theorem State.modLink_prog (f : Link → Link) : (s.modLink l f).prog = s.prog := rfl
@[simp] theorem State.modLink_cad (f : Link → Link) : (s.modLink l f).cad = s.cad := rfl
@[simp] theorem State.modLink_fab (f : Link → Link) : (s.modLink l f).fab = { s.fab with links := s.fab.links.set l.val (f (s.link l)) l.isLt } := rfl
@[simp] theorem State.modLink_mc (f : Link → Link) : (s.modLink l f).mc = s.mc := rfl
@[simp] theorem State.modLink_pwr (f : Link → Link) : (s.modLink l f).pwr = s.pwr := rfl
@[simp] theorem State.modLink_clk (f : Link → Link) : (s.modLink l f).clk = s.clk := rfl
@[simp] theorem State.modLink_surveySeq (f : Link → Link) : (s.modLink l f).surveySeq = s.surveySeq := rfl
@[simp] theorem State.modLink_surveyRec (f : Link → Link) : (s.modLink l f).surveyRec = s.surveyRec := rfl

@[simp] theorem State.modHost_pending (f : HostIf → HostIf) : (s.modHost f).pending = s.pending := rfl
@[simp] theorem State.modHost_freeIx (f : HostIf → HostIf) : (s.modHost f).freeIx = s.freeIx := rfl
@[simp] theorem State.modHost_now (f : HostIf → HostIf) : (s.modHost f).now = s.now := rfl
@[simp] theorem State.modHost_dram (f : HostIf → HostIf) : (s.modHost f).dram = s.dram := rfl
@[simp] theorem State.modHost_dramEpoch (f : HostIf → HostIf) : (s.modHost f).dramEpoch = s.dramEpoch := rfl
@[simp] theorem State.modHost_poison (f : HostIf → HostIf) : (s.modHost f).poison = s.poison := rfl
@[simp] theorem State.modHost_hostMem (f : HostIf → HostIf) : (s.modHost f).hostMem = s.hostMem := rfl
@[simp] theorem State.modHost_cores (f : HostIf → HostIf) : (s.modHost f).cores = s.cores := rfl
@[simp] theorem State.modHost_sites (f : HostIf → HostIf) : (s.modHost f).sites = s.sites := rfl
@[simp] theorem State.modHost_upsets (f : HostIf → HostIf) : (s.modHost f).upsets = s.upsets := rfl
@[simp] theorem State.modHost_sramUpsets (f : HostIf → HostIf) : (s.modHost f).sramUpsets = s.sramUpsets := rfl
@[simp] theorem State.modHost_hbm (f : HostIf → HostIf) : (s.modHost f).hbm = s.hbm := rfl
@[simp] theorem State.modHost_host (f : HostIf → HostIf) : (s.modHost f).host = f s.host := rfl
@[simp] theorem State.modHost_prog (f : HostIf → HostIf) : (s.modHost f).prog = s.prog := rfl
@[simp] theorem State.modHost_cad (f : HostIf → HostIf) : (s.modHost f).cad = s.cad := rfl
@[simp] theorem State.modHost_fab (f : HostIf → HostIf) : (s.modHost f).fab = s.fab := rfl
@[simp] theorem State.modHost_mc (f : HostIf → HostIf) : (s.modHost f).mc = s.mc := rfl
@[simp] theorem State.modHost_pwr (f : HostIf → HostIf) : (s.modHost f).pwr = s.pwr := rfl
@[simp] theorem State.modHost_clk (f : HostIf → HostIf) : (s.modHost f).clk = s.clk := rfl
@[simp] theorem State.modHost_surveySeq (f : HostIf → HostIf) : (s.modHost f).surveySeq = s.surveySeq := rfl
@[simp] theorem State.modHost_surveyRec (f : HostIf → HostIf) : (s.modHost f).surveyRec = s.surveyRec := rfl

@[simp] theorem State.modProg_pending (f : Program → Program) : (s.modProg f).pending = s.pending := rfl
@[simp] theorem State.modProg_freeIx (f : Program → Program) : (s.modProg f).freeIx = s.freeIx := rfl
@[simp] theorem State.modProg_now (f : Program → Program) : (s.modProg f).now = s.now := rfl
@[simp] theorem State.modProg_dram (f : Program → Program) : (s.modProg f).dram = s.dram := rfl
@[simp] theorem State.modProg_dramEpoch (f : Program → Program) : (s.modProg f).dramEpoch = s.dramEpoch := rfl
@[simp] theorem State.modProg_poison (f : Program → Program) : (s.modProg f).poison = s.poison := rfl
@[simp] theorem State.modProg_hostMem (f : Program → Program) : (s.modProg f).hostMem = s.hostMem := rfl
@[simp] theorem State.modProg_cores (f : Program → Program) : (s.modProg f).cores = s.cores := rfl
@[simp] theorem State.modProg_sites (f : Program → Program) : (s.modProg f).sites = s.sites := rfl
@[simp] theorem State.modProg_upsets (f : Program → Program) : (s.modProg f).upsets = s.upsets := rfl
@[simp] theorem State.modProg_sramUpsets (f : Program → Program) : (s.modProg f).sramUpsets = s.sramUpsets := rfl
@[simp] theorem State.modProg_hbm (f : Program → Program) : (s.modProg f).hbm = s.hbm := rfl
@[simp] theorem State.modProg_host (f : Program → Program) : (s.modProg f).host = s.host := rfl
@[simp] theorem State.modProg_prog (f : Program → Program) : (s.modProg f).prog = f s.prog := rfl
@[simp] theorem State.modProg_cad (f : Program → Program) : (s.modProg f).cad = s.cad := rfl
@[simp] theorem State.modProg_fab (f : Program → Program) : (s.modProg f).fab = s.fab := rfl
@[simp] theorem State.modProg_mc (f : Program → Program) : (s.modProg f).mc = s.mc := rfl
@[simp] theorem State.modProg_pwr (f : Program → Program) : (s.modProg f).pwr = s.pwr := rfl
@[simp] theorem State.modProg_clk (f : Program → Program) : (s.modProg f).clk = s.clk := rfl
@[simp] theorem State.modProg_surveySeq (f : Program → Program) : (s.modProg f).surveySeq = s.surveySeq := rfl
@[simp] theorem State.modProg_surveyRec (f : Program → Program) : (s.modProg f).surveyRec = s.surveyRec := rfl

@[simp] theorem State.modCad_pending (f : Cadence → Cadence) : (s.modCad f).pending = s.pending := rfl
@[simp] theorem State.modCad_freeIx (f : Cadence → Cadence) : (s.modCad f).freeIx = s.freeIx := rfl
@[simp] theorem State.modCad_now (f : Cadence → Cadence) : (s.modCad f).now = s.now := rfl
@[simp] theorem State.modCad_dram (f : Cadence → Cadence) : (s.modCad f).dram = s.dram := rfl
@[simp] theorem State.modCad_dramEpoch (f : Cadence → Cadence) : (s.modCad f).dramEpoch = s.dramEpoch := rfl
@[simp] theorem State.modCad_poison (f : Cadence → Cadence) : (s.modCad f).poison = s.poison := rfl
@[simp] theorem State.modCad_hostMem (f : Cadence → Cadence) : (s.modCad f).hostMem = s.hostMem := rfl
@[simp] theorem State.modCad_cores (f : Cadence → Cadence) : (s.modCad f).cores = s.cores := rfl
@[simp] theorem State.modCad_sites (f : Cadence → Cadence) : (s.modCad f).sites = s.sites := rfl
@[simp] theorem State.modCad_upsets (f : Cadence → Cadence) : (s.modCad f).upsets = s.upsets := rfl
@[simp] theorem State.modCad_sramUpsets (f : Cadence → Cadence) : (s.modCad f).sramUpsets = s.sramUpsets := rfl
@[simp] theorem State.modCad_hbm (f : Cadence → Cadence) : (s.modCad f).hbm = s.hbm := rfl
@[simp] theorem State.modCad_host (f : Cadence → Cadence) : (s.modCad f).host = s.host := rfl
@[simp] theorem State.modCad_prog (f : Cadence → Cadence) : (s.modCad f).prog = s.prog := rfl
@[simp] theorem State.modCad_cad (f : Cadence → Cadence) : (s.modCad f).cad = f s.cad := rfl
@[simp] theorem State.modCad_fab (f : Cadence → Cadence) : (s.modCad f).fab = s.fab := rfl
@[simp] theorem State.modCad_mc (f : Cadence → Cadence) : (s.modCad f).mc = s.mc := rfl
@[simp] theorem State.modCad_pwr (f : Cadence → Cadence) : (s.modCad f).pwr = s.pwr := rfl
@[simp] theorem State.modCad_clk (f : Cadence → Cadence) : (s.modCad f).clk = s.clk := rfl
@[simp] theorem State.modCad_surveySeq (f : Cadence → Cadence) : (s.modCad f).surveySeq = s.surveySeq := rfl
@[simp] theorem State.modCad_surveyRec (f : Cadence → Cadence) : (s.modCad f).surveyRec = s.surveyRec := rfl

@[simp] theorem State.modFab_pending (f : Fabric → Fabric) : (s.modFab f).pending = s.pending := rfl
@[simp] theorem State.modFab_freeIx (f : Fabric → Fabric) : (s.modFab f).freeIx = s.freeIx := rfl
@[simp] theorem State.modFab_now (f : Fabric → Fabric) : (s.modFab f).now = s.now := rfl
@[simp] theorem State.modFab_dram (f : Fabric → Fabric) : (s.modFab f).dram = s.dram := rfl
@[simp] theorem State.modFab_dramEpoch (f : Fabric → Fabric) : (s.modFab f).dramEpoch = s.dramEpoch := rfl
@[simp] theorem State.modFab_poison (f : Fabric → Fabric) : (s.modFab f).poison = s.poison := rfl
@[simp] theorem State.modFab_hostMem (f : Fabric → Fabric) : (s.modFab f).hostMem = s.hostMem := rfl
@[simp] theorem State.modFab_cores (f : Fabric → Fabric) : (s.modFab f).cores = s.cores := rfl
@[simp] theorem State.modFab_sites (f : Fabric → Fabric) : (s.modFab f).sites = s.sites := rfl
@[simp] theorem State.modFab_upsets (f : Fabric → Fabric) : (s.modFab f).upsets = s.upsets := rfl
@[simp] theorem State.modFab_sramUpsets (f : Fabric → Fabric) : (s.modFab f).sramUpsets = s.sramUpsets := rfl
@[simp] theorem State.modFab_hbm (f : Fabric → Fabric) : (s.modFab f).hbm = s.hbm := rfl
@[simp] theorem State.modFab_host (f : Fabric → Fabric) : (s.modFab f).host = s.host := rfl
@[simp] theorem State.modFab_prog (f : Fabric → Fabric) : (s.modFab f).prog = s.prog := rfl
@[simp] theorem State.modFab_cad (f : Fabric → Fabric) : (s.modFab f).cad = s.cad := rfl
@[simp] theorem State.modFab_fab (f : Fabric → Fabric) : (s.modFab f).fab = f s.fab := rfl
@[simp] theorem State.modFab_mc (f : Fabric → Fabric) : (s.modFab f).mc = s.mc := rfl
@[simp] theorem State.modFab_pwr (f : Fabric → Fabric) : (s.modFab f).pwr = s.pwr := rfl
@[simp] theorem State.modFab_clk (f : Fabric → Fabric) : (s.modFab f).clk = s.clk := rfl
@[simp] theorem State.modFab_surveySeq (f : Fabric → Fabric) : (s.modFab f).surveySeq = s.surveySeq := rfl
@[simp] theorem State.modFab_surveyRec (f : Fabric → Fabric) : (s.modFab f).surveyRec = s.surveyRec := rfl

@[simp] theorem State.modMc_pending (f : Mc → Mc) : (s.modMc f).pending = s.pending := rfl
@[simp] theorem State.modMc_freeIx (f : Mc → Mc) : (s.modMc f).freeIx = s.freeIx := rfl
@[simp] theorem State.modMc_now (f : Mc → Mc) : (s.modMc f).now = s.now := rfl
@[simp] theorem State.modMc_dram (f : Mc → Mc) : (s.modMc f).dram = s.dram := rfl
@[simp] theorem State.modMc_dramEpoch (f : Mc → Mc) : (s.modMc f).dramEpoch = s.dramEpoch := rfl
@[simp] theorem State.modMc_poison (f : Mc → Mc) : (s.modMc f).poison = s.poison := rfl
@[simp] theorem State.modMc_hostMem (f : Mc → Mc) : (s.modMc f).hostMem = s.hostMem := rfl
@[simp] theorem State.modMc_cores (f : Mc → Mc) : (s.modMc f).cores = s.cores := rfl
@[simp] theorem State.modMc_sites (f : Mc → Mc) : (s.modMc f).sites = s.sites := rfl
@[simp] theorem State.modMc_upsets (f : Mc → Mc) : (s.modMc f).upsets = s.upsets := rfl
@[simp] theorem State.modMc_sramUpsets (f : Mc → Mc) : (s.modMc f).sramUpsets = s.sramUpsets := rfl
@[simp] theorem State.modMc_hbm (f : Mc → Mc) : (s.modMc f).hbm = s.hbm := rfl
@[simp] theorem State.modMc_host (f : Mc → Mc) : (s.modMc f).host = s.host := rfl
@[simp] theorem State.modMc_prog (f : Mc → Mc) : (s.modMc f).prog = s.prog := rfl
@[simp] theorem State.modMc_cad (f : Mc → Mc) : (s.modMc f).cad = s.cad := rfl
@[simp] theorem State.modMc_fab (f : Mc → Mc) : (s.modMc f).fab = s.fab := rfl
@[simp] theorem State.modMc_mc (f : Mc → Mc) : (s.modMc f).mc = f s.mc := rfl
@[simp] theorem State.modMc_pwr (f : Mc → Mc) : (s.modMc f).pwr = s.pwr := rfl
@[simp] theorem State.modMc_clk (f : Mc → Mc) : (s.modMc f).clk = s.clk := rfl
@[simp] theorem State.modMc_surveySeq (f : Mc → Mc) : (s.modMc f).surveySeq = s.surveySeq := rfl
@[simp] theorem State.modMc_surveyRec (f : Mc → Mc) : (s.modMc f).surveyRec = s.surveyRec := rfl

@[simp] theorem State.modPwr_pending (f : Power → Power) : (s.modPwr f).pending = s.pending := rfl
@[simp] theorem State.modPwr_freeIx (f : Power → Power) : (s.modPwr f).freeIx = s.freeIx := rfl
@[simp] theorem State.modPwr_now (f : Power → Power) : (s.modPwr f).now = s.now := rfl
@[simp] theorem State.modPwr_dram (f : Power → Power) : (s.modPwr f).dram = s.dram := rfl
@[simp] theorem State.modPwr_dramEpoch (f : Power → Power) : (s.modPwr f).dramEpoch = s.dramEpoch := rfl
@[simp] theorem State.modPwr_poison (f : Power → Power) : (s.modPwr f).poison = s.poison := rfl
@[simp] theorem State.modPwr_hostMem (f : Power → Power) : (s.modPwr f).hostMem = s.hostMem := rfl
@[simp] theorem State.modPwr_cores (f : Power → Power) : (s.modPwr f).cores = s.cores := rfl
@[simp] theorem State.modPwr_sites (f : Power → Power) : (s.modPwr f).sites = s.sites := rfl
@[simp] theorem State.modPwr_upsets (f : Power → Power) : (s.modPwr f).upsets = s.upsets := rfl
@[simp] theorem State.modPwr_sramUpsets (f : Power → Power) : (s.modPwr f).sramUpsets = s.sramUpsets := rfl
@[simp] theorem State.modPwr_hbm (f : Power → Power) : (s.modPwr f).hbm = s.hbm := rfl
@[simp] theorem State.modPwr_host (f : Power → Power) : (s.modPwr f).host = s.host := rfl
@[simp] theorem State.modPwr_prog (f : Power → Power) : (s.modPwr f).prog = s.prog := rfl
@[simp] theorem State.modPwr_cad (f : Power → Power) : (s.modPwr f).cad = s.cad := rfl
@[simp] theorem State.modPwr_fab (f : Power → Power) : (s.modPwr f).fab = s.fab := rfl
@[simp] theorem State.modPwr_mc (f : Power → Power) : (s.modPwr f).mc = s.mc := rfl
@[simp] theorem State.modPwr_pwr (f : Power → Power) : (s.modPwr f).pwr = f s.pwr := rfl
@[simp] theorem State.modPwr_clk (f : Power → Power) : (s.modPwr f).clk = s.clk := rfl
@[simp] theorem State.modPwr_surveySeq (f : Power → Power) : (s.modPwr f).surveySeq = s.surveySeq := rfl
@[simp] theorem State.modPwr_surveyRec (f : Power → Power) : (s.modPwr f).surveyRec = s.surveyRec := rfl

@[simp] theorem State.modClk_pending (f : Clocks → Clocks) : (s.modClk f).pending = s.pending := rfl
@[simp] theorem State.modClk_freeIx (f : Clocks → Clocks) : (s.modClk f).freeIx = s.freeIx := rfl
@[simp] theorem State.modClk_now (f : Clocks → Clocks) : (s.modClk f).now = s.now := rfl
@[simp] theorem State.modClk_dram (f : Clocks → Clocks) : (s.modClk f).dram = s.dram := rfl
@[simp] theorem State.modClk_dramEpoch (f : Clocks → Clocks) : (s.modClk f).dramEpoch = s.dramEpoch := rfl
@[simp] theorem State.modClk_poison (f : Clocks → Clocks) : (s.modClk f).poison = s.poison := rfl
@[simp] theorem State.modClk_hostMem (f : Clocks → Clocks) : (s.modClk f).hostMem = s.hostMem := rfl
@[simp] theorem State.modClk_cores (f : Clocks → Clocks) : (s.modClk f).cores = s.cores := rfl
@[simp] theorem State.modClk_sites (f : Clocks → Clocks) : (s.modClk f).sites = s.sites := rfl
@[simp] theorem State.modClk_upsets (f : Clocks → Clocks) : (s.modClk f).upsets = s.upsets := rfl
@[simp] theorem State.modClk_sramUpsets (f : Clocks → Clocks) : (s.modClk f).sramUpsets = s.sramUpsets := rfl
@[simp] theorem State.modClk_hbm (f : Clocks → Clocks) : (s.modClk f).hbm = s.hbm := rfl
@[simp] theorem State.modClk_host (f : Clocks → Clocks) : (s.modClk f).host = s.host := rfl
@[simp] theorem State.modClk_prog (f : Clocks → Clocks) : (s.modClk f).prog = s.prog := rfl
@[simp] theorem State.modClk_cad (f : Clocks → Clocks) : (s.modClk f).cad = s.cad := rfl
@[simp] theorem State.modClk_fab (f : Clocks → Clocks) : (s.modClk f).fab = s.fab := rfl
@[simp] theorem State.modClk_mc (f : Clocks → Clocks) : (s.modClk f).mc = s.mc := rfl
@[simp] theorem State.modClk_pwr (f : Clocks → Clocks) : (s.modClk f).pwr = s.pwr := rfl
@[simp] theorem State.modClk_clk (f : Clocks → Clocks) : (s.modClk f).clk = f s.clk := rfl
@[simp] theorem State.modClk_surveySeq (f : Clocks → Clocks) : (s.modClk f).surveySeq = s.surveySeq := rfl
@[simp] theorem State.modClk_surveyRec (f : Clocks → Clocks) : (s.modClk f).surveyRec = s.surveyRec := rfl

@[simp] theorem State.mapCores_pending (f : Core → Core) : (s.mapCores f).pending = s.pending := by unfold State.mapCores; rfl
@[simp] theorem State.mapCores_freeIx (f : Core → Core) : (s.mapCores f).freeIx = s.freeIx := by unfold State.mapCores; rfl
@[simp] theorem State.mapCores_now (f : Core → Core) : (s.mapCores f).now = s.now := by unfold State.mapCores; rfl
@[simp] theorem State.mapCores_dram (f : Core → Core) : (s.mapCores f).dram = s.dram := by unfold State.mapCores; rfl
@[simp] theorem State.mapCores_dramEpoch (f : Core → Core) : (s.mapCores f).dramEpoch = s.dramEpoch := by unfold State.mapCores; rfl
@[simp] theorem State.mapCores_poison (f : Core → Core) : (s.mapCores f).poison = s.poison := by unfold State.mapCores; rfl
@[simp] theorem State.mapCores_hostMem (f : Core → Core) : (s.mapCores f).hostMem = s.hostMem := by unfold State.mapCores; rfl
@[simp] theorem State.mapCores_cores (f : Core → Core) : (s.mapCores f).cores = Vector.ofFn fun c : Fin 192 => f s.cores[c] := by unfold State.mapCores; rfl
@[simp] theorem State.mapCores_sites (f : Core → Core) : (s.mapCores f).sites = s.sites := by unfold State.mapCores; rfl
@[simp] theorem State.mapCores_upsets (f : Core → Core) : (s.mapCores f).upsets = s.upsets := by unfold State.mapCores; rfl
@[simp] theorem State.mapCores_sramUpsets (f : Core → Core) : (s.mapCores f).sramUpsets = s.sramUpsets := by unfold State.mapCores; rfl
@[simp] theorem State.mapCores_hbm (f : Core → Core) : (s.mapCores f).hbm = s.hbm := by unfold State.mapCores; rfl
@[simp] theorem State.mapCores_host (f : Core → Core) : (s.mapCores f).host = s.host := by unfold State.mapCores; rfl
@[simp] theorem State.mapCores_prog (f : Core → Core) : (s.mapCores f).prog = s.prog := by unfold State.mapCores; rfl
@[simp] theorem State.mapCores_cad (f : Core → Core) : (s.mapCores f).cad = s.cad := by unfold State.mapCores; rfl
@[simp] theorem State.mapCores_fab (f : Core → Core) : (s.mapCores f).fab = s.fab := by unfold State.mapCores; rfl
@[simp] theorem State.mapCores_mc (f : Core → Core) : (s.mapCores f).mc = s.mc := by unfold State.mapCores; rfl
@[simp] theorem State.mapCores_pwr (f : Core → Core) : (s.mapCores f).pwr = s.pwr := by unfold State.mapCores; rfl
@[simp] theorem State.mapCores_clk (f : Core → Core) : (s.mapCores f).clk = s.clk := by unfold State.mapCores; rfl
@[simp] theorem State.mapCores_surveySeq (f : Core → Core) : (s.mapCores f).surveySeq = s.surveySeq := by unfold State.mapCores; rfl
@[simp] theorem State.mapCores_surveyRec (f : Core → Core) : (s.mapCores f).surveyRec = s.surveyRec := by unfold State.mapCores; rfl

@[simp] theorem State.modEntry_pending (f : HandleEntry → HandleEntry) : (s.modEntry x f).pending = s.pending := rfl
@[simp] theorem State.modEntry_freeIx (f : HandleEntry → HandleEntry) : (s.modEntry x f).freeIx = s.freeIx := rfl
@[simp] theorem State.modEntry_now (f : HandleEntry → HandleEntry) : (s.modEntry x f).now = s.now := rfl
@[simp] theorem State.modEntry_dram (f : HandleEntry → HandleEntry) : (s.modEntry x f).dram = s.dram := rfl
@[simp] theorem State.modEntry_dramEpoch (f : HandleEntry → HandleEntry) : (s.modEntry x f).dramEpoch = s.dramEpoch := rfl
@[simp] theorem State.modEntry_poison (f : HandleEntry → HandleEntry) : (s.modEntry x f).poison = s.poison := rfl
@[simp] theorem State.modEntry_hostMem (f : HandleEntry → HandleEntry) : (s.modEntry x f).hostMem = s.hostMem := rfl
@[simp] theorem State.modEntry_cores (f : HandleEntry → HandleEntry) : (s.modEntry x f).cores = s.cores := rfl
@[simp] theorem State.modEntry_sites (f : HandleEntry → HandleEntry) : (s.modEntry x f).sites = s.sites := rfl
@[simp] theorem State.modEntry_upsets (f : HandleEntry → HandleEntry) : (s.modEntry x f).upsets = s.upsets := rfl
@[simp] theorem State.modEntry_sramUpsets (f : HandleEntry → HandleEntry) : (s.modEntry x f).sramUpsets = s.sramUpsets := rfl
@[simp] theorem State.modEntry_hbm (f : HandleEntry → HandleEntry) : (s.modEntry x f).hbm = s.hbm := rfl
@[simp] theorem State.modEntry_host (f : HandleEntry → HandleEntry) : (s.modEntry x f).host = s.host.modEntry x f := rfl
@[simp] theorem State.modEntry_prog (f : HandleEntry → HandleEntry) : (s.modEntry x f).prog = s.prog := rfl
@[simp] theorem State.modEntry_cad (f : HandleEntry → HandleEntry) : (s.modEntry x f).cad = s.cad := rfl
@[simp] theorem State.modEntry_fab (f : HandleEntry → HandleEntry) : (s.modEntry x f).fab = s.fab := rfl
@[simp] theorem State.modEntry_mc (f : HandleEntry → HandleEntry) : (s.modEntry x f).mc = s.mc := rfl
@[simp] theorem State.modEntry_pwr (f : HandleEntry → HandleEntry) : (s.modEntry x f).pwr = s.pwr := rfl
@[simp] theorem State.modEntry_clk (f : HandleEntry → HandleEntry) : (s.modEntry x f).clk = s.clk := rfl
@[simp] theorem State.modEntry_surveySeq (f : HandleEntry → HandleEntry) : (s.modEntry x f).surveySeq = s.surveySeq := rfl
@[simp] theorem State.modEntry_surveyRec (f : HandleEntry → HandleEntry) : (s.modEntry x f).surveyRec = s.surveyRec := rfl

@[simp] theorem State.dramWrite_pending : (s.dramWrite a bytes).pending = s.pending := rfl
@[simp] theorem State.dramWrite_freeIx : (s.dramWrite a bytes).freeIx = s.freeIx := rfl
@[simp] theorem State.dramWrite_now : (s.dramWrite a bytes).now = s.now := rfl
@[simp] theorem State.dramWrite_dram : (s.dramWrite a bytes).dram = Mem.write (dramByte s.dramEpoch) s.dram a bytes := rfl
@[simp] theorem State.dramWrite_dramEpoch : (s.dramWrite a bytes).dramEpoch = s.dramEpoch := rfl
@[simp] theorem State.dramWrite_poison : (s.dramWrite a bytes).poison = s.poison.filter fun u => !(decide (a ≤ 256 * u) && decide (256 * u + 256 ≤ a + bytes.length)) := rfl
@[simp] theorem State.dramWrite_hostMem : (s.dramWrite a bytes).hostMem = s.hostMem := rfl
@[simp] theorem State.dramWrite_cores : (s.dramWrite a bytes).cores = s.cores := rfl
@[simp] theorem State.dramWrite_sites : (s.dramWrite a bytes).sites = s.sites := rfl
@[simp] theorem State.dramWrite_upsets : (s.dramWrite a bytes).upsets = s.upsets := rfl
@[simp] theorem State.dramWrite_sramUpsets : (s.dramWrite a bytes).sramUpsets = s.sramUpsets := rfl
@[simp] theorem State.dramWrite_hbm : (s.dramWrite a bytes).hbm = s.hbm := rfl
@[simp] theorem State.dramWrite_host : (s.dramWrite a bytes).host = s.host := rfl
@[simp] theorem State.dramWrite_prog : (s.dramWrite a bytes).prog = s.prog := rfl
@[simp] theorem State.dramWrite_cad : (s.dramWrite a bytes).cad = s.cad := rfl
@[simp] theorem State.dramWrite_fab : (s.dramWrite a bytes).fab = s.fab := rfl
@[simp] theorem State.dramWrite_mc : (s.dramWrite a bytes).mc = s.mc := rfl
@[simp] theorem State.dramWrite_pwr : (s.dramWrite a bytes).pwr = s.pwr := rfl
@[simp] theorem State.dramWrite_clk : (s.dramWrite a bytes).clk = s.clk := rfl
@[simp] theorem State.dramWrite_surveySeq : (s.dramWrite a bytes).surveySeq = s.surveySeq := rfl
@[simp] theorem State.dramWrite_surveyRec : (s.dramWrite a bytes).surveyRec = s.surveyRec := rfl

@[simp] theorem State.hostWrite_pending : (s.hostWrite a bytes).pending = s.pending := rfl
@[simp] theorem State.hostWrite_freeIx : (s.hostWrite a bytes).freeIx = s.freeIx := rfl
@[simp] theorem State.hostWrite_now : (s.hostWrite a bytes).now = s.now := rfl
@[simp] theorem State.hostWrite_dram : (s.hostWrite a bytes).dram = s.dram := rfl
@[simp] theorem State.hostWrite_dramEpoch : (s.hostWrite a bytes).dramEpoch = s.dramEpoch := rfl
@[simp] theorem State.hostWrite_poison : (s.hostWrite a bytes).poison = s.poison := rfl
@[simp] theorem State.hostWrite_hostMem : (s.hostWrite a bytes).hostMem = Mem.put s.hostMem a bytes := rfl
@[simp] theorem State.hostWrite_cores : (s.hostWrite a bytes).cores = s.cores := rfl
@[simp] theorem State.hostWrite_sites : (s.hostWrite a bytes).sites = s.sites := rfl
@[simp] theorem State.hostWrite_upsets : (s.hostWrite a bytes).upsets = s.upsets := rfl
@[simp] theorem State.hostWrite_sramUpsets : (s.hostWrite a bytes).sramUpsets = s.sramUpsets := rfl
@[simp] theorem State.hostWrite_hbm : (s.hostWrite a bytes).hbm = s.hbm := rfl
@[simp] theorem State.hostWrite_host : (s.hostWrite a bytes).host = s.host := rfl
@[simp] theorem State.hostWrite_prog : (s.hostWrite a bytes).prog = s.prog := rfl
@[simp] theorem State.hostWrite_cad : (s.hostWrite a bytes).cad = s.cad := rfl
@[simp] theorem State.hostWrite_fab : (s.hostWrite a bytes).fab = s.fab := rfl
@[simp] theorem State.hostWrite_mc : (s.hostWrite a bytes).mc = s.mc := rfl
@[simp] theorem State.hostWrite_pwr : (s.hostWrite a bytes).pwr = s.pwr := rfl
@[simp] theorem State.hostWrite_clk : (s.hostWrite a bytes).clk = s.clk := rfl
@[simp] theorem State.hostWrite_surveySeq : (s.hostWrite a bytes).surveySeq = s.surveySeq := rfl
@[simp] theorem State.hostWrite_surveyRec : (s.hostWrite a bytes).surveyRec = s.surveyRec := rfl

@[simp] theorem State.bump_pending : (s.bump).pending = s.pending := rfl
@[simp] theorem State.bump_freeIx : (s.bump).freeIx = s.freeIx + 1 := rfl
@[simp] theorem State.bump_now : (s.bump).now = s.now := rfl
@[simp] theorem State.bump_dram : (s.bump).dram = s.dram := rfl
@[simp] theorem State.bump_dramEpoch : (s.bump).dramEpoch = s.dramEpoch := rfl
@[simp] theorem State.bump_poison : (s.bump).poison = s.poison := rfl
@[simp] theorem State.bump_hostMem : (s.bump).hostMem = s.hostMem := rfl
@[simp] theorem State.bump_cores : (s.bump).cores = s.cores := rfl
@[simp] theorem State.bump_sites : (s.bump).sites = s.sites := rfl
@[simp] theorem State.bump_upsets : (s.bump).upsets = s.upsets := rfl
@[simp] theorem State.bump_sramUpsets : (s.bump).sramUpsets = s.sramUpsets := rfl
@[simp] theorem State.bump_hbm : (s.bump).hbm = s.hbm := rfl
@[simp] theorem State.bump_host : (s.bump).host = s.host := rfl
@[simp] theorem State.bump_prog : (s.bump).prog = s.prog := rfl
@[simp] theorem State.bump_cad : (s.bump).cad = s.cad := rfl
@[simp] theorem State.bump_fab : (s.bump).fab = s.fab := rfl
@[simp] theorem State.bump_mc : (s.bump).mc = s.mc := rfl
@[simp] theorem State.bump_pwr : (s.bump).pwr = s.pwr := rfl
@[simp] theorem State.bump_clk : (s.bump).clk = s.clk := rfl
@[simp] theorem State.bump_surveySeq : (s.bump).surveySeq = s.surveySeq := rfl
@[simp] theorem State.bump_surveyRec : (s.bump).surveyRec = s.surveyRec := rfl

@[simp] theorem State.modPl_pending (f : Plough → Plough) : (s.modPl c f).pending = s.pending := rfl
@[simp] theorem State.modPl_freeIx (f : Plough → Plough) : (s.modPl c f).freeIx = s.freeIx := rfl
@[simp] theorem State.modPl_now (f : Plough → Plough) : (s.modPl c f).now = s.now := rfl
@[simp] theorem State.modPl_dram (f : Plough → Plough) : (s.modPl c f).dram = s.dram := rfl
@[simp] theorem State.modPl_dramEpoch (f : Plough → Plough) : (s.modPl c f).dramEpoch = s.dramEpoch := rfl
@[simp] theorem State.modPl_poison (f : Plough → Plough) : (s.modPl c f).poison = s.poison := rfl
@[simp] theorem State.modPl_hostMem (f : Plough → Plough) : (s.modPl c f).hostMem = s.hostMem := rfl
@[simp] theorem State.modPl_cores (f : Plough → Plough) : (s.modPl c f).cores = s.cores.set c.val { s.core c with plough := f (s.core c).plough } c.isLt := rfl
@[simp] theorem State.modPl_sites (f : Plough → Plough) : (s.modPl c f).sites = s.sites := rfl
@[simp] theorem State.modPl_upsets (f : Plough → Plough) : (s.modPl c f).upsets = s.upsets := rfl
@[simp] theorem State.modPl_sramUpsets (f : Plough → Plough) : (s.modPl c f).sramUpsets = s.sramUpsets := rfl
@[simp] theorem State.modPl_hbm (f : Plough → Plough) : (s.modPl c f).hbm = s.hbm := rfl
@[simp] theorem State.modPl_host (f : Plough → Plough) : (s.modPl c f).host = s.host := rfl
@[simp] theorem State.modPl_prog (f : Plough → Plough) : (s.modPl c f).prog = s.prog := rfl
@[simp] theorem State.modPl_cad (f : Plough → Plough) : (s.modPl c f).cad = s.cad := rfl
@[simp] theorem State.modPl_fab (f : Plough → Plough) : (s.modPl c f).fab = s.fab := rfl
@[simp] theorem State.modPl_mc (f : Plough → Plough) : (s.modPl c f).mc = s.mc := rfl
@[simp] theorem State.modPl_pwr (f : Plough → Plough) : (s.modPl c f).pwr = s.pwr := rfl
@[simp] theorem State.modPl_clk (f : Plough → Plough) : (s.modPl c f).clk = s.clk := rfl
@[simp] theorem State.modPl_surveySeq (f : Plough → Plough) : (s.modPl c f).surveySeq = s.surveySeq := rfl
@[simp] theorem State.modPl_surveyRec (f : Plough → Plough) : (s.modPl c f).surveyRec = s.surveyRec := rfl

@[simp] theorem State.modNeedle_pending (f : Needle → Needle) : (s.modNeedle c f).pending = s.pending := rfl
@[simp] theorem State.modNeedle_freeIx (f : Needle → Needle) : (s.modNeedle c f).freeIx = s.freeIx := rfl
@[simp] theorem State.modNeedle_now (f : Needle → Needle) : (s.modNeedle c f).now = s.now := rfl
@[simp] theorem State.modNeedle_dram (f : Needle → Needle) : (s.modNeedle c f).dram = s.dram := rfl
@[simp] theorem State.modNeedle_dramEpoch (f : Needle → Needle) : (s.modNeedle c f).dramEpoch = s.dramEpoch := rfl
@[simp] theorem State.modNeedle_poison (f : Needle → Needle) : (s.modNeedle c f).poison = s.poison := rfl
@[simp] theorem State.modNeedle_hostMem (f : Needle → Needle) : (s.modNeedle c f).hostMem = s.hostMem := rfl
@[simp] theorem State.modNeedle_cores (f : Needle → Needle) : (s.modNeedle c f).cores = s.cores.set c.val { s.core c with needle := f (s.core c).needle } c.isLt := rfl
@[simp] theorem State.modNeedle_sites (f : Needle → Needle) : (s.modNeedle c f).sites = s.sites := rfl
@[simp] theorem State.modNeedle_upsets (f : Needle → Needle) : (s.modNeedle c f).upsets = s.upsets := rfl
@[simp] theorem State.modNeedle_sramUpsets (f : Needle → Needle) : (s.modNeedle c f).sramUpsets = s.sramUpsets := rfl
@[simp] theorem State.modNeedle_hbm (f : Needle → Needle) : (s.modNeedle c f).hbm = s.hbm := rfl
@[simp] theorem State.modNeedle_host (f : Needle → Needle) : (s.modNeedle c f).host = s.host := rfl
@[simp] theorem State.modNeedle_prog (f : Needle → Needle) : (s.modNeedle c f).prog = s.prog := rfl
@[simp] theorem State.modNeedle_cad (f : Needle → Needle) : (s.modNeedle c f).cad = s.cad := rfl
@[simp] theorem State.modNeedle_fab (f : Needle → Needle) : (s.modNeedle c f).fab = s.fab := rfl
@[simp] theorem State.modNeedle_mc (f : Needle → Needle) : (s.modNeedle c f).mc = s.mc := rfl
@[simp] theorem State.modNeedle_pwr (f : Needle → Needle) : (s.modNeedle c f).pwr = s.pwr := rfl
@[simp] theorem State.modNeedle_clk (f : Needle → Needle) : (s.modNeedle c f).clk = s.clk := rfl
@[simp] theorem State.modNeedle_surveySeq (f : Needle → Needle) : (s.modNeedle c f).surveySeq = s.surveySeq := rfl
@[simp] theorem State.modNeedle_surveyRec (f : Needle → Needle) : (s.modNeedle c f).surveyRec = s.surveyRec := rfl

/-! ### Reading back what was written -/

@[simp] theorem State.core_setCore (k : Core) (d : CoreId) : (s.setCore c k).core d = if d = c then k else s.core d := by
  simp only [State.core, State.setCore, Fin.getElem_fin, Vector.getElem_set, Fin.ext_iff]
  split <;> split <;> simp_all

@[simp] theorem State.core_modCore (f : Core → Core) (d : CoreId) :
    (s.modCore c f).core d = if d = c then f (s.core c) else s.core d := State.core_setCore s c _ d

@[simp] theorem State.core_modPl (f : Plough → Plough) (d : CoreId) :
    (s.modPl c f).core d = if d = c then { s.core c with plough := f (s.core c).plough } else s.core d :=
  State.core_modCore s c _ d

@[simp] theorem State.core_modNeedle (f : Needle → Needle) (d : CoreId) :
    (s.modNeedle c f).core d = if d = c then { s.core c with needle := f (s.core c).needle } else s.core d :=
  State.core_modCore s c _ d

@[simp] theorem State.site_modSite (f : Site → Site) (k : SiteId) :
    (s.modSite i f).site k = if k = i then f (s.site i) else s.site k := by
  simp only [State.site, State.modSite, Fin.getElem_fin, Vector.getElem_set, Fin.ext_iff]
  split <;> split <;> simp_all

@[simp] theorem State.stack_modStack (f : Stack → Stack) (k : StackId) :
    (s.modStack j f).stack k = if k = j then f (s.stack j) else s.stack k := by
  simp only [State.stack, State.modStack, Fin.getElem_fin, Vector.getElem_set, Fin.ext_iff]
  split <;> split <;> simp_all

@[simp] theorem State.link_modLink (f : Link → Link) (k : LaneId) :
    (s.modLink l f).link k = if k = l then f (s.link l) else s.link k := by
  simp only [State.link, State.modLink, Fin.getElem_fin, Vector.getElem_set, Fin.ext_iff]
  split <;> split <;> simp_all

/-- Two updates of one core are one. -/
theorem State.modCore_modCore (f g : Core → Core) : (s.modCore c f).modCore c g = s.modCore c fun k => g (f k) := by
  simp [State.modCore, State.setCore, State.core]

/-- Updates that agree on the core's content give one state. -/
theorem State.modCore_congr (f g : Core → Core) (h : f (s.core c) = g (s.core c)) : s.modCore c f = s.modCore c g := by
  simp [State.modCore, h]

end Sys2Proof.Machine
end

