-- ==== Sys2Proof/Laws/Drivers.lean ====
section
/-!
SUPPORT. What the shared operations do where a core stands at a word or an instruction, and what a command does that is not its turn.
-/

namespace Sys2Proof.Machine

/-! ### The Plough -/

/-- An access that meets no error changes nothing. -/
theorem State.touch_none {s : State} {c : CoreId} {mem : CoreMem} {a n : Nat} (q : Nat) (h : (s.core c).marksIn mem a n = []) :
    s.touch c mem a n q = s := by simp [State.touch, h]

theorem Core.marksIn_none {k : Core} (h : k.ecc = []) (mem : CoreMem) (a n : Nat) : k.marksIn mem a n = [] := by
  simp [Core.marksIn, h]

/-- A fetch buffer that holds the line of the next instruction is not read again. -/
theorem State.fetchLine_held {s : State} {c : CoreId}
    (h : (s.core c).plough.line.any (·.1 == (s.core c).plough.ip / 16) = true) : s.fetchLine c = s := by
  simp only [State.fetchLine, h, if_true]

/-- A line read where no word is in error changes the fetch buffer alone. -/
theorem State.fetchLine_read {s : State} {c : CoreId} (he : (s.core c).ecc = [])
    (h : (s.core c).plough.line.any (·.1 == (s.core c).plough.ip / 16) = false) :
    s.fetchLine c = s.modPl c fun p =>
      { p with line := some ((s.core c).plough.ip / 16,
          BitVec.ofNat 2048 ((s.core c).readNat .endpaper (256 * ((s.core c).plough.ip / 16)) 256)) } := by
  simp only [State.fetchLine, h, State.touch_none _ (Core.marksIn_none he _ _ _)]
  rfl

/-- A kernel that stands at an instruction carries it out on its command. -/
theorem ploughDo_at {c : CoreId} {s : State} {r op : Nat} (h : s.atInstr c r) (hop : iOp r = op) (f : Nat → State → State) :
    ploughDo c op f s = .next (f r s) := by
  obtain ⟨h1, h2, h3, h4, h5, h6, h7, h8⟩ := h
  have h1' : s.prog.active ≠ none := by intro hh; simp [hh] at h1
  subst hop
  simp only [ploughDo, State.fetchLine_held h6, h7, h8]
  rw [if_neg (by simp [h2, h3, h4, h1']), if_neg (by omega)]
  simp [h1']

theorem ploughRegs_at {c : CoreId} {s : State} {r op : Nat} (h : s.atInstr c r) (hop : iOp r = op) (f : Nat → Plough → Plough) :
    ploughRegs c op f s = .next (s.modCore c fun k => { k with plough := (f r (s.core c).plough).go }) := by
  rw [ploughRegs, ploughDo_at h hop]; rfl

/-- Where the line of the next instruction is not in the fetch buffer and no word is in error, the command of the instruction does what it
does with the line there. -/
theorem ploughDo_fetches {c : CoreId} {s : State} {r op : Nat} (he : (s.core c).ecc = [])
    (hl : (s.core c).plough.line.any (·.1 == (s.core c).plough.ip / 16) = false) (h : (s.fetchLine c).atInstr c r) (hop : iOp r = op)
    (f : Nat → State → State) : ploughDo c op f s = ploughDo c op f (s.fetchLine c) := by
  rw [ploughDo_at h hop]
  obtain ⟨h1, h2, h3, h4, h5, h6, h7, h8⟩ := h
  have e := State.fetchLine_read he hl
  subst hop
  simp only [ploughDo, h7]
  have ea : s.prog.active ≠ none := by intro hh; simp [e, hh] at h1
  have e2 : s.aclkRuns = true := by simpa [e, State.aclkRuns] using h2
  simp only [e, State.core_modPl, if_true] at h3 h4 h5 h8
  rw [if_neg (by simp [h3, h4, ea, e2]), if_neg (by omega)]
  have eb : (s.fetchLine c).prog.active ≠ none := by rw [e]; simpa using ea
  have h9 : instrOk r ((s.core c).plough.layer == 0xFFFF) = true := h8
  simp [h9, eb]

/-- Another command than the instruction's, or one while no kernel runs, changes nothing. -/
theorem ploughDo_other {c : CoreId} {s : State} {op : Nat} (f : Nat → State → State)
    (h : ¬ ((s.core c).plough.running = true ∧ (s.core c).plough.halted = false ∧ s.prog.active.isSome = true ∧ s.aclkRuns = true)
      ∨ ((s.core c).plough.ip < 4096
          ∧ instrOk ((s.fetchLine c).core c).plough.instr ((s.core c).plough.layer == 0xFFFF) = true
          ∧ iOp ((s.fetchLine c).core c).plough.instr ≠ op)) :
    ploughDo c op f s = .next s := by
  simp only [ploughDo]
  split
  · rfl
  · next h1 =>
    have : s.prog.active.isSome = true := by cases hh : s.prog.active <;> simp_all
    rcases h with h | ⟨h2, h3, h4⟩
    · simp_all
    · rw [if_neg (by omega)]; simp [h3, h4]

/-- An instruction that R194 refuses is a PLOUGH_FAULT, but where an uncorrectable error of a compiled kernel has made it one. -/
theorem ploughDo_refused {c : CoreId} {s : State} {op : Nat} (f : Nat → State → State)
    (h1 : (s.core c).plough.running = true) (h2 : (s.core c).plough.halted = false) (h3 : s.prog.active.isSome = true)
    (ha : s.aclkRuns = true)
    (h : 4096 ≤ (s.core c).plough.ip
      ∨ ((s.core c).plough.line.any (·.1 == (s.core c).plough.ip / 16) = true
          ∧ instrOk (s.core c).plough.instr ((s.core c).plough.layer == 0xFFFF) = false
          ∧ ((s.core c).plough.direct = true ∨ (s.core c).brokenInstr = false))) :
    ploughDo c op f s = .next (s.ploughFault c) := by
  have h3' : s.prog.active ≠ none := by intro hh; simp [hh] at h3
  simp only [ploughDo]
  rw [if_neg (by simp [h1, h2, h3', ha])]
  split
  · rfl
  · next h4 =>
    rcases h with h | ⟨hl, h, hd⟩
    · exact absurd h h4
    · rw [State.fetchLine_held hl]
      rcases hd with hd | hd <;> simp [h, h3', hd]

/-- Reserved bits of an allowed instruction are clear. -/
theorem instrOk_bit {r : Nat} {u : Bool} (h : instrOk r u = true) {fs : List (Nat × Nat)} (ho : opBits (iOp r) = some fs) (b : Nat)
    (hb : (fieldMask ((0, 8) :: fs)).testBit b = false) : r.testBit b = false := by
  unfold instrOk at h
  rw [ho] at h
  simp only [Bool.and_eq_true, beq_iff_eq] at h
  have h1 : (r &&& fieldMask ((0, 8) :: fs)) = r := h.1
  rw [← h1, Nat.testBit_and, hb, Bool.and_false]

theorem bitOf_eq_testBit (x i : Nat) : bitOf x i = x.testBit i := by
  rw [bitOf, Nat.testBit_eq_decide_div_mod_eq]

/-- Writing lanes of V[VD]. -/
theorem Plough.lanesSet_setV (p : Plough) (r : Nat) (f : Nat → Nat) : p.lanesSet r f (p.setV r f).go := by
  have hv : iVD r < 32 := by unfold iVD fld; omega
  refine ⟨rfl, fun i hi => ?_, fun l hl => ?_⟩
  · simp [Plough.go, Plough.setV, Plough.vr, Vector.getD, Ne.symm hi]
  · simp [Plough.go, Plough.setV, Plough.vr, laneOf, mergeLanes, hv, hl, Vector.getD]
    split <;> rfl

theorem laneOf_set {v : Lanes} {x : W32} {l : Nat} (hl : l < 64) : laneOf (v.set 0 x) l = if l = 0 then x.toNat else laneOf v l := by
  have : ∀ (w : Lanes), w.getD l 0 = w[l] := fun w => by simp [Vector.getD, hl]
  rw [laneOf, laneOf, this, this, Vector.getElem_set]
  grind

/-- Writing a scalar result. -/
theorem Plough.scalarSet_setScalar (p : Plough) (r x : Nat) : p.scalarSet r x (p.setScalar r x).go := by
  have hv : iVD r < 32 := by unfold iVD fld; omega
  have hs : iSreg r < 16 := by unfold iSreg fld; omega
  refine ⟨rfl, fun i hi => ?_, fun l hl => ?_, fun i hi => ?_, ?_⟩
  · simp [Plough.go, Plough.setScalar, Plough.setS, Plough.vr, Vector.getD, Ne.symm hi]
  · have e : (p.setScalar r x).go.vr (iVD r) = (p.vr (iVD r)).set 0 (BitVec.ofNat 32 x) := by
      simp [Plough.go, Plough.setScalar, Plough.setS, Plough.vr, Vector.getD, hv]
    rw [e, laneOf_set hl]
    simp
  · simp [Plough.go, Plough.setScalar, Plough.setS, Plough.sreg, Vector.getD, Ne.symm hi]
  · simp [Plough.go, Plough.setScalar, Plough.setS, Plough.sreg, Vector.getD, hs]
    omega

/-! ### The Needle -/

/-- A Needle that stands at a word takes it on its command. -/
theorem needleDo_at {img : Image} {c : CoreId} {s : State} {no w op : Nat} (h : s.atWord img c no w) (hop : wOp w = op)
    (f : Image → Nat → Nat → State → State) : needleDo c op f s = .next (f img no w (s.awlReads c)) := by
  obtain ⟨h1, h2, h3, h4, h5, h6, h7⟩ := h
  subst hop
  simp only [needleDo, h1, h6]
  rw [if_neg (by simp [h2, h3, h4, h5]), if_neg (by cases hd : img.direct <;> simp_all)]
  simp

/-- Reading on changes the core's queue and what its words arm, no state beside the cores. -/
theorem State.awlReads_prog (s : State) (c : CoreId) : (s.awlReads c).prog = s.prog := by
  simp only [State.awlReads]
  split
  · rfl
  · split <;> rfl

end Sys2Proof.Machine
end

