-- ==== Sys2Proof/Laws/Ops.lean ====
section
/-!
SUPPORT. What the shared operations can do, said once: the entry of the log changes the log alone, an event the host interface and the log,
a completion the host interface, a fault the faults of the step.
-/

namespace Sys2Proof.Machine

/-! ### The log (R339, R340) -/

@[simp] theorem Mc.enter_up (m : Mc) (e : LogEntry) : (m.enter e).up = m.up := by
  simp only [Mc.enter]; split <;> (try split) <;> rfl

@[simp] theorem Mc.enter_recovery (m : Mc) (e : LogEntry) : (m.enter e).recovery = m.recovery := by
  simp only [Mc.enter]; split <;> (try split) <;> rfl

@[simp] theorem Mc.enter_restartCause (m : Mc) (e : LogEntry) : (m.enter e).restartCause = m.restartCause := by
  simp only [Mc.enter]; split <;> (try split) <;> rfl

@[simp] theorem Mc.enter_restarts (m : Mc) (e : LogEntry) : (m.enter e).restarts = m.restarts := by
  simp only [Mc.enter]; split <;> (try split) <;> rfl

@[simp] theorem Mc.enter_fuses (m : Mc) (e : LogEntry) : (m.enter e).fuses = m.fuses := by
  simp only [Mc.enter]; split <;> (try split) <;> rfl

@[simp] theorem Mc.enter_fuseArray (m : Mc) (e : LogEntry) : (m.enter e).fuseArray = m.fuseArray := by
  simp only [Mc.enter]; split <;> (try split) <;> rfl

@[simp] theorem Mc.enter_sram (m : Mc) (e : LogEntry) : (m.enter e).sram = m.sram := by
  simp only [Mc.enter]; split <;> (try split) <;> rfl

@[simp] theorem Mc.enter_portClosed (m : Mc) (e : LogEntry) : (m.enter e).portClosed = m.portClosed := by
  simp only [Mc.enter]; split <;> (try split) <;> rfl

@[simp] theorem Mc.enter_tamperCause (m : Mc) (e : LogEntry) : (m.enter e).tamperCause = m.tamperCause := by
  simp only [Mc.enter]; split <;> (try split) <;> rfl

@[simp] theorem Mc.enter_wipeRetries (m : Mc) (e : LogEntry) : (m.enter e).wipeRetries = m.wipeRetries := by
  simp only [Mc.enter]; split <;> (try split) <;> rfl

@[simp] theorem Mc.enter_secretClosed (m : Mc) (e : LogEntry) : (m.enter e).secretClosed = m.secretClosed := by
  simp only [Mc.enter]; split <;> (try split) <;> rfl

@[simp] theorem Mc.enter_utc (m : Mc) (e : LogEntry) : (m.enter e).utc = m.utc := by
  simp only [Mc.enter]; split <;> (try split) <;> rfl

@[simp] theorem Mc.enter_utcValid (m : Mc) (e : LogEntry) : (m.enter e).utcValid = m.utcValid := by
  simp only [Mc.enter]; split <;> (try split) <;> rfl

@[simp] theorem Mc.enter_nonce (m : Mc) (e : LogEntry) : (m.enter e).nonce = m.nonce := by
  simp only [Mc.enter]; split <;> (try split) <;> rfl

@[simp] theorem Mc.enter_flashLog (m : Mc) (e : LogEntry) : (m.enter e).flashLog = m.flashLog := by
  simp only [Mc.enter]; split <;> (try split) <;> rfl

@[simp] theorem Mc.enter_images (m : Mc) (e : LogEntry) : (m.enter e).images = m.images := by
  simp only [Mc.enter]; split <;> (try split) <;> rfl

@[simp] theorem Mc.enter_running (m : Mc) (e : LogEntry) : (m.enter e).running = m.running := by
  simp only [Mc.enter]; split <;> (try split) <;> rfl

@[simp] theorem Mc.enter_written (m : Mc) (e : LogEntry) : (m.enter e).written = m.written := by
  simp only [Mc.enter]; split <;> (try split) <;> rfl

@[simp] theorem Mc.enter_pending (m : Mc) (e : LogEntry) : (m.enter e).pending = m.pending := by
  simp only [Mc.enter]; split <;> (try split) <;> rfl

@[simp] theorem Mc.enter_phase (m : Mc) (e : LogEntry) : (m.enter e).phase = m.phase := by
  simp only [Mc.enter]; split <;> (try split) <;> rfl

@[simp] theorem Mc.enter_agent (m : Mc) (e : LogEntry) : (m.enter e).agent = m.agent := by
  simp only [Mc.enter]; split <;> (try split) <;> rfl

@[simp] theorem Mc.enter_component (m : Mc) (e : LogEntry) : (m.enter e).component = m.component := by
  simp only [Mc.enter]; split <;> (try split) <;> rfl

@[simp] theorem Mc.enter_staging (m : Mc) (e : LogEntry) : (m.enter e).staging = m.staging := by
  simp only [Mc.enter]; split <;> (try split) <;> rfl

@[simp] theorem Mc.enter_chunk (m : Mc) (e : LogEntry) : (m.enter e).chunk = m.chunk := by
  simp only [Mc.enter]; split <;> (try split) <;> rfl

@[simp] theorem Mc.enter_oldBinder (m : Mc) (e : LogEntry) : (m.enter e).oldBinder = m.oldBinder := by
  simp only [Mc.enter]; split <;> (try split) <;> rfl

@[simp] theorem Mc.enter_profiles (m : Mc) (e : LogEntry) : (m.enter e).profiles = m.profiles := by
  simp only [Mc.enter]; split <;> (try split) <;> rfl

@[simp] theorem Mc.enter_profSelected (m : Mc) (e : LogEntry) : (m.enter e).profSelected = m.profSelected := by
  simp only [Mc.enter]; split <;> (try split) <;> rfl

@[simp] theorem Mc.enter_profPins (m : Mc) (e : LogEntry) : (m.enter e).profPins = m.profPins := by
  simp only [Mc.enter]; split <;> (try split) <;> rfl

@[simp] theorem Mc.enter_activeProfile (m : Mc) (e : LogEntry) : (m.enter e).activeProfile = m.activeProfile := by
  simp only [Mc.enter]; split <;> (try split) <;> rfl

@[simp] theorem Mc.enter_activeIndex (m : Mc) (e : LogEntry) : (m.enter e).activeIndex = m.activeIndex := by
  simp only [Mc.enter]; split <;> (try split) <;> rfl

@[simp] theorem Mc.enter_softRepairs (m : Mc) (e : LogEntry) : (m.enter e).softRepairs = m.softRepairs := by
  simp only [Mc.enter]; split <;> (try split) <;> rfl

@[simp] theorem Mc.enter_die (m : Mc) (e : LogEntry) : (m.enter e).die = m.die := by
  simp only [Mc.enter]; split <;> (try split) <;> rfl

@[simp] theorem Mc.enter_stackT (m : Mc) (e : LogEntry) : (m.enter e).stackT = m.stackT := by
  simp only [Mc.enter]; split <;> (try split) <;> rfl

@[simp] theorem Mc.enter_board (m : Mc) (e : LogEntry) : (m.enter e).board = m.board := by
  simp only [Mc.enter]; split <;> (try split) <;> rfl

@[simp] theorem Mc.enter_coolIn (m : Mc) (e : LogEntry) : (m.enter e).coolIn = m.coolIn := by
  simp only [Mc.enter]; split <;> (try split) <;> rfl

@[simp] theorem Mc.enter_coolOut (m : Mc) (e : LogEntry) : (m.enter e).coolOut = m.coolOut := by
  simp only [Mc.enter]; split <;> (try split) <;> rfl

@[simp] theorem Mc.enter_rails (m : Mc) (e : LogEntry) : (m.enter e).rails = m.rails := by
  simp only [Mc.enter]; split <;> (try split) <;> rfl

@[simp] theorem Mc.enter_railsCurrent (m : Mc) (e : LogEntry) : (m.enter e).railsCurrent = m.railsCurrent := by
  simp only [Mc.enter]; split <;> (try split) <;> rfl

@[simp] theorem Mc.enter_power (m : Mc) (e : LogEntry) : (m.enter e).power = m.power := by
  simp only [Mc.enter]; split <;> (try split) <;> rfl

@[simp] theorem Mc.enter_page (m : Mc) (e : LogEntry) : (m.enter e).page = m.page := by
  simp only [Mc.enter]; split <;> (try split) <;> rfl

@[simp] theorem Mc.enter_borrowed (m : Mc) (e : LogEntry) : (m.enter e).borrowed = m.borrowed := by
  simp only [Mc.enter]; split <;> (try split) <;> rfl

@[simp] theorem Mc.enter_borrowedAt (m : Mc) (e : LogEntry) : (m.enter e).borrowedAt = m.borrowedAt := by
  simp only [Mc.enter]; split <;> (try split) <;> rfl

@[simp] theorem Mc.enter_excluded (m : Mc) (e : LogEntry) : (m.enter e).excluded = m.excluded := by
  simp only [Mc.enter]; split <;> (try split) <;> rfl

@[simp] theorem Mc.enter_latched (m : Mc) (e : LogEntry) : (m.enter e).latched = m.latched := by
  simp only [Mc.enter]; split <;> (try split) <;> rfl

@[simp] theorem Mc.enter_recovering (m : Mc) (e : LogEntry) : (m.enter e).recovering = m.recovering := by
  simp only [Mc.enter]; split <;> (try split) <;> rfl

@[simp] theorem Mc.enter_fabricTried (m : Mc) (e : LogEntry) : (m.enter e).fabricTried = m.fabricTried := by
  simp only [Mc.enter]; split <;> (try split) <;> rfl

@[simp] theorem Mc.enter_askedSerial (m : Mc) (e : LogEntry) : (m.enter e).askedSerial = m.askedSerial := by
  simp only [Mc.enter]; split <;> (try split) <;> rfl

@[simp] theorem Mc.enter_certChain (m : Mc) (e : LogEntry) : (m.enter e).certChain = m.certChain := by
  simp only [Mc.enter]; split <;> (try split) <;> rfl

@[simp] theorem Mc.enter_eid (m : Mc) (e : LogEntry) : (m.enter e).eid = m.eid := by
  simp only [Mc.enter]; split <;> (try split) <;> rfl

@[simp] theorem Mc.enter_i3cAddress (m : Mc) (e : LogEntry) : (m.enter e).i3cAddress = m.i3cAddress := by
  simp only [Mc.enter]; split <;> (try split) <;> rfl

@[simp] theorem Mc.enter_spdm (m : Mc) (e : LogEntry) : (m.enter e).spdm = m.spdm := by
  simp only [Mc.enter]; split <;> (try split) <;> rfl

@[simp] theorem Mc.enter_answer (m : Mc) (e : LogEntry) : (m.enter e).answer = m.answer := by
  simp only [Mc.enter]; split <;> (try split) <;> rfl

@[simp] theorem Mc.append_up (m : Mc) (e : LogEntry) : (m.append e).up = m.up := by
  simp only [Mc.append]; split <;> simp

@[simp] theorem Mc.append_recovery (m : Mc) (e : LogEntry) : (m.append e).recovery = m.recovery := by
  simp only [Mc.append]; split <;> simp

@[simp] theorem Mc.append_restartCause (m : Mc) (e : LogEntry) : (m.append e).restartCause = m.restartCause := by
  simp only [Mc.append]; split <;> simp

@[simp] theorem Mc.append_restarts (m : Mc) (e : LogEntry) : (m.append e).restarts = m.restarts := by
  simp only [Mc.append]; split <;> simp

@[simp] theorem Mc.append_fuses (m : Mc) (e : LogEntry) : (m.append e).fuses = m.fuses := by
  simp only [Mc.append]; split <;> simp

@[simp] theorem Mc.append_fuseArray (m : Mc) (e : LogEntry) : (m.append e).fuseArray = m.fuseArray := by
  simp only [Mc.append]; split <;> simp

@[simp] theorem Mc.append_sram (m : Mc) (e : LogEntry) : (m.append e).sram = m.sram := by
  simp only [Mc.append]; split <;> simp

@[simp] theorem Mc.append_portClosed (m : Mc) (e : LogEntry) : (m.append e).portClosed = m.portClosed := by
  simp only [Mc.append]; split <;> simp

@[simp] theorem Mc.append_tamperCause (m : Mc) (e : LogEntry) : (m.append e).tamperCause = m.tamperCause := by
  simp only [Mc.append]; split <;> simp

@[simp] theorem Mc.append_wipeRetries (m : Mc) (e : LogEntry) : (m.append e).wipeRetries = m.wipeRetries := by
  simp only [Mc.append]; split <;> simp

@[simp] theorem Mc.append_secretClosed (m : Mc) (e : LogEntry) : (m.append e).secretClosed = m.secretClosed := by
  simp only [Mc.append]; split <;> simp

@[simp] theorem Mc.append_utc (m : Mc) (e : LogEntry) : (m.append e).utc = m.utc := by
  simp only [Mc.append]; split <;> simp

@[simp] theorem Mc.append_utcValid (m : Mc) (e : LogEntry) : (m.append e).utcValid = m.utcValid := by
  simp only [Mc.append]; split <;> simp

@[simp] theorem Mc.append_nonce (m : Mc) (e : LogEntry) : (m.append e).nonce = m.nonce := by
  simp only [Mc.append]; split <;> simp

@[simp] theorem Mc.append_flashLog (m : Mc) (e : LogEntry) : (m.append e).flashLog = m.flashLog := by
  simp only [Mc.append]; split <;> simp

@[simp] theorem Mc.append_images (m : Mc) (e : LogEntry) : (m.append e).images = m.images := by
  simp only [Mc.append]; split <;> simp

@[simp] theorem Mc.append_running (m : Mc) (e : LogEntry) : (m.append e).running = m.running := by
  simp only [Mc.append]; split <;> simp

@[simp] theorem Mc.append_written (m : Mc) (e : LogEntry) : (m.append e).written = m.written := by
  simp only [Mc.append]; split <;> simp

@[simp] theorem Mc.append_pending (m : Mc) (e : LogEntry) : (m.append e).pending = m.pending := by
  simp only [Mc.append]; split <;> simp

@[simp] theorem Mc.append_phase (m : Mc) (e : LogEntry) : (m.append e).phase = m.phase := by
  simp only [Mc.append]; split <;> simp

@[simp] theorem Mc.append_agent (m : Mc) (e : LogEntry) : (m.append e).agent = m.agent := by
  simp only [Mc.append]; split <;> simp

@[simp] theorem Mc.append_component (m : Mc) (e : LogEntry) : (m.append e).component = m.component := by
  simp only [Mc.append]; split <;> simp

@[simp] theorem Mc.append_staging (m : Mc) (e : LogEntry) : (m.append e).staging = m.staging := by
  simp only [Mc.append]; split <;> simp

@[simp] theorem Mc.append_chunk (m : Mc) (e : LogEntry) : (m.append e).chunk = m.chunk := by
  simp only [Mc.append]; split <;> simp

@[simp] theorem Mc.append_oldBinder (m : Mc) (e : LogEntry) : (m.append e).oldBinder = m.oldBinder := by
  simp only [Mc.append]; split <;> simp

@[simp] theorem Mc.append_profiles (m : Mc) (e : LogEntry) : (m.append e).profiles = m.profiles := by
  simp only [Mc.append]; split <;> simp

@[simp] theorem Mc.append_profSelected (m : Mc) (e : LogEntry) : (m.append e).profSelected = m.profSelected := by
  simp only [Mc.append]; split <;> simp

@[simp] theorem Mc.append_profPins (m : Mc) (e : LogEntry) : (m.append e).profPins = m.profPins := by
  simp only [Mc.append]; split <;> simp

@[simp] theorem Mc.append_activeProfile (m : Mc) (e : LogEntry) : (m.append e).activeProfile = m.activeProfile := by
  simp only [Mc.append]; split <;> simp

@[simp] theorem Mc.append_activeIndex (m : Mc) (e : LogEntry) : (m.append e).activeIndex = m.activeIndex := by
  simp only [Mc.append]; split <;> simp

@[simp] theorem Mc.append_softRepairs (m : Mc) (e : LogEntry) : (m.append e).softRepairs = m.softRepairs := by
  simp only [Mc.append]; split <;> simp

@[simp] theorem Mc.append_die (m : Mc) (e : LogEntry) : (m.append e).die = m.die := by
  simp only [Mc.append]; split <;> simp

@[simp] theorem Mc.append_stackT (m : Mc) (e : LogEntry) : (m.append e).stackT = m.stackT := by
  simp only [Mc.append]; split <;> simp

@[simp] theorem Mc.append_board (m : Mc) (e : LogEntry) : (m.append e).board = m.board := by
  simp only [Mc.append]; split <;> simp

@[simp] theorem Mc.append_coolIn (m : Mc) (e : LogEntry) : (m.append e).coolIn = m.coolIn := by
  simp only [Mc.append]; split <;> simp

@[simp] theorem Mc.append_coolOut (m : Mc) (e : LogEntry) : (m.append e).coolOut = m.coolOut := by
  simp only [Mc.append]; split <;> simp

@[simp] theorem Mc.append_rails (m : Mc) (e : LogEntry) : (m.append e).rails = m.rails := by
  simp only [Mc.append]; split <;> simp

@[simp] theorem Mc.append_railsCurrent (m : Mc) (e : LogEntry) : (m.append e).railsCurrent = m.railsCurrent := by
  simp only [Mc.append]; split <;> simp

@[simp] theorem Mc.append_power (m : Mc) (e : LogEntry) : (m.append e).power = m.power := by
  simp only [Mc.append]; split <;> simp

@[simp] theorem Mc.append_page (m : Mc) (e : LogEntry) : (m.append e).page = m.page := by
  simp only [Mc.append]; split <;> simp

@[simp] theorem Mc.append_borrowed (m : Mc) (e : LogEntry) : (m.append e).borrowed = m.borrowed := by
  simp only [Mc.append]; split <;> simp

@[simp] theorem Mc.append_borrowedAt (m : Mc) (e : LogEntry) : (m.append e).borrowedAt = m.borrowedAt := by
  simp only [Mc.append]; split <;> simp

@[simp] theorem Mc.append_excluded (m : Mc) (e : LogEntry) : (m.append e).excluded = m.excluded := by
  simp only [Mc.append]; split <;> simp

@[simp] theorem Mc.append_latched (m : Mc) (e : LogEntry) : (m.append e).latched = m.latched := by
  simp only [Mc.append]; split <;> simp

@[simp] theorem Mc.append_recovering (m : Mc) (e : LogEntry) : (m.append e).recovering = m.recovering := by
  simp only [Mc.append]; split <;> simp

@[simp] theorem Mc.append_fabricTried (m : Mc) (e : LogEntry) : (m.append e).fabricTried = m.fabricTried := by
  simp only [Mc.append]; split <;> simp

@[simp] theorem Mc.append_askedSerial (m : Mc) (e : LogEntry) : (m.append e).askedSerial = m.askedSerial := by
  simp only [Mc.append]; split <;> simp

@[simp] theorem Mc.append_certChain (m : Mc) (e : LogEntry) : (m.append e).certChain = m.certChain := by
  simp only [Mc.append]; split <;> simp

@[simp] theorem Mc.append_eid (m : Mc) (e : LogEntry) : (m.append e).eid = m.eid := by
  simp only [Mc.append]; split <;> simp

@[simp] theorem Mc.append_i3cAddress (m : Mc) (e : LogEntry) : (m.append e).i3cAddress = m.i3cAddress := by
  simp only [Mc.append]; split <;> simp

@[simp] theorem Mc.append_spdm (m : Mc) (e : LogEntry) : (m.append e).spdm = m.spdm := by
  simp only [Mc.append]; split <;> simp

@[simp] theorem Mc.append_answer (m : Mc) (e : LogEntry) : (m.append e).answer = m.answer := by
  simp only [Mc.append]; split <;> simp

/-- An entry is dropped only when it is information and the buffer is full; the others are kept in order, with the next SEQUENCE. -/
theorem Mc.enter_logBuf (m : Mc) (e : LogEntry) :
    (m.enter e).logBuf = if m.logBuf.length < 1024 ∨ e.severity ≠ 0 then m.logBuf ++ [{ e with seq := m.logNext }] else m.logBuf := by
  simp only [Mc.enter]
  by_cases h : m.logBuf.length < 1024
  · simp [h]
  · by_cases g : e.severity = 0
    · rw [if_neg h, if_pos g, if_neg (by simp [h, g])]
    · rw [if_neg h, if_neg g, if_pos (.inr g)]

/-- While the MC runs an entry enters the buffer at once; while it restarts it is held (R335). -/
theorem Mc.append_of_up (m : Mc) (e : LogEntry) (h : m.up = true) : m.append e = m.enter e := by
  simp [Mc.append, h]

theorem Mc.append_of_down (m : Mc) (e : LogEntry) (h : m.up = false) (g : m.recovery = false) :
    m.append e = { m with held := m.held ++ [e] } := by
  simp [Mc.append, h, g]

@[simp] theorem State.logAs_pending (s : State) (v : BitVec 2) (c : Nat) (t : Bool) (p : Nat) : (s.logAs v c t p).pending = s.pending := rfl

@[simp] theorem State.logAs_freeIx (s : State) (v : BitVec 2) (c : Nat) (t : Bool) (p : Nat) : (s.logAs v c t p).freeIx = s.freeIx := rfl

@[simp] theorem State.logAs_now (s : State) (v : BitVec 2) (c : Nat) (t : Bool) (p : Nat) : (s.logAs v c t p).now = s.now := rfl

@[simp] theorem State.logAs_dram (s : State) (v : BitVec 2) (c : Nat) (t : Bool) (p : Nat) : (s.logAs v c t p).dram = s.dram := rfl

@[simp] theorem State.logAs_dramEpoch (s : State) (v : BitVec 2) (c : Nat) (t : Bool) (p : Nat) : (s.logAs v c t p).dramEpoch = s.dramEpoch := rfl

@[simp] theorem State.logAs_poison (s : State) (v : BitVec 2) (c : Nat) (t : Bool) (p : Nat) : (s.logAs v c t p).poison = s.poison := rfl

@[simp] theorem State.logAs_hostMem (s : State) (v : BitVec 2) (c : Nat) (t : Bool) (p : Nat) : (s.logAs v c t p).hostMem = s.hostMem := rfl

@[simp] theorem State.logAs_cores (s : State) (v : BitVec 2) (c : Nat) (t : Bool) (p : Nat) : (s.logAs v c t p).cores = s.cores := rfl

@[simp] theorem State.logAs_sites (s : State) (v : BitVec 2) (c : Nat) (t : Bool) (p : Nat) : (s.logAs v c t p).sites = s.sites := rfl

@[simp] theorem State.logAs_upsets (s : State) (v : BitVec 2) (c : Nat) (t : Bool) (p : Nat) : (s.logAs v c t p).upsets = s.upsets := rfl

@[simp] theorem State.logAs_sramUpsets (s : State) (v : BitVec 2) (c : Nat) (t : Bool) (p : Nat) : (s.logAs v c t p).sramUpsets = s.sramUpsets := rfl

@[simp] theorem State.logAs_hbm (s : State) (v : BitVec 2) (c : Nat) (t : Bool) (p : Nat) : (s.logAs v c t p).hbm = s.hbm := rfl

@[simp] theorem State.logAs_host (s : State) (v : BitVec 2) (c : Nat) (t : Bool) (p : Nat) : (s.logAs v c t p).host = s.host := rfl

@[simp] theorem State.logAs_prog (s : State) (v : BitVec 2) (c : Nat) (t : Bool) (p : Nat) : (s.logAs v c t p).prog = s.prog := rfl

@[simp] theorem State.logAs_cad (s : State) (v : BitVec 2) (c : Nat) (t : Bool) (p : Nat) : (s.logAs v c t p).cad = s.cad := rfl

@[simp] theorem State.logAs_fab (s : State) (v : BitVec 2) (c : Nat) (t : Bool) (p : Nat) : (s.logAs v c t p).fab = s.fab := rfl

@[simp] theorem State.logAs_pwr (s : State) (v : BitVec 2) (c : Nat) (t : Bool) (p : Nat) : (s.logAs v c t p).pwr = s.pwr := rfl

@[simp] theorem State.logAs_clk (s : State) (v : BitVec 2) (c : Nat) (t : Bool) (p : Nat) : (s.logAs v c t p).clk = s.clk := rfl

@[simp] theorem State.logAs_surveySeq (s : State) (v : BitVec 2) (c : Nat) (t : Bool) (p : Nat) : (s.logAs v c t p).surveySeq = s.surveySeq := rfl

@[simp] theorem State.logAs_surveyRec (s : State) (v : BitVec 2) (c : Nat) (t : Bool) (p : Nat) : (s.logAs v c t p).surveyRec = s.surveyRec := rfl

@[simp] theorem State.log_pending (s : State) (c : Nat) (xs : List W32) : (s.log c xs).pending = s.pending := rfl

@[simp] theorem State.log_freeIx (s : State) (c : Nat) (xs : List W32) : (s.log c xs).freeIx = s.freeIx := rfl

@[simp] theorem State.log_now (s : State) (c : Nat) (xs : List W32) : (s.log c xs).now = s.now := rfl

@[simp] theorem State.log_dram (s : State) (c : Nat) (xs : List W32) : (s.log c xs).dram = s.dram := rfl

@[simp] theorem State.log_dramEpoch (s : State) (c : Nat) (xs : List W32) : (s.log c xs).dramEpoch = s.dramEpoch := rfl

@[simp] theorem State.log_poison (s : State) (c : Nat) (xs : List W32) : (s.log c xs).poison = s.poison := rfl

@[simp] theorem State.log_hostMem (s : State) (c : Nat) (xs : List W32) : (s.log c xs).hostMem = s.hostMem := rfl

@[simp] theorem State.log_cores (s : State) (c : Nat) (xs : List W32) : (s.log c xs).cores = s.cores := rfl

@[simp] theorem State.log_sites (s : State) (c : Nat) (xs : List W32) : (s.log c xs).sites = s.sites := rfl

@[simp] theorem State.log_upsets (s : State) (c : Nat) (xs : List W32) : (s.log c xs).upsets = s.upsets := rfl

@[simp] theorem State.log_sramUpsets (s : State) (c : Nat) (xs : List W32) : (s.log c xs).sramUpsets = s.sramUpsets := rfl

@[simp] theorem State.log_hbm (s : State) (c : Nat) (xs : List W32) : (s.log c xs).hbm = s.hbm := rfl

@[simp] theorem State.log_host (s : State) (c : Nat) (xs : List W32) : (s.log c xs).host = s.host := rfl

@[simp] theorem State.log_prog (s : State) (c : Nat) (xs : List W32) : (s.log c xs).prog = s.prog := rfl

@[simp] theorem State.log_cad (s : State) (c : Nat) (xs : List W32) : (s.log c xs).cad = s.cad := rfl

@[simp] theorem State.log_fab (s : State) (c : Nat) (xs : List W32) : (s.log c xs).fab = s.fab := rfl

@[simp] theorem State.log_pwr (s : State) (c : Nat) (xs : List W32) : (s.log c xs).pwr = s.pwr := rfl

@[simp] theorem State.log_clk (s : State) (c : Nat) (xs : List W32) : (s.log c xs).clk = s.clk := rfl

@[simp] theorem State.log_surveySeq (s : State) (c : Nat) (xs : List W32) : (s.log c xs).surveySeq = s.surveySeq := rfl

@[simp] theorem State.log_surveyRec (s : State) (c : Nat) (xs : List W32) : (s.log c xs).surveyRec = s.surveyRec := rfl

@[simp] theorem State.logAs_mc_up (s : State) (v : BitVec 2) (c : Nat) (t : Bool) (p : Nat) : (s.logAs v c t p).mc.up = s.mc.up := by
  simp [State.logAs]

@[simp] theorem State.logAs_mc_recovery (s : State) (v : BitVec 2) (c : Nat) (t : Bool) (p : Nat) : (s.logAs v c t p).mc.recovery = s.mc.recovery := by
  simp [State.logAs]

@[simp] theorem State.logAs_mc_restartCause (s : State) (v : BitVec 2) (c : Nat) (t : Bool) (p : Nat) : (s.logAs v c t p).mc.restartCause = s.mc.restartCause := by
  simp [State.logAs]

@[simp] theorem State.logAs_mc_restarts (s : State) (v : BitVec 2) (c : Nat) (t : Bool) (p : Nat) : (s.logAs v c t p).mc.restarts = s.mc.restarts := by
  simp [State.logAs]

@[simp] theorem State.logAs_mc_fuses (s : State) (v : BitVec 2) (c : Nat) (t : Bool) (p : Nat) : (s.logAs v c t p).mc.fuses = s.mc.fuses := by
  simp [State.logAs]

@[simp] theorem State.logAs_mc_fuseArray (s : State) (v : BitVec 2) (c : Nat) (t : Bool) (p : Nat) : (s.logAs v c t p).mc.fuseArray = s.mc.fuseArray := by
  simp [State.logAs]

@[simp] theorem State.logAs_mc_sram (s : State) (v : BitVec 2) (c : Nat) (t : Bool) (p : Nat) : (s.logAs v c t p).mc.sram = s.mc.sram := by
  simp [State.logAs]

@[simp] theorem State.logAs_mc_portClosed (s : State) (v : BitVec 2) (c : Nat) (t : Bool) (p : Nat) : (s.logAs v c t p).mc.portClosed = s.mc.portClosed := by
  simp [State.logAs]

@[simp] theorem State.logAs_mc_tamperCause (s : State) (v : BitVec 2) (c : Nat) (t : Bool) (p : Nat) : (s.logAs v c t p).mc.tamperCause = s.mc.tamperCause := by
  simp [State.logAs]

@[simp] theorem State.logAs_mc_wipeRetries (s : State) (v : BitVec 2) (c : Nat) (t : Bool) (p : Nat) : (s.logAs v c t p).mc.wipeRetries = s.mc.wipeRetries := by
  simp [State.logAs]

@[simp] theorem State.logAs_mc_secretClosed (s : State) (v : BitVec 2) (c : Nat) (t : Bool) (p : Nat) : (s.logAs v c t p).mc.secretClosed = s.mc.secretClosed := by
  simp [State.logAs]

@[simp] theorem State.logAs_mc_utc (s : State) (v : BitVec 2) (c : Nat) (t : Bool) (p : Nat) : (s.logAs v c t p).mc.utc = s.mc.utc := by
  simp [State.logAs]

@[simp] theorem State.logAs_mc_utcValid (s : State) (v : BitVec 2) (c : Nat) (t : Bool) (p : Nat) : (s.logAs v c t p).mc.utcValid = s.mc.utcValid := by
  simp [State.logAs]

@[simp] theorem State.logAs_mc_nonce (s : State) (v : BitVec 2) (c : Nat) (t : Bool) (p : Nat) : (s.logAs v c t p).mc.nonce = s.mc.nonce := by
  simp [State.logAs]

@[simp] theorem State.logAs_mc_flashLog (s : State) (v : BitVec 2) (c : Nat) (t : Bool) (p : Nat) : (s.logAs v c t p).mc.flashLog = s.mc.flashLog := by
  simp [State.logAs]

@[simp] theorem State.logAs_mc_images (s : State) (v : BitVec 2) (c : Nat) (t : Bool) (p : Nat) : (s.logAs v c t p).mc.images = s.mc.images := by
  simp [State.logAs]

@[simp] theorem State.logAs_mc_running (s : State) (v : BitVec 2) (c : Nat) (t : Bool) (p : Nat) : (s.logAs v c t p).mc.running = s.mc.running := by
  simp [State.logAs]

@[simp] theorem State.logAs_mc_written (s : State) (v : BitVec 2) (c : Nat) (t : Bool) (p : Nat) : (s.logAs v c t p).mc.written = s.mc.written := by
  simp [State.logAs]

@[simp] theorem State.logAs_mc_pending (s : State) (v : BitVec 2) (c : Nat) (t : Bool) (p : Nat) : (s.logAs v c t p).mc.pending = s.mc.pending := by
  simp [State.logAs]

@[simp] theorem State.logAs_mc_phase (s : State) (v : BitVec 2) (c : Nat) (t : Bool) (p : Nat) : (s.logAs v c t p).mc.phase = s.mc.phase := by
  simp [State.logAs]

@[simp] theorem State.logAs_mc_agent (s : State) (v : BitVec 2) (c : Nat) (t : Bool) (p : Nat) : (s.logAs v c t p).mc.agent = s.mc.agent := by
  simp [State.logAs]

@[simp] theorem State.logAs_mc_component (s : State) (v : BitVec 2) (c : Nat) (t : Bool) (p : Nat) : (s.logAs v c t p).mc.component = s.mc.component := by
  simp [State.logAs]

@[simp] theorem State.logAs_mc_staging (s : State) (v : BitVec 2) (c : Nat) (t : Bool) (p : Nat) : (s.logAs v c t p).mc.staging = s.mc.staging := by
  simp [State.logAs]

@[simp] theorem State.logAs_mc_chunk (s : State) (v : BitVec 2) (c : Nat) (t : Bool) (p : Nat) : (s.logAs v c t p).mc.chunk = s.mc.chunk := by
  simp [State.logAs]

@[simp] theorem State.logAs_mc_oldBinder (s : State) (v : BitVec 2) (c : Nat) (t : Bool) (p : Nat) : (s.logAs v c t p).mc.oldBinder = s.mc.oldBinder := by
  simp [State.logAs]

@[simp] theorem State.logAs_mc_profiles (s : State) (v : BitVec 2) (c : Nat) (t : Bool) (p : Nat) : (s.logAs v c t p).mc.profiles = s.mc.profiles := by
  simp [State.logAs]

@[simp] theorem State.logAs_mc_profSelected (s : State) (v : BitVec 2) (c : Nat) (t : Bool) (p : Nat) : (s.logAs v c t p).mc.profSelected = s.mc.profSelected := by
  simp [State.logAs]

@[simp] theorem State.logAs_mc_profPins (s : State) (v : BitVec 2) (c : Nat) (t : Bool) (p : Nat) : (s.logAs v c t p).mc.profPins = s.mc.profPins := by
  simp [State.logAs]

@[simp] theorem State.logAs_mc_activeProfile (s : State) (v : BitVec 2) (c : Nat) (t : Bool) (p : Nat) : (s.logAs v c t p).mc.activeProfile = s.mc.activeProfile := by
  simp [State.logAs]

@[simp] theorem State.logAs_mc_activeIndex (s : State) (v : BitVec 2) (c : Nat) (t : Bool) (p : Nat) : (s.logAs v c t p).mc.activeIndex = s.mc.activeIndex := by
  simp [State.logAs]

@[simp] theorem State.logAs_mc_softRepairs (s : State) (v : BitVec 2) (c : Nat) (t : Bool) (p : Nat) : (s.logAs v c t p).mc.softRepairs = s.mc.softRepairs := by
  simp [State.logAs]

@[simp] theorem State.logAs_mc_die (s : State) (v : BitVec 2) (c : Nat) (t : Bool) (p : Nat) : (s.logAs v c t p).mc.die = s.mc.die := by
  simp [State.logAs]

@[simp] theorem State.logAs_mc_stackT (s : State) (v : BitVec 2) (c : Nat) (t : Bool) (p : Nat) : (s.logAs v c t p).mc.stackT = s.mc.stackT := by
  simp [State.logAs]

@[simp] theorem State.logAs_mc_board (s : State) (v : BitVec 2) (c : Nat) (t : Bool) (p : Nat) : (s.logAs v c t p).mc.board = s.mc.board := by
  simp [State.logAs]

@[simp] theorem State.logAs_mc_coolIn (s : State) (v : BitVec 2) (c : Nat) (t : Bool) (p : Nat) : (s.logAs v c t p).mc.coolIn = s.mc.coolIn := by
  simp [State.logAs]

@[simp] theorem State.logAs_mc_coolOut (s : State) (v : BitVec 2) (c : Nat) (t : Bool) (p : Nat) : (s.logAs v c t p).mc.coolOut = s.mc.coolOut := by
  simp [State.logAs]

@[simp] theorem State.logAs_mc_rails (s : State) (v : BitVec 2) (c : Nat) (t : Bool) (p : Nat) : (s.logAs v c t p).mc.rails = s.mc.rails := by
  simp [State.logAs]

@[simp] theorem State.logAs_mc_railsCurrent (s : State) (v : BitVec 2) (c : Nat) (t : Bool) (p : Nat) : (s.logAs v c t p).mc.railsCurrent = s.mc.railsCurrent := by
  simp [State.logAs]

@[simp] theorem State.logAs_mc_power (s : State) (v : BitVec 2) (c : Nat) (t : Bool) (p : Nat) : (s.logAs v c t p).mc.power = s.mc.power := by
  simp [State.logAs]

@[simp] theorem State.logAs_mc_page (s : State) (v : BitVec 2) (c : Nat) (t : Bool) (p : Nat) : (s.logAs v c t p).mc.page = s.mc.page := by
  simp [State.logAs]

@[simp] theorem State.logAs_mc_borrowed (s : State) (v : BitVec 2) (c : Nat) (t : Bool) (p : Nat) : (s.logAs v c t p).mc.borrowed = s.mc.borrowed := by
  simp [State.logAs]

@[simp] theorem State.logAs_mc_borrowedAt (s : State) (v : BitVec 2) (c : Nat) (t : Bool) (p : Nat) : (s.logAs v c t p).mc.borrowedAt = s.mc.borrowedAt := by
  simp [State.logAs]

@[simp] theorem State.logAs_mc_excluded (s : State) (v : BitVec 2) (c : Nat) (t : Bool) (p : Nat) : (s.logAs v c t p).mc.excluded = s.mc.excluded := by
  simp [State.logAs]

@[simp] theorem State.logAs_mc_latched (s : State) (v : BitVec 2) (c : Nat) (t : Bool) (p : Nat) : (s.logAs v c t p).mc.latched = s.mc.latched := by
  simp [State.logAs]

@[simp] theorem State.logAs_mc_recovering (s : State) (v : BitVec 2) (c : Nat) (t : Bool) (p : Nat) : (s.logAs v c t p).mc.recovering = s.mc.recovering := by
  simp [State.logAs]

@[simp] theorem State.logAs_mc_fabricTried (s : State) (v : BitVec 2) (c : Nat) (t : Bool) (p : Nat) : (s.logAs v c t p).mc.fabricTried = s.mc.fabricTried := by
  simp [State.logAs]

@[simp] theorem State.logAs_mc_askedSerial (s : State) (v : BitVec 2) (c : Nat) (t : Bool) (p : Nat) : (s.logAs v c t p).mc.askedSerial = s.mc.askedSerial := by
  simp [State.logAs]

@[simp] theorem State.logAs_mc_certChain (s : State) (v : BitVec 2) (c : Nat) (t : Bool) (p : Nat) : (s.logAs v c t p).mc.certChain = s.mc.certChain := by
  simp [State.logAs]

@[simp] theorem State.logAs_mc_eid (s : State) (v : BitVec 2) (c : Nat) (t : Bool) (p : Nat) : (s.logAs v c t p).mc.eid = s.mc.eid := by
  simp [State.logAs]

@[simp] theorem State.logAs_mc_i3cAddress (s : State) (v : BitVec 2) (c : Nat) (t : Bool) (p : Nat) : (s.logAs v c t p).mc.i3cAddress = s.mc.i3cAddress := by
  simp [State.logAs]

@[simp] theorem State.logAs_mc_spdm (s : State) (v : BitVec 2) (c : Nat) (t : Bool) (p : Nat) : (s.logAs v c t p).mc.spdm = s.mc.spdm := by
  simp [State.logAs]

@[simp] theorem State.logAs_mc_answer (s : State) (v : BitVec 2) (c : Nat) (t : Bool) (p : Nat) : (s.logAs v c t p).mc.answer = s.mc.answer := by
  simp [State.logAs]

@[simp] theorem State.log_mc_up (s : State) (c : Nat) (xs : List W32) : (s.log c xs).mc.up = s.mc.up := by
  simp [State.log]

@[simp] theorem State.log_mc_recovery (s : State) (c : Nat) (xs : List W32) : (s.log c xs).mc.recovery = s.mc.recovery := by
  simp [State.log]

@[simp] theorem State.log_mc_restartCause (s : State) (c : Nat) (xs : List W32) : (s.log c xs).mc.restartCause = s.mc.restartCause := by
  simp [State.log]

@[simp] theorem State.log_mc_restarts (s : State) (c : Nat) (xs : List W32) : (s.log c xs).mc.restarts = s.mc.restarts := by
  simp [State.log]

@[simp] theorem State.log_mc_fuses (s : State) (c : Nat) (xs : List W32) : (s.log c xs).mc.fuses = s.mc.fuses := by
  simp [State.log]

@[simp] theorem State.log_mc_fuseArray (s : State) (c : Nat) (xs : List W32) : (s.log c xs).mc.fuseArray = s.mc.fuseArray := by
  simp [State.log]

@[simp] theorem State.log_mc_sram (s : State) (c : Nat) (xs : List W32) : (s.log c xs).mc.sram = s.mc.sram := by
  simp [State.log]

@[simp] theorem State.log_mc_portClosed (s : State) (c : Nat) (xs : List W32) : (s.log c xs).mc.portClosed = s.mc.portClosed := by
  simp [State.log]

@[simp] theorem State.log_mc_tamperCause (s : State) (c : Nat) (xs : List W32) : (s.log c xs).mc.tamperCause = s.mc.tamperCause := by
  simp [State.log]

@[simp] theorem State.log_mc_wipeRetries (s : State) (c : Nat) (xs : List W32) : (s.log c xs).mc.wipeRetries = s.mc.wipeRetries := by
  simp [State.log]

@[simp] theorem State.log_mc_secretClosed (s : State) (c : Nat) (xs : List W32) : (s.log c xs).mc.secretClosed = s.mc.secretClosed := by
  simp [State.log]

@[simp] theorem State.log_mc_utc (s : State) (c : Nat) (xs : List W32) : (s.log c xs).mc.utc = s.mc.utc := by
  simp [State.log]

@[simp] theorem State.log_mc_utcValid (s : State) (c : Nat) (xs : List W32) : (s.log c xs).mc.utcValid = s.mc.utcValid := by
  simp [State.log]

@[simp] theorem State.log_mc_nonce (s : State) (c : Nat) (xs : List W32) : (s.log c xs).mc.nonce = s.mc.nonce := by
  simp [State.log]

@[simp] theorem State.log_mc_flashLog (s : State) (c : Nat) (xs : List W32) : (s.log c xs).mc.flashLog = s.mc.flashLog := by
  simp [State.log]

@[simp] theorem State.log_mc_images (s : State) (c : Nat) (xs : List W32) : (s.log c xs).mc.images = s.mc.images := by
  simp [State.log]

@[simp] theorem State.log_mc_running (s : State) (c : Nat) (xs : List W32) : (s.log c xs).mc.running = s.mc.running := by
  simp [State.log]

@[simp] theorem State.log_mc_written (s : State) (c : Nat) (xs : List W32) : (s.log c xs).mc.written = s.mc.written := by
  simp [State.log]

@[simp] theorem State.log_mc_pending (s : State) (c : Nat) (xs : List W32) : (s.log c xs).mc.pending = s.mc.pending := by
  simp [State.log]

@[simp] theorem State.log_mc_phase (s : State) (c : Nat) (xs : List W32) : (s.log c xs).mc.phase = s.mc.phase := by
  simp [State.log]

@[simp] theorem State.log_mc_agent (s : State) (c : Nat) (xs : List W32) : (s.log c xs).mc.agent = s.mc.agent := by
  simp [State.log]

@[simp] theorem State.log_mc_component (s : State) (c : Nat) (xs : List W32) : (s.log c xs).mc.component = s.mc.component := by
  simp [State.log]

@[simp] theorem State.log_mc_staging (s : State) (c : Nat) (xs : List W32) : (s.log c xs).mc.staging = s.mc.staging := by
  simp [State.log]

@[simp] theorem State.log_mc_chunk (s : State) (c : Nat) (xs : List W32) : (s.log c xs).mc.chunk = s.mc.chunk := by
  simp [State.log]

@[simp] theorem State.log_mc_oldBinder (s : State) (c : Nat) (xs : List W32) : (s.log c xs).mc.oldBinder = s.mc.oldBinder := by
  simp [State.log]

@[simp] theorem State.log_mc_profiles (s : State) (c : Nat) (xs : List W32) : (s.log c xs).mc.profiles = s.mc.profiles := by
  simp [State.log]

@[simp] theorem State.log_mc_profSelected (s : State) (c : Nat) (xs : List W32) : (s.log c xs).mc.profSelected = s.mc.profSelected := by
  simp [State.log]

@[simp] theorem State.log_mc_profPins (s : State) (c : Nat) (xs : List W32) : (s.log c xs).mc.profPins = s.mc.profPins := by
  simp [State.log]

@[simp] theorem State.log_mc_activeProfile (s : State) (c : Nat) (xs : List W32) : (s.log c xs).mc.activeProfile = s.mc.activeProfile := by
  simp [State.log]

@[simp] theorem State.log_mc_activeIndex (s : State) (c : Nat) (xs : List W32) : (s.log c xs).mc.activeIndex = s.mc.activeIndex := by
  simp [State.log]

@[simp] theorem State.log_mc_softRepairs (s : State) (c : Nat) (xs : List W32) : (s.log c xs).mc.softRepairs = s.mc.softRepairs := by
  simp [State.log]

@[simp] theorem State.log_mc_die (s : State) (c : Nat) (xs : List W32) : (s.log c xs).mc.die = s.mc.die := by
  simp [State.log]

@[simp] theorem State.log_mc_stackT (s : State) (c : Nat) (xs : List W32) : (s.log c xs).mc.stackT = s.mc.stackT := by
  simp [State.log]

@[simp] theorem State.log_mc_board (s : State) (c : Nat) (xs : List W32) : (s.log c xs).mc.board = s.mc.board := by
  simp [State.log]

@[simp] theorem State.log_mc_coolIn (s : State) (c : Nat) (xs : List W32) : (s.log c xs).mc.coolIn = s.mc.coolIn := by
  simp [State.log]

@[simp] theorem State.log_mc_coolOut (s : State) (c : Nat) (xs : List W32) : (s.log c xs).mc.coolOut = s.mc.coolOut := by
  simp [State.log]

@[simp] theorem State.log_mc_rails (s : State) (c : Nat) (xs : List W32) : (s.log c xs).mc.rails = s.mc.rails := by
  simp [State.log]

@[simp] theorem State.log_mc_railsCurrent (s : State) (c : Nat) (xs : List W32) : (s.log c xs).mc.railsCurrent = s.mc.railsCurrent := by
  simp [State.log]

@[simp] theorem State.log_mc_power (s : State) (c : Nat) (xs : List W32) : (s.log c xs).mc.power = s.mc.power := by
  simp [State.log]

@[simp] theorem State.log_mc_page (s : State) (c : Nat) (xs : List W32) : (s.log c xs).mc.page = s.mc.page := by
  simp [State.log]

@[simp] theorem State.log_mc_borrowed (s : State) (c : Nat) (xs : List W32) : (s.log c xs).mc.borrowed = s.mc.borrowed := by
  simp [State.log]

@[simp] theorem State.log_mc_borrowedAt (s : State) (c : Nat) (xs : List W32) : (s.log c xs).mc.borrowedAt = s.mc.borrowedAt := by
  simp [State.log]

@[simp] theorem State.log_mc_excluded (s : State) (c : Nat) (xs : List W32) : (s.log c xs).mc.excluded = s.mc.excluded := by
  simp [State.log]

@[simp] theorem State.log_mc_latched (s : State) (c : Nat) (xs : List W32) : (s.log c xs).mc.latched = s.mc.latched := by
  simp [State.log]

@[simp] theorem State.log_mc_recovering (s : State) (c : Nat) (xs : List W32) : (s.log c xs).mc.recovering = s.mc.recovering := by
  simp [State.log]

@[simp] theorem State.log_mc_fabricTried (s : State) (c : Nat) (xs : List W32) : (s.log c xs).mc.fabricTried = s.mc.fabricTried := by
  simp [State.log]

@[simp] theorem State.log_mc_askedSerial (s : State) (c : Nat) (xs : List W32) : (s.log c xs).mc.askedSerial = s.mc.askedSerial := by
  simp [State.log]

@[simp] theorem State.log_mc_certChain (s : State) (c : Nat) (xs : List W32) : (s.log c xs).mc.certChain = s.mc.certChain := by
  simp [State.log]

@[simp] theorem State.log_mc_eid (s : State) (c : Nat) (xs : List W32) : (s.log c xs).mc.eid = s.mc.eid := by
  simp [State.log]

@[simp] theorem State.log_mc_i3cAddress (s : State) (c : Nat) (xs : List W32) : (s.log c xs).mc.i3cAddress = s.mc.i3cAddress := by
  simp [State.log]

@[simp] theorem State.log_mc_spdm (s : State) (c : Nat) (xs : List W32) : (s.log c xs).mc.spdm = s.mc.spdm := by
  simp [State.log]

@[simp] theorem State.log_mc_answer (s : State) (c : Nat) (xs : List W32) : (s.log c xs).mc.answer = s.mc.answer := by
  simp [State.log]

/-! ### Events (R321, R328, R360) -/

@[simp] theorem State.logEvent_pending (s : State) (e : EventRec) : (s.logEvent e).pending = s.pending := by
  simp only [State.logEvent]; split <;> (try split) <;> rfl

@[simp] theorem State.logEvent_freeIx (s : State) (e : EventRec) : (s.logEvent e).freeIx = s.freeIx := by
  simp only [State.logEvent]; split <;> (try split) <;> rfl

@[simp] theorem State.logEvent_now (s : State) (e : EventRec) : (s.logEvent e).now = s.now := by
  simp only [State.logEvent]; split <;> (try split) <;> rfl

@[simp] theorem State.logEvent_dram (s : State) (e : EventRec) : (s.logEvent e).dram = s.dram := by
  simp only [State.logEvent]; split <;> (try split) <;> rfl

@[simp] theorem State.logEvent_dramEpoch (s : State) (e : EventRec) : (s.logEvent e).dramEpoch = s.dramEpoch := by
  simp only [State.logEvent]; split <;> (try split) <;> rfl

@[simp] theorem State.logEvent_poison (s : State) (e : EventRec) : (s.logEvent e).poison = s.poison := by
  simp only [State.logEvent]; split <;> (try split) <;> rfl

@[simp] theorem State.logEvent_hostMem (s : State) (e : EventRec) : (s.logEvent e).hostMem = s.hostMem := by
  simp only [State.logEvent]; split <;> (try split) <;> rfl

@[simp] theorem State.logEvent_cores (s : State) (e : EventRec) : (s.logEvent e).cores = s.cores := by
  simp only [State.logEvent]; split <;> (try split) <;> rfl

@[simp] theorem State.logEvent_sites (s : State) (e : EventRec) : (s.logEvent e).sites = s.sites := by
  simp only [State.logEvent]; split <;> (try split) <;> rfl

@[simp] theorem State.logEvent_upsets (s : State) (e : EventRec) : (s.logEvent e).upsets = s.upsets := by
  simp only [State.logEvent]; split <;> (try split) <;> rfl

@[simp] theorem State.logEvent_sramUpsets (s : State) (e : EventRec) : (s.logEvent e).sramUpsets = s.sramUpsets := by
  simp only [State.logEvent]; split <;> (try split) <;> rfl

@[simp] theorem State.logEvent_hbm (s : State) (e : EventRec) : (s.logEvent e).hbm = s.hbm := by
  simp only [State.logEvent]; split <;> (try split) <;> rfl

@[simp] theorem State.logEvent_host (s : State) (e : EventRec) : (s.logEvent e).host = s.host := by
  simp only [State.logEvent]; split <;> (try split) <;> rfl

@[simp] theorem State.logEvent_prog (s : State) (e : EventRec) : (s.logEvent e).prog = s.prog := by
  simp only [State.logEvent]; split <;> (try split) <;> rfl

@[simp] theorem State.logEvent_cad (s : State) (e : EventRec) : (s.logEvent e).cad = s.cad := by
  simp only [State.logEvent]; split <;> (try split) <;> rfl

@[simp] theorem State.logEvent_fab (s : State) (e : EventRec) : (s.logEvent e).fab = s.fab := by
  simp only [State.logEvent]; split <;> (try split) <;> rfl

@[simp] theorem State.logEvent_pwr (s : State) (e : EventRec) : (s.logEvent e).pwr = s.pwr := by
  simp only [State.logEvent]; split <;> (try split) <;> rfl

@[simp] theorem State.logEvent_clk (s : State) (e : EventRec) : (s.logEvent e).clk = s.clk := by
  simp only [State.logEvent]; split <;> (try split) <;> rfl

@[simp] theorem State.logEvent_surveySeq (s : State) (e : EventRec) : (s.logEvent e).surveySeq = s.surveySeq := by
  simp only [State.logEvent]; split <;> (try split) <;> rfl

@[simp] theorem State.logEvent_surveyRec (s : State) (e : EventRec) : (s.logEvent e).surveyRec = s.surveyRec := by
  simp only [State.logEvent]; split <;> (try split) <;> rfl

@[simp] theorem State.logEvent_mc_up (s : State) (e : EventRec) : (s.logEvent e).mc.up = s.mc.up := by
  simp only [State.logEvent]; split <;> (try split) <;> simp

@[simp] theorem State.logEvent_mc_recovery (s : State) (e : EventRec) : (s.logEvent e).mc.recovery = s.mc.recovery := by
  simp only [State.logEvent]; split <;> (try split) <;> simp

@[simp] theorem State.logEvent_mc_restartCause (s : State) (e : EventRec) : (s.logEvent e).mc.restartCause = s.mc.restartCause := by
  simp only [State.logEvent]; split <;> (try split) <;> simp

@[simp] theorem State.logEvent_mc_restarts (s : State) (e : EventRec) : (s.logEvent e).mc.restarts = s.mc.restarts := by
  simp only [State.logEvent]; split <;> (try split) <;> simp

@[simp] theorem State.logEvent_mc_fuses (s : State) (e : EventRec) : (s.logEvent e).mc.fuses = s.mc.fuses := by
  simp only [State.logEvent]; split <;> (try split) <;> simp

@[simp] theorem State.logEvent_mc_fuseArray (s : State) (e : EventRec) : (s.logEvent e).mc.fuseArray = s.mc.fuseArray := by
  simp only [State.logEvent]; split <;> (try split) <;> simp

@[simp] theorem State.logEvent_mc_sram (s : State) (e : EventRec) : (s.logEvent e).mc.sram = s.mc.sram := by
  simp only [State.logEvent]; split <;> (try split) <;> simp

@[simp] theorem State.logEvent_mc_portClosed (s : State) (e : EventRec) : (s.logEvent e).mc.portClosed = s.mc.portClosed := by
  simp only [State.logEvent]; split <;> (try split) <;> simp

@[simp] theorem State.logEvent_mc_tamperCause (s : State) (e : EventRec) : (s.logEvent e).mc.tamperCause = s.mc.tamperCause := by
  simp only [State.logEvent]; split <;> (try split) <;> simp

@[simp] theorem State.logEvent_mc_wipeRetries (s : State) (e : EventRec) : (s.logEvent e).mc.wipeRetries = s.mc.wipeRetries := by
  simp only [State.logEvent]; split <;> (try split) <;> simp

@[simp] theorem State.logEvent_mc_secretClosed (s : State) (e : EventRec) : (s.logEvent e).mc.secretClosed = s.mc.secretClosed := by
  simp only [State.logEvent]; split <;> (try split) <;> simp

@[simp] theorem State.logEvent_mc_utc (s : State) (e : EventRec) : (s.logEvent e).mc.utc = s.mc.utc := by
  simp only [State.logEvent]; split <;> (try split) <;> simp

@[simp] theorem State.logEvent_mc_utcValid (s : State) (e : EventRec) : (s.logEvent e).mc.utcValid = s.mc.utcValid := by
  simp only [State.logEvent]; split <;> (try split) <;> simp

@[simp] theorem State.logEvent_mc_nonce (s : State) (e : EventRec) : (s.logEvent e).mc.nonce = s.mc.nonce := by
  simp only [State.logEvent]; split <;> (try split) <;> simp

@[simp] theorem State.logEvent_mc_flashLog (s : State) (e : EventRec) : (s.logEvent e).mc.flashLog = s.mc.flashLog := by
  simp only [State.logEvent]; split <;> (try split) <;> simp

@[simp] theorem State.logEvent_mc_images (s : State) (e : EventRec) : (s.logEvent e).mc.images = s.mc.images := by
  simp only [State.logEvent]; split <;> (try split) <;> simp

@[simp] theorem State.logEvent_mc_running (s : State) (e : EventRec) : (s.logEvent e).mc.running = s.mc.running := by
  simp only [State.logEvent]; split <;> (try split) <;> simp

@[simp] theorem State.logEvent_mc_written (s : State) (e : EventRec) : (s.logEvent e).mc.written = s.mc.written := by
  simp only [State.logEvent]; split <;> (try split) <;> simp

@[simp] theorem State.logEvent_mc_pending (s : State) (e : EventRec) : (s.logEvent e).mc.pending = s.mc.pending := by
  simp only [State.logEvent]; split <;> (try split) <;> simp

@[simp] theorem State.logEvent_mc_phase (s : State) (e : EventRec) : (s.logEvent e).mc.phase = s.mc.phase := by
  simp only [State.logEvent]; split <;> (try split) <;> simp

@[simp] theorem State.logEvent_mc_agent (s : State) (e : EventRec) : (s.logEvent e).mc.agent = s.mc.agent := by
  simp only [State.logEvent]; split <;> (try split) <;> simp

@[simp] theorem State.logEvent_mc_component (s : State) (e : EventRec) : (s.logEvent e).mc.component = s.mc.component := by
  simp only [State.logEvent]; split <;> (try split) <;> simp

@[simp] theorem State.logEvent_mc_staging (s : State) (e : EventRec) : (s.logEvent e).mc.staging = s.mc.staging := by
  simp only [State.logEvent]; split <;> (try split) <;> simp

@[simp] theorem State.logEvent_mc_chunk (s : State) (e : EventRec) : (s.logEvent e).mc.chunk = s.mc.chunk := by
  simp only [State.logEvent]; split <;> (try split) <;> simp

@[simp] theorem State.logEvent_mc_oldBinder (s : State) (e : EventRec) : (s.logEvent e).mc.oldBinder = s.mc.oldBinder := by
  simp only [State.logEvent]; split <;> (try split) <;> simp

@[simp] theorem State.logEvent_mc_profiles (s : State) (e : EventRec) : (s.logEvent e).mc.profiles = s.mc.profiles := by
  simp only [State.logEvent]; split <;> (try split) <;> simp

@[simp] theorem State.logEvent_mc_profSelected (s : State) (e : EventRec) : (s.logEvent e).mc.profSelected = s.mc.profSelected := by
  simp only [State.logEvent]; split <;> (try split) <;> simp

@[simp] theorem State.logEvent_mc_profPins (s : State) (e : EventRec) : (s.logEvent e).mc.profPins = s.mc.profPins := by
  simp only [State.logEvent]; split <;> (try split) <;> simp

@[simp] theorem State.logEvent_mc_activeProfile (s : State) (e : EventRec) : (s.logEvent e).mc.activeProfile = s.mc.activeProfile := by
  simp only [State.logEvent]; split <;> (try split) <;> simp

@[simp] theorem State.logEvent_mc_activeIndex (s : State) (e : EventRec) : (s.logEvent e).mc.activeIndex = s.mc.activeIndex := by
  simp only [State.logEvent]; split <;> (try split) <;> simp

@[simp] theorem State.logEvent_mc_softRepairs (s : State) (e : EventRec) : (s.logEvent e).mc.softRepairs = s.mc.softRepairs := by
  simp only [State.logEvent]; split <;> (try split) <;> simp

@[simp] theorem State.logEvent_mc_die (s : State) (e : EventRec) : (s.logEvent e).mc.die = s.mc.die := by
  simp only [State.logEvent]; split <;> (try split) <;> simp

@[simp] theorem State.logEvent_mc_stackT (s : State) (e : EventRec) : (s.logEvent e).mc.stackT = s.mc.stackT := by
  simp only [State.logEvent]; split <;> (try split) <;> simp

@[simp] theorem State.logEvent_mc_board (s : State) (e : EventRec) : (s.logEvent e).mc.board = s.mc.board := by
  simp only [State.logEvent]; split <;> (try split) <;> simp

@[simp] theorem State.logEvent_mc_coolIn (s : State) (e : EventRec) : (s.logEvent e).mc.coolIn = s.mc.coolIn := by
  simp only [State.logEvent]; split <;> (try split) <;> simp

@[simp] theorem State.logEvent_mc_coolOut (s : State) (e : EventRec) : (s.logEvent e).mc.coolOut = s.mc.coolOut := by
  simp only [State.logEvent]; split <;> (try split) <;> simp

@[simp] theorem State.logEvent_mc_rails (s : State) (e : EventRec) : (s.logEvent e).mc.rails = s.mc.rails := by
  simp only [State.logEvent]; split <;> (try split) <;> simp

@[simp] theorem State.logEvent_mc_railsCurrent (s : State) (e : EventRec) : (s.logEvent e).mc.railsCurrent = s.mc.railsCurrent := by
  simp only [State.logEvent]; split <;> (try split) <;> simp

@[simp] theorem State.logEvent_mc_power (s : State) (e : EventRec) : (s.logEvent e).mc.power = s.mc.power := by
  simp only [State.logEvent]; split <;> (try split) <;> simp

@[simp] theorem State.logEvent_mc_page (s : State) (e : EventRec) : (s.logEvent e).mc.page = s.mc.page := by
  simp only [State.logEvent]; split <;> (try split) <;> simp

@[simp] theorem State.logEvent_mc_borrowed (s : State) (e : EventRec) : (s.logEvent e).mc.borrowed = s.mc.borrowed := by
  simp only [State.logEvent]; split <;> (try split) <;> simp

@[simp] theorem State.logEvent_mc_borrowedAt (s : State) (e : EventRec) : (s.logEvent e).mc.borrowedAt = s.mc.borrowedAt := by
  simp only [State.logEvent]; split <;> (try split) <;> simp

@[simp] theorem State.logEvent_mc_excluded (s : State) (e : EventRec) : (s.logEvent e).mc.excluded = s.mc.excluded := by
  simp only [State.logEvent]; split <;> (try split) <;> simp

@[simp] theorem State.logEvent_mc_latched (s : State) (e : EventRec) : (s.logEvent e).mc.latched = s.mc.latched := by
  simp only [State.logEvent]; split <;> (try split) <;> simp

@[simp] theorem State.logEvent_mc_recovering (s : State) (e : EventRec) : (s.logEvent e).mc.recovering = s.mc.recovering := by
  simp only [State.logEvent]; split <;> (try split) <;> simp

@[simp] theorem State.logEvent_mc_fabricTried (s : State) (e : EventRec) : (s.logEvent e).mc.fabricTried = s.mc.fabricTried := by
  simp only [State.logEvent]; split <;> (try split) <;> simp

@[simp] theorem State.logEvent_mc_askedSerial (s : State) (e : EventRec) : (s.logEvent e).mc.askedSerial = s.mc.askedSerial := by
  simp only [State.logEvent]; split <;> (try split) <;> simp

@[simp] theorem State.logEvent_mc_certChain (s : State) (e : EventRec) : (s.logEvent e).mc.certChain = s.mc.certChain := by
  simp only [State.logEvent]; split <;> (try split) <;> simp

@[simp] theorem State.logEvent_mc_eid (s : State) (e : EventRec) : (s.logEvent e).mc.eid = s.mc.eid := by
  simp only [State.logEvent]; split <;> (try split) <;> simp

@[simp] theorem State.logEvent_mc_i3cAddress (s : State) (e : EventRec) : (s.logEvent e).mc.i3cAddress = s.mc.i3cAddress := by
  simp only [State.logEvent]; split <;> (try split) <;> simp

@[simp] theorem State.logEvent_mc_spdm (s : State) (e : EventRec) : (s.logEvent e).mc.spdm = s.mc.spdm := by
  simp only [State.logEvent]; split <;> (try split) <;> simp

@[simp] theorem State.logEvent_mc_answer (s : State) (e : EventRec) : (s.logEvent e).mc.answer = s.mc.answer := by
  simp only [State.logEvent]; split <;> (try split) <;> simp

@[simp] theorem State.raise_pending (s : State) (code core : Nat) (xs : List W32) (r : Option (BitVec 256)) : (s.raise code core xs r).pending = s.pending := by
  simp only [State.raise]; split <;> (try split) <;> (try split) <;> simp

@[simp] theorem State.raise_freeIx (s : State) (code core : Nat) (xs : List W32) (r : Option (BitVec 256)) : (s.raise code core xs r).freeIx = s.freeIx := by
  simp only [State.raise]; split <;> (try split) <;> (try split) <;> simp

@[simp] theorem State.raise_now (s : State) (code core : Nat) (xs : List W32) (r : Option (BitVec 256)) : (s.raise code core xs r).now = s.now := by
  simp only [State.raise]; split <;> (try split) <;> (try split) <;> simp

@[simp] theorem State.raise_dram (s : State) (code core : Nat) (xs : List W32) (r : Option (BitVec 256)) : (s.raise code core xs r).dram = s.dram := by
  simp only [State.raise]; split <;> (try split) <;> (try split) <;> simp

@[simp] theorem State.raise_dramEpoch (s : State) (code core : Nat) (xs : List W32) (r : Option (BitVec 256)) : (s.raise code core xs r).dramEpoch = s.dramEpoch := by
  simp only [State.raise]; split <;> (try split) <;> (try split) <;> simp

@[simp] theorem State.raise_poison (s : State) (code core : Nat) (xs : List W32) (r : Option (BitVec 256)) : (s.raise code core xs r).poison = s.poison := by
  simp only [State.raise]; split <;> (try split) <;> (try split) <;> simp

@[simp] theorem State.raise_hostMem (s : State) (code core : Nat) (xs : List W32) (r : Option (BitVec 256)) : (s.raise code core xs r).hostMem = s.hostMem := by
  simp only [State.raise]; split <;> (try split) <;> (try split) <;> simp

@[simp] theorem State.raise_cores (s : State) (code core : Nat) (xs : List W32) (r : Option (BitVec 256)) : (s.raise code core xs r).cores = s.cores := by
  simp only [State.raise]; split <;> (try split) <;> (try split) <;> simp

@[simp] theorem State.raise_sites (s : State) (code core : Nat) (xs : List W32) (r : Option (BitVec 256)) : (s.raise code core xs r).sites = s.sites := by
  simp only [State.raise]; split <;> (try split) <;> (try split) <;> simp

@[simp] theorem State.raise_upsets (s : State) (code core : Nat) (xs : List W32) (r : Option (BitVec 256)) : (s.raise code core xs r).upsets = s.upsets := by
  simp only [State.raise]; split <;> (try split) <;> (try split) <;> simp

@[simp] theorem State.raise_sramUpsets (s : State) (code core : Nat) (xs : List W32) (r : Option (BitVec 256)) : (s.raise code core xs r).sramUpsets = s.sramUpsets := by
  simp only [State.raise]; split <;> (try split) <;> (try split) <;> simp

@[simp] theorem State.raise_hbm (s : State) (code core : Nat) (xs : List W32) (r : Option (BitVec 256)) : (s.raise code core xs r).hbm = s.hbm := by
  simp only [State.raise]; split <;> (try split) <;> (try split) <;> simp

@[simp] theorem State.raise_prog (s : State) (code core : Nat) (xs : List W32) (r : Option (BitVec 256)) : (s.raise code core xs r).prog = s.prog := by
  simp only [State.raise]; split <;> (try split) <;> (try split) <;> simp

@[simp] theorem State.raise_cad (s : State) (code core : Nat) (xs : List W32) (r : Option (BitVec 256)) : (s.raise code core xs r).cad = s.cad := by
  simp only [State.raise]; split <;> (try split) <;> (try split) <;> simp

@[simp] theorem State.raise_fab (s : State) (code core : Nat) (xs : List W32) (r : Option (BitVec 256)) : (s.raise code core xs r).fab = s.fab := by
  simp only [State.raise]; split <;> (try split) <;> (try split) <;> simp

@[simp] theorem State.raise_pwr (s : State) (code core : Nat) (xs : List W32) (r : Option (BitVec 256)) : (s.raise code core xs r).pwr = s.pwr := by
  simp only [State.raise]; split <;> (try split) <;> (try split) <;> simp

@[simp] theorem State.raise_clk (s : State) (code core : Nat) (xs : List W32) (r : Option (BitVec 256)) : (s.raise code core xs r).clk = s.clk := by
  simp only [State.raise]; split <;> (try split) <;> (try split) <;> simp

@[simp] theorem State.raise_surveySeq (s : State) (code core : Nat) (xs : List W32) (r : Option (BitVec 256)) : (s.raise code core xs r).surveySeq = s.surveySeq := by
  simp only [State.raise]; split <;> (try split) <;> (try split) <;> simp

@[simp] theorem State.raise_surveyRec (s : State) (code core : Nat) (xs : List W32) (r : Option (BitVec 256)) : (s.raise code core xs r).surveyRec = s.surveyRec := by
  simp only [State.raise]; split <;> (try split) <;> (try split) <;> simp

@[simp] theorem State.raise_mc_up (s : State) (code core : Nat) (xs : List W32) (r : Option (BitVec 256)) : (s.raise code core xs r).mc.up = s.mc.up := by
  simp only [State.raise]; split <;> (try split) <;> (try split) <;> simp

@[simp] theorem State.raise_mc_recovery (s : State) (code core : Nat) (xs : List W32) (r : Option (BitVec 256)) : (s.raise code core xs r).mc.recovery = s.mc.recovery := by
  simp only [State.raise]; split <;> (try split) <;> (try split) <;> simp

@[simp] theorem State.raise_mc_restartCause (s : State) (code core : Nat) (xs : List W32) (r : Option (BitVec 256)) : (s.raise code core xs r).mc.restartCause = s.mc.restartCause := by
  simp only [State.raise]; split <;> (try split) <;> (try split) <;> simp

@[simp] theorem State.raise_mc_restarts (s : State) (code core : Nat) (xs : List W32) (r : Option (BitVec 256)) : (s.raise code core xs r).mc.restarts = s.mc.restarts := by
  simp only [State.raise]; split <;> (try split) <;> (try split) <;> simp

@[simp] theorem State.raise_mc_fuses (s : State) (code core : Nat) (xs : List W32) (r : Option (BitVec 256)) : (s.raise code core xs r).mc.fuses = s.mc.fuses := by
  simp only [State.raise]; split <;> (try split) <;> (try split) <;> simp

@[simp] theorem State.raise_mc_fuseArray (s : State) (code core : Nat) (xs : List W32) (r : Option (BitVec 256)) : (s.raise code core xs r).mc.fuseArray = s.mc.fuseArray := by
  simp only [State.raise]; split <;> (try split) <;> (try split) <;> simp

@[simp] theorem State.raise_mc_sram (s : State) (code core : Nat) (xs : List W32) (r : Option (BitVec 256)) : (s.raise code core xs r).mc.sram = s.mc.sram := by
  simp only [State.raise]; split <;> (try split) <;> (try split) <;> simp

@[simp] theorem State.raise_mc_portClosed (s : State) (code core : Nat) (xs : List W32) (r : Option (BitVec 256)) : (s.raise code core xs r).mc.portClosed = s.mc.portClosed := by
  simp only [State.raise]; split <;> (try split) <;> (try split) <;> simp

@[simp] theorem State.raise_mc_tamperCause (s : State) (code core : Nat) (xs : List W32) (r : Option (BitVec 256)) : (s.raise code core xs r).mc.tamperCause = s.mc.tamperCause := by
  simp only [State.raise]; split <;> (try split) <;> (try split) <;> simp

@[simp] theorem State.raise_mc_wipeRetries (s : State) (code core : Nat) (xs : List W32) (r : Option (BitVec 256)) : (s.raise code core xs r).mc.wipeRetries = s.mc.wipeRetries := by
  simp only [State.raise]; split <;> (try split) <;> (try split) <;> simp

@[simp] theorem State.raise_mc_secretClosed (s : State) (code core : Nat) (xs : List W32) (r : Option (BitVec 256)) : (s.raise code core xs r).mc.secretClosed = s.mc.secretClosed := by
  simp only [State.raise]; split <;> (try split) <;> (try split) <;> simp

@[simp] theorem State.raise_mc_utc (s : State) (code core : Nat) (xs : List W32) (r : Option (BitVec 256)) : (s.raise code core xs r).mc.utc = s.mc.utc := by
  simp only [State.raise]; split <;> (try split) <;> (try split) <;> simp

@[simp] theorem State.raise_mc_utcValid (s : State) (code core : Nat) (xs : List W32) (r : Option (BitVec 256)) : (s.raise code core xs r).mc.utcValid = s.mc.utcValid := by
  simp only [State.raise]; split <;> (try split) <;> (try split) <;> simp

@[simp] theorem State.raise_mc_nonce (s : State) (code core : Nat) (xs : List W32) (r : Option (BitVec 256)) : (s.raise code core xs r).mc.nonce = s.mc.nonce := by
  simp only [State.raise]; split <;> (try split) <;> (try split) <;> simp

@[simp] theorem State.raise_mc_flashLog (s : State) (code core : Nat) (xs : List W32) (r : Option (BitVec 256)) : (s.raise code core xs r).mc.flashLog = s.mc.flashLog := by
  simp only [State.raise]; split <;> (try split) <;> (try split) <;> simp

@[simp] theorem State.raise_mc_images (s : State) (code core : Nat) (xs : List W32) (r : Option (BitVec 256)) : (s.raise code core xs r).mc.images = s.mc.images := by
  simp only [State.raise]; split <;> (try split) <;> (try split) <;> simp

@[simp] theorem State.raise_mc_running (s : State) (code core : Nat) (xs : List W32) (r : Option (BitVec 256)) : (s.raise code core xs r).mc.running = s.mc.running := by
  simp only [State.raise]; split <;> (try split) <;> (try split) <;> simp

@[simp] theorem State.raise_mc_written (s : State) (code core : Nat) (xs : List W32) (r : Option (BitVec 256)) : (s.raise code core xs r).mc.written = s.mc.written := by
  simp only [State.raise]; split <;> (try split) <;> (try split) <;> simp

@[simp] theorem State.raise_mc_pending (s : State) (code core : Nat) (xs : List W32) (r : Option (BitVec 256)) : (s.raise code core xs r).mc.pending = s.mc.pending := by
  simp only [State.raise]; split <;> (try split) <;> (try split) <;> simp

@[simp] theorem State.raise_mc_phase (s : State) (code core : Nat) (xs : List W32) (r : Option (BitVec 256)) : (s.raise code core xs r).mc.phase = s.mc.phase := by
  simp only [State.raise]; split <;> (try split) <;> (try split) <;> simp

@[simp] theorem State.raise_mc_agent (s : State) (code core : Nat) (xs : List W32) (r : Option (BitVec 256)) : (s.raise code core xs r).mc.agent = s.mc.agent := by
  simp only [State.raise]; split <;> (try split) <;> (try split) <;> simp

@[simp] theorem State.raise_mc_component (s : State) (code core : Nat) (xs : List W32) (r : Option (BitVec 256)) : (s.raise code core xs r).mc.component = s.mc.component := by
  simp only [State.raise]; split <;> (try split) <;> (try split) <;> simp

@[simp] theorem State.raise_mc_staging (s : State) (code core : Nat) (xs : List W32) (r : Option (BitVec 256)) : (s.raise code core xs r).mc.staging = s.mc.staging := by
  simp only [State.raise]; split <;> (try split) <;> (try split) <;> simp

@[simp] theorem State.raise_mc_chunk (s : State) (code core : Nat) (xs : List W32) (r : Option (BitVec 256)) : (s.raise code core xs r).mc.chunk = s.mc.chunk := by
  simp only [State.raise]; split <;> (try split) <;> (try split) <;> simp

@[simp] theorem State.raise_mc_oldBinder (s : State) (code core : Nat) (xs : List W32) (r : Option (BitVec 256)) : (s.raise code core xs r).mc.oldBinder = s.mc.oldBinder := by
  simp only [State.raise]; split <;> (try split) <;> (try split) <;> simp

@[simp] theorem State.raise_mc_profiles (s : State) (code core : Nat) (xs : List W32) (r : Option (BitVec 256)) : (s.raise code core xs r).mc.profiles = s.mc.profiles := by
  simp only [State.raise]; split <;> (try split) <;> (try split) <;> simp

@[simp] theorem State.raise_mc_profSelected (s : State) (code core : Nat) (xs : List W32) (r : Option (BitVec 256)) : (s.raise code core xs r).mc.profSelected = s.mc.profSelected := by
  simp only [State.raise]; split <;> (try split) <;> (try split) <;> simp

@[simp] theorem State.raise_mc_profPins (s : State) (code core : Nat) (xs : List W32) (r : Option (BitVec 256)) : (s.raise code core xs r).mc.profPins = s.mc.profPins := by
  simp only [State.raise]; split <;> (try split) <;> (try split) <;> simp

@[simp] theorem State.raise_mc_activeProfile (s : State) (code core : Nat) (xs : List W32) (r : Option (BitVec 256)) : (s.raise code core xs r).mc.activeProfile = s.mc.activeProfile := by
  simp only [State.raise]; split <;> (try split) <;> (try split) <;> simp

@[simp] theorem State.raise_mc_activeIndex (s : State) (code core : Nat) (xs : List W32) (r : Option (BitVec 256)) : (s.raise code core xs r).mc.activeIndex = s.mc.activeIndex := by
  simp only [State.raise]; split <;> (try split) <;> (try split) <;> simp

@[simp] theorem State.raise_mc_softRepairs (s : State) (code core : Nat) (xs : List W32) (r : Option (BitVec 256)) : (s.raise code core xs r).mc.softRepairs = s.mc.softRepairs := by
  simp only [State.raise]; split <;> (try split) <;> (try split) <;> simp

@[simp] theorem State.raise_mc_die (s : State) (code core : Nat) (xs : List W32) (r : Option (BitVec 256)) : (s.raise code core xs r).mc.die = s.mc.die := by
  simp only [State.raise]; split <;> (try split) <;> (try split) <;> simp

@[simp] theorem State.raise_mc_stackT (s : State) (code core : Nat) (xs : List W32) (r : Option (BitVec 256)) : (s.raise code core xs r).mc.stackT = s.mc.stackT := by
  simp only [State.raise]; split <;> (try split) <;> (try split) <;> simp

@[simp] theorem State.raise_mc_board (s : State) (code core : Nat) (xs : List W32) (r : Option (BitVec 256)) : (s.raise code core xs r).mc.board = s.mc.board := by
  simp only [State.raise]; split <;> (try split) <;> (try split) <;> simp

@[simp] theorem State.raise_mc_coolIn (s : State) (code core : Nat) (xs : List W32) (r : Option (BitVec 256)) : (s.raise code core xs r).mc.coolIn = s.mc.coolIn := by
  simp only [State.raise]; split <;> (try split) <;> (try split) <;> simp

@[simp] theorem State.raise_mc_coolOut (s : State) (code core : Nat) (xs : List W32) (r : Option (BitVec 256)) : (s.raise code core xs r).mc.coolOut = s.mc.coolOut := by
  simp only [State.raise]; split <;> (try split) <;> (try split) <;> simp

@[simp] theorem State.raise_mc_rails (s : State) (code core : Nat) (xs : List W32) (r : Option (BitVec 256)) : (s.raise code core xs r).mc.rails = s.mc.rails := by
  simp only [State.raise]; split <;> (try split) <;> (try split) <;> simp

@[simp] theorem State.raise_mc_railsCurrent (s : State) (code core : Nat) (xs : List W32) (r : Option (BitVec 256)) : (s.raise code core xs r).mc.railsCurrent = s.mc.railsCurrent := by
  simp only [State.raise]; split <;> (try split) <;> (try split) <;> simp

@[simp] theorem State.raise_mc_power (s : State) (code core : Nat) (xs : List W32) (r : Option (BitVec 256)) : (s.raise code core xs r).mc.power = s.mc.power := by
  simp only [State.raise]; split <;> (try split) <;> (try split) <;> simp

@[simp] theorem State.raise_mc_page (s : State) (code core : Nat) (xs : List W32) (r : Option (BitVec 256)) : (s.raise code core xs r).mc.page = s.mc.page := by
  simp only [State.raise]; split <;> (try split) <;> (try split) <;> simp

@[simp] theorem State.raise_mc_borrowed (s : State) (code core : Nat) (xs : List W32) (r : Option (BitVec 256)) : (s.raise code core xs r).mc.borrowed = s.mc.borrowed := by
  simp only [State.raise]; split <;> (try split) <;> (try split) <;> simp

@[simp] theorem State.raise_mc_borrowedAt (s : State) (code core : Nat) (xs : List W32) (r : Option (BitVec 256)) : (s.raise code core xs r).mc.borrowedAt = s.mc.borrowedAt := by
  simp only [State.raise]; split <;> (try split) <;> (try split) <;> simp

@[simp] theorem State.raise_mc_excluded (s : State) (code core : Nat) (xs : List W32) (r : Option (BitVec 256)) : (s.raise code core xs r).mc.excluded = s.mc.excluded := by
  simp only [State.raise]; split <;> (try split) <;> (try split) <;> simp

@[simp] theorem State.raise_mc_latched (s : State) (code core : Nat) (xs : List W32) (r : Option (BitVec 256)) : (s.raise code core xs r).mc.latched = s.mc.latched := by
  simp only [State.raise]; split <;> (try split) <;> (try split) <;> simp

@[simp] theorem State.raise_mc_recovering (s : State) (code core : Nat) (xs : List W32) (r : Option (BitVec 256)) : (s.raise code core xs r).mc.recovering = s.mc.recovering := by
  simp only [State.raise]; split <;> (try split) <;> (try split) <;> simp

@[simp] theorem State.raise_mc_fabricTried (s : State) (code core : Nat) (xs : List W32) (r : Option (BitVec 256)) : (s.raise code core xs r).mc.fabricTried = s.mc.fabricTried := by
  simp only [State.raise]; split <;> (try split) <;> (try split) <;> simp

@[simp] theorem State.raise_mc_askedSerial (s : State) (code core : Nat) (xs : List W32) (r : Option (BitVec 256)) : (s.raise code core xs r).mc.askedSerial = s.mc.askedSerial := by
  simp only [State.raise]; split <;> (try split) <;> (try split) <;> simp

@[simp] theorem State.raise_mc_certChain (s : State) (code core : Nat) (xs : List W32) (r : Option (BitVec 256)) : (s.raise code core xs r).mc.certChain = s.mc.certChain := by
  simp only [State.raise]; split <;> (try split) <;> (try split) <;> simp

@[simp] theorem State.raise_mc_eid (s : State) (code core : Nat) (xs : List W32) (r : Option (BitVec 256)) : (s.raise code core xs r).mc.eid = s.mc.eid := by
  simp only [State.raise]; split <;> (try split) <;> (try split) <;> simp

@[simp] theorem State.raise_mc_i3cAddress (s : State) (code core : Nat) (xs : List W32) (r : Option (BitVec 256)) : (s.raise code core xs r).mc.i3cAddress = s.mc.i3cAddress := by
  simp only [State.raise]; split <;> (try split) <;> (try split) <;> simp

@[simp] theorem State.raise_mc_spdm (s : State) (code core : Nat) (xs : List W32) (r : Option (BitVec 256)) : (s.raise code core xs r).mc.spdm = s.mc.spdm := by
  simp only [State.raise]; split <;> (try split) <;> (try split) <;> simp

@[simp] theorem State.raise_mc_answer (s : State) (code core : Nat) (xs : List W32) (r : Option (BitVec 256)) : (s.raise code core xs r).mc.answer = s.mc.answer := by
  simp only [State.raise]; split <;> (try split) <;> (try split) <;> simp

@[simp] theorem State.raiseDev_pending (s : State) (code : Nat) (xs : List W32) : (s.raiseDev code xs).pending = s.pending := State.raise_pending s code noCore xs none

@[simp] theorem State.raiseDev_freeIx (s : State) (code : Nat) (xs : List W32) : (s.raiseDev code xs).freeIx = s.freeIx := State.raise_freeIx s code noCore xs none

@[simp] theorem State.raiseDev_now (s : State) (code : Nat) (xs : List W32) : (s.raiseDev code xs).now = s.now := State.raise_now s code noCore xs none

@[simp] theorem State.raiseDev_dram (s : State) (code : Nat) (xs : List W32) : (s.raiseDev code xs).dram = s.dram := State.raise_dram s code noCore xs none

@[simp] theorem State.raiseDev_dramEpoch (s : State) (code : Nat) (xs : List W32) : (s.raiseDev code xs).dramEpoch = s.dramEpoch := State.raise_dramEpoch s code noCore xs none

@[simp] theorem State.raiseDev_poison (s : State) (code : Nat) (xs : List W32) : (s.raiseDev code xs).poison = s.poison := State.raise_poison s code noCore xs none

@[simp] theorem State.raiseDev_hostMem (s : State) (code : Nat) (xs : List W32) : (s.raiseDev code xs).hostMem = s.hostMem := State.raise_hostMem s code noCore xs none

@[simp] theorem State.raiseDev_cores (s : State) (code : Nat) (xs : List W32) : (s.raiseDev code xs).cores = s.cores := State.raise_cores s code noCore xs none

@[simp] theorem State.raiseDev_sites (s : State) (code : Nat) (xs : List W32) : (s.raiseDev code xs).sites = s.sites := State.raise_sites s code noCore xs none

@[simp] theorem State.raiseDev_upsets (s : State) (code : Nat) (xs : List W32) : (s.raiseDev code xs).upsets = s.upsets := State.raise_upsets s code noCore xs none

@[simp] theorem State.raiseDev_sramUpsets (s : State) (code : Nat) (xs : List W32) : (s.raiseDev code xs).sramUpsets = s.sramUpsets := State.raise_sramUpsets s code noCore xs none

@[simp] theorem State.raiseDev_hbm (s : State) (code : Nat) (xs : List W32) : (s.raiseDev code xs).hbm = s.hbm := State.raise_hbm s code noCore xs none

@[simp] theorem State.raiseDev_prog (s : State) (code : Nat) (xs : List W32) : (s.raiseDev code xs).prog = s.prog := State.raise_prog s code noCore xs none

@[simp] theorem State.raiseDev_cad (s : State) (code : Nat) (xs : List W32) : (s.raiseDev code xs).cad = s.cad := State.raise_cad s code noCore xs none

@[simp] theorem State.raiseDev_fab (s : State) (code : Nat) (xs : List W32) : (s.raiseDev code xs).fab = s.fab := State.raise_fab s code noCore xs none

@[simp] theorem State.raiseDev_pwr (s : State) (code : Nat) (xs : List W32) : (s.raiseDev code xs).pwr = s.pwr := State.raise_pwr s code noCore xs none

@[simp] theorem State.raiseDev_clk (s : State) (code : Nat) (xs : List W32) : (s.raiseDev code xs).clk = s.clk := State.raise_clk s code noCore xs none

@[simp] theorem State.raiseDev_surveySeq (s : State) (code : Nat) (xs : List W32) : (s.raiseDev code xs).surveySeq = s.surveySeq := State.raise_surveySeq s code noCore xs none

@[simp] theorem State.raiseDev_surveyRec (s : State) (code : Nat) (xs : List W32) : (s.raiseDev code xs).surveyRec = s.surveyRec := State.raise_surveyRec s code noCore xs none

@[simp] theorem State.raiseDev_mc_up (s : State) (code : Nat) (xs : List W32) : (s.raiseDev code xs).mc.up = s.mc.up :=
  State.raise_mc_up s code noCore xs none

@[simp] theorem State.raiseDev_mc_recovery (s : State) (code : Nat) (xs : List W32) : (s.raiseDev code xs).mc.recovery = s.mc.recovery :=
  State.raise_mc_recovery s code noCore xs none

@[simp] theorem State.raiseDev_mc_restartCause (s : State) (code : Nat) (xs : List W32) : (s.raiseDev code xs).mc.restartCause = s.mc.restartCause :=
  State.raise_mc_restartCause s code noCore xs none

@[simp] theorem State.raiseDev_mc_restarts (s : State) (code : Nat) (xs : List W32) : (s.raiseDev code xs).mc.restarts = s.mc.restarts :=
  State.raise_mc_restarts s code noCore xs none

@[simp] theorem State.raiseDev_mc_fuses (s : State) (code : Nat) (xs : List W32) : (s.raiseDev code xs).mc.fuses = s.mc.fuses :=
  State.raise_mc_fuses s code noCore xs none

@[simp] theorem State.raiseDev_mc_fuseArray (s : State) (code : Nat) (xs : List W32) : (s.raiseDev code xs).mc.fuseArray = s.mc.fuseArray :=
  State.raise_mc_fuseArray s code noCore xs none

@[simp] theorem State.raiseDev_mc_sram (s : State) (code : Nat) (xs : List W32) : (s.raiseDev code xs).mc.sram = s.mc.sram :=
  State.raise_mc_sram s code noCore xs none

@[simp] theorem State.raiseDev_mc_portClosed (s : State) (code : Nat) (xs : List W32) : (s.raiseDev code xs).mc.portClosed = s.mc.portClosed :=
  State.raise_mc_portClosed s code noCore xs none

@[simp] theorem State.raiseDev_mc_tamperCause (s : State) (code : Nat) (xs : List W32) : (s.raiseDev code xs).mc.tamperCause = s.mc.tamperCause :=
  State.raise_mc_tamperCause s code noCore xs none

@[simp] theorem State.raiseDev_mc_wipeRetries (s : State) (code : Nat) (xs : List W32) : (s.raiseDev code xs).mc.wipeRetries = s.mc.wipeRetries :=
  State.raise_mc_wipeRetries s code noCore xs none

@[simp] theorem State.raiseDev_mc_secretClosed (s : State) (code : Nat) (xs : List W32) : (s.raiseDev code xs).mc.secretClosed = s.mc.secretClosed :=
  State.raise_mc_secretClosed s code noCore xs none

@[simp] theorem State.raiseDev_mc_utc (s : State) (code : Nat) (xs : List W32) : (s.raiseDev code xs).mc.utc = s.mc.utc :=
  State.raise_mc_utc s code noCore xs none

@[simp] theorem State.raiseDev_mc_utcValid (s : State) (code : Nat) (xs : List W32) : (s.raiseDev code xs).mc.utcValid = s.mc.utcValid :=
  State.raise_mc_utcValid s code noCore xs none

@[simp] theorem State.raiseDev_mc_nonce (s : State) (code : Nat) (xs : List W32) : (s.raiseDev code xs).mc.nonce = s.mc.nonce :=
  State.raise_mc_nonce s code noCore xs none

@[simp] theorem State.raiseDev_mc_flashLog (s : State) (code : Nat) (xs : List W32) : (s.raiseDev code xs).mc.flashLog = s.mc.flashLog :=
  State.raise_mc_flashLog s code noCore xs none

@[simp] theorem State.raiseDev_mc_images (s : State) (code : Nat) (xs : List W32) : (s.raiseDev code xs).mc.images = s.mc.images :=
  State.raise_mc_images s code noCore xs none

@[simp] theorem State.raiseDev_mc_running (s : State) (code : Nat) (xs : List W32) : (s.raiseDev code xs).mc.running = s.mc.running :=
  State.raise_mc_running s code noCore xs none

@[simp] theorem State.raiseDev_mc_written (s : State) (code : Nat) (xs : List W32) : (s.raiseDev code xs).mc.written = s.mc.written :=
  State.raise_mc_written s code noCore xs none

@[simp] theorem State.raiseDev_mc_pending (s : State) (code : Nat) (xs : List W32) : (s.raiseDev code xs).mc.pending = s.mc.pending :=
  State.raise_mc_pending s code noCore xs none

@[simp] theorem State.raiseDev_mc_phase (s : State) (code : Nat) (xs : List W32) : (s.raiseDev code xs).mc.phase = s.mc.phase :=
  State.raise_mc_phase s code noCore xs none

@[simp] theorem State.raiseDev_mc_agent (s : State) (code : Nat) (xs : List W32) : (s.raiseDev code xs).mc.agent = s.mc.agent :=
  State.raise_mc_agent s code noCore xs none

@[simp] theorem State.raiseDev_mc_component (s : State) (code : Nat) (xs : List W32) : (s.raiseDev code xs).mc.component = s.mc.component :=
  State.raise_mc_component s code noCore xs none

@[simp] theorem State.raiseDev_mc_staging (s : State) (code : Nat) (xs : List W32) : (s.raiseDev code xs).mc.staging = s.mc.staging :=
  State.raise_mc_staging s code noCore xs none

@[simp] theorem State.raiseDev_mc_chunk (s : State) (code : Nat) (xs : List W32) : (s.raiseDev code xs).mc.chunk = s.mc.chunk :=
  State.raise_mc_chunk s code noCore xs none

@[simp] theorem State.raiseDev_mc_oldBinder (s : State) (code : Nat) (xs : List W32) : (s.raiseDev code xs).mc.oldBinder = s.mc.oldBinder :=
  State.raise_mc_oldBinder s code noCore xs none

@[simp] theorem State.raiseDev_mc_profiles (s : State) (code : Nat) (xs : List W32) : (s.raiseDev code xs).mc.profiles = s.mc.profiles :=
  State.raise_mc_profiles s code noCore xs none

@[simp] theorem State.raiseDev_mc_profSelected (s : State) (code : Nat) (xs : List W32) : (s.raiseDev code xs).mc.profSelected = s.mc.profSelected :=
  State.raise_mc_profSelected s code noCore xs none

@[simp] theorem State.raiseDev_mc_profPins (s : State) (code : Nat) (xs : List W32) : (s.raiseDev code xs).mc.profPins = s.mc.profPins :=
  State.raise_mc_profPins s code noCore xs none

@[simp] theorem State.raiseDev_mc_activeProfile (s : State) (code : Nat) (xs : List W32) : (s.raiseDev code xs).mc.activeProfile = s.mc.activeProfile :=
  State.raise_mc_activeProfile s code noCore xs none

@[simp] theorem State.raiseDev_mc_activeIndex (s : State) (code : Nat) (xs : List W32) : (s.raiseDev code xs).mc.activeIndex = s.mc.activeIndex :=
  State.raise_mc_activeIndex s code noCore xs none

@[simp] theorem State.raiseDev_mc_softRepairs (s : State) (code : Nat) (xs : List W32) : (s.raiseDev code xs).mc.softRepairs = s.mc.softRepairs :=
  State.raise_mc_softRepairs s code noCore xs none

@[simp] theorem State.raiseDev_mc_die (s : State) (code : Nat) (xs : List W32) : (s.raiseDev code xs).mc.die = s.mc.die :=
  State.raise_mc_die s code noCore xs none

@[simp] theorem State.raiseDev_mc_stackT (s : State) (code : Nat) (xs : List W32) : (s.raiseDev code xs).mc.stackT = s.mc.stackT :=
  State.raise_mc_stackT s code noCore xs none

@[simp] theorem State.raiseDev_mc_board (s : State) (code : Nat) (xs : List W32) : (s.raiseDev code xs).mc.board = s.mc.board :=
  State.raise_mc_board s code noCore xs none

@[simp] theorem State.raiseDev_mc_coolIn (s : State) (code : Nat) (xs : List W32) : (s.raiseDev code xs).mc.coolIn = s.mc.coolIn :=
  State.raise_mc_coolIn s code noCore xs none

@[simp] theorem State.raiseDev_mc_coolOut (s : State) (code : Nat) (xs : List W32) : (s.raiseDev code xs).mc.coolOut = s.mc.coolOut :=
  State.raise_mc_coolOut s code noCore xs none

@[simp] theorem State.raiseDev_mc_rails (s : State) (code : Nat) (xs : List W32) : (s.raiseDev code xs).mc.rails = s.mc.rails :=
  State.raise_mc_rails s code noCore xs none

@[simp] theorem State.raiseDev_mc_railsCurrent (s : State) (code : Nat) (xs : List W32) : (s.raiseDev code xs).mc.railsCurrent = s.mc.railsCurrent :=
  State.raise_mc_railsCurrent s code noCore xs none

@[simp] theorem State.raiseDev_mc_power (s : State) (code : Nat) (xs : List W32) : (s.raiseDev code xs).mc.power = s.mc.power :=
  State.raise_mc_power s code noCore xs none

@[simp] theorem State.raiseDev_mc_page (s : State) (code : Nat) (xs : List W32) : (s.raiseDev code xs).mc.page = s.mc.page :=
  State.raise_mc_page s code noCore xs none

@[simp] theorem State.raiseDev_mc_borrowed (s : State) (code : Nat) (xs : List W32) : (s.raiseDev code xs).mc.borrowed = s.mc.borrowed :=
  State.raise_mc_borrowed s code noCore xs none

@[simp] theorem State.raiseDev_mc_borrowedAt (s : State) (code : Nat) (xs : List W32) : (s.raiseDev code xs).mc.borrowedAt = s.mc.borrowedAt :=
  State.raise_mc_borrowedAt s code noCore xs none

@[simp] theorem State.raiseDev_mc_excluded (s : State) (code : Nat) (xs : List W32) : (s.raiseDev code xs).mc.excluded = s.mc.excluded :=
  State.raise_mc_excluded s code noCore xs none

@[simp] theorem State.raiseDev_mc_latched (s : State) (code : Nat) (xs : List W32) : (s.raiseDev code xs).mc.latched = s.mc.latched :=
  State.raise_mc_latched s code noCore xs none

@[simp] theorem State.raiseDev_mc_recovering (s : State) (code : Nat) (xs : List W32) : (s.raiseDev code xs).mc.recovering = s.mc.recovering :=
  State.raise_mc_recovering s code noCore xs none

@[simp] theorem State.raiseDev_mc_fabricTried (s : State) (code : Nat) (xs : List W32) : (s.raiseDev code xs).mc.fabricTried = s.mc.fabricTried :=
  State.raise_mc_fabricTried s code noCore xs none

@[simp] theorem State.raiseDev_mc_askedSerial (s : State) (code : Nat) (xs : List W32) : (s.raiseDev code xs).mc.askedSerial = s.mc.askedSerial :=
  State.raise_mc_askedSerial s code noCore xs none

@[simp] theorem State.raiseDev_mc_certChain (s : State) (code : Nat) (xs : List W32) : (s.raiseDev code xs).mc.certChain = s.mc.certChain :=
  State.raise_mc_certChain s code noCore xs none

@[simp] theorem State.raiseDev_mc_eid (s : State) (code : Nat) (xs : List W32) : (s.raiseDev code xs).mc.eid = s.mc.eid :=
  State.raise_mc_eid s code noCore xs none

@[simp] theorem State.raiseDev_mc_i3cAddress (s : State) (code : Nat) (xs : List W32) : (s.raiseDev code xs).mc.i3cAddress = s.mc.i3cAddress :=
  State.raise_mc_i3cAddress s code noCore xs none

@[simp] theorem State.raiseDev_mc_spdm (s : State) (code : Nat) (xs : List W32) : (s.raiseDev code xs).mc.spdm = s.mc.spdm :=
  State.raise_mc_spdm s code noCore xs none

@[simp] theorem State.raiseDev_mc_answer (s : State) (code : Nat) (xs : List W32) : (s.raiseDev code xs).mc.answer = s.mc.answer :=
  State.raise_mc_answer s code noCore xs none

@[simp] theorem State.raiseStep_pending (s : State) (code core : Nat) (xs : List W32) (r : Option (BitVec 256)) : (s.raiseStep code core xs r).pending = s.pending := by
  simp only [State.raiseStep]; split <;> simp

@[simp] theorem State.raiseStep_freeIx (s : State) (code core : Nat) (xs : List W32) (r : Option (BitVec 256)) : (s.raiseStep code core xs r).freeIx = s.freeIx := by
  simp only [State.raiseStep]; split <;> simp

@[simp] theorem State.raiseStep_now (s : State) (code core : Nat) (xs : List W32) (r : Option (BitVec 256)) : (s.raiseStep code core xs r).now = s.now := by
  simp only [State.raiseStep]; split <;> simp

@[simp] theorem State.raiseStep_dram (s : State) (code core : Nat) (xs : List W32) (r : Option (BitVec 256)) : (s.raiseStep code core xs r).dram = s.dram := by
  simp only [State.raiseStep]; split <;> simp

@[simp] theorem State.raiseStep_dramEpoch (s : State) (code core : Nat) (xs : List W32) (r : Option (BitVec 256)) : (s.raiseStep code core xs r).dramEpoch = s.dramEpoch := by
  simp only [State.raiseStep]; split <;> simp

@[simp] theorem State.raiseStep_poison (s : State) (code core : Nat) (xs : List W32) (r : Option (BitVec 256)) : (s.raiseStep code core xs r).poison = s.poison := by
  simp only [State.raiseStep]; split <;> simp

@[simp] theorem State.raiseStep_hostMem (s : State) (code core : Nat) (xs : List W32) (r : Option (BitVec 256)) : (s.raiseStep code core xs r).hostMem = s.hostMem := by
  simp only [State.raiseStep]; split <;> simp

@[simp] theorem State.raiseStep_cores (s : State) (code core : Nat) (xs : List W32) (r : Option (BitVec 256)) : (s.raiseStep code core xs r).cores = s.cores := by
  simp only [State.raiseStep]; split <;> simp

@[simp] theorem State.raiseStep_sites (s : State) (code core : Nat) (xs : List W32) (r : Option (BitVec 256)) : (s.raiseStep code core xs r).sites = s.sites := by
  simp only [State.raiseStep]; split <;> simp

@[simp] theorem State.raiseStep_upsets (s : State) (code core : Nat) (xs : List W32) (r : Option (BitVec 256)) : (s.raiseStep code core xs r).upsets = s.upsets := by
  simp only [State.raiseStep]; split <;> simp

@[simp] theorem State.raiseStep_sramUpsets (s : State) (code core : Nat) (xs : List W32) (r : Option (BitVec 256)) : (s.raiseStep code core xs r).sramUpsets = s.sramUpsets := by
  simp only [State.raiseStep]; split <;> simp

@[simp] theorem State.raiseStep_hbm (s : State) (code core : Nat) (xs : List W32) (r : Option (BitVec 256)) : (s.raiseStep code core xs r).hbm = s.hbm := by
  simp only [State.raiseStep]; split <;> simp

@[simp] theorem State.raiseStep_prog (s : State) (code core : Nat) (xs : List W32) (r : Option (BitVec 256)) : (s.raiseStep code core xs r).prog = s.prog := by
  simp only [State.raiseStep]; split <;> simp

@[simp] theorem State.raiseStep_cad (s : State) (code core : Nat) (xs : List W32) (r : Option (BitVec 256)) : (s.raiseStep code core xs r).cad = s.cad := by
  simp only [State.raiseStep]; split <;> simp

@[simp] theorem State.raiseStep_fab (s : State) (code core : Nat) (xs : List W32) (r : Option (BitVec 256)) : (s.raiseStep code core xs r).fab = s.fab := by
  simp only [State.raiseStep]; split <;> simp

@[simp] theorem State.raiseStep_pwr (s : State) (code core : Nat) (xs : List W32) (r : Option (BitVec 256)) : (s.raiseStep code core xs r).pwr = s.pwr := by
  simp only [State.raiseStep]; split <;> simp

@[simp] theorem State.raiseStep_clk (s : State) (code core : Nat) (xs : List W32) (r : Option (BitVec 256)) : (s.raiseStep code core xs r).clk = s.clk := by
  simp only [State.raiseStep]; split <;> simp

@[simp] theorem State.raiseStep_surveySeq (s : State) (code core : Nat) (xs : List W32) (r : Option (BitVec 256)) : (s.raiseStep code core xs r).surveySeq = s.surveySeq := by
  simp only [State.raiseStep]; split <;> simp

@[simp] theorem State.raiseStep_surveyRec (s : State) (code core : Nat) (xs : List W32) (r : Option (BitVec 256)) : (s.raiseStep code core xs r).surveyRec = s.surveyRec := by
  simp only [State.raiseStep]; split <;> simp

@[simp] theorem State.raiseStep_mc_up (s : State) (code core : Nat) (xs : List W32) (r : Option (BitVec 256)) : (s.raiseStep code core xs r).mc.up = s.mc.up := by
  simp only [State.raiseStep]; split <;> simp

@[simp] theorem State.raiseStep_mc_recovery (s : State) (code core : Nat) (xs : List W32) (r : Option (BitVec 256)) : (s.raiseStep code core xs r).mc.recovery = s.mc.recovery := by
  simp only [State.raiseStep]; split <;> simp

@[simp] theorem State.raiseStep_mc_restartCause (s : State) (code core : Nat) (xs : List W32) (r : Option (BitVec 256)) : (s.raiseStep code core xs r).mc.restartCause = s.mc.restartCause := by
  simp only [State.raiseStep]; split <;> simp

@[simp] theorem State.raiseStep_mc_restarts (s : State) (code core : Nat) (xs : List W32) (r : Option (BitVec 256)) : (s.raiseStep code core xs r).mc.restarts = s.mc.restarts := by
  simp only [State.raiseStep]; split <;> simp

@[simp] theorem State.raiseStep_mc_fuses (s : State) (code core : Nat) (xs : List W32) (r : Option (BitVec 256)) : (s.raiseStep code core xs r).mc.fuses = s.mc.fuses := by
  simp only [State.raiseStep]; split <;> simp

@[simp] theorem State.raiseStep_mc_fuseArray (s : State) (code core : Nat) (xs : List W32) (r : Option (BitVec 256)) : (s.raiseStep code core xs r).mc.fuseArray = s.mc.fuseArray := by
  simp only [State.raiseStep]; split <;> simp

@[simp] theorem State.raiseStep_mc_sram (s : State) (code core : Nat) (xs : List W32) (r : Option (BitVec 256)) : (s.raiseStep code core xs r).mc.sram = s.mc.sram := by
  simp only [State.raiseStep]; split <;> simp

@[simp] theorem State.raiseStep_mc_portClosed (s : State) (code core : Nat) (xs : List W32) (r : Option (BitVec 256)) : (s.raiseStep code core xs r).mc.portClosed = s.mc.portClosed := by
  simp only [State.raiseStep]; split <;> simp

@[simp] theorem State.raiseStep_mc_tamperCause (s : State) (code core : Nat) (xs : List W32) (r : Option (BitVec 256)) : (s.raiseStep code core xs r).mc.tamperCause = s.mc.tamperCause := by
  simp only [State.raiseStep]; split <;> simp

@[simp] theorem State.raiseStep_mc_wipeRetries (s : State) (code core : Nat) (xs : List W32) (r : Option (BitVec 256)) : (s.raiseStep code core xs r).mc.wipeRetries = s.mc.wipeRetries := by
  simp only [State.raiseStep]; split <;> simp

@[simp] theorem State.raiseStep_mc_secretClosed (s : State) (code core : Nat) (xs : List W32) (r : Option (BitVec 256)) : (s.raiseStep code core xs r).mc.secretClosed = s.mc.secretClosed := by
  simp only [State.raiseStep]; split <;> simp

@[simp] theorem State.raiseStep_mc_utc (s : State) (code core : Nat) (xs : List W32) (r : Option (BitVec 256)) : (s.raiseStep code core xs r).mc.utc = s.mc.utc := by
  simp only [State.raiseStep]; split <;> simp

@[simp] theorem State.raiseStep_mc_utcValid (s : State) (code core : Nat) (xs : List W32) (r : Option (BitVec 256)) : (s.raiseStep code core xs r).mc.utcValid = s.mc.utcValid := by
  simp only [State.raiseStep]; split <;> simp

@[simp] theorem State.raiseStep_mc_nonce (s : State) (code core : Nat) (xs : List W32) (r : Option (BitVec 256)) : (s.raiseStep code core xs r).mc.nonce = s.mc.nonce := by
  simp only [State.raiseStep]; split <;> simp

@[simp] theorem State.raiseStep_mc_flashLog (s : State) (code core : Nat) (xs : List W32) (r : Option (BitVec 256)) : (s.raiseStep code core xs r).mc.flashLog = s.mc.flashLog := by
  simp only [State.raiseStep]; split <;> simp

@[simp] theorem State.raiseStep_mc_images (s : State) (code core : Nat) (xs : List W32) (r : Option (BitVec 256)) : (s.raiseStep code core xs r).mc.images = s.mc.images := by
  simp only [State.raiseStep]; split <;> simp

@[simp] theorem State.raiseStep_mc_running (s : State) (code core : Nat) (xs : List W32) (r : Option (BitVec 256)) : (s.raiseStep code core xs r).mc.running = s.mc.running := by
  simp only [State.raiseStep]; split <;> simp

@[simp] theorem State.raiseStep_mc_written (s : State) (code core : Nat) (xs : List W32) (r : Option (BitVec 256)) : (s.raiseStep code core xs r).mc.written = s.mc.written := by
  simp only [State.raiseStep]; split <;> simp

@[simp] theorem State.raiseStep_mc_pending (s : State) (code core : Nat) (xs : List W32) (r : Option (BitVec 256)) : (s.raiseStep code core xs r).mc.pending = s.mc.pending := by
  simp only [State.raiseStep]; split <;> simp

@[simp] theorem State.raiseStep_mc_phase (s : State) (code core : Nat) (xs : List W32) (r : Option (BitVec 256)) : (s.raiseStep code core xs r).mc.phase = s.mc.phase := by
  simp only [State.raiseStep]; split <;> simp

@[simp] theorem State.raiseStep_mc_agent (s : State) (code core : Nat) (xs : List W32) (r : Option (BitVec 256)) : (s.raiseStep code core xs r).mc.agent = s.mc.agent := by
  simp only [State.raiseStep]; split <;> simp

@[simp] theorem State.raiseStep_mc_component (s : State) (code core : Nat) (xs : List W32) (r : Option (BitVec 256)) : (s.raiseStep code core xs r).mc.component = s.mc.component := by
  simp only [State.raiseStep]; split <;> simp

@[simp] theorem State.raiseStep_mc_staging (s : State) (code core : Nat) (xs : List W32) (r : Option (BitVec 256)) : (s.raiseStep code core xs r).mc.staging = s.mc.staging := by
  simp only [State.raiseStep]; split <;> simp

@[simp] theorem State.raiseStep_mc_chunk (s : State) (code core : Nat) (xs : List W32) (r : Option (BitVec 256)) : (s.raiseStep code core xs r).mc.chunk = s.mc.chunk := by
  simp only [State.raiseStep]; split <;> simp

@[simp] theorem State.raiseStep_mc_oldBinder (s : State) (code core : Nat) (xs : List W32) (r : Option (BitVec 256)) : (s.raiseStep code core xs r).mc.oldBinder = s.mc.oldBinder := by
  simp only [State.raiseStep]; split <;> simp

@[simp] theorem State.raiseStep_mc_profiles (s : State) (code core : Nat) (xs : List W32) (r : Option (BitVec 256)) : (s.raiseStep code core xs r).mc.profiles = s.mc.profiles := by
  simp only [State.raiseStep]; split <;> simp

@[simp] theorem State.raiseStep_mc_profSelected (s : State) (code core : Nat) (xs : List W32) (r : Option (BitVec 256)) : (s.raiseStep code core xs r).mc.profSelected = s.mc.profSelected := by
  simp only [State.raiseStep]; split <;> simp

@[simp] theorem State.raiseStep_mc_profPins (s : State) (code core : Nat) (xs : List W32) (r : Option (BitVec 256)) : (s.raiseStep code core xs r).mc.profPins = s.mc.profPins := by
  simp only [State.raiseStep]; split <;> simp

@[simp] theorem State.raiseStep_mc_activeProfile (s : State) (code core : Nat) (xs : List W32) (r : Option (BitVec 256)) : (s.raiseStep code core xs r).mc.activeProfile = s.mc.activeProfile := by
  simp only [State.raiseStep]; split <;> simp

@[simp] theorem State.raiseStep_mc_activeIndex (s : State) (code core : Nat) (xs : List W32) (r : Option (BitVec 256)) : (s.raiseStep code core xs r).mc.activeIndex = s.mc.activeIndex := by
  simp only [State.raiseStep]; split <;> simp

@[simp] theorem State.raiseStep_mc_softRepairs (s : State) (code core : Nat) (xs : List W32) (r : Option (BitVec 256)) : (s.raiseStep code core xs r).mc.softRepairs = s.mc.softRepairs := by
  simp only [State.raiseStep]; split <;> simp

@[simp] theorem State.raiseStep_mc_die (s : State) (code core : Nat) (xs : List W32) (r : Option (BitVec 256)) : (s.raiseStep code core xs r).mc.die = s.mc.die := by
  simp only [State.raiseStep]; split <;> simp

@[simp] theorem State.raiseStep_mc_stackT (s : State) (code core : Nat) (xs : List W32) (r : Option (BitVec 256)) : (s.raiseStep code core xs r).mc.stackT = s.mc.stackT := by
  simp only [State.raiseStep]; split <;> simp

@[simp] theorem State.raiseStep_mc_board (s : State) (code core : Nat) (xs : List W32) (r : Option (BitVec 256)) : (s.raiseStep code core xs r).mc.board = s.mc.board := by
  simp only [State.raiseStep]; split <;> simp

@[simp] theorem State.raiseStep_mc_coolIn (s : State) (code core : Nat) (xs : List W32) (r : Option (BitVec 256)) : (s.raiseStep code core xs r).mc.coolIn = s.mc.coolIn := by
  simp only [State.raiseStep]; split <;> simp

@[simp] theorem State.raiseStep_mc_coolOut (s : State) (code core : Nat) (xs : List W32) (r : Option (BitVec 256)) : (s.raiseStep code core xs r).mc.coolOut = s.mc.coolOut := by
  simp only [State.raiseStep]; split <;> simp

@[simp] theorem State.raiseStep_mc_rails (s : State) (code core : Nat) (xs : List W32) (r : Option (BitVec 256)) : (s.raiseStep code core xs r).mc.rails = s.mc.rails := by
  simp only [State.raiseStep]; split <;> simp

@[simp] theorem State.raiseStep_mc_railsCurrent (s : State) (code core : Nat) (xs : List W32) (r : Option (BitVec 256)) : (s.raiseStep code core xs r).mc.railsCurrent = s.mc.railsCurrent := by
  simp only [State.raiseStep]; split <;> simp

@[simp] theorem State.raiseStep_mc_power (s : State) (code core : Nat) (xs : List W32) (r : Option (BitVec 256)) : (s.raiseStep code core xs r).mc.power = s.mc.power := by
  simp only [State.raiseStep]; split <;> simp

@[simp] theorem State.raiseStep_mc_page (s : State) (code core : Nat) (xs : List W32) (r : Option (BitVec 256)) : (s.raiseStep code core xs r).mc.page = s.mc.page := by
  simp only [State.raiseStep]; split <;> simp

@[simp] theorem State.raiseStep_mc_borrowed (s : State) (code core : Nat) (xs : List W32) (r : Option (BitVec 256)) : (s.raiseStep code core xs r).mc.borrowed = s.mc.borrowed := by
  simp only [State.raiseStep]; split <;> simp

@[simp] theorem State.raiseStep_mc_borrowedAt (s : State) (code core : Nat) (xs : List W32) (r : Option (BitVec 256)) : (s.raiseStep code core xs r).mc.borrowedAt = s.mc.borrowedAt := by
  simp only [State.raiseStep]; split <;> simp

@[simp] theorem State.raiseStep_mc_excluded (s : State) (code core : Nat) (xs : List W32) (r : Option (BitVec 256)) : (s.raiseStep code core xs r).mc.excluded = s.mc.excluded := by
  simp only [State.raiseStep]; split <;> simp

@[simp] theorem State.raiseStep_mc_latched (s : State) (code core : Nat) (xs : List W32) (r : Option (BitVec 256)) : (s.raiseStep code core xs r).mc.latched = s.mc.latched := by
  simp only [State.raiseStep]; split <;> simp

@[simp] theorem State.raiseStep_mc_recovering (s : State) (code core : Nat) (xs : List W32) (r : Option (BitVec 256)) : (s.raiseStep code core xs r).mc.recovering = s.mc.recovering := by
  simp only [State.raiseStep]; split <;> simp

@[simp] theorem State.raiseStep_mc_fabricTried (s : State) (code core : Nat) (xs : List W32) (r : Option (BitVec 256)) : (s.raiseStep code core xs r).mc.fabricTried = s.mc.fabricTried := by
  simp only [State.raiseStep]; split <;> simp

@[simp] theorem State.raiseStep_mc_askedSerial (s : State) (code core : Nat) (xs : List W32) (r : Option (BitVec 256)) : (s.raiseStep code core xs r).mc.askedSerial = s.mc.askedSerial := by
  simp only [State.raiseStep]; split <;> simp

@[simp] theorem State.raiseStep_mc_certChain (s : State) (code core : Nat) (xs : List W32) (r : Option (BitVec 256)) : (s.raiseStep code core xs r).mc.certChain = s.mc.certChain := by
  simp only [State.raiseStep]; split <;> simp

@[simp] theorem State.raiseStep_mc_eid (s : State) (code core : Nat) (xs : List W32) (r : Option (BitVec 256)) : (s.raiseStep code core xs r).mc.eid = s.mc.eid := by
  simp only [State.raiseStep]; split <;> simp

@[simp] theorem State.raiseStep_mc_i3cAddress (s : State) (code core : Nat) (xs : List W32) (r : Option (BitVec 256)) : (s.raiseStep code core xs r).mc.i3cAddress = s.mc.i3cAddress := by
  simp only [State.raiseStep]; split <;> simp

@[simp] theorem State.raiseStep_mc_spdm (s : State) (code core : Nat) (xs : List W32) (r : Option (BitVec 256)) : (s.raiseStep code core xs r).mc.spdm = s.mc.spdm := by
  simp only [State.raiseStep]; split <;> simp

@[simp] theorem State.raiseStep_mc_answer (s : State) (code core : Nat) (xs : List W32) (r : Option (BitVec 256)) : (s.raiseStep code core xs r).mc.answer = s.mc.answer := by
  simp only [State.raiseStep]; split <;> simp

/-- While the main domain is off an event is only logged (R360). -/
@[simp] theorem State.raise_host_of_main_off (s : State) (code core : Nat) (xs : List W32) (r : Option (BitVec 256)) (h : s.pwr.main = false) :
    (s.raise code core xs r).host = s.host := by
  simp [State.raise, h]

/-! ### Completions (R316, R319) -/

@[simp] theorem State.complete_pending (s : State) (x : Handle) (st d r : Nat) : (s.complete x st d r).pending = s.pending := by
  simp only [State.complete]; split <;> rfl

@[simp] theorem State.complete_freeIx (s : State) (x : Handle) (st d r : Nat) : (s.complete x st d r).freeIx = s.freeIx := by
  simp only [State.complete]; split <;> rfl

@[simp] theorem State.complete_now (s : State) (x : Handle) (st d r : Nat) : (s.complete x st d r).now = s.now := by
  simp only [State.complete]; split <;> rfl

@[simp] theorem State.complete_dram (s : State) (x : Handle) (st d r : Nat) : (s.complete x st d r).dram = s.dram := by
  simp only [State.complete]; split <;> rfl

@[simp] theorem State.complete_dramEpoch (s : State) (x : Handle) (st d r : Nat) : (s.complete x st d r).dramEpoch = s.dramEpoch := by
  simp only [State.complete]; split <;> rfl

@[simp] theorem State.complete_poison (s : State) (x : Handle) (st d r : Nat) : (s.complete x st d r).poison = s.poison := by
  simp only [State.complete]; split <;> rfl

@[simp] theorem State.complete_hostMem (s : State) (x : Handle) (st d r : Nat) : (s.complete x st d r).hostMem = s.hostMem := by
  simp only [State.complete]; split <;> rfl

@[simp] theorem State.complete_cores (s : State) (x : Handle) (st d r : Nat) : (s.complete x st d r).cores = s.cores := by
  simp only [State.complete]; split <;> rfl

@[simp] theorem State.complete_sites (s : State) (x : Handle) (st d r : Nat) : (s.complete x st d r).sites = s.sites := by
  simp only [State.complete]; split <;> rfl

@[simp] theorem State.complete_upsets (s : State) (x : Handle) (st d r : Nat) : (s.complete x st d r).upsets = s.upsets := by
  simp only [State.complete]; split <;> rfl

@[simp] theorem State.complete_sramUpsets (s : State) (x : Handle) (st d r : Nat) : (s.complete x st d r).sramUpsets = s.sramUpsets := by
  simp only [State.complete]; split <;> rfl

@[simp] theorem State.complete_hbm (s : State) (x : Handle) (st d r : Nat) : (s.complete x st d r).hbm = s.hbm := by
  simp only [State.complete]; split <;> rfl

@[simp] theorem State.complete_prog (s : State) (x : Handle) (st d r : Nat) : (s.complete x st d r).prog = s.prog := by
  simp only [State.complete]; split <;> rfl

@[simp] theorem State.complete_cad (s : State) (x : Handle) (st d r : Nat) : (s.complete x st d r).cad = s.cad := by
  simp only [State.complete]; split <;> rfl

@[simp] theorem State.complete_fab (s : State) (x : Handle) (st d r : Nat) : (s.complete x st d r).fab = s.fab := by
  simp only [State.complete]; split <;> rfl

@[simp] theorem State.complete_mc (s : State) (x : Handle) (st d r : Nat) : (s.complete x st d r).mc = s.mc := by
  simp only [State.complete]; split <;> rfl

@[simp] theorem State.complete_pwr (s : State) (x : Handle) (st d r : Nat) : (s.complete x st d r).pwr = s.pwr := by
  simp only [State.complete]; split <;> rfl

@[simp] theorem State.complete_clk (s : State) (x : Handle) (st d r : Nat) : (s.complete x st d r).clk = s.clk := by
  simp only [State.complete]; split <;> rfl

@[simp] theorem State.complete_surveySeq (s : State) (x : Handle) (st d r : Nat) : (s.complete x st d r).surveySeq = s.surveySeq := by
  simp only [State.complete]; split <;> rfl

@[simp] theorem State.complete_surveyRec (s : State) (x : Handle) (st d r : Nat) : (s.complete x st d r).surveyRec = s.surveyRec := by
  simp only [State.complete]; split <;> rfl

@[simp] theorem State.completeAll_pending (s : State) (xs : List Handle) (st d r : Nat) : (s.completeAll xs st d r).pending = s.pending := by
  simp only [State.completeAll]
  induction xs generalizing s with
  | nil => rfl
  | cons x r ih => simp [ih]

@[simp] theorem State.completeAll_freeIx (s : State) (xs : List Handle) (st d r : Nat) : (s.completeAll xs st d r).freeIx = s.freeIx := by
  simp only [State.completeAll]
  induction xs generalizing s with
  | nil => rfl
  | cons x r ih => simp [ih]

@[simp] theorem State.completeAll_now (s : State) (xs : List Handle) (st d r : Nat) : (s.completeAll xs st d r).now = s.now := by
  simp only [State.completeAll]
  induction xs generalizing s with
  | nil => rfl
  | cons x r ih => simp [ih]

@[simp] theorem State.completeAll_dram (s : State) (xs : List Handle) (st d r : Nat) : (s.completeAll xs st d r).dram = s.dram := by
  simp only [State.completeAll]
  induction xs generalizing s with
  | nil => rfl
  | cons x r ih => simp [ih]

@[simp] theorem State.completeAll_dramEpoch (s : State) (xs : List Handle) (st d r : Nat) : (s.completeAll xs st d r).dramEpoch = s.dramEpoch := by
  simp only [State.completeAll]
  induction xs generalizing s with
  | nil => rfl
  | cons x r ih => simp [ih]

@[simp] theorem State.completeAll_poison (s : State) (xs : List Handle) (st d r : Nat) : (s.completeAll xs st d r).poison = s.poison := by
  simp only [State.completeAll]
  induction xs generalizing s with
  | nil => rfl
  | cons x r ih => simp [ih]

@[simp] theorem State.completeAll_hostMem (s : State) (xs : List Handle) (st d r : Nat) : (s.completeAll xs st d r).hostMem = s.hostMem := by
  simp only [State.completeAll]
  induction xs generalizing s with
  | nil => rfl
  | cons x r ih => simp [ih]

@[simp] theorem State.completeAll_cores (s : State) (xs : List Handle) (st d r : Nat) : (s.completeAll xs st d r).cores = s.cores := by
  simp only [State.completeAll]
  induction xs generalizing s with
  | nil => rfl
  | cons x r ih => simp [ih]

@[simp] theorem State.completeAll_sites (s : State) (xs : List Handle) (st d r : Nat) : (s.completeAll xs st d r).sites = s.sites := by
  simp only [State.completeAll]
  induction xs generalizing s with
  | nil => rfl
  | cons x r ih => simp [ih]

@[simp] theorem State.completeAll_upsets (s : State) (xs : List Handle) (st d r : Nat) : (s.completeAll xs st d r).upsets = s.upsets := by
  simp only [State.completeAll]
  induction xs generalizing s with
  | nil => rfl
  | cons x r ih => simp [ih]

@[simp] theorem State.completeAll_sramUpsets (s : State) (xs : List Handle) (st d r : Nat) : (s.completeAll xs st d r).sramUpsets = s.sramUpsets := by
  simp only [State.completeAll]
  induction xs generalizing s with
  | nil => rfl
  | cons x r ih => simp [ih]

@[simp] theorem State.completeAll_hbm (s : State) (xs : List Handle) (st d r : Nat) : (s.completeAll xs st d r).hbm = s.hbm := by
  simp only [State.completeAll]
  induction xs generalizing s with
  | nil => rfl
  | cons x r ih => simp [ih]

@[simp] theorem State.completeAll_prog (s : State) (xs : List Handle) (st d r : Nat) : (s.completeAll xs st d r).prog = s.prog := by
  simp only [State.completeAll]
  induction xs generalizing s with
  | nil => rfl
  | cons x r ih => simp [ih]

@[simp] theorem State.completeAll_cad (s : State) (xs : List Handle) (st d r : Nat) : (s.completeAll xs st d r).cad = s.cad := by
  simp only [State.completeAll]
  induction xs generalizing s with
  | nil => rfl
  | cons x r ih => simp [ih]

@[simp] theorem State.completeAll_fab (s : State) (xs : List Handle) (st d r : Nat) : (s.completeAll xs st d r).fab = s.fab := by
  simp only [State.completeAll]
  induction xs generalizing s with
  | nil => rfl
  | cons x r ih => simp [ih]

@[simp] theorem State.completeAll_mc (s : State) (xs : List Handle) (st d r : Nat) : (s.completeAll xs st d r).mc = s.mc := by
  simp only [State.completeAll]
  induction xs generalizing s with
  | nil => rfl
  | cons x r ih => simp [ih]

@[simp] theorem State.completeAll_pwr (s : State) (xs : List Handle) (st d r : Nat) : (s.completeAll xs st d r).pwr = s.pwr := by
  simp only [State.completeAll]
  induction xs generalizing s with
  | nil => rfl
  | cons x r ih => simp [ih]

@[simp] theorem State.completeAll_clk (s : State) (xs : List Handle) (st d r : Nat) : (s.completeAll xs st d r).clk = s.clk := by
  simp only [State.completeAll]
  induction xs generalizing s with
  | nil => rfl
  | cons x r ih => simp [ih]

@[simp] theorem State.completeAll_surveySeq (s : State) (xs : List Handle) (st d r : Nat) : (s.completeAll xs st d r).surveySeq = s.surveySeq := by
  simp only [State.completeAll]
  induction xs generalizing s with
  | nil => rfl
  | cons x r ih => simp [ih]

@[simp] theorem State.completeAll_surveyRec (s : State) (xs : List Handle) (st d r : Nat) : (s.completeAll xs st d r).surveyRec = s.surveyRec := by
  simp only [State.completeAll]
  induction xs generalizing s with
  | nil => rfl
  | cons x r ih => simp [ih]

/-- A handle that is not Running keeps its outcome. -/
theorem State.complete_of_not_running (s : State) (x : Handle) (st d r : Nat) (h : s.running? x = none) : s.complete x st d r = s := by
  simp [State.complete, h]

/-! ### Faults of the step (R18) -/

@[simp] theorem State.fault_pending (s : State) (c w : Nat) (r : Option (BitVec 256)) : (s.fault c w r).pending = s.pending := by
  simp only [State.fault]; split <;> rfl

@[simp] theorem State.faultNext_pending (s : State) (c w : Nat) (r : Option (BitVec 256)) : (s.faultNext c w r).pending = s.pending := by
  simp only [State.faultNext]; split <;> rfl

@[simp] theorem State.fault_freeIx (s : State) (c w : Nat) (r : Option (BitVec 256)) : (s.fault c w r).freeIx = s.freeIx := by
  simp only [State.fault]; split <;> rfl

@[simp] theorem State.faultNext_freeIx (s : State) (c w : Nat) (r : Option (BitVec 256)) : (s.faultNext c w r).freeIx = s.freeIx := by
  simp only [State.faultNext]; split <;> rfl

@[simp] theorem State.fault_now (s : State) (c w : Nat) (r : Option (BitVec 256)) : (s.fault c w r).now = s.now := by
  simp only [State.fault]; split <;> rfl

@[simp] theorem State.faultNext_now (s : State) (c w : Nat) (r : Option (BitVec 256)) : (s.faultNext c w r).now = s.now := by
  simp only [State.faultNext]; split <;> rfl

@[simp] theorem State.fault_dram (s : State) (c w : Nat) (r : Option (BitVec 256)) : (s.fault c w r).dram = s.dram := by
  simp only [State.fault]; split <;> rfl

@[simp] theorem State.faultNext_dram (s : State) (c w : Nat) (r : Option (BitVec 256)) : (s.faultNext c w r).dram = s.dram := by
  simp only [State.faultNext]; split <;> rfl

@[simp] theorem State.fault_dramEpoch (s : State) (c w : Nat) (r : Option (BitVec 256)) : (s.fault c w r).dramEpoch = s.dramEpoch := by
  simp only [State.fault]; split <;> rfl

@[simp] theorem State.faultNext_dramEpoch (s : State) (c w : Nat) (r : Option (BitVec 256)) : (s.faultNext c w r).dramEpoch = s.dramEpoch := by
  simp only [State.faultNext]; split <;> rfl

@[simp] theorem State.fault_poison (s : State) (c w : Nat) (r : Option (BitVec 256)) : (s.fault c w r).poison = s.poison := by
  simp only [State.fault]; split <;> rfl

@[simp] theorem State.faultNext_poison (s : State) (c w : Nat) (r : Option (BitVec 256)) : (s.faultNext c w r).poison = s.poison := by
  simp only [State.faultNext]; split <;> rfl

@[simp] theorem State.fault_hostMem (s : State) (c w : Nat) (r : Option (BitVec 256)) : (s.fault c w r).hostMem = s.hostMem := by
  simp only [State.fault]; split <;> rfl

@[simp] theorem State.faultNext_hostMem (s : State) (c w : Nat) (r : Option (BitVec 256)) : (s.faultNext c w r).hostMem = s.hostMem := by
  simp only [State.faultNext]; split <;> rfl

@[simp] theorem State.fault_cores (s : State) (c w : Nat) (r : Option (BitVec 256)) : (s.fault c w r).cores = s.cores := by
  simp only [State.fault]; split <;> rfl

@[simp] theorem State.faultNext_cores (s : State) (c w : Nat) (r : Option (BitVec 256)) : (s.faultNext c w r).cores = s.cores := by
  simp only [State.faultNext]; split <;> rfl

@[simp] theorem State.fault_sites (s : State) (c w : Nat) (r : Option (BitVec 256)) : (s.fault c w r).sites = s.sites := by
  simp only [State.fault]; split <;> rfl

@[simp] theorem State.faultNext_sites (s : State) (c w : Nat) (r : Option (BitVec 256)) : (s.faultNext c w r).sites = s.sites := by
  simp only [State.faultNext]; split <;> rfl

@[simp] theorem State.fault_upsets (s : State) (c w : Nat) (r : Option (BitVec 256)) : (s.fault c w r).upsets = s.upsets := by
  simp only [State.fault]; split <;> rfl

@[simp] theorem State.faultNext_upsets (s : State) (c w : Nat) (r : Option (BitVec 256)) : (s.faultNext c w r).upsets = s.upsets := by
  simp only [State.faultNext]; split <;> rfl

@[simp] theorem State.fault_sramUpsets (s : State) (c w : Nat) (r : Option (BitVec 256)) : (s.fault c w r).sramUpsets = s.sramUpsets := by
  simp only [State.fault]; split <;> rfl

@[simp] theorem State.faultNext_sramUpsets (s : State) (c w : Nat) (r : Option (BitVec 256)) : (s.faultNext c w r).sramUpsets = s.sramUpsets := by
  simp only [State.faultNext]; split <;> rfl

@[simp] theorem State.fault_hbm (s : State) (c w : Nat) (r : Option (BitVec 256)) : (s.fault c w r).hbm = s.hbm := by
  simp only [State.fault]; split <;> rfl

@[simp] theorem State.faultNext_hbm (s : State) (c w : Nat) (r : Option (BitVec 256)) : (s.faultNext c w r).hbm = s.hbm := by
  simp only [State.faultNext]; split <;> rfl

@[simp] theorem State.fault_host (s : State) (c w : Nat) (r : Option (BitVec 256)) : (s.fault c w r).host = s.host := by
  simp only [State.fault]; split <;> rfl

@[simp] theorem State.faultNext_host (s : State) (c w : Nat) (r : Option (BitVec 256)) : (s.faultNext c w r).host = s.host := by
  simp only [State.faultNext]; split <;> rfl

@[simp] theorem State.fault_cad (s : State) (c w : Nat) (r : Option (BitVec 256)) : (s.fault c w r).cad = s.cad := by
  simp only [State.fault]; split <;> rfl

@[simp] theorem State.faultNext_cad (s : State) (c w : Nat) (r : Option (BitVec 256)) : (s.faultNext c w r).cad = s.cad := by
  simp only [State.faultNext]; split <;> rfl

@[simp] theorem State.fault_fab (s : State) (c w : Nat) (r : Option (BitVec 256)) : (s.fault c w r).fab = s.fab := by
  simp only [State.fault]; split <;> rfl

@[simp] theorem State.faultNext_fab (s : State) (c w : Nat) (r : Option (BitVec 256)) : (s.faultNext c w r).fab = s.fab := by
  simp only [State.faultNext]; split <;> rfl

@[simp] theorem State.fault_mc (s : State) (c w : Nat) (r : Option (BitVec 256)) : (s.fault c w r).mc = s.mc := by
  simp only [State.fault]; split <;> rfl

@[simp] theorem State.faultNext_mc (s : State) (c w : Nat) (r : Option (BitVec 256)) : (s.faultNext c w r).mc = s.mc := by
  simp only [State.faultNext]; split <;> rfl

@[simp] theorem State.fault_pwr (s : State) (c w : Nat) (r : Option (BitVec 256)) : (s.fault c w r).pwr = s.pwr := by
  simp only [State.fault]; split <;> rfl

@[simp] theorem State.faultNext_pwr (s : State) (c w : Nat) (r : Option (BitVec 256)) : (s.faultNext c w r).pwr = s.pwr := by
  simp only [State.faultNext]; split <;> rfl

@[simp] theorem State.fault_clk (s : State) (c w : Nat) (r : Option (BitVec 256)) : (s.fault c w r).clk = s.clk := by
  simp only [State.fault]; split <;> rfl

@[simp] theorem State.faultNext_clk (s : State) (c w : Nat) (r : Option (BitVec 256)) : (s.faultNext c w r).clk = s.clk := by
  simp only [State.faultNext]; split <;> rfl

@[simp] theorem State.fault_surveySeq (s : State) (c w : Nat) (r : Option (BitVec 256)) : (s.fault c w r).surveySeq = s.surveySeq := by
  simp only [State.fault]; split <;> rfl

@[simp] theorem State.faultNext_surveySeq (s : State) (c w : Nat) (r : Option (BitVec 256)) : (s.faultNext c w r).surveySeq = s.surveySeq := by
  simp only [State.faultNext]; split <;> rfl

@[simp] theorem State.fault_surveyRec (s : State) (c w : Nat) (r : Option (BitVec 256)) : (s.fault c w r).surveyRec = s.surveyRec := by
  simp only [State.fault]; split <;> rfl

@[simp] theorem State.faultNext_surveyRec (s : State) (c w : Nat) (r : Option (BitVec 256)) : (s.faultNext c w r).surveyRec = s.surveyRec := by
  simp only [State.faultNext]; split <;> rfl

/-- A fault is added behind the others, or one of its cause and place is there already. -/
theorem State.fault_prog (s : State) (c w : Nat) (r : Option (BitVec 256)) :
    (s.fault c w r).prog = s.prog ∨
      (s.fault c w r).prog = { s.prog with faults := s.prog.faults ++ [{ cause := BitVec.ofNat 8 c, who := w, record := r }] } := by
  simp only [State.fault]; split
  · exact .inl rfl
  · exact .inr rfl

/-! ### Outcomes -/

/-- A command whose condition decides answers a next state either way. -/
theorem act_eq (b : Bool) (s t : State) : act b s t = .next (if b = true then t else s) := rfl

end Sys2Proof.Machine
end

