-- ==== Sys2Proof/Machine/ClockTree.lean ====
section
/-!
DEFINITION. What the clock and power trees give at a moment (R362 to R368): arithmetic slots, clock rates, spread spectrum, the state of
each leaf. The model's steps have no durations (log entry 56); these are the figures by which a tick divides.
-/

namespace Sys2Proof.Machine

/-! ### Arithmetic slots (R364) -/

/-- The issued slots P[0 … s − 1] of a tick by ACLK_SLOTS. -/
def issuedSlots (n : Nat) : List Nat :=
  if n = 6 then [0, 1, 2, 4, 5, 6] else if n = 4 then [0, 2, 4, 6] else List.range 8

/-- The slot mask: bit k is slot k. -/
def slotMask (n : Nat) : Nat := ((issuedSlots n).map (2 ^ ·)).sum

/-- Issued cycle `c`, counted from slot 0 of a tick: its tick and its slot. -/
def cyclePlace (n c : Nat) : Nat × Nat :=
  let p := issuedSlots n
  (c / p.length, (p[c % p.length]?).getD 0)

/-- Slots of 1.25 ns elapsed through issued cycle `c`. -/
def slotsThrough (n c : Nat) : Nat := 8 * (cyclePlace n c).1 + (cyclePlace n c).2 + 1

/-- ACLK_SLOTS of the active profile (R380). -/
def State.aclkSlots (s : State) : Nat := fld s.mc.activeProfile.toNat 128 4

/-! ### Rates (R362, R366, R367) -/

/-- ACLK in kHz: stopped while the main PLLs are not locked, at the ramp's divider until the ramp is over, then the APLL's rate. -/
def State.aclkKhz (s : State) : Nat :=
  if !s.pwr.main ∨ s.clk.lost ∨ !s.mainLocked then 0
  else 100000 * fld s.mc.activeProfile.toNat 136 8 / (if s.clk.ramp = 0 then 8 else 9 - s.clk.ramp)

/-- The slots in which engines issue: every slot of the ramp is idle, and after it the profile's mask applies (R366). -/
def State.aclkMask (s : State) : Nat := if s.clk.ramp < 8 then 0 else slotMask s.aclkSlots

def State.sclkKhz (s : State) : Nat :=
  if !s.pwr.main ∨ s.clk.lost ∨ !s.mainLocked then 0 else 100000 * fld s.mc.activeProfile.toNat 144 8

/-- PCLK: REFCLK itself until the SBPLL locks; stopped while the reference is lost, unless the domain stays on bypass (R367, R371, R373). -/
def State.pclkKhz (s : State) : Nat :=
  if !s.pwr.standby ∨ (s.clk.lost ∧ !s.clk.bypass) then 0
  else if s.clk.locked.contains .sb then 100000 * fld s.mc.activeProfile.toNat 160 8 else 100000

/-- The Binder clock, likewise with the BPLL. -/
def State.binderKhz (s : State) : Nat :=
  if !s.pwr.main ∨ (s.clk.lost ∧ !s.clk.bypass) then 0
  else if s.clk.locked.contains .bp then 100000 * fld s.mc.activeProfile.toNat 152 8 else 100000

/-- The ratios of R363, which hardware does not check. -/
def profileRatiosOk (x : Nat) : Bool :=
  fld x 136 8 == 8 && fld x 144 8 == 2 * fld x 136 8 && decide (2 * fld x 160 8 ≤ fld x 152 8) && decide (2 ≤ fld x 160 8)

/-! ### Spread spectrum (R365) -/

/-- Down-spread of the memory clocks in units of 0.05 %. -/
def State.memSpread (s : State) : Nat := fld s.mc.activeProfile.toNat 168 4

/-- Down-spread of a lane's transmit clock: none on a lane that the link-slot table of the active program names. -/
def State.laneSpread (s : State) (l : LaneId) : Nat :=
  let named := s.prog.active.elim false fun img => (s.linkEntries img).any fun e => lLane e = l.val
  if named then 0 else fld s.mc.activeProfile.toNat 172 4

/-! ### Leaves (R368, R369) -/

inductive LeafState
  | run | sleep | deepSleep
  deriving DecidableEq, Repr

def State.siteLeaf (s : State) (i : SiteId) : LeafState :=
  if !s.pwr.main ∨ (s.site i).deepSleep then .deepSleep
  else match s.coreAt i with
    | some c => if (s.core c).asleep then .sleep else .run
    | none => .run

def State.stackLeaf (s : State) (k : StackId) : LeafState :=
  if !s.pwr.main ∨ (s.stack k).state ≠ .service then .deepSleep
  else if (s.stack k).selfRefresh then .sleep else .run

def State.laneLeaf (s : State) (l : LaneId) : LeafState :=
  if !s.pwr.main ∨ (s.link l).phase = .disabled then .deepSleep
  else if !s.mainClocks then .sleep
  else match (s.link l).phase with
    | .disabled => .deepSleep
    | .failed => .sleep
    | .refused => .sleep
    | .negotiating => .run | .training => .run | .locking => .run | .records => .run | .timing => .run | .joining => .run | .up => .run

def State.binderLeaf (s : State) : LeafState := if !s.pwr.main then .deepSleep else if s.mainClocks then .run else .sleep

end Sys2Proof.Machine
end

