-- ==== Sys2Proof/Tests/Slice0.lean ====
section
/-!
SUPPORT. Tests: an ill-formed term for each check of WellFormed, worked examples of the manual, one step of many commands on small
states, and for each statement that has hypotheses a state and operands that meet them.
-/

namespace Sys2Proof.Tests

set_option Elab.async false

open Sys2Proof Sys2Proof.Machine

/-! ### WellFormed refuses -/

theorem test_wf_hostOperands :
    (Instr.fromMirrorResume 1 (.copy [0])).wf = false
    ∧ (Instr.periphEnableWrite none 0 [.sensorPage, .sensorPage]).wf = false
    ∧ (Instr.registerWrite 0 [] ⟨none, 0⟩).wf = false ∧ (Instr.registerWrite (2 ^ 20) [0] ⟨none, 0⟩).wf = false
    ∧ (Instr.registerWrite (2 ^ 20 - 1) [0] ⟨none, 0⟩).wf = true
    ∧ (Instr.bar2Read 0 0).wf = false ∧ (Instr.bar2Write 0 []).wf = false
    ∧ (Instr.pageInComplete 0 0 (some [0])).wf = false ∧ (Instr.pageInComplete 0 0 none).wf = true := by decide

theorem test_wf_tipping :
    (Instr.tippingTransfer .binder (.writeCore 0 .acc 1572864 [0])).wf = false
    ∧ (Instr.tippingTransfer .binder (.readCore 0 .quire 6291455 1)).wf = true
    ∧ (Instr.tippingTransfer .kettle (.readDram 0 0)).wf = false
    ∧ (Instr.tippingTransfer .kettle (.readDram 0 256)).wf = false ∧ (Instr.tippingTransfer .bar2 (.readDram 0 256)).wf = true
    ∧ (Instr.tippingTransfer .plough (.readDram (1280 * 2 ^ 30) 1)).wf = false := by decide

theorem test_wf_service :
    (Instr.scrubAccess 0 .endpaper 262144 .clean).wf = false ∧ (Instr.scrubAccess 0 .endpaper 262143 .clean).wf = true
    ∧ (Instr.guardTestDone 0 (some 0)).wf = false ∧ (Instr.guardTestDone 0 (some 6)).wf = false
    ∧ (Instr.guardTestDone 0 (some 5)).wf = true
    ∧ (Instr.sensorRead .die 80 none).wf = false ∧ (Instr.thresholdTrip .stack 20 ⟨0, 0⟩).wf = false
    ∧ (Instr.pldmMonitoring (.sensor .inputPower) 1).wf = false ∧ (Instr.pldmMonitoring .phasesOk 21).wf = true
    ∧ (Instr.marchBlockTest 2048 true).wf = false ∧ (Instr.borrowedBlockAccess (2 ^ 19)).wf = false
    ∧ (Instr.phaseShed 0 18).wf = false ∧ (Instr.dramPatrolScrub 0 1024 0 .clean).wf = false
    ∧ (Instr.passComponentTable [.mc, .mc]).wf = false
    ∧ (Instr.startupTrainingDone [3, 3]).wf = false ∧ (Instr.startupBistDone [7, 7]).wf = false
    ∧ (Instr.pcieLinkUp .a 2 6).wf = false ∧ (Instr.pcieLinkUp .a 16 0).wf = false ∧ (Instr.pcieLinkUp .a 16 7).wf = false
    ∧ (Instr.pcieLinkUp .a 16 6).wf = true
    ∧ (Instr.keyRevoke ⟨{ target := 2, serial := 0, nonce := 0, keyIndex := 0, pubX := 0, pubY := 0, sigR := 0, sigS := 0 }, [11]⟩).wf = false
    ∧ (Instr.svnCommit ⟨1, [15]⟩).wf = false ∧ (Instr.continuousRecord 0 0 0 [(2 ^ 14, [])]).wf = false
    ∧ (Instr.lcRequest { target := 2, serial := 0, nonce := 0, keyIndex := 0, pubX := 0, pubY := 0, sigR := 0, sigS := 0 } [4]).wf
      = false := by decide

theorem test_wf_survey :
    let m : Measures := { siteTransit := [], stackLat := [], linkLatency := [], linkCable := [], linkFec := [], refPpb := 0,
                          inputMv := 0, hostErrorAt := none }
    (Instr.surveyComplete m).wf = true ∧ (Instr.surveyComplete { m with siteTransit := [(3, 1), (3, 2)] }).wf = false
    ∧ (Instr.surveyComplete { m with stackLat := [(3, 1), (3, 2)] }).wf = false
    ∧ (Instr.surveyComplete { m with linkLatency := [(3, 1), (3, 2)] }).wf = false
    ∧ (Instr.surveyComplete { m with linkCable := [(3, 1), (3, 2)] }).wf = false
    ∧ (Instr.surveyComplete { m with linkFec := [(3, 1, 0), (3, 2, 0)] }).wf = false := by decide

/-- An advertisement that names a lane twice, and one with ID_SOURCE 3. -/
theorem test_wf_advert :
    let a : Advert := { node := 0, idSource := 0, serial := 0, ifLevel := 3, aligned := false, links := [], programs := [],
                        bindings := [], spareStore := 0, sequence := 0 }
    (Instr.advertisement 0 a).wf = true ∧ (Instr.advertisement 0 { a with idSource := 3 }).wf = false
    ∧ (Instr.advertisement 0 { a with links := [⟨1, 0, 0⟩, ⟨1, 1, 1⟩] }).wf = false := by decide

/-- Transfers of 2^24 flits and a record beyond 64 MiB, which is 2^14 pages. -/
theorem test_wf_long (f : Flit) (p : Nat × List Byte) :
    (Instr.schedTransfer 0 ⟨f, List.replicate (2 ^ 24) f⟩).wf = false
    ∧ (Instr.forward 0 f (List.replicate (2 ^ 24) f)).wf = false
    ∧ (Instr.dynTransfer 0 ⟨f, List.replicate (2 ^ 24) f⟩).wf = false
    ∧ (Instr.continuousRecord 0 0 0 (List.replicate (2 ^ 14 + 1) p)).wf = false := by
  simp only [Instr.wf, Transfer.wf, List.length_replicate]
  exact ⟨by decide, by decide, by decide, by rw [show decide (2 ^ 14 + 1 ≤ 2 ^ 14) = false by decide, Bool.false_and]⟩

/-- The table gives its rows no bits: no word spells a command. -/
theorem test_decodeTableWord (nbits w : Nat) : decodeTableWord nbits w = none := rfl

/-! ### Worked examples of the manual -/

/-- The T4 gathering of the Press chapter: leaf, look-ups of the four planes, and their sum -33 (R26, R27, R29). -/
theorem test_tableGathering :
    leafOfSums 5 (-3) 12 7 = [-7, 3, -13, -3, 17, 27, 11, 21]
    ∧ [2, 0, 3, 5].map (lookUp (leafOfSums 5 (-3) 12 7)) = [-27, -21, -17, 13]
    ∧ (List.range 4).map (cellIndex [12, 5, 8, 0] 0) = [2, 0, 3, 5] := by decide

/-- V = -6,039 · 2^-17 is written as 0xBD3C_B800 (R31, R32). -/
theorem test_passValueRounding : fB32.roundInt (-6039) (-17) = 0xBD3C_B800 ∧ scaleMant 0x3CB7 = 183 ∧ scaleExp 0x3CB7 = -13 := by
  decide +kernel

/-- 0xA5C3 against 0x3CC3 gives +8 (R35). -/
theorem test_binaryCell :
    segmentPop ((List.range 16).map fun i => if bitOf 0x3CC3 i then 1 else 0) ((List.range 16).map (bitOf 0xA5C3))
      (List.replicate 16 true) 0 = 8 := by
  decide +kernel

/-- The FB product of the Press chapter: nibbles 13 and 12 of 220 on the leaf of 5 (R36, R37, R40). -/
theorem test_fusedProduct :
    nibbleTimes (leafOfOdds 5) 13 = 65 ∧ nibbleTimes (leafOfOdds 5) 12 = 60 ∧ Fmt.bf16.value 0xC0DC = .fin true 220 (-5) := by
  decide +kernel

/-- The aligned telemetry pass-row of the Folder chapter (R51, R52); a 0.125 stands for its other elements. -/
theorem test_alignment :
    let f := fold ([0x42C0, 0xBF38, 0x3B40, 0x3800, 0x3E00].map Fmt.bf16.value)
    f.qa = -8 ∧ f.a = [24576, -184, 1, 0, 32] ∧ f.flush = 1 ∧ f.nonfinite = false := by decide +kernel

/-- The leaf of the aligned gathering (R55). -/
theorem test_grayLeaf :
    leafOfSums 24576 (-184) 1 0 = [-24393, 24759, -24761, 24391, -24391, 24761, -24759, 24393] := by decide

/-- The sparse gradient wire folio of the format chapter: its CRC-8 is 0x77, it passes its check, and its values (R80, R83, R85). -/
theorem test_wireFolio :
    let x := 0x7707_3A80 + 2 ^ 480 * 0x40 + 2 ^ 488 * 0xB8 + 2 ^ 496 * 0x34 + 2 ^ 504 * 0xC5
    crc8 x = 0x77 ∧ folioCheck x (· == 7) = none ∧ (folioCheck (x + 2 ^ 496) (· == 7)) = some 1
    ∧ [0, 56, 57, 58, 59].map (unpackWire x false) = [0, 0x3B00_0000, 0xBA80_0000, 0x3A40_0000, 0xBB50_0000] := by decide +kernel

/-- The saturated T2 block of the format chapter: header 0x52_3F00 and 240 clipped values (R89, R92, R93). -/
theorem test_saturatedBlock :
    let o := writeFolio 2 false (.explicit 0x3F00)
      ([0x4110_0000, 0xC060_0000, 0x4010_0000, 0xC010_0000] ++ List.replicate 236 0x4010_0000) (List.replicate 240 none)
    o.header % 2 ^ 24 = 0x52_3F00 ∧ o.sat = 240 ∧ o.flush = 0 ∧ o.payload % 256 = 0x33 := by decide +kernel

/-- The two codes of the Mull-B block: value 0 and the escaped value 2,071 (R97 to R99). -/
theorem test_mullValues :
    let x := 0x0000_0101 + 2 ^ 32 * 0x7C7B_7A79_7877_00 + 2 ^ 96 * 0x7_F817 + 2 ^ 1024 * 0x5C0 + 2 ^ (1024 + 22781) * 0x3A5
    mullValue .b x 0 = 0xBCC0 ∧ mullValue .b x 2071 = 0x3FA5 := by decide +kernel

/-- LSE of -1.0 and -1.53125 lies within 10^-5 of -0.24123 (R206), and the same bits result the other way round. -/
theorem test_lse :
    let x := lse 0xBF80_0000 0xBFC4_0000
    fB32.key 0xBE77_0600 ≤ fB32.key x ∧ fB32.key x ≤ fB32.key 0xBE77_0400 ∧ lse 0xBFC4_0000 0xBF80_0000 = x := by decide +kernel

/-- Tick 40,000 of frame 1,234,567 (R250). -/
theorem test_counter :
    ({ Cadence.reset with frame := 1234567, tick := 40000 } : Cadence).counter = 0x0000_12D6_8700_9C40 := by decide

/-- Issued cycle 23,479 in the first tick's count, by ACLK_SLOTS: its tick and slot, and the slots elapsed through it (R364). -/
theorem test_slots :
    [8, 6, 4].map (fun n => (cyclePlace n 23479, slotsThrough n 23479))
      = [((2934, 7), 23480), ((3913, 1), 31306), ((5869, 6), 46959)] := by decide +kernel

/-- SEQUENCE counts entries from 0; an entry made while the MC does not run is held (R335, R339). -/
theorem test_logSequence (e : LogEntry) :
    (({ Mc.reset with up := true } : Mc).append e).logNext = 1 ∧ ((Mc.reset.append e).held = [e] ∧ (Mc.reset.append e).logNext = 0) := ⟨rfl, rfl, rfl⟩

/-- CRC-32 (R101): the check value of the ASCII digits, and the three figures that the factory profiles carry (R380). -/
theorem test_crc32 : crc32 [0x31, 0x32, 0x33, 0x34, 0x35, 0x36, 0x37, 0x38, 0x39] = 0xCBF4_3926 := by decide +kernel
theorem test_factoryCrc :
    ([8, 6, 4].map fun n => crc32 (leBytes 252 (factoryProfile n).toNat)) = [8, 6, 4].map factoryCrc := by decide +kernel

/-! ### States of the witnesses -/

/-- The main domain runs, the Binder and the MC are up, port A's link is up. -/
def powered : State :=
  { State.reset with
    upsets := [], sramUpsets := []
    pwr := { Power.reset with standby := true, main := true, present := true, inputOk := true, step := 10, clkOk := true }
    clk := { Clocks.reset with refPresent := true, qualified := true, armed := true }
    mc := { Mc.reset with up := true, wipeRetries := [] }
    host := { HostIf.reset with usable := true, binderUp := true, portA := { PortState.reset with up := true } } }

/-- A program of one core. -/
def img : Image :=
  { addr := 0x100000, len := 0x2000, direct := false, cores := 1, seed := 3, coldTicks := 1000, warmTicks := 1000, coreTable := 256,
    recipeOff := 0, slotOff := 0, regionOff := 0, steerOff := 0, crc := 0,
    bounds := { portSplit := 0, memReserve := false, rank := 0, devices := 1, spineBound := 0, dramBound := 0, programId := 5,
                peers := [] },
    pinnedPages := 1, collBase := 0x200000, limits := (64, 128, 8), usable := 32768 }
def dimg : Image := { img with direct := true }

/-- The program runs its steps. Its core table gives core 0 two cold words at 0x1000, the same as its elastic section, and one descriptor,
template and stream. -/
def running : State :=
  (({ powered with prog := { Program.reset with active := some img, phase := .steps } }.dramWrite 0x100108
      (leBytes 8 (0x1000 + 2 * 2 ^ 40))).dramWrite 0x100118 (leBytes 8 (0x1000 + 2 * 2 ^ 40))).dramWrite 0x100120
      (leBytes 24 (2 ^ 40 + 2 ^ 104 + 2 ^ 168))
def direct : State := running.modProg fun p => { p with active := some dimg }

/-- Core 0 with a template, a descriptor and a stream-table entry. -/
def tabled (t d e : Nat) (k : Core) : Core :=
  { k with endp := Mem.write zeroByte k.endp 0x3FF00 (leBytes 256 (e + 2 ^ 512 * d + 2 ^ 1536 * t)) }

/-- The Needle of core 0 stands at a word of its cold section, or of its elastic section. -/
def needleAt (w : Nat) (s : State := running) (f : Core → Core := id) : State :=
  (s.dramWrite 0x101000 (leBytes 16 w)).modCore 0 fun k =>
    f { k with needle := { k.needle with sect := .cold }, awl := { k.awl with pinned := ReadAhead.start .cold } }
def elasticAt (w : Nat) (s : State := running) (f : Core → Core := id) : State :=
  (s.dramWrite 0x101000 (leBytes 16 w)).modCore 0 fun k =>
    f { k with needle := { k.needle with sect := .elastic, elasticOn := true, retired := true },
               awl := { k.awl with elastic := ReadAhead.start .elastic } }

/-- The Plough of core 0 stands at an instruction, the third of its kernel, with its line in the fetch buffer. -/
def ploughAt (r : Nat) (f : Core → Core := id) (s : State := running) : State :=
  s.modCore 0 fun k =>
    f { k with endp := Mem.write zeroByte k.endp 32 (leBytes 16 r), plough := { k.plough with running := true, ip := 2, line := some (0, BitVec.ofNat 2048 (2 ^ 256 * r)) } }

def h0 : Handle := 0x100000
def h1 : Handle := 0x100001

/-- A running command of mailbox 0. -/
def entry (op body : Nat) (taken : Nat := 0) : HandleEntry :=
  { gen := 1, phase := .running, mailbox := 0, opcode := BitVec.ofNat 8 op, fence := false, quiet := false, cookie := 7, seq := 1,
    body := BitVec.ofNat 1920 body, takenAt := taken, begun := false, exclusiveDone := false, fixedAt := 0, status := 0, detail := 0,
    result := 0, cadence := 0, entry := 0 }
def asked (op body : Nat) (s : State := powered) : State := { s with host := { s.host with handles := [entry op body] } }

/-- The outcome is a next state of which `p` holds. -/
def goes (o : Host.Outcome State Fault Refusal) (p : State → Bool) : Bool :=
  match o with
  | .next t => p t
  | _ => false

theorem powered_serves :
    powered.served = true ∧ powered.binderRuns = true ∧ powered.sideband = true ∧ powered.marksCount = true
    ∧ powered.updates = true ∧ powered.mcRuns = true := by decide +kernel

/-! ### Witnesses: the machine as a whole -/

theorem witness_StepRunsFront :
    powered.pending = [] ∧ powered.marksCount = true ∧ powered.cad.valid = false ∧ powered.cad.markPending = false
    ∧ goes (step { powered with cad := { Cadence.reset with markPending := true } }) (fun t => t.cad.rxTick == 1 && t.now == 1) = true
    ∧ goes (step { powered with cad := { Cadence.reset with valid := true, rxTick := 15999999 } }) (fun t =>
        t.cad.rxTick == 16000000 && t.cad.tick == 1 && t.cad.frame == 0) = true
    ∧ goes (step { powered with cad := { Cadence.reset with valid := true, rxTick := 16000000 } }) (fun t =>
        t.cad.rxTick == 1 && t.cad.markPending) = true
    ∧ State.reset.marksCount = false ∧ goes (step { State.reset with upsets := [], sramUpsets := [] }) (fun t => t.now == 1) = true
    ∧ goes (step { State.reset with pending := [.standbyOn] }) (fun t => t.pwr.standby && t.pending == []) = true := by decide +kernel

theorem core_reset_memOk (c : CoreId) : (Core.reset c).memOk = true := by
  simp only [Core.reset, Core.memOk, Awl.reset, Stream.reset, Fin.getElem_fin, Vector.getElem_replicate]
  decide

/-- The memories are canonical at reset, and the tick keeps them so. -/
theorem witness_StepKeepsMemories : State.reset.memOk = true ∧ ∃ t, step State.reset = .next t := by
  refine ⟨?_, _, rfl⟩
  have hc : ∀ c : CoreId, State.reset.core c = Core.reset c := fun c => by simp [State.core, State.reset]
  have hm : State.reset.host.memOk = true := by decide +kernel
  have hs : ∀ i : SiteId, State.reset.site i = Site.reset i := fun i => by simp [State.site, State.reset]
  have hi : ∀ i : SiteId, (Site.reset i).memOk = true := fun i => by simp [Site.reset, Site.memOk, Memory.wf, Mem.sortedFrom]
  simp only [State.memOk, hm, hc, hs, hi, core_reset_memOk, Bool.and_true]
  simp [State.reset, Mc.reset, Memory.wf, Mem.sortedFrom]

theorem witness_StepKeepsFuses :
    State.fusesKept 5 (powered.modMc fun m => { m with fuses := 7, fuseArray := 7 }) = true
    ∧ ∃ t, step (powered.modMc fun m => { m with fuses := 7, fuseArray := 7 }) = .next t := ⟨by decide +kernel, _, rfl⟩

theorem witness_ExecKeepsQueue : ∃ t, exec .standbyOn { powered with pending := [.mainOn] } = .next t := ⟨_, rfl⟩

/-- VADD V1 := V2 + V3 under M0. -/
theorem witness_PloughIsolation :
    (Instr.vadd 0).ploughOp = some (0, 0x20) ∧ ((ploughAt 0xC4120).core 0).ecc = []
    ∧ goes (exec (.vadd 0) (ploughAt 0xC4120)) (fun t => (t.core 0).plough.ip == 3) = true := by decide +kernel

/-- Three candidates in order: a larger share first, then the smaller layer (R125). -/
theorem witness_LayerOrder (st : Steer) (v : Advice) :
    let x := fun (l b n : Nat) =>
      ({ layer := l, entry := 0, st := st, advice := v, fig := { n := n, b := b, u := 0 }, wasLimit := false } : LayerAt)
    0 < (x 7 2 4).fig.n ∧ (x 7 2 4).before (x 3 1 2) = false ∧ (x 3 1 2).before (x 7 2 4) = true ∧ (x 7 2 4).before (x 0 1 4) = true
    ∧ (x 3 1 2).layer ≠ (x 7 2 4).layer := by
  simp [LayerAt.before]

theorem witness_NibbleProduct : 1 ≤ 15 ∧ (15 : Nat) = 15 * 2 ^ 0 ∧ 15 % 2 = 1 ∧ (12 : Nat) = 3 * 2 ^ 2 ∧ 1 % 2 = 1 ∧ (8 : Nat) = 1 * 2 ^ 3 := by
  decide

theorem witness_TableLookUp : 15 < 16 ∧ lookUp (leafOfSums 1 2 4 8) 15 = 15 ∧ lookUp (leafOfSums 1 2 4 8) 0 = -15 := by decide

/-! ### Witnesses: the Press and the direct words -/

def someWords : Resident := { mode := .t4, rfmt := .e4m3, kValid := 4, cols := [{ scales := [0x3F80], vals := [12, 5, 8, 0] }] }
def job0 : PressJob :=
  { template := 0, total := 2, nextLoad := 0, nextPass := 0, seen := 0, taken := true, serial := 0, layer := 0xFFFF, elastic := false }
def pass0 : ActivePass :=
  { sel := false, mode := .t4, sfmt := .e4m3, base := 0, pitch := 64, kValid := 4, rows := 1, next := 0, accumulate := false, accRow := 0,
    layer := 0xFFFF, roleS := 0, roleR := 0, lastOfRun := true, serial := 0 }
def beat0 : Beat :=
  { valid := true, passSel := false, mode := .t4, plane := 3, lastPlane := true, qa := 0, nonfinite := false, accumulate := false, accRow := 1,
    edges := [withParity (leafOfSums 5 (-3) 12 7)], cycle := 0, layer := 0xFFFF, lastOfPass := true, lastOfRun := false, serial := 0 }

/-- Words of a direct program (R157): DT_LOAD of one F8 column of one element; DT_PASS of one row; DT_PLOUGH; DT_MOVE both ways. -/
def dtLoadWord : Nat := 0x60 + 2 ^ 16 * 9 + 2 ^ 32 * 1 + 2 ^ 40 * 1 + 2 ^ 116 * 1
def dtPassWord : Nat := 0x61 + 2 ^ 16 * 1 + 2 ^ 56 * 1 + 2 ^ 72 * 0xFFFF
def dtPloughWord : Nat := 0x62 + 2 ^ 32 * 23
def dtMoveWord (toDram : Bool) : Nat := 0x63 + (if toDram then 256 else 0) + 2 ^ 16 * 1 + 2 ^ 32 * 6291392 + 2 ^ 64 * 0x200000

def loadedPress (k : Core) : Core := { k with press := { k.press with loaded := true, active := someWords } }
def passing (k : Core) : Core := { loadedPress k with press := { (loadedPress k).press with pass := some pass0 } }
def bothSets (k : Core) : Core := { loadedPress k with press := { (loadedPress k).press with set0 := some someWords, set1 := some someWords } }
def ploughing (k : Core) : Core :=
  { k with plough := { k.plough with
      queue := [{ template := 0xFF, next := 0, total := 1, serial := 0, layer := 0xFFFF, elastic := false }] } }
def haltedMove (toDram : Bool) : State := needleAt (dtMoveWord toDram) direct fun k => k.modStrm 0 fun x =>
  { x with halted := some { core := 0, stream := 0, reason := 0x20, block := 0, byteOffset := 0, addr := 0, step := 0 } }

theorem witness_DirectWords :
    (needleAt dtLoadWord direct).atWord dimg 0 0 dtLoadWord
    ∧ (needleAt dtPassWord direct loadedPress).atWord dimg 0 0 dtPassWord
    ∧ (needleAt dtPassWord direct passing).atWord dimg 0 0 dtPassWord
    ∧ (needleAt dtPassWord direct bothSets).atWord dimg 0 0 dtPassWord
    ∧ (needleAt dtPloughWord direct).atWord dimg 0 0 dtPloughWord ∧ (needleAt dtPloughWord direct ploughing).atWord dimg 0 0 dtPloughWord
    ∧ (∀ b, (needleAt (dtMoveWord b) direct).atWord dimg 0 0 (dtMoveWord b)) ∧ (haltedMove false).atWord dimg 0 0 (dtMoveWord false)
    ∧ wOp dtLoadWord = 0x60 ∧ ((((needleAt dtLoadWord direct).awlReads 0).core 0).strm 0).halted = none
    ∧ (((needleAt dtPassWord direct loadedPress).awlReads 0).core 0).press.freeSet = some false
    ∧ (((needleAt dtPassWord direct loadedPress).awlReads 0).core 0).press.pass = none
    ∧ (((needleAt dtPassWord direct passing).awlReads 0).core 0).press.pass = some pass0
    ∧ (((needleAt dtPassWord direct bothSets).awlReads 0).core 0).press.freeSet = none
    ∧ (((needleAt dtPloughWord direct).awlReads 0).core 0).plough.queue = []
    ∧ (((needleAt dtPloughWord direct ploughing).awlReads 0).core 0).plough.queue ≠ []
    ∧ bitOf (dtMoveWord true) 8 = true ∧ (((needleAt (dtMoveWord true) direct).awlReads 0).core 0).marksIn .quire 6291392 64 = []
    ∧ (((haltedMove false).awlReads 0).core 0 |>.strm 0).halted ≠ none
    ∧ (((needleAt (dtMoveWord false) direct).awlReads 0).readDirect 0x200000 0 64).isOk = true
    ∧ (((needleAt (dtMoveWord false) { direct with poison := [0x2000] }).awlReads 0).readDirect 0x200000 0 64).isOk = false := by
  and_intros <;> first | decide +kernel | (unfold State.atWord; decide +kernel)

/-- DT_LOAD leaves the column in the shadow words; DT_PASS exchanges them with the active ones and begins a pass; a poisoned unit halts
stream 0. -/
theorem test_directWords :
    goes (exec (.dtLoad 0) (needleAt dtLoadWord direct)) (fun t =>
      (t.core 0).press.loaded && (t.core 0).press.ready && (t.core 0).press.shadow.cols.length == 1 && (t.core 0).needle.pos == 1) = true
    ∧ goes (exec (.dtPass 0) (needleAt dtPassWord direct fun k =>
        { k with press := { k.press with loaded := true, ready := true, shadow := someWords } })) (fun t =>
        (t.core 0).press.pass.isSome && (t.core 0).press.active == someWords && (t.core 0).press.shadow == Resident.reset) = true
    ∧ goes (exec (.dtPlough 0) (needleAt dtPloughWord direct)) (fun t =>
        (t.core 0).plough.running && ((t.core 0).plough.preg 2 == 65536 * 23) && (t.core 0).plough.direct) = true
    ∧ goes (exec (.dtMove 0) (needleAt (dtMoveWord false) { direct with poison := [0x2000] })) (fun t =>
        (((t.core 0).strm 0).halted.elim 0 fun h => h.reason.toNat) == 0x20) = true := by decide +kernel

/-- A fused template: F8, one column of one element, one row, stream 0. -/
def f8Template : Nat :=
  2 ^ 8 * 9 + 2 ^ 24 * 0xFFFF + 2 ^ 64 * 1 + 2 ^ 88 * 1 + 2 ^ 112 * 1 + 2 ^ 136 * 1 + 2 ^ 176 * 1 + 2 ^ 256 * 64
/-- Stream 0: a shadow stream whose list of one entry stands at 0x300000 and names 64 bytes at 0x200000. -/
def shadowEntry : Nat := 2 ^ 6 * 1 + 2 ^ 32 * 1 + 2 ^ 64 * 0x300000
def listed (s : State := running) : State := s.dramWrite 0x300000 (leBytes 16 (0x200000 + 2 ^ 64 * 1))
def pressAt (f : Press → Press) (s : State := listed) (t : Nat := f8Template) (e : Nat := shadowEntry) : State :=
  s.modCore 0 fun k => tabled t 0 e { k with press := f { k.press with queue := [job0] } }
/-- The reads of the load have come: 64 zeros, or only 63 of them. -/
def cameIn (n : Nat := 64) (s : State := pressAt id) : State :=
  s.modCore 0 fun k => k.modStrm 0 fun x => { x with buffer := (List.range n).map fun o => (o, 0) }
def wholeShadow (p : Press) : Press := { p with queue := [{ job0 with nextLoad := 1 }], ready := true, shadow := someWords }

theorem witness_PressPasses :
    (let t := (cameIn).awlReads 0
     let p := t.passPlan img 0 0 0
     (cameIn).prog.active = some img ∧ (cameIn).issuing = true ∧ t.openLoad img 0 = some (job0, p)
     ∧ p.resStream = 0 ∧ ((t.core 0).strm 0).halted = none ∧ ((t.core 0).strm 0).walking = none
     ∧ t.loadPieces img 0 0 = .ok [{ block := 0, offset := 0, addr := 0x200000, len := 64 }]
     ∧ ((t.core 0).strm 0).has { block := 0, offset := 0, addr := 0x200000, len := 64 } = true
     ∧ (((cameIn 63).awlReads 0).core 0 |>.strm 0).has { block := 0, offset := 0, addr := 0x200000, len := 64 } = false
     ∧ (((pressAt id running).awlReads 0).loadPieces img 0 0).isOk = false
     ∧ (running.awlReads 0).openLoad img 0 = none)
    ∧ (let a := pressAt wholeShadow
       toBegin (a.core 0).press.queue = some { job0 with nextLoad := 1 } ∧ (a.core 0).press.ready = true
       ∧ (a.core 0).press.freeSet = some false ∧ (a.core 0).press.pass = none ∧ img.direct = false ∧ (a.passPlan img 0 0 0).rows = 1
       ∧ ((pressAt wholeShadow listed (f8Template - 2 ^ 112)).passPlan img 0 0 0).rows = 0 ∧ job0.nextPass + 1 ≠ job0.total)
    ∧ (running.core 0).press.ready = false := by decide +kernel

/-- A table folio of zeros fails its CRC in T4 (R81); F8 zeros load; the exchange swaps the words (R22). -/
theorem test_pressPasses :
    goes (exec (.shadowLoadComplete 0) (cameIn)) (fun t =>
      (t.core 0).press.ready && (t.core 0).press.shadow.cols.length == 1 && ((t.core 0).press.queue.map (·.nextLoad)) == [1]) = true
    ∧ goes (exec (.shadowLoadComplete 0) (cameIn 63)) (fun t => !(t.core 0).press.ready) = true
    ∧ goes (exec (.shadowLoadComplete 0) (pressAt id running)) (fun t => ((t.core 0).strm 0).halted.isSome) = true
    ∧ goes (exec (.passExchange 0) (pressAt wholeShadow)) (fun t =>
        (t.core 0).press.pass.isSome && !(t.core 0).press.ready && (t.core 0).press.active == someWords
          && (t.core 0).press.shadow == Resident.reset) = true := by decide +kernel

theorem witness_PressWrites :
    let s := pressAt fun p => { p with pass := some pass0 }
    let b := pressAt fun p => { p with beats := [beat0], set0 := some someWords }
    s.prog.active = some img ∧ s.issuing = true ∧ (s.core 0).press.pass = some pass0
    ∧ (s.core 0).marksIn .quire 0 (pass0.mode.rowBytes pass0.sfmt) = []
    ∧ (b.core 0).press.beats = [beat0] ∧ (b.core 0).press.getSet false = some someWords ∧ (b.core 0).ecc = []
    ∧ beat0.valid = true ∧ beat0.lastPlane = true ∧ ((pressAt id).core 0).press.beats = [] ∧ (running.core 0).press.pass = none
    ∧ (beat0.edges.all RowEdge.parityOk) = true := by decide +kernel

/-- The gathering of the Press chapter in row 0: -33 · 1.0 · 2^7 from scale 1.0 is written to row 1 (R29 to R32); a parity error found by
a cell is PRESS_RESIDUE, and the word is written still (R48). -/
theorem test_beatWrite :
    goes (exec (.beatWrite 0 none) (pressAt fun p => { p with beats := [beat0], set0 := some someWords })) (fun t =>
      (t.core 0).readNat .acc 512 4 == fB32.roundInt (-33) 0 && (t.core 0).press.set0.isNone && (t.core 0).press.beats.isEmpty) = true
    ∧ goes (exec (.beatWrite 0 none) (pressAt fun p =>
        { p with beats := [{ beat0 with edges := [.leaf (leafOfSums 5 (-3) 12 7) (List.replicate 8 true)] }], set0 := some someWords }))
        (fun t => (t.core 0).readNat .acc 512 4 == fB32.roundInt (-33) 0 && (t.prog.faults.map (·.cause)) == [1]) = true
    ∧ goes (exec (.passRowIssue 0 5) (pressAt fun p => { p with pass := some pass0 })) (fun t =>
      (t.core 0).press.beats.length == 1 && (t.core 0).press.pass.isNone && (t.core 0).press.held.length == 120
        && (t.core 0).press.incoming == (t.core 0).press.held) = true := by decide +kernel

/-- The valid mask of X1 beside the bits (R54), and the even parity of the entries 7 and -13 (R57). -/
theorem test_rowEdges :
    rowOfBits [true, false, true] 18 0 = .bits 5 0xFFFF ∧ rowOfBits [] 18 1 = .bits 0 3 ∧ entryParity 7 = true
    ∧ entryParity (-13) = (parityOf 20 (2 ^ 20 - 13)) := by decide +kernel

/-! ### Witnesses: the Needle -/

def signal0 : Signal := { target := 0, id := 9, incr := 1, scope := 0, awaits := [], elastic := false }
def fullSignals (k : Core) : Core := { k with signals := List.replicate 64 signal0 }
def snapped : State := running.modProg fun p => { p with snaps := [⟨62, false⟩, ⟨63, false⟩] }
def released0 (k : Core) : Core := { k with needle := { k.needle with released := true } }

/-- A KETTLE_WAIT that the Awl passed while its counter was at COUNT; the counter has wrapped since (R151, R164). -/
def passedWait (k : Core) : Core :=
  { k with awl := { k.awl with pinned := ⟨.cold, 1, [(0, 0x21 + 2 ^ 16 * 3 + 2 ^ 32)], false⟩ } }

theorem witness_NeedleWords :
    (∀ w ∈ [0x00, 0x20 + 2 ^ 16 * 9 + 2 ^ 24 * 0xFF + 2 ^ 32, 0x21 + 2 ^ 16 * 3, 0x130, 0x30,
        0x30 + 2 ^ 16, 0x50 + 2 ^ 8 + 2 ^ 16 * 63], (needleAt w).atWord img 0 0 w)
    ∧ (needleAt 0 running passedWait).atWord img 0 0 (0x21 + 2 ^ 16 * 3 + 2 ^ 32)
    ∧ (((needleAt 0 running passedWait).awlReads 0).core 0).kettle.getD 3 0 = 0
    ∧ (needleAt 0x20 running fullSignals).atWord img 0 0 0x20 ∧ (needleAt 0x130 running released0).atWord img 0 0 0x130
    ∧ (needleAt (0x50 + 2 ^ 16 * 63) snapped).atWord img 0 0 (0x50 + 2 ^ 16 * 63)
    ∧ (((needleAt 0x20).awlReads 0).core 0).signals.length < 64
    ∧ 64 ≤ (((needleAt 0x20 running fullSignals).awlReads 0).core 0).signals.length
    ∧ (((needleAt 0x21).awlReads 0).core 0).kettle.getD 3 0 = 0
    ∧ (((needleAt 0x130).awlReads 0).core 0).needle.released = false
    ∧ (((needleAt 0x130 running released0).awlReads 0).core 0).needle.released = true
    ∧ (((needleAt 0x30).awlReads 0).core 0).needle.releaseNow + 0 ≤ ((needleAt 0x30).awlReads 0).now
    ∧ ((needleAt 0x30).awlReads 0).now < (((needleAt 0x30).awlReads 0).core 0).needle.releaseNow + 1
    ∧ ((needleAt 0x50).awlReads 0).prog.snaps = []
    ∧ ((needleAt (0x50 + 2 ^ 16 * 63) snapped).awlReads 0).prog.snaps = [⟨62, false⟩] ++ [⟨63, false⟩] ++ [] := by
  and_intros <;> first | decide +kernel | (unfold State.atWord; decide +kernel)

theorem test_needleWords :
    goes (exec (.kettleSignal 0) (needleAt (0x20 + 2 ^ 16 * 9 + 2 ^ 24 * 0xFF + 2 ^ 32))) (fun t =>
      (t.core 0).signals == [signal0] && (t.core 0).needle.pos == 1) = true
    ∧ goes (exec (.kettleSignal 0) (needleAt (0x20 + 2 ^ 32) running fullSignals)) (fun t => (t.core 0).needle.pos == 0) = true
    ∧ goes (exec (.kettleWait 0) (needleAt (0x21 + 2 ^ 16 * 3 + 2 ^ 32 * 1))) (fun t => (t.core 0).needle.pos == 0) = true
    ∧ goes (exec (.kettleWait 0) (needleAt 0 running passedWait)) (fun t => (t.core 0).needle.pos == 0) = true
    ∧ goes (exec (.snapshot 0) (needleAt (0x50 + 2 ^ 8 + 2 ^ 16 * 63) snapped)) (fun t => t.prog.snaps == [⟨62, false⟩, ⟨63, true⟩])
      = true := by decide +kernel

def lastElastic : State := elasticAt 0x02 (running.modProg fun p => { p with elasticHandle := some 5, elasticFault := some 3 })

theorem witness_NeedleSections :
    (∀ w ∈ [0x01, 0x101, 0x02], (needleAt w).atWord img 0 0 w) ∧ (needleAt 0x02 direct).atWord dimg 0 0 0x02
    ∧ (needleAt 0x01 running fullSignals).atWord img 0 0 0x01 ∧ (needleAt 0x02 running fullSignals).atWord img 0 0 0x02
    ∧ lastElastic.atWord img 0 0 0x02
    ∧ (elasticAt 0x02 running fun k => { k with signals := [{ signal0 with elastic := true }] }).atWord img 0 0 0x02
    ∧ ((needleAt 0x01).awlReads 0).drained img 0 false = true
    ∧ ((needleAt 0x01 running fullSignals).awlReads 0).drained img 0 false = false
    ∧ (((needleAt 0x02).awlReads 0).core 0).needle.sect = .cold ∧ ((lastElastic.awlReads 0).core 0).needle.sect = .elastic
    ∧ (lastElastic.awlReads 0).drained img 0 true = true
    ∧ ((elasticAt 0x02 running fun k => { k with signals := [{ signal0 with elastic := true }] }).awlReads 0).drained img 0 true = false
    ∧ (lastElastic.awlReads 0).prog.elasticHandle = some 5 ∧ (lastElastic.awlReads 0).prog.elasticFault = some 3
    ∧ ((needleAt 0x02 direct).awlReads 0).drained dimg 0 false = true ∧ dimg.direct = true ∧ img.direct = false := by
  and_intros <;> first | decide +kernel | (unfold State.atWord; decide +kernel)

theorem test_needleSections :
    goes (exec (.stepEnd 0) (needleAt 0x101)) (fun t => (t.core 0).needle.retired && (t.core 0).needle.sleepReq
      && (t.core 0).needle.sect == .done) = true
    ∧ goes (exec (.sectionEnd 0) (needleAt 0x02 direct)) (fun t => t.prog.active.isNone) = true
    ∧ goes (exec (.sectionEnd 0) lastElastic) (fun t => t.prog.elasticHandle.isNone && t.prog.elasticFault.isNone
        && (t.core 0).needle.sect == .done && !(t.core 0).needle.elasticOn) = true := by decide +kernel

/-- The word RUN of template 0 with a Press or a Plough template, and the first words of full queues. -/
def pressRun (f : Core → Core := id) : State := needleAt 0x10 running fun k => f (tabled f8Template 0 shadowEntry k)
def ploughRun (f : Core → Core := id) : State := needleAt 0x10 running fun k => f (tabled (f8Template + 1) 0 shadowEntry k)
def pjob0 : PloughJob := { template := 0, next := 0, total := 1, serial := 0, layer := 0, elastic := false }
def fourRuns (k : Core) : Core := { k with press := { k.press with queue := List.replicate 4 { job0 with serial := 7 } } }
def fourJobs (k : Core) : Core := { k with plough := { k.plough with queue := List.replicate 4 pjob0 } }
def fourStreams (k : Core) : Core :=
  tabled 0 0 0 (k.modStrm 0 fun x => { x with arms := List.replicate 4 ⟨0, 1, 0, true, 7, false⟩ })
def fourSends (k : Core) : Core := { k with fabricQ := List.replicate 4 (0, false, 0, 0, false, 0) }
def slotOpened : State := (needleAt 0x40).modFab fun f => { f with openSlots := [0] }

theorem witness_NeedleIssue :
    (let t := (pressRun).awlReads 0
     (pressRun).atWord img 0 0 0x10 ∧ tKind (t.template img 0 (t.runTemplate img 0 .cold 0)) = 0
     ∧ ((t.core 0).press.queue.filter (·.taken)).length < 4 ∧ (t.core 0).needle.sect = .cold)
    ∧ ((pressRun fourRuns).atWord img 0 0 0x10 ∧ 4 ≤ ((((pressRun fourRuns).awlReads 0).core 0).press.queue.filter (·.taken)).length)
    ∧ (let t := (ploughRun).awlReads 0
       let r := (t.touchTable img 0 0 64 0).touchTable img 0 1 128 0
       (ploughRun).atWord img 0 0 0x10 ∧ t.runTemplate img 0 .cold 0 = 0 ∧ tKind (t.template img 0 0) ≠ 0 ∧ tDesc (t.template img 0 0) = 0
       ∧ (r.core 0).plough.queue = [] ∧ (r.core 0).plough.running = false ∧ r.prog.active = some img
       ∧ r.template img 0 0 = t.template img 0 0 ∧ r.descriptor img 0 0 = t.descriptor img 0 0)
    ∧ ((ploughRun fourJobs).atWord img 0 0 0x10 ∧ 4 ≤ (((ploughRun fourJobs).awlReads 0).core 0).plough.queue.length)
    ∧ ((needleAt (0x11 + 2 ^ 64)).atWord img 0 0 (0x11 + 2 ^ 64)
      ∧ ((needleAt (0x11 + 2 ^ 64)).awlReads 0).awlQueue img 0 false < 4)
    ∧ ((needleAt (0x11 + 2 ^ 64) running fourStreams).atWord img 0 0 (0x11 + 2 ^ 64)
      ∧ 4 ≤ ((needleAt (0x11 + 2 ^ 64) running fourStreams).awlReads 0).awlQueue img 0 false
      ∧ sShadow (((needleAt (0x11 + 2 ^ 64) running fourStreams).awlReads 0).streamEntry img 0 0) = false)
    ∧ (needleAt 0x40).atWord img 0 0 0x40 ∧ (needleAt 0x41).atWord img 0 0 0x41 ∧ slotOpened.atWord img 0 0 0x40
    ∧ (needleAt 0x40 running fourSends).atWord img 0 0 0x40
    ∧ 4 ≤ (((needleAt 0x40 running fourSends).awlReads 0).core 0).fabricQ.length
    ∧ (((needleAt 0x40).awlReads 0).fab.openSlots.contains 0 = false ∧ (needleAt 0x40).cad.hold = false)
    ∧ (slotOpened.awlReads 0).fab.openSlots.contains 0 = true ∧ slotOpened.fab.untimed = false ∧ slotOpened.fab.cover = false := by
  and_intros <;> decide +kernel

theorem test_needleIssue :
    goes (exec (.run 0) (pressRun)) (fun t =>
      ((t.core 0).press.queue.map fun j => (j.taken, j.serial)) == [(true, 0)] && (t.core 0).needle.pos == 1) = true
    ∧ goes (exec (.run 0) (pressRun fourRuns)) (fun t => (t.core 0).needle.pos == 0) = true
    ∧ goes (exec (.stream 0) (needleAt (0x11 + 2 ^ 64))) (fun t => ((t.core 0).strm 0).arms == [⟨0, 1, 0, true, 0, false⟩]) = true
    ∧ goes (exec (.stream 0) (needleAt (0x11 + 2 ^ 64) running fourStreams)) (fun t =>
        (t.core 0).needle.pos == 0 && ((t.core 0).strm 0).arms.length == 5) = true
    ∧ goes (exec (.fabricSend 0) slotOpened) (fun t => t.prog.faults.length == 1 && (t.core 0).fabricQ.isEmpty) = true := by
  decide +kernel

theorem witness_NeedleTurn :
    (Instr.stepEnd 0).needleOp = some (0, 0x01) ∧ powered.prog.active = none ∧ running.prog.active = some img
    ∧ (running.core 0).needle.sect.runs = false
    ∧ (((needleAt 0x02).awlReads 0).core 0).headWord = some (0, 0x02) ∧ wOp 0x02 ≠ 0x01 ∧ 0 < ((needleAt 0x02).part img 0 1).2
    ∧ (((needleAt 0x02 running fun k => { k with needle := { k.needle with pos := 2 }, awl := { k.awl with pinned := ⟨.cold, 2, [], false⟩ } }).awlReads
        0).core 0).headWord = none
    ∧ dimg.direct = true ∧ ((needleAt 0x02 direct).awlReads 0).directOk 0 0x02 = true
    ∧ ((needleAt 0x01 direct).awlReads 0).directOk 0 0x01 = false ∧ ¬ 2 < ((needleAt 0x02 direct).part dimg 0 1).2 := by decide +kernel

/-- A STEP_END in a direct program is refused: DECODE_FAULT stops the program (R157). -/
theorem test_needleTurn :
    goes (exec (.stepEnd 0) (needleAt 0x02)) (fun t => (t.core 0).needle.sect == .cold) = true
    ∧ goes (exec (.stepEnd 0) (needleAt 0x01 direct)) (fun t => t.prog.active.isNone || (t.core 0).needle.stopped) = true := by
  decide +kernel

/-- The first signal waits for work 3, the second for nothing: the second is applied first (R151). -/
theorem witness_KettleSignals :
    let s := running.modCore 0 fun k =>
      { k with signals := [{ signal0 with id := 8, awaits := [3] }, signal0], doneSignals := [signal0],
               press := { k.press with queue := [{ job0 with serial := 3 }] } }
    s.prog.active.isSome = true ∧ (s.core 0).doneSignals = [signal0]
    ∧ (3 ∈ (s.core 0).workIn 0 true) ∧ signal0.awaits = []
    ∧ goes (exec (.kettleSignalApply 0 false) s) (fun t => (t.core 0).kettle.getD 9 0 == 1 && ((t.core 0).signals.map (·.id)) == [8]) = true
    ∧ (running.core 0).doneSignals = [] ∧ (running.core 0).signals = [] ∧ powered.prog.active = none := by decide +kernel

/-- RUN of a Press template is passed to the Press, and STREAM armed, before the Needle takes either (R165); reading stops behind
STEP_END (R164). -/
theorem test_readAhead :
    (let t := ((needleAt 0x00 (running.dramWrite 0x101010 (leBytes 16 0x10)) (tabled f8Template 0 shadowEntry))).awlReads 0
     ((t.core 0).press.queue.map fun j => (j.taken, j.serial)) == [(false, 1)] && (t.core 0).needle.pos == 0) = true
    ∧ (((needleAt 0x01).awlReads 0).core 0).awl.pinned.stopped = true ∧ (((needleAt 0x01).awlReads 0).core 0).awl.pinned.words.length = 1
    ∧ (((needleAt (0x21 + 2 ^ 32)).awlReads 0).core 0).awl.pinned.words = [] := by decide +kernel

/-! ### Witnesses: the Awl -/

def arm0 : Arm := { first := 0, count := 1, delivered := 0, issued := true, serial := 0, elastic := false }
/-- A plain read stream with a Quire window of 64 bytes, signalled; a write stream; a Mull-B stream; a paged and a multicast one. -/
def readEntry : Nat := 2 ^ 15 + 2 ^ 16 * 4 + 2 ^ 32 * 1 + 2 ^ 64 * 0x300000 + 2 ^ 152 * 64
def writeEntry : Nat := readEntry + 8
def mullEntry : Nat := readEntry + 2
def pagedEntry : Nat := readEntry + 16
def groupEntry : Nat := readEntry + 32
def streamAt (e : Nat) (f : Stream → Stream := fun x => { x with arms := [arm0] }) (s : State := listed) : State :=
  (s.modCore 0 (tabled 0 0 e)).modStrm 0 0 f
def span0 : Span := { block := 0, offset := 0, addr := 0x200000, len := 64 }
/-- A core of which the elastic section runs while words of the step wait, with 128 tags held. -/
def elasticFull : State :=
  (streamAt readEntry fun x => { x with arms := [{ arm0 with elastic := true }] }).modCore 0 fun k =>
    { k with needle := { k.needle with sect := .elastic, elasticOn := true },
             awl := { k.awl with pinned := ⟨.cold, 1, [(0, 0x130)], false⟩,
                                 reads := List.replicate 128 ⟨7, 0, 9, 0, true, false, 0, 0, 64⟩ } }

theorem witness_AwlReads :
    (let t := (streamAt readEntry).awlReads 0
     let e := t.streamEntry img 0 0
     t.prog.active = some img ∧ t.issuing = true ∧ img.direct = false ∧ t.wanted img 0 0 = .ok (some ⟨span0, 0, false⟩)
     ∧ sPaged e = false ∧ sWrite e = false ∧ freeTagFrom (t.core 0).awl.reads 640 0 = some 0
     ∧ ((t.core 0).strm 0).arms = [arm0] ∧ sMulticast e = false ∧ sShadow e = false ∧ ((t.core 0).strm 0).halted = none
     ∧ ((t.core 0).strm 0).walking = none ∧ ((t.core 0).strm 0).nextByte < bLen (t.listEntry e 0) ∧ 0 < sListCount e
     ∧ t.listEntryOk img e (t.listEntry e 0) = true)
    ∧ (let t := (streamAt writeEntry).awlReads 0
       sWrite (t.streamEntry img 0 0) = true ∧ t.wanted img 0 0 = .ok (some ⟨span0, 0, false⟩))
    ∧ (let t := (streamAt pagedEntry).awlReads 0
       sPaged (t.streamEntry img 0 0) = true ∧ t.wanted img 0 0 = .ok (some ⟨span0, 0, false⟩)
       ∧ (t.core 0).missing ((t.core 0).awl.cachedPages (pagesOf span0.addr span0.len)) = some 1)
    ∧ ((streamAt readEntry).modCore 0 (tabled 0 0 (readEntry - 2 ^ 32)) |>.awlReads 0).wanted img 0 0
      = .error { reason := 0x40, block := 0, offset := 0, addr := 0x200000 }
    ∧ ((streamAt readEntry fun x => { x with arms := [arm0], nextByte := 64 }).awlReads 0).wanted img 0 0 = .ok none
    ∧ (elasticFull.awlReads 0).wanted img 0 0 = .ok (some ⟨span0, 0, true⟩)
    ∧ ((elasticFull.awlReads 0).core 0).awl.pinned.words ≠ [] ∧ 128 ≤ ((elasticFull.awlReads 0).core 0).elasticTags := by decide +kernel

def read0 : AwlRead := { tag := 3, gen := 0, stream := 0, group := 0, elastic := false, dropped := false, offset := 0, addr := 0x200000, len := 64 }
def reading (r : AwlRead := read0) (late : List (Nat × BitVec 2) := []) (s : State := streamAt readEntry) : State :=
  s.modCore 0 fun k => { k with awl := { k.awl with reads := [r], late := late } }
/-- A Mull-B block of 4,096 bytes whose bytes have all come: zeros, which fail their check. -/
def mullList (n : Nat) : State := streamAt mullEntry
  (fun x => { x with arms := [arm0], buffer := (List.range n).map fun o => (o, 0) })
  (running.dramWrite 0x300000 (leBytes 16 (0x200000 + 2 ^ 64 * (MullKind.b.size / 64))))

theorem witness_AwlReturns :
    (reading).prog.active = some img ∧ ((reading).core 0).awl.reads.find? (fun r => r.tag = (3 : Fin 640).val) = some read0
    ∧ ((reading).core 0).awl.late = [] ∧ (reading).issuing = true
    ∧ (((reading read0 [(3, 1)]).core 0).awl.late.find? fun p => p.1 = (3 : Fin 640).val) = some (3, 1)
    ∧ ((reading).modProg fun p => { p with phase := .cancelling }).issuing = false
    ∧ (((streamAt writeEntry fun x => { x with writes := [(0, 64)] }).core 0).strm 0).writes = [(0, 64)]
    ∧ covered ((streamAt readEntry fun x => { x with arms := [arm0], landed := [(0, 64)] }).core 0 |>.strm 0).landed (landKey 0 0)
        (landLen readEntry (bLen (listed.listEntry readEntry 0))) = true
    ∧ listed.listEntryOk img readEntry (listed.listEntry readEntry 0) = true
    ∧ running.listEntryOk img readEntry (running.listEntry readEntry 0) = false := by decide +kernel

theorem witness_mullBlocks :
    (let s := mullList MullKind.b.size
     let x := (s.core 0).strm 0
     x.arms = [arm0] ∧ sMull (s.streamEntry img 0 0) = some .b ∧ sShadow (s.streamEntry img 0 0) = false ∧ s.issuing = true
     ∧ x.haltedBefore 0 0 = false ∧ nextBlock x.landed 0 (bLen (s.listEntry mullEntry 0) / MullKind.b.size) = some 0)
    ∧ (let t := (streamAt groupEntry).awlReads 0
       sMulticast (t.streamEntry img 0 0) = true ∧ t.issuer img (sGroup (t.streamEntry img 0 0)) = some (0, 0)
       ∧ ((t.core 0).strm 0).memberArms = [] ∧ ((t.core 0).strm 0).arms = [arm0]) := by decide +kernel

theorem test_awl :
    goes (exec (.awlReadIssue 0 0) (streamAt readEntry)) (fun t => (t.core 0).awl.reads.length == 1 && ((t.core 0).strm 0).nextByte == 64)
      = true
    ∧ goes (exec (.awlReadIssue 0 0) (streamAt writeEntry)) (fun t => ((t.core 0).strm 0).writes == [(0, 64)]) = true
    ∧ goes (exec (.awlReadIssue 0 0) elasticFull) (fun t => (t.core 0).elasticTags == 128) = true
    ∧ goes (exec (.readReturn 0 3 true) (reading)) (fun t =>
        (((t.core 0).strm 0).halted.elim 0 fun h => h.reason.toNat) == 0x20 && (t.core 0).awl.reads.isEmpty) = true
    ∧ goes (exec (.readReturn 0 3 true) (reading read0 [(3, 1)])) (fun t =>
        ((t.core 0).strm 0).halted.isNone && (t.core 0).awl.reads.length == 1 && (t.core 0).awl.late.isEmpty) = true
    ∧ goes (exec (.tagExpiry 0 3) ((reading).modProg fun p => { p with phase := .cancelling })) (fun t =>
        (t.core 0).awl.late == [(3, 0)] && (t.core 0).awl.reads.isEmpty) = true
    ∧ goes (exec (.entryDelivery 0 0) (streamAt readEntry fun x => { x with arms := [arm0], landed := [(0, 64)] })) (fun t =>
        ((t.core 0).strm 0).arms.isEmpty && ((t.core 0).doneSignals.map (·.id)) == [4]) = true
    ∧ goes (exec (.entryDelivery 0 0) (streamAt readEntry (fun x => { x with arms := [arm0] }) running)) (fun t =>
        (((t.core 0).strm 0).halted.elim 0 fun h => h.reason.toNat) == 0x40) = true
    ∧ goes (exec (.writeAck 0 0) (streamAt writeEntry fun x => { x with arms := [arm0], writes := [(0, 64)] })) (fun t =>
        ((t.core 0).strm 0).landed == [(0, 64)]) = true
    ∧ goes (exec (.multicastArm 0 0) (streamAt groupEntry)) (fun t => ((t.core 0).strm 0).memberArms == [(0, arm0)]) = true := by
  decide +kernel

def halt30 : HaltRec := { core := 0, stream := 0, reason := 0x30, block := 0, byteOffset := 0, addr := 0x400000, step := 0 }
def halted30 (s : State := listed) : State := streamAt readEntry (fun x => { x with halted := some halt30 }) s
def present2 : State := listed.modProg fun p => { p with present := [(2, true)] }
/-- A region of two pages whose backing in host memory begins at 0x9000. -/
def backed : State :=
  present2.modProg fun p => { p with paged := [{ vbase := 0x400000, pages := 2, peer := false, backAddr := 0x9000, peerNode := 0 }] }

theorem witness_Paging (b : Byte) :
    let s := streamAt readEntry fun x => { x with walking := some (2, 0) }
    s.prog.active = some img ∧ ((s.core 0).strm 0).walking = some (2, 0) ∧ (∀ g ∈ s.prog.present, g.1 ≠ 2)
    ∧ (∃ g ∈ present2.prog.present, g.1 = 2)
    ∧ (((halted30).core 0).strm 0).halted = some halt30 ∧ halt30.reason = 0x30 ∧ (((halted30).core 0).strm 0).fetching = none
    ∧ (halted30).binderRuns = true ∧ 2 = halt30.addr / unitBytes ∧ (List.replicate unitBytes b).length = unitBytes
    ∧ ((streamAt readEntry fun x => { x with fetching := some 2 }).core 0 |>.strm 0).fetching = some 2
    ∧ (backed.prog.regionOf 2).map (·.backAddr) = some 0x9000 ∧ (backed.prog.regionOf 2).map (·.peer) = some false := by
  rw [List.length_replicate]
  decide +kernel

/-- A page that the cache lacks and the map lacks halts its stream; one that arrives resumes it; a page leaves the caches and the map when
it is evicted (R183 to R185). -/
theorem test_paging :
    goes (exec (.translationWalkDone 0 0) (streamAt readEntry fun x => { x with walking := some (2, 0) })) (fun t =>
      (((t.core 0).strm 0).halted.elim 0 fun h => h.reason.toNat) == 0x30) = true
    ∧ goes (exec (.translationWalkDone 0 0) (streamAt readEntry (fun x => { x with walking := some (2, 0) }) present2)) (fun t =>
        (t.core 0).awl.tlb == [2]) = true
    ∧ goes (exec (.pageNotPresent 0 0) (halted30)) (fun t => ((t.core 0).strm 0).fetching == some 2) = true
    ∧ goes (exec (.pageNotPresent 0 0) (halted30 present2)) (fun t => ((t.core 0).strm 0).halted.isNone) = true
    ∧ (let t := (present2.modCore 0 fun k => k.usePage 2).evictPage (2, false)
       (t.core 0).awl.tlb = [] ∧ t.prog.present = []) := by decide +kernel

/-- A core with one tag outstanding, and one with a beat: neither is drained. -/
theorem witness_TippingPath :
    powered.pwr.main = true ∧ TipSource.binder ≠ .bar2 ∧ 6291455 + [(1 : Byte)].length ≤ coreMemSize .quire ∧ (powered.core 0).ecc = []
    ∧ 6291455 + 1 ≤ coreMemSize .quire ∧ coreMemSize .quire < 6291455 + [(1 : Byte), 2].length
    ∧ (let c := running.modProg fun p => { p with phase := .cancelling }
       c.prog.phase = .cancelling ∧ goes (exec .cancelDrainDone c) (fun t => t.prog.active.isNone) = true)
    ∧ running.prog.phase ≠ .cancelling ∧ ((reading).core 0).awl.reads ≠ [] := by decide +kernel

/-- Every core of the witness is drained: a second half of the hypothesis of CANCEL_DRAIN_DONE. -/
theorem witness_cancelDrain (c : CoreId) :
    (State.reset.core c).awl.reads = [] ∧ (State.reset.core c).press.beats = []
    ∧ ∀ i : Fin 64, ((State.reset.core c).strm i).writes = [] := by
  simp [State.core, State.reset, Core.reset, Awl.reset, Press.reset, Core.strm, Stream.reset, Vector.getD]

/-- A write of 40 bytes from byte 0 is two pieces (R177). -/
theorem test_tipping :
    goes (exec (.tippingTransfer .binder (.writeCore 0 .quire 6291455 [0xA5])) powered) (fun t =>
      (t.core 0).readNat .quire 6291455 1 == 0xA5) = true
    ∧ ((cutWords 32 41 0 (List.replicate 40 (0 : Byte))).map fun p => (p.1, p.2.length)) = [(0, 32), (32, 8)]
    ∧ goes (exec (.tippingTransfer .binder (.readDram 0 2)) powered) (fun t => t.host.readData == some [0, 0]) = true := by
  decide +kernel

/-! ### Witnesses: the Plough -/

/-- Instructions of each opcode: lanes on V1, V2, V3 and scalars S1, S2 with pointer P4. -/
def lanesOf (op : Nat) : Nat := op + 2 ^ 8 * 1 + 2 ^ 13 * 2 + 2 ^ 18 * 3
def unaryOf (op : Nat) : Nat := op + 2 ^ 8 * 1 + 2 ^ 13 * 2
def reduceOf (op : Nat) : Nat := unaryOf op + 2 ^ 32 * 1
/-- FMT 6 at pointer P4 of a space. -/
def memOf (op space : Nat) : Nat := op + 2 ^ 8 * 1 + 2 ^ 36 * 4 + 2 ^ 39 * space + 2 ^ 41 * 6

theorem witness_PloughScalars :
    ∀ r ∈ [0x08 + 2 ^ 8 * 15 + 2 ^ 64 * 0xFFFF_FFFF, 0x09 + 2 ^ 8 * 1 + 2 ^ 13 * 2 + 2 ^ 18 * 3, 0x0A + 2 ^ 8 * 1 + 2 ^ 64 * 63,
        0x0B + 2 ^ 36 * 7, 0x0C + 2 ^ 64 * 0x8000_0000], (ploughAt r).atInstr 0 r := by
  unfold State.atInstr
  decide +kernel

theorem test_ploughScalars :
    goes (exec (.sli 0) (ploughAt (0x08 + 2 ^ 8 * 15 + 2 ^ 64 * 0xFFFF_FFFF))) (fun t =>
      (t.core 0).plough.sreg 15 == 2 ^ 64 - 1 && (t.core 0).plough.ip == 3) = true
    ∧ goes (exec (.padd 0) (ploughAt (0x0C + 2 ^ 64 * 0x8000_0000))) (fun t => (t.core 0).plough.preg 0 == 2 ^ 64 - 2 ^ 31) = true
    ∧ goes (exec (.sshl 0) (ploughAt (0x0A + 2 ^ 8 * 1 + 2 ^ 64 * 63) fun k =>
        { k with plough := { k.plough with sr := k.plough.sr.set 0 3 } })) (fun t => (t.core 0).plough.sreg 1 == 2 ^ 63) = true := by
  decide +kernel

theorem witness_PloughControl :
    (∀ r ∈ [0x00, 0x01, 0x02 + 2 ^ 64 * 65535, 0x03, 0x04 + 2 ^ 64 * 1, 0x04 + 2 ^ 41 * 3 + 2 ^ 64 * 1, 0x04 + 2 ^ 41 * 1 + 2 ^ 64 * 1],
        (ploughAt r).atInstr 0 r)
    ∧ ((ploughAt 0x02).core 0).plough.loops.length < 4 ∧ ((ploughAt 0x03).core 0).plough.loops = []
    ∧ ((ploughAt 0x01).core 0).plough.direct = false
    ∧ (ploughAt 0x01 fun k => { k with plough := { k.plough with queue := [pjob0] } }).atInstr 0 0x01 ∧ pjob0.total ≤ pjob0.next + 1
    ∧ (ploughAt 0x03 fun k => { k with plough := { k.plough with loops := [⟨1, 0⟩, ⟨0, 5⟩] } }).atInstr 0 0x03
    ∧ branchOk (fun k => ((ploughAt 0x04).core 0).readNat .endpaper (16 * k) 1) 1 3 0 = true
    ∧ branchOk (fun k => ((ploughAt 0x04 fun k => { k with endp := Mem.write zeroByte k.endp 48 [3] }).core 0).readNat .endpaper (16 * k) 1)
        1 3 0 = false := by
  unfold State.atInstr
  decide +kernel

theorem test_ploughControl :
    goes (exec (.ploughLoop 0) (ploughAt (0x02 + 2 ^ 64 * 65535))) (fun t => (t.core 0).plough.loops == [⟨3, 65534⟩]) = true
    ∧ goes (exec (.ploughEndLoop 0) (ploughAt 0x03 fun k => { k with plough := { k.plough with loops := [⟨1, 0⟩, ⟨0, 5⟩] } })) (fun t =>
        (t.core 0).plough.loops == [⟨0, 5⟩] && (t.core 0).plough.ip == 3) = true
    ∧ goes (exec (.brf 0) (ploughAt (0x04 + 2 ^ 64 * 1))) (fun t => (t.core 0).plough.ip == 4) = true
    ∧ goes (exec (.ploughEnd 0) (ploughAt 0x01 fun k => { k with plough := { k.plough with queue := [pjob0] } })) (fun t =>
        !(t.core 0).plough.running && (t.core 0).plough.queue.isEmpty) = true := by decide +kernel

theorem witness_PloughRefusedInstruction :
    (Instr.vadd 0).ploughOp = some (0, 0x20)
    ∧ instrOk (0xC4120 + 2 ^ 127) true = false ∧ instrOk 0x05 true = false ∧ instrOk 0xC4120 true = true
    ∧ goes (exec (.vadd 0) (ploughAt 0x05)) (fun t => t.prog.active.isNone || (t.core 0).needle.stopped) = true
    ∧ goes (exec (.vsub 0) (ploughAt 0xC4120)) (fun t => (t.core 0).plough.ip == 2) = true := by decide +kernel

theorem witness_PloughLanes :
    (∀ op ∈ [0x20, 0x21, 0x22, 0x24, 0x25, 0x28, 0x2D, 0x3C], (ploughAt (lanesOf op)).atInstr 0 (lanesOf op))
    ∧ (∀ op ∈ [0x26, 0x27, 0x29, 0x38, 0x39, 0x3A, 0x3B], (ploughAt (unaryOf op)).atInstr 0 (unaryOf op))
    ∧ (ploughAt (lanesOf 0x23 + 2 ^ 31)).atInstr 0 (lanesOf 0x23 + 2 ^ 31) ∧ (ploughAt 0x12E).atInstr 0 0x12E := by
  unfold State.atInstr
  decide +kernel

def withV (i : Nat) (x : W32) (k : Core) : Core :=
  { k with plough := { k.plough with v := k.plough.v.setIfInBounds i (Vector.replicate 64 x) } }

/-- 1.5 + 2.25; the larger of -0 and +0; 1/0; lanes that the mask leaves out stay (R191, R197). -/
theorem test_ploughLanes :
    goes (exec (.vadd 0) (ploughAt (lanesOf 0x20) (withV 2 0x3FC0_0000 ∘ withV 3 0x4010_0000))) (fun t =>
      laneOf ((t.core 0).plough.vr 1) 63 == 0x4070_0000) = true
    ∧ goes (exec (.vdiv 0) (ploughAt (lanesOf 0x28) (withV 2 0x3F80_0000))) (fun t =>
      laneOf ((t.core 0).plough.vr 1) 0 == 0x7F80_0000) = true
    ∧ goes (exec (.vabs 0) (ploughAt (unaryOf 0x26 + 2 ^ 28 * 1) fun k => withV 2 0xBF80_0000
        { k with plough := { k.plough with m := k.plough.m.set 1 2 } })) (fun t =>
      laneOf ((t.core 0).plough.vr 1) 1 == 0x3F80_0000 && laneOf ((t.core 0).plough.vr 1) 0 == 0) = true
    ∧ fB32.maxOf 0x8000_0000 0 = 0 ∧ fB32.fma 0x3F80_0001 0x3F80_0001 0xBF80_0002 = 0x2880_0000 := by decide +kernel

theorem witness_PloughReductions :
    ∀ op ∈ [0x30, 0x31, 0x32, 0x3D], (ploughAt (reduceOf op)).atInstr 0 (reduceOf op) := by
  unfold State.atInstr
  decide +kernel

theorem test_ploughReductions :
    goes (exec (.vrsum 0) (ploughAt (reduceOf 0x30) (withV 2 0x3F80_0000))) (fun t =>
      (t.core 0).plough.sreg 1 == 0x4280_0000 && laneOf ((t.core 0).plough.vr 1) 0 == 0x4280_0000
        && laneOf ((t.core 0).plough.vr 1) 1 == 0) = true
    ∧ goes (exec (.vrmax 0) (ploughAt (reduceOf 0x31) (withV 2 0xC000_0000))) (fun t => (t.core 0).plough.sreg 1 == 0xC000_0000) = true := by
  decide +kernel

theorem witness_PloughMasks :
    (∀ r ∈ [0x2C, 0x2C + 2 ^ 8 * 7 + 2 ^ 41 * 3], (ploughAt r).atInstr 0 r ∧ iOp r = 0x2C) ∧ fld 0x2C 8 3 = 0
    ∧ fld (0x2C + 2 ^ 8 * 7 + 2 ^ 41 * 3) 8 3 = 7 := by
  unfold State.atInstr
  decide +kernel

theorem witness_PloughLoads :
    (∀ r ∈ [memOf 0x10 0, memOf 0x10 0 + 2 ^ 64 * 1], (ploughAt r).atInstr 0 r)
    ∧ (∀ r ∈ [0x14 + 2 ^ 36 * 4 + 2 ^ 64 * 15, 0x14 + 2 ^ 36 * 4 + 2 ^ 39 * 3, 0x44 + 2 ^ 36 * 4, 0x43 + 2 ^ 8 * 1 + 2 ^ 36 * 4,
        0x43 + 2 ^ 36 * 4 + 2 ^ 64 * 32], (ploughAt r).atInstr 0 r)
    ∧ (let s := ploughAt (memOf 0x10 0)
       s.ploughAccess 0 0 0 256 false true = true ∧ s.ploughAccess 0 0 1 256 false true = false ∧ (s.core 0).marksIn .quire 0 256 = []
       ∧ s.ploughAccess 0 3 0 1 false false = true ∧ s.poisoned 0 1 = false
       ∧ ({ s with poison := [0] } : State).poisoned 0 1 = true ∧ s.ploughAccess 0 3 (1280 * 2 ^ 30) 1 false false = false) := by
  unfold State.atInstr
  decide +kernel

/-- BF16 1.5 widened from the Quire; TESTF reads a header; an unchecked folio halts the kernel (R202). -/
theorem test_ploughLoads :
    goes (exec (.vld 0) (ploughAt (0x10 + 2 ^ 8 * 1 + 2 ^ 36 * 4 + 2 ^ 41 * 2) fun k => { k with quire := [(2, 0xC0), (3, 0x3F)] }))
      (fun t => laneOf ((t.core 0).plough.vr 1) 1 == 0x3FC0_0000 && laneOf ((t.core 0).plough.vr 1) 0 == 0) = true
    ∧ goes (exec (.testf 0) (ploughAt (0x44 + 2 ^ 36 * 4) fun k => { k with quire := [(1, 0x80), (3, 0x77)] }))
      (fun t => (t.core 0).plough.sreg 0 == 0x7700_8000) = true
    ∧ goes (exec (.unpack 0) (ploughAt (0x43 + 2 ^ 36 * 4))) (fun t => (t.core 0).plough.halted && (t.core 0).plough.ip == 2) = true := by
  decide +kernel

theorem witness_PloughStores :
    (∀ r ∈ [memOf 0x11 0 - 2 ^ 8, 0x15 + 2 ^ 36 * 4 + 2 ^ 64 * 15, 0x15 + 2 ^ 36 * 4 + 2 ^ 39 * 3], (ploughAt r).atInstr 0 r)
    ∧ (let s := ploughAt 0x15
       s.ploughAccess 0 0 0 256 true true = true ∧ (s.core 0).ecc = [] ∧ (s.core 0).press.beats = []
       ∧ s.ploughAccess 0 0 6291400 256 true true = false ∧ s.ploughAccess 0 2 0 1 true false = false
       ∧ s.ploughAccess 0 2 0x10000 1 true false = true ∧ s.ploughAccess 0 3 0 1 true false = true) := by
  unfold State.atInstr
  decide +kernel

theorem test_ploughStores :
    goes (exec (.vst 0 0) (ploughAt (memOf 0x11 0 - 2 ^ 8 + 2 ^ 13 * 2) (withV 2 0x0102_0304))) (fun t =>
      (t.core 0).readNat .quire 252 4 == 0x0102_0304 && (t.core 0).readNat .quire 256 1 == 0) = true
    ∧ goes (exec (.sst 0 0) (ploughAt (0x15 + 2 ^ 36 * 4 + 2 ^ 39 * 3) fun k =>
        { k with plough := { k.plough with sr := k.plough.sr.set 0 0x1FF } })) (fun t => t.dramNat 0 2 == 0xFF) = true := by
  decide +kernel

/-- QFOLIO of a T4 folio with an explicit scale, QWIRE, QCVT to BF16, MREENC, VRAND, all in direct mode with nearest rounding. -/
theorem witness_PloughQuantise :
    (∀ r ∈ [0x40 + 2 ^ 36 * 4 + 2 ^ 96 * 4 + 2 ^ 102 * 2 + 2 ^ 104, 0x41 + 2 ^ 36 * 4 + 2 ^ 102 * 2 + 2 ^ 104,
        0x42 + 2 ^ 36 * 4 + 2 ^ 41 * 2 + 2 ^ 104, 0x45 + 2 ^ 36 * 4 + 2 ^ 41 * 2, 0x48 + 2 ^ 8 * 1 + 2 ^ 41 * 6],
        (ploughAt r).atInstr 0 r)
    ∧ ((ploughAt 0x40).core 0).ecc = [] ∧ (ploughAt 0x40).ploughAccess 0 0 0 64 true true = true
    ∧ ((ploughAt 0x40).core 0).plough.sreg 0 = 0 ∧ bitOf (0 : Nat) 15 = false ∧ bitOf 0x8000 15 = true ∧ fld 0x7F80 7 8 = 255
    ∧ mullHeaderCheck .b 0 = some 0x12 := by
  unfold State.atInstr
  decide +kernel

/-- Lane 0 is the low half of block B(0) of stream 0 of core 0 under SEED 3; VRAND takes 128 draws (R207, R208). -/
theorem test_vrand :
    goes (exec (.vrand 0) (ploughAt (0x48 + 2 ^ 8 * 1))) (fun t => (t.core 0).draws.getD 0 0 == 128
      && laneOf ((t.core 0).plough.vr 1) 0 == mix (Nat.xor (mix ((3 + mix 0) % 2 ^ 64)) (mix 0)) % 2 ^ 32) = true := by decide +kernel

/-! ### Witnesses: host commands -/

theorem witness_HostCommandTurn :
    (Instr.queueLimits h0).hostOp = some (h0, 0x20) ∧ (asked 0x20 0).running? h0 = some (entry 0x20 0)
    ∧ (entry 0x20 0).opcode.toNat ≠ 0x21 ∧ powered.running? h0 = none
    ∧ (let f := { entry 0x20 0 1 with fence := true }
       let s := { powered with host := { powered.host with handles := [entry 0x18 0, f] } }
       s.running? h1 = some f
       ∧ ∃ o ∈ s.host.handles, o.phase = .running ∧ o.mailbox = f.mailbox ∧ o.takenAt < f.takenAt ∧ (o.begun = false ∨ f.fence = true)) := by
  decide +kernel

theorem witness_CompletionHolds :
    (asked 0x20 0).running? h0 = some (entry 0x20 0) ∧ powered.running? h0 = none ∧ (1 : Nat) ≠ handleIndex h0 := by decide +kernel

/-- 64 bytes between host address 0x40 and the last 64 bytes of the plain layout, and fields that fail. -/
def moveBody (dev n : Nat) : Nat := 0x40 + 2 ^ 64 * dev + 2 ^ 128 * n

theorem witness_HostTransfers :
    (∀ op ∈ [0x01, 0x02, 0x03], (asked op (moveBody 0 64)).begins h0 op = some (moveBody 0 64))
    ∧ (let e := powered.layoutEnd
       (e - 64) % 64 = 0 ∧ e - 64 + max 64 64 ≤ e ∧ ¬ (e + max 64 64 ≤ e) ∧ 64 ≤ 64 ∧ 64 % 64 = 0 ∧ 0x40 % 64 = 0)
    ∧ (List.replicate 64 (0 : Byte)).length = 64
    ∧ (let s := asked 0x03 (moveBody 0 64) running
       s.begins h0 0x03 = some (moveBody 0 64) ∧ s.prog.active.isSome = true ∧ s.prog.phase = .steps
       ∧ ((0 : W64) = s.prog.step ∧ (s.modProg fun p => { p with released := true }).prog.released = true)
       ∧ (0 : W64).toNat < (s.modProg fun p => { p with step := 1 }).prog.step.toNat
       ∧ (0, 0) ∈ (s.modProg fun p => { p with inputWant := [(0, 0)] }).prog.inputWant) := by decide +kernel

theorem test_dmaWrite :
    goes (exec (.dmaWrite h0 ⟨List.replicate 64 7, false⟩) (asked 0x01 (moveBody 0 64))) (fun t =>
      t.dramNat 63 1 == 7 && t.running? h0 == none && (t.host.handles.map (·.status)) == [0]) = true
    ∧ goes (exec (.dmaWrite h0 ⟨[], false⟩) (asked 0x01 (moveBody 1 64))) (fun t =>
        (t.host.handles.map fun e => (e.status, e.detail)) == [(1, 24)]) = true
    ∧ goes (exec (.dmaWrite h0 ⟨[5], true⟩) (asked 0x01 (moveBody 0 64))) (fun t =>
        (t.host.handles.map fun e => (e.status, e.detail)) == [(7, 1)]) = true
    ∧ goes (exec (.dmaRead h0 (some 2)) (asked 0x02 (moveBody 0 64))) (fun t => t.hostMem == [(0x40, 0), (0x41, 0)]) = true := by
  decide +kernel

theorem witness_HostPrograms :
    (∀ op ∈ [0x10, 0x11, 0x12, 0x14, 0x15, 0x17, 0x18], (asked op 0).begins h0 op = some 0)
    ∧ powered.prog.active = none ∧ powered.prog.recovering = false ∧ powered.prog.staged = none
    ∧ (let e := powered.layoutEnd
       (e - 256) % 64 = 0 ∧ e - 256 < e ∧ e - 256 + 256 ≤ e ∧ ¬ (e < e))
    ∧ (powered.modProg fun p => { p with recovering := true }).prog.recovering = true
    ∧ (let s := asked 0x11 0 (powered.modProg fun p => { p with staged := some img })
       s.begins h0 0x11 = some 0 ∧ s.prog.staged = some img
       ∧ ((s.admission img true = .wait ∨ ∃ ranks ∈ [([] : List (BitVec 10 × BitVec 16))], s.admission img true = .ready ranks)
          ∨ (match s.admission img true with | .refused _ _ _ => true | _ => false) = true))
    ∧ (let r := asked 0x14 0 running
       r.begins h0 0x14 = some 0 ∧ r.prog.active = some img ∧ r.prog.elasticHandle = none ∧ r.prog.elasticPending = none
       ∧ img.direct = false ∧ bitOf 0 0 = false ∧ bitOf 1 0 = true ∧ dimg.direct = true)
    ∧ ((0 : Nat) + 64 * 0 ≤ running.layoutEnd ∧ 0 + 0 ≤ running.prog.recipe.length)
    ∧ (running.modProg fun p => { p with committed := some 0 }).prog.committed = some 0
    ∧ (img.pinnedPages * 2 ^ 30 ≤ 2 ^ 30 ∧ 2 ^ 30 + 1 * 2 ^ 21 ≤ running.layoutEnd ∧ 2 ^ 30 % 2 ^ 21 = 0) := by decide +kernel

theorem test_hostPrograms :
    goes (exec (.load h0) (asked 0x10 1)) (fun t => (t.host.handles.map fun e => (e.status, e.detail)) == [(1, 16)]) = true
    ∧ goes (exec (.activate h0) (asked 0x11 0)) (fun t => (t.host.handles.map (·.status)) == [4]) = true
    ∧ goes (exec (.unload h0) (asked 0x12 1)) (fun t => (t.host.handles.map (·.status)) == [0]) = true
    ∧ goes (exec (.waitStep h0) (asked 0x18 0 (running.modProg fun p => { p with committed := some 0 }))) (fun t =>
        (t.host.handles.map (·.status)) == [0]) = true
    ∧ goes (exec (.elasticStart h0) (asked 0x14 0 running)) (fun t => t.prog.elasticPending == some h0) = true
    ∧ goes (exec (.pagedMap h0) (asked 0x17 (2 ^ 30 + 2 ^ 52 + 2 ^ 64) running)) (fun t => t.prog.paged.length == 1) = true := by
  decide +kernel

/-- A CANCEL at h0 whose target is h1. -/
def cancelling (op : Nat) (s : State := powered) : State :=
  { s with host := { s.host with handles := [entry 0x13 0x100001, { entry op 0 with mailbox := 1 }] } }

theorem witness_HostCancel :
    (cancelling 0x18).begins h0 0x13 = some 0x100001 ∧ h1 = BitVec.ofNat 32 (fld 0x100001 0 32)
    ∧ (cancelling 0x18).running? h1 = some { entry 0x18 0 with mailbox := 1 } ∧ (asked 0x13 0x100001).running? h1 = none
    ∧ (cancelling 0x18).prog.handle ≠ some h1 ∧ (cancelling 0x18).prog.activating ≠ some h1
    ∧ (cancelling 0x18).prog.elasticPending ≠ some h1 ∧ (cancelling 0x18).prog.elasticHandle ≠ some h1
    ∧ (0x01 : Nat) ∈ [0x01, 0x02, 0x03, 0x10, 0x11, 0x14] ∧ (0x20 : Nat) ∉ [0x01, 0x02, 0x03, 0x10, 0x11, 0x14, 0x18]
    ∧ ((cancelling 0x11 running).modProg fun p => { p with handle := some h1 }).prog.handle = some h1
    ∧ ((cancelling 0x14 running).modProg fun p => { p with elasticHandle := some h1 }).prog.elasticHandle = some h1
    ∧ (cancelling 0x14 running).prog.active = some img := by decide +kernel

theorem test_hostCancel :
    goes (exec (.cancel h0) (cancelling 0x18)) (fun t => (t.host.handles.map (·.status)) == [0, 0x201]) = true
    ∧ goes (exec (.cancel h0) (cancelling 0x20)) (fun t => (t.host.handles.map (·.status)) == [2, 0] && (t.running? h1).isSome) = true
    ∧ goes (exec (.cancel h0) ((cancelling 0x11 running).modProg fun p => { p with handle := some h1 })) (fun t =>
        t.prog.phase == .cancelling && (t.running? h0).isSome) = true := by decide +kernel

/-- STREAM_RESUME of the program handle h1, core 0, stream 0. -/
def resumeBody (flags : Nat) : Nat := 0x100001 + 2 ^ 46 * flags
def resuming (flags : Nat) (f : Core → Core) : State :=
  ({ (listed.modProg fun p => { p with handle := some h1 }) with
      host := { powered.host with handles := [entry 0x16 (resumeBody flags), { entry 0x11 0 with mailbox := 1, begun := true }] } } : State)
    |>.modCore 0 fun k => f (tabled 0 0 readEntry k)

theorem witness_HostResume :
    (∀ n ∈ [0, 1, 2], (resuming n id).begins h0 0x16 = some (resumeBody n) ∧ (resuming n id).resumeAt (resumeBody n) = .here img 0)
    ∧ (asked 0x16 0).begins h0 0x16 = some 0 ∧ (asked 0x16 0).resumeAt 0 = .badHandle
    ∧ bitOf (resumeBody 1) 46 = true ∧ bitOf (resumeBody 2) 47 = true ∧ fld (resumeBody 1) 40 6 = 0
    ∧ (((resuming 0 fun k => k.modStrm 0 fun x => { x with halted := some halt30 }).core 0).strm 0).halted = some halt30
    ∧ ((resuming 1 fun k => { k with plough := { k.plough with halted := true } }).core 0).plough.halted = true
    ∧ (∀ x ∈ (resuming 2 id).fab.bindings, x.checkpointed = false) := by decide +kernel

theorem test_hostResume :
    goes (exec (.streamResume h0) (resuming 0 fun k => k.modStrm 0 fun x => { x with halted := some halt30 })) (fun t =>
      ((t.core 0).strm 0).halted.isNone && (t.host.handles.map (·.status)) == [0, 0]) = true
    ∧ goes (exec (.streamResume h0) (resuming 0 id)) (fun t => (t.host.handles.map fun e => (e.status, e.detail)) == [(1, 21), (0, 0)]) = true
    ∧ goes (exec (.kernelResume h0) (resuming 1 fun k => { k with plough := { k.plough with halted := true } })) (fun t =>
        !(t.core 0).plough.halted) = true
    ∧ goes (exec (.fromMirrorResume h0 .noCopy) (resuming 2 fun k => k.modStrm 0 fun x => { x with halted := some halt30 })) (fun t =>
        (t.host.handles.map (·.status)) == [8, 0]) = true := by decide +kernel

theorem witness_HostSettings :
    (∀ op ∈ [0x20, 0x21, 0x22, 0x23], (asked op 0).begins h0 op = some 0)
    ∧ (1024 < fld 1025 0 11 ∧ fld 1024 0 11 ≤ 1024 ∧ fld (2 ^ 16 * 1025) 16 11 = 1025 ∧ fld (2 ^ 32 * 65) 32 7 = 65)
    ∧ (fld (2 ^ 36) 0 52 % 2 ^ 36 = 0 ∧ fld 1 0 52 % 2 ^ 36 ≠ 0)
    ∧ (bitOf (2 ^ 32 + 1023) 32 = true ∧ 0 < fld (2 ^ 32 + 1023) 0 32 ∧ fld (2 ^ 32 + 1023) 0 32 < 1024)
    ∧ powered.prog.active = none ∧ powered.prog.staged = none ∧ running.prog.active ≠ none
    ∧ bitOf (2 ^ 34 + 2 ^ 33) 33 ≠ powered.prog.reserveLayout ∧ bitOf (2 ^ 34) 33 = powered.prog.reserveLayout
    ∧ (declarationError (1960000 + 2041000 * 2 ^ 24 + 256 * 2 ^ 48 + 500 * 2 ^ 64) = none ∧ declarationError 0 ≠ none)
    ∧ powered.mc.fuses.getLsbD 5 = false ∧ (powered.modMc fun m => { m with fuses := 32 }).mc.fuses.getLsbD 5 = true := by decide +kernel

theorem test_hostSettings :
    goes (exec (.queueLimits h0) (asked 0x20 1024)) (fun t => t.host.dmaLimit == 1024 && t.host.mirrorLimit == 128
      && (t.host.handles.map (·.result)) == [64 + 2 ^ 16 * 128 + 2 ^ 32 * 8]) = true
    ∧ goes (exec (.setAperture h0) (asked 0x21 (2 ^ 36))) (fun t => t.host.aperture == 2 ^ 36) = true
    ∧ goes (exec (.setLayout h0) (asked 0x22 (2 ^ 33 + 2 ^ 34))) (fun t => t.prog.reserveLayout && t.dramEpoch == Vector.replicate 20 1) = true
    ∧ goes (exec (.setProfileSelect h0) (asked 0x23 (2 + 8))) (fun t => t.mc.profSelected == some 2) = true := by decide +kernel

theorem witness_HostService :
    (∀ op ∈ [0x24, 0x30, 0x31, 0x32], (asked op 0).begins h0 op = some 0)
    ∧ (199 : SiteId).val = fld 199 0 8 ∧ 200 ≤ fld 200 0 8 ∧ fld 200 0 8 ≠ 0xFF ∧ fld 0xFF 0 8 = 0xFF ∧ (15 : Nat) < 16 ∧ (767 : Nat) < 768
    ∧ bitOf 1 0 = true ∧ bitOf 64 6 = true ∧ powered.prog.active = none ∧ powered.prog.staged = none ∧ running.prog.active ≠ none := by
  decide +kernel

theorem test_hostService :
    goes (exec (.diagRead h0 none) ((asked 0x31 (2 ^ 64 * 0x80)).modSite 0 fun x => { x with ceAcc := 0x1234 })) (fun t =>
      Mem.lookup t.hostMem 0x84 == some 0x34 && Mem.lookup t.hostMem 0x8F == some 0 && Mem.lookup t.hostMem 0x90 == none) = true
    ∧ goes (exec (.maintain h0) (asked 0x32 1 (powered.modMc fun m => { m with softRepairs := [(0, 1, 2)] }))) (fun t =>
        t.mc.softRepairs == [] && (t.host.handles.map (·.result)) == [1]) = true
    ∧ goes (exec (.survey h0) (asked 0x30 0)) (fun t => t.host.surveyRunning && t.host.surveyWaiting == [h0]) = true := by decide +kernel

def protected4 : Protected :=
  { node := 4, continuous := true, checkpointed := false, cover := 0, units := 1, recordStep := 0, record := [], arriving := [],
    gens := [], coming := [], states := [] }

theorem witness_HostMirrors :
    (∀ op ∈ [0x40, 0x41, 0x42, 0x43], (asked op 0).begins h0 op = some 0)
    ∧ (let e := powered.layoutEnd
       (e - 2 ^ 21) % 2 ^ 21 = 0 ∧ e - 2 ^ 21 + 1 * 2 ^ 21 ≤ e ∧ ¬ (e + 1 * 2 ^ 21 ≤ e))
    ∧ powered.fab.protects = [] ∧ fld (2 ^ 18 * 3) 18 2 = 3 ∧ fld (2 ^ 16) 18 2 ≠ 3 ∧ bitOf (2 ^ 16) 16 = true
    ∧ bindReason .capacity = some 2 ∧ powered.prog.staged = none
    ∧ (let p := protected4
       let s := powered.modFab fun f => { f with protects := [p] }
       s.fab.protects ≠ [] ∧ some (0, 1) ≠ s.fab.store ∧ none = s.fab.store)
    ∧ (powered.modProg fun p => { p with staged := some img }).prog.staged = some img := by decide +kernel

theorem test_hostMirrors :
    goes (exec (.mirrorStore h0) (asked 0x40 (2 ^ 64))) (fun t => t.fab.store == some (0, 1)) = true
    ∧ goes (exec (.mirrorBind h0 .capacity) (asked 0x41 (2 ^ 16 + 5))) (fun t =>
        (t.host.handles.map fun e => (e.status, e.detail)) == [(9, 2)] && t.fab.bindings == []) = true
    ∧ goes (exec (.mirrorBind h0 .accepted) (asked 0x41 (2 ^ 16 + 5))) (fun t => (t.fab.bindings.map (·.partner)) == [5]) = true
    ∧ goes (exec (.seed h0 .accepted) (asked 0x43 0)) (fun t => (t.host.handles.map (·.status)) == [4]) = true := by decide +kernel

/-- Mailbox 0 with slots filled up to TAIL n, the first spelling SEQUENCE 9 of a SURVEY. -/
def mailed (tail : BitVec 16) (prev : Option W32) (recent : List (W32 × Handle)) : State :=
  powered.modHost fun h => h.setMailbox 0
    { Mailbox.reset with sram := Mem.write zeroByte [] 0 (leBytes 16 (0x30 + 2 ^ 64 * 9)), tail := tail, prevSeq := prev, recent := recent }

theorem witness_MailboxTake :
    (mailed 1 none []).pwr.main = true ∧ (mailed 1 none []).binderRuns = true ∧ (mailed 1 none []).host.freeIndex = some 0
    ∧ ((mailed 1 none []).host.mailbox 0).head ≠ ((mailed 1 none []).host.mailbox 0).tail
    ∧ ((mailed 0 none []).host.mailbox 0).head = ((mailed 0 none []).host.mailbox 0).tail
    ∧ ((mailed 1 none [(9, h0)]).host.mailbox 0).recent.find? (fun p => p.1 = 9) = some (9, h0)
    ∧ ((mailed 1 (some 7) []).host.mailbox 0).recent.find? (fun p => p.1 = 9) = none ∧ (9 : W32) ≠ 7 + 1 := by decide +kernel

theorem test_commandTake :
    goes (exec (.commandTake 0) (mailed 1 none [])) (fun t => (t.running? h0).isSome && (t.host.mailbox 0).head == 1
      && Mem.lookup (t.host.mailbox 0).sram 14 == some 0x10) = true
    ∧ goes (exec (.commandTake 0) (mailed 1 (some 7) [])) (fun t => (t.host.handles.map fun e => (e.status, e.detail)) == [(6, 8)]) = true
    ∧ goes (exec (.commandTake 0) (mailed 1 (some 8) [(9, h0)])) (fun t => t.host.handles.isEmpty && (t.host.mailbox 0).head == 1) = true := by
  decide +kernel

theorem witness_Doorbells :
    powered.served = true ∧ State.reset.served = false ∧ ((32 : BitVec 16) - (powered.host.mailbox 0).head).toNat ≤ 32
    ∧ 32 < ((33 : BitVec 16) - (powered.host.mailbox 0).head).toNat
    ∧ ((0 : W32) - (powered.host.ring 0).head).toNat ≤ ((powered.host.ring 0).tail - (powered.host.ring 0).head).toNat
    ∧ ((powered.host.ring 0).tail - (powered.host.ring 0).head).toNat < ((1 : W32) - (powered.host.ring 0).head).toNat
    ∧ (powered.host.ring 0).enable = false := by decide +kernel

theorem test_doorbells :
    goes (exec (.mbTailWrite 0 32) powered) (fun t => (t.host.mailbox 0).tail == 32) = true
    ∧ goes (exec (.mbTailWrite 0 33) powered) (fun t => (t.host.mailbox 0).tail == 0 && (t.host.records.map (·.code)) == [0x418]) = true
    ∧ goes (exec (.ringEnable 0) powered) (fun t => (t.host.ring 0).enable) = true := by decide +kernel

/-- Ring 0 enabled with 64 entries, and a held completion of mailbox 0. -/
def ringed (tail : W32) (enable : Bool := true) (left : Nat := 0) : State :=
  powered.modHost fun h =>
    { h.setRing 0 { RingRegs.reset 0 with base := 0x1000, enable := enable, tail := tail, unsignalled := left } with
      handles := [{ entry 0x20 0 with phase := .held }] }
def event0 : EventRec :=
  { code := 0x418, core := 0xFF, repeats := 0, seq := 0, step := 0, items := [], record := none, handle := 0, run := 0, cadence := 0 }

/-- Vector 0 masked, with a message pending. -/
def unmasking : HostIf :=
  { HostIf.reset with msixTable := HostIf.reset.msixTable.set 0 (BitVec.ofNat 128 (2 ^ 96)), pba := 1 }

theorem witness_RingEntries :
    (ringed 63).served = true ∧ (ringed 63).binderRuns = true
    ∧ firstFixed ((ringed 63).host.heldOf 0) = some (0, { entry 0x20 0 with phase := .held })
    ∧ ((ringed 63).host.ring 0).enable = true
    ∧ (((ringed 63).host.ring 0).tail - ((ringed 63).host.ring 0).head).toNat < 2 ^ (((ringed 63).host.ring 0).log2Size.toNat + 6)
    ∧ ¬ ((((ringed 64).host.ring 0).tail - ((ringed 64).host.ring 0).head).toNat < 2 ^ (((ringed 64).host.ring 0).log2Size.toNat + 6))
    ∧ 0 < ((ringed 0 true 1).host.ring 0).unsignalled ∧ ((ringed 0).host.ring 0).unsignalled = 0
    ∧ ((ringed 0).modHost fun h => { h with eventRing := 0, eventQ := [event0] }).host.eventRing = 0
    ∧ (let r := { RingRegs.reset 0 with unsignalled := 1, firstAt := 5, delay := 2 }
       r.firstAt + 100 * r.delay.toNat ≤ 205 ∧ 204 < r.firstAt + 100 * r.delay.toNat)
    ∧ unmasking.pba.getLsbD 0 = true ∧ (unmasking.msixTable[0]).toNat < 2 ^ 97 ∧ (0xFE : Byte).toNat % 2 = 0 := by decide +kernel

/-- The entry in the last slot of the first lap has PHASE 1; an event entry of the second lap PHASE 0 (R317, R318). -/
theorem test_ringEntries :
    goes (exec (.completionPost 0) (ringed 63)) (fun t => (t.host.ring 0).tail == 64 && (Mem.lookup t.hostMem (0x1000 + 32 * 63)) == some 0
      && (t.host.handles.map (·.phase)) == [.posted]) = true
    ∧ goes (exec (.completionPost 0) (ringed 64)) (fun t => t.hostMem.isEmpty) = true
    ∧ goes (exec .eventPost ((ringed 0).modHost fun h => { h with eventRing := 0, eventQ := [event0] })) (fun t =>
        t.host.eventQ.isEmpty && (t.host.ring 0).tail == 1) = true := by decide +kernel

theorem witness_HostPorts :
    (1 : W32).toNat % 2 = 1 ∧ (2 : W32).toNat % 2 = 0 ∧ powered.pwr.main = true ∧ (powered.host.port .a).up = true
    ∧ PciePort.a = powered.host.activePort ∧ PciePort.b ≠ powered.host.activePort
    ∧ (let s := { powered with now := 100000, host := { powered.host with portA := PortState.reset,
                                                                          portB := { PortState.reset with up := true } } }
       (s.host.port .b).up = true ∧ (s.host.port .a).up = false ∧ (s.host.port .a).downAt + 100000 ≤ s.now
       ∧ { s with now := 99999 }.now < (s.host.port .a).downAt + 100000) := by decide +kernel

theorem test_hostPorts :
    (let s := { powered with now := 100000, host := { powered.host with portA := PortState.reset, portB := { PortState.reset with up := true } } }
     goes (exec (.takeover .b 1) s) (fun t => t.host.portBActive && t.host.portB.result == 1) = true
     ∧ goes (exec (.takeover .b 1) { s with now := 99999 }) (fun t => !t.host.portBActive && t.host.portB.result == 2) = true)
    ∧ goes (exec (.takeover .a 1) powered) (fun t => t.host.portA.result == 3) = true
    ∧ goes (exec (.hostReset .a .hot) powered) (fun t => !t.host.usable && t.host.portA.up) = true
    ∧ goes (exec (.pcieLinkUp .b 16 6) powered) (fun t => t.host.portB.up && t.host.portB.width == 16) = true
    ∧ goes (exec (.pcieLinkUp .b 16 6) { powered with pwr := { powered.pwr with step := 4 } }) (fun t => !t.host.portB.up) = true := by decide +kernel

theorem witness_Registers :
    powered.served = true ∧ State.reset.served = false ∧ (0xFFFF : Nat) < 0x1_0000 ∧ (0xFF : Nat) < 0x100
    ∧ ((ringed 0).host.ring 0).enable = true ∧ (8 : Nat) < 9
    ∧ powered.host.aperture.toNat + 0 + 1 ≤ powered.layoutEnd
    ∧ powered.layoutEnd < (powered.modHost fun h => { h with aperture := BitVec.ofNat 64 powered.layoutEnd }).host.aperture.toNat + 0 + 1
    ∧ powered.mc.up = true ∧ (powered.modHost fun h => h.setGate .logPage (.closing 0)).host.gate .logPage = .closing 0
    ∧ (powered.gateTicks = 256 ∧ 0 + 256 ≤ { powered with now := 256 }.now ∧ { powered with now := 255 }.now < 0 + 256)
    ∧ (powered.modClk fun c => { c with locked := [.sb] }).gateTicks = 64 ∧ powered.host.gate .logPage ≠ .opened
    ∧ powered.mc.up = true ∧ (0xFFFFFFFFF + 1 ≤ 2 ^ 36 ∧ 2 ^ 36 < 2 ^ 36 + [(0 : Byte)].length) := by decide +kernel

/-- CAD_EVENTS are cleared by ones; a ring's base bytes, and a ring enabled keeps them; CADENCE_LO latches (R251, R318). -/
theorem test_registers :
    ((powered.modCad fun c => { c with events := 0x7F }).writeBar0 0x2_010C [0x05]).cad.events = 0x7A
    ∧ (powered.writeBar0 0x1_0100 [0x00, 0x30]).host.ring 0 = { RingRegs.reset 0 with base := 0x3000 }
    ∧ goes (exec .cadenceLoRead (powered.modCad fun c => { c with frame := 0x1_0000, tick := 5 })) (fun t =>
        t.host.readData == some [5, 0, 0, 0] && t.cad.hiLatch == 0x100) = true
    ∧ goes (exec (.periphEnableWrite none 2 []) powered) (fun t => t.host.gate .logPage == .opened && t.host.gate .tracePage == .closed) = true
    ∧ goes (exec (.gateForced .logPage .host) ({ powered with now := 256 }.modHost fun h => h.setGate .logPage (.closing 0))) (fun t =>
        t.host.gate .logPage == .closed && t.host.readData == none) = true
    ∧ goes (exec (.gateForced .logPage .host) ({ powered with now := 255 }.modHost fun h => h.setGate .logPage (.closing 0))) (fun t =>
        t.host.gate .logPage == .closing 0) = true := by decide +kernel

/-- The status header, an event record, the reserved bits of a TAKEOVER read and a closed page (R6, R308, R311, R312, R321). -/
theorem test_bar0 :
    (List.range 4).map (fun i => powered.bar0Byte (0x2_0000 + i)) = [0xB1, 0, 0x04, 0]
    ∧ (List.range 4).map (fun i => (powered.modHost fun h => { h with records := [{ event0 with seq := 513 }] }).bar0Byte (0x2_8040 + i))
      = [0x18, 0x04, 0xFF, 0]
    ∧ (powered.modHost fun h => { h with portA := { h.portA with result := 3 } }).takeoverRead .a = 6
    ∧ powered.bar0Read 0x5_0000 4 = none
    ∧ (powered.modHost fun h => h.setGate .logPage .opened).bar0Read 0x5_0010 2 = some [0, 0] := by decide +kernel

/-! ### Witnesses: steps and the fabric -/

/-- The counter VALID at tick 5 of frame 2; the step is to be released at tick 5, one frame after frame 1. -/
def releasable (s : State := running) : State :=
  ((s.dramWrite 0x101000 (leBytes 16 (0x130 + 2 ^ 16 * 5 + 2 ^ 40 * 1))).modCad fun c => { c with valid := true, frame := 2, tick := 5 }).modCore 0
    fun k => { k with needle := { k.needle with lastFrame := 1 } }

theorem witness_StepReleases :
    let s := releasable
    s.prog.active = some img ∧ s.prog.phase = .steps ∧ s.prog.released = false ∧ s.cad.hold = false ∧ s.clk.lost = false
    ∧ s.clk.returning = false ∧ s.prog.recovering = false ∧ s.inputMissing = false
    ∧ s.releaseNow? img 0 = some false ∧ (s.modCad fun c => { c with frame := 3 }).releaseNow? img 0 = some true
    ∧ (s.modCad fun c => { c with frame := 1 }).releaseNow? img 0 = none ∧ s.cad.tick.toNat = (s.releaseWord img 0).1
    ∧ (s.core 0).needle.released = false ∧ (0 : CoreId).val < img.cores
    ∧ s.replaying = false ∧ s.cad.valid = true ∧ s.cad.resumeFrame = none ∧ s.fab.untimed = false ∧ s.fab.cover = false
    ∧ s.prog.discards = 0 ∧ s.pwr.main = true ∧ s.wakePassed img [0] 0 = true := by decide +kernel

theorem witness_allAwake : ∀ c : CoreId, (releasable.core c).asleep = false := by decide +kernel

/-- The first core released, and the one that ends the frame RESUME named; untimed and late; a replay after a recovery. -/
theorem witness_releaseKinds :
    (let s := releasable.modProg fun p => { p with startedRel := true }
     s.prog.startedRel = true ∧ releasable.prog.startedRel = false ∧ releasable.prog.handle = none)
    ∧ (releasable.modFab fun f => { f with untimed := true }).fab.untimed = true
    ∧ (let s := (releasable.modCad fun c => { c with resumeFrame := some 2 }).modProg fun p => { p with recovering := true, replayTo := some 9 }
       s.replaying = true ∧ s.releaseNow? img 0 = some true)
    ∧ (releasable.modCad fun c => { c with hold := true }).cad.hold = true := by decide +kernel

theorem test_stepRelease :
    goes (exec .stepRelease releasable) (fun t => t.prog.released && t.prog.lastFrame == 2 && (t.core 0).needle.lastFrame == 2 && (t.core 0).needle.sect == .cold
      && t.host.records.isEmpty) = true
    ∧ goes (exec .stepRelease (releasable.modCad fun c => { c with frame := 3 })) (fun t =>
        (t.host.records.map (·.code)) == [0x302]) = true
    ∧ goes (exec .coreWake ((releasable).modCore 0 fun k => { k with asleep := true })) (fun t => !(t.core 0).asleep) = true := by
  decide +kernel

def retiredCore (k : Core) : Core := { k with needle := { k.needle with sect := .done, retired := true, released := true } }
def boundary : State := ((running.modProg fun p => { p with released := true, step := 7 })).modCore 0 retiredCore

theorem witness_StepBoundaries :
    boundary.prog.active = some img ∧ img.direct = false ∧ boundary.prog.phase = .steps ∧ boundary.prog.released = true
    ∧ boundary.cad.hold = false ∧ boundary.clk.lost = false ∧ boundary.clk.returning = false ∧ boundary.stepComplete img = true
    ∧ img.bounds.devices = 1 ∧ boundary.faulted img = false ∧ (boundary.fault 0x10 0).faulted img = true ∧ boundary.waitingSet img = none
    ∧ boundary.prog.replayTo = none ∧ retiring boundary.prog.faults [] = [] ∧ (2 : Nat) < 3
    ∧ running.stepComplete img = false
    ∧ (boundary.modProg fun p => { p with phase := .prologue }).prog.phase = .prologue
    ∧ (boundary.core 0).needle.sect = .done ∧ (boundary.core 0).quietSignals = true := by decide +kernel

/-- Set 0 with a period of one step: its copy is due while its shipment is under way. -/
def shippingBoundary : State :=
  ((boundary.dramWrite 0x10FC00 (leBytes 64 1)).dramWrite 0x10FC40 (leBytes 16 (2 ^ 56))).modProg fun p =>
    { p with active := some { img with regionOff := 0xFC00 }, snaps := [⟨0, false⟩], shipping := [(0, 3)] }
theorem witness_waitingSet :
    shippingBoundary.waitingSet { img with regionOff := 0xFC00 } = some 0
    ∧ shippingBoundary.stepComplete { img with regionOff := 0xFC00 } = true
    ∧ shippingBoundary.faulted { img with regionOff := 0xFC00 } = false
    ∧ goes (exec .stepBoundary shippingBoundary) (fun t => t.prog.checkpointWait && t.prog.step == 7) = true := by decide +kernel

/-- A domain of two devices whose votes have come, or not. -/
def img2 : Image := { img with bounds := { img.bounds with devices := 2 } }
def vote (r : BitVec 10) (fault : Bool := false) : Vote := { rank := r, step := 7, frame := 0, fault := fault, failed := [] }
theorem witness_voteComplete :
    1 < img2.bounds.devices ∧ (boundary.modCad fun c => { c with votes := [vote 0, vote 1] }).voteComplete img2 = true
    ∧ (boundary.modCad fun c => { c with votes := [vote 0] }).voteComplete img2 = false
    ∧ (boundary.modCad fun c => { c with votes := [vote 0, vote 1 true] }).faulted img2 = true := by decide +kernel

theorem test_stepBoundary :
    goes (exec .stepBoundary boundary) (fun t => t.prog.step == 8 && t.prog.committed == some 7 && !t.prog.released) = true
    ∧ goes (exec .stepBoundary (boundary.fault 0x10 0)) (fun t => t.prog.step == 7 && t.prog.discards == 1 && t.prog.committed == none) = true
    ∧ goes (exec .stepBoundary (boundary.modProg fun p => { p with phase := .prologue })) (fun t =>
        t.prog.phase == .steps && (t.core 0).needle.sect == .cold) = true := by decide +kernel

/-- A slot table at offset 0x800 without links or paths; slot 0 as given, one forward entry. -/
def simg : Image := { img with slotOff := 0x800 }
def slotted (e f : Nat) : State :=
  ((((running.modProg fun p => { p with active := some simg, released := true }).dramWrite 0x100804 [1]).dramWrite 0x100840
    (leBytes 32 e)).dramWrite 0x102840 (leBytes 32 f)).modLink 0 fun k => { k with phase := .up }
/-- A copy of one flit on lane 0 at tick 0 after the release, transfer 9. -/
def slot0 : Nat := 1 + 2 ^ 16 * 9 + 2 ^ 80 * 1
/-- Lane 0 to lane 0, transfer 9. -/
def forward0 : Nat := 2 ^ 16 * 9
/-- A flit of kind 1 and transfer 9 with its CRC. -/
def flitOf (x : Nat) : Flit := { bits := BitVec.ofNat 512 (x + 2 ^ 480 * crc32 (leBytes 60 x)), fecBad := false }
def sched0 : Transfer := { header := flitOf (1 + 2 ^ 64 * 9 + 2 ^ 96 * 1), data := [⟨0xAB, false⟩] }
/-- A transfer 9 that has taken 63 hops. -/
def sched63 (src : Nat) : Transfer := { header := flitOf (1 + 2 ^ 8 * src + 2 ^ 40 * 63 + 2 ^ 64 * 9 + 2 ^ 96 * 1), data := [⟨0xAB, false⟩] }
def sendWord : Nat × Bool × Nat × Byte × Bool × Nat := (0, false, 0x200000, 1, false, 0)

def sending : State := (slotted slot0 forward0).modCore 0 fun k => { k with fabricQ := [sendWord] }
def receiving : State := (slotted slot0 forward0).modFab fun f => { f with receiving := [(0, 0x200000, 1, 0)] }

theorem witness_FabricSlots :
    (sending.prog.active = some simg ∧ simg.direct = false ∧ simg.slotOff ≠ 0 ∧ sending.prog.phase = .steps ∧ sending.prog.released = true)
    ∧ (xKind (sending.slotEntry simg 0) ≠ 0 ∧ xOp (sending.slotEntry simg 0) = 0
      ∧ sending.prog.releaseNow + sending.openOffset simg (sending.slotEntry simg 0) ≤ sending.now ∧ sending.slotFree = false
      ∧ (sending.slotWord simg 0).map (·.1) = some 0 ∧ (receiving.slotWord simg 0).isNone = true
      ∧ 0x200000 + 64 * xFlits (sending.slotEntry simg 0) ≤ dramBytes)
    ∧ ((receiving.link 0).phase = .up ∧ headerGood sched0.header = true ∧ hKind sched0.header.bits.toNat = 1
      ∧ hTransfer sched0.header.bits.toNat / 65536 = receiving.prog.step.toNat % 65536
      ∧ receiving.receiveFor simg 0 sched0 = some (0, 0x200000, 1, 0) ∧ transferGood sched0 = true
      ∧ hLength sched0.header.bits.toNat = xFlits (sending.slotEntry simg 0) ∧ transferGood { sched0 with data := [] } = false
      ∧ sending.receiveFor simg 0 sched0 = none) := by decide +kernel

theorem witness_forwardSlots :
    sending.forwardFor simg 0 9 = some forward0 ∧ sending.forwardFor simg 0 8 = none ∧ sending.forwardFor simg 1 9 = none
    ∧ (sending.link 63).phase ≠ .up ∧ hHops sched0.header.bits.toNat ≠ 63 := by decide +kernel

theorem test_fabricSlots :
    goes (exec (.fabricSlotOpen 0) ((slotted slot0 forward0).modCore 0 fun k => { k with fabricQ := [sendWord] })) (fun t =>
      (t.core 0).fabricQ.isEmpty && t.fab.sent.length == 1 && ((t.core 0).doneSignals.map (·.id)) == [1]) = true
    ∧ goes (exec (.fabricSlotOpen 0) (slotted slot0 forward0)) (fun t => t.fab.openSlots == [0]) = true
    ∧ goes (exec (.schedTransfer 0 sched0) ((slotted slot0 forward0).modFab fun f => { f with receiving := [(0, 0x200000, 1, 0)] }))
        (fun t => t.dramNat 0x200000 1 == 0xAB && t.fab.receiving.isEmpty && t.prog.faults.isEmpty) = true
    ∧ goes (exec (.schedTransfer 0 { sched0 with data := [] }) ((slotted slot0 forward0).modFab fun f =>
        { f with receiving := [(0, 0x200000, 1, 0)] })) (fun t => (t.prog.faults.map (·.cause)) == [0x11]) = true := by
  decide +kernel

theorem test_forward :
    goes (exec (.forward 0 sched0.header sched0.data) (slotted slot0 forward0)) (fun t =>
      (t.fab.sent.map fun m => (m.lane, hHops m.header.toNat)) == [(some 0, 1)] && t.prog.faults.isEmpty) = true
    ∧ goes (exec (.forward 0 sched0.header sched0.data) { slotted slot0 forward0 with now := 100 }) (fun t => t.fab.sent.isEmpty && t.prog.faults.length == 1) = true
    ∧ goes (exec (.forward 0 (sched63 0).header (sched63 0).data) (slotted slot0 forward0)) (fun t =>
        (t.fab.sent.map (·.body)) == [.refuse 2] && t.prog.faults.length == 1) = true
    ∧ goes (exec (.schedTransfer 0 (sched63 0)) receiving) (fun t =>
        (t.fab.sent.map (·.body)) == [.refuse 2] && t.prog.faults.length == 1 && t.fab.receiving.length == 1) = true := by
  decide +kernel

/-- The end of device memory: a scheduled copy from its last byte on faults by name (R14, R155). -/
theorem test_absentMemory :
    (match exec (.fabricSlotOpen 0) ((slotted slot0 forward0).modCore 0 fun k =>
        { k with fabricQ := [(0, false, 1280 * 2 ^ 30 - 1, 1, false, 0)] }) with
      | .fault (.absentMemory a) => a == 1280 * 2 ^ 30 + 63
      | _ => false) = true := by decide +kernel

/-- A node 0x0405 with lane 0 up; dynamic headers of kind 2 to it, to a node beyond, and after 63 hops. -/
def noded : State :=
  (powered.modFab fun f => { f with nodeId := 0x405, idSource := 0 }).modLink 0 fun k => { k with phase := .up }
def dyn (dst hops : Nat) : Transfer := { header := flitOf (2 + 2 ^ 8 * 7 + 2 ^ 24 * dst + 2 ^ 40 * hops + 2 ^ 64 * 5), data := [] }
def out0 (i : Initiator) (sends : Nat := 1) (escape : Bool := false) (m : Msg := .bytes [1]) : DynOut :=
  { seq := 5, dst := 7, lane := some 0, sends := sends, escape := escape, initiator := i, body := m }
def owing (o : DynOut) : State := noded.modFab fun f => { f with outstanding := [o] }

theorem witness_DynamicTransfers :
    noded.pwr.main = true ∧ (noded.link 0).phase = .up ∧ noded.clk.lost = false ∧ transferGood (dyn 0x405 0) = true
    ∧ hKind (dyn 0x405 0).header.bits.toNat = 2 ∧ hDst (dyn 0x405 0).header.bits.toNat = noded.fab.nodeId.toNat
    ∧ hDst (dyn 0x409 63).header.bits.toNat ≠ noded.fab.nodeId.toNat ∧ hHops (dyn 0x409 63).header.bits.toNat = 63
    ∧ hHops (dyn 0x409 62).header.bits.toNat ≠ 63
    ∧ noded.fab.transfer 5 = none ∧ (owing (out0 .device)).fab.transfer 5 = some (out0 .device) ∧ (8 : Nat) ≤ (out0 .device 8).sends := by
  decide +kernel

theorem test_dynamicTransfers :
    goes (exec (.dynTransfer 0 (dyn 0x409 62)) noded) (fun t =>
      (t.fab.sent.map (·.body)) == [.passed] && (t.fab.escapeWait.map fun e => (e.vc, e.src, e.dst, e.seq)) == [(3, 7, 0x409, 5)]) = true
    ∧ goes (exec (.dynTransfer 0 (dyn 0x409 63)) noded) (fun t => t.fab.sent.map (·.body) == [.refuse 2]) = true
    ∧ goes (exec (.ackMsg 5) (owing (out0 (.record 3) 1 false (.record 3 [])))) (fun t => t.fab.outstanding.isEmpty && t.fab.mirrored == some 3) = true
    ∧ goes (exec (.refuseMsg 5 2) (owing (out0 .device))) (fun t => (t.host.records.map (·.code)) == [0x414]) = true
    ∧ goes (exec (.resendTimeout 5) (owing (out0 .device 7))) (fun t => (t.fab.outstanding.map (·.sends)) == [8] && t.fab.sent.length == 1) = true
    ∧ goes (exec (.resendTimeout 5) (owing (out0 .device 8))) (fun t => t.fab.outstanding.isEmpty) = true := by
  decide +kernel

def lanePhase (p : LinkPhase) : State := noded.modLink 0 fun k => { k with phase := p }
/-- A partner record of node 0x409, serial 77, level 3. -/
def record (node level budget : Nat) : Flit := flitOf (7 + 2 ^ 16 * node + 2 ^ 40 * level + 2 ^ 64 * 77 + 2 ^ 160 * budget)

theorem witness_LinkBringUp :
    let good := record 0x409 3 256
    let bad := fun (f : Flit) => f.fecBad = true ∨ flitCrcOk f.bits.toNat = false ∨ partnerReserved f.bits.toNat = false
    noded.pwr.main = true ∧ (∀ p ∈ [LinkPhase.negotiating, .training, .locking, .records, .timing, .joining, .failed, .refused],
      ((lanePhase p).link 0).phase = p)
    ∧ fld good.bits.toNat 0 4 = 7 ∧ ¬ bad good ∧ bad { good with bits := good.bits + 2 ^ 64 } ∧ 3 ≤ prLevel good.bits.toNat
    ∧ prLevel (record 0x409 2 256).bits.toNat < 3 ∧ prNode (record 0x405 3 256).bits.toNat = noded.fab.nodeId.toNat
    ∧ nodeDomain 0x409 = nodeDomain noded.fab.nodeId.toNat ∧ prBudget good.bits.toNat = noded.skewBudget
    ∧ prBudget (record 0x409 3 255).bits.toNat ≠ noded.skewBudget
    ∧ prSerial good.bits.toNat ≠ prSerial (noded.link 0).record.toNat
    ∧ ¬ (4280 < 4280) ∧ ¬ (3720 < 3720) := by decide +kernel

theorem test_linkBringUp :
    goes (exec (.pcsBlockLock 0 true) (lanePhase .locking)) (fun t => (t.link 0).phase == .records && (t.fab.sent.map fun m => (m.lane, m.body)) == [(some 0, .partner)]) = true
    ∧ goes (exec (.partner 0 (record 0x409 3 256)) (lanePhase .records)) (fun t =>
        (t.link 0).phase == .timing && (t.link 0).partner == 0x409) = true
    ∧ goes (exec (.partner 0 (record 0x409 2 256)) (lanePhase .records)) (fun t =>
        (t.link 0).phase == .refused && (t.host.records.map (·.items)) == [[0, 2]]) = true
    ∧ goes (exec (.linkRetry 0) (lanePhase .failed)) (fun t => (t.link 0).phase == .negotiating) = true
    ∧ goes (exec (.autoNegotiation 0 false) (lanePhase .negotiating)) (fun t => (t.link 0).phase == .failed) = true := by decide +kernel

/-- Lane 0 in phase 5 with 256 exchanges of one round trip in 0.1 ns, the partner's fixed delays being 38.0 and 148.0 ns. -/
def exchanged (rt : Int) (n : Nat := 256) : State :=
  (lanePhase .timing).modLink 0 fun k =>
    { k with samples := List.replicate n (0, rt), record := BitVec.ofNat 512 (2 ^ 128 * 380 + 2 ^ 144 * 1480) }

/-- A round trip of 427.5 ns, with which the link comes up; 428.1 and 371.9 ns lie outside (R275, R276). -/
theorem witness_timingExchange :
    ((exchanged 4275).link 0).samples.length = 256 ∧ ((exchanged 4275 255).link 0).samples.length ≠ 256
    ∧ ((exchanged 4275).link 0).roundTrip = 4275 ∧ ((exchanged 4281).link 0).roundTrip = 4281 ∧ ((exchanged 3719).link 0).roundTrip = 3719
    ∧ ¬ (4275 < (3720 : Int)) := by decide +kernel

theorem test_timingExchange :
    goes (exec (.timingExchangeDone 0 true) (exchanged 4281)) (fun t =>
      (t.link 0).phase == .refused && (t.host.records.map (·.items)) == [[0, 5]]) = true
    ∧ goes (exec (.timingExchangeDone 0 true) (exchanged 3719)) (fun t => (t.link 0).phase == .failed) = true
    ∧ goes (exec (.timingExchangeDone 0 false) (exchanged 4275 3)) (fun t => (t.link 0).phase == .failed) = true := by decide +kernel

/-- A transfer of this node, or one passing through, that waits on lane 0. -/
def waiting (vc : BitVec 2) (transit : Option Transfer := none) (s : State := owing (out0 .device)) : State :=
  s.modLink 0 fun k => { k with tx := [{ vc := vc, timed := false, src := 0x405, dst := 7, seq := 5, flits := 2, transit := transit }] }
def wait0 (vc : BitVec 2) (transit : Option Transfer := none) : TxEntry :=
  { vc := vc, timed := false, src := 0x405, dst := 7, seq := 5, flits := 2, transit := transit }

theorem witness_waiting :
    (waiting 1).waitingOn 0x405 5 false = some (some 0, wait0 1) ∧ (waiting 1).waitingOn 0x405 5 true = none
    ∧ (waiting 3).waitingOn 0x405 5 true = some (some 0, wait0 3) ∧ (waiting 3).waitingOn 0x405 5 false = none
    ∧ (waiting 1 (some (dyn 0x409 0))).waitingOn 0x405 5 false = some (some 0, wait0 1 (some (dyn 0x409 0)))
    ∧ (waiting 3 (some (dyn 0x409 0))).waitingOn 0x405 5 true = some (some 0, wait0 3 (some (dyn 0x409 0))) := by decide +kernel

theorem test_waiting :
    goes (exec (.creditWaitTimeout ⟨0x405, 5⟩) (waiting 1)) (fun t =>
      (t.fab.outstanding.map (·.escape)) == [true] && (t.fab.sent.map (·.vc)) == [3] && (t.link 0).tx.isEmpty) = true
    ∧ goes (exec (.escapeTimeout ⟨0x405, 5⟩) (waiting 3)) (fun t =>
        t.fab.outstanding.isEmpty && (t.host.records.map (·.code)) == [0x414]) = true
    ∧ goes (exec (.escapeTimeout ⟨0x405, 5⟩) (waiting 3 (some (dyn 0x409 0)))) (fun t =>
        t.fab.outstanding.length == 1 && (t.fab.sent.map (·.body)) == [.refuse 1]) = true := by decide +kernel

def advert (node serial : Nat) (sequence : Nat := 1) : Advert :=
  { node := BitVec.ofNat 16 node, idSource := 0, serial := BitVec.ofNat 64 serial, ifLevel := 3, aligned := false, links := [],
    programs := [], bindings := [], spareStore := 0, sequence := BitVec.ofNat 32 sequence }

theorem witness_RoutingAndIdentity :
    noded.pwr.main = true ∧ (noded.link 0).phase = .up ∧ noded.clk.lost = false ∧ (advert 0x409 77).serial ≠ noded.serial
    ∧ (advert 0x405 77).node = noded.fab.nodeId ∧ noded.fab.idSource ≠ 2 ∧ (advert 0x405 77).idSource ≠ 2
    ∧ noded.fab.adverts.find? (fun p => p.1.node = 0x409) = none
    ∧ newer 2 1 = true ∧ newer 1 2 = false ∧ newer 0 0xFFFF_FFFF = true
    ∧ (∃ p ∈ [(advert 0x409 77, 0)], p.1.node = 0x409 ∧ p.2 + 300000000 ≤ 300000000)
    ∧ (∀ p ∈ [(advert 0x409 77, 0)], p.1.node = 0x409 → 299999999 < p.2 + 300000000)
    ∧ (noded.modFab fun f => { f with rebuilding := true }).fab.rebuilding = true ∧ noded.fab.rebuilding = false
    ∧ powered.fab.nodeId = 0xFFFF ∧ powered.pwr.standby = true ∧ State.reset.pwr.standby = false := by decide +kernel

theorem test_identity :
    goes (exec .hashedNodeId powered) (fun t => t.fab.nodeId.toNat / 1024 == 63 && t.fab.idSource == 1) = true
    ∧ goes (exec .advertisementPeriod noded) (fun t => t.fab.advSeq == 1 && t.fab.sent.length == 1) = true := by decide +kernel

/-! ### Witnesses: the cadence, votes, repair, mirrors -/

/-- The counter VALID in frame 9 with the received-mark count given. -/
def counting (rx : Nat) : State :=
  powered.modCad fun c => { c with valid := true, frame := 9, rxTick := BitVec.ofNat 24 rx, tick := BitVec.ofNat 24 rx }
/-- A SYNC flit of frame 8 from the parent's side, offset -3, trim 40: an exchange come back with t1 to t3, or one begun. -/
def sync0 : Flit := flitOf (6 + 2 ^ 4 + 2 ^ 128 * 1000 + 2 ^ 160 * 1100 + 2 ^ 192 * 2000 + 2 ^ 224 * 40 + 2 ^ 256 * 8 + 2 ^ 296 * 0xFFFF_FFFD)
def syncAsk : Flit := flitOf (6 + 2 ^ 4 + 2 ^ 128 * 100 + 2 ^ 224 * 40 + 2 ^ 256 * 8 + 2 ^ 296 * 0xFFFF_FFFD)

theorem witness_FrameMarks :
    powered.marksCount = true ∧ State.reset.marksCount = false ∧ powered.cad.valid = false ∧ (counting 0).cad.valid = true
    ∧ (counting 99999).cad.rxTick.toNat < 100000 ∧ 100000 ≤ (counting 100000).cad.rxTick.toNat
    ∧ (counting 0).profileMin = 1960000 ∧ (counting 0).profileMax = 2041000
    ∧ (counting 15999999).cad.rxTick.toNat < 16000000 ∧ 16000000 ≤ (counting 16000000).cad.rxTick.toNat
    ∧ powered.cad.markPending = false ∧ (counting 4).cad.trim.toNat / 16 ≤ (counting 4).cad.rxTick.toNat
    ∧ syncGood sync0 = true ∧ syncGood { sync0 with fecBad := true } = false ∧ noded.pwr.main = true ∧ (noded.link 0).phase = .up
    ∧ noded.isRoot = true ∧ powered.prog.active = none ∧ noded.clk.lost = false
    ∧ (fld sync0.bits.toNat 160 32 ≠ 0 ∧ fld syncAsk.bits.toNat 160 32 = 0 ∧ fld syncAsk.bits.toNat 192 32 = 0) := by decide +kernel

/-- The exchange of R257: t1 1,000, t2 1,100, t3 2,000, t4 2,036 give twice -32 and a round trip of 136, whatever their unit. -/
theorem test_cadenceSync :
    goes (exec (.cadenceSync 0 sync0 2036) noded) (fun t => (t.link 0).samples == [(-64, 136)] && (t.link 0).peerOffset == -3) = true
    ∧ goes (exec (.cadenceSync 0 syncAsk 780) noded) (fun t => (t.fab.sent.map (·.body)) == [.sync] && (t.link 0).samples == []) = true := by
  decide +kernel

theorem test_frameMarks :
    goes (exec .frameMark (counting 99999)) (fun t => t.cad.rxTick == 99999 && t.cad.events == 8 && (t.host.records.map (·.code)) == [0x40B])
      = true
    ∧ goes (exec .frameMark (counting 1959999)) (fun t => t.cad.rxTick == 0 && t.cad.events == 1 && t.cad.markPending
        && (t.cad.ring.map fun e => (e.length.toNat, e.short)) == [(1959999, true)]) = true
    ∧ goes (exec .frameMark (counting 2041000)) (fun t => t.cad.events == 0) = true
    ∧ goes (exec .frameMark (counting 2041001)) (fun t => t.cad.events == 2) = true
    ∧ goes (exec .markMissing (counting 16000000)) (fun t => t.cad.events == 6 && t.cad.lastLen.toNat == 16000000) = true
    ∧ goes (exec .effectiveMark ((counting 4).modCad fun c => { c with markPending := true, aligned := true })) (fun t =>
        t.cad.frame == 10 && t.cad.tick == 4 && !t.cad.markPending) = true := by decide +kernel

/-- A program of two devices; this one is rank 0 on node 0x405, rank 1 is on node 0x409. -/
def pair : Image := { img with bounds := { img.bounds with devices := 2 } }
def paired (released : Bool := true) : State :=
  ((running.modProg fun p => { p with active := some pair, released := released }).modFab fun f =>
    { f with nodeId := 0x405, idSource := 0, rankNode := [(1, 0x409)] })
def voteFrom (r : BitVec 10) : Vote := { rank := r, step := 0, frame := 0, fault := false, failed := [] }

theorem witness_VotesAndHold :
    running.domainProgram = none ∧ (paired).domainProgram = some pair ∧ (paired).prog.released = true
    ∧ (voteFrom 1).rank.toNat < pair.bounds.devices ∧ (voteFrom 1).rank ≠ pair.bounds.rank ∧ (paired).replaying = false
    ∧ pair.bounds.devices ≤ (voteFrom 2).rank.toNat ∧ (voteFrom 0).rank = pair.bounds.rank
    ∧ (paired).cad.hold = false ∧ (paired).isProgramRoot = true ∧ (paired).voteComplete pair = false
    ∧ (paired).prog.releaseNow + (paired).worstLength pair ≤ { paired with now := 1000 }.now
    ∧ ¬ ((paired).prog.releaseNow + (paired).worstLength pair ≤ { paired with now := 999 }.now)
    ∧ (paired).restoring = false ∧ (paired).fab.cover = false ∧ 0 < (paired).holdTimeout ∧ (paired).holdTimeout = 500
    ∧ (paired).fab.rankNode.find? (fun x => x.1 = 1) = some (1, 0x409) ∧ (1 : BitVec 10) ∉ (paired).fab.lost
    ∧ (paired).recoverable 0x409 = false
    ∧ ((paired).modFab fun f => { f with rankNode := [(1, 0x404)] }).isProgramRoot = false := by decide +kernel

theorem test_votesAndHold :
    goes (exec (.boundaryVote (voteFrom 1)) (paired)) (fun t => t.cad.votes == [voteFrom 1]) = true
    ∧ goes (exec (.boundaryVote (voteFrom 0)) (paired)) (fun t => t.cad.votes == []) = true
    ∧ goes (exec .holdDeadline { paired with now := 1000 }) (fun t => t.cad.hold && (t.fab.sent.map (·.body)) == [.hold]) = true
    ∧ goes (exec .holdDeadline { paired with now := 999 }) (fun t => !t.cad.hold) = true
    ∧ goes (exec (.resumeMsg 12) ((paired).modCad fun c => { c with hold := true })) (fun t =>
        !t.cad.hold && t.cad.resumeFrame == some 12) = true
    ∧ goes (exec .holdTimeout ((paired).modCad fun c => { c with hold := true, holdFrames := 500 })) (fun t =>
        t.prog.active.isNone && t.fab.lost.isEmpty == false) = true := by decide +kernel

theorem witness_ScrubAndRepair :
    powered.pwr.main = true ∧ (powered.site 48).role = .guard ∧ powered.coreAt 48 = none ∧ powered.coreAt 0 = some 0
    ∧ (powered.site 0).deepSleep = false ∧ 262143 < coreMemSize .endpaper ∧ coreMemSize .endpaper ≤ 262144
    ∧ powered.clk.lost = false ∧ powered.clk.returning = false ∧ (powered.site 0).role ≠ .retired ∧ powered.marksAt 0 = []
    ∧ (powered.modSite 0 fun x => { x with role := .retired }).site 0 ≠ powered.site 0
    ∧ (powered.stack 0).state = .service ∧ ((powered.modStack 0 fun x => { x with selfRefresh := false }).stack 0).selfRefresh = false := by
  decide +kernel

def rowed (r : DramRow) (used : List (Nat × Nat) := []) : State :=
  powered.modStack 0 fun x => { x with selfRefresh := false, rows := [r], sparesUsed := used }
def row0 (passes : Nat) (cand : Bool) : DramRow := { bank := 3, row := 4, passes := passes, candidate := cand, withdrawn := false }

theorem witness_softRepair :
    ((rowed (row0 3 true)).stack 0).rows.find? (·.candidate) = some (row0 3 true) ∧ ((rowed (row0 3 true)).stack 0).used 3 < 4
    ∧ 4 ≤ ((rowed (row0 3 true) [(3, 4)]).stack 0).used 3 ∧ ((rowed (row0 2 false)).stack 0).rows.find? (·.candidate) = none
    ∧ (let s := powered.modSite 48 fun x => { x with testOk := true, testedAt := 0 }
       ¬ ((s.site 48).testedAt + 360000000000 ≤ 359999999999) ∧ (s.site 48).testedAt + 360000000000 ≤ 360000000000)
    ∧ ((powered.modSite 48 fun x => { x with role := .underTest }).site 48).role = .underTest := by decide +kernel

/-- The row that holds unit 0 of frame 0 lies in frame 0, wherever it lies; its bank has no spare left. -/
theorem frameOfRow_zero : frameOfRow (Config.dramRow 0 0).1 (Config.dramRow 0 0).2 = some 0 := by
  have h : List.range 32768 = 0 :: (List.range 32767).map Nat.succ := List.range_succ_eq_map
  unfold frameOfRow
  rw [h, List.find?_cons_of_pos]
  exact List.any_eq_true.2 ⟨0, by simp, by simp⟩
theorem witness_withdrawn :
    let r := { row0 3 true with bank := (Config.dramRow 0 0).1, row := (Config.dramRow 0 0).2 }
    let s := rowed r [(r.bank, 4)]
    (s.stack 0).rows.find? (·.candidate) = some r ∧ 4 ≤ (s.stack 0).used r.bank ∧ frameOfRow r.bank r.row = some 0
    ∧ 0 ∉ (s.stack 0).withdrawn ∧ 0 ∈ ((s.modStack 0 fun x => { x with withdrawn := [0] }).stack 0).withdrawn := by
  refine ⟨rfl, ?_, frameOfRow_zero, by decide +kernel, by decide +kernel⟩
  show 4 ≤ ((List.find? _ [((Config.dramRow 0 0).1, 4)]).map (·.2)).getD 0
  simp

theorem test_repair :
    goes (exec (.scrubAccess 48 .acc 0 (.corrected 5)) powered) (fun t => (t.site 48).ceAcc == 1 && (t.site 48).ceQuire == 0) = true
    ∧ goes (exec (.dramPatrolScrub 0 3 4 (.corrected 1)) (rowed (row0 2 false))) (fun t =>
        ((t.stack 0).rows.map fun r => (r.passes, r.candidate)) == [(3, true)]) = true
    ∧ goes (exec (.dramPatrolScrub 0 3 4 (.corrected 1)) (rowed (row0 1 false))) (fun t =>
        ((t.stack 0).rows.map fun r => (r.passes, r.candidate)) == [(2, false)]) = true
    ∧ goes (exec (.softRepair 0) (rowed (row0 3 true))) (fun t =>
        (t.stack 0).rows.isEmpty && (t.stack 0).sparesLeft == 4095 && (t.host.records.map (·.code)) == [0x402]) = true
    ∧ goes (exec (.guardTestStart 48) powered) (fun t => (t.site 48).role == .underTest) = true
    ∧ goes (exec (.guardTestDone 48 (some 3)) (powered.modSite 48 fun x => { x with role := .underTest })) (fun t =>
        (t.site 48).role == .retired && (t.host.records.map (·.items)) == [[48, 3]]) = true := by decide +kernel

def stored : State := powered.modFab fun f => { f with store := some (0, 1) }
def protectedBy (n : Nat) : Protected :=
  { node := BitVec.ofNat 16 n, continuous := true, checkpointed := true, cover := 1, units := 1, recordStep := 2, record := [1],
    arriving := [], gens := [], coming := [], states := [(2, [])] }
def measures0 : Measures :=
  { siteTransit := [], stackLat := [], linkLatency := [], linkCable := [], linkFec := [], refPpb := 0, inputMv := 48000, hostErrorAt := none }
def kept0 (n : W64) : Continuous :=
  { step := n, recipe := [], allowance := 0, steer := [], draws := [], groupRecs := [], collation := [], late := [], coldLeft := 0,
    lastCold := false }
/-- Set 63 under way, with a unit still outstanding. -/
def unitOut : DynOut := { seq := 1, dst := 4, lane := none, sends := 1, escape := true, initiator := .mirror, body := .unit 63 2 0 [] }
def shipping63 : State := running.modProg fun p => { p with shipping := [(63, 2)] }

theorem witness_MirrorsAndRecovery :
    stored.pwr.main = true ∧ stored.fab.store.isSome = true ∧ powered.fab.store = none
    ∧ (let s := stored.modFab fun f => { f with protects := [1, 2, 3, 4].map protectedBy }
       (∃ p ∈ s.fab.protects, p.node = 4 ∧ p.continuous = true) ∧ ∀ p ∈ s.fab.protects, p.node = 5 → p.continuous = false)
    ∧ shipping63.prog.shipping.find? (fun x => x.1 = (63 : Fin 64).val) = some (63, 2)
    ∧ shipping63.prog.shipping.find? (fun x => x.1 = (62 : Fin 64).val) = none
    ∧ (∃ o ∈ (shipping63.modFab fun f => { f with outstanding := [unitOut] }).fab.outstanding, o.body.shipment = some (63, 2))
    ∧ (∀ o ∈ shipping63.fab.outstanding, o.body.shipment ≠ some (63, 2))
    ∧ (powered.modHost fun h => { h with surveyRunning := true }).host.surveyRunning = true ∧ powered.clk.lost = false
    ∧ (powered.modPwr fun p => { p with step := 6 }).pwr.step = 6
    ∧ (2 ^ 21) / unitBytes % 20 ≠ (0 : StackId).val ∧ powered.prog.active = none ∧ powered.prog.relocated = none
    ∧ (let s := running.modProg fun p => { p with kept := some (kept0 5), recovering := true, step := 9, replayTo := some 8 }
       s.prog.recovering = true ∧ s.replaying = false ∧ s.prog.kept = some (kept0 5) ∧ img.bounds.devices ≤ 1)
    ∧ leastOf ((paired).otherMembers.map (·.toNat)) = some 0x409
    ∧ (let s := powered.modProg fun p => { p with activating := some h0, staged := some img, peerWaitEnd := 0 }
       s.prog.activating = some h0 ∧ s.prog.peerWaitEnd ≤ s.now) ∧ powered.prog.activating = none := by decide +kernel

/-- A member that holds for a recovery; a standby partner with the state of step 2, of a rank whose image has no region set. -/
def standby1 : State :=
  (powered.modProg fun p => { p with staged := some pair }).modFab fun f => { f with protects := [protectedBy 4], coverFrom := some (2, 4) }
theorem witness_coverBegin :
    (let s := ((paired).modFab fun f => { f with recover := [1], coverFrom := some (2, 4) }).modCad fun c => { c with hold := true }
     s.fab.coverFrom = some (2, 4) ∧ s.domainProgram = some pair ∧ s.cad.hold = true ∧ s.restoring = true)
    ∧ (paired).fab.coverFrom = none ∧ standby1.fab.coverFrom = some (2, 4) ∧ standby1.prog.active = none ∧ standby1.prog.staged = some pair ∧ 1 < pair.bounds.devices
    ∧ standby1.fab.protects.find? (fun p => p.cover = 1) = some (protectedBy 4)
    ∧ standby1.wholeSets pair (protectedBy 4).gens 2 = some [] ∧ (protectedBy 4).states.find? (fun x => x.1 = 2) = some (2, []) := by
  decide +kernel

/-- A covering node, a device that lost a stack, and a module that is rejoining. -/
theorem witness_coverEnd :
    (let s := (paired).modFab fun f => { f with cover := true, covering := [1], recover := [1] }
     s.domainProgram = some pair ∧ s.fab.cover = true ∧ 1 ∈ s.fab.recover ∧ 1 ∈ s.fab.covering ∧ pair.bounds.rank ≠ 1
       ∧ s.prog.recovering = false)
    ∧ (let s := (paired).modFab fun f => { f with cover := true, covering := [0], recover := [0] }
       0 ∈ s.fab.recover ∧ 0 ∈ s.fab.covering ∧ pair.bounds.rank = 0)
    ∧ (let s := ((paired).modFab fun f => { f with seedState := some (2, []) }).modProg fun p => { p with recovering := true }
       s.domainProgram = some pair ∧ s.prog.recovering = true ∧ pair.bounds.rank = 0 ∧ s.shipped? pair = some ([], []))
    ∧ (let s := ((powered.modFab fun f => { f with seeding := some h0, seedState := some (2, []) }).modProg fun p =>
         { p with staged := some img }).modCad fun c => { c with aligned := true }
       s.fab.seeding = some h0 ∧ s.prog.staged = some img ∧ s.prog.active = none ∧ img.bounds.rank = 0 ∧ s.cad.aligned = true
       ∧ s.shipped? img = some ([], []) ∧ s.badLink img (s.peerNodes img) = none ∧ s.canTrim img = true) := by decide +kernel

/-- A record of 40 bytes with its CRC. -/
def record0 : List Byte :=
  let r := leBytes 40 (7 + 2 ^ 192 * 40)
  r.take 36 ++ leBytes 4 (crc32 r)

theorem test_mirrors :
    goes (exec (.continuousRecord 4 7 11 [(0, record0)]) (stored.modFab fun f => { f with protects := [protectedBy 4] })) (fun t =>
      (t.fab.protects.map fun p => (p.recordStep, p.record)) == [(7, record0)] && (t.fab.sent.map (·.body)) == [.ack]) = true
    ∧ goes (exec (.continuousRecord 4 7 11 [(0, record0.set 2 1)]) (stored.modFab fun f => { f with protects := [protectedBy 4] })) (fun t =>
      (t.fab.protects.map fun p => (p.recordStep, p.record)) == [(2, [1])] && t.fab.sent.isEmpty) = true
    ∧ goes (exec (.checkpointComplete 63) shipping63) (fun t =>
        t.prog.shipping.isEmpty && (t.host.records.map (·.code)) == [0x30D]) = true
    ∧ goes (exec (.surveyComplete measures0) ((powered.modHost fun h => { h with surveyRunning := true }).modPwr fun p =>
        { p with step := 6 })) (fun t => t.pwr.step == 7 && t.pwr.surveyed && t.surveySeq == 1) = true
    ∧ goes (exec (.stackLost 3 .phyFailed) powered) (fun t => (t.stack 3).state == .lost && t.dramEpoch[3] == 1 && t.dramEpoch[4] == 0) = true
    ∧ goes (exec .recoveryReplayDone (running.modProg fun p =>
        { p with kept := some (kept0 5), recovering := true, step := 9, replayTo := some 8 })) (fun t =>
        !t.prog.recovering && (t.host.records.map (·.code)) == [0x30C]) = true := by decide +kernel

theorem test_coverBegin :
    goes (exec .coverBegin standby1) (fun t => t.fab.cover && t.fab.covering == [0] && t.prog.replayTo == some 4) = true := by
  decide +kernel

/-! ### The management controller, the sideband, updates, power and start-up -/

def powOff : State := powered.modPwr fun p => { p with main := false, needMainOn := true }
def dieOf (f : Sensor → Sensor) : State := powered.modMc fun m => { m with die := m.die.set 0 (f Sensor.reset) }
def logOne : LogEntry :=
  { seq := 0, utc := 0, cadence := 0, source := 0, severity := 0, utcValid := false, cont := false, code := 0x501, payload := 0, crc := 0 }

theorem witness_ControllersAndLimits :
    powered.binderRuns = true ∧ powered.mcRuns = true ∧ State.reset.mcRuns = false
    ∧ (let s := powered.modHost fun h => { h with binderUp := false }
       s.pwr.main = true ∧ s.host.binderUp = false ∧ 8 ≤ s.pwr.step ∧ s.clk.lost = false)
    ∧ powered.mc.sensor? .die 79 = some Sensor.reset ∧ powered.mc.sensor? .die 80 = none ∧ powered.mc.sensor? .coolantIn 0 = some Sensor.reset
    ∧ warnLimit .die = some 950 ∧ tripLimit .die = some 1100 ∧ tripLimit .stack = some 950 ∧ Sensor.reset.warned = false
    ∧ (dieOf fun x => { x with warned := true }).mc.sensor? .die 0 = some { Sensor.reset with warned := true }
    ∧ (dieOf fun x => { x with fails := 2 }).mc.sensor? .die 0 = some { Sensor.reset with fails := 2 }
    ∧ (dieOf fun x => { x with fails := 3 }).mc.sensor? .die 0 = some { Sensor.reset with fails := 3 }
    ∧ Sensor.reset.fails < 2 ∧ (powered.stack 19).state = .service
    ∧ powered.pwr.shed = [] ∧ 2 < (railOf 22).fitted ∧ (railOf 22).needed = 4 ∧ (railOf 0).needed = 16
    ∧ ({ powered.pwr with shed := [(22, 0)] } : Power).phasesOk 22 = 5
    ∧ ({ powered.pwr with shed := [(22, 1), (22, 0)] } : Power).phasesOk 22 = 4
    ∧ ({ powered.pwr with shed := [(22, 2), (22, 1), (22, 0)] } : Power).phasesOk 22 = 3
    ∧ powered.host.gate .mcFlash = .opened ∧ powered.host.gate .mcTest = .opened ∧ powered.mc.logBuf = []
    ∧ powered.mc.borrowed = none ∧ powered.mc.tested 64 = true ∧ powered.mc.tested 63 = false
    ∧ powered.mc.tested 1983 = true ∧ powered.mc.tested 1984 = false
    ∧ powered.standbyClocks = true ∧ (3 : Fin 6).val < 4 ∧ Sensor.reset.fails < 3 ∧ powOff.pwr.main = false
    ∧ (let s := powOff.modPwr fun p => { p with step := 3 }
       s.pwr.step = 3 ∧ s.pwr.main = false ∧ (19 : Fin 22).val ≠ 20 ∧ (20 : Fin 22).val = 20) := by decide +kernel

theorem test_sensors :
    goes (exec (.sensorRead .die 0 (some { value := 950, mean := 0 })) powered) (fun t => t.host.records.isEmpty) = true
    ∧ goes (exec (.sensorRead .die 0 (some { value := 951, mean := 0 })) powered) (fun t =>
        (t.host.records.map (·.code)) == [0x419] && (t.mc.die[0]).warned) = true
    ∧ goes (exec (.sensorRead .die 0 (some { value := 900, mean := 0 })) (dieOf fun x => { x with warned := true })) (fun t =>
        !(t.mc.die[0]).warned) = true
    ∧ goes (exec (.sensorRead .die 0 (some { value := 901, mean := 0 })) (dieOf fun x => { x with warned := true })) (fun t =>
        (t.mc.die[0]).warned) = true
    ∧ goes (exec (.sensorRead .die 0 none) (dieOf fun x => { x with fails := 2 })) (fun t =>
        (t.mc.die[0]).value == -32768 && (t.host.records.map (·.code)) == [0x41F] && t.pwr.main) = true
    ∧ goes (exec (.thresholdTrip .die 0 { value := 1100, mean := 0 }) powered) (fun t => t.pwr.main) = true
    ∧ goes (exec (.thresholdTrip .die 0 { value := 1101, mean := 0 }) powered) (fun t => !t.pwr.main && t.pwr.needMainOn) = true
    ∧ goes (exec (.thresholdTrip .stack 19 { value := 951, mean := 0 }) powered) (fun t =>
        t.pwr.main && (t.stack 19).state == .lost) = true := by decide +kernel

/-- The save buffer while block 64 is borrowed. -/
def saved : List Byte := List.replicate 256 7

theorem test_controllers :
    goes (exec (.phaseShed 22 2) (powered.modPwr fun p => { p with shed := [(22, 1), (22, 0)] })) (fun t => !t.pwr.main) = true
    ∧ goes (exec (.phaseShed 22 1) (powered.modPwr fun p => { p with shed := [(22, 0)] })) (fun t =>
        t.pwr.main && (t.host.records.map (·.code)) == [0x424, 0x423]) = true
    ∧ goes (exec (.tamperTrigger 1 0) (powered.modMc fun m => m.putKey 5)) (fun t =>
        t.mc.key.isNone && t.mc.tamperCause == 2) = true
    ∧ goes (exec .logFlush (powered.modMc fun m => { m with logBuf := [logOne] })) (fun t =>
        t.mc.logBuf.isEmpty && t.mc.flashLog.length == 1) = true
    ∧ goes (exec (.marchBlockTest 64 true) powered) (fun t =>
        (t.mc.borrowed.map fun b => (b.1, b.2.length)) == some (64, 256)) = true
    ∧ goes (exec (.marchBlockTest 64 false) (powered.modMc fun m => { m with borrowed := some (64, saved) })) (fun t =>
        t.mc.excluded == [64] && (t.host.records.map (·.code)) == [0x420]) = true
    ∧ goes (exec (.borrowedBlockAccess 0x40FF) (powered.modMc fun m => { m with borrowed := some (64, saved) })) (fun t =>
        t.mc.borrowed.isNone && t.sramByte 0x4000 == 7 && t.sramByte 0x40FF == 7 && t.sramByte 0x4100 == 0) = true
    ∧ goes (exec .mcWatchdog powered) (fun t => !t.mc.up && t.mc.restartCause == 1) = true := by decide +kernel

/-! The signature of a request or of an image is judged by an opaque function (log entry 8): the witnesses of an
accepted one take as their hypothesis that it accepts this one. Key 0 has the coordinates 0 and 0. -/

def keyFuses : BitVec 8448 := BitVec.ofNat 8448 ((hashOfKey 0 0).toNat * 2 ^ 256)
def keyed : Mc := { Mc.reset with up := true, fuses := keyFuses }

theorem shifted_toNat (x k s n : Nat) (hx : x < 2 ^ k) (hn : k + s ≤ n) : (BitVec.ofNat n (x * 2 ^ s)).toNat = x * 2 ^ s := by
  rw [BitVec.toNat_ofNat]
  refine Nat.mod_eq_of_lt (Nat.lt_of_lt_of_le (Nat.mul_lt_mul_of_pos_right hx (Nat.two_pow_pos s)) ?_)
  rw [← Nat.pow_add]
  exact Nat.pow_le_pow_right (by decide) hn

theorem fld_below (x s lo w : Nat) (h : lo + w ≤ s) : fld (x * 2 ^ s) lo w = 0 := by
  have e : (2 : Nat) ^ s = 2 ^ (s - lo - w) * 2 ^ w * 2 ^ lo := by
    rw [← Nat.pow_add, ← Nat.pow_add]; congr 1; omega
  rw [fld, e, ← Nat.mul_assoc, Nat.mul_div_cancel _ (Nat.two_pow_pos _), ← Nat.mul_assoc, Nat.mul_mod_left]

theorem fld_shifted (x s w : Nat) (h : x < 2 ^ w) : fld (x * 2 ^ s) s w = x := by
  rw [fld, Nat.mul_div_cancel _ (Nat.two_pow_pos _), Nat.mod_eq_of_lt h]

theorem keyFuses_toNat : keyFuses.toNat = (hashOfKey 0 0).toNat * 2 ^ 256 :=
  shifted_toNat _ 384 _ _ (hashOfKey 0 0).isLt (by decide)

theorem key_low (m : Mc) (hm : m.fuses = keyFuses) (lo w : Nat) (h : lo + w ≤ 256) : m.fuse lo w = 0 := by
  rw [Mc.fuse, hm, keyFuses_toNat]
  exact fld_below _ _ _ _ h

theorem key_allowed (m : Mc) (hm : m.fuses = keyFuses) : m.keyAllowed 0 0 0 = true := by
  have hf : BitVec.ofNat 384 (m.keyHash 0) = hashOfKey 0 0 := by
    rw [Mc.keyHash, Mc.fuse, hm, keyFuses_toNat, Nat.mul_zero, Nat.add_zero, fld_shifted _ _ _ (hashOfKey 0 0).isLt,
      BitVec.ofNat_toNat, BitVec.setWidth_eq]
  simp [Mc.keyAllowed, Mc.lifeCycle, Mc.revoked, key_low m hm, hf, lifeOf]

theorem key_rollback (m : Mc) (hm : m.fuses = keyFuses) : m.rollback = 0 := by rw [Mc.rollback, key_low m hm _ _ (by decide)]; decide

def ask (k : BitVec 4) : SignedRequest :=
  { target := k, serial := 0, nonce := 9, keyIndex := 0, pubX := 0, pubY := 0, sigR := 0, sigS := 0 }
def askDigest (k : Nat) : BitVec 384 := Config.sha384 (leBytes 1 k ++ leBytes 8 0 ++ leBytes 32 9)
def lcState : State := { powOff with mc := { keyed with nonce := some (9, 0) } }

/-- An accepted change to DEPLOYED, an accepted revocation of key 1, a target that is no later state, and a key that signs its own
revocation. -/
theorem witness_lcAccepted (k : BitVec 4) (h : Config.ecdsaVerify 0 0 (askDigest k.toNat) 0 0 = true) :
    lcState.signedBad (ask k) = none ∧ lcState.mc.laterState 3 = true ∧ lcState.mc.laterState 2 = false ∧ lcState.mc.lifeCycle = .manufacture
    ∧ lcState.mc.revoked 1 = false ∧ lcState.mc.revoked 2 = false ∧ lcState.mc.images = [] := by
  have hl := key_low lcState.mc rfl
  have hk := key_allowed lcState.mc rfl
  have hs : lcState.mc.serial = 0 := hl _ _ (by decide)
  have hn : lcState.mc.nonce = some (9, 0) := rfl
  have ht : lcState.now = 0 := rfl
  have hp : lcState.pwr.main = false := rfl
  have hi : lcState.mc.phase = .idle := rfl
  refine ⟨?_, ?_, ?_, ?_, ?_, ?_, rfl⟩
  · simp [askDigest] at h
    simp [State.signedBad, ask, hk, h, hs, hn, ht, hp, hi]
  all_goals simp [Mc.laterState, Mc.lifeCycle, Mc.revoked, hl, lifeOf]

def revokedState : State := powered.modMc fun m => { m with fuses := 256 }

/-- A request signed with a revoked key is refused with the first reason, whatever its signature. -/
theorem witness_SidebandMessages :
    powered.sideband = true ∧ State.reset.sideband = false ∧ powered.sidebandUp = true ∧ powered.mc.sensor? .board 15 = some Sensor.reset
    ∧ revokedState.signedBad (ask 3) = some 1
    ∧ (powered.fab.nodeId = 0x405 ∧ powered.fab.idSource = 0) = False
    ∧ (let s := powered.modFab fun f => { f with nodeId := 0x405, idSource := 0 }
       s.fab.nodeId = BitVec.ofNat 16 (1024 * (1 : Byte).toNat + 16 * (0 : Byte).toNat + (5 : BitVec 4).toNat) ∧ s.fab.idSource = 0)
    ∧ powered.mc.rollback = 0 ∧ powered.mc.images = [] ∧ powered.profileLock = false
    ∧ clockPartOk (8 + 8 * 2 ^ 8 + 16 * 2 ^ 16 + 12 * 2 ^ 24 + 4 * 2 ^ 32 + 5 * 2 ^ 48 + 1450 * 2 ^ 56) = true
    ∧ clockPartOk (8 + 8 * 2 ^ 8 + 16 * 2 ^ 16 + 12 * 2 ^ 24 + 4 * 2 ^ 32 + 5 * 2 ^ 48 + 1501 * 2 ^ 56) = false
    ∧ (powered.modMc fun m => { m with spdm := 3 }).sideband = true ∧ powered.mc.spdm = 0
    ∧ (powered.modMc fun m => m.putKey 5).mc.signer = some 5 ∧ powered.mc.signer = none := by
  refine ⟨by decide +kernel, by decide +kernel, by decide +kernel, by decide +kernel, ?_, ?_⟩
  · have hr : revokedState.mc.revoked 0 = true := by decide +kernel
    simp [State.signedBad, Mc.keyAllowed, ask, hr]
  · decide +kernel

theorem test_sideband :
    goes (exec (.shelfRecord 1 63 5) powered) (fun t => t.fab.nodeId.toNat == 1024 + 16 * 63 + 5 && t.fab.idSource == 0) = true
    ∧ goes (exec (.shelfRecord 63 0 5) powered) (fun t => t.fab == powered.fab) = true
    ∧ goes (exec (.shelfRecord 1 0 5) running) (fun t => t.fab.shelfWaiting == some 0x405 && t.fab.nodeId == running.fab.nodeId) = true
    ∧ goes (exec (.setUtc 77) powered) (fun t => t.mc.utc == 77 && t.mc.utcValid && t.mc.logBuf.isEmpty) = true
    ∧ goes (exec (.svnCommit ⟨129, []⟩) powered) (fun t => t.mc.fuses == 0) = true
    ∧ goes (exec (.svnCommit ⟨2, []⟩) powered) (fun t =>
        t.mc.fuses == BitVec.ofNat 8448 (2 ^ 16 + 2 ^ 17) && t.mc.rollback == 2 && t.mc.fuseArray == t.mc.fuses) = true
    ∧ goes (exec (.svnCommit ⟨2, [17]⟩) powered) (fun t => t.mc.rollback == 1 && (t.mc.logBuf.map (·.code)) == [0x503]) = true
    ∧ goes (exec (.lcNonce 8) powered) (fun t => t.mc.nonce == some (8, 0) && t.mc.answer == some (.nonce 8)) = true
    ∧ goes (exec .mainOn powOff) (fun t => !t.pwr.needMainOn && t.mc.answer == some (.result 3 0)) = true
    ∧ goes (exec .getCapabilities powered) (fun t => t.mc.answer == some (.spdmError 0x04)) = true
    ∧ goes (exec (.negotiateAlgorithms true false) (powered.modMc fun m => { m with spdm := 2 })) (fun t => t.mc.spdm == 2) = true
    ∧ goes (exec (.negotiateAlgorithms true true) (powered.modMc fun m => { m with spdm := 2 })) (fun t => t.mc.spdm == 3) = true
    ∧ goes (exec (.profileWrite 4 0) powered) (fun t => t.mc.profiles == powered.mc.profiles) = true := by decide +kernel

/-- An image without a body: a manifest of a component with key 0 and interface level 3. -/
def emptyManifest (c : Component) : Nat := 0x4D414E46 + 2 ^ 32 * compCode c + 2 ^ 56 * 3
def emptyImage (c : Component) : FwImage := { manifest := BitVec.ofNat 4096 (emptyManifest c), digests := [], body := [] }

theorem key_manifest (m : Mc) (hm : m.fuses = keyFuses) (c : Component)
    (h : Config.ecdsaVerify 0 0 (signedDigest (emptyManifest c) []) 0 0 = true) : m.checkManifest c (emptyManifest c) [] = none := by
  have h1 : ¬ (fld (emptyManifest c) 0 32 ≠ 0x4D41_4E46 ∨ fld (emptyManifest c) 32 8 ≠ compCode c ∨ mfReserved (emptyManifest c) ≠ 0
      ∨ mfLength (emptyManifest c) % 64 ≠ 0 ∨ largestBody c < mfLength (emptyManifest c)
      ∨ mfChunks (emptyManifest c) ≠ divCeil (mfLength (emptyManifest c)) 65536
      ∨ ([] : List (BitVec 384)).length ≠ mfChunks (emptyManifest c)) := by cases c <;> decide +kernel
  have h2 : mfKey (emptyManifest c) = 0 ∧ mfPubX (emptyManifest c) = 0 ∧ mfPubY (emptyManifest c) = 0 ∧ mfSigR (emptyManifest c) = 0
      ∧ mfSigS (emptyManifest c) = 0 ∧ mfLevel (emptyManifest c) = 3 := by cases c <;> decide +kernel
  have hs : signedBy 0 0 (signedDigest (emptyManifest c) []) 0 0 = true := h
  rw [Mc.checkManifest, if_neg h1]
  simp [h2, key_allowed m hm, key_rollback m hm, hs]

def updating (p : UpdatePhase) (f : Mc → Mc := id) : State :=
  powered.modMc fun m => f { m with phase := p, component := some .binder }

/-- A stored image that is valid. -/
theorem witness_validImage (m : Mc) (hm : m.fuses = keyFuses) (c : Component) (hi : imageOf m.images c = some (emptyImage c))
    (h : Config.ecdsaVerify 0 0 (signedDigest (emptyManifest c) []) 0 0 = true) :
    m.verify c (emptyImage c) = none ∧ m.validImage c = some (emptyImage c) := by
  have hv : m.verify c (emptyImage c) = none := by
    have h1 : (emptyImage c).manifest.toNat = emptyManifest c := by cases c <;> decide +kernel
    have h2 : (emptyImage c).digests = [] := rfl
    have h3 : (emptyImage c).body.length = mfLength (emptyManifest c) := by cases c <;> decide +kernel
    rw [Mc.verify, h1, h2, key_manifest m hm c h]
    exact if_pos ⟨h3, rfl⟩
  refine ⟨hv, ?_⟩
  simp only [Mc.validImage, hi, Option.filter_some, hv]
  exact if_pos rfl

def oneChunk : Nat := 2 ^ 96 * 64 + 2 ^ 128

theorem witness_FirmwareUpdates :
    (updating .idle).updates = true ∧ powered.mcRuns = true ∧ powered.mc.phase = .idle ∧ powered.mc.recovery = false
    ∧ (updating .sweep1).mc.component = some .binder ∧ (updating .sweep1).mc.staging = [] := by decide +kernel

theorem witness_firstSweep :
    (updating .sweep1 fun m => { m with staging := leBytes 512 (emptyManifest .binder) }).mc.stagedDigests = []
    ∧ (leBytes 512 (emptyManifest .binder)).length = 512
    ∧ (let m := (updating .sweep1 fun m => { m with staging := leBytes 560 oneChunk }).mc
       m.staging.length = 560 ∧ m.goodChunk [] = false ∧ m.stagedDigests.length = 1 ∧ m.chunk < 1
         ∧ m.checkManifest .binder oneChunk m.stagedDigests = some 0x90) := by decide +kernel

theorem witness_laterPhases :
    (let s := updating .sweep2 fun m => { m with staging := leBytes 560 oneChunk }
     s.mc.chunk < s.mc.stagedDigests.length ∧ s.host.gate .mcFlash = .opened ∧ s.mc.component = some .binder)
    ∧ (let s := (updating .idle).modHost fun h => { h with binderUp := false }
       s.host.binderUp = false ∧ s.pwr.main = true ∧ s.updates = true)
    ∧ (updating .sweep2).mc.viaFabric = false ∧ (updating .sweep2).mc.chunk = (updating .sweep2).mc.stagedDigests.length
    ∧ (let m := (updating .transferred fun m => { m with images := [(.binder, emptyImage .mc)] }).mc
       imageOf m.images .binder = some (emptyImage .mc) ∧ m.verify .binder (emptyImage .mc) = some 0x90)
    ∧ (let m := (updating .idle fun m => { m with oldBinder := some (emptyImage .mc), running := [(.binder, emptyImage .binder)] }).mc
       m.oldBinder = some (emptyImage .mc) ∧ imageOf m.running .binder = some (emptyImage .binder))
    ∧ (updating .idle fun m => { m with recovering := some .binder }).mc.viaFabric = true := by decide +kernel

theorem leNat_leBytes (n x : Nat) : leNat (leBytes n x) = x % 256 ^ n := by
  induction n generalizing x with
  | zero => simp [leBytes, leNat, Nat.mod_one]
  | succ n ih =>
    simp only [leBytes, leNat, ih, BitVec.toNat_ofNat]
    rw [show 256 ^ (n + 1) = 256 * 256 ^ n by rw [Nat.pow_succ, Nat.mul_comm], Nat.mod_mul]

theorem length_leBytes (n x : Nat) : (leBytes n x).length = n := by
  induction n generalizing x with
  | zero => rfl
  | succ n ih => simp [leBytes, ih]

/-- The one chunk of an image of 64 bytes, with its digest in the table. -/
theorem witness_goodChunk (m : Mc) (bytes : List Byte) (h : bytes.length = 64) (h0 : m.chunk = 0)
    (hs : m.staging = leBytes 512 oneChunk ++ beBytes 48 (Config.sha384 bytes).toNat) : m.goodChunk bytes = true := by
  have hb : BitVec.ofNat 384 (beNat (beBytes 48 (Config.sha384 bytes).toNat)) = Config.sha384 bytes := by
    have e : (256 : Nat) ^ 48 = 2 ^ 384 := by decide +kernel
    rw [beNat, beBytes, List.reverse_reverse, leNat_leBytes, e, Nat.mod_eq_of_lt (Config.sha384 bytes).isLt, BitVec.ofNat_toNat,
      BitVec.setWidth_eq]
  have hl : (beBytes 48 (Config.sha384 bytes).toNat).length = 48 := by rw [beBytes, List.length_reverse, length_leBytes]
  have h1 : m.stagedManifest = oneChunk := by
    have e : oneChunk % 256 ^ 512 = oneChunk := by decide +kernel
    rw [Mc.stagedManifest, hs, List.take_left' (length_leBytes _ _), leNat_leBytes, e]
  have h2 : m.stagedDigests = [Config.sha384 bytes] := by
    have hr : List.range (mfChunks oneChunk) = [0] := by decide +kernel
    have hd : (m.staging.drop 512).take 48 = beBytes 48 (Config.sha384 bytes).toNat := by
      rw [hs, List.drop_left' (length_leBytes _ _), List.take_of_length_le (by rw [hl])]
    simp [Mc.stagedDigests, h1, hr, hd, hb]
  have hc : chunkLen (mfLength oneChunk) 0 = 64 := by decide +kernel
  simp [Mc.goodChunk, h1, h2, h0, h, hc]

theorem test_updates :
    goes (exec (.requestUpdate 3) powered) (fun t => t.mc.phase == .requested && t.mc.agent == 3) = true
    ∧ goes (exec (.requestUpdate 3) (powered.modMc fun m => { m with phase := .table })) (fun t => t.mc.answer == some (.pldm 0x10 0x81)) = true
    ∧ goes (exec (.updateComponent .binder) (powered.modMc fun m => { m with phase := .table, recovery := true })) (fun t =>
        t.mc.phase == .table) = true
    ∧ goes (exec (.firmwareData [1]) (powered.modMc fun m => { m with phase := .sweep1, component := some .mc })) (fun t =>
        t.mc.phase == .table && t.mc.answer == some (.verify 0x90)) = true
    ∧ goes (exec .activateFirmware (powered.modMc fun m => { m with phase := .applied, written := [.mc] })) (fun t =>
        t.mc.phase == .idle && !t.mc.up && t.mc.restartCause == 3) = true := by decide +kernel

def locking (st ramp : Nat) (returning : Bool) (locked : List Pll) : State :=
  powered.modClk fun c => { c with stage := st, ramp := ramp, returning := returning, locked := locked }

theorem witness_PowerAndClocks :
    powered.pwr.standby = true ∧ powered.pwr.present = true ∧ powered.clk.armed = true ∧ State.reset.clk.armed = false
    ∧ State.reset.pwr.present = false ∧ powered.clk.locked = [] ∧ powered.clk.lost = false
    ∧ (let s := powered.modClk fun c => { c with qualified := false, windowsLeft := 2 }
       s.clk.refPresent = true ∧ s.clk.qualified = false ∧ 1 < s.clk.windowsLeft)
    ∧ (powered.modClk fun c => { c with qualified := false }).clk.windowsLeft = 1
    ∧ powered.mainPlls.contains (.lp 7) = true ∧ powered.clk.returning = false ∧ 4 ≤ powered.pwr.step
    ∧ (locking 3 7 true powered.mainPlls).mainLocked = true ∧ (locking 3 7 true powered.mainPlls).clk.ramp = 7
    ∧ (locking 4 8 true powered.mainPlls).clk.stage = 4 := by decide +kernel

theorem test_power :
    goes (exec (.breakerTrip 560) (powered.modPwr fun p => { p with switchOn := true })) (fun t => t.pwr.switchOn && t.pwr.main) = true
    ∧ goes (exec (.breakerTrip 561) (powered.modPwr fun p => { p with switchOn := true })) (fun t =>
        !t.pwr.switchOn && !t.pwr.main && t.pwr.breaker) = true
    ∧ goes (exec .mainOvervoltage powered) (fun t => !t.pwr.main && !t.pwr.inputOk && t.pwr.needMainOn) = true
    ∧ goes (exec .moduleExtract powered) (fun t => !t.pwr.present && !t.pwr.main) = true
    ∧ goes (exec .standbyOff powered) (fun t => t.pwr == Power.reset && !t.mc.up) = true
    ∧ goes (exec .refclkLoss powered) (fun t => t.clk.lost && !t.host.portA.up && (t.stack 19).selfRefresh && t.pwr.main) = true := by
  decide +kernel

theorem test_clocks :
    goes (exec .refclkQualified (powered.modClk fun c => { c with qualified := false, lost := true })) (fun t =>
        t.clk.returning && t.clk.stage == 1 && t.clk.armed) = true
    ∧ goes (exec (.pllLock (.lp 7)) (locking 2 0 true (powered.mainPlls.filter (· ≠ .lp 7)))) (fun t => t.clk.stage == 3 && t.pwr.clkOk) = true
    ∧ goes (exec .aclkRampStep (locking 3 6 true powered.mainPlls)) (fun t => t.clk.ramp == 7 && t.clk.stage == 3) = true
    ∧ goes (exec .aclkRampStep (locking 3 7 true powered.mainPlls)) (fun t => t.clk.ramp == 8 && t.clk.stage == 4) = true
    ∧ goes (exec .aclkRampStep ((locking 0 7 false powered.mainPlls).modPwr fun p => { p with step := 4 })) (fun t => t.pwr.step == 5) = true
    ∧ goes (exec .stackRetrainDone (locking 4 8 true powered.mainPlls)) (fun t =>
        t.clk.stage == 0 && !t.clk.returning && !(t.stack 0).selfRefresh) = true
    ∧ goes (exec .stackRetrainDone ((locking 4 8 true powered.mainPlls).modClk fun c => { c with portsBack := [.a] })) (fun t =>
        t.clk.stage == 5 && t.clk.returning) = true := by decide +kernel

/-- Two windows are needed while the return sequence, or the PLL step of start-up, is not over. -/
theorem test_twoWindows :
    powered.twoWindows = false ∧ (locking 4 8 true []).twoWindows = true ∧ (powered.modPwr fun p => { p with step := 4 }).twoWindows = true := by
  decide +kernel

def starting (st : Nat) (main : Bool := true) : State := powered.modPwr fun p => { p with step := st, main := main, switchOn := true }

theorem witness_StartUp :
    (powered.modPwr fun p => { p with present := false }).pwr.present = false ∧ powered.pwr.standby = true ∧ powered.clk.refPresent = true
    ∧ powered.mc.recovery = false ∧ powered.mc.restartCause = 0 ∧ powered.mc.validImage .mc = none ∧ powered.mc.validImage .linkUcode = none
    ∧ (let s := starting 3 false
       s.mcRuns = true ∧ s.pwr.step = 3 ∧ s.pwr.main = false ∧ s.clk.qualified = true ∧ s.pwr.inputOk = true ∧ s.pwr.present = true
         ∧ s.pwr.switchOn = true ∧ s.pwr.breaker = false ∧ s.pwr.needMainOn = false ∧ s.mc.lifeCycle = .manufacture)
    ∧ ({ Mc.reset with fuses := 7 } : Mc).lifeCycle = .returned := by decide +kernel

/-- All four components, stored and valid. -/
def stocked : Mc :=
  { keyed with images := [(.mc, emptyImage .mc), (.binder, emptyImage .binder), (.linkUcode, emptyImage .linkUcode),
                          (.memUcode, emptyImage .memUcode)] }

theorem witness_startImages (c : Component) (h : Config.ecdsaVerify 0 0 (signedDigest (emptyManifest c) []) 0 0 = true) :
    stocked.validImage c = some (emptyImage c) := by
  have hi : imageOf stocked.images c = some (emptyImage c) := by cases c <;> simp [stocked, imageOf]
  exact (witness_validImage stocked rfl c hi h).2

theorem test_startup :
    goes (exec (.mcResetRelease ⟨2, 0⟩) (powered.modPwr fun p => { p with present := false })) (fun t => t.pwr.present && t.mc.up) = true
    ∧ goes (exec .startupRailsUp (starting 3 false)) (fun t => t.pwr.main && t.pwr.step == 4 && t.host.usable) = true
    ∧ goes (exec .startupRailsUp (starting 4 false)) (fun t => !t.pwr.main) = true
    ∧ goes (exec (.startupTrainingDone []) (starting 5)) (fun t => t.pwr.step == 5 && t.mc.recovering == some .linkUcode) = true
    ∧ goes (exec .binderBootDone (starting 7)) (fun t => t.pwr.step == 7 && t.mc.recovering == some .binder) = true
    ∧ goes (exec (.startupBistDone [7]) (starting 8)) (fun t =>
        t.pwr.step == 10 && (t.site 7).role == .retired && (t.site 7).cause == 7 && (t.site 8).testOk) = true := by decide +kernel

/-! ### Witnesses of single clauses -/

/-- All credits out; all tags taken; an elastic word before its section; an accumulator window that does not fit. -/
def creditless : State := streamAt writeEntry fun x => { x with arms := [arm0], writes := List.replicate 128 (0, 64) }
def tagless : State :=
  (streamAt readEntry).modCore 0 fun k =>
    { k with awl := { k.awl with reads := (List.range 640).map fun t => { read0 with tag := t, stream := 1 } } }
def pastAcc : Nat := writeEntry + 2 ^ 6 * 2 + 2 ^ 176 * 0xFFF

theorem witness_AwlReads_waiting :
    (let t := creditless.awlReads 0
     t.wanted img 0 0 = .ok (some ⟨span0, 0, false⟩) ∧ sWrite (t.streamEntry img 0 0) = true
     ∧ 128 ≤ ((t.core 0).awl.streams.toList.map (·.writes.length)).sum)
    ∧ (let t := tagless.awlReads 0
       t.wanted img 0 0 = .ok (some ⟨span0, 0, false⟩) ∧ freeTagFrom (t.core 0).awl.reads 640 0 = none)
    ∧ (let t := (streamAt readEntry fun x => { x with arms := [{ arm0 with elastic := true }] }).awlReads 0
       t.wanted img 0 0 = .ok (some ⟨span0, 0, true⟩) ∧ (t.core 0).needle.sect ≠ .elastic)
    ∧ (let t := (streamAt pastAcc).awlReads 0
       t.wanted img 0 0 = .ok (some ⟨span0, 0, false⟩) ∧ sWrite pastAcc = true ∧ sDest pastAcc = 2 ∧ (t.core 0).ecc = []
       ∧ coreMemSize .acc < 512 * sAccBase pastAcc + t.landStart pastAcc 0 + bLen (t.listEntry pastAcc 0)) := by decide +kernel

/-- A stream halted at the entry to deliver, at a later one, and one whose next Mull block lies before its halt. -/
def haltAt (b o : Nat) : HaltRec := { halt30 with reason := 0x20, block := b, byteOffset := o }
theorem witness_AwlReturns_halted :
    (let s := streamAt readEntry fun x => { x with arms := [arm0], landed := [(0, 64)], halted := some (haltAt 0 0) }
     ((s.core 0).strm 0).halted = some (haltAt 0 0) ∧ (haltAt 0 0).block = arm0.first + arm0.delivered
     ∧ goes (exec (.entryDelivery 0 0) s) (fun t => ((t.core 0).strm 0).arms == [arm0]) = true)
    ∧ (let s := streamAt readEntry fun x => { x with arms := [arm0], landed := [(0, 64)], halted := some (haltAt 1 0) }
       (haltAt 1 0).block ≠ arm0.first + arm0.delivered
       ∧ goes (exec (.entryDelivery 0 0) s) (fun t => ((t.core 0).strm 0).arms == []) = true)
    ∧ ({ Stream.reset with arms := [arm0], halted := some (haltAt 0 4096) } : Stream).haltedBefore 0 0 = false
    ∧ ({ Stream.reset with arms := [arm0], halted := some (haltAt 0 4096) } : Stream).haltedBefore 0 4096 = true
    ∧ covered ((streamAt readEntry).core 0 |>.strm 0).landed (landKey 0 0) (landLen readEntry 64) = false
    ∧ ({ read0 with dropped := true } : AwlRead).dropped = true := by decide +kernel

/-- The last member's delivery of a group tells the issuer, unless it knows the word. -/
theorem witness_AwlReturns_group :
    let s := streamAt groupEntry fun x => { x with arms := [arm0], landed := [(0, 64)] }
    s.issuer img (sGroup groupEntry) = some (0, 0) ∧ arm0.delivered + 1 = arm0.count
    ∧ goes (exec (.entryDelivery 0 0) s) (fun t => ((t.core 0).strm 0).memberArms == [(0, arm0)]) = true := by decide +kernel

/-- The pool full, or with a frame left; a stream halted by a check while it walks; a page fetched for another stream. -/
theorem witness_Paging_frames :
    (let s := listed.modProg fun p => { p with present := [(512, false)] }
     let whole := { img with pinnedPages := (s.layoutEnd / 2 ^ 30) }
     s.poolFrames whole ≤ s.prog.present.length + s.fetches.length ∧ s.prog.present.length + s.fetches.length < s.poolFrames img
     ∧ s.prog.present = [(512, false)])
    ∧ (let s := streamAt readEntry fun x => { x with walking := some (2, 0), halted := some (haltAt 1 0) }
       ((s.core 0).strm 0).halted = some (haltAt 1 0) ∧ (haltAt 1 0).reason ≠ 0x30 ∧ ((s.core 0).strm 0).walking = some (2, 0)
       ∧ ((s.core 0).strm 0).fetching = none ∧ s.binderRuns = true)
    ∧ (((halted30 (listed.modStrm 1 5 fun x => { x with fetching := some 2 })).core 1).strm 5).fetching = some 2 := by decide +kernel

/-- A line not held, whose words are all good; a word in error of a compiled program's kernel that no instruction spells. -/
def unheld (k : Core) : Core := { k with plough := { k.plough with line := none } }
theorem witness_PloughLine :
    (let s := ploughAt 0xC4120 unheld
     s.aclkRuns = true ∧ (s.core 0).plough.line = none ∧ (s.core 0).marksIn .endpaper 0 256 = []
     ∧ goes (exec (.vadd 0) s) (fun t => (t.core 0).plough.ip == 3 && (t.core 0).plough.line.isSome) = true)
    ∧ (let s := ploughAt 0x05 fun k => { k with ecc := [⟨.endpaper, 32, .uncorrectable⟩] }
       (∃ m ∈ (s.core 0).marksIn .endpaper 32 16, m.find = .uncorrectable) ∧ (s.core 0).plough.direct = false
       ∧ instrOk (s.core 0).plough.instr ((s.core 0).plough.layer == 0xFFFF) = false
       ∧ goes (exec (.vadd 0) s) (fun t => t.prog.active.isSome) = true)
    ∧ (let s := (ploughAt 0x05).modCore 0 fun k => { k with plough := { k.plough with ip := 4096 } }
       4096 ≤ (s.core 0).plough.ip ∧ goes (exec (.vadd 0) s) (fun t => t.prog.active.isNone || (t.core 0).needle.stopped) = true) := by
  decide +kernel

/-- QWIRE by POL 2 with a SCALE of 1.5, whose mantissa is not 0. -/
theorem witness_PloughQuantise_odd :
    let s := ploughAt (0x41 + 2 ^ 36 * 4 + 2 ^ 102 * 2 + 2 ^ 104) fun k => { k with plough := { k.plough with sr := k.plough.sr.set 0 0x3FC0 } }
    qPol (0x41 + 2 ^ 36 * 4 + 2 ^ 102 * 2 + 2 ^ 104) = 2 ∧ (s.core 0).plough.sreg 0 = 0x3FC0 ∧ fld 0x3FC0 0 7 ≠ 0 ∧ fld 0x3FC0 7 8 ≠ 255
    ∧ bitOf 0x3FC0 15 = false ∧ fld (2 ^ 96 * 4097) 96 13 = 4097 ∧ min (fld (2 ^ 96 * 4097) 96 13) 4096 = 4096 := by decide +kernel

/-- An INPUT cut short that a recovery waits for. -/
theorem witness_HostTransfers_cut :
    let s := asked 0x03 (moveBody 0 64) (running.modProg fun p => { p with inputWant := [(0, 0)], recovering := true })
    s.begins h0 0x03 = some (moveBody 0 64) ∧ (0, 0) ∈ s.prog.inputWant ∧ [(5 : Byte)].length < 64
    ∧ goes (exec (.inputCmd h0 ⟨[5], true⟩) s) (fun t => t.prog.active.isNone) = true := by decide +kernel

/-- WAIT_STEP after a program has ended, for a step that it committed and for a later one (R325). -/
theorem test_waitStep_former :
    (let s := powered.modProg fun p => { p with formerStep := some 5 }
     goes (exec (.waitStep h0) (asked 0x18 5 s)) (fun t => (t.host.handles.map (·.status)) == [0]) = true
     ∧ goes (exec (.waitStep h0) (asked 0x18 6 s)) (fun t => t.prog.stepWaiters == [h0] && (t.running? h0).isSome) = true)
    ∧ powered.prog.formerStep = none := by decide +kernel

/-- The gate of the flash interface is closed: SET_PROFILE is BUSY and PROFILE_WRITE refused (log entry 54). -/
def flashClosed : State := powered.modHost fun h => h.setGate .mcFlash .closed
def declared : Nat := 1960000 + 2041000 * 2 ^ 24 + 256 * 2 ^ 48 + 500 * 2 ^ 64
theorem test_flashClosed :
    flashClosed.host.gate .mcFlash ≠ .opened ∧ flashClosed.sideband = true
    ∧ goes (exec (.setProfileWrite h0) (asked 0x23 (4 + 2 ^ 128 * declared) flashClosed)) (fun t =>
        (t.host.handles.map (·.status)) == [3] && t.mc.profiles == powered.mc.profiles) = true
    ∧ goes (exec (.profileWrite 0 (BitVec.ofNat 128 (8 + 8 * 2 ^ 8 + 16 * 2 ^ 16 + 12 * 2 ^ 24 + 4 * 2 ^ 32 + 5 * 2 ^ 48 + 1450 * 2 ^ 56)))
        flashClosed) (fun t => t.mc.profiles == powered.mc.profiles && (t.mc.logBuf.map (·.code)) == [0x50D]) = true := by decide +kernel

/-- The active port while its interface is not usable; a port that a return waits for. -/
theorem test_ports_return :
    (let s := powered.modHost fun h => { h with usable := false }
     PciePort.a = s.host.activePort ∧ s.host.usable = false
     ∧ goes (exec (.takeover .a 1) s) (fun t => t.host.portA.result == s.host.portA.result) = true)
    ∧ goes (exec (.hostReset .a .hot) (powered.modClk fun c => { c with portsBack := [.a, .b] })) (fun t => t.clk.portsBack == [.b]) = true
    ∧ goes (exec (.pcieLinkUp .b 16 6) (powered.modClk fun c => { c with portsBack := [.b] })) (fun t => t.clk.portsBack == []) = true := by
  decide +kernel

/-- The fields of the Binder hold their last values while it is down (R311); of a write of eight bytes that meets the Binder only the word
met is dropped (R315); a bit of CAD_EVENTS set in the cycle of its clear stays 1 (R7). -/
theorem test_registers_met :
    (let s := powered.modHost fun h => { h with ifLevel := 3, stepDone := 9 }
     goes (exec .binderWatchdog s) (fun t => !t.host.binderUp && t.bar0Byte 0x2_0001 == 3 && t.bar0Byte 0x2_0018 == 9) = true
     ∧ goes (exec .binderWatchdog s) (fun t => ((t.modHost fun h => { h with stepDone := 10 }).bar0Byte 0x2_0018) == 9) = true)
    ∧ goes (exec (.registerWrite 0 [1, 1, 1, 1, 2, 2, 2, 2] ⟨some 4, 0⟩) powered) (fun t =>
        t.bar0Byte 0 == 1 && t.bar0Byte 4 == 0 && (t.mc.logBuf.map (·.code)) == [0x507]) = true
    ∧ (4 < 0x1_0000 ∧ 0 < 4 / 4 * 4 + 4 ∧ 4 / 4 * 4 < 0 + 8) ∧ ¬ ((8 : Nat) / 4 * 4 < 0 + 8)
    ∧ goes (exec (.registerWrite 0x2_010C [0xFF] ⟨none, 2⟩) (powered.modCad fun c => { c with events := 7 })) (fun t =>
        t.cad.events == 2) = true := by decide +kernel

/-- Two commands in one tick wake 25 cores between them (R369). -/
theorem test_wakes :
    (let s := (releasable.modCore 0 fun k => { k with asleep := true }).modProg fun p => { p with woken := (0, 25) }
     s.prog.woken.1 = s.now ∧ goes (exec .coreWake s) (fun t => (t.core 0).asleep && t.prog.woken == (0, 25)) = true
     ∧ goes (exec .coreWake { s with now := 1 }) (fun t => !(t.core 0).asleep && t.prog.woken == (1, 1)) = true) := by decide +kernel

/-- An elastic section that waits begins at a boundary that discards its step (R141). -/
theorem test_elasticAtReplay :
    (let s := { (boundary.fault 0x10 0).modProg fun p => { p with elasticPending := some h0 } with
                host := { powered.host with handles := [entry 0x14 0] } }
     s.prog.elasticPending = some h0 ∧ (s.running? h0).isSome = true ∧ s.prog.discards < 3
     ∧ goes (exec .stepBoundary s) (fun t => t.prog.elasticPending == none && t.prog.elasticRuns == 1 && t.prog.step == 7) = true) := by
  decide +kernel

def msgOf (kind dst : Nat) : Transfer := { header := flitOf (kind + 2 ^ 8 * 7 + 2 ^ 24 * dst + 2 ^ 64 * 5), data := [] }
/-- A transfer with a lane that leads on, and one without; an ACK for this node and one passing through; waiting transfers. -/
theorem test_dynamicKinds :
    transferGood (msgOf 4 0x405) = true ∧ hKind (msgOf 4 0x405).header.bits.toNat = 4 ∧ hKind (msgOf 5 0x405).header.bits.toNat = 5
    ∧ noded.nextLane 0 (msgOf 2 0x409).header.bits.toNat = none
    ∧ goes (exec (.dynTransfer 0 (msgOf 4 0x405)) (owing (out0 .device))) (fun t => t.fab.outstanding == []) = true
    ∧ goes (exec (.dynTransfer 0 (msgOf 4 0x409)) (owing (out0 .device))) (fun t =>
        t.fab.outstanding.length == 1 && t.fab.escapeWait.length == 1) = true
    ∧ ((wait0 1).vc = 1 ∨ (wait0 1).vc = 2) ∧ noded.mainClocks = true
    ∧ (out0 .device 7).sends < 8 := by decide +kernel

/-- The clocks of the main domain do not run: no phase of a bring-up ends (R371, R372). -/
theorem test_frozen :
    (let s := (lanePhase .locking).modClk fun c => { c with lost := true }
     s.mainClocks = false ∧ goes (exec (.pcsBlockLock 0 true) s) (fun t => (t.link 0).phase == .locking) = true
     ∧ (s.modClk fun c => { c with lost := false, returning := true, stage := 2 }).mainClocks = false
     ∧ (s.modClk fun c => { c with lost := false, returning := true, stage := 3 }).mainClocks = true) := by decide +kernel

/-- A record that is whole, and the end of the replay that waits for units from the partner. -/
theorem witness_Mirrors_waiting :
    recordWhole record0 = true ∧ recordWhole (record0.set 2 1) = false
    ∧ ((protectedBy 4).take 0 [(0, record0.set 2 1)]).arriving ≠ [] ∧ ((protectedBy 4).take 0 [(0, record0)]).arriving = []
    ∧ (let s := running.modProg fun p =>
         { p with kept := some (kept0 5), recovering := true, step := 9, replayTo := some 8, awaiting := [(0, 1)] }
       s.prog.awaiting ≠ [] ∧ goes (exec .recoveryReplayDone s) (fun t => t.prog.recovering) = true)
    ∧ (let s := powered.modProg fun p => { p with staged := some { img with bounds := { img.bounds with memReserve := true } } }
       s.prog.active = none ∧ s.prog.relocated = none
       ∧ goes (exec (.stackLost 3 .phyFailed) s) (fun t => t.prog.relocated == some 3) = true) := by decide +kernel

/-- A rail 3 % and 1 mV off its nominal voltage warns; a second block within 1 ms is not borrowed; a trigger just after the reference is
lost still wipes (R337, R356, R371). -/
theorem test_limits :
    (let n : Int := (railOf 0).nominal
     3 * n < 100 * |n * 103 / 100 + 1 - n| ∧ ¬ (3 * n < 100 * |n - n|) ∧ powered.monitors = true ∧ (powered.mc.rails[0]).warned = false
     ∧ goes (exec (.sensorRead .rail 0 (some { value := n * 103 / 100 + 1, mean := 0 })) powered) (fun t =>
         (t.host.records.map (·.code)) == [0x422]) = true)
    ∧ (let i : Int := (railOf 0).maxCurrent
       95 * i < 100 * (i * 95 / 100 + 1) ∧ (powered.mc.railsCurrent[0]).warned = false)
    ∧ goes (exec (.marchBlockTest 65 true) { powered.modMc fun m => { m with borrowedAt := some 0 } with now := 99999 }) (fun t =>
        t.mc.borrowed == none) = true
    ∧ goes (exec (.marchBlockTest 65 true) { powered.modMc fun m => { m with borrowedAt := some 0 } with now := 100000 }) (fun t =>
        t.mc.borrowed.isSome && t.mc.borrowedAt == some 100000) = true
    ∧ (let s := { (powered.modMc fun m => m.putKey 5).modClk fun c => { c with lost := true, lostAt := 0, bypass := false } with now := 10000 }
       s.standbyClocks = false ∧ goes (exec (.tamperTrigger 0 0) s) (fun t => t.mc.key.isNone && t.mc.tamperCause == 1) = true
       ∧ goes (exec (.tamperTrigger 0 0) { s with now := 10001 }) (fun t => t.mc.tamperCause == 0) = true) := by decide +kernel

/-- The loader in recovery answers MCTP control and no monitoring; an image waits to enter service; no neighbour offers one. -/
theorem test_recoveryAnswers :
    (let s := powered.modMc fun m => { m with up := false, recovery := true }
     s.sidebandUp = true ∧ s.sideband = false ∧ s.monitors = false
     ∧ goes (exec (.mctpControl (.setEndpoint 9)) s) (fun t => t.mc.eid == 9) = true
     ∧ (s.modMc fun m => { m with fuses := 15, fuseArray := 15 }).mc.lifeCycle = .decommissioned
     ∧ (s.modMc fun m => { m with fuses := 15, fuseArray := 15 }).monitors = true)
    ∧ powered.imageSource .mc = none
    ∧ (let s := powered.modMc fun m => { m with images := [(.binder, emptyImage .binder)] }
       imageOf s.mc.images .binder = some (emptyImage .binder) ∧ (s.activateOne .binder).mc.pending = [.binder]) := by decide +kernel

/-- The mask ROM waits for the reference with the module present; a first window begun anew; a port that is up at the loss is waited for. -/
theorem test_reference :
    (let s := (powered.modClk fun c => { c with refPresent := false }).modMc fun m => { m with up := false, recovery := false, restartCause := 0 }
     s.pwr.standby = true ∧ s.clk.refPresent = false ∧ s.pwr.present = true
     ∧ s.mc.up = false ∧ s.mc.recovery = false ∧ s.mc.restartCause = 0
     ∧ goes (exec .refclkPresence (s.modMc fun m => { m with up := true })) (fun t => t.clk.refPresent && t.mc.up) = true)
    ∧ goes (exec .refclkLoss (powered.modClk fun c => { c with armed := false, windowsNeed := 2, windowsLeft := 1 })) (fun t =>
        t.clk.windowsLeft == 2 && !t.clk.lost) = true
    ∧ goes (exec .refclkLoss powered) (fun t => t.clk.portsBack == [.a]) = true := by decide +kernel

/-- Five die sensors of a tile that failed while the main domain was off shut it down as it comes on (R336); the profile chosen since is in
force (R381); a level that changes is advertised (R285). -/
theorem test_startConditions :
    (let s := (starting 3 false).modMc fun m =>
       { m with die := (((((m.die.set 0 { Sensor.reset with fails := 3 }).set 1 { Sensor.reset with fails := 3 }).set 2 { Sensor.reset with fails := 3 }).set 3
           { Sensor.reset with fails := 3 }).set 4 { Sensor.reset with fails := 3 }) }
     5 ≤ s.mc.failedOnTile 0 ∧ (∀ j < 4, (starting 3 false).mc.failedOnTile j ≤ 4)
     ∧ goes (exec .startupRailsUp s) (fun t => !t.pwr.main && t.pwr.needMainOn) = true)
    ∧ goes (exec .startupRailsUp ((starting 3 false).modMc fun m => { m with profSelected := some 2 })) (fun t =>
        t.mc.activeIndex == 2 && t.mc.activeProfile == t.mc.profiles[2]) = true
    ∧ profileCrcOk (powered.mc.profiles[2]).toNat = true ∧ powered.host.ifLevel ≠ 3
    ∧ ((powered.setIfLevel 3).fab.advSeq ≠ powered.fab.advSeq)
    ∧ (Component.binder ∉ powered.mc.pending) := by decide +kernel

/-- The one neighbour whose lane is open offers an image of any component: ROLLBACK is 0. -/
theorem witness_imageSource (c : Component) : noded.imageSource c = some 0 := by
  have h0 : noded.mc.rollback = 0 := by decide +kernel
  unfold State.imageSource
  simp only [h0, Nat.zero_le, decide_true, Bool.and_true]
  decide +kernel

end Sys2Proof.Tests
end

