-- ==== Sys2Proof/Proofs/MemState.lean ====
section
/-!
SUPPORT. The canonical form of the machine's memories under the elementary updates of the state: what touches no memory leaves
`State.memOk` as it is, and what writes one keeps it.
-/

namespace Sys2Proof.Machine

variable {s : State}

/-! ### What the canonical form says, part by part -/

theorem State.memOk_iff : s.memOk = true ↔
    Memory.wf (dramByte s.dramEpoch) s.dram = true ∧ Mem.sortedFrom 0 s.hostMem = true ∧ s.host.memOk = true
      ∧ Memory.wf zeroByte s.mc.sram = true ∧ (∀ c, (s.core c).memOk = true) ∧ ∀ i, (s.site i).memOk = true := by
  simp [State.memOk, allCores, allSites, and_assoc]

theorem Core.memOk_iff {k : Core} : k.memOk = true ↔
    (∀ m, Memory.wf zeroByte (k.mem m) = true) ∧ ∀ i : Fin 64, Mem.sortedFrom 0 k.awl.streams[i].buffer = true := by
  constructor
  · intro h
    simp only [Core.memOk, Bool.and_eq_true, List.all_eq_true] at h
    obtain ⟨⟨⟨hq, ha⟩, he⟩, hb⟩ := h
    exact ⟨fun m => by cases m <;> assumption, fun i => hb i (List.mem_finRange i)⟩
  · intro ⟨hm, hb⟩
    simp only [Core.memOk, Bool.and_eq_true, List.all_eq_true]
    exact ⟨⟨⟨hm .quire, hm .acc⟩, hm .endpaper⟩, fun i _ => hb i⟩

theorem HostIf.memOk_iff {h : HostIf} : h.memOk = true ↔ ∀ i : Fin 8, Memory.wf zeroByte h.mailboxes[i].sram = true := by
  simp [HostIf.memOk]

theorem State.core_memOk (h : s.memOk = true) (c : CoreId) : (s.core c).memOk = true := by
  obtain ⟨-, -, -, -, hc, -⟩ := State.memOk_iff.1 h
  exact hc c

theorem State.site_memOk (h : s.memOk = true) (i : SiteId) : (s.site i).memOk = true := by
  obtain ⟨-, -, -, -, -, hi⟩ := State.memOk_iff.1 h
  exact hi i

theorem State.host_memOk (h : s.memOk = true) : s.host.memOk = true := by
  obtain ⟨-, -, hh, -⟩ := State.memOk_iff.1 h
  exact hh

theorem State.sram_wf (h : s.memOk = true) : Memory.wf zeroByte s.mc.sram = true := by
  obtain ⟨-, -, -, hm, -⟩ := State.memOk_iff.1 h
  exact hm

theorem State.hostMem_sorted (h : s.memOk = true) : Mem.sortedFrom 0 s.hostMem = true := by
  obtain ⟨-, hm, -⟩ := State.memOk_iff.1 h
  exact hm

/-- The received bytes of any stream index of a core are in order: beyond the 64 streams nothing is received. -/
theorem Core.strm_sorted {k : Core} (h : k.memOk = true) (i : Nat) : Mem.sortedFrom 0 (k.strm i).buffer = true := by
  obtain ⟨-, hb⟩ := Core.memOk_iff.1 h
  by_cases hi : i < 64
  · simpa [Core.strm, Vector.getD, hi] using hb ⟨i, hi⟩
  · simp [Core.strm, Vector.getD, hi, Stream.reset, Mem.sortedFrom]

/-! ### Choices, folds and outcomes -/

@[simp] theorem State.memOk_ite {p : Prop} [Decidable p] (s t : State) :
    (if p then s else t).memOk = if p then s.memOk else t.memOk := apply_ite _ _ _ _

@[simp] theorem Core.memOk_ite {p : Prop} [Decidable p] (k l : Core) :
    (if p then k else l).memOk = if p then k.memOk else l.memOk := apply_ite _ _ _ _

theorem State.ite_memOk {p : Prop} [Decidable p] {t : State} (hs : s.memOk = true) (ht : t.memOk = true) :
    (if p then s else t).memOk = true := by
  split <;> assumption

@[simp] theorem State.foldl_memOk_eq {α : Type} (f : State → α → State) (hf : ∀ s x, (f s x).memOk = s.memOk) (l : List α) :
    (l.foldl f s).memOk = s.memOk := by
  induction l generalizing s with
  | nil => rfl
  | cons x l ih => rw [List.foldl_cons, ih, hf]

theorem State.foldl_memOk {α : Type} {f : State → α → State} (hf : ∀ s x, s.memOk = true → (f s x).memOk = true) (l : List α)
    (h : s.memOk = true) : (l.foldl f s).memOk = true := by
  induction l generalizing s with
  | nil => exact h
  | cons x l ih => exact ih (hf s x h)

@[simp] theorem Core.foldl_memOk_eq {α : Type} (f : Core → α → Core) (hf : ∀ k x, (f k x).memOk = k.memOk) (l : List α) (k : Core) :
    (l.foldl f k).memOk = k.memOk := by
  induction l generalizing k with
  | nil => rfl
  | cons x l ih => rw [List.foldl_cons, ih, hf]

theorem Core.foldl_memOk {α : Type} {f : Core → α → Core} (hf : ∀ k x, k.memOk = true → (f k x).memOk = true) (l : List α) {k : Core}
    (h : k.memOk = true) : (l.foldl f k).memOk = true := by
  induction l generalizing k with
  | nil => exact h
  | cons x l ih => exact ih (hf k x h)

/-- The next state, where an outcome has one, has its memories in canonical form. -/
def outMemOk : Host.Outcome State Fault Refusal → Bool
  | .next t => t.memOk
  | .fault _ => true
  | .refused _ => true

@[simp] theorem outMemOk_next (t : State) : outMemOk (.next t) = t.memOk := rfl
@[simp] theorem outMemOk_fault (r : Fault) : outMemOk (.fault r) = true := rfl
@[simp] theorem outMemOk_act (b : Bool) (s t : State) : outMemOk (act b s t) = if b then t.memOk else s.memOk := by
  cases b <;> rfl
@[simp] theorem outMemOk_ite {p : Prop} [Decidable p] (x y : Host.Outcome State Fault Refusal) :
    outMemOk (if p then x else y) = if p then outMemOk x else outMemOk y := apply_ite _ _ _ _

/-! ### Updates of parts that hold no memory -/

@[simp] theorem State.modProg_memOk (f : Program → Program) : (s.modProg f).memOk = s.memOk := by rfl
@[simp] theorem State.modCad_memOk (f : Cadence → Cadence) : (s.modCad f).memOk = s.memOk := by rfl
@[simp] theorem State.modFab_memOk (f : Fabric → Fabric) : (s.modFab f).memOk = s.memOk := by rfl
@[simp] theorem State.modPwr_memOk (f : Power → Power) : (s.modPwr f).memOk = s.memOk := by rfl
@[simp] theorem State.modClk_memOk (f : Clocks → Clocks) : (s.modClk f).memOk = s.memOk := by rfl
@[simp] theorem State.modLink_memOk (l : LaneId) (f : Link → Link) : (s.modLink l f).memOk = s.memOk := by rfl
@[simp] theorem State.modStack_memOk (j : StackId) (f : Stack → Stack) : (s.modStack j f).memOk = s.memOk := by rfl
@[simp] theorem State.bump_memOk : s.bump.memOk = s.memOk := by rfl
@[simp] theorem State.markPages_memOk (a n : Nat) : (s.markPages a n).memOk = s.memOk := by rfl

/-! ### Updates of parts that hold memories -/

theorem HostIf.memOk_congr {h h' : HostIf} (e : h'.mailboxes = h.mailboxes) : h'.memOk = h.memOk := by
  simp only [HostIf.memOk, e]

theorem State.modHost_memOk_of {f : HostIf → HostIf} (h : s.memOk = true) (hf : (f s.host).memOk = true) :
    (s.modHost f).memOk = true := by
  simp only [State.memOk_iff] at h ⊢
  obtain ⟨hd, hm, -, hr⟩ := h
  exact ⟨hd, hm, hf, hr⟩

@[simp] theorem State.modHost_memOk (f : HostIf → HostIf) (e : ∀ h, (f h).mailboxes = h.mailboxes) :
    (s.modHost f).memOk = s.memOk := by
  simp only [State.memOk, State.modHost, State.core, State.site, HostIf.memOk_congr (e s.host)]

theorem State.modMc_memOk_of {f : Mc → Mc} (h : s.memOk = true) (hf : Memory.wf zeroByte (f s.mc).sram = true) :
    (s.modMc f).memOk = true := by
  simp only [State.memOk_iff] at h ⊢
  obtain ⟨hd, hm, hh, -, hr⟩ := h
  exact ⟨hd, hm, hh, hf, hr⟩

@[simp] theorem State.modMc_memOk (f : Mc → Mc) (e : ∀ m, (f m).sram = m.sram) : (s.modMc f).memOk = s.memOk := by
  simp only [State.memOk, State.modMc, State.core, State.site, e]

/-- Cores that hold the same memories and received bytes are canonical alike. -/
theorem Core.memOk_congr {k k' : Core} (hq : k'.quire = k.quire) (ha : k'.acc = k.acc) (he : k'.endp = k.endp)
    (hs : k'.awl.streams = k.awl.streams) : k'.memOk = k.memOk := by
  simp only [Core.memOk, hq, ha, he, hs]

theorem State.modCore_memOk_of {c : CoreId} {f : Core → Core} (h : s.memOk = true) (hf : (f (s.core c)).memOk = true) :
    (s.modCore c f).memOk = true := by
  simp only [State.memOk_iff] at h ⊢
  obtain ⟨hd, hm, hh, hr, hc, hi⟩ := h
  refine ⟨hd, hm, hh, hr, fun d => ?_, hi⟩
  rw [State.core_modCore]
  split
  · exact hf
  · exact hc d

theorem State.modCore_memOk_eq (c : CoreId) (f : Core → Core) (hf : (f (s.core c)).memOk = (s.core c).memOk) :
    (s.modCore c f).memOk = s.memOk := by
  have hcore : ∀ d, ((s.modCore c f).core d).memOk = (s.core d).memOk := by
    intro d
    rw [State.core_modCore]
    split
    · next e => rw [hf, e]
    · rfl
  simp only [State.memOk, hcore]
  rfl

@[simp] theorem State.modCore_memOk (c : CoreId) (f : Core → Core) (hq : ∀ k, (f k).quire = k.quire) (ha : ∀ k, (f k).acc = k.acc)
    (he : ∀ k, (f k).endp = k.endp) (hs : ∀ k, (f k).awl.streams = k.awl.streams) : (s.modCore c f).memOk = s.memOk :=
  State.modCore_memOk_eq c f (Core.memOk_congr (hq _) (ha _) (he _) (hs _))

@[simp] theorem State.modPl_memOk (c : CoreId) (f : Plough → Plough) : (s.modPl c f).memOk = s.memOk := by
  simp [State.modPl]

@[simp] theorem State.modNeedle_memOk (c : CoreId) (f : Needle → Needle) : (s.modNeedle c f).memOk = s.memOk := by
  simp [State.modNeedle]

theorem State.core_mapCores (f : Core → Core) (c : CoreId) : (s.mapCores f).core c = f (s.core c) :=
  Vector.getElem_ofFn c.isLt

theorem State.site_mapCores (f : Core → Core) (i : SiteId) : (s.mapCores f).site i = s.site i := by
  unfold State.site State.mapCores
  rfl

theorem State.mapCores_memOk_of {f : Core → Core} (hf : ∀ k : Core, k.memOk = true → (f k).memOk = true) (h : s.memOk = true) :
    (s.mapCores f).memOk = true := by
  simp only [State.memOk_iff, State.core_mapCores, State.site_mapCores, State.mapCores_dram, State.mapCores_dramEpoch,
    State.mapCores_hostMem, State.mapCores_host, State.mapCores_mc] at h ⊢
  obtain ⟨hd, hm, hh, hr, hc, hi⟩ := h
  exact ⟨hd, hm, hh, hr, fun d => hf _ (hc d), hi⟩

theorem State.mapCores_memOk_eq (f : Core → Core) (hf : ∀ k : Core, (f k).memOk = k.memOk) : (s.mapCores f).memOk = s.memOk := by
  have hcore : ∀ d, ((s.mapCores f).core d).memOk = (s.core d).memOk := fun d => by
    rw [State.core_mapCores, hf]
  simp only [State.memOk, hcore, State.site_mapCores, State.mapCores_dram, State.mapCores_dramEpoch, State.mapCores_hostMem,
    State.mapCores_host, State.mapCores_mc]

@[simp] theorem State.mapCores_memOk (f : Core → Core) (hq : ∀ k, (f k).quire = k.quire) (ha : ∀ k, (f k).acc = k.acc)
    (he : ∀ k, (f k).endp = k.endp) (hs : ∀ k, (f k).awl.streams = k.awl.streams) : (s.mapCores f).memOk = s.memOk :=
  State.mapCores_memOk_eq f fun k => Core.memOk_congr (hq k) (ha k) (he k) (hs k)

theorem State.modSite_memOk_of {i : SiteId} {f : Site → Site} (h : s.memOk = true) (hf : (f (s.site i)).memOk = true) :
    (s.modSite i f).memOk = true := by
  simp only [State.memOk_iff] at h ⊢
  obtain ⟨hd, hm, hh, hr, hc, hi⟩ := h
  refine ⟨hd, hm, hh, hr, hc, fun j => ?_⟩
  rw [State.site_modSite]
  split
  · exact hf
  · exact hi j

@[simp] theorem State.modSite_memOk (i : SiteId) (f : Site → Site) (hq : ∀ x, (f x).quire = x.quire) (ha : ∀ x, (f x).acc = x.acc)
    (he : ∀ x, (f x).endp = x.endp) : (s.modSite i f).memOk = s.memOk := by
  have hsite : ∀ j, ((s.modSite i f).site j).memOk = (s.site j).memOk := by
    intro j
    rw [State.site_modSite]
    split
    · next e => rw [e]; simp only [Site.memOk, hq, ha, he]
    · rfl
  simp only [State.memOk, hsite]
  rfl

/-! ### Writing device memory and host memory -/

@[simp] theorem State.dramWrite_memOk (a : Nat) (bytes : List Byte) (h : s.memOk = true) : (s.dramWrite a bytes).memOk = true := by
  simp only [State.memOk_iff] at h ⊢
  obtain ⟨hd, hr⟩ := h
  exact ⟨Memory.wf_write bytes a hd, hr⟩

@[simp] theorem State.dramStore_memOk (a : Nat) (bytes : List Byte) (h : s.memOk = true) : (s.dramStore a bytes).memOk = true := by
  simp [State.dramStore, h]

@[simp] theorem State.hostWrite_memOk (a : Nat) (bytes : List Byte) (h : s.memOk = true) : (s.hostWrite a bytes).memOk = true := by
  simp only [State.memOk_iff] at h ⊢
  obtain ⟨hd, hm, hr⟩ := h
  exact ⟨hd, Mem.sortedFrom_put bytes a hm, hr⟩

@[simp] theorem State.loseDram_memOk (h : s.memOk = true) : s.loseDram.memOk = true := by
  simp only [State.memOk_iff] at h ⊢
  obtain ⟨-, hr⟩ := h
  exact ⟨Memory.wf_nil _, hr⟩

/-! ### The memories of a core -/

theorem Core.withMem_mem (k : Core) (m m' : CoreMem) (x : Memory) : (k.withMem m x).mem m' = if m' = m then x else k.mem m' := by
  cases m <;> cases m' <;> rfl

theorem Core.withMem_awl (k : Core) (m : CoreMem) (x : Memory) : (k.withMem m x).awl = k.awl := by cases m <;> rfl

theorem Core.write_memOk {k : Core} (m : CoreMem) (a : Nat) (bytes : List Byte) (h : k.memOk = true) :
    (k.write m a bytes).memOk = true := by
  obtain ⟨hm, hb⟩ := Core.memOk_iff.1 h
  refine Core.memOk_iff.2 ⟨fun m' => ?_, fun i => ?_⟩
  · rw [Core.write, Core.withMem_mem]
    split
    · exact Memory.wf_write bytes a (hm m)
    · exact hm m'
  · rw [Core.write, Core.withMem_awl]; exact hb i

theorem Core.store_memOk {k : Core} (m : CoreMem) (a : Nat) (bytes : List Byte) (h : k.memOk = true) :
    (k.store m a bytes).memOk = true :=
  Core.write_memOk (k := { k with ecc := _ }) m a bytes h

theorem Core.modStrm_memOk_of {k : Core} {i : Nat} {f : Stream → Stream} (h : k.memOk = true)
    (hf : Mem.sortedFrom 0 (f (k.strm i)).buffer = true) : (k.modStrm i f).memOk = true := by
  obtain ⟨hm, hb⟩ := Core.memOk_iff.1 h
  refine Core.memOk_iff.2 ⟨hm, fun j => ?_⟩
  have e : (k.modStrm i f).awl.streams[j] = if i = j.val then f (k.strm i) else k.awl.streams[j] := by
    simp [Core.modStrm, Vector.getElem_setIfInBounds]
  rw [e]
  split
  · exact hf
  · exact hb j

@[simp] theorem Core.modStrm_memOk {k : Core} (i : Nat) (f : Stream → Stream) (hf : ∀ x, (f x).buffer = x.buffer) :
    (k.modStrm i f).memOk = k.memOk := by
  have e : ∀ j : Fin 64, (k.modStrm i f).awl.streams[j].buffer = k.awl.streams[j].buffer := by
    intro j
    by_cases hj : i = j.val
    · subst hj
      have e : k.strm j = k.awl.streams[j] := by simp [Core.strm, Vector.getD]
      simp [Core.modStrm, hf, ← e]
    · simp [Core.modStrm, hj]
  simp only [Core.memOk, e]
  rfl

@[simp] theorem State.modStrm_memOk (c : CoreId) (i : Nat) (f : Stream → Stream) (hf : ∀ x, (f x).buffer = x.buffer) :
    (s.modStrm c i f).memOk = s.memOk :=
  State.modCore_memOk_eq c _ (Core.modStrm_memOk i f hf)

theorem State.modStrm_memOk_of {c : CoreId} {i : Nat} {f : Stream → Stream} (h : s.memOk = true)
    (hf : Mem.sortedFrom 0 (f ((s.core c).strm i)).buffer = true) : (s.modStrm c i f).memOk = true :=
  State.modCore_memOk_of h (Core.modStrm_memOk_of (State.core_memOk h c) hf)

end Sys2Proof.Machine
end

