-- ==== Sys2Proof/Proofs/MemCore.lean ====
section
/-!
SUPPORT. The canonical form of a core's memories under the operations of the Needle, the Awl, the Press and the Plough.
-/

namespace Sys2Proof.Machine

variable {k : Core}

/-! ### Operations that store nothing -/

@[simp] theorem Core.observe_memOk (closed : Bool) (layer role : Nat) (x1 : Bool) (xs : List Num) (flush sat : Nat) :
    (k.observe closed layer role x1 xs flush sat).memOk = k.memOk := by
  unfold Core.observe
  split
  · rfl
  · cases closed <;> rfl

@[simp] theorem Core.observeLoad_memOk (closed : Bool) (layer roleR : Nat) (res : Resident) :
    (k.observeLoad closed layer roleR res).memOk = k.memOk := by
  simp [Core.observeLoad]

@[simp] theorem Core.dropElement_memOk (gap : Option W64) (row col : Nat) : (k.dropElement gap row col).memOk = k.memOk := by
  cases gap with
  | none => rfl
  | some n => simp only [Core.dropElement]; split <;> rfl

@[simp] theorem Core.takeWord_memOk : k.takeWord.memOk = k.memOk := by
  refine Core.memOk_congr rfl rfl rfl ?_
  simp only [Core.takeWord, Awl.setAhead]
  split <;> rfl

@[simp] theorem Core.withPress_memOk (p : Press) : Core.memOk { k with press := p } = k.memOk := by rfl

@[simp] theorem Core.withDoneSignals_memOk (gs : List Signal) : Core.memOk { k with doneSignals := gs } = k.memOk := by rfl

@[simp] theorem Core.usePage_memOk (p : Nat) : (k.usePage p).memOk = k.memOk := by rfl

@[simp] theorem Core.addKettle_memOk (g : Signal) : (k.addKettle g).memOk = k.memOk := by
  simp only [Core.memOk, Core.addKettle]

@[simp] theorem Core.clearPinned_memOk : k.clearPinned.memOk = k.memOk := by
  simp only [Core.memOk, Core.clearPinned]

@[simp] theorem Core.advance_memOk (st n : Nat) : (k.advance st n).memOk = k.memOk := by rfl

@[simp] theorem Core.countClamp_memOk (a : Nat) : (k.countClamp a).memOk = k.memOk := by rfl

@[simp] theorem Core.atRelease_memOk (sect : Sect) (now : Nat) (frame : BitVec 40) : (k.atRelease sect now frame).memOk = k.memOk :=
  Core.memOk_congr rfl rfl rfl rfl

@[simp] theorem Core.land_memOk (i : Nat) (keys : List (Nat × Nat)) : (k.land i keys).memOk = k.memOk :=
  Core.modStrm_memOk i _ fun _ => rfl

/-- Dropping the arms of a section leaves the received bytes of every stream. -/
@[simp] theorem Core.dropArms_memOk (e : Bool) : (k.dropArms e).memOk = k.memOk := by
  simp [Core.memOk, Core.dropArms]

@[simp] theorem Core.afterBoundary_memOk (sect : Sect) : (k.afterBoundary sect).memOk = k.memOk := by
  simp [Core.memOk, Core.afterBoundary, Core.dropArms, Core.clearPinned]

@[simp] theorem State.passWord_memOk (s : State) (img : Image) (c : CoreId) (elastic : Bool) (no w : Nat) :
    (s.passWord img c elastic no w k).memOk = k.memOk := by
  unfold State.passWord
  split
  · rfl
  · split
    · simp only [Core.memOk_ite]; exact ite_id _
    · split
      · simp
      · rfl

theorem State.readWord_memOk {s : State} {img : Image} {c : CoreId} {elastic : Bool} {k' : Core}
    (h : s.readWord img c elastic k = some k') : k'.memOk = k.memOk := by
  simp only [State.readWord, Option.ite_none_left_eq_some, Option.some.injEq] at h
  obtain ⟨-, rfl⟩ := h
  rw [State.passWord_memOk]
  unfold Awl.setAhead
  split <;> rfl

@[simp] theorem State.readOn_memOk (s : State) (img : Image) (c : CoreId) (elastic : Bool) (n : Nat) :
    (s.readOn img c elastic n k).memOk = k.memOk := by
  induction n generalizing k with
  | zero => rfl
  | succ n ih =>
    unfold State.readOn
    split
    · next k' hk => rw [ih, State.readWord_memOk hk]
    · rfl

/-! ### Operations that store -/

/-- The received bytes are empty where the Awl starts afresh. -/
theorem Core.stand_memOk (h : k.memOk = true) : k.stand.memOk = true := by
  obtain ⟨hm, -⟩ := Core.memOk_iff.1 h
  refine Core.memOk_iff.2 ⟨hm, fun i => ?_⟩
  simp [Core.stand, Awl.stand, Awl.reset, Stream.reset, Mem.sortedFrom]

theorem Core.begin_memOk (prologue : Bool) (h : k.memOk = true) : (k.begin prologue).memOk = true :=
  (Core.memOk_congr (k := k.stand) rfl rfl rfl rfl).trans (Core.stand_memOk h)

theorem Core.storeRuns_memOk (mem : CoreMem) (a : Nat) (bytes : List (Option Byte)) (h : k.memOk = true) :
    (k.storeRuns mem a bytes).memOk = true :=
  Core.foldl_memOk (fun _ p hk => Core.store_memOk mem p.1 p.2 hk) _ h

theorem Core.storeAcc_memOk (gap : Option W64) (t a : Nat) (bytes : List (Option Byte)) (h : k.memOk = true) :
    (k.storeAcc gap t a bytes).memOk = true := by
  refine Core.foldl_memOk (fun k p hk => ?_) _ h
  split
  · exact hk
  · split
    · rw [Core.dropElement_memOk]; exact hk
    · exact Core.storeRuns_memOk .acc p.1 p.2 hk

theorem Core.ploughStore_memOk (gap : Option W64) (t : Nat) (mem : CoreMem) (a : Nat) (bytes : List (Option Byte))
    (h : k.memOk = true) : (k.ploughStore gap t mem a bytes).memOk = true := by
  cases mem with
  | acc => exact Core.storeAcc_memOk gap t a bytes h
  | quire => exact Core.storeRuns_memOk .quire a bytes h
  | endpaper => exact Core.storeRuns_memOk .endpaper a bytes h

theorem Core.landWindow_memOk (e o : Nat) (bytes : List Byte) (h : k.memOk = true) : (k.landWindow e o bytes).memOk = true :=
  Core.foldl_memOk (fun _ _ hk => Core.store_memOk .quire _ _ hk) _ h

theorem Core.writeBeat_memOk (closed : Bool) (b : Beat) (res : Resident) (h : k.memOk = true) :
    (k.writeBeat closed b res).memOk = true := by
  unfold Core.writeBeat
  split
  · exact h
  · exact (Core.memOk_congr rfl rfl rfl rfl).trans ((Core.observe_memOk _ _ _ _ _ _ _).trans (Core.store_memOk .acc _ _ h))

theorem Core.stopPress_memOk (closed elastic : Bool) (h : k.memOk = true) : (k.stopPress closed elastic).memOk = true := by
  refine (Core.memOk_congr rfl rfl rfl rfl).trans (Core.foldl_memOk (fun x b hx => ?_) _ h)
  split
  · exact Core.writeBeat_memOk closed b _ hx
  · exact hx

/-- An abandoned stream loses its received bytes, and every other keeps them. -/
theorem Core.abortStep_memOk (votes : List (Nat × Bool × Nat × Byte × Bool × Nat)) (h : k.memOk = true) :
    (k.abortStep votes).memOk = true := by
  have hk : ((k.stopPress false false).dropArms false).memOk = true := by
    rw [Core.dropArms_memOk]; exact Core.stopPress_memOk false false h
  obtain ⟨hm, hb⟩ := Core.memOk_iff.1 hk
  refine Core.memOk_iff.2 ⟨hm, fun i => ?_⟩
  simp only [Core.abortStep, Fin.getElem_fin, Vector.getElem_map]
  split
  · rfl
  · exact hb i

end Sys2Proof.Machine
end

