-- ==== Sys2Proof/Proofs/MemShared.lean ====
section
/-!
SUPPORT. The canonical form under the operations that every meaning shares: the log, events, handles, faults, what the fabric sends,
and the beginning and the end of a program.
-/

namespace Sys2Proof.Machine

variable {s : State}

/-! ### The log, events and handles (R316, R321, R339) -/

@[simp] theorem State.mcDown_memOk (cause : Nat) : (s.mcDown cause).memOk = s.memOk := by
  simp [State.mcDown]

@[simp] theorem State.logAs_memOk (sev : BitVec 2) (code : Nat) (cont : Bool) (payload : Nat) :
    (s.logAs sev code cont payload).memOk = s.memOk := by
  simp [State.logAs]

@[simp] theorem State.log_memOk (code : Nat) (items : List W32) : (s.log code items).memOk = s.memOk := by
  simp [State.log]

@[simp] theorem State.logEvent_memOk (e : EventRec) : (s.logEvent e).memOk = s.memOk := by
  unfold State.logEvent
  cases e.record <;> simp

@[simp] theorem State.raise_memOk (code core : Nat) (items : List W32) (record : Option (BitVec 256)) (stepNo : Option W64) :
    (s.raise code core items record stepNo).memOk = s.memOk := by
  simp [State.raise]

@[simp] theorem State.raiseDev_memOk (code : Nat) (items : List W32) : (s.raiseDev code items).memOk = s.memOk := by
  simp [State.raiseDev]

@[simp] theorem State.raiseStep_memOk (code core : Nat) (items : List W32) (record : Option (BitVec 256)) (stepNo : Option W64) :
    (s.raiseStep code core items record stepNo).memOk = s.memOk := by
  simp [State.raiseStep]

@[simp] theorem HostIf.modEntry_mailboxes (h : HostIf) (x : Handle) (f : HandleEntry → HandleEntry) :
    (h.modEntry x f).mailboxes = h.mailboxes := by
  unfold HostIf.modEntry
  split <;> rfl

@[simp] theorem State.modEntry_memOk (x : Handle) (f : HandleEntry → HandleEntry) : (s.modEntry x f).memOk = s.memOk := by
  simp [State.modEntry]

@[simp] theorem State.markBegun_memOk (x : Handle) : (s.markBegun x).memOk = s.memOk := by
  simp [State.markBegun]

@[simp] theorem State.complete_memOk (x : Handle) (status detail result : Nat) : (s.complete x status detail result).memOk = s.memOk := by
  unfold State.complete
  split <;> simp

@[simp] theorem State.completeAll_memOk (xs : List Handle) (status detail result : Nat) :
    (s.completeAll xs status detail result).memOk = s.memOk := by
  simp [State.completeAll]

@[simp] theorem State.badField_memOk (x : Handle) (lo : Nat) : (s.badField x lo).memOk = s.memOk := by
  simp [State.badField]

@[simp] theorem State.fault_memOk (cause who : Nat) (record : Option (BitVec 256)) : (s.fault cause who record).memOk = s.memOk := by
  simp [State.fault]

@[simp] theorem State.faultNext_memOk (cause who : Nat) (record : Option (BitVec 256)) :
    (s.faultNext cause who record).memOk = s.memOk := by
  simp [State.faultNext]

/-! ### What the fabric sends (R278 to R288) -/

@[simp] theorem State.emit_memOk (lane : Option LaneId) (vc : BitVec 2) (timed : Bool) (src : BitVec 16) (seq : W32) (flits : Nat)
    (transit : Option Transfer) (header : BitVec 512) (m : Msg) :
    (s.emit lane vc timed src seq flits transit header m).memOk = s.memOk := by
  unfold State.emit
  cases lane <;> simp

@[simp] theorem State.sendAs_memOk (dst : BitVec 16) (seq : W32) (escape : Bool) (m : Msg) :
    (s.sendAs dst seq escape m).memOk = s.memOk := by
  simp [State.sendAs]

@[simp] theorem State.sendDyn_memOk (dst : BitVec 16) (i : Initiator) (m : Msg) : (s.sendDyn dst i m).memOk = s.memOk := by
  simp [State.sendDyn]

@[simp] theorem State.send_memOk (dst : BitVec 16) (m : Msg) : (s.send dst m).memOk = s.memOk := by
  simp [State.send]

@[simp] theorem State.flood_memOk (but : Option LaneId) (m : Msg) : (s.flood but m).memOk = s.memOk := by
  simp [State.flood]

@[simp] theorem State.sendLink_memOk (l : LaneId) (header : BitVec 512) (m : Msg) : (s.sendLink l header m).memOk = s.memOk := by
  simp [State.sendLink]

@[simp] theorem State.passOn_memOk (l : LaneId) (vc : BitVec 2) (timed : Bool) (t : Transfer) :
    (s.passOn l vc timed t).memOk = s.memOk := by
  simp [State.passOn]

@[simp] theorem State.serveLanes_memOk : s.serveLanes.memOk = s.memOk := by
  simp [State.serveLanes]

@[simp] theorem State.sendSync_memOk (l : LaneId) : (s.sendSync l).memOk = s.memOk := by
  simp [State.sendSync]

@[simp] theorem State.sendPartner_memOk (l : LaneId) : (s.sendPartner l).memOk = s.memOk := by
  simp [State.sendPartner]

@[simp] theorem State.advertise_memOk : s.advertise.memOk = s.memOk := by
  simp [State.advertise]

@[simp] theorem State.resendPartner_memOk : s.resendPartner.memOk = s.memOk := by
  simp [State.resendPartner]

@[simp] theorem State.setIfLevel_memOk (level : Byte) : (s.setIfLevel level).memOk = s.memOk := by
  simp [State.setIfLevel]

@[simp] theorem State.noteRoot_memOk : s.noteRoot.memOk = s.memOk := by
  simp [State.noteRoot]

@[simp] theorem State.retryEscape_memOk : s.retryEscape.memOk = s.memOk := by
  refine State.foldl_memOk_eq _ (fun s e => ?_) _
  split <;> simp

@[simp] theorem State.topologyChanged_memOk : s.topologyChanged.memOk = s.memOk := by
  simp [State.topologyChanged]

@[simp] theorem State.takeId_memOk (id : BitVec 16) (source : BitVec 2) : (s.takeId id source).memOk = s.memOk := by
  simp [State.takeId]

@[simp] theorem State.takeShelf_memOk : s.takeShelf.memOk = s.memOk := by
  unfold State.takeShelf
  split <;> simp

@[simp] theorem State.flipTables_memOk : s.flipTables.memOk = s.memOk := by
  simp [State.flipTables]

@[simp] theorem State.sendMembers_memOk (m : Msg) : (s.sendMembers m).memOk = s.memOk := by
  simp [State.sendMembers]

/-! ### Steering and late observations (R116, R128, R217) -/

@[simp] theorem State.raiseSteer_memOk (e : SteerEvent) : (s.raiseSteer e).memOk = s.memOk := by
  cases e <;> simp [State.raiseSteer]

@[simp] theorem State.raiseHistory_memOk : s.raiseHistory.memOk = s.memOk := by
  simp only [State.raiseHistory]
  split <;> simp

@[simp] theorem State.raiseCountSat_memOk (rs : List CollRec) : (s.raiseCountSat rs).memOk = s.memOk := by
  simp [State.raiseCountSat]

@[simp] theorem State.raiseGaps_memOk (c : CoreId) : (s.raiseGaps c).memOk = s.memOk := by
  simp [State.raiseGaps]

@[simp] theorem State.raiseCore_memOk (c : CoreId) : (s.raiseCore c).memOk = s.memOk := by
  have hc : (match (s.core c).collide with
      | some x => (s.raiseGaps c).raiseStep 0x030A c.val [item c.val, item x.count, item x.row, item x.col]
      | none => s.raiseGaps c).memOk = s.memOk := by
    split <;> simp
  simp only [State.raiseCore]
  split
  · rw [State.raiseStep_memOk]; exact hc
  · exact hc

theorem State.writeCollationHalf_memOk (img : Image) (rs : List CollRec) (h : s.memOk = true) :
    (s.writeCollationHalf img rs).memOk = true := by
  simp [State.writeCollationHalf, h]

theorem State.commitSteering_memOk (img : Image) (h : s.memOk = true) : (s.commitSteering img).memOk = true := by
  simp [State.commitSteering, State.writeCollationHalf_memOk img s.groupOf h]

/-! ### Sites and placement (R231, R234) -/

@[simp] theorem State.showRoles_memOk : s.showRoles.memOk = s.memOk := by
  unfold State.showRoles
  split <;> rfl

/-- The endpaper memory as the Binder fills it is canonical: it is written from nothing. -/
theorem State.endpaperOf_wf (img : Image) (c : Nat) : Memory.wf zeroByte (s.endpaperOf img c) = true := by
  simp only [State.endpaperOf]
  split
  · exact Memory.wf_write _ _ (Memory.wf_nil _)
  · simp only [List.foldl_cons, List.foldl_nil]
    iterate 6 apply Memory.wf_write
    exact Memory.wf_nil _

theorem State.clearCore_memOk (img : Image) (c : CoreId) (h : s.memOk = true) : (s.clearCore img c).memOk = true := by
  obtain ⟨-, hb⟩ := Core.memOk_iff.1 (State.core_memOk h c)
  refine State.modCore_memOk_of h (Core.memOk_iff.2 ⟨fun m => ?_, hb⟩)
  cases m with
  | quire => rfl
  | acc => rfl
  | endpaper => exact State.endpaperOf_wf img c

theorem Site.keep_memOk (x : Site) {k : Core} (h : k.memOk = true) : (x.keep k).memOk = true := by
  obtain ⟨hm, -⟩ := Core.memOk_iff.1 h
  simp only [Site.memOk, Bool.and_eq_true]
  exact ⟨⟨hm .quire, hm .acc⟩, hm .endpaper⟩

@[simp] theorem Site.cleared_memOk (x : Site) : x.cleared.memOk = true := by rfl

theorem State.moveCore_memOk (img : Image) (c : CoreId) (g : SiteId) (h : s.memOk = true) : (s.moveCore img c g).memOk = true := by
  have hk := State.modSite_memOk_of (i := (s.core c).site) (f := (·.keep (s.core c))) h (Site.keep_memOk _ (State.core_memOk h c))
  simp only [State.moveCore, State.showRoles_memOk]
  apply State.clearCore_memOk
  simp only [State.modCore_memOk, implies_true]
  exact State.modSite_memOk_of hk rfl

/-- A core that takes over another's memories is canonical: the received bytes stay its own. -/
theorem Core.memOk_of_taken {k x k' : Core} (hk : k.memOk = true) (hx : x.memOk = true) (hq : k'.quire = x.quire) (ha : k'.acc = x.acc)
    (he : k'.endp = x.endp) (hs : k'.awl.streams = k.awl.streams) : k'.memOk = true := by
  simp only [Core.memOk, Bool.and_eq_true, hq, ha, he, hs] at *
  exact ⟨hx.1, hk.2⟩

theorem State.swapCores_memOk (c d : CoreId) (h : s.memOk = true) : (s.swapCores c d).memOk = true := by
  have hx := State.core_memOk h c
  have hy := State.core_memOk h d
  simp only [State.swapCores, State.showRoles_memOk]
  have hc := State.modCore_memOk_of (c := c) (f := fun k => { k with
    site := (s.core d).site, quire := (s.core d).quire, acc := (s.core d).acc, endp := (s.core d).endp, ecc := (s.core d).ecc }) h
    (Core.memOk_of_taken hx hy rfl rfl rfl rfl)
  exact State.modCore_memOk_of hc (Core.memOk_of_taken (State.core_memOk hc d) hx rfl rfl rfl rfl)

theorem State.placeCore_memOk (img : Image) (c : CoreId) (h : s.memOk = true) : (s.placeCore img c).memOk = true := by
  simp only [State.placeCore]
  split
  · exact h
  · split
    · exact State.moveCore_memOk img c _ h
    · split
      · exact State.swapCores_memOk c _ h
      · exact h

theorem State.placeCores_memOk (img : Image) (h : s.memOk = true) : (s.placeCores img).memOk = true := by
  simp only [State.placeCores, State.modProg_memOk]
  exact State.foldl_memOk (fun s c hs => State.placeCore_memOk img c hs) _ h

/-! ### The beginning of a program (R131, R133, R160, R220) -/

theorem State.beginCore_memOk (img : Image) (c : CoreId) (h : s.memOk = true) : (s.beginCore img c).memOk = true := by
  unfold State.beginCore
  split
  · have hc := State.clearCore_memOk img c h
    have hb := Core.begin_memOk (img.direct || decide ((s.part img c 0).2 ≠ 0)) (State.core_memOk hc c)
    exact State.modCore_memOk_of hc (by simpa only [Core.memOk] using hb)
  · exact State.modCore_memOk_of h (Core.stand_memOk (State.core_memOk h c))

theorem State.startProgram_memOk (img : Image) (x : Handle) (ranks : List (BitVec 10 × BitVec 16)) (h : s.memOk = true) :
    (s.startProgram img x ranks).memOk = true := by
  have hb := State.foldl_memOk (fun s (c : CoreId) hs => State.beginCore_memOk img c hs) allCores (State.placeCores_memOk img h)
  simp [State.startProgram, hb]

theorem State.tryActivate_memOk (h : s.memOk = true) : s.tryActivate.memOk = true := by
  unfold State.tryActivate
  split
  · split
    · exact h
    · split
      · exact h
      · simp [h]
      · exact State.startProgram_memOk _ _ _ h
  · exact h

/-! ### The end of a program and faults of a core (R18, R116, R325, R327) -/

theorem State.writeCollation_memOk (h : s.memOk = true) : s.writeCollation.memOk = true := by
  unfold State.writeCollation
  split
  · exact h
  · split
    · exact h
    · exact State.dramWrite_memOk _ _ h

theorem State.endProgramWith_memOk (status detail : Nat) (result : Option Nat) (more : List W32) (h : s.memOk = true) :
    (s.endProgramWith status detail result more).memOk = true := by
  unfold State.endProgramWith
  split
  · exact h
  · apply State.tryActivate_memOk
    simp only [State.takeShelf_memOk, State.memOk_ite, State.advertise_memOk, State.modFab_memOk, State.modCad_memOk,
      State.modProg_memOk, ite_self]
    refine State.mapCores_memOk_of (fun _ => Core.stand_memOk) ((State.foldl_memOk_eq _ (fun s x => ?_) _).trans ?_)
    · split <;> simp
    · simp [State.writeCollation_memOk, h]

theorem State.endProgram_memOk (status detail : Nat) (result : Option Nat) (h : s.memOk = true) :
    (s.endProgram status detail result).memOk = true :=
  State.endProgramWith_memOk status detail result [] h

theorem State.coreStopsWith_memOk (c : CoreId) (status detail : Nat) (more : List W32) (h : s.memOk = true) :
    (s.coreStopsWith c status detail more).memOk = true :=
  State.endProgramWith_memOk status detail none more (by simp [h])

theorem State.coreStops_memOk (c : CoreId) (status detail : Nat) (h : s.memOk = true) : (s.coreStops c status detail).memOk = true :=
  State.coreStopsWith_memOk c status detail [] h

theorem State.coreFault_memOk (c : CoreId) (cause : Nat) (record : Option (BitVec 256)) (h : s.memOk = true) :
    (s.coreFault c cause record).memOk = true := by
  simp [State.coreFault, State.coreStops_memOk, h]

/-! ### Words in error and the stores of a core (R216 to R224) -/

@[simp] theorem State.countCe_memOk (i : SiteId) (mem : CoreMem) (r : BitVec 256) : (s.countCe i mem r).memOk = s.memOk := by
  cases mem <;> simp [State.countCe, Site.bumpCe]

@[simp] theorem State.countUe_memOk (i : SiteId) (r : BitVec 256) : (s.countUe i r).memOk = s.memOk := by
  simp [State.countUe]

theorem State.meetMark_memOk (c : CoreId) (requester : Nat) (m : EccMark) (h : s.memOk = true) :
    (s.meetMark c requester m).memOk = true := by
  simp only [State.meetMark]
  split
  · exact h
  · simp [h]
  · exact State.coreFault_memOk c _ _ (by simp [h])

@[simp] theorem State.touch_memOk (c : CoreId) (mem : CoreMem) (a n requester : Nat) (h : s.memOk = true) :
    (s.touch c mem a n requester).memOk = true :=
  State.foldl_memOk (fun _ m hs => State.meetMark_memOk c requester m hs) _ h

theorem State.touchTable_memOk (img : Image) (c : CoreId) (k size i : Nat) (h : s.memOk = true) :
    (s.touchTable img c k size i).memOk = true :=
  State.touch_memOk c .endpaper _ _ 4 h

theorem State.touchPartial_memOk (c : CoreId) (mem : CoreMem) (a n requester : Nat) (h : s.memOk = true) :
    (s.touchPartial c mem a n requester).memOk = true :=
  State.foldl_memOk (fun _ x hs => State.touch_memOk c mem x 1 requester hs) _ h

theorem State.storeCore_memOk (c : CoreId) (t : Nat) (mem : CoreMem) (a : Nat) (bytes : List (Option Byte)) (requester : Nat)
    (h : s.memOk = true) : (s.storeCore c t mem a bytes requester).memOk = true := by
  have ht := State.foldl_memOk (fun _ (p : Nat × List Byte) hs => State.touchPartial_memOk c mem p.1 p.2.length requester hs)
    (byteRuns a bytes) h
  exact State.modCore_memOk_of ht (Core.ploughStore_memOk _ t mem a bytes (State.core_memOk ht c))

end Sys2Proof.Machine
end

