-- ==== Sys2Proof/Proofs/MemEngines.lean ====
section
/-!
SUPPORT. The canonical form under the commands of a core's engines: the Plough, the Press, the Needle and the Awl.
-/

namespace Sys2Proof.Machine

variable {s : State}

/-! ### The Plough (R190 to R208) -/

@[simp] theorem State.ploughFault_memOk (c : CoreId) (addr : Nat) (h : s.memOk = true) : (s.ploughFault c addr).memOk = true :=
  State.coreStopsWith_memOk c _ _ _ h

@[simp] theorem State.ploughNext_memOk (c : CoreId) : (s.ploughNext c).memOk = s.memOk := by
  simp only [State.ploughNext]
  split <;> simp

@[simp] theorem State.ploughEndInvocation_memOk (c : CoreId) : (s.ploughEndInvocation c).memOk = s.memOk := by
  simp only [State.ploughEndInvocation]
  split <;> simp

@[simp] theorem State.fetchLine_memOk (c : CoreId) (h : s.memOk = true) : (s.fetchLine c).memOk = true := by
  simp [State.fetchLine, h]

@[simp] theorem State.takeDraws_memOk (c : CoreId) (r n : Nat) : (s.takeDraws c r n).memOk = s.memOk := by
  simp [State.takeDraws, Core.advance]

@[simp] theorem State.ploughHalt_memOk (c : CoreId) (reason space a : Nat) : (s.ploughHalt c reason space a).memOk = s.memOk := by
  simp [State.ploughHalt]

@[simp] theorem State.modCore_observe_memOk (c : CoreId) (closed : Bool) (layer role : Nat) (x1 : Bool) (xs : List Num) (flush sat : Nat) :
    (s.modCore c fun k => k.observe closed layer role x1 xs flush sat).memOk = s.memOk :=
  State.modCore_memOk_eq c _ (Core.observe_memOk closed layer role x1 xs flush sat)

theorem State.ploughLoad_memOk (c : CoreId) (space a n : Nat) (vector : Bool) {f : List Byte → State → State}
    (hf : ∀ bs t, t.memOk = true → (f bs t).memOk = true) (h : s.memOk = true) : (s.ploughLoad c space a n vector f).memOk = true := by
  have ht := State.touch_memOk c (spaceMem space) a n 2 h
  simp [State.ploughLoad, h, ht, hf _ _ ht]

theorem State.ploughPut_memOk (c : CoreId) (t space a : Nat) (vector : Bool) (bytes : List (Option Byte)) {f : State → State}
    (hf : ∀ t, t.memOk = true → (f t).memOk = true) (h : s.memOk = true) : (s.ploughPut c t space a vector bytes f).memOk = true := by
  have hu := State.storeCore_memOk c t (spaceMem space) a bytes 2 h
  simp [State.ploughPut, h, hu, hf _ hu]

theorem State.quantise_memOk (c : CoreId) (cycle r code : Nat) (e5m2 : Bool) (h : s.memOk = true) :
    (s.quantise c cycle r code e5m2).memOk = true := by
  simp only [State.quantise]
  split
  · exact State.ploughFault_memOk c _ h
  · exact State.ploughPut_memOk c _ _ _ _ _ (fun t ht => by simp [ht]) h

/-- A Plough instruction keeps the canonical form if its effect does. -/
theorem ploughDo_memOk (c : CoreId) (op : Nat) {f : Nat → State → State} (hf : ∀ r t, t.memOk = true → (f r t).memOk = true)
    (h : s.memOk = true) : outMemOk (ploughDo c op f s) = true := by
  have ht := State.fetchLine_memOk c h
  simp [ploughDo, h, ht, hf _ _ ht]

/-- An instruction on the registers touches no memory but by fetching its line. -/
theorem ploughRegs_memOk (c : CoreId) (op : Nat) (f : Nat → Plough → Plough) (h : s.memOk = true) :
    outMemOk (ploughRegs c op f s) = true :=
  ploughDo_memOk c op (fun r t ht => by simp [ht]) h

theorem execPloughEnd_memOk (c : CoreId) (h : s.memOk = true) : outMemOk (execPloughEnd c s) = true :=
  ploughDo_memOk c 0x01 (fun _ t ht => by simp [ht]) h

theorem execPloughLoop_memOk (c : CoreId) (h : s.memOk = true) : outMemOk (execPloughLoop c s) = true :=
  ploughDo_memOk c 0x02 (fun _ t ht => by simp [ht]) h

theorem execPloughEndLoop_memOk (c : CoreId) (h : s.memOk = true) : outMemOk (execPloughEndLoop c s) = true :=
  ploughDo_memOk c 0x03 (fun _ t ht => by split <;> simp [ht]) h

theorem execBrf_memOk (c : CoreId) (h : s.memOk = true) : outMemOk (execBrf c s) = true :=
  ploughDo_memOk c 0x04 (fun _ t ht => by simp [ht]) h

theorem execVld_memOk (c : CoreId) (h : s.memOk = true) : outMemOk (execVld c s) = true :=
  ploughDo_memOk c 0x10 (fun _ _ ht => State.ploughLoad_memOk c _ _ _ _ (fun _ u hu => by simp [hu]) ht) h

theorem execVst_memOk (c : CoreId) (cycle : Nat) (h : s.memOk = true) : outMemOk (execVst c cycle s) = true :=
  ploughDo_memOk c 0x11 (fun _ _ ht => State.ploughPut_memOk c _ _ _ _ _ (fun u hu => by simp [hu]) ht) h

theorem execSld_memOk (c : CoreId) (h : s.memOk = true) : outMemOk (execSld c s) = true := by
  refine ploughDo_memOk c 0x14 (fun r t ht => ?_) h
  split
  · simp [ht]
  · exact State.ploughLoad_memOk c _ _ _ _ (fun _ u hu => by simp [hu]) ht

theorem execSst_memOk (c : CoreId) (cycle : Nat) (h : s.memOk = true) : outMemOk (execSst c cycle s) = true := by
  refine ploughDo_memOk c 0x15 (fun r t ht => ?_) h
  split
  · simp [ht]
  · exact State.ploughPut_memOk c _ _ _ _ _ (fun u hu => by simp [hu]) ht

theorem execQfolio_memOk (c : CoreId) (cycle : Nat) (h : s.memOk = true) : outMemOk (execQfolio c cycle s) = true :=
  ploughDo_memOk c 0x40 (fun _ _ ht => State.quantise_memOk c cycle _ _ _ ht) h

theorem execQwire_memOk (c : CoreId) (cycle : Nat) (h : s.memOk = true) : outMemOk (execQwire c cycle s) = true :=
  ploughDo_memOk c 0x41 (fun _ _ ht => State.quantise_memOk c cycle _ _ _ ht) h

theorem execQcvt_memOk (c : CoreId) (cycle : Nat) (h : s.memOk = true) : outMemOk (execQcvt c cycle s) = true :=
  ploughDo_memOk c 0x42 (fun _ _ ht => State.ploughPut_memOk c _ _ _ _ _ (fun u hu => by simp [hu]) ht) h

theorem execUnpack_memOk (c : CoreId) (h : s.memOk = true) : outMemOk (execUnpack c s) = true :=
  ploughDo_memOk c 0x43 (fun _ _ ht => State.ploughLoad_memOk c _ _ _ _ (fun _ u hu => by dsimp only; split <;> simp [hu]) ht) h

theorem execTestf_memOk (c : CoreId) (h : s.memOk = true) : outMemOk (execTestf c s) = true :=
  ploughDo_memOk c 0x44 (fun _ _ ht => State.ploughLoad_memOk c _ _ _ _ (fun _ u hu => by simp [hu]) ht) h

theorem execMreenc_memOk (c : CoreId) (h : s.memOk = true) : outMemOk (execMreenc c s) = true := by
  refine ploughDo_memOk c 0x45 (fun r t ht => State.ploughLoad_memOk c _ _ _ _ (fun _ u hu => ?_) ht) h
  split
  · simp [hu]
  · refine State.ploughLoad_memOk c _ _ _ _ (fun _ v hv => State.ploughPut_memOk c _ _ _ _ _ (fun w hw => ?_) hv) hu
    simp [Core.countClamp, hw]

theorem execVrand_memOk (c : CoreId) (h : s.memOk = true) : outMemOk (execVrand c s) = true :=
  ploughDo_memOk c 0x48 (fun _ t ht => by simp [Core.advance, ht]) h

/-! ### Reading ahead, streams and halts (R164 to R166, R186) -/

@[simp] theorem State.awlReads_memOk (c : CoreId) : (s.awlReads c).memOk = s.memOk := by
  simp only [State.awlReads]
  split
  · rfl
  · rw [State.memOk_ite, State.modCore_memOk_eq _ _ (by simp), ite_self]

@[simp] theorem State.haltStream_memOk (c : CoreId) (i : Nat) (elastic : Bool) (x : HaltAt) :
    (s.haltStream c i elastic x).memOk = s.memOk := by
  simp [State.haltStream]

/-! ### The Press (R22 to R73) -/

@[simp] theorem State.finishRun_memOk (c : CoreId) (serial : Nat) : (s.finishRun c serial).memOk = s.memOk := by
  simp only [State.finishRun]
  split <;> simp

theorem execShadowLoadComplete_memOk (c : CoreId) (h : s.memOk = true) : outMemOk (execShadowLoadComplete c s) = true := by
  have ht : (s.awlReads c).memOk = true := by simp [h]
  simp only [execShadowLoadComplete]
  split
  · simp [ht]
  · split
    · simp [ht]
    · next j p _ =>
      split
      · simp [ht]
      · split
        · simp [ht]
        · split
          · simp [ht]
          · split
            · simp [ht]
            · next cols keys _ =>
              have hk := State.core_memOk ht c
              refine State.modCore_memOk_of ht ?_
              rw [Core.withPress_memOk]
              refine Core.modStrm_memOk_of ?_ rfl
              simp [hk]

theorem execPassExchange_memOk (c : CoreId) (h : s.memOk = true) : outMemOk (execPassExchange c s) = true := by
  simp only [execPassExchange]
  split <;> simp [h]

theorem execPassRowIssue_memOk (c : CoreId) (cycle : Nat) (h : s.memOk = true) : outMemOk (execPassRowIssue c cycle s) = true := by
  simp only [execPassRowIssue]
  split
  · exact h
  · next ap _ =>
    have ht := State.touch_memOk c .quire (ap.base + ap.pitch * ap.next) (ap.mode.rowBytes ap.sfmt) 0 h
    split
    · exact h
    · split
      · exact ht
      · rw [outMemOk_next, State.modCore_memOk_eq, ht]
        simp

@[simp] theorem State.modCore_writeBeat_memOk (c : CoreId) (closed : Bool) (b : Beat) (res : Resident) (h : s.memOk = true) :
    (s.modCore c fun k => k.writeBeat closed b res).memOk = true :=
  State.modCore_memOk_of h (Core.writeBeat_memOk closed b res (State.core_memOk h c))

theorem execBeatWrite_memOk (c : CoreId) (residueFault : Option (Fin 128)) (h : s.memOk = true) :
    outMemOk (execBeatWrite c residueFault s) = true := by
  simp only [execBeatWrite]
  split
  · exact h
  · next b rest _ =>
    split
    · exact h
    · next res _ =>
      split
      · exact h
      · have ht : (if b.accumulate then s.touch c .acc (512 * b.accRow) (4 * res.cols.length) 3 else s).memOk = true := by simp [h]
        generalize (if b.accumulate then s.touch c .acc (512 * b.accRow) (4 * res.cols.length) 3 else s) = t at ht
        split
        · exact ht
        · rw [outMemOk_next, State.memOk_ite, State.finishRun_memOk, ite_self]
          split
          · simp [ht]
          · exact State.coreFault_memOk c 1 _ (by simp [ht])

end Sys2Proof.Machine
end

