-- ==== Sys2Proof/Proofs/MemNeedle.lean ====
section
/-!
SUPPORT. The canonical form under the commands of the Needle, the words of direct programs, and errors of memory words.
-/

namespace Sys2Proof.Machine

variable {s : State}

/-! ### The Needle (R140 to R158) -/

@[simp] theorem State.takeWord_memOk (c : CoreId) : (s.takeWord c).memOk = s.memOk :=
  State.modCore_memOk_eq c _ Core.takeWord_memOk

@[simp] theorem State.modCore_dropArms_memOk (c : CoreId) (e : Bool) : (s.modCore c (·.dropArms e)).memOk = s.memOk :=
  State.modCore_memOk_eq c _ (Core.dropArms_memOk e)

@[simp] theorem State.modCore_addKettle_memOk (c : CoreId) (g : Signal) : (s.modCore c (·.addKettle g)).memOk = s.memOk :=
  State.modCore_memOk_eq c _ (Core.addKettle_memOk g)

@[simp] theorem State.modCore_modStrm_memOk (c : CoreId) (i : Nat) (f : Stream → Stream) (hf : ∀ x, (f x).buffer = x.buffer) :
    (s.modCore c fun k => k.modStrm i f).memOk = s.memOk :=
  State.modStrm_memOk c i f hf

@[simp] theorem State.decodeFault_memOk (c : CoreId) (h : s.memOk = true) : (s.decodeFault c).memOk = true :=
  State.coreStops_memOk c _ _ h

/-- A word of the command stream keeps the canonical form if its effect does. -/
theorem needleDo_memOk (c : CoreId) (op : Nat) {f : Image → Nat → Nat → State → State}
    (hf : ∀ img no w t, t.memOk = true → (f img no w t).memOk = true) (h : s.memOk = true) :
    outMemOk (needleDo c op f s) = true := by
  have ht : (s.awlReads c).memOk = true := by simp [h]
  simp only [needleDo]
  split
  · exact h
  · split
    · exact h
    · split
      · simp [h, ht]
      · simp [h, ht, hf _ _ _ _ ht]

@[simp] theorem State.endElastic_memOk : s.endElastic.memOk = s.memOk := by
  unfold State.endElastic
  split
  · rfl
  · split
    · rfl
    · split <;> simp

@[simp] theorem State.beginStep_memOk : s.beginStep.memOk = s.memOk := by
  simp only [State.beginStep]
  split
  · split <;> simp
  · simp

theorem execNeedleNop_memOk (c : CoreId) (h : s.memOk = true) : outMemOk (execNeedleNop c s) = true :=
  needleDo_memOk c 0x00 (fun _ _ _ t ht => by simp [ht]) h

theorem execStepEnd_memOk (c : CoreId) (h : s.memOk = true) : outMemOk (execStepEnd c s) = true :=
  needleDo_memOk c 0x01 (fun _ _ _ t ht => by simp [ht]) h

theorem execSectionEnd_memOk (c : CoreId) (h : s.memOk = true) : outMemOk (execSectionEnd c s) = true :=
  needleDo_memOk c 0x02 (fun _ _ _ t ht => by simp [ht, State.endProgram_memOk]) h

theorem execRun_memOk (c : CoreId) (h : s.memOk = true) : outMemOk (execRun c s) = true :=
  needleDo_memOk c 0x10 (fun _ _ _ t ht => by simp [ht, State.touchTable_memOk]) h

theorem execStream_memOk (c : CoreId) (h : s.memOk = true) : outMemOk (execStream c s) = true :=
  needleDo_memOk c 0x11 (fun _ _ _ t ht => by simp [ht]) h

theorem execKettleSignal_memOk (c : CoreId) (h : s.memOk = true) : outMemOk (execKettleSignal c s) = true :=
  needleDo_memOk c 0x20 (fun _ _ _ t ht => by simp [ht]) h

theorem execKettleSignalApply_memOk (c : CoreId) (completion : Bool) (h : s.memOk = true) :
    outMemOk (execKettleSignalApply c completion s) = true := by
  simp only [execKettleSignalApply]
  split
  · exact h
  · split
    · split <;> simp [h]
    · split <;> simp [h]

theorem execKettleWait_memOk (c : CoreId) (h : s.memOk = true) : outMemOk (execKettleWait c s) = true :=
  needleDo_memOk c 0x21 (fun _ _ _ t ht => by simp [ht]) h

theorem execCadence_memOk (c : CoreId) (h : s.memOk = true) : outMemOk (execCadence c s) = true :=
  needleDo_memOk c 0x30 (fun _ _ _ t ht => by simp [ht]) h

theorem fabricWord_memOk (c : CoreId) (recv : Bool) (img : Image) (no w : Nat) (h : s.memOk = true) :
    (fabricWord c recv img no w s).memOk = true := by
  simp [fabricWord, h]

theorem execFabricSend_memOk (c : CoreId) (h : s.memOk = true) : outMemOk (execFabricSend c s) = true :=
  needleDo_memOk c 0x40 (fun img no w _ ht => fabricWord_memOk c false img no w ht) h

theorem execFabricRecv_memOk (c : CoreId) (h : s.memOk = true) : outMemOk (execFabricRecv c s) = true :=
  needleDo_memOk c 0x41 (fun img no w _ ht => fabricWord_memOk c true img no w ht) h

theorem execSnapshot_memOk (c : CoreId) (h : s.memOk = true) : outMemOk (execSnapshot c s) = true :=
  needleDo_memOk c 0x50 (fun _ _ _ t ht => by simp [ht]) h

theorem execStepRelease_memOk (h : s.memOk = true) : outMemOk (execStepRelease s) = true := by
  simp only [execStepRelease]
  split
  · exact h
  · have ht : ∀ cs : List CoreId,
        (cs.foldl (fun t c => t.modCore c (·.atRelease s.prog.schedule s.now s.cad.frame)) s).memOk = s.memOk :=
      fun cs => State.foldl_memOk_eq _ (fun t c => State.modCore_memOk_eq c _ (Core.atRelease_memOk _ _ _)) cs
    simp [h, ht]

/-! ### Words of direct programs (R157, R158) -/

theorem execDtLoad_memOk (c : CoreId) (h : s.memOk = true) : outMemOk (execDtLoad c s) = true := by
  refine needleDo_memOk c 0x60 (fun _ _ w t ht => ?_) h
  dsimp only
  split
  · exact ht
  · split <;> simp [ht, State.directHalt]

theorem execDtPass_memOk (c : CoreId) (h : s.memOk = true) : outMemOk (execDtPass c s) = true := by
  refine needleDo_memOk c 0x61 (fun _ _ w t ht => ?_) h
  dsimp only
  split
  · split
    · exact ht
    · rw [State.modCore_memOk_eq, State.takeWord_memOk, ht]
      rw [Core.withPress_memOk]
      split <;> simp
  · exact ht

theorem execDtPlough_memOk (c : CoreId) (h : s.memOk = true) : outMemOk (execDtPlough c s) = true :=
  needleDo_memOk c 0x62 (fun _ _ _ t ht => by simp [ht]) h

theorem State.modCore_store_memOk (c : CoreId) (mem : CoreMem) (a : Nat) (bytes : List Byte) (h : s.memOk = true) :
    (s.modCore c fun k => k.store mem a bytes).memOk = true :=
  State.modCore_memOk_of h (Core.store_memOk mem a bytes (State.core_memOk h c))

theorem execDtMove_memOk (c : CoreId) (h : s.memOk = true) : outMemOk (execDtMove c s) = true := by
  refine needleDo_memOk c 0x63 (fun _ _ w t ht => ?_) h
  dsimp only
  split
  · exact ht
  · split
    · have hu := State.touch_memOk c .quire (fld w 32 23) (64 * fld w 16 16) 1 ht
      simp [hu]
    · split
      · simp [ht, State.directHalt]
      · simp [ht, State.modCore_store_memOk]

/-! ### Errors of memory words (R223 to R227) -/

@[simp] theorem State.setMarks_memOk (i : SiteId) (ms : List EccMark) : (s.setMarks i ms).memOk = s.memOk := by
  unfold State.setMarks
  split <;> simp

theorem Site.withMem_memOk (x : Site) (mem : CoreMem) {m : Memory} (h : x.memOk = true) (hm : Memory.wf zeroByte m = true) :
    (x.withMem mem m).memOk = true := by
  simp only [Site.memOk, Bool.and_eq_true] at h ⊢
  obtain ⟨⟨hq, ha⟩, he⟩ := h
  cases mem with
  | quire => exact ⟨⟨hm, ha⟩, he⟩
  | acc => exact ⟨⟨hq, hm⟩, he⟩
  | endpaper => exact ⟨⟨hq, ha⟩, hm⟩

theorem Site.mem_wf {x : Site} (h : x.memOk = true) (mem : CoreMem) : Memory.wf zeroByte (x.mem mem) = true := by
  simp only [Site.memOk, Bool.and_eq_true] at h
  obtain ⟨⟨hq, ha⟩, he⟩ := h
  cases mem <;> assumption

theorem State.spoil_memOk (i : SiteId) (mem : CoreMem) (a : Nat) (bytes : List Byte) (h : s.memOk = true) :
    (s.spoil i mem a bytes).memOk = true := by
  unfold State.spoil
  split
  · exact State.modCore_memOk_of h (Core.write_memOk mem a bytes (State.core_memOk h _))
  · have hi := State.site_memOk h i
    exact State.modSite_memOk_of h (Site.withMem_memOk _ mem hi (Memory.wf_write bytes a (Site.mem_wf hi mem)))

theorem State.breakWord_memOk (i : SiteId) (m : EccMark) (h : s.memOk = true) : (s.breakWord i m).memOk = true := by
  simp only [State.breakWord]
  split
  · rw [State.bump_memOk]
    exact State.spoil_memOk i m.mem m.word _ (by simp [h])
  · simp [h]

theorem State.upset_memOk (i : SiteId) (mem : CoreMem) (a : Nat) (found : EccFind) (h : s.memOk = true) :
    (s.upset i mem a found).memOk = true := by
  simp [State.upset, State.breakWord_memOk, h]

theorem State.takeUpsets_memOk (h : s.memOk = true) : s.takeUpsets.memOk = true := by
  unfold State.takeUpsets
  exact State.foldl_memOk (fun _ _ hs => State.upset_memOk _ _ _ _ hs) _ h

theorem execScrubAccess_memOk (site : SiteId) (mem : CoreMem) (addr : Nat) (found : EccFind) (h : s.memOk = true) :
    outMemOk (execScrubAccess site mem addr found s) = true := by
  simp only [execScrubAccess]
  split
  · exact h
  · split
    · exact h
    · simp [h]
    · simp [State.breakWord_memOk, h]

@[simp] theorem State.poisonUnit_memOk (u : Nat) : (s.poisonUnit u).memOk = s.memOk := by
  unfold State.poisonUnit
  split <;> rfl

@[simp] theorem State.dramUncorrectable_memOk (a : Nat) : (s.dramUncorrectable a).memOk = s.memOk := by
  simp [State.dramUncorrectable]

theorem execDramPatrolScrub_memOk (stack : StackId) (bank row : Nat) (found : EccFind) (h : s.memOk = true) :
    outMemOk (execDramPatrolScrub stack bank row found s) = true := by
  cases found <;> simp [execDramPatrolScrub, h]

theorem execSoftRepair_memOk (stack : StackId) (h : s.memOk = true) : outMemOk (execSoftRepair stack s) = true := by
  simp only [execSoftRepair]
  split <;> simp [h]

theorem execGuardTestStart_memOk (site : SiteId) (h : s.memOk = true) : outMemOk (execGuardTestStart site s) = true := by
  have hi := State.site_memOk h site
  have ht : (s.modSite site fun x => { (if x.deepSleep then x.cleared else x) with role := .underTest, deepSleep := false }).memOk = true := by
    refine State.modSite_memOk_of h ?_
    cases hd : (s.site site).deepSleep
    · simpa [hd, Site.memOk] using hi
    · simp [hd, Site.memOk, Site.cleared]
  simp [execGuardTestStart, h, ht]

theorem execGuardTestDone_memOk (site : SiteId) (failPhase : Option Nat) (h : s.memOk = true) :
    outMemOk (execGuardTestDone site failPhase s) = true := by
  simp only [execGuardTestDone]
  split
  · exact h
  · split
    · rw [outMemOk_next, State.showRoles_memOk]
      exact State.modSite_memOk_of h rfl
    · simp [h]

end Sys2Proof.Machine
end

