-- ==== Sys2Proof/Proofs/MemAwl.lean ====
section
/-!
SUPPORT. The canonical form under the commands of the Awl: reads and writes of streams, deliveries, paging and the tipping path.
-/

namespace Sys2Proof.Machine

variable {s : State}

/-! ### Data that lands (R149, R170, R171) -/

theorem State.modCore_land_memOk (c : CoreId) (e o : Nat) (bytes : List Byte) (i : Nat) (keys : List (Nat × Nat)) (h : s.memOk = true) :
    (s.modCore c fun x => (x.landWindow e o bytes).land i keys).memOk = true :=
  State.modCore_memOk_of h ((Core.land_memOk i keys).trans (Core.landWindow_memOk e o bytes (State.core_memOk h c)))

theorem State.landPlain_memOk (img : Image) (c : CoreId) (i k off : Nat) (bytes : List Byte) (h : s.memOk = true) :
    (s.landPlain img c i k off bytes).memOk = true :=
  State.modCore_land_memOk c _ _ bytes i _ h

theorem State.landFolios_memOk (img : Image) (c : CoreId) (i : Nat) (el : Bool) (k addr n off : Nat) (bytes : List Byte)
    (h : s.memOk = true) : (s.landFolios img c i el k addr n off bytes).memOk = true := by
  induction n generalizing s addr off bytes with
  | zero => exact h
  | succ n ih =>
    simp only [State.landFolios]
    split
    · exact h
    · split
      · simp [h]
      · exact ih _ _ _ (State.landPlain_memOk img c i k off _ h)

theorem State.landRead_memOk (img : Image) (c : CoreId) (i : Nat) (el : Bool) (k off addr : Nat) (bad : Bool) (bytes : List Byte)
    (h : s.memOk = true) : (s.landRead img c i el k off addr bad bytes).memOk = true := by
  have hb := State.modStrm_memOk_of (c := c) (i := i) (f := fun x => { x with buffer := Mem.put x.buffer (landKey k off) bytes }) h
    (Mem.sortedFrom_put bytes _ (Core.strm_sorted (State.core_memOk h c) i))
  simp [State.landRead, h, hb, State.landPlain_memOk, State.landFolios_memOk]

/-- What a read brings lands with every member that takes it. -/
theorem State.landReads_memOk (img : Image) (el : Bool) (k off addr : Nat) (bad : Bool) (bytes : List Byte) (ms : List (CoreId × Nat))
    (h : s.memOk = true) : (ms.foldl (fun s m => s.landRead img m.1 m.2 el k off addr bad bytes) s).memOk = true :=
  State.foldl_memOk (fun _ _ hs => State.landRead_memOk _ _ _ _ _ _ _ _ _ hs) ms h

/-! ### Reads and writes issued (R166, R168 to R172) -/

theorem State.touchSource_memOk (c : CoreId) (e o n : Nat) (h : s.memOk = true) : (s.touchSource c e o n).memOk = true := by
  unfold State.touchSource
  split
  · exact State.touch_memOk c .acc _ n 1 h
  · exact State.foldl_memOk (fun _ _ hs => State.touch_memOk _ _ _ _ _ hs) _ h

theorem State.issueWrite_memOk (c : CoreId) (i e : Nat) (elastic : Bool) (sp : Span) (h : s.memOk = true) :
    (s.issueWrite c i e elastic sp).memOk = true := by
  simp [State.issueWrite, h, State.touchSource_memOk]

@[simp] theorem State.advanceStream_memOk (img : Image) (c : CoreId) (i e : Nat) (w : Wanted) :
    (s.advanceStream img c i e w).memOk = s.memOk := by
  simp [State.advanceStream]

@[simp] theorem State.modCore_usePage_memOk (c : CoreId) (p : Nat) : (s.modCore c (·.usePage p)).memOk = s.memOk :=
  State.modCore_memOk_eq c _ (Core.usePage_memOk p)

@[simp] theorem State.modCore_usePages_memOk (c : CoreId) (ps : List Nat) :
    (s.modCore c fun k => ps.foldl Core.usePage k).memOk = s.memOk :=
  State.modCore_memOk_eq c _ (Core.foldl_memOk_eq _ (fun _ p => Core.usePage_memOk p) ps _)

theorem execAwlReadIssue_memOk (c : CoreId) (stream : Fin 64) (h : s.memOk = true) :
    outMemOk (execAwlReadIssue c stream s) = true := by
  have ht : (s.awlReads c).memOk = true := by simp [h]
  simp only [execAwlReadIssue]
  split
  · exact ht
  · split
    · exact ht
    · split
      · simp [h]
      · exact ht
      · split
        · exact ht
        · split
          · simp [h]
          · split
            · simp [h, State.issueWrite_memOk]
            · split
              · simp [h]
              · simp [h, Awl.take]

/-! ### Data returned and delivered (R170, R171, R179, R186) -/

theorem execReadReturn_memOk (c : CoreId) (tag : Fin 640) (uncorrectable : Bool) (h : s.memOk = true) :
    outMemOk (execReadReturn c tag uncorrectable s) = true := by
  simp only [execReadReturn]
  split
  · simp [h]
  · split
    · exact h
    · split
      · simp [h]
      · simp [h, State.landReads_memOk]

theorem execTagExpiry_memOk (c : CoreId) (tag : Fin 640) (h : s.memOk = true) : outMemOk (execTagExpiry c tag s) = true := by
  simp only [execTagExpiry]
  split <;> simp [h]

theorem State.modCore_landWindow_memOk (c : CoreId) (e o : Nat) (bytes : List Byte) (h : s.memOk = true) :
    (s.modCore c (·.landWindow e o bytes)).memOk = true :=
  State.modCore_memOk_of h (Core.landWindow_memOk e o bytes (State.core_memOk h c))

theorem execMullBlockRelease_memOk (c : CoreId) (stream : Fin 64) (h : s.memOk = true) :
    outMemOk (execMullBlockRelease c stream s) = true := by
  simp only [execMullBlockRelease]
  split
  · split
    · exact h
    · split
      · exact h
      · split
        · exact h
        · split
          · exact h
          · split
            · rw [outMemOk_next, State.haltStream_memOk]
              apply State.modCore_landWindow_memOk
              exact State.modStrm_memOk_of h (Mem.sortedFrom_filter _ _ 0 (Core.strm_sorted (State.core_memOk h c) stream))
            · simp only [outMemOk_next, State.memOk_ite, State.bump_memOk, ite_self]
              apply State.modCore_land_memOk
              exact State.modStrm_memOk_of h (Mem.sortedFrom_filter _ _ 0 (Core.strm_sorted (State.core_memOk h c) stream))
  · exact h

@[simp] theorem State.tellArm_memOk (iss : CoreId × Nat) (c : CoreId) (a : Arm) : (s.tellArm iss c a).memOk = s.memOk := by
  refine State.modStrm_memOk _ _ _ fun x => ?_
  split <;> rfl

theorem execEntryDelivery_memOk (c : CoreId) (stream : Fin 64) (h : s.memOk = true) :
    outMemOk (execEntryDelivery c stream s) = true := by
  simp only [execEntryDelivery]
  split
  · split
    · exact h
    · split
      · simp [h]
      · split
        · exact h
        · have hk : ∀ f : Core → Core, (∀ k, (f k).memOk = k.memOk) → (s.modCore c f).memOk = true := fun f hf =>
            (State.modCore_memOk_eq c f (hf _)).trans h
          rw [outMemOk_next]
          split
          · rw [State.tellArm_memOk]; exact hk _ fun k => by simp
          · exact hk _ fun k => by simp
  · exact h

theorem execWriteAck_memOk (c : CoreId) (stream : Fin 64) (h : s.memOk = true) : outMemOk (execWriteAck c stream s) = true := by
  simp only [execWriteAck]
  split <;> simp [h]

theorem execMulticastArm_memOk (c : CoreId) (stream : Fin 64) (h : s.memOk = true) :
    outMemOk (execMulticastArm c stream s) = true := by
  have ht : (s.awlReads c).memOk = true := by simp [h]
  simp only [execMulticastArm]
  split
  · exact ht
  · split
    · exact ht
    · split
      · exact ht
      · split <;> simp [h]

/-! ### Paging (R183 to R185) -/

theorem execTranslationWalkDone_memOk (c : CoreId) (stream : Fin 64) (h : s.memOk = true) :
    outMemOk (execTranslationWalkDone c stream s) = true := by
  simp only [execTranslationWalkDone]
  split <;> simp [h]

theorem Stream.pageCame_buffer (x : Stream) (p : Nat) : (x.pageCame p).buffer = x.buffer := by
  simp only [Stream.pageCame]
  split <;> split <;> rfl

@[simp] theorem State.resumePage_memOk (p : Nat) : (s.resumePage p).memOk = s.memOk := by
  refine State.mapCores_memOk_eq _ fun k => ?_
  simp [Core.memOk, Stream.pageCame_buffer]

theorem State.evictPage_memOk (page : Nat × Bool) (h : s.memOk = true) : (s.evictPage page).memOk = true := by
  simp only [State.evictPage]
  split <;> simp [h]

theorem State.frameFor_memOk (img : Image) (h : s.memOk = true) : (s.frameFor img).memOk = true := by
  unfold State.frameFor
  split
  · exact h
  · split
    · simp [State.evictPage_memOk, h]
    · exact h

theorem execPageNotPresent_memOk (c : CoreId) (stream : Fin 64) (h : s.memOk = true) :
    outMemOk (execPageNotPresent c stream s) = true := by
  simp only [execPageNotPresent]
  split
  · split
    · exact h
    · split
      · simp [h]
      · cases (s.prog.regionOf _).filter (·.peer) <;> simp [h, State.frameFor_memOk]
  · exact h

theorem State.stopElastic_memOk (h : s.memOk = true) : s.stopElastic.memOk = true := by
  refine State.foldl_memOk (fun t c ht => ?_) _ h
  split
  · exact ht
  · refine State.modCore_memOk_of ht ((Core.memOk_congr rfl rfl rfl rfl).trans ((Core.dropArms_memOk true).trans
      (Core.stopPress_memOk t.prog.closed true (State.core_memOk ht c))))

theorem State.failElastic_memOk (status detail : Nat) (h : s.memOk = true) : (s.failElastic status detail).memOk = true := by
  unfold State.failElastic
  split
  · exact h
  · exact State.stopElastic_memOk (by simp [h])

theorem State.pageFailed_memOk (c : CoreId) (stream : Fin 64) (h : s.memOk = true) : (s.pageFailed c stream).memOk = true := by
  simp only [State.pageFailed]
  split
  · exact h
  · apply State.failElastic_memOk
    rw [State.foldl_memOk_eq _ (fun t m => by simp), h]

theorem execPageInComplete_memOk (c : CoreId) (stream : Fin 64) (page : Option (List Byte)) (h : s.memOk = true) :
    outMemOk (execPageInComplete c stream page s) = true := by
  simp only [execPageInComplete]
  split
  · cases page <;> simp [h, State.pageFailed_memOk]
  · exact h

/-! ### The tipping path and the end of a cancellation (R176, R177, R189) -/

theorem State.tipTouch_memOk (c : CoreId) (mem : CoreMem) (a n : Nat) (h : s.memOk = true) : (s.tipTouch c mem a n).memOk = true := by
  refine State.foldl_memOk (fun t m ht => ?_) _ h
  dsimp only
  split
  · simp [ht]
  · exact State.meetMark_memOk c 5 m ht

theorem State.tipPieces_memOk (c : CoreId) (mem : CoreMem) (n : Nat) (ps : List (Nat × List Byte)) (h : s.memOk = true) :
    (s.tipPieces c mem n ps).memOk = true := by
  induction ps generalizing s n with
  | nil => exact h
  | cons p r ih =>
    have ht := State.foldl_memOk (fun _ x hs => State.tipTouch_memOk c mem x 1 hs) (partialEnds (eccWord mem) p.1 p.2.length) h
    exact ih _ (State.modCore_memOk_of ht (Core.ploughStore_memOk none _ mem p.1 _ (State.core_memOk ht c)))

theorem execTippingTransfer_memOk (source : TipSource) (op : TipOp) (h : s.memOk = true) :
    outMemOk (execTippingTransfer source op s) = true := by
  unfold execTippingTransfer
  split
  · exact h
  · split <;> simp [h, State.tipPieces_memOk, State.tipTouch_memOk]

theorem execCancelDrainDone_memOk (h : s.memOk = true) : outMemOk (execCancelDrainDone s) = true := by
  simp [execCancelDrainDone, h, State.endProgram_memOk]

end Sys2Proof.Machine
end

