-- ==== Sys2Proof/Proofs/MemBoundary.lean ====
section
/-!
SUPPORT. The canonical form under link bring-up and loss, and under the boundary of a step with all it does.
-/

namespace Sys2Proof.Machine

variable {s : State}

/-! ### Lanes (R274 to R282) -/

@[simp] theorem State.failLane_memOk (l : LaneId) : (s.failLane l).memOk = s.memOk := by
  unfold State.failLane
  split <;> simp

@[simp] theorem State.wordDone_memOk (c : CoreId) (id : Byte) : (s.wordDone c id).memOk = s.memOk := by
  simp [State.wordDone]

@[simp] theorem State.dropLost_memOk : s.dropLost.memOk = s.memOk := by
  unfold State.dropLost
  split <;> simp

@[simp] theorem State.linkLost_memOk (l : LaneId) (next : LinkPhase) : (s.linkLost l next).memOk = s.memOk := by
  simp [State.linkLost]

@[simp] theorem State.takeDown_memOk (l : LaneId) (next : LinkPhase) : (s.takeDown l next).memOk = s.memOk := by
  unfold State.takeDown
  split <;> simp

@[simp] theorem phaseDone_memOk (lane : LaneId) (now next : LinkPhase) (ok : Bool) : (phaseDone lane now next ok s).memOk = s.memOk := by
  simp [phaseDone]

@[simp] theorem State.linkRefused_memOk (l : LaneId) (reason : Nat) : (s.linkRefused l reason).memOk = s.memOk := by
  simp [State.linkRefused]

@[simp] theorem State.joinDomain_memOk (l : LaneId) : (s.joinDomain l).memOk = s.memOk := by
  simp [State.joinDomain]

theorem execLinkDown_memOk (lane : LaneId) (cause : LinkDownCause) (h : s.memOk = true) :
    outMemOk (execLinkDown lane cause s) = true := by
  simp [execLinkDown, h]

theorem execPcsBlockLock_memOk (lane : LaneId) (ok : Bool) (h : s.memOk = true) : outMemOk (execPcsBlockLock lane ok s) = true := by
  simp [execPcsBlockLock, h]

theorem execLinkRetry_memOk (lane : LaneId) (h : s.memOk = true) : outMemOk (execLinkRetry lane s) = true := by
  simp [execLinkRetry, h]

theorem execPartner_memOk (lane : LaneId) (flit : Flit) (h : s.memOk = true) : outMemOk (execPartner lane flit s) = true := by
  simp only [execPartner]
  split
  · exact h
  · split <;> simp [h]

theorem execTimingExchangeDone_memOk (lane : LaneId) (ok : Bool) (h : s.memOk = true) :
    outMemOk (execTimingExchangeDone lane ok s) = true := by
  simp [execTimingExchangeDone, h]

/-! ### Common to both branches of a boundary (R18, R291) -/

@[simp] theorem State.raiseWait_memOk (set : Nat) : (s.raiseWait set).memOk = s.memOk := by
  simp [State.raiseWait]

@[simp] theorem State.modCore_afterBoundary_memOk (c : CoreId) (sect : Sect) : (s.modCore c (·.afterBoundary sect)).memOk = s.memOk := by
  rw [State.modCore_memOk_eq]
  exact Core.afterBoundary_memOk sect

@[simp] theorem State.finishCores_memOk (img : Image) : (s.finishCores img).memOk = s.memOk := by
  simp [State.finishCores]

@[simp] theorem State.switchRoutes_memOk (img : Image) (failed : List Nat) : (s.switchRoutes img failed).memOk = s.memOk := by
  simp only [State.switchRoutes]
  split <;> simp

/-! ### Discard and replay (R18) -/

@[simp] theorem State.discardCore_memOk (img : Image) (c : CoreId) : (s.discardCore img c).memOk = s.memOk := by
  simp [State.discardCore]

@[simp] theorem State.raiseReplayed_memOk (f : StepFault) : (s.raiseReplayed f).memOk = s.memOk := by
  simp [State.raiseReplayed]

theorem State.retireCore_memOk (img : Image) (c : CoreId) (cause : Nat) (h : s.memOk = true) :
    (s.retireCore img c cause).1.memOk = true := by
  have ht : ((s.modSite (s.core c).site fun x => { x with role := .retired, cause := BitVec.ofNat 4 cause }).showRoles).memOk = true := by
    simp [h]
  simp only [State.retireCore]
  split
  · exact ht
  · simp [State.failElastic_memOk, State.moveCore_memOk, ht]

theorem State.retireAll_memOk (img : Image) (xs : List (CoreId × Nat)) (h : s.memOk = true) : (s.retireAll img xs).1.memOk = true := by
  induction xs generalizing s with
  | nil => exact h
  | cons x r ih => exact ih (State.retireCore_memOk img x.1 x.2 h)

theorem State.stopRecovery_memOk (status : Nat) (items : List W32) (h : s.memOk = true) : (s.stopRecovery status items).memOk = true := by
  simp [State.stopRecovery, State.endProgram_memOk, State.endProgramWith_memOk, h]

theorem State.endRecovery_memOk (status : Nat) (items : List W32) (h : s.memOk = true) : (s.endRecovery status items).memOk = true :=
  State.stopRecovery_memOk status items (by simp [h])

theorem State.degrade_memOk (img : Image) (h : s.memOk = true) : (s.degrade img).memOk = true := by
  simp [State.degrade, State.endProgram_memOk, h]

@[simp] theorem State.startElastic_memOk (img : Image) (x : Handle) : (s.startElastic img x).memOk = s.memOk := by
  simp [State.startElastic]

@[simp] theorem State.startWaitingElastic_memOk (img : Image) : (s.startWaitingElastic img).memOk = s.memOk := by
  unfold State.startWaitingElastic
  split <;> simp

theorem State.discardStep_memOk (img : Image) (failed : List Nat) (h : s.memOk = true) : (s.discardStep img failed).memOk = true := by
  refine State.ite_memOk (State.degrade_memOk img (State.retireAll_memOk img _ ?_)) (State.ite_memOk
    (State.endProgram_memOk _ _ _ ((State.switchRoutes_memOk img failed).trans (State.retireAll_memOk img _ ?_))) ?_)
  · simp [h]
  · simp [h]
  · rw [State.startWaitingElastic_memOk, State.finishCores_memOk, State.switchRoutes_memOk]
    exact State.retireAll_memOk img _ (by simp [h])

/-! ### Work of a step broken off (R302, R371) -/

theorem State.modCore_abortStep_memOk (c : CoreId) (votes : List (Nat × Bool × Nat × Byte × Bool × Nat)) (h : s.memOk = true) :
    (s.modCore c (·.abortStep votes)).memOk = true :=
  State.modCore_memOk_of h (Core.abortStep_memOk votes (State.core_memOk h c))

theorem State.abortStep_memOk (img : Image) (h : s.memOk = true) : (s.abortStep img).memOk = true := by
  rw [State.abortStep, State.modFab_memOk]
  exact State.foldl_memOk (fun _ _ ht => State.modCore_abortStep_memOk _ _ ht) _ h

/-! ### Commit (R116, R137, R297 to R299) -/

theorem State.copyRange_memOk (src dst n : Nat) (h : s.memOk = true) : (s.copyRange src dst n).memOk = true := by
  simp [State.copyRange, h]

theorem State.copyRegions_memOk (es : List Nat) (h : s.memOk = true) : (es.foldl State.copyRegion s).memOk = true :=
  State.foldl_memOk (fun _ _ ht => State.copyRange_memOk _ _ _ ht) es h

@[simp] theorem State.shipSet_memOk (img : Image) (dst : BitVec 16) (set : Nat) (step : W64) :
    (s.shipSet img dst set step).memOk = s.memOk := by
  simp [State.shipSet]

theorem State.copySet_memOk (img : Image) (r : SnapReq) (h : s.memOk = true) : (s.copySet img r).memOk = true := by
  simp only [State.copySet]
  split <;> simp [State.copyRegions_memOk, h]

theorem State.takeSnapshots_memOk (img : Image) (h : s.memOk = true) : (s.takeSnapshots img).memOk = true := by
  have hd := State.foldl_memOk (fun t r ht => State.copySet_memOk (s := t) img r ht) (s.dueSnaps img) h
  simp only [State.takeSnapshots]
  split
  · exact hd
  · rw [State.modProg_memOk]
    split <;> simp [hd]

theorem State.rotate_memOk (img : Image) (h : s.memOk = true) : (s.rotate img).memOk = true := by
  simp only [State.rotate]
  split
  · exact h
  · split <;> simp [State.moveCore_memOk, h]

@[simp] theorem State.sleepCores_memOk (img : Image) : (s.sleepCores img).memOk = s.memOk := by
  simp [State.sleepCores]

@[simp] theorem State.countService_memOk : s.countService.memOk = s.memOk := by
  simp [State.countService]

@[simp] theorem State.wakeWaiters_memOk : s.wakeWaiters.memOk = s.memOk := by
  refine State.foldl_memOk_eq _ (fun t x => ?_) _
  split <;> simp

@[simp] theorem State.mirrorStep_memOk (img : Image) : (s.mirrorStep img).memOk = s.memOk := by
  simp only [State.mirrorStep]
  split
  · rfl
  · split <;> simp

theorem State.commitStep_memOk (img : Image) (failed : List Nat) (h : s.memOk = true) : (s.commitStep img failed).memOk = true := by
  have hr : (img.coreList.foldl State.raiseCore s).memOk = true := by simp [h]
  have hk := State.rotate_memOk img (State.takeSnapshots_memOk img (State.commitSteering_memOk img hr))
  simp only [State.commitStep]
  split
  · apply State.endRecovery_memOk
    simp [hk]
  · simp [hk]

/-! ### Commands that act at the boundary (R136, R141, R160, R305) -/

theorem State.replaceProgram_memOk (x : Handle) (h : s.memOk = true) : (s.replaceProgram x).memOk = true := by
  unfold State.replaceProgram
  split
  · exact h
  · split <;> simp [State.endProgram_memOk, h]

theorem State.actAtBoundary_memOk (n : Nat) (x : Handle) (h : s.memOk = true) : (s.actAtBoundary n x).memOk = true := by
  unfold State.actAtBoundary
  split
  · split
    · split <;> simp [h]
    · simp [State.endProgram_memOk, State.replaceProgram_memOk, h]
  · exact h

theorem State.boundaryActs_memOk (n : Nat) (h : s.memOk = true) : (s.boundaryActs n).memOk = true :=
  State.foldl_memOk (fun _ x ht => State.actAtBoundary_memOk n x ht) _ h

theorem State.shipRank_memOk (img : Image) (node : BitVec 16) (h : s.memOk = true) : (s.shipRank img node).memOk = true := by
  simp only [State.shipRank, State.sendDyn_memOk]
  exact State.foldl_memOk (fun t k ht => by rw [State.shipSet_memOk]; exact State.copyRegions_memOk _ ht) _ h

theorem State.beginRejoin_memOk (img : Image) (h : s.memOk = true) : (s.beginRejoin img).memOk = true := by
  unfold State.beginRejoin
  split
  · exact h
  · simp [State.shipRank_memOk, h]

@[simp] theorem State.endPrologue_memOk (img : Image) : (s.endPrologue img).memOk = s.memOk := by
  simp [State.endPrologue, Core.clearPinned]

theorem execStepBoundary_memOk (h : s.memOk = true) : outMemOk (execStepBoundary s) = true := by
  simp only [execStepBoundary]
  split
  · exact h
  · split
    · exact h
    · split
      · simp [h]
      · split
        · exact h
        · split
          · exact State.discardStep_memOk _ _ h
          · split
            · simp [h]
            · exact State.beginRejoin_memOk _ (State.boundaryActs_memOk _ (State.commitStep_memOk _ _ h))

end Sys2Proof.Machine
end

