-- ==== Sys2Proof/Proofs/MemHost.lean ====
section
/-!
SUPPORT. The canonical form under the commands of the host and of the host interface.
-/

namespace Sys2Proof.Machine

variable {s : State}

/-! ### Data movement (R325) -/

theorem execDmaWrite_memOk (x : Handle) (src : HostRead) (h : s.memOk = true) : outMemOk (execDmaWrite x src s) = true := by
  simp only [execDmaWrite]
  split
  · exact h
  · split <;> simp [h]

@[simp] theorem State.toHost_memOk (x : Handle) (addr : Nat) (bytes : List Byte) (errorAt : Option Nat) (result : Nat)
    (h : s.memOk = true) : (s.toHost x addr bytes errorAt result).memOk = true := by
  simp only [State.toHost]
  split <;> simp [h]

theorem execDmaRead_memOk (x : Handle) (errorAt : Option Nat) (h : s.memOk = true) : outMemOk (execDmaRead x errorAt s) = true := by
  simp only [execDmaRead]
  split
  · exact h
  · split <;> simp [h]

@[simp] theorem State.listInput_memOk (step ref : W64) : (s.listInput step ref).memOk = s.memOk := by
  simp [State.listInput]

theorem State.endMissing_memOk (i : W64 × W64) (h : s.memOk = true) : (s.endMissing i).memOk = true :=
  State.endRecovery_memOk _ _ h

theorem execInputCmd_memOk (x : Handle) (src : HostRead) (h : s.memOk = true) : outMemOk (execInputCmd x src s) = true := by
  simp only [execInputCmd]
  split
  · exact h
  · split <;> simp [State.endMissing_memOk, h]

/-! ### Programs (R160, R236, R322, R325) -/

theorem execActivate_memOk (x : Handle) (h : s.memOk = true) : outMemOk (execActivate x s) = true := by
  simp only [execActivate]
  split
  · exact h
  · split
    · simp [h]
    · split
      · simp [h]
      · split
        · simp [h]
        · exact State.tryActivate_memOk (by simp [h])

theorem execPeerWaitExpiry_memOk (h : s.memOk = true) : outMemOk (execPeerWaitExpiry s) = true := by
  simp only [execPeerWaitExpiry]
  split
  · split
    · exact h
    · split
      · simp [h]
      · exact State.tryActivate_memOk h
  · exact h

@[simp] theorem State.dropStaged_memOk : s.dropStaged.memOk = s.memOk := by
  simp [State.dropStaged]

theorem execUnload_memOk (x : Handle) (h : s.memOk = true) : outMemOk (execUnload x s) = true := by
  simp only [execUnload]
  split
  · exact h
  · split <;> simp [State.endProgram_memOk, h]

theorem execCancel_memOk (x : Handle) (h : s.memOk = true) : outMemOk (execCancel x s) = true := by
  simp only [execCancel]
  split
  · exact h
  · split
    · simp [h]
    · cases s.prog.active <;> simp [State.failElastic_memOk, h]

theorem execElasticStart_memOk (x : Handle) (h : s.memOk = true) : outMemOk (execElasticStart x s) = true := by
  simp only [execElasticStart]
  split <;> simp [h]

theorem execWaitStep_memOk (x : Handle) (h : s.memOk = true) : outMemOk (execWaitStep x s) = true := by
  simp only [execWaitStep]
  split <;> simp [h]

theorem execPagedMap_memOk (x : Handle) (h : s.memOk = true) : outMemOk (execPagedMap x s) = true := by
  simp only [execPagedMap]
  split <;> simp [h]

theorem State.stage_memOk (img : Image) (h : s.memOk = true) : (s.stage img).memOk = true := by
  simp [State.stage, State.placeCores_memOk, h]

theorem execLoad_memOk (x : Handle) (h : s.memOk = true) : outMemOk (execLoad x s) = true := by
  simp only [execLoad]
  split
  · exact h
  · cases s.loadVerdict (s.imageAt _ _) <;> simp [State.stage_memOk, h]

theorem execRecipeUpdate_memOk (x : Handle) (h : s.memOk = true) : outMemOk (execRecipeUpdate x s) = true := by
  simp only [execRecipeUpdate]
  split
  · exact h
  · split
    · simp [h]
    · cases s.updateVerdict _ _ _ _ <;> simp [h]

/-! ### Resumption (R188, R202) -/

theorem State.restart_memOk (img : Image) (c : CoreId) (i : Nat) (r : HaltRec) (h : s.memOk = true) :
    (s.restart img c i r).memOk = true := by
  refine State.modCore_memOk_of h (Core.modStrm_memOk_of ?_ ?_)
  · exact (Core.memOk_congr rfl rfl rfl rfl).trans (State.core_memOk h c)
  · exact Mem.sortedFrom_filter _ _ 0 (Core.strm_sorted (State.core_memOk h c) i)

theorem execStreamResume_memOk (x : Handle) (h : s.memOk = true) : outMemOk (execStreamResume x s) = true := by
  simp only [execStreamResume]
  split
  · exact h
  · split
    · exact h
    · split
      · simp [h]
      · simp [h]
      · split <;> simp [State.restart_memOk, h]

theorem execKernelResume_memOk (x : Handle) (h : s.memOk = true) : outMemOk (execKernelResume x s) = true := by
  simp only [execKernelResume]
  split
  · exact h
  · cases s.resumeAt _ <;> simp [h]

theorem execFromMirrorResume_memOk (x : Handle) (reply : MirrorReply) (h : s.memOk = true) :
    outMemOk (execFromMirrorResume x reply s) = true := by
  simp only [execFromMirrorResume]
  split
  · exact h
  · split
    · exact h
    · split
      · simp [h]
      · simp [h]
      · split
        · simp [h]
        · cases reply <;> simp [State.restart_memOk, h]

/-! ### Settings and service (R253, R325, R380) -/

theorem execQueueLimits_memOk (x : Handle) (h : s.memOk = true) : outMemOk (execQueueLimits x s) = true := by
  simp only [execQueueLimits]
  split <;> simp [h]

theorem execSetAperture_memOk (x : Handle) (h : s.memOk = true) : outMemOk (execSetAperture x s) = true := by
  simp only [execSetAperture]
  split <;> simp [h]

@[simp] theorem State.applyRotation_memOk (b : Nat) : (s.applyRotation b).memOk = s.memOk := by
  simp [State.applyRotation]

theorem execSetRotation_memOk (x : Handle) (h : s.memOk = true) : outMemOk (execSetRotation x s) = true := by
  simp only [execSetRotation]
  split <;> simp [h]

theorem execSetLayout_memOk (x : Handle) (h : s.memOk = true) : outMemOk (execSetLayout x s) = true := by
  simp only [execSetLayout]
  split <;> simp [h]

@[simp] theorem State.writeProfile_memOk (p : Fin 4) (lo w v : Nat) : (s.writeProfile p lo w v).memOk = s.memOk := by
  simp [State.writeProfile]

@[simp] theorem State.selectProfile_memOk (b : Nat) : (s.selectProfile b).memOk = s.memOk := by
  simp [State.selectProfile]

theorem execSetProfileWrite_memOk (x : Handle) (h : s.memOk = true) : outMemOk (execSetProfileWrite x s) = true := by
  simp only [execSetProfileWrite]
  split
  · exact h
  · cases declarationError _ <;> simp [h]

theorem execSetProfileSelect_memOk (x : Handle) (h : s.memOk = true) : outMemOk (execSetProfileSelect x s) = true := by
  simp only [execSetProfileSelect]
  split <;> simp [h]

theorem execLinkDisable_memOk (x : Handle) (h : s.memOk = true) : outMemOk (execLinkDisable x s) = true := by
  simp only [execLinkDisable]
  split <;> simp [h]

theorem execLinkBringUp_memOk (x : Handle) (h : s.memOk = true) : outMemOk (execLinkBringUp x s) = true := by
  simp only [execLinkBringUp]
  split <;> simp [h]

theorem execSurvey_memOk (x : Handle) (h : s.memOk = true) : outMemOk (execSurvey x s) = true := by
  simp only [execSurvey]
  split <;> simp [h]

theorem execDiagRead_memOk (x : Handle) (errorAt : Option Nat) (h : s.memOk = true) : outMemOk (execDiagRead x errorAt s) = true := by
  simp only [execDiagRead]
  split
  · exact h
  · split
    · exact h
    · split <;> simp [h]

theorem execDiagReadKettleTable_memOk (x : Handle) (errorAt : Option Nat) (h : s.memOk = true) :
    outMemOk (execDiagReadKettleTable x errorAt s) = true := by
  simp only [execDiagReadKettleTable]
  split <;> simp [h]

@[simp] theorem State.makeHard_memOk : s.makeHard.memOk = s.memOk :=
  State.modMc_memOk (s := { s with hbm := s.hbm.map fun k => { k with softPending := 0 } }) _ fun _ => rfl

theorem execMaintain_memOk (x : Handle) (h : s.memOk = true) : outMemOk (execMaintain x s) = true := by
  simp only [execMaintain]
  split <;> simp [h]

/-! ### Mirror commands (R296, R305) -/

theorem execMirrorStore_memOk (x : Handle) (h : s.memOk = true) : outMemOk (execMirrorStore x s) = true := by
  simp only [execMirrorStore]
  split <;> simp [h]

@[simp] theorem State.tellUnbound_memOk (cont chk : Bool) (but : Option (BitVec 16)) : (s.tellUnbound cont chk but).memOk = s.memOk := by
  simp [State.tellUnbound]

theorem execMirrorBind_memOk (x : Handle) (reply : BindReply) (h : s.memOk = true) : outMemOk (execMirrorBind x reply s) = true := by
  simp only [execMirrorBind]
  split
  · exact h
  · cases bindReason reply <;> simp [h]

theorem execMirrorUnbind_memOk (x : Handle) (h : s.memOk = true) : outMemOk (execMirrorUnbind x s) = true := by
  simp only [execMirrorUnbind]
  split <;> simp [h]

theorem execSeed_memOk (x : Handle) (reply : SeedReply) (h : s.memOk = true) : outMemOk (execSeed x reply s) = true := by
  simp only [execSeed]
  split
  · exact h
  · split
    · simp [h]
    · split
      · simp [h]
      · simp [h]
      · rw [outMemOk_next]
        split <;> simp [h]

/-! ### Ports, mailboxes and rings (R307 to R320) -/

@[simp] theorem HostIf.setPort_mailboxes (h : HostIf) (p : PciePort) (x : PortState) : (h.setPort p x).mailboxes = h.mailboxes := by
  cases p <;> rfl

@[simp] theorem HostIf.setRing_mailboxes (h : HostIf) (r : Fin 8) (x : RingRegs) : (h.setRing r x).mailboxes = h.mailboxes := rfl

@[simp] theorem HostIf.signal_mailboxes (h : HostIf) (r : Fin 8) : (h.signal r).mailboxes = h.mailboxes := by
  simp only [HostIf.signal]
  split <;> rfl

@[simp] theorem HostIf.written_mailboxes (h : HostIf) (r : Fin 8) (quiet : Bool) (now : Nat) :
    (h.written r quiet now).mailboxes = h.mailboxes := by
  simp [HostIf.written, apply_ite HostIf.mailboxes]

@[simp] theorem HostIf.setGate_mailboxes (h : HostIf) (g : Gate) (x : GateState) : (h.setGate g x).mailboxes = h.mailboxes := rfl

@[simp] theorem HostIf.writeGate_mailboxes (h : HostIf) (g : Gate) (on busy : Bool) (now : Nat) :
    (h.writeGate g on busy now).mailboxes = h.mailboxes := by
  unfold HostIf.writeGate
  split
  · rfl
  · split <;> rfl

@[simp] theorem HostIf.closeGates_mailboxes (h : HostIf) (ticks now : Nat) : (h.closeGates ticks now).mailboxes = h.mailboxes := rfl

@[simp] theorem HostIf.writeMsix_mailboxes (h : HostIf) (k j : Nat) (b : Byte) : (h.writeMsix k j b).mailboxes = h.mailboxes := by
  simp only [HostIf.writeMsix]
  split <;> rfl

@[simp] theorem HostIf.issue_mailboxes (h : HostIf) (i : Nat) (mailbox : Fin 8) (slot : Nat) :
    (h.issue i mailbox slot).1.mailboxes = h.mailboxes := rfl

@[simp] theorem HostIf.abort_mailboxes (h : HostIf) : h.abort.mailboxes = h.mailboxes := rfl

theorem HostIf.mailbox_wf {h : HostIf} (hh : h.memOk = true) (i : Fin 8) : Memory.wf zeroByte (h.mailbox i).sram = true :=
  HostIf.memOk_iff.1 hh i

/-- A mailbox put in its place keeps the form of the others. -/
theorem HostIf.setMailbox_memOk {h : HostIf} {i : Fin 8} {x : Mailbox} (hh : h.memOk = true) (hx : Memory.wf zeroByte x.sram = true) :
    (h.setMailbox i x).memOk = true := by
  refine HostIf.memOk_iff.2 fun j => ?_
  by_cases hj : i = j
  · subst hj; simpa [HostIf.setMailbox] using hx
  · have hne : i.val ≠ j.val := fun he => hj (Fin.ext he)
    simpa [HostIf.setMailbox, Vector.getElem_set_ne _ _ hne] using HostIf.memOk_iff.1 hh j

theorem execPcieLinkDown_memOk (port : PciePort) (h : s.memOk = true) : outMemOk (execPcieLinkDown port s) = true := by
  simp [execPcieLinkDown, h]

theorem execPcieLinkUp_memOk (port : PciePort) (width : BitVec 5) (generation : BitVec 3) (h : s.memOk = true) :
    outMemOk (execPcieLinkUp port width generation s) = true := by
  simp [execPcieLinkUp, h]

/-- Bytes put one list after the other keep the list of host bytes strictly rising. -/
theorem Mem.sortedFrom_foldl_put {α : Type} (place : α → Nat) (bytes : Memory → α → List Byte) (l : List α) {m : Memory}
    (h : Mem.sortedFrom 0 m = true) :
    Mem.sortedFrom 0 (l.foldl (fun m t => Mem.put m (place t) (bytes m t)) m) = true := by
  induction l generalizing m with
  | nil => exact h
  | cons t l ih =>
    rw [List.foldl_cons]
    exact ih (Mem.sortedFrom_put _ _ h)

theorem repost_sorted {m : Memory} (r : RingRegs) (h : Mem.sortedFrom 0 m = true) : Mem.sortedFrom 0 (repost m r) = true :=
  Mem.sortedFrom_foldl_put r.slotAddr (fun m t => Mem.read zeroByte m (r.slotAddr t) 32) r.unconsumed h

theorem reposts_sorted (rs : List RingRegs) {m : Memory} (h : Mem.sortedFrom 0 m = true) :
    Mem.sortedFrom 0 (rs.foldl (fun m (r : RingRegs) => if r.enable then repost m r else m) m) = true := by
  induction rs generalizing m with
  | nil => exact h
  | cons r l ih =>
    refine ih ?_
    dsimp only
    split
    · exact repost_sorted r h
    · exact h

theorem State.withHostMem_memOk {m : Memory} (h : s.memOk = true) (hm : Mem.sortedFrom 0 m = true) :
    State.memOk { s with hostMem := m } = true := by
  obtain ⟨hd, -, hr⟩ := State.memOk_iff.1 h
  exact State.memOk_iff.2 ⟨hd, hm, hr⟩

theorem execTakeover_memOk (port : PciePort) (value : W32) (h : s.memOk = true) : outMemOk (execTakeover port value s) = true := by
  have ht : ∀ x, (s.modHost fun h => { h.setPort port x with portBActive := decide (port = .b) }).memOk = true := by simp [h]
  simp only [execTakeover]
  split
  · exact h
  · split
    · simp [h]
    · split
      · simp [h]
      · rw [outMemOk_next, State.raiseDev_memOk]
        exact State.withHostMem_memOk (ht _) (reposts_sorted _ (State.hostMem_sorted (ht _)))

theorem execHostReset_memOk (port : PciePort) (kind : HostResetKind) (h : s.memOk = true) :
    outMemOk (execHostReset port kind s) = true := by
  simp only [execHostReset]
  split
  · exact h
  · split
    · refine State.modHost_memOk_of (by simp [h]) (HostIf.memOk_iff.2 fun i => ?_)
      simp [Mailbox.reset]
    · simp [h]

theorem execMbTailWrite_memOk (mailbox : Fin 8) (tail : BitVec 16) (h : s.memOk = true) :
    outMemOk (execMbTailWrite mailbox tail s) = true := by
  have hh := State.host_memOk h
  have ht : (s.modHost (·.setMailbox mailbox { s.host.mailbox mailbox with tail := tail })).memOk = true :=
    State.modHost_memOk_of h (HostIf.setMailbox_memOk hh (HostIf.mailbox_wf hh mailbox))
  simp [execMbTailWrite, h, ht]

@[simp] theorem HostIf.issue_memOk (h : HostIf) (i : Nat) (mailbox : Fin 8) (slot : Nat) :
    (h.issue i mailbox slot).1.memOk = h.memOk := by
  simp only [HostIf.issue]
  exact HostIf.memOk_congr rfl

/-- Another host interface in canonical form, the rest of the state as it is. -/
theorem State.withHost_memOk {g : HostIf} (h : s.memOk = true) (hg : g.memOk = true) : State.memOk { s with host := g } = true := by
  have := State.modHost_memOk_of (f := fun _ => g) h hg
  exact this

theorem execCommandTake_memOk (mailbox : Fin 8) (h : s.memOk = true) : outMemOk (execCommandTake mailbox s) = true := by
  have hh := State.host_memOk h
  have hw : ∀ a bs, Memory.wf zeroByte (Mem.write zeroByte (s.host.mailbox mailbox).sram a bs) = true :=
    fun a bs => Memory.wf_write bs a (HostIf.mailbox_wf hh mailbox)
  simp only [execCommandTake]
  split
  · exact h
  next i _ =>
    split
    · exact h
    · split
      · exact State.modHost_memOk_of h (HostIf.setMailbox_memOk hh (hw _ _))
      · have ht : ∀ (slot : Nat) (x : Mailbox) (tr : List TraceEntry), Memory.wf zeroByte x.sram = true →
            State.memOk { s with host := { (s.host.issue i mailbox slot).1.setMailbox mailbox x with trace := tr } } = true :=
          fun slot x _ hx => State.withHost_memOk h
            (HostIf.setMailbox_memOk (i := mailbox) (x := x) ((HostIf.issue_memOk s.host i mailbox slot).trans hh) hx)
        split
        · split
          · exact (State.complete_memOk _ _ _ _).trans (ht _ _ _ (hw _ _))
          · split
            · exact (State.complete_memOk _ _ _ _).trans (ht _ _ _ (hw _ _))
            · exact ht _ _ _ (hw _ _)
        · split
          · exact (State.complete_memOk _ _ _ _).trans (ht _ _ _ (hw _ _))
          · exact ht _ _ _ (hw _ _)

theorem execCompletionPost_memOk (ring : Fin 8) (h : s.memOk = true) : outMemOk (execCompletionPost ring s) = true := by
  simp only [execCompletionPost]
  split <;> simp [h]

theorem execEventPost_memOk (h : s.memOk = true) : outMemOk (execEventPost s) = true := by
  simp only [execEventPost]
  split
  · exact h
  · split
    · exact h
    · rw [outMemOk_next]
      have ht : ∀ a bs rest now, ((s.hostWrite a bs).modHost fun h =>
          { h with eventQ := rest, eventsLost := 0 }.written s.host.eventRing false now).memOk = true := by simp [h]
      exact State.ite_memOk (ht _ _ _ _) ((State.raiseDev_memOk _ _).trans (ht _ _ _ _))

theorem execMsixDelayExpiry_memOk (ring : Fin 8) (h : s.memOk = true) : outMemOk (execMsixDelayExpiry ring s) = true := by
  simp [execMsixDelayExpiry, h]

theorem execRingHeadWrite_memOk (ring : Fin 8) (head : W32) (h : s.memOk = true) : outMemOk (execRingHeadWrite ring head s) = true := by
  simp [execRingHeadWrite, h]

theorem execRingEnable_memOk (ring : Fin 8) (h : s.memOk = true) : outMemOk (execRingEnable ring s) = true := by
  simp [execRingEnable, h]

/-! ### Registers and BAR2 (R178, R310 to R315, R370) -/

theorem execPeriphEnableWrite_memOk (target : Option Gate) (value : W32) (busy : List Gate) (h : s.memOk = true) :
    outMemOk (execPeriphEnableWrite target value busy s) = true := by
  cases target <;> simp [execPeriphEnableWrite, h]

theorem execGateForced_memOk (gate : Gate) (initiator : GateInitiator) (h : s.memOk = true) :
    outMemOk (execGateForced gate initiator s) = true := by
  simp [execGateForced, h]

@[simp] theorem State.modHost_writeMsix_memOk (k j : Nat) (b : Byte) : (s.modHost (·.writeMsix k j b)).memOk = s.memOk :=
  State.modHost_memOk _ fun h => HostIf.writeMsix_mailboxes h k j b

theorem State.writeBar0Byte_memOk (a : Nat) (b : Byte) (h : s.memOk = true) : (s.writeBar0Byte a b).memOk = true := by
  have hh := State.host_memOk h
  have ht : ∀ i : Fin 8, ∀ n, (s.modHost fun h =>
      h.setMailbox i { h.mailbox i with sram := Mem.set zeroByte (h.mailbox i).sram n b }).memOk = true := fun i n =>
    State.modHost_memOk_of h (HostIf.setMailbox_memOk hh (Memory.wf_set n b (HostIf.mailbox_wf hh i)))
  simp only [State.writeBar0Byte]
  split
  · exact State.ite_memOk h (ht _ _)
  split
  · exact (State.modHost_memOk _ fun h => HostIf.setRing_mailboxes h _ _).trans h
  split
  · exact (State.modCad_memOk _).trans h
  split
  · rw [State.modHost_writeMsix_memOk]
    exact h
  split
  · exact (State.modHost_memOk _ fun h => HostIf.setRing_mailboxes h _ _).trans h
  split
  · exact (State.modHost_memOk _ fun _ => by rfl).trans h
  split
  · exact (State.modHost_memOk _ fun _ => by rfl).trans h
  · exact h

theorem State.writeMet_memOk (x : SameCycle) (drop : Option Nat) (a : Nat) (bytes : List Byte) (h : s.memOk = true) :
    (s.writeMet x drop a bytes).memOk = true := by
  induction bytes generalizing s a with
  | nil => exact h
  | cons b r ih => exact ih _ (State.ite_memOk h (State.writeBar0Byte_memOk a _ h))

theorem execRegisterWrite_memOk (offset : Nat) (bytes : List Byte) (same : SameCycle) (h : s.memOk = true) :
    outMemOk (execRegisterWrite offset bytes same s) = true := by
  simp only [execRegisterWrite]
  split
  · exact h
  · cases wordMet same offset bytes.length <;> simp [State.writeMet_memOk, h]

theorem execCadenceLoRead_memOk (h : s.memOk = true) : outMemOk (execCadenceLoRead s) = true := by
  simp [execCadenceLoRead, h]

theorem execBar2Read_memOk (offset len : Nat) (h : s.memOk = true) : outMemOk (execBar2Read offset len s) = true := by
  have ht : (s.modHost HostIf.abort).memOk = true := (State.modHost_memOk _ HostIf.abort_mailboxes).trans h
  simp [execBar2Read, h, ht]

theorem execBar2Write_memOk (offset : Nat) (bytes : List Byte) (h : s.memOk = true) : outMemOk (execBar2Write offset bytes s) = true := by
  simp [execBar2Write, h]

theorem execHostInterfaceUsable_memOk (h : s.memOk = true) : outMemOk (execHostInterfaceUsable s) = true := by
  simp [execHostInterfaceUsable, h]

end Sys2Proof.Machine
end

