-- ==== Sys2Proof/Proofs/MemCadence.lean ====
section
/-!
SUPPORT. The canonical form under marks, frames, votes, holds and the passing of a reference tick.
-/

namespace Sys2Proof.Machine

variable {s : State}

@[simp] theorem State.endFrame_memOk (length : Nat) (synth : Bool) : (s.endFrame length  synth ).memOk = s.memOk := by
  simp [State.endFrame]

@[simp] theorem State.takeMark_memOk : s.takeMark.memOk = s.memOk := by
  simp [State.takeMark]

@[simp] theorem State.missingMark_memOk : s.missingMark.memOk = s.memOk := by
  simp [State.missingMark]

theorem execFrameMark_memOk (h : s.memOk = true) : outMemOk (execFrameMark s) = true := by
  simp [execFrameMark, h]

theorem execMarkMissing_memOk (h : s.memOk = true) : outMemOk (execMarkMissing s) = true := by
  simp [execMarkMissing, h]

@[simp] theorem State.takeResume_memOk (g : BitVec 40) : (s.takeResume g ).memOk = s.memOk := by
  simp [State.takeResume]

@[simp] theorem State.rootResume_memOk : s.rootResume.memOk = s.memOk := by
  unfold State.rootResume
  split <;> simp

@[simp] theorem State.raiseDiverged_memOk (own root : BitVec 40) : (s.raiseDiverged own root ).memOk = s.memOk := by
  simp [State.raiseDiverged]

@[simp] theorem State.checkFrame_memOk (v : Vote) : (s.checkFrame v ).memOk = s.memOk := by
  unfold State.checkFrame
  split
  · rfl
  · split <;> simp

@[simp] theorem State.takeVote_memOk (v : Vote) : (s.takeVote v ).memOk = s.memOk := by
  simp [State.takeVote]

theorem execBoundaryVote_memOk (vote : Vote) (h : s.memOk = true) : outMemOk (execBoundaryVote vote s) = true := by
  unfold execBoundaryVote
  split <;> simp [h]

@[simp] theorem State.enterHold_memOk : s.enterHold.memOk = s.memOk := by
  simp [State.enterHold]

@[simp] theorem State.takeHold_memOk : s.takeHold.memOk = s.memOk := by
  simp [State.takeHold]

theorem execHoldDeadline_memOk (h : s.memOk = true) : outMemOk (execHoldDeadline s) = true := by
  unfold execHoldDeadline
  split <;> simp [h]

theorem execHoldMsg_memOk (h : s.memOk = true) : outMemOk (execHoldMsg s) = true := by
  simp [execHoldMsg, h]

theorem execResumeMsg_memOk (frame : BitVec 40) (h : s.memOk = true) : outMemOk (execResumeMsg frame s) = true := by
  simp [execResumeMsg, h]

@[simp] theorem State.raiseLost_memOk (r : BitVec 10) (node : BitVec 16) : (s.raiseLost r  node ).memOk = s.memOk := by
  simp [State.raiseLost]

@[simp] theorem State.takeSteps_memOk (step last : W64) : (s.takeSteps step last ).memOk = s.memOk := by
  simp [State.takeSteps]

@[simp] theorem State.tellSteps_memOk (node : BitVec 16) : (s.tellSteps node ).memOk = s.memOk := by
  unfold State.tellSteps
  split <;> simp

theorem State.loseMember_memOk (r : BitVec 10) (h : s.memOk = true) : (s.loseMember r).memOk = true := by
  simp only [State.loseMember]
  split
  · exact h
  · split
    · exact h
    · split
      · simp [h]
      · exact State.endProgram_memOk _ _ _ (by simp [h])

theorem State.loseSelf_memOk (img : Image) (h : s.memOk = true) : (s.loseSelf img).memOk = true := by
  unfold State.loseSelf
  split
  · exact h
  · exact State.endProgram_memOk _ _ _ (by simp [h])

theorem execHoldTimeout_memOk (h : s.memOk = true) : outMemOk (execHoldTimeout s) = true := by
  unfold execHoldTimeout
  split
  · exact h
  next img _ =>
    have ht : (((s.missingRanks img).foldl (fun s r => s.loseMember r) s).loseSelf img).memOk = true :=
      State.loseSelf_memOk img (State.foldl_memOk (fun _ _ hs => State.loseMember_memOk _ hs) _ h)
    simp [h, ht]

@[simp] theorem State.setLastFrame_memOk (f : BitVec 40) : (s.setLastFrame f ).memOk = s.memOk := by
  simp [State.setLastFrame]

@[simp] theorem State.adoptFrame_memOk (f : BitVec 40) : (s.adoptFrame f ).memOk = s.memOk := by
  simp only [State.adoptFrame]
  split <;> simp

@[simp] theorem State.raiseGap_memOk (f : BitVec 40) : (s.raiseGap f ).memOk = s.memOk := by
  simp [State.raiseGap]

@[simp] theorem State.firstMark_memOk : s.firstMark.memOk = s.memOk := by
  simp only [State.firstMark]
  split <;> simp

@[simp] theorem State.nextMark_memOk : s.nextMark.memOk = s.memOk := by
  simp only [State.nextMark]
  split <;> simp

@[simp] theorem State.syncAll_memOk : s.syncAll.memOk = s.memOk := by
  simp [State.syncAll]

theorem execEffectiveMark_memOk (h : s.memOk = true) : outMemOk (execEffectiveMark s) = true := by
  simp [execEffectiveMark, h]

@[simp] theorem State.checkSkew_memOk (l : LaneId) (parent : Bool) (d : Int) (partnerTrim : Nat) :
    (s.checkSkew l  parent  d  partnerTrim ).memOk = s.memOk := by
  simp [State.checkSkew]

@[simp] theorem State.answerSync_memOk (l : LaneId) (x : Nat) (t2 : W32) : (s.answerSync l  x  t2 ).memOk = s.memOk := by
  simp [State.answerSync]

@[simp] theorem State.takeSample_memOk (l : LaneId) (x : Int × Int) : (s.takeSample l  x ).memOk = s.memOk := by
  simp [State.takeSample]

@[simp] theorem State.takeSync_memOk (l : LaneId) (x : Nat) : (s.takeSync l  x ).memOk = s.memOk := by
  simp [State.takeSync]

theorem execCadenceSync_memOk (lane : LaneId) (flit : Flit) (t4 : W32) (h : s.memOk = true) :
    outMemOk (execCadenceSync lane flit t4 s) = true := by
  simp [execCadenceSync, h]

@[simp] theorem State.endReturn_memOk : s.endReturn.memOk = s.memOk := by
  simp only [State.endReturn]
  split
  · rfl
  · split
    · split <;> split <;> simp
    · split <;> simp

@[simp] theorem State.countTick_memOk : s.countTick.memOk = s.memOk := by
  simp [State.countTick]

@[simp] theorem State.takeSramErrors_memOk : s.takeSramErrors.memOk = s.memOk := by
  unfold State.takeSramErrors
  refine State.foldl_memOk_eq _ (fun t u => ?_) _
  split
  · rfl
  · split <;> simp

/-- Time going on by one reference tick touches no memory. -/
@[simp] theorem State.withNow_memOk (n : Nat) : State.memOk { s with now := n } = s.memOk := by rfl

theorem State.referenceTick_memOk (h : s.memOk = true) : s.referenceTick.memOk = true := by
  have ht : ∀ t : State, t.memOk = true → t.countTick.takeUpsets.takeSramErrors.serveLanes.endReturn.memOk = true := fun t ht => by
    simpa using State.takeUpsets_memOk (s := t.countTick) (by simpa using ht)
  have hc : ∀ (g : HostIf) (ticks now : Nat), (g.closeGates ticks now).mailboxes = g.mailboxes := fun _ _ _ => rfl
  simp only [State.referenceTick]
  refine ht _ ?_
  rw [State.modHost_memOk _ (fun g => hc g _ _), State.modMc_memOk _ fun m => by split <;> rfl]
  exact h

end Sys2Proof.Machine
end

