-- ==== Sys2Proof/Proofs/MemFabric.lean ====
section
/-!
SUPPORT. The canonical form under the transfers of the fabric, dynamic transfers, node ids and advertisements.
-/

namespace Sys2Proof.Machine

variable {s : State}

/-! ### Scheduled transfers (R240 to R262, R280) -/

@[simp] theorem State.closeRecords_memOk : s.closeRecords.memOk = s.memOk := by
  simp [State.closeRecords]

@[simp] theorem State.takeCarrier_memOk (bytes : List Byte) : (s.takeCarrier bytes).memOk = s.memOk := by
  simp [State.takeCarrier]

@[simp] theorem State.sendSched_memOk (img : Image) (e : Nat) (bytes : List Byte) : (s.sendSched img e bytes).memOk = s.memOk := by
  simp [State.sendSched]

@[simp] theorem State.sendSlot_memOk (img : Image) (e addr : Nat) : (s.sendSlot img e addr).memOk = s.memOk := by
  simp only [State.sendSlot]
  split
  · simp
  · split
    · split <;> simp
    · simp

@[simp] theorem State.carryWord_memOk (img : Image) (slot e : Nat) (c : CoreId) (w : Nat × Bool × Nat × Byte × Bool × Nat) :
    (s.carryWord img slot e c w).memOk = s.memOk := by
  simp [State.carryWord]

theorem execFabricSlotOpen_memOk (slot : Fin 256) (h : s.memOk = true) : outMemOk (execFabricSlotOpen slot s) = true := by
  simp only [execFabricSlotOpen]
  split
  · exact h
  · split
    · exact h
    · split
      · simp [h]
      · split
        · exact h
        · split
          · split <;> simp [h]
          · split <;> simp [h]

theorem State.deliver_memOk (img : Image) (lane : LaneId) (t : Transfer) (r : Nat × Nat × Byte × CoreId) (h : s.memOk = true) :
    outMemOk (s.deliver img lane t r) = true := by
  simp [State.deliver, h]

@[simp] theorem State.refuseHops_memOk (h : Nat) : (s.refuseHops h).memOk = s.memOk := by
  simp [State.refuseHops]

theorem execSchedTransfer_memOk (lane : LaneId) (transfer : Transfer) (h : s.memOk = true) :
    outMemOk (execSchedTransfer lane transfer s) = true := by
  simp only [execSchedTransfer]
  split
  · exact h
  · split
    · exact h
    · split
      · exact h
      · split
        · exact h
        · simp [State.deliver_memOk, h]

theorem execForward_memOk (lane : LaneId) (header : Flit) (data : List Flit) (h : s.memOk = true) :
    outMemOk (execForward lane header data s) = true := by
  simp only [execForward]
  split
  · exact h
  · split
    · exact h
    · simp [h]

theorem execRoutingRebuildDone_memOk (h : s.memOk = true) : outMemOk (execRoutingRebuildDone s) = true := by
  simp only [execRoutingRebuildDone]
  split
  · exact h
  · rw [outMemOk_next, State.bump_memOk]
    split <;> simp [h]

/-! ### What a dynamic transfer carries out at its destination (R240, R280 to R283) -/

@[simp] theorem State.reply_memOk (x : Nat) (m : Msg) : (s.reply x m).memOk = s.memOk := by
  simp [State.reply]

@[simp] theorem State.takeBind_memOk (node : BitVec 16) (a : BindAsk) : (s.takeBind node a).memOk = s.memOk := by
  unfold State.takeBind
  split <;> simp

@[simp] theorem State.takeUnbind_memOk (node : BitVec 16) (cont chk : Bool) : (s.takeUnbind node cont chk).memOk = s.memOk := by
  simp [State.takeUnbind]

@[simp] theorem State.modProtected_memOk (node : BitVec 16) (g : Protected → Protected) : (s.modProtected node g).memOk = s.memOk := by
  simp [State.modProtected]

@[simp] theorem State.takeRecord_memOk (node : BitVec 16) (step : W64) (pages : List (Nat × List Byte)) :
    (s.takeRecord node step pages).memOk = s.memOk := by
  simp [State.takeRecord]

@[simp] theorem State.answerRestore_memOk (node : BitVec 16) (step : W64) (units : List (Nat × Nat)) :
    (s.answerRestore node step units).memOk = s.memOk := by
  simp only [State.answerRestore]
  split
  · rfl
  · refine State.foldl_memOk_eq _ (fun t u => ?_) _
    split <;> simp

theorem State.takeAwaited_memOk (set i : Nat) (b : List Byte) (h : s.memOk = true) : (s.takeAwaited set i b).memOk = true := by
  unfold State.takeAwaited
  split <;> simp [h]

@[simp] theorem State.takeRejoin_memOk (node : BitVec 16) (r : BitVec 10) : (s.takeRejoin node r).memOk = s.memOk := by
  simp only [State.takeRejoin]
  split
  · rfl
  · split <;> simp

theorem State.takeUnit_memOk (src : BitVec 16) (set : Nat) (step : W64) (i total : Nat) (b : List Byte) (h : s.memOk = true) :
    (s.takeUnit src set step i total b).memOk = true := by
  simp [State.takeUnit, State.takeAwaited_memOk, h]

@[simp] theorem State.answerImage_memOk (dst : BitVec 16) (code : Byte) : (s.answerImage dst code).memOk = s.memOk := by
  unfold State.answerImage
  split <;> simp

theorem State.carryOut_memOk (x : Nat) (t : Transfer) (h : s.memOk = true) : (s.carryOut x t).memOk = true := by
  have hl : ∀ r, (s.loseMember r).memOk = true := fun r => State.loseMember_memOk r h
  have hs : ∀ st items, (s.stopRecovery st items).memOk = true := fun st items => State.stopRecovery_memOk st items h
  have hd : ∀ a b, (s.dramStore a b).memOk = true := fun a b => State.dramStore_memOk a b h
  unfold State.carryOut
  extract_lets src
  generalize Config.readContent t = content, decide (hKind x = 3) = control
  cases content with
  | bind a =>
    cases control
    · exact h
    · exact (State.takeBind_memOk _ _).trans h
  | unbind c k =>
    cases control
    · exact h
    · exact (State.takeUnbind_memOk _ _ _).trans h
  | rejoin r module =>
    cases control
    · exact h
    · exact (State.takeRejoin_memOk _ _).trans h
  | hold =>
    cases control
    · exact h
    · exact State.ite_memOk (State.takeHold_memOk.trans h) h
  | resume g =>
    cases control
    · exact h
    · exact State.ite_memOk ((State.takeResume_memOk _).trans h) h
  | leave r =>
    cases control
    · exact h
    · exact State.ite_memOk (hl _) h
  | recoveryEnd status items =>
    cases control
    · exact h
    · exact State.ite_memOk (hs _ _) h
  | restore step units =>
    cases control
    · exact (State.answerRestore_memOk _ _ _).trans h
    · exact h
  | record step pages =>
    cases control
    · exact (State.takeRecord_memOk _ _ _).trans h
    · exact h
  | recovery step last =>
    cases control
    · exact h
    · exact (State.takeSteps_memOk _ _).trans h
  | fwRequest code =>
    cases control
    · exact h
    · exact (State.answerImage_memOk _ _).trans h
  | unit set step i total b =>
    cases control
    · exact State.takeUnit_memOk _ _ _ _ _ _ h
    · exact h
  | state step b =>
    cases control
    · exact State.ite_memOk ((State.modFab_memOk _).trans h) ((State.modProtected_memOk _ _).trans h)
    · exact h
  | pageRead a n =>
    cases control
    · exact State.ite_memOk ((State.sendDyn_memOk _ _ _).trans h) h
    · exact h
  | pageWrite a b =>
    cases control
    · exact State.ite_memOk (hd _ _) h
    · exact h
  | _ => exact h

/-! ### Acknowledgement and refusal (R280 to R282) -/

@[simp] theorem State.dropTransfer_memOk (seq : W32) : (s.dropTransfer seq).memOk = s.memOk := by
  simp [State.dropTransfer]

theorem State.refused_memOk (o : DynOut) (h : s.memOk = true) : (s.refused o).memOk = true := by
  simp only [State.refused]
  split
  · simp [h]
  · split
    · simp [State.pageFailed_memOk, h]
    · simp [h]
  · split <;> simp [h]
  · simp [h]
  · simp [h]
  · split
    · exact State.endProgram_memOk _ _ _ (by simp [h])
    · exact State.endRecovery_memOk _ _ (by simp [h])
    · simp [h]

@[simp] theorem State.takeAck_memOk (sequence : W32) : (s.takeAck sequence).memOk = s.memOk := by
  simp only [State.takeAck]
  split
  · rfl
  · split
    · split <;> simp
    · simp

theorem State.takeRefuse_memOk (sequence : W32) (reason : Byte) (h : s.memOk = true) : (s.takeRefuse sequence reason).memOk = true := by
  unfold State.takeRefuse
  split <;> simp [h, State.refused_memOk]

theorem execAckMsg_memOk (sequence : W32) (h : s.memOk = true) : outMemOk (execAckMsg sequence s) = true := by
  simp [execAckMsg, h]

theorem execRefuseMsg_memOk (sequence : W32) (reason : Byte) (h : s.memOk = true) :
    outMemOk (execRefuseMsg sequence reason s) = true := by
  simp [execRefuseMsg, State.takeRefuse_memOk, h]

theorem State.arrive_memOk (x : Nat) (t : Transfer) (h : s.memOk = true) : (s.arrive x t).memOk = true := by
  simp [State.arrive, State.takeRefuse_memOk, State.carryOut_memOk, h]

@[simp] theorem State.passWaiting_memOk (header : Flit) (t : Transfer) : (s.passWaiting header t).memOk = s.memOk := by
  simp [State.passWaiting]

theorem execDynTransfer_memOk (lane : LaneId) (transfer : Transfer) (h : s.memOk = true) :
    outMemOk (execDynTransfer lane transfer s) = true := by
  simp only [execDynTransfer]
  split
  · exact h
  · split
    · simp [h]
    · split
      · simp [State.arrive_memOk, h]
      · split <;> simp [h]

theorem execResendTimeout_memOk (sequence : W32) (h : s.memOk = true) : outMemOk (execResendTimeout sequence s) = true := by
  unfold execResendTimeout
  split <;> simp [State.refused_memOk, h]

@[simp] theorem State.unqueue_memOk (l : Option LaneId) (e : TxEntry) : (s.unqueue l e).memOk = s.memOk := by
  unfold State.unqueue
  split <;> simp

theorem execCreditWaitTimeout_memOk (transfer : TransferId) (h : s.memOk = true) :
    outMemOk (execCreditWaitTimeout transfer s) = true := by
  simp only [execCreditWaitTimeout]
  split
  · exact h
  · split
    · exact h
    · split
      · split <;> simp [h]
      · split <;> simp [h]

theorem execEscapeTimeout_memOk (transfer : TransferId) (h : s.memOk = true) : outMemOk (execEscapeTimeout transfer s) = true := by
  simp only [execEscapeTimeout]
  split
  · exact h
  · split
    · simp [h]
    · split <;> simp [State.refused_memOk, h]

/-! ### Node ids and advertisements (R283 to R289) -/

theorem execHashedNodeId_memOk (h : s.memOk = true) : outMemOk (execHashedNodeId s) = true := by
  simp [execHashedNodeId, h]

@[simp] theorem State.resolveClash_memOk (a : Advert) : (s.resolveClash a).memOk = s.memOk := by
  simp only [State.resolveClash, State.raiseDev_memOk]
  split
  · rfl
  · split
    · simp
    · split <;> simp

theorem execAdvertisement_memOk (lane : LaneId) (adv : Advert) (h : s.memOk = true) : outMemOk (execAdvertisement lane adv s) = true := by
  simp only [execAdvertisement]
  split
  · exact h
  · split
    · simp [h]
    · split
      · exact h
      · exact State.tryActivate_memOk (by simp [h])

theorem execAdvertisementPeriod_memOk (h : s.memOk = true) : outMemOk (execAdvertisementPeriod s) = true := by
  simp [execAdvertisementPeriod, h]

@[simp] theorem State.partnerLost_memOk (node : BitVec 16) : (s.partnerLost node).memOk = s.memOk := by
  simp only [State.partnerLost]
  split <;> simp

theorem execAdvertisementExpiry_memOk (node : BitVec 16) (h : s.memOk = true) : outMemOk (execAdvertisementExpiry node s) = true := by
  simp [execAdvertisementExpiry, h]

end Sys2Proof.Machine
end

