-- ==== Sys2Proof/Proofs/MemRecovery.lean ====
section
/-!
SUPPORT. The canonical form under mirrors, recovery, surveys and the loss of a stack.
-/

namespace Sys2Proof.Machine

variable {s : State}

/-! ### Records and checkpoints (R290 to R299) -/

theorem execContinuousRecord_memOk (node : BitVec 16) (step : W64) (sequence : W32) (pages : List (Nat × List Byte)) (h : s.memOk = true) :
    outMemOk (execContinuousRecord node step sequence pages s) = true := by
  simp [execContinuousRecord, h]

@[simp] theorem State.checkpointAtPartner_memOk (img : Image) : (s.checkpointAtPartner img).memOk = s.memOk := by
  unfold State.checkpointAtPartner
  split <;> simp

theorem execCheckpointComplete_memOk (set : Fin 64) (h : s.memOk = true) : outMemOk (execCheckpointComplete set s) = true := by
  simp only [execCheckpointComplete]
  split <;> simp [h]

theorem execMemberLeave_memOk (rank : BitVec 10) (h : s.memOk = true) : outMemOk (execMemberLeave rank s) = true := by
  simp [execMemberLeave, State.loseMember_memOk, h]

theorem execMemberIsolation_memOk (rank : BitVec 10) (h : s.memOk = true) : outMemOk (execMemberIsolation rank s) = true := by
  simp [execMemberIsolation, State.loseMember_memOk, h]

/-! ### Going back to a snapshot (R294 to R301) -/

theorem State.restoreSet_memOk {img : Image} {step : W64} {lost : Option StackId} {set : Nat} {t : State} (h : s.memOk = true)
    (ht : s.restoreSet img step lost set = some t) : t.memOk = true := by
  simp only [State.restoreSet, Option.ite_none_left_eq_some, Option.some.injEq] at ht
  obtain ⟨-, rfl⟩ := ht
  rw [State.modProg_memOk]
  exact State.foldl_memOk (fun _ _ hs => State.copyRange_memOk _ _ _ hs) _ h

@[simp] theorem State.askUnits_memOk (step : W64) : (s.askUnits step).memOk = s.memOk := by
  unfold State.askUnits
  split <;> simp

/-- A chain of steps that may each fail keeps the form when each step keeps it. -/
theorem State.foldl_bind_memOk {α : Type} {f : State → α → Option State}
    (hf : ∀ s x t, s.memOk = true → f s x = some t → t.memOk = true) (l : List α) {o : Option State} {t : State}
    (ho : ∀ t, o = some t → t.memOk = true) (ht : l.foldl (fun o x => o.bind fun s => f s x) o = some t) : t.memOk = true := by
  induction l generalizing o with
  | nil => exact ho t ht
  | cons x l ih =>
    refine ih (fun u hu => ?_) ht
    obtain ⟨v, hv, hu⟩ := Option.bind_eq_some_iff.1 hu
    exact hf v x u (ho v hv) hu

theorem State.restoreSets_memOk {img : Image} {step : W64} {lost : Option StackId} {t : State} (h : s.memOk = true)
    (ht : s.restoreSets img step lost = some t) : t.memOk = true := by
  obtain ⟨u, hu, rfl⟩ := Option.map_eq_some_iff.1 ht
  rw [State.askUnits_memOk]
  refine State.foldl_bind_memOk (fun _ _ _ hs hf => State.restoreSet_memOk hs hf) _ (fun v hv => ?_) hu
  obtain rfl := Option.some.inj hv
  exact (State.modProg_memOk _).trans h

@[simp] theorem State.restoreCore_memOk (img : Image) (k : Continuous) (c : CoreId) : (s.restoreCore img k c).memOk = s.memOk := by
  simp [State.restoreCore]

@[simp] theorem State.requestInput_memOk (i : W64 × W64) : (s.requestInput i).memOk = s.memOk := by
  simp [State.requestInput]

theorem State.applyState_memOk (img : Image) (k : Continuous) (h : s.memOk = true) : (s.applyState img k).memOk = true := by
  simp [State.applyState, h]

@[simp] theorem State.replayFrom_memOk (k : Continuous) (last : W64) (inputs : List (W64 × W64)) :
    (s.replayFrom k last inputs).memOk = s.memOk := by
  simp [State.replayFrom]

theorem State.rewind_memOk (img : Image) (k : Continuous) (last : W64) (taken : List (W64 × W64)) (h : s.memOk = true) :
    (s.rewind img k last taken).memOk = true := by
  rw [State.rewind, State.modProg_memOk, State.replayFrom_memOk]
  exact State.applyState_memOk _ _ (State.abortStep_memOk _ h)

/-! ### Covering a lost member (R300 to R305) -/

@[simp] theorem State.restorePair_memOk (st : W64) (r : BitVec 10) : (s.restorePair st r).memOk = s.memOk := by
  unfold State.restorePair
  split <;> simp

@[simp] theorem State.passRank_memOk (r : BitVec 10) : (s.passRank r).memOk = s.memOk := by
  simp [State.passRank]

@[simp] theorem State.resumeNow_memOk : s.resumeNow.memOk = s.memOk := by
  simp [State.resumeNow]

theorem State.beginCover_memOk (img : Image) (st : W64) (h : s.memOk = true) : (s.beginCover img st).memOk = true := by
  simp only [State.beginCover]
  split
  next k t _ ht _ =>
    have hr : ∀ taken, (t.rewind img k s.prog.step taken).memOk = true := fun taken =>
      State.rewind_memOk img k _ taken (State.restoreSets_memOk h ht)
    simp [hr]
  · exact State.endMissing_memOk _ h
  · exact State.endRecovery_memOk _ _ h

theorem State.writeSet_memOk (img : Image) (g : SetGen) (h : s.memOk = true) : (s.writeSet img g).memOk = true := by
  simp only [State.writeSet]
  refine State.foldl_memOk (fun t u ht => ?_) _ h
  split
  · exact State.dramWrite_memOk _ _ ht
  · exact ht

theorem State.adoptRank_memOk (img : Image) (gens : List SetGen) (record : List Byte) (h : s.memOk = true) :
    (s.adoptRank img gens record).memOk = true := by
  simp only [State.adoptRank, State.advertise_memOk]
  refine State.applyState_memOk _ _ ((State.modProg_memOk _).trans ?_)
  exact State.foldl_memOk (fun _ _ ht => State.writeSet_memOk _ _ ht) _ (State.startProgram_memOk _ _ _ h)

theorem State.standIn_memOk (img : Image) (p : Protected) (st last : W64) (h : s.memOk = true) :
    (s.standIn img p st last).memOk = true := by
  simp only [State.standIn]
  split <;> simp [State.adoptRank_memOk, h]

theorem execCoverBegin_memOk (h : s.memOk = true) : outMemOk (execCoverBegin s) = true := by
  simp only [execCoverBegin]
  split
  · exact h
  · split
    · simp [State.beginCover_memOk, h]
    · split <;> simp [State.standIn_memOk, h]

theorem State.dropRank_memOk (img : Image) (rank : BitVec 10) (h : s.memOk = true) : (s.dropRank img rank).memOk = true := by
  have ht : (s.mapCores Core.stand).memOk = true := State.mapCores_memOk_of (fun _ hk => Core.stand_memOk hk) h
  simp [State.dropRank, ht, h]

@[simp] theorem State.linksBack_memOk (img : Image) : (s.linksBack img).memOk = s.memOk := by
  simp [State.linksBack]

@[simp] theorem State.rankBack_memOk (img : Image) (rank : BitVec 10) : (s.rankBack img rank).memOk = s.memOk := by
  simp [State.rankBack]

theorem State.takeBack_memOk (img : Image) (gens : List SetGen) (record : List Byte) (h : s.memOk = true) :
    (s.takeBack img gens record).memOk = true := by
  simp only [State.takeBack, State.enterHold_memOk, State.raiseStep_memOk, State.modFab_memOk, State.modProg_memOk]
  exact State.applyState_memOk _ _ (State.foldl_memOk (fun _ _ ht => State.writeSet_memOk _ _ ht) _ h)

theorem execCoverEnd_memOk (rank : BitVec 10) (h : s.memOk = true) : outMemOk (execCoverEnd rank s) = true := by
  have hd : ∀ img, (s.dropRank img rank).memOk = true := fun img => State.dropRank_memOk img rank h
  simp only [execCoverEnd]
  split
  · split
    · exact h
    · split
      · exact h
      · simp [State.adoptRank_memOk, h]
  · split
    · exact h
    · split
      · split <;> simp [State.takeBack_memOk, h]
      · simp [hd, State.dropRank_memOk, h]

/-! ### Surveys (R330 to R334) -/

@[simp] theorem State.takeMeasures_memOk (m : Measures) : (s.takeMeasures m).memOk = s.memOk := by
  have hs : ∀ (t : State) (x : SiteId × BitVec 8), (t.modSite x.1 fun y => { y with transit := x.2 }).memOk = t.memOk := fun _ _ => by simp
  simp [State.takeMeasures]

theorem State.compareBounds_memOk (img : Image) (h : s.memOk = true) : (s.compareBounds img).memOk = true := by
  simp only [State.compareBounds]
  refine State.foldl_memOk (fun t c ht => ?_) _ ?_
  · exact State.ite_memOk (State.coreFault_memOk _ _ _ ht) ht
  · refine (State.foldl_memOk_eq _ (fun t e => ?_) _).trans h
    split
    · split <;> simp
    · rfl

theorem State.answerSurvey_memOk (errorAt : Option Nat) (x : Handle) (h : s.memOk = true) : (s.answerSurvey errorAt x).memOk = true := by
  simp only [State.answerSurvey]
  split
  · exact h
  · split
    · simp [h]
    · exact State.toHost_memOk _ _ _ _ _ h

theorem State.withSurvey_memOk (n : W32) (b : List Byte) : State.memOk { s with surveySeq := n, surveyRec := b } = s.memOk := by rfl

theorem State.withSites_memOk {v : Vector Site 200} (h : s.memOk = true) (hv : ∀ i : SiteId, v[i].memOk = true) :
    State.memOk { s with sites := v } = true := by
  obtain ⟨hd, hm, hh, hr, hc, -⟩ := State.memOk_iff.1 h
  exact State.memOk_iff.2 ⟨hd, hm, hh, hr, hc, hv⟩

theorem State.applyRepairs_memOk (h : s.memOk = true) : s.applyRepairs.memOk = true := by
  refine State.withSites_memOk h fun i => ?_
  rw [Fin.getElem_fin, Vector.getElem_ofFn]
  exact State.site_memOk h i

theorem execSurveyComplete_memOk (m : Measures) (h : s.memOk = true) : outMemOk (execSurveyComplete m s) = true := by
  simp only [execSurveyComplete]
  split
  · exact h
  · have ht : ∀ (l : List Handle) (t : State), t.memOk = true → (l.foldl (fun t x => t.answerSurvey m.hostErrorAt x) t).memOk = true :=
      fun l t ht => State.foldl_memOk (fun _ _ hs => State.answerSurvey_memOk _ _ hs) l ht
    split
    · rw [outMemOk_next, State.modPwr_memOk]
      refine State.applyRepairs_memOk (ht _ _ ?_)
      simp [State.withSurvey_memOk, h]
    · split
      · refine State.compareBounds_memOk _ (ht _ _ ?_)
        simp [State.withSurvey_memOk, h]
      · refine ht _ _ ?_
        simp [State.withSurvey_memOk, h]

/-! ### A stack that is lost (R244, R300) -/

/-- A unit of another stack reads the same when one stack's epoch changes. -/
theorem dramByte_set_ne (epoch : Vector Nat 20) (x : StackId) (n a : Nat) (hx : a / unitBytes % 20 ≠ x.val) :
    dramByte (epoch.set x.val n) a = dramByte epoch a := by
  have hne : x.val ≠ a / 2 ^ 21 % 20 := fun h => hx h.symm
  simp only [dramByte, Vector.getElem_set_ne _ _ hne]

theorem wf_without_stack {epoch : Vector Nat 20} {m : Memory} (x : StackId) (n : Nat) (h : Memory.wf (dramByte epoch) m = true) :
    Memory.wf (dramByte (epoch.set x.val n)) (m.filter fun c => c.1 / unitBytes % 20 ≠ x.val) = true := by
  have hf := Memory.wf_filter (fun c => decide (c.1 / unitBytes % 20 ≠ x.val)) h
  simp only [Memory.wf, Bool.and_eq_true, List.all_eq_true, decide_eq_true_eq] at hf ⊢
  obtain ⟨hsort, hall⟩ := hf
  refine ⟨hsort, fun c hc => ?_⟩
  rw [dramByte_set_ne _ _ _ _ (of_decide_eq_true (List.mem_filter.1 hc).2)]
  exact hall c hc

theorem State.loseUnits_memOk (x : StackId) (h : s.memOk = true) : (s.loseUnits x).memOk = true := by
  obtain ⟨hd, hr⟩ := State.memOk_iff.1 h
  exact State.memOk_iff.2 ⟨wf_without_stack x _ hd, hr⟩

theorem State.restoreStack_memOk {img : Image} {x : StackId} {t : State} (h : s.memOk = true)
    (ht : s.restoreStack img x = some t) : t.memOk = true := by
  obtain ⟨k, -, hk⟩ := Option.bind_eq_some_iff.1 ht
  obtain ⟨u, hu, rfl⟩ := Option.map_eq_some_iff.1 hk
  exact State.rewind_memOk _ _ _ _ (State.restoreSets_memOk h hu)

@[simp] theorem State.relocateStaged_memOk (x : StackId) : (s.relocateStaged x).memOk = s.memOk := by
  unfold State.relocateStaged
  split <;> simp

theorem State.programStackLost_memOk (img : Image) (x : StackId) (h : s.memOk = true) : (s.programStackLost img x).memOk = true := by
  have hend : ∀ t : State, t.memOk = true → ((t.relocateStaged x).endProgram 0x0208 x.val none).memOk = true := fun t ht =>
    State.endProgram_memOk _ _ _ (by simpa using ht)
  unfold State.programStackLost
  extract_lets s1 multi s2 ended
  have h2 : s2.memOk = true := by simp [s2, s1, h]
  clear_value s2
  refine State.ite_memOk (hend _ h2) ?_
  rename_i s3
  have h3 : s3.memOk = true := by simp [s3, h2]
  clear_value s3
  split
  next u _ hu =>
    have hu := State.restoreStack_memOk h3 hu
    exact State.ite_memOk hu (State.endMissing_memOk _ (by simp [hu]))
  next u _ hu =>
    have hu := State.restoreStack_memOk h3 hu
    simp [hu]
  · exact hend _ (by simp [h3])

theorem State.loseStack_memOk (x : StackId) (h : s.memOk = true) : (s.loseStack x).memOk = true := by
  unfold State.loseStack
  extract_lets s1 s2 s3
  have h1 : s1.memOk = true := State.loseUnits_memOk x h
  have h2 : s2.memOk = true := by
    simp only [s2]
    split
    · exact State.loseUnits_memOk _ h1
    · exact h1
  have h3 : s3.memOk = true := by simp [s3, h2]
  split
  · exact State.programStackLost_memOk _ _ h3
  · simp [h3]

theorem execStackLost_memOk (stack : StackId) (cause : StackLossCause) (h : s.memOk = true) :
    outMemOk (execStackLost stack cause s) = true := by
  simp [execStackLost, State.loseStack_memOk, h]

theorem execRecoveryReplayDone_memOk (h : s.memOk = true) : outMemOk (execRecoveryReplayDone s) = true := by
  simp only [execRecoveryReplayDone]
  split
  · split
    · exact h
    · split
      · rw [outMemOk_next]
        split <;> simp [h]
      · simp [h]
  · exact h

theorem execCoreWake_memOk (h : s.memOk = true) : outMemOk (execCoreWake s) = true := by
  simp only [execCoreWake]
  split <;> simp [h]

end Sys2Proof.Machine
end

