-- ==== Sys2Proof/Proofs/MemMc.lean ====
section
/-!
SUPPORT. The canonical form under the management controller.
-/

namespace Sys2Proof.Machine

variable {s : State}

/-! ### The MC: answers, the log and its SRAM (R331 to R346) -/

@[simp] theorem State.binderDown_memOk : s.binderDown.memOk = s.memOk := by
  simp [State.binderDown]

@[simp] theorem State.answer_memOk (a : Answer) : (s.answer a).memOk = s.memOk := by
  simp [State.answer]

@[simp] theorem State.accept_memOk (code : Nat) : (s.accept code).memOk = s.memOk := by
  simp [State.accept]

@[simp] theorem State.refuse_memOk (code reason : Nat) : (s.refuse code reason).memOk = s.memOk := by
  simp [State.refuse]

@[simp] theorem State.logTrip_memOk (group index : Nat) (reading : Int) : (s.logTrip group index reading).memOk = s.memOk := by
  simp [State.logTrip]

@[simp] theorem Mc.enterHeld_sram (m : Mc) : m.enterHeld.sram = m.sram := by
  have hf : ∀ (l : List LogEntry) (m : Mc), (l.foldl Mc.enter m).sram = m.sram := fun l => by
    induction l with
    | nil => intro m; rfl
    | cons e l ih => intro m; rw [List.foldl_cons, ih, Mc.enter_sram]
  exact hf _ _

@[simp] theorem Mc.setSensor_sram (m : Mc) (g : SensorGroup) (i : Nat) (x : Sensor) : (m.setSensor g i x).sram = m.sram := by
  cases g <;> rfl

@[simp] theorem Mc.blow_sram (m : Mc) (bits : List Nat) : (m.blow bits).sram = m.sram := by rfl

@[simp] theorem Mc.writeChunk_sram (m : Mc) (c : Component) (bytes : List Byte) : (m.writeChunk c bytes).sram = m.sram := by rfl

@[simp] theorem Mc.writeLog_sram (m : Mc) (e : LogEntry) : (m.writeLog e).sram = m.sram := by rfl

theorem Mc.clearRegion_wf {m : Mc} (h : Memory.wf zeroByte m.sram = true) : Memory.wf zeroByte m.clearRegion.sram = true :=
  Memory.wf_filter _ h

theorem Mc.putKey_wf {m : Mc} (k : BitVec 384) (h : Memory.wf zeroByte m.sram = true) : Memory.wf zeroByte (m.putKey k).sram = true :=
  Memory.wf_write _ _ h

theorem Mc.ite_putKey_wf {m : Mc} {p : Prop} [Decidable p] {k : BitVec 384} (h : Memory.wf zeroByte m.sram = true) :
    Memory.wf zeroByte (if p then m.putKey k else m).sram = true := by
  split
  · exact Mc.putKey_wf k h
  · exact h

theorem Mc.putCode_wf {m : Mc} (f : FwImage) (h : Memory.wf zeroByte m.sram = true) : Memory.wf zeroByte (m.putCode f).sram = true :=
  Memory.wf_write _ _ h

theorem Mc.giveBack_wf {m : Mc} (h : Memory.wf zeroByte m.sram = true) : Memory.wf zeroByte m.giveBack.sram = true := by
  unfold Mc.giveBack
  split
  · exact h
  · dsimp only
    split
    · exact Memory.wf_write _ _ h
    · exact h

/-! ### Power off (R334, R368) -/

theorem Core.reset_memOk (c : CoreId) : (Core.reset c).memOk = true := by
  refine Core.memOk_iff.2 ⟨fun m => by cases m <;> rfl, fun i => ?_⟩
  simp [Core.reset, Awl.reset, Stream.reset, Mem.sortedFrom]

/-- The module once its main rails are off: every core and site starts afresh, device memory loses its content. -/
theorem State.mainOff_memOk (h : s.memOk = true) : s.mainOff.memOk = true := by
  obtain ⟨hd, hm, -, hr, -, -⟩ := State.memOk_iff.1 (State.loseDram_memOk h)
  refine State.memOk_iff.2 ⟨hd, hm, HostIf.memOk_iff.2 fun i => ?_, hr, fun c => ?_, fun i => ?_⟩
  · simp [State.mainOff, HostIf.reset, Mailbox.reset]
  · simp only [State.mainOff, State.core, Fin.getElem_fin, Vector.getElem_ofFn]
    exact Core.reset_memOk c
  · simp only [State.mainOff, State.site, Fin.getElem_fin, Vector.getElem_ofFn]
    rfl

theorem State.shutdown_memOk (group index : Nat) (reading : Int) (h : s.memOk = true) :
    (s.shutdown group index reading).memOk = true := by
  unfold State.shutdown
  exact State.ite_memOk (State.mainOff_memOk (by simp [h])) h

theorem State.allOff_memOk (h : s.memOk = true) : s.allOff.memOk = true := by
  obtain ⟨hd, hm, -, -, hc, hi⟩ := State.memOk_iff.1 (State.mainOff_memOk h)
  refine State.memOk_iff.2 ⟨hd, hm, HostIf.memOk_iff.2 fun i => ?_, Memory.wf_nil _, hc, hi⟩
  simp [State.allOff, HostIf.reset, Mailbox.reset]

/-! ### Wipes, starts and restarts of the MC (R335, R343 to R346) -/

theorem State.wipe_memOk (cause : Fin 6) (retries : Nat) (h : s.memOk = true) : (s.wipe cause retries).memOk = true := by
  have ht : ∀ f : Mc → Mc, (∀ m, (f m).sram = m.clearRegion.sram) → (s.modMc f).memOk = true := fun f hf =>
    State.modMc_memOk_of h (by rw [hf]; exact Mc.clearRegion_wf (State.sram_wf h))
  simp [State.wipe, ht]

theorem State.wipeSelf_memOk (cause : Fin 6) (h : s.memOk = true) : (s.wipeSelf cause).memOk = true := by
  exact State.wipe_memOk _ _ (by simp [h])

theorem State.wipePresent_memOk (triggers : BitVec 4) (h : s.memOk = true) : (s.wipePresent triggers).memOk = true := by
  exact State.foldl_memOk (fun _ _ ht => State.wipeSelf_memOk _ ht) _ h

@[simp] theorem State.chooseProfile_memOk : s.chooseProfile.memOk = s.memOk := by
  simp [State.chooseProfile]

@[simp] theorem State.nowServes_memOk (c : Component) (f : FwImage) : (s.nowServes c f).memOk = s.memOk := by
  simp [State.nowServes]

@[simp] theorem State.tryStep3_memOk : s.tryStep3.memOk = s.memOk := by
  simp [State.tryStep3]

theorem State.mcStart_memOk (cause : Nat) (triggers : BitVec 4) (h : s.memOk = true) : (s.mcStart cause triggers).memOk = true := by
  unfold State.mcStart
  extract_lets s1 s2 s3
  have h1 : s1.memOk = true := State.wipeSelf_memOk 5 (State.modMc_memOk_of h (Mc.giveBack_wf (State.sram_wf h)))
  have h2 : s2.memOk = true := State.wipePresent_memOk triggers h1
  have h3 : s3.memOk = true := State.modMc_memOk_of h2 (Mc.ite_putKey_wf (State.sram_wf h2))
  clear_value s3
  split
  · simp [h3]
  next f _ =>
    have ht : ∀ g : Mc → Mc, (∀ m, (g m).sram = (m.putCode f).sram) → (s3.modMc g).memOk = true := fun g hg =>
      State.modMc_memOk_of h3 (by rw [hg]; exact Mc.putCode_wf f (State.sram_wf h3))
    simp [ht]

theorem execBinderWatchdog_memOk (h : s.memOk = true) : outMemOk (execBinderWatchdog s) = true := by
  simp [execBinderWatchdog, h]

@[simp] theorem State.binderInService_memOk : s.binderInService.memOk = s.memOk := by
  simp only [State.binderInService]
  split <;> simp

theorem execBinderRestarted_memOk (h : s.memOk = true) : outMemOk (execBinderRestarted s) = true := by
  simp [execBinderRestarted, h]

theorem execMcWatchdog_memOk (h : s.memOk = true) : outMemOk (execMcWatchdog s) = true := by
  simp [execMcWatchdog, h]

theorem execMcRestart_memOk (h : s.memOk = true) : outMemOk (execMcRestart s) = true := by
  simp [execMcRestart, State.mcStart_memOk, h]

/-! ### Sensors, trips, tampering, the log and the march tests (R340, R356 to R369) -/

theorem State.failRead_memOk (g : SensorGroup) (i : Nat) (x : Sensor) (h : s.memOk = true) : (s.failRead g i x).memOk = true := by
  simp [State.failRead, State.shutdown_memOk, h]

@[simp] theorem State.warn_memOk (g : SensorGroup) (i : Nat) (r : Reading) : (s.warn g i r).memOk = s.memOk := by
  cases g <;> simp [State.warn]

@[simp] theorem State.takeReading_memOk (g : SensorGroup) (i : Nat) (x : Sensor) (r : Reading) :
    (s.takeReading g i x r).memOk = s.memOk := by
  simp [State.takeReading]

theorem execSensorRead_memOk (group : SensorGroup) (index : Nat) (reading : Option Reading) (h : s.memOk = true) :
    outMemOk (execSensorRead group index reading s) = true := by
  unfold execSensorRead
  split
  · exact h
  · cases reading <;> simp [State.failRead_memOk, h]

theorem execSensorPageRefresh_memOk (h : s.memOk = true) : outMemOk (execSensorPageRefresh s) = true := by
  simp [execSensorPageRefresh, h]

theorem execThresholdTrip_memOk (group : SensorGroup) (index : Nat) (reading : Reading) (h : s.memOk = true) :
    outMemOk (execThresholdTrip group index reading s) = true := by
  simp only [execThresholdTrip]
  split
  · simp [State.shutdown_memOk, State.loseStack_memOk, h]
  · exact h

@[simp] theorem State.railsFailed_memOk (r : Nat) (reading : Int) : (s.railsFailed r reading).memOk = s.memOk := by
  simp [State.railsFailed]

theorem execRailShutdown_memOk (trip : RailTrip) (h : s.memOk = true) : outMemOk (execRailShutdown trip s) = true := by
  cases trip <;> simp [execRailShutdown, State.shutdown_memOk, h]

theorem execPhaseShed_memOk (rail : Fin 23) (phase : Nat) (h : s.memOk = true) : outMemOk (execPhaseShed rail phase s) = true := by
  simp only [execPhaseShed]
  split
  · exact h
  · split
    · simp [h]
    · split
      · rw [outMemOk_next]
        exact State.ite_memOk (State.shutdown_memOk _ _ _ (by simp [h])) (State.allOff_memOk (by simp [h]))
      · simp [h]

theorem execTamperTrigger_memOk (cause : Fin 6) (verifyRetries : Nat) (h : s.memOk = true) :
    outMemOk (execTamperTrigger cause verifyRetries s) = true := by
  simp [execTamperTrigger, State.wipe_memOk, h]

@[simp] theorem Mc.foldl_writeLog_sram (l : List LogEntry) (m : Mc) : (l.foldl Mc.writeLog m).sram = m.sram := by
  induction l generalizing m with
  | nil => rfl
  | cons e l ih => rw [List.foldl_cons, ih, Mc.writeLog_sram]

theorem execLogFlush_memOk (h : s.memOk = true) : outMemOk (execLogFlush s) = true := by
  simp [execLogFlush, h]

@[simp] theorem State.borrow_memOk (b : Nat) : (s.borrow b).memOk = s.memOk := by
  simp [State.borrow]

theorem execMarchBlockTest_memOk (block : Nat) (passed : Bool) (h : s.memOk = true) :
    outMemOk (execMarchBlockTest block passed s) = true := by
  have ht : ∀ x : Mc → List Nat, (s.modMc fun m => { m.giveBack with excluded := x m }).memOk = true := fun _ =>
    State.modMc_memOk_of h (Mc.giveBack_wf (State.sram_wf h))
  simp only [execMarchBlockTest]
  split
  · exact h
  · split
    · simp [h]
    · split
      · exact h
      · rw [outMemOk_next]
        exact State.ite_memOk (ht _) ((State.raiseDev_memOk _ _).trans (ht _))

theorem execBorrowedBlockAccess_memOk (addr : Nat) (h : s.memOk = true) : outMemOk (execBorrowedBlockAccess addr s) = true := by
  have ht : (s.modMc Mc.giveBack).memOk = true := State.modMc_memOk_of h (Mc.giveBack_wf (State.sram_wf h))
  simp [execBorrowedBlockAccess, ht, h]

/-! ### Sideband messages (R341 to R347) -/

theorem execShelfRecord_memOk (domain shelf : Byte) (slotId : BitVec 4) (h : s.memOk = true) :
    outMemOk (execShelfRecord domain shelf slotId s) = true := by
  simp [execShelfRecord, h]

theorem execSetUtc_memOk (utc : W64) (h : s.memOk = true) : outMemOk (execSetUtc utc s) = true := by
  simp [execSetUtc, h]

theorem execMainOn_memOk (h : s.memOk = true) : outMemOk (execMainOn s) = true := by
  simp [execMainOn, h]

theorem execLcNonce_memOk (nonce : BitVec 256) (h : s.memOk = true) : outMemOk (execLcNonce nonce s) = true := by
  simp [execLcNonce, h]

@[simp] theorem State.blow_memOk (field : Nat) (bits fails : List Nat) : (s.blow field bits fails).memOk = s.memOk := by
  simp [State.blow]

theorem execLcRequest_memOk (req : SignedRequest) (blowFails : List Nat) (h : s.memOk = true) :
    outMemOk (execLcRequest req blowFails s) = true := by
  have ht : ((s.modMc fun m => { m with nonce := none }).wipeSelf 4).memOk = true := State.wipeSelf_memOk _ (by simp [h])
  simp only [execLcRequest]
  split
  · exact h
  · split <;> simp [ht, h]

theorem execKeyRevoke_memOk (req : RevokeRequest) (h : s.memOk = true) : outMemOk (execKeyRevoke req s) = true := by
  have ht : ((s.modMc fun m => { m with nonce := none }).wipeSelf 4).memOk = true := State.wipeSelf_memOk _ (by simp [h])
  simp only [execKeyRevoke]
  split
  · exact h
  · split <;> simp [ht, h]

theorem execSvnCommit_memOk (req : SvnRequest) (h : s.memOk = true) : outMemOk (execSvnCommit req s) = true := by
  simp [execSvnCommit, h]

theorem execProfileWrite_memOk (profile : Byte) (bits : BitVec 128) (h : s.memOk = true) :
    outMemOk (execProfileWrite profile bits s) = true := by
  unfold execProfileWrite
  split
  · exact h
  · split <;> simp [h]

theorem execMctpControl_memOk (ask : MctpAsk) (h : s.memOk = true) : outMemOk (execMctpControl ask s) = true := by
  cases ask <;> simp [execMctpControl, h]

theorem execPldmMonitoring_memOk (ask : PldmAsk) (index : Nat) (h : s.memOk = true) :
    outMemOk (execPldmMonitoring ask index s) = true := by
  unfold execPldmMonitoring
  split <;> simp [h]

/-! ### Firmware updates (R347 to R355) -/

@[simp] theorem State.pldm_memOk (command completion : Nat) : (s.pldm command completion).memOk = s.memOk := by
  simp [State.pldm]

@[simp] theorem State.toPhase_memOk (p : UpdatePhase) : (s.toPhase p).memOk = s.memOk := by
  simp [State.toPhase]

theorem execRequestUpdate_memOk (agent : Nat) (h : s.memOk = true) : outMemOk (execRequestUpdate agent s) = true := by
  simp [execRequestUpdate, h]

theorem execPassComponentTable_memOk (components : List Component) (h : s.memOk = true) :
    outMemOk (execPassComponentTable components s) = true := by
  simp [execPassComponentTable, h]

theorem execUpdateComponent_memOk (component : Component) (h : s.memOk = true) : outMemOk (execUpdateComponent component s) = true := by
  simp [execUpdateComponent, h]

@[simp] theorem State.askImage_memOk (c : Component) : (s.askImage c).memOk = s.memOk := by
  unfold State.askImage
  split <;> simp

@[simp] theorem State.stopDownload_memOk (code : Nat) : (s.stopDownload code).memOk = s.memOk := by
  simp only [State.stopDownload]
  split <;> simp

@[simp] theorem State.logWritten_memOk (c : Component) (fabric : Bool) : (s.logWritten c fabric).memOk = s.memOk := by
  have hm : ∀ m : Mc, (if m.recovering = some c then { m with recovering := none, fabricTried := false, askedSerial := none } else m).sram
      = m.sram := fun m => by split <;> rfl
  simp only [State.logWritten]
  split <;> simp [hm]

@[simp] theorem State.fabricImage_memOk (c : Component) : (s.fabricImage c).memOk = s.memOk := by
  unfold State.fabricImage
  split <;> simp

theorem execFirmwareData_memOk (bytes : List Byte) (h : s.memOk = true) : outMemOk (execFirmwareData bytes s) = true := by
  simp only [execFirmwareData]
  split
  · exact h
  next c _ =>
    split
    · exact h
    · split
      · split
        · simp [h]
        · split <;> simp [h]
      · split
        · simp [h]
        · split
          · split
            · simp [h]
            · rw [outMemOk_next]
              split <;> simp [h]
          · exact h

theorem execTransferComplete_memOk (h : s.memOk = true) : outMemOk (execTransferComplete s) = true := by
  simp [execTransferComplete, h]

theorem execVerifyComplete_memOk (h : s.memOk = true) : outMemOk (execVerifyComplete s) = true := by
  unfold execVerifyComplete
  split
  · exact h
  · split
    · exact h
    · split
      · exact h
      · split <;> simp [h]

theorem execApplyComplete_memOk (h : s.memOk = true) : outMemOk (execApplyComplete s) = true := by
  unfold execApplyComplete
  split <;> simp [h]

@[simp] theorem State.activateOne_memOk (c : Component) : (s.activateOne c).memOk = s.memOk := by
  simp only [State.activateOne]
  split <;> simp

theorem execActivateFirmware_memOk (h : s.memOk = true) : outMemOk (execActivateFirmware s) = true := by
  simp [execActivateFirmware, h]

theorem execFwActivateFailed_memOk (h : s.memOk = true) : outMemOk (execFwActivateFailed s) = true := by
  unfold execFwActivateFailed
  split <;> simp [h]

@[simp] theorem State.recoverComponent_memOk (c : Component) : (s.recoverComponent c).memOk = s.memOk := by
  simp [State.recoverComponent]

theorem execFabricRecoveryTimeout_memOk (h : s.memOk = true) : outMemOk (execFabricRecoveryTimeout s) = true := by
  simp [execFabricRecoveryTimeout, h]

/-! ### Measurements and certificates (R346) -/

theorem State.spdmStep_memOk (need : Nat) {t : State} (h : s.memOk = true) (ht : t.memOk = true) :
    outMemOk (s.spdmStep need t) = true := by
  simp [State.spdmStep, h, ht]

theorem execGetVersion_memOk (h : s.memOk = true) : outMemOk (execGetVersion s) = true := by
  exact State.spdmStep_memOk _ h (by simp [h])

theorem execGetCapabilities_memOk (h : s.memOk = true) : outMemOk (execGetCapabilities s) = true := by
  exact State.spdmStep_memOk _ h (by simp [h])

theorem execNegotiateAlgorithms_memOk (ecdsaP384 sha384 : Bool) (h : s.memOk = true) :
    outMemOk (execNegotiateAlgorithms ecdsaP384 sha384 s) = true := by
  exact State.spdmStep_memOk _ h (by simp [h])

theorem execGetDigests_memOk (h : s.memOk = true) : outMemOk (execGetDigests s) = true := by
  exact State.spdmStep_memOk _ h (by simp [h])

theorem execGetCertificate_memOk (offset len : Nat) (h : s.memOk = true) : outMemOk (execGetCertificate offset len s) = true := by
  exact State.spdmStep_memOk _ h (by simp [h])

theorem execChallenge_memOk (nonce : BitVec 256) (h : s.memOk = true) : outMemOk (execChallenge nonce s) = true := by
  simp only [execChallenge]
  split <;> exact State.spdmStep_memOk _ h (by simp [h])

theorem execGetMeasurements_memOk (index : Byte) (signed : Bool) (nonce : BitVec 256) (h : s.memOk = true) :
    outMemOk (execGetMeasurements index signed nonce s) = true := by
  have hs : ∀ a, outMemOk (s.spdmStep 3 (s.answer a).bump) = true := fun a => State.spdmStep_memOk _ h (by simp [h])
  simp only [execGetMeasurements]
  split
  · exact State.spdmStep_memOk _ h (by simp [h])
  · split
    · split
      · exact hs _
      · exact State.spdmStep_memOk _ h (by simp [h])
    · exact hs _

end Sys2Proof.Machine
end

