-- ==== Sys2Proof/Proofs/MemPower.lean ====
section
/-!
SUPPORT. The canonical form under power, clocks and the start of the module.
-/

namespace Sys2Proof.Machine

variable {s : State}

/-! ### Power (R366 to R369) -/

theorem execStandbyOn_memOk (h : s.memOk = true) : outMemOk (execStandbyOn s) = true := by
  simp [execStandbyOn, h]

theorem execStandbyOff_memOk (h : s.memOk = true) : outMemOk (execStandbyOff s) = true := by
  simp [execStandbyOff, State.allOff_memOk, h]

theorem State.inputBad_memOk (index : Nat) (h : s.memOk = true) : (s.inputBad index).memOk = true := by
  exact State.shutdown_memOk _ _ _ (by simp [h])

theorem execMainUndervoltage_memOk (h : s.memOk = true) : outMemOk (execMainUndervoltage s) = true := by
  simp [execMainUndervoltage, State.inputBad_memOk, h]

theorem execMainOvervoltage_memOk (h : s.memOk = true) : outMemOk (execMainOvervoltage s) = true := by
  simp [execMainOvervoltage, State.inputBad_memOk, h]

theorem execInputClamp_memOk (h : s.memOk = true) : outMemOk (execInputClamp s) = true := by
  simp [execInputClamp, State.inputBad_memOk, h]

theorem execMainStartAllowed_memOk (h : s.memOk = true) : outMemOk (execMainStartAllowed s) = true := by
  simp [execMainStartAllowed, h]

theorem execHotSwapSwitchOn_memOk (h : s.memOk = true) : outMemOk (execHotSwapSwitchOn s) = true := by
  simp [execHotSwapSwitchOn, h]

theorem execModuleExtract_memOk (h : s.memOk = true) : outMemOk (execModuleExtract s) = true := by
  simp [execModuleExtract, State.shutdown_memOk, h]

theorem execBreakerTrip_memOk (current : Nat) (h : s.memOk = true) : outMemOk (execBreakerTrip current s) = true := by
  have ht : ((s.logTrip 22 0 current).mainOff).memOk = true := State.mainOff_memOk (by simp [h])
  simp [execBreakerTrip, ht, h]

/-! ### Clocks (R241, R249, R335) -/

theorem execRefclkPresence_memOk (h : s.memOk = true) : outMemOk (execRefclkPresence s) = true := by
  have ht : ∀ cause tr, ((s.modClk fun c => { c with refPresent := true }).bump.mcStart cause tr).memOk = true := fun _ _ =>
    State.mcStart_memOk _ _ (by simp [h])
  simp [execRefclkPresence, ht, h]

theorem execRefclkQualified_memOk (h : s.memOk = true) : outMemOk (execRefclkQualified s) = true := by
  simp [execRefclkQualified, h]

theorem State.clockLoss_memOk (h : s.memOk = true) : s.clockLoss.memOk = true := by
  unfold State.clockLoss
  split <;> simp [State.abortStep_memOk, h]

theorem State.withHbm_memOk (v : Vector Stack 20) : State.memOk { s with hbm := v } = s.memOk := by rfl

theorem execRefclkLoss_memOk (h : s.memOk = true) : outMemOk (execRefclkLoss s) = true := by
  have h1 : (s.wipeSelf 2).memOk = true := State.wipeSelf_memOk _ h
  have h2 : State.memOk (if (s.wipeSelf 2).pwr.main then (s.wipeSelf 2).clockLoss else s.wipeSelf 2) = true :=
    State.ite_memOk (State.clockLoss_memOk h1) h1
  simp only [execRefclkLoss]
  split
  · simp [h]
  · simp only [outMemOk_next, State.modClk_memOk, State.modPwr_memOk, State.modCad_memOk, State.withHbm_memOk]
    refine (State.modHost_memOk _ fun _ => by rfl).trans ((State.foldl_memOk_eq _ (fun t l => ?_) _).trans h2)
    split <;> simp

@[simp] theorem State.sbLock_memOk : s.sbLock.memOk = s.memOk := by
  simp -implicitDefEqProofs [State.sbLock]

theorem execPllLock_memOk (pll : Pll) (h : s.memOk = true) : outMemOk (execPllLock pll s) = true := by
  simp -implicitDefEqProofs [execPllLock, h]

@[simp] theorem State.startLanes_memOk : s.startLanes.memOk = s.memOk := by
  simp [State.startLanes]

theorem execAclkRampStep_memOk (h : s.memOk = true) : outMemOk (execAclkRampStep s) = true := by
  simp -implicitDefEqProofs [execAclkRampStep, h]

theorem execStackRetrainDone_memOk (h : s.memOk = true) : outMemOk (execStackRetrainDone s) = true := by
  simp -implicitDefEqProofs [execStackRetrainDone, State.withHbm_memOk, h]

/-! ### Start-up (R334, R335) -/

theorem execMcResetRelease_memOk (pins : ResetPins) (h : s.memOk = true) : outMemOk (execMcResetRelease pins s) = true := by
  simp only [execMcResetRelease]
  split
  · exact h
  · split
    · simp [h]
    · exact State.ite_memOk (State.mcStart_memOk _ _ (by simp [h])) (by simp [h])

@[simp] theorem State.chooseAgain_memOk : s.chooseAgain.memOk = s.memOk := by
  simp [State.chooseAgain]

theorem State.blindOff_memOk (h : s.memOk = true) : s.blindOff.memOk = true := by
  unfold State.blindOff
  split <;> simp [State.shutdown_memOk, h]

theorem execStartupRailsUp_memOk (h : s.memOk = true) : outMemOk (execStartupRailsUp s) = true := by
  simp [execStartupRailsUp, State.blindOff_memOk, h]

@[simp] theorem State.loadImage_memOk (c : Component) (f : FwImage) : (s.loadImage c f).memOk = s.memOk := by
  simp [State.loadImage]

theorem State.clearReturned_memOk (h : s.memOk = true) : s.clearReturned.memOk = true := by
  obtain ⟨-, hm, hh, hr, hc, hi⟩ := State.memOk_iff.1 h
  unfold State.clearReturned
  exact State.ite_memOk (State.memOk_iff.2 ⟨Memory.wf_nil _, hm, hh, hr, hc, hi⟩) h

theorem execStartupTrainingDone_memOk (absent : List StackId) (h : s.memOk = true) :
    outMemOk (execStartupTrainingDone absent s) = true := by
  simp only [execStartupTrainingDone]
  split
  · exact h
  · split
    · simp [h]
    · simp [h]
    · rw [outMemOk_next, State.modHost_memOk _ fun _ => by rfl, State.modPwr_memOk]
      refine State.clearReturned_memOk ((State.withHbm_memOk _).trans ?_)
      simp [h]

theorem execBinderBootDone_memOk (h : s.memOk = true) : outMemOk (execBinderBootDone s) = true := by
  unfold execBinderBootDone
  split
  · exact h
  · split <;> simp [h]

theorem State.retest_memOk {f : SiteId → Site} (h : s.memOk = true) (hf : ∀ i, (f i).memOk = true) (p : Power → Power) :
    ((State.showRoles { s with sites := Vector.ofFn f }).modPwr p).memOk = true := by
  rw [State.modPwr_memOk, State.showRoles_memOk]
  refine State.withSites_memOk h fun i => ?_
  rw [Fin.getElem_fin, Vector.getElem_ofFn]
  exact hf i

theorem execStartupBistDone_memOk (failed : List SiteId) (h : s.memOk = true) : outMemOk (execStartupBistDone failed s) = true := by
  simp only [execStartupBistDone]
  split
  · exact h
  · have hf : ∀ i : SiteId, (if failed.contains i then { s.sites[i] with role := .retired, cause := 7, testOk := false, testedAt := s.now }
        else { s.sites[i] with testOk := true, testedAt := s.now, deepSleep := s.sites[i].role == SiteRole.guard }).memOk = true := fun i => by
      split <;> exact State.site_memOk h i
    exact State.ite_memOk ((State.modPwr_memOk _).trans (State.retest_memOk h hf _)) (State.retest_memOk h hf _)

end Sys2Proof.Machine
end

