-- ==== Sys2Proof/Proofs/StepKeepsMemories.lean ====
section
/-!
SUPPORT. Every command keeps every memory in canonical form, and so does every step.
-/

namespace Sys2Proof.Machine

/-- Whatever a command does, the memories of the state it answers are in canonical form. -/
theorem exec_memOk (i : Instr) {s : State} (h : s.memOk = true) : outMemOk (exec i s) = true := by
  cases i with
  | dmaWrite x src => exact execDmaWrite_memOk x src h
  | dmaRead x errorAt => exact execDmaRead_memOk x errorAt h
  | inputCmd x src => exact execInputCmd_memOk x src h
  | load x => exact execLoad_memOk x h
  | activate x => exact execActivate_memOk x h
  | unload x => exact execUnload_memOk x h
  | cancel x => exact execCancel_memOk x h
  | elasticStart x => exact execElasticStart_memOk x h
  | recipeUpdate x => exact execRecipeUpdate_memOk x h
  | streamResume x => exact execStreamResume_memOk x h
  | kernelResume x => exact execKernelResume_memOk x h
  | fromMirrorResume x reply => exact execFromMirrorResume_memOk x reply h
  | pagedMap x => exact execPagedMap_memOk x h
  | waitStep x => exact execWaitStep_memOk x h
  | queueLimits x => exact execQueueLimits_memOk x h
  | setAperture x => exact execSetAperture_memOk x h
  | setRotation x => exact execSetRotation_memOk x h
  | setLayout x => exact execSetLayout_memOk x h
  | setProfileWrite x => exact execSetProfileWrite_memOk x h
  | setProfileSelect x => exact execSetProfileSelect_memOk x h
  | linkDisable x => exact execLinkDisable_memOk x h
  | linkBringUp x => exact execLinkBringUp_memOk x h
  | survey x => exact execSurvey_memOk x h
  | diagRead x errorAt => exact execDiagRead_memOk x errorAt h
  | diagReadKettleTable x errorAt => exact execDiagReadKettleTable_memOk x errorAt h
  | maintain x => exact execMaintain_memOk x h
  | mirrorStore x => exact execMirrorStore_memOk x h
  | mirrorBind x reply => exact execMirrorBind_memOk x reply h
  | mirrorUnbind x => exact execMirrorUnbind_memOk x h
  | seed x reply => exact execSeed_memOk x reply h
  | commandTake mailbox => exact execCommandTake_memOk mailbox h
  | mbTailWrite mailbox tail => exact execMbTailWrite_memOk mailbox tail h
  | ringHeadWrite ring head => exact execRingHeadWrite_memOk ring head h
  | ringEnable ring => exact execRingEnable_memOk ring h
  | takeover port value => exact execTakeover_memOk port value h
  | periphEnableWrite target value busy => exact execPeriphEnableWrite_memOk target value busy h
  | gateForced gate initiator => exact execGateForced_memOk gate initiator h
  | cadenceLoRead => exact execCadenceLoRead_memOk h
  | registerWrite offset bytes same => exact execRegisterWrite_memOk offset bytes same h
  | bar2Read offset len => exact execBar2Read_memOk offset len h
  | bar2Write offset bytes => exact execBar2Write_memOk offset bytes h
  | hostReset port kind => exact execHostReset_memOk port kind h
  | completionPost ring => exact execCompletionPost_memOk ring h
  | eventPost => exact execEventPost_memOk h
  | msixDelayExpiry ring => exact execMsixDelayExpiry_memOk ring h
  | needleNop core => exact execNeedleNop_memOk core h
  | stepEnd core => exact execStepEnd_memOk core h
  | sectionEnd core => exact execSectionEnd_memOk core h
  | run core => exact execRun_memOk core h
  | stream core => exact execStream_memOk core h
  | kettleSignal core => exact execKettleSignal_memOk core h
  | kettleSignalApply core completion => exact execKettleSignalApply_memOk core completion h
  | kettleWait core => exact execKettleWait_memOk core h
  | cadence core => exact execCadence_memOk core h
  | stepRelease => exact execStepRelease_memOk h
  | fabricSend core => exact execFabricSend_memOk core h
  | fabricRecv core => exact execFabricRecv_memOk core h
  | fabricSlotOpen slot => exact execFabricSlotOpen_memOk slot h
  | snapshot core => exact execSnapshot_memOk core h
  | dtLoad core => exact execDtLoad_memOk core h
  | dtPass core => exact execDtPass_memOk core h
  | dtPlough core => exact execDtPlough_memOk core h
  | dtMove core => exact execDtMove_memOk core h
  | passExchange core => exact execPassExchange_memOk core h
  | shadowLoadComplete core => exact execShadowLoadComplete_memOk core h
  | passRowIssue core cycle => exact execPassRowIssue_memOk core cycle h
  | beatWrite core residueFault => exact execBeatWrite_memOk core residueFault h
  | awlReadIssue core stream => exact execAwlReadIssue_memOk core stream h
  | readReturn core tag uncorrectable => exact execReadReturn_memOk core tag uncorrectable h
  | entryDelivery core stream => exact execEntryDelivery_memOk core stream h
  | mullBlockRelease core stream => exact execMullBlockRelease_memOk core stream h
  | writeAck core stream => exact execWriteAck_memOk core stream h
  | multicastArm core stream => exact execMulticastArm_memOk core stream h
  | translationWalkDone core stream => exact execTranslationWalkDone_memOk core stream h
  | pageNotPresent core stream => exact execPageNotPresent_memOk core stream h
  | pageInComplete core stream page => exact execPageInComplete_memOk core stream page h
  | tippingTransfer source op => exact execTippingTransfer_memOk source op h
  | tagExpiry core tag => exact execTagExpiry_memOk core tag h
  | cancelDrainDone => exact execCancelDrainDone_memOk h
  | ploughNop core => exact show outMemOk (execPloughNop core s) = true from ploughRegs_memOk core _ _ h
  | ploughEnd core => exact execPloughEnd_memOk core h
  | ploughLoop core => exact execPloughLoop_memOk core h
  | ploughEndLoop core => exact execPloughEndLoop_memOk core h
  | brf core => exact execBrf_memOk core h
  | sli core => exact show outMemOk (execSli core s) = true from ploughRegs_memOk core _ _ h
  | sadd core => exact show outMemOk (execSadd core s) = true from ploughRegs_memOk core _ _ h
  | sshl core => exact show outMemOk (execSshl core s) = true from ploughRegs_memOk core _ _ h
  | pset core => exact show outMemOk (execPset core s) = true from ploughRegs_memOk core _ _ h
  | padd core => exact show outMemOk (execPadd core s) = true from ploughRegs_memOk core _ _ h
  | vld core => exact execVld_memOk core h
  | vst core cycle => exact execVst_memOk core cycle h
  | sld core => exact execSld_memOk core h
  | sst core cycle => exact execSst_memOk core cycle h
  | vadd core => exact show outMemOk (execVadd core s) = true from ploughRegs_memOk core _ _ h
  | vsub core => exact show outMemOk (execVsub core s) = true from ploughRegs_memOk core _ _ h
  | vmul core => exact show outMemOk (execVmul core s) = true from ploughRegs_memOk core _ _ h
  | vfma core => exact show outMemOk (execVfma core s) = true from ploughRegs_memOk core _ _ h
  | vmin core => exact show outMemOk (execVmin core s) = true from ploughRegs_memOk core _ _ h
  | vmax core => exact show outMemOk (execVmax core s) = true from ploughRegs_memOk core _ _ h
  | vabs core => exact show outMemOk (execVabs core s) = true from ploughRegs_memOk core _ _ h
  | vneg core => exact show outMemOk (execVneg core s) = true from ploughRegs_memOk core _ _ h
  | vdiv core => exact show outMemOk (execVdiv core s) = true from ploughRegs_memOk core _ _ h
  | vsqrt core => exact show outMemOk (execVsqrt core s) = true from ploughRegs_memOk core _ _ h
  | vcmp core => exact show outMemOk (execVcmp core s) = true from ploughRegs_memOk core _ _ h
  | vsel core => exact show outMemOk (execVsel core s) = true from ploughRegs_memOk core _ _ h
  | vbcast core => exact show outMemOk (execVbcast core s) = true from ploughRegs_memOk core _ _ h
  | vrsum core => exact show outMemOk (execVrsum core s) = true from ploughRegs_memOk core _ _ h
  | vrmax core => exact show outMemOk (execVrmax core s) = true from ploughRegs_memOk core _ _ h
  | vramax core => exact show outMemOk (execVramax core s) = true from ploughRegs_memOk core _ _ h
  | vexp2 core => exact show outMemOk (execVexp2 core s) = true from ploughRegs_memOk core _ _ h
  | vlog2 core => exact show outMemOk (execVlog2 core s) = true from ploughRegs_memOk core _ _ h
  | vexp core => exact show outMemOk (execVexp core s) = true from ploughRegs_memOk core _ _ h
  | vlog core => exact show outMemOk (execVlog core s) = true from ploughRegs_memOk core _ _ h
  | vlse core => exact show outMemOk (execVlse core s) = true from ploughRegs_memOk core _ _ h
  | vrlse core => exact show outMemOk (execVrlse core s) = true from ploughRegs_memOk core _ _ h
  | qfolio core cycle => exact execQfolio_memOk core cycle h
  | qwire core cycle => exact execQwire_memOk core cycle h
  | qcvt core cycle => exact execQcvt_memOk core cycle h
  | unpack core => exact execUnpack_memOk core h
  | testf core => exact execTestf_memOk core h
  | mreenc core => exact execMreenc_memOk core h
  | vrand core => exact execVrand_memOk core h
  | scrubAccess site mem addr found => exact execScrubAccess_memOk site mem addr found h
  | stepBoundary => exact execStepBoundary_memOk h
  | coreWake => exact execCoreWake_memOk h
  | guardTestStart site => exact execGuardTestStart_memOk site h
  | guardTestDone site failPhase => exact execGuardTestDone_memOk site failPhase h
  | surveyComplete m => exact execSurveyComplete_memOk m h
  | stackLost stack cause => exact execStackLost_memOk stack cause h
  | recoveryReplayDone => exact execRecoveryReplayDone_memOk h
  | softRepair stack => exact execSoftRepair_memOk stack h
  | frameMark => exact execFrameMark_memOk h
  | markMissing => exact execMarkMissing_memOk h
  | effectiveMark => exact execEffectiveMark_memOk h
  | cadenceSync lane flit t4 => exact execCadenceSync_memOk lane flit t4 h
  | boundaryVote vote => exact execBoundaryVote_memOk vote h
  | holdDeadline => exact execHoldDeadline_memOk h
  | holdMsg => exact execHoldMsg_memOk h
  | resumeMsg frame => exact execResumeMsg_memOk frame h
  | holdTimeout => exact execHoldTimeout_memOk h
  | autoNegotiation lane ok => exact (phaseDone_memOk _ _ _ _).trans h
  | linkTraining lane ok => exact (phaseDone_memOk _ _ _ _).trans h
  | pcsBlockLock lane ok => exact execPcsBlockLock_memOk lane ok h
  | linkRetry lane => exact execLinkRetry_memOk lane h
  | partner lane flit => exact execPartner_memOk lane flit h
  | timingExchangeDone lane ok => exact execTimingExchangeDone_memOk lane ok h
  | linkDown lane cause => exact execLinkDown_memOk lane cause h
  | schedTransfer lane transfer => exact execSchedTransfer_memOk lane transfer h
  | forward lane header data => exact execForward_memOk lane header data h
  | dynTransfer lane transfer => exact execDynTransfer_memOk lane transfer h
  | ackMsg sequence => exact execAckMsg_memOk sequence h
  | refuseMsg sequence reason => exact execRefuseMsg_memOk sequence reason h
  | resendTimeout sequence => exact execResendTimeout_memOk sequence h
  | creditWaitTimeout transfer => exact execCreditWaitTimeout_memOk transfer h
  | escapeTimeout transfer => exact execEscapeTimeout_memOk transfer h
  | advertisement lane adv => exact execAdvertisement_memOk lane adv h
  | advertisementPeriod => exact execAdvertisementPeriod_memOk h
  | advertisementExpiry node => exact execAdvertisementExpiry_memOk node h
  | routingRebuildDone => exact execRoutingRebuildDone_memOk h
  | continuousRecord protectedNode step sequence pages => exact execContinuousRecord_memOk protectedNode step sequence pages h
  | checkpointComplete set => exact execCheckpointComplete_memOk set h
  | memberLeave rank => exact execMemberLeave_memOk rank h
  | memberIsolation rank => exact execMemberIsolation_memOk rank h
  | coverBegin => exact execCoverBegin_memOk h
  | coverEnd rank => exact execCoverEnd_memOk rank h
  | peerWaitExpiry => exact execPeerWaitExpiry_memOk h
  | binderWatchdog => exact execBinderWatchdog_memOk h
  | binderRestarted => exact execBinderRestarted_memOk h
  | mcWatchdog => exact execMcWatchdog_memOk h
  | mcRestart => exact execMcRestart_memOk h
  | sensorRead group index reading => exact execSensorRead_memOk group index reading h
  | sensorPageRefresh => exact execSensorPageRefresh_memOk h
  | thresholdTrip group index reading => exact execThresholdTrip_memOk group index reading h
  | railShutdown trip => exact execRailShutdown_memOk trip h
  | tamperTrigger cause verifyRetries => exact execTamperTrigger_memOk cause verifyRetries h
  | logFlush => exact execLogFlush_memOk h
  | marchBlockTest block passed => exact execMarchBlockTest_memOk block passed h
  | borrowedBlockAccess addr => exact execBorrowedBlockAccess_memOk addr h
  | shelfRecord domain shelf slotId => exact execShelfRecord_memOk domain shelf slotId h
  | setUtc utc => exact execSetUtc_memOk utc h
  | mainOn => exact execMainOn_memOk h
  | lcNonce nonce => exact execLcNonce_memOk nonce h
  | lcRequest req blowFails => exact execLcRequest_memOk req blowFails h
  | keyRevoke req => exact execKeyRevoke_memOk req h
  | svnCommit req => exact execSvnCommit_memOk req h
  | profileWrite profile bits => exact execProfileWrite_memOk profile bits h
  | mctpControl ask => exact execMctpControl_memOk ask h
  | pldmMonitoring ask index => exact execPldmMonitoring_memOk ask index h
  | requestUpdate agent => exact execRequestUpdate_memOk agent h
  | passComponentTable components => exact execPassComponentTable_memOk components h
  | updateComponent component => exact execUpdateComponent_memOk component h
  | firmwareData bytes => exact execFirmwareData_memOk bytes h
  | transferComplete => exact execTransferComplete_memOk h
  | verifyComplete => exact execVerifyComplete_memOk h
  | applyComplete => exact execApplyComplete_memOk h
  | activateFirmware => exact execActivateFirmware_memOk h
  | fwActivateFailed => exact execFwActivateFailed_memOk h
  | fabricRecoveryTimeout => exact execFabricRecoveryTimeout_memOk h
  | getVersion => exact execGetVersion_memOk h
  | getCapabilities => exact execGetCapabilities_memOk h
  | negotiateAlgorithms ecdsaP384 sha384 => exact execNegotiateAlgorithms_memOk ecdsaP384 sha384 h
  | getDigests => exact execGetDigests_memOk h
  | getCertificate offset len => exact execGetCertificate_memOk offset len h
  | challenge nonce => exact execChallenge_memOk nonce h
  | getMeasurements index signed nonce => exact execGetMeasurements_memOk index signed nonce h
  | refclkPresence => exact execRefclkPresence_memOk h
  | refclkQualified => exact execRefclkQualified_memOk h
  | refclkLoss => exact execRefclkLoss_memOk h
  | pllLock pll => exact execPllLock_memOk pll h
  | aclkRampStep => exact execAclkRampStep_memOk h
  | standbyOn => exact execStandbyOn_memOk h
  | standbyOff => exact execStandbyOff_memOk h
  | mainUndervoltage => exact execMainUndervoltage_memOk h
  | mainOvervoltage => exact execMainOvervoltage_memOk h
  | inputClamp => exact execInputClamp_memOk h
  | phaseShed rail phase => exact execPhaseShed_memOk rail phase h
  | mcResetRelease pins => exact execMcResetRelease_memOk pins h
  | startupRailsUp => exact execStartupRailsUp_memOk h
  | startupTrainingDone absent => exact execStartupTrainingDone_memOk absent h
  | binderBootDone => exact execBinderBootDone_memOk h
  | startupBistDone failed => exact execStartupBistDone_memOk failed h
  | hotSwapSwitchOn => exact execHotSwapSwitchOn_memOk h
  | moduleExtract => exact execModuleExtract_memOk h
  | breakerTrip current => exact execBreakerTrip_memOk current h
  | hostInterfaceUsable => exact execHostInterfaceUsable_memOk h
  | hashedNodeId => exact execHashedNodeId_memOk h
  | mainStartAllowed => exact execMainStartAllowed_memOk h
  | stackRetrainDone => exact execStackRetrainDone_memOk h
  | dramPatrolScrub stack bank row found => exact execDramPatrolScrub_memOk stack bank row found h
  | pcieLinkDown port => exact execPcieLinkDown_memOk port h
  | pcieLinkUp port width generation => exact execPcieLinkUp_memOk port width generation h

/-- The queue is no memory. -/
theorem State.withPending_memOk (s : State) (q : List Instr) : State.memOk { s with pending := q } = s.memOk := by rfl

theorem step_memOk {s : State} (h : s.memOk = true) : outMemOk (step s) = true := by
  unfold step
  split
  · exact State.referenceTick_memOk h
  · exact exec_memOk _ ((State.withPending_memOk _ _).trans h)

end Sys2Proof.Machine

open Sys2Proof Sys2Proof.Machine

/-- Settles O3: each command keeps the form (`exec_memOk`), and so does the tick of an empty queue. -/
theorem stepKeepsMemories : Obligations.StepKeepsMemories := by
  unfold Obligations.StepKeepsMemories
  intro s t h ht
  have hs := step_memOk h
  rwa [ht] at hs
end

