-- ==== Sys2Proof/Proofs/StepRunsFront.lean ====
section
/-!
SUPPORT. What a reference tick does to time, to the gates and to the counter.
-/

namespace Sys2Proof.Machine

variable {s : State}

/-- The state once a tick has gone by, before the counter counts it: the clock, UTC and the gates (R249, R341, R370). -/
def State.ticked (s : State) : State :=
  { s with now := s.now + 1, mc := { s.mc with utc := if s.mc.utcValid then s.mc.utc + 10 else s.mc.utc },
           host := s.host.closeGates s.gateTicks (s.now + 1) }

/-- What ends a tick after the counter has counted it. -/
def State.endTick (s : State) : State := s.takeUpsets.takeSramErrors.serveLanes.endReturn

/-- A tick is time passing, then the count, then what comes at this time. -/
theorem State.referenceTick_eq (s : State) : s.referenceTick = s.ticked.countTick.endTick := by
  have hu : (if s.mc.utcValid then { s.mc with utc := s.mc.utc + 10 } else s.mc)
      = { s.mc with utc := if s.mc.utcValid then s.mc.utc + 10 else s.mc.utc } := by split <;> rfl
  have ht : ({ s with now := s.now + 1, mc := if s.mc.utcValid then { s.mc with utc := s.mc.utc + 10 } else s.mc,
                      host := s.host.closeGates s.gateTicks (s.now + 1) } : State) = s.ticked := by rw [hu]; rfl
  rw [← ht]
  cases hv : s.mc.utcValid <;> simp [State.referenceTick, State.endTick, State.modMc, State.modHost, State.gateTicks, hv]

theorem step_of_pending_nil (hp : s.pending = []) : step s = .next s.ticked.countTick.endTick := by
  simp [step, hp, State.referenceTick_eq]

/-! ### The count (R250) -/

theorem State.countTick_of_still (h : s.marksCount = false ∨ (s.cad.valid = false ∧ s.cad.markPending = false)) :
    s.countTick = s := by
  rcases h with h | ⟨hv, hp⟩
  · simp [State.countTick, h]
  · simp [State.countTick, hv, hp]

theorem State.countTick_of_pending (hm : s.marksCount = true) (hv : s.cad.valid = false) (hp : s.cad.markPending = true) :
    s.countTick = { s with cad := { s.cad with rxTick := s.cad.rxTick + 1 } } := by
  simp [State.countTick, State.modCad, hm, hv, hp]

theorem State.countTick_of_valid (hm : s.marksCount = true) (hv : s.cad.valid = true) (hr : s.cad.rxTick.toNat < 16000000) :
    s.countTick = { s with cad := { s.cad with rxTick := s.cad.rxTick + 1, tick := s.cad.tick + 1 } } := by
  simp [State.countTick, State.modCad, hm, hv, Nat.not_le.2 hr]

/-- At 16,000,000 ticks without a mark the frame ends first as MARK_MISSING ends it (R252). -/
theorem State.countTick_of_missing {u : State} (hm : s.marksCount = true) (hv : s.cad.valid = true)
    (hr : 16000000 ≤ s.cad.rxTick.toNat) (hu : exec .markMissing s = .next u) :
    s.countTick = { u with cad := { u.cad with rxTick := u.cad.rxTick + 1, tick := if u.cad.valid then u.cad.tick + 1 else u.cad.tick } } := by
  obtain rfl : s.missingMark = u := by
    have he : execMarkMissing s = .next s.missingMark := by simp [execMarkMissing, act, hm, hv, hr]
    exact Host.Outcome.next.inj (he.symm.trans hu)
  simp [State.countTick, State.modCad, hm, hv, hr]

/-! ### The gates (R370) -/

theorem HostIf.gate_closeGates (h : HostIf) (ticks now : Nat) (g : Gate) :
    (h.closeGates ticks now).gate g = bif (h.gate g).overdue ticks (now - 1) then .closed else h.gate g := by
  have hfind : ((fun p : Gate × GateState => decide (p.1 = g))
      ∘ fun p : Gate × GateState => if p.2.overdue ticks (now - 1) then (p.1, .closed) else p) = fun p : Gate × GateState => decide (p.1 = g) := by
    funext p
    dsimp only [Function.comp_apply]
    split <;> rfl
  simp only [HostIf.gate, HostIf.closeGates, List.find?_map, hfind]
  cases h.gates.find? fun p => decide (p.1 = g) with
  | none => rfl
  | some p => cases ho : p.2.overdue ticks (now - 1) <;> simp [ho]

end Sys2Proof.Machine

open Sys2Proof Sys2Proof.Machine

/-- Settles O1: a tick is `referenceTick_eq`, its count has one lemma per case, and no word spells a command. -/
theorem stepRunsFront : Obligations.StepRunsFront := by
  refine ⟨fun _ _ _ => rfl, fun _ _ _ => rfl, fun s hp => ?_⟩
  intro t rest
  have hs : step s = rest s.ticked.countTick := step_of_pending_nil hp
  refine ⟨fun h => ?_, fun hm hv hq => ?_, fun hm hv hr => ?_, fun u hm hv hr hu => ?_, fun g => ?_⟩
  · exact hs.trans (congrArg rest (State.countTick_of_still (s := s.ticked) h))
  · exact hs.trans (congrArg rest (State.countTick_of_pending (s := s.ticked) hm hv hq))
  · exact hs.trans (congrArg rest (State.countTick_of_valid (s := s.ticked) hm hv hr))
  · exact hs.trans (congrArg rest (State.countTick_of_missing (s := s.ticked) hm hv hr hu))
  · refine (HostIf.gate_closeGates s.host s.gateTicks (s.now + 1) g).trans ?_
    cases s.host.gate g <;> simp [GateState.overdue]
end

