-- ==== Sys2Proof/Proofs/MailboxTake.lean ====
section
/-!
SUPPORT. What the taking of a mailbox slot does, one lemma per outcome.
-/

namespace Sys2Proof.Machine

variable {s : State} {mb : Fin 8} {i : Nat}

/-- The slot at the head of a mailbox and its SEQUENCE (R313, R314). -/
def Mailbox.headSlot (m : Mailbox) : Nat := leNat (Mem.read zeroByte m.sram (256 * (m.head.toNat % 32)) 256)

def Mailbox.headSeq (m : Mailbox) : W32 := BitVec.ofNat 32 (fld m.headSlot 64 32)

/-- The mailbox once the slot at its head has its handle written (R314). -/
def Mailbox.take (m : Mailbox) (x : Handle) : Mailbox :=
  { m with sram := Mem.write zeroByte m.sram (256 * (m.head.toNat % 32) + 12) (leBytes 4 x.toNat), head := m.head + 1, prevSeq := some m.headSeq }

/-- The state once a new command of the slot holds its handle and stands in the trace (R312, R316). -/
def State.issued (s : State) (mb : Fin 8) (i : Nat) : State :=
  let m := s.host.mailbox mb
  let x := (s.host.issue i mb m.headSlot).2
  let h := (s.host.issue i mb m.headSlot).1.setMailbox mb { m.take x with recent := ((m.headSeq, x) :: m.recent).take 32 }
  { s with host := { h with trace := ({ handle := x, opcode := BitVec.ofNat 8 (fld m.headSlot 0 8), mailbox := mb, seq := m.headSeq,
                                        takenCadence := s.stamp, doneCadence := 0, status := 0 } :: h.trace).take 2048 } }

/-- Without a free handle or without a slot nothing is taken. -/
theorem execCommandTake_of_idle (h : s.host.freeIndex = none ∨ (s.host.mailbox mb).head = (s.host.mailbox mb).tail) :
    execCommandTake mb s = .next s := by
  simp only [execCommandTake]
  split
  · rfl
  next hi => rw [if_pos (.inr (.inr (h.resolve_left (by simp [hi]))))]

section
variable (hm : s.pwr.main = true) (hb : s.binderRuns = true) (hi : s.host.freeIndex = some i)
  (hne : (s.host.mailbox mb).head ≠ (s.host.mailbox mb).tail)

include hm hb hi hne

/-- A slot waits and a handle is free: a duplicate, or a new command that its SEQUENCE or a field of its slot may fail. -/
theorem execCommandTake_of_waiting :
    let m := s.host.mailbox mb
    let x := (s.host.issue i mb m.headSlot).2
    let t := s.issued mb i
    execCommandTake mb s = match m.recent.find? fun p => p.1 = m.headSeq with
      | some (_, y) => .next (s.modHost (·.setMailbox mb (m.take y)))
      | none => match m.prevSeq with
        | some p => if m.headSeq ≠ p + 1 then .next (t.complete x 0x0006 (p + 1).toNat 0)
                    else match slotError m.headSlot with
                      | some o => .next (t.complete x 0x0001 o 0)
                      | none => .next t
        | none => match slotError m.headSlot with
          | some o => .next (t.complete x 0x0001 o 0)
          | none => .next t := by
  simp only [execCommandTake, hi]
  rw [if_neg (by simp [hm, hb, hne])]
  rfl

/-- A SEQUENCE taken before gets the handle first given. -/
theorem execCommandTake_of_duplicate {p : W32 × Handle}
    (hp : (s.host.mailbox mb).recent.find? (fun p => p.1 = (s.host.mailbox mb).headSeq) = some p) :
    execCommandTake mb s = .next (s.modHost (·.setMailbox mb ((s.host.mailbox mb).take p.2))) := by
  rw [execCommandTake_of_waiting hm hb hi hne, hp]

/-- A new command: BAD_SEQUENCE, BAD_FIELD, or it runs. -/
theorem execCommandTake_of_new
    (hp : (s.host.mailbox mb).recent.find? (fun p => p.1 = (s.host.mailbox mb).headSeq) = none) :
    let m := s.host.mailbox mb
    let x := (s.host.issue i mb m.headSlot).2
    let t := s.issued mb i
    execCommandTake mb s = .next (
      if m.prevSeq.elim false (fun p => m.headSeq ≠ p + 1) then t.complete x 0x0006 ((m.prevSeq.getD 0) + 1).toNat 0
      else match slotError m.headSlot with
        | some o => t.complete x 0x0001 o 0
        | none => t) := by
  intro m x t
  rw [execCommandTake_of_waiting hm hb hi hne, hp]
  cases hq : (s.host.mailbox mb).prevSeq with
  | none => simp only [m, hq]; cases slotError (s.host.mailbox mb).headSlot <;> rfl
  | some p =>
    simp only [m, hq, Option.elim_some, Option.getD_some, decide_eq_true_eq]
    split
    · rfl
    · cases slotError (s.host.mailbox mb).headSlot <;> rfl

end

end Sys2Proof.Machine

open Sys2Proof Sys2Proof.Machine

/-- Settles O41: idle, duplicate and new slot have one lemma each. -/
theorem mailboxTake : Obligations.MailboxTake := by
  intro mb i s hm hb m
  refine ⟨execCommandTake_of_idle, fun hi hne => ⟨fun p hp => ?_, fun hnew => ?_⟩⟩
  · exact execCommandTake_of_duplicate hm hb hi hne hp
  · exact execCommandTake_of_new hm hb hi hne (List.find?_eq_none.2 fun p hp => decide_eq_false (hnew p hp) ▸ Bool.false_ne_true)
end

