-- ==== Sys2Proof/Proofs/Bar0Reads.lean ====
section
/-!
SUPPORT. What a read of BAR0 returns: the status header, the cadence counter and what is reserved.
-/

namespace Sys2Proof.Machine

variable {s : State}

/-! ### Bytes of a number and of a list -/

theorem leNat_leBytes_mod (n x : Nat) : leNat (leBytes n x) = x % 256 ^ n := by
  induction n generalizing x with
  | zero => simp [leBytes, leNat, Nat.mod_one]
  | succ n ih =>
    rw [leBytes, leNat, ih, BitVec.toNat_ofNat, show 256 ^ (n + 1) = 256 * 256 ^ n from Nat.pow_succ', Nat.mod_mul]

theorem leBytes_length (n x : Nat) : (leBytes n x).length = n := by
  induction n generalizing x with
  | zero => rfl
  | succ n ih => simp [leBytes, ih]

theorem leBytes_getElem? {n k : Nat} (x : Nat) (hk : k < n) : (leBytes n x)[k]? = some (BitVec.ofNat 8 (x / 256 ^ k)) := by
  induction n generalizing x k with
  | zero => omega
  | succ n ih =>
    cases k with
    | zero => simp [leBytes]
    | succ k => rw [leBytes, List.getElem?_cons_succ, ih _ (by omega), Nat.div_div_eq_div_mul, Nat.pow_succ']

theorem byteAt_leBytes {n k : Nat} (x : Nat) (hk : k < n) : byteAt (leBytes n x) k = BitVec.ofNat 8 (x / 256 ^ k) := by
  rw [byteAt, leBytes_getElem? x hk, Option.getD_some]

theorem byteAt_append_left {l r : List Byte} {k : Nat} (hk : k < l.length) : byteAt (l ++ r) k = byteAt l k := by
  rw [byteAt, byteAt, List.getElem?_append_left hk]

theorem byteAt_append_right {l r : List Byte} {k : Nat} (hk : l.length ≤ k) : byteAt (l ++ r) k = byteAt r (k - l.length) := by
  rw [byteAt, byteAt, List.getElem?_append_right hk]

/-- The bytes of a list read one by one are the list. -/
theorem map_byteAt_range (l : List Byte) : (List.range l.length).map (byteAt l) = l := by
  refine List.ext_getElem (by simp) fun i hi hl => ?_
  simp [byteAt, List.getElem?_eq_getElem hl]

/-! ### The status block (R251, R311) -/

theorem State.bar0Byte_status (s : State) {k : Nat} (hk : k < 0x1_0000) : s.bar0Byte (0x2_0000 + k) = s.statusByte k := by
  have hd : (0x2_0000 + k) / 0x1_0000 = 2 := by omega
  have hm : (0x2_0000 + k) % 0x1_0000 = k := by omega
  simp only [State.bar0Byte, hd, hm]

theorem State.bar0Byte_beyond (s : State) {a : Nat} (ha : 0x8_0000 ≤ a) : s.bar0Byte a = 0 := by
  obtain ⟨j, hj⟩ : ∃ j, a / 0x1_0000 = j + 8 := ⟨a / 0x1_0000 - 8, by omega⟩
  simp only [State.bar0Byte, hj]

theorem State.bar0Byte_reserved (s : State) {a : Nat} (ha : 0x2_0110 ≤ a ∧ a < 0x2_0800) : s.bar0Byte a = 0 := by
  obtain ⟨k, rfl⟩ := Nat.exists_eq_add_of_le (show 0x2_0000 ≤ a by omega)
  rw [State.bar0Byte_status s (by omega), State.statusByte, if_neg (by omega), if_neg (by omega), if_neg (by omega), if_neg (by omega)]

theorem State.headerBytes_length (s : State) : s.headerBytes.length = 32 := leBytes_length _ _

/-- The 32 bytes of the header, as a number. -/
theorem State.leNat_header (s : State) : leNat ((List.range 32).map fun i => s.bar0Byte (0x2_0000 + i))
    = (0xB1 + flag s.host.binderUp 18 + flag s.host.portBActive 21 + 2 ^ 128 * s.mc.serial
        + if s.host.binderUp then s.binderFields else s.host.header.toNat) % 2 ^ 256 := by
  have hmap : ((List.range 32).map fun i => s.bar0Byte (0x2_0000 + i)) = s.headerBytes := by
    refine Eq.trans (List.map_congr_left fun i hi => ?_) ((congrArg (List.map (byteAt s.headerBytes))
      (congrArg List.range s.headerBytes_length)).symm.trans (map_byteAt_range s.headerBytes))
    have hi := List.mem_range.1 hi
    rw [State.bar0Byte_status s (by omega), State.statusByte, if_pos hi]
  rw [hmap, State.headerBytes, leNat_leBytes_mod]
  rfl

theorem flag_eq_mul (b : Bool) (k : Nat) : flag b k = 2 ^ k * b.toNat := by cases b <;> simp [flag]

theorem State.deviceState_lt (s : State) : s.deviceState < 4 := by
  unfold State.deviceState
  split
  · omega
  · split
    · omega
    · split <;> omega

theorem HostIf.handlesFree_lt (h : HostIf) : h.handlesFree < 2 ^ 32 := by unfold HostIf.handlesFree; omega

theorem Mc.serial_lt (m : Mc) : m.serial < 2 ^ 64 := Nat.mod_lt _ (Nat.two_pow_pos 64)

/-- While the Binder is up the header's fields stand each at its place. -/
theorem State.header_fields (hb : s.host.binderUp = true) :
    let low := leNat ((List.range 32).map fun i => s.bar0Byte (0x2_0000 + i))
    fld low 0 8 = 0xB1 ∧ fld low 8 8 = s.host.ifLevel.toNat ∧ fld low 19 1 = (if s.prog.active.isSome then 1 else 0)
      ∧ fld low 64 32 = s.host.eventSeq.toNat ∧ fld low 192 64 = s.host.stepDone.toNat := by
  intro low
  have hl : low = _ := s.leNat_header
  rw [hl, if_pos hb, State.binderFields]
  have hbit : (if s.prog.active.isSome then 1 else 0) = s.prog.active.isSome.toNat := by cases s.prog.active.isSome <;> rfl
  simp only [hbit, flag_eq_mul, fld]
  have hds := s.deviceState_lt
  have hhf := s.host.handlesFree_lt
  have hser := s.mc.serial_lt
  have hif := s.host.ifLevel.isLt
  have hseq := s.host.eventSeq.isLt
  have hre := s.host.binderRestarts.isLt
  have hdone := s.host.stepDone.isLt
  have h18 := Bool.toNat_le s.host.binderUp
  have h19 := Bool.toNat_le s.prog.active.isSome
  have h20 := Bool.toNat_le s.prog.staged.isSome
  have h21 := Bool.toNat_le s.host.portBActive
  have h22 := Bool.toNat_le (allCores.any fun c => (s.core c).needle.elasticOn)
  generalize s.deviceState = ds, s.host.handlesFree = hf, s.mc.serial = ser, s.host.ifLevel.toNat = lvl, s.host.eventSeq.toNat = seq,
    s.host.binderRestarts.toNat = re, s.host.stepDone.toNat = done, s.host.binderUp.toNat = b18, s.prog.active.isSome.toNat = b19,
    s.prog.staged.isSome.toNat = b20, s.host.portBActive.toNat = b21,
    (allCores.any fun c => (s.core c).needle.elasticOn).toNat = b22 at *
  refine ⟨?_, ?_, ?_, ?_, ?_⟩ <;> omega

/-! ### The cadence counter (R250, R251) -/

theorem State.bar0Byte_cadence (s : State) {i : Nat} (hi : i < 8) : s.bar0Byte (0x2_0100 + i)
    = BitVec.ofNat 8 ((if i < 4 then (s.cad.frame ++ s.cad.tick).toNat else 2 ^ 32 * s.cad.hiLatch.toNat) / 256 ^ i) := by
  have hs : s.bar0Byte (0x2_0100 + i) = byteAt s.cad.statusBytes i := by
    rw [show 0x2_0100 + i = 0x2_0000 + (0x100 + i) by omega, State.bar0Byte_status s (by omega), State.statusByte, if_neg (by omega),
      if_pos (by omega), Nat.add_sub_cancel_left]
  rw [hs, Cadence.statusBytes, List.append_assoc, List.append_assoc]
  by_cases h4 : i < 4
  · rw [if_pos h4, byteAt_append_left (by rwa [leBytes_length]), byteAt_leBytes _ h4]
    rfl
  · have hk : i - 4 < 4 := by omega
    have hp : 256 ^ i = 2 ^ 32 * 256 ^ (i - 4) := by
      rw [show (2 ^ 32 : Nat) = 256 ^ 4 by norm_num, ← Nat.pow_add]; congr 1; omega
    rw [if_neg h4, byteAt_append_right (by rw [leBytes_length]; omega), leBytes_length,
      byteAt_append_left (by rwa [leBytes_length]), byteAt_leBytes _ hk, hp, Nat.mul_div_mul_left _ _ (Nat.two_pow_pos 32)]

theorem State.bar0Read_cadenceLo (h : s.served = true) : s.bar0Read 0x2_0100 4 = some (leBytes 4 (s.cad.frame ++ s.cad.tick).toNat) := by
  have hp : ∀ a, a / 0x1_0000 = 2 → s.pageServed a = true := fun a ha => by simp [State.pageServed, pageGate, ha]
  rw [State.bar0Read, if_pos ⟨h, hp _ (by norm_num), hp _ (by norm_num)⟩]
  rfl

/-- No read is served behind a closed gate (R312). -/
theorem State.bar0Read_logPage (n : Nat) (h : s.host.gate .logPage ≠ .opened) : s.bar0Read 0x5_0000 n = none := by
  have hp : s.pageServed 0x5_0000 = false := beq_eq_false_iff_ne.2 h
  rw [State.bar0Read, if_neg (by simp [hp])]

theorem State.modCad_congr {f g : Cadence → Cadence} (h : f s.cad = g s.cad) : s.modCad f = s.modCad g := by
  rw [State.modCad, State.modCad, h]

theorem execCadenceLoRead_of_served (h : s.served = true) :
    execCadenceLoRead s = .next ((s.modHost fun h => { h with readData := some (leBytes 4 (s.cad.frame ++ s.cad.tick).toNat) }).modCad
      fun c => { c with hiLatch := (s.cad.frame ++ s.cad.tick).extractLsb' 32 32 }) := by
  have hx : BitVec.ofNat 32 ((s.cad.frame ++ s.cad.tick).toNat / 2 ^ 32) = (s.cad.frame ++ s.cad.tick).extractLsb' 32 32 := by
    rw [BitVec.extractLsb', Nat.shiftRight_eq_div_pow]
  rw [execCadenceLoRead, act, if_pos h, State.bar0Read_cadenceLo h]
  refine congrArg Host.Outcome.next (State.modCad_congr ?_)
  rw [← hx]
  rfl

end Sys2Proof.Machine
end

