-- ==== Sys2Proof/Proofs/Registers.lean ====
section
/-!
SUPPORT. What a write of BAR0 stores and drops, BAR2, and the gates of the peripherals.
-/

namespace Sys2Proof.Machine

variable {s : State}

/-! ### Bytes that a write stores (R7, R251, R310, R318) -/

theorem State.writeBar0Byte_events (s : State) (b : Byte) :
    s.writeBar0Byte 0x2_010C b = s.modCad fun c => { c with events := c.events &&& ~~~(b.setWidth 7) } := by
  have hb : BitVec.ofNat 7 b.toNat = b.setWidth 7 := BitVec.ofNat_toNat 7 b
  simp [State.writeBar0Byte, hb]

/-- The status header is the hardware's and the Binder's: a host's write of it is dropped. -/
theorem State.writeBar0Byte_header (s : State) {n : Nat} (b : Byte) (hn : n < 0x100) : s.writeBar0Byte (0x2_0000 + n) b = s := by
  rw [State.writeBar0Byte, if_neg (by omega), if_neg (by omega), if_neg (by omega), if_neg (by omega), if_neg (by omega),
    if_neg (by omega), if_neg (by omega)]

theorem HostIf.setRing_self (h : HostIf) (i : Fin 8) : h.setRing i (h.ring i) = h := by
  simp [HostIf.setRing, HostIf.ring]

/-- RING_BASE and LOG2_SIZE keep their values while the ring is enabled. -/
theorem RingRegs.writeByte_of_enable {r : RingRegs} (n : Nat) (b : Byte) (hr : r.enable = true) (hn : n < 9) : r.writeByte n b = r := by
  unfold RingRegs.writeByte
  by_cases h8 : n < 8
  · rw [if_pos h8, if_pos hr]
  · rw [if_neg h8, if_pos (by omega), if_pos (.inl hr)]

theorem State.writeBar0Byte_ring (s : State) (i : Fin 8) {n : Nat} (b : Byte) (hn : n < 32) :
    s.writeBar0Byte (0x1_0100 + 32 * i.val + n) b = s.modHost fun h => h.setRing i ((h.ring i).writeByte n b) := by
  have hi : (⟨(0x1_0100 + 32 * i.val + n - 0x1_0100) / 32 % 8, Nat.mod_lt _ (by decide)⟩ : Fin 8) = i := Fin.ext (by dsimp only; omega)
  have hm : (0x1_0100 + 32 * i.val + n) % 32 = n := by omega
  rw [State.writeBar0Byte, if_neg (by omega), if_pos (by omega)]
  dsimp only
  rw [hi, hm]

theorem State.writeBar0Byte_ring_of_enable (s : State) (i : Fin 8) {n : Nat} (b : Byte) (hr : (s.host.ring i).enable = true) (hn : n < 9) :
    s.writeBar0Byte (0x1_0100 + 32 * i.val + n) b = s := by
  rw [State.writeBar0Byte_ring s i b (by omega), State.modHost, RingRegs.writeByte_of_enable n b hr hn, HostIf.setRing_self]

/-! ### Register writes that meet the Binder's (R315) -/

theorem spareMet_zero (w : Option Nat) (a : Nat) (b : Byte) : spareMet ⟨w, 0⟩ a b = b := by
  have hb : b &&& ~~~((0 : BitVec 7).setWidth 8) = b := BitVec.and_allOnes
  rw [spareMet, hb, ite_self]

theorem spareMet_events (w : Option Nat) (ev : BitVec 7) (b : Byte) : spareMet ⟨w, ev⟩ 0x2_010C b = b &&& ~~~(ev.setWidth 8) := rfl

theorem State.writeMet_none (w : Option Nat) (a : Nat) (bytes : List Byte) : s.writeMet ⟨w, 0⟩ none a bytes = s.writeBar0 a bytes := by
  induction bytes generalizing s a with
  | nil => rfl
  | cons b r ih => rw [State.writeMet, State.writeBar0, if_neg (by simp), spareMet_zero, ih]

/-- The bytes outside the word that is dropped are written one by one. -/
theorem State.writeMet_some (w : Option Nat) (d a k : Nat) (bytes : List Byte) : s.writeMet ⟨w, 0⟩ (some d) (a + k) bytes
    = (((bytes.zipIdx k).filter fun p => (a + p.2) / 4 ≠ d).foldl (fun s p => s.writeBar0 (a + p.2) [p.1]) s) := by
  induction bytes generalizing s k with
  | nil => rfl
  | cons b r ih =>
    rw [State.writeMet, spareMet_zero, List.zipIdx_cons, Nat.add_assoc, ih]
    by_cases hd : (a + k) / 4 = d
    · rw [if_pos (congrArg some hd.symm), List.filter_cons_of_neg (by simpa using hd)]
    · rw [if_neg fun he => hd (Option.some.inj he).symm, List.filter_cons_of_pos (by simpa using hd), List.foldl_cons]
      rfl

theorem wordMet_some (ev : BitVec 7) (w offset len : Nat) : wordMet ⟨some w, ev⟩ offset len
    = if w < 0x1_0000 ∧ offset < w / 4 * 4 + 4 ∧ w / 4 * 4 < offset + len then some (w / 4) else none := by
  have hiff : (w / 4 < 0x4000 ∧ offset < 4 * (w / 4) + 4 ∧ 4 * (w / 4) < offset + len)
      ↔ (w < 0x1_0000 ∧ offset < w / 4 * 4 + 4 ∧ w / 4 * 4 < offset + len) := by omega
  simp only [wordMet, Option.map_some, Option.filter_some, decide_eq_true_eq, hiff]

theorem execRegisterWrite_of_served (h : s.served = true) (offset : Nat) (bytes : List Byte) (same : SameCycle) :
    execRegisterWrite offset bytes same s = .next (
      let w := wordMet same offset bytes.length
      w.elim (s.writeMet same w offset bytes) fun w => (s.writeMet same (some w) offset bytes).log 0x0507 [item (4 * w)]) := by
  rw [execRegisterWrite, if_neg (by simp [h])]
  cases wordMet same offset bytes.length <;> rfl

theorem execRegisterWrite_of_free (h : s.served = true) {w : Option Nat} (offset : Nat) (bytes : List Byte)
    (hw : wordMet ⟨w, 0⟩ offset bytes.length = none) : execRegisterWrite offset bytes ⟨w, 0⟩ s = .next (s.writeBar0 offset bytes) := by
  rw [execRegisterWrite_of_served h, hw]
  exact congrArg Host.Outcome.next (State.writeMet_none w offset bytes)

theorem execRegisterWrite_of_met (h : s.served = true) {w : Nat} (offset : Nat) (bytes : List Byte)
    (hw : wordMet ⟨some w, 0⟩ offset bytes.length = some (w / 4)) : execRegisterWrite offset bytes ⟨some w, 0⟩ s
      = .next (((bytes.zipIdx.filter fun p => (offset + p.2) / 4 ≠ w / 4).foldl (fun s p => s.writeBar0 (offset + p.2) [p.1]) s).log
          0x0507 [item (w / 4 * 4)]) := by
  rw [execRegisterWrite_of_served h, hw, Nat.mul_comm (w / 4), ← State.writeMet_some (some w) (w / 4) offset 0 bytes]
  rfl

/-- A CAD_EVENTS bit set in the cycle of its clear stays 1. -/
theorem execRegisterWrite_events (h : s.served = true) (b : Byte) (ev : BitVec 7) : execRegisterWrite 0x2_010C [b] ⟨none, ev⟩ s
    = .next (s.modCad fun c => { c with events := c.events &&& ~~~(b.setWidth 7 &&& ~~~ev) }) := by
  have hb : (b &&& ~~~(ev.setWidth 8)).setWidth 7 = b.setWidth 7 &&& ~~~ev := by
    ext i hi
    simp [show i < 8 by omega]
  rw [execRegisterWrite_of_served h]
  refine congrArg Host.Outcome.next ?_
  show s.writeBar0Byte 0x2_010C (spareMet ⟨none, ev⟩ 0x2_010C b) = _
  rw [spareMet_events, State.writeBar0Byte_events, hb]

/-! ### BAR2 (R178) -/

theorem execBar2Read_of_mapped {offset n : Nat} (h : s.served = true) (ho : offset + n ≤ 2 ^ 36)
    (hl : s.host.aperture.toNat + offset + n ≤ s.layoutEnd) : execBar2Read offset n s
      = .next (s.modHost fun h => { h with readData := some (s.dramRead (s.host.aperture.toNat + offset) n) }) := by
  rw [execBar2Read, if_neg (by simp [h, bar2Size]; omega), if_neg (by omega)]

theorem execBar2Read_of_beyond {offset n : Nat} (h : s.served = true) (ho : offset + n ≤ 2 ^ 36)
    (hl : s.layoutEnd < s.host.aperture.toNat + offset + n) : execBar2Read offset n s
      = .next ((s.modHost fun h => { h with readData := none, aer := h.aer ||| 0x8000 }).log 0x0508
          (item2 (max (s.host.aperture.toNat + offset) s.layoutEnd))) := by
  rw [execBar2Read, if_neg (by simp [h, bar2Size]; omega), if_pos hl]
  rfl

theorem execBar2Read_of_unserved {offset n : Nat} (h : s.served = false ∨ 2 ^ 36 < offset + n) :
    execBar2Read offset n s = .next (s.modHost fun h => { h with readData := none }) := by
  rw [execBar2Read, if_pos (show (!s.served) = true ∨ bar2Size < offset + n from h.imp (fun h => by simp [h]) id)]

theorem execBar2Write_of_mapped {offset : Nat} {bytes : List Byte} (h : s.served = true) (ho : offset + bytes.length ≤ 2 ^ 36)
    (hl : s.host.aperture.toNat + offset + bytes.length ≤ s.layoutEnd) :
    execBar2Write offset bytes s = .next (s.dramStore (s.host.aperture.toNat + offset) bytes) := by
  rw [execBar2Write, if_neg (by simp [h, bar2Size]; omega)]
  dsimp only
  rw [if_neg (by omega), List.take_of_length_le (by omega)]

theorem execBar2Write_of_beyond {offset : Nat} {bytes : List Byte} (h : s.served = true) (ho : offset + bytes.length ≤ 2 ^ 36)
    (hl : s.layoutEnd < s.host.aperture.toNat + offset + bytes.length) : execBar2Write offset bytes s
      = .next ((s.dramStore (s.host.aperture.toNat + offset) (bytes.take (s.layoutEnd - (s.host.aperture.toNat + offset)))).log 0x0508
          (item2 (max (s.host.aperture.toNat + offset) s.layoutEnd))) := by
  rw [execBar2Write, if_neg (by simp [h, bar2Size]; omega)]
  dsimp only
  rw [if_pos hl]

theorem execBar2Write_of_unserved {offset : Nat} {bytes : List Byte} (h : s.served = false ∨ 2 ^ 36 < offset + bytes.length) :
    execBar2Write offset bytes s = .next s := by
  rw [execBar2Write, if_pos (show (!s.served) = true ∨ bar2Size < offset + bytes.length from h.imp (fun h => by simp [h]) id)]

/-! ### Gates (R312, R370) -/

theorem HostIf.writeGate_eq (h : HostIf) (g : Gate) (on : Bool) (busy : List Gate) (now : Nat) : h.writeGate g on (busy.contains g) now
    = if on then h.setGate g .opened
      else if h.gate g = .opened then h.setGate g (if g ∈ busy then .closing now else .closed) else h := by
  simp [HostIf.writeGate]

theorem State.gateTicks_eq (s : State) :
    s.gateTicks = if Pll.sb ∈ s.clk.locked then divCeil 256 (fld s.mc.activeProfile.toNat 160 8) else 256 := by
  simp [State.gateTicks]

theorem execGateForced_of_overdue {g : Gate} (who : GateInitiator) {since : Nat} (hg : s.host.gate g = .closing since)
    (ht : since + s.gateTicks ≤ s.now) : execGateForced g who s
      = .next ((s.modHost fun h => { h.setGate g .closed with readData := none }).log 0x050A [item (gateCode g), item (initiatorCode who)]) := by
  rw [execGateForced, act, if_pos (by simp [hg, GateState.overdue, ht])]

theorem execGateForced_of_early {g : Gate} (who : GateInitiator) (hg : ∀ since, s.host.gate g = .closing since → s.now < since + s.gateTicks) :
    execGateForced g who s = .next s := by
  rw [execGateForced, act, if_neg]
  cases hs : s.host.gate g with
  | closing since => simpa [GateState.overdue] using hg since hs
  | closed => simp [GateState.overdue]
  | opened => simp [GateState.overdue]

end Sys2Proof.Machine

open Sys2Proof Sys2Proof.Machine

/-- Settles O45, one lemma per register or access. -/
theorem registers : Obligations.Registers := by
  intro offset bytes s a v ticks gate low
  have hgate : ∀ (value : W32) busy (h : HostIf) g n, gate value busy h g n = h.writeGate g (value.getLsbD n) (busy.contains g) s.now :=
    fun value busy h g n => (h.writeGate_eq g _ busy s.now).symm
  have hticks : ticks = s.gateTicks := s.gateTicks_eq.symm
  refine ⟨State.header_fields, fun hb => ?_, fun i hi => s.bar0Byte_cadence hi, fun x hx => hx.elim s.bar0Byte_reserved s.bar0Byte_beyond,
    fun n _ hg => State.bar0Read_logPage n hg, execCadenceLoRead_of_served,
    fun h => execRegisterWrite_of_free h offset bytes rfl, fun b ev h => execRegisterWrite_events h b ev,
    s.writeBar0Byte_events, fun i n b hr hn => s.writeBar0Byte_ring_of_enable i b hr hn, fun n b hn => s.writeBar0Byte_header b hn,
    fun w h => ⟨fun hw => ?_, fun hw => ?_⟩, fun n => execBar2Read_of_mapped, fun n => execBar2Read_of_beyond,
    fun n => execBar2Read_of_unserved, execBar2Write_of_mapped, execBar2Write_of_beyond, fun ho => execBar2Write_of_unserved (.inr ho),
    fun h => ⟨?_, fun same => ?_, execBar2Write_of_unserved (.inl h)⟩, fun g value busy hu => ?_, fun value busy h => ?_,
    fun g who since hg ht => ?_, fun g who hg => ?_⟩
  · rw [show low = _ from s.leNat_header, hb]
    simp [flag]
  · exact execRegisterWrite_of_met h offset bytes ((wordMet_some _ _ _ _).trans (if_pos hw))
  · exact execRegisterWrite_of_free h offset bytes ((wordMet_some _ _ _ _).trans (if_neg hw))
  · exact congrArg Host.Outcome.next (if_neg (by simp [h]))
  · exact if_pos (by simp [h])
  · simp only [hgate]
    exact congrArg Host.Outcome.next (if_pos hu)
  · simp only [hgate]
    exact congrArg Host.Outcome.next (if_pos h)
  · exact execGateForced_of_overdue who hg (hticks ▸ ht)
  · exact execGateForced_of_early who (hticks ▸ hg)
end

