-- ==== Sys2Proof/Proofs/Doorbells.lean ====
section
/-!
SUPPORT. What a write of a doorbell or of a ring register does, one lemma per outcome.
-/

namespace Sys2Proof.Machine

variable {s : State} {i : Fin 8}

/-! ### Tails of mailboxes (R314) -/

theorem execMbTailWrite_of_room {tail : BitVec 16} (h : s.served = true) (ht : (tail - (s.host.mailbox i).head).toNat ≤ 32) :
    execMbTailWrite i tail s = .next (s.modHost (·.setMailbox i { s.host.mailbox i with tail := tail })) := by
  rw [execMbTailWrite, if_neg (by simp [h])]
  exact if_pos ht

theorem execMbTailWrite_of_overrun {tail : BitVec 16} (h : s.served = true) (ht : 32 < (tail - (s.host.mailbox i).head).toNat) :
    execMbTailWrite i tail s = .next (s.raiseDev 0x0418 []) := by
  rw [execMbTailWrite, if_neg (by simp [h])]
  exact if_neg (Nat.not_le.2 ht)

theorem execMbTailWrite_of_unserved (tail : BitVec 16) (h : s.served = false) : execMbTailWrite i tail s = .next s := by
  rw [execMbTailWrite, if_pos (by simp [h])]

/-! ### Heads of rings (R316, R318) -/

theorem execRingHeadWrite_of_within {head : W32} (h : s.served = true)
    (hr : (head - (s.host.ring i).head).toNat ≤ ((s.host.ring i).tail - (s.host.ring i).head).toNat) :
    execRingHeadWrite i head s = .next (s.modHost fun h =>
      { h.setRing i { s.host.ring i with head := head } with
        handles := h.handles.map fun e =>
          if e.phase = .posted ∧ e.mailbox = i ∧ (e.entry - (s.host.ring i).head).toNat < (head - (s.host.ring i).head).toNat
          then { e with phase := .free } else e }) := by
  simp only [execRingHeadWrite]
  rw [if_neg (by simp [h]), if_neg (Nat.not_lt.2 hr)]

theorem execRingHeadWrite_of_overrun {head : W32} (h : s.served = true)
    (hr : ((s.host.ring i).tail - (s.host.ring i).head).toNat < (head - (s.host.ring i).head).toNat) :
    execRingHeadWrite i head s = .next (s.raiseDev 0x0418 []) := by
  simp only [execRingHeadWrite]
  rw [if_neg (by simp [h]), if_pos hr]

theorem execRingHeadWrite_of_unserved (head : W32) (h : s.served = false) : execRingHeadWrite i head s = .next s := by
  simp only [execRingHeadWrite]
  rw [if_pos (by simp [h])]

/-! ### The enabling of a ring (R318) -/

theorem execRingEnable_of_disabled (h : s.served = true) (he : (s.host.ring i).enable = false) :
    execRingEnable i s = .next (s.modHost fun h =>
      { h.setRing i { s.host.ring i with enable := true, head := 0, tail := 0, unsignalled := 0 } with
        handles := h.handles.map fun e => if e.phase = .posted ∧ e.mailbox = i then { e with phase := .held } else e }) := by
  simp only [execRingEnable, act]
  rw [if_pos (by simp [h, he])]

theorem execRingEnable_of_unserved (h : s.served = false) : execRingEnable i s = .next s := by
  simp only [execRingEnable, act]
  rw [if_neg (by simp [h])]

end Sys2Proof.Machine

open Sys2Proof Sys2Proof.Machine

/-- Settles O42, one lemma per doorbell and outcome. -/
theorem doorbells : Obligations.Doorbells := by
  intro i tail head s
  exact ⟨execMbTailWrite_of_room, execMbTailWrite_of_overrun, execRingHeadWrite_of_within, execRingHeadWrite_of_overrun,
    execRingEnable_of_disabled,
    fun h => ⟨execMbTailWrite_of_unserved tail h, execRingHeadWrite_of_unserved head h, execRingEnable_of_unserved h⟩⟩
end

