-- ==== Sys2Proof/Proofs/HostPorts.lean ====
section
/-!
SUPPORT. What a link, a takeover or a reset does to the two ports, one lemma per outcome.
-/

namespace Sys2Proof.Machine

variable {s : State} {p : PciePort}

/-- The link of a port is down from now on (R308). -/
def State.portDown (s : State) (p : PciePort) : State :=
  s.modHost fun h => h.setPort p { h.port p with up := false, downAt := s.now, width := 0, generation := 0 }

/-- A return of the reference waits for the port no longer (R372; log entry 55). -/
def State.portBack (s : State) (p : PciePort) : State := s.modClk fun c => { c with portsBack := c.portsBack.erase p }

@[simp] theorem HostIf.setPort_rings (h : HostIf) (p : PciePort) (x : PortState) : (h.setPort p x).rings = h.rings := by
  cases p <;> rfl

/-! ### Links (R307, R308) -/

theorem execPcieLinkDown_eq (s : State) (p : PciePort) :
    execPcieLinkDown p s = .next (if (s.host.port p).up then s.portDown p else s) := rfl

theorem execPcieLinkUp_eq (s : State) (p : PciePort) (w : BitVec 5) (g : BitVec 3) :
    execPcieLinkUp p w g s = .next (
      if s.pwr.main = true ∧ 5 ≤ s.pwr.step ∧ s.mainClocks = true ∧ (s.host.port p).up = false then
        (s.modHost fun h => h.setPort p { h.port p with up := true, width := w, generation := g }).portBack p
      else s) := by
  simp [execPcieLinkUp, act, State.portBack, and_assoc]

/-! ### The takeover (R308) -/

theorem execTakeover_of_idle {v : W32}
    (h : v.toNat % 2 = 0 ∨ s.pwr.main = false ∨ (s.host.port p).up = false ∨ (p = s.host.activePort ∧ s.host.usable = false)) :
    execTakeover p v s = .next s := by
  rw [execTakeover, if_pos (by simpa using h)]

section
variable {v : W32} (hv : v.toNat % 2 = 1) (hm : s.pwr.main = true) (hu : (s.host.port p).up = true)

include hv hm hu

/-- The port is active already: RESULT 3. -/
theorem execTakeover_of_active (hp : p = s.host.activePort) (hs : s.host.usable = true) :
    execTakeover p v s = .next (s.modHost (·.setPort p { s.host.port p with result := 3 })) := by
  rw [execTakeover, if_neg (by simp [hv, hm, hu, hs])]
  exact if_pos hp

/-- The active link is up, or not yet down for 1 ms: RESULT 2. -/
theorem execTakeover_of_soon (hp : p ≠ s.host.activePort)
    (ha : (s.host.port s.host.activePort).up = true ∨ s.now < (s.host.port s.host.activePort).downAt + 100000) :
    execTakeover p v s = .next (s.modHost (·.setPort p { s.host.port p with result := 2 })) := by
  simp only [execTakeover]
  rw [if_neg (by simp [hv, hm, hu, hp]), if_neg hp, if_pos ha]

/-- The port becomes active, and the rings are written again through it. -/
theorem execTakeover_of_overdue (hp : p ≠ s.host.activePort) (ha : (s.host.port s.host.activePort).up = false)
    (ht : (s.host.port s.host.activePort).downAt + 100000 ≤ s.now) :
    execTakeover p v s = .next (({ s.modHost (fun h =>
        { h.setPort p { s.host.port p with result := 1 } with portBActive := decide (p = .b) }) with
      hostMem := s.host.rings.toList.foldl (fun m (r : RingRegs) => if r.enable then repost m r else m) s.hostMem } : State).raiseDev
        0x0416 []) := by
  simp only [execTakeover]
  rw [if_neg (by simp [hv, hm, hu, hp]), if_neg hp, if_neg (by simp [ha, ht])]
  simp

end

/-! ### Resets (R309, R332) -/

/-- A reset on the active port. -/
def HostIf.resetActive (h : HostIf) : HostIf :=
  { h with usable := false, mailboxes := h.mailboxes.map fun m => { Mailbox.reset with recent := m.recent },
           rings := Vector.ofFn RingRegs.reset, eventRing := 7, msixTable := Vector.replicate 64 msixReset, pba := 0,
           gates := h.gates.map fun g => if g.1 ∈ [.sensorPage, .logPage, .tracePage] then (g.1, .closed) else g,
           aperture := 0, readData := none }

theorem execHostReset_eq (s : State) (p : PciePort) (kind : HostResetKind) :
    execHostReset p kind s = .next ((
      if s.pwr.main = false then s else if p = s.host.activePort then s.modHost HostIf.resetActive else s.portDown p).portBack p) := by
  cases hm : s.pwr.main with
  | false => simp [execHostReset, State.portBack, hm]
  | true =>
    by_cases hp : p = s.host.activePort
    · simp [execHostReset, State.portBack, State.modHost, State.modClk, HostIf.resetActive, hm, ← hp]
    · simp [execHostReset, State.portBack, State.portDown, State.modHost, State.modClk, hm, hp]

theorem execHostInterfaceUsable_of_powered (hm : s.pwr.main = true) :
    execHostInterfaceUsable s = .next (s.modHost fun h => { h with usable := true }) := by
  simp [execHostInterfaceUsable, act, hm]

end Sys2Proof.Machine

open Sys2Proof Sys2Proof.Machine

/-- Settles O44, one lemma per command and outcome. -/
theorem hostPorts : Obligations.HostPorts := by
  intro p s h mine active back down
  have hback : ∀ t : State, t.clk = s.clk → back t = t.portBack p := fun t ht => by simp [back, State.portBack, State.modClk, ht]
  refine ⟨execPcieLinkDown_eq s p, execPcieLinkUp_eq s p, fun v => execTakeover_of_idle, fun v hv hm hu =>
    ⟨execTakeover_of_active hv hm hu, execTakeover_of_soon hv hm hu, execTakeover_of_overdue hv hm hu⟩, fun kind => ?_,
    execHostInterfaceUsable_of_powered⟩
  refine (execHostReset_eq s p kind).trans (congrArg Host.Outcome.next (hback _ ?_).symm)
  split
  · rfl
  · split <;> rfl
end

