-- ==== Sys2Proof/Proofs/NeedleSections.lean ====
section
/-!
SUPPORT. What the words STEP_END and SECTION_END do, one lemma per outcome.
-/

namespace Sys2Proof.Machine

variable {s : State} {img : Image} {c : CoreId} {no w : Nat}

/-- The Needle has taken the last word of its section, the arms of the section are gone, and the Needle goes on as given (R140, R143). -/
def State.pastSection (s : State) (c : CoreId) (e : Bool) (m : Needle) : State :=
  s.modCore c fun k => { k.takeWord.dropArms e with needle := m }

theorem State.modNeedle_dropArms (e : Bool) (f : Needle → Needle) :
    ((s.takeWord c).modCore c (·.dropArms e)).modNeedle c f
      = s.pastSection c e (f { (s.core c).needle with pos := (s.core c).needle.pos + 1 }) := by
  rw [State.modNeedle, State.takeWord, State.modCore_modCore, State.modCore_modCore]
  rfl

@[simp] theorem State.pastSection_prog (e : Bool) (m : Needle) : (s.pastSection c e m).prog = s.prog := rfl

@[simp] theorem State.core_pastSection_needle (e : Bool) (m : Needle) (d : CoreId) :
    ((s.pastSection c e m).core d).needle = if d = c then m else (s.core d).needle := by
  rw [State.pastSection, State.core_modCore]
  split <;> rfl

/-! ### STEP_END (R18, R141, R143) -/

theorem execStepEnd_of_drained (h : s.atWord img c no w) (hop : wOp w = 0x01) (hd : (s.awlReads c).drained img c false = true) :
    let n := ((s.awlReads c).core c).needle
    execStepEnd c s = .next ((s.awlReads c).pastSection c false
      { n with retired := true, sleepReq := bitOf w 8, sect := if n.elasticOn then .elastic else .done,
               pos := if n.elasticOn then n.elasticPos else 0 }) := by
  rw [execStepEnd, needleDo_at h hop, if_neg (by simp [hd]), State.modNeedle_dropArms]

theorem execStepEnd_of_undrained (h : s.atWord img c no w) (hop : wOp w = 0x01) (hd : (s.awlReads c).drained img c false = false) :
    execStepEnd c s = .next (s.awlReads c) := by
  rw [execStepEnd, needleDo_at h hop, if_pos (by simp [hd])]

/-! ### SECTION_END (R140, R141, R158) -/

/-- The section has ended on this core: with another core in it nothing more happens, and the last one completes the handle (R141, R224). -/
theorem State.endElastic_pastSection (m : Needle) (hm : m.elasticOn = false) :
    (s.pastSection c true m).endElastic =
      if ∀ d, d ≠ c → (s.core d).needle.elasticOn = false then
        match s.prog.elasticHandle, s.prog.elasticFault with
        | some h, none => ((s.pastSection c true m).complete h 0 0 s.prog.elasticRuns.toNat).modProg fun p =>
            { p with elasticHandle := none, elasticFault := none }
        | some h, some cause => ((s.pastSection c true m).complete h 0x0206 cause s.prog.elasticRuns.toNat).modProg fun p =>
            { p with elasticHandle := none, elasticFault := none }
        | none, _ => s.pastSection c true m
      else s.pastSection c true m := by
  have hany : (allCores.any fun d => ((s.pastSection c true m).core d).needle.elasticOn) = true
      ↔ ¬ ∀ d, d ≠ c → (s.core d).needle.elasticOn = false := by
    simp only [allCores, List.any_eq_true, List.mem_finRange, true_and, State.core_pastSection_needle, not_forall, Bool.not_eq_false]
    refine exists_congr fun d => ?_
    by_cases hd : d = c <;> simp [hd, hm]
  rw [State.endElastic]
  split
  next h => rw [if_neg (hany.1 h)]
  next h =>
    rw [if_pos (not_not.1 (mt hany.2 h))]
    simp only [State.pastSection_prog]
    cases s.prog.elasticHandle <;> cases s.prog.elasticFault <;> rfl

theorem execSectionEnd_of_elastic (h : s.atWord img c no w) (hop : wOp w = 0x02)
    (he : ((s.awlReads c).core c).needle.sect = .elastic) (hd : (s.awlReads c).drained img c true = true) :
    let t := s.awlReads c
    let n := (t.core c).needle
    execSectionEnd c s = .next (t.pastSection c true
      { n with elasticOn := false, elasticPos := 0, sect := if n.retired then .done else t.prog.schedule, pos := 0 }).endElastic := by
  rw [execSectionEnd, needleDo_at h hop, if_pos he, if_neg (by simp [hd])]
  exact congrArg (fun u : State => Host.Outcome.next u.endElastic) (State.modNeedle_dropArms _ _)

theorem execSectionEnd_of_elastic_undrained (h : s.atWord img c no w) (hop : wOp w = 0x02)
    (he : ((s.awlReads c).core c).needle.sect = .elastic) (hd : (s.awlReads c).drained img c true = false) :
    execSectionEnd c s = .next (s.awlReads c) := by
  rw [execSectionEnd, needleDo_at h hop, if_pos he, if_pos (by simp [hd])]

/-- Every core of the program is done once the other ones are. -/
theorem State.allDone_pastSection (m : Needle) :
    (allCores.all fun d => decide (img.cores ≤ d.val) || ((s.pastSection c false { m with sect := .done, pos := 0 }).core d).needle.sect == .done) = true
      ↔ ∀ d : CoreId, d ≠ c → d.val < img.cores → (s.core d).needle.sect = .done := by
  simp only [allCores, List.all_eq_true, List.mem_finRange, Bool.or_eq_true, decide_eq_true_eq, beq_iff_eq, true_implies,
    State.core_pastSection_needle]
  refine forall_congr' fun d => ?_
  by_cases hd : d = c
  · simp [hd]
  · simp [hd, imp_iff_not_or]

/-- The last core of a direct program ends it (R158). -/
theorem execSectionEnd_of_pinned (h : s.atWord img c no w) (hop : wOp w = 0x02)
    (he : ((s.awlReads c).core c).needle.sect ≠ .elastic) (hd : (s.awlReads c).drained img c false = true) :
    let t := s.awlReads c
    let u := t.pastSection c false { (t.core c).needle with sect := .done, pos := 0 }
    execSectionEnd c s = .next (
      if img.direct = true ∧ ∀ d : CoreId, d ≠ c → d.val < img.cores → (t.core d).needle.sect = .done then u.endProgram 0 0 none else u) := by
  rw [execSectionEnd, needleDo_at h hop, if_neg he, if_neg (by simp [hd])]
  simp only [State.modNeedle_dropArms, State.allDone_pastSection]

theorem execSectionEnd_of_pinned_undrained (h : s.atWord img c no w) (hop : wOp w = 0x02)
    (he : ((s.awlReads c).core c).needle.sect ≠ .elastic) (hd : (s.awlReads c).drained img c false = false) :
    execSectionEnd c s = .next (s.awlReads c) := by
  rw [execSectionEnd, needleDo_at h hop, if_neg he, if_pos (by simp [hd])]

end Sys2Proof.Machine

open Sys2Proof Sys2Proof.Machine

/-- Settles O15, one lemma per word and outcome. -/
theorem needleSections : Obligations.NeedleSections := by
  intro img c no w s h t n ends
  refine ⟨execStepEnd_of_drained h, execStepEnd_of_undrained h, execSectionEnd_of_elastic_undrained h, fun hop he hd => ?_,
    execSectionEnd_of_pinned_undrained h, fun hop he hd => ⟨fun hc => ?_, fun hdir hall => ?_⟩⟩
  · intro u
    refine (execSectionEnd_of_elastic h hop he hd).trans (congrArg Host.Outcome.next ?_)
    exact State.endElastic_pastSection _ rfl
  · refine (execSectionEnd_of_pinned h hop he hd).trans (congrArg Host.Outcome.next (if_neg fun ⟨hdir, hall⟩ => ?_))
    rcases hc with hc | ⟨d, hne, hlt, hnd⟩
    · simp [hc] at hdir
    · exact hnd (hall d hne hlt)
  · exact (execSectionEnd_of_pinned h hop he hd).trans (congrArg Host.Outcome.next (if_pos ⟨hdir, hall⟩))
end

