-- ==== Sys2Proof/Proofs/PressWrites.lean ====
section
/-!
SUPPORT. A beat in flight while the arithmetic clock stands, which BEAT_WRITE leaves where it is.
-/

namespace Sys2Proof.Machine

/-- Without the arithmetic clock no beat is written (R366, R371). -/
theorem execBeatWrite_of_stopped {s : State} (c : CoreId) (residue : Option (Fin 128)) (h : s.aclkRuns = false) :
    execBeatWrite c residue s = .next s := by
  simp only [execBeatWrite]
  split
  · rfl
  · split
    · rfl
    · rw [if_pos (by simp [h])]

/-- The observations of a write leave the Press alone. -/
theorem Core.observe_press (k : Core) (closed : Bool) (layer role : Nat) (x1 : Bool) (xs : List Num) (flush sat : Nat) :
    (k.observe closed layer role x1 xs flush sat).press = k.press := by
  simp only [Core.observe]
  split
  · rfl
  · split <;> rfl

/-- So does the write of the words. -/
theorem Core.store_press (k : Core) (mem : CoreMem) (a : Nat) (bytes : List Byte) : (k.store mem a bytes).press = k.press := by
  cases mem <;> rfl

/-- A program of one core. -/
def stoppedImage : Image :=
  { addr := 0x100000, len := 0x2000, direct := false, cores := 1, seed := 0, coldTicks := 1000, warmTicks := 1000, coreTable := 256,
    recipeOff := 0, slotOff := 0, regionOff := 0, steerOff := 0, crc := 0,
    bounds := { portSplit := 0, memReserve := false, rank := 0, devices := 1, spineBound := 0, dramBound := 0, programId := 1, peers := [] },
    pinnedPages := 1, collBase := 0x200000, limits := (64, 128, 8), usable := 32768 }

/-- An overwriting beat on the final issue cycle of its row, not the last of its pass. -/
def stoppedBeat : Beat :=
  { valid := true, passSel := false, mode := .t1, plane := 0, lastPlane := true, qa := 0, nonfinite := false, accumulate := false,
    accRow := 0, edges := [], cycle := 0, layer := 0, lastOfPass := false, lastOfRun := false, serial := 0 }

/-- The reference is lost in a step while core 0 has the beat in flight, in the set of a pass without columns. -/
def stoppedState : State :=
  { (State.reset.modProg fun p => { p with active := some stoppedImage, phase := .steps }).modClk fun k => { k with lost := true } with
    cores := State.reset.cores.set 0
      { Core.reset 0 with press := { Press.reset with beats := [stoppedBeat], set0 := some Resident.reset } } }

theorem stoppedState_core : stoppedState.core 0
    = { Core.reset 0 with press := { Press.reset with beats := [stoppedBeat], set0 := some Resident.reset } } := by
  simp [stoppedState, State.core]

theorem stoppedState_aclkRuns : stoppedState.aclkRuns = false := by simp [stoppedState, State.aclkRuns]

end Sys2Proof.Machine

open Sys2Proof Sys2Proof.Machine

/-- Refutes O13: BEAT_WRITE writes the oldest beat only while the arithmetic clock runs (R366, R371), and the clause for the oldest beat
does not ask for that. In `stoppedState` the reference is lost: the command leaves the beat in flight, where the statement has it gone. -/
theorem not_pressWrites : ¬ Obligations.PressWrites := by
  intro h
  obtain ⟨-, -, hwrite, -⟩ := h stoppedImage 0 stoppedState rfl
  have hcore := stoppedState_core
  have hgone := hwrite stoppedBeat [] Resident.reset none (by rw [hcore]) (by simp [hcore, Press.getSet, stoppedBeat])
    (by simp [hcore, Core.reset]) rfl rfl
  have hstays : exec (.beatWrite 0 none) stoppedState = .next stoppedState :=
    execBeatWrite_of_stopped (s := stoppedState) 0 none stoppedState_aclkRuns
  have heq := congrArg (fun t => (t.core 0).press.beats) (Host.Outcome.next.inj (hstays.symm.trans hgone))
  simp [stoppedBeat, Beat.faultColumn, Core.observe_press, Core.store_press, hcore] at heq
end

