-- ==== Sys2Proof/Proofs/ResetState.lean ====
section
/-!
SUPPORT. The state after reset, part by part.
-/

namespace Sys2Proof.Machine

theorem Mem.read_nil (a n : Nat) : Mem.read zeroByte [] a n = List.replicate n 0 := by
  simp [Mem.read, Mem.get, Mem.lookup, zeroByte, List.map_const']

/-! ### The parts of the state -/

@[simp] theorem State.reset_core (c : CoreId) : State.reset.core c = Core.reset c := by simp [State.core, State.reset]

@[simp] theorem State.reset_site (i : SiteId) : State.reset.site i = Site.reset i := by simp [State.site, State.reset]

@[simp] theorem State.reset_link (l : LaneId) : State.reset.link l = Link.reset := by simp [State.link, State.reset, Fabric.reset]

@[simp] theorem HostIf.reset_mailbox (i : Fin 8) : HostIf.reset.mailbox i = Mailbox.reset := by simp [HostIf.mailbox, HostIf.reset]

@[simp] theorem HostIf.reset_ring (i : Fin 8) : HostIf.reset.ring i = RingRegs.reset i := by simp [HostIf.ring, HostIf.reset]

theorem Cadence.reset_counter : Cadence.reset.counter = 0 := by decide

/-! ### Memories -/

@[simp] theorem Core.reset_mem (c : CoreId) (m : CoreMem) : (Core.reset c).mem m = [] := by cases m <;> rfl

theorem State.reset_memOk : State.reset.memOk = true :=
  State.memOk_iff.2 ⟨rfl, rfl, HostIf.memOk_iff.2 fun i => congrArg (fun b : Mailbox => Memory.wf zeroByte b.sram) (HostIf.reset_mailbox i),
    rfl, fun c => (congrArg Core.memOk (State.reset_core c)).trans (Core.reset_memOk c), fun i => congrArg Site.memOk (State.reset_site i)⟩

/-! ### Profiles (R380) -/

/-- ACLK_SLOTS of the factory profiles (R380). -/
def factorySlots (i : Fin 4) : Nat := if i.val = 1 then 6 else if i.val = 2 then 4 else 8

theorem Mc.reset_profile (i : Fin 4) : Mc.reset.profiles[i] = factoryProfile (factorySlots i) := by
  simp [Mc.reset, factorySlots]

theorem factoryProfile_fields (i : Fin 4) : let p := (factoryProfile (factorySlots i)).toNat
    fld p 0 24 = 1960000 ∧ fld p 24 24 = 2041000 ∧ fld p 48 12 = 256 ∧ fld p 64 16 = 500 ∧ fld p 128 8 = factorySlots i := by
  revert i
  decide +kernel

end Sys2Proof.Machine

open Sys2Proof Sys2Proof.Machine

/-- Settles O2: each register, core, mailbox and profile by the lemma about its part. -/
theorem resetState : Obligations.ResetState := by
  unfold Obligations.ResetState
  intro s slots
  refine ⟨rfl, rfl, rfl, Cadence.reset_counter, rfl, rfl, rfl, rfl, rfl, rfl, rfl, fun i => ?_, HostIf.reset_ring, rfl, rfl, rfl, fun c => ?_, fun i => ?_,
    rfl, rfl, rfl, rfl, fun l => ?_, rfl, fun i => ?_, State.reset_memOk, fun c m a n => ?_, fun i a n => ?_⟩
  · rw [show s.host.mailbox i = Mailbox.reset from HostIf.reset_mailbox i]
    exact ⟨rfl, rfl⟩
  · rw [show s.core c = Core.reset c from State.reset_core c]
    exact ⟨rfl, rfl, rfl⟩
  · exact congrArg Site.role (State.reset_site i)
  · rw [show s.link l = Link.reset from State.reset_link l]
    exact nofun
  · intro p
    rw [show p = (factoryProfile (factorySlots i)).toNat from congrArg BitVec.toNat (Mc.reset_profile i)]
    exact factoryProfile_fields i
  · rw [show s.core c = Core.reset c from State.reset_core c, Core.read, Core.reset_mem, Mem.read_nil]
  · rw [show s.host.mailbox i = Mailbox.reset from HostIf.reset_mailbox i]
    exact Mem.read_nil a n
end

