-- ==== Sys2Proof/Proofs/Quiet.lean ====
section
/-!
SUPPORT. What events, messages and updates core by core leave as it is: the program, the cores, device memory and the handles.
-/

namespace Sys2Proof.Machine

variable {s t u : State} {img : Image}

/-- What a fold keeps when each of its steps keeps it. -/
theorem foldl_keeps {α β γ : Type} (P : α → γ) {f : α → β → α} (hf : ∀ a b, P (f a b) = P a) (l : List β) (a : α) :
    P (l.foldl f a) = P a := by
  induction l generalizing a with
  | nil => rfl
  | cons b l ih => rw [List.foldl_cons, ih, hf]

/-! ### Events (R328) -/

/-- The program, the cores, device memory and the handles stay: what events, log entries and messages do. -/
structure State.Quiet (s t : State) : Prop where
  prog : t.prog = s.prog
  cores : t.cores = s.cores
  dram : t.dram = s.dram
  dramEpoch : t.dramEpoch = s.dramEpoch
  handles : t.host.handles = s.host.handles

theorem State.Quiet.refl (s : State) : s.Quiet s := ⟨rfl, rfl, rfl, rfl, rfl⟩

theorem State.Quiet.trans (h : s.Quiet t) (k : t.Quiet u) : s.Quiet u :=
  ⟨k.prog.trans h.prog, k.cores.trans h.cores, k.dram.trans h.dram, k.dramEpoch.trans h.dramEpoch, k.handles.trans h.handles⟩

theorem State.Quiet.foldl {α : Type} {f : State → α → State} (hf : ∀ (s : State) (x : α), s.Quiet (f s x)) (l : List α)
    (s : State) :
    s.Quiet (l.foldl f s) := by
  induction l generalizing s with
  | nil => exact .refl s
  | cons x l ih => exact (hf s x).trans (ih _)

theorem State.Quiet.core (h : s.Quiet t) (c : CoreId) : t.core c = s.core c := by simp [State.core, h.cores]

theorem State.running?_congr (h : t.host.handles = s.host.handles) (x : Handle) : t.running? x = s.running? x := by
  simp [State.running?, HostIf.entry?, h]

theorem State.modFab_quiet (f : Fabric → Fabric) : s.Quiet (s.modFab f) := ⟨rfl, rfl, rfl, rfl, rfl⟩

theorem State.raise_quiet (s : State) (code core : Nat) (items : List W32) (r : Option (BitVec 256)) (n : Option W64) :
    s.Quiet (s.raise code core items r n) := by
  simp only [State.raise]
  split
  · exact ⟨by simp, by simp, by simp, by simp, by simp⟩
  · split
    · exact ⟨rfl, rfl, rfl, rfl, rfl⟩
    · exact ⟨by simp, by simp, by simp, by simp, by simp⟩

theorem State.raiseStep_quiet (s : State) (code core : Nat) (items : List W32) (r : Option (BitVec 256)) (n : Option W64) :
    s.Quiet (s.raiseStep code core items r n) := by
  unfold State.raiseStep
  split
  · exact .refl s
  · exact s.raise_quiet code core items r n

theorem State.raiseGaps_quiet (s : State) (c : CoreId) : s.Quiet (s.raiseGaps c) :=
  .foldl (fun t _ => t.raiseStep_quiet _ _ _ _ _) _ s

theorem State.raiseCore_quiet (s : State) (c : CoreId) : s.Quiet (s.raiseCore c) := by
  have hg := s.raiseGaps_quiet c
  have hc : s.Quiet (match (s.core c).collide with
      | some x => (s.raiseGaps c).raiseStep 0x030A c.val [item c.val, item x.count, item x.row, item x.col]
      | none => s.raiseGaps c) := by
    cases (s.core c).collide with
    | none => exact hg
    | some x => exact hg.trans (State.raiseStep_quiet _ _ _ _ _ _)
  simp only [State.raiseCore]
  cases (s.core c).clamp with
  | none => exact hc
  | some p => exact hc.trans (State.raiseStep_quiet _ _ _ _ _ _)

theorem State.raiseCores_quiet (s : State) (l : List CoreId) : s.Quiet (l.foldl State.raiseCore s) := .foldl State.raiseCore_quiet l s

theorem State.raiseReplayed_quiet (s : State) (f : StepFault) : s.Quiet (s.raiseReplayed f) := s.raiseStep_quiet _ _ _ _ _

theorem State.switchRoutes_quiet (s : State) (img : Image) (failed : List Nat) : s.Quiet (s.switchRoutes img failed) := by
  refine (s.modFab_quiet fun f => { f with
    failedEver := (f.failedEver ++ failed).dedup, failedNow := f.failedNow.filter (!failed.contains ·),
    links := f.links.map fun l => { l with sched := l.sched && !l.overBound } }).trans ?_
  simp only [State.switchRoutes]
  split
  · exact .refl _
  · split
    · exact .refl _
    · exact (State.raiseStep_quiet _ _ _ _ _ _).trans (State.modFab_quiet _)

/-! ### Updates of the program's cores, one by one -/

theorem Image.mem_coreList {c : CoreId} : c ∈ img.coreList ↔ c.val < img.cores := by simp [Image.coreList, allCores]

theorem Image.coreList_nodup (img : Image) : img.coreList.Nodup := (List.nodup_finRange 192).filter _

/-- A fold that updates each core from what the other updates leave alone is one update of all of them. -/
theorem State.foldl_setCore {F : State → CoreId → State} {G : State → CoreId → Core} (hF : ∀ s c, F s c = s.setCore c (G s c))
    (hG : ∀ s c d k, d ≠ c → G (s.setCore c k) d = G s d) (l : List CoreId) (hl : l.Nodup) (s : State) :
    l.foldl F s = { s with cores := Vector.ofFn fun c => if c ∈ l then G s c else s.core c } := by
  induction l generalizing s with
  | nil =>
    have hc : (Vector.ofFn fun c : CoreId => s.core c) = s.cores := by ext i hi; simp [State.core]
    simp [hc]
  | cons d l ih =>
    obtain ⟨hd, hl⟩ := List.nodup_cons.1 hl
    rw [List.foldl_cons, ih hl, hF]
    have hc : (fun c => if c ∈ l then G (s.setCore d (G s d)) c else (s.setCore d (G s d)).core c)
        = fun c => if c ∈ d :: l then G s c else s.core c := by
      funext c
      rw [State.core_setCore]
      by_cases hcd : c = d
      · subst hcd
        rw [if_neg hd, if_pos rfl, if_pos List.mem_cons_self]
      · simp only [hG s d c _ hcd, List.mem_cons, hcd, false_or, if_false]
    rw [hc]
    rfl

theorem State.finishCores_eq (s : State) (img : Image) : s.finishCores img =
    { s with cores := Vector.ofFn fun c => if c ∈ img.coreList then (s.core c).afterBoundary s.prog.schedule else s.core c } :=
  State.foldl_setCore (G := fun s c => (s.core c).afterBoundary s.prog.schedule) (fun _ _ => rfl)
    (fun s c d k hd => by rw [State.core_setCore, if_neg hd, State.setCore_prog]) _ img.coreList_nodup s

@[simp] theorem State.finishCores_prog : (s.finishCores img).prog = s.prog := by rw [State.finishCores_eq]

@[simp] theorem State.finishCores_host : (s.finishCores img).host = s.host := by rw [State.finishCores_eq]

theorem Core.afterBoundary_draws (k : Core) (sect : Sect) : (k.afterBoundary sect).draws = k.draws := by
  simp only [Core.afterBoundary, Core.dropArms, Core.clearPinned]

theorem State.core_ofFn (f : CoreId → Core) (c : CoreId) : State.core { s with cores := Vector.ofFn f } c = f c := by
  simp [State.core]

theorem State.finishCores_draws (c : CoreId) : ((s.finishCores img).core c).draws = (s.core c).draws := by
  rw [State.finishCores_eq, State.core_ofFn]
  split
  · exact Core.afterBoundary_draws _ _
  · rfl

end Sys2Proof.Machine
end

