-- ==== Sys2Proof/Proofs/BoundaryWork.lean ====
section
/-!
SUPPORT. The step boundary: what the replay of a step and its commit leave, and where STEP_BOUNDARY does which.
-/

namespace Sys2Proof.Machine

variable {s t : State} {img : Image}

/-! ### Elastic sections (R141) -/

@[simp] theorem State.endElastic_cores (s : State) : s.endElastic.cores = s.cores := by
  unfold State.endElastic
  split
  · rfl
  · split
    · rfl
    · split <;> simp

theorem State.endElastic_prog (s : State) : ∃ h f, s.endElastic.prog = { s.prog with elasticHandle := h, elasticFault := f } := by
  unfold State.endElastic
  split
  · exact ⟨_, _, rfl⟩
  · split
    · exact ⟨_, _, rfl⟩
    · exact ⟨none, none, by split <;> simp⟩

/-- The elastic section begins on one core. -/
def State.beginElastic (s : State) (img : Image) (c : CoreId) : State :=
  if (s.part img c 3).2 = 0 then s
  else (s.modCore c fun k => { k with awl := { k.awl with elastic := ReadAhead.start .elastic } }).modNeedle c fun n =>
    { n with elasticOn := true, elasticPos := 0, sect := .elastic, pos := 0 }

theorem State.beginElastic_prog (c : CoreId) : (s.beginElastic img c).prog = s.prog := by
  unfold State.beginElastic
  split <;> rfl

theorem State.beginElastic_draws (c d : CoreId) : ((s.beginElastic img c).core d).draws = (s.core d).draws := by
  unfold State.beginElastic
  split
  · rfl
  · simp only [State.core_modNeedle, State.core_modCore]
    split
    next h => simp [h]
    · rfl

/-- The section belongs to its handle, and its counters are clear (R141, R151). -/
def State.claimElastic (s : State) (x : Handle) : State :=
  (s.modProg fun p => { p with elasticPending := none, elasticHandle := some x, elasticFault := none, elasticRuns := p.elasticRuns + 1 }).mapCores
    fun k => { k with kettle := Vector.ofFn fun i : Fin 256 => if i.val < 224 then k.kettle[i] else 0 }

theorem State.startElastic_eq (s : State) (img : Image) (x : Handle) :
    s.startElastic img x = (img.coreList.foldl (fun s c => s.beginElastic img c) (s.claimElastic x)).endElastic := rfl

theorem State.startElastic_prog (s : State) (img : Image) (x : Handle) : ∃ h f, (s.startElastic img x).prog =
    { s.prog with elasticPending := none, elasticHandle := h, elasticFault := f, elasticRuns := s.prog.elasticRuns + 1 } := by
  rw [State.startElastic_eq]
  obtain ⟨h, f, he⟩ := State.endElastic_prog (img.coreList.foldl (fun s c => s.beginElastic img c) (s.claimElastic x))
  rw [foldl_keeps State.prog fun s c => State.beginElastic_prog c] at he
  exact ⟨h, f, he⟩

theorem State.startElastic_draws (x : Handle) (c : CoreId) : ((s.startElastic img x).core c).draws = (s.core c).draws := by
  have hcores := State.endElastic_cores (img.coreList.foldl (fun s c => s.beginElastic img c) (s.claimElastic x))
  rw [State.startElastic_eq, State.core, hcores]
  refine (foldl_keeps (fun s : State => (s.core c).draws) (fun s d => State.beginElastic_draws d c) _ _).trans ?_
  rw [State.claimElastic, State.core_mapCores]
  rfl

theorem State.startWaitingElastic_prog (s : State) (img : Image) : ∃ x h f n, (s.startWaitingElastic img).prog =
    { s.prog with elasticPending := x, elasticHandle := h, elasticFault := f, elasticRuns := n } := by
  unfold State.startWaitingElastic
  split
  · split
    · obtain ⟨h, f, he⟩ := s.startElastic_prog img _
      exact ⟨_, _, _, _, he⟩
    · exact ⟨_, _, _, _, rfl⟩
  · exact ⟨_, _, _, _, rfl⟩

theorem State.startWaitingElastic_draws (c : CoreId) : ((s.startWaitingElastic img).core c).draws = (s.core c).draws := by
  unfold State.startWaitingElastic
  split
  · split
    · exact State.startElastic_draws _ c
    · rfl
  · rfl

theorem State.startWaitingElastic_of_pending {x : Handle} (hp : s.prog.elasticPending = some x) (hr : (s.running? x).isSome = true) :
    s.startWaitingElastic img = s.startElastic img x := by
  simp [State.startWaitingElastic, hp, hr]

/-! ### Discard and replay (R18, R209) -/

/-- What a core has once its step is discarded. -/
def Core.discarded (k : Core) (elastic : Fin 16 → Bool) : Core :=
  { k with coll := k.collKept, collNext := [],
           draws := Vector.ofFn fun i : Fin 16 => if elastic i then k.draws[i] else k.drawsSaved[i] }

/-- Whose stream it is stands in device memory and in the endpaper memory of the core. -/
theorem State.elasticStream_congr {c : CoreId} {i : Nat} (hd : t.dram = s.dram) (hv : t.dramEpoch = s.dramEpoch)
    (he : (t.core c).endp = (s.core c).endp) : t.elasticStream img c i = s.elasticStream img c i := by
  simp only [State.elasticStream, State.elasticTemplates, State.template, State.tableEntry, tableStart, tableSizes, State.part, State.word,
    State.dramNat, State.dramRead, Core.readNat, Core.read, Core.mem, hd, hv, he]

theorem State.discardCores_eq (s : State) (img : Image) : img.coreList.foldl (fun s c => s.discardCore img c) s =
    { s with cores := Vector.ofFn fun c =>
        if c ∈ img.coreList then (s.core c).discarded fun i => s.elasticStream img c i.val else s.core c } :=
  State.foldl_setCore (G := fun s c => (s.core c).discarded fun i => s.elasticStream img c i.val) (fun _ _ => rfl)
    (fun s c d k hd => by
      have hk : (s.setCore c k).core d = s.core d := by rw [State.core_setCore, if_neg hd]
      have hs : (fun i : Fin 16 => (s.setCore c k).elasticStream img d i.val) = fun i => s.elasticStream img d i.val :=
        funext fun i => State.elasticStream_congr rfl rfl (by rw [hk])
      rw [hk, hs]) _ img.coreList_nodup s

/-- The events of a replay: collisions and clamps, then STEP_REPLAYED for each fault, or for each failed link (R18, R327). -/
def State.replayEvents (s : State) (img : Image) (failed : List Nat) : State :=
  let t := s.prog.faults.foldl State.raiseReplayed (img.coreList.foldl State.raiseCore s)
  if s.prog.faults = [] then failed.foldl (fun s l => s.raiseReplayed { cause := 0x11, who := l, record := none }) t else t

theorem State.replayEvents_quiet (s : State) (img : Image) (failed : List Nat) : s.Quiet (s.replayEvents img failed) := by
  have ht := (s.raiseCores_quiet img.coreList).trans (.foldl State.raiseReplayed_quiet s.prog.faults _)
  simp only [State.replayEvents]
  split
  · exact ht.trans (.foldl (fun s l => s.raiseReplayed_quiet _) _ _)
  · exact ht

/-- The step with its records, snapshots and draws dropped. -/
def State.stepDropped (s : State) (img : Image) (failed : List Nat) : State :=
  let t := img.coreList.foldl (fun s c => s.discardCore img c) (s.replayEvents img failed)
  t.modProg fun p =>
    { p with discards := t.prog.discards + 1, faults := t.lateFaults img failed ++ p.faultsNext, faultsNext := [], snaps := [],
             closed := false, carrier := [], digestMin := none, digestMax := none, released := false, checkpointWait := false }

theorem State.stepDropped_prog (s : State) (img : Image) (failed : List Nat) : ∃ fs, (s.stepDropped img failed).prog =
    { s.prog with discards := s.prog.discards + 1, faults := fs, faultsNext := [], snaps := [], closed := false, carrier := [],
                  digestMin := none, digestMax := none, released := false, checkpointWait := false } := by
  have hp : (img.coreList.foldl (fun s c => s.discardCore img c) (s.replayEvents img failed)).prog = s.prog := by
    rw [State.discardCores_eq]
    exact (s.replayEvents_quiet img failed).prog
  exact ⟨_, by rw [State.stepDropped, State.modProg_prog, hp]⟩

theorem State.stepDropped_handles (failed : List Nat) : (s.stepDropped img failed).host.handles = s.host.handles := by
  rw [State.stepDropped, State.modProg_host, State.discardCores_eq]
  exact (s.replayEvents_quiet img failed).handles

theorem State.stepDropped_draws {c : CoreId} (hc : c.val < img.cores) (failed : List Nat) : ((s.stepDropped img failed).core c).draws
    = Vector.ofFn fun i : Fin 16 => if s.elasticStream img c i.val then (s.core c).draws[i] else (s.core c).drawsSaved[i] := by
  have hq := s.replayEvents_quiet img failed
  have hk : (s.stepDropped img failed).core c
      = ((s.replayEvents img failed).core c).discarded fun i => (s.replayEvents img failed).elasticStream img c i.val := by
    rw [State.stepDropped, State.discardCores_eq]
    exact (State.core_ofFn (s := s) _ c).trans (if_pos (Image.mem_coreList.2 hc))
  have hs : (fun i : Fin 16 => (s.replayEvents img failed).elasticStream img c i.val) = fun i => s.elasticStream img c i.val :=
    funext fun i => State.elasticStream_congr hq.dram hq.dramEpoch (by rw [hq.core])
  rw [hk, hs, hq.core]
  rfl

/-- No site is retired, and no fourth discard ends the program: the step begins again. -/
theorem State.discardStep_eq (hr : retiring s.prog.faults [] = []) (hn : s.prog.discards < 3) (failed : List Nat) :
    s.discardStep img failed = (((s.stepDropped img failed).switchRoutes img failed).finishCores img).startWaitingElastic img := by
  have hd : (img.coreList.foldl (fun s c => s.discardCore img c) (s.replayEvents img failed)).prog.discards = s.prog.discards := by
    rw [State.discardCores_eq]
    exact congrArg Program.discards (s.replayEvents_quiet img failed).prog
  have he : s.discardStep img failed = (
      let n := (img.coreList.foldl (fun s c => s.discardCore img c) (s.replayEvents img failed)).prog.discards + 1
      let r := (s.stepDropped img failed).retireAll img (retiring s.prog.faults [])
      if !r.2 then r.1.degrade img
      else
        let u := r.1.switchRoutes img failed
        if 4 ≤ n then u.endProgram 0x0209 0 (some u.prog.step.toNat) else (u.finishCores img).startWaitingElastic img) := rfl
  rw [he, hr, hd]
  exact (if_neg (by simp [State.retireAll])).trans (if_neg (by omega))

/-- The step begins again under its number, with one more discard (R18, R19, R266). -/
theorem State.discardStep_prog (hr : retiring s.prog.faults [] = []) (hn : s.prog.discards < 3) (failed : List Nat) :
    let p := (s.discardStep img failed).prog
    p.step = s.prog.step ∧ p.discards = s.prog.discards + 1 ∧ p.released = false ∧ p.snaps = [] := by
  obtain ⟨fs, hp⟩ := s.stepDropped_prog img failed
  obtain ⟨x, h, f, n, he⟩ := (((s.stepDropped img failed).switchRoutes img failed).finishCores img).startWaitingElastic_prog img
  rw [State.finishCores_prog, (State.switchRoutes_quiet _ img failed).prog, hp] at he
  rw [State.discardStep_eq hr hn, he]
  exact ⟨rfl, rfl, rfl, rfl⟩

/-- Its draws begin where they stood at the release (R209). -/
theorem State.discardStep_draws (hr : retiring s.prog.faults [] = []) (hn : s.prog.discards < 3) (failed : List Nat) {c : CoreId}
    (hc : c.val < img.cores) : ((s.discardStep img failed).core c).draws
      = Vector.ofFn fun i : Fin 16 => if s.elasticStream img c i.val then (s.core c).draws[i] else (s.core c).drawsSaved[i] := by
  rw [State.discardStep_eq hr hn, State.startWaitingElastic_draws, State.finishCores_draws, (State.switchRoutes_quiet _ img failed).core,
    State.stepDropped_draws hc]

/-- An elastic section that waits begins there too (R141; log entry 45). -/
theorem State.discardStep_elastic (hr : retiring s.prog.faults [] = []) (hn : s.prog.discards < 3) (failed : List Nat) {x : Handle}
    (hx : s.prog.elasticPending = some x) (hrun : (s.running? x).isSome = true) :
    let p := (s.discardStep img failed).prog
    p.elasticPending = none ∧ p.elasticRuns = s.prog.elasticRuns + 1 := by
  obtain ⟨fs, hp⟩ := s.stepDropped_prog img failed
  have hq := (s.stepDropped img failed).switchRoutes_quiet img failed
  have hprog : (((s.stepDropped img failed).switchRoutes img failed).finishCores img).prog = (s.stepDropped img failed).prog :=
    State.finishCores_prog.trans hq.prog
  have hrun' : ((((s.stepDropped img failed).switchRoutes img failed).finishCores img).running? x).isSome = true := by
    rwa [State.running?_congr ((congrArg HostIf.handles State.finishCores_host).trans (hq.handles.trans (State.stepDropped_handles failed)))]
  obtain ⟨h, f, he⟩ := (((s.stepDropped img failed).switchRoutes img failed).finishCores img).startElastic_prog img x
  rw [State.discardStep_eq hr hn, State.startWaitingElastic_of_pending (by rw [hprog, hp]; exact hx) hrun', he, hprog, hp]
  exact ⟨rfl, rfl⟩

/-! ### Commit (R18) -/

/-- What the work of a commit keeps until its end: the step number and how far a replay goes. -/
def Program.place (p : Program) : W64 × Option W64 := (p.step, p.replayTo)

theorem Program.place_committed (p : Program) (n : Option W64) : Program.place { p with committed := n } = p.place := rfl

theorem Program.place_steer (p : Program) (xs : List Steer) : Program.place { p with steer := xs } = p.place := rfl

theorem State.raiseStep_place (s : State) (code core : Nat) (items : List W32) (r : Option (BitVec 256)) :
    (s.raiseStep code core items r).prog.place = s.prog.place := congrArg Program.place (s.raiseStep_quiet code core items r none).prog

theorem State.foldl_place {α : Type} {f : State → α → State} (hf : ∀ s x, (f s x).prog.place = s.prog.place) (l : List α) (s : State) :
    (l.foldl f s).prog.place = s.prog.place := foldl_keeps (fun s : State => s.prog.place) hf l s

theorem State.raiseHistory_place (s : State) : s.raiseHistory.prog.place = s.prog.place := by
  simp only [State.raiseHistory]
  split
  · rfl
  · exact State.raiseStep_place _ _ _ _ _

theorem State.raiseSteer_place (s : State) (e : SteerEvent) : (s.raiseSteer e).prog.place = s.prog.place := by
  cases e <;> exact State.raiseStep_place _ _ _ _ _

theorem State.raiseCountSat_place (s : State) (rs : List CollRec) : (s.raiseCountSat rs).prog.place = s.prog.place :=
  State.foldl_place (fun _ _ => State.raiseStep_place _ _ _ _ _) _ s

theorem State.commitSteering_place (s : State) (img : Image) : (s.commitSteering img).prog.place = s.prog.place := by
  have hc : (((s.writeCollationHalf img s.groupOf).modProg fun p => { p with groupRecs := s.groupOf }).raiseCountSat s.groupOf).prog.place
      = s.prog.place := State.raiseCountSat_place _ _
  simp only [State.commitSteering]
  split
  · rw [State.raiseHistory_place, State.raiseStep_place, hc]
  · split
    · rw [State.raiseHistory_place, State.modProg_prog, Program.place_steer, hc]
    · rw [State.raiseHistory_place, State.foldl_place State.raiseSteer_place, State.modProg_prog, Program.place_steer,
        State.foldl_place fun _ _ => State.raiseStep_place _ _ _ _ _, hc]

@[simp] theorem State.emit_prog (s : State) (lane : Option LaneId) (vc : BitVec 2) (timed : Bool) (src : BitVec 16) (seq : W32) (flits : Nat)
    (transit : Option Transfer) (header : BitVec 512) (m : Msg) : (s.emit lane vc timed src seq flits transit header m).prog = s.prog := by
  cases lane with
  | none =>
    simp only [State.emit]
    split <;> rfl
  | some l => rfl

@[simp] theorem State.sendAs_prog (s : State) (dst : BitVec 16) (seq : W32) (escape : Bool) (m : Msg) :
    (s.sendAs dst seq escape m).prog = s.prog := by
  simp only [State.sendAs]
  split
  · rfl
  · rw [State.emit_prog]

@[simp] theorem State.sendDyn_prog (s : State) (dst : BitVec 16) (i : Initiator) (m : Msg) : (s.sendDyn dst i m).prog = s.prog := by
  simp only [State.sendDyn]
  split
  · rfl
  · rw [State.modFab_prog, State.sendAs_prog]

theorem State.copyRegion_prog (s : State) (e : Nat) : (s.copyRegion e).prog = s.prog := by
  have hu : ∀ (s : State) (u : Nat), (s.poisonUnit (u - regSrc e / 256 + regDst e / 256)).prog = s.prog := fun s u => by
    unfold State.poisonUnit
    split <;> rfl
  exact (foldl_keeps State.prog hu _ _).trans (State.dramWrite_prog _ _ _)

theorem State.shipSet_prog (s : State) (img : Image) (dst : BitVec 16) (set : Nat) (step : W64) :
    (s.shipSet img dst set step).prog = s.prog := foldl_keeps State.prog (fun _ _ => State.sendDyn_prog _ _ _ _) _ _

theorem State.copySet_place (s : State) (img : Image) (r : SnapReq) : (s.copySet img r).prog.place = s.prog.place := by
  have hc : ((s.setRegions img r.set).foldl State.copyRegion s).prog = s.prog := foldl_keeps State.prog State.copyRegion_prog _ s
  have hp := congrArg Program.place hc
  simp only [State.copySet]
  split
  · split
    · rw [State.shipSet_prog]
      exact hp
    · exact hp
  · exact hp

theorem State.takeSnapshots_place (s : State) (img : Image) : (s.takeSnapshots img).prog.place = s.prog.place := by
  have hd := State.foldl_place (fun s r => State.copySet_place s img r) (s.dueSnaps img) s
  simp only [State.takeSnapshots]
  split
  · exact hd
  · split
    · rw [State.modProg_prog, State.sendDyn_prog]
      exact hd
    · exact hd

theorem State.showRoles_prog (s : State) : s.showRoles.prog = s.prog := by
  simp only [State.showRoles]
  split <;> rfl

theorem State.moveCore_prog (s : State) (img : Image) (c : CoreId) (g : SiteId) : (s.moveCore img c g).prog = s.prog :=
  State.showRoles_prog _

theorem State.rotate_place (s : State) (img : Image) : (s.rotate img).prog.place = s.prog.place := by
  simp only [State.rotate]
  split
  · rfl
  · split
    · rw [State.modProg_prog, State.showRoles_prog, State.modSite_prog, State.moveCore_prog]
      rfl
    · rfl

theorem State.countService_prog (s : State) : s.countService.prog = s.prog :=
  foldl_keeps State.prog (fun _ _ => State.modSite_prog _ _ _) _ s

theorem State.ite_place {p : Prop} [Decidable p] {q : W64 × Option W64} (hs : s.prog.place = q) (ht : t.prog.place = q) :
    (if p then s else t).prog.place = q := by
  split <;> assumption

theorem State.wakeWaiters_place (s : State) : s.wakeWaiters.prog.place = s.prog.place := by
  refine State.foldl_place (fun t x => ?_) _ s
  split
  · refine State.ite_place ?_ rfl
    rw [State.modProg_prog, State.complete_prog]
    rfl
  · rfl

theorem State.mirrorStep_place (s : State) (img : Image) : (s.mirrorStep img).prog.place = s.prog.place := by
  have hsend : ∀ (p : Prop) [Decidable p] (dst : BitVec 16) (i : Initiator) (m : Msg),
      (if p then s else s.sendDyn dst i m).prog.place = s.prog.place :=
    fun _ _ _ _ _ => State.ite_place rfl (congrArg Program.place (State.sendDyn_prog _ _ _ _))
  simp only [State.mirrorStep]
  split
  · rfl
  · split
    · exact hsend _ _ _ _
    · refine State.ite_place (State.ite_place (hsend _ _ _ _) ?_) (hsend _ _ _ _)
      exact (State.raiseStep_place _ _ _ _ _).trans (hsend _ _ _ _)

theorem State.sleepCores_prog (s : State) (img : Image) : (s.sleepCores img).prog = s.prog := by
  simp only [State.sleepCores]
  split
  · rfl
  · exact foldl_keeps State.prog (fun _ _ => State.modCore_prog _ _ _) _ s

/-- The decisions of a commit, its copies and its rotation (R18, R127, R156, R240). -/
def State.commitDecided (s : State) (img : Image) : State :=
  ((((img.coreList.foldl State.raiseCore s).commitSteering img).takeSnapshots img).rotate img).countService

/-- The commit itself, the commands that wait for it and the record of it (R18, R297, R325). -/
def State.commitNoted (s : State) (img : Image) : State :=
  let n := s.prog.step
  let s := s.modProg fun p =>
    { p with committed := if p.committed.elim true (fun m => decide (m.toNat ≤ n.toNat)) then some n else p.committed }
  (s.modHost fun h => { h with stepDone := BitVec.ofNat 64 s.lastStep }).wakeWaiters.mirrorStep img

theorem State.commitDecided_place (s : State) (img : Image) : (s.commitDecided img).prog.place = s.prog.place := by
  rw [State.commitDecided, State.countService_prog, State.rotate_place, State.takeSnapshots_place, State.commitSteering_place,
    (s.raiseCores_quiet img.coreList).prog]

theorem State.commitNoted_place (s : State) (img : Image) : (s.commitNoted img).prog.place = s.prog.place := by
  rw [State.commitNoted, State.mirrorStep_place, State.wakeWaiters_place, State.modHost_prog, State.modProg_prog, Program.place_committed]

theorem State.replayDiffers_of_free (h : s.prog.replayTo = none) : s.replayDiffers = none := by
  rw [State.replayDiffers, if_pos (by simp [h])]

/-- The step is over, and the next one has its number (R18, R262). -/
def State.stepCommitted (s : State) (img : Image) (n : W64) (wasWarm : Bool) : State :=
  s.modProg fun p =>
    { p with discards := 0, faults := (if 1 < img.bounds.devices then p.faults else []) ++ p.faultsNext, faultsNext := [],
             snaps := [], closed := false, carrier := [], digestMin := none, digestMax := none, released := false,
             checkpointWait := false, coldLeft := p.coldLeft - 1, lastCold := !wasWarm, step := n + 1,
             replayTo := if p.replayTo = some n ∧ !p.recovering then none else p.replayTo }

/-- The late observations of the step are the first of the next one (R115). -/
def State.lateKept (s : State) (img : Image) : State :=
  img.coreList.foldl (fun s c => s.modCore c fun k => { k with coll := k.collNext, collKept := k.collNext, collNext := [] }) s

theorem State.lateKept_prog (s : State) (img : Image) : (s.lateKept img).prog = s.prog :=
  foldl_keeps State.prog (fun _ _ => State.modCore_prog _ _ _) _ s

/-- Without a recovery that replays, nothing keeps the committed step from being followed by the next one (R18, R302). -/
theorem State.commitStep_of_free (failed : List Nat) (hr : s.prog.replayTo = none) : s.commitStep img failed =
    ((((((s.commitDecided img).commitNoted img).switchRoutes img failed).stepCommitted img s.prog.step (s.commitDecided img).prog.warm).lateKept
      img).finishCores img).sleepCores img := by
  have hstep : (s.commitDecided img).prog.step = s.prog.step := congrArg Prod.fst (s.commitDecided_place img)
  have hplace : ((s.commitDecided img).commitNoted img).prog.place = s.prog.place :=
    (State.commitNoted_place _ img).trans (s.commitDecided_place img)
  have hdiff : ((s.commitDecided img).commitNoted img).replayDiffers = none :=
    State.replayDiffers_of_free ((congrArg Prod.snd hplace).trans hr)
  have he : s.commitStep img failed = (
      let u := (s.commitDecided img).commitNoted img
      match u.replayDiffers with
      | some d => u.endRecovery 0x020C [u.prog.digest, d]
      | none => ((((u.switchRoutes img failed).stepCommitted img (s.commitDecided img).prog.step (s.commitDecided img).prog.warm).lateKept
          img).finishCores img).sleepCores img) := rfl
  rw [he, hstep]
  simp only [hdiff]

/-- Without a recovery that replays, a commit goes on to the next step (R18). -/
theorem State.commitStep_prog (failed : List Nat) (hr : s.prog.replayTo = none) :
    let p := (s.commitStep img failed).prog
    p.step = s.prog.step + 1 ∧ p.discards = 0 ∧ p.released = false ∧ p.snaps = [] := by
  rw [State.commitStep_of_free failed hr, State.sleepCores_prog, State.finishCores_prog, State.lateKept_prog, State.stepCommitted,
    State.modProg_prog]
  exact ⟨rfl, rfl, rfl, rfl⟩

end Sys2Proof.Machine
end

