-- ==== Sys2Proof/Proofs/StepBoundaries.lean ====
section
/-!
SUPPORT. What STEP_BOUNDARY does, one lemma per outcome.
-/

namespace Sys2Proof.Machine

variable {s : State} {img : Image}

/-- What a core has once its prologue is over (R140, R151). -/
def Core.pastPrologue (k : Core) (sect : Sect) : Core :=
  let k := k.clearPinned
  { k with awl := { k.awl with pinned := ReadAhead.start sect }, needle := { k.needle with sect := sect, pos := 0 } }

theorem Core.pastPrologue_eq (k : Core) (sect : Sect) : k.pastPrologue sect =
    { k with kettle := Vector.ofFn fun (i : Fin 256) => if i.val < 224 then 0 else k.kettle[i],
             awl := { k.awl with pinned := ReadAhead.start sect }, needle := { k.needle with sect := sect, pos := 0 } } := by
  simp only [Core.pastPrologue, Core.clearPinned]

theorem State.endPrologue_eq (s : State) (img : Image) : s.endPrologue img =
    { s with cores := Vector.ofFn fun (c : CoreId) =>
               if c.val < img.cores then (s.core c).pastPrologue s.prog.schedule else s.core c,
             prog := { s.prog with phase := .steps } } := by
  have hf := State.foldl_setCore (F := fun s c => s.modCore c (·.pastPrologue s.prog.schedule))
    (G := fun s c => (s.core c).pastPrologue s.prog.schedule) (fun _ _ => rfl)
    (fun s c d k hd => by rw [State.core_setCore, if_neg hd, State.setCore_prog]) _ img.coreList_nodup s
  have he : s.endPrologue img = (img.coreList.foldl (fun s c => s.modCore c (·.pastPrologue s.prog.schedule)) s).modProg fun p =>
      { p with phase := .steps } := rfl
  rw [he, hf]
  simp only [Image.mem_coreList, State.modProg]

/-- The step in progress has reached its boundary: its cores, signals and transfers are done, and in a domain its vote is in (R18, R262). -/
def State.atBoundary (s : State) (img : Image) : Prop :=
  s.prog.released = true ∧ s.cad.hold = false ∧ s.clk.lost = false ∧ s.clk.returning = false
    ∧ s.stepComplete img = true ∧ (1 < img.bounds.devices → s.voteComplete img = true)

section
variable (ha : s.prog.active = some img) (hd : img.direct = false)

include ha hd

/-- Every core has ended its prologue: the schedules begin. -/
theorem execStepBoundary_of_prologue (hp : s.prog.phase = .prologue)
    (hc : ∀ c, c.val < img.cores → (s.core c).needle.sect = .done ∧ (s.core c).quietSignals = true) :
    execStepBoundary s = .next (s.endPrologue img) := by
  have hall : (img.coreList.all fun c => (s.core c).needle.sect == .done && (s.core c).quietSignals) = true := by
    rw [List.all_eq_true]
    intro c hmem
    obtain ⟨hsect, hquiet⟩ := hc c (Image.mem_coreList.1 hmem)
    simp [hsect, hquiet]
  simp only [execStepBoundary, ha]
  rw [if_neg (by simp [hd]), if_pos hp, if_pos hall]

section
variable (hp : s.prog.phase = .steps)

include hp

theorem execStepBoundary_of_early (hb : ¬ s.atBoundary img) : execStepBoundary s = .next s := by
  simp only [execStepBoundary, ha]
  rw [if_neg (by simp [hd]), if_neg (by simp [hp]), if_pos]
  by_contra hn
  refine hb ?_
  simpa [State.atBoundary, hp] using hn

theorem execStepBoundary_of_reached (hb : s.atBoundary img) : execStepBoundary s =
    if s.faulted img then .next (s.discardStep img (s.failedLinks img))
    else match s.waitingSet img with
      | some k => .next (s.raiseWait k)
      | none => .next (((s.commitStep img (s.failedLinks img)).boundaryActs s.prog.step.toNat).beginRejoin img) := by
  obtain ⟨hrel, hhold, hlost, hret, hdone, hvote⟩ := hb
  simp only [execStepBoundary, ha]
  rw [if_neg (by simp [hd]), if_neg (by simp [hp])]
  exact if_neg (by simpa [hp, hrel, hhold, hlost, hret, hdone] using hvote)

end

end

end Sys2Proof.Machine

open Sys2Proof Sys2Proof.Machine

/-- Settles O47: each outcome of STEP_BOUNDARY, and what a commit and a discard leave. -/
theorem stepBoundaries : Obligations.StepBoundaries := by
  intro img s ha hd ready n links
  refine ⟨fun hp hc => ?_, fun hp hb hf => ?_, fun hp hb hf => ⟨fun k hk => ?_, fun hk => ?_⟩, execStepBoundary_of_early ha hd,
    fun hr => State.commitStep_prog links hr, fun hr hn => ?_, fun x hr hn => State.discardStep_elastic hr hn links⟩
  · refine (execStepBoundary_of_prologue ha hd hp hc).trans (congrArg Host.Outcome.next ?_)
    rw [State.endPrologue_eq]
    simp only [Core.pastPrologue_eq]
  · exact (execStepBoundary_of_reached ha hd hp hb).trans (if_pos hf)
  · refine (execStepBoundary_of_reached ha hd hp hb).trans ?_
    rw [if_neg (by simp [hf]), hk]
  · refine (execStepBoundary_of_reached ha hd hp hb).trans ?_
    rw [if_neg (by simp [hf]), hk]
  · obtain ⟨hstep, hcount, hrel, hsnaps⟩ := State.discardStep_prog (img := img) hr hn links
    exact ⟨hstep, hcount, hrel, hsnaps, fun c hc => State.discardStep_draws hr hn links hc⟩
end

