-- ==== Sys2Proof/Proofs/CellProducts.lean ====
section
/-!
SUPPORT. The entries of the two kinds of leaf, and what a cell reads of them.
-/

namespace Sys2Proof.Machine

/-! ### Nibbles over odd multiples (R36, R56) -/

theorem leafOfOdds_eq_map (a : Int) : leafOfOdds a = (List.range 8).map fun e : Nat => (2 * (e : Int) + 1) * a := rfl

theorem at0_leafOfOdds (a : Int) {e : Nat} (he : e < 8) : at0 (leafOfOdds a) e = (2 * (e : Int) + 1) * a := by
  simp [at0, leafOfOdds_eq_map, he]

theorem trailingZeros_odd_mul_two_pow {o : Nat} (ho : o % 2 = 1) : ∀ {n s : Nat}, s < n → trailingZeros n (o * 2 ^ s) = s
  | n + 1, 0, _ => by simp [trailingZeros, ho]
  | n + 1, s + 1, hs => by
    have hdouble : o * 2 ^ (s + 1) = 2 * (o * 2 ^ s) := by ring
    rw [trailingZeros, hdouble, if_neg (by omega), Nat.mul_div_cancel_left _ (by decide),
      trailingZeros_odd_mul_two_pow ho (Nat.lt_of_succ_lt_succ hs), Nat.add_comm]

/-- The cell reads the entry of the odd part of its nibble and shifts it by the nibble's trailing zeros (R36). -/
theorem nibbleTimes_odd_mul_two_pow (leaf : Leaf) {o s : Nat} (ho : o % 2 = 1) (hs : s < 4) :
    nibbleTimes leaf (o * 2 ^ s) = at0 leaf ((o - 1) / 2) * 2 ^ s := by
  have hne : o * 2 ^ s ≠ 0 := Nat.mul_ne_zero (by omega) (by positivity)
  simp only [nibbleTimes, if_neg hne, trailingZeros_odd_mul_two_pow ho hs]
  rw [Nat.mul_div_cancel _ (by positivity)]

/-! ### Sums of four (R26, R27) -/

/-- The sign with which an index takes an element: plus where its bit is 1 (R27). -/
def signAt (idx j : Nat) : Int := if idx.testBit j then 1 else -1

theorem at0_leafOfSums (a0 a1 a2 a3 : Int) {e : Nat} (he : e < 8) :
    at0 (leafOfSums a0 a1 a2 a3) e = a3 + signAt e 2 * a2 + signAt e 1 * a1 + signAt e 0 * a0 := by
  simp [at0, leafOfSums, he, bitOf_eq_testBit, signAt]

theorem signAt_eight_add (e : Nat) {j : Nat} (hj : j < 3) : signAt (8 + e) j = signAt e j := by
  rw [signAt, signAt, show 8 = 2 ^ 3 from rfl, Nat.testBit_two_pow_add_gt hj]

/-- Inverting an index of three bits negates its signs. -/
theorem signAt_seven_sub {e j : Nat} (he : e < 8) (hj : j < 3) : signAt (7 - e) j = -signAt e j := by
  have hbit : (7 - e).testBit j = !e.testBit j := by
    rw [show 7 - e = 2 ^ 3 - (e + 1) by omega, Nat.testBit_two_pow_sub_succ he]
    simp [hj]
  cases hb : e.testBit j <;> simp [signAt, hbit, hb]

/-- Bit 3 set: the entry of the low three bits (R27). -/
theorem lookUp_eight_add (leaf : Leaf) (e : Nat) : lookUp leaf (8 + e) = at0 leaf e := by
  simp [lookUp]

/-- Bit 3 clear: the negated entry of their inversion (R27). -/
theorem lookUp_of_lt (leaf : Leaf) {e : Nat} (he : e < 8) : lookUp leaf e = -at0 leaf (7 - e) := by
  rw [lookUp, if_neg (by omega)]

end Sys2Proof.Machine

open Sys2Proof Sys2Proof.Machine

/-- Settles O9: the cell reads the entry of the odd part, and entry (o - 1) / 2 is the odd multiple itself. -/
theorem nibbleProduct : Obligations.NibbleProduct := by
  refine fun a => ⟨rfl, fun d _ hd o s hdo ho => ?_⟩
  obtain rfl := hdo
  have hs : s < 4 := by
    by_contra! h4
    have hpow : 2 ^ 4 ≤ 2 ^ s := Nat.pow_le_pow_right (by decide) h4
    have hmul : 2 ^ s ≤ o * 2 ^ s := Nat.le_mul_of_pos_left _ (by omega)
    omega
  have ho8 : (o - 1) / 2 < 8 := by
    have hmul : o ≤ o * 2 ^ s := Nat.le_mul_of_pos_right _ (by positivity)
    omega
  have hodd : 2 * (((o - 1) / 2 : Nat) : Int) + 1 = o := by omega
  have hread := nibbleTimes_odd_mul_two_pow (leafOfOdds a) ho hs
  refine ⟨hread, ?_⟩
  calc nibbleTimes (leafOfOdds a) (o * 2 ^ s)
      = (2 * (((o - 1) / 2 : Nat) : Int) + 1) * a * 2 ^ s := by rw [hread, at0_leafOfOdds a ho8]
    _ = ((o * 2 ^ s : Nat) : Int) * a := by rw [hodd]; push_cast; ring

/-- Settles O10: an index is 8 and three bits more, or three bits alone, which the cell inverts. -/
theorem tableLookUp : Obligations.TableLookUp := by
  intro a0 a1 a2 a3 idx hidx sgn leaf
  change lookUp leaf idx = signAt idx 0 * a0 + signAt idx 1 * a1 + signAt idx 2 * a2 + signAt idx 3 * a3 ∧ _
  rcases Nat.lt_or_ge idx 8 with hlt | hge
  · have h3 : idx.testBit 3 = false := Nat.testBit_lt_two_pow hlt
    have hs3 : signAt idx 3 = -1 := by simp [signAt, h3]
    rw [lookUp_of_lt leaf hlt, h3, Nat.mod_eq_of_lt hlt]
    refine ⟨?_, rfl⟩
    rw [at0_leafOfSums a0 a1 a2 a3 (e := 7 - idx) (by omega), signAt_seven_sub hlt (by decide), signAt_seven_sub hlt (by decide),
      signAt_seven_sub hlt (by decide), hs3]
    ring
  · obtain ⟨e, rfl⟩ := Nat.exists_eq_add_of_le hge
    have he : e < 8 := by omega
    have h3 : (8 + e).testBit 3 = true := by
      rw [show 8 = 2 ^ 3 from rfl, Nat.testBit_two_pow_add_eq, Nat.testBit_lt_two_pow he]
      rfl
    have hs3 : signAt (8 + e) 3 = 1 := by simp [signAt, h3]
    rw [lookUp_eight_add, h3, Nat.add_mod_left, Nat.mod_eq_of_lt he]
    refine ⟨?_, rfl⟩
    rw [at0_leafOfSums a0 a1 a2 a3 he, signAt_eight_add e (by decide), signAt_eight_add e (by decide), signAt_eight_add e (by decide), hs3]
    ring
end

