-- ==== Sys2Proof/Proofs/DirectWords.lean ====
section
/-!
SUPPORT. What the words DT_LOAD, DT_PASS, DT_PLOUGH and DT_MOVE of a direct program do, one lemma per outcome.
-/

namespace Sys2Proof.Machine

variable {s : State} {img : Image} {c : CoreId} {no w : Nat}

/-- The word is taken, and the core changes further. -/
theorem State.takeWord_modCore (f : Core → Core) : (s.takeWord c).modCore c f = s.setCore c (f (s.core c).takeWord) :=
  State.modCore_modCore s c Core.takeWord f

/-- What a core observes leaves its Press as it is (R110). -/
theorem Core.observeLoad_press (k : Core) (closed : Bool) (layer roleR : Nat) (res : Resident) :
    (k.observeLoad closed layer roleR res).press = k.press := by
  rw [Core.observeLoad]
  induction res.cols generalizing k with
  | nil => rfl
  | cons w ws ih => rw [List.foldl_cons, ih, Core.observe_press]

/-! ### DT_LOAD (R22, R81, R157) -/

/-- The columns that a DT_LOAD reads, or the data that fails its check. -/
def State.directColumns (s : State) (w : Nat) : Except HaltAt (List ColWords × List (Nat × Nat)) :=
  loadColumns ((modeOf (fld w 16 4)).getD .t1) ((fmtOf (fld w 24 3)).getD .e4m3) (bitOf w 8) (s.readDirect (fld w 64 52)) 0
    (64 * fld w 116 12) (fld w 40 12) (List.range (fld w 32 8))

/-- The resident operand that a DT_LOAD makes of its columns. -/
def directResident (w : Nat) (cols : List ColWords) : Resident :=
  { mode := (modeOf (fld w 16 4)).getD .t1, rfmt := (fmtOf (fld w 24 3)).getD .e4m3, kValid := fld w 40 12, cols := cols }

theorem execDtLoad_of_halted (h : s.atWord img c no w) (hop : wOp w = 0x60) (hh : (((s.awlReads c).core c).strm 0).halted ≠ none) :
    execDtLoad c s = .next (s.awlReads c) := by
  rw [execDtLoad, needleDo_at h hop, if_pos (Option.isSome_iff_ne_none.2 hh)]

theorem execDtLoad_of_ok {cols : List ColWords} {keys : List (Nat × Nat)} (h : s.atWord img c no w) (hop : wOp w = 0x60)
    (hh : (((s.awlReads c).core c).strm 0).halted = none) (hl : (s.awlReads c).directColumns w = .ok (cols, keys)) :
    let t := s.awlReads c
    let past := (t.core c).takeWord
    execDtLoad c s = .next (t.setCore c
      { past with press := { past.press with
          shadow := directResident w cols, ready := true, pendingObs := some (directResident w cols), loaded := true } }) := by
  rw [State.directColumns] at hl
  rw [execDtLoad, needleDo_at h hop, if_neg (by simp [hh])]
  simp only [hl, State.takeWord_modCore]
  rfl

theorem execDtLoad_of_error {e : HaltAt} (h : s.atWord img c no w) (hop : wOp w = 0x60)
    (hh : (((s.awlReads c).core c).strm 0).halted = none) (hl : (s.awlReads c).directColumns w = .error e) :
    execDtLoad c s = .next ((s.awlReads c).haltStream c 0 false e) := by
  rw [State.directColumns] at hl
  rw [execDtLoad, needleDo_at h hop, if_neg (by simp [hh])]
  simp only [hl, State.directHalt]

/-! ### DT_PASS (R22, R68, R157, R158) -/

/-- The pass that a DT_PASS begins in a pass-state set, on the words `r`. -/
def directPass (no w : Nat) (sel : Bool) (r : Resident) : ActivePass :=
  { sel := sel, mode := r.mode, sfmt := (sfmtOf (fld w 29 3)).getD .e4m3, base := fld w 32 23, pitch := 64 * fld w 56 16,
    kValid := r.kValid, rows := fld w 16 8, next := 0, accumulate := bitOf w 8, accRow := 128 * fld w 24 5, layer := fld w 72 16,
    roleS := BitVec.ofNat 2 (fld w 88 2), roleR := BitVec.ofNat 2 (fld w 90 2), lastOfRun := true, serial := no }

/-- A core past its DT_PASS, with the load before it observed under the layer that the word names (R158). -/
def Core.passObserved (k : Core) (closed : Bool) (w : Nat) : Core :=
  match k.press.pendingObs with
  | some o => k.takeWord.observeLoad closed (fld w 72 16) (fld w 90 2) o
  | none => k.takeWord

theorem Core.passObserved_press (k : Core) (closed : Bool) (w : Nat) : (k.passObserved closed w).press = k.press := by
  rw [Core.passObserved]
  split
  · exact Core.observeLoad_press _ _ _ _ _
  · rfl

/-- The Press with its words exchanged when a DT_LOAD has come (R22, R157). -/
def Press.exchangeLoaded (p : Press) : Press := if p.ready then p.exchange else p

/-- A core whose DT_PASS begins a pass in a pass-state set, its Press being `q` once the load is observed. -/
def Core.beginPass (k : Core) (closed : Bool) (no w : Nat) (sel : Bool) (q : Press) : Core :=
  { k.passObserved closed w with
    press := { (q.exchangeLoaded.putSet sel (some k.press.words)) with
      pendingObs := none, pass := some (directPass no w sel k.press.words) } }

theorem execDtPass_of_free {sel : Bool} (h : s.atWord img c no w) (hop : wOp w = 0x61)
    (hf : ((s.awlReads c).core c).press.freeSet = some sel) (hp : ((s.awlReads c).core c).press.pass = none) :
    let t := s.awlReads c
    execDtPass c s = .next (t.setCore c ((t.core c).beginPass t.prog.closed no w sel (t.core c).press)) := by
  intro t
  have hpress : ((t.core c).passObserved t.prog.closed w).press = (t.core c).press := Core.passObserved_press ..
  rw [execDtPass, needleDo_at h hop]
  simp only [hf]
  rw [if_neg (by simp [hp]), State.takeWord_modCore]
  exact congrArg (fun q => Host.Outcome.next (t.setCore c ((t.core c).beginPass t.prog.closed no w sel q))) hpress

theorem execDtPass_of_busy (h : s.atWord img c no w) (hop : wOp w = 0x61)
    (hb : ((s.awlReads c).core c).press.pass.isSome = true ∨ ((s.awlReads c).core c).press.freeSet = none) :
    execDtPass c s = .next (s.awlReads c) := by
  rw [execDtPass, needleDo_at h hop]
  cases hf : ((s.awlReads c).core c).press.freeSet with
  | none => simp only [hf]
  | some sel =>
    simp only [hf]
    rw [if_pos (hb.resolve_right (by simp [hf]))]

/-! ### DT_PLOUGH (R157, R193) -/

theorem execDtPlough_of_idle (h : s.atWord img c no w) (hop : wOp w = 0x62) (hq : ((s.awlReads c).core c).plough.queue = []) :
    let t := s.awlReads c
    execDtPlough c s = .next (t.setCore c
      { (t.core c).takeWord with
        plough := { (t.core c).plough with
          queue := [{ template := 0xFF, next := 0, total := 1, serial := no, layer := 0xFFFF, elastic := false }],
          direct := true, accSlot := fld w 32 5 }.start (fld w 16 12) 0 0 (65536 * fld w 32 5) (fld w 64 64) }) := by
  rw [execDtPlough, needleDo_at h hop, if_neg (by simp [hq]), State.modPl, State.takeWord_modCore]
  rfl

theorem execDtPlough_of_running (h : s.atWord img c no w) (hop : wOp w = 0x62) (hq : ((s.awlReads c).core c).plough.queue ≠ []) :
    execDtPlough c s = .next (s.awlReads c) := by
  rw [execDtPlough, needleDo_at h hop, if_pos hq]

/-! ### DT_MOVE (R157, R170, R186) -/

theorem execDtMove_of_halted (h : s.atWord img c no w) (hop : wOp w = 0x63) (hh : (((s.awlReads c).core c).strm 0).halted ≠ none) :
    execDtMove c s = .next (s.awlReads c) := by
  rw [execDtMove, needleDo_at h hop]
  exact congrArg Host.Outcome.next (if_pos (Option.isSome_iff_ne_none.2 hh))

/-- Quire words without error are copied to device memory. -/
theorem execDtMove_toDram (h : s.atWord img c no w) (hop : wOp w = 0x63) (hh : (((s.awlReads c).core c).strm 0).halted = none)
    (hb : bitOf w 8 = true) (hm : ((s.awlReads c).core c).marksIn .quire (fld w 32 23) (64 * fld w 16 16) = []) :
    let t := s.awlReads c
    execDtMove c s = .next
      ((t.dramWrite (fld w 64 52) ((t.core c).read .quire (fld w 32 23) (64 * fld w 16 16))).setCore c (t.core c).takeWord) := by
  have hactive : (s.awlReads c).prog.active ≠ none := by simp [State.awlReads_prog, h.1]
  rw [execDtMove, needleDo_at h hop]
  simp only [State.touch_none 1 hm]
  rw [if_neg (by simp [hh]), if_pos hb, if_neg hactive]
  rfl

theorem execDtMove_fromDram {l : Landing} (h : s.atWord img c no w) (hop : wOp w = 0x63)
    (hh : (((s.awlReads c).core c).strm 0).halted = none) (hb : bitOf w 8 = false)
    (hl : (s.awlReads c).readDirect (fld w 64 52) 0 (64 * fld w 16 16) = .ok l) :
    let t := s.awlReads c
    execDtMove c s = .next (t.setCore c ((t.core c).store .quire (fld w 32 23) l.bytes).takeWord) := by
  rw [execDtMove, needleDo_at h hop]
  simp only [hl]
  rw [if_neg (by simp [hh]), if_neg (by simp [hb])]
  exact congrArg Host.Outcome.next (State.modCore_modCore ..)

theorem execDtMove_of_error {e : HaltAt} (h : s.atWord img c no w) (hop : wOp w = 0x63)
    (hh : (((s.awlReads c).core c).strm 0).halted = none) (hb : bitOf w 8 = false)
    (hl : (s.awlReads c).readDirect (fld w 64 52) 0 (64 * fld w 16 16) = .error e) :
    execDtMove c s = .next ((s.awlReads c).haltStream c 0 false e) := by
  rw [execDtMove, needleDo_at h hop]
  simp only [hl]
  rw [if_neg (by simp [hh]), if_neg (by simp [hb]), State.directHalt]

end Sys2Proof.Machine

open Sys2Proof Sys2Proof.Machine

/-- Settles O11, one lemma per word and outcome. -/
theorem directWords : Obligations.DirectWords := by
  intro img c no w s h t k past load q a len
  exact ⟨fun _ _ => execDtLoad_of_ok h, fun _ => execDtLoad_of_error h, fun _ => execDtPass_of_free h, execDtPass_of_busy h,
    execDtPlough_of_idle h, execDtPlough_of_running h, execDtMove_toDram h, fun _ => execDtMove_fromDram h,
    fun _ => execDtMove_of_error h, fun hh => ⟨fun hop => execDtLoad_of_halted h hop hh, fun hop => execDtMove_of_halted h hop hh⟩⟩
end

