-- ==== Sys2Proof/Proofs/PressPasses.lean ====
section
/-!
SUPPORT. What SHADOW_LOAD_COMPLETE and PASS_EXCHANGE do, one lemma per outcome.
-/

namespace Sys2Proof.Machine

variable {s : State} {img : Image} {c : CoreId} {j : PressJob}

/-- Reading on leaves the clocks as they are, and with them whether a core may issue. -/
theorem State.awlReads_issuing (s : State) (c : CoreId) : (s.awlReads c).issuing = s.issuing := by
  simp only [State.awlReads]
  split
  · rfl
  · split <;> rfl

/-! ### SHADOW_LOAD_COMPLETE (R22, R81, R110, R165, R171) -/

theorem execShadowLoadComplete_of_noLoad (ha : s.prog.active = some img) (ho : (s.awlReads c).openLoad img c = none) :
    execShadowLoadComplete c s = .next (s.awlReads c) := by
  simp only [execShadowLoadComplete, State.awlReads_prog, ha, ho]

/-- The columns of a pass as they have come, or the data that fails its check. -/
def State.passColumns (s : State) (img : Image) (c : CoreId) (p : PassPlan) : Except HaltAt (List ColWords × List (Nat × Nat)) :=
  loadColumns p.mode p.rfmt p.transposed
    (s.readLanding img ((s.core c).strm p.resStream) (s.streamEntry img c p.resStream)) p.wAddr p.stride p.kValid (List.range p.cols)

/-- The resident operand of a pass. -/
def PassPlan.resident (p : PassPlan) (cols : List ColWords) : Resident :=
  { mode := p.mode, rfmt := p.rfmt, kValid := p.kValid, cols := cols }

/-- A core with the load of a pass landed, and observed when it is loaded for the first time (R110, R170). -/
def Core.loadLanded (k : Core) (closed : Bool) (j : PressJob) (p : PassPlan) (res : Resident) (keys : List (Nat × Nat)) : Core :=
  let k' := if j.nextLoad < j.seen then k.land p.resStream keys else (k.land p.resStream keys).observeLoad closed p.layer p.roleR res
  k'.modStrm p.resStream fun x => { x with buffer := [] }

/-- The Press with the shadow words of its next load whole (R22). -/
def Press.shadowWhole (q : Press) (j : PressJob) (res : Resident) : Press :=
  { q with
    shadow := res, ready := true,
    queue := modJob j.serial (fun j => { j with nextLoad := j.nextLoad + 1, seen := max j.seen (j.nextLoad + 1) }) q.queue }

section
variable {p : PassPlan} (ha : s.prog.active = some img) (hi : s.issuing = true) (ho : (s.awlReads c).openLoad img c = some (j, p))
  (hh : (((s.awlReads c).core c).strm p.resStream).halted = none) (hw : (((s.awlReads c).core c).strm p.resStream).walking = none)
include ha hi ho hh hw

/-- With a load open on a stream that goes on, its list and its data decide. -/
theorem execShadowLoadComplete_of_open :
    let t := s.awlReads c
    execShadowLoadComplete c s =
      match t.loadPieces img c p.resStream with
      | .error h => .next (t.haltStream c p.resStream j.elastic h)
      | .ok ps =>
        if !ps.all ((t.core c).strm p.resStream).has then .next t
        else match t.passColumns img c p with
          | .error h => .next (t.haltStream c p.resStream j.elastic h)
          | .ok (cols, keys) =>
            let k := (t.core c).loadLanded t.prog.closed j p (p.resident cols) keys
            .next (t.setCore c { k with press := k.press.shadowWhole j (p.resident cols) }) := by
  have hgoes : ¬ ((!(s.awlReads c).issuing) = true ∨ (((s.awlReads c).core c).strm p.resStream).halted.isSome = true
      ∨ (((s.awlReads c).core c).strm p.resStream).walking.isSome = true) := by
    simp [State.awlReads_issuing, hi, hh, hw]
  have hactive : (s.awlReads c).prog.active = some img := by rw [State.awlReads_prog, ha]
  simp only [execShadowLoadComplete, hactive, ho]
  exact if_neg hgoes

theorem execShadowLoadComplete_of_badList {h : HaltAt} (hp : (s.awlReads c).loadPieces img c p.resStream = .error h) :
    execShadowLoadComplete c s = .next ((s.awlReads c).haltStream c p.resStream j.elastic h) := by
  rw [execShadowLoadComplete_of_open ha hi ho hh hw, hp]

section
variable {ps : List Span} (hp : (s.awlReads c).loadPieces img c p.resStream = .ok ps)
include hp

theorem execShadowLoadComplete_of_missing (hm : ps.all (((s.awlReads c).core c).strm p.resStream).has = false) :
    execShadowLoadComplete c s = .next (s.awlReads c) := by
  rw [execShadowLoadComplete_of_open ha hi ho hh hw, hp]
  exact if_pos (by simp only [hm, Bool.not_false])

variable (hc : ps.all (((s.awlReads c).core c).strm p.resStream).has = true)
include hc

theorem execShadowLoadComplete_of_badData {h : HaltAt} (hl : (s.awlReads c).passColumns img c p = .error h) :
    execShadowLoadComplete c s = .next ((s.awlReads c).haltStream c p.resStream j.elastic h) := by
  rw [execShadowLoadComplete_of_open ha hi ho hh hw, hp, hl]
  exact if_neg (by simp only [hc, Bool.not_true, Bool.false_eq_true, not_false_eq_true])

theorem execShadowLoadComplete_of_data {cols : List ColWords} {keys : List (Nat × Nat)}
    (hl : (s.awlReads c).passColumns img c p = .ok (cols, keys)) :
    let t := s.awlReads c
    let k := (t.core c).loadLanded t.prog.closed j p (p.resident cols) keys
    execShadowLoadComplete c s = .next (t.setCore c { k with press := k.press.shadowWhole j (p.resident cols) }) := by
  rw [execShadowLoadComplete_of_open ha hi ho hh hw, hp, hl]
  exact if_neg (by simp only [hc, Bool.not_true, Bool.false_eq_true, not_false_eq_true])
end
end

/-! ### PASS_EXCHANGE (R22, R45, R68, R69, R73) -/

/-- The pass that begins in a pass-state set, by its plan. -/
def PassPlan.activePass (p : PassPlan) (sel last : Bool) (serial : Nat) : ActivePass :=
  { sel := sel, mode := p.mode, sfmt := p.sfmt, base := p.act, pitch := p.pitch, kValid := p.kValid, rows := p.rows, next := 0,
    accumulate := p.accumulate, accRow := p.accRow, layer := p.layer, roleS := BitVec.ofNat 2 p.roleS,
    roleR := BitVec.ofNat 2 p.roleR, lastOfRun := last, serial := serial }

/-- The jobs once the next pass of `j` has begun. -/
def PressJob.begun (j : PressJob) (queue : List PressJob) : List PressJob :=
  modJob j.serial (fun j => { j with nextPass := j.nextPass + 1 }) queue

/-- The next pass of a job is its last. -/
def PressJob.lastPass (j : PressJob) : Bool := decide (j.nextPass + 1 = j.total)

section
variable {sel : Bool} (ha : s.prog.active = some img) (hi : s.issuing = true) (hd : img.direct = false)
  (hj : toBegin (s.core c).press.queue = some j) (hr : (s.core c).press.ready = true) (hf : (s.core c).press.freeSet = some sel)
  (hp : (s.core c).press.pass = none)
include ha hi hd hj hr hf hp

/-- With whole shadow words, a free set and no pass that issues, the M extent decides. -/
theorem execPassExchange_of_ready :
    let q := (s.core c).press
    let b := s.passPlan img c j.template j.nextPass
    execPassExchange c s =
      if b.rows = 0 then
        if j.lastPass = true ∧ q.beats ≠ [] then .next s
        else
          let t := s.setCore c { s.core c with press := { q.exchange with queue := j.begun q.queue } }
          .next (if j.lastPass then t.finishRun c j.serial else t)
      else .next (s.setCore c
        { s.core c with
          press := { (q.exchange.putSet sel (some q.shadow)) with
            pass := some (b.activePass sel j.lastPass j.serial), queue := j.begun q.queue } }) := by
  have hfree : ¬ ((!s.issuing) = true ∨ (s.core c).press.pass.isSome = true ∨ img.direct = true ∨ (!(s.core c).press.ready) = true) := by
    simp [hi, hp, hd, hr]
  simp only [execPassExchange, hj, ha, hf]
  exact if_neg hfree

theorem execPassExchange_of_rows (hrows : (s.passPlan img c j.template j.nextPass).rows ≠ 0) :
    let q := (s.core c).press
    let b := s.passPlan img c j.template j.nextPass
    execPassExchange c s = .next (s.setCore c
      { s.core c with
        press := { (q.exchange.putSet sel (some q.shadow)) with
          pass := some (b.activePass sel j.lastPass j.serial), queue := j.begun q.queue } }) := by
  rw [execPassExchange_of_ready ha hi hd hj hr hf hp]
  exact if_neg hrows

/-- An empty M extent issues no row (R73). -/
theorem execPassExchange_of_noRows (hrows : (s.passPlan img c j.template j.nextPass).rows = 0)
    (hb : j.lastPass = false ∨ (s.core c).press.beats = []) :
    let q := (s.core c).press
    let t := s.setCore c { s.core c with press := { q.exchange with queue := j.begun q.queue } }
    execPassExchange c s = .next (if j.lastPass then t.finishRun c j.serial else t) := by
  have hends : ¬ (j.lastPass = true ∧ (s.core c).press.beats ≠ []) := by
    rintro ⟨hl, hne⟩
    exact hb.elim (by simp [hl]) hne
  rw [execPassExchange_of_ready ha hi hd hj hr hf hp]
  exact (if_pos hrows).trans (if_neg hends)
end

theorem execPassExchange_of_busy
    (h : (s.core c).press.ready = false ∨ (s.core c).press.freeSet = none ∨ (s.core c).press.pass.isSome = true) :
    execPassExchange c s = .next s := by
  simp only [execPassExchange]
  split
  next j img sel _ _ hf =>
    have hbusy : (s.core c).press.pass.isSome = true ∨ (s.core c).press.ready = false := by
      rcases h with hr | hn | hp
      · exact .inr hr
      · simp [hf] at hn
      · exact .inl hp
    exact if_pos (by rcases hbusy with hb | hb <;> simp [hb])
  next => rfl

end Sys2Proof.Machine

open Sys2Proof Sys2Proof.Machine

/-- Settles O12, one lemma per command and outcome. -/
theorem pressPasses : Obligations.PressPasses := by
  intro img c s ha hi
  refine ⟨⟨fun j p ps ho hh hw hp => ⟨fun cols keys hc hl => ?_, fun h hc hl => ?_, ?_⟩, fun j p h ho hh hw => ?_, ?_⟩,
    fun j sel hj hr hf hp hd => ⟨?_, ?_⟩, ?_⟩
  · exact execShadowLoadComplete_of_data ha hi ho hh hw hp hc hl
  · exact execShadowLoadComplete_of_badData ha hi ho hh hw hp hc hl
  · exact execShadowLoadComplete_of_missing ha hi ho hh hw hp
  · exact execShadowLoadComplete_of_badList ha hi ho hh hw
  · exact execShadowLoadComplete_of_noLoad ha
  · exact execPassExchange_of_rows ha hi hd hj hr hf hp
  · exact execPassExchange_of_noRows ha hi hd hj hr hf hp
  · exact execPassExchange_of_busy
end

section
/-!
SUPPORT. The leaf of odd multiples, written out, and the shifts and additions that form it.
-/

namespace Sys2Proof.Machine

/-! ### The table of odd multiples (R56) -/

/-- The second column of the table. -/
theorem leafOfOdds_eq_multiples (a : Int) :
    leafOfOdds a = [a, 3 * a, 5 * a, 7 * a, 9 * a, 11 * a, 13 * a, 15 * a] := by
  have hentries : List.range 8 = [0, 1, 2, 3, 4, 5, 6, 7] := rfl
  rw [leafOfOdds_eq_map, hentries]
  norm_num

/-- The third column of the table. -/
theorem leafOfOdds_eq_shiftAdds (a : Int) :
    leafOfOdds a = [a, a + 2 * a, a + 4 * a, 8 * a - a, 8 * a + a, 8 * a + 3 * a, 16 * a - 3 * a, 16 * a - a] := by
  simp only [leafOfOdds_eq_multiples, List.cons.injEq, and_true, true_and]
  omega

end Sys2Proof.Machine

open Sys2Proof Sys2Proof.Machine

/-- Settles O8: one lemma per column of the table, and the example is the second column at -184. -/
theorem oddMultipleLeaf : Obligations.OddMultipleLeaf :=
  ⟨fun a => ⟨leafOfOdds_eq_multiples a, leafOfOdds_eq_shiftAdds a⟩, leafOfOdds_eq_multiples (-184)⟩
end

section
/-!
SUPPORT. What the commands of the Awl that follow a stream's requests do, one lemma per outcome: data returned, writes acknowledged, tags
expired, Mull blocks released, entries delivered and the arms of a group's members.
-/

namespace Sys2Proof.Machine

variable {s : State} {img : Image} {c : CoreId} {i : Fin 64}

/-- A stream replaced by itself leaves its core as it is. -/
theorem Core.modStrm_of_fixed {k : Core} {i : Nat} {f : Stream → Stream} (h : f (k.strm i) = k.strm i) : k.modStrm i f = k := by
  have hset : k.awl.streams.setIfInBounds i (k.strm i) = k.awl.streams := by
    ext n hn
    by_cases hni : i = n
    · subst hni
      simp [Core.strm, Vector.getD, hn]
    · simp [hni]
  rw [Core.modStrm, h, hset]

/-- A core replaced by itself leaves the state as it is. -/
theorem State.modCore_of_fixed {f : Core → Core} (h : f (s.core c) = s.core c) : s.modCore c f = s := by
  rw [State.modCore, h]
  simp [State.setCore, State.core]

/-! ### READ_RETURN (R81, R171, R179, R189, R243) -/

/-- Data of an expired tag comes before the answer of a read under that tag now (log entry 66). -/
theorem execReadReturn_of_late {tag : Fin 640} {p : Nat × BitVec 2} (bad : Bool)
    (h : (s.core c).awl.late.find? (fun p => p.1 = tag.val) = some p) :
    execReadReturn c tag bad s
      = .next (s.modCore c fun k => { k with awl := { k.awl with late := k.awl.late.erase p } }) := by
  simp only [execReadReturn, h]

/-- A read has its answer: its tag is free, and an uncorrectable error is recorded by the stack (R171, R243). -/
def State.answered (s : State) (c : CoreId) (r : AwlRead) (bad : Bool) : State :=
  let t := s.modCore c fun k => { k with awl := { k.awl with reads := k.awl.reads.erase r } }
  if bad then t.dramUncorrectable r.addr else t

/-- The data of a read comes to every stream that takes it (R179). -/
def State.landAnswer (s : State) (img : Image) (c : CoreId) (r : AwlRead) (bad : Bool) : State :=
  let takers := if r.group = 0 then [(c, r.stream)] else s.takers img c r.stream r.group r.offset
  takers.foldl (fun t m => t.landRead img m.1 m.2 r.elastic (r.offset / 2 ^ 40) (r.offset % 2 ^ 40) r.addr
    (bad || s.poisoned r.addr r.len) (s.dramRead r.addr r.len)) s

section
variable {tag : Fin 640} {r : AwlRead} {bad : Bool} (hl : ∀ p ∈ (s.core c).awl.late, p.1 ≠ tag.val)
  (hr : (s.core c).awl.reads.find? (fun r => r.tag = tag.val) = some r) (ha : (s.answered c r bad).prog.active = some img)
include hl hr ha

theorem execReadReturn_of_read :
    let t := s.answered c r bad
    execReadReturn c tag bad s = if (!t.issuing) = true ∨ r.dropped = true then .next t else .next (t.landAnswer img c r bad) := by
  have hlate : (s.core c).awl.late.find? (fun p => p.1 = tag.val) = none := List.find?_eq_none.2 (by simpa using hl)
  rw [State.answered] at ha
  simp only [execReadReturn, hlate, hr, ha]
  rfl

theorem execReadReturn_of_unwanted (hd : (s.answered c r bad).issuing = false ∨ r.dropped = true) :
    execReadReturn c tag bad s = .next (s.answered c r bad) :=
  (execReadReturn_of_read hl hr ha).trans (if_pos (by simpa using hd))

theorem execReadReturn_of_wanted (hi : (s.answered c r bad).issuing = true) (hd : r.dropped = false) :
    execReadReturn c tag bad s = .next ((s.answered c r bad).landAnswer img c r bad) :=
  (execReadReturn_of_read hl hr ha).trans (if_neg (by simp [hi, hd]))
end

/-! ### WRITE_ACK (R170, R171) and TAG_EXPIRY (R189) -/

theorem execWriteAck_of_write {w : Nat × Nat} {rest : List (Nat × Nat)} (h : ((s.core c).strm i).writes = w :: rest) :
    execWriteAck c i s = .next (s.modStrm c i fun x =>
      { x with writes := rest, landed := if x.armed (w.1 / 2 ^ 40) then addSpan x.landed w.1 w.2 else x.landed }) := by
  simp only [execWriteAck, h]

theorem execTagExpiry_of_read {tag : Fin 640} {r : AwlRead} (h : (s.core c).awl.reads.find? (fun r => r.tag = tag.val) = some r) :
    execTagExpiry c tag s = .next (if s.prog.phase = .cancelling then
      s.modCore c fun k => { k with awl := { k.awl with reads := k.awl.reads.erase r, late := k.awl.late ++ [(r.tag, r.gen)] } }
      else s) := by
  simp only [execTagExpiry, h, act_eq, beq_iff_eq]

/-! ### MULL_BLOCK_RELEASE (R95, R100, R104, R105) -/

/-- The bytes of a Mull block leave the buffer of their stream. -/
def State.blockTaken (s : State) (c : CoreId) (i o size : Nat) : State :=
  s.modStrm c i fun x => { x with buffer := x.buffer.filter fun p => !(decide (o ≤ p.1) && decide (p.1 < o + size)) }

/-- The values of block `j` of list entry `b` written to the window of their stream and marked landed. -/
def State.landBlock (s : State) (c : CoreId) (i e b j : Nat) (values : List Byte) : State :=
  s.modCore c fun k => (k.landWindow e (s.landStart e b + 8192 * j) values).land i [(landKey b (8192 * j), 8192)]

/-- Block `j` of list entry `b` written as canonical NaNs (R104). -/
def State.poisonBlock (s : State) (c : CoreId) (e b j : Nat) (kd : MullKind) : State :=
  s.modCore c fun k => k.landWindow e (s.landStart e b + 8192 * j) (List.replicate 4096 (leBytes 2 kd.nan)).flatten

/-- With all bytes of the next block there, its check decides. -/
theorem execMullBlockRelease_of_whole {a : Arm} {rest : List Arm} {kd : MullKind} {j : Nat} (ha : s.prog.active = some img)
    (hx : ((s.core c).strm i).arms = a :: rest) (hk : sMull (s.streamEntry img c i) = some kd) (hi : s.issuing = true)
    (hs : sShadow (s.streamEntry img c i) = false)
    (hh : ((s.core c).strm i).haltedBefore (a.first + a.delivered) (kd.size * j) = false)
    (hj : nextBlock ((s.core c).strm i).landed (a.first + a.delivered)
      (bLen (s.listEntry (s.streamEntry img c i) (a.first + a.delivered)) / kd.size) = some j)
    (hb : ∀ n, n < kd.size →
      (Mem.lookup ((s.core c).strm i).buffer (landKey (a.first + a.delivered) (kd.size * j) + n)).isSome = true) :
    let e := s.streamEntry img c i
    let b := a.first + a.delivered
    let o := landKey b (kd.size * j)
    let w := leNat (Mem.read zeroByte ((s.core c).strm i).buffer o kd.size)
    let blocks := bLen (s.listEntry e b) / kd.size
    let t := s.blockTaken c i o kd.size
    execMullBlockRelease c i s =
      match mullCheck kd w with
      | some reason => .next ((t.poisonBlock c e b j kd).haltStream c i a.elastic
          { reason := reason, block := b, offset := kd.size * j, addr := bAddr (s.listEntry e b) + kd.size * j })
      | none =>
        let u := t.landBlock c i e b j ((List.range (s.realValues blocks j)).map fun n => leBytes 2 (mullValue kd w n)).flatten
        .next (if j + 1 = blocks then u.bump else u) := by
  have hcome : ((List.range kd.size).all fun n =>
      (Mem.lookup ((s.core c).strm i).buffer (landKey (a.first + a.delivered) (kd.size * j) + n)).isSome) = true := by
    simpa using hb
  simp only [execMullBlockRelease, ha, hx, hk, hj]
  exact (if_neg (by simp [hi, hs])).trans (if_neg (by simp [hcome, hh]))

/-! ### ENTRY_DELIVERY and MULTICAST_ARM (R170, R179, R186) -/

/-- An issuer that knows a member's word is not told again. -/
theorem State.tellArm_of_told {m : CoreId × Nat} {a : Arm}
    (h : (((s.core m.1).strm m.2).memberArms.any fun r => r.1 == c && r.2.serial == a.serial) = true) : s.tellArm m c a = s :=
  State.modCore_of_fixed (f := (·.modStrm m.2 _)) (Core.modStrm_of_fixed (if_pos h))

/-- One that does not know it hears of it last. -/
theorem State.tellArm_of_untold {m : CoreId × Nat} {a : Arm}
    (h : (((s.core m.1).strm m.2).memberArms.any fun r => r.1 == c && r.2.serial == a.serial) = false) :
    s.tellArm m c a = s.modStrm m.1 m.2 fun x => { x with memberArms := x.memberArms ++ [(c, a)] } := by
  refine State.modCore_congr s m.1 (·.modStrm m.2 _) (·.modStrm m.2 _) ?_
  simp only [Core.modStrm, h, Bool.false_eq_true, if_false]

theorem State.tellArm_eq_ite (s : State) (m : CoreId × Nat) (c : CoreId) (a : Arm) :
    s.tellArm m c a = if ∃ r ∈ ((s.core m.1).strm m.2).memberArms, r.1 = c ∧ r.2.serial = a.serial then s
      else s.modStrm m.1 m.2 fun x => { x with memberArms := x.memberArms ++ [(c, a)] } := by
  have hany : (((s.core m.1).strm m.2).memberArms.any fun r => r.1 == c && r.2.serial == a.serial) = true
      ↔ ∃ r ∈ ((s.core m.1).strm m.2).memberArms, r.1 = c ∧ r.2.serial = a.serial := by
    simp only [List.any_eq_true, Bool.and_eq_true, beq_iff_eq]
  split
  next h => exact State.tellArm_of_told (hany.2 h)
  next h => exact State.tellArm_of_untold (Bool.eq_false_iff.2 (mt hany.1 h))

/-- The next entry of a stream is off the list of its word, the last one with the word itself, and its spans are gone (R170). -/
def Core.entryOff (k : Core) (i : Nat) (a : Arm) (rest : List Arm) : Core :=
  k.modStrm i fun x =>
    { x with arms := if decide (a.delivered + 1 = a.count) then rest else { a with delivered := a.delivered + 1 } :: rest,
             nextByte := if decide (a.delivered + 1 = a.count) then 0 else x.nextByte,
             landed := dropEntry x.landed (a.first + a.delivered) }

/-- DELIVER_ID of a stream, for an entry of a word. -/
def deliverSignal (c : CoreId) (e : Nat) (a : Arm) : Signal :=
  { target := c, id := BitVec.ofNat 8 (sDeliverId e), incr := 1, scope := 0, awaits := [], elastic := a.elastic }

/-- The stream asks for a signal after the next entry of a word: after each, or after the last (R170). -/
def deliversSignal (e : Nat) (a : Arm) : Bool := sDeliverEn e && (sSignalEach e || decide (a.delivered + 1 = a.count))

/-- The next entry of a stream is delivered. -/
def State.entryGone (s : State) (c : CoreId) (i e : Nat) (a : Arm) (rest : List Arm) : State :=
  s.modCore c fun k =>
    { k.entryOff i a rest with
      doneSignals := k.doneSignals ++ if deliversSignal e a then [deliverSignal c e a] else [] }

theorem State.entryGone_eq_ite (s : State) (c : CoreId) (i e : Nat) (a : Arm) (rest : List Arm) :
    s.entryGone c i e a rest = s.modCore c fun k =>
      if deliversSignal e a then
        { k.entryOff i a rest with doneSignals := (k.entryOff i a rest).doneSignals ++ [deliverSignal c e a] }
      else k.entryOff i a rest := by
  rw [State.entryGone]
  refine State.modCore_congr s c _ _ ?_
  cases deliversSignal e a with
  | false => simp [Core.entryOff, Core.modStrm]
  | true => rfl

/-- The last entry of a member's word makes the word known to the issuer of the group, unless it is already (R179). -/
def State.wordTold (s : State) (img : Image) (c : CoreId) (e : Nat) (a : Arm) : State :=
  match if decide (a.delivered + 1 = a.count) && sMulticast e then s.issuer img (sGroup e) else none with
  | some m => if ∃ r ∈ ((s.core m.1).strm m.2).memberArms, r.1 = c ∧ r.2.serial = a.serial then s
    else s.modStrm m.1 m.2 fun x => { x with memberArms := x.memberArms ++ [(c, a)] }
  | none => s

/-- All bytes of an entry that keeps its rules have landed (R170). -/
theorem State.entryLanded_of_ok {e : Nat} {a : Arm} (he : s.streamEntry img c i = e)
    (hb : s.listEntryOk img e (s.listEntry e (a.first + a.delivered)) = true) :
    s.entryLanded img c i a = covered ((s.core c).strm i).landed (landKey (a.first + a.delivered) 0)
      (landLen e (bLen (s.listEntry e (a.first + a.delivered)))) := by
  simp only [State.entryLanded, he, hb, Bool.true_and]

/-- Nothing holds back an entry that no halt concerns, in a section that is executed (R170, R186). -/
theorem State.mayDeliver_of_clear {a : Arm} (hi : s.issuing = true ∨ s.prog.phase = .cancelling) {x : Stream}
    (hh : ∀ h, x.halted = some h → h.block ≠ a.first + a.delivered) (he : a.elastic = true → (s.core c).needle.sect = .elastic) :
    s.mayDeliver c x a = true := by
  have hstop : x.stopsAt (a.first + a.delivered) = false := by
    cases hx : x.halted with
    | none => simp [Stream.stopsAt, hx]
    | some h => simpa [Stream.stopsAt, hx] using hh h hx
  have helastic : (!a.elastic || (s.core c).needle.sect == .elastic) = true := by
    cases hel : a.elastic with
    | false => rfl
    | true => simp [he hel]
  simpa [State.mayDeliver, hstop, helastic] using hi

section
variable {a : Arm} {rest : List Arm} (ha : s.prog.active = some img) (hx : ((s.core c).strm i).arms = a :: rest)
include ha hx

theorem execEntryDelivery_of_stopped (hm : s.mayDeliver c ((s.core c).strm i) a = false) : execEntryDelivery c i s = .next s := by
  simp only [execEntryDelivery, ha, hx]
  exact if_pos (by simp [hm])

variable (hm : s.mayDeliver c ((s.core c).strm i) a = true)
include hm

/-- An entry that may be delivered: its rules and what has landed of it decide. -/
theorem execEntryDelivery_of_arm :
    let e := s.streamEntry img c i
    let b := s.listEntry e (a.first + a.delivered)
    execEntryDelivery c i s =
      if (!s.listEntryOk img e b) = true then
        .next (s.haltStream c i a.elastic { reason := 0x40, block := a.first + a.delivered, offset := 0, addr := bAddr b })
      else if (!s.entryLanded img c i a) = true then .next s
      else .next ((s.entryGone c i e a rest).wordTold img c e a) := by
  simp only [State.wordTold, State.entryGone_eq_ite, execEntryDelivery, ha, hx, State.tellArm_eq_ite]
  exact if_neg (by simp [hm])

theorem execEntryDelivery_of_badList
    (hb : s.listEntryOk img (s.streamEntry img c i) (s.listEntry (s.streamEntry img c i) (a.first + a.delivered)) = false) :
    execEntryDelivery c i s = .next (s.haltStream c i a.elastic
      { reason := 0x40, block := a.first + a.delivered, offset := 0,
        addr := bAddr (s.listEntry (s.streamEntry img c i) (a.first + a.delivered)) }) :=
  (execEntryDelivery_of_arm ha hx hm).trans (if_pos (by simp [hb]))

variable (hb : s.listEntryOk img (s.streamEntry img c i) (s.listEntry (s.streamEntry img c i) (a.first + a.delivered)) = true)
include hb

theorem execEntryDelivery_of_missing (hl : s.entryLanded img c i a = false) : execEntryDelivery c i s = .next s :=
  (execEntryDelivery_of_arm ha hx hm).trans ((if_neg (by simp [hb])).trans (if_pos (by simp [hl])))

theorem execEntryDelivery_of_landed (hl : s.entryLanded img c i a = true) :
    let e := s.streamEntry img c i
    execEntryDelivery c i s = .next ((s.entryGone c i e a rest).wordTold img c e a) :=
  (execEntryDelivery_of_arm ha hx hm).trans ((if_neg (by simp [hb])).trans (if_neg (by simp [hl])))
end

/-- A halt that concerns the next entry keeps it on its list. -/
theorem execEntryDelivery_of_halted (ha : s.prog.active = some img) {h : HaltRec} (hh : ((s.core c).strm i).halted = some h)
    (hb : ∀ a, ((s.core c).strm i).arms.head? = some a → h.block = a.first + a.delivered) : execEntryDelivery c i s = .next s := by
  cases hx : ((s.core c).strm i).arms with
  | nil => simp only [execEntryDelivery, ha, hx]
  | cons a rest =>
    have hblock : h.block = a.first + a.delivered := hb a (by simp [hx])
    exact execEntryDelivery_of_stopped ha hx (by simp [State.mayDeliver, Stream.stopsAt, hh, hblock])

theorem execMulticastArm_of_untold {m : CoreId × Nat} {a : Arm} (ha : s.prog.active = some img) (hi : s.issuing = true)
    (hd : img.direct = false) (hm : sMulticast ((s.awlReads c).streamEntry img c i) = true)
    (hiss : (s.awlReads c).issuer img (sGroup ((s.awlReads c).streamEntry img c i)) = some m)
    (hf : (((s.awlReads c).core c).strm i).arms.find? (fun a =>
      !(((s.awlReads c).core m.1).strm m.2).memberArms.any fun r => r.1 == c && r.2.serial == a.serial) = some a) :
    execMulticastArm c i s
      = .next ((s.awlReads c).modStrm m.1 m.2 fun x => { x with memberArms := x.memberArms ++ [(c, a)] }) := by
  have hissue : (s.awlReads c).issuing = true := by rw [State.awlReads_issuing, hi]
  simp only [execMulticastArm, State.awlReads_prog, ha, hiss, hf]
  rw [if_neg (by simp [hissue, hd, hm]), State.tellArm_of_untold (by simpa using List.find?_some hf)]

end Sys2Proof.Machine

open Sys2Proof Sys2Proof.Machine

/-- Settles O20, one lemma per command and outcome. -/
theorem awlReturns : Obligations.AwlReturns := by
  intro img c i s ha k x e
  refine ⟨fun tag bad p => execReadReturn_of_late bad, fun tag r bad hl hr => ?_, fun w rest => execWriteAck_of_write,
    fun tag r => execTagExpiry_of_read, fun a rest kd j hx hk hi hs => ?_, fun a rest hx hi hh he => ?_,
    fun h hh hb => execEntryDelivery_of_halted ha hh hb, fun m a hi hd hm hiss hf => execMulticastArm_of_untold ha hi hd hm hiss hf⟩
  · intro _ _ _ _ hu
    exact ⟨execReadReturn_of_unwanted hl hr hu, execReadReturn_of_wanted hl hr hu⟩
  · intro b o hh hj hb w t last real landed
    refine (execMullBlockRelease_of_whole ha hx hk hi hs hh hj hb).trans ?_
    cases mullCheck kd w with
    | some reason => rfl
    | none =>
      simp only [landed, real, last, decide_eq_true_eq]
      rfl
  · intro b last t
    have hm : s.mayDeliver c x a = true := State.mayDeliver_of_clear hi hh he
    have hlanded := fun hok => State.entryLanded_of_ok (s := s) (img := img) (c := c) (i := i) (a := a) (e := e) rfl hok
    exact ⟨execEntryDelivery_of_badList ha hx hm,
      fun hok hcov => execEntryDelivery_of_landed ha hx hm hok ((hlanded hok).trans hcov),
      fun hcov hok => execEntryDelivery_of_missing ha hx hm hok ((hlanded hok).trans hcov)⟩
end

