-- ==== Sys2Proof/Proofs/LayerOrder.lean ====
section
/-!
SUPPORT. The order of the candidates for widening (R125): the products compared are those of two fractions, so a layer precedes another
exactly when its key, the severity B / N from the greatest down and then the index, is the smaller one.
-/

namespace Sys2Proof.Machine

variable {a b c : LayerAt}

theorem LayerAt.before_iff : a.before b = true ↔
    a.fig.b * b.fig.n > b.fig.b * a.fig.n ∨ (a.fig.b * b.fig.n = b.fig.b * a.fig.n ∧ a.layer < b.layer) := by
  simp [LayerAt.before]

theorem LayerAt.before_irrefl (a : LayerAt) : a.before a = false := by simp [LayerAt.before]

/-- A larger product decides the order, and with equal products the index does. -/
theorem LayerAt.before_eq_not (h : a.layer ≠ b.layer) : a.before b = !b.before a := by
  rw [Bool.eq_not, Ne, Bool.eq_iff_iff, LayerAt.before_iff, LayerAt.before_iff]
  rcases lt_trichotomy (a.fig.b * b.fig.n) (b.fig.b * a.fig.n) with hp | hp | hp <;> omega

/-- The severity of a layer (R125). -/
def LayerAt.severity (a : LayerAt) : ℚ := a.fig.b / a.fig.n

/-- The place of a layer among the candidates: the severity, greatest first, then the index (R125). -/
def LayerAt.key (a : LayerAt) : ℚ ×ₗ ℕ := toLex (-a.severity, a.layer)

theorem LayerAt.severity_lt (ha : 0 < a.fig.n) (hb : 0 < b.fig.n) :
    b.severity < a.severity ↔ b.fig.b * a.fig.n < a.fig.b * b.fig.n := by
  rw [LayerAt.severity, LayerAt.severity, div_lt_div_iff₀ (Nat.cast_pos.2 hb) (Nat.cast_pos.2 ha)]
  exact_mod_cast Iff.rfl

theorem LayerAt.severity_eq (ha : 0 < a.fig.n) (hb : 0 < b.fig.n) :
    a.severity = b.severity ↔ a.fig.b * b.fig.n = b.fig.b * a.fig.n := by
  rw [LayerAt.severity, LayerAt.severity, div_eq_div_iff (Nat.cast_ne_zero.2 ha.ne') (Nat.cast_ne_zero.2 hb.ne')]
  exact_mod_cast Iff.rfl

theorem LayerAt.before_iff_key_lt (ha : 0 < a.fig.n) (hb : 0 < b.fig.n) : a.before b = true ↔ a.key < b.key := by
  rw [LayerAt.before_iff, LayerAt.key, LayerAt.key, Prod.Lex.toLex_lt_toLex, neg_lt_neg_iff, neg_inj, LayerAt.severity_lt ha hb,
    LayerAt.severity_eq ha hb]

theorem LayerAt.before_trans (ha : 0 < a.fig.n) (hb : 0 < b.fig.n) (hc : 0 < c.fig.n) (hab : a.before b = true)
    (hbc : b.before c = true) : a.before c = true :=
  (LayerAt.before_iff_key_lt ha hc).2
    (lt_trans ((LayerAt.before_iff_key_lt ha hb).1 hab) ((LayerAt.before_iff_key_lt hb hc).1 hbc))

end Sys2Proof.Machine

open Sys2Proof Sys2Proof.Machine

/-- Settles O7: the order is that of the keys wherever N is above 0. -/
theorem layerOrder : Obligations.LayerOrder :=
  ⟨fun _ _ => LayerAt.before_iff, LayerAt.before_irrefl, fun _ _ => LayerAt.before_eq_not, fun _ _ _ => LayerAt.before_trans⟩
end

