-- ==== Sys2Proof/Proofs/HostPrograms.lean ====
section
/-!
SUPPORT. What the program commands of the host do when they begin (R325), one lemma per command and outcome; `b` is the body of the
command.
-/

namespace Sys2Proof.Machine

variable {s : State} {x : Handle} {b : Nat} {img : Image}

theorem elim_false_eq_true_iff {α : Type} {o : Option α} {p : α → Bool} : o.elim false p = true ↔ ∃ a, o = some a ∧ p a = true := by
  cases o <;> simp

/-- A command begins and waits for the next boundary, after those that wait there already (R136, R322). -/
def State.awaitBoundary (s : State) (cmd : BoundaryCmd) : State :=
  (s.markBegun cmd.handle).modProg fun p => { p with boundaryCmds := p.boundaryCmds ++ [cmd] }

/-! ### LOAD (R160, R161) -/

section
variable (hb : s.begins x 0x10 = some b)
include hb

theorem execLoad_of_recovering (hr : s.prog.recovering = true) : execLoad x s = .next (s.complete x 0x0003 0 0) := by
  simp only [execLoad, hb]
  exact if_pos hr

variable (hr : s.prog.recovering = false)
include hr

theorem execLoad_of_badAddress (ha : fld b 0 52 % 64 ≠ 0 ∨ s.layoutEnd ≤ fld b 0 52) : execLoad x s = .next (s.badField x 0) := by
  simp only [execLoad, hb]
  rw [if_neg (by simp [hr]), if_pos ha]

theorem execLoad_of_badLength (ha : fld b 0 52 % 64 = 0) (he : fld b 0 52 < s.layoutEnd)
    (hl : fld b 64 40 < 256 ∨ s.layoutEnd < fld b 0 52 + fld b 64 40) : execLoad x s = .next (s.badField x 64) := by
  simp only [execLoad, hb]
  rw [if_neg (by simp [hr]), if_neg (by omega), if_pos hl]

theorem execLoad_of_image (ha : fld b 0 52 % 64 = 0) (he : fld b 0 52 + fld b 64 40 ≤ s.layoutEnd) (hl : 256 ≤ fld b 64 40) :
    execLoad x s = .next (match s.loadVerdict (s.imageAt (fld b 0 52) (fld b 64 40)) with
      | some v => s.complete x v.status v.detail v.result
      | none => (s.stage (s.imageAt (fld b 0 52) (fld b 64 40))).complete x 0 0 0) := by
  simp only [execLoad, hb]
  rw [if_neg (by simp [hr]), if_neg (by omega), if_neg (by omega)]
  cases s.loadVerdict (s.imageAt (fld b 0 52) (fld b 64 40)) <;> rfl
end

/-! ### ACTIVATE (R160, R236) -/

section
variable (hb : s.begins x 0x11 = some b) (hr : s.prog.recovering = false)
include hb hr

theorem execActivate_of_noImage (hi : s.prog.staged = none) : execActivate x s = .next (s.complete x 0x0004 0 0) := by
  simp only [execActivate, hb, hi]
  exact if_neg (by simp [hr])

variable (hi : s.prog.staged = some img)
include hi

theorem execActivate_of_refused {st d r : Nat} (ha : s.admission img true = .refused st d r) :
    execActivate x s = .next (s.complete x st d r) := by
  simp only [execActivate, hb, hi, ha]
  exact if_neg (by simp [hr])

/-- A handle that is not refused waits for its start, or starts. -/
theorem execActivate_of_admitted (ha : ∀ st d r, s.admission img true ≠ .refused st d r) :
    let ms := if fld b 0 32 = 0 then 10000 else fld b 0 32
    execActivate x s = .next ((s.markBegun x).modProg fun p =>
      { p with activating := some x, peerWaitEnd := s.now + 100000 * ms }).tryActivate := by
  simp only [execActivate, hb, hi]
  exact if_neg (by simp [hr])
end

/-! ### UNLOAD (R322, R323) -/

section
variable (hb : s.begins x 0x12 = some b)
include hb

theorem execUnload_of_stagedOnly (h : s.prog.active = none ∨ bitOf b 0 = true) : execUnload x s = .next (s.dropStaged.complete x 0 0 0) := by
  simp only [execUnload, hb]
  cases ha : s.prog.active with
  | none => rfl
  | some img => exact if_pos (h.resolve_left (by simp [ha]))

variable (ha : s.prog.active = some img) (h0 : bitOf b 0 = false)
include ha h0

theorem execUnload_of_compiled (hd : img.direct = false) : execUnload x s = .next (s.awaitBoundary ⟨x, 0, [], none⟩) := by
  simp only [execUnload, hb, ha]
  rw [if_neg (by simp [h0]), if_neg (by simp [hd])]
  rfl

theorem execUnload_of_direct (hd : img.direct = true) : execUnload x s
    = .next (((s.modProg fun p => { p with staged := none }).endProgram 0x0202 0 none).complete x 0 0 0) := by
  simp only [execUnload, hb, ha]
  rw [if_neg (by simp [h0]), if_pos hd]
end

/-! ### ELASTIC_START (R141) -/

section
variable (hb : s.begins x 0x14 = some b)
include hb

theorem execElasticStart_of_idle (ha : s.prog.active = none) : execElasticStart x s = .next (s.complete x 0x0004 0 0) := by
  simp only [execElasticStart, hb]
  exact if_pos (by simp [ha])

theorem execElasticStart_of_free (ha : s.prog.active ≠ none) (he : s.prog.elasticHandle = none) (hp : s.prog.elasticPending = none) :
    execElasticStart x s = .next ((s.markBegun x).modProg fun p => { p with elasticPending := some x }) := by
  simp only [execElasticStart, hb]
  rw [if_neg (by simpa using ha), if_neg (by simp [he, hp])]

theorem execElasticStart_of_busy (ha : s.prog.active ≠ none) (he : s.prog.elasticHandle ≠ none ∨ s.prog.elasticPending ≠ none) :
    execElasticStart x s = .next (s.complete x 0x0003 0 0) := by
  simp only [execElasticStart, hb]
  rw [if_neg (by simpa using ha), if_pos (by simpa [Option.isSome_iff_ne_none] using he)]
end

/-! ### RECIPE_UPDATE (R136) -/

section
variable (hb : s.begins x 0x15 = some b)
include hb

theorem execRecipeUpdate_of_idle (ha : s.prog.active = none) : execRecipeUpdate x s = .next (s.complete x 0x0004 0 0) := by
  simp only [execRecipeUpdate, hb, ha]

variable (ha : s.prog.active = some img)
include ha

theorem execRecipeUpdate_of_outside (he : s.layoutEnd < fld b 0 52 + 64 * fld b 80 16) :
    execRecipeUpdate x s = .next (s.badField x 0) := by
  simp only [execRecipeUpdate, hb, ha]
  exact if_pos he

theorem execRecipeUpdate_of_fields (he : fld b 0 52 + 64 * fld b 80 16 ≤ s.layoutEnd) (hd : img.direct = false)
    (hn : fld b 64 16 + fld b 80 16 ≤ s.prog.recipe.length) :
    let allowance := if bitOf b 96 then some (fld b 128 24) else none
    let new := s.updateEntries b
    execRecipeUpdate x s = .next (match s.updateVerdict img (fld b 64 16) new (allowance.getD s.prog.allowance) with
      | some v => s.complete x v.status v.detail v.result
      | none => s.awaitBoundary ⟨x, fld b 64 16, new.map (BitVec.ofNat 512), allowance⟩) := by
  simp only [execRecipeUpdate, hb, ha]
  rw [if_neg (by omega), if_neg (not_or.2 ⟨by simp [hd], by omega⟩), if_neg (by omega)]
  cases s.updateVerdict img _ _ _ <;> rfl
end

/-! ### WAIT_STEP (R325; log entry 30) -/

/-- The last committed step of the active program or, with none active, of the one before. -/
def State.lastCommitted (s : State) : Option W64 := if s.prog.active.isSome then s.prog.committed else s.prog.formerStep

theorem State.lastCommitted_eq (s : State) :
    s.lastCommitted = if s.prog.active = none then s.prog.formerStep else s.prog.committed := by
  simp only [State.lastCommitted, Option.isSome_iff_ne_none, ne_eq, ite_not]

section
variable (hb : s.begins x 0x18 = some b)
include hb

theorem execWaitStep_of_committed {m : W64} (hm : s.lastCommitted = some m) (hn : fld b 0 64 ≤ m.toNat) :
    execWaitStep x s = .next (s.complete x 0 0 (fld b 0 64)) := by
  simp only [execWaitStep, hb]
  exact if_pos (elim_false_eq_true_iff.2 ⟨m, hm, decide_eq_true hn⟩)

theorem execWaitStep_of_ahead (hm : ∀ m, s.lastCommitted = some m → m.toNat < fld b 0 64) :
    execWaitStep x s = .next ((s.markBegun x).modProg fun p => { p with stepWaiters := p.stepWaiters ++ [x] }) := by
  simp only [execWaitStep, hb]
  refine if_neg fun h => ?_
  obtain ⟨m, hs, hn⟩ := elim_false_eq_true_iff.1 h
  exact absurd (of_decide_eq_true hn) (Nat.not_le.2 (hm m hs))
end

/-! ### PAGED_MAP (R181) -/

/-- Whether a region lies in the paged pool of the active program or, with none active, of the staged image. -/
def State.inPagedPool (s : State) (base pages : Nat) : Bool :=
  (if s.prog.active.isSome then s.prog.active else s.prog.staged).elim false fun i =>
    decide (i.pinnedPages * 2 ^ 30 ≤ base) && decide (base + pages * unitBytes ≤ s.layoutEnd)

theorem State.inPagedPool_iff {base pages : Nat} : s.inPagedPool base pages = true ↔
    ∃ i, (if s.prog.active.isSome then s.prog.active else s.prog.staged) = some i
      ∧ i.pinnedPages * 2 ^ 30 ≤ base ∧ base + pages * unitBytes ≤ s.layoutEnd := by
  simp only [State.inPagedPool, elim_false_eq_true_iff, Bool.and_eq_true, decide_eq_true_eq]

section
variable (hb : s.begins x 0x17 = some b)
include hb

theorem execPagedMap_of_elastic (he : s.prog.elasticHandle ≠ none) : execPagedMap x s = .next (s.complete x 0x0003 0 0) := by
  simp only [execPagedMap, hb]
  exact if_pos (Option.isSome_iff_ne_none.2 he)

variable (he : s.prog.elasticHandle = none)
include he

theorem execPagedMap_of_badBase (h : fld b 0 52 % unitBytes ≠ 0 ∨ s.inPagedPool (fld b 0 52) (fld b 64 24) = false) :
    execPagedMap x s = .next (s.badField x 0) := by
  simp only [execPagedMap, hb]
  rw [if_neg (by simp [he])]
  exact if_pos (h.imp_right (congrArg not))

theorem execPagedMap_of_region (h : fld b 0 52 % unitBytes = 0) (hp : s.inPagedPool (fld b 0 52) (fld b 64 24) = true)
    (hn : fld b 64 24 ≠ 0) (hk : bitOf b 52 = true ∨ fld b 128 64 % 4096 = 0) :
    execPagedMap x s = .next ((s.modProg fun p => { p with paged := p.paged ++
      [{ vbase := fld b 0 52, pages := fld b 64 24, peer := bitOf b 52, backAddr := fld b 128 64,
         peerNode := BitVec.ofNat 16 (fld b 192 16) }] }).complete x 0 0 0) := by
  rw [State.inPagedPool] at hp
  simp only [execPagedMap, hb]
  rw [if_neg (by simp [he]), if_neg (by simp only [h, hp]; decide), if_neg hn, if_neg (by rcases hk with hk | hk <;> simp [hk])]
end

end Sys2Proof.Machine

open Sys2Proof Sys2Proof.Machine

/-- Settles O35, one lemma per command and outcome. -/
theorem hostPrograms : Obligations.HostPrograms := by
  intro x b s bad begun idle
  refine ⟨fun hb => ?_, fun hb hr => ?_, fun hb => ?_, fun hb => ?_, fun hb => ?_, fun hb => ?_, fun hb => ?_⟩
  · exact ⟨execLoad_of_recovering hb, execLoad_of_badAddress hb, execLoad_of_badLength hb, execLoad_of_image hb⟩
  · exact ⟨execActivate_of_noImage hb hr, fun im hi => ⟨fun st d r => execActivate_of_refused hb hr hi, fun ha =>
      execActivate_of_admitted hb hr hi fun st d r h => by simp [h] at ha⟩⟩
  · exact ⟨execUnload_of_stagedOnly hb, fun im => execUnload_of_compiled hb, fun im => execUnload_of_direct hb⟩
  · exact ⟨execElasticStart_of_idle hb, execElasticStart_of_free hb, execElasticStart_of_busy hb⟩
  · exact ⟨execRecipeUpdate_of_idle hb, fun im => execRecipeUpdate_of_outside hb, fun im => execRecipeUpdate_of_fields hb⟩
  · intro n last
    have hlast : s.lastCommitted = last := s.lastCommitted_eq
    exact ⟨fun m hm => execWaitStep_of_committed hb (hlast.trans hm), fun hm => execWaitStep_of_ahead hb (hlast ▸ hm)⟩
  · intro base pages im inPool
    have hpool : s.inPagedPool base pages = true ↔ inPool := State.inPagedPool_iff
    exact ⟨execPagedMap_of_elastic hb,
      fun he h => execPagedMap_of_badBase hb he (h.imp_right fun hp => Bool.eq_false_iff.2 (mt hpool.1 hp)),
      fun he h hp => execPagedMap_of_region hb he h (hpool.2 hp)⟩
end

