-- ==== Sys2Proof/Proofs/NeedleTurn.lean ====
section
/-!
SUPPORT. What a Needle command does when its word is not the next one, one lemma per outcome of the driver that all of them share.
-/

namespace Sys2Proof.Machine

variable {s : State} {img : Image} {c : CoreId} {op : Nat} {f : Image → Nat → Nat → State → State}

/-- Every command that takes a word is the driver at its opcode, with a meaning of its own for the word (R142, R143, R157). -/
theorem exec_of_needleOp {i : Instr} (h : i.needleOp = some (c, op)) :
    ∃ f : Image → Nat → Nat → State → State, ∀ s, exec i s = needleDo c op f s := by
  unfold Instr.needleOp at h
  split at h
  case h_16 => cases h
  all_goals
    cases h
    apply Exists.intro
    intro s
    simp only [exec, execNeedleNop, execStepEnd, execSectionEnd, execRun, execStream, execKettleSignal, execKettleWait, execCadence,
      execFabricSend, execFabricRecv, execSnapshot, execDtLoad, execDtPass, execDtPlough, execDtMove]
    rfl

/-- The Needle of a core takes no word: it is stopped, between sections or asleep, or no work may issue (R70, R153, R189). -/
def State.needleIdle (s : State) (c : CoreId) : Prop :=
  (s.core c).needle.stopped = true ∨ s.issuing = false ∨ (s.core c).needle.sect.runs = false ∨ (s.core c).asleep = true

/-- The section of a core has words that its read position has not reached. -/
abbrev State.wordsLeft (s : State) (img : Image) (c : CoreId) : Prop :=
  (s.core c).needle.pos < (s.part img c (s.core c).needle.sect.part).2

theorem needleDo_of_noProgram (ha : s.prog.active = none) : needleDo c op f s = .next s := by
  simp only [needleDo, ha]

section
variable (ha : s.prog.active = some img)

include ha

theorem needleDo_of_idle (hi : s.needleIdle c) : needleDo c op f s = .next s := by
  simp only [needleDo, ha]
  exact if_pos (by simpa [State.needleIdle] using hi)

/-- What the driver does in turn: it looks at the head of the queue that the Awl fills (R142, R157, R164). -/
theorem needleDo_of_turn (hi : ¬ s.needleIdle c) : needleDo c op f s =
    match ((s.awlReads c).core c).headWord with
    | none => .next (if img.direct = true ∧ ¬ s.wordsLeft img c then (s.awlReads c).decodeFault c else s)
    | some (no, w) =>
      if img.direct = true ∧ (s.awlReads c).directOk c w = false then .next ((s.awlReads c).decodeFault c)
      else if wOp w ≠ op then .next s
      else .next (f img no w (s.awlReads c)) := by
  simp only [needleDo, ha]
  rw [if_neg (by simpa [State.needleIdle] using hi)]
  cases ((s.awlReads c).core c).headWord with
  | none => simp only [not_lt]
  | some x => simp only [Bool.and_eq_true, Bool.not_eq_true']

theorem needleDo_of_noWord (hh : ((s.awlReads c).core c).headWord = none) (hl : img.direct = false ∨ s.wordsLeft img c) :
    needleDo c op f s = .next s := by
  by_cases hi : s.needleIdle c
  · exact needleDo_of_idle ha hi
  · rw [needleDo_of_turn ha hi, hh]
    rcases hl with hl | hl <;> simp [hl]

theorem needleDo_of_otherWord {no w : Nat} (hh : ((s.awlReads c).core c).headWord = some (no, w)) (hop : wOp w ≠ op)
    (hok : img.direct = false ∨ (s.awlReads c).directOk c w = true) : needleDo c op f s = .next s := by
  by_cases hi : s.needleIdle c
  · exact needleDo_of_idle ha hi
  · rw [needleDo_of_turn ha hi, hh]
    rcases hok with hok | hok <;> simp [hok, hop]

theorem needleDo_of_sectionOver (hd : img.direct = true) (hi : ¬ s.needleIdle c) (hh : ((s.awlReads c).core c).headWord = none)
    (hl : ¬ s.wordsLeft img c) : needleDo c op f s = .next ((s.awlReads c).decodeFault c) := by
  simp [needleDo_of_turn ha hi, hh, hd, hl]

theorem needleDo_of_badWord {no w : Nat} (hd : img.direct = true) (hi : ¬ s.needleIdle c)
    (hh : ((s.awlReads c).core c).headWord = some (no, w)) (hok : (s.awlReads c).directOk c w = false) :
    needleDo c op f s = .next ((s.awlReads c).decodeFault c) := by
  simp [needleDo_of_turn ha hi, hh, hd, hok]

end

end Sys2Proof.Machine

open Sys2Proof Sys2Proof.Machine

/-- Settles O17: the commands share the driver, and each of its outcomes is one lemma. -/
theorem needleTurn : Obligations.NeedleTurn := by
  intro i c op s hop n idle
  obtain ⟨f, hf⟩ := exec_of_needleOp hop
  rw [hf]
  refine ⟨needleDo_of_noProgram, fun img ha => ?_⟩
  intro t left head fault
  exact ⟨needleDo_of_idle ha, needleDo_of_noWord ha, fun no w => needleDo_of_otherWord ha, needleDo_of_sectionOver ha,
    fun no w => needleDo_of_badWord ha⟩
end

