-- ==== Sys2Proof/Proofs/NeedleWords.lean ====
section
/-!
SUPPORT. What the words NOP, KETTLE_SIGNAL, KETTLE_WAIT, CADENCE and SNAPSHOT do, one lemma per outcome.
-/

namespace Sys2Proof.Machine

/-! ### What taking a word leaves (R142) -/

section
variable (k : Core)

@[simp] theorem Core.takeWord_press : k.takeWord.press = k.press := rfl
@[simp] theorem Core.takeWord_plough : k.takeWord.plough = k.plough := rfl
@[simp] theorem Core.takeWord_signals : k.takeWord.signals = k.signals := rfl
@[simp] theorem Core.takeWord_satisfied : k.takeWord.satisfied = k.satisfied := rfl
@[simp] theorem Core.takeWord_sect : k.takeWord.needle.sect = k.needle.sect := rfl

@[simp] theorem Core.takeWord_streams : k.takeWord.awl.streams = k.awl.streams := by
  simp only [Core.takeWord, Awl.setAhead]
  split <;> rfl

/-- The word that is taken is no work: what is outstanding stays (R143). -/
@[simp] theorem Core.takeWord_workIn (scope : Nat) (e : Bool) : k.takeWord.workIn scope e = k.workIn scope e := by
  simp only [Core.workIn, Core.pressWork, Core.ploughWork, Core.awlWork, Core.takeWord_press, Core.takeWord_plough, Core.takeWord_streams]

end

variable {s : State} {img : Image} {c : CoreId} {no w : Nat}

/-! ### NOP (R142) -/

theorem execNeedleNop_of_word (h : s.atWord img c no w) (hop : wOp w = 0x00) :
    execNeedleNop c s = .next ((s.awlReads c).setCore c ((s.awlReads c).core c).takeWord) := by
  rw [execNeedleNop, needleDo_at h hop]
  rfl

/-! ### KETTLE_SIGNAL (R143, R151) -/

/-- The signal that a KETTLE_SIGNAL word of core `k` queues for core `d`. -/
def Core.wordSignal (k : Core) (d : CoreId) (w : Nat) : Signal :=
  let e := decide (k.needle.sect = .elastic)
  { target := d, id := BitVec.ofNat 8 (fld w 16 8), incr := BitVec.ofNat 16 (fld w 32 16), scope := BitVec.ofNat 2 (fld w 8 2),
    awaits := k.workIn (fld w 8 2) e, elastic := e }

theorem execKettleSignal_of_room (h : s.atWord img c no w) (hop : wOp w = 0x20) (hq : ((s.awlReads c).core c).signals.length < 64)
    {d : CoreId} (hd : d.val = if fld w 24 8 < 192 then fld w 24 8 else c.val) :
    let k := (s.awlReads c).core c
    execKettleSignal c s = .next ((s.awlReads c).setCore c { k.takeWord with signals := k.signals ++ [k.wordSignal d w] }) := by
  have htarget : (if h : fld w 24 8 < 192 then ⟨fld w 24 8, h⟩ else c : CoreId) = d := by
    rw [Fin.ext_iff, hd]
    split <;> rfl
  rw [execKettleSignal, needleDo_at h hop, if_neg (not_le.2 hq)]
  simp only [State.takeWord_modCore, htarget, Core.takeWord_signals, Core.takeWord_workIn, Core.takeWord_sect]
  rfl

theorem execKettleSignal_of_full (h : s.atWord img c no w) (hop : wOp w = 0x20) (hq : 64 ≤ ((s.awlReads c).core c).signals.length) :
    execKettleSignal c s = .next (s.awlReads c) := by
  rw [execKettleSignal, needleDo_at h hop, if_pos hq]

/-! ### KETTLE_WAIT (R152, R153) -/

theorem fld_lt (x lo n : Nat) : fld x lo n < 2 ^ n := Nat.mod_lt _ (Nat.two_pow_pos n)

/-- The identifier of a word fills its byte. -/
theorem toNat_wordId (w : Nat) : (BitVec.ofNat 8 (fld w 16 8)).toNat = fld w 16 8 := by
  rw [BitVec.toNat_ofNat, Nat.mod_eq_of_lt (fld_lt w 16 8)]

/-- Reading a kettle counter within the table (R151). -/
theorem kettle_get_eq_getD (k : Core) {i : Nat} (h : i < 256) : k.kettle.get ⟨i, h⟩ = k.kettle.getD i 0 := by
  simp [Vector.get_eq_getElem, Vector.getD, h]

/-- A satisfied identifier is the highest one when no higher one was satisfied. -/
theorem satisfied_elim_iff (x : Option Byte) (n : Nat) :
    x.elim true (fun y => decide (y.toNat ≤ n)) = true ↔ ∀ y, x = some y → y.toNat ≤ n := by
  cases x <;> simp

section
variable (h : s.atWord img c no w) (hop : wOp w = 0x21)

include h hop

theorem execKettleWait_of_reached (hv : fld w 32 16 ≤ (((s.awlReads c).core c).kettle.getD (fld w 16 8) 0).toNat) :
    let k := (s.awlReads c).core c
    execKettleWait c s = .next ((s.awlReads c).setCore c
      { k.takeWord with satisfied :=
          if ∀ x, k.satisfied = some x → x.toNat ≤ fld w 16 8 then some (BitVec.ofNat 8 (fld w 16 8)) else k.satisfied }) := by
  rw [execKettleWait, needleDo_at h hop]
  simp only [toNat_wordId, kettle_get_eq_getD, if_neg (not_lt.2 hv), State.takeWord_modCore, satisfied_elim_iff,
    Core.takeWord_satisfied]
  rfl

theorem execKettleWait_of_early (hv : (((s.awlReads c).core c).kettle.getD (fld w 16 8) 0).toNat < fld w 32 16) :
    execKettleWait c s = .next (s.awlReads c) := by
  rw [execKettleWait, needleDo_at h hop]
  simp only [toNat_wordId, kettle_get_eq_getD, if_pos hv]

end

/-! ### CADENCE (R154) -/

section
variable (h : s.atWord img c no w) (hop : wOp w = 0x30)

include h hop

theorem execCadence_of_released (hb : bitOf w 8 = true) (hr : ((s.awlReads c).core c).needle.released = true) :
    let past := ((s.awlReads c).core c).takeWord
    execCadence c s = .next ((s.awlReads c).setCore c { past with needle := { past.needle with waitRelease := false } }) := by
  rw [execCadence, needleDo_at h hop, if_pos hb, if_pos hr, State.modNeedle, State.takeWord_modCore]

theorem execCadence_of_waiting (hb : bitOf w 8 = true) (hr : ((s.awlReads c).core c).needle.released = false) :
    let k := (s.awlReads c).core c
    execCadence c s = .next ((s.awlReads c).setCore c { k with needle := { k.needle with waitRelease := true } }) := by
  rw [execCadence, needleDo_at h hop, if_pos hb, if_neg (by simp [hr])]
  rfl

theorem execCadence_of_due (hb : bitOf w 8 = false)
    (ht : ((s.awlReads c).core c).needle.releaseNow + fld w 16 24 ≤ (s.awlReads c).now) :
    execCadence c s = .next ((s.awlReads c).setCore c ((s.awlReads c).core c).takeWord) := by
  rw [execCadence, needleDo_at h hop, if_neg (by simp [hb]), if_pos ht]
  rfl

theorem execCadence_of_early (hb : bitOf w 8 = false)
    (ht : (s.awlReads c).now < ((s.awlReads c).core c).needle.releaseNow + fld w 16 24) :
    execCadence c s = .next (s.awlReads c) := by
  rw [execCadence, needleDo_at h hop, if_neg (by simp [hb]), if_neg (not_le.2 ht)]

end

/-! ### SNAPSHOT (R156) -/

theorem addSnap_of_new (set : Nat) (ship : Bool) (l : List SnapReq) (hl : ∀ q ∈ l, q.set ≠ set) :
    addSnap set ship l = l ++ [⟨set, ship⟩] := by
  induction l with
  | nil => rfl
  | cons q l ih =>
    obtain ⟨hq, hl⟩ := List.forall_mem_cons.1 hl
    rw [addSnap, if_neg hq, ih hl, List.cons_append]

theorem addSnap_of_requested (set : Nat) (old ship : Bool) (a b : List SnapReq) (ha : ∀ q ∈ a, q.set ≠ set) :
    addSnap set ship (a ++ [⟨set, old⟩] ++ b) = a ++ [⟨set, old || ship⟩] ++ b := by
  induction a with
  | nil => exact if_pos rfl
  | cons q a ih =>
    obtain ⟨hq, ha⟩ := List.forall_mem_cons.1 ha
    simpa only [List.cons_append, addSnap, if_neg hq, List.cons.injEq, true_and] using ih ha

theorem execSnapshot_of_word (h : s.atWord img c no w) (hop : wOp w = 0x50) {l : List SnapReq}
    (hl : addSnap (fld w 16 6) (bitOf w 8) (s.awlReads c).prog.snaps = l) : execSnapshot c s
      = .next (((s.awlReads c).modProg fun p => { p with snaps := l }).setCore c ((s.awlReads c).core c).takeWord) := by
  rw [execSnapshot, needleDo_at h hop, ← hl]
  rfl

end Sys2Proof.Machine

open Sys2Proof Sys2Proof.Machine

/-- Settles O14, one lemma per word and outcome. -/
theorem needleWords : Obligations.NeedleWords := by
  intro img c no w s h t k n past id v e
  exact ⟨execNeedleNop_of_word h, fun hop hq d hd => execKettleSignal_of_room h hop hq hd, execKettleSignal_of_full h,
    execKettleWait_of_reached h, execKettleWait_of_early h, execCadence_of_released h, execCadence_of_waiting h, execCadence_of_due h,
    execCadence_of_early h, fun hop hnew => execSnapshot_of_word h hop (addSnap_of_new _ _ _ hnew), fun a b ship hop hl ha =>
      execSnapshot_of_word h hop ((congrArg (addSnap _ _) hl).trans (addSnap_of_requested _ _ _ a b ha))⟩
end

