-- ==== Sys2Proof/Proofs/NeedleIssue.lean ====
section
/-!
SUPPORT. What the words RUN, STREAM, FABRIC_SEND and FABRIC_RECV do, one lemma per outcome, and what a table read that meets errors leaves
in a compiled program.
-/

namespace Sys2Proof.Machine

/-! ### Errors met in a compiled program (R219, R223, R224) -/

/-- From `s` to `t` the program stays, and so do the Press and the Plough of every core. -/
structure State.KeepsEngines (s t : State) : Prop where
  active : t.prog.active = s.prog.active
  press : ∀ d, (t.core d).press = (s.core d).press
  plough : ∀ d, (t.core d).plough = (s.core d).plough

section
variable {s t u : State} (c : CoreId)

theorem State.KeepsEngines.refl (s : State) : s.KeepsEngines s := ⟨rfl, fun _ => rfl, fun _ => rfl⟩

theorem State.KeepsEngines.trans (h : s.KeepsEngines t) (k : t.KeepsEngines u) : s.KeepsEngines u :=
  ⟨k.active.trans h.active, fun d => (k.press d).trans (h.press d), fun d => (k.plough d).trans (h.plough d)⟩

theorem State.KeepsEngines.of_cores (hc : t.cores = s.cores) (ha : t.prog.active = s.prog.active) : s.KeepsEngines t :=
  ⟨ha, fun d => by simp only [State.core, hc], fun d => by simp only [State.core, hc]⟩

theorem State.KeepsEngines.direct (h : s.KeepsEngines t) : t.direct = s.direct := by rw [State.direct, h.active, State.direct]

@[simp] theorem State.countCe_cores (i : SiteId) (mem : CoreMem) (r : BitVec 256) : (s.countCe i mem r).cores = s.cores := by
  simp only [State.countCe, apply_ite State.cores, State.raiseDev_cores, State.logAs_cores, State.modSite_cores, ite_self]

@[simp] theorem State.countCe_prog (i : SiteId) (mem : CoreMem) (r : BitVec 256) : (s.countCe i mem r).prog = s.prog := by
  simp only [State.countCe, apply_ite State.prog, State.raiseDev_prog, State.logAs_prog, State.modSite_prog, ite_self]

theorem State.fault_active (cause who : Nat) (r : Option (BitVec 256)) : (s.fault cause who r).prog.active = s.prog.active := by
  simp only [State.fault]; split <;> rfl

theorem State.faultNext_active (cause who : Nat) (r : Option (BitVec 256)) : (s.faultNext cause who r).prog.active = s.prog.active := by
  simp only [State.faultNext]; split <;> rfl

/-- A core fault of a compiled program is recorded and stops nothing (R18, R224). -/
theorem State.coreFault_keepsEngines (hd : s.direct = false) (cause : Nat) (r : Option (BitVec 256)) :
    s.KeepsEngines (s.coreFault c cause r) := by
  have hfault (s : State) : s.KeepsEngines (s.fault cause c.val r) := .of_cores (State.fault_cores _ _ _ _) (State.fault_active _ _ _)
  have hnext (s : State) : s.KeepsEngines (s.faultNext cause c.val r) :=
    .of_cores (State.faultNext_cores _ _ _ _) (State.faultNext_active _ _ _)
  have helastic : s.KeepsEngines (s.modProg fun p => { p with elasticFault := p.elasticFault.or (some cause) }) := .of_cores rfl rfl
  rw [State.coreFault, if_neg (by simp [hd])]
  split
  · refine helastic.trans ?_
    dsimp only
    split
    · exact hnext _
    · exact hfault _
  · exact hfault s

theorem State.meetMark_keepsEngines (hd : s.direct = false) (q : Nat) (m : EccMark) : s.KeepsEngines (s.meetMark c q m) := by
  simp only [State.meetMark]
  split
  · exact .refl s
  · have hmark : s.KeepsEngines (s.modCore c fun k => { k with ecc := k.ecc.filter (· ≠ m) }) := by
      refine ⟨rfl, fun d => ?_, fun d => ?_⟩ <;> rw [State.core_modCore] <;> split <;> simp_all
    exact hmark.trans (.of_cores (State.countCe_cores _ _ _) (by rw [State.countCe_prog]))
  · have hcount (i : SiteId) (r : BitVec 256) : s.KeepsEngines (s.countUe i r) := .of_cores rfl rfl
    exact (hcount _ _).trans (State.coreFault_keepsEngines c ((hcount _ _).direct.trans hd) _ _)

theorem State.touch_keepsEngines (hd : s.direct = false) (mem : CoreMem) (a n q : Nat) : s.KeepsEngines (s.touch c mem a n q) := by
  have hfold (l : List EccMark) : ∀ s : State, s.direct = false → s.KeepsEngines (l.foldl (fun s m => s.meetMark c q m) s) := by
    induction l with
    | nil => exact fun s _ => .refl s
    | cons m l ih =>
      intro s hd
      have hm := State.meetMark_keepsEngines c hd q m
      exact hm.trans (ih _ (hm.direct.trans hd))
  exact hfold _ s hd

/-- The two table reads of RUN (R147, R219). -/
theorem State.touchTables_keepsEngines (img : Image) (hd : s.direct = false) (k size i k' size' i' : Nat) :
    s.KeepsEngines ((s.touchTable img c k size i).touchTable img c k' size' i') := by
  have h : s.KeepsEngines (s.touchTable img c k size i) := State.touch_keepsEngines c hd _ _ _ _
  exact h.trans (State.touch_keepsEngines c (h.direct.trans hd) _ _ _ _)

end

variable {s : State} {img : Image} {c : CoreId} {no w : Nat}

/-- RUN is no word of a direct program (R157). -/
theorem State.direct_of_run (h : s.atWord img c no w) (hop : wOp w = 0x10) : (s.awlReads c).direct = false := by
  obtain ⟨ha, -, -, -, -, -, hok⟩ := h
  rw [State.direct, State.awlReads_prog, ha]
  refine Bool.eq_false_iff.2 fun hd => ?_
  simpa [State.directOk, directWord, hop] using hok hd

/-! ### RUN (R142, R145, R147, R148, R165, R193) -/

/-- The template that the RUN `w` runs, at the level in force for its layer (R148). -/
def State.wordTemplate (s : State) (img : Image) (c : CoreId) (w : Nat) : Nat :=
  s.runTemplate img c (s.core c).needle.sect (fld w 16 8)

/-- RUN has read its template and its descriptor (R147, R219). -/
def State.templateRead (s : State) (img : Image) (c : CoreId) (w : Nat) : State :=
  let tmpl := s.wordTemplate img c w
  (s.touchTable img c 0 64 tmpl).touchTable img c 1 128 (tDesc (s.template img c tmpl))

/-- The job that a RUN of a Plough template queues: `r` is the state in which the tables have been read (R193). -/
def State.wordJob (s r : State) (img : Image) (c : CoreId) (no w : Nat) : PloughJob :=
  let tmpl := s.wordTemplate img c w
  let x := s.template img c tmpl
  { template := tmpl, next := 0, total := nestSize (r.descriptor img c (tDesc x)), serial := no, layer := tLayer x,
    elastic := decide ((s.core c).needle.sect = .elastic) }

/-- What a core has once it has taken a RUN whose job waits in its Plough. -/
def Core.queueJob (k : Core) (j : PloughJob) : Core := { k.takeWord with plough := { k.plough with queue := k.plough.queue ++ [j] } }

section
variable (j : PloughJob)

@[simp] theorem Core.queueJob_running (k : Core) : (k.queueJob j).plough.running = k.plough.running := rfl
@[simp] theorem Core.queueJob_queue (k : Core) : (k.queueJob j).plough.queue = k.plough.queue ++ [j] := rfl

/-- The word is taken, and its job is queued. -/
def State.jobQueued (s : State) (c : CoreId) : State := s.setCore c ((s.core c).queueJob j)

theorem State.core_jobQueued : (s.jobQueued j c).core c = (s.core c).queueJob j := by
  rw [State.jobQueued, State.core_setCore, if_pos rfl]

/-- Queuing a job leaves the tables in endpaper memory. -/
theorem State.tableEntry_jobQueued (k size i : Nat) : (s.jobQueued j c).tableEntry img c k size i = s.tableEntry img c k size i := by
  rw [State.tableEntry, State.core_jobQueued]
  rfl

theorem State.ploughNext_of_running (hr : (s.core c).plough.running = true) : s.ploughNext c = s := by
  simp only [State.ploughNext]
  split
  · exact if_pos hr
  · rfl

/-- An idle Plough begins the first invocation of the only job that waits (R193). -/
theorem State.ploughNext_jobQueued (ha : s.prog.active = some img) (hr : (s.core c).plough.running = false)
    (hq : (s.core c).plough.queue = []) (hj : j.next = 0) :
    let x := s.template img c j.template
    let d := s.descriptor img c (tDesc x)
    let q := (s.core c).queueJob j
    (s.jobQueued j c).ploughNext c = s.setCore c { q with
      plough := q.plough.start (tKernel (s.tailTemplate img c x d 0)) (tActAddr x + nestOffset d 0 0) (nestOffset d 1 0)
        (512 * tAccRow x + nestOffset d 2 0) (tAux x + nestOffset d 3 0) } := by
  have hactive : (s.jobQueued j c).prog.active = some img := ha
  have htemplate (t : Nat) : (s.jobQueued j c).template img c t = s.template img c t := State.tableEntry_jobQueued j _ _ _
  have hdescriptor (d : Nat) : (s.jobQueued j c).descriptor img c d = s.descriptor img c d := State.tableEntry_jobQueued j _ _ _
  have htail (x d n : Nat) : (s.jobQueued j c).tailTemplate img c x d n = s.tailTemplate img c x d n :=
    congrArg (fun f => Machine.tailTemplate f x d n) (funext htemplate)
  simp only [State.ploughNext, State.core_jobQueued, Core.queueJob_queue, Core.queueJob_running, hq, List.nil_append, hactive, hr,
    Bool.false_eq_true, if_false, htail, htemplate, hdescriptor, hj]
  exact State.modCore_modCore s c (·.queueJob j) _

end

section
variable {r : State} (h : s.atWord img c no w) (hop : wOp w = 0x10) (hread : r = (s.awlReads c).templateRead img c w)

include h hop hread

theorem State.templateRead_keepsEngines : (s.awlReads c).KeepsEngines r :=
  hread ▸ State.touchTables_keepsEngines c img (State.direct_of_run h hop) _ _ _ _ _ _

section
variable (hk : tKind ((s.awlReads c).template img c ((s.awlReads c).wordTemplate img c w)) = 0)

include hk

theorem execRun_of_pressRoom (hq : ((r.core c).press.queue.filter (·.taken)).length < 4) :
    execRun c s = .next (r.modCore c fun k =>
      { k.takeWord with press := { k.press with queue := modJob no (fun j => { j with taken := true }) k.press.queue } }) := by
  rw [(State.templateRead_keepsEngines h hop hread).press c] at hq
  rw [execRun, needleDo_at h hop, hread]
  refine congrArg Host.Outcome.next ((if_pos hk).trans ((if_neg (not_le.2 hq)).trans ?_))
  exact State.modCore_modCore _ c Core.takeWord _

theorem execRun_of_pressFull (hq : 4 ≤ ((r.core c).press.queue.filter (·.taken)).length) : execRun c s = .next r := by
  rw [(State.templateRead_keepsEngines h hop hread).press c] at hq
  rw [execRun, needleDo_at h hop, hread]
  exact congrArg Host.Outcome.next ((if_pos hk).trans (if_pos hq))

end

section
variable (hk : tKind ((s.awlReads c).template img c ((s.awlReads c).wordTemplate img c w)) ≠ 0)

include hk

theorem execRun_of_ploughFull (hq : 4 ≤ (r.core c).plough.queue.length) : execRun c s = .next r := by
  rw [(State.templateRead_keepsEngines h hop hread).plough c] at hq
  rw [execRun, needleDo_at h hop, hread]
  exact congrArg Host.Outcome.next ((if_neg hk).trans (if_pos hq))

section
variable (hq : (r.core c).plough.queue.length < 4)

include hq

theorem execRun_of_ploughRoom : execRun c s = .next ((r.jobQueued ((s.awlReads c).wordJob r img c no w) c).ploughNext c) := by
  rw [(State.templateRead_keepsEngines h hop hread).plough c] at hq
  rw [execRun, needleDo_at h hop, hread]
  refine congrArg Host.Outcome.next ((if_neg hk).trans ((if_neg (not_le.2 hq)).trans ?_))
  exact congrArg (·.ploughNext c) (State.modCore_modCore _ c Core.takeWord _)

theorem execRun_of_ploughRunning (hr : (r.core c).plough.running = true) :
    execRun c s = .next (r.setCore c { (r.core c).takeWord with
      plough := { (r.core c).plough with queue := (r.core c).plough.queue ++ [(s.awlReads c).wordJob r img c no w] } }) := by
  change _ = Host.Outcome.next (r.jobQueued _ c)
  rw [execRun_of_ploughRoom h hop hread hk hq, State.ploughNext_of_running]
  rw [State.core_jobQueued, Core.queueJob_running, hr]

theorem execRun_of_ploughIdle {x d : Nat} (hr : (r.core c).plough.running = false) (hempty : (r.core c).plough.queue = [])
    (ha : r.prog.active = some img) (hx : r.template img c ((s.awlReads c).wordTemplate img c w) = x)
    (hd : r.descriptor img c (tDesc x) = d) :
    let q := { (r.core c).plough with queue := (r.core c).plough.queue ++ [(s.awlReads c).wordJob r img c no w] }
    execRun c s = .next (r.setCore c { (r.core c).takeWord with
      plough := q.start (tKernel (r.tailTemplate img c x d 0)) (tActAddr x + nestOffset d 0 0) (nestOffset d 1 0)
        (512 * tAccRow x + nestOffset d 2 0) (tAux x + nestOffset d 3 0) }) := by
  subst hx hd
  rw [execRun_of_ploughRoom h hop hread hk hq, State.ploughNext_jobQueued _ ha hr hempty rfl]
  rfl

end
end
end

/-! ### STREAM (R142, R165, R170) -/

section
variable (h : s.atWord img c no w) (hop : wOp w = 0x11)

include h hop

theorem execStream_of_room
    (hq : (s.awlReads c).awlQueue img c (decide (((s.awlReads c).core c).needle.sect = .elastic)) < 4) :
    execStream c s = .next ((s.awlReads c).modCore c fun k => k.takeWord.modStrm (fld w 16 6) fun z =>
      { z with arms := z.arms.map fun a => if a.serial = no then { a with issued := true } else a }) := by
  rw [execStream, needleDo_at h hop]
  exact congrArg Host.Outcome.next ((if_neg (not_le.2 hq)).trans (State.takeWord_modCore _))

theorem execStream_of_full
    (hq : 4 ≤ (s.awlReads c).awlQueue img c (decide (((s.awlReads c).core c).needle.sect = .elastic))) :
    execStream c s = .next (s.awlReads c) := by
  rw [execStream, needleDo_at h hop]
  exact congrArg Host.Outcome.next (if_pos hq)

end

/-! ### FABRIC_SEND and FABRIC_RECV (R155, R263) -/

/-- A fabric word that comes now has missed its slot: the slot has opened, and slots are kept (R155, R263, R295, R303). -/
def State.missesSlot (s : State) (img : Image) (slot : Nat) : Prop :=
  (s.fab.openSlots.contains slot = true ∨ s.prog.releaseNow + s.openOffset img (s.slotEntry img slot) < s.now)
    ∧ s.cad.hold = false ∧ s.fab.untimed = false ∧ s.fab.cover = false

section
variable (recv : Bool)

theorem fabricWord_of_full (hq : 4 ≤ (s.core c).fabricQ.length) : fabricWord c recv img no w s = s := if_pos hq

theorem fabricWord_of_room (hq : (s.core c).fabricQ.length < 4) (hm : ¬ s.missesSlot img (fld w 16 8)) :
    let k := s.core c
    fabricWord c recv img no w s = s.setCore c { k.takeWord with
      fabricQ := k.fabricQ ++ [(fld w 16 8, recv, fld w 64 52, BitVec.ofNat 8 (fld w 32 8), bitOf w 8, no)] } := by
  refine (if_neg (not_le.2 hq)).trans ((if_neg ?_).trans (State.takeWord_modCore _))
  simpa [State.missesSlot, State.takeWord] using hm

theorem fabricWord_of_missed (hq : (s.core c).fabricQ.length < 4) (hm : s.missesSlot img (fld w 16 8)) :
    fabricWord c recv img no w s = ((s.setCore c (s.core c).takeWord).fault 0x10 c.val).modFab fun f =>
      { f with doneSlots := fld w 16 8 :: f.doneSlots } := by
  refine (if_neg (not_le.2 hq)).trans (if_pos ?_)
  simpa [State.missesSlot, State.takeWord] using hm

end

end Sys2Proof.Machine

open Sys2Proof Sys2Proof.Machine

/-- Settles O16, one lemma per word and outcome; the two fabric words share theirs. -/
theorem needleIssue : Obligations.NeedleIssue := by
  intro img c no w s h t n tmpl x d r queued i slot late fabric
  refine ⟨fun hop => execRun_of_pressRoom h hop rfl, fun hop => execRun_of_pressFull h hop rfl,
    fun hop => execRun_of_ploughFull h hop rfl, fun hop hk hq => ⟨fun hr => ?_, fun hr hempty ha hx hd => ?_⟩,
    execStream_of_room h, execStream_of_full h, fun hop => ⟨fun hq => ?_, fun hq hm => ?_, fun hq hm => ?_⟩,
    fun hop => ⟨fun hq => ?_, fun hq hm => ?_, fun hq hm => ?_⟩⟩
  · exact execRun_of_ploughRunning h hop rfl hk hq hr
  · exact execRun_of_ploughIdle (r := r) (x := x) (d := d) h hop rfl hk hq hr hempty ha hx hd
  · exact (needleDo_at h hop _).trans (congrArg _ (fabricWord_of_full _ hq))
  · exact (needleDo_at h hop _).trans (congrArg _ (fabricWord_of_room _ hq hm))
  · exact (needleDo_at h hop _).trans (congrArg _ (fabricWord_of_missed _ hq hm))
  · exact (needleDo_at h hop _).trans (congrArg _ (fabricWord_of_full _ hq))
  · exact (needleDo_at h hop _).trans (congrArg _ (fabricWord_of_room _ hq hm))
  · exact (needleDo_at h hop _).trans (congrArg _ (fabricWord_of_missed _ hq hm))
end

