-- ==== Sys2Proof/Proofs/HostCancel.lean ====
section
/-!
SUPPORT. What CANCEL does when it begins, one lemma per kind of target; `b` is its body.
-/

namespace Sys2Proof.Machine

variable {s : State} {x t : Handle} {b : Nat} {e : HandleEntry}

/-- A CANCEL of a command that has not begun, or waits: the target completes CANCELLED and the CANCEL completes OK (R325). -/
def State.cancelled (s : State) (t x : Handle) : State := (s.complete t 0x0201 0 0).complete x 0 0 0

/-- The target is no program, no waiting ACTIVATE and no elastic section, neither under way nor waiting. -/
def State.plainTarget (s : State) (t : Handle) : Prop :=
  s.prog.handle ≠ some t ∧ s.prog.activating ≠ some t ∧ s.prog.elasticPending ≠ some t ∧ s.prog.elasticHandle ≠ some t

/-- The commands that CANCEL completes before they begin: DMA_WRITE, DMA_READ, INPUT, LOAD, ACTIVATE and ELASTIC_START (R325). -/
def cancellable : List Nat := [0x01, 0x02, 0x03, 0x10, 0x11, 0x14]

section
variable (hb : s.begins x 0x13 = some b) (ht : t = BitVec.ofNat 32 (fld b 0 32))

include hb ht

theorem execCancel_of_ended (hr : s.running? t = none) : execCancel x s = .next (s.complete x 0x0002 0 0) := by
  subst ht
  simp only [execCancel, hb, hr]

section
variable (hr : s.running? t = some e)

include hr

theorem execCancel_of_program (hp : s.prog.handle = some t) :
    execCancel x s = .next ((s.modProg fun p => { p with phase := .cancelling }).markBegun x) := by
  subst ht
  simp only [execCancel, hb, hr, if_pos hp]

theorem execCancel_of_activating (hp : s.prog.handle ≠ some t) (ha : s.prog.activating = some t) :
    execCancel x s = .next ((s.modProg fun p => { p with activating := none }).cancelled t x) := by
  subst ht
  simp only [execCancel, hb, hr, if_neg hp, if_pos ha, State.cancelled]

theorem execCancel_of_elasticPending (hp : s.prog.handle ≠ some t) (ha : s.prog.activating ≠ some t)
    (he : s.prog.elasticPending = some t) :
    execCancel x s = .next ((s.modProg fun p => { p with elasticPending := none }).cancelled t x) := by
  subst ht
  simp only [execCancel, hb, hr, if_neg hp, if_neg ha, if_pos he, State.cancelled]

theorem execCancel_of_elasticSection {img : Image} (hp : s.prog.handle ≠ some t) (ha : s.prog.activating ≠ some t)
    (he : s.prog.elasticPending ≠ some t) (hs : s.prog.elasticHandle = some t) (hi : s.prog.active = some img) :
    execCancel x s = .next ((s.failElastic 0x0201 0).complete x 0 0 0) := by
  subst ht
  simp only [execCancel, hb, hr, if_neg hp, if_neg ha, if_neg he, if_pos hs, hi]

/-- With another target its opcode decides. -/
theorem execCancel_of_plainTarget (hp : s.plainTarget t) : execCancel x s = .next (
    if e.opcode.toNat ∈ cancellable then s.cancelled t x
    else if e.opcode.toNat = 0x18 then (s.modProg fun p => { p with stepWaiters := p.stepWaiters.erase t }).cancelled t x
    else s.complete x 0x0002 0 0) := by
  obtain ⟨hh, ha, he, hs⟩ := hp
  subst ht
  simp only [execCancel, hb, hr, if_neg hh, if_neg ha, if_neg he, if_neg hs, State.cancelled, cancellable, List.mem_cons,
    List.not_mem_nil, or_false, apply_ite Host.Outcome.next]

theorem execCancel_of_cancellable (hp : s.plainTarget t) (hop : e.opcode.toNat ∈ cancellable) :
    execCancel x s = .next (s.cancelled t x) := by
  rw [execCancel_of_plainTarget hb ht hr hp, if_pos hop]

theorem execCancel_of_waitStep (hp : s.plainTarget t) (hop : e.opcode.toNat = 0x18) :
    execCancel x s = .next ((s.modProg fun p => { p with stepWaiters := p.stepWaiters.erase t }).cancelled t x) := by
  have hnot : e.opcode.toNat ∉ cancellable := hop ▸ by decide
  rw [execCancel_of_plainTarget hb ht hr hp, if_neg hnot, if_pos hop]

theorem execCancel_of_other (hp : s.plainTarget t) (hop : e.opcode.toNat ∉ cancellable ++ [0x18]) :
    execCancel x s = .next (s.complete x 0x0002 0 0) := by
  obtain ⟨hnot, hwait⟩ := not_or.1 (mt List.mem_append.2 hop)
  rw [execCancel_of_plainTarget hb ht hr hp, if_neg hnot, if_neg (mt List.mem_singleton.2 hwait)]

end
end

end Sys2Proof.Machine

open Sys2Proof Sys2Proof.Machine

/-- Settles O36, one lemma per kind of target. -/
theorem hostCancel : Obligations.HostCancel := by
  intro x t b s hb ht p done none'
  exact ⟨execCancel_of_ended hb ht, fun e hr => ⟨execCancel_of_program hb ht hr, execCancel_of_activating hb ht hr,
    execCancel_of_elasticPending hb ht hr, fun img => execCancel_of_elasticSection hb ht hr, execCancel_of_cancellable hb ht hr,
    execCancel_of_waitStep hb ht hr, execCancel_of_other hb ht hr⟩⟩
end

