-- ==== Sys2Proof/Proofs/KettleSignals.lean ====
section
/-!
SUPPORT. What KETTLE_SIGNAL_APPLY does, one lemma per outcome: signals of the Needle and completion signals of the Awl.
-/

namespace Sys2Proof.Machine

variable {s : State} {c : CoreId} {g : Signal}

/-- Signals reach their counters while a program is active and the core clock runs (R151, R371). -/
def State.signalsMove (s : State) : Prop := s.prog.active.isSome = true ∧ s.aclkRuns = true

/-- The signal `g`, taken from core `k`'s signals, reaches its counter: `k'` is the core without it (R151). -/
def State.applySignal (s : State) (c : CoreId) (k' : Core) (g : Signal) : State := (s.setCore c k').modCore g.target (·.addKettle g)

/-- What the increment does to the counters. -/
theorem Core.addKettle_eq (k : Core) (g : Signal) :
    k.addKettle g = { k with kettle := k.kettle.set g.id.toNat (k.kettle.getD g.id.toNat 0 + g.incr) g.id.isLt } := by
  rw [Core.addKettle, kettle_get_eq_getD k g.id.isLt]

/-- The work that a signal awaits is complete when none of it is outstanding (R151). -/
theorem Core.scopeDone_iff (k : Core) (g : Signal) : k.scopeDone g = true ↔ ∀ n ∈ g.awaits, n ∉ k.workIn g.scope.toNat true := by
  simp [Core.scopeDone]

theorem execKettleSignalApply_of_still (completion : Bool) (h : ¬ s.signalsMove) : execKettleSignalApply c completion s = .next s := by
  refine if_pos ?_
  simpa [State.signalsMove, ← Option.isNone_iff_eq_none, imp_iff_not_or] using h

theorem State.still_of_signalsMove (h : s.signalsMove) : ¬ (s.prog.active = none ∨ (!s.aclkRuns) = true) := by
  obtain ⟨ha, hc⟩ := h
  simp [hc, ← Option.isNone_iff_eq_none, Option.isNone_eq_false_iff, ha]

/-! ### Completion signals (R143, R151) -/

theorem execKettleSignalApply_of_noCompletion (h : (s.core c).doneSignals = []) : execKettleSignalApply c true s = .next s := by
  simp only [execKettleSignalApply, h, if_true, ite_self]

theorem execKettleSignalApply_of_completion (hm : s.signalsMove) {rest : List Signal} (h : (s.core c).doneSignals = g :: rest) :
    execKettleSignalApply c true s = .next (s.applySignal c { s.core c with doneSignals := rest } g) := by
  simp only [execKettleSignalApply, h, if_true, if_neg (State.still_of_signalsMove hm)]
  rfl

/-! ### Signals of the Needle (R151, R164) -/

theorem execKettleSignalApply_of_noneComplete (h : (s.core c).nextSignal = none) : execKettleSignalApply c false s = .next s := by
  simp only [execKettleSignalApply, h, Bool.false_eq_true, if_false, ite_self]

theorem Core.nextSignal_eq_none {k : Core} (h : ∀ x ∈ k.signals, k.scopeDone x ≠ true) : k.nextSignal = none :=
  List.find?_eq_none.2 h

/-- The oldest signal whose work is complete is the next one. -/
theorem Core.nextSignal_eq_some {k : Core} {a b : List Signal} (hs : k.signals = a ++ g :: b) (hg : k.scopeDone g = true)
    (ha : ∀ x ∈ a, k.scopeDone x ≠ true) : k.nextSignal = some g ∧ k.signals.erase g = a ++ b := by
  refine ⟨?_, ?_⟩
  · rw [Core.nextSignal, hs, List.find?_append, List.find?_eq_none.2 ha, Option.none_or, List.find?_cons_of_pos hg]
  · have hnot : g ∉ a := fun hmem => ha g hmem hg
    rw [hs, List.erase_append_right _ hnot, List.erase_cons_head]

theorem execKettleSignalApply_of_complete (hm : s.signalsMove) {a b : List Signal} (hs : (s.core c).signals = a ++ g :: b)
    (hg : (s.core c).scopeDone g = true) (ha : ∀ x ∈ a, (s.core c).scopeDone x ≠ true) :
    execKettleSignalApply c false s = .next (s.applySignal c { s.core c with signals := a ++ b } g) := by
  obtain ⟨hnext, herase⟩ := Core.nextSignal_eq_some hs hg ha
  simp only [execKettleSignalApply, hnext, Bool.false_eq_true, if_false, if_neg (State.still_of_signalsMove hm), ← herase]
  rfl

end Sys2Proof.Machine

open Sys2Proof Sys2Proof.Machine

/-- Settles O18, one lemma per outcome. -/
theorem kettleSignals : Obligations.KettleSignals := by
  intro c s k add runs complete
  have hdone (g : Signal) : k.scopeDone g = true ↔ complete g := k.scopeDone_iff g
  have hadd (k' : Core) (g : Signal) : s.applySignal c k' g = add g (s.setCore c k') :=
    congrArg _ (funext fun k => k.addKettle_eq g)
  refine ⟨fun g rest hm h => ?_, fun a g b hm hs hg ha => ?_, fun h => ?_, fun h => ?_⟩
  · exact (execKettleSignalApply_of_completion hm h).trans (congrArg _ (hadd _ g))
  · exact (execKettleSignalApply_of_complete hm hs ((hdone g).2 hg) fun x hx => mt (hdone x).1 (ha x hx)).trans (congrArg _ (hadd _ g))
  · exact h.elim (execKettleSignalApply_of_still true) execKettleSignalApply_of_noCompletion
  · exact h.elim (execKettleSignalApply_of_still false) fun hx =>
      execKettleSignalApply_of_noneComplete (Core.nextSignal_eq_none fun x hmem => mt (hdone x).1 (hx x hmem))
end

