-- ==== Sys2Proof/Proofs/StepReleases.lean ====
section
/-!
SUPPORT. What STEP_RELEASE and CORE_WAKE do, one lemma per outcome.
-/

namespace Sys2Proof.Machine

variable {s : State} {img : Image} {c : CoreId}

/-! ### What a release leaves -/

@[simp] theorem State.beginStep_cores (s : State) : s.beginStep.cores = s.cores := by
  simp only [State.beginStep]
  split
  · split <;> simp
  · rfl

/-- `t` with its step released at the instant that `s` shows, and its votes and slots begun anew (R154, R261). -/
def State.slotsAnew (s t : State) : State :=
  { t with
    prog := { t.prog with released := true, releaseAt := s.cad.counter, releaseNow := s.now, lastFrame := s.cad.frame, startedRel := true,
                          checkpointWait := false },
    cad := { t.cad with votes := [], voted := false },
    fab := { t.fab with openSlots := [], doneSlots := [], receiving := [] } }

/-- The first release of a step; the first step of a program raises PROGRAM_STARTED (R325). `t` is `s` with its cores released. -/
theorem State.beginStep_eq {s t : State} (hp : t.prog = s.prog) (hc : t.cad = s.cad) (hn : t.now = s.now) : t.beginStep =
    if s.prog.startedRel then s.slotsAnew t else match s.prog.handle with
      | some x => ((s.slotsAnew t).modEntry x fun e => { e with exclusiveDone := true }).raise 0x0310 noCore (item2 s.cad.frame.toNat)
      | none => s.slotsAnew t := by
  rw [State.slotsAnew, ← hp, ← hc, ← hn]
  cases hs : t.prog.startedRel with
  | true =>
    simp only [State.beginStep, hs]
    rfl
  | false =>
    simp only [State.beginStep, hs]
    rfl

/-- From `s` to `t` the step's number, the counter and the modes of running stay. -/
structure State.SameStep (s t : State) : Prop where
  step : t.prog.step = s.prog.step
  counter : t.cad.counter = s.cad.counter
  untimed : t.fab.untimed = s.fab.untimed
  cover : t.fab.cover = s.fab.cover

theorem State.SameStep.trans {t u : State} (h : s.SameStep t) (k : t.SameStep u) : s.SameStep u :=
  ⟨k.step.trans h.step, k.counter.trans h.counter, k.untimed.trans h.untimed, k.cover.trans h.cover⟩

theorem State.beginStep_sameStep (s : State) : s.SameStep s.beginStep := by
  simp only [State.beginStep]
  split
  · split
    · constructor <;> simp [Cadence.counter]
    · exact ⟨rfl, rfl, rfl, rfl⟩
  · exact ⟨rfl, rfl, rfl, rfl⟩

/-! ### STEP_RELEASE (R141, R154, R209, R261, R264) -/

/-- Core `c` is a core of the program that is not released yet and whose instant has come (R154). -/
def State.releaseDue (s : State) (img : Image) (c : CoreId) : Bool :=
  decide (c.val < img.cores) && !(s.core c).needle.released && (s.releaseNow? img c).isSome

theorem State.mem_releasable : c ∈ s.releasable img ↔ s.releaseDue img c = true := by
  simp only [State.releasable, State.releaseDue, allCores, List.mem_filter, List.mem_finRange, true_and, Bool.and_eq_true, and_assoc]

/-- Nothing holds the release back: the steps run in their clocks, no core sleeps, and neither an input (log entry 45) nor a restored set
(log entry 39) is missing. -/
def State.mayRelease (s : State) : Prop :=
  s.prog.phase = .steps ∧ s.cad.hold = false ∧ s.clk.lost = false ∧ s.clk.returning = false
    ∧ (s.prog.recovering = true → s.replaying = true) ∧ s.inputMissing = false ∧ s.prog.awaiting = [] ∧ ∀ c, (s.core c).asleep = false

/-- The cores whose instant has come begin their schedules. -/
def State.coresReleased (s : State) (img : Image) : State :=
  { s with cores := Vector.ofFn fun (c : CoreId) =>
      if s.releaseDue img c then (s.core c).atRelease s.prog.schedule s.now s.cad.frame else s.core c }

theorem State.core_coresReleased : (s.coresReleased img).core c =
    if s.releaseDue img c then (s.core c).atRelease s.prog.schedule s.now s.cad.frame else s.core c :=
  State.core_ofFn _ c

theorem State.foldl_atRelease :
    (s.releasable img).foldl (fun t c => t.modCore c (·.atRelease s.prog.schedule s.now s.cad.frame)) s = s.coresReleased img := by
  have hnodup : (s.releasable img).Nodup := img.coreList_nodup.filter _
  refine (State.foldl_setCore (G := fun t c => (t.core c).atRelease s.prog.schedule s.now s.cad.frame)
    (fun _ _ => rfl) ?_ _ hnodup s).trans ?_
  · intro t c d k hd
    rw [State.core_setCore, if_neg hd]
  · simp only [State.mem_releasable, State.coresReleased]

@[simp] theorem State.coresReleased_prog : (s.coresReleased img).prog = s.prog := by simp only [State.coresReleased]
@[simp] theorem State.coresReleased_cad : (s.coresReleased img).cad = s.cad := by simp only [State.coresReleased]
@[simp] theorem State.coresReleased_fab : (s.coresReleased img).fab = s.fab := by simp only [State.coresReleased]
@[simp] theorem State.coresReleased_now : (s.coresReleased img).now = s.now := by simp only [State.coresReleased]

/-- The step begins with the first core that is released. -/
def State.stepBegun (s : State) (img : Image) : State :=
  if s.prog.released then s.coresReleased img else (s.coresReleased img).beginStep

/-- The frame that RESUME named has served once every core is released (R264). -/
def State.stepReleasedOn (s : State) (img : Image) : State :=
  if ∀ c : CoreId, c.val < img.cores → ((s.coresReleased img).core c).needle.released = true then
    (s.stepBegun img).modCad fun c => { c with resumeFrame := none }
  else s.stepBegun img

theorem State.core_stepBegun : (s.stepBegun img).core c = (s.coresReleased img).core c := by
  rw [State.stepBegun]
  split
  · rfl
  · rw [State.core, State.beginStep_cores, State.core]

theorem State.stepReleasedOn_sameStep (s : State) (img : Image) : s.SameStep (s.stepReleasedOn img) := by
  have hcores : s.SameStep (s.coresReleased img) := by constructor <;> simp
  have hbegun : s.SameStep (s.stepBegun img) := by
    rw [State.stepBegun]
    split
    · exact hcores
    · exact hcores.trans (State.beginStep_sameStep _)
  have hresume (t : State) : t.SameStep (t.modCad fun c => { c with resumeFrame := none }) := ⟨rfl, rfl, rfl, rfl⟩
  rw [State.stepReleasedOn]
  split
  · exact hbegun.trans (hresume _)
  · exact hbegun

/-- A late release raises CADENCE_LATE, but in untimed running and cover mode (R154, R295, R303). -/
def State.noteLate (s : State) (late : Bool) : State :=
  if late ∧ !s.fab.untimed ∧ !s.fab.cover then s.raiseStep 0x0302 noCore (item2 s.prog.step.toNat ++ item2 s.cad.counter.toNat) else s

section
variable (ha : s.prog.active = some img)

include ha

theorem execStepRelease_of_held (h : ¬ s.mayRelease ∨ ∀ c, s.releaseDue img c = false) : execStepRelease s = .next s := by
  simp only [execStepRelease, ha]
  refine if_pos ?_
  rcases h with h | h
  · by_contra hn
    simp only [not_or] at hn
    obtain ⟨hphase, -, hhold, hlost, hret, hrec, hin, hwait, hsleep⟩ := hn
    refine h ⟨not_not.1 hphase, by simpa using hhold, by simpa using hlost, by simpa using hret, by simpa using hrec, by simpa using hin,
      not_not.1 hwait, by simpa [allCores] using hsleep⟩
  · refine .inr (.inl (List.eq_nil_iff_forall_not_mem.2 fun c hc => ?_))
    simp [State.mem_releasable, h c] at hc

theorem execStepRelease_of_due (h : s.mayRelease) (hd : ∃ c, s.releaseDue img c = true) : execStepRelease s = .next
    ((s.stepReleasedOn img).noteLate ((s.releasable img).any fun c => s.releaseNow? img c == some true)) := by
  obtain ⟨hphase, hhold, hlost, hret, hrec, hin, hwait, hsleep⟩ := h
  obtain ⟨d, hd⟩ := hd
  have hcs : s.releasable img ≠ [] := List.ne_nil_of_mem (State.mem_releasable.2 hd)
  have hfree : ¬ (s.prog.phase ≠ .steps ∨ s.releasable img = [] ∨ s.cad.hold ∨ s.clk.lost ∨ s.clk.returning
      ∨ (s.prog.recovering ∧ !s.replaying) ∨ s.inputMissing ∨ s.prog.awaiting ≠ []
      ∨ allCores.any fun (c : CoreId) => (s.core c).asleep) := by
    simpa [hphase, hcs, hhold, hlost, hret, hin, hwait, hsleep, allCores] using hrec
  have hall : ((img.coreList.all fun c => ((s.stepBegun img).core c).needle.released) = true)
      ↔ ∀ c : CoreId, c.val < img.cores → ((s.coresReleased img).core c).needle.released = true := by
    simp only [List.all_eq_true, Image.mem_coreList, State.core_stepBegun]
  have hon : s.stepReleasedOn img = if img.coreList.all fun c => ((s.stepBegun img).core c).needle.released then
      (s.stepBegun img).modCad fun c => { c with resumeFrame := none } else s.stepBegun img := by
    rw [State.stepReleasedOn, if_congr hall rfl rfl]
  rw [execStepRelease, ha, hon]
  refine (if_neg hfree).trans (congrArg Host.Outcome.next ?_)
  rw [State.foldl_atRelease]
  rfl

/-- The cores that are released at once, some of them late. -/
theorem execStepRelease_of_late (h : s.mayRelease) (hl : ∃ c, s.releaseDue img c = true ∧ s.releaseNow? img c = some true)
    (hu : s.fab.untimed = false) (hc : s.fab.cover = false) : execStepRelease s
      = .next ((s.stepReleasedOn img).raiseStep 0x0302 noCore (item2 s.prog.step.toNat ++ item2 s.cad.counter.toNat)) := by
  obtain ⟨c, hdue, hlate⟩ := hl
  obtain ⟨hstep, hcounter, huntimed, hcover⟩ := s.stepReleasedOn_sameStep img
  have hany : ((s.releasable img).any fun c => s.releaseNow? img c == some true) = true :=
    List.any_eq_true.2 ⟨c, State.mem_releasable.2 hdue, by simp [hlate]⟩
  rw [execStepRelease_of_due ha h ⟨c, hdue⟩, State.noteLate, if_pos (by simp [hany, huntimed, hcover, hu, hc]), hstep, hcounter]

theorem execStepRelease_of_quiet (h : s.mayRelease) (hd : ∃ c, s.releaseDue img c = true)
    (hq : (∀ c, s.releaseDue img c = true → s.releaseNow? img c = some false) ∨ s.fab.untimed = true ∨ s.fab.cover = true) :
    execStepRelease s = .next (s.stepReleasedOn img) := by
  obtain ⟨-, -, huntimed, hcover⟩ := s.stepReleasedOn_sameStep img
  have hnot : ¬ (((s.releasable img).any fun c => s.releaseNow? img c == some true) = true
      ∧ (!(s.stepReleasedOn img).fab.untimed) = true ∧ (!(s.stepReleasedOn img).fab.cover) = true) := by
    rintro ⟨hany, hu, hc⟩
    obtain ⟨c, hmem, hlate⟩ := List.any_eq_true.1 hany
    rcases hq with hq | hq | hq
    · simp [hq c (State.mem_releasable.1 hmem)] at hlate
    · simp [huntimed, hq] at hu
    · simp [hcover, hq] at hc
  rw [execStepRelease_of_due ha h hd, State.noteLate, if_neg hnot]

end

/-- The release instant in the steps of a program that neither replays nor resumes: tick TICK of frame F + FRAMES, or of a later frame
(R154). -/
theorem State.releaseNow?_of_steady (hr : s.replaying = false) (hv : s.cad.valid = true)
    (ht : s.cad.tick.toNat = (s.releaseWord img c).1) (hf : s.cad.resumeFrame = none) (hu : s.fab.untimed = false)
    (hc : s.fab.cover = false) (hn : s.prog.discards = 0) :
    let due := (s.core c).needle.lastFrame.toNat + (s.releaseWord img c).2
    s.releaseNow? img c = if s.cad.frame.toNat < due then none else some (decide (due < s.cad.frame.toNat)) := by
  simp only [State.releaseNow?, hr, hv, ht, hf, hu, hc, hn, Bool.false_eq_true, false_and, if_false, Bool.not_true, not_true_eq_false,
    ne_eq, or_self, Bool.or_self, lt_irrefl]
  rcases lt_trichotomy s.cad.frame.toNat ((s.core c).needle.lastFrame.toNat + (s.releaseWord img c).2) with h | h | h
  · rw [if_neg h.ne, if_neg h.not_gt, if_pos h]
  · rw [if_pos h, if_neg h.not_lt, decide_eq_false h.not_gt]
  · rw [if_neg h.ne', if_pos h, if_neg h.not_gt, decide_eq_true h]

/-! ### CORE_WAKE (R369) -/

/-- The sleeping cores of a program, in rising order. -/
def State.sleepers (s : State) (img : Image) : List CoreId := img.coreList.filter fun c => (s.core c).asleep

/-- How many cores have woken in this tick. -/
def State.wokenNow (s : State) : Nat := if s.prog.woken.1 = s.now then s.prog.woken.2 else 0

/-- The instant from which sleeping cores wake has passed, or waking does not wait for it (R369). -/
def State.wakeDue (s : State) (img : Image) : Prop :=
  s.wakePassed img (s.sleepers img) 1 = true ∨ s.replaying = true ∨ s.fab.untimed = true ∨ s.fab.cover = true
    ∨ s.cad.resumeFrame.isSome = true

theorem State.foldl_wake (l : List CoreId) (hl : l.Nodup) : l.foldl (fun s c => s.modCore c fun k => { k with asleep := false }) s =
    { s with cores := Vector.ofFn fun (c : CoreId) => if c ∈ l then { s.core c with asleep := false } else s.core c } :=
  State.foldl_setCore (G := fun t c => { t.core c with asleep := false }) (fun _ _ => rfl)
    (fun t c d k hd => by rw [State.core_setCore, if_neg hd]) l hl s

section
variable (ha : s.prog.active = some img)

include ha

theorem execCoreWake_of_due (hm : s.pwr.main = true) (hl : s.clk.lost = false) (hr : s.clk.returning = false)
    (hx : s.sleepers img ≠ []) (hw : s.wakeDue img) :
    let now := (s.sleepers img).take (25 - s.wokenNow)
    execCoreWake s = .next { s with
      cores := Vector.ofFn fun (c : CoreId) => if c ∈ now then { s.core c with asleep := false } else s.core c,
      prog := { s.prog with woken := (s.now, s.wokenNow + now.length) } } := by
  have hnodup : ((s.sleepers img).take (25 - s.wokenNow)).Nodup := (img.coreList_nodup.filter _).sublist (List.take_sublist _ _)
  have hgo : (s.pwr.main && !s.clk.lost && !s.clk.returning && s.sleepers img != []
      && (s.wakePassed img (s.sleepers img) 1 || s.replaying || s.fab.untimed || s.fab.cover || s.cad.resumeFrame.isSome)) = true := by
    simp only [Bool.and_eq_true, Bool.or_eq_true, bne_iff_ne, hm, hl, hr, Bool.not_false, or_assoc, true_and]
    exact ⟨hx, hw⟩
  rw [execCoreWake, ha]
  refine (act_eq _ _ _).trans (congrArg Host.Outcome.next ((if_pos hgo).trans ?_))
  have hfold := State.foldl_wake (s := s) _ hnodup
  simp only [State.sleepers, State.wokenNow] at hfold ⊢
  rw [hfold]
  rfl

theorem execCoreWake_of_held (h : s.sleepers img = [] ∨ ¬ s.wakeDue img) : execCoreWake s = .next s := by
  rw [execCoreWake, ha]
  refine (act_eq _ _ _).trans (congrArg Host.Outcome.next (if_neg fun hgo => ?_))
  simp only [Bool.and_eq_true, bne_iff_ne, Bool.or_eq_true, or_assoc] at hgo
  obtain ⟨⟨-, hx⟩, hw⟩ := hgo
  exact h.elim hx fun hn => hn hw

end

end Sys2Proof.Machine

open Sys2Proof Sys2Proof.Machine

/-- Settles O46, one lemma per command and outcome. -/
theorem stepReleases : Obligations.StepReleases := by
  intro img s ha idle due cores begun u v w
  have hu : s.coresReleased img = u := rfl
  clear_value u
  have hcore (c : CoreId) (hd : due c = true) : u.core c = (s.core c).atRelease s.prog.schedule s.now s.cad.frame :=
    hu ▸ State.core_coresReleased.trans (if_pos hd)
  have hw : s.stepReleasedOn img = w := by
    have hbegun : u.beginStep = begun u :=
      hu ▸ State.beginStep_eq State.coresReleased_prog State.coresReleased_cad State.coresReleased_now
    rw [State.stepReleasedOn, State.stepBegun, hu, hbegun]
  refine ⟨fun hi hd => ⟨?_, ?_⟩, ?_, fun c => State.releaseNow?_of_steady, fun c hd => ?_, ?_⟩
  · exact hw ▸ execStepRelease_of_late ha hi
  · exact hw ▸ execStepRelease_of_quiet ha hi hd
  · exact execStepRelease_of_held ha
  · rw [hcore c hd]
    exact ⟨rfl, rfl, rfl, rfl, rfl, rfl⟩
  · exact ⟨execCoreWake_of_due ha, execCoreWake_of_held ha⟩
end

