-- ==== Sys2Proof/Proofs/FabricSlots.lean ====
section
/-!
SUPPORT. What FABRIC_SLOT_OPEN, SCHED_TRANSFER and FORWARD do, one lemma per outcome.
-/

namespace Sys2Proof.Machine

variable {s : State} {img : Image} {lane : LaneId}

/-! ### FABRIC_SLOT_OPEN (R155, R262, R263, R291, R294) -/

/-- The slots of the step may open: a compiled program with a slot table is in its released step, and the clock is there. -/
structure State.SlotsRun (s : State) (img : Image) : Prop where
  compiled : img.direct = false
  table : img.slotOff ≠ 0
  steps : s.prog.phase = .steps
  released : s.prog.released = true
  lost : s.clk.lost = false
  returning : s.clk.returning = false

/-- The instant of a slot with entry `e` has come (R155). -/
abbrev State.slotDue (s : State) (img : Image) (e : Nat) : Prop := s.prog.releaseNow + s.openOffset img e ≤ s.now

/-- A vote that may not be sent waits; where a shipment holds it, CHECKPOINT_WAIT tells so (R262, R300). -/
def State.holdVote (s : State) (img : Image) : State :=
  match (if s.allRetired img then s.waitingSet img else none) with
  | some k => s.raiseWait k
  | none => s

section
variable {slot : Fin 256} {c : CoreId} {w : Nat × Bool × Nat × Byte × Bool × Nat}
  (ha : s.prog.active = some img) (hr : s.SlotsRun img) (hk : xKind (s.slotEntry img slot.val) ≠ 0)

include ha hr hk

theorem execFabricSlotOpen_of_noWord (hw : s.slotWord img slot.val = none) : execFabricSlotOpen slot s = .next (
    if s.slotDue img (s.slotEntry img slot.val) ∧ s.slotFree = false ∧ slot.val ∉ s.fab.openSlots then
      s.modFab fun f => { f with openSlots := slot.val :: f.openSlots }
    else s) := by
  obtain ⟨hd, ht, hp, hrel, hl, hret⟩ := hr
  simp only [execFabricSlotOpen, ha, hw]
  rw [if_neg (by simp [hd, ht, hp, hrel, hl, hret, hk]), act_eq]
  refine congrArg Host.Outcome.next (if_congr ?_ rfl rfl)
  simp [State.slotDue, and_assoc]

section
variable (hw : s.slotWord img slot.val = some (c, w))

include hw

theorem execFabricSlotOpen_of_early (hdue : ¬ s.slotDue img (s.slotEntry img slot.val)) (hf : s.slotFree = false) :
    execFabricSlotOpen slot s = .next s := by
  obtain ⟨hd, ht, hp, hrel, hl, hret⟩ := hr
  simp only [execFabricSlotOpen, ha, hw]
  rw [if_neg (by simp [hd, ht, hp, hrel, hl, hret, hk]), if_pos]
  simpa [State.slotDue, hf] using hdue

/-- Once the slot is open its word is carried, unless it is a vote that may not be sent yet or reaches beyond device memory. -/
theorem execFabricSlotOpen_of_open (ho : s.slotDue img (s.slotEntry img slot.val) ∨ s.slotFree = true) :
    let e := s.slotEntry img slot.val
    execFabricSlotOpen slot s =
      if xOp e = 2 ∧ w.2.1 = false ∧ s.mayVote img = false then
        .next (s.holdVote img)
      else if xOp e = 0 ∧ dramBytes < w.2.2.1 + 64 * xFlits e then .fault (.absentMemory (w.2.2.1 + 64 * xFlits e))
      else .next (s.carryWord img slot.val e c w) := by
  obtain ⟨hd, ht, hp, hrel, hl, hret⟩ := hr
  have hhold : (match (if s.allRetired img then s.waitingSet img else none) with
      | some k => Host.Outcome.next (s.raiseWait k)
      | none => .next s : Host.Outcome State Fault Refusal) = .next (s.holdVote img) := by
    rw [State.holdVote]
    split <;> rfl
  have hopen : ¬ ((!decide (s.prog.releaseNow + s.openOffset img (s.slotEntry img slot.val) ≤ s.now)) = true
      ∧ (!s.slotFree) = true) := by
    simpa [State.slotDue, or_iff_not_imp_left] using ho
  simp only [execFabricSlotOpen, ha, hw]
  rw [if_neg (by simp [hd, ht, hp, hrel, hl, hret, hk]), if_neg hopen]
  simp only [Bool.not_eq_true']
  exact if_congr Iff.rfl hhold rfl

section
variable (ho : s.slotDue img (s.slotEntry img slot.val) ∨ s.slotFree = true)

include ho

theorem execFabricSlotOpen_of_carried (hv : xOp (s.slotEntry img slot.val) ≠ 2 ∨ w.2.1 = true ∨ s.mayVote img = true)
    (hm : xOp (s.slotEntry img slot.val) = 0 → w.2.2.1 + 64 * xFlits (s.slotEntry img slot.val) ≤ dramBytes) :
    execFabricSlotOpen slot s = .next (s.carryWord img slot.val (s.slotEntry img slot.val) c w) := by
  have hvote : ¬ (xOp (s.slotEntry img slot.val) = 2 ∧ w.2.1 = false ∧ s.mayVote img = false) := by
    rintro ⟨h2, hsend, hmay⟩
    simp [h2, hsend, hmay] at hv
  rw [execFabricSlotOpen_of_open ha hr hk hw ho, if_neg hvote, if_neg fun ⟨h0, hlt⟩ => absurd (hm h0) (not_le.2 hlt)]

theorem execFabricSlotOpen_of_heldVote (h2 : xOp (s.slotEntry img slot.val) = 2) (hsend : w.2.1 = false) (hmay : s.mayVote img = false) :
    execFabricSlotOpen slot s = .next (s.holdVote img) := by
  rw [execFabricSlotOpen_of_open ha hr hk hw ho, if_pos ⟨h2, hsend, hmay⟩]

theorem execFabricSlotOpen_of_beyond (h0 : xOp (s.slotEntry img slot.val) = 0)
    (hlt : dramBytes < w.2.2.1 + 64 * xFlits (s.slotEntry img slot.val)) :
    execFabricSlotOpen slot s = .fault (.absentMemory (w.2.2.1 + 64 * xFlits (s.slotEntry img slot.val))) := by
  rw [execFabricSlotOpen_of_open ha hr hk hw ho, if_neg (by simp [h0]), if_pos ⟨h0, hlt⟩]

end
end
end

/-! ### SCHED_TRANSFER (R277, R280, R281, R294) -/

/-- The flit has taken 63 hops (R280). -/
abbrev spentHops (f : Flit) : Prop := headerGood f = true ∧ hHops f.bits.toNat = 63

section
variable {x : Transfer} {r : Nat × Nat × Byte × CoreId}

/-- The transfer is the one that its receive's entry asks for: no flit of it is bad, and its length is the slot's (R281). -/
def State.receivesWell (s : State) (img : Image) (x : Transfer) (r : Nat × Nat × Byte × CoreId) : Prop :=
  transferGood x = true ∧ hLength x.header.bits.toNat = xFlits (s.slotEntry img r.1)

theorem State.receivesWell_iff :
    (transferGood x && decide (hLength x.header.bits.toNat = xFlits (s.slotEntry img r.1))) = true ↔ s.receivesWell img x r := by
  rw [Bool.and_eq_true, decide_eq_true_eq, State.receivesWell]

/-- The bytes of a transfer that its receive takes. -/
def State.receivedBytes (s : State) (img : Image) (x : Transfer) (r : Nat × Nat × Byte × CoreId) : List Byte :=
  (s.dataBytes x).take (64 * xFlits (s.slotEntry img r.1))

/-- The receive is served, by a good transfer or by a bad one, which records a fault (R281). -/
def State.receiveEnded (s : State) (lane : LaneId) (r : Nat × Nat × Byte × CoreId) (good : Bool) : State :=
  let u := s.modFab fun f => { f with receiving := f.receiving.erase r }
  (if good then u else (u.fault 0x11 lane.val).bump).wordDone r.2.2.2 r.2.2.1

section
variable (good : Bool)
  (hgood : (transferGood x && decide (hLength x.header.bits.toNat = xFlits (s.slotEntry img r.1))) = good)

include hgood

theorem State.deliver_carrier (h1 : xOp (s.slotEntry img r.1) = 1) : s.deliver img lane x r
    = .next (if good then (s.receiveEnded lane r good).takeCarrier (s.receivedBytes img x r) else s.receiveEnded lane r good) := by
  simp only [State.deliver, hgood]
  exact if_pos h1

theorem State.deliver_vote (h2 : xOp (s.slotEntry img r.1) = 2) : s.deliver img lane x r
    = .next (if good then (s.receiveEnded lane r good).takeVote
        (voteOf (BitVec.ofNat 10 (xPeer (s.slotEntry img r.1))) (s.receivedBytes img x r)) else s.receiveEnded lane r good) := by
  simp only [State.deliver, hgood]
  exact (if_neg (by simp [h2])).trans (if_pos h2)

theorem State.deliver_memory (h1 : xOp (s.slotEntry img r.1) ≠ 1) (h2 : xOp (s.slotEntry img r.1) ≠ 2) : s.deliver img lane x r
    = if dramBytes < r.2.1 + (s.receivedBytes img x r).length then .fault (.absentMemory (r.2.1 + (s.receivedBytes img x r).length))
      else .next ((s.receiveEnded lane r good).dramWrite r.2.1 (s.receivedBytes img x r)) := by
  simp only [State.deliver, hgood]
  exact (if_neg h1).trans (if_neg h2)

end

section
variable (ha : s.prog.active = some img)

include ha

theorem execSchedTransfer_of_noReceive (hn : s.receiveFor img lane x = none) : execSchedTransfer lane x s = .next s := by
  simp only [execSchedTransfer, ha, hn, ite_self]

section
variable (hup : (s.link lane).phase = .up)
  (hcar : (s.link lane).sched = true ∨ s.fab.cover = true ∨ s.fab.untimed = true ∨ xOp (s.slotEntry img r.1) = 2)
  (hrel : s.prog.released = true) (hl : s.clk.lost = false)
  (hh : headerGood x.header = true → hKind x.header.bits.toNat = 1
    ∧ hTransfer x.header.bits.toNat / 65536 = s.prog.step.toNat % 65536)
  (hrec : s.receiveFor img lane x = some r)

include hup hcar hrel hl hh hrec

/-- A transfer of the step whose receive waits is refused or delivered. -/
theorem execSchedTransfer_of_receive : execSchedTransfer lane x s =
    if spentHops x.header then
      .next ((s.refuseHops x.header.bits.toNat).fault 0x11 lane.val)
    else s.deliver img lane x r := by
  simp only [execSchedTransfer, ha, hrec]
  rw [if_neg (by simpa [hup, hrel, hl] using fun hg => (hh hg).1), if_neg (by simpa using fun hg => (hh hg).2), if_neg]
  simpa [or_assoc, or_iff_not_imp_left] using hcar

theorem execSchedTransfer_of_spent (hg : headerGood x.header = true) (hhops : hHops x.header.bits.toNat = 63) :
    execSchedTransfer lane x s = .next ((s.refuseHops x.header.bits.toNat).fault 0x11 lane.val) := by
  rw [execSchedTransfer_of_receive ha hup hcar hrel hl hh hrec, if_pos ⟨hg, hhops⟩]

theorem execSchedTransfer_of_unspent (hhops : headerGood x.header = true → hHops x.header.bits.toNat ≠ 63) :
    execSchedTransfer lane x s = s.deliver img lane x r := by
  rw [execSchedTransfer_of_receive ha hup hcar hrel hl hh hrec, if_neg fun ⟨hg, h63⟩ => hhops hg h63]

end
end
end

/-! ### FORWARD (R280, R281, R293, R295) -/

section
variable {x : Transfer} {out : LaneId} {entry : Option Nat}

/-- The transfer cannot go on: its forward slot has closed, its way out is down, or that link has come back and carries no slot's
traffic (R277, R293). -/
def State.forwardStops (s : State) (out : LaneId) (entry : Option Nat) : Prop :=
  ((s.slotFree = false ∧ entry.isSome = true) ∧ ∃ f, entry = some f ∧ s.prog.releaseNow + fOffset f + slotTicks (fFlits f) + 1 < s.now)
    ∨ (s.link out).phase ≠ .up ∨ ((s.link out).sched = false ∧ entry.isSome = true)

theorem State.forwardStops_iff : s.forwardStops out entry ↔
    ((!(s.slotFree || entry.isNone)) = true ∧ entry.elim false s.forwardLate = true) ∨ (s.link out).phase ≠ .up
      ∨ (!(s.link out).sched && entry.isSome) = true := by
  cases entry <;> simp [State.forwardStops, State.forwardLate]

section
variable (ha : s.prog.active = some img)

include ha

theorem execForward_of_noLane (hf : s.forwardLane img lane x.header.bits.toNat = none) : execForward lane x.header x.data s = .next s := by
  simp only [execForward, ha, hf]

section
variable (hf : s.forwardLane img lane x.header.bits.toNat = some (out, entry)) (hup : (s.link lane).phase = .up)
  (hk : hKind x.header.bits.toNat = 1) (hl : s.clk.lost = false)

include hf hup hk hl

theorem execForward_of_lane : execForward lane x.header x.data s = .next (
    if spentHops x.header then (s.refuseHops x.header.bits.toNat).fault 0x11 lane.val
    else if ((!(s.slotFree || entry.isNone)) = true ∧ entry.elim false s.forwardLate = true) ∨ (s.link out).phase ≠ .up
      ∨ (!(s.link out).sched && entry.isSome) = true then s.fault 0x11 lane.val
    else (if transferGood x then s else s.fault 0x11 lane.val).passOn out 0 (!s.slotFree && entry.isSome)
      { x with header := if headerGood x.header then addHop x.header else x.header }) := by
  have htimed : (!(s.slotFree || entry.isNone)) = (!s.slotFree && entry.isSome) := by cases entry <;> simp
  simp only [execForward, ha, hf, apply_ite Host.Outcome.next]
  rw [if_neg (by simp [hup, hk, hl]), htimed]

theorem execForward_of_spent (hs : spentHops x.header) :
    execForward lane x.header x.data s = .next ((s.refuseHops x.header.bits.toNat).fault 0x11 lane.val) := by
  rw [execForward_of_lane ha hf hup hk hl, if_pos hs]

section
variable (hs : ¬ spentHops x.header)

include hs

theorem execForward_of_stop (hstop : s.forwardStops out entry) : execForward lane x.header x.data s = .next (s.fault 0x11 lane.val) := by
  rw [execForward_of_lane ha hf hup hk hl, if_neg hs, if_pos (State.forwardStops_iff.1 hstop)]

section
variable (hstop : ¬ s.forwardStops out entry)

include hstop

theorem execForward_of_good (hg : transferGood x = true) : execForward lane x.header x.data s
    = .next (s.passOn out 0 (!s.slotFree && entry.isSome) { x with header := addHop x.header }) := by
  have hh : headerGood x.header = true := by simp only [transferGood, Bool.and_eq_true] at hg; exact hg.1.1
  rw [execForward_of_lane ha hf hup hk hl, if_neg hs, if_neg (mt State.forwardStops_iff.2 hstop), if_pos hg, if_pos hh]

theorem execForward_of_bad (hg : transferGood x = false) : execForward lane x.header x.data s
    = .next ((s.fault 0x11 lane.val).passOn out 0 (!s.slotFree && entry.isSome)
        { x with header := if headerGood x.header then addHop x.header else x.header }) := by
  rw [execForward_of_lane ha hf hup hk hl, if_neg hs, if_neg (mt State.forwardStops_iff.2 hstop), if_neg (by simp [hg])]

end
end
end
end

/-- A transfer goes on by its forward entry outside untimed running and where, in hold mode, the entry's link has not come back since the
activation (R291, R295). -/
theorem State.forwardLane_of_entry {h f : Nat} (hf : s.forwardFor img lane (hTransfer h % 65536) = some f)
    (hu : s.fab.untimed = false ∨ s.fab.cover = true)
    (hh : s.cad.hold = false ∨ (s.link ⟨fOut f % 64, Nat.mod_lt _ (by decide)⟩).sched = true) :
    s.forwardLane img lane h = some (⟨fOut f % 64, Nat.mod_lt _ (by decide)⟩, some f) := by
  simp only [State.forwardLane, hf]
  refine if_neg ?_
  rintro (⟨h1, h2⟩ | ⟨h1, h2⟩)
  · simp [h1] at hu
    simp [hu] at h2
  · simp [h1] at hh
    simp [hh] at h2

end

end Sys2Proof.Machine

open Sys2Proof Sys2Proof.Machine

/-- Settles O48, one lemma per command and outcome. -/
theorem fabricSlots : Obligations.FabricSlots := by
  intro img s ha
  refine ⟨fun slot => ?_, fun lane x r => ?_, fun lane x => execSchedTransfer_of_noReceive ha, fun lane x out entry => ?_,
    fun lane x f hf hu hh => State.forwardLane_of_entry hf hu hh, fun lane x => execForward_of_noLane ha⟩
  · intro e due hd ht hp hrel hl hret hk
    have hr : s.SlotsRun img := ⟨hd, ht, hp, hrel, hl, hret⟩
    exact ⟨execFabricSlotOpen_of_noWord ha hr hk, fun c w hw => ⟨execFabricSlotOpen_of_early ha hr hk hw,
      fun ho => execFabricSlotOpen_of_carried ha hr hk hw ho, fun ho => execFabricSlotOpen_of_heldVote ha hr hk hw ho,
      fun ho => execFabricSlotOpen_of_beyond ha hr hk hw ho⟩⟩
  · intro h e bytes u good bad ok hup hcar hrel hl hh hrec
    have hdeliver := execSchedTransfer_of_unspent ha hup hcar hrel hl hh hrec
    refine ⟨execSchedTransfer_of_spent ha hup hcar hrel hl hh hrec, fun hs => ⟨fun ho h1 => ?_, fun ho h2 => ?_, fun ho h1 h2 hm => ?_,
      fun ho hop => ?_, fun ho h1 h2 hm => ?_, fun h1 h2 hm => ?_⟩⟩
    all_goals refine (hdeliver hs).trans ?_
    · exact State.deliver_carrier true (State.receivesWell_iff.2 ho) h1
    · exact State.deliver_vote true (State.receivesWell_iff.2 ho) h2
    · exact (State.deliver_memory true (State.receivesWell_iff.2 ho) h1 h2).trans (if_neg (not_lt.2 hm))
    · have hbad := Bool.eq_false_iff.2 (mt State.receivesWell_iff.1 ho)
      exact hop.elim (State.deliver_carrier false hbad) (State.deliver_vote false hbad)
    · have hbad := Bool.eq_false_iff.2 (mt State.receivesWell_iff.1 ho)
      exact (State.deliver_memory false hbad h1 h2).trans (if_neg (not_lt.2 hm))
    · exact (State.deliver_memory _ rfl h1 h2).trans (if_pos hm)
  · intro h hf hup hk hl timed late stop spent
    exact ⟨execForward_of_spent ha hf hup hk hl, execForward_of_stop ha hf hup hk hl, execForward_of_good ha hf hup hk hl,
      execForward_of_bad ha hf hup hk hl⟩
end

