-- ==== Sys2Proof/Proofs/AwlReads.lean ====
section
/-!
SUPPORT. What AWL_READ_ISSUE requests for a stream (R164 to R172, R179, R183), one lemma per outcome; the Awl has read on first, and what
it finds wanted decides.
-/

namespace Sys2Proof.Machine

variable {s : State} {img : Image} {c : CoreId} {i : Fin 64}

/-! ### Pages used (R181) -/

theorem Core.foldl_usePage (k : Core) (pages : List Nat) :
    ∃ tlb, pages.foldl Core.usePage k = { k with awl := { k.awl with tlb := tlb } } := by
  induction pages generalizing k with
  | nil => exact ⟨k.awl.tlb, rfl⟩
  | cons p r ih => exact ih (k.usePage p)

/-- The pages of a piece that go through the translation cache. -/
def Core.piecePages (k : Core) (sp : Span) : List Nat := k.awl.cachedPages (pagesOf sp.addr sp.len)

/-- The first page of a piece of a paged stream that the translation cache lacks (R183). -/
def Core.pieceMiss (k : Core) (e : Nat) (sp : Span) : Option Nat := if sPaged e then k.missing (k.piecePages sp) else none

/-- The pages of a piece of a paged stream become the most recent of the translation cache. -/
def State.pagesUsed (s : State) (c : CoreId) (e : Nat) (sp : Span) : State :=
  if sPaged e then s.modCore c fun k => ((s.core c).piecePages sp).foldl Core.usePage k else s

section
variable (s c) (e : Nat) (sp : Span)

theorem State.pagesUsed_prog : (s.pagesUsed c e sp).prog = s.prog := by
  rw [State.pagesUsed]
  split <;> rfl

theorem State.pagesUsed_listEntry (k : Nat) : (s.pagesUsed c e sp).listEntry e k = s.listEntry e k := by
  rw [State.pagesUsed]
  split <;> rfl

theorem State.pagesUsed_landStart (k : Nat) : (s.pagesUsed c e sp).landStart e k = s.landStart e k := by
  simp only [State.landStart, State.pagesUsed_listEntry]

/-- Using pages changes the translation cache of the core, nothing else of it. -/
theorem State.core_pagesUsed : ∃ tlb, (s.pagesUsed c e sp).core c = { s.core c with awl := { (s.core c).awl with tlb := tlb } } := by
  rw [State.pagesUsed]
  split
  · simpa only [State.core_modCore, if_true] using (s.core c).foldl_usePage _
  · exact ⟨(s.core c).awl.tlb, rfl⟩

theorem State.pagesUsed_ecc : ((s.pagesUsed c e sp).core c).ecc = (s.core c).ecc := by
  obtain ⟨tlb, h⟩ := s.core_pagesUsed c e sp
  rw [h]

theorem State.pagesUsed_sourceRead (o n : Nat) : ((s.pagesUsed c e sp).core c).sourceRead e o n = (s.core c).sourceRead e o n := by
  obtain ⟨tlb, h⟩ := s.core_pagesUsed c e sp
  rw [h]
  rfl
end

/-! ### Writes (R169 to R171, R223) -/

/-- Writes of a core that await their acknowledgement, of 128 credits (R171). -/
def Core.writesOut (k : Core) : Nat := (k.awl.streams.toList.map (·.writes.length)).sum

theorem State.pagesUsed_writesOut (s : State) (c : CoreId) (e : Nat) (sp : Span) :
    ((s.pagesUsed c e sp).core c).writesOut = (s.core c).writesOut := by
  obtain ⟨tlb, h⟩ := s.core_pagesUsed c e sp
  rw [h]
  rfl

theorem State.touchSource_of_noError (h : (s.core c).ecc = []) (e o n : Nat) : s.touchSource c e o n = s := by
  have htouch (mem : CoreMem) (a n : Nat) : s.touch c mem a n 1 = s := State.touch_none 1 (Core.marksIn_none h mem a n)
  rw [State.touchSource]
  split
  · exact htouch .acc _ n
  · exact List.foldl_fixed' (fun p => htouch .quire _ _) _

section
variable {e : Nat} {elastic : Bool} {sp : Span}

/-- The accumulator source of an entry would pass the last row (R169). -/
abbrev State.sourceBeyond (s : State) (e block : Nat) : Prop :=
  sDest e = 2 ∧ coreMemSize .acc < 512 * sAccBase e + s.landStart e block + bLen (s.listEntry e block)

theorem State.issueWrite_of_noCredit (h : 128 ≤ (s.core c).writesOut) : s.issueWrite c i e elastic sp = s := if_pos h

section
variable (h : (s.core c).writesOut < 128)
include h

theorem State.issueWrite_of_beyond (hb : s.sourceBeyond e sp.block) : s.issueWrite c i e elastic sp = s.haltStream c i elastic
    { reason := 0x40, block := sp.block, offset := 0, addr := bAddr (s.listEntry e sp.block) } :=
  (if_neg (not_le.2 h)).trans (if_pos hb)

theorem State.issueWrite_of_within (hb : ¬ s.sourceBeyond e sp.block) (ha : s.prog.active = some img) (he : (s.core c).ecc = []) :
    s.issueWrite c i e elastic sp
      = (s.dramStore sp.addr ((s.core c).sourceRead e (s.landStart e sp.block + sp.offset) sp.len)).modStrm c i fun x =>
          { x with nextByte := x.nextByte + sp.len, writes := x.writes ++ [(landKey sp.block sp.offset, sp.len)] } := by
  refine (if_neg (not_le.2 h)).trans ((if_neg hb).trans ?_)
  rw [State.touchSource_of_noError he]
  exact if_neg (by simp [ha])
end

/-! A write after its pages have been used reads the list and its source as before. -/

theorem State.pagesUsed_sourceBeyond (s : State) (c : CoreId) (e : Nat) (sp : Span) (block : Nat) :
    (s.pagesUsed c e sp).sourceBeyond e block ↔ s.sourceBeyond e block := by
  rw [State.sourceBeyond, State.pagesUsed_landStart, State.pagesUsed_listEntry]

theorem State.pagesUsed_issueWrite_of_noCredit (h : 128 ≤ (s.core c).writesOut) :
    (s.pagesUsed c e sp).issueWrite c i e elastic sp = s.pagesUsed c e sp :=
  State.issueWrite_of_noCredit (by rwa [State.pagesUsed_writesOut])

section
variable (h : (s.core c).writesOut < 128)
include h

theorem State.pagesUsed_issueWrite_of_beyond (hb : s.sourceBeyond e sp.block) : (s.pagesUsed c e sp).issueWrite c i e elastic sp
    = (s.pagesUsed c e sp).haltStream c i elastic
        { reason := 0x40, block := sp.block, offset := 0, addr := bAddr (s.listEntry e sp.block) } := by
  rw [State.issueWrite_of_beyond (by rwa [State.pagesUsed_writesOut]) ((s.pagesUsed_sourceBeyond c e sp _).2 hb),
    State.pagesUsed_listEntry]

theorem State.pagesUsed_issueWrite_of_within (hb : ¬ s.sourceBeyond e sp.block) (ha : s.prog.active = some img)
    (he : (s.core c).ecc = []) : (s.pagesUsed c e sp).issueWrite c i e elastic sp
      = ((s.pagesUsed c e sp).dramStore sp.addr
          ((s.core c).sourceRead e (s.landStart e sp.block + sp.offset) sp.len)).modStrm c i fun x =>
          { x with nextByte := x.nextByte + sp.len, writes := x.writes ++ [(landKey sp.block sp.offset, sp.len)] } := by
  rw [State.issueWrite_of_within (img := img) (by rwa [State.pagesUsed_writesOut]) (mt (s.pagesUsed_sourceBeyond c e sp _).1 hb)
    (by rw [State.pagesUsed_prog, ha]) (by rw [State.pagesUsed_ecc, he]), State.pagesUsed_sourceRead, State.pagesUsed_landStart]
end
end

/-! ### What a plain stream wants (R166, R168, R171) -/

theorem State.pieceFrom_of_inside {e n k off : Nat} (hn : 0 < n) (hk : k < sListCount e)
    (hok : s.listEntryOk img e (s.listEntry e k) = true) (ho : off < bLen (s.listEntry e k)) : s.pieceFrom img e n k off = .ok (some
      { block := k, offset := off, addr := bAddr (s.listEntry e k) + off,
        len := min (256 - (bAddr (s.listEntry e k) + off) % 256) (bLen (s.listEntry e k) - off) }) := by
  obtain ⟨m, rfl⟩ := Nat.exists_eq_add_one_of_ne_zero hn.ne'
  rw [State.pieceFrom]
  dsimp only
  rw [if_neg (not_le.2 hk), if_neg (by simp [hok]), if_neg (not_le.2 ho)]

/-- A stream outside groups wants the next piece of its oldest armed word. -/
theorem State.wantOwn_of_arm {e : Nat} {a : Arm} {rest : List Arm} {sp : Span} (hx : ((s.core c).strm i).arms = a :: rest)
    (hm : sMulticast e = false) (hp : s.nextPiece img e a ((s.core c).strm i).nextByte = .ok (some sp)) :
    s.wantOwn img c i e = .ok (some ⟨sp, 0, a.elastic⟩) := by
  simp only [State.wantOwn, hx, hp]
  exact if_neg (by simp [hm])

/-- What a running stream that is no shadow wants for its own words it wants at all. -/
theorem State.wanted_of_own {w : Wanted} (hh : ((s.core c).strm i).halted = none) (hk : ((s.core c).strm i).walking = none)
    (hs : sShadow (s.streamEntry img c i) = false) (ho : s.wantOwn img c i (s.streamEntry img c i) = .ok (some w)) :
    s.wanted img c i = .ok (some w) := by
  simp [State.wanted, Stream.pageHeld, hh, hk, hs, ho]

/-! ### AWL_READ_ISSUE (R164 to R172, R183) -/

/-- A compiled program runs, and its cores may issue. -/
structure State.AwlServes (s : State) (img : Image) : Prop where
  active : s.prog.active = some img
  issuing : s.issuing = true
  compiled : img.direct = false

section
variable (hr : s.AwlServes img)
include hr

theorem State.AwlServes.active_awlReads (c : CoreId) : (s.awlReads c).prog.active = some img := by rw [State.awlReads_prog, hr.active]

theorem State.AwlServes.not_idle (c : CoreId) : ¬ ((!(s.awlReads c).issuing) = true ∨ img.direct = true) := by
  simp [State.awlReads_issuing, hr.issuing, hr.compiled]

theorem execAwlReadIssue_of_error {h : HaltAt} (hw : (s.awlReads c).wanted img c i = .error h) :
    execAwlReadIssue c i s = .next ((s.awlReads c).haltStream c i ((s.awlReads c).servesElastic img c i) h) := by
  simp only [execAwlReadIssue, hr.active_awlReads c, hw]
  exact if_neg (hr.not_idle c)

theorem execAwlReadIssue_of_nothing (hw : (s.awlReads c).wanted img c i = .ok none) : execAwlReadIssue c i s = .next (s.awlReads c) := by
  simp only [execAwlReadIssue, hr.active_awlReads c, hw]
  exact if_neg (hr.not_idle c)

section
variable {w : Wanted} (hw : (s.awlReads c).wanted img c i = .ok (some w))
include hw

theorem execAwlReadIssue_of_heldElastic (he : w.elastic = true) (hs : ((s.awlReads c).core c).needle.sect ≠ .elastic) :
    execAwlReadIssue c i s = .next (s.awlReads c) := by
  simp only [execAwlReadIssue, hr.active_awlReads c, hw]
  rw [if_neg (hr.not_idle c), if_pos ⟨he, hs⟩]

section
variable {e : Nat} (hent : (s.awlReads c).streamEntry img c i = e)
  (hs : w.elastic = true → ((s.awlReads c).core c).needle.sect = .elastic)
include hent hs

theorem execAwlReadIssue_of_miss {p : Nat} (hm : ((s.awlReads c).core c).pieceMiss e w.piece = some p) :
    execAwlReadIssue c i s = .next ((s.awlReads c).modStrm c i fun x => { x with walking := some (p, w.piece.block) }) := by
  rw [Core.pieceMiss, Core.piecePages] at hm
  simp only [execAwlReadIssue, hr.active_awlReads c, hw, hent, hm]
  rw [if_neg (hr.not_idle c), if_neg fun h => h.2 (hs h.1)]

section
variable (hm : ((s.awlReads c).core c).pieceMiss e w.piece = none)
include hm

theorem execAwlReadIssue_of_write (hwr : sWrite e = true) :
    execAwlReadIssue c i s = .next (((s.awlReads c).pagesUsed c e w.piece).issueWrite c i e w.elastic w.piece) := by
  rw [Core.pieceMiss, Core.piecePages] at hm
  simp only [execAwlReadIssue, hr.active_awlReads c, hw, hent, hm]
  rw [if_neg (hr.not_idle c), if_neg fun h => h.2 (hs h.1), if_pos hwr]
  rfl

variable (hwr : sWrite e = false)
include hwr

theorem execAwlReadIssue_of_noTag (ht : freeTagFrom ((s.awlReads c).core c).awl.reads 640 0 = none) :
    execAwlReadIssue c i s = .next ((s.awlReads c).pagesUsed c e w.piece) := by
  rw [Core.pieceMiss, Core.piecePages] at hm
  simp only [execAwlReadIssue, hr.active_awlReads c, hw, hent, hm, ht]
  rw [if_neg (hr.not_idle c), if_neg fun h => h.2 (hs h.1), if_neg (by simp [hwr])]
  rfl

/-- A read takes its tag unless it is of the elastic section and words of the step wait behind 128 tags of that section (R166). -/
theorem execAwlReadIssue_of_freeTag {tag : Nat} (ht : freeTagFrom ((s.awlReads c).core c).awl.reads 640 0 = some tag) :
    execAwlReadIssue c i s =
      if w.elastic = true ∧ ((s.awlReads c).core c).awl.pinned.words ≠ [] ∧ 128 ≤ ((s.awlReads c).core c).elasticTags then
        .next ((s.awlReads c).pagesUsed c e w.piece)
      else .next ((((s.awlReads c).pagesUsed c e w.piece).modCore c fun k =>
        { k with awl := k.awl.take tag i w.group w.elastic w.piece }).advanceStream img c i e w) := by
  rw [Core.pieceMiss, Core.piecePages] at hm
  simp only [execAwlReadIssue, hr.active_awlReads c, hw, hent, hm, ht]
  rw [if_neg (hr.not_idle c), if_neg fun h => h.2 (hs h.1), if_neg (by simp [hwr])]
  rfl

theorem execAwlReadIssue_of_elasticTagsOut
    (hq : w.elastic = true ∧ ((s.awlReads c).core c).awl.pinned.words ≠ [] ∧ 128 ≤ ((s.awlReads c).core c).elasticTags) :
    execAwlReadIssue c i s = .next ((s.awlReads c).pagesUsed c e w.piece) := by
  cases ht : freeTagFrom ((s.awlReads c).core c).awl.reads 640 0 with
  | none => exact execAwlReadIssue_of_noTag hr hw hent hs hm hwr ht
  | some tag => rw [execAwlReadIssue_of_freeTag hr hw hent hs hm hwr ht, if_pos hq]

theorem execAwlReadIssue_of_tag {tag : Nat} (ht : freeTagFrom ((s.awlReads c).core c).awl.reads 640 0 = some tag)
    (hq : w.elastic = true → ((s.awlReads c).core c).awl.pinned.words = [] ∨ ((s.awlReads c).core c).elasticTags < 128) :
    execAwlReadIssue c i s = .next ((((s.awlReads c).pagesUsed c e w.piece).modCore c fun k =>
      { k with awl := k.awl.take tag i w.group w.elastic w.piece }).advanceStream img c i e w) := by
  rw [execAwlReadIssue_of_freeTag hr hw hent hs hm hwr ht, if_neg]
  rintro ⟨he, hwords, htags⟩
  exact (hq he).elim hwords fun hlt => absurd htags (not_le.2 hlt)
end
end
end
end

end Sys2Proof.Machine

open Sys2Proof Sys2Proof.Machine

/-- Settles O19, one lemma per outcome. -/
theorem awlReads : Obligations.AwlReads := by
  intro img c i s t k x e writes ha hi hd
  have hr : s.AwlServes img := ⟨ha, hi, hd⟩
  refine ⟨fun w hw hs => ?_, fun w => execAwlReadIssue_of_heldElastic hr, fun h => execAwlReadIssue_of_error hr,
    execAwlReadIssue_of_nothing hr, fun a rest hx hm hsh hh hk => ?_⟩
  · intro pages miss u
    have hwrite : ∀ hm hwr, exec (.awlReadIssue c i) s = .next (u.issueWrite c i e w.elastic w.piece) :=
      fun hm => execAwlReadIssue_of_write hr hw rfl hs hm
    refine ⟨fun p => execAwlReadIssue_of_miss hr hw rfl hs, hwrite, fun hm hwr hcr => ?_,
      fun hm hwr hcr hecc => ⟨fun hb => ?_, fun hdest hb => ?_⟩, fun hm hwr ht => ?_,
      fun tag hm hwr => execAwlReadIssue_of_tag hr hw rfl hs hm hwr⟩
    · exact (hwrite hm hwr).trans (congrArg _ (State.pagesUsed_issueWrite_of_noCredit hcr))
    · have hwithin : ¬ t.sourceBeyond e w.piece.block := fun ⟨h2, hlt⟩ => hb.elim (· h2) (not_le.2 hlt)
      exact (hwrite hm hwr).trans (congrArg _ (State.pagesUsed_issueWrite_of_within hcr hwithin (hr.active_awlReads c) hecc))
    · exact (hwrite hm hwr).trans (congrArg _ (State.pagesUsed_issueWrite_of_beyond hcr ⟨hdest, hb⟩))
    · exact ht.elim (execAwlReadIssue_of_noTag hr hw rfl hs hm hwr) (execAwlReadIssue_of_elasticTagsOut hr hw rfl hs hm hwr)
  · intro b hb hn hf hok at0
    exact State.wanted_of_own hh hk hsh (State.wantOwn_of_arm hx hm (State.pieceFrom_of_inside hn hf hok hb))
end

