-- ==== Sys2Proof/Proofs/Paging.lean ====
section
/-!
SUPPORT. How a page is walked for, fetched, evicted and taken in (R183 to R185), one lemma per command and outcome.
-/

namespace Sys2Proof.Machine

variable {s : State} {img : Image} {c : CoreId} {i : Fin 64} {p : Nat}

/-! ### Pages that are present or on their way -/

/-- The paged map holds a page. -/
def State.hasPage (s : State) (p : Nat) : Prop := ∃ g ∈ s.prog.present, g.1 = p

theorem State.present_any_iff : s.prog.present.any (·.1 = p) = true ↔ s.hasPage p := by simp [State.hasPage]

theorem State.not_hasPage (h : ∀ g ∈ s.prog.present, g.1 ≠ p) : ¬ s.hasPage p := fun ⟨g, hg, hp⟩ => h g hg hp

theorem Core.mem_streams {k : Core} {x : Stream} : x ∈ k.awl.streams ↔ ∃ j : Fin 64, k.strm j = x := by
  rw [Vector.mem_iff_getElem]
  exact ⟨fun ⟨j, hj, hx⟩ => ⟨⟨j, hj⟩, by simp [Core.strm, Vector.getD, hj, hx]⟩, fun ⟨j, hx⟩ => ⟨j, j.isLt, by
    simpa [Core.strm, Vector.getD] using hx⟩⟩

theorem State.mem_fetches : p ∈ s.fetches ↔ ∃ d, ∃ j : Fin 64, ((s.core d).strm j).fetching = some p := by
  simp [State.fetches, allCores, Core.mem_streams]

theorem Stream.waitsPage_of_halted {x : Stream} {h : HaltRec} (hx : x.halted = some h) :
    x.waitsPage = if h.reason = 0x30 then some (h.addr / unitBytes) else x.walking.map (·.1) := by
  simp only [Stream.waitsPage, hx, HaltRec.paging, beq_iff_eq]

theorem Stream.waitsPage_of_halt {x : Stream} {h : HaltRec} (hx : x.halted = some h)
    (hp : (h.reason = 0x30 ∧ p = h.addr / unitBytes) ∨ (h.reason ≠ 0x30 ∧ ∃ b, x.walking = some (p, b))) :
    x.waitsPage = some p := by
  rw [Stream.waitsPage_of_halted hx]
  rcases hp with ⟨hr, hp⟩ | ⟨hr, b, hb⟩
  · rw [if_pos hr, hp]
  · rw [if_neg hr, hb, Option.map_some]

/-! ### TRANSLATION_WALK_DONE (R183) -/

section
variable {b : Nat} (ha : s.prog.active = some img) (hw : ((s.core c).strm i).walking = some (p, b))
include ha hw

theorem execTranslationWalkDone_of_present (hp : s.hasPage p) : execTranslationWalkDone c i s
    = .next ((s.modStrm c i fun x => { x with walking := none }).modCore c (·.usePage p)) := by
  simp only [execTranslationWalkDone, ha, hw]
  exact if_pos (State.present_any_iff.2 hp)

variable (hp : ¬ s.hasPage p)
include hp

theorem execTranslationWalkDone_of_absent (hh : ((s.core c).strm i).halted = none) :
    let t := s.modStrm c i fun x => { x with walking := none }
    execTranslationWalkDone c i s
      = .next (t.haltStream c i (s.servesElastic img c i) (t.pageUnit (t.streamEntry img c i) p b)) := by
  simp only [execTranslationWalkDone, ha, hw]
  rw [if_neg (mt State.present_any_iff.1 hp), if_neg (by simp [hh])]

theorem execTranslationWalkDone_of_halted (hh : ((s.core c).strm i).halted.isSome = true) : execTranslationWalkDone c i s = .next s := by
  simp only [execTranslationWalkDone, ha, hw]
  rw [if_neg (mt State.present_any_iff.1 hp), if_pos hh]
end

/-! ### A page leaves its frame (R184, R185) -/

/-- A page in no translation cache and not in the paged map any more. -/
def State.withoutPage (s : State) (p : Nat) : State :=
  (s.mapCores fun k => { k with awl := { k.awl with tlb := k.awl.tlb.filter (· ≠ p) } }).modProg fun g =>
    { g with present := g.present.filter (·.1 ≠ p) }

/-- The bytes of a page go back to its backing, over the fabric where that is a peer's (R185). -/
def State.writeBack (s : State) (g : PagedRegion) (p a : Nat) (bytes : List Byte) : State :=
  if g.peer then s.sendDyn g.peerNode .device (.pageWrite p bytes) else s.hostWrite a bytes

@[simp] theorem State.emit_cores (s : State) (lane : Option LaneId) (vc : BitVec 2) (timed : Bool) (src : BitVec 16) (seq : W32)
    (flits : Nat) (transit : Option Transfer) (header : BitVec 512) (m : Msg) :
    (s.emit lane vc timed src seq flits transit header m).cores = s.cores := by
  cases lane with
  | none =>
    simp only [State.emit]
    split <;> rfl
  | some l => rfl

@[simp] theorem State.sendAs_cores (s : State) (dst : BitVec 16) (seq : W32) (escape : Bool) (m : Msg) :
    (s.sendAs dst seq escape m).cores = s.cores := by
  simp only [State.sendAs]
  split
  · rfl
  · rw [State.emit_cores]

@[simp] theorem State.sendDyn_cores (s : State) (dst : BitVec 16) (j : Initiator) (m : Msg) : (s.sendDyn dst j m).cores = s.cores := by
  simp only [State.sendDyn]
  split
  · rfl
  · rw [State.modFab_cores, State.sendAs_cores]

@[simp] theorem State.writeBack_prog (s : State) (g : PagedRegion) (p a : Nat) (bytes : List Byte) :
    (s.writeBack g p a bytes).prog = s.prog := by
  rw [State.writeBack]
  split
  · exact State.sendDyn_prog s _ _ _
  · rfl

@[simp] theorem State.writeBack_cores (s : State) (g : PagedRegion) (p a : Nat) (bytes : List Byte) :
    (s.writeBack g p a bytes).cores = s.cores := by
  rw [State.writeBack]
  split
  · exact State.sendDyn_cores s _ _ _
  · rfl

theorem Program.regionOf_congr {a b : Program} (h : a.paged = b.paged) (p : Nat) : a.regionOf p = b.regionOf p := by
  rw [Program.regionOf, Program.regionOf, h]

theorem State.regionOf_withoutPage (s : State) (p n : Nat) : (s.withoutPage p).prog.regionOf n = s.prog.regionOf n := by
  have hpaged : (s.withoutPage p).prog.paged = s.prog.paged := rfl
  rw [Program.regionOf_congr hpaged]

theorem State.evictPage_of_dropped {page : Nat × Bool} (h : (if page.2 then s.prog.regionOf page.1 else none) = none) :
    s.evictPage page = s.withoutPage page.1 := by
  rw [← s.regionOf_withoutPage page.1] at h
  simp only [State.withoutPage] at h ⊢
  simp only [State.evictPage, h]

theorem State.evictPage_of_written {page : Nat × Bool} {g : PagedRegion}
    (h : (if page.2 then s.prog.regionOf page.1 else none) = some g) : s.evictPage page
      = (s.withoutPage page.1).writeBack g page.1 (g.backAddr + (page.1 * unitBytes - g.vbase))
          ((s.withoutPage page.1).dramRead (page.1 * unitBytes) unitBytes) := by
  rw [← s.regionOf_withoutPage page.1] at h
  simp only [State.withoutPage] at h ⊢
  simp only [State.evictPage, h, State.writeBack]

theorem State.evictPage_cases (s : State) (page : Nat × Bool) : s.evictPage page = s.withoutPage page.1
    ∨ ∃ g a bytes, s.evictPage page = (s.withoutPage page.1).writeBack g page.1 a bytes := by
  cases h : (if page.2 then s.prog.regionOf page.1 else none) with
  | none => exact .inl (State.evictPage_of_dropped h)
  | some g => exact .inr ⟨g, _, _, State.evictPage_of_written h⟩

theorem State.evictPage_prog (s : State) (page : Nat × Bool) : (s.evictPage page).prog = (s.withoutPage page.1).prog := by
  obtain h | ⟨g, a, bytes, h⟩ := s.evictPage_cases page <;> rw [h]
  exact State.writeBack_prog _ _ _ _ _

theorem State.evictPage_cores (s : State) (page : Nat × Bool) : (s.evictPage page).cores = (s.withoutPage page.1).cores := by
  obtain h | ⟨g, a, bytes, h⟩ := s.evictPage_cases page <;> rw [h]
  exact State.writeBack_cores _ _ _ _ _

theorem State.evictPage_tlb (s : State) (page : Nat × Bool) (d : CoreId) : page.1 ∉ ((s.evictPage page).core d).awl.tlb := by
  rw [State.core, State.evictPage_cores]
  simp [State.withoutPage, State.mapCores]

theorem State.evictPage_present {page g : Nat × Bool} (h : g ∈ (s.evictPage page).prog.present) : g.1 ≠ page.1 := by
  rw [State.evictPage_prog] at h
  simpa using (List.mem_filter.1 h).2

theorem State.evictPage_paged (s : State) (page : Nat × Bool) : (s.evictPage page).prog.paged = s.prog.paged := by
  rw [State.evictPage_prog]
  rfl

theorem State.lookup_writeBack {g : PagedRegion} (hpeer : g.peer = false) (p a : Nat) {bytes : List Byte} {n : Nat}
    (hn : n < bytes.length) : Mem.lookup (s.writeBack g p a bytes).hostMem (a + n) = some (bytes.getD n 0) := by
  rw [State.writeBack, if_neg (by simp [hpeer]), State.hostWrite, Mem.lookup_put, if_pos (by omega), Nat.add_sub_cancel_left]

theorem State.dramRead_withoutPage (s : State) (p a n : Nat) : (s.withoutPage p).dramRead a n = s.dramRead a n := by
  simp only [State.dramRead, State.withoutPage, State.modProg_dram, State.modProg_dramEpoch, State.mapCores_dram,
    State.mapCores_dramEpoch]

/-- A page that was written stands in its backing memory, where that is the host's (R185). -/
theorem State.evictPage_hostMem {g : PagedRegion} (hg : s.prog.regionOf p = some g) (hpeer : g.peer = false) {n : Nat}
    (hn : n < unitBytes) : Mem.lookup (s.evictPage (p, true)).hostMem (g.backAddr + (p * unitBytes - g.vbase) + n)
      = some ((s.dramRead (p * unitBytes) unitBytes).getD n 0) := by
  have hlen : (s.dramRead (p * unitBytes) unitBytes).length = unitBytes := Mem.length_read _ _ _ _
  rw [State.evictPage_of_written ((if_pos rfl).trans hg), State.dramRead_withoutPage, State.lookup_writeBack hpeer _ _ (by rwa [hlen])]

/-! ### A frame for one more page (R184; log entry 21) -/

theorem State.frameFor_of_free (h : s.prog.present.length + s.fetches.length < s.poolFrames img) : s.frameFor img = s := if_pos h

theorem State.frameFor_of_full {g : Nat × Bool} (h : s.poolFrames img ≤ s.prog.present.length + s.fetches.length)
    (hg : s.prog.present[(s.free 0).toNat % s.prog.present.length]? = some g) : s.frameFor img = (s.evictPage g).bump := by
  rw [State.frameFor, if_neg (not_lt.2 h), hg]

theorem State.frameFor_paged (s : State) (img : Image) : (s.frameFor img).prog.paged = s.prog.paged := by
  rw [State.frameFor]
  split
  · rfl
  · split
    next g _ => exact s.evictPage_paged g
    next => rfl

/-! ### PAGE_NOT_PRESENT (R184, R329) -/

theorem State.modStrm_prog (s : State) (c : CoreId) (i : Nat) (f : Stream → Stream) : (s.modStrm c i f).prog = s.prog := rfl

/-- The stream waits for a page that is on its way, in the frame that it comes into. -/
def State.pageAwaited (s : State) (img : Image) (c : CoreId) (i : Fin 64) (p : Nat) : State :=
  (s.frameFor img).modStrm c i fun x => { x with fetching := some p }

theorem State.regionOf_pageAwaited (s : State) (img : Image) (c : CoreId) (i : Fin 64) (p n : Nat) :
    (s.pageAwaited img c i p).prog.regionOf n = s.prog.regionOf n := by
  apply Program.regionOf_congr
  rw [State.pageAwaited, State.modStrm_prog, State.frameFor_paged]

section
variable (ha : s.prog.active = some img) (hw : ((s.core c).strm i).waitsPage = some p) (hf : ((s.core c).strm i).fetching = none)
  (hb : s.binderRuns = true)
include ha hw hf hb

theorem execPageNotPresent_of_present (hp : s.hasPage p) : execPageNotPresent c i s = .next (s.resumePage p) := by
  simp only [execPageNotPresent, hw, ha]
  rw [if_neg (by simp [hf, hb]), if_pos (State.present_any_iff.2 hp)]

variable (hp : ¬ s.hasPage p)
include hp

theorem execPageNotPresent_of_fetched (hd : p ∈ s.fetches) :
    execPageNotPresent c i s = .next (s.modStrm c i fun x => { x with fetching := some p }) := by
  have hc : s.fetches.contains p = true := List.contains_iff_mem.2 hd
  simp only [execPageNotPresent, hw, ha]
  rw [if_neg (by simp [hf, hb]), if_neg (mt State.present_any_iff.1 hp), if_pos hc, if_pos hc]

section
variable (hd : p ∉ s.fetches)
include hd

theorem execPageNotPresent_of_local (hq : (s.prog.regionOf p).filter (·.peer) = none) :
    execPageNotPresent c i s = .next (s.pageAwaited img c i p) := by
  have hc : ¬ s.fetches.contains p = true := mt List.contains_iff_mem.1 hd
  simp only [execPageNotPresent, hw, ha, hq]
  rw [if_neg (by simp [hf, hb]), if_neg (mt State.present_any_iff.1 hp), if_neg hc, if_neg hc, State.pageAwaited]

theorem execPageNotPresent_of_peer {g : PagedRegion} (hq : (s.prog.regionOf p).filter (·.peer) = some g) :
    execPageNotPresent c i s = .next ((s.pageAwaited img c i p).sendDyn g.peerNode (.pageFetch c i) (.pageFetch p)) := by
  have hc : ¬ s.fetches.contains p = true := mt List.contains_iff_mem.1 hd
  simp only [execPageNotPresent, hw, ha, hq]
  rw [if_neg (by simp [hf, hb]), if_neg (mt State.present_any_iff.1 hp), if_neg hc, if_neg hc, State.pageAwaited]
end
end

/-! ### PAGE_IN_COMPLETE (R184) -/

section
variable (ha : s.prog.active = some img) (hf : ((s.core c).strm i).fetching = some p)
include ha hf

theorem execPageInComplete_of_page {bytes : List Byte} (hl : bytes.length = unitBytes) (hp : ¬ s.hasPage p) :
    execPageInComplete c i (some bytes) s = .next (((s.dramWrite (p * unitBytes) bytes).modProg fun g =>
      { g with present := g.present ++ [(p, false)] }).resumePage p) := by
  simp only [execPageInComplete, ha, hf]
  rw [if_neg (mt State.present_any_iff.1 hp), List.take_of_length_le hl.le]

theorem execPageInComplete_of_failure : execPageInComplete c i none s = .next (s.pageFailed c i) := by
  simp only [execPageInComplete, ha, hf]
end

/-! ### Streams that waited go on (R184) -/

theorem State.strm_resumePage (s : State) (p : Nat) (d : CoreId) (j : Fin 64) :
    ((s.resumePage p).core d).strm j = ((s.core d).strm j).pageCame p := by
  rw [State.resumePage, State.core_mapCores]
  simp [Core.strm, Vector.getD]

/-- A stream is past its wait for a page: a halt on the page ends, and a walk for it. -/
def Stream.pastWait (y : Stream) (p : Nat) (h : HaltRec) : Stream :=
  if h.reason = 0x30 ∧ h.addr / unitBytes = p then { y with halted := none, walking := none }
  else if h.reason ≠ 0x30 ∧ y.walking.map (·.1) = some p then { y with walking := none } else y

theorem Stream.pageCame_of_running {y : Stream} (hy : y.halted = none) :
    y.pageCame p = if y.fetching = some p then { y with fetching := none } else y := by
  simp [Stream.pageCame, Stream.waitsPage, hy]

theorem Stream.pageCame_of_halted {y : Stream} {h : HaltRec} (hy : y.halted = some h) :
    y.pageCame p = if y.fetching = some p then { y.pastWait p h with fetching := none } else y.pastWait p h := by
  have hwait : (if y.waitsPage = some p then { y with halted := y.halted.filter (!·.paging), walking := none } else y)
      = y.pastWait p h := by
    rw [Stream.waitsPage_of_halted hy, Stream.pastWait]
    generalize h.addr / unitBytes = n
    by_cases hr : h.reason = 0x30
    · have hend : y.halted.filter (!·.paging) = none := by
        rw [hy, Option.filter_some, if_neg (by simp [HaltRec.paging, hr])]
      rw [if_pos hr, hend]
      by_cases hn : n = p
      · rw [if_pos (congrArg some hn), if_pos ⟨hr, hn⟩]
      · rw [if_neg (mt Option.some.inj hn), if_neg fun h => hn h.2, if_neg fun h => h.1 hr]
    · have hstay : y.halted.filter (!·.paging) = y.halted := by
        rw [hy, Option.filter_some, if_pos (by rw [HaltRec.paging, beq_false_of_ne hr, Bool.not_false])]
      rw [if_neg hr, hstay, if_neg (show ¬ (h.reason = 0x30 ∧ n = p) from fun h => hr h.1)]
      by_cases hw : y.walking.map (·.1) = some p
      · rw [if_pos hw, if_pos ⟨hr, hw⟩]
      · rw [if_neg hw, if_neg fun h => hw h.2]
  have hfetch : (y.pastWait p h).fetching = y.fetching := by
    rw [Stream.pastWait]
    split
    · rfl
    · split <;> rfl
  simp only [Stream.pageCame, hwait, hfetch]

end Sys2Proof.Machine

open Sys2Proof Sys2Proof.Machine

/-- Settles O21, one lemma per command and outcome. -/
theorem paging : Obligations.Paging := by
  intro img c i p s ha x
  refine ⟨fun b hw => ?_, fun hwait hf hb => ?_, fun w => ?_, State.frameFor_of_free, fun g => State.frameFor_of_full,
    fun hf bytes hl hp => execPageInComplete_of_page ha hf hl (State.not_hasPage hp), fun d j => ?_, execPageInComplete_of_failure ha⟩
  · exact ⟨execTranslationWalkDone_of_present ha hw, fun hp => execTranslationWalkDone_of_absent ha hw (State.not_hasPage hp),
      fun hp => execTranslationWalkDone_of_halted ha hw (State.not_hasPage hp)⟩
  · obtain ⟨h, hh, hpage⟩ := hwait
    have hw : x.waitsPage = some p := Stream.waitsPage_of_halt hh hpage
    refine ⟨execPageNotPresent_of_present ha hw hf hb, fun hp hd => ?_, fun hp hd => ?_⟩
    · exact execPageNotPresent_of_fetched ha hw hf hb (State.not_hasPage hp) (State.mem_fetches.2 hd)
    · intro u
      have hnew : p ∉ s.fetches := fun hmem => by
        obtain ⟨d, j, hj⟩ := State.mem_fetches.1 hmem
        exact hd d j hj
      have hregion : u.prog.regionOf p = s.prog.regionOf p := s.regionOf_pageAwaited img c i p p
      rw [hregion]
      cases hq : (s.prog.regionOf p).filter (·.peer) with
      | none => exact execPageNotPresent_of_local ha hw hf hb (State.not_hasPage hp) hnew hq
      | some g => exact execPageNotPresent_of_peer ha hw hf hb (State.not_hasPage hp) hnew hq
  · refine ⟨s.evictPage_tlb (p, w), fun g => State.evictPage_present, ?_⟩
    rintro rfl g hg hpeer n
    exact State.evictPage_hostMem hg hpeer
  · refine (s.strm_resumePage p d j).trans ?_
    split
    next h hy => exact Stream.pageCame_of_halted hy
    next hy => exact Stream.pageCame_of_running hy
end

