-- ==== Sys2Proof/Proofs/TippingPath.lean ====
section
/-!
SUPPORT. What TIPPING_TRANSFER does on memories without errors (R176, R177), and what a cancelled program still has to drain before
CANCEL_DRAIN_DONE ends it (R189).
-/

namespace Sys2Proof.Machine

variable {s : State} {c : CoreId}

/-! ### A core without errors stays without them (R223) -/

section
variable {k : Core} (h : k.ecc = [])
include h

theorem Core.store_ecc_nil (mem : CoreMem) (a : Nat) (bytes : List Byte) : (k.store mem a bytes).ecc = [] := by
  rw [Core.store, Core.write, h]
  cases mem <;> rfl

theorem Core.storeRuns_ecc_nil (mem : CoreMem) (a : Nat) (bytes : List (Option Byte)) : (k.storeRuns mem a bytes).ecc = [] :=
  List.foldlRecOn (motive := fun k : Core => k.ecc = []) _ _ h fun _ hk _ _ => Core.store_ecc_nil hk mem _ _

theorem Core.dropElement_ecc_nil (gap : Option W64) (row col : Nat) : (k.dropElement gap row col).ecc = [] := by
  unfold Core.dropElement
  split
  · exact h
  · split <;> exact h

theorem Core.storeAcc_ecc_nil (gap : Option W64) (t a : Nat) (bytes : List (Option Byte)) : (k.storeAcc gap t a bytes).ecc = [] := by
  refine List.foldlRecOn (motive := fun k : Core => k.ecc = []) _ _ h fun l hl p _ => ?_
  split
  · exact hl
  · split
    · exact Core.dropElement_ecc_nil hl gap _ _
    · exact Core.storeRuns_ecc_nil hl .acc _ _

theorem Core.ploughStore_ecc_nil (gap : Option W64) (t : Nat) (mem : CoreMem) (a : Nat) (bytes : List (Option Byte)) :
    (k.ploughStore gap t mem a bytes).ecc = [] := by
  cases mem
  case acc => exact Core.storeAcc_ecc_nil h gap t a bytes
  all_goals exact Core.storeRuns_ecc_nil h _ a bytes
end

/-! ### TIPPING_TRANSFER (R176, R177) -/

section
variable (h : (s.core c).ecc = [])
include h

theorem State.tipTouch_of_noError (mem : CoreMem) (a n : Nat) : s.tipTouch c mem a n = s := by
  rw [State.tipTouch, Core.marksIn_none h]
  rfl

/-- The pieces of a write meet no error: each is stored in its own cycle, one after another. -/
theorem State.tipPieces_of_noError (mem : CoreMem) (n : Nat) (ps : List (Nat × List Byte)) : s.tipPieces c mem n ps
    = s.modCore c fun k => (ps.zipIdx n).foldl (fun k p => k.ploughStore none (s.free p.2).toNat mem p.1.1 (p.1.2.map some)) k := by
  induction ps generalizing s n with
  | nil => exact (State.modCore_of_fixed rfl).symm
  | cons p r ih =>
    have htouch : (partialEnds (eccWord mem) p.1 p.2.length).foldl (fun s x => s.tipTouch c mem x 1) s = s :=
      List.foldl_fixed' (fun x => State.tipTouch_of_noError h mem x 1) _
    rw [State.tipPieces, htouch, ih (by simpa using Core.ploughStore_ecc_nil h none _ mem _ _), State.modCore_modCore]
    rfl
end

section
variable {source : TipSource} {mem : CoreMem} {a : Nat}

theorem execTippingTransfer_writeCore_of_unserved {bytes : List Byte}
    (h : s.pwr.main = false ∨ source = .bar2 ∨ coreMemSize mem < a + bytes.length) :
    execTippingTransfer source (.writeCore c mem a bytes) s = .next s := by
  rcases h with hm | h
  · exact if_pos (by simp [hm])
  · have hready : (source != .bar2 && decide (a + bytes.length ≤ coreMemSize mem)) = false := by
      rcases h with rfl | hlt
      · rfl
      · simp [hlt]
    rw [execTippingTransfer, hready]
    exact ite_self _

section
variable (hm : s.pwr.main = true)
include hm

section
variable (hs : source ≠ .bar2) (he : (s.core c).ecc = [])
include hs he

theorem execTippingTransfer_writeCore_of_within {bytes : List Byte} (ha : a + bytes.length ≤ coreMemSize mem) :
    execTippingTransfer source (.writeCore c mem a bytes) s
      = .next ((s.modCore c fun k => ((cutWords 32 (bytes.length + 1) a bytes).zipIdx.foldl
          (fun k p => k.ploughStore none (s.free p.2).toNat mem p.1.1 (p.1.2.map some)) k)).bump) := by
  simp only [execTippingTransfer, State.tipPieces_of_noError he]
  rw [if_neg (by simp [hm]), act_eq, if_pos (by simp [hs, ha])]

theorem execTippingTransfer_readCore_of_within {n : Nat} (ha : a + n ≤ coreMemSize mem) :
    execTippingTransfer source (.readCore c mem a n) s
      = .next (s.modHost fun h => { h with readData := some ((s.core c).read mem a n) }) := by
  simp only [execTippingTransfer, State.tipTouch_of_noError he]
  rw [if_neg (by simp [hm]), act_eq, if_pos (by simp [hs, ha])]
end

theorem execTippingTransfer_writeDram (bytes : List Byte) : execTippingTransfer source (.writeDram a bytes) s
    = .next (if a + bytes.length ≤ s.layoutEnd then s.dramStore a bytes else s) := by
  simp only [execTippingTransfer, act_eq, decide_eq_true_eq]
  exact if_neg (by simp [hm])

theorem execTippingTransfer_readDram (n : Nat) : execTippingTransfer source (.readDram a n) s
    = .next (if a + n ≤ s.layoutEnd then s.modHost fun h => { h with readData := some (s.dramRead a n) } else s) := by
  simp only [execTippingTransfer, act_eq, decide_eq_true_eq]
  exact if_neg (by simp [hm])
end
end

/-! ### CANCEL_DRAIN_DONE (R153, R189, R326) -/

/-- The streams of a core, each with its index. -/
theorem Core.mem_zipIdx_streams {k : Core} {p : Stream × Nat} :
    p ∈ k.awl.streams.toList.zipIdx ↔ ∃ i : Fin 64, p = (k.strm i, i.val) := by
  rw [List.mem_zipIdx_iff_getElem?, Vector.getElem?_toList]
  constructor
  · intro h
    obtain ⟨hi, hx⟩ := Vector.getElem?_eq_some_iff.1 h
    exact ⟨⟨p.2, hi⟩, by simp [Core.strm, Vector.getD, hi, hx]⟩
  · rintro ⟨i, rfl⟩
    simp [Core.strm, Vector.getD]

/-- A stream still has a write that is not acknowledged, or an entry that may be delivered. -/
def State.streamDrains (s : State) (img : Image) (c : CoreId) (x : Stream) (i : Nat) : Bool :=
  !x.writes.isEmpty || x.arms.head?.any fun a => s.mayDeliver c x a && s.entryLanded img c i a

theorem State.draining_eq (s : State) (img : Image) (c : CoreId) : s.draining img c
    = (!(s.core c).awl.reads.isEmpty || !(s.core c).press.beats.isEmpty || !(s.core c).doneSignals.isEmpty
      || (s.core c).nextSignal.isSome || (s.core c).awl.streams.toList.zipIdx.any fun p => s.streamDrains img c p.1 p.2) := by
  refine congrArg₂ or rfl (congrArg _ (funext fun p => ?_))
  rw [State.streamDrains]
  cases p.1.arms <;> rfl

theorem State.draining_iff {img : Image} : s.draining img c = true ↔ (s.core c).awl.reads ≠ [] ∨ (s.core c).press.beats ≠ []
    ∨ (s.core c).doneSignals ≠ [] ∨ (s.core c).nextSignal.isSome = true
    ∨ ∃ i : Fin 64, s.streamDrains img c ((s.core c).strm i) i = true := by
  have hstream : (s.core c).awl.streams.toList.zipIdx.any (fun p => s.streamDrains img c p.1 p.2) = true
      ↔ ∃ i : Fin 64, s.streamDrains img c ((s.core c).strm i) i = true := by
    simp only [List.any_eq_true, Core.mem_zipIdx_streams]
    exact ⟨fun ⟨_, ⟨i, hp⟩, h⟩ => ⟨i, by rwa [hp] at h⟩, fun ⟨i, h⟩ => ⟨_, ⟨i, rfl⟩, h⟩⟩
  rw [State.draining_eq, Bool.or_eq_true, hstream]
  simp [or_assoc]

theorem State.streamDrains_iff {img : Image} {x : Stream} {i : Nat} : s.streamDrains img c x i = true ↔
    x.writes ≠ [] ∨ ∃ a, x.arms.head? = some a ∧ s.mayDeliver c x a = true ∧ s.entryLanded img c i a = true := by
  rw [State.streamDrains]
  cases x.arms <;> simp

/-- The program ended by a cancellation, with the pair of core 0 as its RESULT (R153, R326). -/
def State.cancelEnded (s : State) : State :=
  s.endProgram 0x0201 0 (some ((s.core 0).kettlePair.1.toNat + 2 ^ 16 * (s.core 0).kettlePair.2.toNat))

theorem execCancelDrainDone_of_drained {img : Image} (hp : s.prog.phase = .cancelling) (ha : s.prog.active = some img)
    (hd : ∀ c, s.draining img c = false) : execCancelDrainDone s = .next s.cancelEnded := by
  rw [execCancelDrainDone, act_eq]
  exact congrArg _ (if_pos (by simp [hp, ha, hd]))

theorem execCancelDrainDone_of_still (h : s.prog.phase ≠ .cancelling ∨ ∃ c, ∀ img, s.draining img c = true) :
    execCancelDrainDone s = .next s := by
  rw [execCancelDrainDone, act_eq]
  refine congrArg _ (if_neg ?_)
  rcases h with hp | ⟨c, hd⟩
  · simp [hp]
  · cases s.prog.active with
    | none => simp
    | some img => exact fun hq => absurd (hd img) (by simpa using List.all_eq_true.1 (Bool.and_eq_true_iff.1 hq).2 c (List.mem_finRange c))

end Sys2Proof.Machine

open Sys2Proof Sys2Proof.Machine

/-- Settles O22, one lemma per command and outcome. -/
theorem tippingPath : Obligations.TippingPath := by
  intro source s read
  refine ⟨fun c mem a bytes hm hs ha he => execTippingTransfer_writeCore_of_within hm hs he ha,
    fun c mem a n hm hs ha he => execTippingTransfer_readCore_of_within hm hs he ha,
    fun a bytes hm => execTippingTransfer_writeDram (source := source) hm bytes,
    fun a n hm => execTippingTransfer_readDram (source := source) hm n, fun c mem a bytes => execTippingTransfer_writeCore_of_unserved,
    fun img hp ha hd => ?_, fun h => ?_⟩
  · refine execCancelDrainDone_of_drained hp ha fun c => Bool.eq_false_iff.2 fun hdraining => ?_
    obtain ⟨hreads, hbeats, hdone, hsignals, hstreams⟩ := hd c
    have hnext : (s.core c).nextSignal = none := Core.nextSignal_eq_none fun g hg => by simp [hsignals g hg]
    obtain ⟨i, hi⟩ : ∃ i : Fin 64, s.streamDrains img c ((s.core c).strm i) i = true := by
      simpa [hreads, hbeats, hdone, hnext] using State.draining_iff.1 hdraining
    obtain hw | ⟨a, harm, hmay, hlanded⟩ := State.streamDrains_iff.1 hi
    · exact hw (hstreams i).1
    · simpa [hmay, hlanded] using (hstreams i).2 a harm
  · refine execCancelDrainDone_of_still (h.imp_right fun ⟨c, hc⟩ => ⟨c, fun img => State.draining_iff.2 ?_⟩)
    obtain hreads | hbeats | hdone | ⟨i, hw⟩ := hc
    · exact .inl hreads
    · exact .inr (.inl hbeats)
    · exact .inr (.inr (.inl hdone))
    · exact .inr (.inr (.inr (.inr ⟨i, State.streamDrains_iff.2 (.inl hw)⟩)))
end

