-- ==== Sys2Proof/Proofs/HostResume.lean ====
section
/-!
SUPPORT. What STREAM_RESUME does when it begins (R188, R202), one lemma per form of the command and outcome; `b` is the body of the
command.
-/

namespace Sys2Proof.Machine

variable {s : State} {x : Handle} {b : Nat} {img : Image} {c : CoreId} {r : HaltRec} {reply : MirrorReply}

section
variable (hb : s.begins x 0x16 = some b)
include hb

/-! ### Without KERNEL and FROM_MIRROR -/

section
variable (hk : rsKernel b = false) (hm : rsMirror b = false)
include hk hm

theorem execStreamResume_of_badHandle (hat : s.resumeAt b = .badHandle) : execStreamResume x s = .next (s.complete x 0x0002 0 0) := by
  simp only [execStreamResume, hb, hat]
  exact if_neg (by simp [hk, hm])

variable (hat : s.resumeAt b = .here img c)
include hat

theorem execStreamResume_of_running (hh : ((s.core c).strm (rsStream b)).halted = none) :
    execStreamResume x s = .next (s.badField x 40) := by
  simp only [execStreamResume, hb, hat, hh]
  exact if_neg (by simp [hk, hm])

theorem execStreamResume_of_halted (hh : ((s.core c).strm (rsStream b)).halted = some r) :
    execStreamResume x s = .next ((s.restart img c (rsStream b) r).complete x 0 0 0) := by
  simp only [execStreamResume, hb, hat, hh]
  exact if_neg (by simp [hk, hm])
end

/-! ### With KERNEL -/

section
variable (hk : rsKernel b = true)
include hk

theorem execKernelResume_of_stream (hi : rsStream b ≠ 0) : execKernelResume x s = .next (s.badField x 40) := by
  simp only [execKernelResume, hb]
  rw [if_neg (by simp [hk]), if_pos hi]

variable (hi : rsStream b = 0)
include hi

theorem execKernelResume_of_mirror (hm : rsMirror b = true) : execKernelResume x s = .next (s.badField x 47) := by
  simp only [execKernelResume, hb]
  rw [if_neg (by simp [hk]), if_neg (by simp [hi]), if_pos hm]

variable (hm : rsMirror b = false)
include hm

theorem execKernelResume_of_badHandle (hat : s.resumeAt b = .badHandle) : execKernelResume x s = .next (s.complete x 0x0002 0 0) := by
  simp only [execKernelResume, hb, hat]
  rw [if_neg (by simp [hk]), if_neg (by simp [hi]), if_neg (by simp [hm])]

variable (hat : s.resumeAt b = .here img c)
include hat

theorem execKernelResume_of_core : execKernelResume x s =
    if (s.core c).plough.halted = true then
      .next ((s.modCore c fun k => { k with plough := { k.plough with halted := false } }).complete x 0 0 0)
    else .next (s.badField x 46) := by
  simp only [execKernelResume, hb, hat]
  rw [if_neg (by simp [hk]), if_neg (by simp [hi]), if_neg (by simp [hm])]

theorem execKernelResume_of_halted (hh : (s.core c).plough.halted = true) : execKernelResume x s
    = .next ((s.modCore c fun k => { k with plough := { k.plough with halted := false } }).complete x 0 0 0) := by
  rw [execKernelResume_of_core hb hk hi hm hat, if_pos hh]

theorem execKernelResume_of_running (hh : (s.core c).plough.halted = false) : execKernelResume x s = .next (s.badField x 46) := by
  rw [execKernelResume_of_core hb hk hi hm hat, if_neg (by simp [hh])]
end

/-! ### With FROM_MIRROR -/

/-- Bytes of the 4 KiB-aligned range that holds the failing unit of a stream (R188). -/
def State.unitRange (s : State) (e : Nat) (r : HaltRec) : Nat := 4096 * divCeil (r.addr % 4096 + s.unitLen e r) 4096

section
variable (hk : rsKernel b = false) (hm : rsMirror b = true)
include hk hm

theorem execFromMirrorResume_of_badHandle (hat : s.resumeAt b = .badHandle) :
    execFromMirrorResume x reply s = .next (s.complete x 0x0002 0 0) := by
  simp only [execFromMirrorResume, hb, hat]
  exact if_neg (by simp [hk, hm])

variable (hat : s.resumeAt b = .here img c) (hh : ((s.core c).strm (rsStream b)).halted = some r)
include hat hh

/-- Of a halted stream the reply of the partner decides, where a checkpointed class is bound. -/
theorem execFromMirrorResume_of_halted : execFromMirrorResume x reply s =
    if (!s.fab.bindings.any (·.checkpointed)) = true then .next (s.complete x 0x0008 0 0)
    else match reply with
      | .noCopy => .next (s.complete x 0x0008 0 0)
      | .unreachable d => .next (s.complete x 0x000A d.toNat 0)
      | .copy range =>
        if range.length ≠ s.unitRange (s.streamEntry img c (rsStream b)) r then .next s
        else .next (((s.dramStore (r.addr / 4096 * 4096) range).restart img c (rsStream b) r).complete x 0 0 0) := by
  simp only [execFromMirrorResume, hb, hat, hh]
  rw [if_neg (by simp [hk, hm])]
  rfl

theorem execFromMirrorResume_of_noCopy (hc : (∀ y ∈ s.fab.bindings, y.checkpointed = false) ∨ reply = .noCopy) :
    execFromMirrorResume x reply s = .next (s.complete x 0x0008 0 0) := by
  rw [execFromMirrorResume_of_halted hb hk hm hat hh]
  rcases hc with hc | rfl
  · rw [if_pos (by simpa using hc)]
  · exact ite_self _

variable (hc : ∃ y ∈ s.fab.bindings, y.checkpointed = true)
include hc

theorem execFromMirrorResume_of_copy {range : List Byte} (hn : range.length = s.unitRange (s.streamEntry img c (rsStream b)) r) :
    execFromMirrorResume x (.copy range) s
      = .next (((s.dramStore (r.addr / 4096 * 4096) range).restart img c (rsStream b) r).complete x 0 0 0) := by
  rw [execFromMirrorResume_of_halted hb hk hm hat hh, if_neg (by simpa using hc)]
  exact if_neg (by simpa using hn)

theorem execFromMirrorResume_of_unreachable (d : BitVec 16) :
    execFromMirrorResume x (.unreachable d) s = .next (s.complete x 0x000A d.toNat 0) := by
  rw [execFromMirrorResume_of_halted hb hk hm hat hh, if_neg (by simpa using hc)]
end
end

end Sys2Proof.Machine

open Sys2Proof Sys2Proof.Machine

/-- Settles O37, one lemma per form of the command and outcome. -/
theorem hostResume : Obligations.HostResume := by
  intro x b s hb i kernel mirror bad at?
  refine ⟨fun hat => ⟨fun hk hm => ?_, fun hk hi hm => ?_, fun hk hm _ => ?_⟩, execKernelResume_of_stream hb,
    execKernelResume_of_mirror hb, fun img c hat => ?_⟩
  · exact execStreamResume_of_badHandle hb hk hm hat
  · exact execKernelResume_of_badHandle hb hk hi hm hat
  · exact execFromMirrorResume_of_badHandle hb hk hm hat
  · exact ⟨fun hk hm => execStreamResume_of_running hb hk hm hat, fun r hk hm => execStreamResume_of_halted hb hk hm hat,
      fun hk hi hm => execKernelResume_of_halted hb hk hi hm hat, fun hk hi hm => execKernelResume_of_running hb hk hi hm hat,
      fun r reply hk hm hh => ⟨execFromMirrorResume_of_noCopy hb hk hm hat hh,
        fun range hc hreply hn => hreply ▸ execFromMirrorResume_of_copy hb hk hm hat hh hc hn,
        fun d hc hreply => hreply ▸ execFromMirrorResume_of_unreachable hb hk hm hat hh hc d⟩⟩
end

