-- ==== Sys2Proof/Proofs/HostSettings.lean ====
section
/-!
SUPPORT. What QUEUE_LIMITS, SET_APERTURE, SET_SERVICE and SET_PROFILE do when they begin (R174, R178, R240, R253, R325, R381), one lemma
per command and outcome; `b` is the body of the command.
-/

namespace Sys2Proof.Machine

variable {s : State} {x : Handle} {b : Nat}

/-! ### QUEUE_LIMITS (R174) -/

/-- The limits of the queues once a body has stored those of its limits that are not 0 (R174). -/
def HostIf.withLimits (h : HostIf) (b : Nat) : HostIf :=
  { h with dmaLimit := if fld b 0 11 = 0 then h.dmaLimit else BitVec.ofNat 11 (fld b 0 11),
           mirrorLimit := if fld b 16 11 = 0 then h.mirrorLimit else BitVec.ofNat 11 (fld b 16 11),
           tippingLimit := if fld b 32 7 = 0 then h.tippingLimit else BitVec.ofNat 7 (fld b 32 7) }

/-- The limits of the queues as a body of QUEUE_LIMITS carries them. -/
def HostIf.limits (h : HostIf) : Nat := h.dmaLimit.toNat + 2 ^ 16 * h.mirrorLimit.toNat + 2 ^ 32 * h.tippingLimit.toNat

section
variable (hb : s.begins x 0x20 = some b)
include hb

theorem execQueueLimits_of_begins : execQueueLimits x s =
    if 1024 < fld b 0 11 then .next (s.badField x 0)
    else if 1024 < fld b 16 11 then .next (s.badField x 16)
    else if 64 < fld b 32 7 then .next (s.badField x 32)
    else .next ((s.modHost (·.withLimits b)).complete x 0 0 s.host.limits) := by
  simp only [execQueueLimits, hb]
  rfl

theorem execQueueLimits_of_badDma (hd : 1024 < fld b 0 11) : execQueueLimits x s = .next (s.badField x 0) := by
  rw [execQueueLimits_of_begins hb, if_pos hd]

variable (hd : fld b 0 11 ≤ 1024)
include hd

theorem execQueueLimits_of_badMirror (hm : 1024 < fld b 16 11) : execQueueLimits x s = .next (s.badField x 16) := by
  rw [execQueueLimits_of_begins hb, if_neg (not_lt.2 hd), if_pos hm]

variable (hm : fld b 16 11 ≤ 1024)
include hm

theorem execQueueLimits_of_badTipping (ht : 64 < fld b 32 7) : execQueueLimits x s = .next (s.badField x 32) := by
  rw [execQueueLimits_of_begins hb, if_neg (not_lt.2 hd), if_neg (not_lt.2 hm), if_pos ht]

theorem execQueueLimits_of_limits (ht : fld b 32 7 ≤ 64) :
    execQueueLimits x s = .next ((s.modHost (·.withLimits b)).complete x 0 0 s.host.limits) := by
  rw [execQueueLimits_of_begins hb, if_neg (not_lt.2 hd), if_neg (not_lt.2 hm), if_neg (not_lt.2 ht)]
end

/-! ### SET_APERTURE (R178) -/

section
variable (hb : s.begins x 0x21 = some b)
include hb

theorem execSetAperture_of_unaligned (ha : fld b 0 52 % 2 ^ 36 ≠ 0) : execSetAperture x s = .next (s.badField x 0) := by
  simp only [execSetAperture, hb]
  exact if_pos ha

theorem execSetAperture_of_aligned (ha : fld b 0 52 % 2 ^ 36 = 0) : execSetAperture x s
    = .next ((s.modHost fun h => { h with aperture := BitVec.ofNat 64 (fld b 0 52) }).complete x 0 0 s.host.aperture.toNat) := by
  simp only [execSetAperture, hb]
  exact if_neg (not_not.2 ha)
end

/-! ### SET_SERVICE (R240, R325) -/

theorem rotationBad_iff : rotationBad b = true ↔ bitOf b 32 = true ∧ 0 < fld b 0 32 ∧ fld b 0 32 < 1024 := by
  simp only [rotationBad, Bool.and_eq_true, decide_eq_true_eq, and_assoc]

section
variable (hb : s.begins x 0x22 = some b)
include hb

theorem execSetRotation_of_begins (hl : bitOf b 34 = false) : execSetRotation x s =
    if rotationBad b = true then .next (s.badField x 0) else .next ((s.applyRotation b).complete x 0 0 0) := by
  simp only [execSetRotation, hb]
  exact if_neg (by simp [hl])

variable (hl : bitOf b 34 = true)
include hl

theorem execSetLayout_of_badRotation (hr : rotationBad b = true) : execSetLayout x s = .next (s.badField x 0) := by
  simp only [execSetLayout, hb]
  rw [if_neg (by simp [hl]), if_pos hr]

variable (hr : ¬ rotationBad b = true)
include hr

theorem execSetLayout_of_busy (hp : ¬ (s.prog.active = none ∧ s.prog.staged = none)) :
    execSetLayout x s = .next (s.complete x 0x0003 0 0) := by
  simp only [execSetLayout, hb]
  rw [if_neg (by simp [hl]), if_neg hr]
  exact if_pos (by simpa only [Option.isSome_iff_ne_none, ne_eq, not_and_or] using hp)

/-- With no program the layout becomes that of the body; a change of it loses the content of device memory. -/
theorem execSetLayout_of_idle (hp : s.prog.active = none ∧ s.prog.staged = none) : execSetLayout x s = .next (
    (if bitOf b 33 = s.prog.reserveLayout then s.applyRotation b
      else ((s.applyRotation b).modProg fun p => { p with reserveLayout := bitOf b 33 }).loseDram).complete x 0 0 0) := by
  have hlayout : (s.applyRotation b).prog.reserveLayout = s.prog.reserveLayout := by
    rw [State.applyRotation]
    split <;> rfl
  simp only [execSetLayout, hb]
  rw [if_neg (by simp [hl]), if_neg hr, if_neg (by simp [hp]), hlayout]

theorem execSetLayout_of_sameLayout (hp : s.prog.active = none ∧ s.prog.staged = none) (hs : bitOf b 33 = s.prog.reserveLayout) :
    execSetLayout x s = .next ((s.applyRotation b).complete x 0 0 0) := by
  rw [execSetLayout_of_idle hb hl hr hp, if_pos hs]

theorem execSetLayout_of_newLayout (hp : s.prog.active = none ∧ s.prog.staged = none) (hs : bitOf b 33 ≠ s.prog.reserveLayout) :
    execSetLayout x s
      = .next (((s.applyRotation b).modProg fun p => { p with reserveLayout := bitOf b 33 }).loseDram.complete x 0 0 0) := by
  rw [execSetLayout_of_idle hb hl hr hp, if_neg hs]
end

theorem State.applyRotation_dramEpoch (s : State) (b : Nat) : (s.applyRotation b).dramEpoch = s.dramEpoch := by
  rw [State.applyRotation]
  split <;> rfl

/-! ### SET_PROFILE (R253, R370, R381) -/

/-- The profile that a body of SET_PROFILE names. -/
def profileOf (b : Nat) : Fin 4 := ⟨fld b 0 2 % 4, Nat.mod_lt _ (by decide)⟩

theorem profileOf_eq (h : fld b 0 2 < 4) : profileOf b = ⟨fld b 0 2, h⟩ := Fin.ext (Nat.mod_eq_of_lt h)

theorem State.selectProfile_eq (s : State) (b : Nat) :
    s.selectProfile b = if bitOf b 3 = true then s.modMc fun m => { m with profSelected := some (profileOf b) } else s := rfl

@[simp] theorem State.selectProfile_profileLock (s : State) (b : Nat) : (s.selectProfile b).profileLock = s.profileLock := by
  rw [State.selectProfile]
  split <;> rfl

@[simp] theorem State.selectProfile_host (s : State) (b : Nat) : (s.selectProfile b).host = s.host := by
  rw [State.selectProfile]
  split <;> rfl

section
variable (hb : s.begins x 0x23 = some b)
include hb

theorem execSetProfileSelect_of_select (hw : bitOf b 2 = false) :
    execSetProfileSelect x s = .next ((s.selectProfile b).complete x 0 0 0) := by
  simp only [execSetProfileSelect, hb]
  exact if_neg (by simp [hw])

variable (hw : bitOf b 2 = true)
include hw

theorem execSetProfileWrite_of_badField {lo : Nat} (hd : declarationError (fld b 128 128) = some lo) :
    execSetProfileWrite x s = .next (s.badField x lo) := by
  simp only [execSetProfileWrite, hb, hd]
  exact if_neg (by simp [hw])

variable (hd : declarationError (fld b 128 128) = none)
include hd

/-- A good declaration is stored, unless PROFILE_LOCK or the gate of the flash interface keeps it out. -/
theorem execSetProfileWrite_of_declaration : execSetProfileWrite x s = .next (
    if s.profileLock = true then (s.selectProfile b).complete x 0 0 1
    else if s.host.gate .mcFlash ≠ .opened then (s.selectProfile b).complete x 3 0 0
    else ((s.selectProfile b).writeProfile (profileOf b) 0 128 (fld b 128 128)).complete x 0 0 0) := by
  simp only [execSetProfileWrite, hb, hd, State.selectProfile_profileLock, State.selectProfile_host]
  exact if_neg (by simp [hw])

theorem execSetProfileWrite_of_locked (hl : s.profileLock = true) :
    execSetProfileWrite x s = .next ((s.selectProfile b).complete x 0 0 1) := by
  rw [execSetProfileWrite_of_declaration hb hw hd, if_pos hl]

variable (hl : s.profileLock = false)
include hl

theorem execSetProfileWrite_of_closedGate (hg : s.host.gate .mcFlash ≠ .opened) :
    execSetProfileWrite x s = .next ((s.selectProfile b).complete x 3 0 0) := by
  rw [execSetProfileWrite_of_declaration hb hw hd, if_neg (by simp [hl]), if_pos hg]

theorem execSetProfileWrite_of_stored (hg : s.host.gate .mcFlash = .opened) : execSetProfileWrite x s
    = .next (((s.selectProfile b).writeProfile (profileOf b) 0 128 (fld b 128 128)).complete x 0 0 0) := by
  rw [execSetProfileWrite_of_declaration hb hw hd, if_neg (by simp [hl]), if_neg (not_not.2 hg)]
end

end Sys2Proof.Machine

open Sys2Proof Sys2Proof.Machine

/-- Settles O38, one lemma per command and outcome. -/
theorem hostSettings : Obligations.HostSettings := by
  intro x b s bad rotBad rot idle
  refine ⟨fun hb => ?_, fun hb => ?_, fun hb => ?_, fun hb => ?_⟩
  · exact ⟨execQueueLimits_of_badDma hb, execQueueLimits_of_badMirror hb, execQueueLimits_of_badTipping hb,
      execQueueLimits_of_limits hb⟩
  · exact ⟨execSetAperture_of_unaligned hb, execSetAperture_of_aligned hb⟩
  · have hbad : rotationBad b = true ↔ rotBad := rotationBad_iff
    refine ⟨fun hl hr => ?_, fun hl hr => ?_, fun hl hr => ?_, fun hl hr hp => ?_, fun hl hr hp hs => ?_, fun hl hr hp hs => ?_⟩
    · exact (execSetRotation_of_begins hb hl).trans (if_pos (hbad.2 hr))
    · exact (execSetRotation_of_begins hb hl).trans (if_neg (mt hbad.1 hr))
    · exact execSetLayout_of_badRotation hb hl (hbad.2 hr)
    · exact execSetLayout_of_busy hb hl (mt hbad.1 hr) hp
    · exact execSetLayout_of_sameLayout hb hl (mt hbad.1 hr) hp hs
    · rw [← s.applyRotation_dramEpoch b]
      exact execSetLayout_of_newLayout hb hl (mt hbad.1 hr) hp hs
  · intro p d s' put
    have hp : profileOf b = p := profileOf_eq p.isLt
    have hsel : s.selectProfile b = s' := by rw [State.selectProfile_eq, hp]
    have hput : s'.writeProfile p 0 128 d = s'.modMc put := rfl
    rw [← hput, ← hp, ← hsel]
    exact ⟨execSetProfileSelect_of_select hb, fun lo hw => execSetProfileWrite_of_badField hb hw, execSetProfileWrite_of_locked hb,
      execSetProfileWrite_of_closedGate hb, execSetProfileWrite_of_stored hb⟩
end

