-- ==== Sys2Proof/Proofs/DynamicTransfers.lean ====
section
/-!
SUPPORT. What DYN_TRANSFER does with a transfer, what a transfer asks of its destination, and how an own transfer ends (R280, R281, R288,
R297), one lemma per command and outcome.
-/

namespace Sys2Proof.Machine

variable {s : State} {t : Transfer}

/-! ### The fields of a header that goes on (R280) -/

/-- Bits added from bit `k` on leave the fields below. -/
theorem fld_add_mul_two_pow (y c : Nat) {k lo w : Nat} (h : lo + w ≤ k) : fld (y + 2 ^ k * c) lo w = fld y lo w := by
  obtain ⟨d, rfl⟩ := Nat.exists_eq_add_of_le h
  rw [fld, fld, show 2 ^ (lo + w + d) * c = 2 ^ lo * (2 ^ w * (2 ^ d * c)) by ring, Nat.add_mul_div_left _ _ (Nat.two_pow_pos lo),
    Nat.add_mul_mod_self_left]

/-- A remainder keeps the fields below its modulus. -/
theorem fld_mod_two_pow (x : Nat) {k lo w : Nat} (h : lo + w ≤ k) : fld (x % 2 ^ k) lo w = fld x lo w := by
  conv_rhs => rw [← Nat.mod_add_div x (2 ^ k), fld_add_mul_two_pow _ _ h]

theorem fld_toNat_ofNat {n lo w : Nat} (y : Nat) (h : lo + w ≤ n) : fld (BitVec.ofNat n y).toNat lo w = fld y lo w := by
  rw [BitVec.toNat_ofNat, fld_mod_two_pow _ h]

/-- The CRC of a header leaves the fields below it. -/
theorem fld_sealed (y c : Nat) {lo w : Nat} (h : lo + w ≤ 480) : fld (BitVec.ofNat 512 (y + 2 ^ 480 * c)).toNat lo w = fld y lo w :=
  (fld_toNat_ofNat _ (by omega)).trans (fld_add_mul_two_pow y c h)

/-- Numbers that agree from bit `k` on have the same fields there. -/
theorem fld_eq_of_div_eq {x y k lo w : Nat} (h : k ≤ lo) (hd : x / 2 ^ k = y / 2 ^ k) : fld x lo w = fld y lo w := by
  obtain ⟨d, rfl⟩ := Nat.exists_eq_add_of_le h
  simp only [fld, pow_add, ← Nat.div_div_eq_div_mul, hd]

/-- A channel put in bits 4 and 5 leaves the fields above. -/
theorem fld_withChannel (x : Nat) {lo w : Nat} (h : 6 ≤ lo) : fld (x - 2 ^ 4 * fld x 4 2 + 2 ^ 4 * 3) lo w = fld x lo w :=
  fld_eq_of_div_eq h (by unfold fld; omega)

/-- One hop more, short of 63, leaves the fields above HOPS. -/
theorem fld_addHop (x : Nat) {lo w : Nat} (h : 46 ≤ lo) (hx : hHops x ≠ 63) : fld (x + 2 ^ 40) lo w = fld x lo w :=
  fld_eq_of_div_eq h (by unfold hHops fld at hx; omega)

theorem fld_zero_eq_mod (x w : Nat) : fld x 0 w = x % 2 ^ w := by rw [fld, pow_zero, Nat.div_one]

theorem hSrc_onward (f : Flit) : hSrc (onward f true).bits.toNat = hSrc f.bits.toNat := by
  simp only [hSrc, onward, if_true]
  rw [fld_sealed _ _ (by decide), fld_withChannel _ (by decide), fld_zero_eq_mod, show (2 : Nat) ^ 40 = 2 ^ 40 * 1 from rfl,
    fld_add_mul_two_pow _ _ (by decide), fld_mod_two_pow _ (by decide)]

theorem hTransfer_onward {f : Flit} (h : hHops f.bits.toNat ≠ 63) : hTransfer (onward f true).bits.toNat = hTransfer f.bits.toNat := by
  have hmod : hHops (f.bits.toNat % 2 ^ 480) ≠ 63 := by rwa [hHops, fld_mod_two_pow _ (by decide)]
  simp only [hTransfer, onward, if_true]
  rw [fld_sealed _ _ (by decide), fld_withChannel _ (by decide), fld_zero_eq_mod, fld_addHop _ (by decide) hmod,
    fld_mod_two_pow _ (by decide)]

/-! ### DYN_TRANSFER (R280, R281, R288) -/

/-- A transfer of one of the dynamic kinds comes whole by a lane that is up. -/
structure State.Receives (s : State) (lane : LaneId) (t : Transfer) : Prop where
  main : s.pwr.main = true
  up : (s.link lane).phase = .up
  lost : s.clk.lost = false
  good : transferGood t = true
  least : 2 ≤ hKind t.header.bits.toNat
  most : hKind t.header.bits.toNat ≤ 5

/-- A transfer is for this node, or for every node. -/
abbrev State.isDestination (s : State) (t : Transfer) : Prop :=
  hDst t.header.bits.toNat = s.fab.nodeId.toNat ∨ hDst t.header.bits.toNat = 0xFFFF

section
variable {lane : LaneId}

theorem execDynTransfer_of_discarded (h : transferGood t = false ∨ hKind t.header.bits.toNat < 2 ∨ 5 < hKind t.header.bits.toNat) :
    execDynTransfer lane t s = .next s := by
  simp only [execDynTransfer]
  exact if_pos (.inr (.inr (.inr (h.imp_left (by simp [·])))))

section
variable (hr : s.Receives lane t)
include hr

theorem execDynTransfer_of_received : execDynTransfer lane t s =
    if hHops t.header.bits.toNat = 63 then
      .next (if hKind t.header.bits.toNat < 4 then s.reply t.header.bits.toNat (.refuse 2) else s)
    else if s.isDestination t then .next (s.arrive t.header.bits.toNat t)
    else .next ((s.nextLane lane t.header.bits.toNat).elim (s.passWaiting (onward t.header true) t) fun p =>
      s.passOn p.1 (if p.2 then 3 else BitVec.ofNat 2 (hVc t.header.bits.toNat)) false { t with header := onward t.header p.2 }) := by
  obtain ⟨hm, hup, hl, hg, h2, h5⟩ := hr
  simp only [execDynTransfer]
  rw [if_neg (by simp [hm, hup, hl, hg]; omega)]
  cases s.nextLane lane t.header.bits.toNat <;> rfl

theorem execDynTransfer_of_spent (hh : hHops t.header.bits.toNat = 63) : execDynTransfer lane t s
    = .next (if hKind t.header.bits.toNat < 4 then s.reply t.header.bits.toNat (.refuse 2) else s) := by
  rw [execDynTransfer_of_received hr, if_pos hh]

section
variable (hh : hHops t.header.bits.toNat ≠ 63)
include hh

theorem execDynTransfer_of_own (hd : s.isDestination t) : execDynTransfer lane t s = .next (s.arrive t.header.bits.toNat t) := by
  rw [execDynTransfer_of_received hr, if_neg hh, if_pos hd]

theorem execDynTransfer_of_lane (hd : ¬ s.isDestination t) {l : LaneId} {esc : Bool}
    (hn : s.nextLane lane t.header.bits.toNat = some (l, esc)) : execDynTransfer lane t s = .next
      (s.passOn l (if esc then 3 else BitVec.ofNat 2 (hVc t.header.bits.toNat)) false { t with header := onward t.header esc }) := by
  rw [execDynTransfer_of_received hr, if_neg hh, if_neg hd, hn]
  rfl

theorem execDynTransfer_of_noLane (hd : ¬ s.isDestination t) (hn : s.nextLane lane t.header.bits.toNat = none) :
    execDynTransfer lane t s = .next (s.passWaiting (onward t.header true) t) := by
  rw [execDynTransfer_of_received hr, if_neg hh, if_neg hd, hn]
  rfl
end
end
end

/-- A transfer that waits stands last in the escape queue, under its header that has gone on; no link changes. -/
theorem State.passWaiting_escapeWait (hh : hHops t.header.bits.toNat ≠ 63) : ∃ e : TxEntry,
    (s.passWaiting (onward t.header true) t).fab.escapeWait = s.fab.escapeWait ++ [e] ∧ e.vc = 3
      ∧ e.src = BitVec.ofNat 16 (hSrc t.header.bits.toNat) ∧ e.seq = BitVec.ofNat 32 (hTransfer t.header.bits.toNat)
      ∧ e.transit = some { t with header := onward t.header true }
      ∧ (s.passWaiting (onward t.header true) t).fab.links = s.fab.links := by
  rw [← hSrc_onward, ← hTransfer_onward hh]
  exact ⟨_, rfl, rfl, rfl, rfl, rfl, rfl⟩

/-! ### What is done at the destination (R281, R297) -/

section
variable {x : Nat}

theorem State.arrive_ack (hk : hKind x = 4) : s.arrive x t = s.takeAck (BitVec.ofNat 32 (hTransfer x)) := if_pos hk

theorem State.arrive_refuse (hk : hKind x = 5) :
    s.arrive x t = s.takeRefuse (BitVec.ofNat 32 (hTransfer x)) (BitVec.ofNat 8 (hSubtype x)) := by
  rw [State.arrive, if_neg (by omega), if_pos hk]

/-- The pages of a continuous record that leave the record broken at its partner (R297; log entry 36). -/
def State.breaksRecord (s : State) (x : Nat) (t : Transfer) : Prop :=
  ∃ step pages, Config.readContent t = .record step pages ∧ hKind x = 2
    ∧ ∀ p ∈ s.fab.protects, p.node = BitVec.ofNat 16 (hSrc x) → p.continuous = true → (p.take 0 pages).arriving ≠ []

theorem State.recordComes_eq_true_iff {node : BitVec 16} {pages : List (Nat × List Byte)} : s.recordComes node pages = true ↔
    ¬ ∀ p ∈ s.fab.protects, p.node = node → p.continuous = true → (p.take 0 pages).arriving ≠ [] := by
  simp [State.recordComes, and_assoc]

section
variable (hk : hKind x = 2 ∨ hKind x = 3)
include hk

theorem State.acknowledges_iff : s.acknowledges x t = true ↔ ¬ s.breaksRecord x t := by
  rw [State.acknowledges]
  split
  next step pages hc hd =>
    have h2 : hKind x = 2 := hk.resolve_right (of_decide_eq_false hd)
    simp [State.recordComes_eq_true_iff, State.breaksRecord, hc, h2]
  next hn =>
    refine iff_of_true rfl ?_
    rintro ⟨step, pages, hc, h2, -⟩
    exact hn step pages hc (by simp [h2])

theorem State.arrive_of_request : s.arrive x t = if s.acknowledges x t = true then (s.reply x .ack).carryOut x t else s.carryOut x t := by
  rw [State.arrive, if_neg (by omega), if_neg (by omega)]

theorem State.arrive_of_whole (hb : ¬ s.breaksRecord x t) : s.arrive x t = (s.reply x .ack).carryOut x t := by
  rw [State.arrive_of_request hk, if_pos ((State.acknowledges_iff hk).2 hb)]

theorem State.arrive_of_broken (hb : s.breaksRecord x t) : s.arrive x t = s.carryOut x t := by
  rw [State.arrive_of_request hk, if_neg fun h => (State.acknowledges_iff hk).1 h hb]
end

/-! ### What a transfer asks, as data (R184, R297, R299, R302) -/

section
variable (hk : hKind x = 2)
include hk

theorem isCtrl_of_data : decide (hKind x = 3) = false := by simp [hk]

theorem State.carryOut_pageRead {a n : Nat} (hc : Config.readContent t = .pageRead a n) (hn : a + n ≤ dramBytes) :
    s.carryOut x t = s.sendDyn (BitVec.ofNat 16 (hSrc x)) .device (.pageData (s.dramRead a n)) := by
  simp only [State.carryOut, hc, isCtrl_of_data hk]
  exact if_pos hn

theorem State.carryOut_pageWrite {a : Nat} {b : List Byte} (hc : Config.readContent t = .pageWrite a b) (hn : a + b.length ≤ dramBytes) :
    s.carryOut x t = s.dramStore a b := by
  simp only [State.carryOut, hc, isCtrl_of_data hk]
  exact if_pos hn

theorem State.carryOut_record {step : W64} {pages : List (Nat × List Byte)} (hc : Config.readContent t = .record step pages) :
    s.carryOut x t = s.modFab fun f => { f with
      protects := f.protects.map fun p => if p.node = BitVec.ofNat 16 (hSrc x) ∧ p.continuous = true then p.take step pages else p } := by
  simp only [State.carryOut, hc, isCtrl_of_data hk, State.takeRecord, State.modProtected, ite_and]

section
variable {set i total : Nat} {step : W64} {b : List Byte} (hc : Config.readContent t = .unit set step i total b)
include hc

theorem State.carryOut_unit : s.carryOut x t = s.takeUnit (BitVec.ofNat 16 (hSrc x)) set step i total b := by
  simp only [State.carryOut, hc, isCtrl_of_data hk]

theorem State.carryOut_unit_protected (hs : s.fab.seeding = none) (hr : s.prog.recovering = false) (ha : s.prog.awaiting = []) :
    s.carryOut x t = s.modFab fun f => { f with
      protects := f.protects.map fun p => if p.node = BitVec.ofNat 16 (hSrc x) then p.takeUnit set step i total b else p } := by
  rw [State.carryOut_unit hk hc, State.takeUnit, if_neg (by simp [State.awaited, ha]), if_neg (by simp [hs, hr])]
  rfl

theorem State.carryOut_unit_awaited {img : Image} {a : Nat} (hw : (set, i) ∈ s.prog.awaiting)
    (hp : s.checkPartner = some (BitVec.ofNat 16 (hSrc x))) (hkept : ∃ k, s.prog.kept = some k ∧ k.step = step)
    (hi : s.prog.active = some img) (hu : (s.setUnits img set)[i]? = some a) :
    s.carryOut x t = (s.dramStore a b).modProg fun p => { p with awaiting := p.awaiting.erase (set, i) } := by
  obtain ⟨k, hks, hstep⟩ := hkept
  have hawaited : s.awaited (BitVec.ofNat 16 (hSrc x)) set step i = true := by simp [State.awaited, hw, hp, hks, hstep]
  rw [State.carryOut_unit hk hc, State.takeUnit, if_pos hawaited]
  simp [State.takeAwaited, hi, hu]
end
end

/-! ### What a transfer asks, as a request (R296, R302) -/

section
variable (hk : hKind x = 3)
include hk

theorem State.carryOut_bind {a : BindAsk} (hc : Config.readContent t = .bind a) {r : Nat}
    (hr : s.bindRefusal (BitVec.ofNat 16 (hSrc x)) a = some r) :
    s.carryOut x t = s.sendDyn (BitVec.ofNat 16 (hSrc x)) .device (.bound (some r)) := by
  simp only [State.carryOut, hc, decide_eq_true hk, State.takeBind, hr]

theorem State.carryOut_recovery {step last : W64} (hc : Config.readContent t = .recovery step last) :
    s.carryOut x t = s.takeSteps step last := by
  simp only [State.carryOut, hc, decide_eq_true hk]
end
end

/-! ### The end of an own transfer (R281, R288, R297) -/

section
variable {q : W32} {o : DynOut}

theorem State.takeAck_of_unknown (h : s.fab.transfer q = none) : s.takeAck q = s := by simp only [State.takeAck, h]

theorem State.takeRefuse_of_unknown (r : Byte) (h : s.fab.transfer q = none) : s.takeRefuse q r = s := by simp only [State.takeRefuse, h]

theorem execResendTimeout_of_unknown (h : s.fab.transfer q = none) : execResendTimeout q s = .next s := by
  simp only [execResendTimeout, h]

/-- After an acknowledged record of step `n` the newest committed state follows it (R297). -/
def State.sendNewerRecord (s : State) (n : W64) : State :=
  match s.fab.bindings.find? (·.continuous), s.prog.committed, s.prog.active with
  | some b, some c, some img =>
    if n.toNat < c.toNat then s.sendDyn b.partner (.record c) (.record c (changedPages s.fab.acked (s.committedRecord img))) else s
  | _, _, _ => s

section
variable (ho : s.fab.transfer q = some o)
include ho

theorem State.takeAck_of_plain (hi : ∀ n, o.initiator ≠ .record n) : s.takeAck q = s.dropTransfer q := by
  simp only [State.takeAck, ho]
  split
  next n _ _ h _ => exact absurd h (hi n)
  next => rfl

theorem State.takeAck_of_record {n m : W64} {pages : List (Nat × List Byte)} (hi : o.initiator = .record n)
    (hb : o.body = .record m pages) : s.takeAck q = State.sendNewerRecord
      ((s.dropTransfer q).modFab fun f => { f with mirrored := some n, acked := applyPages f.acked pages }) n := by
  simp only [State.takeAck, ho, hi, hb]
  rfl

theorem State.takeRefuse_of_known (r : Byte) : s.takeRefuse q r = if r = 1 ∨ r = 2 then s.refused o else s := by
  simp only [State.takeRefuse, ho]

theorem execResendTimeout_of_last (hs : 8 ≤ o.sends) : execResendTimeout q s = .next (s.refused o) := by
  simp only [execResendTimeout, ho]
  exact if_pos hs

theorem execResendTimeout_of_earlier (hs : o.sends < 8) : execResendTimeout q s = .next ((s.modFab fun f =>
    { f with outstanding := f.outstanding.map fun x => if x.seq = q then { x with sends := x.sends + 1 } else x }).sendAs
      o.dst o.seq o.escape o.body) := by
  simp only [execResendTimeout, ho]
  exact if_neg (not_le.2 hs)
end

/-! ### How a refusal reaches the initiator (R281, R299, R306; log entry 36) -/

theorem State.refused_command {h : Handle} (hi : o.initiator = .command h) :
    s.refused o = (s.dropTransfer o.seq).complete h 0x000A o.dst.toNat 0 := by
  simp only [State.refused, hi]

theorem State.refused_device (hi : o.initiator = .device) :
    s.refused o = (s.dropTransfer o.seq).raiseDev 0x0414 [item o.dst.toNat, o.seq] := by
  simp only [State.refused, hi]

theorem State.refused_unit {set i : Nat} {step : W64} {b : List Byte} (hi : o.initiator = .mirror) (hb : o.body = .unit set step i b) :
    s.refused o = (((s.dropTransfer o.seq).raiseDev 0x0414 [item o.dst.toNat, o.seq]).modProg fun p =>
      { p with shipping := p.shipping.filter (· ≠ (set, step)) }).modFab fun f =>
        { f with outstanding := f.outstanding.filter fun p => p.body.shipment ≠ some (set, step) } := by
  simp only [State.refused, hi, hb, Msg.shipment]
end

/-! ### Waiting for credits, and in the escape queue (R288) -/

section
variable {src : BitVec 16} {q : W32} {l : Option LaneId} {e : TxEntry}

@[simp] theorem State.unqueue_outstanding (s : State) (l : Option LaneId) (e : TxEntry) :
    (s.unqueue l e).fab.outstanding = s.fab.outstanding := by cases l <;> rfl

theorem State.transfer_unqueue (s : State) (l : Option LaneId) (e : TxEntry) (q : W32) :
    (s.unqueue l e).fab.transfer q = s.fab.transfer q := by
  rw [Fabric.transfer, Fabric.transfer, State.unqueue_outstanding]

theorem execCreditWaitTimeout_of_notWaiting (hw : s.waitingOn src q false = none) : execCreditWaitTimeout ⟨src, q⟩ s = .next s := by
  simp only [execCreditWaitTimeout, hw]

theorem execEscapeTimeout_of_notWaiting (hw : s.waitingOn src q true = none) : execEscapeTimeout ⟨src, q⟩ s = .next s := by
  simp only [execEscapeTimeout, hw]

section
variable (hw : s.waitingOn src q true = some (l, e))
include hw

theorem execEscapeTimeout_of_own {o : DynOut} (ht : e.transit = none) (ho : s.fab.transfer q = some o) :
    execEscapeTimeout ⟨src, q⟩ s = .next ((s.unqueue l e).refused o) := by
  simp only [execEscapeTimeout, hw, ht, State.transfer_unqueue, ho]

theorem execEscapeTimeout_of_transit (ht : e.transit = some t) :
    execEscapeTimeout ⟨src, q⟩ s = .next ((s.unqueue l e).reply t.header.bits.toNat (.refuse 1)) := by
  simp only [execEscapeTimeout, hw, ht]
end

theorem TxEntry.leaves_of_channel (hv : e.vc = 1 ∨ e.vc = 2) : ¬ (!(e.vc == 1 || e.vc == 2)) = true := by
  rcases hv with hv | hv <;> simp [hv]

section
variable (hw : s.waitingOn src q false = some (l, e)) (hv : e.vc = 1 ∨ e.vc = 2)
include hw hv

theorem execCreditWaitTimeout_of_own {o : DynOut} (ht : e.transit = none) (ho : s.fab.transfer q = some o) :
    let u := s.unqueue l e
    execCreditWaitTimeout ⟨src, q⟩ s = .next ((u.modFab fun f => { f with outstanding := f.outstanding.map fun x =>
      if x.seq = q then { x with escape := true, lane := u.escapeLane o.dst.toNat } else x }).sendAs o.dst o.seq true o.body) := by
  simp only [execCreditWaitTimeout, hw, ht, State.transfer_unqueue, ho]
  exact if_neg (TxEntry.leaves_of_channel hv)

variable (ht : e.transit = some t)
include ht

theorem execCreditWaitTimeout_of_transit {out : LaneId} (he : (s.unqueue l e).escapeLane (hDst t.header.bits.toNat) = some out) :
    execCreditWaitTimeout ⟨src, q⟩ s = .next ((s.unqueue l e).passOn out 3 false { t with header := onEscape t.header }) := by
  simp only [execCreditWaitTimeout, hw, ht, he]
  exact if_neg (TxEntry.leaves_of_channel hv)

theorem execCreditWaitTimeout_of_transit_noLane (he : (s.unqueue l e).escapeLane (hDst t.header.bits.toNat) = none) :
    execCreditWaitTimeout ⟨src, q⟩ s = .next ((s.unqueue l e).passWaiting (onEscape t.header) t) := by
  simp only [execCreditWaitTimeout, hw, ht, he]
  exact if_neg (TxEntry.leaves_of_channel hv)
end
end

end Sys2Proof.Machine

open Sys2Proof Sys2Proof.Machine

/-- Settles O49, one lemma per command and outcome. -/
theorem dynamicTransfers : Obligations.DynamicTransfers := by
  refine ⟨fun lane t s hm hup hl => ?_, fun x t s => ?_, fun q src s => ?_⟩
  · intro x back mine broken
    have hreceives (hg : transferGood t = true) (h2 : 2 ≤ hKind x) (h5 : hKind x ≤ 5) : s.Receives lane t :=
      ⟨hm, hup, hl, hg, h2, h5⟩
    refine ⟨execDynTransfer_of_discarded, fun hg hk hh => ?_, fun hg hh hd => ⟨fun hk => ?_, fun hk => ?_⟩,
      fun hg hk => ⟨fun hh => ?_, fun hh hd hb => ?_, fun hh hd hb => ?_⟩,
      fun hg h2 h5 => ⟨fun l esc hd hh hn => ?_, fun hd hh hn => ?_⟩⟩
    · exact (execDynTransfer_of_spent (hreceives hg (by omega) (by omega)) hh).trans (congrArg _ (if_neg (show ¬ hKind x < 4 by omega)))
    · exact (execDynTransfer_of_own (hreceives hg (by omega) (by omega)) hh hd).trans (congrArg _ (State.arrive_ack hk))
    · exact (execDynTransfer_of_own (hreceives hg (by omega) (by omega)) hh hd).trans (congrArg _ (State.arrive_refuse hk))
    · exact (execDynTransfer_of_spent (hreceives hg (by omega) (by omega)) hh).trans (congrArg _ (if_pos (show hKind x < 4 by omega)))
    · exact (execDynTransfer_of_own (hreceives hg (by omega) (by omega)) hh hd).trans (congrArg _ (State.arrive_of_whole hk hb))
    · exact (execDynTransfer_of_own (hreceives hg (by omega) (by omega)) hh hd).trans (congrArg _ (State.arrive_of_broken hk hb))
    · exact execDynTransfer_of_lane (hreceives hg h2 h5) hh hd hn
    · obtain ⟨e, hwait⟩ := State.passWaiting_escapeWait (s := s) hh
      exact ⟨_, e, execDynTransfer_of_noLane (hreceives hg h2 h5) hh hd hn, hwait⟩
  · exact ⟨fun a n hc hk => State.carryOut_pageRead hk hc, fun a b hc hk => State.carryOut_pageWrite hk hc,
      fun step pages hc hk => State.carryOut_record hk hc, fun a r hc hk => State.carryOut_bind hk hc,
      fun step last hc hk => State.carryOut_recovery hk hc, fun set step i total b hc hk => State.carryOut_unit_protected hk hc,
      fun set step i total b img a hc hk => State.carryOut_unit_awaited hk hc⟩
  · intro gone
    refine ⟨fun h => ⟨congrArg _ (State.takeAck_of_unknown h), fun r => congrArg _ (State.takeRefuse_of_unknown r h),
      execResendTimeout_of_unknown h⟩, execCreditWaitTimeout_of_notWaiting, execEscapeTimeout_of_notWaiting, fun o ho => ?_,
      fun l e t hw ht => execEscapeTimeout_of_transit hw ht, fun l e t out hw ht hv => execCreditWaitTimeout_of_transit hw hv ht,
      fun l e t hw ht hv => execCreditWaitTimeout_of_transit_noLane hw hv ht⟩
    refine ⟨fun hi => congrArg _ (State.takeAck_of_plain ho hi), fun n m pages hi hb => ?_,
      fun r => congrArg _ (State.takeRefuse_of_known ho r), execResendTimeout_of_last ho, execResendTimeout_of_earlier ho,
      fun l e hw ht => execEscapeTimeout_of_own hw ht ho, fun l e hw ht hv => execCreditWaitTimeout_of_own hw hv ht ho,
      fun h hi hq => ?_, fun set step i b hi hb hq => ?_, fun hi hq => ?_⟩
    · exact congrArg _ (State.takeAck_of_record ho hi hb)
    · subst hq
      exact State.refused_command hi
    · subst hq
      exact State.refused_unit hi hb
    · subst hq
      exact State.refused_device hi
end

