-- ==== Sys2Proof/Proofs/PloughIsolation.lean ====
section
/-!
SUPPORT. What the instructions of the Plough cannot change: a relation that each of their operations keeps, up to the PLOUGH_FAULT that may
end it.
-/

namespace Sys2Proof.Machine

/-! ### What a write leaves of a core (R214 to R217) -/

/-- From `k` to `k'` only the memories, their words in error and the counts of dropped elements have changed. -/
structure Core.WritesOnly (k k' : Core) : Prop where
  eq : k' = { k with quire := k'.quire, acc := k'.acc, endp := k'.endp, ecc := k'.ecc, collide := k'.collide, gapCollide := k'.gapCollide }

section
variable {k k' k'' : Core}

theorem Core.WritesOnly.refl (k : Core) : k.WritesOnly k := ⟨rfl⟩

theorem Core.WritesOnly.trans (h : k.WritesOnly k') (h' : k'.WritesOnly k'') : k.WritesOnly k'' := ⟨by rw [h'.eq, h.eq]⟩

theorem Core.WritesOnly.plough (h : k.WritesOnly k') : k'.plough = k.plough := by rw [h.eq]

theorem Core.WritesOnly.site (h : k.WritesOnly k') : k'.site = k.site := by rw [h.eq]

theorem Core.WritesOnly.foldl {α : Type} {F : Core → α → Core} (hF : ∀ (k : Core) (x : α), k.WritesOnly (F k x)) (xs : List α) (k : Core) :
    k.WritesOnly (xs.foldl F k) := by
  induction xs generalizing k with
  | nil => exact .refl k
  | cons x xs ih => exact (hF k x).trans (ih _)

theorem Core.store_writesOnly (k : Core) (m : CoreMem) (a : Nat) (bytes : List Byte) : k.WritesOnly (k.store m a bytes) := by
  cases m <;> exact ⟨rfl⟩

theorem Core.dropElement_writesOnly (k : Core) (gap : Option W64) (row col : Nat) : k.WritesOnly (k.dropElement gap row col) := by
  unfold Core.dropElement
  split
  · exact ⟨rfl⟩
  · split <;> exact ⟨rfl⟩

theorem Core.storeRuns_writesOnly (k : Core) (m : CoreMem) (a : Nat) (bytes : List (Option Byte)) : k.WritesOnly (k.storeRuns m a bytes) :=
  Core.WritesOnly.foldl (fun k (p : Nat × List Byte) => k.store_writesOnly m p.1 p.2) (byteRuns a bytes) k

theorem Core.ploughStore_writesOnly (k : Core) (gap : Option W64) (t : Nat) (m : CoreMem) (a : Nat) (bytes : List (Option Byte)) :
    k.WritesOnly (k.ploughStore gap t m a bytes) := by
  cases m
  case acc =>
    refine .foldl (fun k p => ?_) _ k
    split
    · exact .refl k
    · split
      · exact k.dropElement_writesOnly gap _ _
      · exact k.storeRuns_writesOnly .acc p.1 p.2
  all_goals exact k.storeRuns_writesOnly _ a bytes
end

/-! ### What stays (R190 to R196, R223, R224) -/

/-- From `s` to `t` only core `c`, the error counters of its site and what is recorded have changed, and device memory where `op` is SST.
Where `e` holds no error has been met, and the counters of the site stay too. -/
structure State.Apart (op : Nat) (e : Prop) (c : CoreId) (s t : State) : Prop where
  others : ∀ d, d ≠ c → t.core d = s.core d
  place : (t.core c).site = (s.core c).site
  ecc : (s.core c).ecc = [] → (t.core c).ecc = []
  elsewhere : ∀ x, x ≠ (s.core c).site → t.site x = s.site x
  sites : e → t.sites = s.sites
  device : op ≠ 0x15 → t.dram = s.dram ∧ t.poison = s.poison
  dramEpoch : t.dramEpoch = s.dramEpoch
  hostMem : t.hostMem = s.hostMem
  hbm : t.hbm = s.hbm
  fab : t.fab = s.fab
  clk : t.clk = s.clk
  pwr : t.pwr = s.pwr
  cad : t.cad = s.cad
  now : t.now = s.now
  active : t.prog.active = s.prog.active
  staged : t.prog.staged = s.prog.staged
  step : t.prog.step = s.prog.step
  fuses : t.mc.fuses = s.mc.fuses
  fuseArray : t.mc.fuseArray = s.mc.fuseArray
  pending : t.pending = s.pending

/-- An error of the core's words is met only in a compiled program, and then `e` does not hold. -/
def State.Meets (e : Prop) (c : CoreId) (s : State) : Prop := (s.core c).ecc = [] ∨ (¬ e ∧ s.direct = false)

/-- An instruction of `c` ends: with a PLOUGH_FAULT, before which nothing apart has changed, or with nothing apart changed. -/
def State.Ends (op : Nat) (e : Prop) (c : CoreId) (s t : State) : Prop :=
  (∃ u a, t = u.ploughFault c a ∧ s.Apart op e c u) ∨ s.Apart op e c t

section
variable {op : Nat} {e : Prop} {c : CoreId} {s t u : State}

theorem State.Apart.refl (s : State) : s.Apart op e c s where
  others _ _ := rfl
  place := rfl
  ecc := id
  elsewhere _ _ := rfl
  sites _ := rfl
  device _ := ⟨rfl, rfl⟩
  dramEpoch := rfl
  hostMem := rfl
  hbm := rfl
  fab := rfl
  clk := rfl
  pwr := rfl
  cad := rfl
  now := rfl
  active := rfl
  staged := rfl
  step := rfl
  fuses := rfl
  fuseArray := rfl
  pending := rfl

theorem State.Apart.trans (h : s.Apart op e c t) (k : t.Apart op e c u) : s.Apart op e c u where
  others d hd := (k.others d hd).trans (h.others d hd)
  place := k.place.trans h.place
  ecc := k.ecc ∘ h.ecc
  elsewhere x hx := (k.elsewhere x (h.place.symm ▸ hx)).trans (h.elsewhere x hx)
  sites he := (k.sites he).trans (h.sites he)
  device ho := ⟨(k.device ho).1.trans (h.device ho).1, (k.device ho).2.trans (h.device ho).2⟩
  dramEpoch := k.dramEpoch.trans h.dramEpoch
  hostMem := k.hostMem.trans h.hostMem
  hbm := k.hbm.trans h.hbm
  fab := k.fab.trans h.fab
  clk := k.clk.trans h.clk
  pwr := k.pwr.trans h.pwr
  cad := k.cad.trans h.cad
  now := k.now.trans h.now
  active := k.active.trans h.active
  staged := k.staged.trans h.staged
  step := k.step.trans h.step
  fuses := k.fuses.trans h.fuses
  fuseArray := k.fuseArray.trans h.fuseArray
  pending := k.pending.trans h.pending

theorem State.Apart.meets (h : s.Apart op e c t) (hs : s.Meets e c) : t.Meets e c :=
  hs.imp h.ecc fun ⟨he, hd⟩ => ⟨he, by rw [State.direct, h.active]; exact hd⟩

theorem State.Ends.of_apart (h : s.Apart op e c t) (k : t.Ends op e c u) : s.Ends op e c u :=
  k.imp (fun ⟨v, a, hu, hv⟩ => ⟨v, a, hu, h.trans hv⟩) h.trans

theorem State.ploughFault_ends (a : Nat) : s.Ends op e c (s.ploughFault c a) := .inl ⟨s, a, rfl, .refl s⟩

/-- A fold of operations that keep what is apart keeps it. -/
theorem State.Apart.foldl {α : Type} {F : State → α → State} (hF : ∀ (u : State) x, u.Meets e c → u.Apart op e c (F u x)) (xs : List α)
    (hs : s.Meets e c) : s.Apart op e c (xs.foldl F s) := by
  induction xs generalizing s with
  | nil => exact .refl s
  | cons x xs ih =>
    have hx := hF s x hs
    exact hx.trans (ih (hx.meets hs))

/-! ### Updates of the core -/

theorem State.modCore_apart {f : Core → Core} (hp : (f (s.core c)).site = (s.core c).site)
    (he : (s.core c).ecc = [] → (f (s.core c)).ecc = []) : s.Apart op e c (s.modCore c f) where
  __ := State.Apart.refl s
  others d hd := by rw [State.core_modCore, if_neg hd]
  place := by rw [State.core_modCore, if_pos rfl, hp]
  ecc h := by rw [State.core_modCore, if_pos rfl]; exact he h

theorem State.modPl_apart (f : Plough → Plough) : s.Apart op e c (s.modPl c f) := State.modCore_apart rfl id

theorem State.ploughNext_apart : s.Apart op e c (s.ploughNext c) := by
  simp only [State.ploughNext]
  split
  · split
    · exact .refl s
    · exact State.modPl_apart _
  · exact .refl s

theorem State.ploughEndInvocation_apart : s.Apart op e c (s.ploughEndInvocation c) := by
  simp only [State.ploughEndInvocation]
  split
  · exact State.modPl_apart _
  · split
    · exact (State.modPl_apart _).trans State.ploughNext_apart
    · exact (State.modCore_apart rfl id).trans State.ploughNext_apart

/-! ### What is recorded -/

theorem State.raise_apart (code core : Nat) (items : List W32) (r : Option (BitVec 256)) :
    s.Apart op e c (s.raise code core items r) := by
  constructor <;> simp [State.core, State.site]

theorem State.raiseStep_apart (code core : Nat) (items : List W32) (r : Option (BitVec 256)) :
    s.Apart op e c (s.raiseStep code core items r) := by
  unfold State.raiseStep
  split
  · exact .refl s
  · exact State.raise_apart code core items r

theorem State.logAs_apart (v : BitVec 2) (code : Nat) (cont : Bool) (payload : Nat) : s.Apart op e c (s.logAs v code cont payload) := by
  constructor <;> simp [State.core, State.site]

theorem State.bump_apart : s.Apart op e c s.bump := by constructor <;> simp [State.core, State.site]

/-- Faults recorded against a step change neither the programs nor the step. -/
theorem State.modProg_apart {f : Program → Program} (ha : (f s.prog).active = s.prog.active) (hs : (f s.prog).staged = s.prog.staged)
    (hn : (f s.prog).step = s.prog.step) : s.Apart op e c (s.modProg f) where
  __ := State.Apart.refl s
  active := ha
  staged := hs
  step := hn

theorem State.fault_apart (cause who : Nat) (r : Option (BitVec 256)) : s.Apart op e c (s.fault cause who r) := by
  simp only [State.fault]
  split
  · exact .refl s
  · exact State.modProg_apart rfl rfl rfl

theorem State.faultNext_apart (cause who : Nat) (r : Option (BitVec 256)) : s.Apart op e c (s.faultNext cause who r) := by
  simp only [State.faultNext]
  split
  · exact .refl s
  · exact State.modProg_apart rfl rfl rfl

/-- A core fault of a compiled program stops nothing (R18, R224). -/
theorem State.coreFault_apart (hd : s.direct = false) (cause : Nat) (r : Option (BitVec 256)) :
    s.Apart op e c (s.coreFault c cause r) := by
  have helastic : s.Apart op e c (s.modProg fun p => { p with elasticFault := p.elasticFault.or (some cause) }) :=
    State.modProg_apart rfl rfl rfl
  rw [State.coreFault, if_neg (by simp [hd])]
  split
  · refine helastic.trans ?_
    dsimp only
    split
    · exact State.faultNext_apart cause c.val r
    · exact State.fault_apart cause c.val r
  · exact State.fault_apart cause c.val r

/-! ### Words in error (R223 to R226) -/

section
variable (he : ¬ e)
include he

theorem State.modSite_apart (f : Site → Site) : s.Apart op e c (s.modSite (s.core c).site f) where
  __ := State.Apart.refl (op := op) (e := e) (c := c) s
  elsewhere x hx := by rw [State.site_modSite, if_neg hx]
  sites h := absurd h he

theorem State.countCe_apart (mem : CoreMem) (r : BitVec 256) : s.Apart op e c (s.countCe (s.core c).site mem r) := by
  simp only [State.countCe]
  have hlog (u : State) (h : s.Apart op e c u) (b : Prop) [Decidable b] :
      s.Apart op e c (if b then u.logAs (Config.logSeverity 0x0509) 0x0509 false r.toNat else u) := by
    split
    · exact h.trans (State.logAs_apart _ _ _ _)
    · exact h
  split
  · exact (hlog _ (State.modSite_apart he _) _).trans (State.raise_apart _ _ _ _)
  · exact hlog _ (State.modSite_apart he _) _

theorem State.countUe_apart (r : BitVec 256) : s.Apart op e c (s.countUe (s.core c).site r) :=
  (State.modSite_apart he _).trans (State.logAs_apart _ _ _ _)

theorem State.meetMark_apart (hd : s.direct = false) (q : Nat) (m : EccMark) : s.Apart op e c (s.meetMark c q m) := by
  simp only [State.meetMark]
  split
  · exact .refl s
  · have hmark : s.Apart op e c (s.modCore c fun k => { k with ecc := k.ecc.filter (· ≠ m) }) :=
      State.modCore_apart rfl fun h => by rw [h]; rfl
    have hcount := State.countCe_apart (op := op) (c := c) (s := s.modCore c fun k => { k with ecc := k.ecc.filter (· ≠ m) }) he
    rw [hmark.place] at hcount
    exact hmark.trans (hcount _ _)
  · have hcount (r : BitVec 256) : s.Apart op e c (s.countUe (s.core c).site r) := State.countUe_apart he r
    exact (hcount _).trans (State.coreFault_apart (by rw [State.direct, (hcount _).active]; exact hd) _ _)
end

theorem State.touch_apart (hs : s.Meets e c) (mem : CoreMem) (a n q : Nat) : s.Apart op e c (s.touch c mem a n q) := by
  by_cases hc : (s.core c).ecc = []
  · rw [State.touch_none q (Core.marksIn_none hc mem a n)]
    exact .refl s
  · obtain ⟨he, hd⟩ := hs.resolve_left hc
    have hfold (l : List EccMark) (s : State) (hd : s.direct = false) : s.Apart op e c (l.foldl (fun s m => s.meetMark c q m) s) := by
      induction l generalizing s with
      | nil => exact .refl s
      | cons m l ih =>
        have hm : s.Apart op e c (s.meetMark c q m) := State.meetMark_apart he hd q m
        exact hm.trans (ih _ (by rw [State.direct, hm.active]; exact hd))
    exact hfold _ s hd

theorem State.fetchLine_apart (hs : s.Meets e c) : s.Apart op e c (s.fetchLine c) := by
  simp only [State.fetchLine]
  split
  · exact .refl s
  · exact (State.touch_apart hs _ _ _ _).trans (State.modPl_apart _)

/-! ### Loads and stores (R195, R214) -/

theorem State.storeCore_apart (hs : s.Meets e c) (t : Nat) (m : CoreMem) (a : Nat) (bytes : List (Option Byte)) (q : Nat) :
    s.Apart op e c (s.storeCore c t m a bytes q) := by
  have hpartial (u : State) (p : Nat × List Byte) (hu : u.Meets e c) : u.Apart op e c (u.touchPartial c m p.1 p.2.length q) :=
    .foldl (fun v x hv => State.touch_apart hv m x 1 q) _ hu
  exact (State.Apart.foldl hpartial (byteRuns a bytes) hs).trans
    (State.modCore_apart (Core.ploughStore_writesOnly _ _ t m a bytes).site fun h => Core.ploughStore_ecc_nil h _ t m a bytes)

theorem State.ploughLoad_ends (hs : s.Meets e c) {space a n : Nat} {vector : Bool} {f : List Byte → State → State}
    (hf : ∀ (bs : List Byte) (u : State), u.Meets e c → u.Ends op e c (f bs u)) : s.Ends op e c (s.ploughLoad c space a n vector f) := by
  have ht : s.Apart op e c (s.touch c (spaceMem space) a n 2) := State.touch_apart hs _ _ _ _
  simp only [State.ploughLoad]
  split
  · exact State.ploughFault_ends a
  · split
    · exact .inr ht
    · exact (hf _ _ (ht.meets hs)).of_apart ht

theorem State.ploughPut_ends (hs : s.Meets e c) {t space a : Nat} {vector : Bool} {bytes : List (Option Byte)} {f : State → State}
    (hf : ∀ u : State, u.Meets e c → u.Apart op e c (f u)) : s.Ends op e c (s.ploughPut c t space a vector bytes f) := by
  have hu : s.Apart op e c (s.storeCore c t (spaceMem space) a bytes 2) := State.storeCore_apart hs _ _ _ _ _
  simp only [State.ploughPut]
  split
  · exact State.ploughFault_ends a
  · split
    · exact .inr hu
    · exact .inr (hu.trans (hf _ (hu.meets hs)))

/-- Only SST stores in device memory (R196). -/
theorem State.dramStore_apart (a : Nat) (bytes : List Byte) : s.Apart 0x15 e c (s.dramStore a bytes) where
  __ := State.Apart.refl (op := 0x15) (e := e) (c := c) s
  device h := absurd rfl h

theorem State.takeDraws_apart (r n : Nat) : s.Apart op e c (s.takeDraws c r n) := by
  unfold State.takeDraws
  split
  · exact State.modCore_apart rfl id
  · exact .refl s

theorem State.observe_apart (closed : Bool) (layer role : Nat) (x1 : Bool) (xs : List Num) (flush sat : Nat) :
    s.Apart op e c (s.modCore c fun k => k.observe closed layer role x1 xs flush sat) := by
  have hkeeps (k : Core) : (k.observe closed layer role x1 xs flush sat).site = k.site
      ∧ (k.observe closed layer role x1 xs flush sat).ecc = k.ecc := by
    simp only [Core.observe]
    split
    · exact ⟨rfl, rfl⟩
    · split <;> exact ⟨rfl, rfl⟩
  exact State.modCore_apart (hkeeps _).1 (hkeeps _).2.trans

/-- What follows the write of a quantisation. -/
theorem State.drawn_observed_apart (r n : Nat) (closed : Bool) (layer role : Nat) (x1 : Bool) (xs : List Num) (flush sat : Nat) :
    s.Apart op e c (((s.takeDraws c r n).modCore c fun k => k.observe closed layer role x1 xs flush sat).modPl c Plough.go) :=
  ((State.takeDraws_apart r n).trans (State.observe_apart _ _ _ _ _ _ _)).trans (State.modPl_apart _)

theorem State.quantise_ends (hs : s.Meets e c) (cycle r code : Nat) (e5m2 : Bool) :
    s.Ends op e c (s.quantise c cycle r code e5m2) := by
  simp only [State.quantise]
  split
  · exact State.ploughFault_ends _
  · refine State.ploughPut_ends hs fun u _ => ?_
    split
    · exact (State.drawn_observed_apart _ _ _ _ _ _ _ _ _).trans State.bump_apart
    · exact State.drawn_observed_apart _ _ _ _ _ _ _ _ _

theorem State.ploughHalt_apart (reason space a : Nat) : s.Apart op e c (s.ploughHalt c reason space a) :=
  (State.modPl_apart _).trans (State.raiseStep_apart _ _ _ _)

/-! ### Every instruction -/

theorem ploughDo_ends {f : Nat → State → State} (hs : s.Meets e c) (hf : ∀ (r : Nat) (u : State), u.Meets e c → u.Ends op e c (f r u))
    (ht : ploughDo c op f s = .next t) : s.Ends op e c t := by
  have hfetch : s.Apart op e c (s.fetchLine c) := State.fetchLine_apart hs
  simp only [ploughDo, ← apply_ite Host.Outcome.next, Host.Outcome.next.injEq] at ht
  subst ht
  split
  · exact .inr (.refl s)
  · split
    · exact State.ploughFault_ends 0
    · split
      · exact .inr (.refl s)
      · split
        · exact .inr hfetch
        · split
          · exact (hf _ _ (hfetch.meets hs)).of_apart hfetch
          · split
            · exact .inr (hfetch.trans State.ploughEndInvocation_apart)
            · exact (State.ploughFault_ends 0).of_apart hfetch

/-- The command `x` of core `c` goes through the driver (R193, R196), with an effect that ends as `State.Ends` says. -/
def Isolated (op : Nat) (e : Prop) (c : CoreId) (x : State → Host.Outcome State Fault Refusal) : Prop :=
  ∃ f, (∀ s, x s = ploughDo c op f s) ∧ ∀ (r : Nat) (u : State), u.Meets e c → u.Ends op e c (f r u)

theorem ploughRegs_isolated (g : Nat → Plough → Plough) : Isolated op e c fun s => ploughRegs c op g s :=
  ⟨_, fun _ => rfl, fun _ _ _ => .inr (State.modPl_apart _)⟩

theorem execPloughEnd_isolated : Isolated 0x01 e c (execPloughEnd c) :=
  ⟨_, fun _ => rfl, fun _ _ _ => .inr State.ploughEndInvocation_apart⟩

theorem execPloughLoop_isolated : Isolated 0x02 e c (execPloughLoop c) := by
  refine ⟨_, fun _ => rfl, fun r u hu => ?_⟩
  split
  · exact State.ploughFault_ends 0
  · exact .inr (State.modPl_apart _)

theorem execPloughEndLoop_isolated : Isolated 0x03 e c (execPloughEndLoop c) := by
  refine ⟨_, fun _ => rfl, fun r u hu => ?_⟩
  split
  · exact State.ploughFault_ends 0
  · exact .inr (State.modPl_apart _)

theorem execBrf_isolated : Isolated 0x04 e c (execBrf c) := by
  refine ⟨_, fun _ => rfl, fun r u hu => ?_⟩
  dsimp only
  split
  · exact State.ploughFault_ends 0
  · exact .inr (State.modPl_apart _)

theorem execVld_isolated : Isolated 0x10 e c (execVld c) :=
  ⟨_, fun _ => rfl, fun _ _ hu => State.ploughLoad_ends hu fun _ _ _ => .inr (State.modPl_apart _)⟩

theorem execVst_isolated (cycle : Nat) : Isolated 0x11 e c (execVst c cycle) :=
  ⟨_, fun _ => rfl, fun _ _ hu => State.ploughPut_ends hu fun _ _ => State.modPl_apart _⟩

theorem execSld_isolated : Isolated 0x14 e c (execSld c) := by
  refine ⟨_, fun _ => rfl, fun r u hu => ?_⟩
  dsimp only
  split
  · split
    · exact State.ploughFault_ends _
    · split
      · exact .inr ((State.modPl_apart _).trans State.bump_apart)
      · exact .inr (State.modPl_apart _)
  · exact State.ploughLoad_ends hu fun _ _ _ => .inr (State.modPl_apart _)

theorem execSst_isolated (cycle : Nat) : Isolated 0x15 e c (execSst c cycle) := by
  refine ⟨_, fun _ => rfl, fun r u hu => ?_⟩
  dsimp only
  split
  · split
    · exact State.ploughFault_ends _
    · exact .inr ((State.dramStore_apart _ _).trans (State.modPl_apart _))
  · exact State.ploughPut_ends hu fun _ _ => State.modPl_apart _

theorem execQfolio_isolated (cycle : Nat) : Isolated 0x40 e c (execQfolio c cycle) :=
  ⟨_, fun _ => rfl, fun _ _ hu => State.quantise_ends hu _ _ _ _⟩

theorem execQwire_isolated (cycle : Nat) : Isolated 0x41 e c (execQwire c cycle) :=
  ⟨_, fun _ => rfl, fun _ _ hu => State.quantise_ends hu _ _ _ _⟩

theorem execQcvt_isolated (cycle : Nat) : Isolated 0x42 e c (execQcvt c cycle) :=
  ⟨_, fun _ => rfl, fun _ _ hu => State.ploughPut_ends hu fun _ _ => State.drawn_observed_apart _ _ _ _ _ _ _ _ _⟩

theorem execUnpack_isolated : Isolated 0x43 e c (execUnpack c) := by
  refine ⟨_, fun _ => rfl, fun r u hu => State.ploughLoad_ends hu fun _ _ _ => .inr ?_⟩
  dsimp only
  split
  · exact State.ploughHalt_apart _ _ _
  · exact State.modPl_apart _

theorem execTestf_isolated : Isolated 0x44 e c (execTestf c) :=
  ⟨_, fun _ => rfl, fun _ _ hu => State.ploughLoad_ends hu fun _ _ _ => .inr (State.modPl_apart _)⟩

theorem execMreenc_isolated : Isolated 0x45 e c (execMreenc c) := by
  refine ⟨_, fun _ => rfl, fun r u hu => State.ploughLoad_ends hu fun _ v hv => ?_⟩
  split
  · exact .inr (State.ploughHalt_apart _ _ _)
  · refine State.ploughLoad_ends hv fun _ w hw => ?_
    split
    refine State.ploughPut_ends hw fun x _ => ?_
    split
    · exact (State.modCore_apart rfl id).trans (State.modPl_apart _)
    · exact State.modPl_apart _

theorem execVrand_isolated : Isolated 0x48 e c (execVrand c) :=
  ⟨_, fun _ => rfl, fun _ _ _ => .inr ((State.modPl_apart _).trans (State.modCore_apart rfl id))⟩

/-- The commands of the Plough: those beyond the registers by name, the others through `ploughRegs`. -/
theorem exec_isolated {i : Instr} (e : Prop) (h : i.ploughOp = some (c, op)) : Isolated op e c (exec i ·) := by
  cases i <;> simp only [Instr.ploughOp, reduceCtorEq, Option.some.injEq, Prod.mk.injEq] at h
  all_goals obtain ⟨rfl, rfl⟩ := h
  case ploughEnd => exact execPloughEnd_isolated
  case ploughLoop => exact execPloughLoop_isolated
  case ploughEndLoop => exact execPloughEndLoop_isolated
  case brf => exact execBrf_isolated
  case vld => exact execVld_isolated
  case vst => exact execVst_isolated _
  case sld => exact execSld_isolated
  case sst => exact execSst_isolated _
  case qfolio => exact execQfolio_isolated _
  case qwire => exact execQwire_isolated _
  case qcvt => exact execQcvt_isolated _
  case unpack => exact execUnpack_isolated
  case testf => exact execTestf_isolated
  case mreenc => exact execMreenc_isolated
  case vrand => exact execVrand_isolated
  all_goals
    simp only [exec, execPloughNop, execSli, execSadd, execSshl, execPset, execPadd, execVadd, execVsub, execVmul, execVfma, execVmin,
      execVmax, execVabs, execVneg, execVdiv, execVsqrt, execVcmp, execVsel, execVbcast, execVrsum, execVrmax, execVramax, execVexp2,
      execVlog2, execVexp, execVlog, execVlse, execVrlse]
    exact ploughRegs_isolated _
end

end Sys2Proof.Machine

open Sys2Proof Sys2Proof.Machine

/-- Settles O6: the driver's cases and the effect of the instruction each end as `State.Ends` says. -/
theorem ploughIsolation : Obligations.PloughIsolation := by
  intro i c op s t h ht hs same
  have hsame (u : State) (k : s.Apart op ((s.core c).ecc = []) c u) : same u :=
    ⟨k.others, k.elsewhere, k.device, k.dramEpoch, k.hostMem, k.hbm, k.fab, k.clk, k.pwr, k.cad, k.now, k.active, k.staged, k.step, k.fuses,
      k.fuseArray, k.pending, k.sites⟩
  have hmeets : s.Meets ((s.core c).ecc = []) c := by
    by_cases he : (s.core c).ecc = []
    · exact .inl he
    · exact .inr ⟨he, hs.resolve_right he⟩
  obtain ⟨f, hexec, hf⟩ := exec_isolated ((s.core c).ecc = []) h
  exact (ploughDo_ends hmeets hf ((hexec s).symm.trans ht)).imp (fun ⟨u, a, hu, hk⟩ => ⟨u, a, hu, hsame u hk⟩) (hsame t)
end

