-- ==== Sys2Proof/Proofs/PloughTurn.lean ====
section
/-!
SUPPORT. What a command of the Plough does, whichever it is: it carries out one effect through the common driver, after the line of the
instruction has been fetched.
-/

namespace Sys2Proof.Machine

variable {s : State} {c : CoreId} {op : Nat}

/-- Every command of the Plough goes through the driver (R193, R196). -/
theorem exec_eq_ploughDo {i : Instr} (h : i.ploughOp = some (c, op)) : ∃ f, ∀ s, exec i s = ploughDo c op f s :=
  (exec_isolated True h).imp fun _ hf => hf.1

/-- The fetch buffer holds the line `n`. -/
theorem line_any_iff {line : Option (Nat × BitVec 2048)} {n : Nat} : line.any (·.1 == n) = true ↔ ∃ b, line = some (n, b) := by
  cases line with
  | none => simp
  | some x => cases x; simp [and_comm]

theorem Core.brokenInstr_iff {k : Core} :
    k.brokenInstr = true ↔ ∃ m ∈ k.marksIn .endpaper (16 * k.plough.ip) 16, m.find = .uncorrectable := by
  simp [Core.brokenInstr]

/-- A line read where it has no word in error changes the fetch buffer alone (R219). -/
theorem State.fetchLine_of_clean (hl : ¬ (s.core c).plough.line.any (·.1 == (s.core c).plough.ip / 16) = true)
    (he : (s.core c).marksIn .endpaper (256 * ((s.core c).plough.ip / 16)) 256 = []) :
    s.fetchLine c = s.modCore c fun k => { k with plough := { k.plough with
      line := some ((s.core c).plough.ip / 16,
        BitVec.ofNat 2048 (k.readNat .endpaper (256 * ((s.core c).plough.ip / 16)) 256)) } } := by
  simp only [State.fetchLine, State.touch_none _ he, hl, Bool.false_eq_true, if_false, State.modPl]
  exact State.modCore_congr _ _ _ _ rfl

/-- The Plough's kernel runs: it is not halted, a program is active and ACLK runs. -/
def State.ploughRuns (s : State) (c : CoreId) : Prop :=
  (s.core c).plough.running = true ∧ (s.core c).plough.halted = false ∧ s.prog.active.isSome = true ∧ s.aclkRuns = true

theorem ploughDo_of_stands (f : Nat → State → State) (h : ¬ s.ploughRuns c) : ploughDo c op f s = .next s :=
  ploughDo_other f (.inl h)

section
variable (f : Nat → State → State) (hr : s.ploughRuns c)
include hr

/-- The driver of a running kernel, once the index is inside the endpaper memory. -/
theorem ploughDo_of_runs (hi : (s.core c).plough.ip < 4096) :
    ploughDo c op f s =
      let t := s.fetchLine c
      let r := (t.core c).plough.instr
      let legal := instrOk r ((s.core c).plough.layer == 0xFFFF)
      if legal ∧ iOp r ≠ op then .next s
      else if t.prog.active = none then .next t
      else if legal then .next (f r t)
      else if !(s.core c).plough.direct ∧ (t.core c).brokenInstr then .next (t.ploughEndInvocation c)
      else .next (t.ploughFault c) := by
  obtain ⟨h1, h2, h3, h4⟩ := hr
  have h3' : s.prog.active ≠ none := Option.isSome_iff_ne_none.1 h3
  simp only [ploughDo]
  rw [if_neg (by simp [h1, h2, h3', h4]), if_neg (by omega)]

/-- An index beyond 4,095 (R194, R195). -/
theorem ploughDo_of_outside (hi : 4096 ≤ (s.core c).plough.ip) : ploughDo c op f s = .next (s.ploughFault c) :=
  have ⟨h1, h2, h3, h4⟩ := hr
  ploughDo_refused f h1 h2 h3 h4 (.inl hi)

/-- With the line fetched, the command is carried out as if it had been there before. -/
theorem ploughDo_of_fetch (hi : (s.core c).plough.ip < 4096)
    (hl : ¬ (s.core c).plough.line.any (·.1 == (s.core c).plough.ip / 16) = true)
    (he : (s.core c).marksIn .endpaper (256 * ((s.core c).plough.ip / 16)) 256 = []) :
    let r := ((s.fetchLine c).core c).plough.instr
    ploughDo c op f s = if instrOk r ((s.core c).plough.layer == 0xFFFF) = true ∧ iOp r ≠ op then .next s
      else ploughDo c op f (s.fetchLine c) := by
  have hf := State.fetchLine_of_clean hl he
  have hcore : ((s.fetchLine c).core c).plough = { (s.core c).plough with line := ((s.fetchLine c).core c).plough.line } := by
    rw [hf, State.core_modCore, if_pos rfl]
  have hruns : (s.fetchLine c).ploughRuns c := by
    rw [hf]
    simpa [State.ploughRuns, State.aclkRuns] using hr
  have hheld : (s.fetchLine c).fetchLine c = s.fetchLine c := by
    refine State.fetchLine_held (line_any_iff.2 ?_)
    rw [hf, State.core_modCore, if_pos rfl]
    exact ⟨_, rfl⟩
  rw [ploughDo_of_runs f hr hi, ploughDo_of_runs f hruns (by rw [hcore]; exact hi), hheld]
  have hlayer : ((s.fetchLine c).core c).plough.layer = (s.core c).plough.layer := by rw [hcore]; rfl
  have hdirect : ((s.fetchLine c).core c).plough.direct = (s.core c).plough.direct := by rw [hcore]
  simp only [hlayer, hdirect]
  split <;> rfl

/-- An instruction that R194 refuses, where no error has made it one (R195). -/
theorem ploughDo_of_illegal (hi : (s.core c).plough.ip < 4096)
    (hl : (s.core c).plough.line.any (·.1 == (s.core c).plough.ip / 16) = true)
    (ho : instrOk (s.core c).plough.instr ((s.core c).plough.layer == 0xFFFF) = false) :
    ploughDo c op f s = .next (if (s.core c).plough.direct = false ∧ (s.core c).brokenInstr = true then s.ploughEndInvocation c
      else s.ploughFault c) := by
  obtain ⟨-, -, h3, -⟩ := id hr
  have h3' : s.prog.active ≠ none := Option.isSome_iff_ne_none.1 h3
  rw [ploughDo_of_runs f hr hi, State.fetchLine_held hl]
  simp only [ho, h3', Bool.false_eq_true, false_and, if_false, Bool.not_eq_true', apply_ite Host.Outcome.next]
end

end Sys2Proof.Machine

open Sys2Proof Sys2Proof.Machine

/-- Settles O25 for the driver, which every command of the Plough goes through. -/
theorem ploughRefusedInstruction : Obligations.PloughRefusedInstruction := by
  intro i c op s h k p line held r ok runs broken fault
  obtain ⟨f, hexec⟩ := exec_eq_ploughDo h
  simp only [hexec]
  have hheld : held ↔ p.line.any (·.1 == line) = true := line_any_iff.symm
  have hbroken : broken ↔ k.brokenInstr = true := Core.brokenInstr_iff.symm
  have hruns (hr : runs) : s.ploughRuns c := by
    obtain ⟨h1, h2, h3, h4⟩ := hr
    exact ⟨h1, h2, h3, h4⟩
  refine ⟨fun hr hi => ploughDo_of_outside f (hruns hr) hi, fun hr hi hh he => ?_, fun hr hi hh ho hd => ?_, fun hr hi hh ho hd hb => ?_,
    fun hn => ?_⟩
  · have hl : ¬ (s.core c).plough.line.any (·.1 == (s.core c).plough.ip / 16) = true := fun hl => hh (hheld.2 hl)
    have hf := State.fetchLine_of_clean hl he
    have hdo := ploughDo_of_fetch (op := op) f (hruns hr) hi hl he
    rw [hf] at hdo
    exact hdo
  · refine (ploughDo_of_illegal f (hruns hr) hi (hheld.1 hh) ho).trans (congrArg _ (if_neg fun hx => ?_))
    rcases hd with hd | hb
    · exact Bool.false_ne_true (hx.1.symm.trans hd)
    · exact hb (hbroken.2 hx.2)
  · exact (ploughDo_of_illegal f (hruns hr) hi (hheld.1 hh) ho).trans (congrArg _ (if_pos ⟨hd, hbroken.1 hb⟩))
  · rcases hn with hn | ⟨hi, hh, ho, hop⟩
    · exact ploughDo_of_stands f fun ⟨h1, h2, h3, h4⟩ => hn ⟨h1, h2, h3, h4⟩
    · have hf := State.fetchLine_held (hheld.1 hh)
      refine ploughDo_other f (.inr ⟨hi, ?_, ?_⟩) <;> rw [hf]
      · exact ho
      · exact hop
end

