-- ==== Sys2Proof/Proofs/PloughRegisters.lean ====
section
/-!
SUPPORT. The instructions of the Plough that work on registers alone: scalars and pointers, lanes, reductions and masks.
-/

namespace Sys2Proof.Machine

variable {s : State} {c : CoreId} {r op : Nat}

/-! ### Scalars and pointers (R190, R196) -/

/-- An instruction on registers leaves the register file that its effect names. -/
theorem ploughRegs_gives (h : s.atInstr c r) (hop : iOp r = op) {f : Nat → Plough → Plough} {q : Plough}
    (hq : (f r (s.core c).plough).go = q) :
    ploughRegs c op f s = .next (s.modCore c fun k => { k with plough := q }) := by
  rw [ploughRegs_at h hop, hq]

theorem Plough.setS_toNat (p : Plough) (i : Nat) (x : W64) : p.setS i x.toNat = { p with sr := p.sr.setIfInBounds i x } := by
  simp [Plough.setS]

theorem Plough.setS_add (p : Plough) (i a b : Nat) :
    p.setS i (p.sreg a + p.sreg b) = { p with sr := p.sr.setIfInBounds i (p.sr.getD a 0 + p.sr.getD b 0) } := by
  simp [Plough.setS, Plough.sreg, BitVec.ofNat_add]

theorem Plough.setS_shift (p : Plough) (i a n : Nat) :
    p.setS i (p.sreg a * 2 ^ n) = { p with sr := p.sr.setIfInBounds i (p.sr.getD a 0 <<< n) } := by
  have hshift : BitVec.ofNat 64 (p.sreg a * 2 ^ n) = p.sr.getD a 0 <<< n := by
    apply BitVec.eq_of_toNat_eq
    rw [BitVec.toNat_ofNat, BitVec.toNat_shiftLeft, Nat.shiftLeft_eq, Plough.sreg]
  rw [Plough.setS, hshift]

theorem Plough.setP_sreg (p : Plough) (i a : Nat) : p.setP i (p.sreg a) = { p with p := p.p.setIfInBounds i (p.sr.getD a 0) } := by
  simp [Plough.setP, Plough.sreg]

/-- The address of an access is the 64-bit sum of its pointer and its sign-extended IMM. -/
theorem Plough.ofNat_addr (p : Plough) (r : Nat) :
    BitVec.ofNat 64 (p.addr r) = p.p.getD (iPtr r) 0 + BitVec.ofInt 64 (iImmS r) := by
  have hsum : BitVec.ofNat 64 (p.addr r) = BitVec.ofInt 64 ((p.preg (iPtr r) : Int) + iImmS r) := by
    apply BitVec.eq_of_toNat_eq
    rw [BitVec.toNat_ofNat, BitVec.toNat_ofInt, Plough.addr]
    exact Nat.mod_eq_of_lt (by omega)
  rw [hsum, BitVec.ofInt_add, BitVec.ofInt_natCast, Plough.preg, BitVec.ofNat_toNat, BitVec.setWidth_eq]

theorem Plough.setP_addr (p : Plough) (r : Nat) :
    p.setP (iPtr r) (p.addr r) = { p with p := p.p.setIfInBounds (iPtr r) (p.p.getD (iPtr r) 0 + BitVec.ofInt 64 (iImmS r)) } := by
  rw [Plough.setP, Plough.ofNat_addr]

/-! ### Lanes (R190, R191, R197) -/

/-- An instruction whose effect on the registers is a write of lanes. -/
theorem ploughRegs_lanes (h : s.atInstr c r) (hop : iOp r = op) {f : Nat → Plough → Plough} {g : Nat → Nat}
    (hf : f r (s.core c).plough = (s.core c).plough.setV r g) :
    ∃ q, ploughRegs c op f s = .next (s.modCore c fun k => { k with plough := q }) ∧ (s.core c).plough.lanesSet r g q :=
  ⟨_, ploughRegs_gives h hop (congrArg Plough.go hf), Plough.lanesSet_setV _ r g⟩

/-- PAIR is clear in an instruction whose opcode does not use it (R192). -/
theorem State.atInstr.iPair_eq_false (h : s.atInstr c r) (hop : iOp r = op) {fs : List (Nat × Nat)} (ho : opBits op = some fs)
    (hb : (fieldMask ((0, 8) :: fs)).testBit 31 = false) : iPair r = false := by
  obtain ⟨-, -, -, -, -, -, -, hok⟩ := h
  subst hop
  rw [iPair, bitOf_eq_testBit]
  exact instrOk_bit hok ho 31 hb

theorem lanes1_of_unpaired {p : Plough} (hp : iPair r = false) (f g : Nat → Nat) :
    lanes1 f g r p = p.setV r fun l => f (laneOf (p.vr (iVA r)) l) := by
  simp [lanes1, lane1, hp]

theorem lanes2_of_unpaired {p : Plough} (hp : iPair r = false) (f g : Nat → Nat → Nat) :
    lanes2 f g r p = p.setV r fun l => f (laneOf (p.vr (iVA r)) l) (laneOf (p.vr (iVB r)) l) := by
  simp [lanes2, lane2, hp]

/-! ### Reductions (R198) -/

/-- An instruction whose effect on the registers is a scalar result. -/
theorem ploughRegs_scalar (h : s.atInstr c r) (hop : iOp r = op) {f : Nat → Plough → Plough} {x : Nat}
    (hf : f r (s.core c).plough = (s.core c).plough.setScalar r x) :
    ∃ q, ploughRegs c op f s = .next (s.modCore c fun k => { k with plough := q }) ∧ (s.core c).plough.scalarSet r x q :=
  ⟨_, ploughRegs_gives h hop (congrArg Plough.go hf), Plough.scalarSet_setScalar _ r x⟩

/-! ### Masks (R190, R191, R196) -/

theorem maskBits_lt (f : Nat → Bool) (n : Nat) : maskBits f n < 2 ^ n := by
  induction n with
  | zero => simp [maskBits]
  | succ n ih =>
    rw [maskBits, Nat.pow_succ]
    split <;> omega

/-- Bit `l` of a mask of predicates is the predicate of lane `l`. -/
theorem testBit_maskBits (f : Nat → Bool) {n l : Nat} (hl : l < n) : (maskBits f n).testBit l = f l := by
  induction n with
  | zero => omega
  | succ n ih =>
    rw [maskBits, Nat.add_comm]
    rcases Nat.lt_succ_iff_lt_or_eq.1 hl with hlt | rfl
    · split
      · rw [Nat.testBit_two_pow_add_gt hlt, ih hlt]
      · rw [Nat.zero_add, ih hlt]
    · have hclear : (maskBits f l).testBit l = false := Nat.testBit_lt_two_pow (maskBits_lt f l)
      split
      next hf => rw [Nat.testBit_two_pow_add_eq, hclear, hf]; rfl
      next hf => rw [Nat.zero_add, hclear, Bool.eq_false_iff.2 hf]

/-- A lane of the mask that VCMP writes (R191). -/
theorem bitOf_compareMask (mask old : Nat) (test : Nat → Bool) {l : Nat} (hl : l < 64) :
    bitOf (compareMask mask old test) l = if bitOf mask l then test l else bitOf old l := by
  rw [bitOf_eq_testBit, compareMask, testBit_maskBits _ hl]

/-- M0 reads all ones, whatever was written (R190). -/
theorem Plough.bitOf_mreg_zero (p : Plough) {l : Nat} (hl : l < 64) : bitOf (p.mreg 0) l = true := by
  rw [bitOf_eq_testBit, Plough.mreg, if_pos rfl, Nat.testBit_two_pow_sub_one, decide_eq_true hl]

theorem Plough.mreg_setM_ne (p : Plough) {i j : Nat} (x : Nat) (hj : j ≠ i) : (p.setM i x).mreg j = p.mreg j := by
  rw [Plough.setM]
  split
  · rfl
  · simp [Plough.mreg, Vector.getD, Ne.symm hj]

theorem Plough.mreg_setM_same (p : Plough) {i x : Nat} (h0 : i ≠ 0) (hi : i < 8) (hx : x < 2 ^ 64) : (p.setM i x).mreg i = x := by
  simpa [Plough.setM, Plough.mreg, Vector.getD, h0, hi] using hx

/-- A write of a mask changes the masks alone. -/
theorem Plough.setM_frame (p : Plough) (i x : Nat) : (p.setM i x).go = { p with m := (p.setM i x).m, ip := p.ip + 1 } := by
  rw [Plough.setM]
  split <;> rfl

end Sys2Proof.Machine

open Sys2Proof Sys2Proof.Machine

/-- Settles O23: each instruction writes one register, by 64-bit arithmetic. -/
theorem ploughScalars : Obligations.PloughScalars := by
  intro c s r h p imm S done
  simp only [exec, execSli, execSadd, execSshl, execPset, execPadd]
  exact ⟨fun hop => ploughRegs_gives h hop (congrArg Plough.go (Plough.setS_toNat p _ _)),
    fun hop => ploughRegs_gives h hop (congrArg Plough.go (Plough.setS_add p _ _ _)),
    fun hop => ploughRegs_gives h hop (congrArg Plough.go (Plough.setS_shift p _ _ _)),
    fun hop => ploughRegs_gives h hop (congrArg Plough.go (Plough.setP_sreg p _ _)),
    fun hop => ploughRegs_gives h hop (congrArg Plough.go (Plough.setP_addr p r))⟩

/-- Settles O26: each instruction writes lanes; the functions that have no pair form stand in instructions that may not set PAIR. -/
theorem ploughLanes : Obligations.PloughLanes := by
  intro c s r h p a b d writes
  simp only [writes, exec, execVadd, execVsub, execVmul, execVfma, execVmin, execVmax, execVabs, execVneg, execVdiv, execVsqrt, execVsel,
    execVbcast, execVexp2, execVlog2, execVexp, execVlog, execVlse]
  refine ⟨fun hop => ploughRegs_lanes h hop rfl, fun hop => ploughRegs_lanes h hop rfl, fun hop => ploughRegs_lanes h hop rfl,
    fun hop => ploughRegs_lanes h hop rfl, fun hop => ploughRegs_lanes h hop rfl, fun hop => ploughRegs_lanes h hop rfl,
    fun hop => ploughRegs_lanes h hop rfl, fun hop => ploughRegs_lanes h hop rfl, fun hop => ?_, fun hop => ?_,
    fun hop => ploughRegs_lanes h hop rfl, fun hop => ploughRegs_lanes h hop rfl, fun hop => ?_, fun hop => ?_, fun hop => ?_,
    fun hop => ?_, fun hop => ?_⟩
  · exact ploughRegs_lanes h hop (lanes2_of_unpaired (h.iPair_eq_false hop rfl (by decide)) _ _)
  · exact ploughRegs_lanes h hop (lanes1_of_unpaired (h.iPair_eq_false hop rfl (by decide)) _ _)
  · exact ploughRegs_lanes h hop (lanes1_of_unpaired (h.iPair_eq_false hop rfl (by decide)) _ _)
  · exact ploughRegs_lanes h hop (lanes1_of_unpaired (h.iPair_eq_false hop rfl (by decide)) _ _)
  · exact ploughRegs_lanes h hop (lanes1_of_unpaired (h.iPair_eq_false hop rfl (by decide)) _ _)
  · exact ploughRegs_lanes h hop (lanes1_of_unpaired (h.iPair_eq_false hop rfl (by decide)) _ _)
  · exact ploughRegs_lanes h hop (lanes2_of_unpaired (h.iPair_eq_false hop rfl (by decide)) _ _)

/-- Settles O27: each reduction writes one scalar result. -/
theorem ploughReductions : Obligations.PloughReductions := by
  intro c s r h p lanes gives
  simp only [gives, exec, execVrsum, execVrmax, execVramax, execVrlse]
  exact ⟨fun hop => ploughRegs_scalar h hop rfl, fun hop => ploughRegs_scalar h hop rfl, fun hop => ploughRegs_scalar h hop rfl,
    fun hop => ploughRegs_scalar h hop rfl⟩

/-- Settles O28, by the bits of the mask that VCMP writes. -/
theorem ploughMasks : Obligations.PloughMasks := by
  intro c s r h hop p a b
  simp only [exec, execVcmp]
  refine ⟨_, ploughRegs_at h hop _, Plough.setM_frame p _ _, fun h0 => ?_, fun l hl => Plough.bitOf_mreg_zero _ hl,
    fun i hi => Plough.mreg_setM_ne p _ hi, fun h0 l hl => ?_⟩
  · rw [h0]
    rfl
  · have hi : fld r 8 3 < 8 := Nat.mod_lt _ (by decide)
    exact (congrArg (bitOf · l) (Plough.mreg_setM_same p h0 hi (maskBits_lt _ 64))).trans (bitOf_compareMask _ _ _ hl)
end

