-- ==== Sys2Proof/Proofs/PloughControl.lean ====
section
/-!
SUPPORT. Control flow of a kernel: loops, branches and the end of an invocation.
-/

namespace Sys2Proof.Machine

variable {s : State} {c : CoreId} {r op : Nat}

/-- A kernel that stands at an instruction is inside the endpaper memory: a fault names its index. -/
theorem State.atInstr.ploughFault_eq (h : s.atInstr c r) (a : Nat) :
    s.ploughFault c a = s.coreStopsWith c 0x0205 (c.val + 2 ^ 8 * (s.core c).plough.ip) (item2 a) := by
  obtain ⟨-, -, -, -, hi, -, -, -⟩ := h
  rw [State.ploughFault, Nat.mod_eq_of_lt hi]

/-! ### Loops (R194, R195) -/

section
variable (h : s.atInstr c r)
include h

theorem execPloughLoop_of_room (hop : iOp r = 0x02) (hl : (s.core c).plough.loops.length < 4) :
    execPloughLoop c s = .next (s.modPl c fun p => { p with loops := { start := p.ip + 1, left := iImm r - 1 } :: p.loops }.go) := by
  rw [execPloughLoop, ploughDo_at h hop, if_neg (by omega)]

theorem execPloughLoop_of_full (hop : iOp r = 0x02) (hl : 4 ≤ (s.core c).plough.loops.length) :
    execPloughLoop c s = .next (s.ploughFault c) := by
  rw [execPloughLoop, ploughDo_at h hop, if_pos hl]

theorem execPloughEndLoop_of_none (hop : iOp r = 0x03) (hl : (s.core c).plough.loops = []) :
    execPloughEndLoop c s = .next (s.ploughFault c) := by
  simp only [execPloughEndLoop, ploughDo_at h hop, hl]

theorem execPloughEndLoop_of_some {l : LoopFrame} {rest : List LoopFrame} (hop : iOp r = 0x03)
    (hl : (s.core c).plough.loops = l :: rest) :
    execPloughEndLoop c s = .next (s.modPl c fun p =>
      if l.left = 0 then { p with loops := rest }.go else { p with loops := { l with left := l.left - 1 } :: rest, ip := l.start }) := by
  simp only [execPloughEndLoop, ploughDo_at h hop, hl]

/-! ### Branches (R194 to R196) -/

/-- A branch that direct mode allows: it stays in its loop and inside the kernel. -/
def State.branchInside (s : State) (c : CoreId) (n : Nat) : Prop :=
  (s.core c).plough.ip + 1 + n ≤ 4095
    ∧ branchOk (fun k => (s.core c).readNat .endpaper (16 * k) 1) n ((s.core c).plough.ip + 1) 0 = true

theorem execBrf_of_allowed (hop : iOp r = 0x04) (hb : (s.core c).plough.direct = false ∨ s.branchInside c (iImm r)) :
    execBrf c s = .next (s.modPl c fun p =>
      if branchTaken (iFmt r) (p.sreg (iSreg r)) then { p with ip := p.ip + 1 + iImm r } else p.go) := by
  rw [execBrf, ploughDo_at h hop, if_neg]
  rintro ⟨hd, hx⟩
  rcases hb with hb | ⟨hi, hb⟩
  · exact Bool.false_ne_true (hb.symm.trans hd)
  · rcases hx with hx | hx
    · omega
    · simp [hb] at hx

theorem execBrf_of_leaving (hop : iOp r = 0x04) (hd : (s.core c).plough.direct = true) (hb : ¬ s.branchInside c (iImm r)) :
    execBrf c s = .next (s.ploughFault c) := by
  rw [execBrf, ploughDo_at h hop, if_pos]
  refine ⟨hd, ?_⟩
  rw [State.branchInside, not_and_or, not_le, Bool.not_eq_true] at hb
  exact hb.imp id fun hb => by rw [hb]; rfl

/-- FMT of an allowed branch is one of its four conditions (R194). -/
theorem State.atInstr.iFmt_le_of_brf (hop : iOp r = 0x04) : iFmt r ≤ 3 := by
  obtain ⟨-, -, -, -, -, -, -, hok⟩ := h
  have hv : opValuesOk r ((s.core c).plough.layer == 0xFFFF) = true := by
    simp only [instrOk, hop, opBits, Bool.and_eq_true] at hok
    exact hok.2
  simp only [opValuesOk, hop, Bool.and_eq_true, decide_eq_true_eq] at hv
  exact hv.2
end

/-- The condition of a branch, by its FMT (R196). -/
theorem branchTaken_iff {f x : Nat} (hf : f ≤ 3) : branchTaken f x = true ↔
    (f = 0 ∧ sext x 64 = 0) ∨ (f = 1 ∧ sext x 64 ≠ 0) ∨ (f = 2 ∧ sext x 64 < 0) ∨ (f = 3 ∧ 0 ≤ sext x 64) := by
  have hcases : f = 0 ∨ f = 1 ∨ f = 2 ∨ f = 3 := by omega
  rcases hcases with rfl | rfl | rfl | rfl <;> simp [branchTaken]

/-! ### The end of an invocation (R141, R147, R193) -/

@[simp] theorem State.template_modPl (f : Plough → Plough) (img : Image) (t : Nat) :
    (s.modPl c f).template img c t = s.template img c t := by
  rw [State.template, State.tableEntry, State.core_modPl, if_pos rfl]
  rfl

@[simp] theorem State.descriptor_modPl (f : Plough → Plough) (img : Image) (d : Nat) :
    (s.modPl c f).descriptor img c d = s.descriptor img c d := by
  rw [State.descriptor, State.tableEntry, State.core_modPl, if_pos rfl]
  rfl

@[simp] theorem State.tailTemplate_modPl (f : Plough → Plough) (img : Image) (t d n : Nat) :
    (s.modPl c f).tailTemplate img c t d n = s.tailTemplate img c t d n := by
  rw [State.tailTemplate, State.tailTemplate, show (s.modPl c f).template img c = s.template img c from
    funext fun _ => State.template_modPl f img _]

theorem pinnedFirst_nil : pinnedFirst [] = [] := rfl

theorem pinnedFirst_singleton (j : PloughJob) : pinnedFirst [j] = [j] := by
  cases h : j.elastic <;> simp [pinnedFirst, h]

/-- The four operand addresses of iteration `n` of a template, as P0 to P3 (R193). -/
def operands (t d n : Nat) : Vector W64 8 :=
  Vector.ofFn fun i : Fin 8 => BitVec.ofInt 64 (match i.val with
    | 0 => tActAddr t + nestOffset d 0 n
    | 1 => nestOffset d 1 n
    | 2 => 512 * tAccRow t + nestOffset d 2 n
    | 3 => tAux t + nestOffset d 3 n
    | _ => 0)

theorem Plough.start_operands (p : Plough) (kernel t d n : Nat) :
    p.start kernel (tActAddr t + nestOffset d 0 n) (nestOffset d 1 n) (512 * tAccRow t + nestOffset d 2 n) (tAux t + nestOffset d 3 n)
      = { Plough.reset with
          p := operands t d n, ip := kernel, running := true, direct := p.direct, accSlot := p.accSlot, queue := p.queue } := by
  have hp : operands t d n = Vector.ofFn fun i : Fin 8 =>
      BitVec.ofInt 64 (if i.val = 0 then tActAddr t + nestOffset d 0 n else if i.val = 1 then nestOffset d 1 n
        else if i.val = 2 then 512 * tAccRow t + nestOffset d 2 n else if i.val = 3 then tAux t + nestOffset d 3 n else 0) := by
    rw [operands]
    congr 1
    funext i
    fin_cases i <;> rfl
  rw [hp]
  rfl

/-- An earlier invocation of the only job queued gives way to the next one. -/
theorem State.ploughEndInvocation_next {j : PloughJob} {img : Image} (hq : (s.core c).plough.queue = [j]) (ha : s.prog.active = some img)
    (hn : j.next + 1 < j.total) :
    let d := s.descriptor img c (tDesc (s.template img c j.template))
    let t := s.template img c j.template
    s.ploughEndInvocation c = s.modPl c fun p =>
      { Plough.reset with
        p := operands t d (j.next + 1), ip := tKernel (s.tailTemplate img c t d (j.next + 1)), running := true, direct := p.direct,
        accSlot := p.accSlot, queue := [{ j with next := j.next + 1 }] } := by
  intro d t
  simp only [State.ploughEndInvocation, hq, hn, if_true, pinnedFirst_singleton, State.ploughNext, State.core_modPl, State.modPl_prog, ha,
    Bool.false_eq_true, if_false, State.template_modPl, State.descriptor_modPl, State.tailTemplate_modPl, Plough.start_operands]
  exact State.modCore_modCore s c _ _

theorem append_ite_nil {α : Type} (b : Bool) (xs ys : List α) :
    (xs ++ if b = true then ys else []) = if b = true then xs ++ ys else xs := by
  cases b <;> simp

/-- The last invocation of the only job queued leaves nothing to begin. -/
theorem State.ploughEndInvocation_last {j : PloughJob} (hq : (s.core c).plough.queue = [j]) (hn : j.total ≤ j.next + 1) :
    let t := s.prog.active.elim 0 fun img => if (s.core c).plough.direct then 0 else s.template img c j.template
    s.ploughEndInvocation c = s.modCore c fun k => { k with
      plough := { k.plough with running := false, queue := [] },
      doneSignals := k.doneSignals ++ if tDoneEn t then
        [{ target := c, id := BitVec.ofNat 8 (tDoneId t), incr := 1, scope := 0, awaits := [], elastic := j.elastic }] else [] } := by
  intro t
  simp only [State.ploughEndInvocation, hq, if_neg (show ¬ j.next + 1 < j.total by omega), pinnedFirst_nil, State.ploughNext,
    State.core_modCore, if_true]
  refine State.modCore_congr _ _ _ _ ?_
  cases ha : s.prog.active <;> simp only [t, ha, Option.elim_none, Option.elim_some, append_ite_nil]

end Sys2Proof.Machine

open Sys2Proof Sys2Proof.Machine

/-- Settles O24, one lemma per instruction and outcome. -/
theorem ploughControl : Obligations.PloughControl := by
  intro c s r h p done fault x taken inside
  have hfault : Host.Outcome.next (s.ploughFault c) = fault := congrArg _ (h.ploughFault_eq 0)
  refine ⟨fun hop => ?_, fun hop hl => execPloughLoop_of_room h hop hl, fun hop hl => (execPloughLoop_of_full h hop hl).trans hfault,
    fun hop hl => (execPloughEndLoop_of_none h hop hl).trans hfault, fun a n rest hop hl => ?_, fun a rest hop hl => ?_,
    fun hop hb ht => ?_, fun hop hb ht => ?_, fun hop hd hb => (execBrf_of_leaving h hop hd hb).trans hfault, fun j hop hq hn => ?_,
    fun j img hop ha hq hn => ?_⟩
  · exact ploughRegs_gives (f := fun _ p => p) h hop rfl
  · exact execPloughEndLoop_of_some h hop hl
  · exact execPloughEndLoop_of_some h hop hl
  · have htaken := (branchTaken_iff (h.iFmt_le_of_brf hop)).2 ht
    refine (execBrf_of_allowed h hop hb).trans (congrArg _ (State.modCore_congr _ _ _ _ ?_))
    exact congrArg (fun q => { s.core c with plough := q }) (if_pos htaken)
  · have htaken : ¬ branchTaken (iFmt r) (p.sreg (iSreg r)) = true := fun hb => ht ((branchTaken_iff (h.iFmt_le_of_brf hop)).1 hb)
    refine (execBrf_of_allowed h hop hb).trans (congrArg _ (State.modCore_congr _ _ _ _ ?_))
    exact congrArg (fun q => { s.core c with plough := q }) (if_neg htaken)
  · exact (ploughDo_at h hop fun _ s => s.ploughEndInvocation c).trans (congrArg _ (State.ploughEndInvocation_last hq hn))
  · exact (ploughDo_at h hop fun _ s => s.ploughEndInvocation c).trans (congrArg _ (State.ploughEndInvocation_next hq ha hn))
end

