-- ==== Sys2Proof/Proofs/PloughLoads.lean ====
section
/-!
SUPPORT. Reads of the core memories by a kernel: where R195 refuses them, and what the bytes read give.
-/

namespace Sys2Proof.Machine

variable {s : State} {c : CoreId} {r : Nat}

/-! ### The bytes of a read -/

theorem length_elems (w n : Nat) (bs : List Byte) : (elems w n bs).length = n := by
  induction n generalizing bs with
  | zero => rfl
  | succ n ih => rw [elems, List.length_cons, ih]

/-- Element `l` is the number that the `w` bytes from `w * l` on spell. -/
theorem getD_elems {w n l : Nat} (bs : List Byte) (hl : l < n) : (elems w n bs).getD l 0 = leNat ((bs.drop (w * l)).take w) := by
  induction n generalizing l bs with
  | zero => omega
  | succ n ih =>
    cases l with
    | zero => simp [elems]
    | succ l => rw [elems, List.getD_cons_succ, ih _ (by omega), List.drop_drop, Nat.mul_succ, Nat.add_comm]

/-- A part of a range that was read is a read of that part. -/
theorem Core.take_drop_read (k : Core) (m : CoreMem) {a n i w : Nat} (h : i + w ≤ n) :
    ((k.read m a n).drop i).take w = k.read m (a + i) w := by
  refine List.ext_getElem (by simp [Core.read]; omega) fun x hx hw => ?_
  simp [Core.read, Mem.read, Nat.add_assoc]

/-- The elements of a range that was read are the numbers at their places. -/
theorem Core.getD_elems_read (k : Core) (m : CoreMem) (a : Nat) {w n l : Nat} (hl : l < n) :
    (elems w n (k.read m a (n * w))).getD l 0 = k.readNat m (a + w * l) w := by
  have hfits : w * l + w ≤ n * w := by
    rw [← Nat.mul_succ, Nat.mul_comm n]
    exact Nat.mul_le_mul_left w hl
  rw [getD_elems _ hl, Core.take_drop_read k m hfits, Core.readNat]

theorem Core.elems_read (k : Core) (m : CoreMem) (a w n : Nat) :
    elems w n (k.read m a (n * w)) = (List.range n).map fun l => k.readNat m (a + w * l) w := by
  refine List.ext_getElem (by simp [length_elems]) fun l hl hr => ?_
  rw [length_elems] at hl
  rw [← List.getD_eq_getElem _ 0, Core.getD_elems_read k m a hl, List.getElem_map, List.getElem_range]

/-! ### Reads (R195, R223) -/

/-- The writing of lanes depends on the lanes alone. -/
theorem Plough.setV_congr (p : Plough) (r : Nat) {f g : Nat → Nat} (h : ∀ l, l < 64 → f l = g l) : p.setV r f = p.setV r g := by
  have hlanes : mergeLanes (p.mreg (iMask r)) (p.vr (iVD r)) f = mergeLanes (p.mreg (iMask r)) (p.vr (iVD r)) g :=
    congrArg Vector.ofFn (funext fun l => by rw [h l.val l.isLt])
  rw [Plough.setV, Plough.setV, hlanes]

section
variable {space a n : Nat} {vector : Bool} (f : List Byte → State → State)

theorem State.ploughLoad_of_refused (h : s.ploughAccess c space a n false vector = false) :
    s.ploughLoad c space a n vector f = s.ploughFault c a := by
  rw [State.ploughLoad, h]
  rfl

/-- A read that meets no error goes on with its bytes. -/
theorem State.ploughLoad_of_clean (h : s.ploughAccess c space a n false vector = true) (hp : s.prog.active.isSome = true)
    (hm : (s.core c).marksIn (spaceMem space) a n = []) :
    s.ploughLoad c space a n vector f = f ((s.core c).read (spaceMem space) a n) s := by
  simp only [State.ploughLoad, h, State.touch_none _ hm, Option.isSome_iff_ne_none.1 hp, Bool.not_true, Bool.false_eq_true, if_false]
end

/-- A kernel that stands at an instruction belongs to an active program. -/
theorem State.atInstr.active (h : s.atInstr c r) : s.prog.active.isSome = true := h.1

section
variable (h : s.atInstr c r)
include h

/-- What a refused access of an instruction does, whatever it is for. -/
theorem State.atInstr.fault_eq (a : Nat) : Host.Outcome.next (s.ploughFault c a)
    = (.next (s.coreStopsWith c 0x0205 (c.val + 2 ^ 8 * (s.core c).plough.ip) (item2 a)) : Host.Outcome State Fault Refusal) :=
  congrArg _ (h.ploughFault_eq a)

/-- VLD (R196): the elements of a read without errors, widened, or as raw pairs. -/
theorem execVld_of_clean (hop : iOp r = 0x10) {w : Nat}
    (hw : w = if iPair r then 4 else ((fmtOf (iFmt r)).getD .b32).bytes)
    (ha : s.ploughAccess c (iSpace r) ((s.core c).plough.addr r) (64 * w) false true = true)
    (hm : (s.core c).marksIn (spaceMem (iSpace r)) ((s.core c).plough.addr r) (64 * w) = []) :
    execVld c s = .next (s.modCore c fun k => { k with plough := ((s.core c).plough.setV r fun l =>
      let x := (s.core c).readNat (spaceMem (iSpace r)) ((s.core c).plough.addr r + w * l) w
      if iPair r then x else ((fmtOf (iFmt r)).getD .b32).widen x).go }) := by
  subst hw
  simp only [execVld, ploughDo_at h hop, State.ploughLoad_of_clean _ ha h.active hm]
  refine congrArg _ (State.modCore_congr _ _ _ _ (congrArg (fun q => { s.core c with plough := Plough.go q }) ?_))
  exact Plough.setV_congr _ r fun l hl => by rw [Core.getD_elems_read _ _ _ hl]

theorem execVld_of_refused (hop : iOp r = 0x10)
    (ha : s.ploughAccess c (iSpace r) ((s.core c).plough.addr r) (64 * if iPair r then 4 else ((fmtOf (iFmt r)).getD .b32).bytes)
      false true = false) : execVld c s = .next (s.ploughFault c ((s.core c).plough.addr r)) := by
  simp only [execVld, ploughDo_at h hop, State.ploughLoad_of_refused _ ha]

/-- SLD of a core memory (R196): of more than 8 bytes the low 8 are kept. -/
theorem execSld_of_clean (hop : iOp r = 0x14) (h3 : iSpace r ≠ 3)
    (ha : s.ploughAccess c (iSpace r) ((s.core c).plough.preg (iPtr r)) (fld r 64 4 + 1) false false = true)
    (hm : (s.core c).marksIn (spaceMem (iSpace r)) ((s.core c).plough.preg (iPtr r)) (fld r 64 4 + 1) = []) :
    execSld c s = .next (s.modPl c fun p =>
      (p.setS (iSreg r) ((s.core c).readNat (spaceMem (iSpace r)) ((s.core c).plough.preg (iPtr r)) (fld r 64 4 + 1))).go) := by
  simp only [execSld, ploughDo_at h hop, if_neg h3, State.ploughLoad_of_clean _ ha h.active hm]
  rfl

/-- SLD of device memory (R196, R244). -/
theorem execSld_of_device (hop : iOp r = 0x14) (h3 : iSpace r = 3)
    (ha : s.ploughAccess c 3 ((s.core c).plough.preg (iPtr r)) (fld r 64 4 + 1) false false = true) :
    execSld c s = .next (if s.poisoned ((s.core c).plough.preg (iPtr r)) (fld r 64 4 + 1) then
        (s.modPl c fun p => (p.setS (iSreg r) (s.free 0).toNat).go).bump
      else s.modPl c fun p => (p.setS (iSreg r) (s.dramNat ((s.core c).plough.preg (iPtr r)) (fld r 64 4 + 1))).go) := by
  simp only [execSld, ploughDo_at h hop, if_pos h3, ha, Bool.not_true, Bool.false_eq_true, if_false]

theorem execSld_of_refused (hop : iOp r = 0x14)
    (ha : s.ploughAccess c (iSpace r) ((s.core c).plough.preg (iPtr r)) (fld r 64 4 + 1) false false = false) :
    execSld c s = .next (s.ploughFault c ((s.core c).plough.preg (iPtr r))) := by
  simp only [execSld, ploughDo_at h hop]
  split
  next h3 => rw [h3] at ha; simp [ha]
  next => rw [State.ploughLoad_of_refused _ ha]

/-- TESTF (R202). -/
theorem execTestf_of_clean (hop : iOp r = 0x44)
    (ha : s.ploughAccess c (iSpace r) ((s.core c).plough.addr r) 4 false false = true)
    (hm : (s.core c).marksIn (spaceMem (iSpace r)) ((s.core c).plough.addr r) 4 = []) :
    execTestf c s = .next (s.modPl c fun p =>
      (p.setS (iSreg r) ((s.core c).readNat (spaceMem (iSpace r)) ((s.core c).plough.addr r) 4)).go) := by
  simp only [execTestf, ploughDo_at h hop, State.ploughLoad_of_clean _ ha h.active hm]
  rfl

theorem execTestf_of_refused (hop : iOp r = 0x44)
    (ha : s.ploughAccess c (iSpace r) ((s.core c).plough.addr r) 4 false false = false) :
    execTestf c s = .next (s.ploughFault c ((s.core c).plough.addr r)) := by
  simp only [execTestf, ploughDo_at h hop, State.ploughLoad_of_refused _ ha]

/-- UNPACK of a folio whose check finds `check` (R202). -/
theorem execUnpack_of_clean (hop : iOp r = 0x43)
    (ha : s.ploughAccess c (iSpace r) ((s.core c).plough.addr r) 64 false true = true)
    (hm : (s.core c).marksIn (spaceMem (iSpace r)) ((s.core c).plough.addr r) 64 = []) {check : Option Nat}
    (hc : folioCheck ((s.core c).readNat (spaceMem (iSpace r)) ((s.core c).plough.addr r) 64) (· == 7) = check) :
    execUnpack c s = .next (check.elim
      (s.modPl c fun p => (p.setV r fun l => if l < 60 then
        unpackWire ((s.core c).readNat (spaceMem (iSpace r)) ((s.core c).plough.addr r) 64) (qE5m2 r) l else 0).go)
      fun reason => s.ploughHalt c reason (iSpace r) ((s.core c).plough.addr r)) := by
  rw [Core.readNat] at hc
  simp only [execUnpack, ploughDo_at h hop, State.ploughLoad_of_clean _ ha h.active hm, hc]
  cases check <;> rfl

theorem execUnpack_of_refused (hop : iOp r = 0x43)
    (ha : s.ploughAccess c (iSpace r) ((s.core c).plough.addr r) 64 false true = false) :
    execUnpack c s = .next (s.ploughFault c ((s.core c).plough.addr r)) := by
  simp only [execUnpack, ploughDo_at h hop, State.ploughLoad_of_refused _ ha]
end

end Sys2Proof.Machine

open Sys2Proof Sys2Proof.Machine

/-- Settles O29, one lemma per instruction and outcome. -/
theorem ploughLoads : Obligations.PloughLoads := by
  intro c s r h p m a b n fmt w clean fault lanes scalar
  refine ⟨fun hop ha hm => ⟨_, execVld_of_clean h hop rfl ha hm, Plough.lanesSet_setV p r _⟩,
    fun hop ha => (execVld_of_refused h hop ha).trans (h.fault_eq a), fun hop h3 ha hm => execSld_of_clean h hop h3 ha hm,
    fun hop h3 ha hn => (execSld_of_device h hop h3 ha).trans (congrArg _ (if_neg (Bool.eq_false_iff.1 hn))),
    fun hop h3 ha hp => ?_, fun hop ha => (execSld_of_refused h hop ha).trans (h.fault_eq b),
    fun hop ha hm => execTestf_of_clean h hop ha hm, fun hop ha => (execTestf_of_refused h hop ha).trans (h.fault_eq a),
    fun hop ha hm => ?_, fun hop ha => (execUnpack_of_refused h hop ha).trans (h.fault_eq a)⟩
  · exact (execSld_of_device h hop h3 ha).trans (congrArg _ (if_pos hp))
  · intro x
    have hunpack := execUnpack_of_clean h hop ha hm rfl
    cases hc : folioCheck x (· == 7) with
    | none => exact ⟨_, hunpack.trans (by rw [hc]; rfl), Plough.lanesSet_setV p r _⟩
    | some reason => exact hunpack.trans (by rw [hc]; rfl)
end

