-- ==== Sys2Proof/Proofs/PloughStores.lean ====
section
/-!
SUPPORT. Writes of the core memories by a kernel, byte by byte: what a list of bytes with gaps leaves in a memory that has no word in error
and no claimed element.
-/

namespace Sys2Proof.Machine

/-! ### Bytes with gaps (R191) -/

/-- The byte that a list with gaps, laid down from `a` on, puts at `x`. -/
def byteFor (a : Nat) (bytes : List (Option Byte)) (x : Nat) : Option Byte := if a ≤ x then (bytes[x - a]?).join else none

theorem byteFor_nil (a x : Nat) : byteFor a [] x = none := by simp [byteFor]

theorem byteFor_cons (a : Nat) (o : Option Byte) (r : List (Option Byte)) (x : Nat) :
    byteFor a (o :: r) x = if x = a then o else byteFor (a + 1) r x := by
  unfold byteFor
  by_cases hx : x = a
  · subst hx; simp
  · by_cases ha : a ≤ x
    · obtain ⟨d, rfl⟩ : ∃ d, x = a + 1 + d := ⟨x - (a + 1), by omega⟩
      rw [if_pos ha, if_neg hx, if_pos (by omega), show a + 1 + d - a = d + 1 by omega, show a + 1 + d - (a + 1) = d by omega,
        List.getElem?_cons_succ]
    · rw [if_neg ha, if_neg hx, if_neg (by omega)]

/-- Nothing is put below the first address. -/
theorem byteFor_of_lt {a x : Nat} (bytes : List (Option Byte)) (h : x < a) : byteFor a bytes x = none := if_neg (by omega)

theorem byteFor_append (a : Nat) (l r : List (Option Byte)) (x : Nat) :
    byteFor a (l ++ r) x = (byteFor (a + l.length) r x).or (byteFor a l x) := by
  induction l generalizing a with
  | nil => simp [byteFor_nil]
  | cons o l ih =>
    rw [List.cons_append, byteFor_cons, byteFor_cons, ih, List.length_cons, show a + 1 + l.length = a + (l.length + 1) by omega]
    split
    next hx => rw [byteFor_of_lt r (by omega), Option.none_or]
    next => rfl

/-- A list of gaps puts nothing. -/
theorem byteFor_of_gaps {bytes : List (Option Byte)} (h : bytes.all (·.isNone) = true) (a x : Nat) : byteFor a bytes x = none := by
  unfold byteFor
  split
  · cases hb : bytes[x - a]? with
    | none => rfl
    | some o => simpa using List.all_eq_true.1 h o (List.mem_of_getElem? hb)
  · rfl

/-- What the pieces of a write put at `x`, the later ones over the earlier ones. -/
def piecesFor (ps : List (Nat × List (Option Byte))) (x : Nat) : Option Byte :=
  ps.foldr (fun p o => o.or (byteFor p.1 p.2 x)) none

theorem piecesFor_cons (p : Nat × List (Option Byte)) (ps : List (Nat × List (Option Byte))) (x : Nat) :
    piecesFor (p :: ps) x = (piecesFor ps x).or (byteFor p.1 p.2 x) := rfl

/-- A run of bytes as a list without gaps. -/
def asPiece (p : Nat × List Byte) : Nat × List (Option Byte) := (p.1, p.2.map some)

/-- The runs of a list put what the list puts. -/
theorem piecesFor_byteRuns (a : Nat) (bytes : List (Option Byte)) (x : Nat) :
    piecesFor ((byteRuns a bytes).map asPiece) x = byteFor a bytes x := by
  induction bytes generalizing a with
  | nil => rw [byteFor_nil]; rfl
  | cons o r ih =>
    specialize ih (a + 1)
    rw [byteFor_cons]
    have hout : x = a → byteFor (a + 1) r x = none := fun hx => byteFor_of_lt r (by omega)
    cases o with
    | none =>
      rw [byteRuns, ih]
      split
      next hx => exact hout hx
      next => rfl
    | some b =>
      rw [byteRuns]
      split
      next y bs rest hruns =>
        rw [hruns, List.map_cons, piecesFor_cons] at ih
        split
        next hy =>
          subst hy
          rw [List.map_cons, piecesFor_cons, asPiece, List.map_cons, byteFor_cons]
          by_cases hx : x = a
          · rw [if_pos hx, if_pos hx, (Option.or_eq_none_iff.1 (ih.trans (hout hx))).1, Option.none_or]
          · rw [if_neg hx, if_neg hx]
            exact ih
        next =>
          rw [List.map_cons, piecesFor_cons, List.map_cons, piecesFor_cons, ih, asPiece, List.map_cons, List.map_nil, byteFor_cons,
            byteFor_nil]
          split
          next hx => rw [hout hx, Option.none_or]
          next => rw [Option.or_none]
      next hruns =>
        rw [hruns] at ih
        rw [List.map_cons, piecesFor_cons, List.map_nil, asPiece, List.map_cons, List.map_nil, byteFor_cons, byteFor_nil, ← ih]
        split <;> rfl

/-- The words into which a write is cut put what the write puts. -/
theorem piecesFor_cutWords {w : Nat} (hw : 0 < w) (n a : Nat) (bytes : List (Option Byte)) (hn : bytes.length < n) (x : Nat) :
    piecesFor (cutWords w n a bytes) x = byteFor a bytes x := by
  induction n generalizing a bytes with
  | zero => omega
  | succ n ih =>
    cases bytes with
    | nil => rw [byteFor_nil]; rfl
    | cons o r =>
      have hk : 0 < w - a % w := Nat.sub_pos_of_lt (Nat.mod_lt a hw)
      rw [cutWords, piecesFor_cons, ih _ _ (by rw [List.length_drop]; simp only [List.length_cons] at hn ⊢; omega)]
      conv_rhs => rw [← List.take_append_drop (w - a % w) (o :: r), byteFor_append]
      by_cases hlen : (o :: r).length ≤ w - a % w
      · rw [List.drop_eq_nil_of_le hlen, byteFor_nil, byteFor_nil]
      · rw [List.length_take_of_le (by omega)]
      exact List.cons_ne_nil o r

/-! ### Stores in a core without words in error (R214, R224) -/

/-- `k'` is `k` with the bytes that `f` names stored in memory `m`: every other byte of every memory reads as before, and beside the
memories nothing has changed. -/
structure Core.Stores (k k' : Core) (m : CoreMem) (f : Nat → Option Byte) : Prop where
  frame : k' = { k with quire := k'.quire, acc := k'.acc, endp := k'.endp }
  target : ∀ x, Mem.get zeroByte (k'.mem m) x = (f x).getD (Mem.get zeroByte (k.mem m) x)
  others : ∀ m', m' ≠ m → k'.mem m' = k.mem m'

section
variable {k k' k'' : Core} {m : CoreMem} {f g : Nat → Option Byte}

theorem Core.Stores.refl (k : Core) (m : CoreMem) : k.Stores k m fun _ => none := ⟨rfl, fun _ => rfl, fun _ _ => rfl⟩

theorem Core.Stores.trans (h : k.Stores k' m f) (h' : k'.Stores k'' m g) : k.Stores k'' m fun x => (g x).or (f x) := by
  refine ⟨?_, fun x => ?_, fun m' hm => (h'.others m' hm).trans (h.others m' hm)⟩
  · rw [h'.frame, h.frame]
  · rw [h'.target x, h.target x]
    cases g x <;> rfl

theorem Core.Stores.congr (h : k.Stores k' m f) (hfg : ∀ x, f x = g x) : k.Stores k' m g := funext hfg ▸ h

theorem Core.Stores.ecc (h : k.Stores k' m f) : k'.ecc = k.ecc := by rw [h.frame]

theorem Core.Stores.press (h : k.Stores k' m f) : k'.press = k.press := by rw [h.frame]

theorem Core.Stores.plough (h : k.Stores k' m f) : k'.plough = k.plough := by rw [h.frame]

theorem Core.Stores.stored (h : k.Stores k' m f) : k.stored k' m f := by
  intro m' x
  split
  next hm => rw [hm, h.target x]
  next hm => rw [h.others m' hm]

/-- Pieces stored one after another store what the pieces put. -/
theorem Core.Stores.foldl {α : Type} {F : Core → α → Core} {G : α → Nat × List (Option Byte)} {P : Core → Prop}
    (hF : ∀ k p, P k → k.Stores (F k p) m (byteFor (G p).1 (G p).2)) (hP : ∀ k k' f, k.Stores k' m f → P k → P k') (ps : List α)
    {k : Core} (hk : P k) : k.Stores (ps.foldl F k) m (piecesFor (ps.map G)) := by
  induction ps generalizing k with
  | nil => exact .refl k m
  | cons p ps ih =>
    have hp := hF k p hk
    exact hp.trans (ih (hP _ _ _ hp hk))

theorem Core.store_stores (he : k.ecc = []) (a : Nat) (bs : List Byte) : k.Stores (k.store m a bs) m (byteFor a (bs.map some)) := by
  have hget (x : Nat) (M : Memory) : Mem.get zeroByte (Mem.write zeroByte M a bs) x
      = (byteFor a (bs.map some) x).getD (Mem.get zeroByte M x) := by
    rw [Mem.get_write, byteFor]
    by_cases ha : a ≤ x
    · by_cases hx : x < a + bs.length
      · have hi : x - a < bs.length := by omega
        simp [ha, hx, hi, List.getD]
      · have hi : bs.length ≤ x - a := by omega
        simp [ha, hx, hi]
    · simp [ha]
  have hstore : k.store m a bs = k.withMem m (Mem.write zeroByte (k.mem m) a bs) := by
    simp only [Core.store, Core.write, he, List.filter_nil]
    rw [← he]
  rw [hstore]
  refine ⟨by cases m <;> rfl, fun x => ?_, fun m' hm => ?_⟩
  · rw [Core.withMem_mem, if_pos rfl]
    exact hget x _
  · rw [Core.withMem_mem, if_neg hm]

theorem Core.storeRuns_stores (he : k.ecc = []) (a : Nat) (bytes : List (Option Byte)) :
    k.Stores (k.storeRuns m a bytes) m (byteFor a bytes) :=
  (Core.Stores.foldl (G := asPiece) (P := fun k => k.ecc = []) (fun _ p hk => Core.store_stores hk p.1 p.2)
    (fun _ _ _ hs hk => hs.ecc.trans hk) _ he).congr (piecesFor_byteRuns a bytes)

/-- Without beats in flight no element is claimed, and a write of the accumulator drops nothing (R216). -/
theorem Core.storeAcc_stores (he : k.ecc = []) (hb : k.press.beats = []) (gap : Option W64) (t a : Nat) (bytes : List (Option Byte)) :
    k.Stores (k.storeAcc gap t a bytes) .acc (byteFor a bytes) := by
  refine (Core.Stores.foldl (G := id) (P := fun k => k.ecc = [] ∧ k.press.beats = []) (fun l p hl => ?_)
    (fun _ _ _ hs hk => ⟨hs.ecc.trans hk.1, (congrArg Press.beats hs.press).trans hk.2⟩) _ ⟨he, hb⟩).congr fun x => by
      rw [List.map_id, piecesFor_cutWords (by decide) _ _ _ (Nat.lt_succ_self _)]
  split
  next hgaps => exact (Core.Stores.refl l .acc).congr fun x => (byteFor_of_gaps hgaps _ x).symm
  next =>
    rw [if_neg (by simp [Core.claimed, hl.2])]
    exact Core.storeRuns_stores hl.1 p.1 p.2

theorem Core.ploughStore_stores (he : k.ecc = []) (hb : k.press.beats = []) (gap : Option W64) (t a : Nat) (bytes : List (Option Byte)) :
    k.Stores (k.ploughStore gap t m a bytes) m (byteFor a bytes) := by
  cases m
  case acc => exact Core.storeAcc_stores he hb gap t a bytes
  all_goals exact Core.storeRuns_stores he a bytes
end

/-! ### Writes of a kernel (R191, R195, R214) -/

section
variable {s : State} {c : CoreId} {r : Nat}

/-- A write meets no error where the core has none. -/
theorem State.storeCore_of_noError (he : (s.core c).ecc = []) (t : Nat) (m : CoreMem) (a : Nat) (bytes : List (Option Byte)) (q : Nat) :
    s.storeCore c t m a bytes q = s.modCore c fun k => k.ploughStore (s.gapOf c) t m a bytes := by
  have htouch (a n : Nat) : s.touchPartial c m a n q = s :=
    List.foldl_fixed' (fun x => State.touch_none q (Core.marksIn_none he m x 1)) _
  rw [State.storeCore, List.foldl_fixed' fun p => htouch p.1 p.2.length]

section
variable {t space a : Nat} {vector : Bool} {bytes : List (Option Byte)} (f : State → State)

theorem State.ploughPut_of_refused (h : s.ploughAccess c space a bytes.length true vector = false) :
    s.ploughPut c t space a vector bytes f = s.ploughFault c a := by
  rw [State.ploughPut, h]
  rfl

theorem State.ploughPut_of_noError (h : s.ploughAccess c space a bytes.length true vector = true) (hp : s.prog.active.isSome = true)
    (he : (s.core c).ecc = []) :
    s.ploughPut c t space a vector bytes f = f (s.modCore c fun k => k.ploughStore (s.gapOf c) t (spaceMem space) a bytes) := by
  have hactive : (s.modCore c fun k => k.ploughStore (s.gapOf c) t (spaceMem space) a bytes).prog.active ≠ none :=
    Option.isSome_iff_ne_none.1 hp
  simp only [State.ploughPut, h, State.storeCore_of_noError he, hactive, Bool.not_true, Bool.false_eq_true, if_false]
end

/-- The byte at place `i` of a list of blocks of one width. -/
theorem getElem?_flatten_blocks {α : Type} {w : Nat} (hw : 0 < w) (L : List (List α)) (hL : ∀ l ∈ L, l.length = w) (i : Nat) :
    L.flatten[i]? = L[i / w]?.bind (·[i % w]?) := by
  induction L generalizing i with
  | nil => simp
  | cons l L ih =>
    have hl : l.length = w := hL l List.mem_cons_self
    rw [List.flatten_cons]
    by_cases hi : i < w
    · rw [List.getElem?_append_left (by omega), Nat.div_eq_of_lt hi, Nat.mod_eq_of_lt hi]
      rfl
    · obtain ⟨d, rfl⟩ : ∃ d, i = d + w := ⟨i - w, by omega⟩
      rw [List.getElem?_append_right (by omega), hl, Nat.add_sub_cancel, ih (fun l h => hL l (List.mem_cons_of_mem _ h)),
        Nat.add_div_right d hw, Nat.add_mod_right, List.getElem?_cons_succ]

/-- The block of lane `l` in the bytes of a lane array. -/
def laneBlock (mask w : Nat) (x : Nat → Nat) (l : Nat) : List (Option Byte) :=
  if bitOf mask l then (leBytes w (x l)).map some else List.replicate w none

theorem length_laneBlock (mask w : Nat) (x : Nat → Nat) (l : Nat) : (laneBlock mask w x l).length = w := by
  rw [laneBlock]
  split
  · rw [List.length_map, leBytes_length]
  · rw [List.length_replicate]

theorem laneBytes_eq (mask w : Nat) (x : Nat → Nat) : laneBytes mask w x = ((List.range 64).map (laneBlock mask w x)).flatten := rfl

theorem length_laneBytes (mask w : Nat) (x : Nat → Nat) : (laneBytes mask w x).length = 64 * w := by
  have hlengths : List.length ∘ laneBlock mask w x = fun _ => w := funext (length_laneBlock mask w x)
  rw [laneBytes_eq, List.length_flatten, List.map_map, hlengths, List.map_const', List.length_range, List.sum_replicate, smul_eq_mul]

/-- The bytes of the lanes that a mask names, from `a` on (R191). -/
theorem byteFor_laneBytes (a mask : Nat) (v : Nat → Nat) (x : Nat) : byteFor a (laneBytes mask 4 v) x =
    if a ≤ x ∧ x < a + 256 ∧ bitOf mask ((x - a) / 4) then some (BitVec.ofNat 8 (v ((x - a) / 4) / 256 ^ ((x - a) % 4))) else none := by
  rw [byteFor, laneBytes_eq, getElem?_flatten_blocks (w := 4) (by decide) _ (by simp [length_laneBlock])]
  by_cases ha : a ≤ x
  · by_cases hx : x < a + 256
    · have hl : (x - a) / 4 < 64 := by omega
      have hk : (x - a) % 4 < 4 := Nat.mod_lt _ (by decide)
      rw [if_pos ha, List.getElem?_map, List.getElem?_range hl]
      simp only [Option.map_some, Option.bind_some, laneBlock, ha, hx, true_and]
      split
      · rw [List.getElem?_map, leBytes_getElem? _ hk]
        rfl
      · rw [List.getElem?_replicate_of_lt hk]
        rfl
    · have hl : 64 ≤ (x - a) / 4 := by omega
      rw [if_pos ha, List.getElem?_eq_none (by simpa using hl), if_neg (by tauto)]
      rfl
  · rw [if_neg ha, if_neg (by tauto)]

/-- The bytes of a number, from `a` on. -/
theorem byteFor_leBytes (a n v x : Nat) : byteFor a ((leBytes n v).map some) x =
    if a ≤ x ∧ x < a + n then some (BitVec.ofNat 8 (v / 256 ^ (x - a))) else none := by
  rw [byteFor, List.getElem?_map]
  by_cases ha : a ≤ x
  · by_cases hx : x < a + n
    · rw [if_pos ha, if_pos ⟨ha, hx⟩, leBytes_getElem? v (by omega)]
      rfl
    · rw [if_pos ha, if_neg (by tauto), List.getElem?_eq_none (by rw [leBytes_length]; omega)]
      rfl
  · rw [if_neg ha, if_neg (by tauto)]

theorem leBytes_eq_map (n v : Nat) : leBytes n v = (List.range n).map fun i => BitVec.ofNat 8 (v / 256 ^ i) := by
  refine List.ext_getElem? fun i => ?_
  by_cases hi : i < n
  · rw [leBytes_getElem? v hi, List.getElem?_map, List.getElem?_range hi]
    rfl
  · rw [List.getElem?_eq_none (by rw [leBytes_length]; omega), List.getElem?_eq_none (by simp; omega)]

section
variable (h : s.atInstr c r)
include h

/-- A store that is allowed leaves its bytes and moves on. -/
theorem State.atInstr.stores {t : Nat} {vector : Bool} {a : Nat} {bytes : List (Option Byte)} {f : Nat → Option Byte}
    (ha : s.ploughAccess c (iSpace r) a bytes.length true vector = true) (he : (s.core c).ecc = []) (hb : (s.core c).press.beats = [])
    (hf : ∀ x, byteFor a bytes x = f x) :
    ∃ k', s.ploughPut c t (iSpace r) a vector bytes (fun s => s.modPl c Plough.go) = s.setCore c k'
      ∧ (s.core c).stored k' (spaceMem (iSpace r)) f
      ∧ k' = { s.core c with quire := k'.quire, acc := k'.acc, endp := k'.endp,
                             plough := { (s.core c).plough with ip := (s.core c).plough.ip + 1 } } := by
  have hs := (Core.ploughStore_stores (m := spaceMem (iSpace r)) he hb (s.gapOf c) t a bytes).congr hf
  refine ⟨_, (State.ploughPut_of_noError _ ha h.active he).trans (State.modCore_modCore s c _ _), hs.stored, ?_⟩
  dsimp only
  rw [hs.plough]
  generalize (s.core c).ploughStore (s.gapOf c) t (spaceMem (iSpace r)) a bytes = k' at hs
  rw [hs.frame]
  rfl

theorem execVst_at (cycle : Nat) (hop : iOp r = 0x11) : execVst c cycle s = .next (
    s.ploughPut c cycle (iSpace r) ((s.core c).plough.addr r) true
      (laneBytes ((s.core c).plough.mreg (iMask r)) 4 (laneOf ((s.core c).plough.vr (iVA r)))) fun s => s.modPl c Plough.go) :=
  ploughDo_at h hop _

/-- SST of a core memory (R196). -/
theorem execSst_of_core (cycle : Nat) (hop : iOp r = 0x15) (h3 : iSpace r ≠ 3) :
    execSst c cycle s = .next (s.ploughPut c cycle (iSpace r) ((s.core c).plough.preg (iPtr r)) false
      ((leBytes (fld r 64 4 + 1) ((s.core c).plough.sreg (iSreg r))).map some) fun s => s.modPl c Plough.go) := by
  simp only [execSst, ploughDo_at h hop, if_neg h3]

/-- SST of device memory (R196, R244). -/
theorem execSst_of_device (cycle : Nat) (hop : iOp r = 0x15) (h3 : iSpace r = 3) : execSst c cycle s = .next (
    if s.ploughAccess c 3 ((s.core c).plough.preg (iPtr r)) (fld r 64 4 + 1) true false then
      (s.dramStore ((s.core c).plough.preg (iPtr r)) (leBytes (fld r 64 4 + 1) ((s.core c).plough.sreg (iSreg r)))).modPl c Plough.go
    else s.ploughFault c ((s.core c).plough.preg (iPtr r))) := by
  simp only [execSst, ploughDo_at h hop, if_pos h3]
  cases s.ploughAccess c 3 ((s.core c).plough.preg (iPtr r)) (fld r 64 4 + 1) true false <;> rfl

theorem execSst_of_refused (cycle : Nat) (hop : iOp r = 0x15)
    (ha : s.ploughAccess c (iSpace r) ((s.core c).plough.preg (iPtr r)) (fld r 64 4 + 1) true false = false) :
    execSst c cycle s = .next (s.ploughFault c ((s.core c).plough.preg (iPtr r))) := by
  by_cases h3 : iSpace r = 3
  · rw [h3] at ha
    rw [execSst_of_device h cycle hop h3, if_neg (Bool.eq_false_iff.1 ha)]
  · rw [execSst_of_core h cycle hop h3, State.ploughPut_of_refused _ (by rwa [List.length_map, leBytes_length])]
end
end

end Sys2Proof.Machine

open Sys2Proof Sys2Proof.Machine

/-- Settles O30, by what a list of bytes with gaps leaves in a memory. -/
theorem ploughStores : Obligations.PloughStores := by
  intro c cycle s r h k p m a b n fault byte stores
  have hlanes : (laneBytes (p.mreg (iMask r)) 4 (laneOf (p.vr (iVA r)))).length = 256 := length_laneBytes _ _ _
  have hbytes : ((leBytes n (p.sreg (iSreg r))).map some).length = n := by rw [List.length_map, leBytes_length]
  refine ⟨fun hop ha he hb => ?_, fun hop ha => ?_, fun hop h3 ha he hb => ?_, fun hop h3 ha => ?_,
    fun hop ha => (execSst_of_refused h cycle hop ha).trans (h.fault_eq b)⟩
  · obtain ⟨k', heq, hk⟩ := h.stores (t := cycle) (hlanes.symm ▸ ha) he hb (byteFor_laneBytes a _ _)
    exact ⟨k', (execVst_at h cycle hop).trans (congrArg _ heq), hk⟩
  · exact (execVst_at h cycle hop).trans ((congrArg _ (State.ploughPut_of_refused _ (hlanes.symm ▸ ha))).trans (h.fault_eq a))
  · obtain ⟨k', heq, hk⟩ := h.stores (t := cycle) (hbytes.symm ▸ ha) he hb (byteFor_leBytes b n _)
    exact ⟨k', (execSst_of_core h cycle hop h3).trans (congrArg _ heq), hk⟩
  · rw [← leBytes_eq_map]
    exact (execSst_of_device h cycle hop h3).trans (congrArg _ (if_pos ha))
end

