-- ==== Sys2Proof/Proofs/PloughQuantise.lean ====
section
/-!
SUPPORT. Quantisation, re-encoding and random lanes: a write of a core memory, with the draws that it takes and the values that it shows the
Collator.
-/

namespace Sys2Proof.Machine

/-! ### What the Collator sees (R110) -/

theorem Core.observe_plough (k : Core) (closed : Bool) (layer role : Nat) (x1 : Bool) (xs : List Num) (flush sat : Nat) :
    (k.observe closed layer role x1 xs flush sat).plough = k.plough := by
  simp only [Core.observe]
  split
  · rfl
  · split <;> rfl

/-! ### Writes without gaps -/

/-- Bytes without gaps are one run. -/
theorem byteRuns_map_some (a : Nat) (b : Byte) (bs : List Byte) : byteRuns a ((b :: bs).map some) = [(a, b :: bs)] := by
  induction bs generalizing a b with
  | nil => rfl
  | cons d bs ih => rw [List.map_cons, byteRuns, ih (a + 1) d]; exact if_pos rfl

theorem Core.storeRuns_map_some (k : Core) (m : CoreMem) (a : Nat) {bs : List Byte} (h : bs ≠ []) :
    k.storeRuns m a (bs.map some) = k.store m a bs := by
  obtain ⟨b, bs, rfl⟩ := List.exists_cons_of_ne_nil h
  rw [Core.storeRuns, byteRuns_map_some]
  rfl

/-! ### Draws (R90, R200, R208) -/

section
variable {s : State} {c : CoreId} {r : Nat}

/-- A core after the draws of `n` elements, where the instruction rounds stochastically. -/
def Core.drawn (k : Core) (stochastic : Bool) (r n : Nat) : Core := if stochastic then k.advance (qStream r) n else k

theorem Core.drawn_plough (k : Core) (b : Bool) (r n : Nat) : (k.drawn b r n).plough = k.plough := by
  cases b <;> rfl

theorem State.takeDraws_eq (s : State) (c : CoreId) (r n : Nat) : s.takeDraws c r n = s.modCore c (·.drawn (s.stochastic c r) r n) := by
  rw [State.takeDraws]
  split
  next h => rw [h]; rfl
  next h => exact (State.modCore_of_fixed (by rw [Bool.eq_false_iff.2 h]; rfl)).symm

/-- Whether an instruction rounds stochastically depends on the layer alone. -/
theorem State.stochastic_modCore {f : Core → Core} (h : (f (s.core c)).plough = (s.core c).plough) (r : Nat) :
    (s.modCore c f).stochastic c r = s.stochastic c r := by
  rw [State.stochastic, State.core_modCore, if_pos rfl, h]
  rfl

/-- A write, the draws, the observations and the next instruction, as one update of the core. -/
theorem State.written_drawn_observed {f g : Core → Core} (hf : (f (s.core c)).plough = (s.core c).plough)
    (hg : ∀ k, (g k).plough = k.plough) (r n : Nat) :
    (((s.modCore c f).takeDraws c r n).modCore c g).modPl c Plough.go
      = s.modCore c fun k => { g ((f k).drawn (s.stochastic c r) r n) with
          plough := { (s.core c).plough with ip := (s.core c).plough.ip + 1 } } := by
  rw [State.takeDraws_eq, State.stochastic_modCore hf, State.modPl, State.modCore_modCore, State.modCore_modCore, State.modCore_modCore]
  refine State.modCore_congr _ _ _ _ ?_
  dsimp only
  rw [hg, Core.drawn_plough, hf]
  rfl

/-! ### QFOLIO, QWIRE and QCVT (R199 to R201) -/

/-- A scale that R195 refuses. -/
theorem State.quantise_of_badScale {code cycle : Nat} {e5m2 : Bool} (hp : qPol r = 2)
    (hs : bitOf ((s.core c).plough.sreg (iSreg r) % 65536) 15 = true ∨ fld ((s.core c).plough.sreg (iSreg r) % 65536) 7 8 = 255) :
    s.quantise c cycle r code e5m2 = s.ploughFault c ((s.core c).plough.addr r) := if_pos ⟨hp, hs⟩

/-- The number of values of a quantisation. -/
def folioValues (r code : Nat) : Nat := if qValid r = 0 then folioCount code else qValid r

/-- The values that a quantisation takes from V[VA] on. -/
def Plough.values (p : Plough) (r n : Nat) : List Nat := (List.range n).map fun i => laneOf (p.vr (iVA r + i / 64)) (i % 64)

/-- The explicit scale of a wire folio has a mantissa, so that the power of two used is free (log entry 58). -/
@[reducible] def Plough.oddScale (p : Plough) (r code : Nat) : Prop :=
  code = 7 ∧ qPol r = 2 ∧ fld (p.sreg (iSreg r) % 65536) 0 7 ≠ 0

/-- The folio that a quantisation writes (R199, R200). -/
def State.quantised (s : State) (c : CoreId) (r code : Nat) (e5m2 : Bool) : FolioOut :=
  let p := (s.core c).plough
  let n := folioValues r code
  let used := if p.oddScale r code then 128 * ((s.free 0).toNat % 254 + 1) else p.sreg (iSreg r) % 65536
  writeFolio code e5m2 (if qPol r = 2 then .explicit used else .amax (s.scaleAmax c r (p.values r n)) (qMargin r)) (p.values r n)
    (s.roundDraws c r n)

/-- A quantisation that is allowed writes its folio, takes its draws and shows its values to the Collator (R110, R199, R200). -/
theorem State.quantise_of_allowed (h : s.atInstr c r) (he : (s.core c).ecc = []) {code cycle : Nat} {e5m2 : Bool}
    (hs : ¬ (qPol r = 2 ∧ (bitOf ((s.core c).plough.sreg (iSreg r) % 65536) 15 = true
      ∨ fld ((s.core c).plough.sreg (iSreg r) % 65536) 7 8 = 255))) :
    let p := (s.core c).plough
    let n := folioValues r code
    let o := s.quantised c r code e5m2
    s.ploughAccess c (iSpace r) (p.addr r) (folioBytes o).length true true = true →
    let t := s.modCore c fun k =>
      { ((k.ploughStore (s.gapOf c) cycle (spaceMem (iSpace r)) (p.addr r) ((folioBytes o).map some)).drawn (s.stochastic c r) r n).observe
          s.prog.closed p.layer (qRole r) false ((p.values r n).map fB32.decode) o.flush o.sat with plough := { p with ip := p.ip + 1 } }
    s.quantise c cycle r code e5m2 = if p.oddScale r code then t.bump else t := by
  intro p n o ha t
  have hput := State.ploughPut_of_noError (t := cycle) (bytes := (folioBytes o).map some)
    (fun s => let u := ((s.takeDraws c r n).modCore c fun k => k.observe s.prog.closed p.layer (qRole r) false
        ((p.values r n).map fB32.decode) o.flush o.sat).modPl c Plough.go
      if p.oddScale r code then u.bump else u) (by rwa [List.length_map]) h.active he
  refine (if_neg hs).trans (hput.trans ?_)
  have hdone : _ = t := State.written_drawn_observed
    (s := s) (c := c) (f := fun k => k.ploughStore (s.gapOf c) cycle (spaceMem (iSpace r)) (p.addr r) ((folioBytes o).map some))
    (g := fun k => k.observe s.prog.closed p.layer (qRole r) false ((p.values r n).map fB32.decode) o.flush o.sat)
    ((s.core c).ploughStore_writesOnly _ cycle _ _ _).plough (fun k => k.observe_plough _ _ _ _ _ _ _) r n
  rw [← hdone]
  rfl

/-- QCVT that is allowed, by its elements: the value, what it becomes, and whether its lane is written (R191, R201). -/
theorem execQcvt_of_allowed (h : s.atInstr c r) (he : (s.core c).ecc = []) (hop : iOp r = 0x42) (cycle : Nat) :
    let p := (s.core c).plough
    let fmt := (fmtOf (iFmt r)).getD .int8
    let e := if iPair r then 2 else 1
    let x := fun i => if iPair r then 65536 * (laneOf (p.vr (iVA r)) (i / 2) / 65536 ^ (i % 2) % 65536) else laneOf (p.vr (iVA r)) i
    let out := (s.roundDraws c r (64 * e)).zipIdx.map fun u => (x u.2, narrow fmt (x u.2) u.1, bitOf (p.mreg (iMask r)) (u.2 / e))
    let kept := out.filter (·.2.2)
    let bytes := (out.map fun o =>
      if o.2.2 then (leBytes fmt.bytes o.2.1.1).map some else List.replicate fmt.bytes none).flatten
    s.ploughAccess c (iSpace r) (p.addr r) bytes.length true true = true →
    execQcvt c cycle s = .next (s.modCore c fun k =>
      { ((k.ploughStore (s.gapOf c) cycle (spaceMem (iSpace r)) (p.addr r) bytes).drawn (s.stochastic c r) r (64 * e)).observe s.prog.closed
          p.layer (qRole r) false (kept.map fun o => fB32.decode o.1) (kept.filter fun o => o.2.1.2 == .flushed).length
          (kept.filter fun o => o.2.1.2 == .saturated).length with plough := { p with ip := p.ip + 1 } }) := by
  intro p fmt e x out kept bytes ha
  refine (ploughDo_at h hop _).trans (congrArg _ ((State.ploughPut_of_noError _ ha h.active he).trans ?_))
  exact State.written_drawn_observed (s := s) (c := c)
    (f := fun k => k.ploughStore (s.gapOf c) cycle (spaceMem (iSpace r)) (p.addr r) bytes)
    (g := fun k => k.observe s.prog.closed p.layer (qRole r) false (kept.map fun o => fB32.decode o.1)
      (kept.filter fun o => o.2.1.2 == .flushed).length (kept.filter fun o => o.2.1.2 == .saturated).length)
    ((s.core c).ploughStore_writesOnly _ cycle _ _ _).plough (fun k => k.observe_plough _ _ _ _ _ _ _) r _

/-! ### MREENC and VRAND (R107, R203, R208) -/

/-- The kind of the Mull block that MREENC rewrites, and the number of its real positions (log entry 72). -/
def mreencKind (r : Nat) : MullKind := if iFmt r = 2 then .b else .h
def mreencCount (r : Nat) : Nat := if fld r 96 13 = 0 then 4096 else min (fld r 96 13) 4096

theorem MullKind.size_pos (kind : MullKind) : 0 < kind.size := by cases kind <;> decide

/-- The count of a clamped block and the next instruction, as one update of the core. -/
theorem State.countClamp_go (s : State) (c : CoreId) (p : Prop) [Decidable p] (a : Nat) :
    (if p then s.modCore c (·.countClamp a) else s).modPl c Plough.go
      = s.modCore c fun k => { (if p then k.countClamp a else k) with plough := k.plough.go } := by
  split
  · exact State.modCore_modCore s c _ _
  · rfl

section
variable (h : s.atInstr c r) (he : (s.core c).ecc = []) (hop : iOp r = 0x45)
  (ha : s.ploughAccess c 0 ((s.core c).plough.addr r) 128 false true = true)
include h he hop ha

/-- What follows the read of the old header (R203). -/
theorem execMreenc_of_header : execMreenc c s = .next (
    let p := (s.core c).plough
    let hd := (s.core c).readNat .quire (p.addr r) 128
    match mullHeaderCheck (mreencKind r) hd with
    | some reason => s.ploughHalt c reason 0 (p.addr r)
    | none => s.ploughLoad c 0 (p.sreg (iSreg r)) (2 * mreencCount r) true fun bs s =>
      let e := mullEncode (mreencKind r) hd (elems 2 (mreencCount r) bs)
      s.ploughPut c 0 0 (p.addr r) true ((leBytes (mreencKind r).size e.1).map some) fun s =>
        (if fld r 109 13 < e.2 then s.modCore c (·.countClamp (p.addr r)) else s).modPl c Plough.go) :=
  (ploughDo_at h hop _).trans (congrArg _ ((State.ploughLoad_of_clean _ ha h.active (Core.marksIn_none he _ _ _)).trans rfl))

theorem execMreenc_of_badHeader {reason : Nat}
    (hc : mullHeaderCheck (mreencKind r) ((s.core c).readNat .quire ((s.core c).plough.addr r) 128) = some reason) :
    execMreenc c s = .next (s.ploughHalt c reason 0 ((s.core c).plough.addr r)) := by
  rw [execMreenc_of_header h he hop ha]
  dsimp only
  rw [hc]

theorem execMreenc_of_goodHeader
    (hc : mullHeaderCheck (mreencKind r) ((s.core c).readNat .quire ((s.core c).plough.addr r) 128) = none)
    (hv : s.ploughAccess c 0 ((s.core c).plough.sreg (iSreg r)) (2 * mreencCount r) false true = true)
    (hb : s.ploughAccess c 0 ((s.core c).plough.addr r) (mreencKind r).size true true = true) :
    let p := (s.core c).plough
    let a := p.addr r
    let e := mullEncode (mreencKind r) ((s.core c).readNat .quire a 128)
      ((List.range (mreencCount r)).map fun i => (s.core c).readNat .quire (p.sreg (iSreg r) + 2 * i) 2)
    execMreenc c s = .next (s.modCore c fun k =>
      let k := k.store .quire a (leBytes (mreencKind r).size e.1)
      { (if fld r 109 13 < e.2 then k.countClamp a else k) with plough := { p with ip := p.ip + 1 } }) := by
  intro p a e
  have helems : elems 2 (mreencCount r) ((s.core c).read .quire (p.sreg (iSreg r)) (2 * mreencCount r))
      = (List.range (mreencCount r)).map fun i => (s.core c).readNat .quire (p.sreg (iSreg r) + 2 * i) 2 := by
    rw [Nat.mul_comm, Core.elems_read]
  have hlen : (leBytes (mreencKind r).size e.1).length = (mreencKind r).size := leBytes_length _ _
  have hput := State.ploughPut_of_noError (t := 0) (space := 0) (a := a) (bytes := (leBytes (mreencKind r).size e.1).map some)
    (fun s => (if fld r 109 13 < e.2 then s.modCore c (·.countClamp a) else s).modPl c Plough.go)
    (by rwa [List.length_map, hlen]) h.active he
  refine (execMreenc_of_header h he hop ha).trans (congrArg _ ?_)
  dsimp only
  rw [hc]
  refine (State.ploughLoad_of_clean _ hv h.active (Core.marksIn_none he _ _ _)).trans ?_
  rw [show spaceMem 0 = CoreMem.quire from rfl, helems]
  refine hput.trans ?_
  rw [show spaceMem 0 = CoreMem.quire from rfl, State.countClamp_go, State.modCore_modCore]
  refine State.modCore_congr _ _ _ _ ?_
  have hstore : (s.core c).ploughStore (s.gapOf c) 0 .quire a ((leBytes (mreencKind r).size e.1).map some)
      = (s.core c).store .quire a (leBytes (mreencKind r).size e.1) :=
    Core.storeRuns_map_some _ _ _ (List.ne_nil_of_length_pos (hlen.symm.subst (mreencKind r).size_pos))
  dsimp only
  rw [hstore, ((s.core c).store_writesOnly _ _ _).plough]
  rfl
end

/-- VRAND (R208): the lanes take their draws, and the stream moves on by 128. -/
theorem execVrand_at (h : s.atInstr c r) (hop : iOp r = 0x48) :
    let p := (s.core c).plough
    let ds := s.drawList c (qStream r) 128
    let u := fun l => ds.getD (2 * l + 1) 0 * 65536 + ds.getD (2 * l) 0
    execVrand c s = .next (s.modCore c fun k => { k.advance (qStream r) 128 with
      plough := (p.setV r fun l => if iFmt r = 6 then fB32.roundRat false (u l / 256) 1 (-24) else u l).go }) := by
  intro p ds u
  refine (ploughDo_at h hop _).trans (congrArg _ ((State.modCore_modCore s c _ _).trans ?_))
  exact State.modCore_congr _ _ _ _ rfl
end

end Sys2Proof.Machine

open Sys2Proof Sys2Proof.Machine

/-- Settles O31, one lemma per instruction. -/
theorem ploughQuantise : Obligations.PloughQuantise := by
  intro c cycle s r h he k p m a past draw lane folio
  refine ⟨fun hop => ⟨fun hs ha => ?_, fun hs => ?_⟩, fun hop => ⟨fun hs ha => ?_, fun hs => ?_⟩,
    fun hop ha => execQcvt_of_allowed h he hop cycle ha, fun hop ha => ?_,
    fun hop => ⟨_, execVrand_at h hop, Plough.lanesSet_setV p r _⟩⟩
  · exact (ploughDo_at h hop fun r s => s.quantise c cycle r (qCode r) false).trans
      (congrArg _ (State.quantise_of_allowed h he hs ha))
  · exact (ploughDo_at h hop fun r s => s.quantise c cycle r (qCode r) false).trans
      ((congrArg _ (State.quantise_of_badScale hs.1 hs.2)).trans (h.fault_eq a))
  · exact (ploughDo_at h hop fun r s => s.quantise c cycle r 0x7 (qE5m2 r)).trans
      (congrArg _ (State.quantise_of_allowed h he hs ha))
  · exact (ploughDo_at h hop fun r s => s.quantise c cycle r 0x7 (qE5m2 r)).trans
      ((congrArg _ (State.quantise_of_badScale hs.1 hs.2)).trans (h.fault_eq a))
  · intro kind hd n
    cases hc : mullHeaderCheck kind hd with
    | some reason => exact execMreenc_of_badHeader h he hop ha hc
    | none => exact fun hv hb => execMreenc_of_goodHeader h he hop ha hc hv hb
end

