-- ==== Sys2Proof/Proofs/RoutingAndIdentity.lean ====
section
/-!
SUPPORT. Discovery: what an advertisement, its period and its expiry do, the rebuilding and the flip of the routing tables, and the hashed
node ID.
-/

namespace Sys2Proof.Machine

variable {s : State}

/-! ### Advertisements (R284, R285, R289) -/

/-- A lane carries flits in phases 6 and 7 (R274). -/
theorem Link.open_iff {k : Link} : k.open = true ↔ k.phase = .up ∨ k.phase = .joining := by simp [Link.open]

theorem execAdvertisement_of_unread {l : LaneId} {a : Advert}
    (h : ((s.link l).phase ≠ .up ∧ (s.link l).phase ≠ .joining) ∨ a.serial = s.serial) : execAdvertisement l a s = .next s := by
  refine if_pos ?_
  rcases h with h | h
  · have hclosed : (s.link l).open = false := Bool.eq_false_iff.2 fun ho => (Link.open_iff.1 ho).elim h.1 h.2
    exact .inr (.inl (by rw [hclosed]; rfl))
  · exact .inr (.inr (.inr h))

/-- An advertisement taken in: kept with the time of its coming, and forwarded (R285). -/
def State.keepAdvert (s : State) (l : LaneId) (a : Advert) : State :=
  (s.modFab fun f => { f with adverts := f.adverts.filter (fun p => p.1.node ≠ a.node) ++ [(a, s.now)] }).flood (some l) (.advert a)

/-- This node and the source hold one ID of their own (R284). -/
def State.clashes (s : State) (a : Advert) : Prop := a.node = s.fab.nodeId ∧ s.fab.idSource ≠ 2 ∧ a.idSource ≠ 2

section
variable {l : LaneId} {a : Advert} (hm : s.pwr.main = true) (ho : (s.link l).phase = .up ∨ (s.link l).phase = .joining)
  (hl : s.clk.lost = false) (hn : a.serial ≠ s.serial)
include hm ho hl hn

theorem execAdvertisement_reads : ¬ ((!s.pwr.main) = true ∨ (!(s.link l).open) = true ∨ s.clk.lost = true ∨ a.serial = s.serial) := by
  simp [hm, Link.open_iff.2 ho, hl, hn]

theorem execAdvertisement_of_clash (hc : s.clashes a) : execAdvertisement l a s = .next (s.resolveClash a) :=
  (if_neg (execAdvertisement_reads hm ho hl hn)).trans (if_pos hc)

variable (hc : ¬ s.clashes a)
include hc

theorem execAdvertisement_of_new (hold : (s.fab.adverts.find? fun p => p.1.node = a.node) = none) :
    execAdvertisement l a s = .next (s.keepAdvert l a).topologyChanged.tryActivate := by
  refine (if_neg (execAdvertisement_reads hm ho hl hn)).trans ((if_neg hc).trans ?_)
  simp only [hold]
  rfl

theorem execAdvertisement_of_known {p : Advert × Nat} (hold : (s.fab.adverts.find? fun p => p.1.node = a.node) = some p) :
    execAdvertisement l a s = .next (if newer a.sequence p.1.sequence = false then s
      else if p.1.links = a.links then (s.keepAdvert l a).noteRoot.tryActivate else (s.keepAdvert l a).topologyChanged.tryActivate) := by
  refine (if_neg (execAdvertisement_reads hm ho hl hn)).trans ((if_neg hc).trans ?_)
  simp only [hold, Option.elim_some, Bool.not_eq_true', beq_iff_eq]
  split
  · rfl
  · split <;> rfl
end

theorem execAdvertisementPeriod_of_main (hm : s.pwr.main = true) : execAdvertisementPeriod s = .next (
    let t := s.modFab fun f => { f with advSeq := f.advSeq + 1 }
    t.flood none (.advert t.ownAdvert)) := by
  rw [execAdvertisementPeriod, act_eq, if_pos hm, State.advertise, if_pos hm]

theorem adverts_any_iff {adverts : List (Advert × Nat)} {n : BitVec 16} {now : Nat} :
    (adverts.any fun p => p.1.node == n && decide (p.2 + 300000000 ≤ now)) = true
      ↔ ∃ p ∈ adverts, p.1.node = n ∧ p.2 + 300000000 ≤ now := by
  simp

theorem execAdvertisementExpiry_of_silent {n : BitVec 16} (hm : s.pwr.main = true)
    (h : ∃ p ∈ s.fab.adverts, p.1.node = n ∧ p.2 + 300000000 ≤ s.now) : execAdvertisementExpiry n s = .next (
      ((s.modFab fun f => { f with adverts := f.adverts.filter fun p => p.1.node ≠ n }).topologyChanged).partnerLost n) := by
  rw [execAdvertisementExpiry, hm, Bool.true_and, adverts_any_iff.2 h]
  rfl

theorem execAdvertisementExpiry_of_heard {n : BitVec 16} (h : ∀ p ∈ s.fab.adverts, p.1.node = n → s.now < p.2 + 300000000) :
    execAdvertisementExpiry n s = .next s := by
  have hnone : (s.fab.adverts.any fun p => p.1.node == n && decide (p.2 + 300000000 ≤ s.now)) = false :=
    Bool.eq_false_iff.2 fun ha => by
      obtain ⟨p, hp, hn, ht⟩ := adverts_any_iff.1 ha
      exact absurd (h p hp hn) (by omega)
  rw [execAdvertisementExpiry, hnone, Bool.and_false]
  rfl

/-! ### The routing tables (R274, R289) -/

/-- From `s` to `t` both copies of the routing table stay, and so does whether the shadow copy waits for its flip. -/
structure State.KeepsTables (s t : State) : Prop where
  active : t.fab.active = s.fab.active
  shadow : t.fab.shadow = s.fab.shadow
  flipReady : t.fab.flipReady = s.fab.flipReady

section
variable {t u : State}

theorem State.KeepsTables.refl (s : State) : s.KeepsTables s := ⟨rfl, rfl, rfl⟩

theorem State.KeepsTables.trans (h : s.KeepsTables t) (k : t.KeepsTables u) : s.KeepsTables u :=
  ⟨k.active.trans h.active, k.shadow.trans h.shadow, k.flipReady.trans h.flipReady⟩

theorem State.KeepsTables.foldl {α : Type} {f : State → α → State} (hf : ∀ (s : State) (x : α), s.KeepsTables (f s x)) (xs : List α)
    (s : State) : s.KeepsTables (xs.foldl f s) := by
  induction xs generalizing s with
  | nil => exact .refl s
  | cons x xs ih => exact (hf s x).trans (ih _)

theorem State.KeepsTables.of_fab (h : t.fab = s.fab) : s.KeepsTables t := by
  constructor <;> rw [h]

theorem State.modLink_keepsTables (l : LaneId) (f : Link → Link) : s.KeepsTables (s.modLink l f) := ⟨rfl, rfl, rfl⟩

theorem State.emit_keepsTables (s : State) (lane : Option LaneId) (vc : BitVec 2) (timed : Bool) (src : BitVec 16) (seq : W32) (flits : Nat)
    (transit : Option Transfer) (header : BitVec 512) (m : Msg) :
    s.KeepsTables (s.emit lane vc timed src seq flits transit header m) := by
  simp only [State.emit]
  split
  · split <;> exact ⟨rfl, rfl, rfl⟩
  · exact ⟨rfl, rfl, rfl⟩

theorem State.sendPartner_keepsTables (s : State) (l : LaneId) : s.KeepsTables (s.sendPartner l) := by
  rw [State.sendPartner, State.sendLink]
  exact s.emit_keepsTables _ _ _ _ _ _ _ _ _

theorem State.resendPartner_keepsTables : s.KeepsTables s.resendPartner := by
  have hpartner : s.KeepsTables (s.modFab fun f => { f with partnerSeq := f.partnerSeq + 1 }) := ⟨rfl, rfl, rfl⟩
  exact hpartner.trans (.foldl State.sendPartner_keepsTables _ _)

theorem State.noteRoot_keepsTables : s.KeepsTables s.noteRoot := by
  simp only [State.noteRoot]
  split
  · exact .refl s
  · refine State.KeepsTables.trans ?_ State.resendPartner_keepsTables
    exact ⟨rfl, rfl, rfl⟩

theorem State.retryEscape_keepsTables : s.KeepsTables s.retryEscape := by
  refine .foldl (fun s e => ?_) _ s
  split
  · exact ⟨rfl, rfl, rfl⟩
  · exact .refl s
end

/-- A flip swaps the copies (R289). -/
theorem State.flipTables_tables (s : State) :
    s.flipTables.fab.active = s.fab.shadow ∧ s.flipTables.fab.shadow = s.fab.active ∧ s.flipTables.fab.flipReady = false := by
  have hlanes (u : State) (ls : List LaneId) : u.KeepsTables (ls.foldl (fun s l => s.modLink l fun k => { k with phase := .up }) u) :=
    .foldl (fun s l => State.modLink_keepsTables l _) ls u
  have hevents (u : State) (ls : List LaneId) :
      u.KeepsTables (ls.foldl (fun s l => s.raiseDev 0x0410 [item l.val, item (s.link l).partner.toNat]) u) :=
    .foldl (fun s l => .of_fab (s.raiseDev_fab _ _)) ls u
  have hswap : (s.modFab fun f => { f with active := f.shadow, shadow := f.active, flipReady := false }).KeepsTables s.flipTables := by
    simp only [State.flipTables]
    split
    · exact (hlanes _ _).trans (hevents _ _)
    · exact ((hlanes _ _).trans (hevents _ _)).trans (State.noteRoot_keepsTables.trans State.retryEscape_keepsTables)
  exact ⟨hswap.active, hswap.shadow, hswap.flipReady⟩

theorem execRoutingRebuildDone_of_rebuilding (hm : s.pwr.main = true) (hr : s.fab.rebuilding = true) :
    execRoutingRebuildDone s = .next (
      let t := s.modFab fun f => { f with shadow := s.buildTable, rebuilding := false, flipReady := true }
      if s.cad.valid then t else t.flipTables).bump := by
  rw [execRoutingRebuildDone, if_neg (by simp [hm, hr])]
  rfl

theorem execRoutingRebuildDone_of_idle (hr : s.fab.rebuilding = false) : execRoutingRebuildDone s = .next s :=
  if_pos (.inr (by rw [hr]; rfl))

/-! ### The hashed node ID (R207, R283) -/

theorem State.hashedId_zero (s : State) : s.hashedId 0 = 63 * 1024 + mix s.serial.toNat % 1024 := by
  rw [State.hashedId, Nat.add_zero, Nat.mod_eq_of_lt s.serial.isLt]

theorem execHashedNodeId_eq (s : State) : execHashedNodeId s = .next (if s.pwr.standby = true ∧ s.fab.nodeId = 0xFFFF then
    s.takeId (BitVec.ofNat 16 (63 * 1024 + mix s.serial.toNat % 1024)) 1 else s) := by
  simp only [execHashedNodeId, act_eq, State.hashedId_zero, Bool.and_eq_true, beq_iff_eq]

end Sys2Proof.Machine

open Sys2Proof Sys2Proof.Machine

/-- Settles O51, one lemma per command and outcome. -/
theorem routingAndIdentity : Obligations.RoutingAndIdentity := by
  intro s
  refine ⟨fun l a hm ho hl hn => ?_, fun l a h => execAdvertisement_of_unread h, execAdvertisementPeriod_of_main, ⟨rfl, rfl, rfl⟩,
    fun n hm h => execAdvertisementExpiry_of_silent hm h, fun n h => execAdvertisementExpiry_of_heard h, fun hm hr => ?_,
    execRoutingRebuildDone_of_idle, fun hs hi => ?_, fun h => ?_⟩
  · intro clash old kept
    exact ⟨execAdvertisement_of_clash hm ho hl hn, execAdvertisement_of_new hm ho hl hn,
      fun p hc hp => execAdvertisement_of_known hm ho hl hn hc hp⟩
  · intro t
    exact ⟨execRoutingRebuildDone_of_rebuilding hm hr, t.flipTables_tables⟩
  · exact (execHashedNodeId_eq s).trans (congrArg _ (if_pos ⟨hs, hi⟩))
  · refine (execHashedNodeId_eq s).trans (congrArg _ (if_neg fun hx => ?_))
    rcases h with h | h
    · exact Bool.false_ne_true (h.symm.trans hx.1)
    · exact h hx.2
end

