-- ==== Sys2Proof/Proofs/ScrubAndRepair.lean ====
section
/-!
SUPPORT. What a scrub access finds and does (R223 to R227), the history of a DRAM row under the patrol scrub, the repair of a candidate row
and the withdrawal of its frame (R243 to R246), and the test of a guard site (R238, R240, R359), one lemma per command and outcome.
-/

namespace Sys2Proof.Machine

variable {s t u : State} {i : SiteId} {m : CoreMem} {a w : Nat} {found : EccFind}

/-! ### The words of a site (R211, R223) -/

theorem sameWord_iff {y : EccMark} : sameWord m w y = true ↔ y.mem = m ∧ y.word = w := by
  simp only [sameWord, Bool.and_eq_true, beq_iff_eq]

theorem Site.withMem_mem (x : Site) (m m' : CoreMem) (y : Memory) : (x.withMem m y).mem m' = if m' = m then y else x.mem m' := by
  cases m <;> cases m' <;> rfl

theorem Site.withMem_ue (x : Site) (m : CoreMem) (y : Memory) : (x.withMem m y).ue = x.ue := by cases m <;> rfl

theorem Site.withMem_ecc (x : Site) (m : CoreMem) (y : Memory) : (x.withMem m y).ecc = x.ecc := by cases m <;> rfl

theorem Core.write_site (k : Core) (m : CoreMem) (a : Nat) (bytes : List Byte) : (k.write m a bytes).site = k.site := by cases m <;> rfl

theorem Core.write_ecc (k : Core) (m : CoreMem) (a : Nat) (bytes : List Byte) : (k.write m a bytes).ecc = k.ecc := by cases m <;> rfl

/-- The byte `x` of the memory `m'` lies outside the ECC word `w` of the memory `m`. -/
def outsideWord (m : CoreMem) (w : Nat) (m' : CoreMem) (x : Nat) : Prop := ¬ (m' = m ∧ w ≤ x ∧ x < w + eccWord m)

/-- Writing one ECC word of one of three memories leaves every byte outside the word. -/
theorem get_writeWord {m' : CoreMem} {x : Nat} (h : outsideWord m w m' x) (mem : CoreMem → Memory) {bytes : List Byte}
    (hl : bytes.length = eccWord m) :
    Mem.get zeroByte (if m' = m then Mem.write zeroByte (mem m) w bytes else mem m') x = Mem.get zeroByte (mem m') x := by
  split
  · next hm =>
    subst hm
    refine Mem.get_write_out zeroByte _ w bytes x ?_
    have hx : ¬ (w ≤ x ∧ x < w + eccWord m') := fun hx => h ⟨rfl, hx⟩
    omega
  · rfl

/-- Which core a site carries depends on the places of the cores alone. -/
theorem State.coreAt_congr (h : ∀ d, (t.core d).site = (s.core d).site) (i : SiteId) : t.coreAt i = s.coreAt i := by
  simp only [State.coreAt, h]

theorem State.marksAt_congr (hp : ∀ d, (t.core d).site = (s.core d).site) (hc : ∀ d, (t.core d).ecc = (s.core d).ecc)
    (hi : (t.site i).ecc = (s.site i).ecc) : t.marksAt i = s.marksAt i := by
  simp only [State.marksAt, State.coreAt_congr hp, hc, hi]

/-! ### A word that goes bad (R223, R224) -/

/-- `t` is `s` with, of its cores and sites, at most the marks and the bytes of the word `w` of one memory of site `i` changed. -/
structure State.BreaksWord (s : State) (i : SiteId) (m : CoreMem) (w : Nat) (t : State) : Prop where
  prog : t.prog = s.prog
  place : ∀ d, (t.core d).site = (s.core d).site
  cores : ∀ d, s.coreAt i ≠ some d → t.core d = s.core d
  sites : ∀ j, j ≠ i → t.site j = s.site j
  ue : (t.site i).ue = (s.site i).ue
  coreBytes : ∀ c m' x, outsideWord m w m' x → Mem.get zeroByte ((t.core c).mem m') x = Mem.get zeroByte ((s.core c).mem m') x
  siteBytes : ∀ m' x, outsideWord m w m' x → Mem.get zeroByte ((t.site i).mem m') x = Mem.get zeroByte ((s.site i).mem m') x

theorem State.BreaksWord.refl (s : State) : s.BreaksWord i m w s :=
  ⟨rfl, fun _ => rfl, fun _ _ => rfl, fun _ _ => rfl, rfl, fun _ _ _ _ => rfl, fun _ _ _ => rfl⟩

theorem State.BreaksWord.trans (h : s.BreaksWord i m w t) (k : t.BreaksWord i m w u) : s.BreaksWord i m w u where
  prog := k.prog.trans h.prog
  place d := (k.place d).trans (h.place d)
  cores d hd := (k.cores d (by rwa [State.coreAt_congr h.place])).trans (h.cores d hd)
  sites j hj := (k.sites j hj).trans (h.sites j hj)
  ue := k.ue.trans h.ue
  coreBytes c m' x hx := (k.coreBytes c m' x hx).trans (h.coreBytes c m' x hx)
  siteBytes m' x hx := (k.siteBytes m' x hx).trans (h.siteBytes m' x hx)

/-- What an update of one core keeps of that core, it keeps of every core. -/
theorem State.modCore_keeps {α : Type} {c : CoreId} {f : Core → Core} (g : Core → α) (h : g (f (s.core c)) = g (s.core c)) (d : CoreId) :
    g ((s.modCore c f).core d) = g (s.core d) := by
  rw [State.core_modCore]
  split
  · next hd => rw [hd, h]
  · rfl

theorem State.modCore_breaksWord {c : CoreId} (hc : s.coreAt i = some c) {f : Core → Core} (hs : (f (s.core c)).site = (s.core c).site)
    (hm : ∀ m' x, outsideWord m w m' x → Mem.get zeroByte ((f (s.core c)).mem m') x = Mem.get zeroByte ((s.core c).mem m') x) :
    s.BreaksWord i m w (s.modCore c f) where
  __ := State.BreaksWord.refl (i := i) (m := m) (w := w) s
  place := State.modCore_keeps (·.site) hs
  cores d hd := by rw [State.core_modCore, if_neg fun h : d = c => hd (h ▸ hc)]
  coreBytes d m' x hx := State.modCore_keeps (fun k => Mem.get zeroByte (k.mem m') x) (hm m' x hx) d

theorem State.modSite_breaksWord {f : Site → Site} (hu : (f (s.site i)).ue = (s.site i).ue)
    (hm : ∀ m' x, outsideWord m w m' x → Mem.get zeroByte ((f (s.site i)).mem m') x = Mem.get zeroByte ((s.site i).mem m') x) :
    s.BreaksWord i m w (s.modSite i f) where
  __ := State.BreaksWord.refl (i := i) (m := m) (w := w) s
  sites j hj := by rw [State.site_modSite, if_neg hj]
  ue := by rw [State.site_modSite, if_pos rfl, hu]
  siteBytes m' x hx := by rw [State.site_modSite, if_pos rfl, hm m' x hx]

theorem State.setMarks_breaksWord (ms : List EccMark) : s.BreaksWord i m w (s.setMarks i ms) := by
  unfold State.setMarks
  split
  · next c hc => exact State.modCore_breaksWord hc rfl fun m' _ _ => by cases m' <;> rfl
  · exact State.modSite_breaksWord rfl fun m' _ _ => by cases m' <;> rfl

theorem State.spoil_breaksWord {bytes : List Byte} (hl : bytes.length = eccWord m) : s.BreaksWord i m w (s.spoil i m w bytes) := by
  unfold State.spoil
  split
  · next c hc =>
    refine State.modCore_breaksWord hc (Core.write_site _ _ _ _) fun m' x hx => ?_
    rw [Core.write, Core.withMem_mem, get_writeWord hx _ hl]
  · refine State.modSite_breaksWord (Site.withMem_ue _ _ _) fun m' x hx => ?_
    rw [Site.withMem_mem, get_writeWord hx _ hl]

theorem State.BreaksWord.bump (h : s.BreaksWord i m w t) : s.BreaksWord i m w t.bump where __ := h

theorem State.breakWord_breaksWord : s.BreaksWord i m w (s.breakWord i ⟨m, w, .uncorrectable⟩) :=
  ((State.setMarks_breaksWord _).trans (State.spoil_breaksWord (leBytes_length _ _))).bump

theorem State.marksAt_setMarks (s : State) (i : SiteId) (ms : List EccMark) : (s.setMarks i ms).marksAt i = ms := by
  have hcarried : (s.setMarks i ms).coreAt i = s.coreAt i :=
    State.coreAt_congr (State.setMarks_breaksWord (m := .quire) (w := 0) ms).place i
  simp only [State.marksAt, hcarried]
  unfold State.setMarks
  split
  · next c hc => simp only [State.core_modCore, if_true]
  · next hc => simp only [State.site_modSite, if_true]

theorem State.marksAt_spoil (s : State) (i : SiteId) (m : CoreMem) (a : Nat) (bytes : List Byte) :
    (s.spoil i m a bytes).marksAt i = s.marksAt i := by
  unfold State.spoil
  split
  · exact State.marksAt_congr (State.modCore_keeps (·.site) (Core.write_site _ _ _ _))
      (State.modCore_keeps (·.ecc) (Core.write_ecc _ _ _ _)) rfl
  · refine State.marksAt_congr (fun _ => rfl) (fun _ => rfl) ?_
    rw [State.site_modSite, if_pos rfl, Site.withMem_ecc]

theorem State.marksAt_breakWord : (s.breakWord i ⟨m, w, .uncorrectable⟩).marksAt i
    = ⟨m, w, .uncorrectable⟩ :: (s.marksAt i).filter fun x => !sameWord m w x :=
  (State.marksAt_spoil _ i m w _).trans (State.marksAt_setMarks s i _)

/-! ### An uncorrectable error counted (R225, R226) -/

theorem State.site_countUe (r : BitVec 256) (j : SiteId) :
    (s.countUe i r).site j = if j = i then { s.site i with ue := satInc32 (s.site i).ue } else s.site j :=
  State.site_modSite s i (fun x => { x with ue := satInc32 x.ue }) j

theorem State.mem_site_countUe (r : BitVec 256) (m : CoreMem) : ((s.countUe i r).site i).mem m = (s.site i).mem m := by
  rw [State.site_countUe, if_pos rfl]
  cases m <;> rfl

theorem State.marksAt_countUe (r : BitVec 256) : (s.countUe i r).marksAt i = s.marksAt i := by
  refine State.marksAt_congr (fun _ => rfl) (fun _ => rfl) ?_
  rw [State.site_countUe, if_pos rfl]

/-! ### SCRUB_ACCESS (R223 to R227) -/

theorem State.scrubs_iff : s.scrubs i = true ↔ s.pwr.main = true ∧ (s.site i).deepSleep = false ∧ (s.site i).role ≠ .retired
    ∧ s.clk.lost = false ∧ s.clk.returning = false := by
  simp only [State.scrubs, Bool.and_eq_true, Bool.not_eq_true', bne_iff_ne, ne_eq, and_assoc]

theorem scrubFind_eq (ms : List EccMark) (m : CoreMem) (w : Nat) (found : EccFind) :
    scrubFind ms m w found = ((ms.find? (sameWord m w)).map (·.find)).getD found := by
  unfold scrubFind
  cases ms.find? (sameWord m w) <;> rfl

theorem execScrubAccess_of_still (h : ¬ (s.scrubs i = true ∧ a < coreMemSize m)) : execScrubAccess i m a found s = .next s := by
  unfold execScrubAccess
  refine if_pos ?_
  simpa only [Bool.not_eq_true', not_and_or, Bool.not_eq_true, not_lt] using h

/-- The word in which the byte `a` of a memory stands. -/
def wordAt (m : CoreMem) (a : Nat) : Nat := a / eccWord m * eccWord m

/-- The record that the scrubber makes of an error that it finds at the byte `a` (R225). -/
def State.scrubRecord (s : State) (i : SiteId) (m : CoreMem) (a : Nat) (ue : Bool) (bit : Nat) : BitVec 256 :=
  eccRecord ((s.coreAt i).elim 0xFF (·.val)) i.val m ue 6 bit (wordAt m a) ((s.coreAt i).elim s.prog.step s.stepOf) s.stamp

section
variable (hr : s.scrubs i = true ∧ a < coreMemSize m)
include hr

theorem execScrubAccess_of_scrubs : execScrubAccess i m a found s =
    match scrubFind (s.marksAt i) m (wordAt m a) found with
    | .clean => .next s
    | .corrected b => .next ((s.setMarks i ((s.marksAt i).filter fun x => !sameWord m (wordAt m a) x)).countCe i m
        (s.scrubRecord i m a false b.toNat))
    | .uncorrectable => .next ((if (s.marksAt i).any (sameWord m (wordAt m a)) then s
        else s.breakWord i ⟨m, wordAt m a, .uncorrectable⟩).countUe i (s.scrubRecord i m a true 0)) := by
  unfold execScrubAccess
  refine (if_neg ?_).trans ?_
  · simpa only [Bool.not_eq_true', not_or, Bool.not_eq_false, not_le] using hr
  · rfl

theorem execScrubAccess_of_clean (h : scrubFind (s.marksAt i) m (wordAt m a) found = .clean) :
    execScrubAccess i m a found s = .next s := by
  rw [execScrubAccess_of_scrubs hr, h]

theorem execScrubAccess_of_corrected {b : BitVec 8} (h : scrubFind (s.marksAt i) m (wordAt m a) found = .corrected b) :
    execScrubAccess i m a found s = .next ((s.setMarks i ((s.marksAt i).filter fun x => !sameWord m (wordAt m a) x)).countCe i m
      (s.scrubRecord i m a false b.toNat)) := by
  rw [execScrubAccess_of_scrubs hr, h]

/-- An uncorrectable word is counted: one that is marked already stays as it is, another one breaks, with a free content from then on
(R224; log entry 18), and is marked. -/
theorem execScrubAccess_of_uncorrectable (h : scrubFind (s.marksAt i) m (wordAt m a) found = .uncorrectable) :
    ∃ u, execScrubAccess i m a found s = .next (u.countUe i (s.scrubRecord i m a true 0)) ∧ s.BreaksWord i m (wordAt m a) u
      ∧ ∃ x ∈ u.marksAt i, x.mem = m ∧ x.word = wordAt m a := by
  rw [execScrubAccess_of_scrubs hr, h]
  by_cases hm : (s.marksAt i).any (sameWord m (wordAt m a)) = true
  · obtain ⟨x, hx, hw⟩ := List.any_eq_true.1 hm
    exact ⟨s, by simp only [if_pos hm], .refl s, x, hx, sameWord_iff.1 hw⟩
  · exact ⟨_, by simp only [if_neg hm], State.breakWord_breaksWord,
      _, State.marksAt_breakWord ▸ List.mem_cons_self, rfl, rfl⟩
end

/-! ### DRAM_PATROL_SCRUB (R243, R244) -/

/-- The history of a row: the one kept for it, or that of a row never found in error. -/
def rowHistory (bank row : Nat) (rows : List DramRow) : DramRow :=
  (rows.find? (sameRow bank row)).getD { bank := bank, row := row, passes := 0, candidate := false, withdrawn := false }

theorem find?_modRow {bank row : Nat} {f : DramRow → DramRow} (hf : ∀ r, sameRow bank row (f r) = sameRow bank row r)
    (rows : List DramRow) : (modRow bank row f rows).find? (sameRow bank row) = some (f (rowHistory bank row rows)) := by
  induction rows with
  | nil => exact List.find?_cons_of_pos ((hf _).trans (by simp [sameRow]))
  | cons r rs ih =>
    rw [modRow, rowHistory]
    split
    · next hr => rw [List.find?_cons_of_pos (by rwa [hf]), List.find?_cons_of_pos hr, Option.getD_some]
    · next hr => rw [List.find?_cons_of_neg hr, List.find?_cons_of_neg hr, ih, rowHistory]

/-- A further corrected pass of a row: the third in a row makes it a candidate, unless its frame is withdrawn. -/
def DramRow.passed (r : DramRow) : DramRow :=
  { r with passes := r.passes + 1, candidate := !r.withdrawn && (r.candidate || decide (2 ≤ r.passes)) }

theorem State.mem_poisonUnit (s : State) (u : Nat) : u ∈ (s.poisonUnit u).poison := by
  unfold State.poisonUnit
  split
  · next h => exact List.contains_iff_mem.1 h
  · exact List.mem_append_right _ (List.mem_singleton_self u)

theorem State.poisonUnit_hbm (s : State) (u : Nat) : (s.poisonUnit u).hbm = s.hbm := by
  unfold State.poisonUnit
  split <;> rfl

theorem State.poisonUnit_dram (s : State) (u : Nat) : (s.poisonUnit u).dram = s.dram := by
  unfold State.poisonUnit
  split <;> rfl

theorem State.stack_poisonUnit (s : State) (u : Nat) (j : StackId) : (s.poisonUnit u).stack j = s.stack j := by
  rw [State.stack, State.poisonUnit_hbm, State.stack]

/-- An uncorrectable read of a row poisons a unit and is noted in its stack alone. -/
theorem State.stack_unitPoisoned (s : State) (u : Nat) (k j : StackId) (bank row : Nat) :
    ((s.poisonUnit u).modStack k fun x => x.noteUe s.now bank row).bump.stack j
      = if j = k then (s.stack k).noteUe s.now bank row else s.stack j := by
  have h := State.stack_modStack (s.poisonUnit u) k (fun x => x.noteUe s.now bank row) j
  rwa [State.stack_poisonUnit, State.stack_poisonUnit] at h

section
variable {k : StackId} (hm : s.pwr.main = true) (hs : (s.stack k).state = .service) (hr : (s.stack k).selfRefresh = false)
include hm hs hr

theorem execDramPatrolScrub_of_service (bank row : Nat) (found : EccFind) : execDramPatrolScrub k bank row found s =
    match found with
    | .clean => .next (s.modStack k fun x =>
        { x with rows := x.rows.map fun r => if sameRow bank row r then { r with passes := 0 } else r })
    | .corrected _ => .next (s.modStack k fun x =>
        { x with ce := satInc32 x.ce, rows := modRow bank row DramRow.passed x.rows })
    | .uncorrectable =>
      .next ((s.poisonUnit ((s.free 0).toNat % (dramBytes / 256))).modStack k fun x => x.noteUe s.now bank row).bump := by
  unfold execDramPatrolScrub
  exact if_neg (by simp [hm, hs, hr])

theorem execDramPatrolScrub_of_corrected (bank row : Nat) (b : BitVec 8) : ∃ t,
    execDramPatrolScrub k bank row (.corrected b) s = .next t ∧ (t.stack k).ce = satInc32 (s.stack k).ce
      ∧ (t.stack k).rows.find? (sameRow bank row) = some (rowHistory bank row (s.stack k).rows).passed := by
  refine ⟨_, execDramPatrolScrub_of_service hm hs hr bank row _, ?_, ?_⟩
  · rw [State.stack_modStack, if_pos rfl]
  · rw [State.stack_modStack, if_pos rfl]
    exact find?_modRow (f := DramRow.passed) (fun _ => rfl) _

theorem execDramPatrolScrub_of_uncorrectable (bank row : Nat) : ∃ t u,
    execDramPatrolScrub k bank row .uncorrectable s = .next t ∧ u ∈ t.poison ∧ (t.stack k).ue = satInc32 (s.stack k).ue
      ∧ (∀ j, j ≠ k → t.stack j = s.stack j) ∧ t.dram = s.dram := by
  refine ⟨_, _, execDramPatrolScrub_of_service hm hs hr bank row _, State.mem_poisonUnit s _, ?_, fun j hj => ?_,
    State.poisonUnit_dram s _⟩
  · rw [State.stack_unitPoisoned, if_pos rfl, Stack.noteUe]
  · rw [State.stack_unitPoisoned, if_neg hj]
end

/-! ### SOFT_REPAIR (R243, R244, R246) -/

/-- The next repair brings SPARES_LEFT below 64 and PPR_SPARES_LOW has not been raised (R246). -/
def Stack.sparesLow (x : Stack) : Bool := decide (x.sparesLeft.toNat ≤ 64) && !x.lowRaised

theorem Stack.sparesLow_iff {x : Stack} : x.sparesLow = true ↔ x.sparesLeft.toNat ≤ 64 ∧ x.lowRaised = false := by
  simp only [Stack.sparesLow, Bool.and_eq_true, decide_eq_true_eq, Bool.not_eq_true']

/-- A spare of its bank takes the place of a row (R243). -/
def Stack.spareTaken (x : Stack) (r : DramRow) : Stack :=
  { x with sparesUsed := (r.bank, x.used r.bank + 1) :: x.sparesUsed.filter (·.1 ≠ r.bank), sparesLeft := x.sparesLeft - 1,
           softPending := x.softPending + 1, rows := x.rows.filter fun y => !sameRow r.bank r.row y,
           lowRaised := x.lowRaised || x.sparesLow }

/-- A row replaced by a spare, recorded, with PPR_USED (R243, R244). -/
def State.rowRepaired (s : State) (k : StackId) (r : DramRow) : State :=
  ((s.modStack k (·.spareTaken r)).modMc fun m => { m with softRepairs := m.softRepairs ++ [(k, r.bank, r.row)] }).raiseDev 0x0402 []

/-- A row that is no candidate any more, its frame being withdrawn (R246). -/
def Stack.rowWithdrawn (x : Stack) (r : DramRow) : Stack :=
  { x with rows := modRow r.bank r.row (fun y => { y with candidate := false, withdrawn := true }) x.rows }

section
variable {k : StackId} {r : DramRow}

theorem execSoftRepair_of_still (h : (s.stack k).rows.find? (·.candidate) = none ∨ s.pwr.main = false ∨ (s.stack k).state ≠ .service
    ∨ (s.stack k).selfRefresh = true) : execSoftRepair k s = .next s := by
  simp only [execSoftRepair]
  cases hc : (s.stack k).rows.find? (·.candidate) with
  | none => rfl
  | some r =>
    have hstill := h.resolve_left (by simp [hc])
    exact if_pos (by simpa only [Bool.not_eq_true'] using hstill)

variable (hc : (s.stack k).rows.find? (·.candidate) = some r) (hm : s.pwr.main = true) (hs : (s.stack k).state = .service)
  (hr : (s.stack k).selfRefresh = false)
include hc hm hs hr

theorem execSoftRepair_of_spare (hu : (s.stack k).used r.bank < 4) : execSoftRepair k s = .next (
    if (s.stack k).sparesLow = true then (s.rowRepaired k r).raiseDev 0x0404 [] else s.rowRepaired k r) := by
  simp only [execSoftRepair, hc]
  rw [if_neg (by simp [hm, hs, hr]), if_pos hu]
  rfl

variable (hu : 4 ≤ (s.stack k).used r.bank) {f : Nat} (hf : frameOfRow r.bank r.row = some f)
include hu hf

theorem execSoftRepair_of_newFrame (hw : f ∉ (s.stack k).withdrawn) : execSoftRepair k s = .next ((s.modStack k fun x =>
    { x.rowWithdrawn r with badFrames := x.badFrames + 1, withdrawn := f :: x.withdrawn }).raiseDev 0x0403 []) := by
  simp only [execSoftRepair, hc]
  rw [if_neg (by simp [hm, hs, hr]), if_neg (not_lt.2 hu)]
  simp [hf, hw, Stack.rowWithdrawn]

theorem execSoftRepair_of_knownFrame (hw : f ∈ (s.stack k).withdrawn) :
    execSoftRepair k s = .next (s.modStack k (·.rowWithdrawn r)) := by
  simp only [execSoftRepair, hc]
  rw [if_neg (by simp [hm, hs, hr]), if_neg (not_lt.2 hu)]
  simp [hf, hw, Stack.rowWithdrawn]
end

/-! ### The test of a guard site (R220, R222, R238, R240, R359) -/

theorem execGuardTestDone_of_notUnderTest (ht : (s.site i).role ≠ .underTest) (p : Option Nat) : execGuardTestDone i p s = .next s :=
  if_pos (.inr ht)

section
variable (hm : s.pwr.main = true)
include hm

theorem execGuardTestStart_of_main : execGuardTestStart i s = .next (
    if (s.site i).role = .guard ∧ ((s.site i).testOk = false ∨ (s.site i).ceFlag = true ∨ (s.site i).testedAt + 360000000000 ≤ s.now)
    then (s.modSite i fun x => { (if x.deepSleep then x.cleared else x) with role := .underTest, deepSleep := false }).showRoles
    else s) := by
  simp only [execGuardTestStart, act_eq, hm, Bool.true_and, Bool.and_eq_true, beq_iff_eq, Bool.or_eq_true, Bool.not_eq_true',
    decide_eq_true_eq, or_assoc]

variable (ht : (s.site i).role = .underTest)
include ht

theorem execGuardTestDone_of_pass : execGuardTestDone i none s = .next (s.modSite i fun x =>
    { x.cleared with role := .guard, testOk := true, ceFlag := false, testedAt := s.now, served := 0, deepSleep := true }).showRoles :=
  if_neg (by simp [hm, ht])

theorem execGuardTestDone_of_fail (p : Nat) : execGuardTestDone i (some p) s = .next ((s.modSite i fun x =>
    { x with role := .retired, testOk := false, cause := 7, testedAt := s.now }).showRoles.raiseDev 0x041B [item i.val, item p]) :=
  if_neg (by simp [hm, ht])
end

end Sys2Proof.Machine

open Sys2Proof Sys2Proof.Machine

/-- Settles O54, one lemma per command and outcome; an uncorrectable word is changed as `State.BreaksWord` says. -/
theorem scrubAndRepair : Obligations.ScrubAndRepair := by
  refine ⟨?_, ?_, ?_, ?_⟩
  · intro i m a found s w ms other f core step runs
    have hruns : runs ↔ s.scrubs i = true ∧ a < coreMemSize m := by simp only [runs, State.scrubs_iff, and_assoc]
    have hf : scrubFind (s.marksAt i) m (wordAt m a) found = f := scrubFind_eq _ _ _ _
    refine ⟨fun h => execScrubAccess_of_still (mt hruns.2 h), fun h hc => execScrubAccess_of_clean (hruns.1 h) (hf.trans hc),
      fun b h hc => execScrubAccess_of_corrected (hruns.1 h) (hf.trans hc), fun h hc => ?_⟩
    obtain ⟨u, hexec, hu, hmark⟩ := execScrubAccess_of_uncorrectable (hruns.1 h) (hf.trans hc)
    refine ⟨_, hexec, ?_, hu.prog, hu.cores, fun j hj => ?_, ?_, fun m' x hx => ⟨fun c _ => hu.coreBytes c m' x hx, fun _ => ?_⟩⟩
    · rw [State.site_countUe, if_pos rfl, hu.ue]
    · rw [State.site_countUe, if_neg hj, hu.sites j hj]
    · rwa [State.marksAt_countUe]
    · rw [State.mem_site_countUe, hu.siteBytes m' x hx]
  · intro k bank row s hm hs hr h
    exact ⟨execDramPatrolScrub_of_service hm hs hr bank row .clean, execDramPatrolScrub_of_corrected hm hs hr bank row,
      execDramPatrolScrub_of_uncorrectable hm hs hr bank row⟩
  · intro k s x low
    refine ⟨execSoftRepair_of_still, fun r hc hm hs hr => ⟨fun hu => ?_, fun hu f hf => ?_⟩⟩
    · intro t
      have hlow : decide low = x.sparesLow := Bool.eq_iff_iff.2 (decide_eq_true_iff.trans Stack.sparesLow_iff.symm)
      have ht : s.rowRepaired k r = t := by
        simp only [t, hlow]
        rfl
      rw [← ht]
      exact (execSoftRepair_of_spare hc hm hs hr hu).trans (congrArg _ (if_congr Stack.sparesLow_iff rfl rfl))
    · exact ⟨execSoftRepair_of_newFrame hc hm hs hr hu hf, execSoftRepair_of_knownFrame hc hm hs hr hu hf⟩
  · intro i s hm x due
    refine ⟨fun h => (execGuardTestStart_of_main hm).trans (congrArg _ (if_pos h)),
      fun h => (execGuardTestStart_of_main hm).trans (congrArg _ (if_neg h)),
      fun ht => ⟨execGuardTestDone_of_pass hm ht, execGuardTestDone_of_fail hm ht⟩, execGuardTestDone_of_notUnderTest⟩
end

