-- ==== Sys2Proof/Proofs/HostService.lean ====
section
/-!
SUPPORT. What LINK, SURVEY, DIAG_READ and MAINTAIN do when they begin (R226, R229, R245, R274, R277, R324 to R326), one lemma per command
and outcome; `b` is the body of the command.
-/

namespace Sys2Proof.Machine

variable {s : State} {x : Handle} {b : Nat}

/-! ### Bytes written to the host (R325) -/

theorem State.toHost_of_whole (addr : Nat) (bytes : List Byte) (result : Nat) :
    s.toHost x addr bytes none result = (s.hostWrite addr bytes).complete x 0 0 result := rfl

/-- A PCIe error lets the bytes before it through and ends the command with HOST_ACCESS_FAULT. -/
theorem State.toHost_of_error {bytes : List Byte} {k : Nat} (hk : k < bytes.length) (addr result : Nat) :
    s.toHost x addr bytes (some k) result = (s.hostWrite addr (bytes.take k)).complete x 0x0007 k 0 := by
  simp only [State.toHost, written, if_pos hk]

theorem Site.diag_length (y : Site) : y.diag.length = 16 := by
  simp only [Site.diag, List.length_append, leBytes_length]

theorem HostIf.kettleBytes_length (h : HostIf) : h.kettleBytes.length = 768 := by
  simp only [HostIf.kettleBytes, List.length_flatten, List.map_map, Function.comp_def, List.length_append, leBytes_length,
    List.map_const', List.length_range, List.sum_replicate]
  rfl

/-! ### LINK (R274, R277) -/

/-- The lane that a body of LINK names. -/
theorem bodyLane_eq (h : fld b 0 6 < 64) : bodyLane b = ⟨fld b 0 6, h⟩ := Fin.ext (Nat.mod_eq_of_lt h)

section
variable (hb : s.begins x 0x24 = some b)
include hb

theorem execLinkDisable_of_disable (hd : bitOf b 6 = true) :
    execLinkDisable x s = .next ((s.takeDown (bodyLane b) .disabled).complete x 0 0 0) := by
  simp only [execLinkDisable, hb]
  exact if_pos hd

theorem execLinkBringUp_of_enable (hd : bitOf b 6 = false) : execLinkBringUp x s = .next ((s.modLink (bodyLane b) fun k =>
    if k.phase = .disabled ∨ k.phase = .failed ∨ k.phase = .refused then { k with phase := .negotiating } else k).complete x 0 0 0) := by
  simp only [execLinkBringUp, hb]
  exact if_neg (by simp [hd])
end

/-! ### SURVEY (R229) -/

theorem execSurvey_of_begins (hb : s.begins x 0x30 = some b) : execSurvey x s = .next ((s.markBegun x).modHost fun h =>
    { h with surveyWaiting := h.surveyWaiting ++ [x], surveyRunning := true }) := by
  simp only [execSurvey, hb]

/-! ### DIAG_READ (R226, R324, R326) -/

section
variable (hb : s.begins x 0x31 = some b)
include hb

theorem execDiagRead_of_site {i : SiteId} (hi : i.val = fld b 0 8) (err : Option Nat) :
    execDiagRead x err s = .next (s.toHost x (fld b 64 64) (s.site i).diag err 0) := by
  have hlt : fld b 0 8 < 200 := hi ▸ i.isLt
  have hsite : (⟨fld b 0 8, hlt⟩ : SiteId) = i := Fin.ext hi.symm
  simp only [execDiagRead, hb]
  rw [if_neg (by omega), dif_pos hlt, hsite]

theorem execDiagRead_of_badSite (hs : 200 ≤ fld b 0 8) (hk : fld b 0 8 ≠ 0xFF) (err : Option Nat) :
    execDiagRead x err s = .next (s.badField x 0) := by
  simp only [execDiagRead, hb]
  rw [if_neg hk, dif_neg (not_lt.2 hs)]

theorem execDiagReadKettleTable_of_kettleTable (hk : fld b 0 8 = 0xFF) (err : Option Nat) :
    execDiagReadKettleTable x err s = .next (s.toHost x (fld b 64 64) s.host.kettleBytes err 0) := by
  simp only [execDiagReadKettleTable, hb]
  exact if_neg (not_not.2 hk)
end

/-! ### MAINTAIN (R245) -/

section
variable (hb : s.begins x 0x32 = some b)
include hb

theorem execMaintain_of_noRepair (hr : bitOf b 0 = false) : execMaintain x s = .next (s.badField x 0) := by
  simp only [execMaintain, hb]
  exact if_pos (by simp [hr])

variable (hr : bitOf b 0 = true)
include hr

theorem execMaintain_of_busy (hp : s.prog.active ≠ none ∨ s.prog.staged ≠ none) :
    execMaintain x s = .next (s.complete x 0x0003 0 0) := by
  simp only [execMaintain, hb]
  rw [if_neg (by simp [hr]), if_pos (by simpa only [Option.isSome_iff_ne_none] using hp)]

theorem execMaintain_of_idle (ha : s.prog.active = none) (hs : s.prog.staged = none) :
    execMaintain x s = .next (s.makeHard.complete x 0 0 s.mc.softRepairs.length) := by
  simp only [execMaintain, hb]
  rw [if_neg (by simp [hr]), if_neg (by simp [ha, hs])]
end

end Sys2Proof.Machine

open Sys2Proof Sys2Proof.Machine

/-- Settles O39, one lemma per command and outcome. -/
theorem hostService : Obligations.HostService := by
  intro x b s lane addr le
  have hlane : bodyLane b = lane := bodyLane_eq lane.isLt
  refine ⟨fun hb => ?_, execSurvey_of_begins, fun hb => ⟨fun i hi => ?_, execDiagRead_of_badSite hb, fun hk => ?_⟩,
    fun hb => ⟨execMaintain_of_noRepair hb, execMaintain_of_busy hb, execMaintain_of_idle hb⟩⟩
  · rw [← hlane]
    exact ⟨execLinkDisable_of_disable hb, execLinkBringUp_of_enable hb⟩
  · intro y bytes
    have hread := execDiagRead_of_site hb hi
    refine ⟨hread none, fun k hk => (hread (some k)).trans ?_⟩
    rw [State.toHost_of_error (y.diag_length ▸ hk)]
    rfl
  · intro pair bytes
    have hread := execDiagReadKettleTable_of_kettleTable hb hk
    refine ⟨hread none, fun k hk => (hread (some k)).trans ?_⟩
    rw [State.toHost_of_error (s.host.kettleBytes_length ▸ hk)]
    rfl
end

