-- ==== Sys2Proof/Proofs/LinkBringUp.lean ====
section
/-!
SUPPORT. How a lane comes up through the phases of R274 and goes down again (R277), one lemma per command and outcome.
-/

namespace Sys2Proof.Machine

variable {s : State} {l : LaneId}

/-! ### The phases of a lane (R274, R371, R372) -/

/-- One lane enters a phase. -/
def State.setPhase (s : State) (l : LaneId) (p : LinkPhase) : State := s.modLink l fun k => { k with phase := p }

/-- The lanes of the module are powered and their clocks run (R371, R372). -/
def State.lanesRun (s : State) : Bool := s.pwr.main && s.mainClocks

theorem State.lanesRun_of_clocks (hm : s.pwr.main = true) (hc : s.mainClocks = true) : s.lanesRun = true := by
  rw [State.lanesRun, hm, hc, Bool.and_self]

theorem State.lanesRun_of_stopped (h : s.pwr.main = false ∨ s.mainClocks = false) : s.lanesRun = false := by
  rcases h with h | h
  · rw [State.lanesRun, h, Bool.false_and]
  · rw [State.lanesRun, h, Bool.and_false]

theorem State.stopped_or (h : s.pwr.main = false ∨ s.mainClocks = false) (p : Prop) :
    (!s.pwr.main) = true ∨ (!s.mainClocks) = true ∨ p := by
  rw [Bool.not_eq_true', Bool.not_eq_true', ← or_assoc]
  exact .inl h

theorem phaseDone_eq (now next : LinkPhase) (ok : Bool) : phaseDone l now next ok s =
    if s.lanesRun = true ∧ (s.link l).phase = now then s.setPhase l (if ok then next else .failed) else s := by
  simp only [phaseDone, State.lanesRun, Bool.and_eq_true, decide_eq_true_eq]
  rfl

theorem execPcsBlockLock_eq (ok : Bool) : execPcsBlockLock l ok s = .next (
    if s.lanesRun = true ∧ (s.link l).phase = .locking then
      if ok then (s.setPhase l .records).sendPartner l else s.setPhase l .failed
    else s) := by
  rw [execPcsBlockLock, phaseDone_eq]
  by_cases h : s.lanesRun = true ∧ (s.link l).phase = .locking
  · have hgate : s.pwr.main = true ∧ s.mainClocks = true ∧ (s.link l).phase = .locking := by
      simpa [State.lanesRun, and_assoc] using h
    cases ok
    · rw [if_pos h, if_pos h, if_neg fun hx => Bool.false_ne_true hx.1]
      rfl
    · rw [if_pos h, if_pos h, if_pos ⟨rfl, hgate⟩]
      rfl
  · have hgate : ¬ (s.pwr.main = true ∧ s.mainClocks = true ∧ (s.link l).phase = .locking) := by
      simpa [State.lanesRun, and_assoc] using h
    rw [if_neg h, if_neg h, if_neg fun hx => hgate hx.2]

theorem execLinkRetry_eq : execLinkRetry l s = .next (
    if s.lanesRun = true ∧ ((s.link l).phase = .failed ∨ (s.link l).phase = .refused) then s.setPhase l .negotiating else s) := by
  simp only [execLinkRetry, act_eq, State.lanesRun, Bool.and_eq_true, Bool.or_eq_true, beq_iff_eq]
  rfl

/-! ### The partner record (R277, R282) -/

/-- FEC, CRC or a reserved field of the record is in error. -/
abbrev recordBad (f : Flit) : Prop :=
  f.fecBad = true ∨ flitCrcOk f.bits.toNat = false ∨ partnerReserved f.bits.toNat = false

/-- The record names this node, and not both numbers are such as no node keeps (R284). -/
abbrev State.recordSame (s : State) (r : Nat) : Prop :=
  prNode r = s.fab.nodeId.toNat ∧ ¬ (prIdSource r = 2 ∧ s.fab.idSource = 2)

/-- The record of a node of the own domain states another skew budget. -/
abbrev State.recordWide (s : State) (r : Nat) : Prop :=
  nodeDomain (prNode r) = nodeDomain s.fab.nodeId.toNat ∧ prBudget r ≠ s.skewBudget

/-- The lane has left phase 4 with a record of its partner. -/
abbrev Link.recordTaken (k : Link) : Prop := k.phase = .up ∨ k.phase = .joining ∨ k.phase = .timing

theorem Link.phase_ne_records_of_taken {k : Link} (h : k.recordTaken) : k.phase ≠ .records := by
  rintro hr
  rcases h with h | h | h <;> exact nomatch hr.symm.trans h

theorem State.refusePartner_eq (f : Flit) : s.refusePartner f =
    if recordBad f then some 1
    else if prLevel f.bits.toNat < 3 then some 2
    else if s.recordSame f.bits.toNat then some 3
    else if s.recordWide f.bits.toNat then some 4
    else none := by
  simp only [State.refusePartner, Bool.not_eq_true', decide_eq_false_iff_not]

/-- A lane takes partner records in phase 4 and after it. -/
theorem Link.readsRecord_iff {k : Link} :
    (k.open || k.phase == .records || k.phase == .timing) = true ↔ k.phase = .records ∨ k.recordTaken := by
  simp only [Bool.or_eq_true, Link.open_iff, beq_iff_eq, Link.recordTaken]
  tauto

theorem execPartner_of_stopped (h : s.pwr.main = false ∨ s.mainClocks = false) (f : Flit) : execPartner l f s = .next s :=
  if_pos (State.stopped_or h _)

theorem execPartner_of_unread {f : Flit}
    (h : fld f.bits.toNat 0 4 ≠ 7 ∨ ((s.link l).phase ≠ .records ∧ ¬ (s.link l).recordTaken)) : execPartner l f s = .next s := by
  refine if_pos (.inr (.inr ?_))
  rcases h with h | ⟨hp, ht⟩
  · exact .inl h
  · refine .inr ?_
    rw [Bool.not_eq_true', Bool.eq_false_iff]
    exact fun hx => (Link.readsRecord_iff.1 hx).elim hp ht

section
variable {f : Flit} (hm : s.pwr.main = true) (hc : s.mainClocks = true) (h7 : fld f.bits.toNat 0 4 = 7)
include hm hc h7

section
variable (hp : (s.link l).phase = .records ∨ (s.link l).recordTaken)
include hp

theorem execPartner_reads : ¬ ((!s.pwr.main) = true ∨ (!s.mainClocks) = true ∨ fld f.bits.toNat 0 4 ≠ 7
    ∨ (!((s.link l).open || (s.link l).phase == .records || (s.link l).phase == .timing)) = true) := by
  simp [hm, hc, h7, -Bool.or_eq_true, Link.readsRecord_iff.2 hp]

theorem execPartner_of_refused {n : Nat} (hr : s.refusePartner f = some n) :
    execPartner l f s = .next ((s.takeDown l .refused).raiseDev 0x0411 [item l.val, item n]) := by
  refine (if_neg (execPartner_reads hm hc h7 hp)).trans ?_
  rw [hr]
  rfl

theorem execPartner_of_good (hr : s.refusePartner f = none) : execPartner l f s =
    if (s.link l).phase = .records then .next ((s.modLink l fun k =>
      { k with phase := .timing, partner := BitVec.ofNat 16 (prNode f.bits.toNat), record := f.bits, samples := [] }).sendSync l)
    else if prSerial f.bits.toNat ≠ prSerial (s.link l).record.toNat ∨ prNode f.bits.toNat ≠ prNode (s.link l).record.toNat then
      .next (s.takeDown l (if (s.link l).phase = .up then .negotiating else .failed))
    else .next (s.modLink l fun k => { k with record := f.bits }) := by
  refine (if_neg (execPartner_reads hm hc h7 hp)).trans ?_
  rw [hr]
end

end

/-! ### The timing exchange (R275, R276) -/

/-- Half of the round trip less half of the four fixed figures, in 0.1 ns (R275). -/
def Link.cableDelay (k : Link) : Int :=
  (k.roundTrip - (txFixed + rxFixed + prTxFixed k.record.toNat + prRxFixed k.record.toNat : Nat)) / 2

/-- The round trip is below its least, or the cable delay is outside 0 to 20 ns (R276). -/
abbrev Link.outsideLimits (k : Link) : Prop := k.roundTrip < 3720 ∨ k.cableDelay < 0 ∨ 200 < k.cableDelay

theorem State.takeDown_of_timing (hp : (s.link l).phase = .timing) (p : LinkPhase) :
    s.takeDown l p = s.modLink l (·.cut p) := by
  rw [State.takeDown, hp]

theorem State.joinDomain_eq : s.joinDomain l =
    if nodeDomain (s.link l).partner.toNat = nodeDomain s.fab.nodeId.toNat ∧ s.prog.active = none ∧ s.prog.staged = none
      ∧ s.isRoot = true ∧ s.aloneAligned = true
    then s.modCad fun c => { c with aligned := false } else s := by
  simp only [State.joinDomain, Bool.and_eq_true, beq_iff_eq, Option.isNone_iff_eq_none, and_assoc]

theorem execTimingExchangeDone_of_stopped (h : s.pwr.main = false ∨ s.mainClocks = false) (ok : Bool) :
    execTimingExchangeDone l ok s = .next s := if_pos (State.stopped_or h _)

theorem execTimingExchangeDone_of_otherPhase (hp : (s.link l).phase ≠ .timing) (ok : Bool) :
    execTimingExchangeDone l ok s = .next s := if_pos (.inr (.inr hp))

section
variable (hm : s.pwr.main = true) (hc : s.mainClocks = true) (hp : (s.link l).phase = .timing)
include hm hc hp

theorem execTimingExchangeDone_of_failed : execTimingExchangeDone l false s = .next (s.takeDown l .failed) := by
  rw [State.takeDown_of_timing hp]
  exact (if_neg (by simp [hm, hc, hp])).trans (if_pos rfl)

theorem execTimingExchangeDone_of_timing : execTimingExchangeDone l true s =
    if (s.link l).samples.length ≠ 256 then .next s
    else if 4280 < (s.link l).roundTrip then .next ((s.takeDown l .refused).raiseDev 0x0411 [item l.val, item 5])
    else if (s.link l).outsideLimits then .next (s.takeDown l .failed)
    else .next (((s.joinDomain l).modLink l fun k => { k with
      phase := .joining, latency := BitVec.ofInt 16 (((s.link l).roundTrip + 10) / 20),
      cable := BitVec.ofInt 16 (s.link l).cableDelay }).topologyChanged.advertise) := by
  rw [State.takeDown_of_timing hp .failed]
  exact (if_neg (by simp [hm, hc, hp])).trans (if_neg (by simp))
end

/-! ### Links up at a flip, and down (R274, R277) -/

/-- From `s` to `t` every lane stays in its phase. -/
def State.KeepsPhases (s t : State) : Prop := ∀ m, (t.link m).phase = (s.link m).phase

section
variable {t u : State}

theorem State.KeepsPhases.refl (s : State) : s.KeepsPhases s := fun _ => rfl

theorem State.KeepsPhases.trans (h : s.KeepsPhases t) (k : t.KeepsPhases u) : s.KeepsPhases u := fun m => (k m).trans (h m)

theorem State.KeepsPhases.of_links (h : t.fab.links = s.fab.links) : s.KeepsPhases t := fun m => by rw [State.link, State.link, h]

theorem State.KeepsPhases.foldl {α : Type} {f : State → α → State} (hf : ∀ (s : State) (x : α), s.KeepsPhases (f s x)) (xs : List α)
    (s : State) : s.KeepsPhases (xs.foldl f s) :=
  fun m => foldl_keeps (fun s => (s.link m).phase) (fun s x => hf s x m) xs s

theorem State.modLink_keepsPhases (l : LaneId) {f : Link → Link} (hf : ∀ k, (f k).phase = k.phase) : s.KeepsPhases (s.modLink l f) := by
  intro m
  rw [State.link_modLink]
  split
  · next h => rw [hf, h]
  · rfl

theorem State.emit_keepsPhases (s : State) (lane : Option LaneId) (vc : BitVec 2) (timed : Bool) (src : BitVec 16) (seq : W32) (flits : Nat)
    (transit : Option Transfer) (header : BitVec 512) (m : Msg) :
    s.KeepsPhases (s.emit lane vc timed src seq flits transit header m) := by
  simp only [State.emit]
  split
  · split <;> exact .of_links rfl
  · exact State.modLink_keepsPhases (s := s.modFab _) _ fun _ => rfl

theorem State.sendPartner_keepsPhases (s : State) (l : LaneId) : s.KeepsPhases (s.sendPartner l) := by
  rw [State.sendPartner, State.sendLink]
  exact s.emit_keepsPhases _ _ _ _ _ _ _ _ _

theorem State.resendPartner_keepsPhases : s.KeepsPhases s.resendPartner :=
  .foldl State.sendPartner_keepsPhases _ (s.modFab fun f => { f with partnerSeq := f.partnerSeq + 1 })

theorem State.noteRoot_keepsPhases : s.KeepsPhases s.noteRoot := by
  simp only [State.noteRoot]
  split
  · exact .refl s
  · refine State.KeepsPhases.trans ?_ State.resendPartner_keepsPhases
    exact .of_links rfl

theorem State.retryEscape_keepsPhases : s.KeepsPhases s.retryEscape := by
  refine .foldl (fun s e => ?_) _ s
  split
  · exact State.modLink_keepsPhases (s := s.modFab _) _ fun _ => rfl
  · exact .refl s
end

/-- The lanes of a list come up, the others stay. -/
theorem State.phase_foldl_setPhase_up (ls : List LaneId) (s : State) (m : LaneId) :
    ((ls.foldl (fun s l => s.setPhase l .up) s).link m).phase = if m ∈ ls then .up else (s.link m).phase := by
  induction ls generalizing s with
  | nil => simp
  | cons l ls ih =>
    rw [List.foldl_cons, ih, State.setPhase, State.link_modLink]
    by_cases hm : m = l <;> simp [hm]

theorem State.flipTables_phase (s : State) (m : LaneId) :
    (s.flipTables.link m).phase = if (s.link m).phase = .joining then .up else (s.link m).phase := by
  have hnew : m ∈ allLanes.filter (fun l => (s.link l).phase == .joining) ↔ (s.link m).phase = .joining := by
    simp [allLanes, List.mem_finRange]
  have hevents (u : State) (ls : List LaneId) :
      u.KeepsPhases (ls.foldl (fun s l => s.raiseDev 0x0410 [item l.val, item (s.link l).partner.toNat]) u) :=
    .foldl (fun s l => .of_links (congrArg Fabric.links (s.raiseDev_fab _ _))) ls u
  have hup := State.phase_foldl_setPhase_up (allLanes.filter fun l => (s.link l).phase == .joining)
    (s.modFab fun f => { f with active := f.shadow, shadow := f.active, flipReady := false }) m
  simp only [hnew] at hup
  refine Eq.trans ?_ hup
  simp only [State.flipTables]
  split
  · exact hevents _ _ m
  · exact ((hevents _ _).trans (State.noteRoot_keepsPhases.trans State.retryEscape_keepsPhases)) m

/-- A lane that was up goes down as R277 says. -/
theorem State.takeDown_of_up (hp : (s.link l).phase = .up) (p : LinkPhase) : s.takeDown l p =
    (((s.failLane l).modLink l fun k => { k.cut p with sched := false }).raiseDev 0x040F
      [item l.val, item (s.link l).partner.toNat]).topologyChanged.advertise.dropLost := by
  rw [State.takeDown, hp]
  rfl

theorem execLinkDown_eq (cause : LinkDownCause) (hm : s.pwr.main = true) : execLinkDown l cause s = .next (
    if (s.link l).phase = .up ∨ (s.link l).phase = .joining then
      s.takeDown l (if cause = .disabled then .disabled else if (s.link l).phase = .up then .negotiating else .failed) else s) := by
  simp only [execLinkDown, act_eq, hm, Bool.true_and, Link.open_iff]

end Sys2Proof.Machine

open Sys2Proof Sys2Proof.Machine

/-- Settles O50, one lemma per command and outcome. -/
theorem linkBringUp : Obligations.LinkBringUp := by
  refine ⟨fun l s h => ?_, fun l s hm hc => ?_⟩
  · have hstop : ¬ s.lanesRun = true := by simp [State.lanesRun_of_stopped h]
    have hphase (now next : LinkPhase) (ok : Bool) : phaseDone l now next ok s = s :=
      (phaseDone_eq now next ok).trans (if_neg fun hx => hstop hx.1)
    exact ⟨execLinkRetry_eq.trans (congrArg _ (if_neg fun hx => hstop hx.1)), execPartner_of_stopped h, fun ok =>
      ⟨congrArg _ (hphase _ _ ok), congrArg _ (hphase _ _ ok),
        (execPcsBlockLock_eq ok).trans (congrArg _ (if_neg fun hx => hstop hx.1)), execTimingExchangeDone_of_stopped h ok⟩⟩
  have hrun := State.lanesRun_of_clocks hm hc
  intro k go lost
  refine ⟨fun ok => ?_, ?_, fun f => ?_, fun hp p => ?_, ?_, s.flipTables_phase, fun cause => ?_⟩
  · have hends {now next : LinkPhase} (hp : k.phase = now) : phaseDone l now next ok s = go (if ok then next else .failed) :=
      (phaseDone_eq now next ok).trans (if_pos ⟨hrun, hp⟩)
    have hstays {now next : LinkPhase} (hp : k.phase ≠ now) : phaseDone l now next ok s = s :=
      (phaseDone_eq now next ok).trans (if_neg fun hx => hp hx.2)
    exact ⟨fun hp => congrArg _ (hends hp), fun hp => congrArg _ (hstays hp), fun hp => congrArg _ (hends hp),
      fun hp => congrArg _ (hstays hp), fun hp => (execPcsBlockLock_eq ok).trans (congrArg _ (if_pos ⟨hrun, hp⟩)),
      fun hp => (execPcsBlockLock_eq ok).trans (congrArg _ (if_neg fun hx => hp hx.2))⟩
  · exact execLinkRetry_eq.trans (congrArg _ (by simp only [hrun, true_and]; rfl))
  · intro r bad refuse same wide good taken other
    have hreason := s.refusePartner_eq f
    have hnone (hg : good) : s.refusePartner f = none := by
      obtain ⟨hb, hl, hs, hw⟩ := hg
      rw [hreason, if_neg hb, if_neg (not_lt.2 hl), if_neg hs, if_neg hw]
    refine ⟨execPartner_of_unread, fun h7 hp => ?_, fun h7 hp hg => ?_, fun h7 ht hg => ?_⟩
    · have href {n : Nat} (hr : s.refusePartner f = some n) : refuse n := execPartner_of_refused hm hc h7 hp hr
      exact ⟨fun hb => href (by rw [hreason, if_pos hb]), fun hb hl => href (by rw [hreason, if_neg hb, if_pos hl]),
        fun hb hl hs => href (by rw [hreason, if_neg hb, if_neg (not_lt.2 hl), if_pos hs]),
        fun hb hl hs hw => href (by rw [hreason, if_neg hb, if_neg (not_lt.2 hl), if_neg hs, if_pos hw])⟩
    · exact (execPartner_of_good hm hc h7 (.inl hp) (hnone hg)).trans (if_pos hp)
    · have hgood := (execPartner_of_good hm hc h7 (.inr ht) (hnone hg)).trans (if_neg (Link.phase_ne_records_of_taken ht))
      exact ⟨fun ho => hgood.trans (if_pos ho), fun ho => hgood.trans (if_neg ho)⟩
  · exact State.takeDown_of_up hp p
  · intro n cable alone short
    refine ⟨fun h => ?_, ?_, fun hp hl => ?_⟩
    · by_cases hp : k.phase = .timing
      · exact (execTimingExchangeDone_of_timing hm hc hp).trans (if_pos (h.resolve_left (not_not_intro hp)))
      · exact execTimingExchangeDone_of_otherPhase hp true
    · split
      · next hp => exact execTimingExchangeDone_of_failed hm hc hp
      · next hp => exact execTimingExchangeDone_of_otherPhase hp false
    · have hdone := (execTimingExchangeDone_of_timing hm hc hp).trans (if_neg (not_not_intro hl))
      rw [State.joinDomain_eq] at hdone
      exact ⟨fun hn => hdone.trans (if_pos hn), fun hn hs => hdone.trans ((if_neg (not_lt.2 hn)).trans (if_pos hs)),
        fun hn hs => hdone.trans ((if_neg (not_lt.2 hn)).trans (if_neg hs))⟩
  · have hdown := execLinkDown_eq (l := l) cause hm
    refine ⟨fun hu hj => hdown.trans (congrArg _ (if_neg fun h => h.elim hu hj)), fun hu => ?_, fun hj => ?_⟩
    · rw [if_pos (.inl hu), if_pos hu] at hdown
      exact hdown.trans (congrArg _ (State.takeDown_of_up hu _))
    · have hu : (s.link l).phase ≠ .up := fun hu => nomatch hj.symm.trans hu
      rw [if_pos (.inr hj), if_neg hu] at hdown
      exact hdown
end

