-- ==== Sys2Proof/Proofs/FabricOnly.lean ====
section
/-!
SUPPORT. Messages of the fabric change the fabric alone: what sending, flooding and an advertisement leave.
-/

namespace Sys2Proof.Machine

variable {s t u : State}

/-- From `s` to `t` the fabric alone changes. -/
def State.FabricOnly (s t : State) : Prop := ∃ f, t = { s with fab := f }

namespace State.FabricOnly

theorem refl (s : State) : s.FabricOnly s := ⟨_, rfl⟩

theorem trans (h : s.FabricOnly t) (k : t.FabricOnly u) : s.FabricOnly u := by
  obtain ⟨f, rfl⟩ := h
  obtain ⟨g, rfl⟩ := k
  exact ⟨g, rfl⟩

theorem foldl {α : Type} {f : State → α → State} (hf : ∀ (s : State) (x : α), s.FabricOnly (f s x)) (xs : List α) (s : State) :
    s.FabricOnly (xs.foldl f s) := by
  induction xs generalizing s with
  | nil => exact .refl s
  | cons x xs ih => exact (hf s x).trans (ih _)

theorem prog (h : s.FabricOnly t) : t.prog = s.prog := by obtain ⟨f, rfl⟩ := h; rfl

theorem host (h : s.FabricOnly t) : t.host = s.host := by obtain ⟨f, rfl⟩ := h; rfl

theorem pwr (h : s.FabricOnly t) : t.pwr = s.pwr := by obtain ⟨f, rfl⟩ := h; rfl

end State.FabricOnly

theorem State.modFab_fabricOnly (s : State) (f : Fabric → Fabric) : s.FabricOnly (s.modFab f) := ⟨_, rfl⟩

theorem State.emit_fabricOnly (s : State) (lane : Option LaneId) (vc : BitVec 2) (timed : Bool) (src : BitVec 16) (seq : W32) (flits : Nat)
    (transit : Option Transfer) (header : BitVec 512) (m : Msg) :
    s.FabricOnly (s.emit lane vc timed src seq flits transit header m) := by
  simp only [State.emit]
  split
  · split <;> exact ⟨_, rfl⟩
  · exact ⟨_, rfl⟩

theorem State.sendAs_fabricOnly (s : State) (dst : BitVec 16) (seq : W32) (escape : Bool) (m : Msg) :
    s.FabricOnly (s.sendAs dst seq escape m) := by
  simp only [State.sendAs]
  split
  · exact .refl s
  · exact s.emit_fabricOnly _ _ _ _ _ _ _ _ _

theorem State.sendDyn_fabricOnly (s : State) (dst : BitVec 16) (i : Initiator) (m : Msg) : s.FabricOnly (s.sendDyn dst i m) := by
  simp only [State.sendDyn]
  split
  · exact .refl s
  · exact (s.sendAs_fabricOnly _ _ _ _).trans (State.modFab_fabricOnly _ _)

theorem State.sendMembers_fabricOnly (s : State) (m : Msg) : s.FabricOnly (s.sendMembers m) :=
  .foldl (fun s n => s.sendDyn_fabricOnly n _ m) _ s

theorem State.flood_fabricOnly (s : State) (but : Option LaneId) (m : Msg) : s.FabricOnly (s.flood but m) := by
  simp only [State.flood]
  split
  · exact .refl s
  · exact .foldl (fun s l => (s.emit_fabricOnly _ _ _ _ _ _ _ _ _).trans (State.modFab_fabricOnly _ _)) _ s

theorem State.advertise_fabricOnly (s : State) : s.FabricOnly s.advertise := by
  simp only [State.advertise]
  split
  · exact (s.modFab_fabricOnly _).trans (State.flood_fabricOnly _ _ _)
  · exact .refl s

theorem State.sendPartner_fabricOnly (s : State) (l : LaneId) : s.FabricOnly (s.sendPartner l) := by
  rw [State.sendPartner, State.sendLink]
  exact s.emit_fabricOnly _ _ _ _ _ _ _ _ _

theorem State.resendPartner_fabricOnly (s : State) : s.FabricOnly s.resendPartner :=
  (s.modFab_fabricOnly _).trans (.foldl State.sendPartner_fabricOnly _ _)

/-- The cover of lost ranks: whether the domain runs in cover mode, and which ranks this node covers (R302, R303). -/
def State.coverOf (s : State) : Bool × List (BitVec 10) := (s.fab.cover, s.fab.covering)

theorem State.emit_coverOf (s : State) (lane : Option LaneId) (vc : BitVec 2) (timed : Bool) (src : BitVec 16) (seq : W32) (flits : Nat)
    (transit : Option Transfer) (header : BitVec 512) (m : Msg) :
    (s.emit lane vc timed src seq flits transit header m).coverOf = s.coverOf := by
  simp only [State.emit]
  split
  · split <;> rfl
  · rfl

theorem State.sendDyn_coverOf (s : State) (dst : BitVec 16) (i : Initiator) (m : Msg) : (s.sendDyn dst i m).coverOf = s.coverOf := by
  simp only [State.sendDyn, State.sendAs]
  split
  · rfl
  · exact s.emit_coverOf _ _ _ _ _ _ _ _ _

theorem State.sendMembers_coverOf (s : State) (m : Msg) : (s.sendMembers m).coverOf = s.coverOf :=
  foldl_keeps State.coverOf (fun s n => s.sendDyn_coverOf n _ m) _ s

end Sys2Proof.Machine
end

