-- ==== Sys2Proof/Proofs/MirrorsAndRecovery.lean ====
section
/-!
SUPPORT. What a partner takes of a mirror, the end of a shipment, cover mode begun and ended, the survey, the loss of a stack and the end of
a replay (R229 to R242, R296 to R305), one lemma per command and outcome.
-/

namespace Sys2Proof.Machine

variable {s : State} {img : Image}

/-! ### Continuous records (R297) -/

/-- The record that changed pages make of the latest one, cut to the length that it states. -/
def Protected.recordWith (p : Protected) (pages : List (Nat × List Byte)) : List Byte :=
  (applyPages p.record pages).take (rdAt (applyPages p.record pages) 24 8)

theorem Protected.take_arriving (p : Protected) (step : W64) (pages : List (Nat × List Byte)) :
    (p.take step pages).arriving = if recordWhole (p.recordWith pages) then [] else p.recordWith pages := by
  rw [Protected.take]
  exact apply_ite Protected.arriving _ _ _

section
variable {n : BitVec 16} {st : W64} {q : W32} {pages : List (Nat × List Byte)}

/-- Continuous records of a node are taken where its continuous class is bound here. -/
theorem protects_any_iff {ps : List Protected} :
    (ps.any fun p => p.node == n && p.continuous) = true ↔ ∃ p ∈ ps, p.node = n ∧ p.continuous = true := by
  simp

theorem execContinuousRecord_of_unbound (h : ∀ p ∈ s.fab.protects, p.node = n → p.continuous = false) :
    execContinuousRecord n st q pages s = .next s := by
  have hnone : (s.fab.protects.any fun p => p.node == n && p.continuous) = false := Bool.eq_false_iff.2 fun ha => by
    obtain ⟨p, hp, hn, hc⟩ := protects_any_iff.1 ha
    exact Bool.false_ne_true ((h p hp hn).symm.trans hc)
  rw [execContinuousRecord, hnone, Bool.and_false]
  rfl

theorem execContinuousRecord_of_noStore (h : s.fab.store = none) : execContinuousRecord n st q pages s = .next s := by
  rw [execContinuousRecord, h, Option.isSome_none, Bool.and_false]
  rfl

section
variable (hm : s.pwr.main = true) (hs : s.fab.store.isSome = true)
include hm hs

theorem execContinuousRecord_of_bound (hb : ∃ p ∈ s.fab.protects, p.node = n ∧ p.continuous = true) :
    execContinuousRecord n st q pages s = .next (if s.recordComes n pages = true then
      (s.takeRecord n st pages).sendAs n q false .ack else s.takeRecord n st pages) := by
  rw [execContinuousRecord, hm, hs, protects_any_iff.2 hb]
  rfl

theorem execContinuousRecord_of_whole
    (hw : ∃ p ∈ s.fab.protects, p.node = n ∧ p.continuous = true ∧ recordWhole (p.recordWith pages) = true) :
    execContinuousRecord n st q pages s = .next ((s.takeRecord n st pages).sendAs n q false .ack) := by
  obtain ⟨p, hp, hn, hc, hr⟩ := hw
  have hcomes : s.recordComes n pages = true := by
    rw [State.recordComes_eq_true_iff]
    exact fun hall => hall p hp hn hc (by rw [Protected.take_arriving, if_pos hr])
  rw [execContinuousRecord_of_bound hm hs ⟨p, hp, hn, hc⟩, if_pos hcomes]

theorem execContinuousRecord_of_broken (hb : ∃ p ∈ s.fab.protects, p.node = n ∧ p.continuous = true)
    (hr : ∀ p ∈ s.fab.protects, p.node = n → p.continuous = true → recordWhole (p.recordWith pages) = false ∧ p.recordWith pages ≠ []) :
    execContinuousRecord n st q pages s = .next (s.takeRecord n st pages) := by
  have hcomes : ¬ s.recordComes n pages = true := by
    rw [State.recordComes_eq_true_iff, not_not]
    intro p hp hn hc
    obtain ⟨hbad, hne⟩ := hr p hp hn hc
    rwa [Protected.take_arriving, hbad, if_neg Bool.false_ne_true]
  rw [execContinuousRecord_of_bound hm hs hb, if_neg hcomes]
end
end

/-! ### Shipments (R299, R300) -/

section
variable {i : Fin 64}

theorem execCheckpointComplete_of_noShipment (hf : s.prog.shipping.find? (fun x => x.1 = i.val) = none) :
    execCheckpointComplete i s = .next s := by
  rw [execCheckpointComplete, hf]
  cases s.prog.active <;> rfl

section
variable {k : Nat} {n : W64} (ha : s.prog.active = some img) (hf : s.prog.shipping.find? (fun x => x.1 = i.val) = some (k, n))
include ha hf

theorem execCheckpointComplete_of_outstanding (ho : ∃ o ∈ s.fab.outstanding, o.body.shipment = some (k, n)) :
    execCheckpointComplete i s = .next s := by
  rw [execCheckpointComplete, ha, hf]
  exact if_pos (by simpa using ho)

theorem execCheckpointComplete_of_acknowledged (ho : ∀ o ∈ s.fab.outstanding, o.body.shipment ≠ some (k, n)) :
    execCheckpointComplete i s = .next (((s.modProg fun p =>
      { p with shipping := p.shipping.filter (·.1 ≠ k), shipped := (k, n) :: p.shipped.filter (·.1 ≠ k) }).raiseStep 0x030D noCore
        (item k :: item2 n.toNat)).checkpointAtPartner img) := by
  rw [execCheckpointComplete, ha, hf]
  exact if_neg (by simpa using ho)
end
end

/-! ### Cover mode begins (R302 to R304) -/

theorem State.domainProgram_eq_some_iff : s.domainProgram = some img ↔
    s.prog.active = some img ∧ 1 < img.bounds.devices ∧ s.prog.phase = .steps := by
  simp only [State.domainProgram]
  split
  next x hx =>
    rw [hx]
    constructor
    · intro h
      split at h
      next hc =>
        obtain rfl := Option.some.inj h
        exact ⟨rfl, hc⟩
      next => cases h
    · rintro ⟨h, hc⟩
      obtain rfl := Option.some.inj h
      exact if_pos hc
  next hx => simp [hx]

theorem State.domainProgram_of_idle (ha : s.prog.active = none) : s.domainProgram = none := by
  rw [State.domainProgram, ha]

theorem execCoverBegin_of_notDue (hf : s.fab.coverFrom = none) : execCoverBegin s = .next s := by
  rw [execCoverBegin, hf]

theorem execCoverBegin_of_member {st last : W64} (hd : s.domainProgram = some img) (hf : s.fab.coverFrom = some (st, last)) :
    execCoverBegin s = .next (if s.cad.hold = true ∧ s.restoring = true
      then (s.modFab fun f => { f with coverFrom := none }).beginCover img st else s) := by
  simp only [execCoverBegin, hf, hd, act_eq, Bool.and_eq_true]

theorem execCoverBegin_of_standby {p : Protected} {st last : W64} (hf : s.fab.coverFrom = some (st, last)) (ha : s.prog.active = none)
    (hs : s.prog.staged = some img) (hd : 1 < img.bounds.devices) (hp : s.fab.protects.find? (fun p => p.cover = 1) = some p) :
    execCoverBegin s = .next ((s.modFab fun f => { f with coverFrom := none }).standIn img p st last) := by
  simp only [execCoverBegin, hf, State.domainProgram_of_idle ha, ha, hs, hp, act_eq]
  rw [if_pos (decide_eq_true hd)]

theorem State.requestInput_prog (s : State) (i : W64 × W64) :
    (s.requestInput i).prog = { s.prog with inputWant := s.prog.inputWant ++ [i] } := by
  simp [State.requestInput]

theorem State.requestInput_fab (s : State) (i : W64 × W64) : (s.requestInput i).fab = s.fab := by
  simp [State.requestInput]

theorem State.replayFrom_fab (s : State) (k : Continuous) (last : W64) (inputs : List (W64 × W64)) :
    (s.replayFrom k last inputs).fab = s.fab :=
  foldl_keeps State.fab State.requestInput_fab _ (s.modProg fun p => { p with inputWant := [] })

/-- A replay keeps the program and its step; it lasts to the step named, where that lies after the checkpoint. -/
theorem State.replayFrom_prog (s : State) (k : Continuous) (last : W64) (inputs : List (W64 × W64)) :
    (s.replayFrom k last inputs).prog.active = s.prog.active ∧ (s.replayFrom k last inputs).prog.step = s.prog.step
      ∧ (s.replayFrom k last inputs).prog.replayTo = if k.step.toNat < last.toNat then some last else none :=
  ⟨foldl_keeps (fun s => s.prog.active) (fun s i => by rw [State.requestInput_prog]) _ (s.modProg fun p => { p with inputWant := [] }),
    foldl_keeps (fun s => s.prog.step) (fun s i => by rw [State.requestInput_prog]) _ (s.modProg fun p => { p with inputWant := [] }), rfl⟩

theorem State.resumeNow_prog (s : State) : s.resumeNow.prog = s.prog := by
  simp only [State.resumeNow]
  split
  · exact (s.sendMembers_fabricOnly _).prog
  · rfl

theorem State.resumeNow_coverOf (s : State) : s.resumeNow.coverOf = s.coverOf := by
  simp only [State.resumeNow]
  split
  · exact s.sendMembers_coverOf _
  · rfl

theorem State.startProgram_active (s : State) (img : Image) (h : Handle) (ranks : List (BitVec 10 × BitVec 16)) :
    (s.startProgram img h ranks).prog.active = some img := by
  simp only [State.startProgram]
  split
  · rw [(State.advertise_fabricOnly _).prog]
    rfl
  · rfl

theorem State.writeSet_prog (s : State) (img : Image) (g : SetGen) : (s.writeSet img g).prog = s.prog := by
  refine foldl_keeps State.prog (fun s u => ?_) _ s
  split <;> rfl

theorem State.applyState_prog (s : State) (img : Image) (k : Continuous) :
    (s.applyState img k).prog.active = s.prog.active ∧ (s.applyState img k).prog.step = k.step + 1 := by
  have hcores (u : State) : (img.coreList.foldl (fun s c => s.restoreCore img k c) u).prog = u.prog :=
    foldl_keeps State.prog (f := fun s c => s.restoreCore img k c) (fun _ _ => rfl) _ u
  simp only [State.applyState, State.finishCores_prog, State.modCad_prog, State.modFab_prog, hcores]
  exact ⟨rfl, rfl⟩

/-- A node that takes a rank runs its image from the step after the boundary that came (R133, R302, R305). -/
theorem State.adoptRank_prog (s : State) (img : Image) (gens : List SetGen) (record : List Byte) :
    (s.adoptRank img gens record).prog.active = some img
      ∧ (s.adoptRank img gens record).prog.step = (Continuous.ofRecord record).step + 1 := by
  have hsets (u : State) : (gens.foldl (fun s g => s.writeSet img g) u).prog = u.prog :=
    foldl_keeps State.prog (fun s g => s.writeSet_prog img g) _ u
  obtain ⟨hactive, hstep⟩ := State.applyState_prog ((gens.foldl (fun s g => s.writeSet img g)
    (s.startProgram img 0 (s.peerNodes img))).modProg fun p =>
      { p with phase := .steps, handle := none, staged := none, startedRel := true, committed := some (Continuous.ofRecord record).step,
               inputs := inputsOf record, kept := some (Continuous.ofRecord record) }) img (Continuous.ofRecord record)
  rw [State.adoptRank, (State.advertise_fabricOnly _).prog]
  refine ⟨hactive.trans ?_, hstep⟩
  rw [State.modProg_prog, hsets, State.startProgram_active]

theorem State.standIn_eq {p : Protected} {gens : List SetGen} {x : W64 × List Byte} {st : W64} (last : W64)
    (hw : s.wholeSets img p.gens st = some gens) (hx : p.states.find? (fun x => x.1 = st) = some x) : s.standIn img p st last =
      ((((s.adoptRank img gens x.2).modFab fun f => { f with cover := true, covering := [img.bounds.rank], recover := [img.bounds.rank] }).replayFrom
        (Continuous.ofRecord x.2) last (inputsOf p.record)).raise 0x0313 noCore
          [item img.bounds.rank.toNat, item (s.adoptRank img gens x.2).fab.nodeId.toNat]).resumeNow := by
  simp only [State.standIn, hw, hx, State.modFab_fab]

theorem State.standIn_covers {p : Protected} {gens : List SetGen} {x : W64 × List Byte} {st : W64} (last : W64)
    (hw : s.wholeSets img p.gens st = some gens) (hx : p.states.find? (fun x => x.1 = st) = some x) :
    (s.standIn img p st last).coverOf = (true, [img.bounds.rank]) ∧ (s.standIn img p st last).prog.active = some img
      ∧ (s.standIn img p st last).prog.step = (Continuous.ofRecord x.2).step + 1
      ∧ (s.standIn img p st last).prog.replayTo = if (Continuous.ofRecord x.2).step.toNat < last.toNat then some last else none := by
  obtain ⟨hactive, hstep⟩ := s.adoptRank_prog img gens x.2
  rw [State.standIn_eq last hw hx, State.resumeNow_prog, State.resumeNow_coverOf, State.raise_prog]
  obtain ⟨hra, hrs, hrt⟩ := State.replayFrom_prog ((s.adoptRank img gens x.2).modFab fun f =>
    { f with cover := true, covering := [img.bounds.rank], recover := [img.bounds.rank] }) (Continuous.ofRecord x.2) last (inputsOf p.record)
  refine ⟨?_, hra.trans hactive, hrs.trans hstep, hrt⟩
  rw [State.coverOf, State.raise_fab, State.replayFrom_fab]
  rfl

/-! ### Cover mode ends (R305) -/

section
variable {r : BitVec 10}

section
variable (hd : s.domainProgram = some img)
include hd

/-- A node whose domain's program runs ends cover mode as a member. -/
theorem execCoverEnd_of_domainProgram : execCoverEnd r s =
    if s.prog.recovering = true ∧ img.bounds.rank = r then .next ((s.shipped? img).elim s fun x => s.takeBack img x.1 x.2)
    else if s.fab.cover = false ∨ s.fab.recover.contains r = false then .next s
    else if s.fab.covering.contains r = true then
      .next (if img.bounds.rank = r then (s.raise 0x0314 noCore [item r.toNat, item s.fab.nodeId.toNat]).dropRank img r
        else (s.dropRank img r).rankBack img r)
    else .next (s.rankBack img r) := by
  obtain ⟨ha, -, -⟩ := State.domainProgram_eq_some_iff.1 hd
  simp only [execCoverEnd, hd, Bool.not_eq_true']
  split
  next hidle => exact nomatch ha.symm.trans hidle
  next => cases s.shipped? img <;> rfl

theorem execCoverEnd_of_takeBack {gens : List SetGen} {record : List Byte} (hr : s.prog.recovering = true) (hk : img.bounds.rank = r)
    (hs : s.shipped? img = some (gens, record)) : execCoverEnd r s = .next (s.takeBack img gens record) := by
  rw [execCoverEnd_of_domainProgram hd, if_pos ⟨hr, hk⟩, hs]
  rfl

theorem execCoverEnd_of_cover (hc : s.fab.cover = true) (hm : r ∈ s.fab.recover) (hr : s.prog.recovering = false) :
    execCoverEnd r s = .next (
      if r ∈ s.fab.covering then
        if img.bounds.rank = r then (s.raise 0x0314 noCore [item r.toNat, item s.fab.nodeId.toNat]).dropRank img r
        else (s.dropRank img r).rankBack img r
      else s.rankBack img r) := by
  rw [execCoverEnd_of_domainProgram hd, if_neg (by simp [hr]), if_neg (by simp [hc, hm])]
  simp only [List.contains_iff_mem]
  split <;> rfl
end

theorem execCoverEnd_of_seed {h : Handle} {gens : List SetGen} {record : List Byte} (hf : s.fab.seeding = some h)
    (hs : s.prog.staged = some img) (ha : s.prog.active = none) (hk : img.bounds.rank = r) (hw : s.shipped? img = some (gens, record))
    (hal : s.cad.aligned = true) (hl : s.badLink img (s.peerNodes img) = none) (ht : s.canTrim img = true) :
    execCoverEnd r s = .next (
      let old := ((s.advertisers img.bounds.programId r.toNat).find? (· ≠ s.fab.nodeId.toNat)).getD 0xFFFF
      let t := ((s.adoptRank img gens record).enterHold).raise 0x0314 noCore [item r.toNat, item old]
      (t.modFab fun f => { f with seeding := none, seedSets := [], seedState := none }).complete h 0 0 t.prog.step.toNat) := by
  simp only [execCoverEnd, hf, hs, ha, hw]
  exact if_neg (by simp [hk, hal, hl, ht])
end

/-! ### The survey (R228 to R231) -/

/-- The figures of a survey keep what updates of sites, stacks and links and an advertisement keep. -/
theorem State.takeMeasures_keeps {β : Type} (P : State → β) (hsite : ∀ s i f, P (State.modSite s i f) = P s)
    (hstack : ∀ s k f, P (State.modStack s k f) = P s) (hlink : ∀ s l f, P (State.modLink s l f) = P s)
    (hadvert : ∀ s, P (State.advertise s) = P s) (s : State) (m : Measures) : P (s.takeMeasures m) = P s := by
  have hlinks {α : Type} (lane : α → LaneId) (g : α → Link → Link) (xs : List α) (u : State) :
      P (xs.foldl (fun s x => s.modLink (lane x) (g x)) u) = P u := foldl_keeps P (fun s x => hlink s _ _) xs u
  have hsites := foldl_keeps P (f := fun s x => s.modSite x.1 fun y => { y with transit := x.2 }) (fun s x => hsite s _ _) m.siteTransit s
  have hstacks (u : State) := foldl_keeps P (f := fun s x => s.modStack x.1 fun y => { y with lat := x.2 })
    (fun s x => hstack s _ _) m.stackLat u
  simp only [State.takeMeasures]
  split
  · rw [hadvert, hlinks, hlinks, hlinks, hstacks, hsites]
  · rw [hlinks, hlinks, hlinks, hstacks, hsites]

theorem State.takeMeasures_host (s : State) (m : Measures) : (s.takeMeasures m).host = s.host :=
  State.takeMeasures_keeps State.host (fun _ _ _ => rfl) (fun _ _ _ => rfl) (fun _ _ _ => rfl) (fun s => s.advertise_fabricOnly.host) s m

theorem State.takeMeasures_pwr (s : State) (m : Measures) : (s.takeMeasures m).pwr = s.pwr :=
  State.takeMeasures_keeps State.pwr (fun _ _ _ => rfl) (fun _ _ _ => rfl) (fun _ _ _ => rfl) (fun s => s.advertise_fabricOnly.pwr) s m

theorem State.toHost_pwr (s : State) (h : Handle) (a : Nat) (bytes : List Byte) (e : Option Nat) (r : Nat) :
    (s.toHost h a bytes e r).pwr = s.pwr := by
  simp only [State.toHost]
  split <;> rw [State.complete_pwr, State.hostWrite_pwr]

theorem State.answerSurvey_pwr (s : State) (e : Option Nat) (h : Handle) : (s.answerSurvey e h).pwr = s.pwr := by
  simp only [State.answerSurvey]
  split
  · rfl
  · split
    · exact s.complete_pwr _ _ _ _
    · exact s.toHost_pwr _ _ _ _ _

/-- The figures taken and the record written; the commands that wait have their answers (R229). -/
def State.surveyTaken (s : State) (m : Measures) : State :=
  let a := s.takeMeasures m
  let b := { a with surveySeq := a.surveySeq + 1 }
  let c := { b with surveyRec := b.surveyBytes m, host := { b.host with surveyRunning := false, surveyWaiting := [] } }
  a.host.surveyWaiting.foldl (fun (s : State) h => s.answerSurvey m.hostErrorAt h) c

theorem State.surveyTaken_pwr (s : State) (m : Measures) : (s.surveyTaken m).pwr = s.pwr :=
  (foldl_keeps State.pwr (fun s h => s.answerSurvey_pwr m.hostErrorAt h) _ _).trans (s.takeMeasures_pwr m)

theorem State.surveyTaken_eq (s : State) (m : Measures) : s.surveyTaken m =
    (let a := s.takeMeasures m
     let b := { a with surveySeq := a.surveySeq + 1 }
     let c := { b with surveyRec := b.surveyBytes m, host := { b.host with surveyRunning := false, surveyWaiting := [] } }
     s.host.surveyWaiting.foldl (fun (s : State) h => s.answerSurvey m.hostErrorAt h) c) := by
  rw [← s.takeMeasures_host m]
  rfl

theorem execSurveyComplete_of_notRunning (h : s.host.surveyRunning = false) (m : Measures) : execSurveyComplete m s = .next s :=
  if_pos (.inr (.inl (by rw [h]; rfl)))

section
variable (m : Measures) (hm : s.pwr.main = true) (hr : s.host.surveyRunning = true) (hl : s.clk.lost = false)
include hm hr hl

theorem execSurveyComplete_of_running : execSurveyComplete m s =
    if s.pwr.step = 6 then .next ((s.surveyTaken m).applyRepairs.modPwr fun p => { p with step := 7, surveyed := true })
    else .next ((s.surveyTaken m).prog.active.elim (s.surveyTaken m) (s.surveyTaken m).compareBounds) := by
  rw [← s.surveyTaken_pwr m]
  refine (if_neg (by simp [hm, hr, hl])).trans (if_congr Iff.rfl rfl ?_)
  change (match (s.surveyTaken m).prog.active with
    | some img => _
    | none => _) = _
  cases (s.surveyTaken m).prog.active <;> rfl
end

/-! ### The loss of a memory stack (R241, R242) -/

theorem execStackLost_eq (k : StackId) (cause : StackLossCause) : execStackLost k cause s = .next (
    if s.pwr.main = true ∧ (s.stack k).state = .service ∧ (cause = .uncorrectableRows → 16 ≤ (s.stack k).ueCount s.now)
    then s.loseStack k else s) := by
  cases cause <;> simp [execStackLost, act_eq, and_assoc]

/-- Cells whose address passes a test stay where the others are dropped. -/
theorem Mem.lookup_filter (p : Nat → Bool) {a : Nat} (ha : p a = true) (m : Memory) :
    Mem.lookup (m.filter fun c => p c.1) a = Mem.lookup m a := by
  induction m with
  | nil => rfl
  | cons c m ih =>
    obtain ⟨k, v⟩ := c
    rw [List.filter_cons]
    by_cases hk : k = a
    · simp [hk, ha, Mem.lookup]
    · split <;> simp [Mem.lookup, hk, ih]

/-- A new epoch of one stack leaves what the others read as. -/
theorem dramByte_set {epoch : Vector Nat 20} {k : StackId} {a : Nat} (ha : a / unitBytes % 20 ≠ k.val) (e : Nat) :
    dramByte (epoch.set k.val e k.isLt) a = dramByte epoch a := by
  have hkept : (epoch.set k.val e k.isLt)[a / unitBytes % 20]'(Nat.mod_lt _ (by decide)) =
      epoch[a / unitBytes % 20]'(Nat.mod_lt _ (by decide)) := Vector.getElem_set_ne _ _ (Ne.symm ha)
  exact congrArg (fun e => if e = 0 then 0 else Config.undefinedDram e a) hkept

theorem State.loseUnits_get {k : StackId} {a : Nat} (ha : a / unitBytes % 20 ≠ k.val) :
    Mem.get (dramByte (s.loseUnits k).dramEpoch) (s.loseUnits k).dram a = Mem.get (dramByte s.dramEpoch) s.dram a := by
  have hlookup := Mem.lookup_filter (fun x => decide (x / unitBytes % 20 ≠ k.val)) (decide_eq_true ha) s.dram
  simp only [Mem.get, State.loseUnits, dramByte_set ha, hlookup]

/-- The loss of a stack while no program runs and none was lost before. -/
theorem State.loseStack_of_idle {k : StackId} (ha : s.prog.active = none) (hr : s.prog.relocated = none) : s.loseStack k =
    (((s.loseUnits k).modStack k fun x => { x with state := .lost, selfRefresh := true }).raiseDev 0x0405 [item k.val]).relocateStaged k := by
  have hkept : (s.loseUnits k).prog = s.prog := rfl
  simp only [State.loseStack, State.raiseDev_prog, State.modStack_prog, hkept, hr, ha]

/-- A new placement changes the program alone. -/
theorem State.relocateStaged_eq (s : State) (k : StackId) : ∃ p, s.relocateStaged k = s.modProg fun _ => p := by
  simp only [State.relocateStaged]
  split
  · split <;> exact ⟨_, rfl⟩
  · exact ⟨_, rfl⟩

theorem State.relocateStaged_relocated {k : StackId} (hs : s.prog.staged = some img) (hm : img.bounds.memReserve = true)
    (hr : s.prog.relocated = none) : (s.relocateStaged k).prog.relocated = some k := by
  simp only [State.relocateStaged, hs]
  rw [if_pos ⟨hm, by rw [hr]; rfl⟩]
  rfl

/-- What the loss leaves of the units and the stacks while no program runs. -/
theorem State.loseStack_memory {k : StackId} (ha : s.prog.active = none) (hr : s.prog.relocated = none) :
    (s.loseStack k).dram = (s.loseUnits k).dram ∧ (s.loseStack k).dramEpoch = (s.loseUnits k).dramEpoch
      ∧ ((s.loseStack k).stack k).state = .lost := by
  obtain ⟨p, hp⟩ := State.relocateStaged_eq
    (((s.loseUnits k).modStack k fun x => { x with state := .lost, selfRefresh := true }).raiseDev 0x0405 [item k.val]) k
  rw [State.loseStack_of_idle ha hr, hp]
  refine ⟨State.raiseDev_dram _ _ _, State.raiseDev_dramEpoch _ _ _, ?_⟩
  rw [State.stack, State.modProg_hbm, State.raiseDev_hbm, ← State.stack, State.stack_modStack, if_pos rfl]

/-! ### The end of a replay (R242, R305) -/

theorem execRecoveryReplayDone_of_pending (h : s.prog.recovering = false ∨ s.replaying = true ∨ s.prog.awaiting ≠ []) :
    execRecoveryReplayDone s = .next s := by
  simp only [execRecoveryReplayDone]
  split
  · exact if_pos (h.imp_left (by simp [·]))
  · rfl

section
variable {k : Continuous} (ha : s.prog.active = some img) (hk : s.prog.kept = some k) (hr : s.prog.recovering = true)
  (hp : s.replaying = false) (hw : s.prog.awaiting = [])
include ha hk hr hp hw

theorem execRecoveryReplayDone_of_alone (hd : img.bounds.devices ≤ 1) : execRecoveryReplayDone s = .next (
    (s.modProg fun p => { p with recovering := false, replayTo := none }).raiseStep 0x030C noCore
      (item 0x16 :: item 0xFF :: (item2 k.step.toNat ++ item2 (s.prog.replayTo.getD k.step).toNat))) := by
  simp only [execRecoveryReplayDone, ha, hk]
  rw [if_neg (by simp [hr, hp, hw]), if_neg (not_lt.2 hd)]

theorem execRecoveryReplayDone_of_domain {n : Nat} (hd : 1 < img.bounds.devices)
    (hn : leastOf (s.otherMembers.map (·.toNat)) = some n) : execRecoveryReplayDone s = .next (
      s.sendDyn (BitVec.ofNat 16 n) .device (.rejoin img.bounds.rank s.fab.nodeId)) := by
  simp only [execRecoveryReplayDone, ha, hk]
  rw [if_neg (by simp [hr, hp, hw]), if_pos hd, hn]
end

/-! ### The end of a peer wait (R236, R237) -/

theorem execPeerWaitExpiry_of_still (h : s.prog.activating = none ∨ s.now < s.prog.peerWaitEnd) : execPeerWaitExpiry s = .next s := by
  simp only [execPeerWaitExpiry]
  split
  next hact _ => exact if_pos (h.resolve_left fun hn => nomatch hn.symm.trans hact)
  next => rfl

section
variable {h : Handle} (ha : s.prog.activating = some h) (hs : s.prog.staged = some img) (ht : s.prog.peerWaitEnd ≤ s.now)
include ha hs ht

theorem execPeerWaitExpiry_of_refused {st d r : Nat} (hr : s.admission img false = .refused st d r) : execPeerWaitExpiry s = .next (
    (s.complete h st d r).modProg fun p => { p with activating := none }) := by
  simp only [execPeerWaitExpiry, ha, hs, hr]
  exact if_neg (not_lt.2 ht)

theorem execPeerWaitExpiry_of_admitted (hr : ∀ st d r, s.admission img false ≠ .refused st d r) :
    execPeerWaitExpiry s = .next s.tryActivate := by
  simp only [execPeerWaitExpiry, ha, hs]
  exact if_neg (not_lt.2 ht)
end

end Sys2Proof.Machine

open Sys2Proof Sys2Proof.Machine

/-- Settles O55, one lemma per command and outcome. -/
theorem mirrorsAndRecovery : Obligations.MirrorsAndRecovery := by
  intro s
  refine ⟨fun n st q pages hm hs => ?_, fun h n st q pages => execContinuousRecord_of_noStore h, fun i img k n ha hf => ?_,
    fun i hf => execCheckpointComplete_of_noShipment hf, execCoverBegin_of_notDue, fun img st last hd hf => execCoverBegin_of_member hd hf,
    fun img p gens x st last hf ha hs hd hp hw hx => ?_, fun img r hd hc hm hr => execCoverEnd_of_cover hd hc hm hr,
    fun img r gens record hd hr hk hs => execCoverEnd_of_takeBack hd hr hk hs,
    fun h img r gens record hf hs ha hk hw hal hl ht => execCoverEnd_of_seed hf hs ha hk hw hal hl ht, fun m hm hr hl => ?_,
    execSurveyComplete_of_notRunning, execStackLost_eq, fun k img ha hs hm hr => ?_, fun k ha hr => ?_,
    fun img k ha hk hr hp hw => ⟨execRecoveryReplayDone_of_alone ha hk hr hp hw, fun n => execRecoveryReplayDone_of_domain ha hk hr hp hw⟩,
    execRecoveryReplayDone_of_pending, fun h img ha hs ht =>
      ⟨fun st d r => execPeerWaitExpiry_of_refused ha hs ht, execPeerWaitExpiry_of_admitted ha hs ht⟩, execPeerWaitExpiry_of_still⟩
  · exact ⟨execContinuousRecord_of_whole hm hs, execContinuousRecord_of_broken hm hs, execContinuousRecord_of_unbound⟩
  · exact ⟨execCheckpointComplete_of_outstanding ha hf, execCheckpointComplete_of_acknowledged ha hf⟩
  · obtain ⟨hcover, hprog⟩ := State.standIn_covers (s := s.modFab fun f => { f with coverFrom := none }) last hw hx
    exact ⟨_, execCoverBegin_of_standby hf ha hs hd hp, congrArg Prod.fst hcover, congrArg Prod.snd hcover, hprog⟩
  · have hdone := execSurveyComplete_of_running m hm hr hl
    intro a b c d
    rw [show s.surveyTaken m = d from s.surveyTaken_eq m] at hdone
    clear_value d
    refine ⟨fun h => hdone.trans (if_pos h), fun h => (hdone.trans (if_neg h)).trans (congrArg _ ?_)⟩
    cases d.prog.active <;> rfl
  · rw [State.loseStack_of_idle ha hr]
    exact State.relocateStaged_relocated ((congrArg Program.staged (State.raiseDev_prog _ _ _)).trans hs) hm
      ((congrArg Program.relocated (State.raiseDev_prog _ _ _)).trans hr)
  · obtain ⟨hdram, hepoch, hlost⟩ := State.loseStack_memory (k := k) ha hr
    refine ⟨hepoch, hlost, fun a hout => ?_⟩
    rw [hdram, hepoch, State.loseUnits_get hout]
end

