-- ==== Sys2Proof/Proofs/McStart.lean ====
section
/-!
SUPPORT. How the MC starts (R335, R342 to R355): the secure region wiped, the identity key derived, the image entered; what of the MC stays
through log entries and events.
-/

namespace Sys2Proof.Machine

variable {s t u : State} {m n : Mc} {x : BitVec 4} {f : FwImage}

/-! ### What a start is seen by -/

/-- What the start of the MC sets: its state, its SRAM and its fuses, and the power of the module. -/
structure BootView where
  up : Bool
  recovery : Bool
  running : List (Component × FwImage)
  latched : List (BitVec 256)
  sram : Memory
  fuses : BitVec 8448
  pwr : Power

def State.boot (s : State) : BootView :=
  { up := s.mc.up, recovery := s.mc.recovery, running := s.mc.running, latched := s.mc.latched, sram := s.mc.sram, fuses := s.mc.fuses,
    pwr := s.pwr }

theorem State.logAs_boot (s : State) (v : BitVec 2) (code : Nat) (cont : Bool) (p : Nat) : (s.logAs v code cont p).boot = s.boot := by
  simp [State.boot]

theorem State.log_boot (s : State) (code : Nat) (items : List W32) : (s.log code items).boot = s.boot := by
  simp [State.boot]

theorem State.raiseDev_boot (s : State) (code : Nat) (items : List W32) : (s.raiseDev code items).boot = s.boot := by
  simp [State.boot]

/-- Entries held are logged; what hardware had latched is logged before (R335). -/
theorem State.enterHeld_boot (s : State) (m : Mc) : State.boot { s with mc := m.enterHeld } = State.boot { s with mc := m } :=
  foldl_keeps (fun m => State.boot { s with mc := m }) (fun m e => by simp [State.boot]) m.held { m with held := [] }

theorem State.nowServes_boot (s : State) (c : Component) (f : FwImage) : (s.nowServes c f).boot = s.boot := by
  simp only [State.nowServes]
  split
  · rw [State.raiseDev_boot]
    rfl
  · rfl

theorem State.chooseProfile_boot (s : State) : s.chooseProfile.boot = s.boot := by
  simp only [State.chooseProfile]
  split
  · rfl
  · simp [State.boot]

/-! ### The secure region and the identity key (R333, R346, R355) -/

theorem Mc.secureBase_congr (h : n.fuses = m.fuses) : n.secureBase = m.secureBase := by
  rw [Mc.secureBase, Mc.fuse, h, ← Mc.fuse, ← Mc.secureBase]

/-- The secure region lies above code and data. -/
theorem Mc.code_le_secureBase (m : Mc) : 0x3_0000 ≤ m.secureBase := by
  have h : m.fuse 6 2 < 4 := Nat.mod_lt _ (by decide)
  unfold Mc.secureBase
  omega

theorem Mc.key_congr (hf : n.fuses = m.fuses)
    (hs : ∀ a, m.secureBase ≤ a → Mem.get zeroByte n.sram a = Mem.get zeroByte m.sram a) : n.key = m.key := by
  have hread : Mem.read zeroByte n.sram m.secureBase 48 = Mem.read zeroByte m.sram m.secureBase 48 :=
    List.map_congr_left fun i _ => hs _ (Nat.le_add_right _ _)
  rw [Mc.key, Mc.secureBase_congr hf, hread, ← Mc.key]

/-- A cleared region holds no key. -/
theorem Mc.key_of_clear (h : ∀ a, m.secureBase ≤ a → Mem.get zeroByte m.sram a = 0) : m.key = none := by
  have hread : Mem.read zeroByte m.sram m.secureBase 48 = (List.range 48).map fun _ => 0 :=
    List.map_congr_left fun i _ => h _ (Nat.le_add_right _ _)
  rw [Mc.key, hread]
  exact if_pos (by decide)

theorem Mc.key_putKey (m : Mc) (k : BitVec 384) : (m.putKey k).key = if k = 0 then none else some k := by
  have hread : Mem.read zeroByte (m.putKey k).sram m.secureBase 48 = leBytes 48 k.toNat := by
    have h := Mem.read_write zeroByte m.sram m.secureBase (leBytes 48 k.toNat)
    rwa [leBytes_length] at h
  have hnat : leNat (leBytes 48 k.toNat) = k.toNat := by
    rw [leNat_leBytes_mod]
    exact Nat.mod_eq_of_lt k.isLt
  have hbase : (m.putKey k).secureBase = m.secureBase := Mc.secureBase_congr rfl
  simp only [Mc.key, hbase, hread, hnat, BitVec.ofNat_toNat, BitVec.setWidth_eq]
  exact if_congr (by rw [← BitVec.toNat_inj]; rfl) rfl rfl

/-- The code of an image does not reach the secure region. -/
theorem Mc.putCode_get (m : Mc) (f : FwImage) {a : Nat} (ha : m.secureBase ≤ a) :
    Mem.get zeroByte (m.putCode f).sram a = Mem.get zeroByte m.sram a := by
  refine Mem.get_write_out zeroByte m.sram 0 (f.body.take 0x3_0000) a (.inr ?_)
  have hbase := m.code_le_secureBase
  have hlen := List.length_take_le 0x3_0000 f.body
  omega

/-- Cells whose address fails a test are gone where only the others are kept. -/
theorem Mem.lookup_filter_out (p : Nat → Bool) {a : Nat} (ha : p a = false) (m : Memory) :
    Mem.lookup (m.filter fun c => p c.1) a = none := by
  induction m with
  | nil => rfl
  | cons c m ih =>
    obtain ⟨k, v⟩ := c
    rw [List.filter_cons]
    split
    next hk =>
      have hne : k ≠ a := by
        rintro rfl
        exact Bool.false_ne_true (ha.symm.trans hk)
      simpa [Mem.lookup, hne] using ih
    next => exact ih

theorem Mc.clearRegion_get (m : Mc) {a : Nat} (ha : m.secureBase ≤ a) : Mem.get zeroByte m.clearRegion.sram a = 0 := by
  rw [Mem.get, Mc.clearRegion, Mem.lookup_filter_out (fun a => decide (a < m.secureBase)) (by simpa using ha)]
  rfl

/-- What the choice of a stored image rests on: the fuses and the images (R350). -/
theorem Mc.validImage_congr (hf : n.fuses = m.fuses) (hi : n.images = m.images) (c : Component) : n.validImage c = m.validImage c := by
  cases n
  cases m
  cases hf
  cases hi
  rfl

/-! ### The wipes of a start (R345, R346, R391) -/

/-- From `s` to `t` the secure region is cleared; the fuses, the images, the port of DEVICE_SECRET and the power stay. -/
structure State.Wiped (s t : State) : Prop where
  fuses : t.mc.fuses = s.mc.fuses
  images : t.mc.images = s.mc.images
  secretClosed : t.mc.secretClosed = s.mc.secretClosed
  pwr : t.pwr = s.pwr
  clear : ∀ a, t.mc.secureBase ≤ a → Mem.get zeroByte t.mc.sram a = 0

theorem State.Wiped.trans (h : s.Wiped t) (k : t.Wiped u) : s.Wiped u :=
  ⟨k.fuses.trans h.fuses, k.images.trans h.images, k.secretClosed.trans h.secretClosed, k.pwr.trans h.pwr, k.clear⟩

theorem State.wipe_wiped (s : State) (c : Fin 6) (n : Nat) : s.Wiped (s.wipe c n) := by
  have hclear {v : Mc} (hs : v.sram = s.mc.clearRegion.sram) (hf : v.fuses = s.mc.fuses) {a : Nat} (ha : v.secureBase ≤ a) :
      Mem.get zeroByte v.sram a = 0 := by
    rw [hs]
    exact s.mc.clearRegion_get (Mc.secureBase_congr hf ▸ ha)
  simp only [State.wipe]
  split
  · refine ⟨?_, ?_, ?_, ?_, fun a => hclear ?_ ?_⟩ <;> simp [Mc.clearRegion]
  · refine ⟨?_, ?_, ?_, ?_, fun a => hclear ?_ ?_⟩ <;> simp [Mc.clearRegion]

theorem State.wipeSelf_wiped (s : State) (c : Fin 6) : s.Wiped (s.wipeSelf c) := by
  have hretry : (s.modMc fun m => { m with wipeRetries := m.wipeRetries.tail }).Wiped (s.wipeSelf c) := State.wipe_wiped _ _ _
  exact ⟨hretry.fuses, hretry.images, hretry.secretClosed, hretry.pwr, hretry.clear⟩

theorem State.Wiped.wipePresent (h : s.Wiped t) (x : BitVec 4) : s.Wiped (t.wipePresent x) :=
  List.foldlRecOn _ _ (motive := s.Wiped) h fun u hu _ _ => hu.trans (u.wipeSelf_wiped _)

/-! ### The start (R335, R350, R353) -/

/-- The MC out of its reset, before its image is verified: the ports are open, a block that the test has borrowed is back. -/
def Mc.released (m : Mc) : Mc := { m.giveBack with portClosed := false, secretClosed := false }

theorem Mc.giveBack_keeps (m : Mc) : m.giveBack.fuses = m.fuses ∧ m.giveBack.images = m.images := by
  rw [Mc.giveBack]
  split <;> exact ⟨rfl, rfl⟩

/-- The mask ROM of a start up to the verification of the image: wiped, the key derived where no trigger is present. -/
def State.romRun (s : State) (x : BitVec 4) : State :=
  (((s.modMc Mc.released).wipeSelf 5).wipePresent x).modMc fun m =>
    { (if x = 0 then m.putKey (Config.identityKey (BitVec.ofNat 256 m.secretRead)) else m) with secretClosed := true }

/-- The wipes of a start, before the key is derived. -/
theorem State.wiped_of_release (s : State) (x : BitVec 4) :
    (s.modMc Mc.released).Wiped (((s.modMc Mc.released).wipeSelf 5).wipePresent x) :=
  (State.wipeSelf_wiped _ 5).wipePresent x

theorem State.romRun_keeps (s : State) (x : BitVec 4) : (s.romRun x).mc.fuses = s.mc.fuses ∧ (s.romRun x).mc.images = s.mc.images
    ∧ (s.romRun x).pwr = s.pwr := by
  obtain ⟨hf, hi⟩ := s.mc.giveBack_keeps
  have hwiped := s.wiped_of_release x
  have hkeeps (m : Mc) (k : BitVec 384) : (if x = 0 then m.putKey k else m).fuses = m.fuses
      ∧ (if x = 0 then m.putKey k else m).images = m.images := by
    split <;> exact ⟨rfl, rfl⟩
  exact ⟨(hkeeps _ _).1.trans (hwiped.fuses.trans hf), (hkeeps _ _).2.trans (hwiped.images.trans hi), hwiped.pwr⟩

/-- The key of a start: derived from DEVICE_SECRET, none where a trigger is present (R347, R355). -/
theorem State.romRun_key (s : State) (x : BitVec 4) : (s.romRun x).mc.key =
    if x ≠ 0 ∨ Config.identityKey (BitVec.ofNat 256 s.mc.secret) = 0 then none
    else some (Config.identityKey (BitVec.ofNat 256 s.mc.secret)) := by
  have hwiped := s.wiped_of_release x
  rw [State.romRun]
  generalize ((s.modMc Mc.released).wipeSelf 5).wipePresent x = w at hwiped ⊢
  have hkey (m : Mc) : Mc.key { m with secretClosed := true } = m.key := rfl
  rw [State.modMc_mc, hkey]
  by_cases hx : x = 0
  · have hsecret : w.mc.secretRead = s.mc.secret := by
      have hopen : w.mc.secretClosed = false := hwiped.secretClosed
      have hfuses : w.mc.fuses = s.mc.fuses := hwiped.fuses.trans s.mc.giveBack_keeps.1
      rw [Mc.secretRead, hopen, Mc.secret, Mc.fuse, hfuses]
      rfl
    rw [if_pos hx, hsecret, Mc.key_putKey]
    exact if_congr (by simp [hx]) rfl rfl
  · rw [if_neg hx, if_pos (.inl hx)]
    exact Mc.key_of_clear hwiped.clear

theorem State.romRun_validImage (s : State) (x : BitVec 4) (c : Component) : (s.romRun x).mc.validImage c = s.mc.validImage c := by
  obtain ⟨hf, hi, -⟩ := s.romRun_keeps x
  exact Mc.validImage_congr hf hi c

/-- A valid image entered: logged with what hardware had latched, its steps of start-up done (R335, R350, R352, R382). -/
def State.enterImage (s : State) (cause : Nat) (f : FwImage) : State :=
  let again := decide (cause ≠ 0)
  let s := s.modMc fun m =>
    { m.putCode f with
      up := true, recovery := false, restartCause := 0, running := putImage m.running .mc f,
      restarts := if again then m.restarts + 1 else m.restarts }
  let s := s.log 0x0501 [item (Config.figure 2 cause), Config.maskRomVersion, item s.mc.rollback]
  let s := s.mc.latched.foldl (fun s x => s.logAs (Config.logSeverity 0x0502) 0x0502 false x.toNat) s
  let s := s.modMc fun m => { m with latched := [] }.enterHeld
  let s := if again then s.raiseDev 0x041E [item (Config.figure 2 cause), s.mc.restarts] else s
  let s := s.nowServes .mc f
  if s.pwr.step = 0 then (s.modPwr fun p => { p with step := 1 }).chooseProfile else s

theorem State.mcStart_eq (s : State) (n : Nat) (x : BitVec 4) : s.mcStart n x = (s.mc.validImage .mc).elim
    ((s.romRun x).modMc fun m => { m with up := false, recovery := true, restartCause := 0 }.enterHeld) ((s.romRun x).enterImage n) := by
  rw [← s.romRun_validImage x]
  change (match (s.romRun x).mc.validImage .mc with
    | none => _
    | some f => _) = _
  cases (s.romRun x).mc.validImage .mc <;> rfl

theorem State.enterImage_boot (s : State) (n : Nat) (f : FwImage) : (s.enterImage n f).boot =
    { up := true, recovery := false, running := putImage s.mc.running .mc f, latched := [], sram := (s.mc.putCode f).sram,
      fuses := s.mc.fuses, pwr := if s.pwr.step = 0 then { s.pwr with step := 1 } else s.pwr } := by
  have hstep (u : State) : (if u.pwr.step = 0 then (u.modPwr fun p => { p with step := 1 }).chooseProfile else u).boot =
      { u.boot with pwr := if u.boot.pwr.step = 0 then { u.boot.pwr with step := 1 } else u.boot.pwr } := by
    by_cases h : u.pwr.step = 0
    · rw [if_pos h, State.chooseProfile_boot]
      simp [State.boot, h]
    · simp [State.boot, h]
  have hheld (u : State) : (u.modMc fun m => { m with latched := [] }.enterHeld).boot = { u.boot with latched := [] } :=
    State.enterHeld_boot u _
  have hlogged (u : State) (xs : List (BitVec 256)) :
      (xs.foldl (fun s x => s.logAs (Config.logSeverity 0x0502) 0x0502 false x.toNat) u).boot = u.boot :=
    foldl_keeps State.boot (fun _ _ => State.logAs_boot _ _ _ _ _) xs u
  have hagain (u : State) (b : Prop) [Decidable b] (items : List W32) : (if b then u.raiseDev 0x041E items else u).boot = u.boot := by
    split
    · exact u.raiseDev_boot _ _
    · rfl
  simp only [State.enterImage, hstep, State.nowServes_boot, hagain, hheld, hlogged, State.log_boot]
  rfl

section
variable (n : Nat) (x : BitVec 4)

theorem State.mcStart_of_invalid (h : s.mc.validImage .mc = none) :
    (s.mcStart n x).mc.up = false ∧ (s.mcStart n x).mc.recovery = true := by
  rw [State.mcStart_eq, h]
  have hheld := State.enterHeld_boot (s.romRun x) { (s.romRun x).mc with up := false, recovery := true, restartCause := 0 }
  exact ⟨congrArg BootView.up hheld, congrArg BootView.recovery hheld⟩

variable (h : s.mc.validImage .mc = some f)
include h

theorem State.mcStart_boot : (s.mcStart n x).boot =
    { up := true, recovery := false, running := putImage (s.romRun x).mc.running .mc f, latched := [],
      sram := ((s.romRun x).mc.putCode f).sram, fuses := (s.romRun x).mc.fuses,
      pwr := if (s.romRun x).pwr.step = 0 then { (s.romRun x).pwr with step := 1 } else (s.romRun x).pwr } := by
  rw [State.mcStart_eq, h]
  exact (s.romRun x).enterImage_boot n f

theorem State.mcStart_step (h0 : s.pwr.step = 0) : (s.mcStart n x).pwr.step = 1 := by
  obtain ⟨-, -, hp⟩ := s.romRun_keeps x
  have hpwr := congrArg BootView.pwr (State.mcStart_boot n x h)
  rw [hp] at hpwr
  exact (congrArg Power.step hpwr).trans (congrArg Power.step (if_pos h0))

/-- The key is there when the image runs: its code lies below the secure region (R333, R355). -/
theorem State.mcStart_key : (s.mcStart n x).mc.key =
    if x ≠ 0 ∨ Config.identityKey (BitVec.ofNat 256 s.mc.secret) = 0 then none
    else some (Config.identityKey (BitVec.ofNat 256 s.mc.secret)) := by
  have hboot := State.mcStart_boot n x h
  have hsram : (s.mcStart n x).mc.sram = ((s.romRun x).mc.putCode f).sram := congrArg BootView.sram hboot
  have hkept : (s.mcStart n x).mc.key = (s.romRun x).mc.key :=
    Mc.key_congr (congrArg BootView.fuses hboot) fun a ha => by rw [hsram, Mc.putCode_get _ f ha]
  exact hkept.trans (s.romRun_key x)
end

end Sys2Proof.Machine
end

