-- ==== Sys2Proof/Proofs/StartUp.lean ====
section
/-!
SUPPORT. The steps of start-up (R382): the release of the MC's reset, the rails, the training of the stacks, the Binder and the self-test,
one lemma per command and outcome.
-/

namespace Sys2Proof.Machine

variable {s : State} {f : FwImage}

/-! ### Steps 1 and 2: the MC leaves its reset (R340, R382) -/

theorem Mc.started_iff {m : Mc} : m.started = true ↔ m.up = true ∨ m.recovery = true ∨ m.restartCause ≠ 0 := by
  simp only [Mc.started, Bool.or_eq_true, bne_iff_ne, or_assoc]

theorem execMcResetRelease_of_still (p : ResetPins) (h : s.pwr.standby = false ∨ s.pwr.present = true) :
    execMcResetRelease p s = .next s := if_pos (h.imp_left (by simp [·]))

theorem execMcResetRelease_eq (p : ResetPins) (hs : s.pwr.standby = true) (hp : s.pwr.present = false) : execMcResetRelease p s =
    if s.mc.started = true then .next (s.modPwr fun p => { p with present := true })
    else
      let u := (s.modPwr fun p => { p with present := true }).modMc fun m => { m with profPins := p.profsel.toFin }
      .next (if s.clk.refPresent then u.mcStart 0 p.triggers else u) := if_neg (by simp [hs, hp])

theorem imageOf_putImage_same (xs : List (Component × FwImage)) (c : Component) (f : FwImage) : imageOf (putImage xs c f) c = some f := by
  simp [imageOf, putImage]

theorem imageOf_putImage_ne (xs : List (Component × FwImage)) {c d : Component} (h : d ≠ c) (f : FwImage) :
    imageOf (putImage xs c f) d = imageOf xs d := by
  have hkept : (xs.filter (·.1 ≠ c)).find? (fun p => p.1 = d) = xs.find? fun p => p.1 = d := by
    rw [List.find?_filter]
    refine congrArg (fun q => xs.find? q) (funext fun p => ?_)
    by_cases hp : p.1 = d <;> simp [hp, h]
  rw [imageOf, putImage, List.find?_cons_of_neg (by simpa using Ne.symm h), hkept, ← imageOf]

/-! ### Step 4: the rails and the profile (R336, R377, R381) -/

/-- The profile that is chosen by command, else by the pins (R381). -/
def Mc.wanted (m : Mc) : Fin 4 := m.profSelected.getD m.profPins

/-- The content in force is what a choice would give. -/
def Mc.inForce (m : Mc) : Bool :=
  if profileCrcOk m.profiles[m.wanted].toNat then m.activeProfile == m.profiles[m.wanted] else m.activeProfile == factoryProfile 8

theorem Mc.inForce_of_crcOk {m : Mc} (hc : profileCrcOk m.profiles[m.wanted].toNat = true) :
    m.inForce = true ↔ m.activeProfile = m.profiles[m.wanted] := by
  rw [Mc.inForce, if_pos hc, beq_iff_eq]

theorem State.chooseAgain_eq (s : State) :
    s.chooseAgain = if s.mc.activeIndex = s.mc.wanted ∧ s.mc.inForce = true then s else s.chooseProfile := rfl

theorem State.chooseProfile_active (s : State) : s.chooseProfile.mc.activeIndex = s.mc.wanted
    ∧ (profileCrcOk s.mc.profiles[s.mc.wanted].toNat = true → s.chooseProfile.mc.activeProfile = s.mc.profiles[s.mc.wanted]) := by
  simp only [State.chooseProfile]
  split
  next h => exact ⟨rfl, fun _ => rfl⟩
  next h => exact ⟨by simp [Mc.wanted], fun hc => absurd hc h⟩

theorem State.chooseAgain_of_same (hi : s.mc.activeIndex = s.mc.wanted) (hc : profileCrcOk s.mc.profiles[s.mc.wanted].toNat = true)
    (hp : s.mc.activeProfile = s.mc.profiles[s.mc.wanted]) : s.chooseAgain = s :=
  s.chooseAgain_eq.trans (if_pos ⟨hi, (Mc.inForce_of_crcOk hc).2 hp⟩)

theorem State.chooseAgain_active (s : State) : s.chooseAgain.mc.activeIndex = s.mc.wanted
    ∧ (profileCrcOk s.mc.profiles[s.mc.wanted].toNat = true → s.chooseAgain.mc.activeProfile = s.mc.profiles[s.mc.wanted]) := by
  rw [State.chooseAgain_eq]
  split
  next h => exact ⟨h.1, fun hc => (Mc.inForce_of_crcOk hc).1 h.2⟩
  next => exact s.chooseProfile_active

theorem State.chooseProfile_die (s : State) : s.chooseProfile.mc.die = s.mc.die := by
  simp only [State.chooseProfile]
  split
  · rfl
  · simp

theorem State.chooseAgain_failedOnTile (s : State) (j : Nat) : s.chooseAgain.mc.failedOnTile j = s.mc.failedOnTile j := by
  have hdie : s.chooseAgain.mc.die = s.mc.die := by
    rw [State.chooseAgain_eq]
    split
    · rfl
    · exact s.chooseProfile_die
  rw [Mc.failedOnTile, hdie, ← Mc.failedOnTile]

theorem State.blindOff_of_sighted (h : ∀ j < 4, s.mc.failedOnTile j ≤ 4) : s.blindOff = s := by
  have hnone : (List.range 4).find? (fun t => decide (5 ≤ s.mc.failedOnTile t)) = none := by
    rw [List.find?_eq_none]
    intro j hj
    have := h j (List.mem_range.1 hj)
    simp
    omega
  rw [State.blindOff, hnone]

theorem State.blindOff_of_blind (hm : s.pwr.main = true) (h : ∃ j < 4, 5 ≤ s.mc.failedOnTile j) : ∃ u : State, s.blindOff = u.mainOff := by
  obtain ⟨j, hj, hb⟩ := h
  have hsome : ((List.range 4).find? fun t => decide (5 ≤ s.mc.failedOnTile t)).isSome = true := by
    rw [List.find?_isSome]
    exact ⟨j, List.mem_range.2 hj, decide_eq_true hb⟩
  obtain ⟨t, ht⟩ := Option.isSome_iff_exists.1 hsome
  rw [State.blindOff, ht]
  exact ⟨_, if_pos hm⟩

/-- Start-up step 3 is complete and nothing is against the main domain (R343, R353, R374, R393, R395). -/
abbrev State.railsAllowed (s : State) : Prop :=
  s.mcRuns = true ∧ s.pwr.step = 3 ∧ s.pwr.main = false ∧ s.clk.qualified = true ∧ s.pwr.inputOk = true ∧ s.pwr.present = true
    ∧ s.pwr.switchOn = true ∧ s.pwr.breaker = false ∧ s.pwr.needMainOn = false ∧ s.mc.lifeCycle ≠ .decommissioned

/-- The main domain is powered, under the profile that is chosen now and with every phase back (R377, R381). -/
def State.railsOn (s : State) : State :=
  (s.chooseAgain.modPwr fun p => { p with main := true, step := 4, shed := [] }).modHost fun h => { h with usable := true }

theorem execStartupRailsUp_eq (s : State) : execStartupRailsUp s = .next (if s.railsAllowed then s.railsOn.blindOff else s) := by
  simp only [execStartupRailsUp, act_eq, State.railsAllowed, Bool.and_eq_true, Bool.not_eq_true', beq_iff_eq, bne_iff_ne, and_assoc]
  rfl

/-! ### Images in service (R350, R352) -/

theorem State.nowServes_of_new (c : Component) (f : FwImage) (h : c ∉ s.mc.pending) : s.nowServes c f = s :=
  if_neg (by simpa using h)

theorem State.nowServes_pending (s : State) (c : Component) (f : FwImage) : c ∉ (s.nowServes c f).mc.pending := by
  simp only [State.nowServes]
  split
  next => simp
  next h => simpa using h

theorem State.loadImage_running (s : State) (c : Component) (f : FwImage) :
    (s.loadImage c f).mc.running = putImage s.mc.running c f :=
  congrArg BootView.running (State.nowServes_boot _ c f)

theorem State.loadImage_fuses (s : State) (c : Component) (f : FwImage) : (s.loadImage c f).mc.fuses = s.mc.fuses :=
  congrArg BootView.fuses (State.nowServes_boot _ c f)

/-- Loading an image leaves device memory and its stacks. -/
theorem State.loadImage_memory (s : State) (c : Component) (f : FwImage) :
    (s.loadImage c f).hbm = s.hbm ∧ (s.loadImage c f).dram = s.dram ∧ (s.loadImage c f).dramEpoch = s.dramEpoch := by
  simp only [State.loadImage, State.nowServes]
  split <;> simp

/-! ### Step 6: the training of the stacks (R343, R382) -/

/-- The stacks in service trained: those that fail are absent, the others leave self-refresh. -/
def State.trainStacks (s : State) (absent : List StackId) : State :=
  { s with hbm := Vector.ofFn fun i : Fin 20 =>
      if s.hbm[i].state ≠ .service then s.hbm[i]
      else if absent.contains i then { s.hbm[i] with state := .absent }
      else { s.hbm[i] with selfRefresh := false } }

theorem State.trainStacks_mc (s : State) (xs : List StackId) : (s.trainStacks xs).mc = s.mc := by simp only [State.trainStacks]

theorem State.trainStacks_dram (s : State) (xs : List StackId) : (s.trainStacks xs).dram = s.dram := by simp only [State.trainStacks]

theorem State.trainStacks_dramEpoch (s : State) (xs : List StackId) : (s.trainStacks xs).dramEpoch = s.dramEpoch := by
  simp only [State.trainStacks]

theorem State.trainStacks_stack {xs : List StackId} {k : StackId} (h : (s.stack k).state = .service) : (s.trainStacks xs).stack k =
    if k ∈ xs then { s.stack k with state := .absent } else { s.stack k with selfRefresh := false } := by
  have hk : (s.trainStacks xs).stack k = if (s.stack k).state ≠ .service then s.stack k
      else if xs.contains k then { s.stack k with state := .absent } else { s.stack k with selfRefresh := false } := by
    simp [State.trainStacks, State.stack]
  rw [hk, if_neg (not_not_intro h)]
  exact if_congr List.contains_iff_mem rfl rfl

theorem State.makeHard_stack (s : State) (k : StackId) : s.makeHard.stack k = { s.stack k with softPending := 0 } := by
  simp [State.makeHard, State.stack]

/-- Memory that is clear since no content was lost reads as zero (R343). -/
theorem State.dramRead_of_clear (hd : s.dram = []) (he : s.dramEpoch = Vector.replicate 20 0) (a n : Nat) :
    s.dramRead a n = List.replicate n 0 := by
  have hbyte (b : Nat) : dramByte s.dramEpoch b = 0 := by simp [dramByte, he]
  simp [State.dramRead, Mem.read, Mem.get, Mem.lookup, hd, hbyte]

/-- The stacks trained, with the soft repairs made hard and a returned device cleared; the start-up survey begins (R245, R343). -/
def State.trainingDone (s : State) (xs : List StackId) : State :=
  (((s.makeHard.trainStacks xs).clearReturned).modPwr fun p => { p with step := 6 }).modHost fun h => { h with surveyRunning := true }

theorem State.clearReturned_keeps (s : State) : s.clearReturned.mc = s.mc ∧ s.clearReturned.hbm = s.hbm := by
  rw [State.clearReturned]
  split <;> exact ⟨rfl, rfl⟩

theorem State.clearReturned_of_returned (h : s.mc.lifeCycle = .returned) :
    s.clearReturned.dram = [] ∧ s.clearReturned.dramEpoch = Vector.replicate 20 0 := by
  rw [State.clearReturned, if_pos h]
  exact ⟨rfl, rfl⟩

theorem State.clearReturned_of_kept (h : s.mc.lifeCycle ≠ .returned) : s.clearReturned = s := if_neg h

theorem State.makeHard_lifeCycle (s : State) : s.makeHard.mc.lifeCycle = s.mc.lifeCycle := rfl

theorem State.trainingDone_running (s : State) (xs : List StackId) : (s.trainingDone xs).mc.running = s.mc.running := by
  rw [State.trainingDone, State.modHost_mc, State.modPwr_mc, (State.clearReturned_keeps _).1, State.trainStacks_mc]
  rfl

theorem State.trainingDone_stack (xs : List StackId) {k : StackId} (h : (s.stack k).state = .service) : (s.trainingDone xs).stack k =
    if k ∈ xs then { s.stack k with softPending := 0, state := .absent } else { s.stack k with softPending := 0, selfRefresh := false } := by
  rw [State.stack, State.trainingDone, State.modHost_hbm, State.modPwr_hbm, (State.clearReturned_keeps _).2, ← State.stack,
    State.trainStacks_stack (by rw [State.makeHard_stack, h]), State.makeHard_stack]

theorem State.trainingDone_of_returned (xs : List StackId) (h : s.mc.lifeCycle = .returned) :
    (s.trainingDone xs).dram = [] ∧ (s.trainingDone xs).dramEpoch = Vector.replicate 20 0 := by
  rw [State.trainingDone, State.modHost_dram, State.modPwr_dram, State.modHost_dramEpoch, State.modPwr_dramEpoch]
  exact State.clearReturned_of_returned (by rw [State.trainStacks_mc, State.makeHard_lifeCycle, h])

theorem State.trainingDone_of_kept (xs : List StackId) (h : s.mc.lifeCycle ≠ .returned) :
    (s.trainingDone xs).dram = s.dram ∧ (s.trainingDone xs).dramEpoch = s.dramEpoch := by
  have hkept : (s.makeHard.trainStacks xs).clearReturned = s.makeHard.trainStacks xs :=
    State.clearReturned_of_kept (by rwa [State.trainStacks_mc, State.makeHard_lifeCycle])
  rw [State.trainingDone, hkept]
  exact ⟨s.makeHard.trainStacks_dram xs, s.makeHard.trainStacks_dramEpoch xs⟩

section
variable (xs : List StackId) (hm : s.pwr.main = true) (hs : s.pwr.step = 5) (hl : s.clk.lost = false) (hr : s.clk.returning = false)
  (hu : s.mcRuns = true)
include hm hs hl hr hu

theorem execStartupTrainingDone_at : ¬ ((!s.pwr.main) = true ∨ s.pwr.step ≠ 5 ∨ s.clk.lost = true ∨ s.clk.returning = true
    ∨ (!s.mcRuns) = true) := by
  simp [hm, hs, hl, hr, hu]

theorem execStartupTrainingDone_of_badLinkUcode (h : s.mc.validImage .linkUcode = none) :
    execStartupTrainingDone xs s = .next (s.recoverComponent .linkUcode) := by
  refine (if_neg (execStartupTrainingDone_at hm hs hl hr hu)).trans ?_
  rw [h]

theorem execStartupTrainingDone_of_badMemUcode {l : FwImage} (h : s.mc.validImage .linkUcode = some l)
    (k : s.mc.validImage .memUcode = none) :
    execStartupTrainingDone xs s = .next ((s.loadImage .linkUcode l).recoverComponent .memUcode) := by
  refine (if_neg (execStartupTrainingDone_at hm hs hl hr hu)).trans ?_
  rw [h, k]

theorem execStartupTrainingDone_of_valid {l m : FwImage} (h : s.mc.validImage .linkUcode = some l) (k : s.mc.validImage .memUcode = some m) :
    execStartupTrainingDone xs s = .next (((s.loadImage .linkUcode l).loadImage .memUcode m).trainingDone xs) := by
  refine (if_neg (execStartupTrainingDone_at hm hs hl hr hu)).trans ?_
  rw [h, k]
  rfl
end

/-! ### Step 8: the Binder (R311, R350, R353) -/

section
variable (hm : s.pwr.main = true) (hs : s.pwr.step = 7) (hl : s.clk.lost = false) (hr : s.clk.returning = false) (hu : s.mcRuns = true)
include hm hs hl hr hu

theorem execBinderBootDone_at : ¬ ((!s.pwr.main) = true ∨ s.pwr.step ≠ 7 ∨ s.clk.lost = true ∨ s.clk.returning = true
    ∨ (!s.mcRuns) = true) := by
  simp [hm, hs, hl, hr, hu]

theorem execBinderBootDone_of_invalid (h : s.mc.validImage .binder = none) :
    execBinderBootDone s = .next (s.recoverComponent .binder) := by
  refine (if_neg (execBinderBootDone_at hm hs hl hr hu)).trans ?_
  rw [h]

theorem execBinderBootDone_of_valid (h : s.mc.validImage .binder = some f) : execBinderBootDone s = .next
    ((((s.modPwr fun p => { p with step := 8 }).modHost fun h => { h with binderUp := true }).loadImage .binder f).setIfLevel
      (BitVec.ofNat 8 (mfLevel f.manifest.toNat))) := by
  refine (if_neg (execBinderBootDone_at hm hs hl hr hu)).trans ?_
  rw [h]
end

theorem State.setIfLevel_of_same {level : Byte} (h : s.host.ifLevel = level) : s.setIfLevel level = s := by
  subst h
  exact if_pos rfl

theorem State.setIfLevel_of_new {level : Byte} (h : s.host.ifLevel ≠ level) :
    s.setIfLevel level = (s.modHost fun h => { h with ifLevel := level }).resendPartner.advertise := if_neg h

theorem State.setIfLevel_ifLevel (s : State) (level : Byte) : (s.setIfLevel level).host.ifLevel = level := by
  by_cases h : s.host.ifLevel = level
  · rw [State.setIfLevel_of_same h, h]
  · rw [State.setIfLevel_of_new h, (State.advertise_fabricOnly _).host, (State.resendPartner_fabricOnly _).host]
    rfl

/-! ### Steps 9 and 10: the self-test (R234, R359, R379) -/

/-- The sites after the self-test: those that fail are retired, the others have passed (log entry 42). -/
def State.testedSites (s : State) (failed : List SiteId) : Vector Site 200 := Vector.ofFn fun i : SiteId =>
  if i ∈ failed then { s.site i with role := .retired, cause := 7, testOk := false, testedAt := s.now }
  else { s.site i with testOk := true, testedAt := s.now, deepSleep := decide ((s.site i).role = .guard) }

theorem State.showRoles_pwr (s : State) : s.showRoles.pwr = s.pwr := by
  rw [State.showRoles]
  split <;> rfl

theorem execStartupBistDone_of_due (xs : List SiteId) (hm : s.pwr.main = true) (hs : s.pwr.step = 8) (hl : s.clk.lost = false)
    (hr : s.clk.returning = false) : execStartupBistDone xs s = .next (
      let t := { State.showRoles { s with sites := s.testedSites xs } with pwr := { s.pwr with step := 10 } }
      if t.deviceState = 0 then { t with pwr := { t.pwr with alert := false } } else t) := by
  have hsites : s.testedSites xs = Vector.ofFn fun i : Fin 200 =>
      if xs.contains i then { s.sites[i] with role := .retired, cause := 7, testOk := false, testedAt := s.now }
      else { s.sites[i] with testOk := true, testedAt := s.now, deepSleep := s.sites[i].role == .guard } :=
    congrArg Vector.ofFn (funext fun i => if_congr List.contains_iff_mem.symm rfl rfl)
  have hdone : execStartupBistDone xs s = .next (
      let t := (State.showRoles { s with sites := s.testedSites xs }).modPwr fun p => { p with step := 10 }
      if t.deviceState = 0 then t.modPwr fun p => { p with alert := false } else t) := by
    rw [hsites]
    exact if_neg (by simp [hm, hs, hl, hr])
  rw [State.modPwr, State.showRoles_pwr] at hdone
  exact hdone

end Sys2Proof.Machine

open Sys2Proof Sys2Proof.Machine

/-- Settles O60, one lemma per command and outcome. -/
theorem startUp : Obligations.StartUp := by
  intro s
  refine ⟨fun p hs hp => ?_, execMcResetRelease_of_still, fun n x => ?_, ?_, fun xs hm hs hl hr hu => ?_, fun hm hs hl hr hu => ?_,
    fun c f => ?_, fun x => ?_, fun xs hm hs hl hr => ?_, fun h => ?_, fun h xs => if_pos (.inr (.inl h)), fun h => if_pos (.inr (.inl h)),
    fun h xs => if_pos (.inr (.inl h))⟩
  · intro t u
    have hrelease := execMcResetRelease_eq p hs hp
    exact ⟨fun h => hrelease.trans (if_pos (Mc.started_iff.2 h)),
      fun h1 h2 h3 => hrelease.trans (if_neg fun h => by simpa [h1, h2, h3] using Mc.started_iff.1 h)⟩
  · intro t
    refine ⟨State.mcStart_of_invalid n x, fun f h => ?_⟩
    have hboot := State.mcStart_boot n x h
    refine ⟨congrArg BootView.up hboot, congrArg BootView.recovery hboot, ?_, congrArg BootView.latched hboot, State.mcStart_step n x h,
      State.mcStart_key n x h⟩
    exact (congrArg (fun v : BootView => imageOf v.running .mc) hboot).trans (imageOf_putImage_same _ _ _)
  · intro ok t u i
    have hup := execStartupRailsUp_eq s
    have htile (j : Nat) : s.railsOn.mc.failedOnTile j = s.mc.failedOnTile j := s.chooseAgain_failedOnTile j
    obtain ⟨hindex, hprofile⟩ := s.chooseAgain_active
    refine ⟨fun h hb => ?_, fun h hb => ?_, State.chooseAgain_of_same, hindex, hprofile, fun h => hup.trans (congrArg _ (if_neg h))⟩
    · rw [if_pos h, State.blindOff_of_sighted fun j hj => (htile j).trans_le (hb j hj)] at hup
      exact hup
    · obtain ⟨j, hj, h5⟩ := hb
      obtain ⟨v, hv⟩ := State.blindOff_of_blind (s := s.railsOn) rfl ⟨j, hj, h5.trans_eq (htile j).symm⟩
      rw [if_pos h, hv] at hup
      exact ⟨_, hup, rfl, rfl⟩
  · refine ⟨execStartupTrainingDone_of_badLinkUcode xs hm hs hl hr hu, fun l => execStartupTrainingDone_of_badMemUcode xs hm hs hl hr hu,
      fun l m hk hv => ?_⟩
    obtain ⟨hhbm, hdram, hepoch⟩ := s.loadImage_memory .linkUcode l
    obtain ⟨hhbm', hdram', hepoch'⟩ := (s.loadImage .linkUcode l).loadImage_memory .memUcode m
    have hstack (k : StackId) : ((s.loadImage .linkUcode l).loadImage .memUcode m).stack k = s.stack k := by
      rw [State.stack, hhbm', hhbm, ← State.stack]
    have hlife : ((s.loadImage .linkUcode l).loadImage .memUcode m).mc.lifeCycle = s.mc.lifeCycle := by
      rw [Mc.lifeCycle, Mc.fuse, State.loadImage_fuses, State.loadImage_fuses]
      rfl
    refine ⟨_, execStartupTrainingDone_of_valid xs hm hs hl hr hu hk hv, rfl, rfl, ?_, ?_, fun k hs => ?_, fun k hs hx => ?_, fun h => ?_,
      fun h => ?_⟩
    · rw [State.trainingDone_running, State.loadImage_running, imageOf_putImage_ne _ (by decide), State.loadImage_running,
        imageOf_putImage_same]
    · rw [State.trainingDone_running, State.loadImage_running, imageOf_putImage_same]
    · rw [State.trainingDone_stack xs (by rw [hstack, hs]), hstack]
      split
      · rfl
      · exact hs
    · rw [State.trainingDone_stack xs (by rw [hstack, hs]), if_neg hx]
    · obtain ⟨hd, he⟩ := State.trainingDone_of_returned xs (hlife.trans h)
      exact ⟨hd, State.dramRead_of_clear hd he⟩
    · obtain ⟨hd, he⟩ := State.trainingDone_of_kept xs (hlife ▸ h)
      exact ⟨hd.trans (hdram'.trans hdram), he.trans (hepoch'.trans hepoch)⟩
  · exact ⟨execBinderBootDone_of_invalid hm hs hl hr hu, fun f => execBinderBootDone_of_valid hm hs hl hr hu⟩
  · refine ⟨?_, State.nowServes_pending _ _ _, fun h => State.nowServes_of_new _ _ h⟩
    rw [State.loadImage_running]
    exact imageOf_putImage_same _ _ _
  · exact ⟨s.setIfLevel_ifLevel x, State.setIfLevel_of_new, State.setIfLevel_of_same⟩
  · exact execStartupBistDone_of_due xs hm hs hl hr
  · exact (execStartupRailsUp_eq s).trans (congrArg _ (if_neg fun ok => h ok.2.1))
end

