-- ==== Sys2Proof/Proofs/Lasting.lean ====
section
/-!
SUPPORT. What no command but a few changes: the queue of waiting commands, the fuse array and the shadow from which it is read (R313, R342).
`State.lasting` gathers the three; under the elementary updates of the state it stays as it is.
-/

namespace Sys2Proof.Machine

/-- The queue of waiting commands, the fuse shadow and the fuse array. -/
def State.lasting (s : State) : List Instr × BitVec 8448 × BitVec 8448 := (s.pending, s.mc.fuses, s.mc.fuseArray)

/-- The next state, where an outcome has one, has the queue and the fuses of `s`. -/
def State.outLasts (s : State) : Host.Outcome State Fault Refusal → Prop
  | .next t => t.lasting = s.lasting
  | .fault _ => True
  | .refused _ => True

variable (s : State)

@[simp] theorem State.outLasts_next (t : State) : s.outLasts (.next t) ↔ t.lasting = s.lasting := .rfl

@[simp] theorem State.outLasts_fault (r : Fault) : s.outLasts (.fault r) := trivial

@[simp] theorem State.outLasts_act (b : Bool) (t u : State) :
    s.outLasts (act b t u) ↔ (if b = true then u else t).lasting = s.lasting := .rfl

/-! ### Choices and folds -/

@[simp] theorem State.lasting_ite {p : Prop} [Decidable p] (t u : State) :
    (if p then t else u).lasting = if p then t.lasting else u.lasting := apply_ite _ _ _ _

@[simp] theorem State.outLasts_ite {p : Prop} [Decidable p] (x y : Host.Outcome State Fault Refusal) :
    s.outLasts (if p then x else y) = if p then s.outLasts x else s.outLasts y := apply_ite _ _ _ _

@[simp] theorem State.foldl_lasting {α : Type} (f : State → α → State) (hf : ∀ t x, (f t x).lasting = t.lasting) (l : List α) :
    (l.foldl f s).lasting = s.lasting := foldl_keeps State.lasting hf l s

/-! ### The fuses of the management controller -/

@[simp] theorem Mc.ite_fuses {p : Prop} [Decidable p] (m n : Mc) : (if p then m else n).fuses = if p then m.fuses else n.fuses :=
  apply_ite _ _ _ _

@[simp] theorem Mc.ite_fuseArray {p : Prop} [Decidable p] (m n : Mc) :
    (if p then m else n).fuseArray = if p then m.fuseArray else n.fuseArray := apply_ite _ _ _ _

@[simp] theorem Mc.giveBack_fuses (m : Mc) : m.giveBack.fuses = m.fuses := by
  unfold Mc.giveBack
  split <;> rfl

@[simp] theorem Mc.giveBack_fuseArray (m : Mc) : m.giveBack.fuseArray = m.fuseArray := by
  unfold Mc.giveBack
  split <;> rfl

@[simp] theorem Mc.enterHeld_fuses (m : Mc) : m.enterHeld.fuses = m.fuses := foldl_keeps Mc.fuses Mc.enter_fuses _ _

@[simp] theorem Mc.enterHeld_fuseArray (m : Mc) : m.enterHeld.fuseArray = m.fuseArray :=
  foldl_keeps Mc.fuseArray Mc.enter_fuseArray _ _

@[simp] theorem Mc.putKey_fuses (m : Mc) (k : BitVec 384) : (m.putKey k).fuses = m.fuses := by rfl

@[simp] theorem Mc.putKey_fuseArray (m : Mc) (k : BitVec 384) : (m.putKey k).fuseArray = m.fuseArray := by rfl

@[simp] theorem Mc.putCode_fuses (m : Mc) (f : FwImage) : (m.putCode f).fuses = m.fuses := by rfl

@[simp] theorem Mc.putCode_fuseArray (m : Mc) (f : FwImage) : (m.putCode f).fuseArray = m.fuseArray := by rfl

@[simp] theorem Mc.writeChunk_fuses (m : Mc) (c : Component) (bytes : List Byte) : (m.writeChunk c bytes).fuses = m.fuses := by rfl

@[simp] theorem Mc.writeChunk_fuseArray (m : Mc) (c : Component) (bytes : List Byte) : (m.writeChunk c bytes).fuseArray = m.fuseArray := by
  rfl

@[simp] theorem Mc.setSensor_fuses (m : Mc) (g : SensorGroup) (i : Nat) (x : Sensor) : (m.setSensor g i x).fuses = m.fuses := by
  cases g <;> rfl

@[simp] theorem Mc.setSensor_fuseArray (m : Mc) (g : SensorGroup) (i : Nat) (x : Sensor) :
    (m.setSensor g i x).fuseArray = m.fuseArray := by
  cases g <;> rfl

@[simp] theorem Mc.foldl_writeLog_fuses (m : Mc) (l : List LogEntry) : (l.foldl Mc.writeLog m).fuses = m.fuses :=
  foldl_keeps Mc.fuses (f := Mc.writeLog) (fun _ _ => rfl) l m

@[simp] theorem Mc.foldl_writeLog_fuseArray (m : Mc) (l : List LogEntry) : (l.foldl Mc.writeLog m).fuseArray = m.fuseArray :=
  foldl_keeps Mc.fuseArray (f := Mc.writeLog) (fun _ _ => rfl) l m

/-! ### Elementary updates -/

theorem State.lasting_congr {t : State} (hq : t.pending = s.pending) (hm : t.mc = s.mc) : t.lasting = s.lasting := by
  simp only [State.lasting, hq, hm]

@[simp] theorem State.modMc_lasting (f : Mc → Mc) (h : ∀ m, (f m).fuses = m.fuses) (h' : ∀ m, (f m).fuseArray = m.fuseArray) :
    (s.modMc f).lasting = s.lasting := by
  simp only [State.lasting, State.modMc, h, h']

@[simp] theorem State.dramWrite_lasting (a : Nat) (bytes : List Byte) : (s.dramWrite a bytes).lasting = s.lasting := by rfl

@[simp] theorem State.markPages_lasting (a n : Nat) : (s.markPages a n).lasting = s.lasting := by rfl

@[simp] theorem State.dramStore_lasting (a : Nat) (bytes : List Byte) : (s.dramStore a bytes).lasting = s.lasting := by
  simp [State.dramStore]

@[simp] theorem State.loseDram_lasting : s.loseDram.lasting = s.lasting := by rfl

@[simp] theorem State.hostWrite_lasting (a : Nat) (bytes : List Byte) : (s.hostWrite a bytes).lasting = s.lasting := by rfl

@[simp] theorem State.setCore_lasting (c : CoreId) (k : Core) : (s.setCore c k).lasting = s.lasting := by rfl

@[simp] theorem State.modCore_lasting (c : CoreId) (f : Core → Core) : (s.modCore c f).lasting = s.lasting := by simp [State.modCore]

@[simp] theorem State.modSite_lasting (i : SiteId) (f : Site → Site) : (s.modSite i f).lasting = s.lasting := by rfl

@[simp] theorem State.modStack_lasting (i : StackId) (f : Stack → Stack) : (s.modStack i f).lasting = s.lasting := by rfl

@[simp] theorem State.modLink_lasting (l : LaneId) (f : Link → Link) : (s.modLink l f).lasting = s.lasting := by rfl

@[simp] theorem State.modHost_lasting (f : HostIf → HostIf) : (s.modHost f).lasting = s.lasting := by rfl

@[simp] theorem State.modProg_lasting (f : Program → Program) : (s.modProg f).lasting = s.lasting := by rfl

@[simp] theorem State.modCad_lasting (f : Cadence → Cadence) : (s.modCad f).lasting = s.lasting := by rfl

@[simp] theorem State.modFab_lasting (f : Fabric → Fabric) : (s.modFab f).lasting = s.lasting := by rfl

@[simp] theorem State.modPwr_lasting (f : Power → Power) : (s.modPwr f).lasting = s.lasting := by rfl

@[simp] theorem State.modClk_lasting (f : Clocks → Clocks) : (s.modClk f).lasting = s.lasting := by rfl

@[simp] theorem State.mapCores_lasting (f : Core → Core) : (s.mapCores f).lasting = s.lasting := by
  simp only [State.lasting, State.mapCores]

@[simp] theorem State.bump_lasting : s.bump.lasting = s.lasting := by rfl

end Sys2Proof.Machine
end

