-- ==== Sys2Proof/Proofs/LastingShared.lean ====
section
/-!
SUPPORT. Queue and fuses stay under what many commands share: log entries and events, handles and their completion, registers,
flits sent, and the start and end of programs (R298, R317, R336).
-/

namespace Sys2Proof.Machine

variable (s : State)

@[simp] theorem State.mcDown_lasting (cause : Nat) : (s.mcDown cause).lasting = s.lasting := by simp [State.mcDown]

@[simp] theorem State.logAs_lasting (sev : BitVec 2) (code : Nat) (cont : Bool) (payload : Nat) :
    (s.logAs sev code cont payload).lasting = s.lasting := by simp [State.logAs]

@[simp] theorem State.log_lasting (code : Nat) (items : List W32) : (s.log code items).lasting = s.lasting := by simp [State.log]

@[simp] theorem State.logEvent_lasting (e : EventRec) : (s.logEvent e).lasting = s.lasting := by
  unfold State.logEvent
  split <;> simp

@[simp] theorem State.raise_lasting (code core : Nat) (items : List W32) (record : Option (BitVec 256)) (stepNo : Option W64) :
    (s.raise code core items record stepNo).lasting = s.lasting := by simp [State.raise]

@[simp] theorem State.raiseDev_lasting (code : Nat) (items : List W32) : (s.raiseDev code items).lasting = s.lasting := by
  simp [State.raiseDev]

@[simp] theorem State.raiseStep_lasting (code core : Nat) (items : List W32) (record : Option (BitVec 256)) (stepNo : Option W64) :
    (s.raiseStep code core items record stepNo).lasting = s.lasting := by simp [State.raiseStep]

@[simp] theorem State.modEntry_lasting (x : Handle) (f : HandleEntry → HandleEntry) : (s.modEntry x f).lasting = s.lasting := by
  simp [State.modEntry]

@[simp] theorem State.complete_lasting (x : Handle) (status detail result : Nat) :
    (s.complete x status detail result).lasting = s.lasting := by
  unfold State.complete
  split <;> simp

@[simp] theorem State.completeAll_lasting (xs : List Handle) (status detail result : Nat) :
    (s.completeAll xs status detail result).lasting = s.lasting := by simp [State.completeAll]

@[simp] theorem State.fault_lasting (cause who : Nat) (record : Option (BitVec 256)) : (s.fault cause who record).lasting = s.lasting := by
  simp [State.fault]

@[simp] theorem State.faultNext_lasting (cause who : Nat) (record : Option (BitVec 256)) :
    (s.faultNext cause who record).lasting = s.lasting := by simp [State.faultNext]

theorem execPcieLinkDown_lasting (port : PciePort) : s.outLasts (execPcieLinkDown port s) := by simp [execPcieLinkDown]

theorem execPcieLinkUp_lasting (port : PciePort) (width : BitVec 5) (generation : BitVec 3) :
    s.outLasts (execPcieLinkUp port width generation s) := by simp [execPcieLinkUp]

theorem execTakeover_lasting (port : PciePort) (value : W32) : s.outLasts (execTakeover port value s) := by
  simp only [execTakeover, State.outLasts_ite, State.outLasts_next, State.modHost_lasting, State.raiseDev_lasting, if_true_left]
  exact fun _ _ _ => State.lasting_congr s rfl rfl

theorem execHostReset_lasting (port : PciePort) (kind : HostResetKind) : s.outLasts (execHostReset port kind s) := by
  simp only [execHostReset]
  repeat' split
  all_goals simp

theorem execHostInterfaceUsable_lasting : s.outLasts (execHostInterfaceUsable s) := by simp [execHostInterfaceUsable]

theorem execMbTailWrite_lasting (mailbox : Fin 8) (tail : BitVec 16) : s.outLasts (execMbTailWrite mailbox tail s) := by
  simp [execMbTailWrite]

theorem execCommandTake_lasting (mailbox : Fin 8) : s.outLasts (execCommandTake mailbox s) := by
  have htaken (h : HostIf) : State.lasting { s with host := h } = s.lasting := rfl
  simp only [execCommandTake]
  split
  · rfl
  · split
    · rfl
    · split
      · simp
      · split
        · split
          · simp [htaken]
          · split <;> simp [htaken]
        · split <;> simp [htaken]

@[simp] theorem State.badField_lasting (x : Handle) (lo : Nat) : (s.badField x lo).lasting = s.lasting := by simp [State.badField]

@[simp] theorem State.markBegun_lasting (x : Handle) : (s.markBegun x).lasting = s.lasting := by simp [State.markBegun]

theorem execCompletionPost_lasting (ring : Fin 8) : s.outLasts (execCompletionPost ring s) := by
  unfold execCompletionPost
  split <;> simp

theorem execEventPost_lasting : s.outLasts (execEventPost s) := by
  simp only [execEventPost]
  repeat' split
  all_goals simp

theorem execMsixDelayExpiry_lasting (ring : Fin 8) : s.outLasts (execMsixDelayExpiry ring s) := by simp [execMsixDelayExpiry]

theorem execRingHeadWrite_lasting (ring : Fin 8) (head : W32) : s.outLasts (execRingHeadWrite ring head s) := by simp [execRingHeadWrite]

theorem execRingEnable_lasting (ring : Fin 8) : s.outLasts (execRingEnable ring s) := by simp [execRingEnable]

theorem execPeriphEnableWrite_lasting (target : Option Gate) (value : W32) (busy : List Gate) :
    s.outLasts (execPeriphEnableWrite target value busy s) := by
  unfold execPeriphEnableWrite
  split <;> simp

theorem execGateForced_lasting (gate : Gate) (initiator : GateInitiator) : s.outLasts (execGateForced gate initiator s) := by
  simp [execGateForced]

@[simp] theorem State.writeBar0Byte_lasting (a : Nat) (b : Byte) : (s.writeBar0Byte a b).lasting = s.lasting := by
  simp only [State.writeBar0Byte, State.lasting_ite, State.modHost_lasting, State.modCad_lasting, ite_self]

@[simp] theorem State.writeBar0_lasting (a : Nat) (bytes : List Byte) : (s.writeBar0 a bytes).lasting = s.lasting := by
  induction bytes generalizing s a with
  | nil => rfl
  | cons b r ih => rw [State.writeBar0, ih, State.writeBar0Byte_lasting]

@[simp] theorem State.writeMet_lasting (c : SameCycle) (drop : Option Nat) (a : Nat) (bytes : List Byte) :
    (s.writeMet c drop a bytes).lasting = s.lasting := by
  induction bytes generalizing s a with
  | nil => rfl
  | cons b r ih => rw [State.writeMet, ih]; simp

theorem execRegisterWrite_lasting (offset : Nat) (bytes : List Byte) (same : SameCycle) :
    s.outLasts (execRegisterWrite offset bytes same s) := by
  simp only [execRegisterWrite]
  split
  · rfl
  · cases wordMet same offset bytes.length <;> simp

theorem execBar2Read_lasting (offset len : Nat) : s.outLasts (execBar2Read offset len s) := by simp [execBar2Read]

theorem execBar2Write_lasting (offset : Nat) (bytes : List Byte) : s.outLasts (execBar2Write offset bytes s) := by simp [execBar2Write]

@[simp] theorem State.raiseSteer_lasting (e : SteerEvent) : (s.raiseSteer e).lasting = s.lasting := by
  unfold State.raiseSteer
  split <;> simp

@[simp] theorem State.raiseHistory_lasting : s.raiseHistory.lasting = s.lasting := by
  simp only [State.raiseHistory]
  split <;> simp

@[simp] theorem State.raiseCountSat_lasting (rs : List CollRec) : (s.raiseCountSat rs).lasting = s.lasting := by simp [State.raiseCountSat]

@[simp] theorem State.writeCollationHalf_lasting (img : Image) (rs : List CollRec) : (s.writeCollationHalf img rs).lasting = s.lasting := by
  simp [State.writeCollationHalf]

@[simp] theorem State.commitSteering_lasting (img : Image) : (s.commitSteering img).lasting = s.lasting := by simp [State.commitSteering]

@[simp] theorem State.emit_lasting (lane : Option LaneId) (vc : BitVec 2) (timed : Bool)
    (src : BitVec 16) (seq : W32) (flits : Nat) (transit : Option Transfer) (header : BitVec 512) (m : Msg) :
    (s.emit lane vc timed src seq flits transit header m).lasting = s.lasting := by
  unfold State.emit
  split <;> simp

@[simp] theorem State.sendAs_lasting (dst : BitVec 16) (seq : W32) (escape : Bool) (m : Msg) :
    (s.sendAs dst seq escape m).lasting = s.lasting := by simp [State.sendAs]

@[simp] theorem State.sendDyn_lasting (dst : BitVec 16) (i : Initiator) (m : Msg) : (s.sendDyn dst i m).lasting = s.lasting := by
  simp [State.sendDyn]

@[simp] theorem State.send_lasting (dst : BitVec 16) (m : Msg) : (s.send dst m).lasting = s.lasting := by simp [State.send]

@[simp] theorem State.flood_lasting (but : Option LaneId) (m : Msg) : (s.flood but m).lasting = s.lasting := by simp [State.flood]

@[simp] theorem State.sendLink_lasting (l : LaneId) (header : BitVec 512) (m : Msg) : (s.sendLink l header m).lasting = s.lasting := by
  simp [State.sendLink]

@[simp] theorem State.passOn_lasting (l : LaneId) (vc : BitVec 2) (timed : Bool) (t : Transfer) :
    (s.passOn l vc timed t).lasting = s.lasting := by simp [State.passOn]

@[simp] theorem State.serveLanes_lasting : s.serveLanes.lasting = s.lasting := by simp [State.serveLanes]

@[simp] theorem State.sendSync_lasting (l : LaneId) : (s.sendSync l).lasting = s.lasting := by simp [State.sendSync]

@[simp] theorem State.sendPartner_lasting (l : LaneId) : (s.sendPartner l).lasting = s.lasting := by simp [State.sendPartner]

@[simp] theorem State.advertise_lasting : s.advertise.lasting = s.lasting := by simp [State.advertise]

@[simp] theorem State.resendPartner_lasting : s.resendPartner.lasting = s.lasting := by simp [State.resendPartner]

@[simp] theorem State.setIfLevel_lasting (level : Byte) : (s.setIfLevel level).lasting = s.lasting := by simp [State.setIfLevel]

@[simp] theorem State.noteRoot_lasting : s.noteRoot.lasting = s.lasting := by simp [State.noteRoot]

@[simp] theorem State.retryEscape_lasting : s.retryEscape.lasting = s.lasting := by
  refine State.foldl_lasting _ _ (fun t e => ?_) _
  split <;> simp

@[simp] theorem State.topologyChanged_lasting : s.topologyChanged.lasting = s.lasting := by simp [State.topologyChanged]

@[simp] theorem State.takeId_lasting (id : BitVec 16) (source : BitVec 2) : (s.takeId id source).lasting = s.lasting := by
  simp [State.takeId]

@[simp] theorem State.takeShelf_lasting : s.takeShelf.lasting = s.lasting := by
  unfold State.takeShelf
  split <;> simp

@[simp] theorem State.flipTables_lasting : s.flipTables.lasting = s.lasting := by
  simp only [State.flipTables, State.lasting_ite, State.retryEscape_lasting, State.noteRoot_lasting, ite_self]
  exact (State.foldl_lasting _ _ (fun t l => by simp) _).trans (State.foldl_lasting _ _ (fun t l => by simp) _)

@[simp] theorem State.clearCore_lasting (img : Image) (c : CoreId) : (s.clearCore img c).lasting = s.lasting := by simp [State.clearCore]

@[simp] theorem State.showRoles_lasting : s.showRoles.lasting = s.lasting := by
  unfold State.showRoles
  split <;> rfl

@[simp] theorem State.moveCore_lasting (img : Image) (c : CoreId) (g : SiteId) : (s.moveCore img c g).lasting = s.lasting := by
  simp [State.moveCore]

@[simp] theorem State.swapCores_lasting (c d : CoreId) : (s.swapCores c d).lasting = s.lasting := by simp [State.swapCores]

@[simp] theorem State.placeCore_lasting (img : Image) (c : CoreId) : (s.placeCore img c).lasting = s.lasting := by
  simp only [State.placeCore]
  repeat' split
  all_goals simp

@[simp] theorem State.placeCores_lasting (img : Image) : (s.placeCores img).lasting = s.lasting := by simp [State.placeCores]

@[simp] theorem State.beginCore_lasting (img : Image) (c : CoreId) : (s.beginCore img c).lasting = s.lasting := by simp [State.beginCore]

@[simp] theorem State.startProgram_lasting (img : Image) (h : Handle) (ranks : List (BitVec 10 × BitVec 16)) :
    (s.startProgram img h ranks).lasting = s.lasting := by simp [State.startProgram]

@[simp] theorem State.tryActivate_lasting : s.tryActivate.lasting = s.lasting := by
  simp only [State.tryActivate]
  repeat' split
  all_goals simp

@[simp] theorem State.writeCollation_lasting : s.writeCollation.lasting = s.lasting := by
  unfold State.writeCollation
  split <;> simp

@[simp] theorem State.raiseGaps_lasting (c : CoreId) : (s.raiseGaps c).lasting = s.lasting := by simp [State.raiseGaps]

@[simp] theorem State.raiseCore_lasting (c : CoreId) : (s.raiseCore c).lasting = s.lasting := by
  simp only [State.raiseCore]
  repeat' split
  all_goals simp

@[simp] theorem State.endProgramWith_lasting (status detail : Nat) (result : Option Nat) (more : List W32) :
    (s.endProgramWith status detail result more).lasting = s.lasting := by
  simp only [State.endProgramWith]
  split
  · rfl
  · simp only [State.tryActivate_lasting, State.takeShelf_lasting, State.lasting_ite, State.advertise_lasting, ite_self,
      State.modFab_lasting, State.modCad_lasting, State.modProg_lasting, State.mapCores_lasting]
    refine (State.foldl_lasting _ _ (fun t x => ?_) _).trans (by simp)
    split <;> simp

@[simp] theorem State.endProgram_lasting (status detail : Nat) (result : Option Nat) :
    (s.endProgram status detail result).lasting = s.lasting := by simp [State.endProgram]

@[simp] theorem State.coreStopsWith_lasting (c : CoreId) (status detail : Nat) (more : List W32) :
    (s.coreStopsWith c status detail more).lasting = s.lasting := by simp [State.coreStopsWith]

@[simp] theorem State.coreStops_lasting (c : CoreId) (status detail : Nat) : (s.coreStops c status detail).lasting = s.lasting := by
  simp [State.coreStops]

@[simp] theorem State.coreFault_lasting (c : CoreId) (cause : Nat) (record : Option (BitVec 256)) :
    (s.coreFault c cause record).lasting = s.lasting := by simp [State.coreFault]

@[simp] theorem State.countCe_lasting (i : SiteId) (mem : CoreMem) (rec : BitVec 256) : (s.countCe i mem rec).lasting = s.lasting := by
  simp [State.countCe]

@[simp] theorem State.countUe_lasting (i : SiteId) (rec : BitVec 256) : (s.countUe i rec).lasting = s.lasting := by simp [State.countUe]

@[simp] theorem State.meetMark_lasting (c : CoreId) (requester : Nat) (m : EccMark) : (s.meetMark c requester m).lasting = s.lasting := by
  unfold State.meetMark
  split <;> simp

@[simp] theorem State.touch_lasting (c : CoreId) (mem : CoreMem) (a n requester : Nat) :
    (s.touch c mem a n requester).lasting = s.lasting := by simp [State.touch]

@[simp] theorem State.touchTable_lasting (img : Image) (c : CoreId) (k size i : Nat) :
    (s.touchTable img c k size i).lasting = s.lasting := by simp [State.touchTable]

@[simp] theorem State.touchPartial_lasting (c : CoreId) (mem : CoreMem) (a n requester : Nat) :
    (s.touchPartial c mem a n requester).lasting = s.lasting := by simp [State.touchPartial]

@[simp] theorem State.storeCore_lasting (c : CoreId) (t : Nat) (mem : CoreMem) (a : Nat) (bytes : List (Option Byte)) (requester : Nat) :
    (s.storeCore c t mem a bytes requester).lasting = s.lasting := by simp [State.storeCore]

end Sys2Proof.Machine
end

