-- ==== Sys2Proof/Proofs/LastingEngines.lean ====
section
/-!
SUPPORT. The Plough, the Needle, Collator and Bench work on a core's own state: queue and fuses stay.
-/

namespace Sys2Proof.Machine

variable (s : State)

@[simp] theorem State.modPl_lasting (c : CoreId) (f : Plough → Plough) : (s.modPl c f).lasting = s.lasting := by simp [State.modPl]

@[simp] theorem State.ploughFault_lasting (c : CoreId) (addr : Nat) : (s.ploughFault c addr).lasting = s.lasting := by
  simp [State.ploughFault]

@[simp] theorem State.ploughNext_lasting (c : CoreId) : (s.ploughNext c).lasting = s.lasting := by
  simp only [State.ploughNext]
  split <;> simp

@[simp] theorem State.ploughEndInvocation_lasting (c : CoreId) : (s.ploughEndInvocation c).lasting = s.lasting := by
  simp only [State.ploughEndInvocation]
  split <;> simp

@[simp] theorem State.fetchLine_lasting (c : CoreId) : (s.fetchLine c).lasting = s.lasting := by simp [State.fetchLine]

@[simp] theorem ploughDo_lasting (c : CoreId) (op : Nat) (f : Nat → State → State) (hf : ∀ r t, (f r t).lasting = t.lasting) :
    s.outLasts (ploughDo c op f s) := by simp [ploughDo, hf]

@[simp] theorem ploughRegs_lasting (c : CoreId) (op : Nat) (f : Nat → Plough → Plough) : s.outLasts (ploughRegs c op f s) := by
  simp [ploughRegs]

theorem execPloughNop_lasting (c : CoreId) : s.outLasts (execPloughNop c s) := by simp [execPloughNop]

theorem execPloughEnd_lasting (c : CoreId) : s.outLasts (execPloughEnd c s) := by simp [execPloughEnd]

theorem execPloughLoop_lasting (c : CoreId) : s.outLasts (execPloughLoop c s) := by simp [execPloughLoop]

theorem execPloughEndLoop_lasting (c : CoreId) : s.outLasts (execPloughEndLoop c s) := by
  refine ploughDo_lasting s c 0x03 _ fun _ t => ?_
  split <;> simp

theorem execBrf_lasting (c : CoreId) : s.outLasts (execBrf c s) := by simp [execBrf]

@[simp] theorem State.ploughLoad_lasting (c : CoreId) (space a n : Nat) (vector : Bool) (f : List Byte → State → State)
    (hf : ∀ bs t, (f bs t).lasting = t.lasting) :
    (s.ploughLoad c space a n vector f).lasting = s.lasting := by simp [State.ploughLoad, hf]

theorem execVld_lasting (c : CoreId) : s.outLasts (execVld c s) := by simp [execVld]

@[simp] theorem State.ploughPut_lasting (c : CoreId) (t space a : Nat) (vector : Bool) (bytes : List (Option Byte)) (f : State → State)
    (hf : ∀ t, (f t).lasting = t.lasting) :
    (s.ploughPut c t space a vector bytes f).lasting = s.lasting := by simp [State.ploughPut, hf]

theorem execVst_lasting (c : CoreId) (cycle : Nat) : s.outLasts (execVst c cycle s) := by simp [execVst]

theorem execSld_lasting (c : CoreId) : s.outLasts (execSld c s) := by simp [execSld]

theorem execSst_lasting (c : CoreId) (cycle : Nat) : s.outLasts (execSst c cycle s) := by simp [execSst]

theorem execVadd_lasting (c : CoreId) : s.outLasts (execVadd c s) := by simp [execVadd]

theorem execVsub_lasting (c : CoreId) : s.outLasts (execVsub c s) := by simp [execVsub]

theorem execVmul_lasting (c : CoreId) : s.outLasts (execVmul c s) := by simp [execVmul]

theorem execVdiv_lasting (c : CoreId) : s.outLasts (execVdiv c s) := by simp [execVdiv]

theorem execVsqrt_lasting (c : CoreId) : s.outLasts (execVsqrt c s) := by simp [execVsqrt]

theorem execVrsum_lasting (c : CoreId) : s.outLasts (execVrsum c s) := by simp [execVrsum]

theorem execVexp2_lasting (c : CoreId) : s.outLasts (execVexp2 c s) := by simp [execVexp2]

theorem execVlog2_lasting (c : CoreId) : s.outLasts (execVlog2 c s) := by simp [execVlog2]

theorem execVexp_lasting (c : CoreId) : s.outLasts (execVexp c s) := by simp [execVexp]

theorem execVlog_lasting (c : CoreId) : s.outLasts (execVlog c s) := by simp [execVlog]

theorem execVlse_lasting (c : CoreId) : s.outLasts (execVlse c s) := by simp [execVlse]

theorem execVrlse_lasting (c : CoreId) : s.outLasts (execVrlse c s) := by simp [execVrlse]

@[simp] theorem State.takeDraws_lasting (c : CoreId) (r n : Nat) : (s.takeDraws c r n).lasting = s.lasting := by simp [State.takeDraws]

@[simp] theorem State.quantise_lasting (c : CoreId) (cycle r code : Nat) (e5m2 : Bool) :
    (s.quantise c cycle r code e5m2).lasting = s.lasting := by simp [State.quantise]

theorem execQfolio_lasting (c : CoreId) (cycle : Nat) : s.outLasts (execQfolio c cycle s) := by simp [execQfolio]

theorem execQwire_lasting (c : CoreId) (cycle : Nat) : s.outLasts (execQwire c cycle s) := by simp [execQwire]

theorem execQcvt_lasting (c : CoreId) (cycle : Nat) : s.outLasts (execQcvt c cycle s) := by simp [execQcvt]

@[simp] theorem State.ploughHalt_lasting (c : CoreId) (reason space a : Nat) : (s.ploughHalt c reason space a).lasting = s.lasting := by
  simp [State.ploughHalt]

theorem execUnpack_lasting (c : CoreId) : s.outLasts (execUnpack c s) := by
  refine ploughDo_lasting s c 0x43 _ fun r t => State.ploughLoad_lasting _ _ _ _ _ _ _ fun bs u => ?_
  dsimp only
  split <;> simp

theorem execTestf_lasting (c : CoreId) : s.outLasts (execTestf c s) := by simp [execTestf]

theorem execMreenc_lasting (c : CoreId) : s.outLasts (execMreenc c s) := by
  refine ploughDo_lasting s c 0x45 _ fun r t => State.ploughLoad_lasting _ _ _ _ _ _ _ fun bs u => ?_
  split
  · simp
  · refine State.ploughLoad_lasting _ _ _ _ _ _ _ fun bs v => State.ploughPut_lasting _ _ _ _ _ _ _ _ fun w => ?_
    simp

theorem execVrand_lasting (c : CoreId) : s.outLasts (execVrand c s) := by simp [execVrand]

@[simp] theorem State.modStrm_lasting (c : CoreId) (i : Nat) (f : Stream → Stream) : (s.modStrm c i f).lasting = s.lasting := by
  simp [State.modStrm]

@[simp] theorem State.haltStream_lasting (c : CoreId) (i : Nat) (elastic : Bool) (h : HaltAt) :
    (s.haltStream c i elastic h).lasting = s.lasting := by simp [State.haltStream]

@[simp] theorem State.awlReads_lasting (c : CoreId) : (s.awlReads c).lasting = s.lasting := by
  unfold State.awlReads
  split <;> simp

theorem execShadowLoadComplete_lasting (c : CoreId) : s.outLasts (execShadowLoadComplete c s) := by
  simp only [execShadowLoadComplete]
  repeat' split
  all_goals simp

@[simp] theorem State.finishRun_lasting (c : CoreId) (serial : Nat) : (s.finishRun c serial).lasting = s.lasting := by
  unfold State.finishRun
  split <;> simp

theorem execPassExchange_lasting (c : CoreId) : s.outLasts (execPassExchange c s) := by
  simp only [execPassExchange]
  split <;> simp

theorem execPassRowIssue_lasting (c : CoreId) (cycle : Nat) : s.outLasts (execPassRowIssue c cycle s) := by
  simp only [execPassRowIssue]
  split <;> simp

theorem execBeatWrite_lasting (c : CoreId) (residueFault : Option (Fin 128)) : s.outLasts (execBeatWrite c residueFault s) := by
  simp only [execBeatWrite]
  repeat' split
  all_goals simp

@[simp] theorem State.modNeedle_lasting (c : CoreId) (f : Needle → Needle) : (s.modNeedle c f).lasting = s.lasting := by
  simp [State.modNeedle]

@[simp] theorem State.takeWord_lasting (c : CoreId) : (s.takeWord c).lasting = s.lasting := by simp [State.takeWord]

@[simp] theorem State.decodeFault_lasting (c : CoreId) : (s.decodeFault c).lasting = s.lasting := by simp [State.decodeFault]

@[simp] theorem needleDo_lasting (c : CoreId) (op : Nat) (f : Image → Nat → Nat → State → State)
    (hf : ∀ i n w t, (f i n w t).lasting = t.lasting) :
    s.outLasts (needleDo c op f s) := by
  simp only [needleDo]
  split
  · rfl
  · split
    · rfl
    · split <;> simp [hf]

theorem execNeedleNop_lasting (c : CoreId) : s.outLasts (execNeedleNop c s) := by simp [execNeedleNop]

theorem execStepEnd_lasting (c : CoreId) : s.outLasts (execStepEnd c s) := by simp [execStepEnd]

@[simp] theorem State.endElastic_lasting : s.endElastic.lasting = s.lasting := by
  simp only [State.endElastic]
  repeat' split
  all_goals simp

theorem execSectionEnd_lasting (c : CoreId) : s.outLasts (execSectionEnd c s) := by simp [execSectionEnd]

theorem execRun_lasting (c : CoreId) : s.outLasts (execRun c s) := by simp [execRun]

theorem execStream_lasting (c : CoreId) : s.outLasts (execStream c s) := by simp [execStream]

theorem execKettleSignal_lasting (c : CoreId) : s.outLasts (execKettleSignal c s) := by simp [execKettleSignal]

theorem execKettleSignalApply_lasting (c : CoreId) (completion : Bool) : s.outLasts (execKettleSignalApply c completion s) := by
  simp only [execKettleSignalApply]
  repeat' split
  all_goals simp

theorem execKettleWait_lasting (c : CoreId) : s.outLasts (execKettleWait c s) := by simp [execKettleWait]

theorem execCadence_lasting (c : CoreId) : s.outLasts (execCadence c s) := by simp [execCadence]

@[simp] theorem fabricWord_lasting (c : CoreId) (recv : Bool) (img : Image) (no w : Nat) :
    (fabricWord c recv img no w s).lasting = s.lasting := by simp [fabricWord]

theorem execFabricSend_lasting (c : CoreId) : s.outLasts (execFabricSend c s) := by simp [execFabricSend]

theorem execFabricRecv_lasting (c : CoreId) : s.outLasts (execFabricRecv c s) := by simp [execFabricRecv]

theorem execSnapshot_lasting (c : CoreId) : s.outLasts (execSnapshot c s) := by simp [execSnapshot]

@[simp] theorem State.beginStep_lasting : s.beginStep.lasting = s.lasting := by
  simp only [State.beginStep]
  repeat' split
  all_goals simp

theorem execStepRelease_lasting : s.outLasts (execStepRelease s) := by
  unfold execStepRelease
  split <;> simp

@[simp] theorem State.directHalt_lasting (c : CoreId) (h : HaltAt) : (s.directHalt c h).lasting = s.lasting := by simp [State.directHalt]

theorem execDtLoad_lasting (c : CoreId) : s.outLasts (execDtLoad c s) := by
  refine needleDo_lasting s c 0x60 _ fun _ _ w t => ?_
  dsimp only
  split
  · rfl
  · split <;> simp

theorem execDtPass_lasting (c : CoreId) : s.outLasts (execDtPass c s) := by
  refine needleDo_lasting s c 0x61 _ fun _ _ w t => ?_
  dsimp only
  split <;> simp

theorem execDtPlough_lasting (c : CoreId) : s.outLasts (execDtPlough c s) := by simp [execDtPlough]

theorem execDtMove_lasting (c : CoreId) : s.outLasts (execDtMove c s) := by
  refine needleDo_lasting s c 0x63 _ fun _ _ w t => ?_
  dsimp only
  split
  · rfl
  · split
    · simp
    · split <;> simp

end Sys2Proof.Machine
end

