-- ==== Sys2Proof/Proofs/LastingAwl.lean ====
section
/-!
SUPPORT. The AWL with its tags, pages and drains, the guard tests and scrubbing (R203, R224): queue and fuses stay.
-/

namespace Sys2Proof.Machine

variable (s : State)

@[simp] theorem State.setMarks_lasting (i : SiteId) (ms : List EccMark) : (s.setMarks i ms).lasting = s.lasting := by
  unfold State.setMarks
  split <;> simp

@[simp] theorem State.spoil_lasting (i : SiteId) (mem : CoreMem) (a : Nat) (bytes : List Byte) :
    (s.spoil i mem a bytes).lasting = s.lasting := by
  unfold State.spoil
  split <;> simp

@[simp] theorem State.breakWord_lasting (i : SiteId) (m : EccMark) : (s.breakWord i m).lasting = s.lasting := by
  unfold State.breakWord
  split <;> simp

@[simp] theorem State.upset_lasting (i : SiteId) (mem : CoreMem) (a : Nat) (found : EccFind) :
    (s.upset i mem a found).lasting = s.lasting := by simp [State.upset]

@[simp] theorem State.takeUpsets_lasting : s.takeUpsets.lasting = s.lasting := by simp [State.takeUpsets]

theorem execScrubAccess_lasting (site : SiteId) (mem : CoreMem) (addr : Nat) (found : EccFind) :
    s.outLasts (execScrubAccess site mem addr found s) := by
  simp only [execScrubAccess]
  repeat' split
  all_goals simp

@[simp] theorem State.poisonUnit_lasting (u : Nat) : (s.poisonUnit u).lasting = s.lasting := by
  unfold State.poisonUnit
  split <;> rfl

@[simp] theorem State.dramUncorrectable_lasting (a : Nat) : (s.dramUncorrectable a).lasting = s.lasting := by simp [State.dramUncorrectable]

theorem execDramPatrolScrub_lasting (stack : StackId) (bank row : Nat) (found : EccFind) :
    s.outLasts (execDramPatrolScrub stack bank row found s) := by
  unfold execDramPatrolScrub
  split <;> simp

theorem execSoftRepair_lasting (stack : StackId) : s.outLasts (execSoftRepair stack s) := by
  simp only [execSoftRepair]
  split <;> simp

theorem execGuardTestStart_lasting (site : SiteId) : s.outLasts (execGuardTestStart site s) := by simp [execGuardTestStart]

theorem execGuardTestDone_lasting (site : SiteId) (failPhase : Option Nat) : s.outLasts (execGuardTestDone site failPhase s) := by
  simp only [execGuardTestDone]
  repeat' split
  all_goals simp

@[simp] theorem State.landPlain_lasting (img : Image) (c : CoreId) (i k off : Nat) (bytes : List Byte) :
    (s.landPlain img c i k off bytes).lasting = s.lasting := by simp [State.landPlain]

@[simp] theorem State.landFolios_lasting (img : Image) (c : CoreId) (i : Nat) (el : Bool) (k addr n o : Nat) (bytes : List Byte) :
    (s.landFolios img c i el k addr n o bytes).lasting = s.lasting := by
  induction n generalizing s addr o bytes with
  | zero => rfl
  | succ n ih =>
    simp only [State.landFolios]
    split
    · rfl
    · split <;> simp [ih]

@[simp] theorem State.landRead_lasting (img : Image) (c : CoreId) (i : Nat) (el : Bool) (k off addr : Nat) (bad : Bool)
    (bytes : List Byte) :
    (s.landRead img c i el k off addr bad bytes).lasting = s.lasting := by simp [State.landRead]

@[simp] theorem State.touchSource_lasting (c : CoreId) (e o n : Nat) : (s.touchSource c e o n).lasting = s.lasting := by
  simp [State.touchSource]

@[simp] theorem State.issueWrite_lasting (c : CoreId) (i e : Nat) (elastic : Bool) (sp : Span) :
    (s.issueWrite c i e elastic sp).lasting = s.lasting := by simp [State.issueWrite]

@[simp] theorem State.advanceStream_lasting (img : Image) (c : CoreId) (i e : Nat) (w : Wanted) :
    (s.advanceStream img c i e w).lasting = s.lasting := by simp [State.advanceStream]

theorem execAwlReadIssue_lasting (c : CoreId) (stream : Fin 64) : s.outLasts (execAwlReadIssue c stream s) := by
  simp only [execAwlReadIssue]
  repeat' split
  all_goals simp

theorem execReadReturn_lasting (c : CoreId) (tag : Fin 640) (uncorrectable : Bool) : s.outLasts (execReadReturn c tag uncorrectable s) := by
  simp only [execReadReturn]
  repeat' split
  all_goals simp

theorem execTagExpiry_lasting (c : CoreId) (tag : Fin 640) : s.outLasts (execTagExpiry c tag s) := by
  unfold execTagExpiry
  split <;> simp

theorem execMullBlockRelease_lasting (c : CoreId) (stream : Fin 64) : s.outLasts (execMullBlockRelease c stream s) := by
  simp only [execMullBlockRelease]
  split
  · split
    · rfl
    · split
      · rfl
      · split
        · rfl
        · split
          · rfl
          · split <;> simp only [State.outLasts_next, State.haltStream_lasting, State.lasting_ite, State.bump_lasting,
              State.modCore_lasting, State.modStrm_lasting, ite_self]
  · rfl

@[simp] theorem State.tellArm_lasting (iss : CoreId × Nat) (c : CoreId) (a : Arm) : (s.tellArm iss c a).lasting = s.lasting := by
  simp [State.tellArm]

theorem execEntryDelivery_lasting (c : CoreId) (stream : Fin 64) : s.outLasts (execEntryDelivery c stream s) := by
  simp only [execEntryDelivery]
  repeat' split
  all_goals simp

theorem execWriteAck_lasting (c : CoreId) (stream : Fin 64) : s.outLasts (execWriteAck c stream s) := by
  unfold execWriteAck
  split <;> simp

theorem execMulticastArm_lasting (c : CoreId) (stream : Fin 64) : s.outLasts (execMulticastArm c stream s) := by
  simp only [execMulticastArm]
  repeat' split
  all_goals simp

theorem execTranslationWalkDone_lasting (c : CoreId) (stream : Fin 64) : s.outLasts (execTranslationWalkDone c stream s) := by
  unfold execTranslationWalkDone
  split <;> simp

@[simp] theorem State.resumePage_lasting (p : Nat) : (s.resumePage p).lasting = s.lasting := by simp [State.resumePage]

@[simp] theorem State.evictPage_lasting (page : Nat × Bool) : (s.evictPage page).lasting = s.lasting := by
  simp only [State.evictPage]
  split <;> simp

@[simp] theorem State.frameFor_lasting (img : Image) : (s.frameFor img).lasting = s.lasting := by
  simp only [State.frameFor]
  repeat' split
  all_goals simp

theorem execPageNotPresent_lasting (c : CoreId) (stream : Fin 64) : s.outLasts (execPageNotPresent c stream s) := by
  simp only [execPageNotPresent]
  repeat' split
  all_goals simp

@[simp] theorem State.stopElastic_lasting : s.stopElastic.lasting = s.lasting := by simp [State.stopElastic]

@[simp] theorem State.failElastic_lasting (status detail : Nat) : (s.failElastic status detail).lasting = s.lasting := by
  unfold State.failElastic
  split <;> simp

@[simp] theorem State.pageFailed_lasting (c : CoreId) (stream : Fin 64) : (s.pageFailed c stream).lasting = s.lasting := by
  unfold State.pageFailed
  split <;> simp

theorem execPageInComplete_lasting (c : CoreId) (stream : Fin 64) (page : Option (List Byte)) :
    s.outLasts (execPageInComplete c stream page s) := by
  simp only [execPageInComplete]
  repeat' split
  all_goals simp

@[simp] theorem State.tipTouch_lasting (c : CoreId) (mem : CoreMem) (a n : Nat) : (s.tipTouch c mem a n).lasting = s.lasting := by
  refine State.foldl_lasting _ _ (fun t m => ?_) _
  dsimp only
  split <;> simp

@[simp] theorem State.tipPieces_lasting (c : CoreId) (mem : CoreMem) (t : Nat) (ps : List (Nat × List Byte)) :
    (s.tipPieces c mem t ps).lasting = s.lasting := by
  induction ps generalizing s t with
  | nil => rfl
  | cons p r ih => rw [State.tipPieces, ih]; simp

theorem execTippingTransfer_lasting (source : TipSource) (op : TipOp) : s.outLasts (execTippingTransfer source op s) := by
  simp only [execTippingTransfer]
  repeat' split
  all_goals simp

theorem execCancelDrainDone_lasting : s.outLasts (execCancelDrainDone s) := by simp [execCancelDrainDone]

end Sys2Proof.Machine
end

