-- ==== Sys2Proof/Proofs/LastingBoundary.lean ====
section
/-!
SUPPORT. Links that come up and go down, and what a boundary does with its step: queue and fuses stay.
-/

namespace Sys2Proof.Machine

variable (s : State)

@[simp] theorem State.failLane_lasting (l : LaneId) : (s.failLane l).lasting = s.lasting := by
  unfold State.failLane
  split <;> simp

@[simp] theorem State.wordDone_lasting (c : CoreId) (id : Byte) : (s.wordDone c id).lasting = s.lasting := by simp [State.wordDone]

@[simp] theorem State.dropLost_lasting : s.dropLost.lasting = s.lasting := by
  unfold State.dropLost
  split <;> simp

@[simp] theorem State.linkLost_lasting (l : LaneId) (next : LinkPhase) : (s.linkLost l next).lasting = s.lasting := by simp [State.linkLost]

@[simp] theorem State.takeDown_lasting (l : LaneId) (next : LinkPhase) : (s.takeDown l next).lasting = s.lasting := by
  unfold State.takeDown
  split <;> simp

theorem execLinkDown_lasting (lane : LaneId) (cause : LinkDownCause) : s.outLasts (execLinkDown lane cause s) := by simp [execLinkDown]

@[simp] theorem phaseDone_lasting (lane : LaneId) (now next : LinkPhase) (ok : Bool) :
    (phaseDone lane now next ok s).lasting = s.lasting := by simp [phaseDone]

theorem execAutoNegotiation_lasting (lane : LaneId) (ok : Bool) : s.outLasts (execAutoNegotiation lane ok s) := by
  simp [execAutoNegotiation]

theorem execLinkTraining_lasting (lane : LaneId) (ok : Bool) : s.outLasts (execLinkTraining lane ok s) := by simp [execLinkTraining]

theorem execPcsBlockLock_lasting (lane : LaneId) (ok : Bool) : s.outLasts (execPcsBlockLock lane ok s) := by simp [execPcsBlockLock]

theorem execLinkRetry_lasting (lane : LaneId) : s.outLasts (execLinkRetry lane s) := by simp [execLinkRetry]

@[simp] theorem State.linkRefused_lasting (l : LaneId) (reason : Nat) : (s.linkRefused l reason).lasting = s.lasting := by
  simp [State.linkRefused]

theorem execPartner_lasting (lane : LaneId) (flit : Flit) : s.outLasts (execPartner lane flit s) := by
  unfold execPartner
  split <;> simp

@[simp] theorem State.joinDomain_lasting (l : LaneId) : (s.joinDomain l).lasting = s.lasting := by simp [State.joinDomain]

theorem execTimingExchangeDone_lasting (lane : LaneId) (ok : Bool) : s.outLasts (execTimingExchangeDone lane ok s) := by
  simp [execTimingExchangeDone]

@[simp] theorem State.raiseWait_lasting (set : Nat) : (s.raiseWait set).lasting = s.lasting := by simp [State.raiseWait]

@[simp] theorem State.finishCores_lasting (img : Image) : (s.finishCores img).lasting = s.lasting := by simp [State.finishCores]

@[simp] theorem State.switchRoutes_lasting (img : Image) (failed : List Nat) : (s.switchRoutes img failed).lasting = s.lasting := by
  simp only [State.switchRoutes]
  split <;> simp

@[simp] theorem State.discardCore_lasting (img : Image) (c : CoreId) : (s.discardCore img c).lasting = s.lasting := by
  simp [State.discardCore]

@[simp] theorem State.raiseReplayed_lasting (f : StepFault) : (s.raiseReplayed f).lasting = s.lasting := by simp [State.raiseReplayed]

@[simp] theorem State.sendMembers_lasting (m : Msg) : (s.sendMembers m).lasting = s.lasting := by simp [State.sendMembers]

@[simp] theorem State.stopRecovery_lasting (status : Nat) (items : List W32) : (s.stopRecovery status items).lasting = s.lasting := by
  simp [State.stopRecovery]

@[simp] theorem State.endRecovery_lasting (status : Nat) (items : List W32) : (s.endRecovery status items).lasting = s.lasting := by
  simp [State.endRecovery]

@[simp] theorem State.degrade_lasting (img : Image) : (s.degrade img).lasting = s.lasting := by simp [State.degrade]

@[simp] theorem State.startElastic_lasting (img : Image) (h : Handle) : (s.startElastic img h).lasting = s.lasting := by
  simp [State.startElastic]

@[simp] theorem State.startWaitingElastic_lasting (img : Image) : (s.startWaitingElastic img).lasting = s.lasting := by
  unfold State.startWaitingElastic
  split <;> simp

@[simp] theorem State.retireCore_lasting (img : Image) (c : CoreId) (cause : Nat) : (s.retireCore img c cause).1.lasting = s.lasting := by
  simp only [State.retireCore]
  repeat' split
  all_goals simp

@[simp] theorem State.retireAll_lasting (img : Image) (xs : List (CoreId × Nat)) : (s.retireAll img xs).1.lasting = s.lasting := by
  induction xs generalizing s with
  | nil => rfl
  | cons x r ih => exact (ih _).trans (s.retireCore_lasting img x.1 x.2)

@[simp] theorem State.discardStep_lasting (img : Image) (failed : List Nat) : (s.discardStep img failed).lasting = s.lasting := by
  simp [State.discardStep]

@[simp] theorem State.abortStep_lasting (img : Image) : (s.abortStep img).lasting = s.lasting := by simp [State.abortStep]

@[simp] theorem State.copyRange_lasting (src dst n : Nat) : (s.copyRange src dst n).lasting = s.lasting := by simp [State.copyRange]

@[simp] theorem State.copyRegion_lasting (e : Nat) : (s.copyRegion e).lasting = s.lasting := by simp [State.copyRegion]

@[simp] theorem State.shipSet_lasting (img : Image) (dst : BitVec 16) (set : Nat) (step : W64) :
    (s.shipSet img dst set step).lasting = s.lasting := by simp [State.shipSet]

@[simp] theorem State.copySet_lasting (img : Image) (r : SnapReq) : (s.copySet img r).lasting = s.lasting := by
  simp only [State.copySet]
  split <;> simp

@[simp] theorem State.takeSnapshots_lasting (img : Image) : (s.takeSnapshots img).lasting = s.lasting := by
  simp only [State.takeSnapshots]
  repeat' split
  all_goals simp

@[simp] theorem State.rotate_lasting (img : Image) : (s.rotate img).lasting = s.lasting := by
  simp only [State.rotate]
  repeat' split
  all_goals simp

@[simp] theorem State.sleepCores_lasting (img : Image) : (s.sleepCores img).lasting = s.lasting := by simp [State.sleepCores]

@[simp] theorem State.countService_lasting : s.countService.lasting = s.lasting := by simp [State.countService]

@[simp] theorem State.wakeWaiters_lasting : s.wakeWaiters.lasting = s.lasting := by
  refine State.foldl_lasting _ _ (fun t x => ?_) _
  split <;> simp

@[simp] theorem State.mirrorStep_lasting (img : Image) : (s.mirrorStep img).lasting = s.lasting := by
  simp only [State.mirrorStep]
  repeat' split
  all_goals simp

@[simp] theorem State.commitStep_lasting (img : Image) (failed : List Nat) : (s.commitStep img failed).lasting = s.lasting := by
  simp only [State.commitStep]
  split <;> simp

@[simp] theorem State.replaceProgram_lasting (h : Handle) : (s.replaceProgram h).lasting = s.lasting := by
  simp only [State.replaceProgram]
  repeat' split
  all_goals simp

@[simp] theorem State.actAtBoundary_lasting (n : Nat) (h : Handle) : (s.actAtBoundary n h).lasting = s.lasting := by
  simp only [State.actAtBoundary]
  repeat' split
  all_goals simp

@[simp] theorem State.boundaryActs_lasting (n : Nat) : (s.boundaryActs n).lasting = s.lasting := by simp [State.boundaryActs]

@[simp] theorem State.shipRank_lasting (img : Image) (node : BitVec 16) : (s.shipRank img node).lasting = s.lasting := by
  simp [State.shipRank]

@[simp] theorem State.beginRejoin_lasting (img : Image) : (s.beginRejoin img).lasting = s.lasting := by
  unfold State.beginRejoin
  split <;> simp

@[simp] theorem State.endPrologue_lasting (img : Image) : (s.endPrologue img).lasting = s.lasting := by simp [State.endPrologue]

theorem execStepBoundary_lasting : s.outLasts (execStepBoundary s) := by
  simp only [execStepBoundary]
  repeat' split
  all_goals simp

end Sys2Proof.Machine
end

