-- ==== Sys2Proof/Proofs/LastingHost.lean ====
section
/-!
SUPPORT. The host commands of R322 to R327: queue and fuses stay.
-/

namespace Sys2Proof.Machine

variable (s : State)

theorem execDmaWrite_lasting (h : Handle) (src : HostRead) : s.outLasts (execDmaWrite h src s) := by
  simp only [execDmaWrite]
  repeat' split
  all_goals simp

@[simp] theorem State.toHost_lasting (h : Handle) (addr : Nat) (bytes : List Byte) (errorAt : Option Nat) (result : Nat) :
    (s.toHost h addr bytes errorAt result).lasting = s.lasting := by
  simp only [State.toHost]
  split <;> simp

theorem execDmaRead_lasting (h : Handle) (errorAt : Option Nat) : s.outLasts (execDmaRead h errorAt s) := by
  simp only [execDmaRead]
  repeat' split
  all_goals simp

@[simp] theorem State.listInput_lasting (step ref : W64) : (s.listInput step ref).lasting = s.lasting := by simp [State.listInput]

@[simp] theorem State.endMissing_lasting (i : W64 × W64) : (s.endMissing i).lasting = s.lasting := by simp [State.endMissing]

theorem execInputCmd_lasting (h : Handle) (src : HostRead) : s.outLasts (execInputCmd h src s) := by
  simp only [execInputCmd]
  repeat' split
  all_goals simp

theorem execActivate_lasting (h : Handle) : s.outLasts (execActivate h s) := by
  simp only [execActivate]
  repeat' split
  all_goals simp

theorem execPeerWaitExpiry_lasting : s.outLasts (execPeerWaitExpiry s) := by
  simp only [execPeerWaitExpiry]
  repeat' split
  all_goals simp

@[simp] theorem State.dropStaged_lasting : s.dropStaged.lasting = s.lasting := by simp [State.dropStaged]

theorem execUnload_lasting (h : Handle) : s.outLasts (execUnload h s) := by
  simp only [execUnload]
  repeat' split
  all_goals simp

theorem execCancel_lasting (h : Handle) : s.outLasts (execCancel h s) := by
  simp only [execCancel]
  repeat' split
  all_goals simp

theorem execElasticStart_lasting (h : Handle) : s.outLasts (execElasticStart h s) := by
  unfold execElasticStart
  split <;> simp

theorem execWaitStep_lasting (h : Handle) : s.outLasts (execWaitStep h s) := by
  unfold execWaitStep
  split <;> simp

theorem execPagedMap_lasting (h : Handle) : s.outLasts (execPagedMap h s) := by
  unfold execPagedMap
  split <;> simp

@[simp] theorem State.restart_lasting (img : Image) (c : CoreId) (i : Nat) (r : HaltRec) : (s.restart img c i r).lasting = s.lasting := by
  simp [State.restart]

theorem execStreamResume_lasting (h : Handle) : s.outLasts (execStreamResume h s) := by
  simp only [execStreamResume]
  repeat' split
  all_goals simp

theorem execKernelResume_lasting (h : Handle) : s.outLasts (execKernelResume h s) := by
  simp only [execKernelResume]
  repeat' split
  all_goals simp

theorem execFromMirrorResume_lasting (h : Handle) (reply : MirrorReply) : s.outLasts (execFromMirrorResume h reply s) := by
  simp only [execFromMirrorResume]
  repeat' split
  all_goals simp

theorem execQueueLimits_lasting (h : Handle) : s.outLasts (execQueueLimits h s) := by
  unfold execQueueLimits
  split <;> simp

theorem execSetAperture_lasting (h : Handle) : s.outLasts (execSetAperture h s) := by
  unfold execSetAperture
  split <;> simp

@[simp] theorem State.applyRotation_lasting (b : Nat) : (s.applyRotation b).lasting = s.lasting := by simp [State.applyRotation]

theorem execSetRotation_lasting (h : Handle) : s.outLasts (execSetRotation h s) := by
  unfold execSetRotation
  split <;> simp

theorem execSetLayout_lasting (h : Handle) : s.outLasts (execSetLayout h s) := by
  unfold execSetLayout
  split <;> simp

@[simp] theorem State.writeProfile_lasting (p : Fin 4) (lo w v : Nat) : (s.writeProfile p lo w v).lasting = s.lasting := by
  simp [State.writeProfile]

@[simp] theorem State.selectProfile_lasting (b : Nat) : (s.selectProfile b).lasting = s.lasting := by simp [State.selectProfile]

theorem execSetProfileWrite_lasting (h : Handle) : s.outLasts (execSetProfileWrite h s) := by
  simp only [execSetProfileWrite]
  repeat' split
  all_goals simp

theorem execSetProfileSelect_lasting (h : Handle) : s.outLasts (execSetProfileSelect h s) := by
  unfold execSetProfileSelect
  split <;> simp

theorem execLinkDisable_lasting (h : Handle) : s.outLasts (execLinkDisable h s) := by
  unfold execLinkDisable
  split <;> simp

theorem execLinkBringUp_lasting (h : Handle) : s.outLasts (execLinkBringUp h s) := by
  unfold execLinkBringUp
  split <;> simp

theorem execSurvey_lasting (h : Handle) : s.outLasts (execSurvey h s) := by
  unfold execSurvey
  split <;> simp

theorem execDiagRead_lasting (h : Handle) (errorAt : Option Nat) : s.outLasts (execDiagRead h errorAt s) := by
  simp only [execDiagRead]
  repeat' split
  all_goals simp

theorem execDiagReadKettleTable_lasting (h : Handle) (errorAt : Option Nat) : s.outLasts (execDiagReadKettleTable h errorAt s) := by
  unfold execDiagReadKettleTable
  split <;> simp

@[simp] theorem State.makeHard_lasting : s.makeHard.lasting = s.lasting := by rfl

theorem execMaintain_lasting (h : Handle) : s.outLasts (execMaintain h s) := by
  unfold execMaintain
  split <;> simp

theorem execMirrorStore_lasting (h : Handle) : s.outLasts (execMirrorStore h s) := by
  unfold execMirrorStore
  split <;> simp

@[simp] theorem State.tellUnbound_lasting (cont chk : Bool) (but : Option (BitVec 16)) :
    (s.tellUnbound cont chk but).lasting = s.lasting := by simp [State.tellUnbound]

theorem execMirrorBind_lasting (h : Handle) (reply : BindReply) : s.outLasts (execMirrorBind h reply s) := by
  simp only [execMirrorBind]
  repeat' split
  all_goals simp

theorem execMirrorUnbind_lasting (h : Handle) : s.outLasts (execMirrorUnbind h s) := by
  unfold execMirrorUnbind
  split <;> simp

theorem execSeed_lasting (h : Handle) (reply : SeedReply) : s.outLasts (execSeed h reply s) := by
  simp only [execSeed]
  repeat' split
  all_goals simp

@[simp] theorem State.borrow_lasting (b : Nat) : (s.borrow b).lasting = s.lasting := by simp [State.borrow]

end Sys2Proof.Machine
end

