-- ==== Sys2Proof/Proofs/LastingFabric.lean ====
section
/-!
SUPPORT. Frame marks and votes, transfers over the links, mirrors and recoveries: queue and fuses stay.
-/

namespace Sys2Proof.Machine

variable (s : State)

@[simp] theorem State.endFrame_lasting (length : Nat) (synth : Bool) : (s.endFrame length synth).lasting = s.lasting := by
  simp [State.endFrame]

@[simp] theorem State.takeMark_lasting : s.takeMark.lasting = s.lasting := by simp [State.takeMark]

theorem execFrameMark_lasting : s.outLasts (execFrameMark s) := by simp [execFrameMark]

@[simp] theorem State.missingMark_lasting : s.missingMark.lasting = s.lasting := by simp [State.missingMark]

theorem execMarkMissing_lasting : s.outLasts (execMarkMissing s) := by simp [execMarkMissing]

@[simp] theorem State.takeResume_lasting (g : BitVec 40) : (s.takeResume g).lasting = s.lasting := by simp [State.takeResume]

@[simp] theorem State.rootResume_lasting : s.rootResume.lasting = s.lasting := by
  unfold State.rootResume
  split <;> simp

@[simp] theorem State.raiseDiverged_lasting (own root : BitVec 40) : (s.raiseDiverged own root).lasting = s.lasting := by
  simp [State.raiseDiverged]

@[simp] theorem State.checkFrame_lasting (v : Vote) : (s.checkFrame v).lasting = s.lasting := by
  simp only [State.checkFrame]
  repeat' split
  all_goals simp

@[simp] theorem State.takeVote_lasting (v : Vote) : (s.takeVote v).lasting = s.lasting := by simp [State.takeVote]

theorem execBoundaryVote_lasting (vote : Vote) : s.outLasts (execBoundaryVote vote s) := by
  unfold execBoundaryVote
  split <;> simp

@[simp] theorem State.enterHold_lasting : s.enterHold.lasting = s.lasting := by simp [State.enterHold]

@[simp] theorem State.takeHold_lasting : s.takeHold.lasting = s.lasting := by simp [State.takeHold]

theorem execHoldDeadline_lasting : s.outLasts (execHoldDeadline s) := by
  unfold execHoldDeadline
  split <;> simp

theorem execHoldMsg_lasting : s.outLasts (execHoldMsg s) := by simp [execHoldMsg]

theorem execResumeMsg_lasting (frame : BitVec 40) : s.outLasts (execResumeMsg frame s) := by simp [execResumeMsg]

@[simp] theorem State.raiseLost_lasting (r : BitVec 10) (node : BitVec 16) : (s.raiseLost r node).lasting = s.lasting := by
  simp [State.raiseLost]

@[simp] theorem State.takeSteps_lasting (step last : W64) : (s.takeSteps step last).lasting = s.lasting := by simp [State.takeSteps]

@[simp] theorem State.tellSteps_lasting (node : BitVec 16) : (s.tellSteps node).lasting = s.lasting := by
  unfold State.tellSteps
  split <;> simp

@[simp] theorem State.loseMember_lasting (r : BitVec 10) : (s.loseMember r).lasting = s.lasting := by
  unfold State.loseMember
  split <;> simp

@[simp] theorem State.loseSelf_lasting (img : Image) : (s.loseSelf img).lasting = s.lasting := by simp [State.loseSelf]

theorem execHoldTimeout_lasting : s.outLasts (execHoldTimeout s) := by
  unfold execHoldTimeout
  split <;> simp

@[simp] theorem State.setLastFrame_lasting (f : BitVec 40) : (s.setLastFrame f).lasting = s.lasting := by simp [State.setLastFrame]

@[simp] theorem State.adoptFrame_lasting (f : BitVec 40) : (s.adoptFrame f).lasting = s.lasting := by
  simp only [State.adoptFrame]
  split <;> simp

@[simp] theorem State.raiseGap_lasting (f : BitVec 40) : (s.raiseGap f).lasting = s.lasting := by simp [State.raiseGap]

@[simp] theorem State.firstMark_lasting : s.firstMark.lasting = s.lasting := by
  simp only [State.firstMark]
  split <;> simp

@[simp] theorem State.nextMark_lasting : s.nextMark.lasting = s.lasting := by
  unfold State.nextMark
  split <;> simp

@[simp] theorem State.syncAll_lasting : s.syncAll.lasting = s.lasting := by simp [State.syncAll]

theorem execEffectiveMark_lasting : s.outLasts (execEffectiveMark s) := by simp [execEffectiveMark]

@[simp] theorem State.checkSkew_lasting (l : LaneId) (parent : Bool) (d : ℤ) (partnerTrim : Nat) :
    (s.checkSkew l parent d partnerTrim).lasting = s.lasting := by simp [State.checkSkew]

@[simp] theorem State.answerSync_lasting (l : LaneId) (x : Nat) (t2 : W32) : (s.answerSync l x t2).lasting = s.lasting := by
  simp [State.answerSync]

@[simp] theorem State.takeSample_lasting (l : LaneId) (x : ℤ × ℤ) : (s.takeSample l x).lasting = s.lasting := by simp [State.takeSample]

@[simp] theorem State.takeSync_lasting (l : LaneId) (x : Nat) : (s.takeSync l x).lasting = s.lasting := by simp [State.takeSync]

theorem execCadenceSync_lasting (lane : LaneId) (flit : Flit) (t4 : W32) : s.outLasts (execCadenceSync lane flit t4 s) := by
  simp [execCadenceSync]

@[simp] theorem State.endReturn_lasting : s.endReturn.lasting = s.lasting := by
  simp only [State.endReturn]
  repeat' split
  all_goals simp

@[simp] theorem State.countTick_lasting : s.countTick.lasting = s.lasting := by simp [State.countTick]

@[simp] theorem State.takeSramErrors_lasting : s.takeSramErrors.lasting = s.lasting := by
  refine State.foldl_lasting _ _ (fun t u => ?_) _
  split
  · rfl
  · split <;> simp

@[simp] theorem State.referenceTick_lasting : s.referenceTick.lasting = s.lasting := by
  simp only [State.referenceTick, State.endReturn_lasting, State.serveLanes_lasting, State.takeSramErrors_lasting,
    State.takeUpsets_lasting, State.countTick_lasting, State.modHost_lasting]
  refine (State.modMc_lasting _ _ (fun m => ?_) fun m => ?_).trans rfl <;> split <;> rfl

@[simp] theorem State.closeRecords_lasting : s.closeRecords.lasting = s.lasting := by simp [State.closeRecords]

@[simp] theorem State.takeCarrier_lasting (bytes : List Byte) : (s.takeCarrier bytes).lasting = s.lasting := by simp [State.takeCarrier]

@[simp] theorem State.sendSched_lasting (img : Image) (e : Nat) (bytes : List Byte) : (s.sendSched img e bytes).lasting = s.lasting := by
  simp [State.sendSched]

@[simp] theorem State.sendSlot_lasting (img : Image) (e addr : Nat) : (s.sendSlot img e addr).lasting = s.lasting := by
  simp only [State.sendSlot]
  repeat' split
  all_goals simp

@[simp] theorem State.carryWord_lasting (img : Image) (slot e : Nat) (c : CoreId) (w : Nat × Bool × Nat × Byte × Bool × Nat) :
    (s.carryWord img slot e c w).lasting = s.lasting := by simp [State.carryWord]

theorem execFabricSlotOpen_lasting (slot : Fin 256) : s.outLasts (execFabricSlotOpen slot s) := by
  simp only [execFabricSlotOpen]
  repeat' split
  all_goals simp

@[simp] theorem State.deliver_lasting (img : Image) (lane : LaneId) (t : Transfer) (r : Nat × Nat × Byte × CoreId) :
    s.outLasts (s.deliver img lane t r) := by
  simp [State.deliver]

@[simp] theorem State.refuseHops_lasting (h : Nat) : (s.refuseHops h).lasting = s.lasting := by simp [State.refuseHops]

theorem execSchedTransfer_lasting (lane : LaneId) (transfer : Transfer) : s.outLasts (execSchedTransfer lane transfer s) := by
  simp only [execSchedTransfer]
  repeat' split
  all_goals simp

theorem execForward_lasting (lane : LaneId) (header : Flit) (data : List Flit) : s.outLasts (execForward lane header data s) := by
  simp only [execForward]
  repeat' split
  all_goals simp

theorem execRoutingRebuildDone_lasting : s.outLasts (execRoutingRebuildDone s) := by
  simp only [execRoutingRebuildDone]
  repeat' split
  all_goals simp

@[simp] theorem State.reply_lasting (x : Nat) (m : Msg) : (s.reply x m).lasting = s.lasting := by simp [State.reply]

@[simp] theorem State.takeBind_lasting (node : BitVec 16) (a : BindAsk) : (s.takeBind node a).lasting = s.lasting := by
  unfold State.takeBind
  split <;> simp

@[simp] theorem State.takeUnbind_lasting (node : BitVec 16) (cont chk : Bool) : (s.takeUnbind node cont chk).lasting = s.lasting := by
  simp [State.takeUnbind]

@[simp] theorem State.modProtected_lasting (node : BitVec 16) (g : Protected → Protected) :
    (s.modProtected node g).lasting = s.lasting := by simp [State.modProtected]

@[simp] theorem State.takeRecord_lasting (node : BitVec 16) (step : W64) (pages : List (Nat × List Byte)) :
    (s.takeRecord node step pages).lasting = s.lasting := by simp [State.takeRecord]

@[simp] theorem State.answerRestore_lasting (node : BitVec 16) (step : W64) (units : List (Nat × Nat)) :
    (s.answerRestore node step units).lasting = s.lasting := by
  simp only [State.answerRestore]
  split
  · rfl
  · refine State.foldl_lasting _ _ (fun t u => ?_) _
    split <;> simp

@[simp] theorem State.takeAwaited_lasting (set i : Nat) (b : List Byte) : (s.takeAwaited set i b).lasting = s.lasting := by
  unfold State.takeAwaited
  split <;> simp

@[simp] theorem State.takeRejoin_lasting (node : BitVec 16) (r : BitVec 10) : (s.takeRejoin node r).lasting = s.lasting := by
  simp only [State.takeRejoin]
  repeat' split
  all_goals simp

@[simp] theorem State.takeUnit_lasting (src : BitVec 16) (set : Nat) (step : W64) (i total : Nat) (b : List Byte) :
    (s.takeUnit src set step i total b).lasting = s.lasting := by simp [State.takeUnit]

@[simp] theorem State.answerImage_lasting (dst : BitVec 16) (code : Byte) : (s.answerImage dst code).lasting = s.lasting := by
  unfold State.answerImage
  split <;> simp

@[simp] theorem State.carryOut_lasting (x : Nat) (t : Transfer) : (s.carryOut x t).lasting = s.lasting := by
  unfold State.carryOut
  generalize Config.readContent t = content, decide (hKind x = 3) = control
  cases content <;> cases control <;> simp

@[simp] theorem State.dropTransfer_lasting (seq : W32) : (s.dropTransfer seq).lasting = s.lasting := by simp [State.dropTransfer]

@[simp] theorem State.refused_lasting (o : DynOut) : (s.refused o).lasting = s.lasting := by
  simp only [State.refused]
  repeat' split
  all_goals simp

@[simp] theorem State.takeAck_lasting (sequence : W32) : (s.takeAck sequence).lasting = s.lasting := by
  simp only [State.takeAck]
  repeat' split
  all_goals simp

@[simp] theorem State.takeRefuse_lasting (sequence : W32) (reason : Byte) : (s.takeRefuse sequence reason).lasting = s.lasting := by
  unfold State.takeRefuse
  split <;> simp

theorem execAckMsg_lasting (sequence : W32) : s.outLasts (execAckMsg sequence s) := by simp [execAckMsg]

theorem execRefuseMsg_lasting (sequence : W32) (reason : Byte) : s.outLasts (execRefuseMsg sequence reason s) := by simp [execRefuseMsg]

@[simp] theorem State.arrive_lasting (x : Nat) (t : Transfer) : (s.arrive x t).lasting = s.lasting := by simp [State.arrive]

@[simp] theorem State.passWaiting_lasting (header : Flit) (t : Transfer) : (s.passWaiting header t).lasting = s.lasting := by
  simp [State.passWaiting]

theorem execDynTransfer_lasting (lane : LaneId) (transfer : Transfer) : s.outLasts (execDynTransfer lane transfer s) := by
  simp only [execDynTransfer]
  repeat' split
  all_goals simp

theorem execResendTimeout_lasting (sequence : W32) : s.outLasts (execResendTimeout sequence s) := by
  unfold execResendTimeout
  split <;> simp

@[simp] theorem State.unqueue_lasting (l : Option LaneId) (e : TxEntry) : (s.unqueue l e).lasting = s.lasting := by
  unfold State.unqueue
  split <;> simp

theorem execCreditWaitTimeout_lasting (transfer : TransferId) : s.outLasts (execCreditWaitTimeout transfer s) := by
  simp only [execCreditWaitTimeout]
  repeat' split
  all_goals simp

theorem execEscapeTimeout_lasting (transfer : TransferId) : s.outLasts (execEscapeTimeout transfer s) := by
  simp only [execEscapeTimeout]
  repeat' split
  all_goals simp

theorem execHashedNodeId_lasting : s.outLasts (execHashedNodeId s) := by simp [execHashedNodeId]

@[simp] theorem State.resolveClash_lasting (a : Advert) : (s.resolveClash a).lasting = s.lasting := by
  simp only [State.resolveClash]
  repeat' split
  all_goals simp

theorem execAdvertisement_lasting (lane : LaneId) (adv : Advert) : s.outLasts (execAdvertisement lane adv s) := by simp [execAdvertisement]

theorem execAdvertisementPeriod_lasting : s.outLasts (execAdvertisementPeriod s) := by simp [execAdvertisementPeriod]

@[simp] theorem State.partnerLost_lasting (node : BitVec 16) : (s.partnerLost node).lasting = s.lasting := by
  unfold State.partnerLost
  split <;> simp

theorem execAdvertisementExpiry_lasting (node : BitVec 16) : s.outLasts (execAdvertisementExpiry node s) := by
  simp [execAdvertisementExpiry]

theorem execContinuousRecord_lasting (node : BitVec 16) (step : W64) (sequence : W32) (pages : List (Nat × List Byte)) :
    s.outLasts (execContinuousRecord node step sequence pages s) := by simp [execContinuousRecord]

@[simp] theorem State.checkpointAtPartner_lasting (img : Image) : (s.checkpointAtPartner img).lasting = s.lasting := by
  unfold State.checkpointAtPartner
  split <;> simp

theorem execCheckpointComplete_lasting (set : Fin 64) : s.outLasts (execCheckpointComplete set s) := by
  unfold execCheckpointComplete
  split <;> simp

theorem execMemberLeave_lasting (rank : BitVec 10) : s.outLasts (execMemberLeave rank s) := by simp [execMemberLeave]

theorem execMemberIsolation_lasting (rank : BitVec 10) : s.outLasts (execMemberIsolation rank s) := by simp [execMemberIsolation]

@[simp] theorem State.askUnits_lasting (step : W64) : (s.askUnits step).lasting = s.lasting := by
  unfold State.askUnits
  split <;> simp

@[simp] theorem State.restoreCore_lasting (img : Image) (k : Continuous) (c : CoreId) : (s.restoreCore img k c).lasting = s.lasting := by
  simp [State.restoreCore]

@[simp] theorem State.requestInput_lasting (i : W64 × W64) : (s.requestInput i).lasting = s.lasting := by simp [State.requestInput]

theorem State.restoreSet_lasting {img : Image} {step : W64} {lost : Option StackId} {set : Nat} {t : State}
    (h : s.restoreSet img step lost set = some t) : t.lasting = s.lasting := by
  simp only [State.restoreSet, Option.ite_none_left_eq_some, Option.some.injEq] at h
  obtain ⟨-, rfl⟩ := h
  simp

/-- A chain of steps that may each fail changes neither queue nor fuses when no step does. -/
theorem State.foldl_bind_lasting {α : Type} {f : State → α → Option State} (hf : ∀ t x u, f t x = some u → u.lasting = t.lasting)
    (l : List α) {o : Option State} {t : State} (ho : ∀ u, o = some u → u.lasting = s.lasting)
    (ht : l.foldl (fun o x => o.bind fun t => f t x) o = some t) : t.lasting = s.lasting := by
  induction l generalizing o with
  | nil => exact ho t ht
  | cons x l ih =>
    refine ih (fun u hu => ?_) ht
    obtain ⟨v, hv, hu⟩ := Option.bind_eq_some_iff.1 hu
    exact (hf v x u hu).trans (ho v hv)

theorem State.restoreSets_lasting {img : Image} {step : W64} {lost : Option StackId} {t : State}
    (h : s.restoreSets img step lost = some t) : t.lasting = s.lasting := by
  obtain ⟨u, hu, rfl⟩ := Option.map_eq_some_iff.1 h
  rw [State.askUnits_lasting]
  refine State.foldl_bind_lasting s (fun t _ _ => State.restoreSet_lasting t) _ (fun v hv => ?_) hu
  obtain rfl := Option.some.inj hv
  exact State.modProg_lasting _ _

@[simp] theorem State.applyState_lasting (img : Image) (k : Continuous) : (s.applyState img k).lasting = s.lasting := by
  simp [State.applyState]

@[simp] theorem State.replayFrom_lasting (k : Continuous) (last : W64) (inputs : List (W64 × W64)) :
    (s.replayFrom k last inputs).lasting = s.lasting := by simp [State.replayFrom]

@[simp] theorem State.rewind_lasting (img : Image) (k : Continuous) (last : W64) (taken : List (W64 × W64)) :
    (s.rewind img k last taken).lasting = s.lasting := by simp [State.rewind]

@[simp] theorem State.restorePair_lasting (st : W64) (r : BitVec 10) : (s.restorePair st r).lasting = s.lasting := by
  unfold State.restorePair
  split <;> simp

@[simp] theorem State.passRank_lasting (r : BitVec 10) : (s.passRank r).lasting = s.lasting := by simp [State.passRank]

@[simp] theorem State.resumeNow_lasting : s.resumeNow.lasting = s.lasting := by simp [State.resumeNow]

@[simp] theorem State.beginCover_lasting (img : Image) (st : W64) : (s.beginCover img st).lasting = s.lasting := by
  simp only [State.beginCover]
  split
  next hr _ =>
    have hl := s.restoreSets_lasting hr
    simp [hl]
  · simp
  · simp

@[simp] theorem State.writeSet_lasting (img : Image) (g : SetGen) : (s.writeSet img g).lasting = s.lasting := by
  refine State.foldl_lasting _ _ (fun t u => ?_) _
  split <;> simp

@[simp] theorem State.adoptRank_lasting (img : Image) (gens : List SetGen) (record : List Byte) :
    (s.adoptRank img gens record).lasting = s.lasting := by simp [State.adoptRank]

@[simp] theorem State.standIn_lasting (img : Image) (p : Protected) (st last : W64) : (s.standIn img p st last).lasting = s.lasting := by
  unfold State.standIn
  split <;> simp

theorem execCoverBegin_lasting : s.outLasts (execCoverBegin s) := by
  simp only [execCoverBegin]
  repeat' split
  all_goals simp

@[simp] theorem State.dropRank_lasting (img : Image) (rank : BitVec 10) : (s.dropRank img rank).lasting = s.lasting := by
  simp [State.dropRank]

@[simp] theorem State.linksBack_lasting (img : Image) : (s.linksBack img).lasting = s.lasting := by simp [State.linksBack]

@[simp] theorem State.rankBack_lasting (img : Image) (rank : BitVec 10) : (s.rankBack img rank).lasting = s.lasting := by
  simp [State.rankBack]

@[simp] theorem State.takeBack_lasting (img : Image) (gens : List SetGen) (record : List Byte) :
    (s.takeBack img gens record).lasting = s.lasting := by simp [State.takeBack]

theorem execCoverEnd_lasting (rank : BitVec 10) : s.outLasts (execCoverEnd rank s) := by
  simp only [execCoverEnd]
  repeat' split
  all_goals simp

@[simp] theorem State.takeMeasures_lasting (m : Measures) : (s.takeMeasures m).lasting = s.lasting := by simp [State.takeMeasures]

@[simp] theorem State.compareBounds_lasting (img : Image) : (s.compareBounds img).lasting = s.lasting := by
  simp only [State.compareBounds]
  refine (State.foldl_lasting _ _ (fun t c => ?_) _).trans (State.foldl_lasting _ _ (fun t e => ?_) _)
  · simp
  · split <;> simp

@[simp] theorem State.answerSurvey_lasting (errorAt : Option Nat) (h : Handle) : (s.answerSurvey errorAt h).lasting = s.lasting := by
  unfold State.answerSurvey
  split <;> simp

@[simp] theorem State.applyRepairs_lasting : s.applyRepairs.lasting = s.lasting := by simp only [State.lasting, State.applyRepairs]

theorem execSurveyComplete_lasting (m : Measures) : s.outLasts (execSurveyComplete m s) := by
  unfold execSurveyComplete
  extract_lets t u v waiting w x
  have hx : x.lasting = s.lasting := calc
    x.lasting = w.lasting := State.foldl_lasting w _ (fun y h => y.answerSurvey_lasting m.hostErrorAt h) waiting
    _ = v.lasting := State.modHost_lasting _ _
    _ = t.lasting := State.lasting_congr t rfl rfl
    _ = s.lasting := s.takeMeasures_lasting m
  clear_value x
  split
  · rfl
  · split
    · simp [hx]
    · split <;> simp [hx]

@[simp] theorem State.loseUnits_lasting (x : StackId) : (s.loseUnits x).lasting = s.lasting := by rfl

@[simp] theorem State.relocateStaged_lasting (x : StackId) : (s.relocateStaged x).lasting = s.lasting := by
  unfold State.relocateStaged
  split <;> simp

theorem State.restoreStack_lasting {img : Image} {x : StackId} {t : State} (h : s.restoreStack img x = some t) :
    t.lasting = s.lasting := by
  obtain ⟨k, -, hk⟩ := Option.bind_eq_some_iff.1 h
  obtain ⟨u, hu, rfl⟩ := Option.map_eq_some_iff.1 hk
  rw [State.rewind_lasting, s.restoreSets_lasting hu]

@[simp] theorem State.programStackLost_lasting (img : Image) (x : StackId) : (s.programStackLost img x).lasting = s.lasting := by
  unfold State.programStackLost
  extract_lets t multi u ended v
  have hu : u.lasting = s.lasting := by simp [u, t]
  have hend (w : State) (hw : w.lasting = s.lasting) : (ended w).lasting = s.lasting := by simp [ended, hw]
  have hv : v.lasting = s.lasting := by simp [v, hu]
  clear_value u v
  split
  · exact hend u hu
  · split
    next hr =>
      have hl := v.restoreStack_lasting hr
      simp [hl, hv]
    next hr =>
      have hl := v.restoreStack_lasting hr
      simp [hl, hv]
    · exact hend _ (by simp [hv])

@[simp] theorem State.loseStack_lasting (x : StackId) : (s.loseStack x).lasting = s.lasting := by
  simp only [State.loseStack]
  repeat' split
  all_goals simp

theorem execStackLost_lasting (stack : StackId) (cause : StackLossCause) : s.outLasts (execStackLost stack cause s) := by
  simp [execStackLost]

theorem execRecoveryReplayDone_lasting : s.outLasts (execRecoveryReplayDone s) := by
  simp only [execRecoveryReplayDone]
  repeat' split
  all_goals simp

theorem execCoreWake_lasting : s.outLasts (execCoreWake s) := by
  unfold execCoreWake
  split <;> simp

end Sys2Proof.Machine
end

