-- ==== Sys2Proof/Proofs/LastingMc.lean ====
section
/-!
SUPPORT. The management controller's own commands change neither queue nor fuses, but for the six of `exec_keeps`: its restart, its sensors,
updates, the sideband, the start of the main domain and its clocks.
-/

namespace Sys2Proof.Machine

variable (s : State)

@[simp] theorem State.binderDown_lasting : s.binderDown.lasting = s.lasting := by simp [State.binderDown]

@[simp] theorem State.answer_lasting (a : Answer) : (s.answer a).lasting = s.lasting := by simp [State.answer]

@[simp] theorem State.accept_lasting (code : Nat) : (s.accept code).lasting = s.lasting := by simp [State.accept]

@[simp] theorem State.refuse_lasting (code reason : Nat) : (s.refuse code reason).lasting = s.lasting := by simp [State.refuse]

theorem execCadenceLoRead_lasting : s.outLasts (execCadenceLoRead s) := by simp [execCadenceLoRead]

@[simp] theorem State.stage_lasting (img : Image) : (s.stage img).lasting = s.lasting := by simp [State.stage]

theorem execLoad_lasting (h : Handle) : s.outLasts (execLoad h s) := by
  simp only [execLoad]
  repeat' split
  all_goals simp

theorem execRecipeUpdate_lasting (h : Handle) : s.outLasts (execRecipeUpdate h s) := by
  simp only [execRecipeUpdate]
  repeat' split
  all_goals simp

@[simp] theorem State.logTrip_lasting (group index : Nat) (reading : ℤ) : (s.logTrip group index reading).lasting = s.lasting := by
  simp [State.logTrip]

@[simp] theorem State.mainOff_lasting : s.mainOff.lasting = s.lasting := by rfl

@[simp] theorem State.shutdown_lasting (group index : Nat) (reading : ℤ) : (s.shutdown group index reading).lasting = s.lasting := by
  simp [State.shutdown]

@[simp] theorem State.wipe_lasting (cause : Fin 6) (retries : Nat) : (s.wipe cause retries).lasting = s.lasting := by
  simp [State.wipe, Mc.clearRegion]

@[simp] theorem State.wipeSelf_lasting (cause : Fin 6) : (s.wipeSelf cause).lasting = s.lasting := by simp [State.wipeSelf]

@[simp] theorem State.wipePresent_lasting (triggers : BitVec 4) : (s.wipePresent triggers).lasting = s.lasting := by
  simp [State.wipePresent]

@[simp] theorem State.chooseProfile_lasting : s.chooseProfile.lasting = s.lasting := by simp [State.chooseProfile]

@[simp] theorem State.nowServes_lasting (c : Component) (f : FwImage) : (s.nowServes c f).lasting = s.lasting := by simp [State.nowServes]

@[simp] theorem State.tryStep3_lasting : s.tryStep3.lasting = s.lasting := by simp [State.tryStep3]

@[simp] theorem State.mcStart_lasting (cause : Nat) (triggers : BitVec 4) : (s.mcStart cause triggers).lasting = s.lasting := by
  simp only [State.mcStart]
  split <;> simp

theorem execBinderWatchdog_lasting : s.outLasts (execBinderWatchdog s) := by simp [execBinderWatchdog]

@[simp] theorem State.binderInService_lasting : s.binderInService.lasting = s.lasting := by
  unfold State.binderInService
  split <;> simp

theorem execBinderRestarted_lasting : s.outLasts (execBinderRestarted s) := by simp [execBinderRestarted]

theorem execMcWatchdog_lasting : s.outLasts (execMcWatchdog s) := by simp [execMcWatchdog]

theorem execMcRestart_lasting : s.outLasts (execMcRestart s) := by simp [execMcRestart]

@[simp] theorem State.failRead_lasting (g : SensorGroup) (i : Nat) (x : Sensor) : (s.failRead g i x).lasting = s.lasting := by
  simp [State.failRead]

@[simp] theorem State.warn_lasting (g : SensorGroup) (i : Nat) (r : Reading) : (s.warn g i r).lasting = s.lasting := by
  unfold State.warn
  split <;> simp

@[simp] theorem State.takeReading_lasting (g : SensorGroup) (i : Nat) (x : Sensor) (r : Reading) :
    (s.takeReading g i x r).lasting = s.lasting := by simp [State.takeReading]

theorem execSensorRead_lasting (group : SensorGroup) (index : Nat) (reading : Option Reading) :
    s.outLasts (execSensorRead group index reading s) := by
  simp only [execSensorRead]
  repeat' split
  all_goals simp

theorem execSensorPageRefresh_lasting : s.outLasts (execSensorPageRefresh s) := by simp [execSensorPageRefresh]

theorem execThresholdTrip_lasting (group : SensorGroup) (index : Nat) (reading : Reading) :
    s.outLasts (execThresholdTrip group index reading s) := by
  unfold execThresholdTrip
  split <;> simp

@[simp] theorem State.railsFailed_lasting (r : Nat) (reading : ℤ) : (s.railsFailed r reading).lasting = s.lasting := by
  simp [State.railsFailed]

theorem execRailShutdown_lasting (trip : RailTrip) : s.outLasts (execRailShutdown trip s) := by
  unfold execRailShutdown
  split <;> simp

theorem execTamperTrigger_lasting (cause : Fin 6) (verifyRetries : Nat) : s.outLasts (execTamperTrigger cause verifyRetries s) := by
  simp [execTamperTrigger]

theorem execLogFlush_lasting : s.outLasts (execLogFlush s) := by simp [execLogFlush]

theorem execMarchBlockTest_lasting (block : Nat) (passed : Bool) : s.outLasts (execMarchBlockTest block passed s) := by
  simp only [execMarchBlockTest]
  split
  · rfl
  · split <;> simp

theorem execBorrowedBlockAccess_lasting (addr : Nat) : s.outLasts (execBorrowedBlockAccess addr s) := by simp [execBorrowedBlockAccess]

theorem execShelfRecord_lasting (domain shelf : Byte) (slotId : BitVec 4) : s.outLasts (execShelfRecord domain shelf slotId s) := by
  simp [execShelfRecord]

theorem execSetUtc_lasting (utc : W64) : s.outLasts (execSetUtc utc s) := by simp [execSetUtc]

theorem execMainOn_lasting : s.outLasts (execMainOn s) := by simp [execMainOn]

theorem execLcNonce_lasting (nonce : BitVec 256) : s.outLasts (execLcNonce nonce s) := by simp [execLcNonce]

theorem execProfileWrite_lasting (profile : Byte) (bits : BitVec 128) : s.outLasts (execProfileWrite profile bits s) := by
  simp only [execProfileWrite]
  repeat' split
  all_goals simp

theorem execMctpControl_lasting (ask : MctpAsk) : s.outLasts (execMctpControl ask s) := by
  unfold execMctpControl
  split <;> simp

theorem execPldmMonitoring_lasting (ask : PldmAsk) (index : Nat) : s.outLasts (execPldmMonitoring ask index s) := by
  unfold execPldmMonitoring
  split <;> simp

@[simp] theorem State.pldm_lasting (command completion : Nat) : (s.pldm command completion).lasting = s.lasting := by simp [State.pldm]

@[simp] theorem State.toPhase_lasting (p : UpdatePhase) : (s.toPhase p).lasting = s.lasting := by simp [State.toPhase]

theorem execRequestUpdate_lasting (agent : Nat) : s.outLasts (execRequestUpdate agent s) := by simp [execRequestUpdate]

theorem execPassComponentTable_lasting (components : List Component) : s.outLasts (execPassComponentTable components s) := by
  simp [execPassComponentTable]

theorem execUpdateComponent_lasting (component : Component) : s.outLasts (execUpdateComponent component s) := by simp [execUpdateComponent]

@[simp] theorem State.askImage_lasting (c : Component) : (s.askImage c).lasting = s.lasting := by
  unfold State.askImage
  split <;> simp

@[simp] theorem State.stopDownload_lasting (code : Nat) : (s.stopDownload code).lasting = s.lasting := by
  simp only [State.stopDownload]
  split <;> simp

@[simp] theorem State.logWritten_lasting (c : Component) (fabric : Bool) : (s.logWritten c fabric).lasting = s.lasting := by
  simp only [State.logWritten]
  split
  · rfl
  · refine (State.modMc_lasting _ _ (fun m => ?_) fun m => ?_).trans (by simp) <;> split <;> rfl

@[simp] theorem State.fabricImage_lasting (c : Component) : (s.fabricImage c).lasting = s.lasting := by
  unfold State.fabricImage
  split <;> simp

theorem execFirmwareData_lasting (bytes : List Byte) : s.outLasts (execFirmwareData bytes s) := by
  simp only [execFirmwareData]
  split
  · rfl
  next c _ =>
    split
    · rfl
    · split
      · split
        · simp
        · split <;> simp
      · split
        · simp
        · split
          · split
            · simp
            · rw [State.outLasts_next]
              split <;> simp
          · rfl

theorem execTransferComplete_lasting : s.outLasts (execTransferComplete s) := by simp [execTransferComplete]

theorem execVerifyComplete_lasting : s.outLasts (execVerifyComplete s) := by
  simp only [execVerifyComplete]
  repeat' split
  all_goals simp

theorem execApplyComplete_lasting : s.outLasts (execApplyComplete s) := by
  unfold execApplyComplete
  split <;> simp

@[simp] theorem State.activateOne_lasting (c : Component) : (s.activateOne c).lasting = s.lasting := by
  unfold State.activateOne
  split <;> simp

theorem execActivateFirmware_lasting : s.outLasts (execActivateFirmware s) := by simp [execActivateFirmware]

theorem execFwActivateFailed_lasting : s.outLasts (execFwActivateFailed s) := by
  unfold execFwActivateFailed
  split <;> simp

@[simp] theorem State.recoverComponent_lasting (c : Component) : (s.recoverComponent c).lasting = s.lasting := by
  simp [State.recoverComponent]

theorem execFabricRecoveryTimeout_lasting : s.outLasts (execFabricRecoveryTimeout s) := by simp [execFabricRecoveryTimeout]

@[simp] theorem State.spdmStep_lasting (need : Nat) (t : State) (ht : t.lasting = s.lasting) : s.outLasts (s.spdmStep need t) := by
  simp [State.spdmStep, ht]

theorem execGetVersion_lasting : s.outLasts (execGetVersion s) := by simp [execGetVersion]

theorem execGetCapabilities_lasting : s.outLasts (execGetCapabilities s) := by simp [execGetCapabilities]

theorem execNegotiateAlgorithms_lasting (ecdsaP384 sha384 : Bool) : s.outLasts (execNegotiateAlgorithms ecdsaP384 sha384 s) := by
  simp [execNegotiateAlgorithms]

theorem execGetDigests_lasting : s.outLasts (execGetDigests s) := by simp [execGetDigests]

theorem execGetCertificate_lasting (offset len : Nat) : s.outLasts (execGetCertificate offset len s) := by simp [execGetCertificate]

theorem execChallenge_lasting (nonce : BitVec 256) : s.outLasts (execChallenge nonce s) := by
  unfold execChallenge
  split <;> simp

theorem execGetMeasurements_lasting (index : Byte) (signed : Bool) (nonce : BitVec 256) :
    s.outLasts (execGetMeasurements index signed nonce s) := by
  simp only [execGetMeasurements]
  repeat' split
  all_goals simp

@[simp] theorem State.inputBad_lasting (index : Nat) : (s.inputBad index).lasting = s.lasting := by simp [State.inputBad]

theorem execMainUndervoltage_lasting : s.outLasts (execMainUndervoltage s) := by simp [execMainUndervoltage]

theorem execMainOvervoltage_lasting : s.outLasts (execMainOvervoltage s) := by simp [execMainOvervoltage]

theorem execInputClamp_lasting : s.outLasts (execInputClamp s) := by simp [execInputClamp]

theorem execMainStartAllowed_lasting : s.outLasts (execMainStartAllowed s) := by simp [execMainStartAllowed]

theorem execHotSwapSwitchOn_lasting : s.outLasts (execHotSwapSwitchOn s) := by simp [execHotSwapSwitchOn]

theorem execModuleExtract_lasting : s.outLasts (execModuleExtract s) := by simp [execModuleExtract]

theorem execBreakerTrip_lasting (current : Nat) : s.outLasts (execBreakerTrip current s) := by simp [execBreakerTrip]

theorem execRefclkPresence_lasting : s.outLasts (execRefclkPresence s) := by simp [execRefclkPresence]

theorem execRefclkQualified_lasting : s.outLasts (execRefclkQualified s) := by simp [execRefclkQualified]

@[simp] theorem State.clockLoss_lasting : s.clockLoss.lasting = s.lasting := by
  unfold State.clockLoss
  split <;> simp

theorem execRefclkLoss_lasting : s.outLasts (execRefclkLoss s) := by
  unfold execRefclkLoss
  extract_lets two bypass ports t u v w x y z
  have hv : v.lasting = s.lasting := by simp [v, u, t]
  clear_value v
  have hx : x.lasting = s.lasting := (State.lasting_congr w rfl rfl).trans ((State.modHost_lasting v _).trans hv)
  clear_value x
  simp [z, y, hx]

@[simp] theorem State.sbLock_lasting : s.sbLock.lasting = s.lasting := by
  simp only [State.sbLock]
  repeat' split
  all_goals simp

theorem execPllLock_lasting (pll : Pll) : s.outLasts (execPllLock pll s) := by
  simp only [execPllLock]
  repeat' split
  all_goals simp

@[simp] theorem State.startLanes_lasting : s.startLanes.lasting = s.lasting := by simp [State.startLanes]

theorem execAclkRampStep_lasting : s.outLasts (execAclkRampStep s) := by
  simp only [execAclkRampStep]
  repeat' split
  all_goals simp

theorem execStackRetrainDone_lasting : s.outLasts (execStackRetrainDone s) := by
  unfold execStackRetrainDone
  extract_lets t u v w
  have ht : t.lasting = s.lasting := State.lasting_congr s rfl rfl
  have hu : u.lasting = s.lasting := (State.modClk_lasting t _).trans ht
  clear_value u
  have hv : v.lasting = s.lasting := by simp [v, hu]
  clear_value v
  have hw : w.lasting = s.lasting := by simp [w, hv]
  clear_value w
  simp [hw]

theorem execMcResetRelease_lasting (pins : ResetPins) : s.outLasts (execMcResetRelease pins s) := by
  simp only [execMcResetRelease]
  repeat' split
  all_goals simp

@[simp] theorem State.chooseAgain_lasting : s.chooseAgain.lasting = s.lasting := by simp [State.chooseAgain]

@[simp] theorem State.blindOff_lasting : s.blindOff.lasting = s.lasting := by
  unfold State.blindOff
  split <;> simp

theorem execStartupRailsUp_lasting : s.outLasts (execStartupRailsUp s) := by simp [execStartupRailsUp]

@[simp] theorem State.loadImage_lasting (c : Component) (f : FwImage) : (s.loadImage c f).lasting = s.lasting := by simp [State.loadImage]

@[simp] theorem State.clearReturned_lasting : s.clearReturned.lasting = s.lasting := by
  unfold State.clearReturned
  split <;> rfl

theorem execStartupTrainingDone_lasting (absent : List StackId) : s.outLasts (execStartupTrainingDone absent s) := by
  simp only [execStartupTrainingDone]
  split
  · rfl
  · split
    · simp
    · simp
    next l m _ _ =>
      have htrained (hbm : Vector Stack 20) :
          State.lasting { ((s.loadImage .linkUcode l).loadImage .memUcode m).makeHard with hbm } = s.lasting :=
        (State.lasting_congr ((s.loadImage .linkUcode l).loadImage .memUcode m).makeHard rfl rfl).trans (by simp)
      exact (State.modHost_lasting _ _).trans ((State.modPwr_lasting _ _).trans ((State.clearReturned_lasting _).trans (htrained _)))

theorem execBinderBootDone_lasting : s.outLasts (execBinderBootDone s) := by
  simp only [execBinderBootDone]
  repeat' split
  all_goals simp

theorem execStartupBistDone_lasting (failed : List SiteId) : s.outLasts (execStartupBistDone failed s) := by
  have htested (sites : Vector Site 200) : State.lasting { s with sites } = s.lasting := rfl
  simp only [execStartupBistDone, State.outLasts_ite, State.outLasts_next, State.lasting_ite, State.modPwr_lasting, State.showRoles_lasting,
    htested, ite_self]

end Sys2Proof.Machine
end

