-- ==== Sys2Proof/Proofs/StepKeepsFuses.lean ====
section
/-!
SUPPORT. Fuses are written once (R342): every command leaves the queue of waiting commands as it is and clears no fuse, and where the shadow
lies inside the array it stays there. All but six commands change neither queue nor fuses (`State.lasting`); of the six three blow fuses
(R343, R344), two switch standby power (R342, R374) and one may end it (R377).
-/

namespace Sys2Proof.Machine

variable {s t u : State}

/-! ### Fuses bit by bit -/

/-- A word lies inside another where each of its bits is one of the other's. -/
theorem and_eq_left_iff_getLsbD {w : Nat} {x y : BitVec w} : x &&& y = x ↔ ∀ i, x.getLsbD i = true → y.getLsbD i = true := by
  constructor
  · intro h i hi
    rw [← h, BitVec.getLsbD_and, Bool.and_eq_true] at hi
    exact hi.2
  · intro h
    refine BitVec.eq_of_getLsbD_eq fun i _ => ?_
    rw [BitVec.getLsbD_and]
    cases hx : x.getLsbD i with
    | false => rfl
    | true => rw [h i hx, Bool.true_and]

theorem State.fusesKept_iff {f : BitVec 8448} :
    s.fusesKept f = true ↔ ∀ i, f.getLsbD i = true → s.mc.fuseArray.getLsbD i = true := by
  rw [State.fusesKept, beq_iff_eq, BitVec.and_comm, and_eq_left_iff_getLsbD]

theorem State.shadowOk_iff : s.shadowOk = true ↔ ∀ i, s.mc.fuses.getLsbD i = true → s.mc.fuseArray.getLsbD i = true := by
  rw [State.shadowOk, beq_iff_eq, and_eq_left_iff_getLsbD]

/-- Bits that are set one after the other. -/
theorem foldl_or_getLsbD {w : Nat} (bits : List Nat) (x : BitVec w) (i : Nat) :
    (bits.foldl (fun f b => f ||| BitVec.ofNat w (2 ^ b)) x).getLsbD i
      = (x.getLsbD i || bits.any fun b => (BitVec.ofNat w (2 ^ b)).getLsbD i) := by
  induction bits generalizing x with
  | nil => simp
  | cons b bits ih => rw [List.foldl_cons, ih, BitVec.getLsbD_or, List.any_cons, Bool.or_assoc]

/-! ### What every command keeps -/

/-- The queue stays, no fuse of the array is cleared, and a shadow inside the array stays inside. -/
structure State.Keeps (s t : State) : Prop where
  queue : t.pending = s.pending
  array : ∀ i, s.mc.fuseArray.getLsbD i = true → t.mc.fuseArray.getLsbD i = true
  shadow : s.shadowOk = true → t.shadowOk = true

theorem State.Keeps.trans (h : s.Keeps t) (k : t.Keeps u) : s.Keeps u :=
  ⟨k.queue.trans h.queue, fun i hi => k.array i (h.array i hi), fun hs => k.shadow (h.shadow hs)⟩

theorem State.Keeps.of_lasting (h : t.lasting = s.lasting) : s.Keeps t := by
  obtain ⟨hq, hf, ha⟩ : t.pending = s.pending ∧ t.mc.fuses = s.mc.fuses ∧ t.mc.fuseArray = s.mc.fuseArray := by
    simpa only [State.lasting, Prod.mk.injEq] using h
  exact ⟨hq, fun i hi => ha ▸ hi, fun hs => by rwa [State.shadowOk, hf, ha]⟩

theorem State.outLasts.keeps {o : Host.Outcome State Fault Refusal} (h : s.outLasts o) (ho : o = .next t) : s.Keeps t := by
  subst ho
  exact .of_lasting h

theorem State.Keeps.fusesKept (h : s.Keeps t) (f : BitVec 8448) (hf : s.fusesKept f = true) : t.fusesKept f = true :=
  State.fusesKept_iff.2 fun i hi => h.array i (State.fusesKept_iff.1 hf i hi)

/-! ### Fuses blown (R342) -/

theorem Mc.blow_fuses (m : Mc) (bits : List Nat) (i : Nat) :
    (m.blow bits).fuses.getLsbD i = (m.fuses.getLsbD i || bits.any fun b => (BitVec.ofNat 8448 (2 ^ b)).getLsbD i) :=
  foldl_or_getLsbD bits m.fuses i

theorem Mc.blow_fuseArray (m : Mc) (bits : List Nat) (i : Nat) :
    (m.blow bits).fuseArray.getLsbD i = (m.fuseArray.getLsbD i || bits.any fun b => (BitVec.ofNat 8448 (2 ^ b)).getLsbD i) :=
  foldl_or_getLsbD bits m.fuseArray i

theorem State.modMc_blow_keeps (s : State) (bits : List Nat) : s.Keeps (s.modMc fun m => m.blow bits) where
  queue := rfl
  array i hi := by rw [State.modMc_mc, Mc.blow_fuseArray, hi, Bool.true_or]
  shadow hs := State.shadowOk_iff.2 fun i hi => by
    rw [State.modMc_mc, Mc.blow_fuses, Bool.or_eq_true] at hi
    rw [State.modMc_mc, Mc.blow_fuseArray, Bool.or_eq_true]
    exact hi.imp_left (State.shadowOk_iff.1 hs i)

theorem State.blow_keeps (s : State) (field : Nat) (bits fails : List Nat) : s.Keeps (s.blow field bits fails) :=
  (s.modMc_blow_keeps _).trans (.of_lasting (State.foldl_lasting _ _ (fun t _ => t.log_lasting _ _) _))

/-- Fuses blown between two effects that leave queue and fuses as they are. -/
theorem State.Keeps.of_blow (field : Nat) (bits fails : List Nat) (h : t.lasting = s.lasting)
    (k : u.lasting = (t.blow field bits fails).lasting) : s.Keeps u :=
  (State.Keeps.of_lasting h).trans ((t.blow_keeps field bits fails).trans (.of_lasting k))

theorem execLcRequest_keeps (s : State) (req : SignedRequest) (fails : List Nat) (h : execLcRequest req fails s = .next t) : s.Keeps t := by
  simp only [execLcRequest] at h
  split at h
  · exact .of_lasting (Host.Outcome.next.inj h ▸ rfl)
  · split at h
    · exact .of_lasting (Host.Outcome.next.inj h ▸ by simp)
    · split at h
      · exact .of_lasting (Host.Outcome.next.inj h ▸ by simp)
      · obtain rfl := Host.Outcome.next.inj h
        refine .of_blow (t := (s.modMc fun m => { m with nonce := none }).wipeSelf 4) 0
          ((List.range 4).filter fun i => bitOf req.target.toNat i && !bitOf (s.mc.fuse 0 4) i) fails ?_ ?_
        · rw [State.wipeSelf_lasting]; rfl
        · simp

theorem execKeyRevoke_keeps (s : State) (req : RevokeRequest) (h : execKeyRevoke req s = .next t) : s.Keeps t := by
  simp only [execKeyRevoke] at h
  split at h
  · exact .of_lasting (Host.Outcome.next.inj h ▸ rfl)
  · split at h
    · exact .of_lasting (Host.Outcome.next.inj h ▸ by simp)
    · split at h
      · exact .of_lasting (Host.Outcome.next.inj h ▸ by simp)
      · obtain rfl := Host.Outcome.next.inj h
        refine .of_blow (t := (s.modMc fun m => { m with nonce := none }).wipeSelf 4) 3 [8 + req.signed.target.toNat] req.blowFails ?_ ?_
        · rw [State.wipeSelf_lasting]; rfl
        · simp

theorem execSvnCommit_keeps (s : State) (req : SvnRequest) (h : execSvnCommit req s = .next t) : s.Keeps t := by
  simp only [execSvnCommit] at h
  split at h
  · exact .of_lasting (Host.Outcome.next.inj h ▸ rfl)
  · split at h
    · exact .of_lasting (Host.Outcome.next.inj h ▸ by simp)
    · obtain rfl := Host.Outcome.next.inj h
      exact .of_blow 4 ((List.range req.count).map (16 + ·)) req.blowFails rfl (by simp)

/-! ### Standby power (R342, R374) -/

/-- With standby power the shadow is read from the array. -/
theorem execStandbyOn_keeps (s : State) (h : execStandbyOn s = .next t) : s.Keeps t := by
  obtain rfl := Host.Outcome.next.inj h
  split
  · exact ⟨rfl, fun _ => id, fun _ => State.shadowOk_iff.2 fun _ => id⟩
  · exact .of_lasting rfl

/-- Without it the shadow is clear, and the array stays. -/
theorem State.allOff_keeps (s : State) : s.Keeps s.allOff where
  queue := congrArg Prod.fst s.mainOff_lasting
  array _ := id
  shadow _ := State.shadowOk_iff.2 fun i hi => absurd hi (by simp [State.allOff, Mc.reset])

theorem execStandbyOff_keeps (s : State) (h : execStandbyOff s = .next t) : s.Keeps t := by
  obtain rfl := Host.Outcome.next.inj h
  split
  · exact s.allOff_keeps
  · exact .of_lasting rfl

/-- A phase lost changes no fuse; one that a standby rail needs ends standby power (R377). -/
theorem execPhaseShed_keeps (s : State) (rail : Fin 23) (phase : Nat) (h : execPhaseShed rail phase s = .next t) : s.Keeps t := by
  simp only [execPhaseShed] at h
  split at h
  · exact .of_lasting (Host.Outcome.next.inj h ▸ rfl)
  · split at h
    · exact .of_lasting (Host.Outcome.next.inj h ▸ by simp)
    · split at h
      · obtain rfl := Host.Outcome.next.inj h
        split
        · exact .of_lasting (by simp)
        · exact (State.Keeps.of_lasting (by simp)).trans (State.allOff_keeps _)
      · exact .of_lasting (Host.Outcome.next.inj h ▸ by simp)

/-! ### Every command -/

theorem exec_keeps (i : Instr) (s : State) {t : State} (hn : exec i s = .next t) : s.Keeps t := by
  cases i with
  | dmaWrite h src => exact (execDmaWrite_lasting s h src).keeps hn
  | dmaRead h errorAt => exact (execDmaRead_lasting s h errorAt).keeps hn
  | inputCmd h src => exact (execInputCmd_lasting s h src).keeps hn
  | load h => exact (execLoad_lasting s h).keeps hn
  | activate h => exact (execActivate_lasting s h).keeps hn
  | unload h => exact (execUnload_lasting s h).keeps hn
  | cancel h => exact (execCancel_lasting s h).keeps hn
  | elasticStart h => exact (execElasticStart_lasting s h).keeps hn
  | recipeUpdate h => exact (execRecipeUpdate_lasting s h).keeps hn
  | streamResume h => exact (execStreamResume_lasting s h).keeps hn
  | kernelResume h => exact (execKernelResume_lasting s h).keeps hn
  | fromMirrorResume h reply => exact (execFromMirrorResume_lasting s h reply).keeps hn
  | pagedMap h => exact (execPagedMap_lasting s h).keeps hn
  | waitStep h => exact (execWaitStep_lasting s h).keeps hn
  | queueLimits h => exact (execQueueLimits_lasting s h).keeps hn
  | setAperture h => exact (execSetAperture_lasting s h).keeps hn
  | setRotation h => exact (execSetRotation_lasting s h).keeps hn
  | setLayout h => exact (execSetLayout_lasting s h).keeps hn
  | setProfileWrite h => exact (execSetProfileWrite_lasting s h).keeps hn
  | setProfileSelect h => exact (execSetProfileSelect_lasting s h).keeps hn
  | linkDisable h => exact (execLinkDisable_lasting s h).keeps hn
  | linkBringUp h => exact (execLinkBringUp_lasting s h).keeps hn
  | survey h => exact (execSurvey_lasting s h).keeps hn
  | diagRead h errorAt => exact (execDiagRead_lasting s h errorAt).keeps hn
  | diagReadKettleTable h errorAt => exact (execDiagReadKettleTable_lasting s h errorAt).keeps hn
  | maintain h => exact (execMaintain_lasting s h).keeps hn
  | mirrorStore h => exact (execMirrorStore_lasting s h).keeps hn
  | mirrorBind h reply => exact (execMirrorBind_lasting s h reply).keeps hn
  | mirrorUnbind h => exact (execMirrorUnbind_lasting s h).keeps hn
  | seed h reply => exact (execSeed_lasting s h reply).keeps hn
  | commandTake mailbox => exact (execCommandTake_lasting s mailbox).keeps hn
  | mbTailWrite mailbox tail => exact (execMbTailWrite_lasting s mailbox tail).keeps hn
  | ringHeadWrite ring head => exact (execRingHeadWrite_lasting s ring head).keeps hn
  | ringEnable ring => exact (execRingEnable_lasting s ring).keeps hn
  | takeover port value => exact (execTakeover_lasting s port value).keeps hn
  | periphEnableWrite target value busy => exact (execPeriphEnableWrite_lasting s target value busy).keeps hn
  | gateForced gate initiator => exact (execGateForced_lasting s gate initiator).keeps hn
  | cadenceLoRead => exact (execCadenceLoRead_lasting s).keeps hn
  | registerWrite offset bytes same => exact (execRegisterWrite_lasting s offset bytes same).keeps hn
  | bar2Read offset len => exact (execBar2Read_lasting s offset len).keeps hn
  | bar2Write offset bytes => exact (execBar2Write_lasting s offset bytes).keeps hn
  | hostReset port kind => exact (execHostReset_lasting s port kind).keeps hn
  | completionPost ring => exact (execCompletionPost_lasting s ring).keeps hn
  | eventPost => exact (execEventPost_lasting s).keeps hn
  | msixDelayExpiry ring => exact (execMsixDelayExpiry_lasting s ring).keeps hn
  | needleNop core => exact (execNeedleNop_lasting s core).keeps hn
  | stepEnd core => exact (execStepEnd_lasting s core).keeps hn
  | sectionEnd core => exact (execSectionEnd_lasting s core).keeps hn
  | run core => exact (execRun_lasting s core).keeps hn
  | stream core => exact (execStream_lasting s core).keeps hn
  | kettleSignal core => exact (execKettleSignal_lasting s core).keeps hn
  | kettleSignalApply core completion => exact (execKettleSignalApply_lasting s core completion).keeps hn
  | kettleWait core => exact (execKettleWait_lasting s core).keeps hn
  | cadence core => exact (execCadence_lasting s core).keeps hn
  | stepRelease => exact (execStepRelease_lasting s).keeps hn
  | fabricSend core => exact (execFabricSend_lasting s core).keeps hn
  | fabricRecv core => exact (execFabricRecv_lasting s core).keeps hn
  | fabricSlotOpen slot => exact (execFabricSlotOpen_lasting s slot).keeps hn
  | snapshot core => exact (execSnapshot_lasting s core).keeps hn
  | dtLoad core => exact (execDtLoad_lasting s core).keeps hn
  | dtPass core => exact (execDtPass_lasting s core).keeps hn
  | dtPlough core => exact (execDtPlough_lasting s core).keeps hn
  | dtMove core => exact (execDtMove_lasting s core).keeps hn
  | passExchange core => exact (execPassExchange_lasting s core).keeps hn
  | shadowLoadComplete core => exact (execShadowLoadComplete_lasting s core).keeps hn
  | passRowIssue core cycle => exact (execPassRowIssue_lasting s core cycle).keeps hn
  | beatWrite core residueFault => exact (execBeatWrite_lasting s core residueFault).keeps hn
  | awlReadIssue core stream => exact (execAwlReadIssue_lasting s core stream).keeps hn
  | readReturn core tag uncorrectable => exact (execReadReturn_lasting s core tag uncorrectable).keeps hn
  | entryDelivery core stream => exact (execEntryDelivery_lasting s core stream).keeps hn
  | mullBlockRelease core stream => exact (execMullBlockRelease_lasting s core stream).keeps hn
  | writeAck core stream => exact (execWriteAck_lasting s core stream).keeps hn
  | multicastArm core stream => exact (execMulticastArm_lasting s core stream).keeps hn
  | translationWalkDone core stream => exact (execTranslationWalkDone_lasting s core stream).keeps hn
  | pageNotPresent core stream => exact (execPageNotPresent_lasting s core stream).keeps hn
  | pageInComplete core stream page => exact (execPageInComplete_lasting s core stream page).keeps hn
  | tippingTransfer source op => exact (execTippingTransfer_lasting s source op).keeps hn
  | tagExpiry core tag => exact (execTagExpiry_lasting s core tag).keeps hn
  | cancelDrainDone => exact (execCancelDrainDone_lasting s).keeps hn
  | ploughNop core => exact (execPloughNop_lasting s core).keeps hn
  | ploughEnd core => exact (execPloughEnd_lasting s core).keeps hn
  | ploughLoop core => exact (execPloughLoop_lasting s core).keeps hn
  | ploughEndLoop core => exact (execPloughEndLoop_lasting s core).keeps hn
  | brf core => exact (execBrf_lasting s core).keeps hn
  | sli core => exact State.outLasts.keeps (show s.outLasts (execSli core s) from ploughRegs_lasting s core _ _) hn
  | sadd core => exact State.outLasts.keeps (show s.outLasts (execSadd core s) from ploughRegs_lasting s core _ _) hn
  | sshl core => exact State.outLasts.keeps (show s.outLasts (execSshl core s) from ploughRegs_lasting s core _ _) hn
  | pset core => exact State.outLasts.keeps (show s.outLasts (execPset core s) from ploughRegs_lasting s core _ _) hn
  | padd core => exact State.outLasts.keeps (show s.outLasts (execPadd core s) from ploughRegs_lasting s core _ _) hn
  | vld core => exact (execVld_lasting s core).keeps hn
  | vst core cycle => exact (execVst_lasting s core cycle).keeps hn
  | sld core => exact (execSld_lasting s core).keeps hn
  | sst core cycle => exact (execSst_lasting s core cycle).keeps hn
  | vadd core => exact (execVadd_lasting s core).keeps hn
  | vsub core => exact (execVsub_lasting s core).keeps hn
  | vmul core => exact (execVmul_lasting s core).keeps hn
  | vfma core => exact State.outLasts.keeps (show s.outLasts (execVfma core s) from ploughRegs_lasting s core _ _) hn
  | vmin core => exact State.outLasts.keeps (show s.outLasts (execVmin core s) from ploughRegs_lasting s core _ _) hn
  | vmax core => exact State.outLasts.keeps (show s.outLasts (execVmax core s) from ploughRegs_lasting s core _ _) hn
  | vabs core => exact State.outLasts.keeps (show s.outLasts (execVabs core s) from ploughRegs_lasting s core _ _) hn
  | vneg core => exact State.outLasts.keeps (show s.outLasts (execVneg core s) from ploughRegs_lasting s core _ _) hn
  | vdiv core => exact (execVdiv_lasting s core).keeps hn
  | vsqrt core => exact (execVsqrt_lasting s core).keeps hn
  | vcmp core => exact State.outLasts.keeps (show s.outLasts (execVcmp core s) from ploughRegs_lasting s core _ _) hn
  | vsel core => exact State.outLasts.keeps (show s.outLasts (execVsel core s) from ploughRegs_lasting s core _ _) hn
  | vbcast core => exact State.outLasts.keeps (show s.outLasts (execVbcast core s) from ploughRegs_lasting s core _ _) hn
  | vrsum core => exact (execVrsum_lasting s core).keeps hn
  | vrmax core => exact State.outLasts.keeps (show s.outLasts (execVrmax core s) from ploughRegs_lasting s core _ _) hn
  | vramax core => exact State.outLasts.keeps (show s.outLasts (execVramax core s) from ploughRegs_lasting s core _ _) hn
  | vexp2 core => exact (execVexp2_lasting s core).keeps hn
  | vlog2 core => exact (execVlog2_lasting s core).keeps hn
  | vexp core => exact (execVexp_lasting s core).keeps hn
  | vlog core => exact (execVlog_lasting s core).keeps hn
  | vlse core => exact (execVlse_lasting s core).keeps hn
  | vrlse core => exact (execVrlse_lasting s core).keeps hn
  | qfolio core cycle => exact (execQfolio_lasting s core cycle).keeps hn
  | qwire core cycle => exact (execQwire_lasting s core cycle).keeps hn
  | qcvt core cycle => exact (execQcvt_lasting s core cycle).keeps hn
  | unpack core => exact (execUnpack_lasting s core).keeps hn
  | testf core => exact (execTestf_lasting s core).keeps hn
  | mreenc core => exact (execMreenc_lasting s core).keeps hn
  | vrand core => exact (execVrand_lasting s core).keeps hn
  | scrubAccess site mem addr found => exact (execScrubAccess_lasting s site mem addr found).keeps hn
  | stepBoundary => exact (execStepBoundary_lasting s).keeps hn
  | coreWake => exact (execCoreWake_lasting s).keeps hn
  | guardTestStart site => exact (execGuardTestStart_lasting s site).keeps hn
  | guardTestDone site failPhase => exact (execGuardTestDone_lasting s site failPhase).keeps hn
  | surveyComplete m => exact (execSurveyComplete_lasting s m).keeps hn
  | stackLost stack cause => exact (execStackLost_lasting s stack cause).keeps hn
  | recoveryReplayDone => exact (execRecoveryReplayDone_lasting s).keeps hn
  | softRepair stack => exact (execSoftRepair_lasting s stack).keeps hn
  | frameMark => exact (execFrameMark_lasting s).keeps hn
  | markMissing => exact (execMarkMissing_lasting s).keeps hn
  | effectiveMark => exact (execEffectiveMark_lasting s).keeps hn
  | cadenceSync lane flit t4 => exact (execCadenceSync_lasting s lane flit t4).keeps hn
  | boundaryVote vote => exact (execBoundaryVote_lasting s vote).keeps hn
  | holdDeadline => exact (execHoldDeadline_lasting s).keeps hn
  | holdMsg => exact (execHoldMsg_lasting s).keeps hn
  | resumeMsg frame => exact (execResumeMsg_lasting s frame).keeps hn
  | holdTimeout => exact (execHoldTimeout_lasting s).keeps hn
  | autoNegotiation lane ok => exact (execAutoNegotiation_lasting s lane ok).keeps hn
  | linkTraining lane ok => exact (execLinkTraining_lasting s lane ok).keeps hn
  | pcsBlockLock lane ok => exact (execPcsBlockLock_lasting s lane ok).keeps hn
  | linkRetry lane => exact (execLinkRetry_lasting s lane).keeps hn
  | partner lane flit => exact (execPartner_lasting s lane flit).keeps hn
  | timingExchangeDone lane ok => exact (execTimingExchangeDone_lasting s lane ok).keeps hn
  | linkDown lane cause => exact (execLinkDown_lasting s lane cause).keeps hn
  | schedTransfer lane transfer => exact (execSchedTransfer_lasting s lane transfer).keeps hn
  | forward lane header data => exact (execForward_lasting s lane header data).keeps hn
  | dynTransfer lane transfer => exact (execDynTransfer_lasting s lane transfer).keeps hn
  | ackMsg sequence => exact (execAckMsg_lasting s sequence).keeps hn
  | refuseMsg sequence reason => exact (execRefuseMsg_lasting s sequence reason).keeps hn
  | resendTimeout sequence => exact (execResendTimeout_lasting s sequence).keeps hn
  | creditWaitTimeout transfer => exact (execCreditWaitTimeout_lasting s transfer).keeps hn
  | escapeTimeout transfer => exact (execEscapeTimeout_lasting s transfer).keeps hn
  | advertisement lane adv => exact (execAdvertisement_lasting s lane adv).keeps hn
  | advertisementPeriod => exact (execAdvertisementPeriod_lasting s).keeps hn
  | advertisementExpiry node => exact (execAdvertisementExpiry_lasting s node).keeps hn
  | routingRebuildDone => exact (execRoutingRebuildDone_lasting s).keeps hn
  | continuousRecord protectedNode step sequence pages => exact (execContinuousRecord_lasting s protectedNode step sequence pages).keeps hn
  | checkpointComplete set => exact (execCheckpointComplete_lasting s set).keeps hn
  | memberLeave rank => exact (execMemberLeave_lasting s rank).keeps hn
  | memberIsolation rank => exact (execMemberIsolation_lasting s rank).keeps hn
  | coverBegin => exact (execCoverBegin_lasting s).keeps hn
  | coverEnd rank => exact (execCoverEnd_lasting s rank).keeps hn
  | peerWaitExpiry => exact (execPeerWaitExpiry_lasting s).keeps hn
  | binderWatchdog => exact (execBinderWatchdog_lasting s).keeps hn
  | binderRestarted => exact (execBinderRestarted_lasting s).keeps hn
  | mcWatchdog => exact (execMcWatchdog_lasting s).keeps hn
  | mcRestart => exact (execMcRestart_lasting s).keeps hn
  | sensorRead group index reading => exact (execSensorRead_lasting s group index reading).keeps hn
  | sensorPageRefresh => exact (execSensorPageRefresh_lasting s).keeps hn
  | thresholdTrip group index reading => exact (execThresholdTrip_lasting s group index reading).keeps hn
  | railShutdown trip => exact (execRailShutdown_lasting s trip).keeps hn
  | tamperTrigger cause verifyRetries => exact (execTamperTrigger_lasting s cause verifyRetries).keeps hn
  | logFlush => exact (execLogFlush_lasting s).keeps hn
  | marchBlockTest block passed => exact (execMarchBlockTest_lasting s block passed).keeps hn
  | borrowedBlockAccess addr => exact (execBorrowedBlockAccess_lasting s addr).keeps hn
  | shelfRecord domain shelf slotId => exact (execShelfRecord_lasting s domain shelf slotId).keeps hn
  | setUtc utc => exact (execSetUtc_lasting s utc).keeps hn
  | mainOn => exact (execMainOn_lasting s).keeps hn
  | lcNonce nonce => exact (execLcNonce_lasting s nonce).keeps hn
  | lcRequest req blowFails => exact execLcRequest_keeps s req blowFails hn
  | keyRevoke req => exact execKeyRevoke_keeps s req hn
  | svnCommit req => exact execSvnCommit_keeps s req hn
  | profileWrite profile bits => exact (execProfileWrite_lasting s profile bits).keeps hn
  | mctpControl ask => exact (execMctpControl_lasting s ask).keeps hn
  | pldmMonitoring ask index => exact (execPldmMonitoring_lasting s ask index).keeps hn
  | requestUpdate agent => exact (execRequestUpdate_lasting s agent).keeps hn
  | passComponentTable components => exact (execPassComponentTable_lasting s components).keeps hn
  | updateComponent component => exact (execUpdateComponent_lasting s component).keeps hn
  | firmwareData bytes => exact (execFirmwareData_lasting s bytes).keeps hn
  | transferComplete => exact (execTransferComplete_lasting s).keeps hn
  | verifyComplete => exact (execVerifyComplete_lasting s).keeps hn
  | applyComplete => exact (execApplyComplete_lasting s).keeps hn
  | activateFirmware => exact (execActivateFirmware_lasting s).keeps hn
  | fwActivateFailed => exact (execFwActivateFailed_lasting s).keeps hn
  | fabricRecoveryTimeout => exact (execFabricRecoveryTimeout_lasting s).keeps hn
  | getVersion => exact (execGetVersion_lasting s).keeps hn
  | getCapabilities => exact (execGetCapabilities_lasting s).keeps hn
  | negotiateAlgorithms ecdsaP384 sha384 => exact (execNegotiateAlgorithms_lasting s ecdsaP384 sha384).keeps hn
  | getDigests => exact (execGetDigests_lasting s).keeps hn
  | getCertificate offset len => exact (execGetCertificate_lasting s offset len).keeps hn
  | challenge nonce => exact (execChallenge_lasting s nonce).keeps hn
  | getMeasurements index signed nonce => exact (execGetMeasurements_lasting s index signed nonce).keeps hn
  | refclkPresence => exact (execRefclkPresence_lasting s).keeps hn
  | refclkQualified => exact (execRefclkQualified_lasting s).keeps hn
  | refclkLoss => exact (execRefclkLoss_lasting s).keeps hn
  | pllLock pll => exact (execPllLock_lasting s pll).keeps hn
  | aclkRampStep => exact (execAclkRampStep_lasting s).keeps hn
  | standbyOn => exact execStandbyOn_keeps s hn
  | standbyOff => exact execStandbyOff_keeps s hn
  | mainUndervoltage => exact (execMainUndervoltage_lasting s).keeps hn
  | mainOvervoltage => exact (execMainOvervoltage_lasting s).keeps hn
  | inputClamp => exact (execInputClamp_lasting s).keeps hn
  | phaseShed rail phase => exact execPhaseShed_keeps s rail phase hn
  | mcResetRelease pins => exact (execMcResetRelease_lasting s pins).keeps hn
  | startupRailsUp => exact (execStartupRailsUp_lasting s).keeps hn
  | startupTrainingDone absent => exact (execStartupTrainingDone_lasting s absent).keeps hn
  | binderBootDone => exact (execBinderBootDone_lasting s).keeps hn
  | startupBistDone failed => exact (execStartupBistDone_lasting s failed).keeps hn
  | hotSwapSwitchOn => exact (execHotSwapSwitchOn_lasting s).keeps hn
  | moduleExtract => exact (execModuleExtract_lasting s).keeps hn
  | breakerTrip current => exact (execBreakerTrip_lasting s current).keeps hn
  | hostInterfaceUsable => exact (execHostInterfaceUsable_lasting s).keeps hn
  | hashedNodeId => exact (execHashedNodeId_lasting s).keeps hn
  | mainStartAllowed => exact (execMainStartAllowed_lasting s).keeps hn
  | stackRetrainDone => exact (execStackRetrainDone_lasting s).keeps hn
  | dramPatrolScrub stack bank row found => exact (execDramPatrolScrub_lasting s stack bank row found).keeps hn
  | pcieLinkDown port => exact (execPcieLinkDown_lasting s port).keeps hn
  | pcieLinkUp port width generation => exact (execPcieLinkUp_lasting s port width generation).keeps hn

theorem step_keepsFuses (h : step s = .next t) :
    (∀ f, s.fusesKept f = true → t.fusesKept f = true) ∧ (s.shadowOk = true → t.shadowOk = true) := by
  unfold step at h
  split at h
  · have hk : s.Keeps t := .of_lasting (Host.Outcome.next.inj h ▸ s.referenceTick_lasting)
    exact ⟨hk.fusesKept, hk.shadow⟩
  next c rest _ =>
    have hk : State.Keeps { s with pending := rest } t := exec_keeps c _ h
    exact ⟨hk.fusesKept, hk.shadow⟩

end Sys2Proof.Machine

open Sys2Proof Sys2Proof.Machine

/-- Settles O4: each command keeps the fuses (`exec_keeps`), and so does the tick of an empty queue. -/
theorem stepKeepsFuses : Obligations.StepKeepsFuses := fun _ _ h => step_keepsFuses h

/-- Settles O5: no command touches the queue. -/
theorem execKeepsQueue : Obligations.ExecKeepsQueue := fun i s _ h => (exec_keeps i s h).queue
end

