-- ==== Sys2Proof/Proofs/HostTurn.lean ====
section
/-!
SUPPORT. The turn of a host command (R322): what keeps it from beginning, and that a command that does not begin changes nothing. What its
completion does to its handle (R316, R319).
-/

namespace Sys2Proof.Machine

variable {s : State} {h x : Handle} {op : Nat}

/-! ### The turn (R322) -/

/-- An earlier command of the same mailbox in the way: it has not begun or, with FENCE, is not out of the way yet. -/
def HostIf.heldUp (h : HostIf) (e : HandleEntry) : Prop :=
  ∃ o ∈ h.handles, o.phase = .running ∧ o.mailbox = e.mailbox ∧ o.takenAt < e.takenAt
    ∧ (o.begun = false ∨ (e.fence = true ∧ ¬ (o.opcode.toNat = 0x11 ∧ o.exclusiveDone = true)))

/-- Another command in its exclusive phase. -/
def HostIf.inExclusive (h : HostIf) : Prop :=
  ∃ o ∈ h.handles, o.phase = .running ∧ o.exclusive = true ∧ o.begun = true ∧ o.exclusiveDone = false

theorem HandleEntry.released_eq_false (e : HandleEntry) (h : ¬ (e.opcode.toNat = 0x11 ∧ e.exclusiveDone = true)) : e.released = false := by
  rw [HandleEntry.released, Bool.eq_false_iff, ne_eq, Bool.and_eq_true, beq_iff_eq]
  exact h

theorem HostIf.mayBegin_of_begun {h : HostIf} {e : HandleEntry} (hb : e.begun = true) : h.mayBegin e = false := by
  simp [HostIf.mayBegin, hb]

theorem HostIf.mayBegin_of_heldUp {h : HostIf} {e : HandleEntry} (hu : h.heldUp e) : h.mayBegin e = false := by
  obtain ⟨o, ho, hp, hm, ht, hw⟩ := hu
  have hf : (o.begun && (!e.fence || o.released)) = false := by
    rcases hw with hb | ⟨hf, hr⟩
    · rw [hb, Bool.false_and]
    · rw [hf, o.released_eq_false hr, Bool.not_true, Bool.or_false, Bool.and_false]
  have hall : ¬ ∀ o ∈ h.handles, (!(o.phase == .running && o.mailbox == e.mailbox && decide (o.takenAt < e.takenAt))
      || (o.begun && (!e.fence || o.released))) = true := fun hall => by
    simpa [hp, hm, ht, hf] using hall o ho
  rw [← List.all_eq_true, Bool.not_eq_true] at hall
  rw [HostIf.mayBegin, hall, Bool.and_false, Bool.false_and]

theorem HostIf.mayBegin_of_inExclusive {h : HostIf} {e : HandleEntry} (he : e.exclusive = true) (hx : h.inExclusive) :
    h.mayBegin e = false := by
  obtain ⟨o, ho, hp, hox, hb, hd⟩ := hx
  have hall : ¬ ∀ o ∈ h.handles, (!(o.phase == .running && o.exclusive && o.begun && !o.exclusiveDone)) = true := fun hall => by
    simpa [hp, hox, hb, hd] using hall o ho
  rw [← List.all_eq_true, Bool.not_eq_true] at hall
  rw [HostIf.mayBegin, hall, he, Bool.not_true, Bool.or_false, Bool.and_false]

theorem State.begins_eq_none
    (hw : ∀ e, s.running? x = some e → ¬ (e.opcode.toNat = op ∧ s.pwr.main ∧ s.binderRuns ∧ s.host.mayBegin e)) :
    s.begins x op = none := by
  unfold State.begins
  split
  next e he => exact if_neg (hw e he)
  next => rfl

/-- A host command whose turn has not come changes nothing. -/
theorem exec_of_begins_none {i : Instr} (hi : i.hostOp = some (x, op)) (hb : s.begins x op = none) : exec i s = .next s := by
  cases i <;> cases hi
  case dmaWrite src => exact (show execDmaWrite x src s = .next s by rw [execDmaWrite, hb])
  case dmaRead errorAt => exact (show execDmaRead x errorAt s = .next s by rw [execDmaRead, hb])
  case inputCmd src => exact (show execInputCmd x src s = .next s by rw [execInputCmd, hb])
  case load => exact (show execLoad x s = .next s by rw [execLoad, hb])
  case activate => exact (show execActivate x s = .next s by rw [execActivate, hb])
  case unload => exact (show execUnload x s = .next s by rw [execUnload, hb])
  case cancel => exact (show execCancel x s = .next s by rw [execCancel, hb])
  case elasticStart => exact (show execElasticStart x s = .next s by rw [execElasticStart, hb])
  case recipeUpdate => exact (show execRecipeUpdate x s = .next s by rw [execRecipeUpdate, hb])
  case streamResume => exact (show execStreamResume x s = .next s by rw [execStreamResume, hb])
  case kernelResume => exact (show execKernelResume x s = .next s by rw [execKernelResume, hb])
  case fromMirrorResume reply => exact (show execFromMirrorResume x reply s = .next s by rw [execFromMirrorResume, hb])
  case pagedMap => exact (show execPagedMap x s = .next s by rw [execPagedMap, hb])
  case waitStep => exact (show execWaitStep x s = .next s by rw [execWaitStep, hb])
  case queueLimits => exact (show execQueueLimits x s = .next s by rw [execQueueLimits, hb])
  case setAperture => exact (show execSetAperture x s = .next s by rw [execSetAperture, hb])
  case setRotation => exact (show execSetRotation x s = .next s by rw [execSetRotation, hb])
  case setLayout => exact (show execSetLayout x s = .next s by rw [execSetLayout, hb])
  case setProfileWrite => exact (show execSetProfileWrite x s = .next s by rw [execSetProfileWrite, hb])
  case setProfileSelect => exact (show execSetProfileSelect x s = .next s by rw [execSetProfileSelect, hb])
  case linkDisable => exact (show execLinkDisable x s = .next s by rw [execLinkDisable, hb])
  case linkBringUp => exact (show execLinkBringUp x s = .next s by rw [execLinkBringUp, hb])
  case survey => exact (show execSurvey x s = .next s by rw [execSurvey, hb])
  case diagRead errorAt => exact (show execDiagRead x errorAt s = .next s by rw [execDiagRead, hb])
  case diagReadKettleTable errorAt => exact (show execDiagReadKettleTable x errorAt s = .next s by rw [execDiagReadKettleTable, hb])
  case maintain => exact (show execMaintain x s = .next s by rw [execMaintain, hb])
  case mirrorStore => exact (show execMirrorStore x s = .next s by rw [execMirrorStore, hb])
  case mirrorBind reply => exact (show execMirrorBind x reply s = .next s by rw [execMirrorBind, hb])
  case mirrorUnbind => exact (show execMirrorUnbind x s = .next s by rw [execMirrorUnbind, hb])
  case seed reply => exact (show execSeed x reply s = .next s by rw [execSeed, hb])

/-! ### What a completion does (R316, R319) -/

theorem State.running?_eq_some {e : HandleEntry} (hr : s.running? x = some e) :
    s.host.handles[handleIndex x]? = some e ∧ e.phase = .running := by
  simp only [State.running?, HostIf.entry?] at hr
  split at hr
  next a ha =>
    split at ha
    next b hb =>
      obtain ⟨-, hba⟩ := Option.ite_none_right_eq_some.1 ha
      obtain ⟨hp, hae⟩ := Option.ite_none_right_eq_some.1 hr
      exact ⟨hb.trans (hba.trans hae), Option.some.inj hae ▸ hp⟩
    next => cases ha
  next => cases hr

/-- The entry of a command whose outcome is fixed: Held, with its place among the outcomes (R316, R319). -/
def HandleEntry.holding (e : HandleEntry) (n : Nat) (stamp : W64) (status detail result : Nat) : HandleEntry :=
  { e with phase := .held, exclusiveDone := true, fixedAt := n, status := BitVec.ofNat 16 status, detail := BitVec.ofNat 32 detail,
           result := BitVec.ofNat 64 result, cadence := stamp }

theorem State.complete_eq {e : HandleEntry} (hr : s.running? x = some e) (status detail result : Nat) :
    s.complete x status detail result = s.modHost fun h => { h with
      handles := h.handles.set (handleIndex x) (e.holding h.fixNo s.stamp status detail result), fixNo := h.fixNo + 1,
      trace := h.trace.map fun t =>
        if t.handle = x then { t with doneCadence := s.stamp, status := BitVec.ofNat 16 status } else t } := by
  obtain ⟨he, -⟩ := State.running?_eq_some hr
  simp only [State.complete, hr, State.modEntry, HostIf.modEntry, State.modHost, he]
  rfl

theorem State.running?_eq_none {e : HandleEntry} (he : s.host.handles[handleIndex x]? = some e) (hp : e.phase ≠ .running) :
    s.running? x = none :=
  Option.eq_none_iff_forall_ne_some.2 fun d hd => by
    obtain ⟨h, hd⟩ := State.running?_eq_some hd
    exact hp (Option.some.inj (he.symm.trans h) ▸ hd)

theorem State.complete_handles_same {e : HandleEntry} (hr : s.running? x = some e) (status detail result : Nat) :
    (s.complete x status detail result).host.handles[handleIndex x]? = some (e.holding s.host.fixNo s.stamp status detail result) := by
  obtain ⟨he, -⟩ := State.running?_eq_some hr
  rw [State.complete_eq hr]
  exact List.getElem?_set_self (List.getElem?_eq_some_iff.1 he).1

theorem State.complete_handles_ne {e : HandleEntry} (hr : s.running? x = some e) (status detail result : Nat) {n : Nat}
    (hn : n ≠ handleIndex x) : (s.complete x status detail result).host.handles[n]? = s.host.handles[n]? := by
  rw [State.complete_eq hr]
  exact List.getElem?_set_ne hn.symm

end Sys2Proof.Machine

open Sys2Proof Sys2Proof.Machine

/-- Settles O32: each of the conditions keeps the command from its turn. -/
theorem hostCommandTurn : Obligations.HostCommandTurn := fun i x op s hi hw => by
  refine exec_of_begins_none hi (State.begins_eq_none fun e he ⟨hop, hmain, hruns, hmay⟩ => ?_)
  rcases hw e he with h | h | h | h | h | ⟨hx, h⟩
  · exact h hop
  · rw [h] at hmain; cases hmain
  · rw [h] at hruns; cases hruns
  · rw [HostIf.mayBegin_of_begun h] at hmay; cases hmay
  · rw [HostIf.mayBegin_of_heldUp h] at hmay; cases hmay
  · rw [HostIf.mayBegin_of_inExclusive hx h] at hmay; cases hmay

/-- Settles O33, from the completion of a running handle written out. -/
theorem completionHolds : Obligations.CompletionHolds := fun s x status detail result => by
  refine ⟨s.complete_of_not_running x status detail result, fun e he => ?_⟩
  have held := State.complete_handles_same he status detail result
  refine ⟨held, ?_, State.running?_eq_none held nofun, fun n hn => State.complete_handles_ne he status detail result hn, ?_⟩
  all_goals rw [State.complete_eq he]; rfl
end

