-- ==== Sys2Proof/Proofs/HostTransfers.lean ====
section
/-!
SUPPORT. Data movement for the host (R324, R325): where the fields of a transfer may lie, what comes in and what goes out, and what DMA_WRITE,
DMA_READ and INPUT then do.
-/

namespace Sys2Proof.Machine

variable {s : State} {x : Handle} {b : Nat} {src : HostRead}

/-! ### The fields of a transfer (R325) -/

/-- What R325 asks of HOST_ADDR, DEV_ADDR and LENGTH. -/
def State.dmaGood (s : State) (b : Nat) : Prop :=
  dmaHost b % 64 = 0 ∧ (dmaDev b % 64 = 0 ∧ dmaDev b + max 64 (dmaLen b) ≤ s.layoutEnd) ∧ 64 ≤ dmaLen b ∧ dmaLen b % 64 = 0

theorem State.dmaError_of_good (hg : s.dmaGood b) : s.dmaError b = none := by
  obtain ⟨hhost, ⟨hdev, hend⟩, hlen, hunit⟩ := hg
  rw [State.dmaError, if_neg (not_not_intro hhost), if_neg (by omega), if_neg (by omega)]

/-- The first field in error, in the order HOST_ADDR, DEV_ADDR, LENGTH. -/
theorem State.dmaError_of_bad (hb : ¬ s.dmaGood b) : s.dmaError b = some (
    if dmaHost b % 64 ≠ 0 then 0 else if ¬ (dmaDev b % 64 = 0 ∧ dmaDev b + max 64 (dmaLen b) ≤ s.layoutEnd) then 64 else 128) := by
  rw [State.dmaGood] at hb
  rw [State.dmaError]
  split
  · rfl
  · split
    · rw [if_pos (by omega)]
    · rw [if_pos (by omega), if_neg (by omega)]

/-! ### Bytes in and out -/

theorem readIn_of_whole {n : Nat} (he : src.error = false) (hn : src.bytes.length = n) : readIn src n = some (src.bytes, false) := by
  rw [readIn, he, if_neg Bool.false_ne_true, if_pos hn]

theorem readIn_of_cut {n : Nat} (he : src.error = true) (hn : src.bytes.length < n) : readIn src n = some (src.bytes, true) := by
  rw [readIn, if_pos he, if_pos hn]

theorem State.dramRead_length (s : State) (a n : Nat) : (s.dramRead a n).length = n := by simp [State.dramRead, Mem.read]

/-! ### DMA_WRITE and DMA_READ -/

theorem execDmaWrite_of_bad {lo : Nat} (hb : s.begins x 0x01 = some b) (he : s.dmaError b = some lo) :
    execDmaWrite x src s = .next (s.badField x lo) := by simp only [execDmaWrite, hb, he]

theorem execDmaWrite_of_whole (hb : s.begins x 0x01 = some b) (hg : s.dmaGood b) (he : src.error = false)
    (hn : src.bytes.length = dmaLen b) :
    execDmaWrite x src s = .next ((s.dramStore (dmaDev b) src.bytes).complete x 0 0 (dmaLen b)) := by
  simp only [execDmaWrite, hb, State.dmaError_of_good hg, readIn_of_whole he hn, hn]

theorem execDmaWrite_of_cut (hb : s.begins x 0x01 = some b) (hg : s.dmaGood b) (he : src.error = true)
    (hn : src.bytes.length < dmaLen b) :
    execDmaWrite x src s = .next ((s.dramStore (dmaDev b) src.bytes).complete x 0x0007 src.bytes.length 0) := by
  simp only [execDmaWrite, hb, State.dmaError_of_good hg, readIn_of_cut he hn]

theorem execDmaRead_of_bad {lo : Nat} (hb : s.begins x 0x02 = some b) (he : s.dmaError b = some lo) (errorAt : Option Nat) :
    execDmaRead x errorAt s = .next (s.badField x lo) := by simp only [execDmaRead, hb, he]

theorem execDmaRead_of_good (hb : s.begins x 0x02 = some b) (hg : s.dmaGood b) (errorAt : Option Nat) :
    execDmaRead x errorAt s = .next (s.toHost x (dmaHost b) (s.dramRead (dmaDev b) (dmaLen b)) errorAt (dmaLen b)) := by
  simp only [execDmaRead, hb, State.dmaError_of_good hg]

/-! ### INPUT (R269, R327) -/

/-- The step of an input and its reference. -/
def inputOf (b : Nat) : W64 × W64 := (BitVec.ofNat 64 (fld b 256 64), BitVec.ofNat 64 (fld b 192 64))

/-- The state with an input's bytes stored, its reference listed, and no recovery waiting for it any more. -/
def State.takeInput (s : State) (b : Nat) (bytes : List Byte) : State :=
  ((s.dramStore (dmaDev b) bytes).listInput (inputOf b).1 (inputOf b).2).modProg fun p =>
    { p with inputWant := p.inputWant.erase (inputOf b) }

theorem execInputCmd_of_bad {lo : Nat} (hb : s.begins x 0x03 = some b) (he : s.dmaError b = some lo) :
    execInputCmd x src s = .next (s.badField x lo) := by simp only [execInputCmd, hb, he]

theorem execInputCmd_of_cut (hb : s.begins x 0x03 = some b) (hg : s.dmaGood b) (he : src.error = true)
    (hn : src.bytes.length < dmaLen b) :
    execInputCmd x src s = .next (
      let t := (s.dramStore (dmaDev b) src.bytes).complete x 0x0007 src.bytes.length 0
      if inputOf b ∈ s.prog.inputWant then t.endMissing (inputOf b) else t) := by
  simp only [execInputCmd, hb, State.dmaError_of_good hg, readIn_of_cut he hn, List.contains_iff_mem]
  rfl

theorem execInputCmd_of_whole (hb : s.begins x 0x03 = some b) (hg : s.dmaGood b) (he : src.error = false)
    (hn : src.bytes.length = dmaLen b) :
    execInputCmd x src s = .next (
      let t := s.takeInput b src.bytes
      if t.stepReleased (inputOf b).1.toNat then t.complete x 0x0005 (inputOf b).1.toNat (dmaLen b) else t.complete x 0 0 (dmaLen b)) := by
  simp only [execInputCmd, hb, State.dmaError_of_good hg, readIn_of_whole he hn, hn]
  rfl

/-- What tells which steps are released: no transfer changes it. -/
def Program.clock (p : Program) : Option Image × Phase × W64 × Bool := (p.active, p.phase, p.step, p.released)

theorem State.listInput_clock (s : State) (step ref : W64) : (s.listInput step ref).prog.clock = s.prog.clock := by
  unfold State.listInput
  split
  · rfl
  · split
    · rfl
    · split
      · rfl
      · rw [State.modProg_prog, State.raiseStep_prog]; rfl

theorem State.takeInput_clock (s : State) (b : Nat) (bytes : List Byte) : (s.takeInput b bytes).prog.clock = s.prog.clock :=
  State.listInput_clock _ _ _

theorem State.stepReleased_congr {t : State} (h : t.prog.clock = s.prog.clock) (n : Nat) : t.stepReleased n = s.stepReleased n := by
  obtain ⟨ha, hp, hs, hr⟩ : t.prog.active = s.prog.active ∧ t.prog.phase = s.prog.phase ∧ t.prog.step = s.prog.step
      ∧ t.prog.released = s.prog.released := by simpa only [Program.clock, Prod.mk.injEq] using h
  rw [State.stepReleased, ha, hp, hs, hr, State.stepReleased]

theorem State.stepReleased_iff (s : State) (step : W64) : s.stepReleased step.toNat = true ↔
    s.prog.active.isSome = true ∧ s.prog.phase = .steps
      ∧ (step.toNat < s.prog.step.toNat ∨ (step = s.prog.step ∧ s.prog.released = true)) := by
  simp only [State.stepReleased, Bool.and_eq_true, Bool.or_eq_true, decide_eq_true_eq, beq_iff_eq, BitVec.toNat_inj, and_assoc]

end Sys2Proof.Machine

open Sys2Proof Sys2Proof.Machine

/-- Settles O34: a field in error first; then what came whole and what a PCIe error cut short, command by command. -/
theorem hostTransfers : Obligations.HostTransfers := by
  intro x src b s host dev n inside good lo whole cut stored ref step late
  have bad (hn : ¬ good) : ∃ bit, s.dmaError b = some bit ∧ s.badField x bit = s.complete x 0x0001 lo 0 := by
    refine ⟨_, State.dmaError_of_bad hn, congrArg (s.complete x 0x0001 · 0) ?_⟩
    rw [apply_ite bodyOffset, apply_ite bodyOffset]; rfl
  refine ⟨fun hb => ⟨fun hn => ?_, fun hg ⟨he, hl⟩ => execDmaWrite_of_whole hb hg he hl,
      fun hg ⟨he, hl⟩ => execDmaWrite_of_cut hb hg he hl⟩,
    fun hb => ⟨fun hn err => ?_, fun hg => execDmaRead_of_good hb hg none, fun hg k hk => ?_⟩,
    fun hb => ⟨fun hn => ?_, fun hg ⟨he, hlen⟩ => ?_, fun hg ⟨he, hlen⟩ => ⟨fun hl => ?_, fun hl => ?_⟩⟩⟩
  · obtain ⟨bit, he, hs⟩ := bad hn
    exact hs ▸ execDmaWrite_of_bad hb he
  · obtain ⟨bit, he, hs⟩ := bad hn
    exact hs ▸ execDmaRead_of_bad hb he err
  · refine (execDmaRead_of_good hb hg (some k)).trans (congrArg _ ?_)
    exact State.toHost_of_error (hk.trans_eq (s.dramRead_length _ _).symm) _ _
  · obtain ⟨bit, he, hs⟩ := bad hn
    exact hs ▸ execInputCmd_of_bad hb he
  · refine (execInputCmd_of_cut hb hg he hlen).trans ?_
    simp only [State.endMissing, State.endRecovery, State.complete_fab]
    rfl
  · refine (execInputCmd_of_whole hb hg he hlen).trans (congrArg _ (if_neg fun h => hl ?_))
    rwa [State.stepReleased_congr (s.takeInput_clock b _), State.stepReleased_iff] at h
  · refine (execInputCmd_of_whole hb hg he hlen).trans (congrArg _ (if_pos ?_))
    rwa [State.stepReleased_congr (s.takeInput_clock b _), State.stepReleased_iff]
end

