-- ==== Sys2Proof/Proofs/HostMirrors.lean ====
section
/-!
SUPPORT. The mirror commands (R325): MIRROR_STORE, MIRROR_BIND, MIRROR_UNBIND and SEED, one lemma for each outcome.
-/

namespace Sys2Proof.Machine

variable {s : State} {x : Handle} {b : Nat}

/-! ### MIRROR_STORE (log entries 24, 31) -/

/-- The store that MIRROR_STORE names: none where it has no unit. -/
def storeNamed (b : Nat) : Option (Nat × Nat) := if fld b 64 24 = 0 then none else some (fld b 0 52, fld b 64 24)

section
variable (hb : s.begins x 0x40 = some b)
include hb

theorem execMirrorStore_of_outside (hf : fld b 0 52 % unitBytes ≠ 0 ∨ s.layoutEnd < fld b 0 52 + fld b 64 24 * unitBytes) :
    execMirrorStore x s = .next (s.badField x 0) := by simp only [execMirrorStore, hb, if_pos hf]

theorem execMirrorStore_of_used (hf : ¬ (fld b 0 52 % unitBytes ≠ 0 ∨ s.layoutEnd < fld b 0 52 + fld b 64 24 * unitBytes))
    (hu : s.fab.protects ≠ [] ∧ storeNamed b ≠ s.fab.store) : execMirrorStore x s = .next (s.complete x 0x0003 0 0) := by
  simp only [execMirrorStore, hb, if_neg hf]
  exact if_pos hu

theorem execMirrorStore_of_free (hf : ¬ (fld b 0 52 % unitBytes ≠ 0 ∨ s.layoutEnd < fld b 0 52 + fld b 64 24 * unitBytes))
    (hu : ¬ (s.fab.protects ≠ [] ∧ storeNamed b ≠ s.fab.store)) :
    execMirrorStore x s = .next ((s.modFab fun f => { f with store := storeNamed b }).advertise.complete x 0 0 0) := by
  simp only [execMirrorStore, hb, if_neg hf]
  exact if_neg hu
end

/-! ### MIRROR_BIND and MIRROR_UNBIND (log entry 37) -/

theorem execMirrorBind_of_badCover (hb : s.begins x 0x41 = some b) (hc : fld b 18 2 = 3) (reply : BindReply) :
    execMirrorBind x reply s = .next (s.badField x 18) := by simp only [execMirrorBind, hb, if_pos hc]

theorem execMirrorBind_of_refused (hb : s.begins x 0x41 = some b) (hc : fld b 18 2 ≠ 3) {reply : BindReply} {r : Nat}
    (hr : bindReason reply = some r) :
    execMirrorBind x reply s
      = .next ((s.sendDyn (BitVec.ofNat 16 (fld b 0 16)) .device (.bind (s.bindAsk b))).complete x 0x0009 r 0) := by
  simp only [execMirrorBind, hb, if_neg hc, hr]

theorem execMirrorBind_of_accepted (hb : s.begins x 0x41 = some b) (hc : fld b 18 2 ≠ 3) (hcl : (bitOf b 16 || bitOf b 17) = true) :
    execMirrorBind x .accepted s = .next (
      (((s.sendDyn (BitVec.ofNat 16 (fld b 0 16)) .device (.bind (s.bindAsk b))).tellUnbound (bitOf b 16) (bitOf b 17)
          (some (BitVec.ofNat 16 (fld b 0 16)))).modFab fun f =>
        { f with bindings := f.bindings.filterMap (Binding.without (bitOf b 16) (bitOf b 17))
                   ++ [{ partner := BitVec.ofNat 16 (fld b 0 16), continuous := bitOf b 16, checkpointed := bitOf b 17,
                         cover := BitVec.ofNat 2 (fld b 18 2) }],
                 mirrored := if bitOf b 16 then none else f.mirrored, acked := if bitOf b 16 then [] else f.acked,
                 lagRaised := f.lagRaised && !bitOf b 16 }).advertise.complete x 0 0 0) := by
  simp only [execMirrorBind, hb, if_neg hc, bindReason, hcl, if_true]

theorem execMirrorUnbind_of_begins (hb : s.begins x 0x42 = some b) : execMirrorUnbind x s = .next (
    let t := (s.tellUnbound (bitOf b 16) (bitOf b 17) none).modFab fun f =>
      { f with bindings := f.bindings.filterMap (Binding.without (bitOf b 16) (bitOf b 17)) }
    (if bitOf b 17 then t.modProg fun p => { p with shipping := [] } else t).advertise.complete x 0 0 0) := by
  simp only [execMirrorUnbind, hb]

/-! ### SEED -/

theorem execSeed_of_noImage (hb : s.begins x 0x43 = some b) (hi : s.prog.staged = none) (reply : SeedReply) :
    execSeed x reply s = .next (s.complete x 0x0004 0 0) := by simp only [execSeed, hb, hi]

section
variable {img : Image} (hb : s.begins x 0x43 = some b) (hi : s.prog.staged = some img)
include hb hi

theorem execSeed_of_unreachable (d : BitVec 16) : execSeed x (.unreachable d) s = .next (s.complete x 0x000A d.toNat 0) := by
  simp only [execSeed, hb, hi]

theorem execSeed_of_memberLost (r : BitVec 10) : execSeed x (.memberLost r) s = .next (s.complete x 0x020A r.toNat 0) := by
  simp only [execSeed, hb, hi]

theorem execSeed_of_accepted :
    let t := (s.markBegun x).modFab fun f => { f with seeding := some x, seedSets := [], seedState := none }
    execSeed x .accepted s = .next ((t.advertisedRoot img).elim t fun n =>
      t.sendDyn (BitVec.ofNat 16 n) .device (.rejoin img.bounds.rank s.fab.nodeId)) := by
  simp only [execSeed, hb, hi]
  cases State.advertisedRoot _ img <;> rfl
end

end Sys2Proof.Machine

open Sys2Proof Sys2Proof.Machine

/-- Settles O40, command by command. -/
theorem hostMirrors : Obligations.HostMirrors := by
  intro x b s drop partner asked
  refine ⟨fun hb => ?store,
    fun hb => ⟨fun reply hc => execMirrorBind_of_badCover hb hc reply, fun reply r hc hr => execMirrorBind_of_refused hb hc hr,
      fun hc hcl => ?bind⟩,
    fun hb => execMirrorUnbind_of_begins hb,
    fun hb => ⟨fun reply hi => execSeed_of_noImage hb hi reply, fun img d hi => execSeed_of_unreachable hb hi d,
      fun img r hi => execSeed_of_memberLost hb hi r, fun img hi => ?seed⟩⟩
  case store =>
    intro base units new fits
    have hfits : fits ↔ ¬ (base % unitBytes ≠ 0 ∨ s.layoutEnd < base + units * unitBytes) := by
      simp only [fits, unitBytes]; omega
    exact ⟨fun hf => execMirrorStore_of_outside hb (not_not.1 (mt hfits.2 hf)),
      fun hf hp hn => execMirrorStore_of_used hb (hfits.1 hf) ⟨hp, hn⟩,
      fun hf hu => execMirrorStore_of_free hb (hfits.1 hf) fun ⟨hp, hn⟩ => hu.elim hp hn⟩
  case bind =>
    have lag (l : Bool) : (l && !bitOf b 16) = if bitOf b 16 then false else l := by cases bitOf b 16 <;> simp
    refine (execMirrorBind_of_accepted hb hc (Bool.or_eq_true .. ▸ hcl)).trans ?_
    simp only [lag]
    rfl
  case seed =>
    intro t
    refine (execSeed_of_accepted hb hi).trans (congrArg _ ?_)
    change (t.advertisedRoot img).elim t _ = _
    cases t.advertisedRoot img <;> rfl
end

