-- ==== Sys2Proof/Proofs/RingEntries.lean ====
section
/-!
SUPPORT. Completion rings and their interrupts (R317 to R320): what COMPLETION_POST and EVENT_POST write and where, and when a
vector's message is sent.
-/

namespace Sys2Proof.Machine

variable {s : State} {i : Fin 8}

theorem RingRegs.room_iff (r : RingRegs) :
    r.room = true ↔ r.enable = true ∧ (r.tail - r.head).toNat < 2 ^ (r.log2Size.toNat + 6) := by
  rw [RingRegs.room, Bool.and_eq_true, decide_eq_true_eq, RingRegs.size]

/-! ### Posting (R318, R319) -/

theorem entryBytes_length (handle cookie : W32) (status : BitVec 16) (phase : Nat) (event : Bool) (detail : W32) (result cadence : W64) :
    (entryBytes handle cookie status phase event detail result cadence).length = 32 := by
  simp only [entryBytes, List.length_append, leBytes_length]

theorem State.hostWrite_modHost (a : Nat) (bytes : List Byte) (f : HostIf → HostIf) :
    (s.hostWrite a bytes).modHost f = { s with hostMem := Mem.put s.hostMem a bytes, host := f s.host } := rfl

theorem execCompletionPost_of_noRoom (hr : (s.host.ring i).room = false) : execCompletionPost i s = .next s := by
  simp only [execCompletionPost]
  split
  · rfl
  · exact if_pos (.inr (.inl (by rw [hr, Bool.not_false])))

theorem execCompletionPost_of_room (hv : s.served = true) (hb : s.binderRuns = true) {n : Nat} {e : HandleEntry}
    (hf : firstFixed (s.host.heldOf i) = some (n, e)) (hr : (s.host.ring i).room = true) :
    let r := s.host.ring i
    execCompletionPost i s = .next { s with
      hostMem := Mem.put s.hostMem (r.slotAddr r.tail)
        (entryBytes (mkHandle e.gen.toNat n) e.cookie e.status (r.phase r.tail) false e.detail e.result e.cadence),
      host := { s.host with handles := s.host.handles.set n { e with phase := .posted, entry := r.tail } }.written i e.quiet s.now } := by
  simp only [execCompletionPost, hf, hv, hr, hb, Bool.not_true, Bool.false_eq_true, or_self, if_false, State.hostWrite_now,
    State.hostWrite_modHost]

theorem execEventPost_of_noRoom (hr : (s.host.ring s.host.eventRing).room = false) : execEventPost s = .next s := by
  simp only [execEventPost]
  split
  · rfl
  · exact if_pos (.inr (.inl (by rw [hr, Bool.not_false])))

theorem execEventPost_of_room (hv : s.served = true) (hb : s.binderRuns = true) {e : EventRec} {rest : List EventRec}
    (hq : s.host.eventQ = e :: rest) (hr : (s.host.ring s.host.eventRing).room = true) :
    let q := s.host.eventRing
    let r := s.host.ring q
    let t := { s with
      hostMem := Mem.put s.hostMem (r.slotAddr r.tail) (entryBytes e.handle 0 e.code (r.phase r.tail) true ((e.items[0]?).getD 0)
        (((e.items[1]?).getD 0) ++ e.seq) e.cadence),
      host := { s.host with eventQ := rest, eventsLost := 0 }.written q false s.now }
    execEventPost s = .next (if s.host.eventsLost = 0 then t else t.raiseDev 0x0417 [item s.host.eventsLost]) := by
  simp only [execEventPost, hq, hv, hr, hb, Bool.not_true, Bool.false_eq_true, or_self, if_false, State.hostWrite_now,
    State.hostWrite_host, State.hostWrite_modHost]
  rfl

/-! ### What is written stands there, and RING_TAIL advances -/

/-- An entry's 32 bytes stand where they were put, and no other byte of the memory changed. -/
theorem Mem.lookup_put_of_length (m : Memory) (a : Nat) {bs : List Byte} {n : Nat} (hn : bs.length = n) (x : Nat) :
    Mem.lookup (Mem.put m a bs) x = if a ≤ x ∧ x < a + n then some (bs.getD (x - a) 0) else Mem.lookup m x := by
  subst hn
  exact Mem.lookup_put bs m a x

theorem HostIf.ring_setRing (h : HostIf) (i : Fin 8) (x : RingRegs) : (h.setRing i x).ring i = x := Vector.getElem_set_self _

theorem HostIf.signal_tail (h : HostIf) (i : Fin 8) : ((h.signal i).ring i).tail = (h.ring i).tail := by
  have hset := congrArg RingRegs.tail (h.ring_setRing i { h.ring i with unsignalled := 0 })
  simp only [HostIf.signal]
  split <;> exact hset

theorem HostIf.written_tail (h : HostIf) (i : Fin 8) (quiet : Bool) (now : Nat) :
    ((h.written i quiet now).ring i).tail = (h.ring i).tail + 1 := by
  simp only [HostIf.written, HostIf.ring_setRing]
  split
  · rw [HostIf.ring_setRing]
  · generalize (if (h.ring i).unsignalled + 1 = 1 then now else (h.ring i).firstAt) = since
    split
    · simp only [HostIf.signal_tail, HostIf.ring_setRing]
    · simp only [HostIf.ring_setRing]

/-! ### DELAY (log entry 49) -/

theorem execMsixDelayExpiry_of_due (hm : s.pwr.main = true) (hu : 0 < (s.host.ring i).unsignalled)
    (hd : (s.host.ring i).firstAt + 100 * (s.host.ring i).delay.toNat ≤ s.now) :
    execMsixDelayExpiry i s = .next (s.modHost (·.signal i)) := by
  simp only [execMsixDelayExpiry, hm, decide_eq_true hu, decide_eq_true hd, Bool.and_self, act_eq, if_true]

theorem execMsixDelayExpiry_of_notDue (hd : (s.host.ring i).unsignalled = 0
      ∨ s.now < (s.host.ring i).firstAt + 100 * (s.host.ring i).delay.toNat) :
    execMsixDelayExpiry i s = .next s := by
  simp only [execMsixDelayExpiry, act_eq]
  refine congrArg _ (if_neg fun h => ?_)
  simp only [Bool.and_eq_true, decide_eq_true_eq] at h
  omega

/-! ### A vector unmasked (R320; log entry 6) -/

/-- The mask bit is bit 0 of byte 12: an even byte there clears it, and the bits below stay. -/
theorem setByte_twelve_of_even {x : Nat} (hx : x < 2 ^ 97) {b : Byte} (hb : b.toNat % 2 = 0) : setByte x 12 b % 2 ^ 97 = x % 2 ^ 96 := by
  have hf : fld x 96 8 = x / 2 ^ 96 := by rw [fld]; omega
  simp only [setByte, Nat.reduceMul, hf]
  omega

/-- A vector that is unmasked while it is shown pending: its bit is clear, its message sent, its entry unmasked. -/
theorem HostIf.writeMsix_unmask {h : HostIf} {k : Fin 64} {b : Byte} (he : (h.msixTable[k.val]'k.isLt).toNat < 2 ^ 97)
    (hp : h.pba.getLsbD k = true) (hb : b.toNat % 2 = 0) :
    h.writeMsix k 12 b = { h with
      msixTable := h.msixTable.setIfInBounds k (BitVec.ofNat 128 ((h.msixTable[k.val]'k.isLt).toNat % 2 ^ 96)),
      pba := h.pba &&& ~~~((1 : W64) <<< k.val), msixSent := h.msixSent ++ [BitVec.ofNat 6 k.val] } := by
  have hget : h.msixTable.getD k 0 = h.msixTable[k.val]'k.isLt := by
    rw [Vector.getD, ← Vector.getElem_toArray, Array.getD, dif_pos (by simp)]
    rfl
  have hlow : (BitVec.ofNat 128 ((h.msixTable[k.val]'k.isLt).toNat % 2 ^ 96)).getLsbD 96 = false := by
    rw [BitVec.getLsbD_ofNat, Nat.testBit_lt_two_pow (Nat.mod_lt _ (Nat.two_pow_pos 96)), Bool.and_false]
  simp only [HostIf.writeMsix, hget, setByte_twelve_of_even he hb, hlow, hp, Bool.not_false, and_self, if_true]

end Sys2Proof.Machine

open Sys2Proof Sys2Proof.Machine

/-- Settles O43: what is posted where there is room, what DELAY sends, and what unmasking sends. -/
theorem ringEntries : Obligations.RingEntries := by
  intro i s hv hb room place phase r
  have hroom (r : RingRegs) : room r ↔ r.room = true := r.room_iff.symm
  have hplace (r : RingRegs) : r.slotAddr r.tail = place r := rfl
  have hphase (r : RingRegs) : r.phase r.tail = phase r := rfl
  clear_value room place phase
  refine ⟨fun n e hf hr => ?post, fun e rest hq hi hr => ?event, fun hr => ⟨?_, fun hi => ?_⟩,
    fun hm hu hd => execMsixDelayExpiry_of_due hm hu hd, fun hd => execMsixDelayExpiry_of_notDue hd, fun k b h => ?unmask⟩
  case post =>
    intro bytes
    have hlen : bytes.length = 32 := entryBytes_length ..
    have hbytes : entryBytes (mkHandle e.gen.toNat n) e.cookie e.status (phase r) false e.detail e.result e.cadence = bytes := rfl
    have hpost := execCompletionPost_of_room hv hb hf ((hroom r).1 hr)
    have hring : s.host.ring i = r := rfl
    clear_value bytes r
    simp only [hring, hplace, hphase, hbytes] at hpost
    exact ⟨hlen, _, hpost, rfl, Mem.lookup_put_of_length s.hostMem (place r) hlen, hring ▸ HostIf.written_tail _ i e.quiet s.now⟩
  case event =>
    subst hi
    have hpost := execEventPost_of_room hv hb hq ((hroom _).1 hr)
    simp only [hplace, hphase] at hpost
    exact hpost
  case unmask =>
    intro e he hp hb
    rw [HostIf.writeMsix_unmask he hp hb]
    refine ⟨?_, rfl, ?_⟩
    · simp
    · simp only [Vector.getElem_setIfInBounds_self, BitVec.toNat_ofNat]
      exact Nat.mod_eq_of_lt ((Nat.mod_lt _ (Nat.two_pow_pos 96)).trans (by decide))
  · exact execCompletionPost_of_noRoom (Bool.not_eq_true _ ▸ mt (hroom _).2 hr)
  · subst hi
    exact execEventPost_of_noRoom (Bool.not_eq_true _ ▸ mt (hroom _).2 hr)
end

