-- ==== Sys2Proof/Proofs/FrameMarks.lean ====
section
/-!
SUPPORT. Frame marks (R248 to R254), the effective mark (R250) and SYNC flits (R255, R258 to R260): one lemma for each outcome.
-/

namespace Sys2Proof.Machine

variable {s : State}

/-! ### Marks received, and marks that are missing (R248, R249, R252, R254) -/

theorem execFrameMark_of_unserved (h : s.marksCount = false) : execFrameMark s = .next s := by
  simp only [execFrameMark, h, Bool.not_false, if_true]

theorem execFrameMark_of_first (h : s.marksCount = true) (hv : s.cad.valid = false) : execFrameMark s = .next s.takeMark := by
  simp only [execFrameMark, h, hv, Bool.not_true, Bool.not_false, Bool.false_eq_true, if_false, if_true]

theorem execFrameMark_of_spurious (h : s.marksCount = true) (hv : s.cad.valid = true) (hn : s.cad.rxTick.toNat < 100000) :
    execFrameMark s = .next ((s.modCad fun c => setEvent 3 { c with spurious := true }).raiseDev 0x040B
      (item2 s.cad.frame.toNat ++ [item s.cad.rxTick.toNat])) := by
  simp only [execFrameMark, h, hv, hn, Bool.not_true, Bool.false_eq_true, if_false, if_true]

theorem execFrameMark_of_mark (h : s.marksCount = true) (hv : s.cad.valid = true) (hn : 100000 ≤ s.cad.rxTick.toNat) :
    execFrameMark s = .next (s.endFrame s.cad.rxTick.toNat false).takeMark := by
  simp only [execFrameMark, h, hv, not_lt.2 hn, Bool.not_true, Bool.false_eq_true, if_false]

theorem execMarkMissing_of_due (h : s.marksCount = true) (hv : s.cad.valid = true) (hn : 16000000 ≤ s.cad.rxTick.toNat) :
    execMarkMissing s = .next s.missingMark := by
  simp only [execMarkMissing, act_eq, h, hv, decide_eq_true hn, Bool.and_self, if_true]

theorem execMarkMissing_of_notDue (h : s.marksCount = false ∨ s.cad.valid = false ∨ s.cad.rxTick.toNat < 16000000) :
    execMarkMissing s = .next s := by
  refine congrArg _ (if_neg fun hd => ?_)
  simp only [Bool.and_eq_true, decide_eq_true_eq] at hd
  obtain ⟨⟨hm, hv⟩, hn⟩ := hd
  rcases h with h | h | h
  · exact Bool.false_ne_true (h.symm.trans hm)
  · exact Bool.false_ne_true (h.symm.trans hv)
  · omega

/-! ### The frame that a mark ends -/

theorem not_sameSlot (e : FrameEntry) (f : BitVec 40) : (!sameSlot e f) = decide (e.frame.toNat % 256 ≠ f.toNat % 256) := by
  rw [sameSlot, Bool.beq_eq_decide_eq, decide_not]

/-- The counter with the entry of the frame just ended, and the figures of the survey. -/
def State.frameRing (s : State) (c : Cadence) (len : BitVec 24) (synth : Bool) : Cadence :=
  { c with
    ring := { length := len, synth := synth, short := decide (len.toNat < s.profileMin), long := decide (s.profileMax < len.toNat),
              spurious := c.spurious, gap := false, frame := c.frame }
      :: c.ring.filter fun e => decide (e.frame.toNat % 256 ≠ c.frame.toNat % 256),
    lastLen := len, minLen := if c.minLen = 0 ∨ len.toNat < c.minLen.toNat then len else c.minLen,
    maxLen := if c.maxLen.toNat < len.toNat then len else c.maxLen, spurious := false }

/-- FRAME_SHORT and FRAME_LONG, for frame `frame` of `len` ticks. -/
def State.raiseShort (s : State) (frame : BitVec 40) (len : Nat) : State :=
  (s.modCad (setEvent 0)).raiseDev 0x0408 (item2 frame.toNat ++ [item len])

def State.raiseLong (s : State) (frame : BitVec 40) (len : Nat) : State :=
  (s.modCad (setEvent 1)).raiseDev 0x0409 (item2 frame.toNat ++ [item len])

theorem State.endFrame_eq (s : State) (len : BitVec 24) (synth : Bool) :
    s.endFrame len.toNat synth = (
      let t := s.modCad fun c => s.frameRing c len synth
      let t := if len.toNat < s.profileMin then t.raiseShort s.cad.frame len.toNat else t
      if s.profileMax < len.toNat then t.raiseLong s.cad.frame len.toNat else t) := by
  simp only [State.endFrame, BitVec.ofNat_toNat, BitVec.setWidth_eq, decide_eq_true_eq, not_sameSlot]
  rfl

/-! ### The effective mark (R250, R258, R289) -/

/-- The running program and whether the counter is aligned: no table or message of the fabric changes them. -/
def State.progAligned (s : State) : Program × Bool := (s.prog, s.cad.aligned)

theorem State.emit_progAligned (s : State) (lane : Option LaneId) (vc : BitVec 2) (timed : Bool) (src : BitVec 16) (seq : W32) (flits : Nat)
    (transit : Option Transfer) (header : BitVec 512) (m : Msg) :
    (s.emit lane vc timed src seq flits transit header m).progAligned = s.progAligned := by
  obtain ⟨f, h⟩ := s.emit_fabricOnly lane vc timed src seq flits transit header m
  rw [h]; rfl

theorem State.syncAll_progAligned (s : State) : s.syncAll.progAligned = s.progAligned :=
  foldl_keeps State.progAligned (f := State.sendSync) (fun s _ => s.emit_progAligned ..) _ s

theorem State.noteRoot_progAligned (s : State) : s.noteRoot.progAligned = s.progAligned := by
  simp only [State.noteRoot]
  split
  · rfl
  · obtain ⟨f, h⟩ := State.resendPartner_fabricOnly ((s.modFab fun f => { f with
      root := BitVec.ofNat 16 s.domainRoot, rootHops := BitVec.ofNat 8 ((s.toRoot s.fab.nodeId.toNat).getD 0xFF) }).modCad fun c =>
        { c with rootChanged := c.rootChanged || decide (s.fab.root.toNat ≠ s.domainRoot) })
    rw [h]; rfl

theorem State.retryEscape_progAligned (s : State) : s.retryEscape.progAligned = s.progAligned := by
  refine foldl_keeps State.progAligned (fun t e => ?_) _ s
  split <;> rfl

theorem State.flipTables_progAligned (s : State) : s.flipTables.progAligned = s.progAligned := by
  have hup (ls : List LaneId) (t : State) :
      (ls.foldl (fun s l => s.modLink l fun k => { k with phase := .up }) t).progAligned = t.progAligned :=
    foldl_keeps State.progAligned (f := fun s l => s.modLink l _) (fun _ _ => rfl) ls t
  have hraised (ls : List LaneId) (t : State) :
      (ls.foldl (fun s l => s.raiseDev 0x0410 [item l.val, item (s.link l).partner.toNat]) t).progAligned = t.progAligned :=
    foldl_keeps State.progAligned (fun _ _ => by simp only [State.progAligned, State.raiseDev_prog, State.raiseDev_cad]) ls t
  simp only [State.flipTables]
  split
  · rw [hraised, hup]; rfl
  · rw [State.retryEscape_progAligned, State.noteRoot_progAligned, hraised, hup]; rfl

theorem State.rootResume_of_idle (h : s.prog.active = none) : s.rootResume = s := by
  rw [State.rootResume, State.domainProgram, h]

theorem execEffectiveMark_of_notDue (h : s.cad.markPending = false ∨ s.marksCount = false ∨ s.cad.rxTick.toNat < s.cad.trim.toNat / 16) :
    execEffectiveMark s = .next s := by
  rw [execEffectiveMark, if_pos]
  simpa only [Bool.not_eq_true'] using h

theorem execEffectiveMark_next (s : State) : ∃ t, execEffectiveMark s = .next t := by
  unfold execEffectiveMark
  split
  · exact ⟨_, rfl⟩
  · exact ⟨_, rfl⟩

/-- The counter at an effective mark of a device that has no root to follow: the next frame, with the ticks since the mark. -/
def Cadence.nextFrame (c : Cadence) (cover : Bool) : Cadence :=
  { c with frame := c.frame + 1, tick := c.rxTick - BitVec.ofNat 24 (c.trim.toNat / 16), markPending := false,
           holdFrames := if c.hold && !cover then c.holdFrames + 1 else c.holdFrames }

theorem State.nextMark_of_noRoot (ha : s.cad.aligned = true) (hr : s.cad.rootFrame = none) (hd : s.cad.adopt = false) :
    s.nextMark = s.modCad fun c => { c.setFrame (s.cad.frame + 1) with aligned := true } := by
  simp only [State.nextMark, hr, hd, ite_self, Bool.false_eq_true, false_and, if_false, ha, Bool.true_or, State.modCad]

theorem execEffectiveMark_of_counting (hm : s.marksCount = true) (hp : s.cad.markPending = true)
    (hn : s.cad.trim.toNat / 16 ≤ s.cad.rxTick.toNat) (hv : s.cad.valid = true) (ha : s.cad.aligned = true)
    (hr : s.cad.rootFrame = none) (hd : s.cad.adopt = false) (hi : s.prog.active = none) :
    let t := s.modCad fun c => c.nextFrame s.fab.cover
    execEffectiveMark s = .next (if s.fab.flipReady then t.flipTables else t).syncAll := by
  intro t
  have hcad : (s.modCad fun c => { c.setFrame (s.cad.frame + 1) with aligned := true }).modCad (fun c => { c with
      rootFrame := c.rootFrame.map (· + 1),
      holdFrames := if c.hold && !s.fab.cover then c.holdFrames + 1 else c.holdFrames }) = t := by
    simp only [t, State.modCad, Cadence.setFrame, Cadence.nextFrame, hr, hv, ha, Option.map_none]
  have hkept : (if s.fab.flipReady then t.flipTables else t).syncAll.progAligned = (s.prog, true) := by
    rw [State.syncAll_progAligned, apply_ite State.progAligned, State.flipTables_progAligned, ite_self, ← ha]; rfl
  obtain ⟨hprog, haligned⟩ := Prod.mk.inj hkept
  have hfab : t.fab = s.fab := rfl
  rw [execEffectiveMark, if_neg (by simp only [hp, hm, not_lt.2 hn, Bool.not_true, Bool.false_eq_true, or_self, not_false_eq_true])]
  simp only [hv, if_true, State.nextMark_of_noRoot ha hr hd, State.modCad_fab, hcad, hfab, ha, haligned, ne_eq, not_true_eq_false, if_false]
  rw [State.rootResume_of_idle (hprog ▸ hi), ite_self]

/-! ### SYNC flits (R255, R258 to R260; log entry 44) -/

section
variable {l : LaneId} {f : Flit} (t4 : W32)

/-- A SYNC flit that begins an exchange is answered, another ends one (log entry 44). -/
def State.takeExchange (s : State) (l : LaneId) (x : Nat) (t4 : W32) : State :=
  if syncT x 1 = 0 ∧ syncT x 2 = 0 then s.answerSync l x t4 else s.takeSample l (exchange x t4)

theorem State.takeExchange_eq (s : State) (l : LaneId) (x : Nat) (t4 : W32) : s.takeExchange l x t4 =
    if fld x 160 32 = 0 ∧ fld x 192 32 = 0 then s.answerSync l x t4
    else s.takeSample l ((t4.toNat - fld x 192 32 : Int) - (fld x 160 32 - fld x 128 32),
      (t4.toNat - fld x 192 32 : Int) + (fld x 160 32 - fld x 128 32)) := by
  simp only [State.takeExchange, syncT, exchange, Int.natCast_eq_zero, Nat.reduceMul, Nat.reduceAdd]

theorem execCadenceSync_of_discarded (h : s.pwr.main = false ∨ s.mainClocks = false
      ∨ (¬ ((s.link l).phase = .up ∨ (s.link l).phase = .joining) ∧ (s.link l).phase ≠ .timing) ∨ syncGood f = false) :
    execCadenceSync l f t4 s = .next s := by
  rw [execCadenceSync, if_pos]
  simpa only [Bool.not_eq_true', Bool.or_eq_false_iff, beq_eq_false_iff_ne, ← Bool.not_eq_true (Link.open _), ne_eq, Link.open_iff] using h

theorem execCadenceSync_of_taken (hm : s.pwr.main = true) (hc : s.mainClocks = true)
    (hk : ((s.link l).phase = .up ∨ (s.link l).phase = .joining) ∨ (s.link l).phase = .timing) (hg : syncGood f = true) :
    execCadenceSync l f t4 s = .next (
      let u := s.takeExchange l f.bits.toNat t4
      if (s.link l).open then u.takeSync l f.bits.toNat else u) := by
  rw [execCadenceSync, if_neg]
  · rfl
  · rw [← Link.open_iff] at hk
    simpa only [hm, hc, hg, Bool.not_true, Bool.false_eq_true, false_or, or_false, Bool.not_eq_true', Bool.not_eq_false, Bool.or_eq_true,
      beq_iff_eq] using hk
end

/-- The link to the parent gives the root's number and the own offset. -/
theorem State.takeSync_of_parent {l : LaneId} {x : Nat} {v : State} (hv : v = s.modLink l fun k => { k with peerOffset := syncOffset x })
    (hp : ((v.parentOf v.fab.nodeId.toNat).elim false fun e => e.lane == l.val) = true) :
    s.takeSync l x = (v.modCad fun c => { c with rootFrame := some (syncFrame x), offset := syncOffset x - (v.link l).delta }).checkSkew l true
      (v.link l).delta (syncTrim x) := by
  subst hv
  simp only [State.takeSync, hp, if_true]

/-- Another link gives neither; the root has neither. -/
theorem State.takeSync_of_other {l : LaneId} {x : Nat} {v : State} (hv : v = s.modLink l fun k => { k with peerOffset := syncOffset x })
    (hp : ((v.parentOf v.fab.nodeId.toNat).elim false fun e => e.lane == l.val) = false) :
    s.takeSync l x = (if v.isRoot then v.modCad fun c => { c with rootFrame := none, offset := 0 } else v).checkSkew l false
      (v.link l).delta (syncTrim x) := by
  subst hv
  simp only [State.takeSync, hp, Bool.false_eq_true, if_false]

end Sys2Proof.Machine

open Sys2Proof Sys2Proof.Machine

/-- Settles O52: marks that come and that are missing, the frame ended, the effective mark, and the SYNC flits. -/
theorem frameMarks : Obligations.FrameMarks := by
  intro s n frame due short long ring
  refine ⟨fun h => ⟨execFrameMark_of_unserved h, execMarkMissing_of_notDue (.inl h), execEffectiveMark_of_notDue (.inr (.inl h))⟩,
    fun h => ⟨fun hv => ⟨execFrameMark_of_first h hv, execMarkMissing_of_notDue (.inr (.inl hv))⟩,
      fun hv hn => execFrameMark_of_spurious h hv hn, fun hv hn => ?ended,
      fun hv hn => execMarkMissing_of_notDue (.inr (.inr hn)), fun hv hn => execMarkMissing_of_due h hv hn,
      fun hd => execEffectiveMark_of_notDue (hd.imp_right .inr),
      fun hp hn hv ha hr hd hi => execEffectiveMark_of_counting h hp hn hv ha hr hd hi, execEffectiveMark_next s⟩,
    fun l f t4 => ?sync⟩
  case ended =>
    intro t
    have hring : s.modCad (fun c => s.frameRing c n false) = t := rfl
    have hmark := execFrameMark_of_mark h hv hn
    have hlen : n.toNat = s.cad.rxTick.toNat := rfl
    rw [State.endFrame_eq, hring, ← hlen] at hmark
    refine ⟨fun hs hl => ?_, fun hs hl => ?_, fun hs hl => ?_, fun hs hl => ?_⟩
    · simp only [if_neg (not_lt.2 hs), if_neg (not_lt.2 hl)] at hmark
      exact hmark
    · simp only [if_pos hs, if_neg (not_lt.2 hl)] at hmark
      exact hmark
    · simp only [if_neg (not_lt.2 hs), if_pos hl] at hmark
      exact hmark
    · simp only [if_pos hs, if_pos hl] at hmark
      exact hmark
  case sync =>
    intro x k carries t1 t2 t3
    refine ⟨execCadenceSync_of_discarded t4, fun hm hc hk hg => ?_⟩
    intro u v d parent
    have htaken := execCadenceSync_of_taken t4 hm hc hk hg
    rw [State.takeExchange_eq] at htaken
    refine ⟨fun ho => ?_, fun ho hp => ?_, fun ho hp hr => ?_, fun ho hp hr => ?_⟩
    · rwa [if_neg (mt (Link.open_iff).1 ho)] at htaken
    · rw [if_pos ((Link.open_iff).2 ho)] at htaken
      exact htaken.trans (congrArg _ (State.takeSync_of_parent rfl hp))
    · rw [if_pos ((Link.open_iff).2 ho)] at htaken
      exact htaken.trans (congrArg _ ((State.takeSync_of_other rfl hp).trans (by rw [if_pos hr]; rfl)))
    · rw [if_pos ((Link.open_iff).2 ho)] at htaken
      exact htaken.trans (congrArg _ ((State.takeSync_of_other rfl hp).trans (by rw [if_neg (by rw [hr]; nofun)])))
end

