-- ==== Sys2Proof/Proofs/VotesAndHold.lean ====
section
/-!
SUPPORT. The boundary vote (R262, R294), hold and resume (R263 to R265) and members lost (R301, R302): one lemma for each command and outcome.
-/

namespace Sys2Proof.Machine

variable {s : State} {img : Image}

/-! ### Votes (R262, R294; log entries 32, 35) -/

/-- The state with a contribution merged into the vote. -/
def State.withVote (s : State) (v : Vote) : State := s.modCad fun c => { c with votes := mergeVote v c.votes }

theorem execBoundaryVote_of_taken {v : Vote} (hd : s.domainProgram = some img) (hr : s.prog.released = true)
    (hn : v.rank.toNat < img.bounds.devices) (hv : v.rank ≠ img.bounds.rank) : execBoundaryVote v s = .next (s.takeVote v) := by
  simp only [execBoundaryVote, hd, act_eq, hr, hn, decide_true, bne_iff_ne.2 hv, Bool.and_self, if_true]

theorem execBoundaryVote_of_ignored {v : Vote} (hd : s.domainProgram = some img)
    (h : s.prog.released = false ∨ img.bounds.devices ≤ v.rank.toNat ∨ v.rank = img.bounds.rank) : execBoundaryVote v s = .next s := by
  simp only [execBoundaryVote, hd, act_eq]
  refine congrArg _ (if_neg fun hc => ?_)
  simp only [Bool.and_eq_true, decide_eq_true_eq, bne_iff_ne] at hc
  obtain ⟨⟨hr, hn⟩, hv⟩ := hc
  rcases h with h | h | h
  · exact Bool.false_ne_true (h.symm.trans hr)
  · omega
  · exact hv h

theorem State.dropLost_prog (s : State) : s.dropLost.prog = s.prog := by
  unfold State.dropLost
  split
  · rfl
  · refine foldl_keeps State.prog (fun t r => ?_) _ s
    rfl

theorem State.replaying_congr {t : State} (h : t.prog = s.prog) : t.replaying = s.replaying := by
  rw [State.replaying, h, State.replaying]

theorem State.fault_replaying (s : State) (cause who : Nat) (record : Option (BitVec 256)) :
    (s.fault cause who record).replaying = s.replaying := by
  simp only [State.fault]
  split <;> rfl

theorem State.checkFrame_replaying (s : State) (v : Vote) : (s.checkFrame v).replaying = s.replaying := by
  unfold State.checkFrame
  split
  · rfl
  · split
    · split
      · rfl
      · exact (State.fault_replaying _ _ _ _).trans (State.replaying_congr (State.raiseDev_prog _ _ _))
    · rfl

theorem State.takeVote_eq (s : State) (v : Vote) :
    s.takeVote v = if s.replaying then ((s.withVote v).checkFrame v).dropLost.rootResume else ((s.withVote v).checkFrame v).dropLost := by
  have hr : ((s.withVote v).checkFrame v).dropLost.replaying = s.replaying :=
    (State.replaying_congr (State.dropLost_prog _)).trans (State.checkFrame_replaying _ v)
  rw [← hr]
  rfl

theorem State.checkFrame_of_same {v : Vote} (h : v.frame = s.prog.lastFrame) : s.checkFrame v = s := if_pos (.inl h)

theorem State.dropLost_of_none (ha : s.prog.active = some img)
    (h : ∀ r ∈ s.fab.receiving, s.slotLost img (s.slotEntry img r.1) = false) : s.dropLost = s := by
  have hnone : (s.fab.receiving.filter fun r => s.slotLost img (s.slotEntry img r.1)) = [] :=
    List.filter_eq_nil_iff.2 fun r hr => by rw [h r hr]; nofun
  simp only [State.dropLost, ha, hnone, List.foldl_nil]

/-! ### Hold and resume (R263 to R265) -/

theorem State.takeHold_of_free (hh : s.cad.hold = false) :
    s.takeHold = (if s.isProgramRoot then s.sendMembers .hold else s).modCad fun c => { c with hold := true, holdFrames := 0 } := by
  rw [State.takeHold, hh, if_neg Bool.false_ne_true, apply_ite (State.modCad · _)]
  rfl

theorem State.takeHold_of_held (hh : s.cad.hold = true) : s.takeHold = s := if_pos hh

theorem execHoldMsg_of_domain (hd : s.domainProgram = some img) : execHoldMsg s = .next s.takeHold := by
  rw [execHoldMsg, act_eq, hd]; rfl

theorem execHoldDeadline_eq (hd : s.domainProgram = some img) : execHoldDeadline s = .next (
    if s.prog.released = true ∧ s.cad.hold = false ∧ s.fab.untimed = false ∧ s.fab.cover = false
      ∧ s.voteComplete img = false ∧ s.prog.releaseNow + s.worstLength img ≤ s.now
    then if s.isProgramRoot then s.takeHold else s.send s.programRoot .hold else s) := by
  simp only [execHoldDeadline, hd, act_eq, Bool.and_eq_true, Bool.not_eq_true', decide_eq_true_eq, and_assoc]

theorem execResumeMsg_eq (hd : s.domainProgram = some img) (g : BitVec 40) :
    execResumeMsg g s = .next (if s.restoring then s else s.takeResume g) := by
  rw [execResumeMsg, act_eq, hd]
  cases s.restoring <;> rfl

theorem execHoldTimeout_eq (hd : s.domainProgram = some img) : execHoldTimeout s = .next (
    if s.cad.hold = true ∧ s.fab.cover = false ∧ s.restoring = false ∧ s.isProgramRoot = true ∧ 0 < s.holdTimeout
      ∧ s.holdTimeout ≤ s.cad.holdFrames
    then (((s.missingRanks img).foldl (fun s r => s.loseMember r) s).loseSelf img).rootResume else s) := by
  simp only [execHoldTimeout, hd, act_eq, Bool.and_eq_true, Bool.not_eq_true', decide_eq_true_eq, and_assoc]

/-! ### Members lost (R301, R302) -/

theorem State.FabricOnly.cad {t : State} (h : s.FabricOnly t) : t.cad = s.cad := by obtain ⟨f, rfl⟩ := h; rfl

/-- The ranks whose recovery runs, and whether cover mode has begun: no message that is sent changes them. -/
def State.recoveryOf (s : State) : List (BitVec 10) × Bool := (s.fab.recover, s.fab.cover)

theorem State.emit_recoveryOf (s : State) (lane : Option LaneId) (vc : BitVec 2) (timed : Bool) (src : BitVec 16) (seq : W32) (flits : Nat)
    (transit : Option Transfer) (header : BitVec 512) (m : Msg) :
    (s.emit lane vc timed src seq flits transit header m).recoveryOf = s.recoveryOf := by
  simp only [State.emit]
  split
  · split <;> rfl
  · rfl

theorem State.sendDyn_recoveryOf (s : State) (dst : BitVec 16) (i : Initiator) (m : Msg) : (s.sendDyn dst i m).recoveryOf = s.recoveryOf := by
  simp only [State.sendDyn, State.sendAs]
  split
  · rfl
  · exact s.emit_recoveryOf _ _ _ _ _ _ _ _ _

theorem State.sendMembers_recoveryOf (s : State) (m : Msg) : (s.sendMembers m).recoveryOf = s.recoveryOf :=
  foldl_keeps State.recoveryOf (fun s n => s.sendDyn_recoveryOf n _ m) _ s

theorem State.takeSteps_recoveryOf (s : State) (step last : W64) : (s.takeSteps step last).recoveryOf = s.recoveryOf := by
  simp only [State.takeSteps]
  split
  · exact State.sendMembers_recoveryOf _ _
  · rfl

theorem State.tellSteps_recoveryOf (s : State) (node : BitVec 16) : (s.tellSteps node).recoveryOf = s.recoveryOf := by
  simp only [State.tellSteps]
  split
  · split
    · exact s.takeSteps_recoveryOf _ _
    · exact s.sendDyn_recoveryOf _ _ _
  · rfl

theorem State.takeSteps_fabricOnly (s : State) (step last : W64) : s.FabricOnly (s.takeSteps step last) := by
  simp only [State.takeSteps]
  split
  · exact (s.modFab_fabricOnly _).trans (State.sendMembers_fabricOnly _ _)
  · exact s.modFab_fabricOnly _

theorem State.tellSteps_fabricOnly (s : State) (node : BitVec 16) : s.FabricOnly (s.tellSteps node) := by
  simp only [State.tellSteps]
  split
  · split
    · exact s.takeSteps_fabricOnly _ _
    · exact s.sendDyn_fabricOnly _ _ _
  · exact .refl s

/-- Once hold mode is on, HOLD changes what the fabric sends alone. -/
theorem State.takeHold_fabricOnly (s : State) : ∃ t, s.FabricOnly t ∧ t.recoveryOf = s.recoveryOf
    ∧ s.takeHold = if s.cad.hold then s else t.enterHold := by
  by_cases hp : s.isProgramRoot = true
  · exact ⟨_, s.sendMembers_fabricOnly .hold, s.sendMembers_recoveryOf .hold, by rw [State.takeHold, if_pos hp]⟩
  · exact ⟨s, .refl s, rfl, by rw [State.takeHold, if_neg hp]⟩

theorem State.takeHold_prog (s : State) : s.takeHold.prog = s.prog := by
  obtain ⟨t, ht, -, h⟩ := s.takeHold_fabricOnly
  rw [h]
  split
  · rfl
  · exact ht.prog

theorem State.takeHold_hold (s : State) : s.takeHold.cad.hold = true := by
  obtain ⟨t, -, -, h⟩ := s.takeHold_fabricOnly
  rw [h]
  split
  next hh => exact hh
  next => rfl

theorem State.takeHold_recoveryOf (s : State) : s.takeHold.recoveryOf = s.recoveryOf := by
  obtain ⟨t, -, ht, h⟩ := s.takeHold_fabricOnly
  rw [h]
  split
  · rfl
  · exact ht

theorem execMemberLeave_of_domain (hd : s.domainProgram = some img) (r : BitVec 10) : execMemberLeave r s = .next (s.loseMember r) := by
  rw [execMemberLeave, act_eq, hd]; rfl

theorem execMemberIsolation_of_domain (hd : s.domainProgram = some img) (r : BitVec 10) :
    execMemberIsolation r s = .next (s.loseMember r) := by
  rw [execMemberIsolation, act_eq, hd]; rfl

/-- The vote of a member that is lost counts as FAULT. -/
def State.withLost (s : State) (r : BitVec 10) : State :=
  ((s.withVote { rank := r, step := s.prog.step, frame := s.prog.lastFrame, fault := true, failed := [] }).modFab fun f =>
    { f with lost := f.lost ++ [r] }).fault 0x14 noCore

/-- The domain holds for the recovery of a lost member; the root is told from which step it can go on. -/
def State.holdForRecovery (s : State) (r : BitVec 10) (node : BitVec 16) : State :=
  (s.takeHold.modFab fun f => { f with recover := f.recover.erase r ++ [r], cover := false, coverFrom := none }).tellSteps node

theorem State.holdForRecovery_prog (s : State) (r : BitVec 10) (node : BitVec 16) : (s.holdForRecovery r node).prog = s.prog :=
  (State.tellSteps_fabricOnly _ node).prog.trans s.takeHold_prog

theorem State.holdForRecovery_hold (s : State) (r : BitVec 10) (node : BitVec 16) : (s.holdForRecovery r node).cad.hold = true :=
  (congrArg Cadence.hold (State.tellSteps_fabricOnly _ node).cad).trans s.takeHold_hold

theorem State.holdForRecovery_recoveryOf (s : State) (r : BitVec 10) (node : BitVec 16) :
    (s.holdForRecovery r node).recoveryOf = (s.fab.recover.erase r ++ [r], false) := by
  refine (State.tellSteps_recoveryOf _ node).trans ?_
  obtain ⟨hrec, -⟩ := Prod.mk.inj s.takeHold_recoveryOf
  rw [← hrec]
  rfl

theorem State.loseMember_of_member {r : BitVec 10} {node : BitVec 16} (hn : s.fab.rankNode.find? (fun x => x.1 = r) = some (r, node))
    (hl : r ∉ s.fab.lost) (hr : s.isProgramRoot = false) : s.loseMember r =
      if (s.withLost r).recoverable node then (s.withLost r).holdForRecovery r node
      else (s.withLost r).endProgram 0x020A r.toNat none := by
  have hraise : s.raiseLost r node = s := if_neg (by rw [hr]; nofun)
  simp only [State.loseMember, hn, List.contains_iff_mem, hl, if_false, hraise]
  rfl

end Sys2Proof.Machine

open Sys2Proof Sys2Proof.Machine

/-- Settles O53: without a domain's program nothing; else votes, hold and resume, and members lost. -/
theorem votesAndHold : Obligations.VotesAndHold := by
  refine ⟨fun s hd => ?none, fun s img hd => ?domain⟩
  case none =>
    have hd' : s.domainProgram.isSome = false := by rw [hd]; rfl
    refine ⟨fun v => ?_, ?_, ?_, fun g => ?_, ?_, fun r => ⟨?_, ?_⟩⟩
    · exact show execBoundaryVote v s = .next s by rw [execBoundaryVote, hd]
    · exact show execHoldDeadline s = .next s by rw [execHoldDeadline, hd]
    · exact show execHoldMsg s = .next s by rw [execHoldMsg, hd']; rfl
    · exact show execResumeMsg g s = .next s by rw [execResumeMsg, hd']; rfl
    · exact show execHoldTimeout s = .next s by rw [execHoldTimeout, hd]
    · exact show execMemberLeave r s = .next s by rw [execMemberLeave, hd']; rfl
    · exact show execMemberIsolation r s = .next s by rw [execMemberIsolation, hd']; rfl
  case domain =>
    intro told held
    have hfree (hh : s.cad.hold = false) : s.takeHold = held := State.takeHold_of_free hh
    obtain ⟨ha, -, -⟩ := State.domainProgram_eq_some_iff.1 hd
    refine ⟨fun v hr hn hv => ?_, fun v h => execBoundaryVote_of_ignored hd h,
      fun hh => (execHoldMsg_of_domain hd).trans (congrArg _ (s.takeHold_of_held hh)),
      fun hh => (execHoldMsg_of_domain hd).trans (congrArg _ (hfree hh)), ?deadline, fun g => ⟨fun hr => ?_, fun hr => ?_⟩, ?timeout,
      fun r => ⟨execMemberLeave_of_domain hd r, execMemberIsolation_of_domain hd r⟩, fun r node hn hl hp => ?lost⟩
    case deadline =>
      intro late
      refine ⟨fun hl => (execHoldDeadline_eq hd).trans (congrArg _ ((if_pos hl).trans ?_)),
        fun hl => (execHoldDeadline_eq hd).trans (congrArg _ (if_neg hl))⟩
      rw [hfree hl.2.1]
    case timeout =>
      intro long
      exact ⟨fun hl => (execHoldTimeout_eq hd).trans (congrArg _ (if_pos hl)),
        fun hl => (execHoldTimeout_eq hd).trans (congrArg _ (if_neg hl))⟩
    case lost =>
      intro v t
      have hlose := State.loseMember_of_member hn hl hp
      refine ⟨fun hu => ?_, fun hu => ?_⟩
      · rw [hlose]
        exact if_neg (by rw [show (s.withLost r).recoverable node = false from hu]; nofun)
      · rw [hlose.trans (if_pos hu)]
        obtain ⟨hrec, hcover⟩ := Prod.mk.inj (State.holdForRecovery_recoveryOf (s.withLost r) r node)
        exact ⟨State.holdForRecovery_prog _ r node, State.holdForRecovery_hold _ r node,
          hrec.trans (by rw [State.withLost, State.fault_fab]; rfl), hcover⟩
    · intro t
      have hvote := (execBoundaryVote_of_taken hd hr hn hv).trans (congrArg _ (s.takeVote_eq v))
      have hsame (hf : v.frame = s.prog.lastFrame) : t = (s.withVote v).dropLost :=
        congrArg State.dropLost (State.checkFrame_of_same (s := s.withVote v) hf)
      refine ⟨fun hy => ?_, fun hy => ?_, hsame, fun hf hnone => (hsame hf).trans (State.dropLost_of_none ha hnone)⟩
      · rw [hy, if_neg Bool.false_ne_true] at hvote; exact hvote
      · rw [hy, if_pos rfl] at hvote; exact hvote
    · exact (execResumeMsg_eq hd g).trans (congrArg _ (if_neg (by rw [hr]; nofun)))
    · exact (execResumeMsg_eq hd g).trans (congrArg _ (if_pos hr))
end

