-- ==== Sys2Proof/Proofs/Sideband.lean ====
section
/-!
SUPPORT. Messages of the sideband (R283, R331, R340 to R347, R354, R355, R380): what each does while the sideband is served, one lemma for
each command and outcome.
-/

namespace Sys2Proof.Machine

variable {s : State}

theorem act_of_true {b : Bool} (h : b = true) (s t : State) : act b s t = .next t := by rw [act_eq, h, if_pos rfl]

theorem act_of_false {b : Bool} (h : b = false) (s t : State) : act b s t = .next s := by
  rw [act_eq, h, if_neg Bool.false_ne_true]

/-! ### MCTP and PLDM monitoring (R331, R353) -/

theorem execMctpControl_of_down (h : s.sidebandUp = false) (ask : MctpAsk) : execMctpControl ask s = .next s := act_of_false h _ _

theorem execPldmMonitoring_base (c : Byte) (i : Nat) :
    execPldmMonitoring (.base c) i s = act s.sidebandUp s (s.answer (.base c s.pldmTypes)) := rfl

theorem execPldmMonitoring_of_figure {ask : PldmAsk} {i : Nat} {x : Int} (hx : s.pldmFigure ask i = some x) (hu : s.sidebandUp = true)
    (hm : s.monitors = true) : execPldmMonitoring ask i s = .next (s.answer (.reading x)) := by
  have hserved : (s.sidebandUp && s.monitors) = true := by rw [hu, hm]; rfl
  unfold execPldmMonitoring
  split
  next c => cases hx
  next y hy =>
    obtain rfl := Option.some.inj (hx.symm.trans hy)
    exact act_of_true hserved _ _
  next hy => cases hx.symm.trans hy

theorem execPldmMonitoring_of_unserved {ask : PldmAsk} {i : Nat} (ha : ∀ c, ask ≠ .base c) (h : (s.sidebandUp && s.monitors) = false) :
    execPldmMonitoring ask i s = .next s := by
  unfold execPldmMonitoring
  split
  next c => exact absurd rfl (ha c)
  next => exact act_of_false h _ _
  next => rfl

/-! ### The node ID, UTC and the start of the main domain (R283, R341, R380) -/

section
variable (h : s.sideband = true)
include h

theorem execShelfRecord_of_noFigure {d sh : Byte} (hd : 63 ≤ d.toNat ∨ 64 ≤ sh.toNat) (i : BitVec 4) :
    execShelfRecord d sh i s = .next (s.accept 1) := by
  simp only [execShelfRecord, h, Bool.not_true, Bool.false_eq_true, if_false, if_pos hd]

/-- The node ID that a SHELF_RECORD names (R283). -/
def shelfId (d sh : Byte) (i : BitVec 4) : BitVec 16 := BitVec.ofNat 16 (1024 * d.toNat + 16 * sh.toNat + i.toNat)

theorem execShelfRecord_of_same {d sh : Byte} {i : BitVec 4} (hd : ¬ (63 ≤ d.toNat ∨ 64 ≤ sh.toNat))
    (hs : s.fab.nodeId = shelfId d sh i ∧ s.fab.idSource = 0) :
    execShelfRecord d sh i s = .next ((s.accept 1).modFab fun f => { f with shelfWaiting := none }) := by
  simp only [execShelfRecord, h, Bool.not_true, Bool.false_eq_true, if_false, if_neg hd]
  exact congrArg _ (if_pos hs)

theorem execShelfRecord_of_new {d sh : Byte} {i : BitVec 4} (hd : ¬ (63 ≤ d.toNat ∨ 64 ≤ sh.toNat))
    (hs : ¬ (s.fab.nodeId = shelfId d sh i ∧ s.fab.idSource = 0)) :
    execShelfRecord d sh i s = .next ((s.accept 1).modFab fun f => { f with shelfWaiting := some (shelfId d sh i) }).takeShelf := by
  simp only [execShelfRecord, h, Bool.not_true, Bool.false_eq_true, if_false, if_neg hd]
  exact congrArg _ (if_neg hs)

theorem execSetUtc_of_served (u : W64) : execSetUtc u s = .next (
    let t := s.modMc fun m => { m with utc := u, utcValid := true }
    (if s.mc.utcValid then t.log 0x050C (item2 s.mc.utc.toNat ++ item2 u.toNat) else t).accept 2) := by
  simp only [execSetUtc, h, Bool.not_true, Bool.false_eq_true, if_false]

theorem execMainOn_of_served : execMainOn s = .next (
    if s.pwr.main = true ∨ s.pwr.needMainOn = false then s.accept 3
    else if s.shutdownRemains then s.refuse 3 0
    else (s.modPwr fun p => { p with needMainOn := false, breaker := false }).chooseProfile.tryStep3.accept 3) := by
  simp only [execMainOn, h, Bool.not_true, Bool.false_eq_true, if_false, Bool.not_eq_true']
  split
  · rfl
  · split <;> rfl
end

/-- A shelf record waits while a program is staged or active (R283). -/
theorem State.takeShelf_of_waiting {id : BitVec 16} (hw : s.fab.shelfWaiting = some id) : s.takeShelf =
    if s.prog.active = none ∧ s.prog.staged = none then (s.modFab fun f => { f with shelfWaiting := none }).takeId id 0 else s := by
  simp only [State.takeShelf, hw, Option.isNone_iff_eq_none]

/-! ### Signed requests and fuses (R343, R344, R346; log entry 8) -/

/-- The state in which the nonce is used up. -/
def State.useNonce (s : State) : State := s.modMc fun m => { m with nonce := none }

section
variable (h : s.sideband = true)
include h

theorem execLcRequest_of_bad {r : SignedRequest} {b : Nat} (hb : s.signedBad r = some b) (f : List Nat) :
    execLcRequest r f s = .next (s.useNonce.refuse 5 b) := by
  simp only [execLcRequest, h, hb, Bool.not_true, Bool.false_eq_true, if_false]
  rfl

/-- A life-cycle request asks for no later state, or for FIELD before the device is written. -/
def State.lifeRefused (s : State) (r : SignedRequest) : Prop :=
  s.mc.laterState r.target.toNat = false ∨ (s.mc.lifeCycle = .manufacture ∧ r.target = 1 ∧ s.mc.blank = true)

theorem execLcRequest_of_refused {r : SignedRequest} (hb : s.signedBad r = none) (hr : s.lifeRefused r) (f : List Nat) :
    execLcRequest r f s = .next (s.useNonce.refuse 5 6) := by
  simp only [execLcRequest, h, hb, Bool.not_true, Bool.false_eq_true, if_false, Bool.not_eq_true']
  exact if_pos hr

theorem execLcRequest_of_accepted {r : SignedRequest} (hb : s.signedBad r = none) (hr : ¬ s.lifeRefused r) (f : List Nat) :
    execLcRequest r f s = .next (
      let u := (s.useNonce.wipeSelf 4).blow 0 ((List.range 4).filter fun i => bitOf r.target.toNat i && !bitOf (s.mc.fuse 0 4) i) f
      ((u.log 0x0504 [item (s.mc.fuse 0 4), item (u.mc.fuse 0 4), item r.keyIndex.toNat]).accept 5).mcDown 4) := by
  simp only [execLcRequest, h, hb, Bool.not_true, Bool.false_eq_true, if_false, Bool.not_eq_true']
  exact if_neg hr

theorem execKeyRevoke_of_bad {r : RevokeRequest} {b : Nat} (hb : s.signedBad r.signed = some b) :
    execKeyRevoke r s = .next (s.useNonce.refuse 6 b) := by
  simp only [execKeyRevoke, h, hb, Bool.not_true, Bool.false_eq_true, if_false]
  rfl

/-- A revocation that names no key, one revoked, its own, the last one left, or that of a stored image. -/
def State.revokeRefused (s : State) (r : SignedRequest) : Prop :=
  3 ≤ r.target.toNat ∨ s.mc.revoked r.target.toNat = true ∨ r.keyIndex.toNat = r.target.toNat
    ∨ (∀ j < 3, j = r.target.toNat ∨ s.mc.revoked j = true) ∨ ∃ p ∈ s.mc.images, mfKey p.2.manifest.toNat = r.target.toNat

theorem execKeyRevoke_of_refused {r : RevokeRequest} (hb : s.signedBad r.signed = none) (hr : s.revokeRefused r.signed) :
    execKeyRevoke r s = .next (s.useNonce.refuse 6 7) := by
  simp only [execKeyRevoke, h, hb, Bool.not_true, Bool.false_eq_true, if_false]
  refine if_pos ?_
  simpa only [State.revokeRefused, List.all_eq_true, List.any_eq_true, List.mem_range, Bool.or_eq_true, beq_iff_eq] using hr

theorem execKeyRevoke_of_accepted {r : RevokeRequest} (hb : s.signedBad r.signed = none) (hr : ¬ s.revokeRefused r.signed) :
    execKeyRevoke r s = .next (((((s.useNonce.wipeSelf 4).blow 3 [8 + r.signed.target.toNat] r.blowFails).log 0x0504
      [item (s.mc.fuse 0 4), item (s.mc.fuse 0 4), item r.signed.keyIndex.toNat]).accept 6).mcDown 4) := by
  simp only [execKeyRevoke, h, hb, Bool.not_true, Bool.false_eq_true, if_false]
  refine if_neg (mt (fun hc => ?_) hr)
  simpa only [State.revokeRefused, List.all_eq_true, List.any_eq_true, List.mem_range, Bool.or_eq_true, beq_iff_eq] using hc

/-- A security version that no fuse stands for, that is not above ROLLBACK, or that a stored image does not have. -/
def State.svnRefused (s : State) (n : Nat) : Prop :=
  n = 0 ∨ 128 < n ∨ n ≤ s.mc.rollback ∨ ∃ p ∈ s.mc.images, mfSvn p.2.manifest.toNat < n

theorem execSvnCommit_of_refused {r : SvnRequest} (hr : s.svnRefused r.count) : execSvnCommit r s = .next (s.refuse 7 8) := by
  simp only [execSvnCommit, h, Bool.not_true, Bool.false_eq_true, if_false]
  refine if_pos ?_
  simpa only [State.svnRefused, List.any_eq_true, decide_eq_true_eq] using hr

theorem execSvnCommit_of_accepted {r : SvnRequest} (hr : ¬ s.svnRefused r.count) :
    execSvnCommit r s = .next ((s.blow 4 ((List.range r.count).map (16 + ·)) r.blowFails).accept 7) := by
  simp only [execSvnCommit, h, Bool.not_true, Bool.false_eq_true, if_false]
  refine if_neg (mt (fun hc => ?_) hr)
  simpa only [State.svnRefused, List.any_eq_true, decide_eq_true_eq] using hc

/-! ### PROFILE_WRITE (R380; log entry 54) -/

theorem execProfileWrite_of_bad {p : Byte} {b : BitVec 128} (hb : 4 ≤ p.toNat ∨ clockPartOk b.toNat = false) :
    execProfileWrite p b s = .next (s.refuse 8 9) := by
  simp only [execProfileWrite, h, Bool.not_true, Bool.false_eq_true, if_false]
  split
  · rw [if_pos]
    rw [hb.resolve_left (by omega)]; rfl
  · rfl

theorem execProfileWrite_of_good {p : Byte} {b : BitVec 128} (hp : p.toNat < 4) (hb : clockPartOk b.toNat = true) :
    execProfileWrite p b s = .next (if s.profileLock then s.answer (.result 8 1)
      else if s.host.gate .mcFlash ≠ .opened then s.refuse 8 10 else (s.writeProfile ⟨p.toNat, hp⟩ 128 128 b.toNat).accept 8) := by
  simp only [execProfileWrite, h, hb, Bool.not_true, Bool.false_eq_true, if_false, dif_pos hp]
  split
  · rfl
  · split <;> rfl

/-! ### SPDM (R354, R355) -/

/-- An exchange whose turn has come. -/
theorem State.spdmStep_of_turn {need : Nat} (hn : need ≤ s.mc.spdm) (t : State) : s.spdmStep need t = .next t := by
  simp only [State.spdmStep, h, Bool.not_true, Bool.false_eq_true, if_false, if_pos hn]

theorem State.spdmStep_of_early {need : Nat} (hn : s.mc.spdm < need) (t : State) : s.spdmStep need t = .next (s.answer (.spdmError 0x04)) := by
  simp only [State.spdmStep, h, Bool.not_true, Bool.false_eq_true, if_false, if_neg (not_le.2 hn), unexpectedRequest]

theorem State.spdmStep_of_served (need : Nat) (t : State) :
    s.spdmStep need t = .next (if need ≤ s.mc.spdm then t else s.answer (.spdmError 0x04)) := by
  simp only [State.spdmStep, h, Bool.not_true, Bool.false_eq_true, if_false, unexpectedRequest]
end

theorem State.spdmStep_of_unserved (h : s.sideband = false) (need : Nat) (t : State) : s.spdmStep need t = .next s := by
  rw [State.spdmStep, h]; rfl

/-- CHALLENGE and GET_MEASUREMENTS are exchanges of the third stage, whatever they answer. -/
theorem execChallenge_eq (n : BitVec 256) : ∃ t, execChallenge n s = s.spdmStep 3 t := by
  unfold execChallenge
  split <;> exact ⟨_, rfl⟩

theorem execGetMeasurements_eq (i : Byte) (b : Bool) (n : BitVec 256) : ∃ t, execGetMeasurements i b n s = s.spdmStep 3 t := by
  simp only [execGetMeasurements]
  split
  · exact ⟨_, rfl⟩
  · split
    · split <;> exact ⟨_, rfl⟩
    · exact ⟨_, rfl⟩

section
variable (h : s.sideband = true) (ht : 3 ≤ s.mc.spdm) (n : BitVec 256)
include h ht

theorem execChallenge_of_turn : execChallenge n s = .next (s.mc.signer.elim (s.answer (.spdmError 0x05)) fun k =>
    (s.answer (.signature (s.sign k))).bump) := by
  unfold execChallenge
  split
  next k hk => rw [hk, State.spdmStep_of_turn h ht]; rfl
  next hk => rw [hk, State.spdmStep_of_turn h ht]; rfl

/-- The measurements that an index asks for, as an answer without a signature or with one of the identity key. -/
theorem execGetMeasurements_of_turn {i : Byte} {is : List Nat} (hi : (if i.toNat = 0xFF then some ((List.range 8).map (· + 1))
      else if 1 ≤ i.toNat ∧ i.toNat ≤ 8 then some [i.toNat] else none) = some is) :
    execGetMeasurements i false n s = .next (s.answer (.measurement (is.map s.measurement) none)).bump
    ∧ execGetMeasurements i true n s = .next (s.mc.signer.elim (s.answer (.spdmError 0x05)) fun k =>
      (s.answer (.measurement (is.map s.measurement) (some (s.sign k)))).bump) := by
  simp only [execGetMeasurements, hi, Bool.false_eq_true, if_false, if_true]
  refine ⟨State.spdmStep_of_turn h ht _, ?_⟩
  split
  next k hk => rw [hk, State.spdmStep_of_turn h ht]; rfl
  next hk => rw [hk, State.spdmStep_of_turn h ht]; rfl

theorem execGetMeasurements_of_noIndex {i : Byte} (hi : i = 0 ∨ (8 < i.toNat ∧ i ≠ 0xFF)) (b : Bool) :
    execGetMeasurements i b n s = .next (s.answer (.spdmError 0x01)) := by
  have hwhich : (if i.toNat = 0xFF then some ((List.range 8).map (· + 1)) else if 1 ≤ i.toNat ∧ i.toNat ≤ 8 then some [i.toNat] else none)
      = none := by
    rcases hi with rfl | ⟨h8, hff⟩
    · rfl
    · have hne : i.toNat ≠ 0xFF := fun he => hff (BitVec.eq_of_toNat_eq he)
      rw [if_neg hne, if_neg fun ⟨_, hle⟩ => by omega]
  simp only [execGetMeasurements, hwhich]
  exact State.spdmStep_of_turn h ht _
end

end Sys2Proof.Machine

open Sys2Proof Sys2Proof.Machine

/-- Settles O57: nothing while a service is down; else message by message. -/
theorem sidebandMessages : Obligations.SidebandMessages := by
  intro s
  refine ⟨fun h => ?unserved, fun h => ⟨execMctpControl_of_down h, fun a i => ?down⟩,
    fun h => ⟨fun c => act_of_true h _ _, fun e => act_of_true h _ _, fun a => act_of_true h _ _,
      fun c i => act_of_true h _ _, fun hm => ⟨fun g i x hx => ?sensor, fun i => ⟨?_, ?_⟩⟩, fun hm a i ha => ?_⟩,
    rfl, fun h => ?served⟩
  case unserved =>
    have hn : (!s.sideband) = true := by rw [h]; rfl
    have step (need : Nat) (t : State) : s.spdmStep need t = .next s := State.spdmStep_of_unserved h need t
    refine ⟨fun _ _ _ => if_pos hn, fun _ => if_pos hn, if_pos hn, fun _ => act_of_false h _ _, fun _ _ => if_pos hn,
      fun _ => if_pos hn, fun _ => if_pos hn, fun _ _ => if_pos hn, step 0 _, step 1 _, fun _ _ => step 2 _, step 3 _,
      fun _ _ => step 3 _, fun n => ?_, fun i b n => ?_⟩
    · obtain ⟨t, ht⟩ := execChallenge_eq (s := s) n
      exact ht.trans (step 3 t)
    · obtain ⟨t, ht⟩ := execGetMeasurements_eq (s := s) i b n
      exact ht.trans (step 3 t)
  case down =>
    by_cases ha : ∃ c, a = .base c
    · obtain ⟨c, rfl⟩ := ha
      exact act_of_false h _ _
    · exact execPldmMonitoring_of_unserved (not_exists.1 ha) (by rw [h]; rfl)
  case sensor => exact execPldmMonitoring_of_figure (by rw [State.pldmFigure, hx]; rfl) h hm
  case served =>
    have early (need : Nat) (hn : s.mc.spdm < need) (t : State) : s.spdmStep need t = .next (s.answer (.spdmError 0x04)) :=
      State.spdmStep_of_early h hn t
    refine ⟨fun d sh i => ?shelf, execSetUtc_of_served h, execMainOn_of_served h, fun n => act_of_true h _ _,
      fun r f => ⟨fun b hb => execLcRequest_of_bad h hb f, fun hb hr => execLcRequest_of_refused h hb hr f,
        fun hb hr => execLcRequest_of_accepted h hb hr f⟩,
      fun r => ⟨fun b hb => execKeyRevoke_of_bad h hb, fun hb hr => execKeyRevoke_of_refused h hb hr,
        fun hb hr => execKeyRevoke_of_accepted h hb hr⟩,
      fun r => ⟨fun hr => execSvnCommit_of_refused h hr, fun hr => execSvnCommit_of_accepted h hr⟩,
      fun p b => ⟨fun hb => execProfileWrite_of_bad h hb, fun hp hb => execProfileWrite_of_good h hp hb⟩,
      State.spdmStep_of_turn h (Nat.zero_le _) _, State.spdmStep_of_served h 1 _, fun a b => State.spdmStep_of_served h 2 _,
      fun ht => ⟨State.spdmStep_of_turn h ht _, fun o n => State.spdmStep_of_turn h ht _, fun n => ?challenge,
        fun i n h1 h8 => ?one, ?all, fun i b n hi => execGetMeasurements_of_noIndex h ht n hi b⟩,
      fun hn => ⟨early 3 hn _, fun o n => early 3 hn _, fun n => ?_, fun i b n => ?_⟩⟩
    case shelf =>
      intro t id
      refine ⟨fun hd => execShelfRecord_of_noFigure h hd i, fun hd hsh hi hs => execShelfRecord_of_same h (by omega) ⟨hi, hs⟩,
        fun hd hsh hs => (execShelfRecord_of_new h (by omega) hs).trans (congrArg _ (State.takeShelf_of_waiting rfl))⟩
    case challenge =>
      refine (execChallenge_of_turn h ht n).trans ?_
      cases s.mc.signer <;> rfl
    case one =>
      obtain ⟨plain, signed⟩ := execGetMeasurements_of_turn h ht n (i := i) (is := [i.toNat]) (by rw [if_neg (by omega), if_pos ⟨h1, h8⟩])
      refine ⟨plain, signed.trans ?_⟩
      cases s.mc.signer <;> rfl
    case all =>
      intro all n
      obtain ⟨plain, signed⟩ := execGetMeasurements_of_turn h ht n (i := 0xFF) (is := (List.range 8).map (· + 1)) rfl
      rw [List.map_map] at plain signed
      refine ⟨plain, fun k hk => signed.trans ?_⟩
      rw [hk]
      rfl
    · obtain ⟨t, ht⟩ := execChallenge_eq (s := s) n
      exact ht.trans (early 3 hn t)
    · obtain ⟨t, ht⟩ := execGetMeasurements_eq (s := s) i b n
      exact ht.trans (early 3 hn t)
  · exact execPldmMonitoring_of_figure (ask := .phasesOk) rfl h hm
  · exact execPldmMonitoring_of_figure (ask := .phasesFitted) rfl h hm
  · exact execPldmMonitoring_of_unserved ha (by rw [hm, Bool.and_false])
end

