-- ==== Sys2Proof/Proofs/ControllersAndLimits.lean ====
section
/-!
SUPPORT. The controllers and their limits (R329 to R339, R345, R356 to R358, R377, R378): restarts, readings with their warnings, trips, the
log and the test of the SRAM, one lemma for each command and outcome.
-/

namespace Sys2Proof.Machine

variable {s : State}

/-! ### Restarts (R329, R335) -/

theorem execBinderWatchdog_eq (s : State) : execBinderWatchdog s = .next (
    if s.pwr.main = true ∧ s.binderRuns = true then
      { s with host := { s.host with binderUp := false, header := BitVec.ofNat 256 s.binderFields } } else s) := by
  rw [execBinderWatchdog, act_eq]
  simp only [Bool.and_eq_true]
  rfl

/-- The main domain is up and its Binder is not (R329). -/
def State.binderAway (s : State) : Prop := s.pwr.main = true ∧ s.host.binderUp = false ∧ 8 ≤ s.pwr.step ∧ s.clk.lost = false

theorem execBinderRestarted_of_away (h : s.binderAway) : execBinderRestarted s = .next (
    ((s.modHost fun h => { h with binderUp := true, binderRestarts := h.binderRestarts + 1 }).raiseDev 0x0415
      [s.host.binderRestarts + 1]).binderInService) := by
  obtain ⟨hm, hb, hs, hl⟩ := h
  rw [execBinderRestarted, if_neg]
  · rfl
  · simp only [hm, hb, hl, Bool.not_true, Bool.false_eq_true, false_or, or_false]
    omega

theorem execBinderRestarted_of_not (h : ¬ s.binderAway) : execBinderRestarted s = .next s := by
  rw [execBinderRestarted, if_pos]
  by_contra hn
  simp only [Bool.not_eq_true', not_or, Bool.not_eq_false, Bool.not_eq_true, not_lt] at hn
  exact h hn

theorem execMcRestart_eq (s : State) : execMcRestart s = .next (
    if s.standbyClocks = true ∧ s.mc.up = false ∧ s.mc.restartCause ≠ 0 then s.bump.mcStart s.mc.restartCause.toNat s.triggersNow
    else s) := by
  rw [execMcRestart, act_eq]
  simp only [Bool.and_eq_true, Bool.not_eq_true', bne_iff_ne, and_assoc]

/-! ### Readings and their warnings (R336, R337, R378) -/

section
variable {g : SensorGroup} {i : Nat} {x : Sensor}

/-- The state that keeps a good reading. -/
def State.keepReading (s : State) (g : SensorGroup) (i : Nat) (r : Reading) (warned : Bool) : State :=
  s.modMc fun m => m.setSensor g i { value := r.value, mean := r.mean, fails := 0, warned := warned }

section
variable (hx : s.mc.sensor? g i = some x) (hm : s.monitors = true) (r : Reading)
include hx hm

theorem execSensorRead_of_good : execSensorRead g i (some r) s = .next (s.takeReading g i x r) := by
  simp only [execSensorRead, hx]
  exact act_of_true hm _ _

theorem execSensorRead_of_failed : execSensorRead g i none s = .next (s.failRead g i x) := by
  simp only [execSensorRead, hx]
  exact act_of_true hm _ _

theorem execSensorRead_of_warning (hb : s.beyond g i r = true) (hw : x.warned = false) :
    execSensorRead g i (some r) s = .next ((s.keepReading g i r true).warn g i r) := by
  rw [execSensorRead_of_good hx hm]
  exact congrArg _ (if_pos ⟨hb, by rw [hw]; rfl⟩)

theorem execSensorRead_of_quiet (hb : s.beyond g i r = false ∨ x.warned = true) :
    execSensorRead g i (some r) s = .next (s.keepReading g i r (x.warned && s.staysWarned g i r)) := by
  rw [execSensorRead_of_good hx hm]
  refine congrArg _ (if_neg fun ⟨hy, hw⟩ => ?_)
  rcases hb with hb | hb
  · exact Bool.false_ne_true (hb.symm.trans hy)
  · rw [hb] at hw; cases hw
end

theorem State.beyond_of_warnLimit {lim : Int} (hl : warnLimit g = some lim) (i : Nat) (r : Reading) :
    s.beyond g i r = decide (lim < r.value) := by
  cases g <;> cases hl <;> rfl

theorem State.staysWarned_of_warnLimit {lim : Int} (hl : warnLimit g = some lim) (i : Nat) (r : Reading) :
    s.staysWarned g i r = decide (lim - 50 < r.value) := by
  cases g <;> cases hl <;> rfl

theorem State.warn_of_warnLimit {lim : Int} (hl : warnLimit g = some lim) (i : Nat) (r : Reading) :
    s.warn g i r = s.raiseDev 0x0419 [item (groupFigure g), item i, itemI r.value] := by
  cases g <;> cases hl <;> rfl

/-- A reading that is kept is there. -/
theorem Mc.sensor?_setSensor {m : Mc} (hx : m.sensor? g i = some x) (y : Sensor) : (m.setSensor g i y).sensor? g i = some y := by
  have hin {n : Nat} {v : Vector Sensor n} (hv : v[i]? = some x) : (v.setIfInBounds i y)[i]? = some y := by
    rw [Vector.getElem?_setIfInBounds_self, if_pos (Vector.getElem?_eq_some_iff.1 hv).1]
  have hone {z : Sensor} (hz : (if i = 0 then some z else none) = some x) : (if i = 0 then some y else none) = some y :=
    if_pos (Option.ite_none_right_eq_some.1 hz).1
  cases g with
  | coolantIn | coolantOut | inputPower => exact hone hx
  | die | stack | board | rail | railCurrent => exact hin hx

theorem State.warn_sensor? (s : State) (g g' : SensorGroup) (i j : Nat) (r : Reading) : (s.warn g i r).mc.sensor? g' j = s.mc.sensor? g' j := by
  have hraise (code : Nat) (items : List W32) : (s.raiseDev code items).mc.sensor? g' j = s.mc.sensor? g' j := by
    cases g' <;> simp only [Mc.sensor?, State.raiseDev_mc_die, State.raiseDev_mc_stackT, State.raiseDev_mc_board, State.raiseDev_mc_rails,
      State.raiseDev_mc_railsCurrent, State.raiseDev_mc_coolIn, State.raiseDev_mc_coolOut, State.raiseDev_mc_power]
  cases g <;> exact hraise _ _
end

/-- Whatever the reading, it is kept, and the sensor has not failed. -/
theorem State.takeReading_sensor? {g : SensorGroup} {i : Nat} {x : Sensor} (hx : s.mc.sensor? g i = some x) (r : Reading) :
    ∃ y, (s.takeReading g i x r).mc.sensor? g i = some y ∧ y.value = r.value ∧ y.mean = r.mean ∧ y.fails = 0 := by
  have hkeep (w : Bool) : (s.keepReading g i r w).mc.sensor? g i = some { value := r.value, mean := r.mean, fails := 0, warned := w } :=
    Mc.sensor?_setSensor hx _
  rw [State.takeReading]
  split
  · exact ⟨_, (State.warn_sensor? _ g g i i r).trans (hkeep true), rfl, rfl, rfl⟩
  · exact ⟨_, hkeep _, rfl, rfl, rfl⟩

/-! ### The rails (R378) -/

theorem State.beyond_rail {i : Nat} {r : Reading} (hv : 3 * ((railOf i).nominal : Int) < 100 * |r.value - (railOf i).nominal|)
    (hm : s.pwr.main = true ∨ 20 ≤ i) : s.beyond .rail i r = true := by
  rw [Int.abs_eq_natAbs] at hv
  rw [State.beyond, Bool.and_eq_true, decide_eq_true_eq, Bool.or_eq_true, decide_eq_true_eq]
  exact ⟨by omega, hm⟩

theorem State.beyond_railCurrent {i : Nat} {r : Reading} (hv : 95 * ((railOf i).maxCurrent : Int) < 100 * r.value) :
    s.beyond .railCurrent i r = true := decide_eq_true hv

theorem setIfInBounds_eq_set {α : Type} {n : Nat} (v : Vector α n) (i : Fin n) (x : α) : v.setIfInBounds i.val x = v.set i.val x i.isLt := by
  ext j hj
  rw [Vector.getElem_setIfInBounds, Vector.getElem_set]

theorem Mc.sensor?_rail (m : Mc) (i : Fin 22) : m.sensor? .rail i.val = some m.rails[i] :=
  Vector.getElem?_eq_getElem i.isLt

theorem Mc.sensor?_railCurrent (m : Mc) (i : Fin 22) : m.sensor? .railCurrent i.val = some m.railsCurrent[i] :=
  Vector.getElem?_eq_getElem i.isLt

/-! ### Reads that fail (R336) -/

section
variable {g : SensorGroup} {i : Nat} {x : Sensor}

theorem State.failRead_of_first (hf : x.fails < 2) :
    s.failRead g i x = s.modMc fun m => m.setSensor g i { x with fails := x.fails + 1 } := by
  have hlive : decide (x.fails = 2) = false := decide_eq_false (by omega)
  simp only [State.failRead, hlive, if_neg (show ¬ 3 ≤ x.fails by omega), Bool.not_false, Bool.false_eq_true, if_true, if_false]

theorem State.failRead_of_failed (hf : 3 ≤ x.fails) : s.failRead g i x = s := if_pos hf

theorem State.failRead_of_third (hf : x.fails = 2) : s.failRead g i x = (
    let t := (s.modMc fun m => m.setSensor g i { x with fails := 3, value := -32768 }).raiseDev 0x041F [item (groupFigure g), item i]
    if g = .die ∧ i < 64 ∧ 5 ≤ t.mc.failedOnTile (i / 16) then t.shutdown (groupFigure g) i (-32768) else t) := by
  simp only [State.failRead, hf, failedReading, decide_true, Bool.not_true, Bool.false_eq_true, if_false, if_true, Nat.reduceLeDiff,
    Nat.reduceAdd]
end

/-! ### Shutdown limits (R337, R374, R377, R378) -/

theorem State.shutdown_of_on (hm : s.pwr.main = true) (group index : Nat) (v : Int) :
    s.shutdown group index v = (s.logTrip group index v).mainOff := if_pos hm

theorem State.shutdown_of_off (hm : s.pwr.main = false) (group index : Nat) (v : Int) : s.shutdown group index v = s :=
  if_neg (by rw [hm]; nofun)

section
variable {g : SensorGroup} {i : Nat} {x : Sensor} {lim : Int} {r : Reading}
  (hl : tripLimit g = some lim) (hx : s.mc.sensor? g i = some x) (hm : s.pwr.main = true) (hf : x.fails < 3)
include hl hx

theorem execThresholdTrip_of_below (hv : r.value ≤ lim) : execThresholdTrip g i r s = .next s := by
  simp only [execThresholdTrip, hl, hx]
  exact if_pos (.inr (.inr hv))

include hm hf

theorem execThresholdTrip_of_above (hv : lim < r.value) (hg : g ≠ .stack) :
    execThresholdTrip g i r s = .next (s.logTrip (groupFigure g) i r.value).mainOff := by
  simp only [execThresholdTrip, hl, hx]
  rw [if_neg (by rw [hm]; simp; omega), if_neg hg, State.shutdown_of_on hm]

theorem execThresholdTrip_of_stack {k : StackId} (hv : lim < r.value) (hg : g = .stack) (hi : i = k.val)
    (hs : (s.stack k).state = .service) : execThresholdTrip g i r s = .next ((s.logTrip (groupFigure g) i r.value).loseStack k) := by
  have hk : (⟨i % 20, Nat.mod_lt _ (by decide)⟩ : StackId) = k := Fin.ext (by rw [hi]; exact Nat.mod_eq_of_lt k.isLt)
  simp only [execThresholdTrip, hl, hx]
  rw [if_neg (by rw [hm]; simp; omega), if_pos hg, hk, if_neg (not_not_intro hs)]
end

theorem State.railsFailed_of_on (hm : s.pwr.main = true) (r : Nat) (v : Int) : s.railsFailed r v = s := if_pos (.inl hm)

theorem mainRail_eq_false {r : Nat} : mainRail r = false ↔ r = 20 ∨ r = 21 := by simp [mainRail]; omega

theorem execRailShutdown_of_on (hm : s.pwr.main = true) (trip : RailTrip) : ∃ g i v,
    execRailShutdown trip s = .next (s.logTrip (groupFigure g) i v).mainOff ∧ (g = .rail ∨ g = .railCurrent ∨ g = .inputPower) := by
  cases trip with
  | voltage r => exact ⟨.rail, _, _, by rw [execRailShutdown, State.railsFailed_of_on hm, State.shutdown_of_on hm], .inl rfl⟩
  | current r => exact ⟨.railCurrent, _, _, by rw [execRailShutdown, State.shutdown_of_on hm], .inr (.inl rfl)⟩
  | powerMean1s => exact ⟨.inputPower, _, _, by rw [execRailShutdown, State.shutdown_of_on hm], .inr (.inr rfl)⟩
  | powerMean10ms => exact ⟨.inputPower, _, _, by rw [execRailShutdown, State.shutdown_of_on hm], .inr (.inr rfl)⟩

theorem execRailShutdown_of_off (hm : s.pwr.main = false) {trip : RailTrip} (ht : ∀ r, trip ≠ .voltage r) :
    execRailShutdown trip s = .next s := by
  cases trip with
  | voltage r => exact absurd rfl (ht r)
  | current r => rw [execRailShutdown, State.shutdown_of_off hm]
  | powerMean1s => rw [execRailShutdown, State.shutdown_of_off hm]
  | powerMean10ms => rw [execRailShutdown, State.shutdown_of_off hm]

theorem State.logTrip_pwr (s : State) (group index : Nat) (v : Int) : (s.logTrip group index v).pwr = s.pwr := by
  simp only [State.logTrip]
  split
  · exact State.log_pwr _ _ _
  · rfl

theorem State.railsFailed_pwr_main (s : State) (r : Nat) (v : Int) : (s.railsFailed r v).pwr.main = s.pwr.main := by
  rw [State.railsFailed]
  split
  · rfl
  · rw [State.modPwr_pwr, State.logTrip_pwr]

theorem execRailShutdown_voltage_of_off (hm : s.pwr.main = false) (r : Fin 22) :
    execRailShutdown (.voltage r) s = .next (if s.pwr.step = 3 ∧ r.val ≠ 20 ∧ r.val ≠ 21 then
      (s.logTrip (groupFigure .rail) r.val s.mc.rails[r].value).modPwr fun p => { p with needMainOn := true } else s) := by
  rw [execRailShutdown, State.shutdown_of_off ((State.railsFailed_pwr_main _ _ _).trans hm), State.railsFailed, ← ite_not]
  refine congrArg _ (if_congr ?_ rfl rfl)
  simp only [hm, mainRail, Bool.false_eq_true, false_or, not_or, not_not, Bool.not_eq_true', Bool.not_eq_false, Bool.and_eq_true, bne_iff_ne]

/-! ### Phases (R375 to R377) -/

section
variable {r : Fin 23} {p : Nat} (hst : s.pwr.standby = true) (hm : s.pwr.main = true) (hp : p < (railOf r.val).fitted)
  (hshed : (r, p) ∉ s.pwr.shed)

/-- The state with a phase out, and its event. -/
def State.withShed (s : State) (r : Fin 23) (p : Nat) : State :=
  let t := s.modPwr fun q => { q with shed := (r, p) :: q.shed }
  t.raiseDev 0x0423 [item r.val, item p, item (t.pwr.phasesOk r.val)]

/-- The phases of a rail that are left. -/
def State.phasesLeft (s : State) (r : Fin 23) (p : Nat) : Nat := { s.pwr with shed := (r, p) :: s.pwr.shed }.phasesOk r.val

include hst hm hp hshed

theorem execPhaseShed_eq : execPhaseShed r p s = .next (
    if s.phasesLeft r p = (railOf r.val).needed then (s.withShed r p).raiseDev 0x0424 [item r.val, item (s.phasesLeft r p)]
    else if s.phasesLeft r p < (railOf r.val).needed then
      if mainRail r.val then (s.withShed r p).shutdown (groupFigure .rail) r.val (s.phasesLeft r p) else (s.withShed r p).allOff
    else s.withShed r p) := by
  rw [execPhaseShed, if_neg]
  · simp only [← apply_ite Host.Outcome.next]
    rfl
  · simp [hst, hm, hshed, hp]
end

/-! ### Tamper (R345, R346) -/

theorem State.wipeClock_iff (s : State) : s.wipeClock = true ↔
    s.standbyClocks = true ∨ (s.pwr.standby = true ∧ s.clk.lost = true ∧ s.now ≤ s.clk.lostAt + 10000) := by
  simp only [State.wipeClock, Bool.or_eq_true, Bool.and_eq_true, decide_eq_true_eq, and_assoc]

theorem execTamperTrigger_eq (c : Fin 6) (n : Nat) : execTamperTrigger c n s = .next (
    if (s.standbyClocks = true ∨ (s.pwr.standby = true ∧ s.clk.lost = true ∧ s.now ≤ s.clk.lostAt + 10000)) ∧ c.val < 4
    then s.wipe c n else s) := by
  rw [execTamperTrigger, act_eq]
  simp only [Bool.and_eq_true, decide_eq_true_eq, State.wipeClock_iff]

/-- A wipe that four retries did not verify closes the ports. -/
theorem State.wipe_ports (s : State) (c : Fin 6) (n : Nat) : (s.wipe c n).mc.tamperCause = s.mc.tamperCause ||| BitVec.ofNat 6 (2 ^ c.val)
    ∧ (4 ≤ n → (s.wipe c n).mc.portClosed = true) := by
  simp only [State.wipe]
  split
  next hn => simp [hn, Mc.clearRegion]
  next hn => exact ⟨by simp [Mc.clearRegion], fun h => absurd h hn⟩

/-! ### The log (R339, R340) -/

theorem execLogFlush_of_due (hm : s.mcRuns = true) (hg : s.host.gate .mcFlash = .opened) (hb : s.mc.logBuf ≠ []) :
    execLogFlush s = .next (
      let t := s.modMc fun m => { m.logBuf.foldl Mc.writeLog m with logBuf := [], logDropped := 0 }
      if s.mc.logDropped = 0 then t else t.log 0x050B [item s.mc.logDropped]) := by
  rw [execLogFlush, if_neg]
  simp [hm, hg, hb]

theorem execLogFlush_of_notDue (h : s.mcRuns = false ∨ s.host.gate .mcFlash ≠ .opened ∨ s.mc.logBuf = []) : execLogFlush s = .next s := by
  rw [execLogFlush, if_pos]
  simpa only [Bool.not_eq_true'] using h

/-! ### The background test of the SRAM (R333, R356 to R358; log entry 40) -/

theorem Mc.giveBack_excluded (m : Mc) : m.giveBack.excluded = m.excluded := by
  unfold Mc.giveBack
  split <;> rfl

section
variable {b : Nat} (ok : Bool) (hm : s.mcRuns = true) (hg : s.host.gate .mcTest = .opened)
include hm hg

theorem execMarchBlockTest_of_free (hb : s.mc.borrowed = none) :
    execMarchBlockTest b ok s = .next (if s.mayBorrow b then s.borrow b else s) := by
  rw [execMarchBlockTest, if_neg (by simp [hm, hg]), hb]
  rfl

theorem execMarchBlockTest_of_other {d : Nat} {save : List Byte} (hb : s.mc.borrowed = some (d, save)) (hd : d ≠ b) :
    execMarchBlockTest b ok s = .next s := by
  rw [execMarchBlockTest, if_neg (by simp [hm, hg]), hb]
  exact if_pos hd

theorem execMarchBlockTest_of_end {save : List Byte} (hb : s.mc.borrowed = some (b, save)) : execMarchBlockTest b ok s = .next (
    if ok then s.modMc Mc.giveBack
    else (s.modMc fun m => { m.giveBack with excluded := b :: m.excluded }).raiseDev 0x0420 [item (256 * b), item (Config.figure 5 0)]) := by
  rw [execMarchBlockTest, if_neg (by simp [hm, hg]), hb]
  refine (if_neg (not_not_intro rfl)).trans ?_
  cases ok
  · rfl
  · exact congrArg (fun m => Host.Outcome.next { s with mc := m }) (congrArg (fun xs => { s.mc.giveBack with excluded := xs })
      s.mc.giveBack_excluded.symm)
end

theorem State.mayBorrow_iff (s : State) (b : Nat) : s.mayBorrow b = true ↔
    s.mc.tested b = true ∧ b ∉ s.mc.excluded ∧ ∀ t, s.mc.borrowedAt = some t → t + 100000 ≤ s.now := by
  simp only [State.mayBorrow, Bool.and_eq_true, Bool.not_eq_true', ← Bool.not_eq_true (List.contains _ _), List.contains_iff_mem,
    Option.all_eq_true, decide_eq_true_eq, and_assoc]

theorem execBorrowedBlockAccess_of_met {a : Nat} {save : List Byte} (hm : s.mcRuns = true) (hb : s.mc.borrowed = some (a / 256, save)) :
    execBorrowedBlockAccess a s = .next (s.modMc Mc.giveBack) := by
  refine act_of_true ?_ _ _
  rw [hm, hb]
  simp

theorem execBorrowedBlockAccess_of_other {a : Nat} (h : s.mcRuns = false ∨ ∀ save, s.mc.borrowed ≠ some (a / 256, save)) :
    execBorrowedBlockAccess a s = .next s := by
  refine act_of_false ?_ _ _
  rcases h with h | h
  · rw [h, Bool.false_and]
  · cases hb : s.mc.borrowed with
    | none => rw [Option.any_none, Bool.and_false]
    | some p =>
      have hp : p.1 ≠ a / 256 := fun hp => h p.2 (hb.trans (congrArg some (Prod.ext hp rfl)))
      rw [Option.any_some, beq_eq_false_iff_ne.2 hp, Bool.and_false]

theorem State.sramByte_of_kept (hb : s.mc.borrowed = none) {a : Nat} (ha : a < 0x3_0000) :
    s.sramByte a = Mem.get zeroByte s.mc.sram a := by
  simp only [State.sramByte, hb, Option.any_none, Bool.false_eq_true, if_false, ha, true_or, if_true]

/-- The memory of a block that was borrowed and given back. -/
theorem State.giveBack_borrow_sram (s : State) (b : Nat) : (s.borrow b).mc.giveBack.sram =
    if 256 * b < 0x3_0000 then Mem.write zeroByte s.mc.sram (256 * b) ((List.range 256).map fun i => s.sramByte (256 * b + i))
    else s.mc.sram := rfl

/-- A block that was borrowed and given back holds what it held. -/
theorem State.sramByte_giveBack_borrow (hb : s.mc.borrowed = none) (b a : Nat) :
    ({ s with mc := (s.borrow b).mc.giveBack } : State).sramByte a = s.sramByte a := by
  have hsram (a : Nat) (ha : a < 0x3_0000 ∨ s.mc.secureBase ≤ a) :
      Mem.get zeroByte (s.borrow b).mc.giveBack.sram a = Mem.get zeroByte s.mc.sram a := by
    rw [State.giveBack_borrow_sram]
    split
    next hlow =>
      rw [Mem.get_write, List.length_map, List.length_range]
      split
      next hin =>
        obtain ⟨j, rfl⟩ := Nat.exists_eq_add_of_le hin.1
        have hj : j < 256 := by omega
        rw [Nat.add_sub_cancel_left, List.getD_eq_getElem _ _ (by simpa using hj), List.getElem_map, List.getElem_range,
          State.sramByte_of_kept hb (by omega)]
      next => rfl
    next => rfl
  have hfree : (s.borrow b).mc.giveBack.borrowed = none := rfl
  simp only [State.sramByte, hb, hfree, Option.any_none, Bool.false_eq_true, if_false]
  refine ite_congr rfl (fun ha => hsram a ha) fun _ => rfl

end Sys2Proof.Machine

open Sys2Proof Sys2Proof.Machine

/-- Settles O56: controllers, readings, limits, wipes, the log and the test of the SRAM, command by command. -/
theorem controllersAndLimits : Obligations.ControllersAndLimits := by
  intro s
  refine ⟨execBinderWatchdog_eq s, ⟨execBinderRestarted_of_away, execBinderRestarted_of_not⟩, act_eq _ _ _, execMcRestart_eq s,
    fun g i x lim r hx hm hl => ?temp, fun i r hm => ?rail, fun g i x hx hm => ?failed, fun h => act_of_true h _ _,
    fun g i x lim r hl hx hm hf => ⟨execThresholdTrip_of_below hl hx, execThresholdTrip_of_above hl hx hm hf,
      fun k => execThresholdTrip_of_stack hl hx hm hf⟩,
    fun hm trip => execRailShutdown_of_on hm trip,
    fun hm => ⟨fun trip ht => execRailShutdown_of_off hm ht, execRailShutdown_voltage_of_off hm⟩,
    fun r p hst hm hp hshed => ?shed, fun c n => execTamperTrigger_eq c n,
    fun c n => ⟨Mc.key_of_clear (s.wipe_wiped c n).clear, s.wipe_ports c n⟩, execLogFlush_of_due, execLogFlush_of_notDue,
    fun b ok hm hg => ?march, fun a => ⟨fun save hm hb => execBorrowedBlockAccess_of_met hm hb, execBorrowedBlockAccess_of_other⟩,
    fun b a hb => State.sramByte_giveBack_borrow hb b a, fun m e => rfl⟩
  case temp =>
    intro y
    refine ⟨fun hv hw => ?_, fun hv => ?_⟩
    · refine (execSensorRead_of_warning hx hm r ((State.beyond_of_warnLimit hl i r).trans (decide_eq_true hv)) hw).trans ?_
      exact congrArg _ (State.warn_of_warnLimit hl i r)
    · refine (execSensorRead_of_quiet hx hm r (hv.imp_left fun hv => ?_)).trans ?_
      · exact (State.beyond_of_warnLimit hl i r).trans (decide_eq_false (not_lt.2 hv))
      · rw [State.staysWarned_of_warnLimit hl]
        rfl
  case rail =>
    intro rail kept
    refine ⟨fun hv hon hw => ?_, fun hv hw => ?_⟩
    · refine (execSensorRead_of_warning (s.mc.sensor?_rail i) hm r (State.beyond_rail hv hon) hw).trans (congrArg _ ?_)
      have hkeep : s.keepReading .rail i.val r true = s.modMc fun m => { m with rails := m.rails.set i kept } :=
        congrArg (fun v => s.modMc fun m => { m with rails := v }) (setIfInBounds_eq_set s.mc.rails i kept)
      have hcurrent : s.mc.railsCurrent[i.val]? = some s.mc.railsCurrent[i] := Vector.getElem?_eq_getElem i.isLt
      rw [hkeep, State.warn, State.modMc_mc, hcurrent]
      rfl
    · refine (execSensorRead_of_warning (s.mc.sensor?_railCurrent i) hm r (State.beyond_railCurrent hv) hw).trans (congrArg _ ?_)
      have hkeep : s.keepReading .railCurrent i.val r true = s.modMc fun m => { m with railsCurrent := m.railsCurrent.set i kept } :=
        congrArg (fun v => s.modMc fun m => { m with railsCurrent := v }) (setIfInBounds_eq_set s.mc.railsCurrent i kept)
      have hvoltage : s.mc.rails[i.val]? = some s.mc.rails[i] := Vector.getElem?_eq_getElem i.isLt
      rw [hkeep, State.warn, State.modMc_mc, hvoltage]
      rfl
  case failed =>
    refine ⟨fun hf => ?_, fun hf => ?_, ?_, fun r => ?_⟩
    · exact (execSensorRead_of_failed hx hm).trans (congrArg _ (State.failRead_of_first hf))
    · exact (execSensorRead_of_failed hx hm).trans (congrArg _ (State.failRead_of_failed hf))
    · intro t hf
      exact (execSensorRead_of_failed hx hm).trans (congrArg _ (State.failRead_of_third hf))
    · obtain ⟨y, hy, kept⟩ := State.takeReading_sensor? hx r
      exact ⟨_, y, execSensorRead_of_good hx hm r, hy, kept⟩
  case shed =>
    intro t n u
    have hshed := execPhaseShed_eq hst hm hp hshed
    have hleft : s.phasesLeft r p = n := rfl
    have hstate : s.withShed r p = u := rfl
    have hon : u.pwr.main = true := by
      rw [State.raiseDev_pwr]
      exact hm
    rw [hleft, hstate] at hshed
    clear_value n u
    refine ⟨fun hn => hshed.trans (congrArg _ ?_), fun hn => hshed.trans (congrArg _ (if_pos hn)), fun hn => hshed.trans (congrArg _ ?_)⟩
    · rw [if_neg (by omega), if_neg (by omega)]
    · rw [if_neg (by omega), if_pos hn, State.shutdown_of_on hon, ← ite_not]
      exact if_congr (by rw [Bool.not_eq_true, mainRail_eq_false]) rfl rfl
  case march =>
    intro may
    refine ⟨fun hb => ⟨fun hmay => ?_, fun hmay => ?_⟩, fun save hb => ?_, fun d save hb hd => execMarchBlockTest_of_other ok hm hg hb hd⟩
    · exact (execMarchBlockTest_of_free ok hm hg hb).trans (congrArg _ (if_pos ((s.mayBorrow_iff b).2 hmay)))
    · exact (execMarchBlockTest_of_free ok hm hg hb).trans (congrArg _ (if_neg (mt (s.mayBorrow_iff b).1 hmay)))
    · exact execMarchBlockTest_of_end ok hm hg hb
end

