-- ==== Sys2Proof/Proofs/FirmwareUpdates.lean ====
section
/-!
SUPPORT. Firmware updates and recovery (R348 to R353): each message in its phase and out of it, what stops a download, and from which
neighbour an image is asked for. The PLDM codes are PRESUMED (log entry 8).
-/

namespace Sys2Proof.Machine

variable {s : State} {c : Component}

/-! ### An update is opened (R351) -/

section
variable (hu : s.updates = true)
include hu

theorem execRequestUpdate_of_idle (hp : s.mc.phase = .idle) (a : Nat) : execRequestUpdate a s
    = .next ((s.modMc fun m => { m with agent := a, component := none, staging := [], chunk := 0 }).toPhase .requested) := by
  rw [execRequestUpdate, hu, hp]
  rfl

theorem execRequestUpdate_of_open (hp : s.mc.phase ≠ .idle) (a : Nat) : execRequestUpdate a s = .next (s.pldm 0x10 0x81) := by
  rw [execRequestUpdate, hu]
  exact if_pos hp

theorem execPassComponentTable_of_requested (hp : s.mc.phase = .requested) {cs : List Component} (hc : cs ≠ []) :
    execPassComponentTable cs s = .next (s.toPhase .table) := by
  refine act_of_true ?_ _ _
  rw [hu, hp, bne_iff_ne.2 hc]
  rfl

theorem execUpdateComponent_of_ready (hp : s.mc.phase = .table ∨ s.mc.phase = .applied) (hr : s.mc.recovery = true → c = .mc) :
    execUpdateComponent c s = .next
      (((s.modMc fun m => { m with component := some c, staging := [], chunk := 0 }).toPhase .sweep1).pldm 0x14 0) := by
  refine act_of_true ?_ _ _
  simp only [hu, Bool.true_and, Bool.and_eq_true, Bool.or_eq_true, beq_iff_eq, Bool.not_eq_true']
  exact ⟨hp, (Bool.eq_false_or_eq_true _).symm.imp_right hr⟩
end

theorem execPassComponentTable_of_other {cs : List Component} (h : s.mc.phase ≠ .requested ∨ cs = []) :
    execPassComponentTable cs s = .next s := by
  refine act_of_false ?_ _ _
  rcases h with h | h
  · rw [beq_eq_false_iff_ne.2 h, Bool.and_false, Bool.false_and]
  · rw [h, bne_self_eq_false, Bool.and_false]

theorem execUpdateComponent_of_notReady (h : ¬ ((s.mc.phase = .table ∨ s.mc.phase = .applied) ∧ (s.mc.recovery = true → c = .mc))) :
    execUpdateComponent c s = .next s := by
  refine act_of_false (Bool.eq_false_iff.2 fun hy => h ?_) _ _
  simp only [Bool.and_eq_true, Bool.or_eq_true, beq_iff_eq, Bool.not_eq_true'] at hy
  obtain ⟨⟨-, hp⟩, hr⟩ := hy
  exact ⟨hp, fun hrec => hr.resolve_left (by rw [hrec]; nofun)⟩

/-! ### The two sweeps (R348 to R351; log entry 55) -/

section
variable {bytes : List Byte} (hu : s.updates = true) (hc : s.mc.component = some c)
include hu hc

/-- The first data of an update: the manifest with its table. -/
theorem execFirmwareData_of_manifest (hp : s.mc.phase = .sweep1) (hs : s.mc.staging = []) : execFirmwareData bytes s = (
    let t := { s.mc with staging := bytes }
    if bytes.length ≠ 512 + 48 * t.stagedDigests.length then .next (s.stopDownload 0x90)
    else match s.mc.checkManifest c t.stagedManifest t.stagedDigests with
      | some x => .next (s.stopDownload x)
      | none => .next (if t.stagedDigests = [] then { s with mc := { t.writeChunk c [] with phase := .sweep2, chunk := 0 } }
          else { s with mc := t })) := by
  rw [execFirmwareData, hc]
  dsimp only
  rw [if_neg (by rw [hu]; nofun), if_pos ⟨hp, hs⟩]
  rfl

theorem execFirmwareData_of_sweep1 (hp : s.mc.phase = .sweep1) (hs : s.mc.staging ≠ []) : execFirmwareData bytes s =
    if (!s.mc.goodChunk bytes) = true then .next (s.stopDownload 0x95)
    else if s.mc.chunk + 1 = s.mc.stagedDigests.length then .next (s.modMc fun m => { m with phase := .sweep2, chunk := 0 })
    else .next (s.modMc fun m => { m with chunk := m.chunk + 1 }) := by
  rw [execFirmwareData, hc]
  dsimp only
  rw [if_neg (by rw [hu]; nofun), if_neg fun h => hs h.2, if_pos hp]

theorem execFirmwareData_of_sweep2 (hp : s.mc.phase = .sweep2) (hn : s.mc.chunk < s.mc.stagedDigests.length)
    (hg : s.host.gate .mcFlash = .opened) : execFirmwareData bytes s =
    if (!s.mc.goodChunk bytes) = true then .next (s.stopDownload 0x95)
    else
      let u := s.modMc fun m => m.writeChunk c bytes
      .next (if s.mc.viaFabric = true ∧ s.mc.chunk + 1 = s.mc.stagedDigests.length then u.fabricImage c else u) := by
  have hother : s.mc.phase ≠ .sweep1 := by rw [hp]; nofun
  rw [execFirmwareData, hc]
  dsimp only
  rw [if_neg (by rw [hu]; nofun), if_neg fun h => hother h.1, if_neg hother, if_pos ⟨hp, hn, hg⟩]
  rfl
end

/-! ### A download that stops (R350, R351, R353) -/

theorem State.askImage_mc (s : State) (c : Component) : ∃ n, (s.askImage c).mc = { s.mc with askedSerial := n } := by
  unfold State.askImage
  split
  · exact ⟨_, rfl⟩
  next l _ =>
    obtain ⟨f, hf⟩ := State.sendDyn_fabricOnly
      (s.modMc fun m => { m with askedSerial := some (BitVec.ofNat 64 (prSerial (s.link l).record.toNat)) })
      (s.link l).partner .device (.fwRequest (BitVec.ofNat 8 (compCode c)))
    exact ⟨_, (congrArg State.mc hf).trans rfl⟩

theorem State.stopDownload_kept (s : State) (x : Nat) : (s.stopDownload x).mc.images = s.mc.images ∧ (s.stopDownload x).mc.staging = []
    ∧ (s.mc.viaFabric = false → (s.stopDownload x).mc.phase = .table ∧ (s.stopDownload x).mc.component = none) := by
  simp only [State.stopDownload]
  split
  next c hv hc =>
    obtain ⟨n, hn⟩ := State.askImage_mc _ c
    rw [hn]
    exact ⟨rfl, rfl, fun hf => absurd (hf.symm.trans hv) Bool.false_ne_true⟩
  next => exact ⟨rfl, rfl, fun hf => by rw [hf]; exact ⟨rfl, rfl⟩⟩

/-! ### Transfer, verification, application and activation (R340, R350 to R352) -/

theorem execTransferComplete_of_done (hu : s.updates = true) (hp : s.mc.phase = .sweep2) (hn : s.mc.chunk = s.mc.stagedDigests.length)
    (hf : s.mc.viaFabric = false) : execTransferComplete s = .next (s.toPhase .transferred) := by
  refine act_of_true ?_ _ _
  rw [hu, hp, hn, hf, beq_self_eq_true s.mc.stagedDigests.length]
  rfl

theorem execTransferComplete_of_other (hp : s.mc.phase ≠ .sweep2) : execTransferComplete s = .next s := by
  refine act_of_false ?_ _ _
  rw [beq_eq_false_iff_ne.2 hp, Bool.and_false, Bool.false_and, Bool.false_and]

theorem execVerifyComplete_of_transferred (hu : s.updates = true) (hc : s.mc.component = some c) (hp : s.mc.phase = .transferred)
    {f : FwImage} (hf : imageOf s.mc.images c = some f) :
    execVerifyComplete s = .next ((s.mc.verify c f).elim ((s.toPhase .verified).answer (.verify 0)) fun x => s.stopDownload x) := by
  simp only [execVerifyComplete, hc, hf]
  rw [if_neg (by rw [hu, hp]; simp)]
  cases s.mc.verify c f <;> rfl

theorem execVerifyComplete_of_other (hp : s.mc.phase ≠ .transferred) : execVerifyComplete s = .next s := by
  unfold execVerifyComplete
  split
  · rfl
  · exact if_pos (.inr hp)

theorem execApplyComplete_of_verified (hu : s.updates = true) (hc : s.mc.component = some c) (hp : s.mc.phase = .verified) :
    execApplyComplete s = .next (((s.logWritten c false).modMc fun m =>
      { m with written := c :: m.written.filter (· ≠ c), component := none, staging := [], chunk := 0 }).toPhase .applied) := by
  simp only [execApplyComplete, hc]
  exact act_of_true (by rw [hu, hp]; rfl) _ _

theorem execApplyComplete_of_other (hp : s.mc.phase ≠ .verified) : execApplyComplete s = .next s := by
  unfold execApplyComplete
  split
  · rfl
  · exact act_of_false (by rw [beq_eq_false_iff_ne.2 hp, Bool.and_false]) _ _

theorem execActivateFirmware_of_applied (hu : s.updates = true) (hp : s.mc.phase = .applied) : execActivateFirmware s = .next (
    let t := ((s.mc.written.foldl State.activateOne s).modMc fun m => { m with written := [] }).toPhase .idle
    if Component.mc ∈ s.mc.written then
      t.modMc fun m => { m with up := false, recovery := false, secretClosed := false, restartCause := 3 } else t) := by
  rw [execActivateFirmware, if_neg (by rw [hu, hp]; simp)]
  refine congrArg _ (if_congr List.contains_iff_mem ?_ rfl)
  generalize ((s.mc.written.foldl State.activateOne s).modMc fun m => { m with written := [] }).toPhase .idle = t
  split
  · rfl
  next hr =>
    rw [Bool.not_eq_true] at hr
    exact congrArg (fun r => t.modMc fun m => { m with up := false, recovery := r, secretClosed := false, restartCause := 3 }) hr

theorem execActivateFirmware_of_other (hp : s.mc.phase ≠ .applied) : execActivateFirmware s = .next s := if_pos (.inr hp)

theorem State.activateOne_kept {f : FwImage} (hf : imageOf s.mc.images c = some f) :
    (s.activateOne c).mc.pending = s.mc.pending.filter (· ≠ c) ++ [c] ∧ (s.activateOne c).mc.images = s.mc.images := by
  simp only [State.activateOne, hf]
  split <;> exact ⟨rfl, rfl⟩

theorem execFwActivateFailed_of_down {old new : FwImage} (ho : s.mc.oldBinder = some old) (hn : imageOf s.mc.running .binder = some new)
    (hb : s.host.binderUp = false) (hm : s.pwr.main = true) : execFwActivateFailed s = .next (
      ((s.modMc fun m => { m with running := putImage m.running .binder old, oldBinder := none }).modHost fun h =>
        { h with binderUp := true }).raiseDev 0x041D [item 2, item (mfVersion new.manifest.toNat)]) := by
  simp only [execFwActivateFailed, ho, hn]
  rw [if_neg (by rw [hb, hm]; simp)]
  rfl

theorem execFwActivateFailed_of_other (h : s.mc.oldBinder = none ∨ s.host.binderUp = true ∨ s.pwr.main = false) :
    execFwActivateFailed s = .next s := by
  unfold execFwActivateFailed
  split
  next old new ho hn => exact if_pos ((h.resolve_left (by rw [ho]; nofun)).imp_right fun h => by rw [h]; rfl)
  next => rfl

/-! ### Recovery over the fabric (R353) -/

/-- A neighbour that advertises an image with a security version of at least ROLLBACK. -/
def State.offersImage (s : State) (c : Component) (l : LaneId) : Prop :=
  (s.link l).open = true ∧ s.mc.rollback ≤ Config.offeredSvn (s.link l).partner (compCode c)

/-- The lanes to such neighbours. -/
def State.offers (s : State) (c : Component) : List LaneId := allLanes.filter fun l =>
  (s.link l).open && decide (s.mc.rollback ≤ Config.offeredSvn (s.link l).partner (compCode c))

theorem State.mem_offers_iff {l : LaneId} : l ∈ s.offers c ↔ s.offersImage c l := by
  simp [State.offers, State.offersImage, allLanes, List.mem_finRange]

theorem foldl_min_le (xs : List Nat) (x : Nat) : xs.foldl min x ≤ x ∧ ∀ y ∈ xs, xs.foldl min x ≤ y := by
  induction xs generalizing x with
  | nil => exact ⟨le_rfl, nofun⟩
  | cons z xs ih =>
    obtain ⟨hx, hxs⟩ := ih (min x z)
    rw [List.foldl_cons]
    refine ⟨hx.trans (min_le_left x z), fun y hy => ?_⟩
    rcases List.mem_cons.1 hy with rfl | hy
    · exact hx.trans (min_le_right x y)
    · exact hxs y hy

theorem foldl_min_mem (xs : List Nat) (x : Nat) : xs.foldl min x ∈ x :: xs := by
  induction xs generalizing x with
  | nil => exact List.mem_singleton_self x
  | cons z xs ih =>
    rw [List.foldl_cons]
    rcases List.mem_cons.1 (ih (min x z)) with h | h
    · rw [h]
      rcases min_choice x z with hm | hm <;> rw [hm] <;> simp
    · exact List.mem_cons_of_mem _ (List.mem_cons_of_mem _ h)

theorem leastOf_le {xs : List Nat} {n : Nat} (h : leastOf xs = some n) {y : Nat} (hy : y ∈ xs) : n ≤ y := by
  cases xs with
  | nil => cases hy
  | cons x xs =>
    obtain rfl := Option.some.inj h
    obtain ⟨hx, hxs⟩ := foldl_min_le xs x
    rcases List.mem_cons.1 hy with rfl | hy
    · exact hx
    · exact hxs y hy

theorem leastOf_mem {xs : List Nat} {n : Nat} (h : leastOf xs = some n) : n ∈ xs := by
  cases xs with
  | nil => cases h
  | cons x xs =>
    obtain rfl := Option.some.inj h
    exact foldl_min_mem xs x

theorem leastOf_eq_none {xs : List Nat} (h : leastOf xs = none) : xs = [] := by
  cases xs with
  | nil => rfl
  | cons x xs => cases h

theorem State.imageSource_spec {l : LaneId} (h : s.imageSource c = some l) :
    s.offersImage c l ∧ ∀ j, s.offersImage c j → (s.link l).partner.toNat ≤ (s.link j).partner.toNat := by
  obtain ⟨n, hn, hl⟩ := Option.bind_eq_some_iff.1 h
  have hmem := State.mem_offers_iff.1 (List.mem_of_find?_eq_some hl)
  have hpartner : (s.link l).partner.toNat = n := by simpa using List.find?_some hl
  refine ⟨hmem, fun j hj => hpartner ▸ leastOf_le hn (List.mem_map_of_mem (State.mem_offers_iff.2 hj))⟩

theorem State.imageSource_none (h : s.imageSource c = none) (j : LaneId) : ¬ s.offersImage c j := by
  intro hj
  have hin := List.mem_map_of_mem (f := fun l => (s.link l).partner.toNat) (State.mem_offers_iff.2 hj)
  cases hn : leastOf ((s.offers c).map fun l => (s.link l).partner.toNat) with
  | none => exact absurd hin (by rw [leastOf_eq_none hn]; nofun)
  | some n =>
    obtain ⟨l, hl, hp⟩ := List.mem_map.1 (leastOf_mem hn)
    have hnone : (leastOf ((s.offers c).map fun l => (s.link l).partner.toNat)).bind (fun n =>
        (s.offers c).find? fun l => (s.link l).partner.toNat == n) = none := h
    rw [hn] at hnone
    exact List.find?_eq_none.1 hnone l hl (beq_iff_eq.2 hp)

end Sys2Proof.Machine

open Sys2Proof Sys2Proof.Machine

/-- Settles O58: an update message by message, then what a recovery asks for. -/
theorem firmwareUpdates : Obligations.FirmwareUpdates := by
  intro s hu m to'
  refine ⟨fun a => ⟨fun hp => execRequestUpdate_of_idle hu hp a, fun hp => execRequestUpdate_of_open hu hp a⟩,
    fun cs => ⟨fun hp hc => execPassComponentTable_of_requested hu hp hc, execPassComponentTable_of_other⟩, fun c => ?component,
    fun c bytes hc hp hs => ?manifest, fun c bytes hc hp hs => ?sweep1, fun c bytes hc hp hn hg => ?sweep2,
    fun x => s.stopDownload_kept x, fun hp hn hf => execTransferComplete_of_done hu hp hn hf, execTransferComplete_of_other,
    fun c f hc hp hf => ?verify, execVerifyComplete_of_other, fun c hc hp => execApplyComplete_of_verified hu hc hp,
    execApplyComplete_of_other, fun hp => execActivateFirmware_of_applied hu hp, execActivateFirmware_of_other,
    fun old new ho hn hb hm => execFwActivateFailed_of_down ho hn hb hm, execFwActivateFailed_of_other,
    fun c f hf => State.activateOne_kept hf, fun c l hl => State.imageSource_spec hl, fun c hn j => State.imageSource_none hn j, ?timeout⟩
  case component =>
    intro ok
    refine ⟨fun h => (execUpdateComponent_of_ready hu h.1 h.2).trans (congrArg _ ?_), execUpdateComponent_of_notReady⟩
    simp only [State.toPhase, State.pldm, State.answer, State.modMc]
    rfl
  case manifest =>
    intro t ds
    have hdata := execFirmwareData_of_manifest (bytes := bytes) hu hc hp hs
    refine ⟨fun hl => hdata.trans (if_pos hl), fun hl => ⟨fun x hx => ?_, fun hx => ?_⟩⟩
    · refine hdata.trans ((if_neg (not_not_intro hl)).trans ?_)
      rw [show s.mc.checkManifest c _ _ = some x from hx]
    · refine hdata.trans ((if_neg (not_not_intro hl)).trans ?_)
      rw [show s.mc.checkManifest c _ _ = none from hx]
      exact congrArg _ (apply_ite (fun m : Mc => ({ s with mc := m } : State)) _ _ _).symm
  case sweep1 =>
    have hdata := execFirmwareData_of_sweep1 (bytes := bytes) hu hc hp hs
    refine ⟨fun hg => hdata.trans (if_pos (by rw [show s.mc.goodChunk bytes = false from hg]; rfl)), fun hg => ?_⟩
    refine hdata.trans ((if_neg (by rw [show s.mc.goodChunk bytes = true from hg]; nofun)).trans ?_)
    exact (apply_ite Host.Outcome.next _ _ _).symm.trans
      (congrArg _ (apply_ite (fun m : Mc => ({ s with mc := m } : State)) _ _ _).symm)
  case sweep2 =>
    have hdata := execFirmwareData_of_sweep2 (bytes := bytes) hu hc hp hn hg
    refine ⟨fun hk => hdata.trans (if_pos (by rw [show s.mc.goodChunk bytes = false from hk]; rfl)), fun hk => ?_⟩
    exact hdata.trans (if_neg (by rw [show s.mc.goodChunk bytes = true from hk]; nofun))
  case verify =>
    have hverify := execVerifyComplete_of_transferred hu hc hp hf
    refine ⟨fun hv => hverify.trans ?_, fun x hv => hverify.trans ?_⟩
    · rw [show s.mc.verify c f = none from hv]
      rfl
    · rw [show s.mc.verify c f = some x from hv]
      rfl
  case timeout =>
    refine (act_eq _ _ _).trans (congrArg _ (if_congr ?_ rfl rfl))
    rw [Bool.and_eq_true]
end

