-- ==== Sys2Proof/Proofs/PowerAndClocks.lean ====
section
/-!
SUPPORT. The input and the hot swap (R371 to R374, R379), and the reference, its PLLs and its ramp (R361, R362, R366, R394, R395).
-/

namespace Sys2Proof.Machine

variable {s : State}

/-! ### The standby, the input and the hot swap -/

theorem execStandbyOn_eq : execStandbyOn s = .next (if s.pwr.standby = true then s else
    (s.modPwr fun p => { p with standby := true }).modMc fun m => { m with fuses := m.fuseArray }) := by
  rw [execStandbyOn, act_eq]
  cases s.pwr.standby <;> rfl

theorem State.tryStep3_of_input (hi : s.pwr.inputOk = true) :
    s.tryStep3 = if s.pwr.step = 2 ∧ s.clk.qualified = true then s.modPwr fun p => { p with step := 3 } else s :=
  if_congr (by rw [hi, eq_self, and_true]) rfl rfl

theorem execHotSwapSwitchOn_eq : execHotSwapSwitchOn s = .next (
    if s.pwr.standby = true ∧ s.pwr.present = true ∧ s.pwr.inputOk = true ∧ s.pwr.breaker = false then
      s.modPwr fun p => { p with switchOn := true } else s) := by
  simp only [execHotSwapSwitchOn, act_eq, Bool.and_eq_true, Bool.not_eq_true', and_assoc]

theorem execModuleExtract_of_absent (hp : s.pwr.present = false) : execModuleExtract s = .next s := if_pos (by rw [hp]; rfl)

theorem execModuleExtract_of_present (hp : s.pwr.present = true) : execModuleExtract s = .next (
    ((s.log 0x050E [item (if s.pwr.main then 1 else 0)]).shutdown (Config.figure 0 7) 0 0).modPwr fun p =>
      { p with present := false, needMainOn := true }) := if_neg (by rw [hp]; nofun)

theorem execBreakerTrip_eq (n : Nat) : execBreakerTrip n s = .next (if s.pwr.switchOn = true ∧ 560 < n then
    (if s.pwr.main = true then (s.logTrip 22 0 n).mainOff else s.logTrip 22 0 n).modPwr fun p =>
      { p with switchOn := false, breaker := true, needMainOn := true } else s) := by
  simp only [execBreakerTrip, State.logTrip_pwr]
  by_cases h : s.pwr.switchOn = true ∧ 560 < n
  · rw [if_pos h, if_neg (by simp [h.1, h.2])]
  · rw [if_neg h, if_pos]
    rcases not_and_or.1 h with h | h
    · exact .inl (by simpa using h)
    · exact .inr (not_lt.1 h)

/-! ### The reference (R361, R362) -/

/-- An MC that only the missing reference holds in its reset: present and never started. -/
def State.heldByReference (s : State) : Prop :=
  s.pwr.present = true ∧ s.mc.up = false ∧ s.mc.recovery = false ∧ s.mc.restartCause = 0

theorem State.heldByReference_iff : s.heldByReference ↔ s.pwr.present = true ∧ (!s.mc.started) = true := by
  simp [State.heldByReference, Mc.started, and_assoc]

theorem execRefclkPresence_of_still (h : s.pwr.standby = false ∨ s.clk.refPresent = true) : execRefclkPresence s = .next s :=
  if_pos (h.imp_left fun h => by rw [h]; rfl)

theorem execRefclkPresence_of_new (hs : s.pwr.standby = true) (hr : s.clk.refPresent = false) :
    execRefclkPresence s = .next (
      let t := s.modClk fun c => { c with refPresent := true }
      if s.pwr.present = true ∧ (!s.mc.started) = true then t.bump.mcStart 0 s.triggersNow else t) := by
  rw [execRefclkPresence, if_neg (by rw [hs, hr]; simp)]

theorem execRefclkQualified_of_still (h : s.pwr.standby = false ∨ s.clk.refPresent = false ∨ s.clk.qualified = true) :
    execRefclkQualified s = .next s :=
  if_pos (h.imp (fun h => by rw [h]; rfl) fun h => h.imp_left fun h => by rw [h]; rfl)

section
variable (hs : s.pwr.standby = true) (hr : s.clk.refPresent = true) (hq : s.clk.qualified = false)
include hs hr hq

theorem execRefclkQualified_of_open : execRefclkQualified s =
    if 1 < s.clk.windowsLeft then .next (s.modClk fun c => { c with windowsLeft := c.windowsLeft - 1 })
    else .next (s.modClk fun c =>
      { c with qualified := true, armed := true, windowsNeed := 1, windowsLeft := 1, lost := false, returning := c.lost,
               stage := if c.lost then 1 else c.stage }).tryStep3 := if_neg (by rw [hs, hr, hq]; simp)
end

/-! ### The PLLs and the ramp (R366, R394, R395) -/

theorem execPllLock_of_still {p : Pll} (h : p ∈ s.clk.locked ∨ s.clk.lost = true) : execPllLock p s = .next s :=
  if_pos (h.imp_left List.contains_iff_mem.2)

section
variable {p : Pll} (hl : p ∉ s.clk.locked) (hn : s.clk.lost = false)
include hl hn

theorem execPllLock_of_open : execPllLock p s =
    if p = .sb then act (s.pwr.standby && s.clk.refPresent && decide (1 ≤ s.pwr.step)) s s.sbLock
    else if !s.mainPlls.contains p ∨ !s.pwr.main ∨ !s.clk.qualified ∨ (s.clk.returning ∧ s.clk.stage < 2) ∨ s.pwr.step < 4 then .next s
    else
      let t := s.modClk fun c => { c with locked := p :: c.locked }
      if t.mainLocked ∧ t.clk.returning ∧ t.clk.stage = 2 then
        .next ((t.modClk fun c => { c with stage := 3 }).modPwr fun p => { p with clkOk := true })
      else .next t :=
  if_neg (not_or.2 ⟨mt List.contains_iff_mem.1 hl, by rw [hn]; nofun⟩)
end

theorem execPllLock_sb (hl : Pll.sb ∉ s.clk.locked) (hn : s.clk.lost = false) : execPllLock .sb s = .next (
    if s.pwr.standby = true ∧ s.clk.refPresent = true ∧ 1 ≤ s.pwr.step then s.sbLock else s) := by
  rw [execPllLock_of_open hl hn, if_pos rfl, act_eq]
  simp only [Bool.and_eq_true, decide_eq_true_eq, and_assoc]

/-- A PLL of the main domain locks where the main domain is in its place of the start or of the return. -/
theorem execPllLock_of_main {p : Pll} (hp : p ≠ .sb) (hin : p ∈ s.mainPlls) (hl : p ∉ s.clk.locked) (hn : s.clk.lost = false)
    (hm : s.pwr.main = true) (hq : s.clk.qualified = true) (hret : s.clk.returning = true → 2 ≤ s.clk.stage) (h4 : 4 ≤ s.pwr.step) :
    execPllLock p s = .next (
      let t := s.modClk fun c => { c with locked := p :: c.locked }
      if t.mainLocked = true ∧ s.clk.returning = true ∧ s.clk.stage = 2 then
        (t.modClk fun c => { c with stage := 3 }).modPwr fun p => { p with clkOk := true }
      else t) := by
  have hopen : ¬ ((!s.mainPlls.contains p) = true ∨ (!s.pwr.main) = true ∨ (!s.clk.qualified) = true
      ∨ (s.clk.returning = true ∧ s.clk.stage < 2) ∨ s.pwr.step < 4) := by
    rw [List.contains_iff_mem.2 hin, hm, hq]
    rintro (h | h | h | ⟨h, h2⟩ | h)
    · nomatch h
    · nomatch h
    · nomatch h
    · exact not_lt.2 (hret h) h2
    · exact not_lt.2 h4 h
  rw [execPllLock_of_open hl hn, if_neg hp, if_neg hopen]
  exact (apply_ite Host.Outcome.next _ _ _).symm

theorem execAclkRampStep_of_end (h8 : 8 ≤ s.clk.ramp) : execAclkRampStep s = .next s := if_pos (.inr (.inr (.inr h8)))

section
variable (hm : s.pwr.main = true) (hn : s.clk.lost = false) (hl : s.mainLocked = true)
include hm hn hl

theorem execAclkRampStep_of_locked (h8 : s.clk.ramp < 8) : execAclkRampStep s =
    let t := s.modClk fun c => { c with ramp := c.ramp + 1 }
    if s.clk.ramp + 1 < 8 then .next t
    else if s.clk.returning = true ∧ s.clk.stage = 3 then .next (t.modClk fun c => { c with stage := 4 })
    else if s.pwr.step = 4 then .next ((t.modPwr fun p => { p with step := 5, clkOk := true }).startLanes)
    else .next t := by
  refine if_neg ?_
  rw [hm, hn, hl]
  simpa using h8
end

/-! ### What a loss of the reference leaves (R362, R394) -/

/-- What the safe states that follow a loss of the reference leave as it was, up to the stop of the counter. -/
def State.outlast (s : State) : Nat × Clocks × (BitVec 40 × Bool) × Memory × W64 :=
  (s.now, s.clk, (s.cad.frame, s.cad.valid), s.dram, s.prog.step)

/-- What the key of the identity rests on (R345). -/
def State.region (s : State) : Memory × BitVec 8448 := (s.mc.sram, s.mc.fuses)

/-- From `s` to `t` neither changes. -/
def State.Outlasts (s t : State) : Prop := t.outlast = s.outlast ∧ t.region = s.region

section
variable {t u : State}

theorem State.Outlasts.refl (s : State) : s.Outlasts s := ⟨rfl, rfl⟩

theorem State.Outlasts.trans (h : s.Outlasts t) (k : t.Outlasts u) : s.Outlasts u := ⟨k.1.trans h.1, k.2.trans h.2⟩

theorem State.Outlasts.foldl {α : Type} {f : State → α → State} (hf : ∀ (s : State) (x : α), s.Outlasts (f s x)) (xs : List α)
    (s : State) : s.Outlasts (xs.foldl f s) :=
  ⟨foldl_keeps State.outlast (fun s x => (hf s x).1) xs s, foldl_keeps State.region (fun s x => (hf s x).2) xs s⟩

theorem State.Outlasts.ite {c : Prop} [Decidable c] (h : s.Outlasts t) (k : s.Outlasts u) : s.Outlasts (if c then t else u) := by
  split
  · exact h
  · exact k

theorem State.FabricOnly.outlasts (h : s.FabricOnly t) : s.Outlasts t := by
  obtain ⟨f, rfl⟩ := h
  exact .refl s
end

theorem State.modFab_outlasts (s : State) (f : Fabric → Fabric) : s.Outlasts (s.modFab f) := .refl s

theorem State.modLink_outlasts (s : State) (l : LaneId) (f : Link → Link) : s.Outlasts (s.modLink l f) := .refl s

theorem State.modCore_outlasts (s : State) (c : CoreId) (f : Core → Core) : s.Outlasts (s.modCore c f) := .refl s

theorem State.raiseDev_outlasts (code : Nat) (items : List W32) : s.Outlasts (s.raiseDev code items) := by
  simp [State.Outlasts, State.outlast, State.region]

theorem State.fault_outlasts (cause who : Nat) : s.Outlasts (s.fault cause who) := by
  rw [State.fault]
  split <;> exact .refl s

theorem State.failLane_outlasts (l : LaneId) : s.Outlasts (s.failLane l) := by
  unfold State.failLane
  split
  · exact .refl s
  · exact (s.modFab_outlasts _).trans (State.fault_outlasts _ _)

theorem State.noteRoot_outlasts : s.Outlasts s.noteRoot := by
  simp only [State.noteRoot]
  split
  · exact .refl s
  · refine State.Outlasts.trans ?_ (State.resendPartner_fabricOnly _).outlasts
    exact ⟨rfl, rfl⟩

theorem State.retryEscape_outlasts : s.Outlasts s.retryEscape := by
  refine .foldl (fun s e => ?_) _ s
  split
  · exact (s.modFab_outlasts _).trans (State.modLink_outlasts _ _ _)
  · exact .refl s

theorem State.topologyChanged_outlasts : s.Outlasts s.topologyChanged := by
  rw [State.topologyChanged]
  exact (s.modFab_outlasts _).trans (State.noteRoot_outlasts.trans State.retryEscape_outlasts)

theorem State.dropLost_outlasts : s.Outlasts s.dropLost := by
  unfold State.dropLost
  split
  · exact .refl s
  · refine .foldl (fun s r => ?_) _ s
    rw [State.wordDone]
    exact (s.modFab_outlasts _).trans (State.modCore_outlasts _ _ _)

theorem State.linkLost_outlasts (l : LaneId) (p : LinkPhase) : s.Outlasts (s.linkLost l p) := by
  simp only [State.linkLost]
  exact ((State.failLane_outlasts l).trans (State.modLink_outlasts _ _ _)).trans <| (State.raiseDev_outlasts _ _).trans
    ((State.topologyChanged_outlasts.trans (State.advertise_fabricOnly _).outlasts).trans State.dropLost_outlasts)

theorem State.takeDown_outlasts (l : LaneId) (p : LinkPhase) : s.Outlasts (s.takeDown l p) := by
  unfold State.takeDown
  split
  case h_1 => exact State.linkLost_outlasts l p
  case h_2 =>
    exact (s.modLink_outlasts _ _).trans (State.topologyChanged_outlasts.trans (State.advertise_fabricOnly _).outlasts)
  all_goals exact s.modLink_outlasts _ _

theorem State.clockLoss_outlasts : s.Outlasts s.clockLoss := by
  unfold State.clockLoss
  split
  next img _ =>
    refine .ite ?_ (.refl s)
    rw [State.abortStep]
    refine State.Outlasts.trans (.trans (.foldl (fun s c => ?_) _ s) (State.modFab_outlasts _ _)) (State.fault_outlasts _ _)
    exact s.modCore_outlasts _ _
  next => exact .refl s

theorem State.wipeSelf_outlast (cause : Fin 6) : (s.wipeSelf cause).outlast = s.outlast := by
  simp only [State.wipeSelf, State.wipe]
  split <;> simp [State.outlast]

/-! ### The lanes at a loss of the reference -/

theorem State.modFab_keepsPhases (s : State) {f : Fabric → Fabric} (hf : ∀ x, (f x).links = x.links) : s.KeepsPhases (s.modFab f) :=
  .of_links (hf s.fab)

theorem State.failLane_keepsPhases (l : LaneId) : s.KeepsPhases (s.failLane l) := by
  unfold State.failLane
  split
  · exact .refl s
  · exact .of_links (by rw [State.fault_fab]; rfl)

theorem State.topologyChanged_keepsPhases : s.KeepsPhases s.topologyChanged := by
  rw [State.topologyChanged]
  refine (s.modFab_keepsPhases ?_).trans (State.noteRoot_keepsPhases.trans State.retryEscape_keepsPhases)
  exact fun _ => rfl

theorem State.flood_keepsPhases (but : Option LaneId) (m : Msg) : s.KeepsPhases (s.flood but m) := by
  unfold State.flood
  split
  · exact .refl s
  · refine .foldl (fun s l => ?_) _ s
    exact (s.emit_keepsPhases _ _ _ _ _ _ _ _ _).trans (State.modFab_keepsPhases _ fun _ => rfl)

theorem State.advertise_keepsPhases : s.KeepsPhases s.advertise := by
  unfold State.advertise
  split
  · exact (s.modFab_keepsPhases fun _ => rfl).trans (State.flood_keepsPhases _ _)
  · exact .refl s

theorem State.dropLost_keepsPhases : s.KeepsPhases s.dropLost := by
  unfold State.dropLost
  split
  · exact .refl s
  · refine .foldl (fun s r => ?_) _ s
    exact .of_links rfl

/-- A lane that is taken down has the phase given, the others stay. -/
theorem State.takeDown_phase (l m : LaneId) (p : LinkPhase) :
    ((s.takeDown l p).link m).phase = if m = l then p else (s.link m).phase := by
  have hcut {u : State} {f : Link → Link} (hf : (f (u.link l)).phase = p) :
      ((u.modLink l f).link m).phase = if m = l then p else (u.link m).phase := by
    rw [State.link_modLink]
    split
    · exact hf
    · rfl
  unfold State.takeDown
  split
  case h_1 =>
    simp only [State.linkLost]
    rw [State.dropLost_keepsPhases m, State.advertise_keepsPhases m, State.topologyChanged_keepsPhases m,
      State.KeepsPhases.of_links (congrArg Fabric.links (State.raiseDev_fab _ _ _)) m, hcut rfl, State.failLane_keepsPhases l m]
  case h_2 => exact (State.topologyChanged_keepsPhases.trans State.advertise_keepsPhases m).trans (hcut rfl)
  all_goals exact hcut rfl

/-- A lane on its way up, or up, is taken down to its negotiation. -/
def State.lowerLane (s : State) (l : LaneId) : State :=
  if (s.link l).open ∨ (s.link l).bringUp then s.takeDown l .negotiating else s

theorem State.lowerLane_outlasts (l : LaneId) : s.Outlasts (s.lowerLane l) := .ite (State.takeDown_outlasts l _) (.refl s)

theorem State.lowerLane_phase_ne_up (l m : LaneId) (h : m = l ∨ (s.link m).phase ≠ .up) : ((s.lowerLane l).link m).phase ≠ .up := by
  unfold State.lowerLane
  split
  next hl =>
    rw [State.takeDown_phase]
    split
    · nofun
    next hm => exact h.resolve_left hm
  next hl =>
    rcases h with rfl | h
    · exact fun hu => hl (.inl (Link.open_iff.2 (.inl hu)))
    · exact h

theorem State.foldl_lowerLane_phase_ne_up (ls : List LaneId) (s : State) (m : LaneId) (h : m ∈ ls ∨ (s.link m).phase ≠ .up) :
    ((ls.foldl State.lowerLane s).link m).phase ≠ .up := by
  induction ls generalizing s with
  | nil => exact h.resolve_left List.not_mem_nil
  | cons l ls ih =>
    rw [List.foldl_cons]
    refine ih (s.lowerLane l) ?_
    rcases h with h | h
    · exact (List.mem_cons.1 h).symm.imp_right fun h => State.lowerLane_phase_ne_up l m (.inl h)
    · exact .inr (State.lowerLane_phase_ne_up l m (.inr h))

/-! ### The loss of the reference -/

theorem execRefclkLoss_of_unarmed (ha : s.clk.armed = false) :
    execRefclkLoss s = .next (s.modClk fun c => { c with windowsLeft := c.windowsNeed }) := if_pos (by rw [ha]; rfl)

/-- The state of a device whose reference is lost, once its region is wiped, its step aborted and its lanes are down. -/
def State.lowered (s : State) : State :=
  let w := s.wipeSelf 2
  allLanes.foldl State.lowerLane (if w.pwr.main then w.clockLoss else w)

/-- The ports at a loss of the reference. -/
def HostIf.portsDown (h : HostIf) (now : Nat) : HostIf :=
  { h with portA := { h.portA with up := false, downAt := if h.portA.up then now else h.portA.downAt },
           portB := { h.portB with up := false, downAt := if h.portB.up then now else h.portB.downAt } }

/-- The ports, the stacks, the counter and the power at a loss of the reference (R394). -/
def State.safe (s : State) : State :=
  let t := s.modHost fun h => h.portsDown s.now
  ((({ t with hbm := t.hbm.map fun (k : Stack) => { k with selfRefresh := true } } : State).modCad Cadence.stop).modPwr
    fun p => { p with alert := true, clkOk := false })

theorem execRefclkLoss_of_armed (ha : s.clk.armed = true) : execRefclkLoss s = .next (s.lowered.safe.modClk fun c =>
    { c with qualified := false, armed := false, lost := true, returning := false, stage := 0, locked := [], ramp := 0,
             windowsNeed := if s.twoWindows then 2 else 1, windowsLeft := if s.twoWindows then 2 else 1, bypass := s.pllLocking,
             portsBack := [PciePort.a, PciePort.b].filter fun p => (s.host.port p).up || s.clk.portsBack.contains p,
             lostAt := s.lowered.safe.now, lostFrame := s.lowered.safe.cad.frame }) := by
  rw [execRefclkLoss, if_neg (by rw [ha]; nofun)]
  rfl

theorem State.lowered_outlasts_wipeSelf : (s.wipeSelf 2).Outlasts s.lowered := by
  simp only [State.lowered]
  exact (State.Outlasts.ite State.clockLoss_outlasts (.refl _)).trans (.foldl (fun s l => State.lowerLane_outlasts l) _ _)

theorem State.lowered_outlast : s.lowered.outlast = s.outlast :=
  State.lowered_outlasts_wipeSelf.1.trans (State.wipeSelf_outlast 2)

theorem State.Wiped.key_of_region {t u : State} (h : s.Wiped t) (hr : u.region = t.region) : u.mc.key = none := by
  have hsram : u.mc.sram = t.mc.sram := congrArg Prod.fst hr
  have hfuses : u.mc.fuses = t.mc.fuses := congrArg Prod.snd hr
  refine Mc.key_of_clear fun a ha => ?_
  rw [hsram]
  rw [Mc.secureBase_congr hfuses] at ha
  exact h.clear a ha

theorem State.lowered_key : s.lowered.mc.key = none := (s.wipeSelf_wiped 2).key_of_region State.lowered_outlasts_wipeSelf.2

theorem State.lowered_phase_ne_up (l : LaneId) : (s.lowered.link l).phase ≠ .up :=
  State.foldl_lowerLane_phase_ne_up _ _ l (.inl (List.mem_finRange l))

/-- What `lowered` keeps, field by field. -/
theorem State.lowered_kept : s.lowered.now = s.now ∧ s.lowered.clk = s.clk ∧ s.lowered.cad.frame = s.cad.frame
    ∧ s.lowered.cad.valid = s.cad.valid ∧ s.lowered.dram = s.dram ∧ s.lowered.prog.step = s.prog.step := by
  have h : s.lowered.outlast = s.outlast := State.lowered_outlast
  simp only [State.outlast, Prod.mk.injEq] at h
  obtain ⟨hnow, hclk, ⟨hframe, hvalid⟩, hdram, hstep⟩ := h
  exact ⟨hnow, hclk, hframe, hvalid, hdram, hstep⟩

/-- The stop of the counter keeps its frame, as the last of the gap where the counter was valid. -/
theorem Cadence.stop_frame (c : Cadence) : c.stop.frame = c.frame ∧ c.stop.valid = false
    ∧ (c.valid = true → c.stop.gapFrame = some c.frame) := ⟨rfl, rfl, fun h => if_pos h⟩

/-- What the safe states leave, and what they say of the ports, the stacks, the counter and the power. -/
theorem State.safe_kept (s : State) : s.safe.now = s.now ∧ s.safe.clk = s.clk ∧ s.safe.cad = s.cad.stop ∧ s.safe.fab = s.fab
    ∧ s.safe.mc = s.mc ∧ s.safe.dram = s.dram ∧ s.safe.prog = s.prog := ⟨rfl, rfl, rfl, rfl, rfl, rfl, rfl⟩

theorem State.safe_safe (s : State) : s.safe.host.portA.up = false ∧ s.safe.host.portB.up = false
    ∧ (∀ k, (s.safe.stack k).selfRefresh = true) ∧ s.safe.pwr.alert = true ∧ s.safe.pwr.clkOk = false :=
  ⟨rfl, rfl, fun k => by simp [State.safe, State.stack], rfl, rfl⟩

/-! ### The end of the return (R394; log entry 55) -/

/-- The return may end: the lanes of the program are settled and no port is awaited. -/
def State.mayEndReturn (s : State) : Bool := s.lanesSettled && s.clk.portsBack == []

theorem State.linkEntries_congr {t : State} (hd : t.dram = s.dram) (he : t.dramEpoch = s.dramEpoch) (img : Image) :
    t.linkEntries img = s.linkEntries img := by
  have hnat (a n : Nat) : t.dramNat a n = s.dramNat a n := by rw [State.dramNat, State.dramNat, State.dramRead, State.dramRead, hd, he]
  have hentry : t.linkEntry img = s.linkEntry img := funext fun i => hnat _ _
  rw [State.linkEntries, State.linkEntries, State.slotHeader, State.slotHeader, hnat, hentry]

theorem State.lanesSettled_congr {t : State} (ha : t.prog.active = s.prog.active) (hd : t.dram = s.dram) (he : t.dramEpoch = s.dramEpoch)
    (hf : t.fab = s.fab) : t.lanesSettled = s.lanesSettled := by
  unfold State.lanesSettled
  rw [ha, hf]
  cases s.prog.active with
  | none => rfl
  | some img => exact congrArg (List.all · _) (State.linkEntries_congr hd he img)

theorem State.setLastFrame_kept (s : State) (f : BitVec 40) : (s.setLastFrame f).clk = s.clk ∧ (s.setLastFrame f).fab = s.fab
    ∧ (s.setLastFrame f).hbm = s.hbm ∧ (s.setLastFrame f).pwr = s.pwr ∧ (s.setLastFrame f).lanesSettled = s.lanesSettled := by
  rw [State.setLastFrame, State.mapCores]
  exact ⟨rfl, rfl, rfl, rfl, State.lanesSettled_congr rfl rfl rfl rfl⟩

/-- The state whose return has ended: the last frame is that of the counter where a program is in its steps. -/
def State.returned (s : State) : State :=
  let t := s.modClk fun c => { c with returning := false }
  if t.prog.released ∧ t.cad.valid then t.setLastFrame t.cad.frame else t

theorem State.returned_kept : s.returned.clk = { s.clk with returning := false } ∧ s.returned.fab = s.fab ∧ s.returned.hbm = s.hbm
    ∧ s.returned.pwr = s.pwr ∧ s.returned.lanesSettled = s.lanesSettled := by
  simp only [State.returned]
  split
  · exact State.setLastFrame_kept _ _
  · exact ⟨rfl, rfl, rfl, rfl, rfl⟩

/-- The clocks in the last stage: the return is over where it may end, and with it the stage once no lane is on its way up. -/
def State.lastClocks (s : State) : Clocks :=
  { s.clk with returning := !s.mayEndReturn, stage := if s.mayEndReturn = true ∧ ∀ l, (s.link l).bringUp = false then 0 else 5 }

theorem State.any_bringUp_iff : (allLanes.any fun l => (s.link l).bringUp) = true ↔ ¬ ∀ l, (s.link l).bringUp = false := by
  simp [allLanes, List.mem_finRange]

theorem State.endReturn_of_last (h5 : s.clk.stage = 5) (hr : s.clk.returning = true) : s.endReturn =
    if s.mayEndReturn = true then
      if ∀ l, (s.link l).bringUp = false then s.returned.modClk fun c => { c with stage := 0 } else s.returned
    else s := by
  have hcond : (s.clk.returning = true ∧ s.lanesSettled = true ∧ s.clk.portsBack = []) ↔ s.mayEndReturn = true := by
    simp only [State.mayEndReturn, Bool.and_eq_true, beq_iff_eq, hr, true_and]
  simp only [State.endReturn]
  rw [if_neg (not_not_intro h5)]
  simp only [hcond]
  split
  next hmay =>
    obtain ⟨hclk, hfab, -⟩ := s.returned_kept
    have hlink (l : LaneId) : s.returned.link l = s.link l := by rw [State.link, State.link, hfab]
    have hany : (s.returned.clk.returning = true ∨ (allLanes.any fun l => (s.returned.link l).bringUp) = true)
        ↔ ¬ ∀ l, (s.link l).bringUp = false := by
      simp only [hclk, hlink, Bool.false_eq_true, false_or, State.any_bringUp_iff]
    refine Eq.trans (if_congr hany rfl rfl) ?_
    exact ite_not _ _ _
  next => exact if_pos (.inl hr)

theorem State.endReturn_kept (h5 : s.clk.stage = 5) (hr : s.clk.returning = true) : s.endReturn.clk = s.lastClocks
    ∧ s.endReturn.fab = s.fab ∧ s.endReturn.hbm = s.hbm ∧ s.endReturn.pwr = s.pwr ∧ s.endReturn.lanesSettled = s.lanesSettled := by
  obtain ⟨hclk, hfab, hhbm, hpwr, hset⟩ := s.returned_kept
  have hended := State.endReturn_of_last h5 hr
  rw [hended, State.lastClocks]
  by_cases hmay : s.mayEndReturn = true
  · rw [if_pos hmay]
    by_cases hall : ∀ l, (s.link l).bringUp = false
    · rw [if_pos hall, if_pos ⟨hmay, hall⟩, hmay]
      exact ⟨congrArg (fun c => { c with stage := 0 }) hclk, hfab, hhbm, hpwr, hset⟩
    · rw [if_neg hall, if_neg fun h => hall h.2, hmay, ← h5]
      exact ⟨hclk, hfab, hhbm, hpwr, hset⟩
  · rw [if_neg hmay, if_neg fun h => hmay h.1, Bool.eq_false_iff.2 hmay, ← h5, Bool.not_false, ← hr]
    exact ⟨rfl, rfl, rfl, rfl, rfl⟩

/-- The stacks and the clocks at the end of the retraining, and the start where it waited for it. -/
def State.retrained (s : State) : State :=
  let s : State := { s with hbm := s.hbm.map fun (k : Stack) =>
    if k.state = .service ∧ 6 ≤ s.pwr.step then { k with selfRefresh := false } else k }
  let s := s.modClk fun c => { c with stage := 5 }
  let s := if s.pwr.step = 4 then (s.modPwr fun p => { p with step := 5 }).startLanes else s
  if s.pwr.step = 10 ∧ s.deviceState = 0 then s.modPwr fun p => { p with alert := false } else s

theorem execStackRetrainDone_of_last (hm : s.pwr.main = true) (hn : s.clk.lost = false) (hr : s.clk.returning = true)
    (h4 : s.clk.stage = 4) : execStackRetrainDone s = .next s.retrained.endReturn := by
  rw [execStackRetrainDone, if_neg (by rw [hm, hn, hr, h4]; simp)]
  rfl

theorem State.retrained_kept : s.retrained.clk = { s.clk with stage := 5 }
    ∧ s.retrained.hbm = s.hbm.map (fun k => if k.state = .service ∧ 6 ≤ s.pwr.step then { k with selfRefresh := false } else k)
    ∧ s.retrained.pwr.step = if s.pwr.step = 4 then 5 else s.pwr.step := by
  simp only [State.retrained]
  split
  next h =>
    split <;> exact ⟨rfl, rfl, (if_pos h).symm⟩
  next h =>
    split <;> exact ⟨rfl, rfl, (if_neg h).symm⟩

end Sys2Proof.Machine

open Sys2Proof Sys2Proof.Machine

/-- Settles O59, one lemma per command and outcome; a loss of the reference by the parts it leaves, the end of a return by its stages. -/
theorem powerAndClocks : Obligations.PowerAndClocks := by
  intro s off bad
  refine ⟨execStandbyOn_eq, rfl, ⟨rfl, rfl, rfl, rfl, rfl, rfl, rfl⟩, ⟨rfl, rfl, rfl, rfl, rfl, rfl, rfl, rfl⟩, rfl, rfl, rfl, ?start,
    execHotSwapSwitchOn_eq, execModuleExtract_of_absent, execModuleExtract_of_present, execBreakerTrip_eq, ?presence, ?qualified,
    execRefclkQualified_of_still, execRefclkLoss_of_unarmed, ?loss, fun p h => execPllLock_of_still h, fun hl hn => execPllLock_sb hl hn,
    fun p hp hin hl hn hm hq hret h4 => execPllLock_of_main hp hin hl hn hm hq hret h4, ?ramp, ?retrain⟩
  case start =>
    intro t hs
    refine (act_of_true hs _ _).trans (congrArg _ ?_)
    exact State.tryStep3_of_input rfl
  case presence =>
    intro t held
    refine ⟨execRefclkPresence_of_still, fun hs hr hh => ?_, fun hs hr hh => ?_⟩
    · exact (execRefclkPresence_of_new hs hr).trans (congrArg _ (if_pos (State.heldByReference_iff.1 hh)))
    · exact (execRefclkPresence_of_new hs hr).trans (congrArg _ (if_neg fun h => hh (State.heldByReference_iff.2 h)))
  case qualified =>
    intro hs hr hq
    have hopen := execRefclkQualified_of_open hs hr hq
    exact ⟨fun h => hopen.trans (if_pos h), fun h => hopen.trans (if_neg (not_lt.2 h))⟩
  case loss =>
    intro ha
    obtain ⟨hnow, hclk, hframe, hvalid, hdram, hstep⟩ := s.lowered_kept
    obtain ⟨know, kclk, kcad, kfab, kmc, kdram, kprog⟩ := s.lowered.safe_kept
    obtain ⟨hportA, hportB, hself, halert, hclkOk⟩ := s.lowered.safe_safe
    have hphase := s.lowered_phase_ne_up
    have hkey := s.lowered_key
    have hexec := execRefclkLoss_of_armed ha
    generalize s.lowered = l at *
    generalize l.safe = t at *
    refine ⟨_, hexec, ?_, ?_, ?_, fun hv => ?_, fun i => ?_, hportA, hportB, hself, ?_, halert, hclkOk, kdram.trans hdram, ?_⟩
    · simp only [State.modClk, know, kclk, kcad, Cadence.stop_frame, hnow, hclk, hframe]
    · exact (congrArg Cadence.valid kcad).trans l.cad.stop_frame.2.1
    · exact (congrArg Cadence.frame kcad).trans (l.cad.stop_frame.1.trans hframe)
    · exact (congrArg Cadence.gapFrame kcad).trans ((l.cad.stop_frame.2.2 (hvalid.trans hv)).trans (congrArg some hframe))
    · exact (congrArg (fun f : Fabric => f.links[i].phase) kfab).trans_ne (hphase i)
    · exact (congrArg Mc.key kmc).trans hkey
    · exact (congrArg Program.step kprog).trans hstep
  case ramp =>
    intro hm hn hl t
    have hstep (h8 : s.clk.ramp < 8) := execAclkRampStep_of_locked hm hn hl h8
    refine ⟨fun h => (hstep (by omega)).trans (if_pos (by omega)), fun h hr h3 => ?_, fun h hr => ?_, execAclkRampStep_of_end⟩
    · exact (hstep (by omega)).trans ((if_neg (by omega)).trans (if_pos ⟨hr, h3⟩))
    · refine (hstep (by omega)).trans ((if_neg (by omega)).trans ((if_neg hr).trans ?_))
      exact (apply_ite Host.Outcome.next _ _ _).symm
  case retrain =>
    intro hm hn hr h4
    obtain ⟨hclk, hhbm, hstep⟩ := s.retrained_kept
    have h5 : s.retrained.clk.stage = 5 := by rw [hclk]
    have hret : s.retrained.clk.returning = true := by rw [hclk]; exact hr
    obtain ⟨hclk', hfab', hhbm', hpwr', hset'⟩ := State.endReturn_kept h5 hret
    refine ⟨_, execStackRetrainDone_of_last hm hn hr h4, ?_, fun k => ?_, (congrArg Power.step hpwr').trans hstep⟩
    · have hlink (l : LaneId) : s.retrained.endReturn.link l = s.retrained.link l := by rw [State.link, State.link, hfab']
      rw [hclk', State.lastClocks, State.mayEndReturn, hset', hclk]
      simp only [hlink, Bool.and_eq_true, beq_iff_eq, Bool.not_and, and_assoc, bne]
    · rw [State.stack, hhbm', hhbm]
      simp only [Fin.getElem_fin, Vector.getElem_map]
      exact apply_ite Stack.selfRefresh _ _ _
end
